-- ==== Sys2Proof/Word.lean ====
section
/-! DEFINITION. The word types of the Efdor: bytes, 32-bit registers and parcels, 64-bit pairs and 128-bit quads. -/

namespace Sys2Proof

/-- One byte of storage (R5). -/
abbrev Byte := BitVec 8

/-- A general register, a parcel, a 32-bit operand (R16, R64). -/
abbrev Word := BitVec 32

/-- A 64-bit operand: a register pair, a drover register, a virtual address (R17, R75, R195). -/
abbrev DWord := BitVec 64

/-- A 128-bit operand: a register quad, the full width of a bypass latch (R17, R20). -/
abbrev QWord := BitVec 128

end Sys2Proof
end

