-- ==== Sys2Proof/Syntax.lean ====
section
/-! DEFINITION. The abstract syntax: the operand fields of the four formats, the sub-kinds a row of the opcode table
covers, and `Instr`, one constructor per row. Rows without an encoding (events, commands) are constructors too. -/

namespace Sys2Proof

/-- Typed integer element types, in the order T = 0..7 of Table 13 (R90, R97). -/
inductive IntTy where
  | s32 | n32 | s16x2 | n16x2 | s8x4 | n8x4 | s64 | n64
deriving DecidableEq, Repr

/-- Floating-point element types, T = 0..3 of Table 15 (R90, R119). -/
inductive FpTy where
  | f32 | f16x2 | bf16x2 | f64
deriving DecidableEq, Repr

/-- Special-function types, T = 0..2 of Table 17 (R90, R134). -/
inductive SfTy where
  | f32 | f16x2 | bf16x2
deriving DecidableEq, Repr

/-- Rounding modes (R44). -/
inductive Rounding where
  | rn | rz | rd | ru
deriving DecidableEq, Repr

/-- Microscaling element formats in the opcode order of R126 and R128. -/
inductive MxFmt where
  | e4m3 | e5m2 | e3m2 | e2m3 | e2m1 | mxi8
deriving DecidableEq, Repr

/-- The private spaces (R34). -/
inductive PrivSpace where
  | t | k
deriving DecidableEq, Repr

/-- Load types in the order of Table 19 (R90, R111). -/
inductive LoadTy where
  | s8 | n8 | s16 | n16 | b32 | b64 | b128
deriving DecidableEq, Repr

/-- Store types in the order of Table 19 (R90, R111). -/
inductive StoreTy where
  | b8 | b16 | b32 | b64 | b128
deriving DecidableEq, Repr

/-- The types of ld.acq, st.rel, ld.ua, st.ua, ld.adv, chk and atom.cas (R90 Tables 19 and 20). -/
inductive WideTy where
  | b32 | b64 | b128
deriving DecidableEq, Repr

/-- Types of atom.add and red.add (R90 Table 20). -/
inductive AddTy where
  | n32 | n64 | f32 | f64 | f16x2 | bf16x2
deriving DecidableEq, Repr

/-- Types of atom.min and atom.max, and of the reductions (R90 Table 20). -/
inductive MinTy where
  | s32 | n32 | s64 | n64 | f32
deriving DecidableEq, Repr

/-- Types of the bitwise atomics and of atom.exch (R90 Table 20). -/
inductive BitTy where
  | b32 | b64
deriving DecidableEq, Repr

/-- Derivative types (R164 Table 1). -/
inductive DerivTy where
  | f32 | f16x2
deriving DecidableEq, Repr

/-- The operations of cred, in opcode order from 0x1CD (R170 Table 3). -/
inductive CredOp where
  | addS32 | minS32 | maxS32 | minN32 | maxN32 | andB32 | orB32 | xorB32 | addF32 | minF32 | maxF32
deriving DecidableEq, Repr

/-- The operations of scan, in opcode order from 0x1D8 (R170 Table 3). -/
inductive ScanOp where
  | addS32 | addF32 | maxS32 | minS32
deriving DecidableEq, Repr

/-- The operations of scanx, in opcode order from 0x1DC (R170 Table 3). -/
inductive ScanxOp where
  | addS32 | addF32
deriving DecidableEq, Repr

/-- The scalar and 16-bit conversions, in opcode order from 0x100 (R125 Table 4). -/
inductive ScalarCvt where
  | f32F64 | f64F32 | f16x2F32 | bf16x2F32 | f32F16 | f32Bf16 | f16x2Bf16x2 | bf16x2F16x2
  | s32F32 | n32F32 | f32S32 | f32N32 | s64F64 | n64F64 | f64S64 | f64N64 | s32F64 | f64S32
  | s16x2F16x2 | f16x2S16x2
deriving DecidableEq, Repr

/-- The fields of a V64 word (R65 Table 1). -/
structure V64 where
  ret : BitVec 2
  mc : BitVec 3
  mb : BitVec 3
  ma : BitVec 3
  sc : BitVec 10
  sb : BitVec 10
  sa : BitVec 10
  nwb : BitVec 1
  dst : BitVec 10
deriving DecidableEq, Repr, Inhabited

/-- The fields of a V64I word (R66 Table 2). -/
structure V64I where
  imm : BitVec 32
  sa : BitVec 10
  dst : BitVec 10
deriving DecidableEq, Repr, Inhabited

/-- The operand fields of a register or immediate form. -/
inductive Operands where
  | v64 (f : V64)
  | v64i (f : V64I)
deriving DecidableEq, Repr, Inhabited

/-- One slot of a P96 word (R68 Table 3). -/
structure PairSlot where
  sc : BitVec 10
  sb : BitVec 10
  sa : BitVec 10
  dst : BitVec 10
  op7 : BitVec 7
deriving DecidableEq, Repr, Inhabited

/-- A P96 word: slot 1 above slot 0 (R68). -/
structure PairWord where
  s1 : PairSlot
  s0 : PairSlot
deriving DecidableEq, Repr, Inhabited

/-- The fields of an X128 word (R69 Table 4); SPEC is word bits 95..52, FLAGS 101..96. -/
structure Extended where
  mfa : BitVec 8
  mfb : BitVec 8
  sci : BitVec 6
  sub : BitVec 4
  flags : BitVec 6
  spec : BitVec 44
  sc : BitVec 10
  sb : BitVec 10
  sa : BitVec 10
  dst : BitVec 10
deriving DecidableEq, Repr, Inhabited

/-- Who acts from outside on a register of the device: a host by its port, or the management port (R385, R417). -/
inductive Party where
  | host (port : Nat)
  | management
deriving DecidableEq, Repr, Inhabited

/-- The arrays that carry SECDED, each with its log and counters (R208, R385). -/
inductive ArrayId where
  | tile (core : Nat)
  | bstage (core : Nat)
  | l2data (slice : Nat)
  | l2tag (slice : Nat)
  | memory (controller : Nat)
deriving DecidableEq, Repr, Inhabited

/-- What reaches AGE_LIMIT (R147): a header of a block on a core, or a caravan. -/
inductive Aged where
  | header (block core : Nat) (hdr : BitVec 32)
  | caravan (id : Nat)
deriving DecidableEq, Repr

/-- A packet in the Dispatcher's hands: its queue and its index in that queue (R405, R409). -/
structure PacketRef where
  queue : Nat
  index : BitVec 32
deriving DecidableEq, Repr, Inhabited

/-- The operation of a memory-side atomic or reduction (R221 Table 3, R222). -/
inductive AtomOp where
  | add (ty : AddTy)
  | min (ty : MinTy)
  | max (ty : MinTy)
  | and (ty : BitTy)
  | or (ty : BitTy)
  | xor (ty : BitTy)
  | exch (ty : BitTy)
  | cas (ty : WideTy) (new : BitVec 128)
deriving DecidableEq, Repr

/-- What a peer device asks of a home slice here (R424). -/
inductive RemoteReq where
  | atom (device pa : Nat) (op : AtomOp) (operand : BitVec 128)
  | reduce (device pa : Nat) (op : AtomOp) (operand : BitVec 128)
  /-- One half of a packed atomic, or of a packed reduction where `returns` is false: an operation of its own (R223). -/
  | half (device pa : Nat) (bf16 returns : Bool) (operand : BitVec 16)
  /-- An arrival with count 1 at a barrier object of this device (R179, R428, R429). -/
  | arrive (device pa : Nat)
  | write (device pa : Nat) (bytes : List (BitVec 8))
  | read (device pa len : Nat)
deriving DecidableEq, Repr

/-- One constructor per row of spec/opcode_table.json, in the table's order. -/
inductive Instr where
  /-- Typed integer add, element by element, wrapping. (R98) -/
  | intAdd (ty : IntTy) (o : Operands)
  /-- Typed integer subtract, element by element, wrapping. (R98) -/
  | intSub (ty : IntTy) (o : Operands)
  /-- Typed integer add that saturates to the element range. (R98) -/
  | intAdds (ty : IntTy) (o : Operands)
  /-- Typed integer subtract that saturates to the element range. (R98) -/
  | intSubs (ty : IntTy) (o : Operands)
  /-- Typed integer multiply giving the low w bits of the product. (R98) -/
  | intMul (ty : IntTy) (o : Operands)
  /-- Typed integer multiply giving the upper w bits of the 2w-bit product. (R98) -/
  | intMulhi (ty : IntTy) (o : Operands)
  /-- Typed integer multiply-add with a single wrap of the exact value. (R98) -/
  | intMad (ty : IntTy) (o : Operands)
  /-- Typed integer minimum, element by element. (R98) -/
  | intMin (ty : IntTy) (o : Operands)
  /-- Typed integer maximum, element by element. (R98) -/
  | intMax (ty : IntTy) (o : Operands)
  /-- Typed integer equality compare, writing an all-ones or zero mask per element. (R98) -/
  | intCmpeq (ty : IntTy) (o : Operands)
  /-- Typed integer less-than compare, writing a mask per element. (R98) -/
  | intCmplt (ty : IntTy) (o : Operands)
  /-- Typed integer less-or-equal compare, writing a mask per element. (R98) -/
  | intCmple (ty : IntTy) (o : Operands)
  /-- Bitwise AND of two 32-bit sources. (R99) -/
  | andB32 (o : Operands)
  /-- Bitwise OR of two 32-bit sources. (R99) -/
  | orB32 (o : Operands)
  /-- Bitwise XOR of two 32-bit sources. (R99) -/
  | xorB32 (o : Operands)
  /-- A AND NOT B on 32 bits. (R99) -/
  | andnB32 (o : Operands)
  /-- 32-bit shift left, giving zero for counts of 32 or more. (R100) -/
  | shlB32 (o : Operands)
  /-- 32-bit logical shift right. (R100) -/
  | shrN32 (o : Operands)
  /-- 32-bit arithmetic shift right. (R100) -/
  | shrS32 (o : Operands)
  /-- 32-bit rotate left by the count mod 32. (R100) -/
  | rotB32 (o : Operands)
  /-- 64-bit shift left. (R100) -/
  | shlB64 (o : Operands)
  /-- 64-bit logical shift right. (R100) -/
  | shrN64 (o : Operands)
  /-- 64-bit arithmetic shift right. (R100) -/
  | shrS64 (o : Operands)
  /-- Extracts a bit field and zero-extends it. (R101) -/
  | bfeN32 (o : Operands)
  /-- Extracts a bit field and sign-extends it. (R101) -/
  | bfeS32 (o : Operands)
  /-- Inserts a bit field of A into C. (R101) -/
  | bfiB32 (o : Operands)
  /-- Counts the one bits of a 32-bit value. (R99) -/
  | popcB32 (o : Operands)
  /-- Counts the leading zero bits of a 32-bit value. (R99) -/
  | clzB32 (o : Operands)
  /-- Reverses the bits of a 32-bit value. (R99) -/
  | brevB32 (o : Operands)
  /-- Bitwise select of A and B under mask C. (R99) -/
  | selB32 (o : Operands)
  /-- Moves a 32-bit value from source B. (R99) -/
  | movB32 (o : Operands)
  /-- Moves a 64-bit value from source B. (R99) -/
  | movB64 (o : Operands)
  /-- Moves a 128-bit value from source B. (R99) -/
  | movB128 (o : Operands)
  /-- Signed 32-by-32 multiply giving the exact 64-bit product. (R99) -/
  | mulwS32 (o : Operands)
  /-- Unsigned 32-by-32 multiply giving the exact 64-bit product. (R99) -/
  | mulwN32 (o : Operands)
  /-- Signed four-way byte dot product, accumulated into C. (R102) -/
  | dot4S32 (o : Operands)
  /-- Unsigned four-way byte dot product, accumulated into C. (R102) -/
  | dot4N32 (o : Operands)
  /-- Signed two-way 16-bit dot product, accumulated into C. (R102) -/
  | dot2S32 (o : Operands)
  /-- Unsigned two-way 16-bit dot product, accumulated into C. (R102) -/
  | dot2N32 (o : Operands)
  /-- Forms a 64-bit address A plus sign-extended B scaled by 2 to the power C. (R103) -/
  | leaB64 (o : Operands)
  /-- Writes all ones when two 32-bit values differ, else zero. (R99) -/
  | cmpneB32 (o : Operands)
  /-- Bitwise AND of two 64-bit sources. (R99) -/
  | andB64 (o : Operands)
  /-- Bitwise OR of two 64-bit sources. (R99) -/
  | orB64 (o : Operands)
  /-- Bitwise XOR of two 64-bit sources. (R99) -/
  | xorB64 (o : Operands)
  /-- Issues the two pairable slot operations of a P96 word together, then shifts both results into the latches. (R84) -/
  | pairedWord (p : PairWord)
  /-- Transfers unconditionally to the target header, with its entry checks. (R106) -/
  | br (o : Operands)
  /-- Transfers to the target when A is zero, else falls through. (R106) -/
  | brz (o : Operands)
  /-- Transfers to the target when A is non-zero, else falls through. (R106) -/
  | brnz (o : Operands)
  /-- Transfers indirectly to the header offset held in A. (R106) -/
  | brx (o : Operands)
  /-- Writes the fall-through header offset as the return offset, then transfers to the target. (R107) -/
  | call (o : Operands)
  /-- Writes the return offset, then transfers to the header offset held in A. (R107) -/
  | callx (o : Operands)
  /-- Transfers to the return offset held in A. (R107) -/
  | ret (o : Operands)
  /-- Ends the thread or drover program once its stores are performed. (R108) -/
  | exit (o : Operands)
  /-- Pops one token into DST and branches when the token marks end-of-stream. (R109) -/
  | qloop (o : Operands)
  /-- Offers the issue slot so that the caravan may be swapped out. (R153) -/
  | yield (o : Operands)
  /-- Has no effect. (R110) -/
  | nop (o : Operands)
  /-- Loads from the t: or k: space with bound and alignment checks. (R111) -/
  | ldPrivate (sp : PrivSpace) (ty : LoadTy) (o : Operands)
  /-- Stores to the t: or k: space with bound and alignment checks. (R111) -/
  | stPrivate (sp : PrivSpace) (ty : StoreTy) (o : Operands)
  /-- Reads a control and status register into one register or a pair. (R116) -/
  | csrr (o : Operands)
  /-- Writes a control and status register. (R116) -/
  | csrw (o : Operands)
  /-- Raises SOFTWARE_TRAP with a recorded code. (R118) -/
  | trap (o : Operands)
  /-- Raises BREAKPOINT with a recorded code. (R118) -/
  | brk (o : Operands)
  /-- Floating-point add, rounded in the named mode. (R120) -/
  | fpAdd (rm : Rounding) (ty : FpTy) (o : Operands)
  /-- Floating-point subtract, rounded to nearest even. (R120) -/
  | fpSub (ty : FpTy) (o : Operands)
  /-- Floating-point multiply, rounded in the named mode. (R120) -/
  | fpMul (rm : Rounding) (ty : FpTy) (o : Operands)
  /-- Fused multiply-add with one rounding in the named mode. (R120) -/
  | fpFma (rm : Rounding) (ty : FpTy) (o : Operands)
  /-- Floating-point minimum that returns a number whenever one operand is a number. (R121) -/
  | fpMin (ty : FpTy) (o : Operands)
  /-- Floating-point maximum that returns a number whenever one operand is a number. (R121) -/
  | fpMax (ty : FpTy) (o : Operands)
  /-- Quiet floating-point equality compare writing a mask. (R122) -/
  | fpCmpeq (ty : FpTy) (o : Operands)
  /-- Quiet floating-point less-than compare writing a mask. (R122) -/
  | fpCmplt (ty : FpTy) (o : Operands)
  /-- Quiet floating-point less-or-equal compare writing a mask. (R122) -/
  | fpCmple (ty : FpTy) (o : Operands)
  /-- Writes a mask that is true when either operand is NaN. (R122) -/
  | fpCmpun (ty : FpTy) (o : Operands)
  /-- Writes the class bits of each element. (R122) -/
  | fpClass (ty : FpTy) (o : Operands)
  /-- Rounds each element to an integral value in the named mode. (R120) -/
  | fpRint (rm : Rounding) (ty : FpTy) (o : Operands)
  /-- Multiplies each element by 2 to the power of a signed integer. (R120) -/
  | fpScale (ty : FpTy) (o : Operands)
  /-- Correctly rounded floating-point division. (R120) -/
  | fpDiv (ty : FpTy) (o : Operands)
  /-- Correctly rounded square root. (R120) -/
  | fpSqrt (ty : FpTy) (o : Operands)
  /-- Correctly rounded reciprocal. (R120) -/
  | fpRcp (ty : FpTy) (o : Operands)
  /-- Correctly rounded reciprocal square root. (R120) -/
  | fpRsqrt (ty : FpTy) (o : Operands)
  /-- Copies the sign bit of B onto the bits of A. (R120) -/
  | fpCpsgn (ty : FpTy) (o : Operands)
  /-- Scalar and 16-bit conversions between float and integer formats. (R125) -/
  | cvtScalar (k : ScalarCvt) (o : Operands)
  /-- Rounds FP16 values into microscaling element codes with scale 1. (R126) -/
  | cvtNarrowMx (f : MxFmt) (o : Operands)
  /-- Widens two selected microscaling elements to FP16. (R127) -/
  | cvtWidenMx (f : MxFmt) (o : Operands)
  /-- Converts a selected E8M0 scale code to FP32. (R127) -/
  | cvtF32E8m0 (o : Operands)
  /-- Computes the shared E8M0 scale over the active lanes of the caravan. (R128) -/
  | qscl (f : MxFmt) (o : Operands)
  /-- Quantises one value per lane into a microscaling element under a given scale. (R129) -/
  | qnt (f : MxFmt) (o : Operands)
  /-- Applies the forward companding curve of a slot. (R130) -/
  | cpnd (o : Operands)
  /-- Applies the inverse companding curve of a slot. (R130) -/
  | cpndi (o : Operands)
  /-- Installs a companding record read from t: into a curve slot, once per caravan. (R131) -/
  | cpinst (o : Operands)
  /-- Packs two 16-bit elements into one register. (R133) -/
  | pkB16x2 (o : Operands)
  /-- Packs two bytes above the low half of C. (R133) -/
  | pkB8x4 (o : Operands)
  /-- Spreads two bytes into 16-bit halves. (R133) -/
  | upkB8x4 (o : Operands)
  /-- Zero-extends one 16-bit element. (R133) -/
  | upkB16x2 (o : Operands)
  /-- Faithful base-2 exponential. (R134) -/
  | exp2 (ty : SfTy) (o : Operands)
  /-- Faithful base-2 logarithm. (R134) -/
  | log2 (ty : SfTy) (o : Operands)
  /-- Natural exponential within 2 ulp. (R134) -/
  | exp (ty : SfTy) (o : Operands)
  /-- Natural logarithm within 2 ulp. (R134) -/
  | log (ty : SfTy) (o : Operands)
  /-- Sine with the accuracy of Table 9. (R134) -/
  | sin (ty : SfTy) (o : Operands)
  /-- Cosine with the accuracy of Table 9. (R134) -/
  | cos (ty : SfTy) (o : Operands)
  /-- Hyperbolic tangent within 2 ulp. (R134) -/
  | tanh (ty : SfTy) (o : Operands)
  /-- Logistic sigmoid within 2 ulp. (R134) -/
  | sigm (ty : SfTy) (o : Operands)
  /-- Stateless counter-based generator of 128 random bits from a key and a counter. (R136) -/
  | rngB128 (o : Operands)
  /-- Turns 32 random bits into a uniform FP32 value in [0, 1). (R137) -/
  | rnguF32 (o : Operands)
  /-- Reads a value from an indexed lane and element of the caravan. (R165) -/
  | shflIdx (o : Operands)
  /-- Reads a value from a lower lane by a fixed distance. (R165) -/
  | shflUp (o : Operands)
  /-- Reads a value from a higher lane by a fixed distance. (R165) -/
  | shflDown (o : Operands)
  /-- Reads a value from the lane whose number differs by an XOR. (R165) -/
  | shflXor (o : Operands)
  /-- Broadcasts the value of the lane that the lowest wanting lane names. (R165) -/
  | shflBcast (o : Operands)
  /-- Moves a 64-bit pair from an indexed lane. (R166) -/
  | shflIdxB64 (o : Operands)
  /-- Tests whether A is true in every participating lane. (R167) -/
  | voteAll (o : Operands)
  /-- Tests whether A is true in some participating lane. (R167) -/
  | voteAny (o : Operands)
  /-- Tests whether A holds one bit pattern in every participating lane. (R167) -/
  | voteEq (o : Operands)
  /-- Writes the mask of participating lanes in which A is true. (R167) -/
  | ballot (o : Operands)
  /-- Writes all ones in the lowest-numbered wanting lane and zero in the others. (R167) -/
  | elect (o : Operands)
  /-- Writes the mask of participating lanes whose 32-bit pattern equals this lane's. (R168) -/
  | matchB32 (o : Operands)
  /-- Writes the mask of participating lanes whose 64-bit pattern equals this lane's. (R168) -/
  | matchB64 (o : Operands)
  /-- Reduces a value over the caravan's participating lanes through the fixed network. (R169) -/
  | cred (op : CredOp) (o : Operands)
  /-- Inclusive scan over the caravan's lanes through the fixed network. (R169) -/
  | scan (op : ScanOp) (o : Operands)
  /-- Exclusive scan over the caravan's lanes. (R169) -/
  | scanx (op : ScanxOp) (o : Operands)
  /-- Coarse horizontal derivative within a quad. (R171) -/
  | ddxC (ty : DerivTy) (o : Operands)
  /-- Coarse vertical derivative within a quad. (R171) -/
  | ddyC (ty : DerivTy) (o : Operands)
  /-- Fine horizontal derivative within a quad. (R171) -/
  | ddxF (ty : DerivTy) (o : Operands)
  /-- Fine vertical derivative within a quad. (R171) -/
  | ddyF (ty : DerivTy) (o : Operands)
  /-- Joins the current phase of a level barrier without waiting. (R175) -/
  | barArrive (o : Operands)
  /-- Waits for the phase of the thread's most recent arrival to complete. (R175) -/
  | barWait (o : Operands)
  /-- Arrives at a level barrier and waits for the phase to complete. (R175) -/
  | barSync (o : Operands)
  /-- A thread waiting on a level barrier resumes after its phase completes. (R175) -/
  | barrierWaitResume (thread : Nat)
  /-- Initialises a barrier object with phase 0 and the expected count. (R178) -/
  | obarInit (o : Operands)
  /-- Arrives at a barrier object with a count in one atomic step. (R179) -/
  | obarArrive (o : Operands)
  /-- Waits until the object's phase differs from the given phase. (R180) -/
  | obarWait (o : Operands)
  /-- Arrives at a barrier object, then waits on the returned phase. (R180) -/
  | obarSync (o : Operands)
  /-- A waiting thread resumes once it reads a changed phase, with an acquire. (R180) -/
  | obarWaitResume (thread : Nat)
  /-- Waits for earlier acknowledged operations of the core, then arrives at its scope. (R181) -/
  | drain (o : Operands)
  /-- The last awaited acknowledgement arrives and the drain makes its arrival. (R181) -/
  | drainAckDone (thread : Nat)
  /-- Meets the partner thread's matching psync and exchanges a value. (R182) -/
  | psync (o : Operands)
  /-- The partner's matching psync arrives or the partner exits, completing the wait. (R182) -/
  | psyncMeet (thread : Nat)
  /-- Loads from die scratchpad through a v: address. (R213) -/
  | ldV (ty : LoadTy) (o : Operands)
  /-- Stores to die scratchpad through a v: address. (R213) -/
  | stV (ty : StoreTy) (o : Operands)
  /-- Load with acquire at its scope; empties the advance-load table. (R214) -/
  | ldAcq (ty : WideTy) (o : Operands)
  /-- Store with release at its scope. (R214) -/
  | stRel (ty : WideTy) (o : Operands)
  /-- Unaligned load cut at 16-byte boundaries into single-copy atomic parts. (R216) -/
  | ldUa (ty : WideTy) (o : Operands)
  /-- Unaligned store cut at 16-byte boundaries into single-copy atomic parts. (R216) -/
  | stUa (ty : WideTy) (o : Operands)
  /-- Advance load that records an entry and defers any fault. (R217) -/
  | ldAdv (ty : WideTy) (o : Operands)
  /-- Completes an advance load from its entry, or loads again and faults precisely. (R219) -/
  | chk (ty : WideTy) (o : Operands)
  /-- Memory-side atomic add returning the old value. (R221) -/
  | atomAdd (ty : AddTy) (o : Operands)
  /-- Memory-side atomic minimum returning the old value. (R221) -/
  | atomMin (ty : MinTy) (o : Operands)
  /-- Memory-side atomic maximum returning the old value. (R221) -/
  | atomMax (ty : MinTy) (o : Operands)
  /-- Memory-side atomic AND returning the old value. (R221) -/
  | atomAnd (ty : BitTy) (o : Operands)
  /-- Memory-side atomic OR returning the old value. (R221) -/
  | atomOr (ty : BitTy) (o : Operands)
  /-- Memory-side atomic XOR returning the old value. (R221) -/
  | atomXor (ty : BitTy) (o : Operands)
  /-- Memory-side atomic exchange returning the old value. (R221) -/
  | atomExch (ty : BitTy) (o : Operands)
  /-- Memory-side compare-and-swap on raw bits. (R222) -/
  | atomCas (ty : WideTy) (o : Operands)
  /-- Memory-side add with no returned value. (R225) -/
  | redAdd (ty : AddTy) (o : Operands)
  /-- Memory-side minimum with no returned value. (R225) -/
  | redMin (ty : MinTy) (o : Operands)
  /-- Memory-side maximum with no returned value. (R225) -/
  | redMax (ty : MinTy) (o : Operands)
  /-- Memory-side AND with no returned value. (R225) -/
  | redAnd (ty : BitTy) (o : Operands)
  /-- Memory-side OR with no returned value. (R225) -/
  | redOr (ty : BitTy) (o : Operands)
  /-- Memory-side XOR with no returned value. (R225) -/
  | redXor (ty : BitTy) (o : Operands)
  /-- A pending run of merged packed reductions is applied to its element within the merge bound. (R226) -/
  | reductionRunApply (elem : Nat) (count : Nat)
  /-- Orders all earlier accesses before all later ones at its scope. (R227) -/
  | fence (o : Operands)
  /-- Orders earlier loads and acquires before later accesses. (R227) -/
  | fenceAcq (o : Operands)
  /-- Orders earlier accesses before later writes and engine commands. (R227) -/
  | fenceRel (o : Operands)
  /-- Orders page-table writes before walks and removes stale translations in scope. (R228) -/
  | tfence (o : Operands)
  /-- Writes a programmable scope entry and advances its generation. (R243) -/
  | scpw (o : Operands)
  /-- Invalidates a programmable scope entry and advances its generation. (R244) -/
  | scpinv (o : Operands)
  /-- Returns from trap mode to the resume point, restoring latches and FPSTAT. (R381) -/
  | eret (o : Operands)
  /-- Installs a manifest entry from a 64-byte record and advances its generation. (R264) -/
  | mfset (x : Extended)
  /-- Copies a manifest entry's record out. (R264) -/
  | mfget (x : Extended)
  /-- Starts a convoy that copies a region between manifest entries. (R270) -/
  | cvyCopy (x : Extended)
  /-- Starts a convoy that gathers rows by an index list. (R270) -/
  | cvyGath (x : Extended)
  /-- Starts a convoy that scatters rows by an index list. (R270) -/
  | cvyScat (x : Extended)
  /-- Starts a convoy that transposes dimensions 0 and 1. (R270) -/
  | cvyTrn (x : Extended)
  /-- Starts a convoy that converts every element between formats. (R271) -/
  | cvyConv (x : Extended)
  /-- Starts a convoy that compresses chunks of 256 bytes. (R284) -/
  | cvyCmpr (x : Extended)
  /-- Starts a convoy that decompresses chunks of 256 bytes. (R285) -/
  | cvyDcmp (x : Extended)
  /-- Starts a multicast fill of one region into several cores' tile shares. (R272) -/
  | cvyMcst (x : Extended)
  /-- Starts an all-to-all transpose convoy across the devices of the peer list. (R428) -/
  | cvyA2a (x : Extended)
  /-- A convoy's last stream byte is written; it writes its record and arrives at its object. (R277) -/
  | convoyComplete (op : Nat)
  /-- A convoy or engine access meets a fault after issue and stops, writing a record if asked. (R278) -/
  | convoyFaultStop (op : Nat)
  /-- Per-lane vector-times-matrix on the engine's row path. (R315) -/
  | vmx (x : Extended)
  /-- Starts a cut-selection operation on the die's engine. (R337) -/
  | cutq (x : Extended)
  /-- A cut operation writes its records and completion record and arrives at its object. (R339) -/
  | cutComplete (op : Nat)
  /-- Appends one record to an edge through a count-word atomic. (R349) -/
  | emit (x : Extended)
  /-- Installs a node-format record into a traversal slot. (R364) -/
  | travfmt (x : Extended)
  /-- Issues one traversal query per wanting lane. (R366) -/
  | trav (x : Extended)
  /-- A traversal query writes its results and header and arrives at its object. (R369) -/
  | travQueryComplete (op : Nat)
  /-- Sets the named idle accumulators to +0. (R307) -/
  | mzro (x : Extended)
  /-- Opens a chain on the named accumulators; a marker command. (R307) -/
  | mchb (x : Extended)
  /-- Folds the chain partial sums into the accumulators and closes the chain; a marker command. (R301) -/
  | mche (x : Extended)
  /-- Performs one k-step into an accumulator, optionally loading a B tile. (R308) -/
  | mma (x : Extended)
  /-- Fills the gather latch with indexed rows of an A entry. (R309) -/
  | mgth (x : Extended)
  /-- Performs one paired guided k-step for the live streams fed by q0 and q1. (R310) -/
  | mmap (x : Extended)
  /-- Drains an accumulator into a tile plane with conversion. (R312) -/
  | mdrn (x : Extended)
  /-- Drains the guided combination of two accumulators into a tile plane. (R313) -/
  | mdrg (x : Extended)
  /-- A queued matrix command completes in the engine in issue order. (R296) -/
  | matrixCommandComplete (drover : Nat)
  /-- An instruction waiting for tokens or room in a queue proceeds once they exist. (R289) -/
  | queueWaitResume (caravan : Nat)
  /-- Raises QUEUE_MISUSE when every party of the queues' blocks is exited or waiting on them. (R291) -/
  | queueMisuseDetect (block : Nat)
  /-- A free issue position is filled with the first pending caravan or formable header. (R151) -/
  | positionFill (core slot pos : Nat)
  /-- Moves an active caravan to the pending set at an allowed boundary. (R152) -/
  | swapOut (caravan : Nat)
  /-- A header or caravan reaches AGE_LIMIT and becomes aged. (R147) -/
  | ageLimitReached (what : Aged)
  /-- The Tile Broker places a waiting block when every core of its list has room. (R140) -/
  | blockPlace (launch : Nat) (cores : List Nat)
  /-- A block retires when its threads, drover and operations have all finished. (R413) -/
  | blockRetire (block : Nat)
  /-- A translation miss runs a four-level page walk whose result serves every waiting access. (R197) -/
  | pageWalk (ctx core : Nat) (va : DWord)
  /-- A multicast merge entry stops accepting reads 64 cc after it opened. (R203) -/
  | mergeWindowExpire (sector : Nat)
  /-- An acknowledged operation is acknowledged to its issuing core. (R181) -/
  | acknowledgement (index : Nat)
  /-- Arms an error injection on a target sector of an array. (R386) -/
  | inj (who : Party) (arr : ArrayId) (v : DWord)
  /-- Changes a die's carve-out of scratchpad ways. (R206) -/
  | carve (pkt : PacketRef)
  /-- Grants carved scratchpad units to a context. (R205) -/
  | spgrant (pkt : PacketRef)
  /-- Revokes scratchpad grants and removes their translations. (R207) -/
  | sprevoke (pkt : PacketRef)
  /-- Pre-empts the named launches of a context, saving their blocks. (R389) -/
  | preempt (pkt : PacketRef)
  /-- A core writes a block's state to the save area once its step-4 waits end. (R389) -/
  | blockSave (block : Nat)
  /-- Begins placing the saved launches of a context. (R392) -/
  | resume (pkt : PacketRef)
  /-- The Tile Broker places a saved block and restores its state. (R392) -/
  | blockRestore (block : Nat) (cores : List Nat)
  /-- Replays or cancels an engine operation stopped on a fault. (R383) -/
  | ereplay (pkt : PacketRef)
  /-- After a higher-priority block waits 65,536 cc, the Broker pre-empts lower-priority blocks. (R400) -/
  | priorityPreempt (launch : Nat)
  /-- Creates a context from a context descriptor. (R410) -/
  | ctxnew (pkt : PacketRef)
  /-- Frees an idle context. (R409) -/
  | ctxfree (pkt : PacketRef)
  /-- Creates a queue with its ring and read-index word. (R405) -/
  | qcreate (pkt : PacketRef)
  /-- Frees a queue with no unretired packet. (R409) -/
  | qfree (pkt : PacketRef)
  /-- Moves a queue to the other host port. (R409) -/
  | qgrant (pkt : PacketRef)
  /-- Opens or closes a BAR2 window for the other port's host. (R409) -/
  | hostwin (pkt : PacketRef)
  /-- Marks the next launch of the queue as joined under a key. (R426) -/
  | podjoin (pkt : PacketRef)
  /-- A host write to a queue's notify register advances its known write index. (R407) -/
  | notify (port queue : Nat) (v : Word)
  /-- The Dispatcher dequeues the next packet once its HEAD shows VALID. (R408) -/
  | packetDequeue (queue : Nat)
  /-- A launch waiting on its semaphore proceeds once it reads at most 0. (R412) -/
  | launchSemaphoreReady (launch : Nat)
  /-- Writes RESULT, decrements the signal, posts SIGNAL, clears HEAD and advances RDW. (R408) -/
  | packetRetire (queue : Nat)
  /-- Sets the event ring base and resets its indices. (R404) -/
  | evbase (port : Nat) (v : DWord)
  /-- Sets the event ring size and resets its indices. (R404) -/
  | evsize (port : Nat) (v : Word)
  /-- Records how many event records the host has consumed. (R404) -/
  | evrd (port : Nat) (v : Word)
  /-- A write to a BAR0 register without behaviour of its own. (R402) -/
  | bar0Write (port off : Nat) (v : DWord)
  /-- A host read through BAR2 in 8-byte single-copy atomic units. (R403) -/
  | hostBar2Read (port off len : Nat)
  /-- A host write through BAR2, a release at sc6 over the port's earlier writes. (R403) -/
  | hostBar2Write (port off : Nat) (bytes : List Byte)
  /-- The Dispatcher checks a node record and starts the node. (R345) -/
  | itineraryNodeStart (walk : Nat)
  /-- A node completes and the Dispatcher moves to its successor. (R345) -/
  | nodeComplete (walk : Nat)
  /-- The Tile Broker gives the next tile to a core with a free tile position. (R355) -/
  | tileAssign (pass core : Nat)
  /-- The binner transforms, culls and bins one triangle into tile lists. (R352) -/
  | binTriangle (pass page : Nat)
  /-- The next phase of a tile render starts after the previous one completes. (R356) -/
  | renderPhaseStart (pass tile : Nat)
  /-- A raster node completes when every tile has retired and writes its counts. (R350) -/
  | rasterNodeComplete (pass : Nat)
  /-- A convoy, multicast fill, decoder chunk or engine write lands part of its output, advancing WPOS and, for a fill, lowering a receiver's inbound counter. (R276) -/
  | streamByteWritten (op : Nat) (p : Nat)
  /-- Every set of every slice has been treated, so the die's W becomes the new value and CARVE returns status 0. (R206) -/
  | carveComplete (die : Nat)
  /-- A remote atom, reduction or convoy access from a peer is performed at its home slice. (R424) -/
  | remoteRequest (req : RemoteReq)
  /-- A remote request unacknowledged within REMOTE_BOUND is dropped and counted. (R425) -/
  | remoteTimeout (index : Nat)
  /-- When a destination device's bytes are written, the convoy arrives at that device's object. (R428) -/
  | a2aArrival (op : Nat) (rank : Nat)
  /-- A UALink port joins the fabric or is refused for a duplicate device number. (R422) -/
  | portJoin (port : Nat) (duplicate : Bool)
  /-- The management controller sets the device number. (R422) -/
  | devnumSet (n : Nat)
  /-- Selects which PCIe port holds the control role. (R402) -/
  | hostsel (port : Nat)
  /-- Releases the main side from reset after firmware checks the LPDDR population. (R2) -/
  | mainRelease
  /-- Holds the main side in reset from the management port. (R417) -/
  | mainHold
  /-- Resets the main side, re-selecting the control port and clearing the ring registers. (R417) -/
  | mainReset
  /-- Writes and verifies an image in the inactive slot over PLDM. (R418) -/
  | firmwareUpdate (image : List Byte)
  /-- Answers an SPDM 1.3 request with the identity key and measurements. (R419) -/
  | spdmRequest (via : Party) (req : List Byte)
  /-- Returns a sensor reading over PLDM. (R417) -/
  | sensorRead (sensor : Nat)
  /-- Sets the power cap, after which issue opportunities are withheld as needed. (R420) -/
  | powerCapSet (watts : Nat)
  /-- Returns an array's error log and counters to the control host or management port. (R385) -/
  | errlogRead (who : Party) (arr : ArrayId)
  /-- Clears an array's error log and counters by writing zero. (R385) -/
  | errlogClear (who : Party) (arr : ArrayId)
  /-- At 105 C a die posts THERMAL and holds the main side in reset. (R420) -/
  | thermal (sensor : Nat) (celsius : Word)
  /-- A single-bit or uncorrectable error strikes a stored sector or tag of tile memory, L2, scratchpad, the B-stage buffer or main memory. (R208) -/
  | softError (arr : ArrayId) (loc : Nat) (double : Bool)
  /-- The L2 writes back a dirty sector by itself, and a drop found there is charged to the context that last wrote the line. (R208) -/
  | writeBack (sector : Nat)
  /-- The device removes an advance-load table entry on its own, at any time. (R218) -/
  | advanceLoadEntryRemove (thread : Nat) (index : Nat)
  /-- A joined launch on a peer device arrives at a POD-scope barrier phase, which may complete the phase here. (R427) -/
  | peerArrival (device : Nat) (key : Word) (scope : Nat)
  /-- A UALink port, its link or the peer behind it goes down, so remote requests through it go unanswered until they time out. (R425) -/
  | ualinkPortDown (port : Nat)
  /-- A PCIe host link goes down, which does not move the control role. (R402) -/
  | pcieLinkDown (port : Nat)
  /-- A die crosses the 95 C warning temperature, upward or back down, starting or ending the withholding of issue opportunities. (R420) -/
  | warningTemperature (die : Nat) (up : Bool)
deriving DecidableEq, Repr

end Sys2Proof
end

