-- ==== Sys2Proof/WellFormed.lean ====
section
/-! DEFINITION. Well-formed instructions: what a term of `Instr` must meet to stand for a row of the opcode table in a
form the manual gives it. What the device checks at issue (R87) is no part of this: it is a fault of the instruction. -/

namespace Sys2Proof

/-- The immediate form was chosen. -/
def Operands.isImm : Operands → Bool
  | .v64 _ => false
  | .v64i _ => true

/-- An OP7 value of Table 10 (R86): the low three bits of a typed code are below 6, and 0x7B-0x7F are reserved. -/
def op7Allowed (k : BitVec 7) : Bool :=
  if k.toNat < 0x60 then k.toNat % 8 < 6 else k.toNat < 0x7B

/-- The table gives the immediate form to this type of `atom.cas` (R209). -/
def casImmAllowed : WideTy → Bool
  | .b128 => false
  | _ => true

def ArrayId.wf : ArrayId → Bool
  | .tile c => c < 64
  | .bstage c => c < 64
  | .l2data s => s < 64
  | .l2tag s => s < 64
  | .memory c => c < 12

def Party.wf : Party → Bool
  | .host p => p < 2
  | .management => true

def RemoteReq.wf : RemoteReq → Bool
  | .atom d _ _ _ => d < 1024
  | .reduce d _ _ _ => d < 1024
  | .half d _ _ _ _ => d < 1024
  | .arrive d _ => d < 1024
  | .write d _ bs => d < 1024 && bs.length > 0
  | .read d _ n => d < 1024 && n > 0

/-- Well-formedness of an instruction or event; each arm names a limit that the manual states. -/
def Instr.wf : Instr → Bool
  -- V64-only opcodes (R99, R136, R209, R243, R381)
  | .movB128 o | .rngB128 o | .scpw o | .eret o => !o.isImm
  | .atomCas ty o => casImmAllowed ty || !o.isImm
  -- pairable operations (R86)
  | .pairedWord p => op7Allowed p.s0.op7 && op7Allowed p.s1.op7
  -- a core, slot and issue position (R151), a die (R205), a port (R401, R421)
  | .positionFill c s p => c < 64 && s < 8 && p < 8
  | .pageWalk _ c _ => c < 64
  | .tileAssign _ c => c < 64
  | .blockPlace _ cs | .blockRestore _ cs => cs.all (· < 64) && cs.length > 0 && cs.length ≤ 4
  | .carveComplete d | .warningTemperature d _ => d < 4
  | .notify p _ _ | .evbase p _ | .evsize p _ | .evrd p _ | .bar0Write p _ _
  | .hostBar2Read p _ _ | .hostBar2Write p _ _ | .hostsel p | .pcieLinkDown p => p < 2
  | .portJoin p _ | .ualinkPortDown p => p < 16
  | .devnumSet n => n < 1024
  | .peerArrival d _ s => d < 1024 && s < 64
  | .a2aArrival _ r => r < 1024
  | .inj w a _ | .errlogRead w a | .errlogClear w a => w.wf && a.wf
  | .softError a _ _ => a.wf
  | .spdmRequest w _ => w.wf
  | .remoteRequest r => r.wf
  | _ => true

end Sys2Proof
end

