-- ==== Sys2Proof/Decode.lean ====
section
/-! DEFINITION. Decoding parcels into instructions, total, rejecting by name (R64-R69, R84-R90), and the encoder. -/

namespace Sys2Proof

/-! ## The order of sub-kinds in the opcode tables (R90) -/

def IntTy.all : List IntTy := [.s32, .n32, .s16x2, .n16x2, .s8x4, .n8x4, .s64, .n64]
def IntTy.ofCode (n : Nat) : Option IntTy := IntTy.all[n]?
def IntTy.code : IntTy → Nat
  | .s32 => 0
  | .n32 => 1
  | .s16x2 => 2
  | .n16x2 => 3
  | .s8x4 => 4
  | .n8x4 => 5
  | .s64 => 6
  | .n64 => 7

def FpTy.all : List FpTy := [.f32, .f16x2, .bf16x2, .f64]
def FpTy.ofCode (n : Nat) : Option FpTy := FpTy.all[n]?
def FpTy.code : FpTy → Nat
  | .f32 => 0
  | .f16x2 => 1
  | .bf16x2 => 2
  | .f64 => 3

def SfTy.all : List SfTy := [.f32, .f16x2, .bf16x2]
def SfTy.ofCode (n : Nat) : Option SfTy := SfTy.all[n]?
def SfTy.code : SfTy → Nat
  | .f32 => 0
  | .f16x2 => 1
  | .bf16x2 => 2

def Rounding.all : List Rounding := [.rn, .rz, .rd, .ru]
def Rounding.ofCode (n : Nat) : Option Rounding := Rounding.all[n]?
def Rounding.code : Rounding → Nat
  | .rn => 0
  | .rz => 1
  | .rd => 2
  | .ru => 3

def MxFmt.all : List MxFmt := [.e4m3, .e5m2, .e3m2, .e2m3, .e2m1, .mxi8]
def MxFmt.ofCode (n : Nat) : Option MxFmt := MxFmt.all[n]?
def MxFmt.code : MxFmt → Nat
  | .e4m3 => 0
  | .e5m2 => 1
  | .e3m2 => 2
  | .e2m3 => 3
  | .e2m1 => 4
  | .mxi8 => 5

def LoadTy.all : List LoadTy := [.s8, .n8, .s16, .n16, .b32, .b64, .b128]
def LoadTy.ofCode (n : Nat) : Option LoadTy := LoadTy.all[n]?
def LoadTy.code : LoadTy → Nat
  | .s8 => 0
  | .n8 => 1
  | .s16 => 2
  | .n16 => 3
  | .b32 => 4
  | .b64 => 5
  | .b128 => 6

def StoreTy.all : List StoreTy := [.b8, .b16, .b32, .b64, .b128]
def StoreTy.ofCode (n : Nat) : Option StoreTy := StoreTy.all[n]?
def StoreTy.code : StoreTy → Nat
  | .b8 => 0
  | .b16 => 1
  | .b32 => 2
  | .b64 => 3
  | .b128 => 4

def WideTy.all : List WideTy := [.b32, .b64, .b128]
def WideTy.ofCode (n : Nat) : Option WideTy := WideTy.all[n]?
def WideTy.code : WideTy → Nat
  | .b32 => 0
  | .b64 => 1
  | .b128 => 2

def AddTy.all : List AddTy := [.n32, .n64, .f32, .f64, .f16x2, .bf16x2]
def AddTy.ofCode (n : Nat) : Option AddTy := AddTy.all[n]?
def AddTy.code : AddTy → Nat
  | .n32 => 0
  | .n64 => 1
  | .f32 => 2
  | .f64 => 3
  | .f16x2 => 4
  | .bf16x2 => 5

def MinTy.all : List MinTy := [.s32, .n32, .s64, .n64, .f32]
def MinTy.ofCode (n : Nat) : Option MinTy := MinTy.all[n]?
def MinTy.code : MinTy → Nat
  | .s32 => 0
  | .n32 => 1
  | .s64 => 2
  | .n64 => 3
  | .f32 => 4

def BitTy.all : List BitTy := [.b32, .b64]
def BitTy.ofCode (n : Nat) : Option BitTy := BitTy.all[n]?
def BitTy.code : BitTy → Nat
  | .b32 => 0
  | .b64 => 1

def DerivTy.all : List DerivTy := [.f32, .f16x2]
def DerivTy.ofCode (n : Nat) : Option DerivTy := DerivTy.all[n]?
def DerivTy.code : DerivTy → Nat
  | .f32 => 0
  | .f16x2 => 1

def CredOp.all : List CredOp := [.addS32, .minS32, .maxS32, .minN32, .maxN32, .andB32, .orB32, .xorB32, .addF32, .minF32, .maxF32]
def CredOp.ofCode (n : Nat) : Option CredOp := CredOp.all[n]?
def CredOp.code : CredOp → Nat
  | .addS32 => 0
  | .minS32 => 1
  | .maxS32 => 2
  | .minN32 => 3
  | .maxN32 => 4
  | .andB32 => 5
  | .orB32 => 6
  | .xorB32 => 7
  | .addF32 => 8
  | .minF32 => 9
  | .maxF32 => 10

def ScanOp.all : List ScanOp := [.addS32, .addF32, .maxS32, .minS32]
def ScanOp.ofCode (n : Nat) : Option ScanOp := ScanOp.all[n]?
def ScanOp.code : ScanOp → Nat
  | .addS32 => 0
  | .addF32 => 1
  | .maxS32 => 2
  | .minS32 => 3

def ScanxOp.all : List ScanxOp := [.addS32, .addF32]
def ScanxOp.ofCode (n : Nat) : Option ScanxOp := ScanxOp.all[n]?
def ScanxOp.code : ScanxOp → Nat
  | .addS32 => 0
  | .addF32 => 1

def ScalarCvt.all : List ScalarCvt := [.f32F64, .f64F32, .f16x2F32, .bf16x2F32, .f32F16, .f32Bf16, .f16x2Bf16x2, .bf16x2F16x2, .s32F32, .n32F32, .f32S32, .f32N32, .s64F64, .n64F64, .f64S64, .f64N64, .s32F64, .f64S32, .s16x2F16x2, .f16x2S16x2]
def ScalarCvt.ofCode (n : Nat) : Option ScalarCvt := ScalarCvt.all[n]?
def ScalarCvt.code : ScalarCvt → Nat
  | .f32F64 => 0
  | .f64F32 => 1
  | .f16x2F32 => 2
  | .bf16x2F32 => 3
  | .f32F16 => 4
  | .f32Bf16 => 5
  | .f16x2Bf16x2 => 6
  | .bf16x2F16x2 => 7
  | .s32F32 => 8
  | .n32F32 => 9
  | .f32S32 => 10
  | .f32N32 => 11
  | .s64F64 => 12
  | .n64F64 => 13
  | .f64S64 => 14
  | .f64N64 => 15
  | .s32F64 => 16
  | .f64S32 => 17
  | .s16x2F16x2 => 18
  | .f16x2S16x2 => 19

/-! ## From opcode values to instructions -/

/-- Typed integer: OP = 8F + T (R90 Table 13). -/
def typedInstr (f : Nat) (ty : IntTy) (o : Operands) : Option Instr :=
  match f with
  | 0 => some (.intAdd ty o)
  | 1 => some (.intSub ty o)
  | 2 => some (.intAdds ty o)
  | 3 => some (.intSubs ty o)
  | 4 => some (.intMul ty o)
  | 5 => some (.intMulhi ty o)
  | 6 => some (.intMad ty o)
  | 7 => some (.intMin ty o)
  | 8 => some (.intMax ty o)
  | 9 => some (.intCmpeq ty o)
  | 10 => some (.intCmplt ty o)
  | 11 => some (.intCmple ty o)
  | _ => none

/-- Untyped integer: 0x060 + n (R90 Table 14). -/
def untypedInstr (n : Nat) (o : Operands) : Option Instr :=
  match n with
  | 0 => some (.andB32 o)
  | 1 => some (.orB32 o)
  | 2 => some (.xorB32 o)
  | 3 => some (.andnB32 o)
  | 4 => some (.shlB32 o)
  | 5 => some (.shrN32 o)
  | 6 => some (.shrS32 o)
  | 7 => some (.rotB32 o)
  | 8 => some (.shlB64 o)
  | 9 => some (.shrN64 o)
  | 10 => some (.shrS64 o)
  | 11 => some (.bfeN32 o)
  | 12 => some (.bfeS32 o)
  | 13 => some (.bfiB32 o)
  | 14 => some (.popcB32 o)
  | 15 => some (.clzB32 o)
  | 16 => some (.brevB32 o)
  | 17 => some (.selB32 o)
  | 18 => some (.movB32 o)
  | 19 => some (.movB64 o)
  | 20 => some (.movB128 o)
  | 21 => some (.mulwS32 o)
  | 22 => some (.mulwN32 o)
  | 23 => some (.dot4S32 o)
  | 24 => some (.dot4N32 o)
  | 25 => some (.dot2S32 o)
  | 26 => some (.dot2N32 o)
  | 27 => some (.leaB64 o)
  | 28 => some (.cmpneB32 o)
  | 29 => some (.andB64 o)
  | 30 => some (.orB64 o)
  | 31 => some (.xorB64 o)
  | _ => none

/-- Floating point: OP = 0x080 + 4F + T (R90 Table 15). -/
def floatInstr (f : Nat) (ty : FpTy) (o : Operands) : Option Instr :=
  match f with
  | 0 => some (.fpAdd .rn ty o)
  | 1 => some (.fpAdd .rz ty o)
  | 2 => some (.fpAdd .rd ty o)
  | 3 => some (.fpAdd .ru ty o)
  | 4 => some (.fpSub ty o)
  | 5 => some (.fpMul .rn ty o)
  | 6 => some (.fpMul .rz ty o)
  | 7 => some (.fpMul .rd ty o)
  | 8 => some (.fpMul .ru ty o)
  | 9 => some (.fpFma .rn ty o)
  | 10 => some (.fpFma .rz ty o)
  | 11 => some (.fpFma .rd ty o)
  | 12 => some (.fpFma .ru ty o)
  | 13 => some (.fpMin ty o)
  | 14 => some (.fpMax ty o)
  | 15 => some (.fpCmpeq ty o)
  | 16 => some (.fpCmplt ty o)
  | 17 => some (.fpCmple ty o)
  | 18 => some (.fpCmpun ty o)
  | 19 => some (.fpClass ty o)
  | 20 => some (.fpRint .rn ty o)
  | 21 => some (.fpRint .rz ty o)
  | 22 => some (.fpRint .rd ty o)
  | 23 => some (.fpRint .ru ty o)
  | 24 => some (.fpScale ty o)
  | 25 => some (.fpDiv ty o)
  | 26 => some (.fpSqrt ty o)
  | 27 => some (.fpRcp ty o)
  | 28 => some (.fpRsqrt ty o)
  | 29 => some (.fpCpsgn ty o)
  | _ => none

/-- Conversion, quantising, companding, packing: 0x100 + n (R90 Table 16). -/
def convertInstr (n : Nat) (o : Operands) : Option Instr :=
  if n < 0x14 then (ScalarCvt.ofCode n).map (.cvtScalar · o)
  else if n < 0x1A then (MxFmt.ofCode (n - 0x14)).map (.cvtNarrowMx · o)
  else if n < 0x20 then (MxFmt.ofCode (n - 0x1A)).map (.cvtWidenMx · o)
  else if n < 0x26 then (MxFmt.ofCode (n - 0x20)).map (.qscl · o)
  else if n < 0x2C then (MxFmt.ofCode (n - 0x26)).map (.qnt · o)
  else match n with
  | 0x2C => some (.cpnd o)
  | 0x2D => some (.cpndi o)
  | 0x2E => some (.cpinst o)
  | 0x2F => some (.pkB16x2 o)
  | 0x30 => some (.pkB8x4 o)
  | 0x31 => some (.upkB8x4 o)
  | 0x32 => some (.upkB16x2 o)
  | 0x33 => some (.cvtF32E8m0 o)
  | _ => none

/-- Special functions F = 0..7 (R90 Table 17). -/
def specialInstr (f : Nat) (ty : SfTy) (o : Operands) : Option Instr :=
  match f with
  | 0 => some (.exp2 ty o)
  | 1 => some (.log2 ty o)
  | 2 => some (.exp ty o)
  | 3 => some (.log ty o)
  | 4 => some (.sin ty o)
  | 5 => some (.cos ty o)
  | 6 => some (.tanh ty o)
  | 7 => some (.sigm ty o)
  | _ => none

/-- Control flow: 0x180 + n (R90 Table 18). -/
def controlInstr (n : Nat) (o : Operands) : Option Instr :=
  match n with
  | 0 => some (.br o)
  | 1 => some (.brz o)
  | 2 => some (.brnz o)
  | 3 => some (.brx o)
  | 4 => some (.call o)
  | 5 => some (.callx o)
  | 6 => some (.ret o)
  | 7 => some (.exit o)
  | 8 => some (.qloop o)
  | 9 => some (.yield o)
  | 10 => some (.nop o)
  | _ => none

/-- Cross-lane: 0x1C0 + n (R90 Table 18). -/
def laneInstr (n : Nat) (o : Operands) : Option Instr :=
  if n < 0x0D then match n with
    | 0 => some (.shflIdx o)
    | 1 => some (.shflUp o)
    | 2 => some (.shflDown o)
    | 3 => some (.shflXor o)
    | 4 => some (.shflBcast o)
    | 5 => some (.shflIdxB64 o)
    | 6 => some (.voteAll o)
    | 7 => some (.voteAny o)
    | 8 => some (.voteEq o)
    | 9 => some (.ballot o)
    | 10 => some (.elect o)
    | 11 => some (.matchB32 o)
    | 12 => some (.matchB64 o)
    | _ => none
  else if n < 0x18 then (CredOp.ofCode (n - 0x0D)).map (.cred · o)
  else if n < 0x1C then (ScanOp.ofCode (n - 0x18)).map (.scan · o)
  else if n < 0x1E then (ScanxOp.ofCode (n - 0x1C)).map (.scanx · o)
  else match n with
  | 30 => some (.ddxC .f32 o)
  | 31 => some (.ddyC .f32 o)
  | 32 => some (.ddxF .f32 o)
  | 33 => some (.ddyF .f32 o)
  | 34 => some (.ddxC .f16x2 o)
  | 35 => some (.ddyC .f16x2 o)
  | 36 => some (.ddxF .f16x2 o)
  | 37 => some (.ddyF .f16x2 o)
  | _ => none

/-- t: and k: loads and stores: 0x200 + n (R90 Table 19). -/
def privateInstr (n : Nat) (o : Operands) : Option Instr :=
  if n < 0x07 then (LoadTy.ofCode n).map (.ldPrivate .t · o)
  else if n < 0x0C then (StoreTy.ofCode (n - 0x07)).map (.stPrivate .t · o)
  else if n < 0x13 then (LoadTy.ofCode (n - 0x0C)).map (.ldPrivate .k · o)
  else if n < 0x18 then (StoreTy.ofCode (n - 0x13)).map (.stPrivate .k · o)
  else none

/-- v: loads and stores: 0x220 + n (R90 Table 19). -/
def virtualInstr (n : Nat) (o : Operands) : Option Instr :=
  if n < 0x07 then (LoadTy.ofCode n).map (.ldV · o)
  else if n < 0x0C then (StoreTy.ofCode (n - 0x07)).map (.stV · o)
  else if n < 0x0F then (WideTy.ofCode (n - 0x0C)).map (.ldAcq · o)
  else if n < 0x12 then (WideTy.ofCode (n - 0x0F)).map (.stRel · o)
  else if n < 0x15 then (WideTy.ofCode (n - 0x12)).map (.ldUa · o)
  else if n < 0x18 then (WideTy.ofCode (n - 0x15)).map (.stUa · o)
  else if n < 0x1B then (WideTy.ofCode (n - 0x18)).map (.ldAdv · o)
  else if n < 0x1E then (WideTy.ofCode (n - 0x1B)).map (.chk · o)
  else none

/-- Atomics, reductions, fences: 0x260 + n (R90 Table 20). -/
def atomicInstr (n : Nat) (o : Operands) : Option Instr :=
  if n < 0x06 then (AddTy.ofCode n).map (.atomAdd · o)
  else if n < 0x0B then (MinTy.ofCode (n - 0x06)).map (.atomMin · o)
  else if n < 0x10 then (MinTy.ofCode (n - 0x0B)).map (.atomMax · o)
  else if n < 0x12 then (BitTy.ofCode (n - 0x10)).map (.atomAnd · o)
  else if n < 0x14 then (BitTy.ofCode (n - 0x12)).map (.atomOr · o)
  else if n < 0x16 then (BitTy.ofCode (n - 0x14)).map (.atomXor · o)
  else if n < 0x18 then (BitTy.ofCode (n - 0x16)).map (.atomExch · o)
  else if n < 0x1B then (WideTy.ofCode (n - 0x18)).map (.atomCas · o)
  else if n < 0x20 then none
  else if n < 0x26 then (AddTy.ofCode (n - 0x20)).map (.redAdd · o)
  else if n < 0x2B then (MinTy.ofCode (n - 0x26)).map (.redMin · o)
  else if n < 0x30 then (MinTy.ofCode (n - 0x2B)).map (.redMax · o)
  else if n < 0x32 then (BitTy.ofCode (n - 0x30)).map (.redAnd · o)
  else if n < 0x34 then (BitTy.ofCode (n - 0x32)).map (.redOr · o)
  else if n < 0x36 then (BitTy.ofCode (n - 0x34)).map (.redXor · o)
  else match n with
  | 0x38 => some (.fence o)
  | 0x39 => some (.fenceAcq o)
  | 0x3A => some (.fenceRel o)
  | 0x3B => some (.tfence o)
  | _ => none

/-- Barriers, drain, pairs: 0x2A0 + n (R90 Table 18). -/
def barrierInstr (n : Nat) (o : Operands) : Option Instr :=
  match n with
  | 0 => some (.barArrive o)
  | 1 => some (.barWait o)
  | 2 => some (.barSync o)
  | 3 => some (.obarInit o)
  | 4 => some (.obarArrive o)
  | 5 => some (.obarWait o)
  | 6 => some (.obarSync o)
  | 7 => some (.drain o)
  | 8 => some (.psync o)
  | _ => none

/-- System and trap: 0x320 + n (R90 Table 18). -/
def systemInstr (n : Nat) (o : Operands) : Option Instr :=
  match n with
  | 0 => some (.csrr o)
  | 1 => some (.csrw o)
  | 2 => some (.trap o)
  | 3 => some (.brk o)
  | 4 => some (.eret o)
  | 5 => some (.scpw o)
  | 6 => some (.scpinv o)
  | _ => none

/-- A V64 or V64I opcode (R88 Table 12); none for a reserved code or an X128 range. -/
def regInstr (op : Nat) (o : Operands) : Option Instr :=
  if op < 0x060 then (IntTy.ofCode (op % 8)).bind (typedInstr (op / 8) · o)
  else if op < 0x080 then untypedInstr (op - 0x060) o
  else if op < 0x100 then (FpTy.ofCode ((op - 0x080) % 4)).bind (floatInstr ((op - 0x080) / 4) · o)
  else if op < 0x140 then convertInstr (op - 0x100) o
  else if op < 0x160 then (SfTy.ofCode ((op - 0x140) % 4)).bind (specialInstr ((op - 0x140) / 4) · o)
  else if op = 0x160 then some (.rngB128 o)
  else if op = 0x161 then some (.rnguF32 o)
  else if op < 0x180 then none
  else if op < 0x1C0 then controlInstr (op - 0x180) o
  else if op < 0x200 then laneInstr (op - 0x1C0) o
  else if op < 0x220 then privateInstr (op - 0x200) o
  else if op < 0x260 then virtualInstr (op - 0x220) o
  else if op < 0x2A0 then atomicInstr (op - 0x260) o
  else if op < 0x2E0 then barrierInstr (op - 0x2A0) o
  else if op < 0x320 then none
  else if op < 0x340 then systemInstr (op - 0x320) o
  else none

/-- An X128 opcode (R90 Table 21). -/
def extInstr (op : Nat) (x : Extended) : Option Instr :=
  match op with
  | 0x2E0 => some (.mfset x)
  | 0x2E1 => some (.mfget x)
  | 0x2E2 => some (.cvyCopy x)
  | 0x2E3 => some (.cvyGath x)
  | 0x2E4 => some (.cvyScat x)
  | 0x2E5 => some (.cvyTrn x)
  | 0x2E6 => some (.cvyConv x)
  | 0x2E7 => some (.cvyCmpr x)
  | 0x2E8 => some (.cvyDcmp x)
  | 0x2E9 => some (.cvyMcst x)
  | 0x2EA => some (.cvyA2a x)
  | 0x2F0 => some (.vmx x)
  | 0x2F8 => some (.cutq x)
  | 0x300 => some (.trav x)
  | 0x301 => some (.travfmt x)
  | 0x302 => some (.emit x)
  | 0x340 => some (.mzro x)
  | 0x341 => some (.mchb x)
  | 0x342 => some (.mche x)
  | 0x343 => some (.mma x)
  | 0x344 => some (.mgth x)
  | 0x345 => some (.mmap x)
  | 0x346 => some (.mdrn x)
  | 0x347 => some (.mdrg x)
  | _ => none

/-! ## Words and their fields -/

/-- The fields of a V64 word (R65 Table 1). -/
def V64.ofWord (w : BitVec 64) : V64 where
  ret := w.extractLsb' 62 2
  mc := w.extractLsb' 59 3
  mb := w.extractLsb' 56 3
  ma := w.extractLsb' 53 3
  sc := w.extractLsb' 43 10
  sb := w.extractLsb' 33 10
  sa := w.extractLsb' 23 10
  nwb := w.extractLsb' 22 1
  dst := w.extractLsb' 12 10

/-- The fields of a V64I word (R66 Table 2). -/
def V64I.ofWord (w : BitVec 64) : V64I where
  imm := w.extractLsb' 32 32
  sa := w.extractLsb' 22 10
  dst := w.extractLsb' 12 10

/-- The fields of an X128 word (R69 Table 4). -/
def Extended.ofWord (w : BitVec 128) : Extended where
  mfa := w.extractLsb' 120 8
  mfb := w.extractLsb' 112 8
  sci := w.extractLsb' 106 6
  sub := w.extractLsb' 102 4
  flags := w.extractLsb' 96 6
  spec := w.extractLsb' 52 44
  sc := w.extractLsb' 42 10
  sb := w.extractLsb' 32 10
  sa := w.extractLsb' 22 10
  dst := w.extractLsb' 12 10

/-- The two slots of a P96 word (R68 Table 3). -/
def PairWord.ofWord (w : BitVec 96) : PairWord where
  s1 := { sc := w.extractLsb' 86 10, sb := w.extractLsb' 76 10, sa := w.extractLsb' 66 10,
          dst := w.extractLsb' 56 10, op7 := w.extractLsb' 49 7 }
  s0 := { sc := w.extractLsb' 39 10, sb := w.extractLsb' 29 10, sa := w.extractLsb' 19 10,
          dst := w.extractLsb' 9 10, op7 := w.extractLsb' 2 7 }

/-- Bits 11..2 of the first parcel: the opcode of every format but P96 (R65, R66, R69). -/
def parcelOp (p : Word) : Nat := (p.extractLsb' 2 10).toNat

/-- Why decoding rejects (R64, R88). -/
inductive DecodeError where
  | tooShort                 -- fewer parcels than the format's length
  | headerMarker             -- tag 0b11 with OP 0x3FF: a block header
  | reservedOpcode (op : Nat)
  | reservedPair (p : PairWord)
deriving DecidableEq, Repr

/-- Parcels of an instruction by the tag of its first parcel (R64). -/
def tagLength (p : Word) : Nat :=
  match (p.extractLsb' 0 2).toNat with
  | 0 => 2
  | 1 => 2
  | 2 => 3
  | _ => 4

/-- Decode one instruction from the front of a parcel list; the rest of the list comes back with it. -/
def decode : List Word → Except DecodeError (Instr × List Word)
  | [] => .error .tooShort
  | p0 :: rest =>
    match (p0.extractLsb' 0 2).toNat, rest with
    | 0, p1 :: rest =>
      match regInstr (parcelOp p0) (.v64 (V64.ofWord (p1 ++ p0))) with
      | some i => .ok (i, rest)
      | none => .error (.reservedOpcode (parcelOp p0))
    | 1, p1 :: rest =>
      match regInstr (parcelOp p0) (.v64i (V64I.ofWord (p1 ++ p0))) with
      | some i => .ok (i, rest)
      | none => .error (.reservedOpcode (parcelOp p0))
    | 2, p1 :: p2 :: rest =>
      let p := PairWord.ofWord (p2 ++ p1 ++ p0)
      if op7Allowed p.s0.op7 && op7Allowed p.s1.op7 then .ok (.pairedWord p, rest)
      else .error (.reservedPair p)
    | 3, rest =>
      if parcelOp p0 = 0x3FF then .error .headerMarker
      else match rest with
      | p1 :: p2 :: p3 :: rest =>
        match extInstr (parcelOp p0) (Extended.ofWord (p3 ++ p2 ++ p1 ++ p0)) with
        | some i => .ok (i, rest)
        | none => .error (.reservedOpcode (parcelOp p0))
      | _ => .error .tooShort
    | _, _ => .error .tooShort

/-- Little-endian parcels of a byte list (R5); a trailing part of a parcel is dropped. -/
def parcelsOf : List Byte → List Word
  | b0 :: b1 :: b2 :: b3 :: rest => (b3 ++ b2 ++ b1 ++ b0) :: parcelsOf rest
  | _ => []

/-- Decode from the bytes of memory. -/
def decodeBytes (bs : List Byte) : Except DecodeError (Instr × List Word) := decode (parcelsOf bs)

/-- The parcels of an instruction whose bits are w, at most four (R64). -/
def parcelsOfNat (n w : Nat) : List Word :=
  match n with
  | 0 => []
  | n + 1 => BitVec.ofNat 32 w :: parcelsOfNat n (w / 2 ^ 32)

/-- The instruction whose bits are w, numbered from bit 0 of the first parcel; bits above nbits are zero. -/
def decodeTableWord (nbits w : Nat) : Option Instr :=
  match decode (parcelsOfNat 4 (w % 2 ^ nbits)) with
  | .ok (i, _) => some i
  | .error _ => none

/-! ## The encoder -/

/-- What an instruction's word carries beside its opcode. -/
inductive Encoded where
  | reg (op : Nat) (o : Operands)
  | ext (op : Nat) (x : Extended)
  | pair (p : PairWord)
  | noWord
deriving DecidableEq, Repr

/-- The opcode and fields of every instruction; `noWord` for the rows that are no instruction words. -/
def Instr.encoded : Instr → Encoded
  | .intAdd ty o => .reg (0 + ty.code) o
  | .intSub ty o => .reg (8 + ty.code) o
  | .intAdds ty o => .reg (16 + ty.code) o
  | .intSubs ty o => .reg (24 + ty.code) o
  | .intMul ty o => .reg (32 + ty.code) o
  | .intMulhi ty o => .reg (40 + ty.code) o
  | .intMad ty o => .reg (48 + ty.code) o
  | .intMin ty o => .reg (56 + ty.code) o
  | .intMax ty o => .reg (64 + ty.code) o
  | .intCmpeq ty o => .reg (72 + ty.code) o
  | .intCmplt ty o => .reg (80 + ty.code) o
  | .intCmple ty o => .reg (88 + ty.code) o
  | .andB32 o => .reg 96 o
  | .orB32 o => .reg 97 o
  | .xorB32 o => .reg 98 o
  | .andnB32 o => .reg 99 o
  | .shlB32 o => .reg 100 o
  | .shrN32 o => .reg 101 o
  | .shrS32 o => .reg 102 o
  | .rotB32 o => .reg 103 o
  | .shlB64 o => .reg 104 o
  | .shrN64 o => .reg 105 o
  | .shrS64 o => .reg 106 o
  | .bfeN32 o => .reg 107 o
  | .bfeS32 o => .reg 108 o
  | .bfiB32 o => .reg 109 o
  | .popcB32 o => .reg 110 o
  | .clzB32 o => .reg 111 o
  | .brevB32 o => .reg 112 o
  | .selB32 o => .reg 113 o
  | .movB32 o => .reg 114 o
  | .movB64 o => .reg 115 o
  | .movB128 o => .reg 116 o
  | .mulwS32 o => .reg 117 o
  | .mulwN32 o => .reg 118 o
  | .dot4S32 o => .reg 119 o
  | .dot4N32 o => .reg 120 o
  | .dot2S32 o => .reg 121 o
  | .dot2N32 o => .reg 122 o
  | .leaB64 o => .reg 123 o
  | .cmpneB32 o => .reg 124 o
  | .andB64 o => .reg 125 o
  | .orB64 o => .reg 126 o
  | .xorB64 o => .reg 127 o
  | .pairedWord p => .pair p
  | .br o => .reg 0x180 o
  | .brz o => .reg 0x181 o
  | .brnz o => .reg 0x182 o
  | .brx o => .reg 0x183 o
  | .call o => .reg 0x184 o
  | .callx o => .reg 0x185 o
  | .ret o => .reg 0x186 o
  | .exit o => .reg 0x187 o
  | .qloop o => .reg 0x188 o
  | .yield o => .reg 0x189 o
  | .nop o => .reg 0x18A o
  | .ldPrivate sp ty o => .reg ((match sp with | .t => 0x200 | .k => 0x20C) + ty.code) o
  | .stPrivate sp ty o => .reg ((match sp with | .t => 0x207 | .k => 0x213) + ty.code) o
  | .csrr o => .reg 0x320 o
  | .csrw o => .reg 0x321 o
  | .trap o => .reg 0x322 o
  | .brk o => .reg 0x323 o
  | .fpAdd rm ty o => .reg (128 + 4 * rm.code + ty.code) o
  | .fpSub ty o => .reg (144 + ty.code) o
  | .fpMul rm ty o => .reg (148 + 4 * rm.code + ty.code) o
  | .fpFma rm ty o => .reg (164 + 4 * rm.code + ty.code) o
  | .fpMin ty o => .reg (180 + ty.code) o
  | .fpMax ty o => .reg (184 + ty.code) o
  | .fpCmpeq ty o => .reg (188 + ty.code) o
  | .fpCmplt ty o => .reg (192 + ty.code) o
  | .fpCmple ty o => .reg (196 + ty.code) o
  | .fpCmpun ty o => .reg (200 + ty.code) o
  | .fpClass ty o => .reg (204 + ty.code) o
  | .fpRint rm ty o => .reg (208 + 4 * rm.code + ty.code) o
  | .fpScale ty o => .reg (224 + ty.code) o
  | .fpDiv ty o => .reg (228 + ty.code) o
  | .fpSqrt ty o => .reg (232 + ty.code) o
  | .fpRcp ty o => .reg (236 + ty.code) o
  | .fpRsqrt ty o => .reg (240 + ty.code) o
  | .fpCpsgn ty o => .reg (244 + ty.code) o
  | .cvtScalar k o => .reg (0x100 + k.code) o
  | .cvtNarrowMx k o => .reg (0x114 + k.code) o
  | .cvtWidenMx k o => .reg (0x11A + k.code) o
  | .cvtF32E8m0 o => .reg 0x133 o
  | .qscl k o => .reg (0x120 + k.code) o
  | .qnt k o => .reg (0x126 + k.code) o
  | .cpnd o => .reg 0x12C o
  | .cpndi o => .reg 0x12D o
  | .cpinst o => .reg 0x12E o
  | .pkB16x2 o => .reg 0x12F o
  | .pkB8x4 o => .reg 0x130 o
  | .upkB8x4 o => .reg 0x131 o
  | .upkB16x2 o => .reg 0x132 o
  | .exp2 ty o => .reg (0x140 + ty.code) o
  | .log2 ty o => .reg (0x144 + ty.code) o
  | .exp ty o => .reg (0x148 + ty.code) o
  | .log ty o => .reg (0x14C + ty.code) o
  | .sin ty o => .reg (0x150 + ty.code) o
  | .cos ty o => .reg (0x154 + ty.code) o
  | .tanh ty o => .reg (0x158 + ty.code) o
  | .sigm ty o => .reg (0x15C + ty.code) o
  | .rngB128 o => .reg 0x160 o
  | .rnguF32 o => .reg 0x161 o
  | .shflIdx o => .reg 0x1C0 o
  | .shflUp o => .reg 0x1C1 o
  | .shflDown o => .reg 0x1C2 o
  | .shflXor o => .reg 0x1C3 o
  | .shflBcast o => .reg 0x1C4 o
  | .shflIdxB64 o => .reg 0x1C5 o
  | .voteAll o => .reg 0x1C6 o
  | .voteAny o => .reg 0x1C7 o
  | .voteEq o => .reg 0x1C8 o
  | .ballot o => .reg 0x1C9 o
  | .elect o => .reg 0x1CA o
  | .matchB32 o => .reg 0x1CB o
  | .matchB64 o => .reg 0x1CC o
  | .cred k o => .reg (0x1CD + k.code) o
  | .scan k o => .reg (0x1D8 + k.code) o
  | .scanx k o => .reg (0x1DC + k.code) o
  | .ddxC ty o => .reg (0x1DE + 4 * ty.code) o
  | .ddyC ty o => .reg (0x1DF + 4 * ty.code) o
  | .ddxF ty o => .reg (0x1E0 + 4 * ty.code) o
  | .ddyF ty o => .reg (0x1E1 + 4 * ty.code) o
  | .barArrive o => .reg 0x2A0 o
  | .barWait o => .reg 0x2A1 o
  | .barSync o => .reg 0x2A2 o
  | .barrierWaitResume .. => .noWord
  | .obarInit o => .reg 0x2A3 o
  | .obarArrive o => .reg 0x2A4 o
  | .obarWait o => .reg 0x2A5 o
  | .obarSync o => .reg 0x2A6 o
  | .obarWaitResume .. => .noWord
  | .drain o => .reg 0x2A7 o
  | .drainAckDone .. => .noWord
  | .psync o => .reg 0x2A8 o
  | .psyncMeet .. => .noWord
  | .ldV k o => .reg (0x220 + k.code) o
  | .stV k o => .reg (0x227 + k.code) o
  | .ldAcq k o => .reg (0x22C + k.code) o
  | .stRel k o => .reg (0x22F + k.code) o
  | .ldUa k o => .reg (0x232 + k.code) o
  | .stUa k o => .reg (0x235 + k.code) o
  | .ldAdv k o => .reg (0x238 + k.code) o
  | .chk k o => .reg (0x23B + k.code) o
  | .atomAdd k o => .reg (0x260 + k.code) o
  | .atomMin k o => .reg (0x266 + k.code) o
  | .atomMax k o => .reg (0x26B + k.code) o
  | .atomAnd k o => .reg (0x270 + k.code) o
  | .atomOr k o => .reg (0x272 + k.code) o
  | .atomXor k o => .reg (0x274 + k.code) o
  | .atomExch k o => .reg (0x276 + k.code) o
  | .atomCas k o => .reg (0x278 + k.code) o
  | .redAdd k o => .reg (0x280 + k.code) o
  | .redMin k o => .reg (0x286 + k.code) o
  | .redMax k o => .reg (0x28B + k.code) o
  | .redAnd k o => .reg (0x290 + k.code) o
  | .redOr k o => .reg (0x292 + k.code) o
  | .redXor k o => .reg (0x294 + k.code) o
  | .reductionRunApply .. => .noWord
  | .fence o => .reg 0x298 o
  | .fenceAcq o => .reg 0x299 o
  | .fenceRel o => .reg 0x29A o
  | .tfence o => .reg 0x29B o
  | .scpw o => .reg 0x325 o
  | .scpinv o => .reg 0x326 o
  | .eret o => .reg 0x324 o
  | .mfset x => .ext 0x2E0 x
  | .mfget x => .ext 0x2E1 x
  | .cvyCopy x => .ext 0x2E2 x
  | .cvyGath x => .ext 0x2E3 x
  | .cvyScat x => .ext 0x2E4 x
  | .cvyTrn x => .ext 0x2E5 x
  | .cvyConv x => .ext 0x2E6 x
  | .cvyCmpr x => .ext 0x2E7 x
  | .cvyDcmp x => .ext 0x2E8 x
  | .cvyMcst x => .ext 0x2E9 x
  | .cvyA2a x => .ext 0x2EA x
  | .convoyComplete .. => .noWord
  | .convoyFaultStop .. => .noWord
  | .vmx x => .ext 0x2F0 x
  | .cutq x => .ext 0x2F8 x
  | .cutComplete .. => .noWord
  | .emit x => .ext 0x302 x
  | .travfmt x => .ext 0x301 x
  | .trav x => .ext 0x300 x
  | .travQueryComplete .. => .noWord
  | .mzro x => .ext 0x340 x
  | .mchb x => .ext 0x341 x
  | .mche x => .ext 0x342 x
  | .mma x => .ext 0x343 x
  | .mgth x => .ext 0x344 x
  | .mmap x => .ext 0x345 x
  | .mdrn x => .ext 0x346 x
  | .mdrg x => .ext 0x347 x
  | .matrixCommandComplete .. => .noWord
  | .queueWaitResume .. => .noWord
  | .queueMisuseDetect .. => .noWord
  | .positionFill .. => .noWord
  | .swapOut .. => .noWord
  | .ageLimitReached .. => .noWord
  | .blockPlace .. => .noWord
  | .blockRetire .. => .noWord
  | .pageWalk .. => .noWord
  | .mergeWindowExpire .. => .noWord
  | .acknowledgement .. => .noWord
  | .inj .. => .noWord
  | .carve .. => .noWord
  | .spgrant .. => .noWord
  | .sprevoke .. => .noWord
  | .preempt .. => .noWord
  | .blockSave .. => .noWord
  | .resume .. => .noWord
  | .blockRestore .. => .noWord
  | .ereplay .. => .noWord
  | .priorityPreempt .. => .noWord
  | .ctxnew .. => .noWord
  | .ctxfree .. => .noWord
  | .qcreate .. => .noWord
  | .qfree .. => .noWord
  | .qgrant .. => .noWord
  | .hostwin .. => .noWord
  | .podjoin .. => .noWord
  | .notify .. => .noWord
  | .packetDequeue .. => .noWord
  | .launchSemaphoreReady .. => .noWord
  | .packetRetire .. => .noWord
  | .evbase .. => .noWord
  | .evsize .. => .noWord
  | .evrd .. => .noWord
  | .bar0Write .. => .noWord
  | .hostBar2Read .. => .noWord
  | .hostBar2Write .. => .noWord
  | .itineraryNodeStart .. => .noWord
  | .nodeComplete .. => .noWord
  | .tileAssign .. => .noWord
  | .binTriangle .. => .noWord
  | .renderPhaseStart .. => .noWord
  | .rasterNodeComplete .. => .noWord
  | .remoteRequest .. => .noWord
  | .remoteTimeout .. => .noWord
  | .a2aArrival .. => .noWord
  | .portJoin .. => .noWord
  | .devnumSet .. => .noWord
  | .hostsel .. => .noWord
  | .mainRelease => .noWord
  | .mainHold => .noWord
  | .mainReset => .noWord
  | .firmwareUpdate .. => .noWord
  | .spdmRequest .. => .noWord
  | .sensorRead .. => .noWord
  | .powerCapSet .. => .noWord
  | .errlogRead .. => .noWord
  | .errlogClear .. => .noWord
  | .thermal .. => .noWord
  | .streamByteWritten .. => .noWord
  | .carveComplete .. => .noWord
  | .softError .. => .noWord
  | .writeBack .. => .noWord
  | .advanceLoadEntryRemove .. => .noWord
  | .peerArrival .. => .noWord
  | .ualinkPortDown .. => .noWord
  | .pcieLinkDown .. => .noWord
  | .warningTemperature .. => .noWord

/-- The 64-bit word of a V64 instruction (R65 Table 1). -/
def V64.word (op : Nat) (f : V64) : BitVec 64 :=
  f.ret ++ f.mc ++ f.mb ++ f.ma ++ f.sc ++ f.sb ++ f.sa ++ f.nwb ++ f.dst ++ BitVec.ofNat 10 op ++ 0#2

/-- The 64-bit word of a V64I instruction (R66 Table 2). -/
def V64I.word (op : Nat) (f : V64I) : BitVec 64 :=
  f.imm ++ f.sa ++ f.dst ++ BitVec.ofNat 10 op ++ 1#2

/-- The 128-bit word of an X128 instruction (R69 Table 4). -/
def Extended.word (op : Nat) (x : Extended) : BitVec 128 :=
  x.mfa ++ x.mfb ++ x.sci ++ x.sub ++ x.flags ++ x.spec ++ x.sc ++ x.sb ++ x.sa ++ x.dst ++ BitVec.ofNat 10 op ++ 3#2

/-- The 96-bit word of a pair (R68 Table 3). -/
def PairWord.word (p : PairWord) : BitVec 96 :=
  p.s1.sc ++ p.s1.sb ++ p.s1.sa ++ p.s1.dst ++ p.s1.op7 ++ p.s0.sc ++ p.s0.sb ++ p.s0.sa ++ p.s0.dst ++ p.s0.op7 ++ 2#2

/-- The parcels of an instruction, low parcel first; empty for a row that is no instruction word. -/
def encode (i : Instr) : List Word :=
  match i.encoded with
  | .reg op (.v64 f) => [(f.word op).extractLsb' 0 32, (f.word op).extractLsb' 32 32]
  | .reg op (.v64i f) => [(f.word op).extractLsb' 0 32, (f.word op).extractLsb' 32 32]
  | .ext op x =>
    [(x.word op).extractLsb' 0 32, (x.word op).extractLsb' 32 32, (x.word op).extractLsb' 64 32, (x.word op).extractLsb' 96 32]
  | .pair p => [p.word.extractLsb' 0 32, p.word.extractLsb' 32 32, p.word.extractLsb' 64 32]
  | .noWord => []

end Sys2Proof
end

