-- ==== Sys2Proof/Config.lean ====
section
/-! DEFINITION. What every Efdor fixes (figures of the manual) and the free values: what the manual leaves open.
A free value is an opaque constant: nothing in Lean can evaluate it or prove a value of it. -/

namespace Sys2Proof.Config

/-- The architecture hash (R402 Table 2, R411). -/
def archHash : BitVec 64 := 0x6E3A91C40B57D2F8#64

/-- Cores of a device, cores of a die, dies (R4 Table 2). -/
def nCores : Nat := 64
def coresPerDie : Nat := 16
def nDies : Nat := 4

/-- Threads a lane of a core can hold, threads a core can hold (R138, R139). -/
def ranksPerLane : Nat := 48
def threadsPerCore : Nat := 1536

/-- Issue slots of a core and issue positions of a slot (R151). -/
def issueSlots : Nat := 8
def positionsPerSlot : Nat := 8

/-- Tile-memory granules of a core, and the size of one (R184, R186). -/
def granuleBytes : Nat := 4096
def granulesPerCore : Nat := 1536

/-- Entries of a core's TLB and of a die's (R202). -/
def tlbPerCore : Nat := 512
def tlbPerDie : Nat := 16384

/-- Tokens a queue holds (R287). -/
def queueDepth : Nat := 128

/-- Open reconvergence records of one block on one core (R146). -/
def maxRecords : Nat := 16

/-- A spill stack is at most this long, and the code arena at most that (R26, R35). -/
def maxSpill : Nat := 0x4000
def maxCodeLimit : Nat := 0x10000000

/-- The default AGE_LIMIT (R147). -/
def defaultAgeLimit : Nat := 4096

/-- REMOTE_BOUND in cc (R425). -/
def remoteBound : Nat := 600000

/-- Free value: the result of a special function where Table 9 of R63 names none; the arguments are the function's
number F (R134) and the input bits. The accuracy bound is applied where it is used (assumption 12). -/
opaque special : Nat → BitVec 32 → BitVec 32

/-- Free value: where a monotonic special function comes to reach an output; the arguments are F and the output's place in the
order of FP32 values, the answer the place of an input. The accuracy bound is applied where it is used (assumption 12). -/
opaque specialCut : Nat → Int → Int

/-- Free value: a choice the manual calls unspecified (R9), drawn at the model's own counter. -/
opaque choice : Nat → Nat

/-- Free value: whether a read of a register that the header declares dead finds what was last written to it, or zero; the
arguments are the caravan, the thread, the number of the instruction in the block, and the register (R33). -/
opaque deadKept : Nat → Nat → Nat → Nat → Bool

/-- Free value: the answer to the request drawn at a number, from the active image, the SVN minimum and the configuration
measured; the manual gives no key material and no message figures (R419). -/
opaque spdmAnswer : Nat → List (BitVec 8) → List (BitVec 8) → Nat → List Nat → List (BitVec 8)

/-- Free value: whether a firmware image passes the boot ROM's verification; the vendor key is not in the manual (R418). -/
opaque imageVerifies : List (BitVec 8) → Bool

/-- Free value: the SVN in a firmware image's header; the manual gives its fields no offsets (R418). -/
opaque imageSvn : List (BitVec 8) → Nat

/-- Free value: a sensor's reading; the manual gives no sensor its figures (R417). -/
opaque sensorValue : Nat → Nat → BitVec 32

/-- Free value: a byte read from the memory of a peer device, which is not part of this machine (R424). -/
opaque peerByte : Nat → Nat → BitVec 8

/-- Free value: whether a peer's sector is out of reach, its port, link or peer being down (R425). -/
opaque peerLost : Nat → Nat → Bool

/-- Free value: where the base of a block's scratchpad segment lies; the manual gives no address (R193). -/
opaque segmentVa : Nat → BitVec 64

/-- Free value: a byte of the save area after a save; its layout is not given (R390). -/
opaque saveByte : Nat → Nat → BitVec 8

/-- Free value: whether a register that a save need not keep, or a word or byte of saved state in a dropped sector of the save
area, comes back; the arguments are the draw, the agent or position, and the register or byte (R33, R390, R393). -/
opaque saveKept : Nat → Nat → Nat → Bool

/-- Free value: where the L2 holds a line, in the form of WHERE for a tag; placement is internal (R190, R385). -/
opaque tagPlace : Nat → Nat

/-- Free value: the syndrome of an error-log entry; the manual does not give the SECDED code (R385). -/
opaque syndrome : Nat → BitVec 16

end Sys2Proof.Config
end

