-- ==== Sys2Proof/Machine/State.lean ====
section
/-! DEFINITION. The state of one Efdor device, as plain data: agents (threads and drovers), caravans, blocks, launches,
contexts, engine operations, storage, the hub, the hosts' registers and the management side. -/

namespace Sys2Proof.Machine

/-- Storage: (address, byte) pairs, addresses strictly rising, no entry that holds the zero an unlisted address reads as. -/
abbrev Memory := List Host.Cell

/-- A register file or an element array: (index, word) pairs in the same canonical form. -/
abbrev WordMap := List (Nat × Word)

/-- Why the machine stops without a next state. -/
inductive Fault where
  /-- Raised by the meaning of an instruction when no caravan has the issue: no agent executes it. The hardware never
  issues without an agent, so nothing it does is lost: safe. -/
  | noIssuer
deriving DecidableEq, Repr

/-- Why an instruction has no meaning here. -/
inductive Refusal where
  /-- Raised by an arm of `exec` that has no meaning yet: safe, since nothing is claimed of it. -/
  | notModelled (mnemonic : String)
deriving DecidableEq, Repr

/-! ## Agents -/

/-- The width of a result in a latch (R20, R21). -/
inductive Width where
  | w32 | w64 | w128
deriving DecidableEq, Repr, Inhabited

/-- A bypass latch that holds a value; `born` is the number of the instruction that produced it (R80). -/
structure Latch where
  width : Width
  val : QWord
  born : Nat
deriving DecidableEq, Repr, Inhabited

/-- The frame registers of the trap interface (R379 Table 2). `issued` restores the instruction count with the latches (R82). -/
structure TrapFrame where
  code : BitVec 16 := 0
  pc : Word := 0
  hdr : Word := 0
  nxt : Word := 0
  resume : Word := 0
  info : Word := 0
  addr : DWord := 0
  seq : DWord := 0
  fpstat : BitVec 5 := 0
  held : List (Option Latch) := [none, none, none, none]
  issued : Nat := 0
  /-- The fault was raised on the way into a header (R379: an entry fault). -/
  entry : Bool := false
  /-- The fault met this agent in a QLOCK block; its quad waits at the instruction (R381). -/
  quad : Bool := false
deriving DecidableEq, Repr, Inhabited

/-- The state of an advance-load entry (R217). -/
inductive AdvState where
  | valid | deferred
deriving DecidableEq, Repr, Inhabited

/-- An entry of the advance-load table (R217). -/
structure AdvEntry where
  reg : Nat
  va : DWord
  pa : Nat
  size : Nat
  bytes : QWord
  state : AdvState
deriving DecidableEq, Repr, Inhabited

/-- One independent level barrier (R174): scope index, launch, and the block and core it is narrowed to. -/
structure BarKey where
  scope : Nat
  launch : Nat
  block : Option Nat
  core : Option Nat
deriving DecidableEq, Repr, Inhabited

/-- Where a barrier object or completion object lies (R177); a v: object is named by its VA, translated at each access. -/
inductive ObjRef where
  | tile (block pos off : Nat)
  | virt (va : Nat)
deriving DecidableEq, Repr, Inhabited

/-- A resolved scope as captured at issue (R242, R246). -/
structure Scope where
  index : Nat := 0
  gen : BitVec 16 := 0
  /-- REL of the entry. -/
  rel : Bool := false
  cores : BitVec 64 := 0
  slices : BitVec 64 := 0
  host : Bool := false
  peers : BitVec 1024 := 0
deriving DecidableEq, Repr, Inhabited

/-- A manifest entry: the 64-byte record, byte 0 in bits 7..0, and GEN (R261). -/
structure Manifest where
  bits : BitVec 512 := 0
  gen : BitVec 16 := 0
deriving DecidableEq, Repr, Inhabited

/-- What an agent waits for inside an instruction (R389 step 2). -/
inductive Wait where
  | ready
  /-- bar.wait and the wait of bar.sync: the phase of the agent's arrival. -/
  | level (key : BarKey) (phase : Nat)
  /-- bar.arrive or bar.sync held until the previous arrival's phase completes (R175). -/
  | arrive (scope : Scope) (thenWait : Bool)
  /-- obar.wait, and the wait of obar.sync with the destination field its phase is bound for (R180). -/
  | object (obj : ObjRef) (phase : BitVec 16) (dst : Option (BitVec 10))
  /-- drain: until no pending operation of the issuing core is older than `upTo`; then the arrival (R181). -/
  | drain (scope : Scope) (core upTo : Nat)
  /-- tfence: until no request to a peer that agents on these cores issued before `upTo` is unacknowledged (R228). -/
  | tfence (cores : BitVec 64) (upTo : Nat)
  /-- psync number `index`, offering `value`, its result bound for the destination field `dst` (R182). -/
  | psync (index : Nat) (value : Word) (dst : BitVec 10)
  /-- A queue pop or push lacks tokens or room (R288, R289): (queue, tokens to pop) and (queue, tokens to push); `heads` are
  the streams whose head tokens an mmap waits for (R379). -/
  | queue (pops pushes : List (Nat × Nat)) (heads : List Nat)
  /-- An atomic whose element lies on a peer: its old value of `bytes` bytes has not returned (R424, R425). -/
  | remote (dst : BitVec 10) (bytes : Nat)
  /-- emit whose count word lies on a peer: the record, for the rows of entry `m` (R349). -/
  | emit (dst : BitVec 10) (m : Manifest) (record : List Byte)
  /-- A uniform instruction that agent `of` executes: its result comes with that agent's (R160). -/
  | same (dst : BitVec 10) (of : Nat)
  /-- A packed atomic whose first half has given `old`; the second, at `pa`, adds `v`; `upper` says that it is the upper one.
  The lanes of one instruction share the number `seq` (R223, R224). -/
  | half (dst : BitVec 10) (seq pa : Nat) (bf16 upper : Bool) (v old : BitVec 16)
  /-- An atomic's old value, held until every lane of the instruction has its own. -/
  | got (dst : BitVec 10) (bytes : Nat) (val : QWord)
deriving DecidableEq, Repr, Inhabited

/-- Where an agent stands when it is not issuing (R142-R157). -/
inductive Stand where
  /-- In the waystation at the header `pc`; held there while an open record of its core names it and `pc` (R146). -/
  | header
  /-- On the way into the header `pc`: leaving a block, or stopped there until the entry is attempted again (R382). -/
  | entering
  /-- Waiting at a QLOCK header for its quad to lock (R154). -/
  | quad
  /-- A member of a locked quad that is between blocks; `pc` is its target (R155). -/
  | locked
  /-- A member of caravan `c` (R143). -/
  | caravan (c : Nat)
  /-- Discarded inside a locked quad: a helper until the quad unlocks (R157). -/
  | discarded
  /-- Held with its quad by a fault: a wanting thread or a helper, inside a block (at `pc` when wanting) or between blocks
  (toward `pc`) (R381). -/
  | quadTrap (want inside : Bool)
  /-- Stopped at the instruction `pc`, whose fault stopped its context, as a member of caravan `c`; it executes that
  instruction again after RESUME (R382). -/
  | parked (c : Nat)
  /-- Exited (R108). -/
  | exited
deriving DecidableEq, Repr, Inhabited

/-- A thread or a drover program (R15, R293). A drover's d register k is words 2k and 2k+1 of `regs`. -/
structure Agent where
  drover : Bool := false
  ctx : Nat := 0
  launch : Nat := 0
  block : Nat := 0
  /-- Position in the block's core list (R139). -/
  pos : Nat := 0
  /-- THREAD (R23). -/
  tidx : Nat := 0
  pc : Word := 0
  hdr : Word := 0
  regs : WordMap := []
  /-- Registers below LIVE of the block entered (R33); words of `regs` written since; the caravan of that entry. -/
  live : Nat := 512
  wrote : List Nat := []
  entered : Nat := 0
  latches : List (Option Latch) := [none, none, none, none]
  /-- Instructions of the current block issued so far (R80). -/
  issued : Nat := 0
  fpstat : BitVec 5 := 0
  spill : Memory := []
  adv : List AdvEntry := []
  trapMode : Bool := false
  frame : TrapFrame := {}
  wait : Wait := .ready
  arrivals : List (BarKey × Nat) := []
  psyncs : Nat := 0
  stand : Stand := .header
  /-- Arrival time at the header on its core's counter (R147). -/
  since : Nat := 0
  solo : DWord := 0
  /-- PSTAT bits 1..0 (R295). -/
  ended : BitVec 2 := 0
deriving DecidableEq, Repr, Inhabited

/-- Where a caravan is (R151 Table 5); a drover has its own issue. -/
inductive Place where
  | active (slot pos : Nat)
  | pending
  | drover
  | dissolved
deriving DecidableEq, Repr, Inhabited

/-- A member lane's agent and whether it is in the want-mask (R155, R163). -/
structure Member where
  agent : Nat
  want : Bool
deriving DecidableEq, Repr, Inhabited

/-- A caravan: the agents that execute one block together, and the point they have reached (R143). -/
structure Caravan where
  block : Nat := 0
  core : Nat := 0
  hdr : Word := 0
  /-- The program counter of every wanting member (R26). -/
  pc : Word := 0
  /-- LEN and QLOCK of the header (R28). -/
  len : Nat := 0
  qlock : Bool := false
  /-- The reconvergence header of a non-zero RECON. -/
  recon : Option Word := none
  members : List Member := []
  /-- Lanes of quad positions that hold no thread (R154). -/
  vacant : List Nat := []
  place : Place := .pending
  formed : Nat := 0
  since : Nat := 0
  aged : Bool := false
deriving DecidableEq, Repr, Inhabited

/-! ## The context's tables -/

/-- A programmable scope entry (R240 Table 4). -/
structure ScopeEntry where
  valid : Bool := false
  gen : BitVec 16 := 0
  rel : Bool := false
  host : Bool := false
  cores : BitVec 64 := 0
  slices : BitVec 64 := 0
  peers : BitVec 1024 := 0
deriving DecidableEq, Repr, Inhabited

/-- An installed companding curve: knots and slopes, sixteen each (R58, R59); `none` of it is the identity. -/
structure Curve where
  x : List Word
  y : List Word
  k : List Word
deriving DecidableEq, Repr, Inhabited

/-- A context (R410 Table 6 and the state CTXNEW gives it). -/
structure Context where
  live : Bool := true
  ptRoot : Nat := 0
  codeBase : Nat := 0
  codeLimit : Nat := 0
  ageLimit : Nat := Config.defaultAgeLimit
  trapT : Word := 0xFFFFFFFF
  trapD : Word := 0xFFFFFFFF
  saveBase : DWord := 0
  saveSize : DWord := 0
  peerBase : DWord := 0
  peerCount : Nat := 0
  podMask : BitVec 1024 := 0
  scopes : List (Nat × ScopeEntry) := []
  manifests : List (Nat × Manifest) := []
  curves : List (Nat × Curve) := []
  formats : List (Nat × BitVec 256) := []
  dropcnt : DWord := 0
  /-- Grant masks of dies 0-3 (R192). -/
  grants : List (BitVec 12) := [0, 0, 0, 0]
  stopped : Bool := false
deriving DecidableEq, Repr, Inhabited

/-! ## The matrix engine (R298-R304) -/

/-- An accumulator: its elements by 64 i + j, and for an OPEN one its partial sums and block counter. -/
structure Accum where
  opened : Bool := false
  elems : WordMap := []
  even : WordMap := []
  odd : WordMap := []
  n : Nat := 0
deriving DecidableEq, Repr, Inhabited

/-- An A operand or a B tile: the codes and block scales of 64 lines of one k-step (a B tile's lines are its columns), with
what was captured from its entry (R302, R304). -/
structure OpTile where
  fmt : Nat := 0
  curved : Bool := false
  curve : Option Curve := none
  sat : Bool := false
  codes : List (List DWord) := []
  scales : List (List Byte) := []
  /-- Lines of value +0 whatever the curve: rows of mgth without a row of the entry (R309). -/
  zeros : List Nat := []
deriving DecidableEq, Repr, Inhabited

/-- What a B-stage slot is known to hold when a command is checked (R302, R306). -/
structure SlotMeta where
  fmt : Nat
  curved : Bool
  second : Bool
  twoSlot : Bool
deriving DecidableEq, Repr, Inhabited

/-- A matrix command in the engine's queue, with everything captured at its issue (R265, R296, R303). -/
structure MatCmd where
  op : Nat
  x : Extended
  oa : DWord := 0
  ob : DWord := 0
  w : Word := 0
  ma : Manifest := {}
  mb : Manifest := {}
  ca : Option Curve := none
  cb : Option Curve := none
  idx : List Word := []
  /-- The pages of a B load, translated and checked at issue: (PA, bytes) for each column's codes, then its scales. -/
  pages : List (List (Nat × Nat)) := []
  /-- Its place in the order of issues (R181). -/
  seq : Nat := 0
  /-- For mmap: the streams that run, with their origins. -/
  runC : Option DWord := none
  runU : Option DWord := none
deriving DecidableEq, Repr, Inhabited

/-- The engine state of one drover program (R293 Table 1). -/
structure Engine where
  acc : List Accum := List.replicate 8 {}
  metas : List (Nat × SlotMeta) := []
  slots : List (Nat × OpTile) := []
  latch : Option OpTile := none
  latchMeta : Option SlotMeta := none
  queue : List MatCmd := []
deriving DecidableEq, Repr, Inhabited

/-! ## Blocks, launches, cores -/

/-- A channel stream: its length and the written prefix (R273-R276). -/
structure Stream where
  last : Nat := 0
  wpos : Nat := 0
deriving DecidableEq, Repr, Inhabited

/-- An open reconvergence record (R146); `quads` when its members are whole quads (R155). -/
structure Record where
  id : Nat
  target : Word
  members : List Nat
  quads : Bool
deriving DecidableEq, Repr, Inhabited

/-- Whose memory a block's t: share is: its own, or the segment of a tile of a raster pass (R351). -/
inductive ShareHome where
  | own
  | segment (pass run : Nat)
deriving DecidableEq, Repr, Inhabited

/-- A block's part on one core of its core list. -/
structure Share where
  core : Nat := 0
  home : ShareHome := .own
  tile : Memory := []
  streams : List Stream := List.replicate 8 {}
  inbound : Nat := 0
  records : List Record := []
  engine : Engine := {}
deriving DecidableEq, Repr, Inhabited

/-- A block is resident; stopping for a save; stored, its state written but its cores not yet released, since its launch is
co-resident; saved off its cores; placed again, waiting for the rest of a co-resident launch; or retired (R141, R388,
R389, R392). -/
inductive BlockState where
  | resident | saving | stored | saved | placed | retired
deriving DecidableEq, Repr, Inhabited

/-- A block (R139). -/
structure Block where
  ctx : Nat := 0
  launch : Nat := 0
  /-- BLOCK and PARTNER (R23). -/
  bidx : Nat := 0
  partner : Nat := 0
  /-- The other block of a pair (R158). -/
  mate : Option Nat := none
  size : Nat := 0
  shares : List Share := []
  /-- Numbers of the quads that are locked (R154). -/
  quads : List Nat := []
  /-- The die-scratchpad segment: its base VA and the PA of each 4 KiB page (R193). -/
  scratchVa : DWord := 0
  scratchPages : List Nat := []
  state : BlockState := .resident
  /-- The Broker pre-empted it for a launch of higher PRIO (R400). -/
  broker : Bool := false
  /-- Tokens saved with the block: (position, queue, tokens) (R390). -/
  tokens : List (Nat × Nat × List DWord) := []
deriving DecidableEq, Repr, Inhabited

/-- A thread of a fragment launch: its registers g0-g6 and whether it starts discarded (R359). -/
structure FragThread where
  regs : List Word
  dead : Bool
deriving DecidableEq, Repr, Inhabited

/-- Registers the Dispatcher sets itself for a node or phase launch (R346, R356, R359, R414). -/
inductive Seed where
  | plain
  | shader (count : Nat) (ocnt : DWord)
  | tile (index g1 : Word)
  | fragment (threads : List FragThread)
deriving DecidableEq, Repr, Inhabited

/-- Where a launch came from. -/
inductive Origin where
  | packet
  | node (walk : Nat)
  | phase (pass run : Nat)
deriving DecidableEq, Repr, Inhabited

/-- The life of a launch (R412, R413). -/
inductive LaunchState where
  | semaphore | running | done
deriving DecidableEq, Repr, Inhabited

/-- A launch: the captured launch record (R411 Table 7) and its progress. -/
structure Launch where
  ctx : Nat := 0
  queue : Nat := 0
  index : Word := 0
  origin : Origin := .packet
  state : LaunchState := .running
  itinerary : Bool := false
  paired : Bool := false
  legacy : Bool := false
  coresident : Bool := false
  drv : Bool := false
  prio : Nat := 0
  entry : Word := 0
  dentry : Word := 0
  nblock : Nat := 0
  bsize : Nat := 0
  regs : Nat := 32
  tileSize : Nat := 0
  spillSize : Nat := 0
  scratch : Nat := 0
  sreg : Nat := 0x3FF
  qmask : BitVec 8 := 0
  args : List DWord := []
  sem : DWord := 0
  itin : DWord := 0
  recVa : DWord := 0
  seed : Seed := .plain
  /-- Core of the tile a phase launch runs on. -/
  onCore : Option Nat := none
  /-- The bytes of the launch record, and of the itinerary header (R412 step 1). -/
  raw : List Byte := []
  ihdr : Option (List Byte) := none
  /-- Its status, once done (R412 Table 8). -/
  status : Nat := 0
  /-- The quartet of the block placed last (R400). -/
  quartet : Option Nat := none
  placed : Nat := 0
  retired : Nat := 0
  join : Option (Word × BitVec 1024) := none
  /-- ARG1, ARG2 or ARG3 of its packet is not zero (R412). -/
  badArgs : Bool := false
  /-- When its next block was first found to have no room, by the hub's clock (R400). -/
  waiting : Option Nat := none
  /-- The launch is being or is pre-empted; its saves are complete; its blocks are being restored; the Broker pre-empts blocks
  of it and its PREEMPT_DONE is due (R389, R392, R400). -/
  saving : Bool := false
  saved : Bool := false
  restoring : Bool := false
  broker : Bool := false
deriving DecidableEq, Repr, Inhabited

/-- A core's queue: the block it is bound to and its tokens, head first (R287). -/
structure CoreQueue where
  owner : Option Nat := none
  tokens : List DWord := []
deriving DecidableEq, Repr, Inhabited

/-- A core: its cycle counter and queues. -/
structure Core where
  cycle : DWord := 0
  queues : List CoreQueue := List.replicate 8 {}
deriving DecidableEq, Repr, Inhabited

/-- A phase-counting level barrier (R175). -/
structure Barrier where
  key : BarKey
  phase : Nat := 0
  arrived : List Nat := []
  /-- The scope and the participants captured by the phase's first arrival. -/
  scope : Option Scope := none
  parts : List Nat := []
  /-- The place of that arrival in the order of such arrivals. -/
  opened : Nat := 0
deriving DecidableEq, Repr, Inhabited

/-- What peers' launches under one KEY have told of their arrivals at a scope: the phases that the device has reached
(R427). -/
structure PeerArrival where
  key : Word
  scope : Nat
  device : Nat
  phases : Nat
deriving DecidableEq, Repr, Inhabited

/-! ## Storage -/

/-- A completed translation (R197). ORD: 0 RC, 1 SO, 2 UO. -/
structure Translation where
  pa : Nat
  ord : Nat
  cmp : Bool
  amo : Bool
  wr : Bool
  rd : Bool
deriving DecidableEq, Repr, Inhabited

/-- A translation held in a core's TLB (R200): the page's base VA and size, and what the base translates to. -/
structure TlbEntry where
  ctx : Nat
  core : Nat
  base : Nat
  size : Nat
  tr : Translation
deriving DecidableEq, Repr, Inhabited

/-- What a home slice has still to perform: one unit of a store, or the reductions of one instruction on an element, or on
half of a packed element, in ascending lane order (R213, R223-R225). -/
inductive PendBody where
  | store (cells : List Host.Cell)
  | reduce (pa : Nat) (op : AtomOp) (vs : List Nat)
  | half (pa : Nat) (bf16 : Bool) (vs : List (BitVec 16))
deriving DecidableEq, Repr, Inhabited

/-- A store or reduction that its home has not yet performed or accepted (R181, R213, R225, R234). -/
structure PendStore where
  /-- The agents whose access it is: one, or the lanes of a reduction that share the element (R224). -/
  agents : List Nat
  ctx : Nat
  core : Nat
  seq : Nat
  /-- ORD of the page of this part (R199). -/
  ord : Nat
  body : PendBody
deriving DecidableEq, Repr, Inhabited

/-- A packed reduction accepted and not yet applied to its 2-byte element (R223, R226). -/
structure PendRed where
  pa : Nat
  ctx : Nat
  bf16 : Bool
  val : BitVec 16
deriving DecidableEq, Repr, Inhabited

/-- A dirty sector of the L2: what memory still holds below it, and the context that last wrote the line (R188, R208). -/
structure Dirty where
  sector : Nat
  ctx : Nat
  backing : List Byte
deriving DecidableEq, Repr, Inhabited

/-- An open merge entry: its sector, and the reads that joined it (R203). -/
structure Merge where
  sector : Nat
  joined : Nat := 0
deriving DecidableEq, Repr, Inhabited

/-- An error that has struck a sector or tag and has not been met yet (R208, R386). -/
structure Latent where
  arr : ArrayId
  loc : Nat
  double : Bool
  injected : Bool
deriving DecidableEq, Repr, Inhabited

/-- An error-log entry (R385 Table 4). -/
structure LogEntry where
  seq : DWord
  loc : Nat
  synd : BitVec 16
  ctx : Option Nat
  kind : Nat
deriving DecidableEq, Repr, Inhabited

/-- An array's log, counters and injection register (R385, R386). -/
structure ArrayLog where
  arr : ArrayId
  log : List LogEntry := []
  corr : Word := 0
  drop : Word := 0
  inj : DWord := 0
deriving DecidableEq, Repr, Inhabited

/-! ## Engine operations -/

/-- The transforms of a convoy (R267, R428). -/
inductive Transform where
  | copy | gath | scat | trn | conv | cmpr | dcmp | mcst | a2a
deriving DecidableEq, Repr, Inhabited

/-- A block of 32 elements or a chunk of a convoy whose making has begun: its number, its bytes or its chunk header, and the
unacknowledged requests to peers that carry its scale (R274). -/
structure Staged where
  no : Nat
  bytes : List Byte := []
  waits : List Nat := []
deriving DecidableEq, Repr, Inhabited

/-- A convoy in flight (R265, R266, R273-R278). -/
structure Convoy where
  kind : Transform := .copy
  block : Nat := 0
  pos : Nat := 0
  chan : Nat := 0
  start : Nat := 0
  len : Nat := 0
  src : Manifest := {}
  dst : Manifest := {}
  srcCurve : Option Curve := none
  dstCurve : Option Curve := none
  so : List Nat := []
  dd : List Nat := []
  ext : List Nat := []
  idx : List Word := []
  sub : Nat := 0
  ptn : Bool := false
  wantRec : Bool := false
  obj : ObjRef := .virt 0
  objVa : DWord := 0
  scope : Scope := {}
  /-- Segments of the stream that have been written: (first byte, length). -/
  landed : List (Nat × Nat) := []
  /-- Segments on their way to a peer: the requests that are not acknowledged, first byte, length (R424). -/
  sent : List (List Nat × Nat × Nat) := []
  staged : List Staged := []
  /-- Ranks of cvy.a2a whose objects have had their arrival (R428). -/
  arrivedAt : List Nat := []
  failed : Nat := 0
  first : Nat := 0xFFFFFFFF
deriving DecidableEq, Repr, Inhabited

/-- A cut operation (R337-R339). -/
structure CutOp where
  block : Option Nat := none
  pos : Nat := 0
  graph : Manifest := {}
  out : Manifest := {}
  view : List Byte := []
  obj : ObjRef := .virt 0
  scope : Scope := {}
  walk : Option Nat := none
  /-- Its records are written, but for what peers have not acknowledged; the completion record that follows (R339). -/
  record : Option (List Byte) := none
  /-- 1: the completion record is written; 2: the arrival is made; but for what peers have not acknowledged (R347). -/
  stage : Nat := 0
  /-- COUNT of the completion record, once it is complete. -/
  count : Nat := 0
deriving DecidableEq, Repr, Inhabited

/-- A traversal query of a thread, or the queries of a traversal node one after another (R366-R371). -/
structure TravOp where
  block : Option Nat := none
  pos : Nat := 0
  tree : Manifest := {}
  cuts : Manifest := {}
  graph : Manifest := {}
  fmt : BitVec 256 := 0
  pred : Nat := 0
  cap : Nat := 0
  /-- The captured query and the t: offset of the result region of a thread's query. -/
  query : List Byte := []
  result : Nat := 0
  obj : Option ObjRef := none
  scope : Scope := {}
  /-- A node's walk, query and result edges, the query that runs and the number of queries. -/
  walk : Option Nat := none
  input : Manifest := {}
  output : Manifest := {}
  index : Nat := 0
  count : Nat := 0
  /-- Its results are written, but for what peers have not acknowledged (R345, R424). -/
  written : Bool := false
deriving DecidableEq, Repr, Inhabited

inductive OpBody where
  | convoy (c : Convoy)
  | cut (c : CutOp)
  | trav (t : TravOp)
deriving DecidableEq, Repr, Inhabited

/-- An operation runs, is stopped on a fault under a handle (R383), or is done. -/
inductive OpState where
  | running
  | stopped (code : BitVec 16) (va : DWord) (handle : DWord)
  | done
deriving DecidableEq, Repr, Inhabited

/-- An engine operation; its home core is the issuing core (R247). -/
structure EngineOp where
  ctx : Nat
  core : Nat
  /-- The core that issued it, wherever its block is restored (R181). -/
  issuer : Nat
  /-- Its place in the order of issues (R181). -/
  issued : Nat
  launch : Nat
  state : OpState := .running
  body : OpBody
deriving DecidableEq, Repr, Inhabited

/-- A request to a peer that is not acknowledged yet (R425). -/
structure Remote where
  ctx : Nat
  core : Nat
  pa : Nat
  /-- Its place in the order of issues, and the core's cycle count at its issue. -/
  issued : Nat
  born : Nat
  /-- The thread that waits for an old value. -/
  agent : Option Nat
  /-- The engine operation whose access it is. -/
  op : Option Nat
deriving DecidableEq, Repr, Inhabited

/-! ## Itineraries and raster passes -/

/-- What a walk is doing at its node (R345). -/
inductive WalkState where
  | atNode
  /-- The node's record is read; 0 is on its way to its OCNT on a peer (R344, R424). -/
  | armed
  | launch (id : Nat)
  | cut (op : Nat)
  | trav (op : Nat)
  | raster (pass : Nat)
  | complete
  | ended (status node : Nat)
deriving DecidableEq, Repr, Inhabited

/-- A walk of an itinerary (R342-R345). -/
structure Walk where
  launch : Nat := 0
  ctx : Nat := 0
  itin : DWord := 0
  node : Nat := 0
  nnode : Nat := 0
  /-- Iteration counts of while nodes. -/
  counts : List (Nat × Nat) := []
  state : WalkState := .atNode
  /-- The record of the node that runs, and where the walk goes when it completes. -/
  rec_ : List Byte := []
  next : Nat := 0xFFFF
deriving DecidableEq, Repr, Inhabited

/-- A tile's parameter list: its pages in list order, its entries, its last entry, and entries and body bytes of its last
page (R353). -/
structure TileList where
  tile : Nat := 0
  pages : List Nat := []
  count : Nat := 0
  last : Nat := 0
  inPage : Nat := 0
  used : Nat := 0
deriving DecidableEq, Repr, Inhabited

/-- A render of one tile by its owner core (R355, R356). -/
structure TileRun where
  tile : Nat := 0
  core : Nat := 0
  /-- The number of its assignment, and how many writes of its save are done (R355, R383). -/
  order : Nat := 0
  saveAt : Nat := 0
  isPartial : Bool := false
  /-- The phase that is next: 0 load, 1 raster, 2 fragment, 3 shade, 4 blend, 5 final, 6 save or the end, 7 retired. -/
  phase : Nat := 0
  busy : List Nat := []
  seg : Memory := []
  list : TileList := {}
  /-- Pixels whose winner changed, and layers (pixel, primitive), since the last fragment phase (R359). -/
  changed : List Nat := []
  unshaded : List (Nat × Nat) := []
  stopped : Option (BitVec 16 × DWord × DWord) := none
deriving DecidableEq, Repr, Inhabited

/-- A raster pass (R350-R363). -/
structure Pass where
  walk : Nat := 0
  ctx : Nat := 0
  cuts : Manifest := {}
  graph : Manifest := {}
  descVa : DWord := 0
  desc : List Byte := []
  ncut : Nat := 0
  /-- Next cut record and next triangle of it. -/
  recNo : Nat := 0
  tri : Nat := 0
  /-- Tiles whose lists still await a primitive, with the primitive. -/
  todo : List (Nat × Nat) := []
  binned : Bool := false
  lists : List TileList := []
  /-- Pages of the arena in use (R353, R361). -/
  used : List Nat := []
  runs : List TileRun := []
  /-- Tiles saved by a partial render. -/
  saved : List Nat := []
  /-- Final renders started so far, in curve order. -/
  finals : Nat := 0
  partialsDue : List TileList := []
  /-- The Broker flushes until enough pages are free or selected (R361). -/
  flushing : Bool := false
  ldrop : Word := 0
  badtri : Word := 0
  culled : Word := 0
  flushes : Word := 0
  stopped : Option (BitVec 16 × DWord × DWord) := none
  done : Bool := false
deriving DecidableEq, Repr, Inhabited

/-! ## The hub, the hosts, the management side -/

/-- A dequeued packet that has not retired (R405, R408). -/
structure Packet where
  index : Word
  head : DWord
  args : List DWord
  sig : DWord
  launch : Option Nat := none
  /-- The key and the join mask of the PODJOIN that marked a LAUNCH packet (R426). -/
  join : Option (Word × BitVec 1024) := none
  /-- A KIND 1 launch's walk, or a PREEMPT that waits for its saves. -/
  waits : List Nat := []
  result : Option DWord := none
  /-- It has started, as number `order` of the packets the Dispatcher started. -/
  started : Bool := false
  order : Nat := 0
deriving DecidableEq, Repr, Inhabited

/-- A host queue (R405). -/
structure HostQueue where
  live : Bool := true
  ctx : Nat := 0
  log2 : Nat := 4
  ring : DWord := 0
  rdw : DWord := 0
  port : Nat := 0
  priv : Bool := false
  rd : Word := 0
  wk : Word := 0
  /-- Packets dequeued and not retired, oldest first. -/
  pkts : List Packet := []
  halted : Bool := false
  /-- The mark for the next LAUNCH packet (R426). -/
  podjoin : Option (Word × BitVec 1024) := none
deriving DecidableEq, Repr, Inhabited

/-- A BAR2 window for the other port's host (R409 HOSTWIN). -/
structure Window where
  number : Nat
  base : Nat
  bytes : Nat
deriving DecidableEq, Repr, Inhabited

/-- BAR0 and the Event Arbiter (R387, R402, R404). -/
structure Hub where
  /-- The next sequence number. -/
  seq : DWord := 1
  evbase : DWord := 0
  evsize : Word := 0
  evwr : Word := 0
  evrd : Word := 0
  evlost : Word := 0
  notifydrop : Word := 0
  msixEnabled : Bool := false
  msixRaised : Nat := 0
  windows : List Window := []
  queues : List HostQueue := []
deriving DecidableEq, Repr, Inhabited

/-- A UALink port (R421, R422). -/
inductive LinkState where
  | down | joined | refused
deriving DecidableEq, Repr, Inhabited

/-- The management side, which runs from standby power (R417-R420). -/
structure Mgmt where
  held : Bool := true
  lpddr : Bool := true
  hostsel : Option Nat := none
  control : Nat := 0
  devnum : Nat := 0
  slotA : List Byte := []
  slotB : List Byte := []
  active : Nat := 0
  pendingActive : Option Nat := none
  recovery : Bool := false
  minSvn : Nat := 0
  powerCap : Nat := 1600
  /-- Dies above the warning temperature (R420). -/
  hot : List Nat := []
  thermal : Bool := false
  /-- Reports to the management controller: LPDDR refusal, recovery, refused ports. -/
  reports : List String := []
  pcieUp : List Bool := [false, false]
  ports : List LinkState := List.replicate 16 .down
  readings : Nat := 0
deriving DecidableEq, Repr, Inhabited

/-! ## What moves next, and the whole machine -/

/-- One item of the agenda: which agent issues next, which event comes next, or time passing. -/
inductive Agenda where
  | issue (caravan : Nat)
  | event (i : Instr)
  | tick (cc : Nat)
deriving DecidableEq, Repr

/-- The state of the device. -/
structure State where
  agents : List Agent
  caravans : List Caravan
  blocks : List Block
  launches : List Launch
  contexts : List (Nat × Context)
  cores : List Core
  barriers : List Barrier
  ops : List EngineOp
  walks : List Walk
  passes : List Pass
  mem : Memory
  /-- Carve-out counts of dies 0-3 and the CARVEs in progress: (die, new count, queue, packet) (R191, R206). -/
  carve : List Nat
  carving : List (Nat × Nat × PacketRef)
  tlb : List TlbEntry
  pending : List PendStore
  reds : List PendRed
  remotes : List Remote
  dirty : List Dirty
  latent : List Latent
  logs : List ArrayLog
  merges : List Merge
  /-- Where engines signalled completion in memory, by records and arrivals at objects, and no plain write has followed:
  (PA, bytes) (R236, R247). -/
  signals : List (Nat × Nat)
  /-- Arrivals of joined launches on peers (R427). -/
  peerArrivals : List PeerArrival
  hub : Hub
  mgmt : Mgmt
  /-- What the last host or management read returned. -/
  reply : List Byte
  /-- The caravan that issues. -/
  focus : Option Nat
  /-- What comes next, first item first: the environment and the choices the manual leaves open, as data. -/
  agenda : List Agenda
  /-- The counter at which free values are drawn; numbers of pending operations and records are taken from it too. -/
  nonce : Nat
deriving DecidableEq, Repr

/-- The machine right after power-on: the main side is held in reset, nothing is resident, every field is at the value
INVENTORY.md lists. -/
def State.reset : State where
  agents := []
  caravans := []
  blocks := []
  launches := []
  contexts := []
  cores := List.replicate 64 {}
  barriers := []
  ops := []
  walks := []
  passes := []
  mem := []
  carve := [0, 0, 0, 0]
  carving := []
  tlb := []
  pending := []
  reds := []
  remotes := []
  dirty := []
  latent := []
  logs := []
  merges := []
  signals := []
  peerArrivals := []
  hub := {}
  mgmt := {}
  reply := []
  focus := none
  agenda := []
  nonce := 0

/-- What one step answers. -/
abbrev Out := Host.Outcome State Fault Refusal

end Sys2Proof.Machine
end

