-- ==== Sys2Proof/Machine/Sparse.lean ====
section
/-! DEFINITION. Sparse maps in canonical form (memories, register files), bytes and words, bit fields. -/

namespace Sys2Proof.Machine

/-- What a map holds at `k`: the entry's value, or `d` where nothing is listed. -/
def sparseGet {α : Type} (d : α) : List (Nat × α) → Nat → α
  | [], _ => d
  | (j, v) :: m, k => if j = k then v else sparseGet d m k

/-- Put `v` at `k`, before the first larger key. -/
def sparseInsert {α : Type} : List (Nat × α) → Nat → α → List (Nat × α)
  | [], k, v => [(k, v)]
  | (j, w) :: m, k, v =>
    if k < j then (k, v) :: (j, w) :: m
    else if k = j then (k, v) :: m
    else (j, w) :: sparseInsert m k v

/-- Write `v` at `k`; writing the value an unlisted key reads as removes the entry. -/
def sparseSet {α : Type} [DecidableEq α] (d : α) (m : List (Nat × α)) (k : Nat) (v : α) : List (Nat × α) :=
  if v = d then m.filter (fun e => e.1 ≠ k) else sparseInsert m k v

/-- Canonical form: keys strictly rising, no entry that holds `d`. -/
def sparseWf {α : Type} [DecidableEq α] (d : α) : List (Nat × α) → Bool
  | [] => true
  | (k, v) :: m => v ≠ d && m.all (fun e => k < e.1) && sparseWf d m

/-! ## Bytes -/

/-- The canonical form of storage. -/
def Memory.wf (m : Memory) : Bool := sparseWf 0 m

/-- One byte; what nothing has written reads zero. -/
def readByte (m : Memory) (a : Nat) : Byte := sparseGet 0 m a

def writeByte (m : Memory) (a : Nat) (b : Byte) : Memory := sparseSet 0 m a b

/-- `n` bytes from address `a` up. -/
def readBytes (m : Memory) (a n : Nat) : List Byte := (List.range n).map fun i => readByte m (a + i)

/-- Write the bytes of a list from address `a` up. -/
def writeBytes (m : Memory) (a : Nat) : List Byte → Memory
  | [] => m
  | b :: bs => writeBytes (writeByte m a b) (a + 1) bs

/-- Make every byte of a range zero. -/
def clearBytes (m : Memory) (a n : Nat) : Memory := m.filter fun c => decide (c.1 < a) || decide (a + n ≤ c.1)

/-- Write `f 0, f 1, … f (n - 1)` from address `a` up, at once. -/
def fillBytes (m : Memory) (a n : Nat) (f : Nat → Byte) : Memory :=
  m.filter (fun c => decide (c.1 < a)) ++
    ((List.range n).filterMap fun i => if f i = 0 then none else some (a + i, f i)) ++
    m.filter fun c => decide (a + n ≤ c.1)

/-- Write a list of cells in order. -/
def writeCells (m : Memory) (cs : List Host.Cell) : Memory := cs.foldl (fun m c => writeByte m c.1 c.2) m

/-- The little-endian value of bytes (R5). -/
def leNat : List Byte → Nat
  | [] => 0
  | b :: bs => b.toNat + 256 * leNat bs

/-- The `n` bytes of a value, least significant first (R5). -/
def leBytes : Nat → Nat → List Byte
  | 0, _ => []
  | n + 1, v => BitVec.ofNat 8 v :: leBytes n (v / 256)

/-- An `n`-byte little-endian read as a number. -/
def readNat (m : Memory) (a n : Nat) : Nat := leNat (readBytes m a n)

/-! ## Fields of numbers -/

/-- Bits lo + n - 1 .. lo of a number. -/
def bitsAt (v lo n : Nat) : Nat := v / 2 ^ lo % 2 ^ n

/-- Bit `i`. -/
def bitAt (v i : Nat) : Bool := v / 2 ^ i % 2 = 1

/-- The two's complement reading of the low `w` bits. -/
def toSigned (w v : Nat) : Int :=
  let u := v % 2 ^ w
  if 2 * u < 2 ^ w then (u : Int) else (u : Int) - (2 ^ w : Nat)

/-- WRAP(w, x): the low `w` bits of an exact value (R39). -/
def wrapTo (w : Nat) (x : Int) : Nat := (x % ((2 ^ w : Nat) : Int)).toNat

/-- Element `i` of width `w`: bits (i+1)w-1 .. iw (R18). -/
def elemAt (w i v : Nat) : Nat := v / 2 ^ (w * i) % 2 ^ w

/-- Elements of width `w`, element 0 first, packed into one number. -/
def packElems (w : Nat) : List Nat → Nat
  | [] => 0
  | e :: es => e % 2 ^ w + 2 ^ w * packElems w es

/-- All ones of width `w`. -/
def onesOf (w : Nat) : Nat := 2 ^ w - 1

/-! ## Lists as tables -/

/-- Change entry `i` of a table. -/
def updAt {α : Type} (l : List α) (i : Nat) (f : α → α) : List α := l.modify i f

/-- The value a key has in an association list. -/
def assocGet {α : Type} : List (Nat × α) → Nat → Option α
  | [], _ => none
  | (j, v) :: m, k => if j = k then some v else assocGet m k

/-- Change the value of a key that is present. -/
def assocUpd {α : Type} (m : List (Nat × α)) (k : Nat) (f : α → α) : List (Nat × α) :=
  m.map fun e => if e.1 = k then (k, f e.2) else e

end Sys2Proof.Machine
end

