-- ==== Sys2Proof/Machine/Flags.lean ====
section
/-! DEFINITION. The sticky floating-point flags of FPSTAT (R24, R43). -/

namespace Sys2Proof.Machine

/-- Flags an operation raises, in the bit positions of FPSTAT (R24). -/
abbrev Flags := BitVec 5

def flagInvalid : Flags := 0b00001#5
def flagDivZero : Flags := 0b00010#5
def flagOverflow : Flags := 0b00100#5
def flagUnderflow : Flags := 0b01000#5
def flagInexact : Flags := 0b10000#5

/-- A flag under a condition. -/
def flagIf (c : Bool) (f : Flags) : Flags := if c then f else 0

/-- Inexact is not set when Invalid is set by the same operation (R43). -/
def settleFlags (f : Flags) : Flags := if f &&& flagInvalid = 0 then f else f &&& ~~~flagInexact

/-- FPSTAT after an operation raises flags: once set, only a write clears them (R24). -/
def accumFlags (fpstat f : Flags) : Flags := fpstat ||| f

end Sys2Proof.Machine
end

