-- ==== Sys2Proof/Machine/Float.lean ====
section
/-! DEFINITION. Number formats and exact arithmetic (R38-R57): values, decoding, ROUND, TOINT, sums, products,
quotients and roots, all on integers. -/

namespace Sys2Proof.Machine

/-- How a format treats its top codes (R40, R50, R53). -/
inductive FmtKind where
  /-- Top exponent: infinities and NaNs (FP64, FP32, FP16, BF16, E5M2). -/
  | ieee
  /-- NaN at S.1111.111 alone, no infinity. -/
  | e4m3
  /-- Every code finite (E3M2, E2M3, E2M1). -/
  | finite
  /-- Two's complement with quantum 2^-6. -/
  | mxint8
deriving DecidableEq, Repr

/-- A floating-point or microscaling element format (R40 Table 2, R50 Table 3). -/
structure FpFmt where
  /-- Bits of a code. -/
  width : Nat
  /-- Fraction bits F. -/
  frac : Nat
  bias : Nat
  kind : FmtKind
deriving DecidableEq, Repr

def fp64 : FpFmt := ⟨64, 52, 1023, .ieee⟩
def fp32 : FpFmt := ⟨32, 23, 127, .ieee⟩
def fp16 : FpFmt := ⟨16, 10, 15, .ieee⟩
def bf16 : FpFmt := ⟨16, 7, 127, .ieee⟩
def e5m2 : FpFmt := ⟨8, 2, 15, .ieee⟩
def e4m3 : FpFmt := ⟨8, 3, 7, .e4m3⟩
def e3m2 : FpFmt := ⟨6, 2, 3, .finite⟩
def e2m3 : FpFmt := ⟨6, 3, 1, .finite⟩
def e2m1 : FpFmt := ⟨4, 1, 1, .finite⟩
def mxi8 : FpFmt := ⟨8, 6, 0, .mxint8⟩

/-- The format of a microscaling type. -/
def mxFormat : MxFmt → FpFmt
  | .e4m3 => e4m3
  | .e5m2 => e5m2
  | .e3m2 => e3m2
  | .e2m3 => e2m3
  | .e2m1 => e2m1
  | .mxi8 => mxi8

/-- The value of a code, or an exact result. `fin` is ±m·2^e; m = 0 is a signed zero. -/
inductive FVal where
  | nan (signalling : Bool)
  | inf (neg : Bool)
  | fin (neg : Bool) (m : Nat) (e : Int)
deriving DecidableEq, Repr, Inhabited

/-- Codes of magnitude at or above this one are infinities or NaNs (formats that have them). -/
def FpFmt.infCode (f : FpFmt) : Nat := 2 ^ (f.width - 1) - 2 ^ f.frac

/-- The magnitude code of the largest finite value (R40, R50). -/
def FpFmt.maxCode (f : FpFmt) : Nat :=
  match f.kind with
  | .ieee => f.infCode - 1
  | .e4m3 => 2 ^ (f.width - 1) - 2
  | .finite => 2 ^ (f.width - 1) - 1
  | .mxint8 => 127

/-- log2 of QMIN(f) (R46). -/
def FpFmt.qmin (f : FpFmt) : Int := if f.kind = .mxint8 then -6 else 1 - (f.bias : Int) - f.frac

/-- P(f), the fraction width plus one (R46). -/
def FpFmt.prec (f : FpFmt) : Nat := f.frac + 1

/-- The canonical NaN of a format that has one, else +0 (R42, R46). -/
def FpFmt.nanCode (f : FpFmt) : Nat :=
  match f.kind with
  | .ieee => f.infCode + 2 ^ (f.frac - 1)
  | .e4m3 => 0x7F
  | _ => 0

def FpFmt.hasNan (f : FpFmt) : Bool := f.kind = .ieee || f.kind = .e4m3
def FpFmt.hasInf (f : FpFmt) : Bool := f.kind = .ieee

/-- The code of a magnitude with a sign. -/
def FpFmt.signed (f : FpFmt) (neg : Bool) (mag : Nat) : Nat :=
  if f.kind = .mxint8 then (if neg then (256 - mag) % 256 else mag)
  else if neg then 2 ^ (f.width - 1) + mag else mag

/-- The value of a code (R40, R50, R54: bits above the code are ignored). -/
def decodeFp (f : FpFmt) (code : Nat) : FVal :=
  let c := code % 2 ^ f.width
  if f.kind = .mxint8 then
    let v := toSigned 8 c
    .fin (v < 0) v.natAbs (-6)
  else
    let neg := c ≥ 2 ^ (f.width - 1)
    let mag := c % 2 ^ (f.width - 1)
    if f.kind = .ieee ∧ mag ≥ f.infCode then
      if mag = f.infCode then .inf neg
      else .nan (f.width > 8 && decide (mag % 2 ^ f.frac < 2 ^ (f.frac - 1)))
    else if f.kind = .e4m3 ∧ mag = 0x7F then .nan false
    else
      let ex := mag / 2 ^ f.frac
      let fr := mag % 2 ^ f.frac
      if ex = 0 then .fin neg fr f.qmin else .fin neg (2 ^ f.frac + fr) (f.qmin + (ex - 1 : Nat))

/-- The value of an E8M0 code (R53). -/
def decodeE8m0 (code : Nat) : FVal :=
  if code % 256 = 255 then .nan false else .fin false 1 ((code % 256 : Nat) - (127 : Int))

/-! ## Rounding -/

/-- m / 2^sh rounded to an integer in mode `rm`; the second part says whether bits were lost (R44). -/
def roundShift (rm : Rounding) (neg : Bool) (m sh : Nat) : Nat × Bool :=
  let q := m / 2 ^ sh
  let r := m % 2 ^ sh
  let up := match rm with
    | .rn => decide (2 * r > 2 ^ sh) || (decide (2 * r = 2 ^ sh) && decide (q % 2 = 1))
    | .rz => false
    | .rd => neg && decide (r ≠ 0)
    | .ru => !neg && decide (r ≠ 0)
  (if up then q + 1 else q, decide (r ≠ 0))

/-- ±m·2^e rounded to the quantum 2^qe: the multiple of the quantum, and whether it is inexact. -/
def quantise (rm : Rounding) (neg : Bool) (m : Nat) (e qe : Int) : Nat × Bool :=
  if e ≥ qe then (m * 2 ^ (e - qe).toNat, false) else roundShift rm neg m (qe - e).toNat

/-- Exponent of the leading bit of m·2^e, m > 0. -/
def leadExp (m : Nat) (e : Int) : Int := e + Nat.log2 m

/-- The quantum exponent of a value in a format: P(f) significant bits, never below QMIN(f) (R46). -/
def FpFmt.quantum (f : FpFmt) (m : Nat) (e : Int) : Int :=
  if f.kind = .mxint8 then -6 else max (leadExp m e - f.frac) f.qmin

/-- The magnitude code of n·2^qe, where the quantum is one `quantum` gives; codes beyond MAX(f) come out too large. -/
def FpFmt.magCode (f : FpFmt) (n : Nat) (qe : Int) : Nat :=
  if f.kind = .mxint8 then n else (qe - f.qmin).toNat * 2 ^ f.frac + n

/-- The value, rounded with unbounded exponent range, is below the smallest normal magnitude; for MXINT8, the exact
value is below 2^-6 (R43). -/
def FpFmt.tiny (f : FpFmt) (rm : Rounding) (neg : Bool) (m : Nat) (e : Int) : Bool :=
  if f.kind = .mxint8 then leadExp m e < -6
  else
    let qe := leadExp m e - f.frac
    let q := (quantise rm neg m e qe).1
    leadExp q qe < f.qmin + f.frac

/-- ROUND(f, m, x, sat) and the flags of the rounding (R43, R46). -/
def roundFp (f : FpFmt) (rm : Rounding) (x : FVal) (sat : Bool) : Nat × Flags :=
  match x with
  | .nan _ => (f.nanCode, 0)
  | .inf neg =>
    if f.hasInf && !sat then (f.signed neg f.infCode, 0) else (f.signed neg f.maxCode, flagInexact)
  | .fin neg m e =>
    if m = 0 then (f.signed neg 0, 0)
    else
      let qe := f.quantum m e
      let q := quantise rm neg m e qe
      let code := f.magCode q.1 qe
      if code > f.maxCode then
        let toInf := f.hasInf && !sat && (rm = .rn || (rm = .ru && !neg) || (rm = .rd && neg))
        (f.signed neg (if toInf then f.infCode else f.maxCode), flagOverflow ||| flagInexact)
      else
        (f.signed neg code, flagIf q.2 flagInexact ||| flagIf (q.2 && f.tiny rm neg m e) flagUnderflow)

/-- RNEF(f, x, sat) without flags (R47). -/
def rnef (f : FpFmt) (x : FVal) (sat : Bool) : Nat := (roundFp f .rn x sat).1
def rne32 (x : FVal) : Nat := rnef fp32 x false
def rne16 (x : FVal) : Nat := rnef fp16 x false
def rneBf16 (x : FVal) : Nat := rnef bf16 x false

/-- The value of an integer. -/
def fvalOfInt (i : Int) : FVal := .fin (i < 0) i.natAbs 0

/-- SATS and SATN (R39). -/
def satS (w : Nat) (x : Int) : Int := max (-(2 ^ (w - 1) : Nat)) (min x ((2 ^ (w - 1) : Nat) - 1))
def satN (w : Nat) (x : Int) : Int := max 0 (min x ((2 ^ w : Nat) - 1))

/-- x rounded to an integer in mode `rm`, and whether it changed. -/
def roundInt (rm : Rounding) (neg : Bool) (m : Nat) (e : Int) : Int × Bool :=
  let q := quantise rm neg m e 0
  (if neg then -(q.1 : Int) else q.1, q.2)

/-- TOINT(w, signed, m, x) (R49). -/
def toInt (w : Nat) (signed : Bool) (rm : Rounding) (x : FVal) : Int × Flags :=
  let lo : Int := if signed then -(2 ^ (w - 1) : Nat) else 0
  let hi : Int := if signed then (2 ^ (w - 1) : Nat) - 1 else (2 ^ w : Nat) - 1
  match x with
  | .nan _ => (0, flagInvalid)
  | .inf neg => (if neg then lo else hi, flagInvalid)
  | .fin neg m e =>
    let r := roundInt rm neg m e
    if r.1 < lo then (lo, flagInvalid) else if r.1 > hi then (hi, flagInvalid)
    else (r.1, flagIf r.2 flagInexact)

/-! ## Exact arithmetic -/

namespace FVal

def isNan : FVal → Bool
  | nan _ => true
  | _ => false

def isSnan : FVal → Bool
  | nan s => s
  | _ => false

def isInf : FVal → Bool
  | inf _ => true
  | _ => false

def isZero : FVal → Bool
  | fin _ m _ => m = 0
  | _ => false

def sign : FVal → Bool
  | nan _ => false
  | inf n => n
  | fin n _ _ => n

def neg : FVal → FVal
  | nan s => nan s
  | inf n => inf (!n)
  | fin n m e => fin (!n) m e

/-- EXACT(a × b); infinity times zero is NaN (R45). -/
def mul : FVal → FVal → FVal
  | nan _, _ => nan false
  | _, nan _ => nan false
  | inf a, inf b => inf (a != b)
  | inf a, fin b m _ => if m = 0 then nan false else inf (a != b)
  | fin a m _, inf b => if m = 0 then nan false else inf (a != b)
  | fin a m e, fin b n f => fin (a != b) (m * n) (e + f)

/-- The signed multiple of 2^e0 that a finite value is, e0 at or below its exponent. -/
def scaled (e0 : Int) : FVal → Int
  | fin n m e => let v : Int := (m * 2 ^ (e - e0).toNat : Nat); if n then -v else v
  | _ => 0

/-- EXACT of a sum; the sign of an exact zero is that of R45 under mode `rm`. -/
def sum (rm : Rounding) (xs : List FVal) : FVal :=
  if xs.any isNan then nan false
  else
    let pinf := xs.any fun x => x.isInf && !x.sign
    let ninf := xs.any fun x => x.isInf && x.sign
    if pinf && ninf then nan false
    else if pinf then inf false
    else if ninf then inf true
    else
      let e0 := xs.foldl (fun a x => match x with | fin _ m e => if m = 0 then a else min a e | _ => a) (0 : Int)
      let t := xs.foldl (fun a x => a + scaled e0 x) (0 : Int)
      if t = 0 then
        let neg := if xs.all (fun x => x.isZero && x.sign) then true
          else if xs.all (fun x => x.isZero && !x.sign) then false
          else rm = .rd
        fin neg 0 0
      else fin (t < 0) t.natAbs e0

/-- EXACT(a / b), the quotient carried to more than 64 bits with the rest folded into its last bit (R45, R62). -/
def div : FVal → FVal → FVal
  | nan _, _ => nan false
  | _, nan _ => nan false
  | inf _, inf _ => nan false
  | inf a, fin b _ _ => inf (a != b)
  | fin a _ _, inf b => fin (a != b) 0 0
  | fin a m e, fin b n f =>
    if n = 0 then (if m = 0 then nan false else inf (a != b))
    else if m = 0 then fin (a != b) 0 0
    else
      let k := 68 + Nat.log2 n
      let q := m * 2 ^ k / n
      let r := m * 2 ^ k % n
      fin (a != b) (2 * q + (if r = 0 then 0 else 1)) (e - f - k - 1)

end FVal

/-- Integer square root, bit by bit from bit `n` down. -/
def isqrtFrom : Nat → Nat → Nat → Nat
  | 0, x, r => if (r + 1) * (r + 1) ≤ x then r + 1 else r
  | n + 1, x, r =>
    let t := r + 2 ^ (n + 1)
    isqrtFrom n x (if t * t ≤ x then t else r)

/-- floor of the square root. -/
def isqrt (x : Nat) : Nat := isqrtFrom (Nat.log2 x / 2 + 1) x 0

/-- The exact square root of a positive finite value, carried as `FVal.div` carries a quotient. -/
def sqrtPos (m : Nat) (e : Int) : FVal :=
  let k : Nat := 140 + (if (e - 140) % 2 = 0 then 0 else 1)
  let x := m * 2 ^ k
  let r := isqrt x
  .fin false (2 * r + (if r * r = x then 0 else 1)) ((e - k) / 2 - 1)

/-- The exact reciprocal square root of a positive finite value, carried likewise. -/
def rsqrtPos (m : Nat) (e : Int) : FVal :=
  let m' := if e % 2 = 0 then m else 2 * m
  let e' := if e % 2 = 0 then e else e - 1
  let k := 70 + Nat.log2 m'
  let r := isqrt (2 ^ (2 * k) / m')
  .fin false (2 * r + (if r * r * m' = 2 ^ (2 * k) then 0 else 1)) (-(e' / 2) - k - 1)

/-- Order of two finite or infinite values: -1, 0 or 1; zeros are equal whatever their signs. -/
def compareFp (a b : FVal) : Int :=
  match a, b with
  | .inf x, .inf y => if x = y then 0 else if x then -1 else 1
  | .inf x, _ => if x then -1 else 1
  | _, .inf y => if y then 1 else -1
  | _, _ =>
    let e0 := match a, b with
      | .fin _ _ e, .fin _ _ f => min e f
      | _, _ => 0
    let x := a.scaled e0
    let y := b.scaled e0
    if x < y then -1 else if x = y then 0 else 1

/-! ## Microscaling blocks -/

/-- MXVAL(s, e) (R56). -/
def mxval (s : Nat) (e : FVal) : FVal :=
  if s % 256 = 255 then .nan false
  else match e with
  | .nan _ => .nan false
  | .inf n => .inf n
  | .fin n m x => .fin n m (x + ((s % 256 : Nat) - 127 : Int))

/-- MXDOT: one A block times one B block, an FP32 code (R57). -/
def mxdot (sa : Nat) (a : List FVal) (sb : Nat) (b : List FVal) (sat : Bool) : Nat :=
  if sa % 256 = 255 || sb % 256 = 255 then fp32.nanCode
  else
    let ps := List.zipWith FVal.mul a b
    match FVal.sum .rn ps with
    | .nan _ => fp32.nanCode
    | .inf n => fp32.signed n fp32.infCode
    | s =>
      match decodeFp fp32 (rne32 s) with
      | .fin n m e =>
        if m = 0 then 0
        else
          let k : Int := ((sa % 256 : Nat) - 127 : Int) + ((sb % 256 : Nat) - 127 : Int)
          rnef fp32 (.fin n m (e + k)) sat
      | x => rnef fp32 x sat

/-! ## Sums and minima of elements (R120, R121) -/

/-- Round a value form's exact result. Invalid: a signalling NaN input, or a NaN that no NaN input explains (R42, R43). -/
def fpRound (f : FpFmt) (rm : Rounding) (ins : List FVal) (x : FVal) : Nat × Flags :=
  let r := roundFp f rm x false
  let inv := ins.any FVal.isSnan || (x.isNan && !ins.any FVal.isNan)
  (r.1, r.2 ||| flagIf inv flagInvalid)

def elAdd (f : FpFmt) (rm : Rounding) (a b _c : Nat) : Nat × Flags :=
  let x := decodeFp f a
  let y := decodeFp f b
  fpRound f rm [x, y] (FVal.sum rm [x, y])

/-- min and max return an operand's bits, a number whenever one operand is a number (R121). -/
def elMinMax (f : FpFmt) (isMax : Bool) (a b _c : Nat) : Nat × Flags :=
  let x := decodeFp f a
  let y := decodeFp f b
  let r :=
    if x.isNan && y.isNan then f.nanCode
    else if x.isNan then b
    else if y.isNan then a
    else
      let o := compareFp x y
      if isMax then (if o > 0 || (o = 0 && !x.sign) then a else b)
      else (if o < 0 || (o = 0 && x.sign) then a else b)
  (r, flagIf (x.isSnan || y.isSnan) flagInvalid)

end Sys2Proof.Machine
end

