-- ==== Sys2Proof/Machine/AtomOps.lean ====
section
/-! DEFINITION. The operations of memory-side atomics on one element (R221-R223, R226). -/

namespace Sys2Proof

def AddTy.bytes : AddTy → Nat
  | .n64 => 8
  | .f64 => 8
  | _ => 4

def MinTy.bytes : MinTy → Nat
  | .s64 => 8
  | .n64 => 8
  | _ => 4

def BitTy.bytes : BitTy → Nat
  | .b32 => 4
  | .b64 => 8

def WideTy.bytes : WideTy → Nat
  | .b32 => 4
  | .b64 => 8
  | .b128 => 16

/-- Bytes of the element an operation acts on (R221 Table 3). -/
def AtomOp.bytes : AtomOp → Nat
  | .add ty => ty.bytes
  | .min ty => ty.bytes
  | .max ty => ty.bytes
  | .and ty => ty.bytes
  | .or ty => ty.bytes
  | .xor ty => ty.bytes
  | .exch ty => ty.bytes
  | .cas ty _ => ty.bytes

open Machine in
/-- x′ of an addition (R221 Table 3); no flag is kept. -/
def AddTy.apply (ty : AddTy) (x v : Nat) : Nat :=
  let half (f : FpFmt) (i : Nat) := (elAdd f .rn (elemAt 16 i x) (elemAt 16 i v) 0).1
  match ty with
  | .n32 => (x + v) % 2 ^ 32
  | .n64 => (x + v) % 2 ^ 64
  | .f32 => (elAdd fp32 .rn x v 0).1
  | .f64 => (elAdd fp64 .rn x v 0).1
  | .f16x2 => packElems 16 [half fp16 0, half fp16 1]
  | .bf16x2 => packElems 16 [half bf16 0, half bf16 1]

open Machine in
/-- x′ of a minimum or a maximum. -/
def MinTy.apply (ty : MinTy) (isMax : Bool) (x v : Nat) : Nat :=
  let pick (le : Bool) : Nat := if le != isMax then x else v
  match ty with
  | .s32 => pick (decide (toSigned 32 x ≤ toSigned 32 v))
  | .n32 => pick (decide (x ≤ v))
  | .s64 => pick (decide (toSigned 64 x ≤ toSigned 64 v))
  | .n64 => pick (decide (x ≤ v))
  | .f32 => (elMinMax fp32 isMax x v 0).1

/-- The new value of an element that holds `x`, with operand `v`; a cas compares with `v` (R221, R222). -/
def AtomOp.apply (op : AtomOp) (x v : Nat) : Nat :=
  match op with
  | .add ty => ty.apply x v
  | .min ty => ty.apply false x v
  | .max ty => ty.apply true x v
  | .and _ => x &&& v
  | .or _ => x ||| v
  | .xor _ => x ^^^ v
  | .exch _ => v
  | .cas _ new => if x = v then new.toNat else x

/-- The element is written: always, but for a cas that does not match (R222). -/
def AtomOp.writes (op : AtomOp) (x v : Nat) : Bool :=
  match op with
  | .cas _ _ => x = v
  | _ => true

/-- A packed addition, whose halves may wait in the write queue (R226). -/
def AtomOp.packed : AtomOp → Option Bool
  | .add .f16x2 => some false
  | .add .bf16x2 => some true
  | _ => none

end Sys2Proof
end

