-- ==== Sys2Proof/Machine/Hub.lean ====
section
/-! DEFINITION. Tables of the state by number, placement of threads, the physical address map, the Event Arbiter and
its ring. -/

namespace Sys2Proof.Machine

/-! ## Entries of the state's tables -/

def State.agent (s : State) (i : Nat) : Agent := s.agents.getD i {}
def State.caravan (s : State) (i : Nat) : Caravan := s.caravans.getD i { place := .dissolved }
def State.block (s : State) (i : Nat) : Block := s.blocks.getD i { state := .retired }
def State.launch (s : State) (i : Nat) : Launch := s.launches.getD i {}
def State.core (s : State) (i : Nat) : Core := s.cores.getD i {}
def State.ctx (s : State) (i : Nat) : Context := (assocGet s.contexts i).getD { live := false }

def State.updAgent (s : State) (i : Nat) (f : Agent → Agent) : State := { s with agents := updAt s.agents i f }
def State.updCaravan (s : State) (i : Nat) (f : Caravan → Caravan) : State := { s with caravans := updAt s.caravans i f }
def State.updBlock (s : State) (i : Nat) (f : Block → Block) : State := { s with blocks := updAt s.blocks i f }
def State.updLaunch (s : State) (i : Nat) (f : Launch → Launch) : State := { s with launches := updAt s.launches i f }
def State.updCore (s : State) (i : Nat) (f : Core → Core) : State := { s with cores := updAt s.cores i f }
def State.updCtx (s : State) (i : Nat) (f : Context → Context) : State := { s with contexts := assocUpd s.contexts i f }
def State.updOp (s : State) (i : Nat) (f : EngineOp → EngineOp) : State := { s with ops := updAt s.ops i f }

/-- Share `p` of a block (R141). -/
def Block.share (b : Block) (p : Nat) : Share := b.shares.getD p {}

def State.updShare (s : State) (b p : Nat) (f : Share → Share) : State :=
  s.updBlock b fun k => { k with shares := updAt k.shares p f }

/-- The core an agent is on (R138, R139). -/
def State.coreOf (s : State) (a : Agent) : Nat := ((s.block a.block).share a.pos).core

/-- A number never drawn before, for what the manual leaves unnamed. -/
def State.draw (s : State) : Nat × State := (s.nonce, { s with nonce := s.nonce + 1 })

/-! ## Placement of threads (R139 Table 1) -/

def posOfThread (t : Nat) : Nat := t / 1536
def laneOfThread (t : Nat) : Nat := t % 1536 % 32
def rankOfThread (t : Nat) : Nat := t % 1536 / 32
def Agent.lane (a : Agent) : Nat := laneOfThread a.tidx
def dieOfCore (c : Nat) : Nat := c / 16
def quartetOfCore (c : Nat) : Nat := c / 4 % 4

/-- Cores of a block of n threads: ⌈n / 1,536⌉ (R139). -/
def coresFor (n : Nat) : Nat := (n + 1535) / 1536

/-- Threads of a block of n threads at position p. -/
def threadsAt (n p : Nat) : Nat := min 1536 (n - 1536 * p)

/-- The numbers of the agents that satisfy `p`. -/
def State.agentsWhere (s : State) (p : Agent → Bool) : List Nat := (s.agents.zipIdx.filter fun x => p x.1).map (·.2)

/-- The agents of a block, threads and drovers alike, by number. -/
def State.agentsOf (s : State) (b : Nat) : List Nat := s.agentsWhere fun a => a.block = b

/-- The threads of a block. -/
def State.threadsOf (s : State) (b : Nat) : List Nat := s.agentsWhere fun a => a.block = b && !a.drover

/-! ## The physical address map (R189 Table 2) -/

/-- Populated bytes of one die's HBM4 window. -/
def hbmBytes : Nat := 34332 * 0x200000
def hbmWindow : Nat := 0x2000000000
def lpddrBase : Nat := 0x10000000000
def scratchBase : Nat := 0xC000000000
def scratchWindow : Nat := 0x100000000
def scratchUnit : Nat := 0x400000
def peerBase : Nat := 0x8000000000000
def peerWindow : Nat := 0x20000000000

/-- The kinds of local storage a PA names. -/
inductive Region where
  | hbm (die : Nat)
  | lpddr
  | scratch (die unit : Nat)
  | peer (device : Nat)
  | hole
deriving DecidableEq, Repr

/-- A peer-window PA of this device is the local PA (R189). -/
def State.localPa (s : State) (pa : Nat) : Nat :=
  if pa ≥ peerBase ∧ (pa - peerBase) / peerWindow = s.mgmt.devnum then (pa - peerBase) % peerWindow else pa

/-- What lies at a PA; an aperture offset is populated while it is below W × 4 MiB (R191). -/
def State.region (s : State) (pa0 : Nat) : Region :=
  let pa := s.localPa pa0
  if pa < 0x8000000000 then
    let d := pa / hbmWindow
    if pa % hbmWindow < hbmBytes then .hbm d else .hole
  else if scratchBase ≤ pa ∧ pa < scratchBase + 4 * scratchWindow then
    let d := (pa - scratchBase) / scratchWindow
    let u := (pa - scratchBase) % scratchWindow / scratchUnit
    if u < s.carve.getD d 0 then .scratch d u else .hole
  else if lpddrBase ≤ pa ∧ pa < 2 * lpddrBase then .lpddr
  else if peerBase ≤ pa ∧ pa < 2 * peerBase then .peer ((pa - peerBase) / peerWindow)
  else .hole

def Region.isMain : Region → Bool
  | .hbm _ => true
  | .lpddr => true
  | _ => false

def Region.isScratch : Region → Bool
  | .scratch _ _ => true
  | _ => false

/-- The home slice of a local PA, numbered die × 16 + slice (R189-R191). -/
def homeSlice (pa : Nat) : Nat :=
  if scratchBase ≤ pa ∧ pa < scratchBase + 4 * scratchWindow then
    (pa - scratchBase) / scratchWindow * 16 + (pa - scratchBase) % scratchUnit / 256 % 16
  else
    let sl := bitsAt pa 8 4 ^^^ bitsAt pa 14 4 ^^^ bitsAt pa 20 4 ^^^ bitsAt pa 26 4
    let die := if pa < lpddrBase then bitsAt pa 37 2 else bitsAt pa 12 2
    die * 16 + sl

/-- Where a line's tag stands, as a set in bits 9..0 and a way in bits 19..16: by R191 in the scratchpad; the placement of
cached lines is internal. -/
def tagPlace (line : Nat) : Nat :=
  if scratchBase ≤ line ∧ line < scratchBase + 4 * scratchWindow then
    let o := (line - scratchBase) % scratchWindow
    o % scratchUnit / 4096 + (15 - o / scratchUnit) * 2 ^ 16
  else Config.tagPlace line

/-! ## Storage below errors -/

/-- The first address of the 32-byte sectors that the bytes pa .. pa + n - 1 touch. -/
def sectorsOf (pa n : Nat) : List Nat :=
  if n = 0 then [] else (List.range ((pa + n - 1) / 32 - pa / 32 + 1)).map fun i => (pa / 32 + i) * 32

/-- A latent error makes the sector at `sec` read as zeros: it is the only copy, or memory itself failed (R208). -/
def State.sectorLost (s : State) (sec : Nat) : Bool :=
  s.latent.any fun l => l.double && l.loc = sec &&
    match l.arr with
    | .memory _ => !s.dirty.any (fun d => d.sector = sec)
    | .l2data _ => s.dirty.any (fun d => d.sector = sec) || (s.region sec).isScratch
    | _ => false

/-- A byte of storage by PA. -/
def State.peek (s : State) (pa0 : Nat) : Byte :=
  let pa := s.localPa pa0
  if s.latent ≠ [] && s.sectorLost (pa / 32 * 32) then 0 else readByte s.mem pa

def State.peekBytes (s : State) (pa n : Nat) : List Byte := (List.range n).map fun i => s.peek (pa + i)
def State.peekNat (s : State) (pa n : Nat) : Nat := leNat (s.peekBytes pa n)

/-- Sectors of main memory become dirty in the L2 when they are written; what memory holds below stays, and the whole line
has a new last writer (R188, R208). -/
def State.markDirty (s : State) (ctx pa n : Nat) : State :=
  { s with dirty := (sectorsOf pa n).foldl (fun ds sec =>
      let line (ds : List Dirty) := ds.map fun d => if d.sector / 256 = sec / 256 then { d with ctx := ctx } else d
      if (s.region sec).isMain then
        if ds.any (fun d => d.sector = sec) then line ds
        else ⟨sec, ctx, readBytes s.mem sec 32⟩ :: line ds
      else ds) s.dirty }

/-- An access that a slice orders after them closes the merge entries of its sectors (R204). -/
def State.closeMerges (s : State) (pa n : Nat) : State :=
  { s with merges := s.merges.filter fun e => !(sectorsOf pa n).contains e.sector }

/-- A write of bytes by PA, on behalf of a context; a completion signal that it overwrites is one no more. -/
def State.poke (s : State) (ctx pa0 : Nat) (bs : List Byte) : State :=
  let pa := s.localPa pa0
  let s' := (s.markDirty ctx pa bs.length).closeMerges pa bs.length
  { s' with
    mem := writeBytes s'.mem pa bs
    signals := s'.signals.filter fun r => decide (r.1 + r.2 ≤ pa) || decide (pa + bs.length ≤ r.1) }

/-! ## Error logs and injection (R385, R386) -/

def State.arrayLog (s : State) (a : ArrayId) : ArrayLog := (s.logs.find? fun l => l.arr = a).getD { arr := a }

def State.updLog (s : State) (a : ArrayId) (f : ArrayLog → ArrayLog) : State :=
  if s.logs.any (fun l => l.arr = a) then { s with logs := s.logs.map fun l => if l.arr = a then f l else l }
  else { s with logs := s.logs ++ [f { arr := a }] }

/-- An armed injection fires on the write of its target (R386). -/
def State.fireInjection (s : State) (a : ArrayId) (target loc : Nat) : State :=
  let l := s.arrayLog a
  if l.inj.toNat.testBit 63 && bitsAt l.inj.toNat 0 44 = target then
    { s.updLog a (fun l => { l with inj := l.inj &&& ~~~(1#64 <<< 63) }) with
      latent := s.latent ++ [⟨a, loc, l.inj.toNat.testBit 62, true⟩] }
  else s

/-- A write by PA: each sector that it covers whole gets a fresh code, and it fires injections on its sectors' data and on
the tags of its lines (R208, R386). -/
def State.put (s : State) (ctx pa : Nat) (bs : List Byte) : State :=
  let p := s.localPa pa
  let whole (x : Nat) : Bool := decide (p ≤ x) && decide (x + 32 ≤ p + bs.length)
  let s0 := s.poke ctx pa bs
  let s1 := { s0 with latent := s0.latent.filter fun l => match l.arr with | .l2data _ => !whole l.loc | _ => true }
  if s1.logs.isEmpty then s1
  else
    (sectorsOf p bs.length).foldl (fun t sec =>
      let k := tagPlace (sec / 256 * 256)
      (t.fireInjection (.l2data (homeSlice sec)) (sec / 32) sec).fireInjection (.l2tag (homeSlice sec)) k k) s1

/-! ## The Event Arbiter and its ring (R387, R404) -/

/-- Take the next sequence number. -/
def State.takeSeq (s : State) : DWord × State := (s.hub.seq, { s with hub := { s.hub with seq := s.hub.seq + 1 } })

/-- Saturating increment of a counter. -/
def satInc {w : Nat} (v : BitVec w) : BitVec w := if v = BitVec.allOnes w then v else v + 1

/-- The 32-byte event record. -/
def eventRecord (seq : DWord) (kind ctx core : Nat) (d0 d1 : DWord) : List Byte :=
  leBytes 8 seq.toNat ++ leBytes 2 kind ++ leBytes 2 ctx ++ leBytes 2 core ++ leBytes 2 0 ++ leBytes 8 d0.toNat ++ leBytes 8 d1.toNat

/-- Post an event under a sequence number already taken: the record is written, then EVWR advances; a full ring or one
not set up counts it in EVLOST (R404). -/
def State.postEventAt (s : State) (seq : DWord) (kind ctx core : Nat) (d0 d1 : DWord) : State :=
  let h := s.hub
  if h.evsize = 0 ∨ h.evwr - h.evrd = h.evsize then { s with hub := { h with evlost := satInc h.evlost } }
  else
    let s' := s.put 0xFFFF (h.evbase.toNat + 32 * (h.evwr.toNat % h.evsize.toNat)) (eventRecord seq kind ctx core d0 d1)
    { s' with hub := { h with evwr := h.evwr + 1, msixRaised := if h.msixEnabled then h.msixRaised + 1 else h.msixRaised } }

/-- Post an event with the next number, which comes back. -/
def State.postEvent (s : State) (kind ctx core : Nat) (d0 d1 : DWord) : DWord × State :=
  let (q, s') := s.takeSeq
  (q, s'.postEventAt q kind ctx core d0 d1)

def evEngineFault : Nat := 1
def evContextStop : Nat := 2
def evDataDrop : Nat := 3
def evPreemptDone : Nat := 4
def evRestoreDone : Nat := 5
def evLaunchRefused : Nat := 6
def evSignal : Nat := 7
def evQueueError : Nat := 8
def evThermal : Nat := 9

end Sys2Proof.Machine
end

