-- ==== Sys2Proof/Machine/Storage.lean ====
section
/-! DEFINITION. Storage with its errors (R184-R186, R208, R384-R386): what an access meets, physical reads and writes,
what a home slice does, tile shares and spill stacks. -/

namespace Sys2Proof.Machine

/-! ## Error logs (R385) -/

/-- A ring of 16 entries, oldest first. -/
def pushLog (l : List LogEntry) (e : LogEntry) : List LogEntry := (l ++ [e]).drop ((l.length + 1) - 16)

/-- The location of an error in the form of WHERE (R385 Table 4). -/
def whereOf (loc : Nat) : Nat := loc

/-- An error corrected in place: counted, and logged unless its sector is in the last 16 entries. -/
def State.logCorrected (s : State) (a : ArrayId) (loc : Nat) (ctx : Option Nat) (injected : Bool) : State :=
  let s1 := s.updLog a fun l => { l with corr := satInc l.corr }
  if (s1.arrayLog a).log.any (fun e => e.loc = loc) then s1
  else
    let (q, s2) := s1.takeSeq
    s2.updLog a fun l => { l with log := pushLog l.log ⟨q, loc, Config.syndrome q.toNat, ctx, if injected then 2 else 0⟩ }

/-- A sector dropped: DROP and the context's DROPCNT rise, a log entry and a DATA_DROP event carry one number. -/
def State.logDropped (s : State) (a : ArrayId) (loc : Nat) (ctx : Option Nat) (injected : Bool) : State :=
  let (q, s1) := s.takeSeq
  let synd := Config.syndrome q.toNat
  let s2 := s1.updLog a fun l => { l with
    drop := satInc l.drop
    log := pushLog l.log ⟨q, loc, synd, ctx, if injected then 3 else 1⟩ }
  let s3 := match ctx with
    | some c => s2.updCtx c fun k => { k with dropcnt := satInc k.dropcnt }
    | none => s2
  s3.postEventAt q evDataDrop (ctx.getD 0xFFFF) 0xFFFF (BitVec.ofNat 64 (whereOf loc)) (synd.setWidth 64)

/-- What an access that reaches `loc` of an array meets: `drops` is the number of sectors of which the array holds the only
copy, `lose` what dropping does to them (R208); each is counted, logged and posted (R384, R385). -/
def State.meetErrors (s : State) (a : ArrayId) (loc : Nat) (ctx : Option Nat) (drops : Nat) (lose : State → State) : State :=
  let hits := s.latent.filter fun l => l.arr = a && l.loc = loc
  if hits.isEmpty then s
  else
    let s0 := { s with latent := s.latent.filter fun l => !(l.arr = a && l.loc = loc) }
    let s1 := hits.foldl (fun t l =>
      if !l.double then t.logCorrected a loc ctx l.injected
      else (List.range drops).foldl (fun u _ => u.logDropped a loc ctx l.injected) t) s0
    if drops > 0 && hits.any (fun l => l.double) then lose s1 else s1

/-! ## Physical reads and writes -/

/-- The memory controller of a main-memory PA: HBM stack 2d + PA[12], then one a die for LPDDR (R189). -/
def memController (pa : Nat) : Nat := if pa < lpddrBase then 2 * (pa / hbmWindow) + bitsAt pa 12 1 else 8 + bitsAt pa 12 2

def State.isDirty (s : State) (sec : Nat) : Bool := s.dirty.any fun d => d.sector = sec

/-- Clear the bytes of a sector. -/
def State.zeroSector (s : State) (sec : Nat) : State := { s with mem := writeBytes s.mem sec (List.replicate 32 0) }

/-- The dirty sectors of a 256-byte line. -/
def State.dirtyOf (s : State) (line : Nat) : List Dirty := s.dirty.filter fun d => d.sector / 256 * 256 = line

/-- The dirty sectors of a line fall back to what memory held. -/
def State.loseLine (s : State) (line : Nat) : State :=
  { s with
    mem := (s.dirtyOf line).foldl (fun m d => writeBytes m d.sector d.backing) s.mem
    dirty := s.dirty.filter fun d => d.sector / 256 * 256 ≠ line }

/-- Errors met by an access to a line: those of its L2 tag. -/
def State.meetTag (s : State) (ctx : Option Nat) (sec : Nat) : State :=
  let line := sec / 256 * 256
  s.meetErrors (.l2tag (homeSlice sec)) (tagPlace line) ctx (s.dirtyOf line).length fun t => t.loseLine line

/-- Errors met by an access to one sector: its L2 tag, its L2 data, and memory below a clean line. -/
def State.meetSector (s : State) (ctx : Option Nat) (sec : Nat) : State :=
  let slice := homeSlice sec
  let scr := (s.region sec).isScratch
  let s1 := s.meetTag ctx sec
  let s2 := s1.meetErrors (.l2data slice) sec ctx (if s1.isDirty sec || scr then 1 else 0) fun t => t.zeroSector sec
  if s2.isDirty sec then s2
  else s2.meetErrors (.memory (memController sec)) sec ctx 1 fun t => t.zeroSector sec

/-- The context a write is charged to: 0xFFFF stands for none. -/
def chargedTo (ctx : Nat) : Option Nat := if ctx = 0xFFFF then none else some ctx

/-- What a write of pa .. pa + n - 1 meets (R208): the errors of each sector that it covers in part, and of each line's tag. -/
def State.meetWrite (s : State) (ctx pa n : Nat) : State :=
  if s.latent.isEmpty then s
  else
    (sectorsOf pa n).foldl (fun t sec =>
      if !(t.region sec).isMain && !(t.region sec).isScratch then t
      else if pa ≤ sec ∧ sec + 32 ≤ pa + n then t.meetTag (chargedTo ctx) sec
      else t.meetSector (chargedTo ctx) sec) s

/-- The injections that a fill of pa .. pa + n - 1 in the scratchpad fires. -/
def State.fireFill (s : State) (pa n : Nat) : State :=
  s.logs.foldl (fun t l =>
    let target := bitsAt l.inj.toNat 0 44
    match l.arr with
    | .l2data slice =>
      if homeSlice (32 * target) = slice ∧ pa ≤ 32 * target ∧ 32 * target < pa + n then t.fireInjection l.arr target (32 * target) else t
    | .l2tag slice =>
      let line := scratchBase + slice / 16 * scratchWindow + (15 - bitsAt target 16 4) * scratchUnit +
        target % 1024 * 4096 + slice % 16 * 256
      if tagPlace line = target ∧ pa ≤ line ∧ line < pa + n then t.fireInjection l.arr target target else t
    | _ => t) s

/-- The bytes pa .. pa + n - 1 of the scratchpad become zero, with fresh codes; nothing accepted for them lands later. -/
def State.zeroFill (s : State) (pa n : Nat) : State :=
  let out (x : Nat) : Bool := decide (x < pa) || decide (pa + n ≤ x)
  { s with
    mem := clearBytes s.mem pa n
    reds := s.reds.filter fun r => out r.pa
    signals := s.signals.filter fun r => out r.1
    latent := s.latent.filter fun l => match l.arr with | .l2data _ => out l.loc | _ => true }.fireFill pa n

/-! ## Pending packed reductions (R226) -/

/-- A run of 16-bit values added to an element: accumulated in FP32, rounded once into the element. -/
def applyRun (isBf : Bool) (x : Nat) (vs : List Nat) : Nat :=
  let f := if isBf then bf16 else fp16
  match vs with
  | [] => x
  | v :: rest =>
    let acc := rest.foldl (fun a w => decodeFp fp32 (rne32 (FVal.sum .rn [a, decodeFp f w]))) (decodeFp f v)
    (roundFp f .rn (FVal.sum .rn [decodeFp f x, acc]) false).1

/-- Apply the first `count` pending reductions of the element at `pa` as one run. -/
def State.applyReds (s : State) (pa count : Nat) : State :=
  let mine := (s.reds.filter fun r => r.pa = pa).take count
  match mine with
  | [] => s
  | r :: _ =>
    let rest := (s.reds.filter fun r => r.pa = pa).drop count ++ s.reds.filter fun r => r.pa ≠ pa
    let s1 := { s with reds := rest }.meetWrite (mine.getLastD r).ctx pa 2
    s1.put (mine.getLastD r).ctx pa (leBytes 2 (applyRun r.bf16 (s1.peekNat pa 2) (mine.map fun r => r.val.toNat)))

/-- Another access to the bytes pa .. pa + n - 1 sees every reduction accepted before it applied (R225). -/
def State.settleReds (s : State) (pa n : Nat) : State :=
  if s.reds.isEmpty then s
  else
    let hit := (s.reds.filter fun r => r.pa + 1 ≥ pa && r.pa < pa + n).map (·.pa)
    hit.eraseDups.foldl (fun t e => t.applyReds e (t.reds.filter fun r => r.pa = e).length) s

/-- What an access to the bytes pa .. pa + n - 1 meets: pending reductions, then errors (none are latent in almost every
state). -/
def State.meetPa (s0 : State) (ctx : Option Nat) (pa0 n : Nat) : State :=
  let pa := s0.localPa pa0
  let s := s0.settleReds pa n
  if s.latent.isEmpty then s
  else
    (sectorsOf pa n).foldl (fun t sec =>
      if (t.region sec).isMain || (t.region sec).isScratch then t.meetSector ctx sec else t) s

/-- An engine's read of a sector at its slice (R203): what the L2 holds is a hit; else it joins the open entry, or opens one.
Whether the L2 holds a clean sector is internal. -/
def State.openMerge (s : State) (sec : Nat) : State :=
  if !(s.region sec).isMain || s.isDirty sec then s
  else
    { s with
      nonce := s.nonce + 1
      merges :=
        if s.merges.any (fun e => e.sector = sec) then s.merges.map fun e => if e.sector = sec then { e with joined := e.joined + 1 } else e
        else if Config.choice s.nonce % 2 = 0 then s.merges
        else s.merges ++ [⟨sec, 0⟩] }

def State.openMerges (s : State) (pa n : Nat) : State := (sectorsOf (s.localPa pa) n).foldl State.openMerge s

/-- A write by PA, after the reductions accepted before it; it meets the errors of what it does not cover whole. -/
def State.writePa (s : State) (ctx pa : Nat) (bs : List Byte) : State :=
  ((s.settleReds (s.localPa pa) bs.length).meetWrite ctx (s.localPa pa) bs.length).put ctx pa bs

/-- The write of an atomic read-modify-write: a completion signal there goes on in its chain (R236). -/
def State.writeRmw (s : State) (ctx pa : Nat) (bs : List Byte) : State := { s.writePa ctx pa bs with signals := s.signals }

/-! ## What a home slice does (R220-R226) -/

/-- One atomic step on the element at a local PA: its old value. It closes a merge entry though it writes nothing (R204). -/
def State.atomAt (s : State) (ctx pa : Nat) (op : AtomOp) (v : Nat) : State × Nat :=
  let n := op.bytes
  let s1 := (s.meetPa (some ctx) pa n).closeMerges (s.localPa pa) n
  let x := s1.peekNat pa n
  (if op.writes x v then s1.writeRmw ctx pa (leBytes n (op.apply x v)) else s1, x)

/-- One half of a packed addition as an atomic step of its own: the half's old value (R221, R223). -/
def State.halfAt (s : State) (ctx pa : Nat) (isBf : Bool) (v : BitVec 16) : State × Nat :=
  let s1 := s.meetPa (some ctx) pa 2
  let x := s1.peekNat pa 2
  (s1.writeRmw ctx pa (leBytes 2 (applyRun isBf x [v.toNat])), x)

/-- Accept a half of a packed reduction: a differing reduction pending on the element is applied first (R225, R226). -/
def State.acceptHalf (s : State) (ctx pa : Nat) (isBf : Bool) (v : BitVec 16) : State :=
  let s1 := if s.reds.any fun r => r.pa = pa && r.bf16 != isBf then s.settleReds pa 2 else s
  { s1.closeMerges pa 2 with reds := s1.reds ++ [⟨pa, ctx, isBf, v⟩] }

/-- Half of a packed reduction at its home: accepted into the write queue, or a run of its own on an SO page (R226). -/
def State.halfRed (s : State) (ctx pa : Nat) (so isBf : Bool) (v : BitVec 16) : State :=
  if so then (s.halfAt ctx pa isBf v).1 else s.acceptHalf ctx pa isBf v

/-- The home slice performs a store's unit, or accepts a reduction (R213, R225). -/
def State.perform (s : State) (p : PendStore) : State :=
  match p.body with
  | .store cells => cells.foldl (fun t c => t.writePa p.ctx c.1 [c.2]) s
  | .reduce pa op vs => vs.foldl (fun t v => (t.atomAt p.ctx pa op v).1) s
  | .half pa isBf vs => vs.foldl (fun t v => t.halfRed p.ctx (s.localPa pa) (p.ord = 1) isBf v) s

/-- Perform the pending accesses that satisfy `f`, in their order. -/
def State.performWhere (s : State) (f : PendStore → Bool) : State :=
  (s.pending.filter f).foldl State.perform { s with pending := s.pending.filter fun p => !f p }

/-- The bytes a pending access covers. -/
def PendBody.bytes : PendBody → List Nat
  | .store cells => cells.map (·.1)
  | .reduce pa op _ => (List.range op.bytes).map (pa + ·)
  | .half pa _ _ => [pa, pa + 1]

/-! ## Tile memory (R184-R186) -/

/-- Granules of a share or of the spill stacks of a block on one core (R186). -/
def shareGranules (tileSize : Nat) : Nat := (tileSize + 4095) / 4096
def spillGranules (threads spillSize : Nat) : Nat := ((threads + 31) / 32 * 32 * spillSize + 4095) / 4096
def granulesOf (l : Launch) (p : Nat) : Nat := shareGranules l.tileSize + spillGranules (threadsAt l.bsize p) l.spillSize

/-- Blocks that hold tile memory on a core, in order, with their positions. -/
def State.onCore (s : State) (c : Nat) : List (Nat × Nat) :=
  (List.range s.blocks.length).flatMap fun b =>
    let k := s.block b
    if k.state ≠ .saved && k.state ≠ .retired then
      (List.range k.shares.length).filterMap fun p => if (k.share p).core = c then some (b, p) else none
    else []

/-- Granules of a block's own share on one core; a phase's share is its tile's segment (R351). -/
def State.ownGranules (s : State) (b p : Nat) : Nat :=
  let k := s.block b
  match (k.share p).home with
  | .own => shareGranules (s.launch k.launch).tileSize
  | .segment _ _ => 0

def State.blockGranules (s : State) (b p : Nat) : Nat :=
  let k := s.block b
  s.ownGranules b p + spillGranules (threadsAt k.size p) (s.launch k.launch).spillSize

/-- Internal byte address of a block's tile memory: blocks lie one after another in order (internal; enters errors only). -/
def State.blockAddr (s : State) (b p : Nat) : Nat :=
  let before := (s.onCore ((s.block b).share p).core).takeWhile fun x => x ≠ (b, p)
  4096 * (before.foldl (fun n x => n + s.blockGranules x.1 x.2) 0)

/-- Granules of a tile segment of a pass (R351). -/
def Pass.segGranules (q : Pass) : Nat := shareGranules (leNat ((q.desc.drop 0x94).take 4))

/-- Internal byte address of the segment of run `r` of pass `ps`: segments lie from the top of a core's tile memory down. -/
def State.segmentAddr (s : State) (ps r : Nat) : Nat :=
  let core := ((s.passes.getD ps {}).runs.getD r {}).core
  let here := s.passes.zipIdx.flatMap fun q => q.1.runs.zipIdx.filterMap fun t =>
    if t.1.core = core && decide (t.1.phase < 7) && (decide (q.2 < ps) || (q.2 = ps && decide (t.2 ≤ r))) then some q.1.segGranules else none
  4096 * (Config.granulesPerCore - here.foldl (· + ·) 0)

/-- Internal byte address of a share. -/
def State.shareAddr (s : State) (b p : Nat) : Nat :=
  match ((s.block b).share p).home with
  | .own => s.blockAddr b p
  | .segment ps r => s.segmentAddr ps r

/-- Internal byte address of byte `o` of a thread's stack (R185). -/
def State.spillAddr (s : State) (ai o : Nat) : Nat :=
  let a := s.agent ai
  let l := s.launch a.launch
  s.blockAddr a.block a.pos + 4096 * s.ownGranules a.block a.pos
    + rankOfThread a.tidx * 32 * l.spillSize + o / 16 * 512 + a.lane * 16 + o % 16

/-- The bytes a t: offset names: the share, or the tile segment of a raster pass. -/
def State.shareMem (s : State) (b p : Nat) : Memory :=
  let sh := (s.block b).share p
  match sh.home with
  | .own => sh.tile
  | .segment ps r => ((s.passes.getD ps {}).runs.getD r {}).seg

def State.updShareMem (s : State) (b p : Nat) (f : Memory → Memory) : State :=
  match ((s.block b).share p).home with
  | .own => s.updShare b p fun sh => { sh with tile := f sh.tile }
  | .segment ps r =>
    { s with passes := updAt s.passes ps fun q => { q with runs := updAt q.runs r fun t => { t with seg := f t.seg } } }

/-- Errors met by an access to bytes off .. off + n - 1 from `base` of a core's tile memory; `lose` zeroes the sector at an
offset. -/
def State.meetTileAt (s : State) (ctx : Option Nat) (core base off n : Nat) (lose : State → Nat → State) : State :=
  (sectorsOf off n).foldl (fun t o => t.meetErrors (.tile core) (base + o) ctx 1 fun u => lose u o) s

/-- The injections that a write of those bytes fires. -/
def State.fireTile (s : State) (core base off n : Nat) : State :=
  if s.logs.isEmpty then s
  else (sectorsOf off n).foldl (fun t o => t.fireInjection (.tile core) ((base + o) / 32) (base + o)) s

/-- `n` bytes from `base` of a core's tile memory are all written: fresh codes, and the injections that this fires. -/
def State.fillTile (s : State) (core base n : Nat) : State :=
  let inside (x : Nat) : Bool := decide (base ≤ x) && decide (x < base + n)
  let s1 := { s with latent := s.latent.filter fun l => !(l.arr = ArrayId.tile core && inside l.loc) }
  s1.logs.foldl (fun t l =>
    let target := bitsAt l.inj.toNat 0 44
    if l.arr = ArrayId.tile core ∧ inside (32 * target) then t.fireInjection l.arr target (32 * target) else t) s1

/-- Errors met by an access to bytes of a share. -/
def State.meetTile (s : State) (ctx : Option Nat) (b p off n : Nat) : State :=
  if s.latent.isEmpty then s
  else s.meetTileAt ctx ((s.block b).share p).core (s.shareAddr b p) off n fun u o =>
    u.updShareMem b p fun m => writeBytes m o (List.replicate 32 0)

/-- What a write of bytes of a share meets: the errors of a sector that it covers in part; a whole one gets a fresh code. -/
def State.meetTileWrite (s : State) (b p off n : Nat) : State :=
  if s.latent.isEmpty then s
  else
    let base := s.shareAddr b p
    let c := ((s.block b).share p).core
    (sectorsOf off n).foldl (fun t o =>
      if off ≤ o ∧ o + 32 ≤ off + n then { t with latent := t.latent.filter fun l => !(l.arr = ArrayId.tile c && l.loc = base + o) }
      else t.meetTile (some (s.block b).ctx) b p o 32) s

/-- Write bytes of a share, with the injections it fires. -/
def State.writeTile (s0 : State) (b p off : Nat) (bs : List Byte) : State :=
  let s := s0.meetTileWrite b p off bs.length
  (s.updShareMem b p fun m => writeBytes m off bs).fireTile ((s.block b).share p).core (s.shareAddr b p) off bs.length

def State.readTile (s : State) (b p off n : Nat) : List Byte := readBytes (s.shareMem b p) off n

/-- What an agent's read of bytes of its share gives, errors included. -/
def State.tileNow (s : State) (a : Agent) (off n : Nat) : List Byte :=
  (s.meetTile (some a.ctx) a.block a.pos off n).readTile a.block a.pos off n

/-- Errors met by an access to bytes of a stack; a sector holds 16 bytes of each of two lanes (R185). -/
def State.meetSpill (s : State) (ctx : Option Nat) (ai off n : Nat) : State :=
  if s.latent.isEmpty then s
  else
    let a := s.agent ai
    let c := s.coreOf a
    let o0 := off / 16
    (List.range ((off + n + 15) / 16 - o0)).foldl (fun t i =>
      let o := (o0 + i) * 16
      let loc := t.spillAddr ai o / 32 * 32
      t.meetErrors (.tile c) loc ctx 1 fun u =>
        (u.threadsOf a.block).foldl (fun v j =>
          let b := v.agent j
          if b.pos = a.pos ∧ rankOfThread b.tidx = rankOfThread a.tidx ∧ b.lane / 2 = a.lane / 2 then
            v.updAgent j fun x => { x with spill := writeBytes x.spill o (List.replicate 16 0) }
          else v) u) s

/-- Write bytes of a thread's stack, with the injections it fires. -/
def State.writeSpill (s0 : State) (ai off : Nat) (bs : List Byte) : State :=
  let s := s0.meetSpill (some (s0.agent ai).ctx) ai off bs.length
  let s1 := s.updAgent ai fun a => { a with spill := writeBytes a.spill off bs }
  if s1.logs.isEmpty then s1
  else
    let c := s.coreOf (s.agent ai)
    let loc := s.spillAddr ai off / 32 * 32
    s1.fireInjection (.tile c) (loc / 32) loc

end Sys2Proof.Machine
end

