-- ==== Sys2Proof/Machine/Ops.lean ====
section
/-! DEFINITION. The named operations of the machine: registers and latches, code and headers, entry checks, arrival at a
header, quads and reconvergence records, taking a trap and returning from one, ending a thread, leaving a block. -/

namespace Sys2Proof.Machine

/-! ## Faults (R377 Table 1) -/

inductive FaultCode where
  | illegalInstruction | illegalOperand | branchTarget | codeBound | tileBound | farAccess | translation | permission
  | alignment | staleScope | scopeMembership | staleManifest | compressedAccess | queueMisuse | matrixOperand
  | convoyOperand | traversalFormat | softwareTrap | breakpoint
deriving DecidableEq, Repr, Inhabited

def FaultCode.code : FaultCode → BitVec 16
  | .illegalInstruction => 0x0001
  | .illegalOperand => 0x0002
  | .branchTarget => 0x0003
  | .codeBound => 0x0004
  | .tileBound => 0x0005
  | .farAccess => 0x0006
  | .translation => 0x0007
  | .permission => 0x0008
  | .alignment => 0x0009
  | .staleScope => 0x000A
  | .scopeMembership => 0x000B
  | .staleManifest => 0x000C
  | .compressedAccess => 0x000D
  | .queueMisuse => 0x000E
  | .matrixOperand => 0x000F
  | .convoyOperand => 0x0010
  | .traversalFormat => 0x0011
  | .softwareTrap => 0x0012
  | .breakpoint => 0x0013

/-- A fault an instruction raises, with its TF_INFO and TF_ADDR (R379 Table 3). -/
structure Trap where
  code : FaultCode
  info : Word := 0
  addr : DWord := 0
deriving DecidableEq, Repr, Inhabited

/-- SOFTWARE_TRAP and BREAKPOINT resume after the instruction (R118, R379). -/
def FaultCode.resumesAfter : FaultCode → Bool
  | .softwareTrap => true
  | .breakpoint => true
  | _ => false

/-! ## Registers and latches -/

def emptyLatches : List (Option Latch) := [none, none, none, none]

/-- A read of register gk finds its last written value: it is live, or this block entry wrote it, or the device kept it
(R33); in trap mode every register is live (R380). -/
def Agent.keeps (a : Agent) (k : Nat) : Bool :=
  a.trapMode || decide (k < a.live) || a.wrote.contains k || Config.deadKept a.entered a.tidx a.issued k

/-- Register gk (R16, R33). -/
def Agent.greg (a : Agent) (k : Nat) : Word := if a.keeps k then sparseGet 0 a.regs k else 0

def Agent.setReg (a : Agent) (k : Nat) (v : Word) : Agent :=
  { a with
    regs := sparseSet 0 a.regs k v
    wrote := if a.trapMode || decide (k < a.live) || a.wrote.contains k then a.wrote else k :: a.wrote }

/-- A pair or a drover register: words k and k + 1, low word first (R17). -/
def Agent.pair (a : Agent) (k : Nat) : DWord := a.greg (k + 1) ++ a.greg k
def Agent.setPair (a : Agent) (k : Nat) (v : DWord) : Agent :=
  (a.setReg k (v.setWidth 32)).setReg (k + 1) ((v >>> 32).setWidth 32)

/-- A quad: words k to k + 3 (R17). -/
def Agent.quad (a : Agent) (k : Nat) : QWord := a.greg (k + 3) ++ a.greg (k + 2) ++ a.greg (k + 1) ++ a.greg k
def Agent.setQuad (a : Agent) (k : Nat) (v : QWord) : Agent :=
  (a.setPair k (v.setWidth 64)).setPair (k + 2) ((v >>> 64).setWidth 64)

/-- The latch shift: b3 := b2, b2 := b1, b1 := b0, b0 := result (R20). -/
def Agent.shiftLatch (a : Agent) (l : Latch) : Agent := { a with latches := some l :: a.latches.take 3 }

/-- Latch bk. -/
def Agent.latch (a : Agent) (k : Nat) : Option Latch := a.latches.getD k none

/-- Registers an agent may name: N of its launch, or the drover's 64 (R16, R75, R293). -/
def State.regCount (s : State) (a : Agent) : Nat := if a.drover then 64 else (s.launch a.launch).regs

/-! ## Code (R26-R31) -/

/-- Bytes of the code arena of a context; fetches are not translated (R26). -/
def State.codeNat (s : State) (ctx : Nat) (off n : Nat) : Nat := s.peekNat ((s.ctx ctx).codeBase + off) n

/-- The fields of a block header (R28 Table 4). -/
structure Header where
  drv : Bool
  qlock : Bool
  recon : Int
  live : Nat
  len : Nat
  marked : Bool
deriving DecidableEq, Repr

def headerOf (w : Nat) : Header where
  drv := bitAt w 63
  qlock := bitAt w 62
  recon := toSigned 16 (bitsAt w 32 16)
  live := bitsAt w 22 10
  len := bitsAt w 12 10
  marked := bitsAt w 0 12 = 0xFFF

def State.headerAt (s : State) (ctx : Nat) (h : Word) : Header := headerOf (s.codeNat ctx h.toNat 8)

/-- The first offset after a block's parcels (R27). -/
def blockEnd (h : Word) (len : Nat) : Word := h + 8 + BitVec.ofNat 32 (4 * len)

/-- Where a block falls through to: h + 8 + 4·LEN rounded up to a multiple of 8 (R31). -/
def fallHeader (h : Word) (len : Nat) : Word := h + 8 + BitVec.ofNat 32 (8 * ((len + 1) / 2))

/-- The checks of entering a block at offset h, in order (R29, then the padding parcel of R30). -/
def State.entryFault (s : State) (a : Agent) (h : Word) : Option FaultCode :=
  let limit := (s.ctx a.ctx).codeLimit
  if h.toNat ≥ limit then some .codeBound
  else if h.toNat % 8 ≠ 0 then some .branchTarget
  else
    let hd := s.headerAt a.ctx h
    if !hd.marked then some .branchTarget
    else if hd.drv != a.drover then some .branchTarget
    else if hd.len = 0 ∨ hd.live > s.regCount a then some .illegalInstruction
    else if h.toNat + 8 + 8 * ((hd.len + 1) / 2) > limit then some .codeBound
    else if hd.len % 2 = 1 ∧ s.codeNat a.ctx (h.toNat + 8 + 4 * hd.len) 4 ≠ 0 then some .illegalInstruction
    else none

/-- A header that names quad-locked code (R154); QLOCK has no effect in a DRV block (R294). -/
def State.qlockAt (s : State) (ctx : Nat) (h : Word) : Bool :=
  let hd := s.headerAt ctx h
  h.toNat < (s.ctx ctx).codeLimit && h.toNat % 8 = 0 && hd.marked && hd.qlock && !hd.drv

/-! ## Caravans -/

def State.addCaravan (s : State) (c : Caravan) : State := { s with caravans := s.caravans ++ [c] }

/-- A caravan of agents that stand at `pc` inside or at the start of block `hdr` (R143, R381). -/
def State.caravanFor (s : State) (b core : Nat) (hdr pc : Word) (ms : List Member) (vacant : List Nat) (place : Place) : State :=
  let hd := s.headerAt (s.block b).ctx hdr
  let now := (s.core core).cycle.toNat
  let n := s.caravans.length
  let s1 := s.addCaravan {
    block := b, core := core, hdr := hdr, pc := pc, len := hd.len, qlock := hd.qlock && !hd.drv,
    recon := if hd.recon = 0 then none else some (hdr + BitVec.ofInt 32 (8 * hd.recon))
    members := ms, vacant := vacant, place := place, formed := now, since := now }
  { s1 with agents := ms.foldl (fun as m =>
      updAt as m.agent fun a =>
        let b := if pc = hdr + 8 && !a.trapMode then
            { a with live := if a.drover then 2 * hd.live else hd.live, wrote := [], entered := n }
          else a
        { b with hdr := if m.want then hdr else a.hdr, stand := if a.stand = .discarded then .discarded else .caravan n }) s1.agents }

/-! ## Reconvergence records (R146, R155) -/

/-- The quad of a thread (R154). -/
def Agent.quadNo (a : Agent) : Nat := a.tidx / 4

def State.threadsOfQuad (s : State) (b q : Nat) : List Nat := s.agentsWhere fun a => a.block = b && !a.drover && a.quadNo = q

/-- The quad PC: the lowest QLOCK header among the targets of its non-discarded threads (R155). -/
def State.quadPc (s : State) (b q : Nat) : Option Word :=
  let ts := (s.threadsOfQuad b q).filterMap fun i =>
    let a := s.agent i
    if a.stand = .locked && s.qlockAt a.ctx a.pc then some a.pc else none
  ts.foldl (fun m t => match m with | none => some t | some u => some (if t.toNat < u.toNat then t else u)) none

/-- A thread has arrived at the header `pc` and executes nothing: in the waystation, waiting for its quad to lock, or in a
locked quad between blocks. -/
def Agent.standsAt (a : Agent) (h : Word) : Bool :=
  a.pc = h && (a.stand = .header || a.stand = .quad || a.stand = .locked)

/-- A member of a record is held at its target, or a thread of it has exited. -/
def State.recordHas (s : State) (b : Nat) (r : Record) (m : Nat) : Bool :=
  if r.quads then s.quadPc b m = some r.target
  else (s.agent m).stand = .exited || (s.agent m).standsAt r.target

/-- Close the records of a share whose every member is held or gone. -/
def State.closeRecords (s : State) (b p : Nat) : State :=
  s.updShare b p fun sh => { sh with records := sh.records.filter fun r => !r.members.all (s.recordHas b r) }

/-- A quad leaves every record of its position: it unlocked, or all its threads have discarded (R155). -/
def State.leaveRecords (s : State) (b p q : Nat) : State :=
  s.updShare b p fun sh => { sh with records := sh.records.map fun r =>
    if r.quads then { r with members := r.members.filter (· ≠ q) } else r }

/-- A thread is held at its header by an open record (R146). -/
def State.isHeld (s : State) (i : Nat) : Bool :=
  let a := s.agent i
  ((s.block a.block).share a.pos).records.any fun r => !r.quads && r.target = a.pc && r.members.contains i

def State.quadHeld (s : State) (b p q : Nat) (pc : Word) : Bool :=
  ((s.block b).share p).records.any fun r => r.quads && r.target = pc && r.members.contains q

/-! ## Ending a thread, and quad locks (R108, R154-R157) -/

/-- Perform every pending access of an agent: its end (R36, R108), and a completion point (R234). -/
def State.flushStores (s : State) (i : Nat) : State := s.performWhere fun p => p.agents.contains i

/-- Perform some of an agent's pending accesses; with one SO access, its SO accesses in their order (R235). -/
def State.performOwn (s : State) (i : Nat) (f : PendStore → Bool) : State :=
  let so := s.pending.any fun p => p.agents.contains i && f p && p.ord = 1
  s.performWhere fun p => p.agents.contains i && (f p || (so && p.ord = 1))

/-- A release: the agent's pending SO and RC accesses whose bytes satisfy `inS` are performed (R234). -/
def State.releaseWhere (s : State) (i : Nat) (inS : Nat → Bool) : State :=
  s.performOwn i fun p => p.ord ≠ 2 && p.body.bytes.any inS

/-- A release at a fixed scope: every location of this device lies in it (R241). -/
def State.release0 (s : State) (i : Nat) : State := s.releaseWhere i fun _ => true

/-- A completion point of an agent that is an acquire too: every earlier access is performed, and its advance-load table is
empty (R218, R234). -/
def State.completionPoint (s : State) (i : Nat) : State := (s.flushStores i).updAgent i fun a => { a with adv := [] }

/-- An acquire empties the advance-load table (R218). -/
def State.emptyAdv (s : State) (i : Nat) : State := s.updAgent i fun a => { a with adv := [] }

/-- Lock a quad once every existing thread of it waits at a QLOCK header or has exited. -/
def State.tryLock (s : State) (b q : Nat) : State :=
  let ts := s.threadsOfQuad b q
  let all := ts.all fun i => (s.agent i).stand = .quad || (s.agent i).stand = .exited || (s.agent i).stand = .discarded
  if all && ts.any (fun i => (s.agent i).stand = .quad) then
    { s.updBlock b (fun k => { k with quads := q :: k.quads }) with
      agents := (s.updBlock b (fun k => { k with quads := q :: k.quads })).agents.map fun a =>
        if a.block = b && !a.drover && a.quadNo = q && a.stand = .quad then { a with stand := .locked } else a }
  else s

/-- The end of an agent: every earlier store is performed and it issues nothing more (R108); its quad then locks if the
other threads only waited for it (R154). -/
def State.endAgent (s : State) (i : Nat) : State :=
  let a := s.agent i
  let s1 := (s.flushStores i).updAgent i fun a =>
    { a with stand := .exited, latches := emptyLatches, adv := [], spill := [], wait := .ready, trapMode := false }
  if a.drover then s1 else (s1.tryLock a.block a.quadNo).closeRecords a.block a.pos

/-- After a block of a locked quad: it stays locked while a thread targets a QLOCK header; else it unlocks, its discarded
threads end and the others wait at their own targets (R155, R157). -/
def State.settleQuad (s : State) (b p q : Nat) : State :=
  if (s.quadPc b q).isSome then s.closeRecords b p
  else
    let ts := s.threadsOfQuad b q
    if ts.any (fun i => match (s.agent i).stand with | .quadTrap _ _ | .caravan _ | .parked _ => true | _ => false) then s
    else
      let s1 := s.updBlock b fun k => { k with quads := k.quads.filter (· ≠ q) }
      let s2 := ts.foldl (fun t i =>
        match (t.agent i).stand with
        | .discarded => t.endAgent i
        | .locked => t.updAgent i fun a => { a with stand := .header }
        | _ => t) (s1.leaveRecords b p q)
      s2.closeRecords b p

/-! ## Arriving at a header (R142) -/

/-- An agent arrives at a header whose entry checks have passed: latches empty (R21), in the waystation; at a QLOCK header
a thread waits for its quad (R154); a drover enters at once. -/
def State.arrive (s : State) (i : Nat) (h : Word) : State :=
  let a := s.agent i
  let core := s.coreOf a
  let quad := s.qlockAt a.ctx h && !a.drover && !(a.trapMode && a.frame.quad)
  let s1 := s.updAgent i fun a =>
    { a with pc := h, latches := emptyLatches, issued := 0, wait := .ready, since := (s.core core).cycle.toNat,
             stand := if quad then .quad else .header }
  if a.drover then s1.caravanFor a.block core h (h + 8) [⟨i, true⟩] [] .drover
  else if quad then (s1.tryLock a.block a.quadNo).closeRecords a.block a.pos
  else s1.closeRecords a.block a.pos

/-! ## Taking a trap (R378-R382) -/

/-- Stop a context: every block of it is pre-empted and not restored, and one CONTEXT_STOP is posted (R382). -/
def State.stopContext (s : State) (ctx core : Nat) (code : FaultCode) (pc : Word) : State :=
  if (s.ctx ctx).stopped then s
  else
    let s1 := s.updCtx ctx fun c => { c with stopped := true }
    let s2 := { s1 with
      blocks := s1.blocks.map fun (b : Block) =>
        if b.ctx = ctx && (b.state = BlockState.resident || b.state = BlockState.placed) then { b with state := .saving } else b
      launches := s1.launches.map fun (l : Launch) =>
        if l.ctx = ctx && l.state ≠ LaunchState.done then { l with saving := true, restoring := false } else l }
    (s2.postEvent evContextStop ctx core (pc.setWidth 64) (code.code.setWidth 64)).2

/-- Where a fault meets an agent. -/
structure FaultPoint where
  /-- TF_PC, TF_HDR, TF_NEXT (R379 Table 2). -/
  pc : Word
  hdr : Word
  nxt : Word
  /-- Raised on the way into the header `pc`. -/
  entry : Bool
  /-- Raised in a QLOCK block (R381). -/
  quad : Bool
deriving DecidableEq, Repr

/-- The caravan an agent is a member of. -/
def Stand.caravanNo : Stand → Option Nat
  | .caravan c => some c
  | _ => none

/-- The agent stays at the point of a fault that stopped its context, with its latches (DESIGN CHOICE, assumption 52), and
attempts the step again after RESUME (R382). -/
def State.parkAt (s : State) (i : Nat) (at_ : FaultPoint) : State :=
  s.updAgent i fun a => { a with
    pc := at_.pc, hdr := at_.hdr
    stand := if at_.entry then .entering else if at_.quad then .quadTrap true true
      else .parked (a.stand.caravanNo.getD s.caravans.length) }

/-- The header of the trap routine for an agent (R378); 0xFFFFFFFF for none (R410). -/
def State.trapEntry (s : State) (a : Agent) : Option Word :=
  let c := s.ctx a.ctx
  let e := if a.drover then c.trapD else c.trapT
  if e = 0xFFFFFFFF then none else some e

/-- The frame a fault fills (R379 Table 2); the latches are kept as they stood (R82). -/
def trapFrame (a : Agent) (t : Trap) (at_ : FaultPoint) (seq : DWord) : TrapFrame where
  code := t.code.code
  pc := at_.pc
  hdr := at_.hdr
  nxt := at_.nxt
  resume := if t.code.resumesAfter then at_.nxt else at_.pc
  info := t.info
  addr := t.addr
  seq := seq
  fpstat := a.fpstat
  held := a.latches
  issued := a.issued
  entry := at_.entry
  quad := at_.quad

/-- TAKING A TRAP: fill the frame, set trap mode, take a sequence number, enter the trap routine with the latches empty;
a fault in trap mode, without a trap entry, or raised by that entry stops the context (R378, R382). -/
def State.takeTrap (s : State) (i : Nat) (t : Trap) (at_ : FaultPoint) : State :=
  let a := s.agent i
  match a.trapMode, s.trapEntry a with
  | true, _ => (s.stopContext a.ctx (s.coreOf a) t.code at_.pc).parkAt i at_
  | false, none => (s.stopContext a.ctx (s.coreOf a) t.code at_.pc).parkAt i at_
  | false, some e =>
    let (q, s1) := s.takeSeq
    let s2 := s1.updAgent i fun a => { a with trapMode := true, frame := trapFrame a t at_ q, latches := emptyLatches, wait := .ready }
    match s2.entryFault (s2.agent i) e with
    | some f => (s2.stopContext a.ctx (s.coreOf a) f e).parkAt i { pc := e, hdr := at_.hdr, nxt := e, entry := true, quad := false }
    | none => s2.arrive i e

/-- Enter the header at `h` under R29: arrive there, or take the entry fault, recorded at `h` (R104). -/
def State.enter (s : State) (i : Nat) (h fromHdr : Word) : State :=
  match s.entryFault (s.agent i) h with
  | some f => s.takeTrap i { code := f } { pc := h, hdr := fromHdr, nxt := h, entry := true, quad := false }
  | none => s.arrive i h

/-! ## A quad held by a fault (R381) -/

/-- The point `t` at which a held quad is to resume, as the last thread that left trap mode named it. -/
def State.aimQuad (s : State) (b q : Nat) (t : Word) (inside : Bool) : State :=
  (s.threadsOfQuad b q).foldl (fun u i => u.updAgent i fun a => match a.stand with
    | .quadTrap true _ => { a with pc := t, stand := .quadTrap true inside }
    | _ => a) s

/-- A held quad resumes as one unit once no thread of it is in trap mode for it: inside the block, at the instruction at
`fault` or past it; or between blocks, where each wanting thread's target is entered under R29. -/
def State.resumeQuad (s : State) (b q : Nat) (fault : Word) : State :=
  let ts := s.threadsOfQuad b q
  let busy := ts.any fun i => let a := s.agent i; (a.trapMode && a.frame.quad && a.stand ≠ .exited) || a.stand = .entering
  let p := (s.agent (ts.headD 0)).pos
  if busy then s
  else match ts.find? fun i => (s.agent i).stand = .quadTrap true true with
    | some w =>
      let pc := (s.agent w).pc
      let ms := ts.filterMap fun i => match (s.agent i).stand with
        | .quadTrap want _ => some (⟨i, want⟩ : Member)
        | .discarded => some ⟨i, false⟩
        | _ => none
      let here := ms.map fun m => (s.agent m.agent).lane
      let lanes := (List.range 4).map fun j => laneOfThread (4 * q + j)
      let s1 := if pc = fault then s
        else ms.foldl (fun t m => t.updAgent m.agent fun a => { a with issued := a.issued + 1 }) s
      s1.caravanFor b ((s.block b).share p).core (s.agent w).hdr pc ms (lanes.filter fun l => !here.contains l) .pending
    | none =>
      let bad := ts.filterMap fun i =>
        if (s.agent i).stand = .quadTrap true false then (s.entryFault (s.agent i) (s.agent i).pc).map fun f => (i, f) else none
      if !bad.isEmpty then
        bad.foldl (fun t x =>
          let a := s.agent x.1
          t.takeTrap x.1 { code := x.2 } { pc := a.pc, hdr := a.hdr, nxt := a.pc, entry := true, quad := true }) s
      else
        (ts.foldl (fun t i => t.updAgent i fun a => match a.stand with
          | .quadTrap _ _ => { a with stand := .locked, latches := emptyLatches, issued := 0 }
          | _ => a) s).settleQuad b p q

/-- exit: the agent ends; a thread that ends in the trap routine of a fault that holds its quad lets the quad go on
(R108, R381; DESIGN CHOICE, assumption 52: at the point last named, or at the faulting instruction). -/
def State.exitAgent (s : State) (i : Nat) : State :=
  let a := s.agent i
  let s1 := s.endAgent i
  if a.trapMode && a.frame.quad && !a.drover then s1.resumeQuad a.block a.quadNo a.frame.pc else s1

/-! ## Leaving a block (R31, R143, R146, R155) -/

/-- What an agent does at the end of a block. -/
inductive Leave where
  | to (t : Word)
  | exit
deriving DecidableEq, Repr, Inhabited

def maxRecordsOpen (sh : Share) : Bool := sh.records.length ≥ Config.maxRecords

/-- Open a record over members that leave a block toward two or more headers (R146). -/
def State.openRecord (s : State) (b p : Nat) (target : Word) (ms : List Nat) (quads : Bool) : State :=
  if maxRecordsOpen ((s.block b).share p) then s
  else
    let (n, s1) := s.draw
    s1.updShare b p fun sh => { sh with records := sh.records ++ [⟨n, target, ms, quads⟩] }

/-- The RECON target is a header of the same kind below CODE_LIMIT (R32, R146). -/
def State.reconOk (s : State) (ctx : Nat) (drover : Bool) (j : Word) : Bool :=
  let hd := s.headerAt ctx j
  j.toNat < (s.ctx ctx).codeLimit && hd.marked && hd.drv == drover

def leaveTargets (ls : List (Nat × Leave)) : List Word :=
  (ls.filterMap fun x => match x.2 with | .to t => some t | .exit => none).eraseDups

/-- The reconvergence header a divergence toward `n` successors opens a record for. -/
def Caravan.splits (c : Caravan) (n : Nat) : Option Word := if n > 1 then c.recon else none

/-- The end of an ordinary block. -/
def State.leavePlain (s : State) (c : Caravan) (ls : List (Nat × Leave)) : State :=
  let k := s.block c.block
  let drover := ls.any fun x => (s.agent x.1).drover
  -- every member has its own successor before any of them arrives
  let go (t : State) : State :=
    ls.foldl (fun t x => match x.2 with
      | .to h => t.enter x.1 h c.hdr
      | .exit => t.exitAgent x.1) (ls.foldl (fun t x => t.updAgent x.1 fun a => { a with stand := .entering }) t)
  match c.splits (leaveTargets ls).length with
  | none => go s
  | some j =>
    if s.reconOk k.ctx drover j then go (s.openRecord c.block (s.agent (ls.headD (0, .exit)).1).pos j (ls.map (·.1)) false)
    else ls.foldl (fun t x => t.takeTrap x.1 { code := .branchTarget }
      { pc := j, hdr := c.hdr, nxt := j, entry := true, quad := false }) s

/-- The end of a quad-locked block (R155, R157): wanting threads take their targets or discard, helpers keep theirs. The
latches are empty before a target faults, where an ordinary block leaves its last latches to the frame (DESIGN CHOICE,
assumption 52: R82 speaks of an instruction's fault). -/
def State.leaveQuads (s : State) (c : Caravan) (ls : List (Nat × Leave)) : State :=
  let k := s.block c.block
  let p := (s.agent ((c.members.headD ⟨0, false⟩).agent)).pos
  let qs := (c.members.map fun m => (s.agent m.agent).quadNo).eraseDups
  -- helpers go back between blocks with their own targets
  let s1 := c.members.foldl (fun t m => t.updAgent m.agent fun a =>
    { a with latches := emptyLatches, issued := 0, since := (s.core c.core).cycle.toNat
             stand := if a.stand = .discarded then .discarded else .locked }) s
  let bad := ls.filterMap fun x => match x.2 with
    | .to h => (s.entryFault (s.agent x.1) h).map fun f => (x.1, h, f)
    | .exit => none
  let s2 := ls.foldl (fun t x => match x.2 with
    | .to h => t.updAgent x.1 fun a => { a with pc := h }
    | .exit => t.updAgent x.1 fun a => { a with stand := .discarded }) s1
  let pcs := (qs.filterMap fun q => s2.quadPc c.block q).eraseDups
  -- a thread whose target faults holds its quad between blocks (R381)
  let hold (t : State) (b : Nat → Bool) : State := c.members.foldl (fun t m => t.updAgent m.agent fun a =>
    if b a.quadNo && a.stand = .locked then { a with stand := .quadTrap m.want false, hdr := c.hdr } else a) t
  let badQuads := (bad.map fun x => (s.agent x.1).quadNo).eraseDups
  let go (t : State) : State :=
    let s4 := bad.foldl (fun t x => t.takeTrap x.1 { code := x.2.2 }
      { pc := x.2.1, hdr := c.hdr, nxt := x.2.1, entry := true, quad := true }) (hold t badQuads.contains)
    (qs.filter fun q => !badQuads.contains q).foldl (fun t q => t.settleQuad c.block p q) s4
  match c.splits pcs.length with
  | none => go s2
  | some j =>
    if s.reconOk k.ctx false j then go (s2.openRecord c.block p j qs true)
    -- every member raises BRANCH_TARGET at the record's target; helpers raise none (R156)
    else ls.foldl (fun t x => t.takeTrap x.1 { code := .branchTarget }
      { pc := j, hdr := c.hdr, nxt := j, entry := true, quad := true }) (hold s2 fun _ => true)

/-- The caravan dissolves and its members go to their successors (R143). -/
def State.leaveBlock (s : State) (ci : Nat) (ls : List (Nat × Leave)) : State :=
  let c := s.caravan ci
  let s1 := s.updCaravan ci fun c => { c with place := .dissolved }
  if c.qlock then s1.leaveQuads c ls else s1.leavePlain c ls

/-- After an instruction of `size` bytes that does not leave its block: the next instruction, or the fall-through (R31). -/
def State.advance (s : State) (ci size : Nat) : State :=
  let c := s.caravan ci
  let nxt := c.pc + BitVec.ofNat 32 size
  if nxt = blockEnd c.hdr c.len then
    s.leaveBlock ci ((c.members.filter (·.want)).map fun m => (m.agent, .to (fallHeader c.hdr c.len)))
  else s.updCaravan ci fun c => { c with pc := nxt, since := (s.core c.core).cycle.toNat, aged := false }

/-! ## Returning from a trap (R381) -/

/-- The latches a frame records (R381, R82). -/
def restoredLatches (a : Agent) : List (Option Latch) := a.frame.held

/-- Whether `t` is an instruction offset inside the faulting block at which eret may continue (R381). -/
def State.insideFrame (s : State) (a : Agent) (t : Word) : Bool :=
  let f := a.frame
  let len := (s.headerAt a.ctx f.hdr).len
  (t = f.pc || t = f.nxt) && f.hdr ≠ 0xFFFFFFFF && !f.entry &&
    decide (f.hdr.toNat + 8 ≤ t.toNat) && decide (t.toNat < f.hdr.toNat + 8 + 4 * len) && decide (t.toNat % 4 = 0)

end Sys2Proof.Machine
end

