-- ==== Sys2Proof/Machine/Fetch.lean ====
section
/-! DEFINITION. Fetching the next instruction of a caravan (R26, R30, R64), and which caravans may issue (R151). -/

namespace Sys2Proof.Machine

/-- Offsets of the parcels from `off` up to `n` of them. -/
def State.parcels (s : State) (ctx off : Nat) : Nat → List Word
  | 0 => []
  | n + 1 => BitVec.ofNat 32 (s.codeNat ctx off 4) :: s.parcels ctx (off + 4) n

/-- The parcels of the block from the caravan's PC on, at most the four an instruction has. -/
def State.fetch (s : State) (ci : Nat) : List Word :=
  let c := s.caravan ci
  let left := ((blockEnd c.hdr c.len).toNat - c.pc.toNat) / 4
  s.parcels (s.block c.block).ctx c.pc.toNat (min 4 left)

/-- Errors that the fetch of the next instruction meets (R208). -/
def State.meetFetch (s : State) (ci : Nat) : State :=
  let c := s.caravan ci
  let ctx := (s.block c.block).ctx
  s.meetPa (some ctx) ((s.ctx ctx).codeBase + c.pc.toNat) 16

/-- Bytes of the instruction that begins with the first of these parcels. -/
def sizeOfParcels : List Word → Nat
  | [] => 8
  | p :: _ => 4 * tagLength p

/-! ## Boundaries that latches hold (R81) -/

def namesLatch (f : BitVec 10) : Bool := decide (0x204 ≤ f.toNat) && decide (f.toNat < 0x208)

/-- The instruction that begins with these parcels names a latch. -/
def latchNamed : List Word → Bool
  | [] => false
  | p0 :: ps =>
    let p (i : Nat) : Word := ps.getD i 0
    match (p0.extractLsb' 0 2).toNat with
    | 0 => let f := V64.ofWord (p 0 ++ p0); [f.sa, f.sb, f.sc].any namesLatch
    | 1 => let f := V64I.ofWord (p 0 ++ p0); [f.sa, f.dst].any namesLatch
    | 2 => let f := PairWord.ofWord (p 1 ++ p 0 ++ p0)
      [f.s0.sa, f.s0.sb, f.s0.sc, f.s1.sa, f.s1.sb, f.s1.sc].any namesLatch
    | _ => let f := Extended.ofWord (p 2 ++ p 1 ++ p 0 ++ p0); [f.sa, f.sb, f.sc].any namesLatch

/-- One of the next `n` instructions names a latch. -/
def State.latchAhead (s : State) (ctx : Nat) (stop : Word) : Nat → Word → Bool
  | 0, _ => false
  | n + 1, pc =>
    if pc.toNat ≥ stop.toNat then false
    else
      let ps := s.parcels ctx pc.toNat (min 4 ((stop.toNat - pc.toNat) / 4))
      latchNamed ps || s.latchAhead ctx stop n (pc + BitVec.ofNat 32 (sizeOfParcels ps))

/-- The caravan may not be taken off its position at the boundary it stands at, which is before the instruction at `pc`; a
caravan that waits inside that instruction stands there too (R81, R150). -/
def State.latchHeld (s : State) (ci : Nat) : Bool :=
  let c := s.caravan ci
  s.latchAhead (s.block c.block).ctx (blockEnd c.hdr c.len) 3 c.pc

/-- An agent's wait inside an instruction may end: its block is on its cores and does not stop for a save, or has still to
come to a boundary that R81 allows (R389 step 2). -/
def State.wakeable (s : State) (i : Nat) : Bool :=
  let a := s.agent i
  match (s.block a.block).state with
  | .resident => true
  | .saving => (a.stand.caravanNo.map s.latchHeld).getD false
  | _ => false

/-- A caravan that may issue: it has a position or is a drover's, no member waits, its block is on its cores (while it stops
for a save, only up to the first boundary that R81 allows), and the main side runs. -/
def State.canIssue (s : State) (ci : Nat) : Bool :=
  let c := s.caravan ci
  let placed := match c.place with
    | .active _ _ => true
    | .drover => true
    | _ => false
  let k := (s.block c.block).state
  placed && !s.mgmt.held && !c.members.isEmpty && (k = .resident || (k = .saving && s.latchHeld ci)) &&
    c.members.all fun m => (s.agent m.agent).wait = .ready

/-! ## Placing one instruction to be fetched next -/

/-- The header of a block of LEN parcels and no live registers (R28). -/
def plainHeader (drv : Bool) (len : Nat) : DWord :=
  (if drv then 1#64 <<< 63 else 0) ||| (BitVec.ofNat 64 len <<< 12) ||| 0xFFF#64

/-- A matrix command, which only a DRV block may hold (R89). -/
def isMatrixParcel (p : Word) : Bool :=
  p.extractLsb' 0 2 = 3#2 && decide (0x340 ≤ parcelOp p) && decide (parcelOp p < 0x380)

/-- A fresh context number above those in use. -/
def State.freshCtx (s : State) : Nat := s.contexts.foldl (fun n c => max n (c.1 + 1)) 1

/-- One block of one agent on core 0, whose code is a header at offset 0 and the parcels after it; the agent's caravan has
the issue. It stands for CTXNEW, QCREATE, LAUNCH, placement and formation of such a program (assumption 8). -/
def State.withProgram (s : State) (drv : Bool) (len : Nat) (ps : List Word) : State :=
  let ctx := s.freshCtx
  let b := s.blocks.length
  let l := s.launches.length
  let a := s.agents.length
  let ci := s.caravans.length
  let code := (plainHeader drv len).toNat + 2 ^ 64 * packElems 32 (ps.map (·.toNat))
  { s with
    mgmt := { s.mgmt with held := false }
    contexts := (ctx, { codeBase := 0, codeLimit := 4096 }) :: s.contexts
    launches := s.launches ++ [{ ctx := ctx, drv := drv, nblock := 1, bsize := 1, regs := 512, tileSize := 4096, spillSize := 256, placed := 1 }]
    blocks := s.blocks ++ [{ ctx := ctx, launch := l, size := 1, shares := [{ core := 0 }] }]
    agents := s.agents ++ [{ drover := drv, ctx := ctx, launch := l, block := b, stand := .caravan ci, pc := 8, hdr := 0 }]
    caravans := s.caravans ++ [{ block := b, core := 0, hdr := 0, pc := 8, len := len, members := [⟨a, true⟩], place := if drv then .drover else .active 0 0 }]
    mem := writeBytes s.mem 0 (leBytes 24 code)
    agenda := .issue ci :: s.agenda }

end Sys2Proof.Machine
end

