-- ==== Sys2Proof/Machine/Operands.lean ====
section
/-! DEFINITION. Operand forms (R65-R78, R95-R96): positions, literals, modifiers, sources, destinations, and the checks
of R87 that they need. -/

namespace Sys2Proof.Machine

/-! ## Fields -/

/-- The fields of an instruction as the operand rules see them; a form without modifiers has them zero. -/
structure Fields where
  dst : BitVec 10
  sa : BitVec 10
  sb : BitVec 10
  sc : BitVec 10
  ma : BitVec 3 := 0
  mb : BitVec 3 := 0
  mc : BitVec 3 := 0
  nwb : Bool := false
  /-- The immediate of V64I, which stands in source B (R67). -/
  imm : Option Word := none
  /-- Bytes of the instruction. -/
  size : Nat := 8
deriving DecidableEq, Repr, Inhabited

end Sys2Proof.Machine

namespace Sys2Proof

/-- The fields of a register or immediate form (R65-R67). -/
def Operands.fields : Operands → Machine.Fields
  | .v64 f => { dst := f.dst, sa := f.sa, sb := f.sb, sc := f.sc, ma := f.ma, mb := f.mb, mc := f.mc, nwb := f.nwb = 1 }
  | .v64i f => { dst := f.dst, sa := f.sa, sb := 0x200, sc := 0x200, imm := some f.imm }

/-- The operand fields of an X128 word (R69). -/
def Extended.fields (x : Extended) : Machine.Fields :=
  { dst := x.dst, sa := x.sa, sb := x.sb, sc := x.sc, size := 16 }

end Sys2Proof

namespace Sys2Proof.Machine

def gz : BitVec 10 := 0x200

/-- A field value that names a queue (R70, R74). -/
def queueField (f : BitVec 10) : Option Nat :=
  if 0x208 ≤ f.toNat ∧ f.toNat ≤ 0x20F then some (f.toNat - 0x208) else none

/-! ## Operand positions (R72 Table 7, R77 Table 8) -/

/-- Width and class of a source position; `none` is a field the opcode does not read. -/
inductive Pos where
  | none
  | b32 | b64 | n64 | b128
  /-- An origin quad: a register whose index is a multiple of 4, or gz (R266). -/
  | origins
  | f32 | f64
  | i16x2 | f16x2 | bf16x2
  /-- 8-bit integers; `nf8x4` are E4M3, E5M2, E3M2, E2M3, MXINT8 and E8M0 codes. -/
  | i8x4 | nf8x4
  | e2m1x8
  /-- A queue and nothing else (R109). -/
  | queue
  /-- A scope index, an inline integer or an immediate of 0-63 (R173, R211). -/
  | scope
  /-- gz, #0 or #1 (R163). -/
  | sel
  /-- gz or #0 to #3 (R164). -/
  | shufWidth
  /-- Queue q and no other (mmap, R305). -/
  | onlyQueue (q : Nat)
  /-- d registers dk to dk+7 of a drover, k a multiple of 8 (R264). -/
  | record
deriving DecidableEq, Repr, Inhabited

/-- Positions that take no register, latch, mask, queue or lane number. -/
def Pos.isChoice : Pos → Bool
  | .scope => true
  | .sel => true
  | .shufWidth => true
  | _ => false

def Pos.width : Pos → Nat
  | .b64 => 64
  | .n64 => 64
  | .f64 => 64
  | .queue => 64
  | .onlyQueue _ => 64
  | .b128 => 128
  | .origins => 128
  | _ => 32

/-- What an opcode writes: nothing, a 32-bit result (.s32 is sign-extended in a drover, R96), a pair, a quad. -/
inductive Res where
  | none | w32 | s32 | w64 | w128
deriving DecidableEq, Repr, Inhabited

def Res.width : Res → Nat
  | .none => 0
  | .w32 => 32
  | .s32 => 32
  | .w64 => 64
  | .w128 => 128

def Res.latchWidth : Res → Width
  | .w64 => .w64
  | .w128 => .w128
  | _ => .w32

def Width.bits : Width → Nat
  | .w32 => 32
  | .w64 => 64
  | .w128 => 128

/-- The 32 FP32 constants (R71 Table 6). -/
def constantBits (i : Nat) : Nat :=
  ([0x3F800000, 0x40000000, 0x40800000, 0x41000000, 0x41800000, 0x3F000000, 0x3E800000, 0x3E000000,
    0xBF800000, 0xC0000000, 0xBF000000, 0x40400000, 0x41200000, 0x3DCCCCCD, 0x3EAAAAAB, 0x437F0000] ++
   [0x3B808081, 0x40490FDB, 0x3FC90FDB, 0x40C90FDB, 0x3EA2F983, 0x402DF854, 0x3F317218, 0x3FB8AA3B,
    0x3FB504F3, 0x3F3504F3, 0x7F800000, 0xFF800000, 0x7FC00000, 0x7F7FFFFF, 0x00800000, 0x80000000]).getD i 0

/-- Both 16-bit elements, or all four 8-bit elements, alike. -/
def both16 (v : Nat) : Nat := packElems 16 [v, v]
def all8 (v : Nat) : Nat := packElems 8 [v, v, v, v]

/-- An FP32 code as FP64, exactly (R67, R72). -/
def widen64 (c : Nat) : Nat := (roundFp fp64 .rn (decodeFp fp32 c) false).1

/-- A small integer in a position (LANE and #n of Table 7). -/
def Pos.ofInt (p : Pos) (n : Nat) : Option Nat :=
  match p with
  | .b32 => some n
  | .f32 => some (rne32 (fvalOfInt n))
  | .i16x2 => some (both16 n)
  | .f16x2 => some (both16 (rne16 (fvalOfInt n)))
  | .bf16x2 => some (both16 (rneBf16 (fvalOfInt n)))
  | .i8x4 => some (all8 n)
  | .b64 => some n
  | .n64 => some n
  | .f64 => some (roundFp fp64 .rn (fvalOfInt n) false).1
  | .scope => some n
  | .sel => if n ≤ 1 then some n else Option.none
  | .shufWidth => if n ≤ 3 then some n else Option.none
  | _ => Option.none

/-- A constant in a position (Table 7). -/
def Pos.ofConstant (p : Pos) (c : Nat) : Option Nat :=
  match p with
  | .b32 => some c
  | .f32 => some c
  | .f16x2 => some (both16 (rne16 (decodeFp fp32 c)))
  | .bf16x2 => some (both16 (rneBf16 (decodeFp fp32 c)))
  | .f64 => some (widen64 c)
  | _ => Option.none

/-- The value of a literal field in a position (R72 Table 7). -/
def literal (p : Pos) (f lane : Nat) : Option Nat :=
  if f = 0x200 then (if p = .scope ∨ p = .queue then none else some 0)
  else if f = 0x201 then (if p.isChoice ∨ p = .queue then none else some (onesOf p.width))
  else if f = 0x210 then (if p.isChoice then none else p.ofInt lane)
  else if 0x240 ≤ f ∧ f ≤ 0x27F then p.ofInt (f - 0x240)
  else if 0x280 ≤ f ∧ f ≤ 0x29F then p.ofConstant (constantBits (f - 0x280))
  else none

/-- IMM32 in the position of source B (R67). -/
def Pos.ofImm (p : Pos) (w : Word) : Option Nat :=
  match p with
  | .b64 => some (wrapTo 64 w.toInt)
  | .n64 => some w.toNat
  | .f64 => some (widen64 w.toNat)
  | .b128 => Option.none
  | .origins => Option.none
  | .queue => Option.none
  | .scope => if w.toNat ≤ 63 then some w.toNat else Option.none
  | .sel => if w.toNat ≤ 1 then some w.toNat else Option.none
  | _ => some w.toNat

/-! ## Modifiers (R77 Table 8) -/

/-- A value under a modifier; none for a reserved code. -/
def applyMod (p : Pos) (m v : Nat) : Option Nat :=
  if m = 0 then some v
  else
    let sgn := 2 ^ (p.width - 1)
    let e16 (i : Nat) := elemAt 16 i v
    let e8 (i : Nat) := elemAt 8 i v
    let e4 (i : Nat) := elemAt 4 i v
    let swz16 : Option Nat := match m with
      | 1 => some (packElems 16 [e16 1, e16 0])
      | 2 => some (both16 (e16 0))
      | 3 => some (both16 (e16 1))
      | _ => none
    let swz8 : Option Nat := match m with
      | 1 => some (packElems 8 [e8 3, e8 2, e8 1, e8 0])
      | 2 => some (all8 (e8 0))
      | 3 => some (all8 (e8 1))
      | 4 => some (all8 (e8 2))
      | 5 => some (all8 (e8 3))
      | 6 => some (packElems 16 [e16 1, e16 0])
      | _ => none
    match p with
    | .f32 | .f64 =>
      match m with
      | 1 => some (v ^^^ sgn)
      | 2 => some (v % sgn)
      | 3 => some (v % sgn + sgn)
      | _ => none
    | .f16x2 | .bf16x2 =>
      match m with
      | 4 => some (v ^^^ 0x80008000)
      | 5 => some (v &&& 0x7FFF7FFF)
      | 6 => some (v ^^^ 0x80000000)
      | 7 => some (v ^^^ 0x00008000)
      | _ => swz16
    | .i16x2 => swz16
    | .i8x4 | .nf8x4 => swz8
    | .e2m1x8 =>
      match m with
      | 1 => some (packElems 4 [e4 1, e4 0, e4 3, e4 2, e4 5, e4 4, e4 7, e4 6])
      | 2 => some (packElems 4 [e4 0, e4 0, e4 2, e4 2, e4 4, e4 4, e4 6, e4 6])
      | 3 => some (packElems 4 [e4 1, e4 1, e4 3, e4 3, e4 5, e4 5, e4 7, e4 7])
      | _ => none
    | _ => none

/-! ## Sources -/

/-- What a source field supplies: a value, or one token of a queue. -/
inductive Source where
  | val (v : Nat)
  | queue (q : Nat)
deriving DecidableEq, Repr

/-- A latch as a source of `w` bits: held, wide enough, at most three instructions old (R21, R80). -/
def Agent.latchSource (a : Agent) (k w : Nat) : Option Nat :=
  match a.latch k with
  | some l => if l.width.bits ≥ w ∧ a.issued + 1 - l.born ≤ 3 then some (l.val.toNat % 2 ^ w) else none
  | none => none

/-- A register as a source of `w` bits (R16, R17, R75, R96). -/
def Agent.regSource (a : Agent) (n k w : Nat) : Option Nat :=
  if a.drover then
    if k ≥ 64 ∨ w = 128 then none
    else some ((a.pair (2 * k)).toNat % 2 ^ w)
  else if k ≥ n then none
  else if w = 32 then some (a.greg k).toNat
  else if w = 64 then (if k % 2 = 0 then some (a.pair k).toNat else none)
  else if k % 4 = 0 then some (a.quad k).toNat else none

/-- A source field in a position; none where it is illegal there (R70, R72, R73, R75). -/
def State.source (s : State) (a : Agent) (p : Pos) (f : BitVec 10) : Option Source :=
  let n := f.toNat
  if p = .queue then (queueField f).map .queue
  else if let .onlyQueue q := p then (if queueField f = some q then some (.queue q) else none)
  else if p = .record then (if a.drover ∧ n < 64 ∧ n % 8 = 0 then some (.val 0) else none)
  else if a.drover ∧ p.width = 128 then none
  else if p = .origins ∧ n ≥ 0x200 then (if f = gz then some (.val 0) else none)
  else if p.isChoice then (literal p n a.lane).map .val
  else if n < 0x200 then (a.regSource (s.regCount a) n p.width).map .val
  else if 0x204 ≤ n ∧ n ≤ 0x207 then (a.latchSource (n - 0x204) p.width).map .val
  else match queueField f with
    | some q => if p.width = 128 then none else some (.queue q)
    | none => if n = 0x210 ∧ a.drover then none else (literal p n a.lane).map .val

/-! ## What an opcode's operands are -/

/-- The operand form of an opcode. -/
structure Sig where
  dst : Res := .none
  a : Pos := .none
  b : Pos := .none
  c : Pos := .none
  /-- The opcode has a V64I form. -/
  imm : Bool := true
  /-- Legal in a DRV block, in a thread block (R89). -/
  drover : Bool := false
  thread : Bool := true
  /-- The instruction leaves its block and stands last in it (R31). -/
  leaves : Bool := false
  /-- MA, MB, MC carry controls and not modifiers (R90 Table 16, R177, R211). -/
  ctlA : Bool := false
  ctlB : Bool := false
  ctlC : Bool := false
  /-- The values of the controls that are allowed. -/
  ctlOk : Fields → Bool := fun _ => true
  /-- No queue as a source or destination (R162). -/
  noQueue : Bool := false
  /-- The queues named are popped by the instruction's own rule (mmap, R310). -/
  ownPops : Bool := false
  /-- DST names that many registers from a multiple of 8, and nothing else (vmx, R314); 0 for every other opcode. -/
  dstRegs : Nat := 0
  /-- A barrier, drain or psync: illegal in a QLOCK block (R173). -/
  sync : Bool := false
  /-- psync: illegal in an unpaired launch (R182). -/
  paired : Bool := false

/-- The field that carries source C: SC, or DST in a V64I form without a result (R67). -/
def Sig.fieldC (g : Sig) (f : Fields) : BitVec 10 :=
  if f.imm.isSome then (if g.dst = .none then f.dst else gz) else f.sc

/-- The instruction runs past the parcels of its block (R30). -/
def overruns (c : Caravan) (size : Nat) : Bool :=
  decide (c.pc.toNat + size > (blockEnd c.hdr c.len).toNat)

/-- Step 1 of R87. The check of R31 that an instruction which leaves its block stands last is made with it (DESIGN CHOICE,
assumption 53: R87 does not place it). -/
def State.checkKind (s : State) (c : Caravan) (a : Agent) (g : Sig) (f : Fields) : Bool :=
  !overruns c f.size && (g.imm || f.imm.isNone) && (if a.drover then g.drover else g.thread) &&
    (!g.leaves || c.pc + BitVec.ofNat 32 f.size = blockEnd c.hdr c.len) &&
    !(g.sync && c.qlock) && !(g.paired && !(s.launch a.launch).paired)

/-- A field the opcode does not read holds gz with modifier 000 (R76). -/
def unreadOk (p : Pos) (f : BitVec 10) (m : BitVec 3) : Bool := p ≠ .none || (f = gz && m = 0)

/-- A modifier that is no control is not reserved for its class (R77). -/
def modOk (p : Pos) (ctl : Bool) (m : BitVec 3) : Bool := p = .none || ctl || (applyMod p m.toNat 0).isSome

/-- Step 2 of R87: fields and modifiers (R67, R76, R77, R79, R95). -/
def checkFields (g : Sig) (f : Fields) : Bool :=
  (match f.imm with
   | some w =>
     (g.b ≠ .none || w = 0) && (g.a ≠ .none || f.sa = gz) && (g.dst ≠ .none || g.c ≠ .none || f.dst = gz)
   | none =>
     unreadOk g.a f.sa (if g.ctlA then 0 else f.ma) && unreadOk g.b f.sb (if g.ctlB then 0 else f.mb) &&
       unreadOk g.c f.sc (if g.ctlC then 0 else f.mc) &&
       modOk g.a g.ctlA f.ma && modOk g.b g.ctlB f.mb && modOk g.c g.ctlC f.mc &&
       (g.dst ≠ .none || f.dst = gz) && (!f.nwb || (f.dst = gz && g.dst ≠ .none))) && g.ctlOk f

/-- Queue q is bound to the block, or its partner, on the agent's core (R287). -/
def State.queueBound (s : State) (a : Agent) (q : Nat) : Bool :=
  match ((s.core (s.coreOf a)).queues.getD q {}).owner with
  | some b => b = a.block || (s.block b).mate = some a.block
  | none => false

/-- ILLEGAL_OPERAND naming a field (R379 Table 3). -/
def badField (n : Nat) : Trap := { code := .illegalOperand, info := BitVec.ofNat 32 n }

/-- A queue named by an agent to which it is not bound (R287). -/
def misuse (q : Nat) : Trap := { code := .queueMisuse, info := BitVec.ofNat 32 q }

/-- The destination check of step 3 (R16, R17, R74, R75, R96, R287). -/
def State.checkDst (s : State) (a : Agent) (g : Sig) (f : Fields) : Option Trap :=
  let n := f.dst.toNat
  let w := g.dst.width
  if w = 0 then none
  else if g.dstRegs > 0 then (if n % 8 = 0 ∧ n + g.dstRegs ≤ s.regCount a then none else some (badField 0))
  else if a.drover ∧ w = 128 then some (badField 0)
  else if f.dst = gz then none
  else if n < 0x200 then
    if a.drover then (if n < 64 then none else some (badField 0))
    else if n < s.regCount a ∧ n % (w / 32) = 0 then none else some (badField 0)
  else match queueField f.dst with
    | some q =>
      if w = 128 ∨ g.noQueue then some (badField 0)
      else if s.queueBound a q then none else some (misuse q)
    | none => some (badField 0)

/-- A source check of step 3, reported under field number `no`. -/
def State.checkSource (s : State) (a : Agent) (g : Sig) (p : Pos) (f : BitVec 10) (no : Nat) : Option Trap :=
  if p = .none then none
  else match s.source a p f with
    | none => some (badField no)
    | some (.val _) => none
    | some (.queue q) =>
      if g.noQueue then some (badField no) else if s.queueBound a q then none else some (misuse q)

/-- Step 3 of R87, in the order DST, SA, SB, SC, then the V64I field read as source C. -/
def State.checkOperands (s : State) (a : Agent) (g : Sig) (f : Fields) : Option Trap :=
  match s.checkDst a g f with
  | some t => some t
  | none =>
  match s.checkSource a g g.a f.sa 1 with
  | some t => some t
  | none =>
  match (match f.imm with
         | some w => if g.b = .none ∨ (g.b.ofImm w).isSome then none else some (badField 2)
         | none => s.checkSource a g g.b f.sb 2) with
  | some t => some t
  | none => s.checkSource a g g.c (g.fieldC f) (if f.imm.isSome then 4 else 3)

/-- The checks of R87 in their order. -/
def State.staticFault (s : State) (c : Caravan) (a : Agent) (g : Sig) (f : Fields) : Option Trap :=
  if !s.checkKind c a g f then some { code := .illegalInstruction }
  else if !checkFields g f then some { code := .illegalInstruction }
  else s.checkOperands a g f

/-! ## Values -/

/-- A source's value under its modifier, with the token a queue source was given. -/
def State.operand (s : State) (a : Agent) (p : Pos) (f : BitVec 10) (m : BitVec 3) (ctl : Bool) (token : DWord) : QWord :=
  if p = .none then 0
  else
    let v := match s.source a p f with
      | some (.val v) => v
      | some (.queue _) => token.toNat % 2 ^ p.width
      | none => 0
    BitVec.ofNat 128 (if ctl then v else (applyMod p m.toNat v).getD v)

/-- Source B: a field or IMM32 (R67). -/
def State.operandB (s : State) (a : Agent) (g : Sig) (f : Fields) (token : DWord) : QWord :=
  match f.imm with
  | some w => BitVec.ofNat 128 ((g.b.ofImm w).getD 0)
  | none => s.operand a g.b f.sb f.mb g.ctlB token

/-- The queues the sources name, in the order A, B, C (R289). -/
def Sig.sourceQueues (g : Sig) (f : Fields) : List (Option Nat) :=
  if g.ownPops then [none, none, none]
  else [if g.a = .none then none else queueField f.sa,
   if g.b = .none ∨ f.imm.isSome then none else queueField f.sb,
   if g.c = .none then none else queueField (g.fieldC f)]

/-! ## Results -/

/-- A result as the agent's registers hold it: a drover's 32-bit result is extended to 64 bits (R96). -/
def extendResult (drover : Bool) (r : Res) (v : QWord) : Nat :=
  if drover ∧ r = .s32 then wrapTo 64 (toSigned 32 v.toNat) else v.toNat % 2 ^ r.width

/-- The latch a result enters: full width in a thread, 64 bits in a drover (R20, R293). -/
def resultLatch (a : Agent) (r : Res) (v : QWord) (born : Nat) : Latch :=
  { width := if a.drover then .w64 else r.latchWidth, val := BitVec.ofNat 128 (extendResult a.drover r v), born := born }

/-- Write a result of `r` to destination field `d` when it names a register (R74, R75). -/
def Agent.writeDst (a : Agent) (d : BitVec 10) (r : Res) (v : QWord) : Agent :=
  let n := extendResult a.drover r v
  if d.toNat < 0x200 then
    if a.drover then a.setPair (2 * d.toNat) (BitVec.ofNat 64 n)
    else match r with
      | .none => a
      | .w64 => a.setPair d.toNat (BitVec.ofNat 64 n)
      | .w128 => a.setQuad d.toNat (BitVec.ofNat 128 n)
      | _ => a.setReg d.toNat (BitVec.ofNat 32 n)
  else a

end Sys2Proof.Machine
end

