-- ==== Sys2Proof/Machine/Issue.lean ====
section
/-! DEFINITION. The issue of one instruction of a caravan (R19, R73, R87, R115, R155-R160, R288-R289, R381): checks, queue
waits, the work of every lane, results, traps, and the way to the next instruction. -/

namespace Sys2Proof.Machine

/-- A member lane of the instruction that issues, with its operand values. -/
structure Lane where
  agent : Nat
  lane : Nat
  want : Bool
  a : QWord := 0
  b : QWord := 0
  c : QWord := 0
deriving DecidableEq, Repr, Inhabited

/-- What an instruction gives a lane: its result and the flags it raises. -/
structure LaneRes where
  val : QWord := 0
  flags : Flags := 0
  /-- The result comes when the lane's wait ends, and not at issue. -/
  late : Bool := false
  /-- The result is 64 bits wide although the opcode's usual one is 32 (csrr, R116). -/
  wide : Bool := false
deriving DecidableEq, Repr, Inhabited

/-- What an opcode does, beside what every instruction does. -/
structure Job where
  sig : Sig
  /-- Caravan-uniform: one execution, in the lowest wanting lane (R160). -/
  uniform : Bool := false
  /-- The result comes when a wait ends, not at issue (psync). -/
  late : Bool := false
  /-- A check after R87 that comes before any wait, of one agent. -/
  early : State → Nat → Option Trap := fun _ _ => none
  /-- Tokens that must be there though the instruction pops them by its own rule (mmap, R310). -/
  waits : State → Agent → List (Nat × Nat) := fun _ _ => []
  /-- The streams whose head tokens it waits for (mmap). -/
  heads : Agent → List Nat := fun _ => []
  /-- The instruction waits until the drover's earlier matrix commands have completed (mgth, R309). -/
  idle : Bool := false
  /-- Checks over all wanting lanes at once, whose first fault every one of them takes (vmx, R316). -/
  checkAll : State → List Lane → Option Trap := fun _ _ => none
  /-- The checks after R87, of one lane. -/
  check : State → Lane → Option Trap := fun _ _ => none
  /-- The work of the lanes that complete, in ascending lane order, and a result for each. -/
  perform : State → List Lane → State × List LaneRes
  /-- For an instruction that leaves its block: where each wanting lane goes. -/
  leave : Option (State → Caravan → Lane → LaneRes → Leave) := none
  /-- What follows instead of going on to the next instruction (eret). -/
  finish : Option (State → Nat → List Lane → State) := none

/-- Members of a caravan in ascending lane order. -/
def State.laneMembers (s : State) (c : Caravan) : List Member :=
  if c.members.length ≤ 1 then c.members
  else (List.range 32).filterMap fun l => c.members.find? fun m => (s.agent m.agent).lane = l

/-- The trap point of the instruction that issues (R379 TF_PC, TF_HDR, TF_NEXT). -/
def faultPoint (c : Caravan) (size : Nat) : FaultPoint :=
  let nxt := c.pc + BitVec.ofNat 32 size
  { pc := c.pc, hdr := c.hdr, nxt := if nxt.toNat < (blockEnd c.hdr c.len).toNat then nxt else fallHeader c.hdr c.len,
    entry := false, quad := c.qlock }

/-- Each issue is a cycle of its core: reads of CYCLE on one core differ (R117). -/
def State.tick (s : State) (core n : Nat) : State :=
  s.updCore core fun c => { c with cycle := c.cycle + BitVec.ofNat 64 n }

/-- The issue begins: a cycle of the core, and the caravan's age ends (R147). -/
def State.begin (s : State) (ci : Nat) : State :=
  let core := (s.caravan ci).core
  let s1 := s.tick core 1
  s1.updCaravan ci fun c => { c with since := (s1.core core).cycle.toNat, aged := false }

/-- Agents of quads in which a lane faults: the whole quad is held (R381). -/
def State.quadMates (s : State) (c : Caravan) (faulting : List Nat) : List Nat :=
  if c.qlock then
    let qs := faulting.map fun i => (s.agent i).quadNo
    (c.members.map (·.agent)).filter fun i => qs.contains (s.agent i).quadNo && !faulting.contains i
  else []

/-- Take faulting lanes and held quads out of the caravan, then let each faulting lane take its trap. -/
def State.raise (s : State) (ci : Nat) (c : Caravan) (size : Nat) (faults : List (Nat × Trap)) : State :=
  if faults.isEmpty then s
  else
    let bad := faults.map (·.1)
    let held := s.quadMates c bad
    let s1 := s.updCaravan ci fun k => { k with members := k.members.filter fun m => !bad.contains m.agent && !held.contains m.agent }
    let s2 := c.members.foldl (fun t m =>
      if held.contains m.agent then t.updAgent m.agent fun a =>
        if a.stand = .discarded then a
        else { a with stand := .quadTrap m.want true, pc := if m.want then c.pc else a.pc, hdr := c.hdr }
      else t) s1
    let s3 := faults.foldl (fun t x => t.takeTrap x.1 x.2 (faultPoint c size)) s2
    if (s3.caravan ci).members.isEmpty then s3.updCaravan ci fun k => { k with place := .dissolved } else s3

/-! ## Queues (R287-R290) -/

def State.tokens (s : State) (core q : Nat) : List DWord := ((s.core core).queues.getD q {}).tokens

def State.updTokens (s : State) (core q : Nat) (f : List DWord → List DWord) : State :=
  s.updCore core fun c => { c with queues := updAt c.queues q fun k => { k with tokens := f k.tokens } }

/-- Tokens an instruction takes from each queue, for `n` wanting lanes. -/
def Sig.pops (g : Sig) (f : Fields) (n : Nat) : List (Nat × Nat) :=
  let qs := (g.sourceQueues f).filterMap id
  qs.eraseDups.map fun q => (q, n * (qs.filter (· = q)).length)

/-- Tokens it pushes. -/
def Sig.pushes (g : Sig) (f : Fields) (n : Nat) : List (Nat × Nat) :=
  if g.dst = .none then [] else ((queueField f.dst).map fun q => (q, n)).toList

/-- A drover pushes only after its earlier matrix commands have completed (R296). -/
def State.engineIdle (s : State) (a : Agent) : Bool :=
  !a.drover || ((s.block a.block).share a.pos).engine.queue.isEmpty

/-- The queue that an agent's old value will be pushed to. -/
def Wait.target : Wait → Option Nat
  | .remote d _ => queueField d
  | .emit d _ _ => queueField d
  | .same d _ => queueField d
  | .half d _ _ _ _ _ _ => queueField d
  | .got d _ _ => queueField d
  | _ => none

/-- Room in a queue that instructions have found whose old values are still to come (R288). -/
def State.reserved (s : State) (core q : Nat) : Nat :=
  (s.agentsWhere fun a => a.wait.target = some q && s.coreOf a = core).length

/-- A queue has room for `n` more tokens. -/
def State.hasRoom (s : State) (core q n : Nat) : Bool :=
  decide ((s.tokens core q).length + s.reserved core q + n ≤ Config.queueDepth)

/-- Every named queue holds the tokens, or has the room (R288, R289). -/
def State.queuesReady (s : State) (a : Agent) (pops pushes : List (Nat × Nat)) : Bool :=
  let core := s.coreOf a
  pops.all (fun x => x.2 ≤ (s.tokens core x.1).length) &&
    pushes.all (fun x => s.hasRoom core x.1 x.2) &&
    (pushes.isEmpty || s.engineIdle a)

/-- Which token of its queue source number `k` gives to wanting lane number `j` of `n` (R289). -/
def tokenIndex (qs : List (Option Nat)) (k n j : Nat) : Nat :=
  n * ((qs.take k).filter (· = qs.getD k none)).length + j

/-- The token a source is given; 0 for a source that is no queue. -/
def State.tokenFor (s : State) (core : Nat) (qs : List (Option Nat)) (k n j : Nat) : DWord :=
  match qs.getD k none with
  | some q => (s.tokens core q).getD (tokenIndex qs k n j) 0
  | none => 0

/-- Remove the tokens of the lanes that complete; `stay j` says that wanting lane number j removes none (R73). -/
def State.takeTokens (s : State) (core : Nat) (pops : List (Nat × Nat)) (n : Nat) (stay : Nat → Bool) : State :=
  pops.foldl (fun t x => t.updTokens core x.1 fun ts =>
    (ts.take x.2).zipIdx.filterMap (fun e => if stay (e.2 % n) then some e.1 else none) ++ ts.drop x.2) s

/-! ## Lanes -/

/-- The lanes of an instruction with their operands; wanting lanes are numbered for their tokens, helpers read zero from a
queue (R156). -/
def State.buildLanes (s : State) (core : Nat) (g : Sig) (f : Fields) (n : Nat) : List Member → Nat → List Lane
  | [], _ => []
  | m :: ms, j =>
    let a := s.agent m.agent
    let qs := g.sourceQueues f
    let tok (k : Nat) : DWord := if m.want then s.tokenFor core qs k n j else 0
    { agent := m.agent, lane := a.lane, want := m.want,
      a := s.operand a g.a f.sa f.ma g.ctlA (tok 0),
      b := s.operandB a g f (tok 1),
      c := s.operand a g.c (g.fieldC f) f.mc g.ctlC (tok 2) } ::
      s.buildLanes core g f n ms (if m.want then j + 1 else j)

/-- Write the results of an instruction to an agent: each result in order enters b0 and its destination; flags of a
wanting thread accumulate (R20, R24, R84, R156). -/
def commitAgent (want : Bool) (ws : List (BitVec 10 × Res × QWord)) (flags : Flags) (a : Agent) : Agent :=
  let born := a.issued + 1
  let b := ws.foldl (fun (x : Agent) w => (x.writeDst w.1 w.2.1 w.2.2).shiftLatch (resultLatch x w.2.1 w.2.2 born)) a
  { b with issued := born, fpstat := if want && !a.drover then accumFlags a.fpstat flags else a.fpstat }

/-- The width of a lane's result. -/
def Sig.resOf (g : Sig) (r : LaneRes) : Res := if r.wide then .w64 else g.dst

/-- The results of one instruction of a Sig. -/
def Sig.writes (g : Sig) (f : Fields) (r : LaneRes) : List (BitVec 10 × Res × QWord) :=
  if g.dst = .none then [] else [(f.dst, g.resOf r, r.val)]

/-- Push the results of the wanting lanes, in ascending lane order; a push is a release at sc1 (R288, R290). -/
def State.pushResults (s : State) (core : Nat) (g : Sig) (f : Fields) (rs : List (Lane × LaneRes)) : State :=
  match g.dst, queueField f.dst with
  | .none, _ => s
  | _, none => s
  | _, some q =>
    rs.foldl (fun t x =>
      if x.1.want && !x.2.late then
        (t.release0 x.1.agent).updTokens core q fun ts => ts ++ [BitVec.ofNat 64 (extendResult (t.agent x.1.agent).drover (g.resOf x.2) x.2.val)]
      else t) s

/-- Go on after the lanes that completed: nothing while one of them waits inside the instruction; else the instruction's
own way out of the block, or the next instruction. -/
def State.goOn (s : State) (ci size : Nat) (outs : Option (List (Nat × Leave))) : State :=
  let c := s.caravan ci
  if c.members.isEmpty then s
  else if c.members.any fun m => (s.agent m.agent).wait ≠ .ready then s
  else match outs with
    | some ls => s.leaveBlock ci ls
    | none => s.advance ci size

/-- An agent's wait inside an instruction ends: it is ready, and the caravan goes on once all its members are. -/
def State.endWait (s : State) (i : Nat) : State :=
  let s1 := s.updAgent i fun a => { a with wait := .ready }
  match (s1.agent i).stand with
  | .caravan ci => s1.goOn ci (sizeOfParcels (s1.fetch ci)) none
  | _ => s1

/-- A waiting agent takes a fault at its instruction, of which nothing has been written to the agent. -/
def State.failWait (s : State) (i : Nat) (t : Trap) : State :=
  let s1 := s.updAgent i fun a => { a with wait := .ready, issued := a.issued - 1 }
  match (s1.agent i).stand with
  | .caravan ci =>
    let size := sizeOfParcels (s1.fetch ci)
    (s1.raise ci (s1.caravan ci) size [(i, t)]).goOn ci size none
  | _ => s1

/-- A waiting instruction that is issued again starts from no wait. -/
def State.clearWait (s : State) (c : Caravan) : State :=
  c.members.foldl (fun t m => t.updAgent m.agent fun a => match a.wait with | .queue _ _ _ => { a with wait := .ready } | _ => a) s

/-- The faults of a list of wanting members under a check; a uniform instruction checks the lowest lane for all (R160). -/
def faultsOf (uniform : Bool) (ms : List Nat) (chk : Nat → Option Trap) : List (Nat × Trap) :=
  if uniform then
    match ms.head?.bind chk with
    | some t => ms.map fun i => (i, t)
    | none => []
  else ms.filterMap fun i => (chk i).map fun t => (i, t)

/-- The first fault of R87, or of the opcode's early check, in an agent. -/
def Job.firstFault (j : Job) (s : State) (c : Caravan) (f : Fields) (i : Nat) : Option Trap :=
  match s.staticFault c (s.agent i) j.sig f with
  | some t => some t
  | none => j.early s i

/-- The faults of the opcode's own checks, by wanting lane. -/
def Job.laneFaults (j : Job) (s : State) (lanes : List Lane) : List (Nat × Trap) :=
  match j.checkAll s (lanes.filter (·.want)) with
  | some t => (lanes.filter (·.want)).map fun l => (l.agent, t)
  | none => faultsOf j.uniform ((lanes.filter (·.want)).map (·.agent)) fun i =>
      j.check s ((lanes.find? fun l => l.agent = i).getD default)

/-- The result a lane gets; none where it takes no part in a uniform instruction. -/
def Job.resultFor (j : Job) (rs : List (Lane × LaneRes)) (l : Lane) : Option LaneRes :=
  match rs.find? fun x => x.1.agent = l.agent with
  | some x => some x.2
  | none => if j.uniform then none else some {}

/-- An agent after the instruction gave its lane that result. -/
def Job.commit (j : Job) (f : Fields) (l : Lane) (r : Option LaneRes) (a : Agent) : Agent :=
  match r with
  | some r => commitAgent l.want (if j.late || r.late then [] else j.sig.writes f r) r.flags a
  | none => { a with issued := a.issued + 1 }

/-- The lanes whose work has passed every check: their results, tokens and pushes. A lane that pops makes an acquire
(R290). -/
def Job.complete (j : Job) (f : Fields) (c : Caravan) (n : Nat) (pops : List (Nat × Nat)) (lanes : List Lane) (out : List Nat)
    (s : State) : State × List (Lane × LaneRes) :=
  let live := lanes.filter fun l => !out.contains l.agent
  -- a helper that would fault does nothing and gets zero (R156)
  let good := live.filter fun l =>
    l.want || (!j.uniform && (j.firstFault s c f l.agent).isNone && (j.check s l).isNone)
  let s0 := if pops.isEmpty then s else (good.filter (·.want)).foldl (fun t l => t.emptyAdv l.agent) s
  let (s1, rs) :=
    if j.uniform then
      let r := j.perform s0 (good.take 1)
      (r.1, good.map fun l => (l, r.2.headD {}))
    else
      let r := j.perform s0 good
      (r.1, good.zip r.2)
  let wantNos := (lanes.filter (·.want)).map (·.agent)
  let s2 := s1.takeTokens c.core pops n fun i => out.contains (wantNos.getD i 0)
  let s3 := live.foldl (fun t l => t.updAgent l.agent (j.commit f l (j.resultFor rs l))) s2
  (if j.late then s3 else s3.pushResults c.core j.sig f rs, rs)

/-- The issue of a job by caravan `ci`. It waits for tokens and for room before the checks of its own chapter (DESIGN
CHOICE, assumption 53, for room: no rule places that wait). -/
def Job.run (j : Job) (f : Fields) (ci : Nat) (s00 : State) : State :=
  let c := s00.caravan ci
  let s := (s00.begin ci).clearWait c
  let ms := s.laneMembers c
  let wants := (ms.filter (·.want)).map (·.agent)
  let faults1 := faultsOf j.uniform wants (j.firstFault s c f)
  let bad1 := faults1.map (·.1)
  let out1 := bad1 ++ s.quadMates c bad1
  let ms1 := ms.filter fun m => !out1.contains m.agent
  let n := (ms1.filter (·.want)).length
  let lead := s.agent ((ms1.headD ⟨0, false⟩).agent)
  let pops := j.sig.pops f n
  let waits := pops ++ j.waits s lead
  let pushes := j.sig.pushes f n
  if n = 0 then s.raise ci c f.size faults1
  else if !s.queuesReady lead waits pushes then
    (ms1.foldl (fun t m => t.updAgent m.agent fun a => { a with wait := .queue waits pushes (j.heads lead) }) s).raise ci c f.size faults1
  else if j.idle && !s.engineIdle lead then
    (ms1.foldl (fun t m => t.updAgent m.agent fun a => { a with wait := .queue [] [] [] }) s).raise ci c f.size faults1
  else
    let lanes := s.buildLanes c.core j.sig f n ms1 0
    let faults2 := j.laneFaults s lanes
    let bad2 := faults2.map (·.1)
    let out2 := bad2 ++ s.quadMates c bad2
    let (s1, rs) := j.complete f c n pops lanes out2 s
    let outs := j.leave.map fun lv => (rs.filter fun x => x.1.want).map fun x => (x.1.agent, lv s1 c x.1 x.2)
    let s2 := s1.raise ci c f.size (faults1 ++ faults2)
    match j.finish with
    | some fin => fin s2 ci (rs.map (·.1))
    | none => s2.goOn ci f.size outs

/-- Issue a job: only a caravan that has the issue executes. -/
def Job.issue (j : Job) (f : Fields) (s : State) : Out :=
  match s.focus with
  | none => .fault .noIssuer
  | some ci => .next (j.run f ci s)

/-- Every wanting lane of a caravan raises ILLEGAL_INSTRUCTION: what cannot be decoded (R64, R88). -/
def State.illegal (s : State) (ci size : Nat) : State :=
  let c := s.caravan ci
  (s.begin ci).raise ci c size
    (((s.laneMembers c).filter (·.want)).map fun m => (m.agent, { code := .illegalInstruction }))

/-! ## Jobs of the common shapes -/

/-- A function of each lane's operands. -/
def pureJob (g : Sig) (fn : Lane → LaneRes) : Job := { sig := g, perform := fun s ls => (s, ls.map fn) }

/-- A function of the operand values alone, with flags. -/
def aluJob (g : Sig) (fn : QWord → QWord → QWord → LaneRes) : Job := pureJob g fun l => fn l.a l.b l.c

/-- The same without flags, on numbers. -/
def natJob (g : Sig) (fn : Nat → Nat → Nat → Nat) : Job :=
  aluJob g fun a b c => { val := BitVec.ofNat 128 (fn a.toNat b.toNat c.toNat) }

/-- The agent that issues is a drover (R89, R96). -/
def State.focusDrover (s : State) : Bool :=
  match s.focus with
  | some ci => match (s.caravan ci).members with
    | m :: _ => (s.agent m.agent).drover
    | [] => false
  | none => false

/-- A control transfer: no work, and a way out of the block. -/
def leaveJob (g : Sig) (lv : State → Caravan → Lane → LaneRes → Leave) (fn : Caravan → Lane → LaneRes := fun _ _ => {}) : Job :=
  { sig := g, perform := fun s ls => (s, ls.map fun l => fn (s.caravan (s.focus.getD 0)) l), leave := some lv }

/-- Work of one lane after another on the state. -/
def eachLane (fn : State → Lane → State × LaneRes) (s : State) (ls : List Lane) : State × List LaneRes :=
  ls.foldl (fun (acc : State × List LaneRes) l => let r := fn acc.1 l; (r.1, acc.2 ++ [r.2])) (s, [])

end Sys2Proof.Machine
end

