-- ==== Sys2Proof/Machine/Private.lean ====
section
/-! DEFINITION. Loads and stores in the t: and k: spaces (R34-R36, R111-R115). -/

namespace Sys2Proof

def LoadTy.bytes : LoadTy → Nat
  | .s8 | .n8 => 1
  | .s16 | .n16 => 2
  | .b32 => 4
  | .b64 => 8
  | .b128 => 16

def LoadTy.res : LoadTy → Machine.Res
  | .b64 => .w64
  | .b128 => .w128
  | _ => .w32

/-- The loaded value as the destination holds it: .s8 and .s16 sign-extended to 32 bits (R113). -/
def LoadTy.extend (ty : LoadTy) (v : Nat) : Nat :=
  match ty with
  | .s8 => Machine.wrapTo 32 (Machine.toSigned 8 v)
  | .s16 => Machine.wrapTo 32 (Machine.toSigned 16 v)
  | _ => v

def StoreTy.bytes : StoreTy → Nat
  | .b8 => 1
  | .b16 => 2
  | .b32 => 4
  | .b64 => 8
  | .b128 => 16

/-- The position of the store data (R114). -/
def StoreTy.pos : StoreTy → Machine.Pos
  | .b64 => .b64
  | .b128 => .b128
  | _ => .b32

def PrivSpace.info : PrivSpace → Word
  | .t => 0
  | .k => 1

end Sys2Proof

namespace Sys2Proof.Machine

/-- The exact offset of an access (R112). -/
def privOffset (l : Lane) : Int := l.a.toNat % 2 ^ 32 + toSigned 32 l.b.toNat

/-- TILE_SIZE or SPILL_SIZE of an agent's launch (R34). -/
def State.spaceSize (s : State) (a : Agent) : PrivSpace → Nat
  | .t => (s.launch a.launch).tileSize
  | .k => (s.launch a.launch).spillSize

/-- The bound and alignment checks, TILE_BOUND first (R112). -/
def privFault (sp : PrivSpace) (size limit : Nat) (off : Int) : Option Trap :=
  let addr := BitVec.ofInt 64 off
  if off < 0 ∨ off + size > limit then some { code := .tileBound, info := sp.info, addr := addr }
  else if off % size ≠ 0 then some { code := .alignment, info := sp.info, addr := addr }
  else none

def privCheck (sp : PrivSpace) (size : Nat) (s : State) (l : Lane) : Option Trap :=
  privFault sp size (s.spaceSize (s.agent l.agent) sp) (privOffset l)

/-- Read `n` bytes of an agent's space, meeting the errors there. -/
def State.readPriv (s : State) (ai : Nat) (sp : PrivSpace) (off n : Nat) : State × List Byte :=
  let a := s.agent ai
  match sp with
  | .t =>
    let s1 := s.meetTile (some a.ctx) a.block a.pos off n
    (s1, s1.readTile a.block a.pos off n)
  | .k =>
    let s1 := s.meetSpill (some a.ctx) ai off n
    (s1, readBytes (s1.agent ai).spill off n)

/-- Write bytes of an agent's space. -/
def State.writePriv (s : State) (ai : Nat) (sp : PrivSpace) (off : Nat) (bs : List Byte) : State :=
  match sp with
  | .t => s.writeTile (s.agent ai).block (s.agent ai).pos off bs
  | .k => s.writeSpill ai off bs

def loadPrivLane (sp : PrivSpace) (ty : LoadTy) (s : State) (l : Lane) : State × LaneRes :=
  let (s1, bs) := s.readPriv l.agent sp (privOffset l).toNat ty.bytes
  (s1, { val := BitVec.ofNat 128 (ty.extend (leNat bs)) })

def storePrivLane (sp : PrivSpace) (ty : StoreTy) (s : State) (l : Lane) : State × LaneRes :=
  if l.want then (s.writePriv l.agent sp (privOffset l).toNat (leBytes ty.bytes l.c.toNat), {}) else (s, {})

/-- ld in t: or k: (R111-R113). -/
def execLdPrivate (sp : PrivSpace) (ty : LoadTy) (o : Operands) (s : State) : Out :=
  ({ sig := { dst := ty.res, a := .b32, b := .b32 }
     check := privCheck sp ty.bytes
     perform := eachLane (loadPrivLane sp ty) } : Job).issue o.fields s

/-- st in t: or k:; the highest lane that writes a byte wins (R111-R115). -/
def execStPrivate (sp : PrivSpace) (ty : StoreTy) (o : Operands) (s : State) : Out :=
  ({ sig := { a := .b32, b := .b32, c := ty.pos }
     check := privCheck sp ty.bytes
     perform := eachLane (storePrivLane sp ty) } : Job).issue o.fields s

end Sys2Proof.Machine
end

