-- ==== Sys2Proof/Machine/Translate.lean ====
section
/-! DEFINITION. Address translation (R195-R202), the checks of an access (R198-R199), physical reads and writes of
translated bytes, and the scopes an instruction captures (R240-R246). -/

namespace Sys2Proof.Machine

/-! ## Kinds of access (R198 Table 5) -/

/-- What an access needs, and which later checks apply to it. -/
structure Access where
  rd : Bool := false
  wr : Bool := false
  amo : Bool := false
  /-- Only the scratchpad is reachable (R194). -/
  near : Bool := false
  /-- The compressed side of cvy.cmpr and cvy.dcmp, and a tile save or reload: CMP must be set (R198 step 3). -/
  compressed : Bool := false
deriving DecidableEq, Repr, Inhabited

def accLoad : Access := { rd := true, near := true }
def accStore : Access := { wr := true, near := true }
def accObar : Access := { rd := true, wr := true, near := true }
def accAtom : Access := { rd := true, wr := true, amo := true }
def accRed : Access := { wr := true, amo := true }
def accRead : Access := { rd := true }
def accWrite : Access := { wr := true }

/-! ## The walk (R195-R197, R423) -/

/-- The index of a level in a VA. -/
def walkIndex (va lv : Nat) : Nat := bitsAt va (12 + 9 * lv) 9

/-- No reserved bit of an entry of TYPE 01 or 10 is set (R196 Table 4). -/
def pteClean (e : Nat) : Bool :=
  if bitsAt e 0 2 = 1 then bitsAt e 2 10 = 0 && bitsAt e 52 12 = 0
  else bitsAt e 56 8 = 0 && bitsAt e 54 2 ≠ 3 && bitsAt e 52 1 = 0 && bitsAt e 9 3 = 0 && bitsAt e 5 3 = 0

/-- The fabric refused this device's ports: it runs as a lone device (R422). -/
def State.lone (s : State) : Bool := s.mgmt.ports.any fun p => p = LinkState.refused

/-- A page frame of `size` bytes lies wholly in one populated range, and in scratchpad granted to the context
(R189, R192, R197, R423). -/
def State.frameOk (s : State) (ctx frame size : Nat) : Bool :=
  let c := s.ctx ctx
  let inMain (p : Nat) : Bool :=
    (decide (p < 0x8000000000) && decide (p % hbmWindow + size ≤ hbmBytes)) ||
      (decide (lpddrBase ≤ p) && decide (p + size ≤ 2 * lpddrBase))
  let here (p : Nat) : Bool :=
    if scratchBase ≤ p ∧ p < scratchBase + 4 * scratchWindow then
      let d := (p - scratchBase) / scratchWindow
      let o := (p - scratchBase) % scratchWindow
      let u := o / scratchUnit
      decide (o % scratchUnit + size ≤ scratchUnit) && decide (u < s.carve.getD d 0) && ((c.grants.getD d 0).toNat.testBit u)
    else inMain p
  if peerBase ≤ frame then
    let n := (frame - peerBase) / peerWindow
    if n = s.mgmt.devnum then here ((frame - peerBase) % peerWindow)
    else !s.lone && decide (n < 1024) && c.podMask.toNat.testBit n && inMain ((frame - peerBase) % peerWindow)
  else here frame

/-- What a leaf entry at a level translates the VA to: the page's size, and the translation of its first byte. -/
def State.leafOf (s : State) (ctx va lv e : Nat) : Option (Nat × Translation) :=
  let size0 := if lv = 2 then 0x40000000 else if lv = 1 then 0x200000 else 0x1000
  let cont := bitAt e 8
  let frame0 := bitsAt e 12 40 * 4096
  if lv ≥ 3 ∨ frame0 % size0 ≠ 0 then none
  else if cont ∧ (lv ≠ 0 ∨ bitsAt va 12 4 ≠ bitsAt frame0 12 4) then none
  else
    let size := if cont then 0x10000 else size0
    let frame := if cont then frame0 / 0x10000 * 0x10000 else frame0
    if s.frameOk ctx frame size then
      some (size, { pa := s.localPa frame, ord := bitsAt e 54 2, cmp := bitAt e 53, amo := bitAt e 4, wr := bitAt e 3, rd := bitAt e 2 })
    else none

/-- A next-level table lies in local HBM4 or LPDDR, which the own device's peer window names too (R189, R197). -/
def State.tableOk (s : State) (t : Nat) : Bool := (s.region t).isMain

/-- The walk from level `lv` at table `t`; none is TRANSLATION (R197). It reads every level at one moment, errors and pending
reductions included (R208, R225), and of each entry the newest value performed (DESIGN CHOICE, assumption 54: R201 also allows an older one until a tfence). -/
def State.walkAt (s : State) (ctx va : Nat) : Nat → Nat → Option (Nat × Translation)
  | lv, t =>
    let e := (s.meetPa (some ctx) (t + 8 * walkIndex va lv) 8).peekNat (t + 8 * walkIndex va lv) 8
    if bitsAt e 0 2 = 0 ∨ bitsAt e 0 2 = 3 ∨ !pteClean e then none
    else if bitsAt e 0 2 = 1 then
      match lv with
      | 0 => none
      | n + 1 => if s.tableOk (bitsAt e 12 40 * 4096) then s.walkAt ctx va n (bitsAt e 12 40 * 4096) else none
    else s.leafOf ctx va lv e

/-- The page of a block's die-scratchpad segment that holds `va`: RC, with read, write and atomic permission, in granted
units (R193). -/
def State.segmentPage (s : State) (ctx va : Nat) : Option (Nat × Translation) :=
  s.blocks.findSome? fun k =>
    let o := va - k.scratchVa.toNat
    if k.ctx = ctx && k.state ≠ .retired && decide (k.scratchVa.toNat ≤ va) && decide (o / 4096 < k.scratchPages.length) then
      some (4096, { pa := k.scratchPages.getD (o / 4096) 0, ord := 0, cmp := false, amo := true, wr := true, rd := true })
    else none

/-- A whole walk (R195, R197). -/
def State.walk (s : State) (ctx va : Nat) : Option (Nat × Translation) :=
  if va ≥ 2 ^ 48 ∨ !(s.ctx ctx).live then none
  else match s.segmentPage ctx va with
    | some (n, t) => if s.frameOk ctx t.pa n then some (n, t) else none
    | none => s.walkAt ctx va 3 (s.ctx ctx).ptRoot

/-! ## Translations held (R200) -/

/-- The TLB of a die stands behind the cores' under the numbers 64-67. -/
def dieTlb (core : Nat) : Nat := 64 + dieOfCore core

/-- The entry that a core's TLB, or its die's, holds for the byte at `va`. -/
def State.heldFor (s : State) (ctx core va : Nat) : Option TlbEntry :=
  s.tlb.find? fun e =>
    e.ctx = ctx && (e.core = core || e.core = dieTlb core) && decide (e.base ≤ va) && decide (va < e.base + e.size)

/-- The translation of the byte at `va` for an agent or engine of a core: one that is held, or a walk. -/
def State.lookup (s : State) (ctx core va : Nat) : Option Translation :=
  match s.heldFor ctx core va with
  | some e => some { e.tr with pa := e.tr.pa + (va - e.base) }
  | none => (s.walk ctx va).map fun (size, t) => { t with pa := t.pa + va % size }

/-! ## Checks of an access (R198, R199) -/

/-- A fault of an access: its code, and the VA of the first byte of the faulting part, in the upper page or not. -/
structure AccessFault where
  code : FaultCode
  va : Nat
  upper : Bool
deriving DecidableEq, Repr, Inhabited

/-- Bytes of an access that lie in one page; `fresh` says that no TLB held the page, so that a walk found it. -/
structure Piece where
  va : Nat
  pa : Nat
  len : Nat
  ord : Nat
  fresh : Bool := false
deriving DecidableEq, Repr, Inhabited

/-- Steps 2-4 of R198 for a translated page. -/
def State.checkPage (s : State) (acc : Access) (t : Translation) : Option FaultCode :=
  if (acc.rd && !t.rd) || (acc.wr && !t.wr) || (acc.amo && !t.amo) then some .permission
  else if t.cmp ≠ acc.compressed then some .compressedAccess
  else if acc.near && !(s.region t.pa).isScratch then some .farAccess
  else none

/-- The bytes va .. va + n - 1 cut at 4 KiB boundaries (a larger page gives every part the same answer). -/
def pageParts (va n : Nat) : List (Nat × Nat) :=
  if n = 0 then []
  else
    let first := va / 4096
    let last := (va + n - 1) / 4096
    (List.range (last - first + 1)).map fun i =>
      let lo := max va ((first + i) * 4096)
      let hi := min (va + n) ((first + i + 1) * 4096)
      (lo, hi - lo)

/-- Translate and check an access page by page, the lower page first (R198, R199). -/
def State.access (s : State) (ctx core : Nat) (acc : Access) (va n : Nat) : Except AccessFault (List Piece) :=
  (pageParts va n).foldr (fun x rest =>
    let bad (c : FaultCode) : Except AccessFault (List Piece) := .error ⟨c, x.1, decide (x.1 ≠ va)⟩
    if x.1 ≥ 2 ^ 48 then bad .translation
    else match s.lookup ctx core x.1 with
      | none => bad .translation
      | some t => match s.checkPage acc t with
        | some c => bad c
        | none => rest.map fun ps => ⟨x.1, t.pa, x.2, t.ord, (s.heldFor ctx core x.1).isNone⟩ :: ps) (.ok [])

/-- Bits 0 and 1 of TF_INFO: the access writes, it is a read-modify-write (R379 Table 3). -/
def Access.bits (acc : Access) : Nat := (if acc.wr then 1 else 0) + (if acc.amo then 2 else 0)

/-- An access fault as the thread that raises it records it (R379 Table 3). -/
def AccessFault.trap (f : AccessFault) (bits : Nat) : Trap :=
  { code := f.code
    info := BitVec.ofNat 32 (bits + (if f.upper then 4 else 0))
    addr := BitVec.ofNat 64 f.va }

/-! ## Reading and writing translated bytes -/

/-- Errors that the reads of a walk meet (R201, R208). -/
def State.meetWalk (s : State) (ctx va : Nat) : Nat → Nat → State
  | lv, t =>
    let s1 := s.meetPa (some ctx) (t + 8 * walkIndex va lv) 8
    let e := s1.peekNat (t + 8 * walkIndex va lv) 8
    match lv with
    | 0 => s1
    | n + 1 =>
      if bitsAt e 0 2 = 1 && pteClean e && s1.tableOk (bitsAt e 12 40 * 4096) then s1.meetWalk ctx va n (bitsAt e 12 40 * 4096) else s1

/-- Errors that the walks of an access meet: of the pages that no TLB held (R201, R208). -/
def State.walked (s : State) (ctx : Nat) (ps : List Piece) : State :=
  if s.latent.isEmpty then s
  else (ps.filter (·.fresh)).foldl (fun t p =>
    if (t.segmentPage ctx p.va).isSome then t else t.meetWalk ctx p.va 3 (t.ctx ctx).ptRoot) s

/-- A PA lies in another device's memory (R189, R424). -/
def State.isPeer (s : State) (pa : Nat) : Bool := match s.region pa with | .peer _ => true | _ => false

/-- Some port has joined a fabric, which has not refused the device (R421, R422). -/
def State.fabricUp (s : State) : Bool := !s.lone && s.mgmt.ports.any fun p => p = LinkState.joined

/-- Drop a remote request: DROPCNT rises by one and a DATA_DROP event names the peer PA (R425). -/
def State.dropRemote (s : State) (ctx pa : Nat) : State :=
  let s1 := s.updCtx ctx fun c => { c with dropcnt := satInc c.dropcnt }
  (s1.postEvent evDataDrop ctx 0xFFFF (BitVec.ofNat 64 pa) 0).2

/-- A read of a peer's sector is dropped: without a fabric always, else as the peer and its links stand (R425). -/
def State.peerLost (s : State) (n sec : Nat) : Bool := !s.fabricUp || Config.peerLost n sec

/-- Bytes of one page, on behalf of a context. A peer's bytes are free values; a dropped sector reads zero (R425). -/
def State.readPiece (s : State) (ctx : Nat) (p : Piece) : State × List Byte :=
  if s.isPeer p.pa then
    let (n, s1) := s.draw
    (((sectorsOf p.pa p.len).filter (s.peerLost n)).foldl (fun t sec => t.dropRemote ctx sec) s1,
      (List.range p.len).map fun i => if s.peerLost n ((p.pa + i) / 32 * 32) then 0 else Config.peerByte n i)
  else
    let s1 := s.meetPa (some ctx) p.pa p.len
    (s1, s1.peekBytes p.pa p.len)

def State.readPieces (s : State) (ctx : Nat) (ps : List Piece) : State × List Byte :=
  ps.foldl (fun acc p => let r := acc.1.readPiece ctx p; (r.1, acc.2 ++ r.2)) (s, [])

/-- The cycle count of a core; the hub's is the furthest of all. -/
def State.clockOf (s : State) (core : Nat) : Nat :=
  if core < Config.nCores then (s.core core).cycle.toNat else s.cores.foldl (fun m c => max m c.cycle.toNat) 0

/-- A request to a peer's home slice, unacknowledged until its answer or its drop (R424, R425). -/
def State.sendRemote (s : State) (ctx core pa : Nat) (waiter : Option Nat) (op : Option Nat := none) : State :=
  let (n, s1) := s.draw
  { s1 with remotes := s1.remotes ++ [⟨ctx, core, pa, n, s.clockOf core, waiter, op⟩] }

/-- An operation has requests to peers that are not acknowledged. -/
def State.opRemotes (s : State) (op : Nat) : Bool := s.remotes.any fun r => r.op = some op

/-- Write bytes of one page; a peer's bytes are the peer's state. -/
def State.writePiece (s : State) (ctx core : Nat) (p : Piece) (bs : List Byte) (op : Option Nat := none) : State :=
  if s.isPeer p.pa then s.sendRemote ctx core p.pa none op else s.writePa ctx p.pa bs

/-- Write bytes to the pages of an access, in ascending order. -/
def State.writePieces (s : State) (ctx core : Nat) (ps : List Piece) (bs : List Byte) (op : Option Nat := none) : State :=
  match ps with
  | [] => s
  | p :: rest => (s.writePiece ctx core p (bs.take p.len) op).writePieces ctx core rest (bs.drop p.len) op

/-- The cells of a write. -/
def pieceCells : List Piece → List Byte → List Host.Cell
  | [], _ => []
  | p :: ps, bs => ((bs.take p.len).zipIdx.map fun x => (p.pa + x.2, x.1)) ++ pieceCells ps (bs.drop p.len)

/-- An engine's read through an entry: it may merge at each slice (R203). -/
def State.readMerged (s : State) (ctx : Nat) (ps : List Piece) : State × List Byte :=
  (ps.foldl (fun t p => t.openMerges p.pa p.len) s).readPieces ctx ps

/-- A checked read of `n` bytes at `va`, by the Dispatcher or an engine. -/
def State.engineRead (s : State) (ctx core : Nat) (acc : Access) (va n : Nat) : Except AccessFault (State × List Byte) :=
  (s.access ctx core acc va n).map fun ps => (s.walked ctx ps).readPieces ctx ps

/-- An engine's checked read through a manifest: it may merge (R203). -/
def State.operandRead (s : State) (ctx core : Nat) (va n : Nat) : Except AccessFault (State × List Byte) :=
  (s.access ctx core accRead va n).map fun ps => (s.walked ctx ps).readMerged ctx ps

/-- An engine's checked write. -/
def State.engineWrite (s : State) (ctx core : Nat) (acc : Access) (va : Nat) (bs : List Byte)
    (op : Option Nat := none) : Except AccessFault State :=
  (s.access ctx core acc va bs.length).map fun ps => (s.walked ctx ps).writePieces ctx core ps bs op

/-! ## Scopes (R240-R246) -/

/-- A location of this device lies in a scope when its home slice does; a peer's when its device does (R242). The accesses
that a scope orders here are those still pending; t: and k: accesses are performed as they issue. -/
def State.inScope (s : State) (sc : Scope) (pa0 : Nat) : Bool :=
  let pa := s.localPa pa0
  if peerBase ≤ pa then sc.peers.toNat.testBit ((pa - peerBase) / peerWindow) else sc.slices.toNat.testBit (homeSlice pa)

/-- A release at a captured scope (R234). -/
def State.releaseAt (s : State) (i : Nat) (sc : Scope) : State := s.releaseWhere i (s.inScope sc)

/-- The mask of cores of a list. -/
def coreMask (cs : List Nat) : BitVec 64 := cs.foldl (fun m c => m ||| (1#64 <<< c)) 0

/-- Every core of a device, every slice of it. -/
def allSlices : BitVec 64 := BitVec.allOnes 64

/-- The device mask of the own device. -/
def State.ownMask (s : State) : BitVec 1024 := 1#1024 <<< s.mgmt.devnum

/-- A programmable entry of a context's scope table. -/
def Context.scopeEntry (c : Context) (i : Nat) : ScopeEntry := (assocGet c.scopes i).getD {}

/-- An entry resolved for an agent on `core` whose block has the core list `cores` (R241, R242). -/
def State.resolveScope (s : State) (ctx core : Nat) (cores : List Nat) (i : Nat) : Scope :=
  let own := s.ownMask
  let fixed (cs : BitVec 64) : Scope := { index := i, cores := cs, slices := allSlices, peers := own }
  let die := dieOfCore core
  match i with
  | 0 => fixed (1#64 <<< core)
  | 1 => fixed (1#64 <<< core)
  | 2 => fixed (0xF#64 <<< (core / 4 * 4))
  | 3 => fixed (0xFFFF#64 <<< (16 * die))
  | 4 => fixed (BitVec.allOnes 64)
  | 5 => { fixed (BitVec.allOnes 64) with peers := (s.ctx ctx).podMask }
  | 6 => { fixed (BitVec.allOnes 64) with peers := (s.ctx ctx).podMask, host := true }
  | _ =>
    let e := (s.ctx ctx).scopeEntry i
    { index := i, gen := e.gen, rel := e.rel, host := e.host, peers := e.peers
      cores := if e.rel then coreMask ((List.range 4).filterMap fun k => if e.cores.toNat.testBit k then cores[k]? else none) else e.cores
      slices := if e.rel then (e.slices &&& 0xFFFF#64) <<< (16 * die) else e.slices }

/-- A scope fault: TF_INFO is the scope index (R379 Table 3). -/
def scopeTrap (code : FaultCode) (i : Nat) : Trap := { code := code, info := BitVec.ofNat 32 i }

/-- Capture scope `i` at issue: STALE_SCOPE, then SCOPE_MEMBERSHIP (R211, R246). -/
def State.captureScope (s : State) (ctx core : Nat) (cores : List Nat) (i : Nat) : Except Trap Scope :=
  let sc := s.resolveScope ctx core cores i
  if i ≥ 8 ∧ !((s.ctx ctx).scopeEntry i).valid then .error (scopeTrap .staleScope i)
  else if !(sc.cores.toNat.testBit core) then .error (scopeTrap .scopeMembership i)
  else .ok sc

/-- The core list an agent resolves a relative entry by: a drover's is its own core (R242). -/
def State.coreList (s : State) (a : Agent) : List Nat :=
  if a.drover then [s.coreOf a] else (s.block a.block).shares.map (·.core)

/-- The scope an instruction of an agent names. -/
def State.agentScope (s : State) (a : Agent) (i : Nat) : Except Trap Scope :=
  s.captureScope a.ctx (s.coreOf a) (s.coreList a) i

/-- The fault of an agent's scope operand: sc7 is ILLEGAL_OPERAND naming the field (R211). -/
def State.scopeFault (s : State) (a : Agent) (i field : Nat) : Option Trap :=
  if i = 7 then some (badField field)
  else match s.agentScope a i with
    | .error t => some t
    | .ok _ => none

/-! ## A miss runs a walk (R197, R200, R202) -/

/-- A TLB takes an entry; a full one gives up one of its own, which one the manual leaves open (R202). -/
def State.holdTlb (s : State) (e : TlbEntry) (size : Nat) : State :=
  let own := s.tlb.filter fun x => x.core = e.core
  if own.length < size then { s with tlb := e :: s.tlb }
  else
    let (n, s1) := s.draw
    let gone := own.getD (Config.choice n % own.length) e
    { s1 with tlb := e :: s1.tlb.erase gone }

/-- PAGE_WALK: the walk's complete result is held by the core's TLB and its die's; nothing is held of a walk that faults,
and nothing is walked for a page that is held. -/
def execPageWalk (ctx core : Nat) (va : DWord) (s : State) : Out :=
  let v := va.toNat
  if (s.heldFor ctx core v).isSome || decide (core ≥ Config.nCores) || !(s.ctx ctx).live then .next s
  else
    let s1 := s.meetWalk ctx v 3 (s.ctx ctx).ptRoot
    match s1.walk ctx v with
    | none => .next s1
    | some (size, t) =>
      let e : TlbEntry := { ctx := ctx, core := core, base := v / size * size, size := size, tr := t }
      .next ((s1.holdTlb e Config.tlbPerCore).holdTlb { e with core := dieTlb core } Config.tlbPerDie)

end Sys2Proof.Machine
end

