-- ==== Sys2Proof/Machine/VMem.lean ====
section
/-! DEFINITION. Loads and stores in the v: space (R209-R216), advance loads (R217-R219), acknowledgements (R181, R213). -/

namespace Sys2Proof

def WideTy.res : WideTy → Machine.Res
  | .b32 => .w32
  | .b64 => .w64
  | .b128 => .w128

def WideTy.pos : WideTy → Machine.Pos
  | .b32 => .b32
  | .b64 => .b64
  | .b128 => .b128

end Sys2Proof

namespace Sys2Proof.Machine

/-! ## Addresses and checks (R210, R212) -/

/-- VA of an offset form (R210). -/
def vaOffset (l : Lane) : Nat := (l.a.setWidth 64 + (l.b.setWidth 32).signExtend 64 : DWord).toNat

/-- VA of a form without an offset. -/
def vaBase (l : Lane) : Nat := (l.a.setWidth 64 : DWord).toNat

def vMisaligned (va : Nat) : Trap := { code := .alignment, info := 2, addr := BitVec.ofNat 64 va }

/-- The pages of a lane's access. -/
def State.laneAccess (s : State) (l : Lane) (acc : Access) (va n : Nat) : Except AccessFault (List Piece) :=
  let a := s.agent l.agent
  s.access a.ctx (s.coreOf a) acc va n

def State.lanePieces (s : State) (l : Lane) (acc : Access) (va n : Nat) : List Piece :=
  match s.laneAccess l acc va n with
  | .ok ps => ps
  | .error _ => []

/-- Steps 2 and 3 of R212: alignment where it applies, then R198; `bits` are those of TF_INFO. -/
def State.vFault (s : State) (l : Lane) (acc : Access) (bits va n : Nat) (align : Bool) : Option Trap :=
  if align && decide (va % n ≠ 0) then some (vMisaligned va)
  else match s.laneAccess l acc va n with
    | .error f => some (f.trap bits)
    | .ok _ => none

/-! ## An agent's own earlier stores and advance loads -/

/-- Bytes of an access and of one that is not performed yet meet. -/
def touches (ps : List Piece) (p : PendStore) : Bool :=
  p.body.bytes.any fun c => ps.any fun q => decide (q.pa ≤ c) && decide (c < q.pa + q.len)

def anySo (ps : List Piece) : Bool := ps.any fun p => p.ord = 1

/-- Before an access of an agent: its own stores to the same bytes take effect first (R232), and its SO stores before a
later SO access (R234). -/
def State.orderOwn (s : State) (i : Nat) (ps : List Piece) : State :=
  s.performOwn i fun p => touches ps p || (anySo ps && p.ord = 1)

/-- Some bytes of an entry lie in the pieces. -/
def AdvEntry.meets (e : AdvEntry) (ps : List Piece) : Bool :=
  e.state = AdvState.valid && ps.any fun q => decide (q.pa < e.pa + e.size) && decide (e.pa < q.pa + q.len)

/-- After an access of the agent that removes no entries by rule, those it overlaps go whose bytes are older than what it has
read: a chk never goes back behind it (R219, R232). -/
def State.dropStale (s : State) (i : Nat) (ps : List Piece) : State :=
  if (s.agent i).adv.isEmpty then s
  else s.updAgent i fun a => { a with adv := a.adv.filter fun e =>
    !(e.meets ps && decide (s.peekNat e.pa e.size ≠ e.bytes.toNat)) }

/-- Remove the agent's advance-load entries whose bytes an access overlaps (R218). -/
def State.dropAdv (s : State) (i : Nat) (ps : List Piece) : State :=
  if (s.agent i).adv.isEmpty then s
  else s.updAgent i fun a => { a with adv := a.adv.filter fun e => !e.meets ps }

/-- An earlier access of the same agent must be performed before `p` (R232, R234). -/
def State.ackHeld (s : State) (p : PendStore) : Bool :=
  (s.pending.takeWhile (· ≠ p)).any fun q => q.agents.any p.agents.contains &&
    ((p.ord = 1 && q.ord = 1) || p.body.bytes.any fun c => q.body.bytes.contains c)

/-- Between two parts of an access that are not atomic together, home slices may perform any of the pending accesses. -/
def State.interleave (s : State) : State :=
  let (n, s1) := s.draw
  s1.pending.foldl (fun t p =>
    if Config.choice (n + p.seq) % 2 = 0 && t.pending.contains p && !t.ackHeld p then t.performWhere (· = p) else t) s1

/-! ## Loads -/

/-- The units of a piece: cut at 16-byte boundaries (R216). -/
def Piece.units (p : Piece) : List Piece :=
  let k := 16 - p.pa % 16
  if p.len ≤ k then [p] else [{ p with len := k }, { p with va := p.va + k, pa := p.pa + k, len := p.len - k }]

/-- Read units one after another, each at a point of its own. -/
def State.readUnits (s : State) (ctx : Nat) : List Piece → State × List Byte
  | [] => (s, [])
  | [p] => s.readPiece ctx p
  | p :: ps =>
    let (s1, bs) := s.readPiece ctx p
    let (s2, cs) := s1.interleave.readUnits ctx ps
    (s2, bs ++ cs)

/-- The bytes a lane's load reads, by the translation `s0` checked. -/
def State.vRead (s s0 : State) (l : Lane) (va n : Nat) : State × List Byte :=
  let ps := (s0.lanePieces l accLoad va n).flatMap Piece.units
  let s1 := ((s.walked (s.agent l.agent).ctx ps).orderOwn l.agent ps).dropAdv l.agent ps
  s1.readUnits (s1.agent l.agent).ctx ps

def vLoadLane (s0 : State) (va : Lane → Nat) (n : Nat) (ext : Nat → Nat) (s : State) (l : Lane) : State × LaneRes :=
  let r := s.vRead s0 l (va l) n
  (r.1, { val := BitVec.ofNat 128 (ext (leNat r.2)) })

/-- ld in v: (R213). -/
def execLdV (ty : LoadTy) (o : Operands) (s : State) : Out :=
  ({ sig := { dst := ty.res, a := .b64, b := .b32 }
     check := fun s l => s.vFault l accLoad 0 (vaOffset l) ty.bytes true
     perform := fun s => eachLane (vLoadLane s vaOffset ty.bytes ty.extend) s } : Job).issue o.fields s

/-- ld.ua: any byte address (R216). -/
def execLdUa (ty : WideTy) (o : Operands) (s : State) : Out :=
  ({ sig := { dst := ty.res, a := .b64, b := .b32 }
     check := fun s l => s.vFault l accLoad 0 (vaOffset l) ty.bytes false
     perform := fun s => eachLane (vLoadLane s vaOffset ty.bytes id) s } : Job).issue o.fields s

/-- The first fault of two checks. -/
def orElseTrap (a : Option Trap) (b : Option Trap) : Option Trap := match a with | some t => some t | none => b

/-- The scope a lane's operand names. -/
def State.laneScope (s : State) (l : Lane) (i : Nat) : Scope :=
  match s.agentScope (s.agent l.agent) i with
  | .ok sc => sc
  | .error _ => {}

/-- An access reads where an engine signalled its completion: a record, or an object it arrived at (R236, R247). -/
def State.observes (s : State) (ps : List Piece) : Bool :=
  s.signals.any fun r => ps.any fun p => decide (r.1 < p.pa + p.len) && decide (p.pa < r.1 + r.2)

/-- What follows the read of an acquire: the observation of an engine's completion is a completion point too (R234). -/
def State.acquired (s : State) (i : Nat) (seen : Bool) : State := if seen then s.completionPoint i else s.emptyAdv i

/-- ld.acq: a load, then an acquire at its scope (R214); the observation of an engine's completion is a completion point. -/
def execLdAcq (ty : WideTy) (o : Operands) (s : State) : Out :=
  ({ sig := { dst := ty.res, a := .b64, b := .scope }
     check := fun s l => orElseTrap (s.scopeFault (s.agent l.agent) l.b.toNat 2) (s.vFault l accLoad 0 (vaBase l) ty.bytes true)
     perform := fun s0 => eachLane (fun s l =>
       let seen := s.observes (s0.lanePieces l accLoad (vaBase l) ty.bytes)
       let r := vLoadLane s0 vaBase ty.bytes id s l
       (r.1.acquired l.agent seen, r.2)) s0 } : Job).issue o.fields s

/-! ## Stores -/

/-- A lane's store: its pieces, and its units, each with the ORD of its own page (R199, R216). -/
structure StorePlan where
  agent : Nat
  pieces : List Piece
  units : List (Nat × List Host.Cell)
deriving DecidableEq, Repr, Inhabited

/-- The bytes of some pieces as units. -/
def pieceUnits : List Piece → List Byte → List (Nat × List Host.Cell)
  | [], _ => []
  | p :: ps, bs => (p.ord, (bs.take p.len).zipIdx.map fun x => (p.pa + x.2, x.1)) :: pieceUnits ps (bs.drop p.len)

def State.storePlan (s : State) (va : Lane → Nat) (n : Nat) (l : Lane) : StorePlan :=
  let ps := s.lanePieces l accStore (va l) n
  ⟨l.agent, ps, pieceUnits (ps.flatMap Piece.units) (leBytes n l.c.toNat)⟩

def StorePlan.bytes (p : StorePlan) : List Nat := p.units.flatMap fun u => u.2.map (·.1)

/-- Two lanes of the instruction write one byte. -/
def plansMeet : List StorePlan → Bool
  | [] => false
  | p :: ps => ps.any (fun q => q.bytes.any fun c => p.bytes.contains c) || plansMeet ps

/-- Hand an access of some lanes to its home slice: it is performed when it is acknowledged. -/
def State.pend (s : State) (is_ : List Nat) (ord : Nat) (b : PendBody) : State :=
  let a := s.agent (is_.headD 0)
  let (n, t) := s.draw
  { t with pending := t.pending ++ [⟨is_, a.ctx, s.coreOf a, n, ord, b⟩] }

/-- Hand a store to its home slices, the lower part first. -/
def State.pendUnits (s : State) (i : Nat) (us : List (Nat × List Host.Cell)) : State :=
  us.foldl (fun t u => t.pend [i] u.1 (.store u.2)) s

/-- The stores of an instruction: at once, in ascending lane order, where two lanes write one byte (R215); else each is
performed by its acknowledgement (R181, R213). -/
def vStoreLanes (va : Lane → Nat) (n : Nat) (s : State) (ls : List Lane) : State × List LaneRes :=
  let plans := (ls.filter (·.want)).map (s.storePlan va n)
  let meet := plansMeet plans
  let s1 := plans.foldl (fun t p =>
    let t1 := (((t.walked (t.agent p.agent).ctx p.pieces).orderOwn p.agent p.pieces).dropAdv p.agent p.pieces).pendUnits p.agent p.units
    if meet then t1.performOwn p.agent (touches p.pieces) else t1) s
  (s1, ls.map fun _ => {})

/-- st in v: (R213). -/
def execStV (ty : StoreTy) (o : Operands) (s : State) : Out :=
  ({ sig := { a := .b64, b := .b32, c := ty.pos }
     check := fun s l => s.vFault l accStore 1 (vaOffset l) ty.bytes true
     perform := vStoreLanes vaOffset ty.bytes } : Job).issue o.fields s

/-- st.ua: any byte address, cut at 16-byte boundaries (R216). -/
def execStUa (ty : WideTy) (o : Operands) (s : State) : Out :=
  ({ sig := { a := .b64, b := .b32, c := ty.pos }
     check := fun s l => s.vFault l accStore 1 (vaOffset l) ty.bytes false
     perform := vStoreLanes vaOffset ty.bytes } : Job).issue o.fields s

/-- st.rel: a release at its scope, then the store (R214, R234). -/
def execStRel (ty : WideTy) (o : Operands) (s : State) : Out :=
  ({ sig := { a := .b64, b := .scope, c := ty.pos }
     check := fun s l => orElseTrap (s.scopeFault (s.agent l.agent) l.b.toNat 2) (s.vFault l accStore 1 (vaBase l) ty.bytes true)
     perform := fun s ls =>
       vStoreLanes vaBase ty.bytes ((ls.filter (·.want)).foldl (fun t l => t.releaseAt l.agent (s.laneScope l l.b.toNat)) s) ls } : Job).issue o.fields s

/-! ## Advance loads (R217-R219) -/

/-- The table after an entry under a new register index is recorded: the old one of that index or the oldest goes. -/
def recordAdv (t : List AdvEntry) (e : AdvEntry) : List AdvEntry :=
  (if t.any fun x => x.reg = e.reg then t.filter fun x => x.reg ≠ e.reg
   else if t.length ≥ 4 then t.drop 1 else t) ++ [e]

def ldAdvLane (s0 : State) (f : Fields) (n : Nat) (s : State) (l : Lane) : State × LaneRes :=
  let va := vaOffset l
  let ps := s0.lanePieces l accLoad va n
  let deferred := (s0.vFault l accLoad 0 va n true).isSome || anySo ps
  let rec_ (t : State) (e : AdvEntry) : State :=
    if l.want then t.updAgent l.agent fun a => { a with adv := recordAdv a.adv e } else t
  if deferred then (rec_ s ⟨f.dst.toNat, BitVec.ofNat 64 va, 0, n, 0, .deferred⟩, {})
  else
    let s1 := (s.walked (s.agent l.agent).ctx ps).orderOwn l.agent ps
    let (s2, bs) := s1.readPieces (s1.agent l.agent).ctx ps
    let v : QWord := BitVec.ofNat 128 (leNat bs)
    (rec_ (s2.dropStale l.agent ps) ⟨f.dst.toNat, BitVec.ofNat 64 va, (ps.headD default).pa, n, v, .valid⟩, { val := v })

/-- ld.adv: a load that records an entry, and defers any fault (R217). -/
def execLdAdv (ty : WideTy) (o : Operands) (s : State) : Out :=
  ({ sig := { dst := ty.res, a := .b64, b := .b32 }
     perform := fun s => eachLane (ldAdvLane s o.fields ty.bytes) s } : Job).issue o.fields s

/-- The entry a chk finds (R219). -/
def findAdv (a : Agent) (f : Fields) (va n : Nat) : Option AdvEntry :=
  a.adv.find? fun e => e.reg = f.dst.toNat && e.va.toNat = va && e.size = n

def sigChk (ty : WideTy) : Sig := { dst := ty.res, a := .b64, b := .b32 }

/-- The checks of a chk that loads: it finds no VALID entry, or it pops a token, which is an acquire and empties the table
first (R218, R290). -/
def chkFault (ty : WideTy) (f : Fields) (s : State) (l : Lane) : Option Trap :=
  let load := s.vFault l accLoad 0 (vaOffset l) ty.bytes true
  if ((sigChk ty).sourceQueues f).any Option.isSome then load
  else match findAdv (s.agent l.agent) f (vaOffset l) ty.bytes with
    | some e => if e.state = AdvState.valid then none else load
    | none => load

def chkLane (s0 : State) (f : Fields) (n : Nat) (s : State) (l : Lane) : State × LaneRes :=
  let e? := findAdv (s.agent l.agent) f (vaOffset l) n
  let done (t : State) : State := match e? with
    | some e => t.updAgent l.agent fun a => { a with adv := a.adv.filter fun x => x.reg ≠ e.reg }
    | none => t
  let reload :=
    let r := vLoadLane s0 vaOffset n id s l
    (done r.1, r.2)
  match e? with
  | some e => if e.state = AdvState.valid then (done s, { val := e.bytes }) else reload
  | none => reload

/-- chk: the entry's bytes, or the load again with its own checks (R219). -/
def execChk (ty : WideTy) (o : Operands) (s : State) : Out :=
  ({ sig := sigChk ty
     check := chkFault ty o.fields
     perform := fun s => eachLane (chkLane s o.fields ty.bytes) s } : Job).issue o.fields s

/-- ADVANCE_LOAD_ENTRY_REMOVE: the device removes an entry on its own (R218). -/
def execAdvanceLoadEntryRemove (thread index : Nat) (s : State) : Out :=
  .next (s.updAgent thread fun a => { a with adv := a.adv.eraseIdx index })

/-! ## Acknowledgements (R181, R213, R424) -/

def resOfBytes (n : Nat) : Res := if n = 16 then .w128 else if n = 8 then .w64 else .w32

/-- Every lane of the instruction has its old value: each is written and pushed, in ascending lane order, and the caravan
goes on (R84, R288). -/
def State.settleAtoms (s : State) (ci : Nat) : State :=
  let c := s.caravan ci
  let got (i : Nat) : Option (BitVec 10 × Nat × QWord) := match (s.agent i).wait with
    | .got d n v => some (d, n, v)
    | _ => none
  let ms := (s.laneMembers c).filterMap fun m => (got m.agent).map fun g => (m.agent, g)
  if ms.isEmpty || (c.members.any fun m => (s.agent m.agent).wait ≠ .ready && (got m.agent).isNone) then s
  else
    (ms.foldl (fun t x =>
      let r := resOfBytes x.2.2.1
      let t1 := t.updAgent x.1 fun a =>
        { (a.writeDst x.2.1 r x.2.2.2).shiftLatch (resultLatch a r x.2.2.2 a.issued) with wait := .ready }
      match queueField x.2.1 with
      | some q => (t1.release0 x.1).updTokens c.core q fun ts => ts ++ [BitVec.ofNat 64 (x.2.2.2.toNat % 2 ^ (8 * x.2.2.1))]
      | none => t1) s).goOn ci (sizeOfParcels (s.fetch ci)) none

/-- An agent's old value comes back, and with it those of the agents it executed for (R160). -/
def State.gotValue (s : State) (i : Nat) (d : BitVec 10) (n v : Nat) : State :=
  let s0 := s.updAgent i fun a => { a with wait := .got d n (BitVec.ofNat 128 v) }
  let mates := s0.agentsWhere fun a => match a.wait with | .same _ o => o = i | _ => false
  let s1 := mates.foldl (fun t m => t.updAgent m fun a => { a with wait := .got d n (BitVec.ofNat 128 v) }) s0
  match (s1.agent i).stand with
  | .caravan ci => s1.settleAtoms ci
  | _ => s1

/-- The agents whose second halves enter the slice's order with an agent's: lanes of one instruction on one element, in
ascending lane order (R224). -/
def State.halfMates (s : State) (i : Nat) : List Nat :=
  match (s.agent i).wait, (s.agent i).stand with
  | .half _ n pa _ _ _ _, .caravan ci =>
    ((s.laneMembers (s.caravan ci)).map (·.agent)).filter fun j => match (s.agent j).wait with
      | .half _ m q _ _ _ _ => m = n && q = pa
      | _ => false
  | _, _ => [i]

/-- The second half of one agent's packed atomic: the old value then comes back. -/
def State.endHalf (s : State) (i : Nat) : State :=
  match (s.agent i).wait with
  | .half d _ pa isBf upper v old =>
    let r := s.halfAt (s.agent i).ctx pa isBf v
    r.1.gotValue i d 4 (if upper then packElems 16 [old.toNat, r.2] else packElems 16 [r.2, old.toNat])
  | _ => s

/-- The second half of an agent's packed atomic is performed, with those that go with it (R223). -/
def State.secondHalf (s : State) (i : Nat) : State := (s.halfMates i).foldl State.endHalf s

/-- Agents whose packed atomic has its second half to perform. -/
def State.halves (s : State) : List Nat := s.agentsWhere fun a => match a.wait with
  | .half _ _ _ _ _ _ _ => true
  | _ => false

end Sys2Proof.Machine
end

