-- ==== Sys2Proof/Machine/Barrier.lean ====
section
/-! DEFINITION. Level barriers, barrier objects, drain, psync (R173-R182, R427). -/

namespace Sys2Proof.Machine

/-! ## Level barriers (R174, R175) -/

/-- Other devices of a scope's mask (R427). -/
def State.otherPeers (s : State) (sc : Scope) : BitVec 1024 := sc.peers &&& ~~~s.ownMask

/-- No wider than the issuing block: sc0-sc2, and placement-relative entries. -/
def Scope.inBlock (sc : Scope) : Bool := decide (sc.index ≤ 2) || sc.rel

/-- The barrier that a captured scope names for a thread (R174, R246): its block's own for sc0-sc2 and a relative entry
(DESIGN CHOICE, assumption 55: but the launch's for a relative entry with peers). -/
def State.barKey (s : State) (a : Agent) (sc : Scope) : BarKey :=
  { scope := sc.index, launch := a.launch
    block := if decide (sc.index ≤ 2) || (sc.rel && s.otherPeers sc = 0) then some a.block else none
    core := if sc.index = 1 then some a.pos else if sc.index = 3 then some (dieOfCore (s.coreOf a)) else none }

/-- An open phase of the scope index waits for this thread's arrival. -/
def Barrier.awaits (b : Barrier) (launch scope i : Nat) : Bool :=
  b.key.scope = scope && b.key.launch = launch && b.scope.isSome && b.parts.contains i && !b.arrived.contains i

/-- The barrier of a thread's arrival: that of the oldest open phase of the scope which awaits it, or else the one its place
names; an open phase goes with a block that is saved and restored (R175). -/
def State.openKey (s : State) (i : Nat) (sc : Scope) : BarKey :=
  let a := s.agent i
  let older (m : Option Barrier) (b : Barrier) : Option Barrier := match m with
    | none => some b
    | some c => if b.opened < c.opened then some b else some c
  match (s.barriers.filter fun b => b.awaits a.launch sc.index i).foldl older none with
  | some b => b.key
  | none => s.barKey a sc

/-- The participants of a phase on this device, under the scope its first arrival captured (R174 Table 6). -/
def State.participants (s : State) (a : Agent) (sc : Scope) : List Nat :=
  s.agentsWhere fun b =>
    !b.drover && b.launch = a.launch &&
      (if sc.index = 1 then b.block = a.block && b.pos = a.pos
       else if sc.index = 2 then b.block = a.block
       else sc.cores.toNat.testBit (s.coreOf b) && (!sc.rel || b.block = a.block))

/-- The checks of a level barrier's scope operand (R173, R174, R211, R427). -/
def State.levelFault (s : State) (a : Agent) (i : Nat) : Option Trap :=
  if i = 6 ∨ i = 7 then some (badField 2)
  else match s.agentScope a i with
    | .error t => some t
    | .ok sc =>
      let l := s.launch a.launch
      if i ≥ 8 ∧ sc.host then some (badField 2)
      else if s.otherPeers sc ≠ 0 ∧ l.join.isNone then some (badField 2)
      else if !sc.inBlock ∧ !l.coresident then some (badField 2)
      else none

def State.barrierAt (s : State) (k : BarKey) : Barrier := (s.barriers.find? fun b => b.key = k).getD { key := k }

def State.setBarrier (s : State) (b : Barrier) : State :=
  { s with barriers := b :: s.barriers.filter fun c => c.key ≠ b.key }

/-- A peer's launch under a key has told of more than `phase` arrivals at a scope (R427). -/
def State.peerThere (s : State) (key : Word) (scope phase device : Nat) : Bool :=
  s.peerArrivals.any fun p => p.key = key && p.scope = scope && p.device = device && decide (p.phases > phase)

/-- The open phase is complete: every participant has arrived or exited, and so has every joined peer (R175, R427). -/
def State.phaseDone (s : State) (b : Barrier) : Bool :=
  match b.scope with
  | none => false
  | some sc =>
    b.parts.all (fun i => b.arrived.contains i || (s.agent i).stand = .exited) &&
      match (s.launch b.key.launch).join with
      | none => true
      | some (key, m) => s.otherPeers sc &&& m = 0 ||
        (List.range 1024).all fun d => !((s.otherPeers sc &&& m).toNat.testBit d) || s.peerThere key b.key.scope b.phase d

/-- Complete the open phase when it is complete. -/
def State.settleBarrier (s : State) (k : BarKey) : State :=
  let b := s.barrierAt k
  if s.phaseDone b then s.setBarrier { b with phase := b.phase + 1, arrived := [], scope := none, parts := [] } else s

/-- An arrival from a core outside the membership of the open phase, which does not await this thread, or outside the
membership `sc` that it opens a phase with (R175). -/
def State.outsider (s : State) (i : Nat) (k : BarKey) (sc : Scope) : Option Trap :=
  let b := (s.settleBarrier k).barrierAt k
  if b.parts.contains i || (b.scope.getD sc).cores.toNat.testBit (s.coreOf (s.agent i)) then none
  else some (scopeTrap .scopeMembership k.scope)

/-- An agent's outstanding arrival at a scope index: the barrier, and the phase. -/
def Agent.arrivalAt (a : Agent) (scope : Nat) : Option (BarKey × Nat) := a.arrivals.find? fun x => x.1.scope = scope

def Agent.setArrival (a : Agent) (k : BarKey) (p : Nat) : Agent :=
  { a with arrivals := (k, p) :: a.arrivals.filter fun x => x.1.scope ≠ k.scope }

/-- The arrival of an agent: a release; the first arrival of a phase captures the participants (R175, R176). -/
def State.arriveLevel (s : State) (i : Nat) (k : BarKey) (sc : Scope) : State :=
  let s1 := s.releaseAt i sc
  if k.scope = 0 then s1
  else
    let b := s1.barrierAt k
    let (n, s2) := s1.draw
    let b1 := if b.scope.isSome then b
      else { b with scope := some sc, parts := s1.participants (s1.agent i) sc, opened := n }
    let s3 := s2.setBarrier { b1 with arrived := i :: b1.arrived }
    (s3.updAgent i fun a => a.setArrival k b.phase).settleBarrier k

/-- The phase of the agent's latest arrival at a scope index has completed, or there is none (R175). -/
def State.arrivalDone (s : State) (i scope : Nat) : Bool :=
  match (s.agent i).arrivalAt scope with
  | none => true
  | some x => decide ((s.barrierAt x.1).phase > x.2)

/-- The phases of the agent's arrival at a scope index and of the barrier its next one goes to, as they stand. -/
def State.settleFor (s : State) (i : Nat) (sc : Scope) : State :=
  let s1 := match (s.agent i).arrivalAt sc.index with
    | some x => s.settleBarrier x.1
    | none => s
  s1.settleBarrier (s1.openKey i sc)

/-- The fault of the arrival an agent is about to make; none while an earlier arrival still holds it (R175). -/
def State.arriveFault (s : State) (i : Nat) (sc : Scope) : Option Trap :=
  let s1 := s.settleFor i sc
  if s1.arrivalDone i sc.index then s1.outsider i (s1.openKey i sc) sc else none

/-- Operations that a core issued for a context and that are numbered before `upTo` are all acknowledged: stores and reductions, requests
to peers, engine operations, matrix commands and second halves (R181). -/
def State.drained (s : State) (ctx core upTo : Nat) : Bool :=
  !s.pending.any (fun p => p.ctx = ctx && p.core = core && decide (p.seq < upTo)) &&
    !s.remotes.any (fun r => r.ctx = ctx && r.core = core && decide (r.issued < upTo)) &&
    !s.ops.any (fun o => o.ctx = ctx && o.issuer = core && decide (o.issued < upTo) && o.state ≠ OpState.done) &&
    !s.blocks.any (fun b => b.ctx = ctx && b.shares.any fun sh =>
      sh.core = core && sh.engine.queue.any fun m => decide (m.seq < upTo)) &&
    !s.halves.any fun i => (s.agent i).ctx = ctx && s.coreOf (s.agent i) = core &&
      match (s.agent i).wait with | .half _ n _ _ _ _ _ => decide (n < upTo) | _ => false

/-- A request to a peer that agents of a context on some cores issued before `upTo` is not acknowledged (R228). -/
def State.requestsOut (s : State) (ctx : Nat) (cores : BitVec 64) (upTo : Nat) : Bool :=
  s.remotes.any fun r => r.ctx = ctx && cores.toNat.testBit r.core && decide (r.issued < upTo)

/-- An agent's wait at a barrier is over: an acquire, and a completion point (R176, R234). -/
def State.waitOver (s : State) (i : Nat) : State :=
  (s.completionPoint i).updAgent i fun a => { a with wait := .ready }

/-- What follows once an earlier arrival's phase is complete: the arrival, and for bar.sync the wait. An arrival that would
fault stays to be taken with its fault. -/
def State.thenArrive (s : State) (i : Nat) (sc : Scope) (thenWait : Bool) : State :=
  let s0 := s.settleFor i sc
  let k := s0.openKey i sc
  if s0.arrivalDone i sc.index && (s0.outsider i k sc).isNone then
    let s1 := s0.arriveLevel i k sc
    if !thenWait then s1.updAgent i fun a => { a with wait := .ready }
    else if sc.index = 0 ∨ s1.arrivalDone i sc.index then s1.waitOver i
    else match (s1.agent i).arrivalAt sc.index with
      | some x => s1.updAgent i fun a => { a with wait := .level x.1 x.2 }
      | none => s1.waitOver i
  else s0.updAgent i fun a => { a with wait := .arrive sc thenWait }

/-- Go on in a wait of a barrier, a drain or a tfence as far as it allows (R175, R176, R181, R228). -/
def State.progress (s : State) (i : Nat) : State :=
  let a := s.agent i
  match a.wait with
  | .level k p =>
    let s1 := s.settleBarrier k
    if (s1.barrierAt k).phase > p then s1.waitOver i else s1
  | .arrive sc w => s.thenArrive i sc w
  | .drain sc core upTo => if s.drained a.ctx core upTo then s.thenArrive i sc false else s
  | .tfence cores upTo => if s.requestsOut a.ctx cores upTo then s else s.waitOver i
  | _ => s

/-- The fault a wait of a barrier or drain has come to. -/
def State.waitFault (s : State) (i : Nat) : Option Trap :=
  let a := s.agent i
  match a.wait with
  | .arrive sc _ => s.arriveFault i sc
  | .drain sc core upTo => if s.drained a.ctx core upTo then s.arriveFault i sc else none
  | _ => none

/-- A waiting agent goes on: to its fault, or as far as its wait allows. -/
def State.resumeWait (s : State) (i : Nat) : State :=
  match s.waitFault i with
  | some t => s.failWait i t
  | none =>
    let s1 := s.progress i
    if (s1.agent i).wait = .ready then s1.endWait i else s1

/-- Set every wanting lane's wait, then let each go as far as it can; the last arrival may complete the others. -/
def levelLanes (mk : State → Nat → Nat → Wait) (s : State) (ls : List Lane) : State × List LaneRes :=
  let s1 := ls.foldl (fun t l => t.updAgent l.agent fun a => { a with wait := mk s l.agent l.b.toNat }) s
  let s2 := ls.foldl (fun t l => t.progress l.agent) s1
  (ls.foldl (fun t l => t.progress l.agent) s2, ls.map fun _ => {})

/-- The scope a wanting thread captures. -/
def State.threadScope (s : State) (i idx : Nat) : Scope :=
  match s.agentScope (s.agent i) idx with
  | .ok sc => sc
  | .error _ => {}

def sigLevel : Sig := { b := .scope, noQueue := true, sync := true }

/-- A level barrier instruction: its wait at issue, and the check of the arrival it makes at once. -/
def levelJob (arrives : State → Nat → Scope → Option Trap) (mk : State → Nat → Nat → Wait) : Job where
  sig := sigLevel
  check := fun s l => orElseTrap (s.levelFault (s.agent l.agent) l.b.toNat) (arrives s l.agent (s.threadScope l.agent l.b.toNat))
  perform := levelLanes mk

/-- bar.arrive (R175). -/
def execBarArrive (o : Operands) (s : State) : Out :=
  (levelJob State.arriveFault fun s i idx => .arrive (s.threadScope i idx) false).issue o.fields s

/-- bar.wait (R175): with no arrival outstanding it completes at once. -/
def execBarWait (o : Operands) (s : State) : Out :=
  ({ levelJob (fun _ _ _ => none) fun _ _ _ => .ready with
     perform := fun s ls =>
       let r := levelLanes (fun s i idx => match (s.agent i).arrivalAt idx with
         | some x => .level x.1 x.2
         | none => .ready) s ls
       (ls.foldl (fun t l => if (t.agent l.agent).wait = .ready then t.waitOver l.agent else t) r.1, r.2) } : Job).issue o.fields s

/-- bar.sync: bar.arrive, then bar.wait (R175). -/
def execBarSync (o : Operands) (s : State) : Out :=
  (levelJob State.arriveFault fun s i idx => .arrive (s.threadScope i idx) true).issue o.fields s

/-- BARRIER_WAIT_RESUME: a thread in a level barrier goes on once its phase is complete. -/
def execBarrierWaitResume (thread : Nat) (s : State) : Out :=
  match s.wakeable thread, (s.agent thread).wait with
  | true, .level _ _ => .next (s.resumeWait thread)
  | true, .arrive _ _ => .next (s.resumeWait thread)
  | _, _ => .next s

/-- drain (R181): the scope is captured at issue; then the acknowledgements, then the arrival. -/
def execDrain (o : Operands) (s : State) : Out :=
  (levelJob (fun s i sc =>
      if s.drained (s.agent i).ctx (s.coreOf (s.agent i)) s.nonce then s.arriveFault i sc else none)
    fun s i idx => .drain (s.threadScope i idx) (s.coreOf (s.agent i)) s.nonce).issue o.fields s

/-- DRAIN_ACK_DONE: the last acknowledgement a drain or a tfence waits for has come. -/
def execDrainAckDone (thread : Nat) (s : State) : Out :=
  match s.wakeable thread, (s.agent thread).wait with
  | true, .drain _ _ _ => .next (s.resumeWait thread)
  | true, .tfence _ _ => .next (s.resumeWait thread)
  | _, _ => .next s

/-- One more arrival of a peer's launch under `key` at a scope. -/
def State.tellArrival (s : State) (key : Word) (scope device : Nat) : State :=
  let mine (p : PeerArrival) : Bool := p.key = key && p.scope = scope && p.device = device
  let n := ((s.peerArrivals.find? mine).map (·.phases)).getD 0
  { s with peerArrivals := ⟨key, scope, device, n + 1⟩ :: s.peerArrivals.filter fun p => !mine p }

/-- PEER_ARRIVAL: a launch joined under `key` on a peer has arrived or exited at the next phase of a scope; whether a launch
under `key` runs here yet does not matter (R427). A fabric that this device has not joined brings none (R422). -/
def execPeerArrival (device : Nat) (key : Word) (scope : Nat) (s : State) : Out :=
  if s.mgmt.held || !s.fabricUp then .next s
  else
    let s1 := s.tellArrival key scope device
    .next ((s1.barriers.filter fun b => b.key.scope = scope).foldl (fun t b => t.settleBarrier b.key) s1)

/-! ## Barrier objects (R177-R180) -/

/-- Where an object's 8 bytes lie once its reference is translated. -/
inductive ObjSpot where
  | tile (block pos off : Nat)
  | phys (pa : Nat)
deriving DecidableEq, Repr, Inhabited

/-- Translate and check an object's reference. -/
def State.objSpot (s : State) (ctx core : Nat) (acc : Access) (n : Nat) : ObjRef → Except AccessFault ObjSpot
  | .tile b p off => .ok (.tile b p off)
  | .virt va => (s.access ctx core acc va n).map fun ps => .phys (ps.headD default).pa

/-- Translate an object's reference for an access that is made, errors of the walk included. -/
def State.reachObj (s : State) (ctx core : Nat) (acc : Access) (n : Nat) : ObjRef → Except AccessFault (State × ObjSpot)
  | .tile b p off => .ok (s, .tile b p off)
  | .virt va => (s.access ctx core acc va n).map fun ps => (s.walked ctx ps, .phys (ps.headD default).pa)

/-- The 8 bytes of an object as a number. -/
def State.readSpot (s : State) (ctx : Nat) (r : ObjSpot) : State × Nat :=
  match r with
  | .tile b p off =>
    let s1 := s.meetTile (some ctx) b p off 8
    (s1, leNat (s1.readTile b p off 8))
  | .phys pa =>
    let s1 := s.meetPa (some ctx) pa 8
    (s1, s1.peekNat pa 8)

def State.writeSpot (s : State) (ctx : Nat) (r : ObjSpot) (bs : List Byte) : State :=
  match r with
  | .tile b p off => s.writeTile b p off bs
  | .phys pa => s.writePa ctx pa bs

/-- The write of an object's atomic step: a completion signal there goes on in its chain (R236). -/
def State.stepSpot (s : State) (ctx : Nat) (r : ObjSpot) (bs : List Byte) : State :=
  match r with
  | .tile b p off => s.writeTile b p off bs
  | .phys pa => s.writeRmw ctx pa bs

/-- An engine has signalled its completion in the bytes pa .. pa + n - 1 (R247). -/
def State.signalled (s : State) (pa n : Nat) : State := { s with signals := (s.localPa pa, n) :: s.signals }

def objPhase (w : Nat) : Nat := bitsAt w 48 16
def objExpect (w : Nat) : Nat := bitsAt w 24 24
def objPending (w : Nat) : Nat := bitsAt w 0 24

/-- PHASE, EXPECT and PENDING in their places (R177 Table 7). -/
def objWord (phase expect pending : Nat) : Nat := phase % 2 ^ 16 * 2 ^ 48 + expect * 2 ^ 24 + pending

/-- An arrival of count n at an object whose EXPECT is not zero (R179). -/
def objStep (w n : Nat) : Nat :=
  if n ≥ objPending w then
    let m := n - objPending w
    objWord (objPhase w + 1 + m / objExpect w) (objExpect w) (objExpect w - m % objExpect w)
  else objWord (objPhase w) (objExpect w) (objPending w - n)

/-- An arrival of count 1 at an object here: one atomic step, which signals a completion; an object that is not initialised is
unchanged (R179, R277). -/
def State.arriveAt (s : State) (ctx : Nat) (sp : ObjSpot) : State :=
  let (s1, w) := s.readSpot ctx sp
  if objExpect w = 0 then s1
  else
    let s2 := s1.stepSpot ctx sp (leBytes 8 (objStep w 1))
    match sp with
    | .tile _ _ _ => s2
    | .phys pa => s2.signalled pa 8

/-- An engine's arrival at its object, translated anew; one on a peer is a request to its home (R424). -/
def State.engineArrive (s : State) (ctx core : Nat) (acc : Access) (r : ObjRef) (op : Option Nat := none) :
    Except AccessFault State :=
  (s.reachObj ctx core acc 8 r).map fun x => match x.2 with
    | .tile _ _ _ => x.1.arriveAt ctx x.2
    | .phys pa => if x.1.isPeer pa then x.1.sendRemote ctx core pa none op else x.1.arriveAt ctx x.2

/-- The space of an obar: MA 001 names v:, V64I is always t: (R177). -/
def obarVirtual (f : Fields) : Bool := f.imm.isNone && f.ma = 1

/-- What one obar form is. -/
structure ObarForm where
  dst : Res
  bits : Nat
  /-- The check of C: init takes 1 to 0xFFFFFF, an arrival 24 bits. -/
  countOk : Nat → Bool
  arrives : Bool

def obarInitForm : ObarForm := ⟨.none, 1, fun c => decide (1 ≤ c ∧ c ≤ 0xFFFFFF), false⟩
def obarArriveForm : ObarForm := ⟨.w32, 3, fun c => decide (c < 2 ^ 24), true⟩
def obarWaitForm : ObarForm := ⟨.none, 0, fun _ => true, false⟩

/-- The object a lane names. -/
def State.obarRef (s : State) (f : Fields) (l : Lane) : ObjRef :=
  let a := s.agent l.agent
  if obarVirtual f then .virt (vaOffset l) else .tile a.block a.pos (privOffset l).toNat

/-- The object of a lane, by the translation its check made. -/
def State.obarSpot (s : State) (f : Fields) (l : Lane) : ObjSpot :=
  let a := s.agent l.agent
  match s.objSpot a.ctx (s.coreOf a) accObar 8 (s.obarRef f l) with
  | .ok sp => sp
  | .error _ => .phys 0

/-- The agent's earlier stores to the object take effect before it is read. -/
def State.obarOrder (s s0 : State) (f : Fields) (l : Lane) : State :=
  if obarVirtual f then
    let ps := s0.lanePieces l accObar (vaOffset l) 8
    (s.walked (s.agent l.agent).ctx ps).orderOwn l.agent ps
  else s

/-- A chk never goes back behind what an obar has read or written (R219, R232). -/
def State.obarSeen (s s0 : State) (f : Fields) (l : Lane) : State :=
  if obarVirtual f then s.dropStale l.agent (s0.lanePieces l accObar (vaOffset l) 8) else s

/-- The checks of an obar: C, then the object's address, then an EXPECT of zero (R177-R179). -/
def obarCheck (k : ObarForm) (f : Fields) (s : State) (l : Lane) : Option Trap :=
  let cField := if f.imm.isSome then 4 else 3
  if !k.countOk (l.c.toNat % 2 ^ 32) then some (badField cField)
  else
    let place :=
      if obarVirtual f then s.vFault l accObar k.bits (vaOffset l) 8 true
      else privFault .t 8 (s.spaceSize (s.agent l.agent) .t) (privOffset l)
    match place with
    | some t => some t
    | none =>
      if k.arrives && objExpect ((s.obarOrder s f l).readSpot (s.agent l.agent).ctx (s.obarSpot f l)).2 = 0 then some (badField 5)
      else none

/-- The operand form: MA is the space (R177); the t: base is 32 bits, the v: base a pair. -/
def obarSig (k : ObarForm) (f : Fields) : Sig :=
  { dst := k.dst, a := if obarVirtual f then .b64 else .b32, b := .b32, c := .b32, ctlA := true,
    ctlOk := fun f => decide (f.ma.toNat ≤ 1), noQueue := true, sync := true }

def obarJob (k : ObarForm) (f : Fields) (lane : State → State → Lane → State × LaneRes) : Job :=
  { sig := obarSig k f, check := obarCheck k f, perform := fun s => eachLane (lane s) s }

/-- The scope of an obar: sc1 for t:, sc4 for v: (R177). -/
def State.obarScope (s : State) (f : Fields) (l : Lane) : Scope := s.laneScope l (if obarVirtual f then 4 else 1)

/-- One lane's arrival: a release, one atomic step, the old phase (R179). -/
def obarArriveLane (f : Fields) (s0 s : State) (l : Lane) : State × LaneRes :=
  let ctx := (s.agent l.agent).ctx
  let r := s0.obarSpot f l
  let (s2, w) := ((s.obarOrder s0 f l).releaseAt l.agent (s0.obarScope f l)).readSpot ctx r
  ((s2.stepSpot ctx r (leBytes 8 (objStep w (l.c.toNat % 2 ^ 32 + 1)))).obarSeen s0 f l, { val := BitVec.ofNat 128 (objPhase w) })

/-- Read an object in a wait: it is over when the phase differs from `p` (R180). -/
def State.obarTest (s : State) (i : Nat) (sp : ObjSpot) (p : Nat) : State × Bool :=
  let (s1, w) := s.readSpot (s.agent i).ctx sp
  if objPhase w = p then (s1, false) else (s1.waitOver i, true)

/-- A lane's wait on an object; the result of obar.sync comes with its end. -/
def obarWaitLane (f : Fields) (dst : Option (BitVec 10)) (s0 s : State) (l : Lane) (p : Nat) : State × LaneRes :=
  let r := s.obarTest l.agent (s0.obarSpot f l) p
  if r.2 then (r.1, { val := BitVec.ofNat 128 p })
  else
    ((r.1.obarSeen s0 f l).updAgent l.agent fun a => { a with wait := .object (s0.obarRef f l) (BitVec.ofNat 16 p) dst },
      { val := BitVec.ofNat 128 p, late := true })

/-- obar.init: PHASE 0, EXPECT and PENDING C (R178). -/
def execObarInit (o : Operands) (s : State) : Out :=
  let f := o.fields
  (obarJob obarInitForm f fun s0 s l =>
    let c := l.c.toNat % 2 ^ 32
    (((s.obarOrder s0 f l).writeSpot (s.agent l.agent).ctx (s0.obarSpot f l) (leBytes 8 (objWord 0 c c))).obarSeen s0 f l,
      {})).issue f s

/-- obar.arrive (R179). -/
def execObarArrive (o : Operands) (s : State) : Out :=
  (obarJob obarArriveForm o.fields (obarArriveLane o.fields)).issue o.fields s

/-- obar.wait (R180). -/
def execObarWait (o : Operands) (s : State) : Out :=
  let f := o.fields
  (obarJob obarWaitForm f fun s0 s l => obarWaitLane f none s0 (s.obarOrder s0 f l) l (l.c.toNat % 2 ^ 16)).issue f s

/-- obar.sync: obar.arrive, then obar.wait on the phase it returned (R180). The lanes arrive first, then each waits. -/
def execObarSync (o : Operands) (s : State) : Out :=
  let f := o.fields
  ({ obarJob obarArriveForm f (obarArriveLane f) with
     perform := fun s0 ls =>
       let r := eachLane (obarArriveLane f s0) s0 ls
       (ls.zip r.2).foldl (fun (t : State × List LaneRes) x =>
         let q := obarWaitLane f (some f.dst) s0 t.1 x.1 x.2.val.toNat
         (q.1, t.2 ++ [q.2])) (r.1, []) } : Job).issue f s

/-- A late 32-bit result of a waiting agent: its destination and its latch. -/
def Agent.lateResult (a : Agent) (dst : BitVec 10) (v : QWord) : Agent :=
  (a.writeDst dst .w32 v).shiftLatch (resultLatch a .w32 v a.issued)

/-- OBAR_WAIT_RESUME: a waiting thread reads its object again, by a translation of that moment (DESIGN CHOICE, assumption
56: where that faults, obar.wait takes the fault at its instruction, and obar.sync, whose arrival stands, goes on waiting). -/
def execObarWaitResume (thread : Nat) (s : State) : Out :=
  let a := s.agent thread
  match s.wakeable thread, a.wait with
  | true, .object r p dst => match s.reachObj a.ctx (s.coreOf a) accObar 8 r with
    | .error e => .next (if dst.isSome then s else s.failWait thread (e.trap 0))
    | .ok x =>
      let t := x.1.obarTest thread x.2 p.toNat
      if !t.2 then .next t.1
      else
        .next ((t.1.updAgent thread fun a => match dst with
          | some d => a.lateResult d (p.setWidth 128)
          | none => a).endWait thread)
  | _, _ => .next s

/-! ## psync (R182) -/

/-- The thread of the same number in the partner block. -/
def State.partnerOf (s : State) (i : Nat) : Option Nat :=
  let a := s.agent i
  match (s.block a.block).mate with
  | none => none
  | some m => (s.threadsOf m).find? fun j => (s.agent j).tidx = a.tidx

/-- psync completes in a thread: the value goes to DST; an acquire, and a completion point (R182, R234). -/
def State.finishPsync (s : State) (i : Nat) (v : Word) : State :=
  (s.completionPoint i).updAgent i fun a =>
    match a.wait with
    | .psync _ _ dst =>
      { a.lateResult dst (v.setWidth 128) with wait := .ready }
    | _ => a

/-- The k-th psync of one partner meets the k-th of the other; a partner that has exited gives zero. -/
def State.meetPsync (s : State) (i : Nat) : State :=
  match (s.agent i).wait, s.partnerOf i with
  | .psync k v _, some j =>
    match (s.agent j).stand, (s.agent j).wait with
    | .exited, _ => s.finishPsync i 0
    | _, .psync k' v' _ => if k = k' then ((s.finishPsync i v').finishPsync j v).endWait j else s
    | _, _ => s
  | _, _ => s

/-- psync d, a (R182). -/
def execPsync (o : Operands) (s : State) : Out :=
  let f := o.fields
  ({ sig := { dst := .w32, a := .b32, noQueue := true, sync := true, paired := true }
     late := true
     perform := fun s ls =>
       let s1 := ls.foldl (fun t l => (t.release0 l.agent).updAgent l.agent fun a =>
         { a with wait := .psync a.psyncs (l.a.setWidth 32) f.dst, psyncs := a.psyncs + 1 }) s
       (s1, ls.map fun _ => {})
     finish := some fun s ci ls => (ls.foldl (fun t l => t.meetPsync l.agent) s).goOn ci f.size none } : Job).issue f s

/-- PSYNC_MEET: the partner's psync has come, or the partner has exited. -/
def execPsyncMeet (thread : Nat) (s : State) : Out :=
  match s.wakeable thread, (s.agent thread).wait with
  | true, .psync _ _ _ =>
    let s1 := s.meetPsync thread
    .next (if (s1.agent thread).wait = .ready then s1.endWait thread else s1)
  | _, _ => .next s

end Sys2Proof.Machine
end

