-- ==== Sys2Proof/Machine/Atomic.lean ====
section
/-! DEFINITION. Memory-side atomics and reductions (R209, R211, R220-R226). -/

namespace Sys2Proof

/-- How an element is read: its operand position and its result. -/
structure ElemTy where
  pos : Machine.Pos
  res : Machine.Res

def AddTy.elem : AddTy → ElemTy
  | .n32 => ⟨.b32, .w32⟩
  | .n64 => ⟨.b64, .w64⟩
  | .f32 => ⟨.f32, .w32⟩
  | .f64 => ⟨.f64, .w64⟩
  | .f16x2 => ⟨.f16x2, .w32⟩
  | .bf16x2 => ⟨.bf16x2, .w32⟩

def MinTy.elem : MinTy → ElemTy
  | .s32 | .n32 => ⟨.b32, .w32⟩
  | .s64 | .n64 => ⟨.b64, .w64⟩
  | .f32 => ⟨.f32, .w32⟩

def BitTy.elem : BitTy → ElemTy
  | .b32 => ⟨.b32, .w32⟩
  | .b64 => ⟨.b64, .w64⟩

def WideTy.elem (ty : WideTy) : ElemTy := ⟨ty.pos, ty.res⟩

def AtomOp.elem : AtomOp → ElemTy
  | .add ty => ty.elem
  | .min ty => ty.elem
  | .max ty => ty.elem
  | .and ty => ty.elem
  | .or ty => ty.elem
  | .xor ty => ty.elem
  | .exch ty => ty.elem
  | .cas ty _ => ty.elem

end Sys2Proof

namespace Sys2Proof.Machine

/-! ## In a thread -/

/-- The scope index an atom or red carries: MB × 8 + MA (R211). -/
def atomScope (f : Fields) : Nat := f.mb.toNat * 8 + f.ma.toNat

/-- Orders a form admits (R211 Table 2). -/
def orderOk (isRed : Bool) (f : Fields) : Bool :=
  if isRed then f.mc = 0 || f.mc = 2 else decide (f.mc.toNat < 4)

def atomVa (op : AtomOp) (l : Lane) : Nat := match op with | .cas _ _ => vaBase l | _ => vaOffset l

/-- Step 1 to 3 of R212 for an atom or a red. -/
def atomCheck (acc : Access) (op : Lane → AtomOp) (f : Fields) (s : State) (l : Lane) : Option Trap :=
  orElseTrap (s.scopeFault (s.agent l.agent) (atomScope f) 2)
    (s.vFault l acc acc.bits (atomVa (op l) l) (op l).bytes true)

/-- Order an agent's atomic after its own earlier accesses, and release before it where it says so. -/
def State.beforeAtom (s : State) (l : Lane) (f : Fields) (ps : List Piece) : State :=
  let s1 := ((s.walked (s.agent l.agent).ctx ps).orderOwn l.agent ps).dropAdv l.agent ps
  if f.mc.toNat / 2 % 2 = 1 then s1.releaseAt l.agent (s.laneScope l (atomScope f)) else s1

/-- The element a lane names, by the translation `s0` checked. -/
def State.atomPiece (s0 : State) (acc : Access) (op : AtomOp) (l : Lane) : Piece :=
  (s0.lanePieces l acc (atomVa op l) op.bytes).headD default

/-- What comes before the operations of the lanes, of all before the first: no access comes between those that share an
element (R224). -/
def State.beforeAtoms (s : State) (acc : Access) (op : Lane → AtomOp) (f : Fields) (ls : List Lane) : State :=
  (ls.filter (·.want)).foldl (fun t l => t.beforeAtom l f [s.atomPiece acc (op l) l]) s

/-- A packed atomic's first half now, the upper or the lower one as draw `n` of the instruction says; the second when the slice
performs it (R223). -/
def State.firstHalf (s : State) (i n pa : Nat) (isBf : Bool) (d : BitVec 10) (v : Nat) : State × LaneRes :=
  let lowFirst := decide (Config.choice n % 2 = 0)
  let lo := BitVec.ofNat 16 (elemAt 16 0 v)
  let hi := BitVec.ofNat 16 (elemAt 16 1 v)
  let r := s.halfAt (s.agent i).ctx (if lowFirst then pa else pa + 2) isBf (if lowFirst then lo else hi)
  (r.1.updAgent i fun a => { a with
    wait := .half d n (if lowFirst then pa + 2 else pa) isBf lowFirst (if lowFirst then hi else lo) (BitVec.ofNat 16 r.2) },
    { late := true })

/-- A packed atomic with nothing between its halves, or an atomic that is not packed. -/
def State.wholeAtom (s : State) (ctx pa : Nat) (op : AtomOp) (v : Nat) : State × Nat :=
  match op.packed with
  | some isBf =>
    let r := s.halfAt ctx pa isBf (BitVec.ofNat 16 (elemAt 16 0 v))
    let q := r.1.halfAt ctx (pa + 2) isBf (BitVec.ofNat 16 (elemAt 16 1 v))
    (q.1, packElems 16 [r.2, q.2])
  | none => s.atomAt ctx pa op v

/-- One lane's atom; a helper's is suppressed and gives zero (R215). A thread waits for the old value of an element on a
peer (R424), and for the second half of a packed element. An acquire that observes an engine's completion is a completion
point (R234). -/
def atomLane (s0 : State) (n : Nat) (op : Lane → AtomOp) (f : Fields) (s : State) (l : Lane) : State × LaneRes :=
  if !l.want then (s, {})
  else
    let o := op l
    let p := s0.atomPiece accAtom o l
    let ctx := (s.agent l.agent).ctx
    let v := l.c.toNat % 2 ^ (8 * o.bytes)
    let (s2, r) : State × LaneRes :=
      if s.isPeer p.pa then
        ((s.sendRemote ctx (s.coreOf (s.agent l.agent)) p.pa (some l.agent)).updAgent l.agent fun a =>
          { a with wait := .remote f.dst o.bytes }, { late := true })
      else match o.packed with
        | some isBf => s.firstHalf l.agent n p.pa isBf f.dst v
        | none => let q := s.atomAt ctx p.pa o v; (q.1, { val := BitVec.ofNat 128 q.2 })
    (if f.mc.toNat % 2 = 1 then s2.acquired l.agent (s.observes [p]) else s2, r)

/-- The lanes of an atom, one after another; where one lane waits, the results of all come together (R288). -/
def atomLanes (op : Lane → AtomOp) (f : Fields) (s : State) (ls : List Lane) : State × List LaneRes :=
  let s1 := s.beforeAtoms accAtom op f ls
  let (n, s2) := if ls.any fun l => (op l).packed.isSome then s1.draw else (0, s1)
  let r := eachLane (atomLane s n op f) s2 ls
  if r.2.any (·.late) then
    ((ls.zip r.2).foldl (fun t x =>
      if x.1.want && !x.2.late then
        t.updAgent x.1.agent fun a => { a with wait := .got f.dst (op x.1).bytes x.2.val }
      else t) r.1, (ls.zip r.2).map fun x => if x.1.want then { x.2 with late := true } else x.2)
  else r

/-- The form of an atom (R209, R211). -/
def atomSig (e : ElemTy) : Sig :=
  { dst := e.res, a := .b64, b := .b32, c := e.pos, ctlA := true, ctlB := true, ctlC := true, ctlOk := orderOk false }

/-- An atom whose operation does not depend on the lane. -/
def atomJob (op : AtomOp) (f : Fields) : Job :=
  { sig := atomSig op.elem, check := atomCheck accAtom (fun _ => op) f, perform := atomLanes (fun _ => op) f }

/-- The reductions of an instruction on one element, in ascending lane order, as their home has still to accept them; the halves
of packed ones are two operations (R223, R224). -/
def redBodies (op : AtomOp) (pa : Nat) (vs : List Nat) : List PendBody :=
  match op.packed with
  | some isBf =>
    let half (k : Nat) : List (BitVec 16) := vs.map fun v => BitVec.ofNat 16 (elemAt 16 k v)
    [.half pa isBf (half 0), .half (pa + 2) isBf (half 1)]
  | none => [.reduce pa op vs]

/-- ORD of an access that several lanes make together: SO before RC before UO. -/
def jointOrd (ords : List Nat) : Nat := if ords.contains 1 then 1 else if ords.contains 0 then 0 else 2

/-- Hand the reductions of some lanes on the element at `pa` to its home (R225). -/
def State.pendReds (s0 : State) (op : AtomOp) (ls : List Lane) (s : State) (pa : Nat) : State :=
  let mine := ls.filter fun l => (s0.atomPiece accRed op l).pa = pa
  let ord := jointOrd (mine.map fun l => (s0.atomPiece accRed op l).ord)
  (redBodies op (s.localPa pa) (mine.map fun l => l.c.toNat % 2 ^ (8 * op.bytes))).foldl
    (fun t b => t.pend (mine.map (·.agent)) ord b) s

/-- The lanes of a red, each accepted when it is acknowledged (R225); helpers' are suppressed (R215). -/
def redLanes (op : AtomOp) (f : Fields) (s : State) (ls : List Lane) : State × List LaneRes :=
  let pa (l : Lane) : Nat := (s.atomPiece accRed op l).pa
  let s1 := s.beforeAtoms accRed (fun _ => op) f ls
  let far := ls.filter fun l => l.want && s.isPeer (pa l)
  let near := ls.filter fun l => l.want && !s.isPeer (pa l)
  let s2 := far.foldl (fun t l => t.sendRemote (t.agent l.agent).ctx (t.coreOf (t.agent l.agent)) (pa l) none) s1
  ((near.map pa).eraseDups.foldl (s.pendReds op near) s2, ls.map fun _ => {})

def redJob (op : AtomOp) (f : Fields) : Job :=
  { sig := { a := .b64, b := .b32, c := op.elem.pos, ctlA := true, ctlB := true, ctlC := true, ctlOk := orderOk true }
    check := atomCheck accRed (fun _ => op) f
    perform := redLanes op f }

/-- atom.add (R221). -/
def execAtomAdd (ty : AddTy) (o : Operands) (s : State) : Out := (atomJob (.add ty) o.fields).issue o.fields s

/-- atom.min (R221). -/
def execAtomMin (ty : MinTy) (o : Operands) (s : State) : Out := (atomJob (.min ty) o.fields).issue o.fields s

/-- atom.max (R221). -/
def execAtomMax (ty : MinTy) (o : Operands) (s : State) : Out := (atomJob (.max ty) o.fields).issue o.fields s

/-- atom.and (R221). -/
def execAtomAnd (ty : BitTy) (o : Operands) (s : State) : Out := (atomJob (.and ty) o.fields).issue o.fields s

/-- atom.or (R221). -/
def execAtomOr (ty : BitTy) (o : Operands) (s : State) : Out := (atomJob (.or ty) o.fields).issue o.fields s

/-- atom.xor (R221). -/
def execAtomXor (ty : BitTy) (o : Operands) (s : State) : Out := (atomJob (.xor ty) o.fields).issue o.fields s

/-- atom.exch (R221). -/
def execAtomExch (ty : BitTy) (o : Operands) (s : State) : Out := (atomJob (.exch ty) o.fields).issue o.fields s

/-- atom.cas: B is the new value, C the compare value, no offset; .b128 has no V64I form (R209, R222). -/
def execAtomCas (ty : WideTy) (o : Operands) (s : State) : Out :=
  let f := o.fields
  let op (l : Lane) : AtomOp := .cas ty l.b
  ({ sig := { atomSig ty.elem with b := ty.pos, imm := ty ≠ .b128 }
     check := atomCheck accAtom op f
     perform := atomLanes op f } : Job).issue f s

/-- red.add (R225, R226). -/
def execRedAdd (ty : AddTy) (o : Operands) (s : State) : Out := (redJob (.add ty) o.fields).issue o.fields s

/-- red.min (R225). -/
def execRedMin (ty : MinTy) (o : Operands) (s : State) : Out := (redJob (.min ty) o.fields).issue o.fields s

/-- red.max (R225). -/
def execRedMax (ty : MinTy) (o : Operands) (s : State) : Out := (redJob (.max ty) o.fields).issue o.fields s

/-- red.and (R225). -/
def execRedAnd (ty : BitTy) (o : Operands) (s : State) : Out := (redJob (.and ty) o.fields).issue o.fields s

/-- red.or (R225). -/
def execRedOr (ty : BitTy) (o : Operands) (s : State) : Out := (redJob (.or ty) o.fields).issue o.fields s

/-- red.xor (R225). -/
def execRedXor (ty : BitTy) (o : Operands) (s : State) : Out := (redJob (.xor ty) o.fields).issue o.fields s

/-- REDUCTION_RUN_APPLY: the first `count` pending reductions of an element are one run (R226). -/
def execReductionRunApply (elem count : Nat) (s : State) : Out := .next (s.applyReds elem count)

/-! ## From peers (R424) -/

/-- REMOTE_REQUEST: a peer's access is performed at its home slice here; a hole of the map reads zero and takes nothing.
Ports carry traffic only while the main side runs, and from a fabric this device has joined (R421, R422). A packed atomic or
reduction whose halves meet other accesses between them comes as two requests of a half. -/
def execRemoteRequest (req : RemoteReq) (s : State) : Out :=
  let ok (pa n : Nat) : Bool := (s.region pa).isMain && (s.region (pa + n - 1)).isMain
  let whole (pa n : Nat) : Bool := decide (pa % n = 0) && ok pa n
  if s.mgmt.held || !s.fabricUp then .next s
  else match req with
  | .atom _ pa op v =>
    if whole pa op.bytes then
      let r := s.wholeAtom 0xFFFF pa op (v.toNat % 2 ^ (8 * op.bytes))
      .next { r.1 with reply := leBytes op.bytes r.2 }
    else .next s
  | .reduce _ pa op v =>
    if whole pa op.bytes then
      .next ((redBodies op (s.localPa pa) [v.toNat % 2 ^ (8 * op.bytes)]).foldl
        (fun t b => t.perform ⟨[], 0xFFFF, 0, 0, 0, b⟩) s)
    else .next s
  | .half _ pa isBf returns v =>
    if !whole pa 2 then .next s
    else if returns then
      let r := s.halfAt 0xFFFF pa isBf v
      .next { r.1 with reply := leBytes 2 r.2 }
    else .next (s.acceptHalf 0xFFFF (s.localPa pa) isBf v)
  | .arrive _ pa => if whole pa 8 then .next (s.arriveAt 0xFFFF (.phys pa)) else .next s
  | .write _ pa bs => if ok pa bs.length then .next (s.writePa 0xFFFF pa bs) else .next s
  | .read _ pa n =>
    if ok pa n then
      let s1 := (s.openMerges pa n).meetPa none pa n
      .next { s1 with reply := s1.peekBytes pa n }
    else .next s

end Sys2Proof.Machine
end

