-- ==== Sys2Proof/Machine/Control.lean ====
section
/-! DEFINITION. Branches and block transfers, exit, qloop, yield, nop (R104-R110, R294). -/

namespace Sys2Proof.Machine

/-- The target of a direct transfer: h + 8 × offset modulo 2^32 (R104). -/
def directTarget (hdr : Word) (off : QWord) : Word := hdr + 8 * off.setWidth 32

/-- The fall-through header of a caravan's block. -/
def Caravan.fall (c : Caravan) : Word := fallHeader c.hdr c.len

/-- The tested position: 32 bits, all 64 in a drover (R96, R105). -/
def testPos (drover : Bool) : Pos := if drover then .b64 else .b32

def sigBr : Sig := { b := .b32, leaves := true, drover := true }
def sigTest (drover : Bool) : Sig := { a := testPos drover, b := .b32, leaves := true, drover := true }
def sigTo : Sig := { a := .b32, leaves := true, drover := true }

/-- br: to T, always (R106). -/
def execBr (o : Operands) (s : State) : Out :=
  (leaveJob sigBr fun _ c l _ => .to (directTarget c.hdr l.b)).issue o.fields s

/-- brz: to T when A is zero, else fall through (R106). -/
def execBrz (o : Operands) (s : State) : Out :=
  (leaveJob (sigTest s.focusDrover) fun _ c l _ => .to (if l.a = 0 then directTarget c.hdr l.b else c.fall)).issue o.fields s

/-- brnz: to T when A is not zero, else fall through (R106). -/
def execBrnz (o : Operands) (s : State) : Out :=
  (leaveJob (sigTest s.focusDrover) fun _ c l _ => .to (if l.a = 0 then c.fall else directTarget c.hdr l.b)).issue o.fields s

/-- brx: to the header offset in A (R106). -/
def execBrx (o : Operands) (s : State) : Out :=
  (leaveJob sigTo fun _ _ l _ => .to (l.a.setWidth 32)).issue o.fields s

/-- call: the return offset to DST, then to T (R107). -/
def execCall (o : Operands) (s : State) : Out :=
  (leaveJob { sigBr with dst := .w32 } (fun _ c l _ => .to (directTarget c.hdr l.b))
    fun c _ => { val := c.fall.setWidth 128 }).issue o.fields s

/-- callx: the return offset to DST, then to the header offset in A (R107). -/
def execCallx (o : Operands) (s : State) : Out :=
  (leaveJob { sigTo with dst := .w32 } (fun _ _ l _ => .to (l.a.setWidth 32))
    fun c _ => { val := c.fall.setWidth 128 }).issue o.fields s

/-- ret: to the return offset in A (R107). -/
def execRet (o : Operands) (s : State) : Out :=
  (leaveJob sigTo fun _ _ l _ => .to (l.a.setWidth 32)).issue o.fields s

/-- The caravan of a drover whose matrix commands have not all completed (R294). -/
def State.droverBusy (s : State) : Bool :=
  match s.focus with
  | some ci => match (s.caravan ci).members with
    | m :: _ => !s.engineIdle (s.agent m.agent)
    | [] => false
  | none => false

/-- The issuing agents wait in the instruction for the engine. -/
def State.waitEngine (s : State) : State :=
  match s.focus with
  | some ci => (s.caravan ci).members.foldl (fun t m => t.updAgent m.agent fun a => { a with wait := .queue [] [] [] }) s
  | none => s

/-- exit: ends the thread (a drover program once its matrix commands have completed), or discards it in quad-locked code
(R108, R157, R294). -/
def execExit (o : Operands) (s : State) : Out :=
  if s.droverBusy then .next s.waitEngine
  else (leaveJob { leaves := true, drover := true } fun _ _ _ _ => .exit).issue o.fields s

/-- qloop: pop a token into DST; to T when bit 63 of it is set, else fall through (R109). -/
def execQloop (o : Operands) (s : State) : Out :=
  ({ sig := { dst := .w64, a := .queue, b := .b32, leaves := true, drover := true }
     perform := fun s ls => (s, ls.map fun l => { val := l.a })
     leave := some fun _ c l _ => .to (if l.a.getLsbD 63 then directTarget c.hdr l.b else c.fall) } : Job).issue o.fields s

/-- yield: no effect on any agent's state (R110, R294); the swap it allows is SWAP_OUT (R153). -/
def execYield (o : Operands) (s : State) : Out := (pureJob { drover := true } fun _ => {}).issue o.fields s

/-- nop: no effect (R110). -/
def execNop (o : Operands) (s : State) : Out := (pureJob { drover := true } fun _ => {}).issue o.fields s

end Sys2Proof.Machine
end

