-- ==== Sys2Proof/Machine/FloatOps.lean ====
section
/-! DEFINITION. Floating-point arithmetic (R119-R123). -/

namespace Sys2Proof

def FpTy.fmt : FpTy → Machine.FpFmt
  | .f32 => Machine.fp32
  | .f16x2 => Machine.fp16
  | .bf16x2 => Machine.bf16
  | .f64 => Machine.fp64

def FpTy.count : FpTy → Nat
  | .f16x2 | .bf16x2 => 2
  | _ => 1

def FpTy.pos : FpTy → Machine.Pos
  | .f32 => .f32
  | .f16x2 => .f16x2
  | .bf16x2 => .bf16x2
  | .f64 => .f64

def FpTy.res : FpTy → Machine.Res
  | .f64 => .w64
  | _ => .w32

/-- The position of scale's exponent: .s32, or .s16x2 for packed types (R119). -/
def FpTy.scalePos : FpTy → Machine.Pos
  | .f16x2 | .bf16x2 => .i16x2
  | _ => .b32

end Sys2Proof

namespace Sys2Proof.Machine

/-- Act element by element, the flags of the elements OR-ed (R120, R123). -/
def fpEach (ty : FpTy) (fn : Nat → Nat → Nat → Nat × Flags) (a b c : QWord) : LaneRes :=
  let w := ty.fmt.width
  let rs := (List.range ty.count).map fun i => fn (elemAt w i a.toNat) (elemAt w i b.toNat) (elemAt w i c.toNat)
  { val := BitVec.ofNat 128 (packElems w (rs.map (·.1))), flags := rs.foldl (fun f r => f ||| settleFlags r.2) 0 }

def fpSig1 (ty : FpTy) : Sig := { dst := ty.res, a := ty.pos }
def fpSig2 (ty : FpTy) : Sig := { dst := ty.res, a := ty.pos, b := ty.pos }
def fpSig3 (ty : FpTy) : Sig := { dst := ty.res, a := ty.pos, b := ty.pos, c := ty.pos }

def elSub (f : FpFmt) (a b _c : Nat) : Nat × Flags :=
  let x := decodeFp f a
  let y := decodeFp f b
  fpRound f .rn [x, y] (FVal.sum .rn [x, y.neg])

def elMul (f : FpFmt) (rm : Rounding) (a b _c : Nat) : Nat × Flags :=
  let x := decodeFp f a
  let y := decodeFp f b
  fpRound f rm [x, y] (x.mul y)

/-- One rounding of a × b + c; 0 × ∞ is Invalid even when c is a quiet NaN (R120). -/
def elFma (f : FpFmt) (rm : Rounding) (a b c : Nat) : Nat × Flags :=
  let x := decodeFp f a
  let y := decodeFp f b
  let z := decodeFp f c
  let p := x.mul y
  let r := fpRound f rm [x, y, z] (FVal.sum rm [p, z])
  (r.1, r.2 ||| flagIf (p.isNan && !x.isNan && !y.isNan) flagInvalid)

/-- A quiet compare: an all-ones or zero element (R122). -/
def elCmp (f : FpFmt) (p : FVal → FVal → Bool) (a b _c : Nat) : Nat × Flags :=
  let x := decodeFp f a
  let y := decodeFp f b
  (if p x y then onesOf f.width else 0, flagIf (x.isSnan || y.isSnan) flagInvalid)

def ordered (x y : FVal) : Bool := !x.isNan && !y.isNan
def fpEq (x y : FVal) : Bool := ordered x y && compareFp x y = 0
def fpLt (x y : FVal) : Bool := ordered x y && compareFp x y < 0
def fpLe (x y : FVal) : Bool := ordered x y && compareFp x y ≤ 0
def fpUn (x y : FVal) : Bool := !ordered x y

/-- The class bit of an element (R122 Table 2). -/
def classBit (f : FpFmt) (a : Nat) : Nat :=
  match decodeFp f a with
  | .nan true => 0
  | .nan false => 1
  | .inf true => 2
  | .inf false => 9
  | .fin n m _ =>
    if m = 0 then (if n then 5 else 6)
    else if m < 2 ^ f.frac then (if n then 4 else 7)
    else if n then 3 else 8

def elRint (f : FpFmt) (rm : Rounding) (a _b _c : Nat) : Nat × Flags :=
  match decodeFp f a with
  | .nan s => (f.nanCode, flagIf s flagInvalid)
  | .inf _ => (a, 0)
  | .fin n m e =>
    if m = 0 then (a, 0)
    else
      let q := quantise rm n m e 0
      ((roundFp f rm (.fin n q.1 0) false).1, 0)

/-- a × 2^n, rounded once; `nw` is the width of the exponent element (R120). -/
def elScale (f : FpFmt) (nw : Nat) (a b _c : Nat) : Nat × Flags :=
  let n := toSigned nw b
  let x := decodeFp f a
  let y := match x with
    | .fin s m e => FVal.fin s m (e + n)
    | y => y
  fpRound f .rn [x] y

/-- Division with its Divide-by-zero flag (R43, R62). -/
def divide (f : FpFmt) (x y : FVal) : Nat × Flags :=
  let r := fpRound f .rn [x, y] (x.div y)
  let dz := y.isZero && !x.isZero && !x.isNan && !x.isInf
  (r.1, r.2 ||| flagIf dz flagDivZero)

def elDiv (f : FpFmt) (a b _c : Nat) : Nat × Flags := divide f (decodeFp f a) (decodeFp f b)
def elRcp (f : FpFmt) (a _b _c : Nat) : Nat × Flags := divide f (.fin false 1 0) (decodeFp f a)

def elSqrt (f : FpFmt) (a _b _c : Nat) : Nat × Flags :=
  match decodeFp f a with
  | .nan s => (f.nanCode, flagIf s flagInvalid)
  | .inf n => if n then (f.nanCode, flagInvalid) else (a, 0)
  | .fin n m e =>
    if m = 0 then (a, 0) else if n then (f.nanCode, flagInvalid) else roundFp f .rn (sqrtPos m e) false

def elRsqrt (f : FpFmt) (a _b _c : Nat) : Nat × Flags :=
  match decodeFp f a with
  | .nan s => (f.nanCode, flagIf s flagInvalid)
  | .inf n => if n then (f.nanCode, flagInvalid) else (0, 0)
  | .fin n m e =>
    if m = 0 then (f.signed n f.infCode, flagDivZero)
    else if n then (f.nanCode, flagInvalid)
    else roundFp f .rn (rsqrtPos m e) false

/-- cpsgn: the sign bit of b on the bits of a (R120). -/
def elCpsgn (f : FpFmt) (a b _c : Nat) : Nat × Flags :=
  let h := 2 ^ (f.width - 1)
  (a % h + b / h * h, 0)

/-- add in the four modes (R120). -/
def execFpAdd (rm : Rounding) (ty : FpTy) (o : Operands) (s : State) : Out := (aluJob (fpSig2 ty) (fpEach ty (elAdd ty.fmt rm))).issue o.fields s

/-- sub (R120). -/
def execFpSub (ty : FpTy) (o : Operands) (s : State) : Out := (aluJob (fpSig2 ty) (fpEach ty (elSub ty.fmt))).issue o.fields s

/-- mul in the four modes (R120). -/
def execFpMul (rm : Rounding) (ty : FpTy) (o : Operands) (s : State) : Out := (aluJob (fpSig2 ty) (fpEach ty (elMul ty.fmt rm))).issue o.fields s

/-- fma in the four modes (R120). -/
def execFpFma (rm : Rounding) (ty : FpTy) (o : Operands) (s : State) : Out := (aluJob (fpSig3 ty) (fpEach ty (elFma ty.fmt rm))).issue o.fields s

/-- min (R121). -/
def execFpMin (ty : FpTy) (o : Operands) (s : State) : Out := (aluJob (fpSig2 ty) (fpEach ty (elMinMax ty.fmt false))).issue o.fields s

/-- max (R121). -/
def execFpMax (ty : FpTy) (o : Operands) (s : State) : Out := (aluJob (fpSig2 ty) (fpEach ty (elMinMax ty.fmt true))).issue o.fields s

/-- cmpeq (R122). -/
def execFpCmpeq (ty : FpTy) (o : Operands) (s : State) : Out := (aluJob (fpSig2 ty) (fpEach ty (elCmp ty.fmt fpEq))).issue o.fields s

/-- cmplt (R122). -/
def execFpCmplt (ty : FpTy) (o : Operands) (s : State) : Out := (aluJob (fpSig2 ty) (fpEach ty (elCmp ty.fmt fpLt))).issue o.fields s

/-- cmple (R122). -/
def execFpCmple (ty : FpTy) (o : Operands) (s : State) : Out := (aluJob (fpSig2 ty) (fpEach ty (elCmp ty.fmt fpLe))).issue o.fields s

/-- cmpun (R122). -/
def execFpCmpun (ty : FpTy) (o : Operands) (s : State) : Out := (aluJob (fpSig2 ty) (fpEach ty (elCmp ty.fmt fpUn))).issue o.fields s

/-- class: a class mask per element, one register for .f64 (R119, R122). -/
def execFpClass (ty : FpTy) (o : Operands) (s : State) : Out :=
  (aluJob { dst := .w32, a := ty.pos } fun a _ _ =>
    { val := BitVec.ofNat 128 (packElems (if ty.count = 2 then 16 else 32)
        ((List.range ty.count).map fun i => 2 ^ classBit ty.fmt (elemAt ty.fmt.width i a.toNat))) }).issue o.fields s

/-- rint in the four modes (R120). -/
def execFpRint (rm : Rounding) (ty : FpTy) (o : Operands) (s : State) : Out := (aluJob (fpSig1 ty) (fpEach ty (elRint ty.fmt rm))).issue o.fields s

/-- scale: B is .s32 for one element, .s16x2 for two (R119, R120). -/
def execFpScale (ty : FpTy) (o : Operands) (s : State) : Out :=
  (aluJob { dst := ty.res, a := ty.pos, b := ty.scalePos }
    (fpEach ty (elScale ty.fmt (if ty.count = 2 then 16 else 32)))).issue o.fields s

/-- div (R62, R120). -/
def execFpDiv (ty : FpTy) (o : Operands) (s : State) : Out := (aluJob (fpSig2 ty) (fpEach ty (elDiv ty.fmt))).issue o.fields s

/-- sqrt (R62, R120). -/
def execFpSqrt (ty : FpTy) (o : Operands) (s : State) : Out := (aluJob (fpSig1 ty) (fpEach ty (elSqrt ty.fmt))).issue o.fields s

/-- rcp (R62, R120). -/
def execFpRcp (ty : FpTy) (o : Operands) (s : State) : Out := (aluJob (fpSig1 ty) (fpEach ty (elRcp ty.fmt))).issue o.fields s

/-- rsqrt (R62, R120). -/
def execFpRsqrt (ty : FpTy) (o : Operands) (s : State) : Out := (aluJob (fpSig1 ty) (fpEach ty (elRsqrt ty.fmt))).issue o.fields s

/-- cpsgn (R120). -/
def execFpCpsgn (ty : FpTy) (o : Operands) (s : State) : Out := (aluJob (fpSig2 ty) (fpEach ty (elCpsgn ty.fmt))).issue o.fields s

end Sys2Proof.Machine
end

