-- ==== Sys2Proof/Machine/Convert.lean ====
section
/-! DEFINITION. Conversions and packing (R124-R127, R133). -/

namespace Sys2Proof.Machine

/-- Mode and saturate flag of the conversion control, which MC carries (R90, R124). -/
def ctlMode (f : Fields) : Rounding := (Rounding.ofCode (f.mc.toNat % 4)).getD .rn
def ctlSat (f : Fields) : Bool := f.mc.toNat ≥ 4

/-- A conversion into a format: Invalid for a signalling NaN, and for a NaN or infinity the format lacks (R43, R52). -/
def cvtTo (f : FpFmt) (rm : Rounding) (sat : Bool) (x : FVal) : Nat × Flags :=
  let r := roundFp f rm x sat
  let inv := x.isSnan || (x.isNan && !f.hasNan) || (x.isInf && !f.hasInf)
  (r.1, settleFlags (r.2 ||| flagIf inv flagInvalid))

/-- A conversion to an integer, as its w bits. -/
def cvtInt (w : Nat) (signed : Bool) (rm : Rounding) (x : FVal) : Nat × Flags :=
  let r := toInt w signed rm x
  (wrapTo w r.1, settleFlags r.2)

/-- Results of several elements packed, their flags OR-ed. -/
def packRes (w : Nat) (rs : List (Nat × Flags)) : LaneRes :=
  { val := BitVec.ofNat 128 (packElems w (rs.map (·.1))), flags := rs.foldl (fun f r => f ||| r.2) 0 }

def oneRes (r : Nat × Flags) : LaneRes := { val := BitVec.ofNat 128 r.1, flags := r.2 }

/-- An element of a packed source. -/
def fpElemAt (f : FpFmt) (v : QWord) (i : Nat) : FVal := decodeFp f (elemAt f.width i v.toNat)

/-- A scalar or 16-bit conversion: its operand form, and its effect under a mode and a saturate flag (R125 Table 4). -/
def scalarCvt (k : ScalarCvt) : Sig × (Rounding → Bool → QWord → QWord → LaneRes) :=
  match k with
  | .f32F64 => ({ dst := .w32, a := .f64 }, fun m t a _ => oneRes (cvtTo fp32 m t (fpElemAt fp64 a 0)))
  | .f64F32 => ({ dst := .w64, a := .f32 }, fun m t a _ => oneRes (cvtTo fp64 m t (fpElemAt fp32 a 0)))
  | .f16x2F32 => ({ dst := .w32, a := .f32, b := .f32 }, fun m t a b =>
      packRes 16 [cvtTo fp16 m t (fpElemAt fp32 a 0), cvtTo fp16 m t (fpElemAt fp32 b 0)])
  | .bf16x2F32 => ({ dst := .w32, a := .f32, b := .f32 }, fun m t a b =>
      packRes 16 [cvtTo bf16 m t (fpElemAt fp32 a 0), cvtTo bf16 m t (fpElemAt fp32 b 0)])
  | .f32F16 => ({ dst := .w32, a := .f16x2 }, fun m t a _ => oneRes (cvtTo fp32 m t (fpElemAt fp16 a 0)))
  | .f32Bf16 => ({ dst := .w32, a := .bf16x2 }, fun m t a _ => oneRes (cvtTo fp32 m t (fpElemAt bf16 a 0)))
  | .f16x2Bf16x2 => ({ dst := .w32, a := .bf16x2 }, fun m t a _ =>
      packRes 16 [cvtTo fp16 m t (fpElemAt bf16 a 0), cvtTo fp16 m t (fpElemAt bf16 a 1)])
  | .bf16x2F16x2 => ({ dst := .w32, a := .f16x2 }, fun m t a _ =>
      packRes 16 [cvtTo bf16 m t (fpElemAt fp16 a 0), cvtTo bf16 m t (fpElemAt fp16 a 1)])
  | .s32F32 => ({ dst := .w32, a := .f32 }, fun m _ a _ => oneRes (cvtInt 32 true m (fpElemAt fp32 a 0)))
  | .n32F32 => ({ dst := .w32, a := .f32 }, fun m _ a _ => oneRes (cvtInt 32 false m (fpElemAt fp32 a 0)))
  | .f32S32 => ({ dst := .w32, a := .b32 }, fun m t a _ => oneRes (cvtTo fp32 m t (fvalOfInt (toSigned 32 a.toNat))))
  | .f32N32 => ({ dst := .w32, a := .b32 }, fun m t a _ => oneRes (cvtTo fp32 m t (fvalOfInt a.toNat)))
  | .s64F64 => ({ dst := .w64, a := .f64 }, fun m _ a _ => oneRes (cvtInt 64 true m (fpElemAt fp64 a 0)))
  | .n64F64 => ({ dst := .w64, a := .f64 }, fun m _ a _ => oneRes (cvtInt 64 false m (fpElemAt fp64 a 0)))
  | .f64S64 => ({ dst := .w64, a := .b64 }, fun m t a _ => oneRes (cvtTo fp64 m t (fvalOfInt (toSigned 64 a.toNat))))
  | .f64N64 => ({ dst := .w64, a := .n64 }, fun m t a _ => oneRes (cvtTo fp64 m t (fvalOfInt a.toNat)))
  | .s32F64 => ({ dst := .w32, a := .f64 }, fun m _ a _ => oneRes (cvtInt 32 true m (fpElemAt fp64 a 0)))
  | .f64S32 => ({ dst := .w64, a := .b32 }, fun m t a _ => oneRes (cvtTo fp64 m t (fvalOfInt (toSigned 32 a.toNat))))
  | .s16x2F16x2 => ({ dst := .w32, a := .f16x2 }, fun m _ a _ =>
      packRes 16 [cvtInt 16 true m (fpElemAt fp16 a 0), cvtInt 16 true m (fpElemAt fp16 a 1)])
  | .f16x2S16x2 => ({ dst := .w32, a := .i16x2 }, fun m t a _ =>
      packRes 16 ((List.range 2).map fun i => cvtTo fp16 m t (fvalOfInt (toSigned 16 (elemAt 16 i a.toNat)))))

/-- cvt, codes 0x100-0x113 (R125). -/
def execCvtScalar (k : ScalarCvt) (o : Operands) (s : State) : Out :=
  (aluJob { (scalarCvt k).1 with ctlC := true } fun a b _ =>
    (scalarCvt k).2 (ctlMode o.fields) (ctlSat o.fields) a b).issue o.fields s

/-- Four FP16 values into element codes, with an implied scale of 1 (R126). -/
def narrowMx (f : MxFmt) (rm : Rounding) (sat : Bool) (a b c : QWord) : LaneRes :=
  let g := mxFormat f
  let rs := [fpElemAt fp16 a 0, fpElemAt fp16 a 1, fpElemAt fp16 b 0, fpElemAt fp16 b 1].map (cvtTo g rm sat)
  if f = .e2m1 then
    let r := packRes 4 rs
    { r with val := BitVec.ofNat 128 (bitsAt c.toNat 0 16 * 2 ^ 16 + r.val.toNat) }
  else packRes 8 rs

/-- cvt.fmt.f16x2, codes 0x114-0x119; the E2M1 form also reads C (R126). -/
def execCvtNarrowMx (k : MxFmt) (o : Operands) (s : State) : Out :=
  (aluJob { dst := .w32, a := .f16x2, b := .f16x2, c := if k = .e2m1 then .b32 else .none, ctlC := true }
    (narrowMx k (ctlMode o.fields) (ctlSat o.fields))).issue o.fields s

/-- Element `i` of a packed microscaling source. -/
def mxElemAt (f : MxFmt) (v : QWord) (i : Nat) : FVal := decodeFp (mxFormat f) (elemAt (if f = .e2m1 then 4 else 8) i v.toNat)

def mxPos (f : MxFmt) : Pos := if f = .e2m1 then .e2m1x8 else .nf8x4

/-- cvt.f16x2.fmt, codes 0x11A-0x11F: B selects elements 2j and 2j+1 (R127). -/
def execCvtWidenMx (k : MxFmt) (o : Operands) (s : State) : Out :=
  (aluJob { dst := .w32, a := mxPos k, b := .b32, ctlC := true } fun a b _ =>
    let j := b.toNat % (if k = .e2m1 then 4 else 2)
    packRes 16 [cvtTo fp16 (ctlMode o.fields) (ctlSat o.fields) (mxElemAt k a (2 * j)),
                cvtTo fp16 (ctlMode o.fields) (ctlSat o.fields) (mxElemAt k a (2 * j + 1))]).issue o.fields s

/-- cvt.f32.e8m0: byte j of A as a scale (R127). -/
def execCvtF32E8m0 (o : Operands) (s : State) : Out :=
  (aluJob { dst := .w32, a := .nf8x4, b := .b32, ctlC := true } fun a b _ =>
    { val := BitVec.ofNat 128 (rne32 (decodeE8m0 (elemAt 8 (b.toNat % 4) a.toNat))) }).issue o.fields s

/-! ## Packing (R133) -/

def execPkB16x2 (o : Operands) (s : State) : Out :=
  (natJob { dst := .w32, a := .i16x2, b := .i16x2 } fun a b _ => packElems 16 [elemAt 16 0 a, elemAt 16 0 b]).issue o.fields s

def execPkB8x4 (o : Operands) (s : State) : Out :=
  (natJob { dst := .w32, a := .i8x4, b := .i8x4, c := .b32 } fun a b c =>
    bitsAt c 0 16 * 2 ^ 16 + packElems 8 [elemAt 8 0 a, elemAt 8 0 b]).issue o.fields s

def execUpkB8x4 (o : Operands) (s : State) : Out :=
  (natJob { dst := .w32, a := .i8x4 } fun a _ _ => packElems 16 [elemAt 8 0 a, elemAt 8 1 a]).issue o.fields s

def execUpkB16x2 (o : Operands) (s : State) : Out :=
  (natJob { dst := .w32, a := .i16x2 } fun a _ _ => elemAt 16 0 a).issue o.fields s

end Sys2Proof.Machine
end

