-- ==== Sys2Proof/Machine/Chunk.lean ====
section
/-! DEFINITION. Chunk compression (R281-R285): zero runs, byte-plane deltas, headers, on lists of bytes. -/

namespace Sys2Proof.Machine

/-- ZR(P): the bytes a payload stands for; none where it is not valid (R283). -/
def zrDecode : Nat → List Byte → Option (List Byte)
  | 0, p => if p.isEmpty then some [] else none
  | _ + 1, [] => some []
  | n + 1, t :: r =>
    let k := t.toNat % 128 + 1
    if t.toNat ≥ 128 then (zrDecode n r).map fun out => List.replicate k 0 ++ out
    else if r.length < k then none
    else (zrDecode n (r.drop k)).map fun out => r.take k ++ out

/-- Length of the literal run at the head of a list, at most `n` (R284). -/
def literalRun : Nat → List Byte → Nat
  | 0, _ => 0
  | _, [] => 0
  | n + 1, b :: r => if b = 0 && (r.isEmpty || r.headD 1 = 0) then 0 else literalRun n r + 1

/-- ENC(x) (R284). -/
def zrEncode : Nat → List Byte → List Byte
  | 0, _ => []
  | _, [] => []
  | n + 1, x =>
    let z := min 128 (x.takeWhile (· = 0)).length
    if z ≥ 2 ∨ (z = 1 ∧ x.length = 1) then BitVec.ofNat 8 (0x80 + (z - 1)) :: zrEncode n (x.drop z)
    else
      let k := literalRun 128 x
      BitVec.ofNat 8 (k - 1) :: (x.take k ++ zrEncode n (x.drop k))

/-- The byte planes of a chunk as differences (R284 CF2). -/
def planeDeltas (b : List Byte) : List Byte :=
  (List.range 256).map fun i =>
    let k := i / 64
    let j := i % 64
    b.getD (4 * j + k) 0 - (if j = 0 then 0 else b.getD (4 * (j - 1) + k) 0)

/-- Running sums of one plane, modulo 256. -/
def planeSums : Byte → List Byte → List Byte
  | _, [] => []
  | p, u :: r => (p + u) :: planeSums (p + u) r

/-- The chunk whose planes have these differences (R283 CF2). -/
def planeJoin (u : List Byte) : List Byte :=
  let plane (k : Nat) : List Byte := planeSums 0 ((u.drop (64 * k)).take 64)
  let ps := (List.range 4).map plane
  (List.range 256).map fun i => (ps.getD (i % 4) []).getD (i / 4) 0

/-- CHK: WRAP(16, Σ (i+1) × b[i]) (R282). -/
def chunkCheck (b : List Byte) : Nat := (b.zipIdx.foldl (fun n x => n + (x.2 + 1) * x.1.toNat) 0) % 2 ^ 16

/-- A chunk header. -/
def chunkHeader (cf plen chk : Nat) : Nat := cf * 2 ^ 30 + plen * 2 ^ 21 + chk

/-- The candidate with the smallest payload, ties to the lower CF: (CF, payload) (R284). -/
def chunkEncode (b : List Byte) : Nat × List Byte :=
  let w := b.take 4
  let c1 := zrEncode 256 b
  let c2 := zrEncode 256 (planeDeltas b)
  let cands : List (Nat × List Byte) := [(0, b)] ++ (if c1.length ≤ 256 then [(1, c1)] else []) ++
    (if c2.length ≤ 256 then [(2, c2)] else []) ++
    (if b = (List.range 64).flatMap (fun _ => w) then [(3, w)] else [])
  cands.foldl (fun best c => if c.2.length < best.2.length then c else best) (0, b)

/-- PLEN that a header may carry (R283). -/
def plenOk (cf plen : Nat) : Bool :=
  match cf with
  | 0 => plen = 256
  | 3 => plen = 4
  | _ => decide (1 ≤ plen ∧ plen ≤ 256)

/-- Decode a chunk from its header and payload; none is a failed chunk (R283, R285). -/
def chunkDecode (header : Nat) (p : List Byte) : Option (List Byte) :=
  let cf := bitsAt header 30 2
  let plen := bitsAt header 21 9
  if bitsAt header 16 5 ≠ 0 ∨ !plenOk cf plen then none
  else
    let out : Option (List Byte) :=
      match cf with
      | 0 => some p
      | 3 => some ((List.range 64).flatMap fun _ => p)
      | 1 => zrDecode 256 p
      | _ => match zrDecode 256 p with
        | some u => if u.length = 256 then some (planeJoin u) else none
        | none => none
    match out with
    | some b => if b.length = 256 ∧ chunkCheck b = bitsAt header 0 16 then some b else none
    | none => none

end Sys2Proof.Machine
end

