-- ==== Sys2Proof/Machine/Quant.lean ====
section
/-! DEFINITION. Companding curves and quantising (R58-R61, R128-R132), random numbers (R136-R137). -/

namespace Sys2Proof.Machine

/-! ## Curves (R58-R60) -/

def wordVal (w : Word) : FVal := decodeFp fp32 w.toNat

/-- The largest j with key j at or below x, or 0 (R60). -/
def segmentOf (keys : List Word) (x : FVal) : Nat :=
  ((List.range 16).filter fun j => fpLe (wordVal (keys.getD j 0)) x).getLastD 0

/-- An exact zero result is +0 (R60). -/
def plusZero (x : FVal) : FVal := if x.isZero then .fin false 0 0 else x

/-- FWD(c, x) on FP32 codes; `none` is the identity (R60). -/
def curveFwd (c : Option Curve) (x : Nat) : Nat × Flags :=
  match c with
  | none => (x, 0)
  | some c =>
    match decodeFp fp32 x with
    | .nan s => (fp32.nanCode, flagIf s flagInvalid)
    | .inf _ => (x, 0)
    | v =>
      let j := segmentOf c.x v
      let d := FVal.sum .rn [v, (wordVal (c.x.getD j 0)).neg]
      roundFp fp32 .rn (plusZero (FVal.sum .rn [wordVal (c.y.getD j 0), (wordVal (c.k.getD j 0)).mul d])) false

/-- INV(c, y): the quotient is taken over one denominator, so it is rounded once (R60). -/
def curveInv (c : Option Curve) (y : Nat) : Nat × Flags :=
  match c with
  | none => (y, 0)
  | some c =>
    match decodeFp fp32 y with
    | .nan s => (fp32.nanCode, flagIf s flagInvalid)
    | .inf _ => (y, 0)
    | v =>
      let j := segmentOf c.y v
      let k := wordVal (c.k.getD j 0)
      let num := FVal.sum .rn [(wordVal (c.x.getD j 0)).mul k, v, (wordVal (c.y.getD j 0)).neg]
      roundFp fp32 .rn (plusZero (num.div k)) false

def fieldWord (bs : List Byte) (off : Nat) : Word := BitVec.ofNat 32 (leNat ((bs.drop off).take 4))

/-- Yj from Yj-1 (R59 item 4). -/
def knots (x k : List Word) : Nat → List Word → List Word
  | 0, ys => ys
  | n + 1, ys =>
    let j := ys.length
    let d := FVal.sum .rn [wordVal (x.getD j 0), (wordVal (x.getD (j - 1) 0)).neg]
    let y := rne32 (plusZero (FVal.sum .rn [wordVal (ys.getLastD 0), (wordVal (k.getD (j - 1) 0)).mul d]))
    knots x k n (ys ++ [BitVec.ofNat 32 y])

def finite32 (w : Word) : Bool := match wordVal w with | .fin _ _ _ => true | _ => false

/-- A list of words rises strictly as FP32 values. -/
def risesFp : List Word → Bool
  | a :: b :: r => fpLt (wordVal a) (wordVal b) && risesFp (b :: r)
  | _ => true

/-- The curve a 144-byte record installs; none where R59 refuses it. -/
def curveOfRecord (bs : List Byte) : Option Curve :=
  let ws (base : Nat) : List Word := (List.range 16).map fun j => fieldWord bs (base + 4 * j)
  let x := ws 0x10
  let k := ws 0x50
  let y0 := fieldWord bs 0
  let y := knots x k 15 [y0]
  let ok := (x ++ k ++ [y0]).all finite32 && ((bs.drop 4).take 12).all (· = 0) && risesFp x &&
    k.all (fun w => fpLe (.fin false 1 (-126)) (wordVal w)) && y.all finite32 && risesFp y
  if ok then some ⟨x, y, k⟩ else none

/-- The curve of a slot of a context; slot 0, and a slot nothing was installed into, are the identity (R58, R131). -/
def Context.curve (c : Context) (slot : Nat) : Option Curve := if slot = 0 then none else assocGet c.curves slot

def State.laneCurve (s : State) (l : Lane) (v : QWord) : Option Curve :=
  (s.ctx (s.agent l.agent).ctx).curve (v.toNat % 16)

/-! ## Quantising -/

/-- EMAX of a microscaling format (R128). -/
def emax : MxFmt → Int
  | .e4m3 => 8
  | .e5m2 => 15
  | .e3m2 => 4
  | .e2m3 => 2
  | .e2m1 => 2
  | .mxi8 => 0

/-- The shared scale code of values held one per lane (R128). -/
def scaleCode (f : MxFmt) (ys : List Nat) : Nat :=
  let vs := ys.map (decodeFp fp32)
  if vs.any FVal.isNan then 0xFF
  else if vs.any FVal.isInf then 0xFE
  else
    let tops := vs.filterMap fun v => match v with
      | .fin _ m e => if m = 0 then none else some (leadExp m e)
      | _ => none
    match tops with
    | [] => 0
    | t :: ts => (min (max (ts.foldl max t - emax f + 127) 0) 254).toNat

/-- qscl: one scale for the active lanes of the caravan, helpers among them (R128). A signalling NaN under a slot 1-15 that
still holds the identity raises nothing (DESIGN CHOICE, assumption 68: R60 has the identity return its input bit for bit, R128
takes only the flags FWD raises, and the Invalid of R130 is stated for cpnd and cpndi). -/
def execQscl (k : MxFmt) (o : Operands) (s : State) : Out :=
  ({ sig := { dst := .w32, a := .f32, c := .b32 }
     perform := fun s ls =>
       let ys := ls.map fun l => curveFwd (s.laneCurve l l.c) l.a.toNat
       (s, ys.map fun y => { val := BitVec.ofNat 128 (scaleCode k (ys.map (·.1))), flags := y.2 }) } : Job).issue o.fields s

/-- One value under a scale code (R129). -/
def quantOne (f : MxFmt) (rm : Rounding) (sat : Bool) (c : Option Curve) (a scale : Nat) : LaneRes :=
  let y := curveFwd c a
  let g := mxFormat f
  if scale % 256 = 255 then
    { val := BitVec.ofNat 128 (roundFp g rm (.nan false) sat).1, flags := y.2 ||| flagInvalid }
  else
    let x := match decodeFp fp32 y.1 with
      | .fin n m e => FVal.fin n m (e + (127 - (scale % 256 : Nat) : Int))
      | v => v
    let r := cvtTo g rm sat x
    { val := BitVec.ofNat 128 r.1, flags := y.2 ||| r.2 }

/-- qnt: FWD, then one rounding under the scale (R129). -/
def execQnt (k : MxFmt) (o : Operands) (s : State) : Out :=
  ({ sig := { dst := .w32, a := .f32, b := .b32, c := .b32, ctlC := true }
     perform := fun s ls => (s, ls.map fun l =>
       quantOne k (ctlMode o.fields) (ctlSat o.fields) (s.laneCurve l l.c) l.a.toNat l.b.toNat) } : Job).issue o.fields s

/-! ## Companding -/

/-- A curve of a slot on a lane's A: for slots 1-15 a NaN gives the canonical NaN, also where the slot still holds the identity
(R130, R131); any other value, -0 among them, the identity returns bit for bit, which keeps no exact zero to +0 (DESIGN CHOICE,
assumption 68: R60 states both). -/
def slotCurve (f : Option Curve → Nat → Nat × Flags) (s : State) (l : Lane) : Nat × Flags :=
  match decodeFp fp32 l.a.toNat with
  | .nan sg => if l.b.toNat % 16 = 0 then f none l.a.toNat else (fp32.nanCode, flagIf sg flagInvalid)
  | _ => f (s.laneCurve l l.b) l.a.toNat

/-- cpnd.f32 (R130). -/
def execCpnd (o : Operands) (s : State) : Out :=
  ({ sig := { dst := .w32, a := .f32, b := .b32 }
     perform := fun s ls => (s, ls.map fun l => oneRes (slotCurve curveFwd s l)) } : Job).issue o.fields s

/-- cpndi.f32 (R130). -/
def execCpndi (o : Operands) (s : State) : Out :=
  ({ sig := { dst := .w32, a := .f32, b := .b32 }
     perform := fun s ls => (s, ls.map fun l => oneRes (slotCurve curveInv s l)) } : Job).issue o.fields s

/-- The field number of source C (R379). -/
def fieldNoC (f : Fields) : Nat := if f.imm.isSome then 4 else 3

/-- A record of `n` bytes at an offset of the t: segment, aligned to `al`: TILE_BOUND first (R131, R112). -/
def recordFault (tileSize n al : Nat) (off : Int) : Option Trap :=
  let addr := BitVec.ofInt 64 off
  if off < 0 ∨ off + n > tileSize then some { code := .tileBound, info := 0, addr := addr }
  else if off % al ≠ 0 then some { code := .alignment, info := 0, addr := addr }
  else none

def cpinstCheck (f : Fields) (s : State) (l : Lane) : Option Trap :=
  let a := s.agent l.agent
  let slot := l.c.toNat % 2 ^ 32
  if slot = 0 ∨ slot > 15 then some (badField (fieldNoC f))
  else match recordFault (s.launch a.launch).tileSize 144 16 (privOffset l) with
    | some t => some t
    | none => if (curveOfRecord (s.tileNow a (privOffset l).toNat 144)).isSome then none else some (badField 5)

def cpinstLane (s : State) (l : Lane) : State × LaneRes :=
  let a := s.agent l.agent
  let (s1, bs) := s.readPriv l.agent .t (privOffset l).toNat 144
  match curveOfRecord bs with
  | some c => (s1.updCtx a.ctx fun k =>
      { k with curves := (l.c.toNat % 2 ^ 32, c) :: k.curves.filter fun e => e.1 ≠ l.c.toNat % 2 ^ 32 }, {})
  | none => (s1, {})

/-- cpinst: install a record into a slot, once per caravan (R131, R160). -/
def execCpinst (o : Operands) (s : State) : Out :=
  ({ sig := { a := .b32, b := .b32, c := .b32 }, uniform := true
     check := cpinstCheck o.fields
     perform := eachLane cpinstLane } : Job).issue o.fields s

/-! ## Random numbers -/

/-- One round on the counters and keys (R136). -/
def rngRound (k : Nat × Nat × Nat × Nat × Nat × Nat) : Nat × Nat × Nat × Nat × Nat × Nat :=
  let (k0, k1, c0, c1, c2, c3) := k
  let p0 := 0xD2511F53 * c0
  let p1 := 0xCD9E8D57 * c2
  ((k0 + 0x9E3779B9) % 2 ^ 32, (k1 + 0xBB67AE85) % 2 ^ 32,
    (p1 / 2 ^ 32) ^^^ c1 ^^^ k0, p1 % 2 ^ 32, (p0 / 2 ^ 32) ^^^ c3 ^^^ k1, p0 % 2 ^ 32)

def rngRounds : Nat → Nat × Nat × Nat × Nat × Nat × Nat → Nat × Nat × Nat × Nat × Nat × Nat
  | 0, k => k
  | n + 1, k => rngRounds n (rngRound k)

/-- rng.b128: ten rounds (R136). -/
def rng128 (key ctr : Nat) : Nat :=
  let (_, _, c0, c1, c2, c3) := rngRounds 10
    (bitsAt key 0 32, bitsAt key 32 32, bitsAt ctr 0 32, bitsAt ctr 32 32, bitsAt ctr 64 32, bitsAt ctr 96 32)
  packElems 32 [c0, c1, c2, c3]

def execRngB128 (o : Operands) (s : State) : Out :=
  (natJob { dst := .w128, a := .b64, b := .b128, imm := false } fun a b _ => rng128 a b).issue o.fields s

/-- rngu.f32: 24 random bits as a value in [0, 1) (R137). -/
def execRnguF32 (o : Operands) (s : State) : Out :=
  (natJob { dst := .w32, a := .b32 } fun a _ _ => rne32 (.fin false (a % 2 ^ 32 / 256) (-24))).issue o.fields s

end Sys2Proof.Machine
end

