-- ==== Sys2Proof/Machine/Manifest.lean ====
section
/-! DEFINITION. The manifest table (R260-R265), element addresses of an entry, engine accesses through it, mfset, mfget. -/

namespace Sys2Proof.Machine

/-! ## The record (R261, R262) -/

/-- Bits lo + n - 1 .. lo of a record. -/
def Manifest.fld (m : Manifest) (lo n : Nat) : Nat := bitsAt m.bits.toNat lo n

def Manifest.base (m : Manifest) : Nat := m.fld 0 64
def Manifest.sbase (m : Manifest) : Nat := m.fld 64 64
def Manifest.hbase (m : Manifest) : Nat := m.fld 128 64

/-- Extent of dimension d. -/
def Manifest.ext (m : Manifest) (d : Nat) : Nat := m.fld (192 + 16 * d) 16 + 1

/-- Byte stride of dimension d, 1 to 3. -/
def Manifest.stride (m : Manifest) (d : Nat) : Nat := m.fld (192 + 64 * d) 64
def Manifest.valid (m : Manifest) : Bool := bitAt m.bits.toNat 511
def Manifest.tile (m : Manifest) : Bool := bitAt m.bits.toNat 510
def Manifest.cmp (m : Manifest) : Bool := bitAt m.bits.toNat 509
def Manifest.sat (m : Manifest) : Bool := bitAt m.bits.toNat 508
def Manifest.scl (m : Manifest) : Bool := bitAt m.bits.toNat 507
def Manifest.curveSlot (m : Manifest) : Nat := m.fld (448 + 52) 4
def Manifest.fmt (m : Manifest) : Nat := m.fld (448 + 40) 5

/-- Bits of an element of a format code; 0 for a reserved code (R262 Table 3). -/
def fmtBits (c : Nat) : Nat :=
  ([8, 16, 32, 64, 128, 64, 32, 16, 16, 8, 8, 16, 16, 32, 32, 0] ++ [8, 8, 6, 6, 4, 8]).getD c 0

def fmtIsMx (c : Nat) : Bool := decide (0x10 ≤ c ∧ c ≤ 0x15)
def fmtIsInt (c : Nat) : Bool := decide (0x09 ≤ c ∧ c ≤ 0x0E)
def fmtSigned (c : Nat) : Bool := c = 0x09 || c = 0x0B || c = 0x0D

/-- A format whose values are floats: FP and microscaling codes, MXINT8 among them (DESIGN CHOICE, assumption 66: the manual
calls no list of formats the floats). -/
def fmtIsFloat (c : Nat) : Bool := decide (0x05 ≤ c ∧ c ≤ 0x08) || fmtIsMx c
def fmtIsNumeric (c : Nat) : Bool := fmtIsFloat c || fmtIsInt c
def fmtWholeByte (c : Nat) : Bool := fmtBits c % 8 = 0 && decide (fmtBits c > 0)

/-- The number format of a float code. -/
def fmtFloat (c : Nat) : FpFmt :=
  match c with
  | 0x05 => fp64
  | 0x06 => fp32
  | 0x07 => fp16
  | 0x08 => bf16
  | 0x10 => e4m3
  | 0x11 => e5m2
  | 0x12 => e3m2
  | 0x13 => e2m3
  | 0x14 => e2m1
  | _ => mxi8

/-- The microscaling format of a code. -/
def fmtMx (c : Nat) : MxFmt :=
  match c with
  | 0x10 => .e4m3
  | 0x11 => .e5m2
  | 0x12 => .e3m2
  | 0x13 => .e2m3
  | 0x14 => .e2m1
  | _ => .mxi8

/-! ## Addresses (R263) -/

/-- Bytes of `n` elements from the start of a row (n a multiple of 32 for the 6-bit formats). -/
def Manifest.bytesOf (m : Manifest) (n : Nat) : Nat := n * fmtBits m.fmt / 8

/-- EA: the byte address of element (i0, i1, i2, i3), i0 starting a byte. -/
def Manifest.ea (m : Manifest) (i0 i1 i2 i3 : Nat) : Nat :=
  m.base + m.bytesOf i0 + i1 * m.stride 1 + i2 * m.stride 2 + i3 * m.stride 3

/-- SA: the address of the scale of the block that holds element (i0, i1, i2, i3). -/
def Manifest.sa (m : Manifest) (i0 i1 i2 i3 : Nat) : Nat :=
  m.sbase + i0 / 32 + m.ext 0 / 32 * (i1 + m.ext 1 * (i2 + m.ext 2 * i3))

/-- END: the footprint's exclusive end. -/
def Manifest.footEnd (m : Manifest) : Nat :=
  m.base + m.bytesOf (m.ext 0) + (m.ext 1 - 1) * m.stride 1 + (m.ext 2 - 1) * m.stride 2 + (m.ext 3 - 1) * m.stride 3

/-! ## Capture (R265) -/

/-- Entry n of a context. -/
def Context.manifest (c : Context) (n : Nat) : Manifest := if n = 0 then {} else (assocGet c.manifests n).getD {}

/-- An entry an operation may name: m0 is always valid (R260). -/
def State.manifestFault (s : State) (ctx n : Nat) : Option Trap :=
  if n = 0 ∨ ((s.ctx ctx).manifest n).valid then none else some { code := .staleManifest, info := BitVec.ofNat 32 n }

/-- The curve of a captured entry: the slot's curve as it stands (R61). -/
def State.curveOf (s : State) (ctx : Nat) (m : Manifest) : Option Curve := (s.ctx ctx).curve m.curveSlot

/-! ## Engine accesses through an entry -/

/-- Where an engine operation works: its context, core, the share its tile planes lie in, and its number if it has one. -/
structure EngineAt where
  ctx : Nat
  core : Nat
  block : Nat
  pos : Nat
  op : Option Nat := none
deriving DecidableEq, Repr, Inhabited

def State.tileSizeOf (s : State) (b : Nat) : Nat := (s.launch (s.block b).launch).tileSize

/-- Read of a tile plane; what lies past the share reads zero (scales alone can, since END bounds the elements). -/
def State.planeRead (s : State) (e : EngineAt) (off n : Nat) : State × List Byte :=
  let lim := s.tileSizeOf e.block
  let k := min n (lim - off)
  let s1 := s.meetTile (some e.ctx) e.block e.pos off k
  (s1, s1.readTile e.block e.pos off k ++ List.replicate (n - k) 0)

/-- Write of a tile plane; what lies past the share is not written. -/
def State.planeWrite (s : State) (e : EngineAt) (off : Nat) (bs : List Byte) : State :=
  s.writeTile e.block e.pos off (bs.take (s.tileSizeOf e.block - off))

/-- Read of `n` bytes at an address of an entry. -/
def State.sideRead (s : State) (e : EngineAt) (m : Manifest) (acc : Access) (addr n : Nat) : Except AccessFault (State × List Byte) :=
  if m.tile then .ok (s.planeRead e addr n)
  else (s.access e.ctx e.core acc (addr % 2 ^ 64) n).map fun ps => (s.walked e.ctx ps).readMerged e.ctx ps

/-- Write of bytes at an address of an entry. -/
def State.sideWrite (s : State) (e : EngineAt) (m : Manifest) (acc : Access) (addr : Nat) (bs : List Byte) : Except AccessFault State :=
  if m.tile then .ok (s.planeWrite e addr bs) else s.engineWrite e.ctx e.core acc (addr % 2 ^ 64) bs e.op

/-! ## Records of an edge (R344, R349) -/

/-- Rows of an edge, record r, and bytes of a record (R344). -/
def Manifest.rows (m : Manifest) : Nat := m.ext 1 * m.ext 2 * m.ext 3
def Manifest.rowAddr (m : Manifest) (r : Nat) : Nat := m.ea 0 (r % m.ext 1) (r / m.ext 1 % m.ext 2) (r / (m.ext 1 * m.ext 2))
def Manifest.rowBytes (m : Manifest) : Nat := 16 * m.ext 0

/-- A piece cut at 16-byte boundaries. -/
def Piece.granules (p : Piece) : List Piece :=
  (List.range ((p.pa + p.len + 15) / 16 - p.pa / 16)).map fun i =>
    let lo := max p.pa ((p.pa / 16 + i) * 16)
    { p with va := p.va + (lo - p.pa), pa := lo, len := min (p.pa + p.len) ((p.pa / 16 + i + 1) * 16) - lo }

/-- Hand the granules of a record to their home slices: acknowledged writes of the agent's core (R349). -/
def State.pendRecord (s : State) (i : Nat) (ps : List Piece) (bs : List Byte) : State :=
  let a := s.agent i
  let s1 := (ps.filter fun p => s.isPeer p.pa).foldl (fun t p => t.sendRemote a.ctx (s.coreOf a) p.pa none) s
  s1.pendUnits i ((pieceUnits (ps.flatMap Piece.granules) bs).filter fun u => u.2.all fun c => !s.isPeer c.1)

/-- The record of index `n` of an edge, if that lies below its capacity. -/
def State.emitRecord (s : State) (i : Nat) (m : Manifest) (n : Nat) (bs : List Byte) : State :=
  let a := s.agent i
  if n < m.rows then
    match s.access a.ctx (s.coreOf a) accWrite (m.rowAddr n) m.rowBytes with
    | .ok ps => (s.walked a.ctx ps).pendRecord i ps bs
    | .error _ => s
  else s

/-! ## Elements -/

/-- The bytes of a row that hold elements i0 .. i0 + n - 1: first byte and count. -/
def Manifest.codeRange (m : Manifest) (i0 n : Nat) : Nat × Nat :=
  let w := fmtBits m.fmt
  (w * i0 / 8, (w * (i0 + n) + 7) / 8 - w * i0 / 8)

/-- The codes of elements i0 .. i0 + n - 1 in those bytes (R55). -/
def Manifest.unpack (m : Manifest) (i0 n : Nat) (bs : List Byte) : List Nat :=
  let w := fmtBits m.fmt
  let v := leNat bs
  (List.range n).map fun i => bitsAt v (w * i0 % 8 + w * i) w

/-- The entry's blocks have stored scales. -/
def Manifest.scaled (m : Manifest) : Bool := fmtIsMx m.fmt && m.scl

/-- Blocks that elements i0 .. i0 + n - 1 touch: the first and their count. -/
def blockRange (i0 n : Nat) : Nat × Nat := (i0 / 32, (i0 + n + 31) / 32 - i0 / 32)

/-- A state so far, or the fault that stops the operation. -/
abbrev Landing (α : Type) := Except AccessFault (State × α)

/-- The codes of n elements of a row, each with its block's scale. -/
def State.readCodes (s : State) (e : EngineAt) (m : Manifest) (i0 i1 i2 i3 n : Nat) : Landing (List (Nat × Nat)) :=
  let (b0, len) := m.codeRange i0 n
  match s.sideRead e m accRead (m.ea 0 i1 i2 i3 + b0) len with
  | .error f => .error f
  | .ok (s1, bs) =>
    let codes := m.unpack i0 n bs
    let (k0, nk) := blockRange i0 n
    match (if m.scaled then s1.sideRead e m accRead (m.sa (32 * k0) i1 i2 i3) nk else .ok (s1, [])) with
    | .error f => .error f
    | .ok (s2, ss) =>
      .ok (s2, codes.zipIdx.map fun x => (x.1, if m.scaled then (ss.getD ((i0 + x.2) / 32 - k0) 0).toNat else 0x7F))

/-! ## mfset, mfget (R264) -/

/-- Every VA field lies below 2^48. -/
def vaOk (v : Nat) : Bool := decide (v < 2 ^ 48)

/-- A record with VALID set that mfset accepts. -/
def Manifest.accepted (m : Manifest) : Bool :=
  m.fld (448 + 56) 3 = 0 && m.fld (448 + 45) 7 = 0 && m.fld 448 40 = 0 && decide (fmtBits m.fmt > 0) &&
    !(m.scl && !fmtIsMx m.fmt) && !(m.curveSlot ≠ 0 && !fmtIsFloat m.fmt) &&
    (if m.tile then !m.cmp && m.hbase = 0 && decide (m.base < 2 ^ 32) && decide (m.sbase < 2 ^ 32)
     else vaOk m.base && vaOk m.sbase && vaOk m.hbase)

/-- The entry after an accepted record: with VALID clear every field is zero (R264). The next capture by any agent sees it
(DESIGN CHOICE, assumption 57: a capture that nothing orders after the mfset may also take the old record, R265). -/
def Context.setManifest (c : Context) (n : Nat) (bits : BitVec 512) : Context :=
  let m : Manifest := { bits := bits }
  let e : Manifest := { bits := if m.valid then bits else 0, gen := (c.manifest n).gen + 1 }
  { c with manifests := (n, e) :: c.manifests.filter fun x => x.1 ≠ n }

/-- Only MFA and SA are read. -/
def onlyMfa (x : Extended) : Bool := x.mfb = 0 && x.sci = 0 && x.sub = 0 && x.flags = 0 && x.spec = 0

def mfSig (x : Extended) (drover : Bool) : Sig :=
  { dst := .w32, a := if drover then .record else .b32, drover := true, ctlOk := fun _ => onlyMfa x }

/-- Where the record lies: 64 bytes of t:, or the d registers that SA names. -/
def recordPlace (s : State) (l : Lane) : Option Trap :=
  let a := s.agent l.agent
  if a.drover then none else recordFault (s.launch a.launch).tileSize 64 16 (l.a.toNat % 2 ^ 32 : Nat)

/-- The record a lane names, as it stands. -/
def State.recordBits (s : State) (x : Extended) (l : Lane) : BitVec 512 :=
  let a := s.agent l.agent
  if a.drover then
    BitVec.ofNat 512 (packElems 64 ((List.range 8).map fun j => (a.pair (2 * (x.sa.toNat + j))).toNat))
  else BitVec.ofNat 512 (leNat (s.tileNow a (l.a.toNat % 2 ^ 32) 64))

def mfsetCheck (x : Extended) (s : State) (l : Lane) : Option Trap :=
  match recordPlace s l with
  | some t => some t
  | none =>
    let m : Manifest := { bits := s.recordBits x l }
    if x.mfa = 0 ∨ (m.valid ∧ !m.accepted) then some (badField 5) else none

def mfsetLane (x : Extended) (s : State) (l : Lane) : State × LaneRes :=
  let a := s.agent l.agent
  let s0 := if a.drover then s else s.meetTile (some a.ctx) a.block a.pos (l.a.toNat % 2 ^ 32) 64
  let s1 := s0.updCtx a.ctx fun c => c.setManifest x.mfa.toNat (s0.recordBits x l)
  (s1, { val := ((s1.ctx a.ctx).manifest x.mfa.toNat).gen.setWidth 128 })

/-- mfset d, mN, record (R264). -/
def execMfset (x : Extended) (s : State) : Out :=
  ({ sig := mfSig x s.focusDrover, uniform := true
     check := mfsetCheck x
     perform := eachLane (mfsetLane x) } : Job).issue x.fields s

def mfgetLane (x : Extended) (s : State) (l : Lane) : State × LaneRes :=
  let a := s.agent l.agent
  let m := (s.ctx a.ctx).manifest x.mfa.toNat
  let bits : BitVec 512 := if x.mfa = 0 then 1#512 <<< 511 else m.bits
  let s1 :=
    if a.drover then s.updAgent l.agent fun b =>
      (List.range 8).foldl (fun (r : Agent) j => r.setPair (2 * (x.sa.toNat + j)) (BitVec.ofNat 64 (elemAt 64 j bits.toNat))) b
    else s.writeTile a.block a.pos (l.a.toNat % 2 ^ 32) (leBytes 64 bits.toNat)
  (s1, { val := m.gen.setWidth 128 })

/-- mfget d, mN, record (R264). -/
def execMfget (x : Extended) (s : State) : Out :=
  ({ sig := mfSig x s.focusDrover, uniform := true
     check := recordPlace
     perform := eachLane (mfgetLane x) } : Job).issue x.fields s

end Sys2Proof.Machine
end

