-- ==== Sys2Proof/Machine/Convoy.lean ====
section
/-! DEFINITION. Convoys (R266-R286, R383, R428): issue, the landing of stream bytes, completion, faults and replay. -/

namespace Sys2Proof.Machine

/-! ## Fields (R266, R267) -/

/-- An extent field of SPEC, each minus 1. -/
def convoyExt (x : Extended) (d : Nat) : Nat := bitsAt x.spec.toNat (11 * d) 11 + 1
def convoyChunks (x : Extended) : Nat := bitsAt x.spec.toNat 0 20 + 1
def convoyPtn (x : Extended) : Bool := bitAt x.flags.toNat 5
def convoyRec (x : Extended) : Bool := bitAt x.flags.toNat 4
def convoyCsp (x : Extended) : Bool := bitAt x.flags.toNat 3
def convoyChan (x : Extended) : Nat := x.flags.toNat % 8

/-- The words of an origin quad. -/
def quadWords (v : QWord) : List Nat := (List.range 4).map fun d => elemAt 32 d v.toNat

def Transform.isChunk : Transform → Bool
  | .cmpr => true
  | .dcmp => true
  | _ => false

/-- Sources B and C are origin quads, but for index lists and chunk numbers (R267 Table 5). -/
def convoySig (k : Transform) (x : Extended) : Sig where
  dst := .w64
  a := if convoyCsp x then .b64 else .b32
  b := if k = .scat ∨ k.isChunk then .b32 else .origins
  c := if k = .gath ∨ k.isChunk then .b32 else .origins
  ctlOk := fun _ => !(convoyPtn x && k ≠ .mcst && k ≠ .a2a) && !(k.isChunk && bitsAt x.spec.toNat 20 24 ≠ 0)

/-- The SUB values a transform allows (R267, R428). -/
def convoySubOk (k : Transform) (sub : Nat) : Bool :=
  match k with
  | .conv => decide (sub < 4)
  | .mcst => sub ≠ 0
  | _ => sub = 0

/-- Extents of the region. -/
def convoyExtents (k : Transform) (x : Extended) : List Nat :=
  if k.isChunk then [256, convoyChunks x, 1, 1] else (List.range 4).map (convoyExt x)

/-- Origins of the source and the destination. -/
def convoyOrigins (k : Transform) (l : Lane) : List Nat × List Nat :=
  match k with
  | .gath => (quadWords l.b, [0, 0, 0, 0])
  | .scat => ([0, 0, 0, 0], quadWords l.c)
  | .cmpr | .dcmp => ([l.b.toNat % 2 ^ 32, l.c.toNat % 2 ^ 32], [])
  | _ => (quadWords l.b, quadWords l.c)

/-- The extents of the destination region: cvy.trn exchanges e0 and e1 (DESIGN CHOICE, assumption 58: in the row on MX sides
too). -/
def destExtents (k : Transform) (e : List Nat) : List Nat :=
  if k = .trn then [e.getD 1 1, e.getD 0 1, e.getD 2 1, e.getD 3 1] else e

/-! ## Table 6 of R269 -/

/-- One side of a convoy: its index, entry, origin, extents, the dimension whose coordinates are not an origin's, and
whether it is the compressed side. -/
structure Side where
  no : Nat
  m : Manifest
  org : List Nat
  ext : List Nat
  free : Option Nat
  packed : Bool

/-- A base, or a stride that is used, is no multiple of 16. -/
def Side.misaligned (d : Side) : Bool :=
  d.m.base % 16 ≠ 0 || (!d.packed && [1, 2, 3].any fun k => decide (d.m.ext k > 1) && d.m.stride k % 16 ≠ 0)

def Side.mxBroken (d : Side) (chunk : Bool) : Bool :=
  fmtIsMx d.m.fmt && (d.m.ext 0 % 32 ≠ 0 || (!chunk && (d.org.getD 0 0 % 32 ≠ 0 || d.ext.getD 0 1 % 32 ≠ 0)))

def Side.outside (d : Side) (chunk : Bool) : Bool :=
  !chunk && (List.range 4).any fun k => d.free ≠ some k && decide (d.org.getD k 0 + d.ext.getD k 1 > d.m.ext k)

/-- What R281 asks of a compressed entry. -/
def packedOk (m : Manifest) : Bool :=
  m.cmp && !m.tile && m.fmt = 0 && !m.scl && (m.ext 0 * m.ext 1 * m.ext 2 * m.ext 3) % 256 = 0 && m.hbase % 4 = 0 && m.base % 256 = 0

/-- Devices of a mask in ascending order. -/
def devicesOf (mask : BitVec 1024) : List Nat :=
  if mask = 0 then [] else (List.range 1024).filter fun d => mask.toNat.testBit d

/-- The stream bytes of a convoy (R274). -/
def streamBytes (k : Transform) (d : Manifest) (e : List Nat) : Nat :=
  if k.isChunk then 256 * e.getD 1 1 else d.bytesOf (e.getD 0 1 * e.getD 1 1 * e.getD 2 1 * e.getD 3 1)

/-- The conditions that raise CONVOY_OPERAND with the index each reports, in the table's order. -/
def State.convoyConditions (s : State) (k : Transform) (x : Extended) (l : Lane) (devs : List Nat) : List (Bool × Nat) :=
  let a := s.agent l.agent
  let c := s.ctx a.ctx
  let e := convoyExtents k x
  let o := convoyOrigins k l
  let ms := c.manifest x.mfa.toNat
  let md := c.manifest x.mfb.toNat
  let src : Side := ⟨x.mfa.toNat, ms, o.1, e, if k = .gath then some 1 else none, k = .dcmp⟩
  let dst : Side := ⟨x.mfb.toNat, md, o.2, destExtents k e, if k = .scat then some 1 else none, k = .cmpr⟩
  let sides := [src, dst]
  let each (f : Side → Bool) : List (Bool × Nat) := sides.map fun d => (f d, d.no)
  let chunk := k.isChunk
  let tileSide := if k = .cmpr then src else dst
  let packSide := if k = .cmpr then dst else src
  let off := o.1.getD 1 0
  let n := convoyChunks x
  let image := packSide.m.ext 0 * packSide.m.ext 1 * packSide.m.ext 2 * packSide.m.ext 3
  let cores := (s.block a.block).shares.length
  each (fun d => d.no = 0) ++ each Side.misaligned ++ each (fun d => d.mxBroken chunk) ++ each (fun d => d.outside chunk) ++
  each (fun d => d.m.tile && decide (d.m.footEnd > s.tileSizeOf a.block)) ++
  each (fun d => d.m.cmp && !d.packed) ++
  [((k = .copy || k = .gath || k = .scat || k = .mcst || k = .a2a) && (ms.fmt ≠ md.fmt || ms.scl != md.scl), src.no),
   (k = .trn && (ms.fmt ≠ md.fmt || !fmtWholeByte ms.fmt || ms.scl), src.no), (k = .trn && md.scl, dst.no)] ++
  each (fun d => k = .conv && !fmtIsNumeric d.m.fmt) ++
  [(k = .mcst && ms.tile, src.no), (k = .mcst && !md.tile, dst.no),
   (k = .mcst && ((List.range 4).any (fun p => x.sub.toNat.testBit p && decide (p ≥ cores)) ||
      (convoyPtn x && !(s.launch a.launch).paired)), 0x100),
   (chunk && !tileSide.m.tile, tileSide.no), (chunk && !packedOk packSide.m, packSide.no),
   (chunk && (off % 16 ≠ 0 || decide (off + 256 * n > tileSide.m.footEnd - tileSide.m.base)), tileSide.no),
   (chunk && decide (o.1.getD 0 0 + n > image / 256), packSide.no),
   (decide (streamBytes k md e > 64 * 2 ^ 20), 0x100),
   (k = .a2a && (!convoyCsp x || convoyRec x || convoyPtn x), 0x100), (k = .a2a && md.tile, dst.no),
   (k = .a2a && e.getD 1 1 % (max 1 devs.length) ≠ 0, 0x100)]

/-! ## The checks at issue (R269, R428) -/

/-- The VA or offset of the completion object, and its size. -/
def convoyObject (k : Transform) (x : Extended) : Access × Nat :=
  if k = .a2a then (accAtom, 8) else (accObar, if convoyRec x then 32 else 8)

def State.convoyObjectFault (s : State) (k : Transform) (x : Extended) (l : Lane) : Option Trap :=
  let (acc, n) := convoyObject k x
  if convoyCsp x then s.vFault l acc 3 (vaBase l) n true
  else privFault .t n (s.tileSizeOf (s.agent l.agent).block) (l.a.toNat % 2 ^ 32 : Nat)

/-- The page of the object of cvy.a2a translates outside local HBM4 and LPDDR. -/
def State.a2aObjectBad (s : State) (l : Lane) : Bool :=
  let a := s.agent l.agent
  match s.lookup a.ctx (s.coreOf a) (vaBase l) with
  | some t => !(s.region t.pa).isMain
  | none => false

def convoyCheck (k : Transform) (x : Extended) (s : State) (l : Lane) : Option Trap :=
  let a := s.agent l.agent
  let sci := x.sci.toNat
  orElseTrap (s.manifestFault a.ctx x.mfa.toNat) <|
  orElseTrap (s.manifestFault a.ctx x.mfb.toNat) <|
  orElseTrap (s.scopeFault a sci 6) <|
  orElseTrap (if convoySubOk k x.sub.toNat then none else some (badField 6)) <|
  let devs := if k = .a2a then devicesOf (s.resolveScope a.ctx (s.coreOf a) (s.coreList a) sci).peers else []
  let bad := (s.convoyConditions k x l devs).find? fun c => c.1
  match bad with
  | some c => some { code := .convoyOperand, info := BitVec.ofNat 32 c.2 }
  | none =>
    orElseTrap (if k = .a2a ∧ s.a2aObjectBad l then some { code := .convoyOperand, info := 0x100 } else none) <|
    orElseTrap (s.convoyObjectFault k x l) <|
    let list := if k = .gath then some (l.c.toNat % 2 ^ 32) else if k = .scat then some (l.b.toNat % 2 ^ 32) else none
    match list with
    | some off => recordFault (s.tileSizeOf a.block) (4 * (convoyExtents k x).getD 1 1) 4 (off : Nat)
    | none => none

/-! ## Issue (R265, R270, R272, R275) -/

/-- Command issue is a release of every wanting thread of the caravan (R234, R247). -/
def State.releaseCaravan (s : State) : State :=
  ((s.caravan (s.focus.getD 0)).members.filter (·.want)).foldl (fun t m => t.release0 m.agent) s

/-- A new engine operation of an agent. -/
def State.addOp (s : State) (a : Agent) (body : OpBody) : State :=
  let (n, s1) := s.draw
  { s1 with ops := s1.ops ++ [{ ctx := a.ctx, core := s.coreOf a, issuer := s.coreOf a, issued := n, launch := a.launch, body := body }] }

/-- Rows of an index list that name no row of an entry with this extent (R270). -/
def failedRows (idx : List Word) (ext : Nat) : List Nat :=
  (List.range idx.length).filter fun r => let k := idx.getD r 0; k ≠ 0xFFFFFFFF && decide (k.toNat > ext - 1)

/-- The destination row of row r of a scatter: none where nothing is written. Rows that name one destination land together,
and the highest has it (R270). -/
def scatRow (idx : List Word) (ext r : Nat) : Option Nat :=
  let k := idx.getD r 0
  if k = 0xFFFFFFFF ∨ k.toNat > ext - 1 then none else some k.toNat

/-- The shares that receive a convoy's tile writes: (block, position). -/
def State.receivers (s : State) (c : Convoy) : List (Nat × Nat) :=
  if c.kind = .mcst then
    let ps := (List.range 4).filter fun p => c.sub.testBit p
    ps.map (fun p => (c.block, p)) ++
      (if c.ptn then match (s.block c.block).mate with | some m => ps.map fun p => (m, p) | none => [] else [])
  else [(c.block, c.pos)]

/-- Raise or lower the inbound counters of a fill's receivers (R272). -/
def State.countInbound (s : State) (c : Convoy) (up : Bool) : State :=
  if c.kind = .mcst then
    (s.receivers c).foldl (fun t x => t.updShare x.1 x.2 fun sh =>
      { sh with inbound := if up then sh.inbound + 1 else sh.inbound - 1 }) s
  else s

/-- The index list a lane names, read once at issue. -/
def State.indexList (s : State) (a : Agent) (off n : Nat) : State × List Word :=
  let s1 := s.meetTile (some a.ctx) a.block a.pos off (4 * n)
  (s1, (List.range n).map fun r => BitVec.ofNat 32 (leNat (s1.readTile a.block a.pos (off + 4 * r) 4)))

/-- The completion object a lane names. -/
def State.objectOf (s : State) (l : Lane) (csp : Bool) : ObjRef :=
  let a := s.agent l.agent
  if csp then .virt (vaBase l) else .tile a.block a.pos (l.a.toNat % 2 ^ 32)

/-- Bytes of one row of the stream, and the number of rows of a plane (R274). -/
def Convoy.rowLen (c : Convoy) : Nat :=
  match c.kind with
  | .cmpr | .dcmp => 256
  | .trn => c.dst.bytesOf (c.ext.getD 1 1)
  | _ => c.dst.bytesOf (c.ext.getD 0 1)

def Convoy.rows (c : Convoy) : Nat := if c.kind = .trn then c.ext.getD 0 1 else c.ext.getD 1 1

/-- Rows of the stream in all. -/
def Convoy.allRows (c : Convoy) : Nat := c.rows * c.ext.getD 2 1 * c.ext.getD 3 1

/-- The segments that count as written at issue: the rows of a scatter that write nothing (R274). -/
def Convoy.idleRows (c : Convoy) : List (Nat × Nat) :=
  if c.kind = .scat then
    (List.range c.allRows).filterMap fun q =>
      if (scatRow c.idx (c.dst.ext 1) (q % c.rows)).isNone then some (q * c.rowLen, c.rowLen) else none
  else []

/-- How far the written part reaches from byte p (R276). -/
def coverFrom (landed : List (Nat × Nat)) : Nat → Nat → Nat
  | 0, p => p
  | n + 1, p =>
    match landed.find? fun x => decide (x.1 ≤ p) && decide (p < x.1 + x.2) with
    | some x => coverFrom landed n (x.1 + x.2)
    | none => p

def Convoy.reached (c : Convoy) : Nat := coverFrom c.landed (c.landed.length + 1) 0

/-- Byte p is written, or on its way to a peer. -/
def Convoy.hasLeft (c : Convoy) (p : Nat) : Bool :=
  (c.landed ++ c.sent.map (·.2)).any fun x => decide (x.1 ≤ p) && decide (p < x.1 + x.2)

/-- WPOS of the convoy's stream follows the written prefix. -/
def State.setWpos (s : State) (c : Convoy) : State :=
  s.updShare c.block c.pos fun sh => { sh with streams := updAt sh.streams c.chan fun st => { st with wpos := max st.wpos (c.start + c.reached) } }

/-- Put a convoy in flight and give the lane its END. -/
def issueConvoy (k : Transform) (x : Extended) (s0 : State) (l : Lane) : State × LaneRes :=
  let a := s0.agent l.agent
  let s := s0.releaseCaravan
  let e := convoyExtents k x
  let o := convoyOrigins k l
  let ms := (s.ctx a.ctx).manifest x.mfa.toNat
  let md := (s.ctx a.ctx).manifest x.mfb.toNat
  let listAt := if k = .gath then some (l.c.toNat % 2 ^ 32) else if k = .scat then some (l.b.toNat % 2 ^ 32) else none
  let (s1, idx) := match listAt with
    | some off => s.indexList a off (e.getD 1 1)
    | none => (s, [])
  let fails := if k = .gath then failedRows idx (ms.ext 1) else if k = .scat then failedRows idx (md.ext 1) else []
  let chan := convoyChan x
  let start := (((s.block a.block).share a.pos).streams.getD chan {}).last
  let sc := s.resolveScope a.ctx (s.coreOf a) (s.coreList a) x.sci.toNat
  let c0 : Convoy := {
    kind := k, block := a.block, pos := a.pos, chan := chan, start := start, len := streamBytes k md e, src := ms, dst := md,
    srcCurve := s.curveOf a.ctx ms, dstCurve := s.curveOf a.ctx md, so := o.1, dd := o.2, ext := e, idx := idx,
    sub := x.sub.toNat, ptn := convoyPtn x, wantRec := convoyRec x, obj := s.objectOf l (convoyCsp x),
    objVa := l.a.setWidth 64, scope := sc, failed := fails.length,
    first := match fails with | [] => 0xFFFFFFFF | r :: _ => r }
  let c := { c0 with landed := c0.idleRows }
  let s2 := s1.updShare a.block a.pos fun sh =>
    { sh with streams := updAt sh.streams chan fun st => { st with last := start + c.len } }
  let s3 := ((s2.countInbound c true).addOp a (.convoy c))
  (if s3.ops.any (fun p => match p.body with
      | .convoy d => p.state ≠ .done && d.block = c.block && d.pos = c.pos && d.chan = c.chan && decide (d.start < start)
      | _ => false) then s3 else s3.setWpos c,
    { val := BitVec.ofNat 128 (start + c.len) })

def convoyJob (k : Transform) (x : Extended) : Job :=
  { sig := convoySig k x, uniform := true, check := convoyCheck k x, perform := eachLane (issueConvoy k x) }

/-- cvy.copy (R270). -/
def execCvyCopy (x : Extended) (s : State) : Out := (convoyJob .copy x).issue x.fields s

/-- cvy.gath (R270). -/
def execCvyGath (x : Extended) (s : State) : Out := (convoyJob .gath x).issue x.fields s

/-- cvy.scat (R270). -/
def execCvyScat (x : Extended) (s : State) : Out := (convoyJob .scat x).issue x.fields s

/-- cvy.trn (R270). -/
def execCvyTrn (x : Extended) (s : State) : Out := (convoyJob .trn x).issue x.fields s

/-- cvy.conv (R271). -/
def execCvyConv (x : Extended) (s : State) : Out := (convoyJob .conv x).issue x.fields s

/-- cvy.cmpr (R284). -/
def execCvyCmpr (x : Extended) (s : State) : Out := (convoyJob .cmpr x).issue x.fields s

/-- cvy.dcmp (R285). -/
def execCvyDcmp (x : Extended) (s : State) : Out := (convoyJob .dcmp x).issue x.fields s

/-- cvy.mcst (R272). -/
def execCvyMcst (x : Extended) (s : State) : Out := (convoyJob .mcst x).issue x.fields s

/-- cvy.a2a (R428). -/
def execCvyA2a (x : Extended) (s : State) : Out := (convoyJob .a2a x).issue x.fields s

/-! ## Values of a conversion (R271) -/

/-- An element's exact value. -/
inductive NumVal where
  | int (i : Int)
  | fp (v : FVal)
deriving DecidableEq, Repr

def NumVal.exact : NumVal → FVal
  | .int i => fvalOfInt i
  | .fp v => v

/-- The value of a source element code under its block's scale. -/
def numOf (fmt code scale : Nat) : NumVal :=
  if fmtIsInt fmt then .int (if fmtSigned fmt then toSigned (fmtBits fmt) code else (code % 2 ^ fmtBits fmt : Nat))
  else if fmtIsMx fmt then .fp (mxval scale (decodeFp (fmtFloat fmt) code))
  else .fp (decodeFp (fmtFloat fmt) code)

/-- A code in a destination that is not microscaled. -/
def convOne (d : Manifest) (cv : Option Curve) (rm : Rounding) (v : NumVal) : Nat :=
  let w := fmtBits d.fmt
  if fmtIsInt d.fmt then
    match v with
    | .int i => wrapTo w (if d.sat then (if fmtSigned d.fmt then satS w i else satN w i) else i)
    | .fp x => wrapTo w (toInt w (fmtSigned d.fmt) rm x).1
  else
    let x := if d.curveSlot ≠ 0 then decodeFp fp32 (curveFwd cv (rne32 v.exact)).1 else v.exact
    (roundFp (fmtFloat d.fmt) rm x d.sat).1

/-- The codes and the scale of one destination block. -/
def convBlock (d : Manifest) (cv : Option Curve) (rm : Rounding) (vs : List NumVal) : List Nat × Nat :=
  let ys := vs.map fun v => (curveFwd cv (rne32 v.exact)).1
  let sc := if d.scl then scaleCode (fmtMx d.fmt) ys else 0x7F
  (ys.map fun y => (quantOne (fmtMx d.fmt) rm d.sat none y sc).val.toNat, sc)

/-! ## Landing (R270-R276, R280) -/

/-- Where convoy number `i` works. -/
def Convoy.site (i : Nat) (op : EngineOp) (c : Convoy) : EngineAt := ⟨op.ctx, op.core, c.block, c.pos, some i⟩

/-- Coordinates (i1, i2, i3) of a stream row. -/
def Convoy.rowAt (c : Convoy) (q : Nat) : Nat × Nat × Nat :=
  (q % c.rows, q / c.rows % c.ext.getD 2 1, q / (c.rows * c.ext.getD 2 1))

/-- Rank of the own device, and rows per device, of cvy.a2a. -/
def Convoy.peers (c : Convoy) : List Nat := devicesOf c.scope.peers
def Convoy.slab (c : Convoy) : Nat := c.ext.getD 1 1 / max 1 c.peers.length

/-- The destination address of the first byte of a row; none where the row writes nothing. -/
def Convoy.dstRow (s : State) (c : Convoy) (q : Nat) : Option Nat :=
  let (i1, i2, i3) := c.rowAt q
  let d (k : Nat) := c.dd.getD k 0
  match c.kind with
  | .dcmp => some (c.dst.base + c.so.getD 1 0 + 256 * q)
  | .gath => some (c.dst.ea 0 i1 i2 i3)
  | .scat => (scatRow c.idx (c.dst.ext 1) i1).map fun k => c.dst.ea (d 0) k (d 2 + i2) (d 3 + i3)
  | .a2a => some (c.dst.ea (d 0) (d 1 + (c.peers.idxOf s.mgmt.devnum) * c.slab + i1 % max 1 c.slab) (d 2 + i2) (d 3 + i3))
  | _ => some (c.dst.ea (d 0) (d 1 + i1) (d 2 + i2) (d 3 + i3))

/-- The destination coordinates of a row, for its scales. -/
def Convoy.dstCoord (s : State) (c : Convoy) (q : Nat) : Nat × Nat × Nat × Nat :=
  let (i1, i2, i3) := c.rowAt q
  let d (k : Nat) := c.dd.getD k 0
  match c.kind with
  | .gath => (0, i1, i2, i3)
  | .scat => (d 0, (scatRow c.idx (c.dst.ext 1) i1).getD 0, d 2 + i2, d 3 + i3)
  | .a2a => (d 0, d 1 + (c.peers.idxOf s.mgmt.devnum) * c.slab + i1 % max 1 c.slab, d 2 + i2, d 3 + i3)
  | _ => (d 0, d 1 + i1, d 2 + i2, d 3 + i3)

/-- The source coordinates of a row; none for a gathered row of zero bytes. -/
def Convoy.srcCoord (c : Convoy) (q : Nat) : Option (Nat × Nat × Nat × Nat) :=
  let (i1, i2, i3) := c.rowAt q
  let o (k : Nat) := c.so.getD k 0
  match c.kind with
  | .gath =>
    let k := c.idx.getD i1 0
    if k.toNat > c.src.ext 1 - 1 then none else some (o 0, k.toNat, o 2 + i2, o 3 + i3)
  | .scat => some (0, i1, i2, i3)
  | _ => some (o 0, o 1 + i1, o 2 + i2, o 3 + i3)

/-- The part of a row that lands with byte x of it: the 16-byte granule of the destination (R279); a chunk that is packed
counts as a whole. -/
def Convoy.segment (c : Convoy) (row : Option Nat) (x : Nat) : Nat × Nat :=
  if c.kind = .cmpr then (0, 256)
  else
    let a := row.getD 0
    let lo := (a + x) / 16 * 16 - a
    let hi := min c.rowLen ((a + x) / 16 * 16 + 16 - a)
    (lo, hi - lo)

/-- Elements lo .. lo + n - 1 of a source row at coordinates (o0, j1, j2, j3). -/
def Convoy.readNums (c : Convoy) (at_ : EngineAt) (o : Nat × Nat × Nat × Nat) (lo n : Nat) (s : State) : Landing (List NumVal) :=
  (s.readCodes at_ c.src (o.1 + lo) o.2.1 o.2.2.1 o.2.2.2 n).map fun r =>
    (r.1, r.2.map fun x =>
      let v := numOf c.src.fmt x.1 x.2
      if c.src.curveSlot ≠ 0 then NumVal.fp (decodeFp fp32 (curveInv c.srcCurve (rne32 v.exact)).1) else v)

/-- The rounding mode a conversion names. -/
def Convoy.rounding (c : Convoy) : Rounding := (Rounding.ofCode (c.sub % 4)).getD .rn

/-- The bytes of a segment of a row that no block or chunk makes. -/
def Convoy.bytesFor (c : Convoy) (at_ : EngineAt) (q lo n : Nat) (s : State) : Landing (List Byte) :=
  match c.srcCoord q with
  | none => .ok (s, List.replicate n 0)
  | some (o0, j1, j2, j3) =>
    match c.kind with
    | .conv =>
      let w := fmtBits c.dst.fmt
      (c.readNums at_ (o0, j1, j2, j3) (lo * 8 / w) (n * 8 / w) s).map fun r =>
        (r.1, leBytes n (packElems w (r.2.map (convOne c.dst c.dstCurve c.rounding))))
    | .trn =>
      let eb := fmtBits c.src.fmt / 8
      let (i1, _, _) := c.rowAt q
      (List.range (n / eb)).foldl (fun acc j =>
        match acc with
        | .error f => .error f
        | .ok (t, bs) =>
          (t.sideRead at_ c.src accRead (c.src.ea (o0 + i1) (c.so.getD 1 0 + lo / eb + j) j2 j3) eb).map fun r =>
            (r.1, bs ++ r.2)) (.ok (s, []) : Landing (List Byte))
    | _ => s.sideRead at_ c.src accRead (c.src.ea o0 j1 j2 j3 + lo) n

/-- Write bytes where the convoy's destination lies: its own share, every receiver's, the pages of a VA, or, for a peer's
part of cvy.a2a, the peer's memory. -/
def Convoy.put (c : Convoy) (at_ : EngineAt) (dev : Option Nat) (addr : Nat) (bs : List Byte) (s : State) : Except AccessFault State :=
  if c.dst.tile then .ok ((s.receivers c).foldl (fun t x => t.planeWrite { at_ with block := x.1, pos := x.2 } addr bs) s)
  else match s.access at_.ctx at_.core accWrite (addr % 2 ^ 64) bs.length with
    | .error f => .error f
    | .ok ps =>
      let s1 := s.walked at_.ctx ps
      match dev with
      | none => .ok (s1.writePieces at_.ctx at_.core ps bs at_.op)
      | some d =>
        if d = s.mgmt.devnum then .ok (s1.writePieces at_.ctx at_.core ps bs at_.op)
        else .ok (ps.foldl (fun t p => t.sendRemote at_.ctx at_.core (peerBase + d * peerWindow + p.pa) none at_.op) s1)

/-- The device a row of cvy.a2a goes to. -/
def Convoy.device (c : Convoy) (q : Nat) : Option Nat :=
  if c.kind = .a2a then c.peers[(c.rowAt q).1 / max 1 c.slab]? else none

/-- Compressed-side accesses. -/
def accPackRead : Access := { rd := true, compressed := true }
def accPackWrite : Access := { wr := true, compressed := true }

/-! ### Blocks and chunks

A block of an MX destination, and a chunk, is made once, and its bytes then land granule by granule. -/

/-- Stream bytes of a block or a chunk, and how many a row has. -/
def Convoy.unit (c : Convoy) : Nat := if c.kind.isChunk then 256 else c.dst.bytesOf 32
def Convoy.perRow (c : Convoy) : Nat := if c.kind.isChunk then 1 else c.rowLen / c.unit

/-- The destination stores scales. -/
def Convoy.scales (c : Convoy) : Bool := !c.kind.isChunk && fmtIsMx c.dst.fmt && c.dst.scl

/-- The bytes of the convoy's blocks are computed, not read. -/
def Convoy.computes (c : Convoy) : Bool := c.kind.isChunk || (c.kind = .conv && fmtIsMx c.dst.fmt)

/-- The address of the scale of block b of row q. -/
def Convoy.scaleAt (s : State) (c : Convoy) (q b : Nat) : Nat :=
  let (d0, d1, d2, d3) := c.dstCoord s q
  c.dst.sa (d0 + 32 * b) d1 d2 d3

/-- The blocks whose scales lie in one granule with that of block b of row q: those scales are written together (R279). -/
def Convoy.mates (s : State) (c : Convoy) (q b : Nat) : List (Nat × Nat) :=
  if !c.scales then [(q, b)]
  else (List.range c.allRows).flatMap fun r => (List.range c.perRow).filterMap fun k =>
    if (c.dstRow s r).isSome && c.device r = c.device q && c.scaleAt s r k / 16 = c.scaleAt s q b / 16 then some (r, k) else none

/-- The bytes and the scale of a block. -/
def Convoy.makeBlock (c : Convoy) (at_ : EngineAt) (q b : Nat) (s : State) : Landing (List Byte × Nat) :=
  match c.srcCoord q with
  | none => .ok (s, [], 0)
  | some (o0, j1, j2, j3) =>
    if c.kind = .conv then
      (c.readNums at_ (o0, j1, j2, j3) (32 * b) 32 s).map fun r =>
        let (codes, sc) := convBlock c.dst c.dstCurve c.rounding r.2
        (r.1, leBytes c.unit (packElems (fmtBits c.dst.fmt) codes), sc)
    else (s.sideRead at_ c.src accRead (c.src.sa (o0 + 32 * b) j1 j2 j3) 1).map fun r => (r.1, [], leNat r.2)

/-- Make blocks one after another. -/
def Convoy.makeBlocks (c : Convoy) (at_ : EngineAt) (ms : List (Nat × Nat)) (s : State) :
    Landing (List ((Nat × Nat) × List Byte × Nat)) :=
  ms.foldl (fun acc m => match acc with
    | .error f => .error f
    | .ok (t, xs) => (c.makeBlock at_ m.1 m.2 t).map fun r => (r.1, xs ++ [(m, r.2)])) (.ok (s, []))

/-- Requests to peers that operation `i` has sent from number `n` on. -/
def State.sentSince (s : State) (i n : Nat) : List Nat :=
  (s.remotes.filter fun r => r.op = some i && decide (n ≤ r.issued)).map (·.issued)

/-- What an attempt to go on with a convoy gives: a fault keeps what was done before it. -/
abbrev Progress := State × Convoy × Option AccessFault

/-- Block b of row q is made, with those whose scales share its granule; their scales are written (R274). -/
def Convoy.stageBlock (c : Convoy) (at_ : EngineAt) (i q b : Nat) (s : State) : Progress :=
  match c.makeBlocks at_ (c.mates s q b) s with
  | .error f => (s, c, some f)
  | .ok (s1, made) =>
    let put (t : Except AccessFault State) (x : (Nat × Nat) × List Byte × Nat) : Except AccessFault State :=
      match t with
      | .error f => .error f
      | .ok u => c.put at_ (c.device q) (c.scaleAt s x.1.1 x.1.2) [BitVec.ofNat 8 x.2.2] u
    match (if c.scales then made.foldl put (.ok s1) else .ok s1) with
    | .error f => (s1, c, some f)
    | .ok s2 =>
      let ws := s2.sentSince i s1.nonce
      (s2, { c with staged := made.map (fun x => ⟨x.1.1 * c.perRow + x.1.2, x.2.1, ws⟩) ++ c.staged }, none)

/-- Chunk k of cvy.cmpr is read and encoded, and its payload written, padded to 16 bytes; its header is left (R284). -/
def Convoy.stagePack (c : Convoy) (at_ : EngineAt) (i k : Nat) (s : State) : Progress :=
  match s.sideRead at_ c.src accRead (c.src.base + c.so.getD 1 0 + 256 * k) 256 with
  | .error f => (s, c, some f)
  | .ok (s1, b) =>
    let (cf, p) := chunkEncode b
    let pad := (p.length + 15) / 16 * 16 - p.length
    match s1.sideWrite at_ c.dst accPackWrite (c.dst.base + 256 * (c.so.getD 0 0 + k)) (p ++ List.replicate pad 0) with
    | .error f => (s1, c, some f)
    | .ok s2 =>
      (s2, { c with staged := ⟨k, leBytes 4 (chunkHeader cf p.length (chunkCheck b)), s2.sentSince i s1.nonce⟩ :: c.staged }, none)

/-- Chunk k of cvy.dcmp is read and decoded; one that fails gives zeros (R285, R286). -/
def Convoy.stageUnpack (c : Convoy) (at_ : EngineAt) (k : Nat) (s : State) : Progress :=
  let n := c.so.getD 0 0 + k
  match s.sideRead at_ c.src accPackRead (c.src.hbase + 4 * n) 4 with
  | .error f => (s, c, some f)
  | .ok (s1, hb) =>
    let h := leNat hb
    let plen := bitsAt h 21 9
    let want := if plenOk (bitsAt h 30 2) plen && bitsAt h 16 5 = 0 then plen else 0
    match s1.sideRead at_ c.src accPackRead (c.src.base + 256 * n) ((want + 15) / 16 * 16) with
    | .error f => (s1, c, some f)
    | .ok (s2, p) =>
      match chunkDecode h (p.take want) with
      | some out => (s2, { c with staged := ⟨k, out, []⟩ :: c.staged }, none)
      | none =>
        (s2, { c with staged := ⟨k, List.replicate 256 0, []⟩ :: c.staged, failed := c.failed + 1, first := min c.first k }, none)

/-- Make block or chunk b of row q unless that has been done. -/
def Convoy.stage (c : Convoy) (at_ : EngineAt) (i q b : Nat) (s : State) : Progress :=
  if c.staged.any fun x => x.no = q * c.perRow + b then (s, c, none)
  else match c.kind with
    | .cmpr => c.stagePack at_ i q s
    | .dcmp => c.stageUnpack at_ q s
    | _ => c.stageBlock at_ i q b s

/-- The blocks that the bytes lo .. lo + n - 1 of a row touch. -/
def Convoy.blocksOf (c : Convoy) (lo n : Nat) : List Nat :=
  if c.scales || c.computes then (List.range ((lo + n + c.unit - 1) / c.unit - lo / c.unit)).map (· + lo / c.unit) else []

/-- What lands in one event with the bytes lo .. lo + n - 1 of row q, as (row, first byte, bytes): all that the convoy writes
to that 16-byte granule of the destination, or to that granule of chunk headers, in the order of the rows (R279). -/
def Convoy.party (s : State) (c : Convoy) (q lo n : Nat) : List (Nat × Nat × Nat) :=
  if c.kind = .cmpr then
    let granule (k : Nat) : Nat := (c.dst.hbase + 4 * (c.so.getD 0 0 + k)) / 16
    (List.range c.allRows).filterMap fun k => if granule k = granule q then some (k, 0, 256) else none
  else match c.dstRow s q with
    | none => [(q, lo, n)]
    | some a =>
      let g := (a + lo) / 16 * 16
      (List.range c.allRows).filterMap fun r =>
        (c.dstRow s r).bind fun b =>
          if max b g < min (b + c.rowLen) (g + 16) ∧ c.device r = c.device q then
            some (r, max b g - b, min (b + c.rowLen) (g + 16) - max b g)
          else none

/-- Make every block that some segments touch. -/
def Convoy.stageAll (c : Convoy) (at_ : EngineAt) (i : Nat) (ps : List (Nat × Nat × Nat)) (s : State) : Progress :=
  (ps.flatMap fun x => (c.blocksOf x.2.1 x.2.2).map fun b => (x.1, b)).foldl (fun r x => match r with
    | (t, d, none) => d.stage at_ i x.1 x.2 t
    | (t, d, some f) => (t, d, some f)) (s, c, none)

/-- A staged block of a row. -/
def Convoy.stagedAt (c : Convoy) (q b : Nat) : Staged := (c.staged.find? fun x => x.no = q * c.perRow + b).getD default

/-- A segment is written; with requests to peers unacknowledged it is on its way. -/
def Convoy.leave (c : Convoy) (first n : Nat) (waits : List Nat) : Convoy :=
  if waits.isEmpty then { c with landed := (first, n) :: c.landed } else { c with sent := (waits, first, n) :: c.sent }

/-- The bytes of a segment whose blocks are made; of a packed chunk, its header. -/
def Convoy.segmentBytes (c : Convoy) (at_ : EngineAt) (q lo n : Nat) (s : State) : Landing (List Byte) :=
  if c.kind = .cmpr then .ok (s, (c.stagedAt q 0).bytes)
  else if c.computes then
    let bs := (c.blocksOf lo n).flatMap fun b => (c.stagedAt q b).bytes
    .ok (s, (bs.drop (lo - lo / c.unit * c.unit)).take n)
  else c.bytesFor at_ q lo n s

/-- Write a segment whose bytes are made. -/
def Convoy.writeSegment (c : Convoy) (at_ : EngineAt) (q lo : Nat) (bs : List Byte) (s : State) : Except AccessFault State :=
  if c.kind = .cmpr then s.sideWrite at_ c.dst accPackWrite (c.dst.hbase + 4 * (c.so.getD 0 0 + q)) bs
  else match c.dstRow s q with
    | none => .ok s
    | some addr => c.put at_ (c.device q) (addr + lo) bs s

/-- Where rows cover one byte, the segments agree on it: it is one of theirs, a free choice, but that of scattered rows with one
destination the last counts (R270). -/
def Convoy.agree (s : State) (c : Convoy) (n : Nat) (xs : List (Nat × Nat × List Byte)) : List (Nat × Nat × List Byte) :=
  let live := xs.filter fun x => !(c.kind = .scat && xs.any fun y => decide (x.1 < y.1) && c.dstRow s x.1 = c.dstRow s y.1)
  let start (x : Nat × Nat × List Byte) : Option Nat := (c.dstRow s x.1).map (· + x.2.1)
  xs.map fun x => match start x with
    | none => x
    | some a => (x.1, x.2.1, x.2.2.zipIdx.map fun b =>
        let cover := live.filterMap fun y => (start y).bind fun p => if p ≤ a + b.2 then y.2.2[a + b.2 - p]? else none
        cover.getD (Config.choice (n + (a + b.2) % 16) % cover.length) b.1)

/-- Write some segments, once the bytes of all are read. -/
def Convoy.writeAll (c : Convoy) (at_ : EngineAt) (ps : List (Nat × Nat × Nat)) (s : State) : Except AccessFault State :=
  let read : Landing (List (Nat × Nat × List Byte)) := ps.foldl (fun acc x => match acc with
    | .error f => .error f
    | .ok (t, xs) => (c.segmentBytes at_ x.1 x.2.1 x.2.2 t).map fun r => (r.1, xs ++ [(x.1, x.2.1, r.2)])) (.ok (s, []))
  match read with
  | .error f => .error f
  | .ok (s1, xs) =>
    let (n, s2) := if xs.length > 1 then s1.draw else (0, s1)
    (if xs.length > 1 && c.kind ≠ .cmpr then c.agree s n xs else xs).foldl (fun acc x => match acc with
    | .error f => .error f
    | .ok t => c.writeSegment at_ x.1 x.2.1 x.2.2 t) (.ok s2)

/-- Land the segment of stream byte p of operation `i`, with what shares its granule (R274, R276, R279, R286). -/
def Convoy.land (c : Convoy) (i : Nat) (op : EngineOp) (p : Nat) (s : State) : Progress :=
  let at_ := c.site i op
  let q := p / c.rowLen
  let (lo, n) := c.segment (c.dstRow s q) (p % c.rowLen)
  let ps := c.party s q lo n
  match c.stageAll at_ i ps s with
  | (s1, c1, some f) => (s1, c1, some f)
  | (s1, c1, none) => match c1.writeAll at_ ps s1 with
    | .error f => (s1, c1, some f)
    | .ok s2 =>
      let sent := s2.sentSince i s1.nonce
      (s2, ps.foldl (fun d x => d.leave (x.1 * c.rowLen + x.2.1) x.2.2
        (sent ++ (c1.blocksOf x.2.1 x.2.2).flatMap fun b => (c1.stagedAt x.1 b).waits)) c1, none)

/-! ## Stopping, completing (R277, R278, R383) -/

/-- Post ENGINE_FAULT; its number is the handle (R383, R404). -/
def State.engineFault (s : State) (ctx core : Nat) (f : AccessFault) (chan engine : Nat) : DWord × State :=
  s.postEvent evEngineFault ctx core (BitVec.ofNat 64 f.va) (BitVec.ofNat 64 (f.code.code.toNat + chan * 2 ^ 16 + engine * 2 ^ 20))

/-- Write a completion record at an offset of its object, which is translated anew; one in v: is a signal that an acquire may
observe (R247, R277), and one on a peer is a request to its home (R424). -/
def State.writeObjAt (s : State) (ctx core : Nat) (acc : Access) (r : ObjRef) (off : Nat) (bs : List Byte)
    (op : Option Nat := none) : Except AccessFault State :=
  match r with
  | .tile b p o => .ok (s.writeTile b p (o + off) bs)
  | .virt va => (s.access ctx core acc (va + off) bs.length).map fun ps =>
    let pa := (ps.headD default).pa
    let s0 := s.walked ctx ps
    if s.isPeer pa then s0.sendRemote ctx core pa none op else (s0.writePa ctx pa bs).signalled pa bs.length

/-- The completion record (R277 Table 7). -/
def Convoy.record (c : Convoy) (status : BitVec 16) (last : Nat) : List Byte :=
  leBytes 8 last ++ leBytes 2 status.toNat ++ leBytes 2 (min c.failed 0xFFFF) ++ leBytes 4 c.first

def State.writeRecord (s : State) (op : EngineOp) (c : Convoy) (status : BitVec 16) (last : Nat) : Except AccessFault State :=
  if c.wantRec then s.writeObjAt op.ctx op.core accObar c.obj 16 (c.record status last) else .ok s

def State.setOp (s : State) (i : Nat) (st : OpState) (b : OpBody) : State := s.updOp i fun o => { o with state := st, body := b }

/-- The state after a write that may fault, or as it was: the last write of an operation that stops anyway. -/
def State.orKeep (s : State) (r : Except AccessFault State) : State := match r with | .ok t => t | .error _ => s

/-- A convoy stops on a fault (R278). -/
def State.stopConvoy (s : State) (i : Nat) (op : EngineOp) (c : Convoy) (f : AccessFault) : State :=
  let s1 := s.orKeep (s.writeRecord op c f.code.code (c.start + c.reached))
  let s2 := if c.reached < c.len then s1.countInbound c false else s1
  let (h, s3) := s2.engineFault op.ctx op.core f c.chan 0
  s3.setOp i (.stopped f.code.code (BitVec.ofNat 64 f.va) h) (.convoy c)

/-- The convoy after `c` on its stream may have bytes that counted as written at issue. -/
def State.wakeStream (s : State) (c : Convoy) : State :=
  match s.ops.findSome? (fun o => match o.body with
      | .convoy d => if o.state ≠ .done && d.block = c.block && d.pos = c.pos && d.chan = c.chan && d.start = c.start + c.len
          then some d else none
      | _ => none) with
  | some d => s.setWpos d
  | none => s

/-- An earlier convoy of the same stream has not completed (R273). -/
def State.streamBusy (s : State) (c : Convoy) : Bool :=
  s.ops.any fun o => match o.body with
    | .convoy d => o.state ≠ .done && d.block = c.block && d.pos = c.pos && d.chan = c.chan && decide (d.start < c.start)
    | _ => false

/-- The convoy of a running operation that may write. -/
def State.runningConvoy (s : State) (i : Nat) : Option (EngineOp × Convoy) :=
  match s.ops[i]? with
  | some op => match op.state, op.body with
    | .running, .convoy c => if s.streamBusy c || (s.block c.block).state = .saved || (s.block c.block).state = .stored then none else some (op, c)
    | _, _ => none
  | none => none

/-- A segment of convoy `i` is written: the prefix, and the end of its part in its receivers' counters (R272, R276). -/
def State.afterLanding (s : State) (i : Nat) : State :=
  match s.ops[i]? with
  | some o => match o.body with
    | .convoy c =>
      let s1 := s.setWpos c
      if c.reached = c.len then s1.countInbound c false else s1
    | _ => s
  | none => s

/-- STREAM_BYTE_WRITTEN: the segment that holds byte p of the convoy's own stream lands, or its access stops the convoy. -/
def execStreamByteWritten (op p : Nat) (s : State) : Out :=
  match s.runningConvoy op with
  | none => .next s
  | some (o, c) =>
    if p ≥ c.len ∨ c.hasLeft p then .next s
    else match c.land op o p s with
      | (s1, c1, some f) => .next (s1.stopConvoy op o c1 f)
      | (s1, c1, none) => .next ((s1.setOp op .running (.convoy c1)).afterLanding op)

/-- CONVOY_FAULT_STOP: the convoy's next byte in stream order meets a fault (R278). -/
def execConvoyFaultStop (op : Nat) (s : State) : Out :=
  match s.runningConvoy op with
  | none => .next s
  | some (o, c) =>
    if c.reached ≥ c.len ∨ c.hasLeft c.reached then .next s
    else match c.land op o c.reached s with
      | (s1, c1, some f) => .next (s1.stopConvoy op o c1 f)
      | _ => .next s

/-- Every rank of cvy.a2a has had its arrival. -/
def Convoy.allArrived (c : Convoy) : Bool := c.kind ≠ .a2a || c.arrivedAt.length ≥ c.peers.length

/-- CONVOY_COMPLETE: the record, then the arrival (R277); for cvy.a2a the arrivals are the completion (R429). Either is an
access of the convoy, and its fault stops it (R278). -/
def execConvoyComplete (op : Nat) (s : State) : Out :=
  match s.runningConvoy op with
  | none => .next s
  | some (o, c) =>
    if c.reached < c.len ∨ !c.allArrived ∨ s.opRemotes op then .next s
    else match s.writeRecord o c 0 (c.start + c.len) with
      | .error f => .next (s.stopConvoy op o c f)
      | .ok s1 => match (if c.kind = .a2a then .ok s1 else s1.engineArrive o.ctx o.core accObar c.obj) with
        | .error f => .next (s1.stopConvoy op o c f)
        | .ok s2 => .next (((s2.setWpos c).setOp op .done (.convoy c)).wakeStream c)

/-- Every byte bound for device number `rank` of the list is written. -/
def Convoy.rankWritten (c : Convoy) (rank : Nat) : Bool :=
  (List.range (c.ext.getD 2 1 * c.ext.getD 3 1)).all fun pl =>
    let lo := (pl * c.rows + rank * c.slab) * c.rowLen
    decide (coverFrom c.landed (c.landed.length + 1) lo ≥ lo + c.slab * c.rowLen)

/-- The arrival at the object of the device of a rank: at the PA that the issuer's own translation gives (R428). -/
def State.arriveRank (s : State) (i : Nat) (o : EngineOp) (c : Convoy) (rank : Nat) : Except AccessFault State :=
  let d := c.peers.getD rank 0
  if d = s.mgmt.devnum then s.engineArrive o.ctx o.core accAtom c.obj
  else (s.reachObj o.ctx o.core accAtom 8 c.obj).map fun x => match x.2 with
    | .phys pa => x.1.sendRemote o.ctx o.core (peerBase + d * peerWindow + pa) none (some i)
    | .tile _ _ _ => x.1

/-- A2A_ARRIVAL: the convoy arrives at the object of one device (R428). -/
def execA2aArrival (op rank : Nat) (s : State) : Out :=
  match s.runningConvoy op with
  | none => .next s
  | some (o, c) =>
    if c.kind ≠ .a2a ∨ c.arrivedAt.contains rank ∨ rank ≥ c.peers.length ∨ !c.rankWritten rank then .next s
    else match s.arriveRank op o c rank with
      | .error f => .next (s.stopConvoy op o c f)
      | .ok s1 => .next (s1.setOp op .running (.convoy { c with arrivedAt := rank :: c.arrivedAt }))

/-- EREPLAY of a stopped convoy: it continues, or it gives up with its record and its arrivals (R383, R429); one of those
that faults in its turn is not made (DESIGN CHOICE, assumption 56). -/
def State.replayConvoy (s : State) (i : Nat) (op : EngineOp) (c : Convoy) (code : BitVec 16) (cancel : Bool) : State :=
  if cancel then
    let s1 := s.orKeep (s.writeRecord op c code (c.start + c.reached))
    let s2 :=
      if c.kind = .a2a then
        ((List.range c.peers.length).filter fun r => !c.arrivedAt.contains r).foldl (fun t r => t.orKeep (t.arriveRank i op c r)) s1
      else s1.orKeep (s1.engineArrive op.ctx op.core accObar c.obj)
    let c1 := { c with landed := [(0, c.len)], sent := [] }
    ((s2.setWpos c1).setOp i .done (.convoy c1)).wakeStream c1
  else (if c.reached < c.len then s.countInbound c true else s).setOp i .running (.convoy c)

/-! ## Answers from peers (R424, R425) -/

/-- A request is acknowledged or dropped: segments that waited for nothing else are written. -/
def Convoy.acked (c : Convoy) (n : Nat) : Convoy :=
  let sent := c.sent.map fun x => (x.1.filter (· ≠ n), x.2)
  { c with
    staged := c.staged.map fun x => { x with waits := x.waits.filter (· ≠ n) }
    sent := sent.filter fun x => !x.1.isEmpty
    landed := (sent.filter fun x => x.1.isEmpty).map (·.2) ++ c.landed }

/-- What the end of a request means for the operation that sent it. -/
def State.remoteDone (s : State) (r : Remote) : State :=
  match r.op with
  | none => s
  | some i => match s.ops[i]? with
    | some o => match o.state, o.body with
      | .done, _ => s
      | _, .convoy c =>
        let c1 := c.acked r.issued
        (s.updOp i fun o => { o with body := .convoy c1 }).setWpos c1
      | _, _ => s
    | none => s

/-- The old value of a request to a peer comes to the agent that waits for it; emit then writes its record, if the index lies
below the capacity and the page still translates (R349; DESIGN CHOICE, assumption 56). -/
def State.answer (s : State) (i : Nat) (v : Nat → Nat) : State :=
  match (s.agent i).wait with
  | .remote d w => s.gotValue i d w (v w)
  | .emit d m bs => (s.emitRecord i m (v 4) bs).gotValue i d 4 (v 4)
  | _ => s

/-- A request to a peer can no longer be answered: no port is joined to a fabric, or REMOTE_BOUND is over (R421, R425). -/
def State.remoteDead (s : State) (r : Remote) : Bool :=
  !s.fabricUp || decide (s.clockOf r.core ≥ r.born + Config.remoteBound)

/-- ACKNOWLEDGEMENT: a home slice performs and acknowledges a store or accepts a reduction; or a peer answers a request
(numbered after those), with a free old value for an atomic; or a slice performs a packed atomic's second half (numbered
last). -/
def execAcknowledgement (index : Nat) (s : State) : Out :=
  match s.pending[index]? with
  | some p => if s.ackHeld p then .next s else .next (s.performWhere (· = p))
  | none =>
    let k := index - s.pending.length
    match s.remotes[k]? with
    | some r =>
      if s.remoteDead r then .next s
      else
        let (n, s1) := ({ s with remotes := s.remotes.eraseIdx k }.remoteDone r).draw
        .next (match r.agent with
          | some i => s1.answer i fun w => leNat ((List.range w).map fun j => Config.peerByte n j)
          | none => s1)
    | none => match s.halves[k - s.remotes.length]? with
      | some i => .next (s.secondHalf i)
      | none => .next s

/-- REMOTE_TIMEOUT: a request not acknowledged within REMOTE_BOUND is dropped; a dropped atom gives zero (R425). -/
def execRemoteTimeout (index : Nat) (s : State) : Out :=
  match s.remotes[index]? with
  | none => .next s
  | some r =>
    if s.clockOf r.core < r.born + Config.remoteBound then .next s
    else
      let s1 := ({ s with remotes := s.remotes.eraseIdx index }.remoteDone r).dropRemote r.ctx r.pa
      match r.agent with
      | none => .next s1
      | some i => .next (s1.answer i fun _ => 0)

end Sys2Proof.Machine
end

