-- ==== Sys2Proof/Machine/CrossLane.lean ====
section
/-! DEFINITION. Shuffles, votes, match, caravan reductions and scans, derivatives (R162-R172). -/

namespace Sys2Proof.Machine

/-! ## The lanes of a caravan (R163) -/

/-- A member lane's value and whether it is in the want-mask; a quad position without a thread supplies zero. -/
structure LaneVal where
  lane : Nat
  val : Nat
  want : Bool
deriving DecidableEq, Repr

/-- The member lanes of the caravan that issues, with their values of A. -/
def State.laneVals (s : State) (ls : List Lane) : List LaneVal :=
  let c := s.caravan (s.focus.getD 0)
  let quads := ls.map fun l => l.lane / 4
  (ls.map fun l => ⟨l.lane, l.a.toNat, l.want⟩) ++
    ((c.vacant.filter fun v => quads.contains (v / 4)).map fun v => ⟨v, 0, false⟩)

/-- The value a member lane supplies, none where no member is. -/
def laneVal? (vs : List LaneVal) (l : Nat) : Option Nat := (vs.find? fun v => v.lane = l).map (·.val)

/-- The participating lanes under the selector (R163). -/
def participants (sel : Nat) (vs : List LaneVal) : List LaneVal := if sel = 0 then vs else vs.filter (·.want)

/-- Legacy width, and the half H of the lanes the caravan is in (R159). -/
def State.legacyHalf (s : State) (ls : List Lane) : Bool × Nat :=
  match ls with
  | [] => (false, 0)
  | l :: _ =>
    let legacy := (s.launch (s.agent l.agent).launch).legacy
    (legacy, if legacy then l.lane / 16 * 16 else 0)

def mask32 (b : Bool) : Nat := if b then onesOf 32 else 0

/-- A cross-lane job: one function of all lanes gives every member lane its result. -/
def laneJob (g : Sig) (fn : State → List Lane → Lane → LaneRes) : Job :=
  { sig := { g with noQueue := true }, perform := fun s ls => (s, ls.map (fn s ls)) }

/-! ## Shuffles (R164-R166) -/

inductive ShufForm where
  | idx | up | down | xor | bcast
deriving DecidableEq, Repr

/-- The source index j = lane × 8 + element of R165, for a lane numbered `r` within its width. -/
def shufIndex (form : ShufForm) (r b first : Nat) : Int :=
  let d := bitsAt b 3 5
  let e := bitsAt b 0 3
  match form with
  | .idx => (bitsAt b 0 8 : Nat)
  | .up => ((r : Int) - d) * 8 + e
  | .down => ((r : Int) + d) * 8 + e
  | .xor => (((r ^^^ d) * 8 + e : Nat) : Int)
  | .bcast => (bitsAt first 0 8 : Nat)

/-- The value of the source lane, or zero. -/
def shufValue (legacy : Bool) (h : Nat) (vs : List LaneVal) (src : Int) : Nat :=
  if src < 0 ∨ src > 31 then 0
  else (laneVal? vs (if legacy then h + src.toNat % 16 else src.toNat)).getD 0

/-- Rotate a 32-bit value right. -/
def rotr32 (v n : Nat) : Nat := ((BitVec.ofNat 32 v).rotateRight n).toNat

def shufLane (form : ShufForm) (s : State) (ls : List Lane) (l : Lane) : LaneRes :=
  let (legacy, h) := s.legacyHalf ls
  let w := 32 >>> (l.c.toNat % 4)
  let first := ((ls.find? (·.want)).getD l).b.toNat
  let j := shufIndex form (if legacy then l.lane % 16 else l.lane) l.b.toNat first
  let e := (j % 8).toNat
  { val := BitVec.ofNat 128 (rotr32 (shufValue legacy h (s.laneVals ls) (j / 8)) (w * (e % (32 / w)))) }

def shufJob (form : ShufForm) : Job :=
  laneJob { dst := .w32, a := .b32, b := .b32, c := .shufWidth } (shufLane form)

/-- shfl.idx (R165). -/
def execShflIdx (o : Operands) (s : State) : Out := (shufJob .idx).issue o.fields s

/-- shfl.up (R165). -/
def execShflUp (o : Operands) (s : State) : Out := (shufJob .up).issue o.fields s

/-- shfl.down (R165). -/
def execShflDown (o : Operands) (s : State) : Out := (shufJob .down).issue o.fields s

/-- shfl.xor (R165). -/
def execShflXor (o : Operands) (s : State) : Out := (shufJob .xor).issue o.fields s

/-- shfl.bcast (R165). -/
def execShflBcast (o : Operands) (s : State) : Out := (shufJob .bcast).issue o.fields s

/-- shfl.idx.b64: a pair, without rotation (R166). -/
def execShflIdxB64 (o : Operands) (s : State) : Out :=
  (laneJob { dst := .w64, a := .b64, b := .b32 } fun s ls l =>
    let (legacy, h) := s.legacyHalf ls
    { val := BitVec.ofNat 128 (shufValue legacy h (s.laneVals ls) (bitsAt l.b.toNat 3 5 : Nat)) }).issue o.fields s

/-! ## Votes, ballot, elect, match (R167, R168) -/

def sigVote : Sig := { dst := .w32, a := .b32, b := .sel }

/-- One mask for every member lane, from the participating lanes. -/
def voteJob (fn : List LaneVal → Nat) : Job :=
  laneJob sigVote fun s ls l => { val := BitVec.ofNat 128 (fn (participants l.b.toNat (s.laneVals ls))) }

/-- The mask of the lanes of a list. -/
def laneMask (vs : List LaneVal) : Nat := vs.foldl (fun m v => m ||| 2 ^ v.lane) 0

/-- vote.all (R167). -/
def execVoteAll (o : Operands) (s : State) : Out := (voteJob fun p => mask32 (p.all fun v => v.val ≠ 0)).issue o.fields s

/-- vote.any (R167). -/
def execVoteAny (o : Operands) (s : State) : Out := (voteJob fun p => mask32 (p.any fun v => v.val ≠ 0)).issue o.fields s

/-- vote.eq (R167). -/
def execVoteEq (o : Operands) (s : State) : Out :=
  (voteJob fun p => mask32 (p.all fun v => p.all fun u => v.val = u.val)).issue o.fields s

/-- ballot (R167). -/
def execBallot (o : Operands) (s : State) : Out := (voteJob fun p => laneMask (p.filter fun v => v.val ≠ 0)).issue o.fields s

/-- elect (R167). -/
def execElect (o : Operands) (s : State) : Out :=
  (laneJob { dst := .w32 } fun _ ls l =>
    { val := BitVec.ofNat 128 (mask32 (decide ((ls.find? (·.want)).map (·.lane) = some l.lane))) }).issue o.fields s

/-- The lanes whose pattern equals that of lane `l`, for a participating lane (R168). -/
def matchLane (s : State) (ls : List Lane) (l : Lane) : LaneRes :=
  let p := participants l.b.toNat (s.laneVals ls)
  { val := BitVec.ofNat 128 (if p.any fun v => v.lane = l.lane then laneMask (p.filter fun v => v.val = l.a.toNat) else 0) }

/-- match.b32 (R168). -/
def execMatchB32 (o : Operands) (s : State) : Out := (laneJob sigVote matchLane).issue o.fields s

/-- match.b64 (R168). -/
def execMatchB64 (o : Operands) (s : State) : Out :=
  (laneJob { dst := .w32, a := .b64, b := .sel } matchLane).issue o.fields s

/-! ## Reductions and scans (R169, R170) -/

/-- p ⊕ q and IDENT of Table 3. -/
structure Combine where
  op : Nat → Nat → Nat × Flags
  ident : Nat

def signed32 (v : Nat) : Int := toSigned 32 v

def addS32 : Combine := ⟨fun p q => ((p + q) % 2 ^ 32, 0), 0⟩
def minS32 : Combine := ⟨fun p q => (if signed32 p ≤ signed32 q then p else q, 0), 0x7FFFFFFF⟩
def maxS32 : Combine := ⟨fun p q => (if signed32 p ≤ signed32 q then q else p, 0), 0x80000000⟩
def addF32 : Combine := ⟨fun p q => let r := elAdd fp32 .rn p q 0; (r.1, settleFlags r.2), 0⟩

end Sys2Proof.Machine

namespace Sys2Proof

open Machine in
/-- The combining operation of a cred (R170). -/
def CredOp.combine : CredOp → Combine
  | .addS32 => Machine.addS32
  | .minS32 => Machine.minS32
  | .maxS32 => Machine.maxS32
  | .minN32 => ⟨fun p q => (min p q, 0), 0xFFFFFFFF⟩
  | .maxN32 => ⟨fun p q => (max p q, 0), 0⟩
  | .andB32 => ⟨fun p q => (p &&& q, 0), 0xFFFFFFFF⟩
  | .orB32 => ⟨fun p q => (p ||| q, 0), 0⟩
  | .xorB32 => ⟨fun p q => (p ^^^ q, 0), 0⟩
  | .addF32 => Machine.addF32
  | .minF32 => ⟨fun p q => let r := elMinMax fp32 false p q 0; (r.1, settleFlags r.2), 0x7FC00000⟩
  | .maxF32 => ⟨fun p q => let r := elMinMax fp32 true p q 0; (r.1, settleFlags r.2), 0x7FC00000⟩

open Machine in
/-- The combining operation of a scan (R170). -/
def ScanOp.combine : ScanOp → Combine
  | .addS32 => Machine.addS32
  | .addF32 => Machine.addF32
  | .maxS32 => Machine.maxS32
  | .minS32 => Machine.minS32

open Machine in
/-- The combining operation of a scanx (R170). -/
def ScanxOp.combine : ScanxOp → Combine
  | .addS32 => Machine.addS32
  | .addF32 => Machine.addF32

end Sys2Proof

namespace Sys2Proof.Machine

/-- A position of the network: its value and the flags of the combines it depends on; none is ABSENT. -/
abbrev Slot := Option (Nat × Flags)

/-- COMB (R169). -/
def combSlot (k : Combine) (p q : Slot) : Slot :=
  match p, q with
  | none, q => q
  | p, none => p
  | some (a, f), some (b, g) => let r := k.op a b; some (r.1, f ||| g ||| r.2)

/-- One step of the network, all lanes at once. -/
def netStep (k : Combine) (xs : List Slot) (dd : Nat) : List Slot :=
  xs.zipIdx.map fun x => if x.2 ≥ dd then combSlot k (xs.getD (x.2 - dd) none) x.1 else x.1

/-- The network over 32 lanes, or 16 from H. -/
def network (k : Combine) (legacy : Bool) (h : Nat) (p : List LaneVal) : List Slot :=
  let n := if legacy then 16 else 32
  let xs : List Slot := (List.range n).map fun i => (laneVal? p (h + i)).map fun v => (v, 0)
  (if legacy then [1, 2, 4, 8] else [1, 2, 4, 8, 16]).foldl (netStep k) xs

def slotFlags (xs : List Slot) : Flags := xs.foldl (fun f x => match x with | some (_, g) => f ||| g | none => f) 0

/-- The result of a lane from the network: `pick` chooses the position, `fl` the flags. -/
def netLane (k : Combine) (pick : List LaneVal → Nat → List Slot → Nat → Slot) (all : Bool)
    (s : State) (ls : List Lane) (l : Lane) : LaneRes :=
  let (legacy, h) := s.legacyHalf ls
  let p := participants l.b.toNat (s.laneVals ls)
  let xs := network k legacy h p
  let x := pick p h xs l.lane
  { val := BitVec.ofNat 128 ((x.map (·.1)).getD k.ident), flags := if all then slotFlags xs else slotFlags [x] }

/-- cred: x[top] for every member lane (R169). -/
def execCred (op : CredOp) (o : Operands) (s : State) : Out :=
  (laneJob sigVote (netLane op.combine (fun _ _ xs _ => xs.getLastD none) false)).issue o.fields s

/-- scan: x[l] (R169). -/
def execScan (op : ScanOp) (o : Operands) (s : State) : Out :=
  (laneJob sigVote (netLane op.combine (fun _ h xs l => xs.getD (l - h) none) true)).issue o.fields s

/-- The highest participating lane below `l`. -/
def lowerLane (p : List LaneVal) (l : Nat) : Option Nat :=
  ((p.filter fun v => v.lane < l).map (·.lane)).foldl (fun m x => some (max (m.getD 0) x)) none

/-- scanx: x[m] for the highest participating m below l (R169). -/
def execScanx (op : ScanxOp) (o : Operands) (s : State) : Out :=
  (laneJob sigVote (netLane op.combine
    (fun p h xs l => match lowerLane p l with | some m => xs.getD (m - h) none | none => none) true)).issue o.fields s

/-! ## Derivatives (R171, R172) -/

inductive DerivForm where
  | xCoarse | yCoarse | xFine | yFine
deriving DecidableEq, Repr

/-- The quad positions t subtracts: minuend, subtrahend (R171). -/
def derivTerms (form : DerivForm) (i : Nat) : Nat × Nat :=
  match form with
  | .xFine => if i % 2 = 0 then (i + 1, i) else (i, i - 1)
  | .yFine => if i < 2 then (i + 2, i) else (i, i - 2)
  | .xCoarse => (1, 0)
  | .yCoarse => (2, 0)

end Sys2Proof.Machine

namespace Sys2Proof

def DerivTy.fp : DerivTy → FpTy
  | .f32 => .f32
  | .f16x2 => .f16x2

end Sys2Proof

namespace Sys2Proof.Machine

def derivLane (form : DerivForm) (ty : DerivTy) (s : State) (ls : List Lane) (l : Lane) : LaneRes :=
  if (s.caravan (s.focus.getD 0)).qlock then
    let vs := s.laneVals ls
    let i := l.lane % 4
    let at_ (k : Nat) : QWord := BitVec.ofNat 128 ((laneVal? vs (l.lane - i + k)).getD 0)
    let t := derivTerms form i
    fpEach ty.fp (elSub ty.fp.fmt) (at_ t.1) (at_ t.2) 0
  else {}

def derivJob (form : DerivForm) (ty : DerivTy) : Job := laneJob { dst := .w32, a := ty.fp.pos } (derivLane form ty)

/-- ddx.c (R171). -/
def execDdxC (ty : DerivTy) (o : Operands) (s : State) : Out := (derivJob .xCoarse ty).issue o.fields s

/-- ddy.c (R171). -/
def execDdyC (ty : DerivTy) (o : Operands) (s : State) : Out := (derivJob .yCoarse ty).issue o.fields s

/-- ddx.f (R171). -/
def execDdxF (ty : DerivTy) (o : Operands) (s : State) : Out := (derivJob .xFine ty).issue o.fields s

/-- ddy.f (R171). -/
def execDdyF (ty : DerivTy) (o : Operands) (s : State) : Out := (derivJob .yFine ty).issue o.fields s

end Sys2Proof.Machine
end

