-- ==== Sys2Proof/Machine/Cut.lean ====
section
/-! DEFINITION. Cluster graphs and cut selection (R318-R341): the image and its checks, projected error, the cut rule,
the records, cutq, completion, faults and replay. -/

namespace Sys2Proof.Machine

/-! ## FP32 steps -/

def v32 (c : Nat) : FVal := decodeFp fp32 c
def add32 (a b : Nat) : Nat := rne32 (FVal.sum .rn [v32 a, v32 b])
def sub32 (a b : Nat) : Nat := rne32 (FVal.sum .rn [v32 a, (v32 b).neg])
def mul32 (a b : Nat) : Nat := rne32 (FVal.mul (v32 a) (v32 b))
def fma32 (a b c : Nat) : Nat := rne32 (FVal.sum .rn [FVal.mul (v32 a) (v32 b), v32 c])
def div32 (a b : Nat) : Nat := rne32 (FVal.div (v32 a) (v32 b))
def sqrt32 (a : Nat) : Nat :=
  match v32 a with
  | .fin n m e => if m = 0 then a else if n then fp32.nanCode else rne32 (sqrtPos m e)
  | .inf n => if n then fp32.nanCode else a
  | .nan _ => fp32.nanCode

/-- Order of two codes; no NaN is ordered. -/
def ordered32 (a b : Nat) (f : Int → Bool) : Bool := !(v32 a).isNan && !(v32 b).isNan && f (compareFp (v32 a) (v32 b))
def le32 (a b : Nat) : Bool := ordered32 a b fun c => decide (c ≤ 0)
def lt32 (a b : Nat) : Bool := ordered32 a b fun c => decide (c < 0)
def inf32 : Nat := 0x7F800000
def fin32 (c : Nat) : Bool := decide (c % 2 ^ 31 < inf32)
def nan32 (c : Nat) : Bool := decide (c % 2 ^ 31 > inf32)

/-- A little-endian field of a record. -/
def fieldAt (bs : List Byte) (off n : Nat) : Nat := leNat ((bs.drop off).take n)
def word32 (bs : List Byte) (off : Nat) : Nat := fieldAt bs off 4

/-- Bytes lo .. hi - 1 of a record are zero. -/
def zeroAt (bs : List Byte) (lo hi : Nat) : Bool := ((bs.drop lo).take (hi - lo)).all (· = 0)

/-! ## Entries (R318, R338, R344) -/

/-- A graph entry (R318). -/
def Manifest.graphForm (m : Manifest) : Bool :=
  m.fmt = 0 && !m.tile && !m.cmp && !m.scl && m.base % 16 = 0 &&
    (m.ext 1 = 1 || m.stride 1 = m.ext 0) && (m.ext 2 = 1 || m.stride 2 = m.ext 0 * m.ext 1) &&
    (m.ext 3 = 1 || m.stride 3 = m.ext 0 * m.ext 1 * m.ext 2)

def Manifest.imageSize (m : Manifest) : Nat := m.footEnd - m.base

/-- The form of a cut-list entry (R338 step 4). -/
def Manifest.listForm (m : Manifest) : Bool := m.fmt = 4 && !m.cmp && m.base % 16 = 0

/-- The form of an edge (R344). -/
def Manifest.edgeForm (m : Manifest) : Bool := m.listForm && !m.tile

/-- Elements of an entry; element r in row-major order (R334). -/
def Manifest.elems (m : Manifest) : Nat := m.ext 0 * m.ext 1 * m.ext 2 * m.ext 3
def Manifest.elemAddr (m : Manifest) (r : Nat) : Nat :=
  m.ea (r % m.ext 0) (r / m.ext 0 % m.ext 1) (r / (m.ext 0 * m.ext 1) % m.ext 2) (r / (m.ext 0 * m.ext 1 * m.ext 2))

/-! ## The tables of an image (R319-R322) -/

/-- The header (R319 Table 1). -/
structure GraphHeader where
  ngroup : Nat
  nclus : Nat
  goff : Nat
  coff : Nat
  eoff : Nat
  nedge : Nat
  astride : Nat
deriving DecidableEq, Repr, Inhabited

def graphHeader (bs : List Byte) : GraphHeader where
  ngroup := word32 bs 0
  nclus := word32 bs 4
  goff := word32 bs 8
  coff := word32 bs 12
  eoff := word32 bs 16
  nedge := word32 bs 20
  astride := word32 bs 24

/-- The image is refused (R324). -/
def graphRefused (size : Nat) (bs : List Byte) : Bool :=
  let h := graphHeader bs
  decide (size < 64) || !zeroAt bs 0x1C 0x40 || h.ngroup = 0 || decide (h.ngroup > 2 ^ 24 - 1) || h.nclus = 0 ||
    h.astride % 4 ≠ 0 || decide (h.astride > 256) || h.goff % 16 ≠ 0 || h.coff % 16 ≠ 0 || h.eoff % 16 ≠ 0 ||
    decide (h.goff + 32 * h.ngroup > size) || decide (h.coff + 48 * h.nclus > size) || decide (h.eoff + 4 * h.nedge > size)

/-- A cluster record (R322 Table 3). -/
structure Cluster where
  owner : Nat
  src : Nat
  min : List Nat
  step : List Nat
  qb : List Nat
  nvert : Nat
  ntri : Nat
  pos : Nat
  idx : Nat
  att : Nat
  /-- A reserved bit is set. -/
  dirty : Bool
deriving DecidableEq, Repr, Inhabited

def clusterOf (bs : List Byte) : Cluster :=
  let cc := word32 bs 0x20
  { owner := bitsAt (word32 bs 0) 0 24
    src := bitsAt (word32 bs 0x1C) 0 24
    min := [word32 bs 4, word32 bs 8, word32 bs 12]
    step := [word32 bs 16, word32 bs 20, word32 bs 24]
    qb := [bitsAt cc 16 4 + 1, bitsAt cc 20 4 + 1, bitsAt cc 24 4 + 1]
    nvert := bitsAt cc 7 7 + 1
    ntri := bitsAt cc 0 7 + 1
    pos := word32 bs 0x24
    idx := word32 bs 0x28
    att := word32 bs 0x2C
    dirty := bitsAt (word32 bs 0) 24 8 ≠ 0 || bitsAt (word32 bs 0x1C) 24 8 ≠ 0 || bitsAt cc 28 4 ≠ 0 || bitsAt cc 14 2 ≠ 0 }

/-- No source group (R322). -/
def noSource : Nat := 0xFFFFFF

/-- Bits of one vertex of the position stream, and its bytes. -/
def Cluster.vertBits (c : Cluster) : Nat := c.qb.foldl (· + ·) 0
def Cluster.posBytes (c : Cluster) : Nat := (c.nvert * c.vertBits + 7) / 8

/-- The three streams lie wholly inside the image; an attribute stream of no bytes must start inside it too (R325; DESIGN
CHOICE, assumption 62: the rule does not say where a stream of no bytes lies). -/
def Cluster.inside (c : Cluster) (size astride : Nat) : Bool :=
  decide (c.pos + c.posBytes ≤ size) && decide (c.idx + 3 * c.ntri ≤ size) && decide (c.att + c.nvert * astride ≤ size)

/-- A group record (R320 Table 2). -/
structure Group where
  firstc : Nat
  ctrl : Nat
  edge : Nat
  pc : List Nat
  prad : Nat
  perr : Nat
deriving DecidableEq, Repr, Inhabited

def groupOf (bs : List Byte) : Group where
  firstc := word32 bs 0
  ctrl := word32 bs 4
  edge := word32 bs 8
  pc := [word32 bs 12, word32 bs 16, word32 bs 20]
  prad := word32 bs 24
  perr := word32 bs 28

def Group.npar (g : Group) : Nat := bitsAt g.ctrl 28 4
def Group.level (g : Group) : Nat := bitsAt g.ctrl 24 4
def Group.ncl (g : Group) : Nat := bitsAt g.ctrl 16 5 + 1

/-- What a cut operation reads of an image. -/
structure Graph where
  size : Nat
  head : GraphHeader
  groups : List Group
  edges : List Nat
  clusters : List Cluster
deriving DecidableEq, Repr, Inhabited

/-- A group's own edge entries and clusters, as far as they exist. -/
def Graph.edgesOf (x : Graph) (g : Group) : List Nat := (x.edges.drop g.edge).take g.npar
def Graph.parents (x : Graph) (g : Group) : List Nat := (x.edgesOf g).map (bitsAt · 0 24)
def Graph.clustersOf (x : Graph) (g : Group) : List Cluster := (x.clusters.drop g.firstc).take g.ncl
def Graph.group (x : Graph) (i : Nat) : Group := x.groups.getD i default

def risingNat : List Nat → Bool
  | a :: b :: l => decide (a < b) && risingNat (b :: l)
  | _ => true

/-- Code 5 of Table 4 for one cluster. -/
def Graph.clusterBad (x : Graph) (i : Nat) (c : Cluster) : Bool :=
  c.owner ≠ i || (c.src ≠ noSource && (decide (c.src ≥ x.head.ngroup) ||
    decide ((x.group c.src).level ≥ (x.group i).level) || !(x.parents (x.group c.src)).contains i)) ||
    !c.inside x.size x.head.astride

/-- The reason a group is bad, 0 for a good one; `first` is the sum of the lower groups' NCL (R325 Table 4). -/
def Graph.reason (x : Graph) (i first : Nat) : Nat :=
  let g := x.group i
  let cs := x.clustersOf g
  let ps := x.parents g
  if bitsAt g.ctrl 21 3 ≠ 0 ∨ bitsAt g.ctrl 0 16 ≠ 0 ∨ (x.edgesOf g).any (fun e => bitsAt e 24 8 ≠ 0) ∨ cs.any (·.dirty) then 1
  else if nan32 g.perr ∨ nan32 g.prad ∨ g.pc.any nan32 ∨ bitAt g.perr 31 ∨ bitAt g.prad 31 ∨ !fin32 g.prad ∨
      g.pc.any (fun c => !fin32 c) ∨ (decide (g.perr = inf32) ≠ decide (g.npar = 0)) then 2
  else if g.firstc ≠ first ∨ g.firstc + g.ncl > x.head.nclus then 3
  else if g.npar > 8 ∨ g.edge + g.npar > x.head.nedge ∨ ps.any (fun p => decide (p ≥ x.head.ngroup)) ∨ !risingNat ps ∨
      ps.any (fun p => decide ((x.group p).level ≤ g.level)) then 4
  else if cs.any (x.clusterBad i) then 5
  else 0

/-- The reasons of all groups from number i on. -/
def Graph.reasonsFrom (x : Graph) : List Group → Nat → Nat → List Nat
  | [], _, _ => []
  | g :: gs, i, first => x.reason i first :: x.reasonsFrom gs (i + 1) (first + g.ncl)

def Graph.reasons (x : Graph) : List Nat := x.reasonsFrom x.groups 0 0

/-! ## Projected error (R327, R328) -/

def viewNear (v : List Byte) : Nat := word32 v 0x14
def viewTau (v : List Byte) : Nat := word32 v 0x10
def viewKpix (v : List Byte) : Nat := word32 v 0x0C
def viewEye (v : List Byte) (k : Nat) : Nat := word32 v (4 * k)
def viewBits (v : List Byte) : Nat := fieldAt v 0x18 8
def viewSide (v : List Byte) : Nat := fieldAt v 0x20 8
def viewScap (v : List Byte) : Nat := word32 v 0x28

/-- PROJ(g); a root group's PP is infinite. -/
def projected (v : List Byte) (g : Group) : Nat :=
  if g.npar = 0 then inf32
  else
    let d (k : Nat) := sub32 (g.pc.getD k 0) (viewEye v k)
    let s := fma32 (d 2) (d 2) (fma32 (d 1) (d 1) (mul32 (d 0) (d 0)))
    let den := sub32 (sqrt32 s) g.prad
    if le32 den (viewNear v) then inf32 else div32 (mul32 g.perr (viewKpix v)) den

/-- A view block meets Table 5, and its VAs have bits 63..48 clear (R338 step 4). -/
def viewOk (v : List Byte) : Bool :=
  zeroAt v 0x2C 0x40 && viewBits v % 16 = 0 && viewSide v % 16 = 0 && vaOk (viewBits v) && vaOk (viewSide v) &&
    (List.range 3).all (fun k => fin32 (viewEye v k)) &&
    fin32 (viewNear v) && !bitAt (viewNear v) 31 && fin32 (viewTau v) && !bitAt (viewTau v) 31 &&
    decide (0x00800000 ≤ viewKpix v) && decide (viewKpix v < inf32)

/-! ## The cut rule (R326, R329-R333) -/

/-- What is known of a group when the cut is decided. -/
structure Verdict where
  reason : Nat
  pp : Nat
  resident : Bool
deriving DecidableEq, Repr, Inhabited

def bitmapBit (bs : List Byte) (g : Nat) : Bool := (bs.getD (g / 8) 0).toNat.testBit (g % 8)

/-- Verdicts of all groups: a bad one counts as non-resident with PP infinite (R326). -/
def Graph.verdicts (x : Graph) (view bitmap : List Byte) : List Verdict :=
  (x.groups.zip x.reasons).zipIdx.map fun e =>
    let bad := e.1.2 ≠ 0
    { reason := e.1.2, pp := if bad then inf32 else projected view e.1.1, resident := !bad && bitmapBit bitmap e.2 }

/-- A cut record before it is laid out. -/
structure CutRec where
  group : Nat
  cluster : Nat
  fallback : Bool
deriving DecidableEq, Repr, Inhabited

/-- The cut records of one group, in cluster order (R329). -/
def Graph.cutsOf (x : Graph) (tau : Nat) (vs : List Verdict) (i : Nat) : List CutRec :=
  let g := x.group i
  let v := vs.getD i default
  if !(v.resident && lt32 tau v.pp) then []
  else (x.clustersOf g).zipIdx.filterMap fun c =>
    let s := vs.getD c.1.src default
    if c.1.src = noSource then some ⟨i, g.firstc + c.2, false⟩
    else if le32 s.pp tau || !s.resident then some ⟨i, g.firstc + c.2, lt32 tau s.pp && !s.resident⟩
    else none

/-- A side record before it is laid out (R335 Table 7). -/
structure SideRec where
  kind : Nat
  group : Nat
  other : Nat
  value : Nat
  value2 : Nat
deriving DecidableEq, Repr, Inhabited

/-- The side records of one group, by KIND and then OTHER (R331-R333). -/
def Graph.sidesOf (x : Graph) (tau : Nat) (vs : List Verdict) (i : Nat) : List SideRec :=
  let v := vs.getD i default
  if v.reason ≠ 0 then [⟨4, i, v.reason, 0, 0⟩]
  else
    let ps := x.parents (x.group i)
    let pv (p : Nat) := vs.getD p default
    (if !v.resident && lt32 tau v.pp && ps.all (fun p => (pv p).resident) then [⟨1, i, 0, v.pp, 0⟩] else []) ++
    (ps.filter fun p => !le32 v.pp (pv p).pp).map (fun p => ⟨2, i, p, v.pp, (pv p).pp⟩) ++
    (ps.filter fun p => v.resident && !(pv p).resident).map (fun p => ⟨3, i, p, 0, 0⟩)

/-- The output of a cut operation (R333). -/
structure CutOut where
  cuts : List CutRec := []
  sides : List SideRec := []
  firstBad : Nat := 0xFFFFFFFF
  status : Nat := 0
deriving DecidableEq, Repr, Inhabited

def Graph.cut (x : Graph) (view bitmap : List Byte) : CutOut :=
  let vs := x.verdicts view bitmap
  let tau := viewTau view
  let is_ := List.range x.groups.length
  { cuts := is_.flatMap (x.cutsOf tau vs)
    sides := is_.flatMap (x.sidesOf tau vs)
    firstBad := (is_.find? fun i => (vs.getD i default).reason ≠ 0).getD 0xFFFFFFFF }

/-! ## Records (R334-R336) -/

def CutRec.bytes (r : CutRec) (base coff : Nat) : List Byte :=
  leBytes 8 (base + coff + 48 * r.cluster) ++ leBytes 4 r.cluster ++ leBytes 4 (r.group + if r.fallback then 2 ^ 31 else 0)

def SideRec.bytes (r : SideRec) : List Byte :=
  leBytes 4 r.value2 ++ leBytes 4 r.value ++ leBytes 4 r.other ++ leBytes 4 (r.group + r.kind * 2 ^ 28)

/-- The completion record (Table 8). -/
def cutRecord (o : CutOut) (listCap sideCap : Nat) : List Byte :=
  let ovf := (if o.cuts.length > listCap then 1 else 0) + (if o.sides.length > sideCap then 2 else 0)
  leBytes 2 ovf ++ leBytes 2 o.status ++ leBytes 4 o.firstBad ++ leBytes 4 o.sides.length ++ leBytes 4 o.cuts.length

/-- The record of an operation stopped on a fault (R339). -/
def cutFaultRecord (code : BitVec 16) : List Byte := leBytes 2 0 ++ leBytes 2 code.toNat ++ leBytes 12 0

/-! ## The operation (R339) -/

/-- Records of n bytes each out of a table. -/
def recordsOf (n count : Nat) (bs : List Byte) : List (List Byte) := (List.range count).map fun i => (bs.drop (n * i)).take n

/-- Steps 1 and 2: the header, the snapshot, the tables. -/
def CutOp.read (c : CutOp) (ctx core : Nat) (s : State) : Landing (GraphHeader × CutOut) :=
  let size := c.graph.imageSize
  let base := c.graph.base
  match (if size < 64 then .ok (s, []) else s.operandRead ctx core base 64) with
  | .error f => .error f
  | .ok (s1, hb) =>
    let h := graphHeader hb
    if graphRefused size hb then .ok (s1, h, { status := 0xFFFF })
    else match s1.engineRead ctx core accRead (viewBits c.view) ((h.ngroup + 7) / 8) with
    | .error f => .error f
    | .ok (s2, bm) =>
    match s2.operandRead ctx core (base + h.goff) (32 * h.ngroup) with
    | .error f => .error f
    | .ok (s3, gb) =>
    match s3.operandRead ctx core (base + h.eoff) (4 * h.nedge) with
    | .error f => .error f
    | .ok (s4, eb) =>
    match s4.operandRead ctx core (base + h.coff) (48 * h.nclus) with
    | .error f => .error f
    | .ok (s5, cb) =>
      let x : Graph := {
        size := size, head := h
        groups := (recordsOf 32 h.ngroup gb).map groupOf
        edges := (recordsOf 4 h.nedge eb).map leNat
        clusters := (recordsOf 48 h.nclus cb).map clusterOf }
      .ok (s5, h, x.cut c.view bm)

/-- Step 3: the records within the capacities. -/
def CutOp.writeRecords (c : CutOp) (at_ : EngineAt) (h : GraphHeader) (o : CutOut) (s : State) : Except AccessFault State :=
  let cuts := (o.cuts.take c.out.elems).zipIdx
  let sides := (o.sides.take (viewScap c.view)).zipIdx
  match cuts.foldl (fun acc r => acc.bind fun t =>
      t.sideWrite at_ c.out accWrite (c.out.elemAddr r.2) (r.1.bytes c.graph.base h.coff)) (.ok s : Except AccessFault State) with
  | .error f => .error f
  | .ok s1 => sides.foldl (fun acc r => acc.bind fun t =>
      t.engineWrite at_.ctx at_.core accWrite (viewSide c.view + 16 * r.2) r.1.bytes at_.op) (.ok s1)

def CutOp.site (i : Nat) (op : EngineOp) (c : CutOp) : EngineAt := ⟨op.ctx, op.core, c.block.getD 0, c.pos, some i⟩

/-- How the completion object is reached: a node's may lie in any translated memory (R347). -/
def CutOp.objAcc (c : CutOp) : Access := if c.walk.isSome then { rd := true, wr := true } else accObar

/-- A cut operation stops on a fault: its record, ENGINE_FAULT, no arrival (R278, R339). -/
def State.stopCut (s : State) (i : Nat) (op : EngineOp) (c : CutOp) (f : AccessFault) : State :=
  let s1 := s.orKeep (s.writeObjAt op.ctx op.core c.objAcc c.obj 16 (cutFaultRecord f.code.code) (some i))
  let (h, s2) := s1.engineFault op.ctx op.core f 0 1
  s2.setOp i (.stopped f.code.code (BitVec.ofNat 64 f.va) h) (.cut { c with record := none, stage := 0 })

/-- A block whose engine operations may go on: one that is saved has them abandoned until it is restored (R391). -/
def State.blockRuns (s : State) (b : Option Nat) : Bool :=
  match b with
  | some i => (s.block i).state ≠ .saved && (s.block i).state ≠ .stored
  | none => true

/-- The running cut operation of a number. -/
def State.runningCut (s : State) (i : Nat) : Option (EngineOp × CutOp) :=
  match s.ops[i]? with
  | some op => match op.state, op.body with
    | .running, .cut c => if s.blockRuns c.block then some (op, c) else none
    | _, _ => none
  | none => none

/-- Step 4: once every record is performed, the completion record, then the arrival; each is performed before what follows it,
on a peer too (R339, R347, R424). -/
def State.endCut (s : State) (i : Nat) (op : EngineOp) (c : CutOp) (rec_ : List Byte) : State :=
  let done (t : State) (d : CutOp) : State := t.setOp i (if t.opRemotes i then .running else .done) (.cut { d with stage := 2 })
  let arrive (t : State) (d : CutOp) : State :=
    if t.opRemotes i then t.setOp i .running (.cut { d with stage := 1 })
    else match t.engineArrive op.ctx op.core d.objAcc d.obj (some i) with
      | .error f => t.stopCut i op d f
      | .ok u => done u d
  let c1 := { c with record := some rec_ }
  match c.stage with
  | 0 =>
    if s.opRemotes i then s.setOp i .running (.cut c1)
    else match s.writeObjAt op.ctx op.core c.objAcc c.obj 16 rec_ (some i) with
      | .error f => s.stopCut i op c f
      | .ok s1 => arrive s1 c1
  | 1 => arrive s c1
  | _ => done s c1

/-- CUT_COMPLETE: the operation runs from its snapshot to its arrival, or stops on a fault. -/
def execCutComplete (op : Nat) (s : State) : Out :=
  match s.runningCut op with
  | none => .next s
  | some (o, c) =>
    match c.record with
    | some r => .next (s.endCut op o c r)
    | none => match c.read o.ctx o.core s with
      | .error f => .next (s.stopCut op o c f)
      | .ok (s1, h, out) => match c.writeRecords (c.site op o) h out s1 with
        | .error f => .next (s1.stopCut op o c f)
        | .ok s2 =>
          .next (s2.endCut op o { c with count := out.cuts.length } (cutRecord out c.out.elems (viewScap c.view)))

/-- EREPLAY of a stopped cut operation (R383): it starts again, or its record stands and the arrival is made; one of those
that faults in its turn is not made (DESIGN CHOICE, assumption 56). -/
def State.replayCut (s : State) (i : Nat) (op : EngineOp) (c : CutOp) (code : BitVec 16) (cancel : Bool) : State :=
  if cancel then
    let s1 := s.orKeep (s.writeObjAt op.ctx op.core c.objAcc c.obj 16 (cutFaultRecord code) (some i))
    (s1.orKeep (s1.engineArrive op.ctx op.core c.objAcc c.obj (some i))).setOp i .done (.cut c)
  else s.setOp i .running (.cut c)

/-! ## cutq (R337, R338) -/

def cutqSig (x : Extended) : Sig where
  a := if convoyCsp x then .b64 else .b32
  b := .b32
  ctlOk := fun _ => x.sub = 0 && x.spec = 0 && x.flags &&& 0x37#6 = 0

/-- Step 4: CONVOY_OPERAND with the entry it names; `lim` is TILE_SIZE, none where there is no share. -/
def cutOperand (mfa mfb : Nat) (g o : Manifest) (lim : Option Nat) (view : List Byte) : Option Trap :=
  let bad (n : Nat) : Option Trap := some { code := .convoyOperand, info := BitVec.ofNat 32 n }
  if mfa = 0 ∨ mfb = 0 then bad 0
  else if !g.graphForm then bad mfa
  else if !o.listForm then bad mfb
  else if o.tile && (match lim with | some n => decide (o.footEnd > n) | none => true) then bad mfb
  else if !viewOk view then bad 0x100
  else none

/-- The checks of R338, and of R337 for sc7 (DESIGN CHOICE, assumption 59: between STALE_MANIFEST and STALE_SCOPE, as R269 has
it for a convoy). -/
def cutqCheck (x : Extended) (s : State) (l : Lane) : Option Trap :=
  let a := s.agent l.agent
  let c := s.ctx a.ctx
  let lim := s.tileSizeOf a.block
  let off := l.b.toNat % 2 ^ 32
  orElseTrap (s.manifestFault a.ctx x.mfa.toNat) <|
  orElseTrap (s.manifestFault a.ctx x.mfb.toNat) <|
  orElseTrap (s.scopeFault a x.sci.toNat 6) <|
  orElseTrap (recordFault lim 64 16 (off : Nat)) <|
  orElseTrap (cutOperand x.mfa.toNat x.mfb.toNat (c.manifest x.mfa.toNat) (c.manifest x.mfb.toNat) (some lim)
    (s.tileNow a off 64)) <|
  if convoyCsp x then s.vFault l accObar 3 (vaBase l) 32 true else privFault .t 32 lim (l.a.toNat % 2 ^ 32 : Nat)

/-- The view block is captured and the operation exists. -/
def issueCut (x : Extended) (s0 : State) (l : Lane) : State × LaneRes :=
  let a := s0.agent l.agent
  let s := s0.releaseCaravan
  let off := l.b.toNat % 2 ^ 32
  let s1 := s.meetTile (some a.ctx) a.block a.pos off 64
  let c := s1.ctx a.ctx
  (s1.addOp a (.cut {
      block := some a.block, pos := a.pos, graph := c.manifest x.mfa.toNat, out := c.manifest x.mfb.toNat,
      view := s1.readTile a.block a.pos off 64, obj := s1.objectOf l (convoyCsp x),
      scope := s1.resolveScope a.ctx (s1.coreOf a) (s1.coreList a) x.sci.toNat }), {})

/-- cutq mB, mA, obj, view, scN (R337). -/
def execCutq (x : Extended) (s : State) : Out :=
  ({ sig := cutqSig x, uniform := true, check := cutqCheck x, perform := eachLane (issueCut x) } : Job).issue x.fields s

end Sys2Proof.Machine
end

