-- ==== Sys2Proof/Machine/Launch.lean ====
section
/-! DEFINITION. The Dispatcher: packets from dequeue to retirement (R405-R408), the frame of a command (R409), launch
records and their checks (R411, R412, R414, R426), placement by the Tile Broker (R139, R140, R193, R292, R400), the start
of a block's threads and drovers, and retirement (R413). -/

namespace Sys2Proof.Machine

/-! ## The Dispatcher's accesses -/

/-- The Dispatcher holds no translation of its own: its accesses walk. -/
def hubCore : Nat := 256

def State.hubRead (s : State) (ctx va n : Nat) : Except AccessFault (State × List Byte) := s.engineRead ctx hubCore accRead va n

def State.hubWrite (s : State) (ctx va : Nat) (bs : List Byte) : Except AccessFault State := s.engineWrite ctx hubCore accWrite va bs

/-- Numbers of `n` bytes at each of some addresses, in order; none where a read faults. -/
def State.hubNats (s : State) (ctx n : Nat) : List Nat → State × List (Option Nat)
  | [] => (s, [])
  | va :: vas => match s.hubRead ctx va n with
    | .error _ => let r := s.hubNats ctx n vas; (r.1, none :: r.2)
    | .ok (s1, bs) => let r := s1.hubNats ctx n vas; (r.1, some (leNat bs) :: r.2)

/-! ## Queues and packets (R405, R408) -/

def State.queue (s : State) (q : Nat) : HostQueue := s.hub.queues.getD q { live := false }

def State.updQueue (s : State) (q : Nat) (f : HostQueue → HostQueue) : State :=
  { s with hub := { s.hub with queues := updAt s.hub.queues q f } }

/-- The VA of packet `i` (R405). -/
def HostQueue.slotVa (h : HostQueue) (i : Word) : Nat := h.ring.toNat + 64 * (i.toNat % 2 ^ h.log2)

def State.packet (s : State) (q : Nat) (i : Word) : Option Packet := (s.queue q).pkts.find? fun p => p.index = i

def State.updPacket (s : State) (q : Nat) (i : Word) (f : Packet → Packet) : State :=
  s.updQueue q fun h => { h with pkts := h.pkts.map fun p => if p.index = i then f p else p }

/-- KIND and OPC of HEAD, and its flags (R405 Table 4). -/
def Packet.kind (p : Packet) : Nat := bitsAt p.head.toNat 40 8
def Packet.opc (p : Packet) : Nat := bitsAt p.head.toNat 32 8
def Packet.barrier (p : Packet) : Bool := bitAt p.head.toNat 55
def Packet.arg (p : Packet) (k : Nat) : Nat := (p.args.getD k 0).toNat

/-- A packet completes with a status and a result (R405 RESULT). -/
def State.finishPacket (s : State) (q : Nat) (i : Word) (status result : Nat) : State :=
  s.updPacket q i fun p => { p with result := some (BitVec.ofNat 64 (status % 2 ^ 16 + result * 2 ^ 16)) }

/-- QUEUE_ERROR: a notify value, or the index of a packet whose ring access faulted (R404 Table 3). -/
def State.queueError (s : State) (q : Nat) (d0 : DWord) (ring : Bool) : State :=
  (s.postEvent evQueueError (s.queue q).ctx 0xFFFF d0 (BitVec.ofNat 64 (q + if ring then 0x10000 else 0))).2

/-! ## Launches: where they came from, and how they end (R345, R412, R413) -/

/-- The launch of the packet a launch belongs to (R409). -/
def State.rootLaunch (s : State) (li : Nat) : Nat :=
  match (s.launch li).origin with
  | .packet => li
  | .node w => (s.walks.getD w {}).launch
  | .phase p _ => (s.walks.getD (s.passes.getD p {}).walk {}).launch

/-- A launch is done: a packet's completes with the launch's status. -/
def State.endLaunch (s : State) (li status : Nat) : State :=
  let l := s.launch li
  let s1 := s.updLaunch li fun l => { l with state := .done, status := status }
  match l.origin with
  | .packet => s1.finishPacket l.queue l.index status 0
  | _ => s1

/-- What peers told of their arrivals under the key of a launch goes with the last launch under it (R427; DESIGN CHOICE,
assumption 55). -/
def State.forgetArrivals (s : State) (li : Nat) : State :=
  match (s.launch li).join with
  | none => s
  | some (key, _) =>
    if s.launches.any fun l => l.state ≠ .done && (l.join.map (·.1)) = some key then s
    else { s with peerArrivals := s.peerArrivals.filter fun p => p.key ≠ key }

/-- A launch is refused: it places no block, and LAUNCH_REFUSED names its packet (R342, R412). -/
def State.refuseLaunch (s : State) (li status : Nat) : State :=
  let r := s.launch (s.rootLaunch li)
  (s.endLaunch li status).postEvent evLaunchRefused r.ctx 0xFFFF (r.index.setWidth 64)
    (BitVec.ofNat 64 (status + r.queue * 2 ^ 32)) |>.2

/-! ## The launch record (R411 Table 7, R412) -/

def Launch.field (l : Launch) (off n : Nat) : Nat := leNat ((l.raw.drop off).take n)

/-- FLAGS, IMASK, REGMAP. -/
def Launch.flags (l : Launch) : Nat := l.field 0x08 4
def Launch.imask (l : Launch) : Nat := l.field 0x34 4
def Launch.regmap (l : Launch) : Nat := l.field 0x2C 4

/-- A launch of an itinerary node or render phase. -/
def Launch.made (l : Launch) : Bool := l.origin ≠ .packet

/-- Words that are indirect: a node or phase fixes NBLOCK, and a fragment launch BSIZE too (R412). -/
def Launch.words (l : Launch) : List Nat :=
  (List.range 10).filter fun j =>
    bitAt l.imask j && !(j = 0 && l.made) && !(j = 1 && match l.seed with | .fragment _ => true | _ => false)

/-- What step 3 of R412 reads. -/
structure LaunchVals where
  nblock : Nat := 0
  bsize : Nat := 0
  entries : List Nat := []
deriving DecidableEq, Repr, Inhabited

/-- Blocks and block size of a launch whose NBLOCK and BSIZE read as these (R346, R356, R359, R412). -/
def Launch.shape (l : Launch) (nblock bsize : Nat) : Nat × Nat :=
  match l.seed with
  | .plain => (nblock, bsize)
  | .shader count _ => (if bsize = 0 then 1 else (count + bsize - 1) / bsize, bsize)
  | .tile _ _ => (1, bsize)
  | .fragment ts => ((ts.length + 1535) / 1536, min 1536 ts.length)

/-- Step 3 of R412: the indirect words, then the argument entries; what could be read, and whether all could. -/
def State.launchVals (s : State) (l : Launch) : State × Bool × LaunchVals :=
  let (s1, ws) := s.hubNats l.ctx 4 (l.words.map fun j => l.field 0x50 8 + 4 * j)
  let (s2, es) := s1.hubNats l.ctx 8 ((List.range (min 64 (l.field 0x30 4))).map fun i => l.field 0x38 8 + 8 * i)
  let word (j : Nat) : Option Nat := ((l.words.zip ws).find? fun x => x.1 = j).bind (·.2)
  let (nb, bs) := l.shape ((word 0).getD (l.field 0x14 4)) ((word 1).getD (l.field 0x18 4))
  (s2, (ws ++ es).all (·.isSome), { nblock := nb, bsize := bs, entries := es.zipIdx.filterMap fun x => x.1.map fun e =>
    match (if x.2 < 8 then word (x.2 + 2) else none) with
    | some w => e / 2 ^ 32 * 2 ^ 32 + w
    | none => e })

/-- An entry of R414: HI, DRV, REG, VALUE. -/
def entryHi (e : Nat) : Bool := bitAt e 43
def entryDrv (e : Nat) : Bool := bitAt e 42
def entryReg (e : Nat) : Nat := bitsAt e 32 10

/-- Status 0x10 of a kernel's record and entries (R412 Table 8). -/
def Launch.badKernel (l : Launch) (es : List Nat) : Bool :=
  l.badArgs ||
  let sreg := bitsAt l.regmap 18 10
  let regs := l.field 0x1C 4
  let scratch := l.field 0x28 4
  l.field 0x58 40 ≠ 0 || bitsAt l.flags 0 4 ≠ 0 || decide (l.flags ≥ 2 ^ 10) || l.field 0x48 8 ≠ 0 ||
    regs % 32 ≠ 0 || decide (regs < 32) || decide (regs > 512) ||
    l.field 0x24 4 % 16 ≠ 0 || decide (l.field 0x24 4 > Config.maxSpill) ||
    scratch % 4096 ≠ 0 || decide (scratch > 2 ^ 24) || bitsAt l.regmap 8 10 ≠ 0 || bitsAt l.regmap 28 4 ≠ 0 ||
    decide (l.imask ≥ 2 ^ 10) || decide (l.field 0x30 4 > 64) || l.field 0x38 8 % 8 ≠ 0 || l.field 0x40 8 % 8 ≠ 0 ||
    (sreg ≠ 0x3FF && (sreg % 2 ≠ 0 || scratch = 0 || decide (sreg + 1 ≥ regs))) ||
    (l.field 0x10 4 ≠ 0 && !bitAt l.flags 7) ||
    es.any fun e => decide (e ≥ 2 ^ 44) || (entryHi e && !entryDrv e)

/-- Status 0x10 of a record of KIND 1: every field but HASH, KIND, PRIO, SEMVA and ITIN is zero; its header, where it could
be read, keeps R342. -/
def Launch.badItinerary (l : Launch) : Bool :=
  l.badArgs || bitsAt l.flags 4 4 ≠ 0 || decide (l.flags ≥ 2 ^ 10) || l.field 0x40 8 % 8 ≠ 0 ||
    l.field 0x0C 52 ≠ 0 || l.field 0x50 48 ≠ 0 ||
    match l.ihdr with
    | some h =>
      let f (off n : Nat) := leNat ((h.drop off).take n)
      decide (f 0 4 < 1) || decide (f 0 4 > 4096) || f 4 12 ≠ 0 || f 0x14 44 ≠ 0
    | none => false

/-- Fill a launch from its record and the values read. -/
def Launch.fill (l : Launch) (v : LaunchVals) : Launch :=
  { l with
    paired := bitAt l.flags 4
    legacy := bitAt l.flags 5
    coresident := bitAt l.flags 6
    drv := bitAt l.flags 7
    prio := bitsAt l.flags 8 2
    entry := BitVec.ofNat 32 (l.field 0x0C 4)
    dentry := BitVec.ofNat 32 (l.field 0x10 4)
    nblock := v.nblock
    bsize := v.bsize
    regs := l.field 0x1C 4
    -- a phase's share is its tile segment, whatever the record states (R351)
    tileSize := if l.onCore.isSome then l.tileSize else l.field 0x20 4
    spillSize := l.field 0x24 4
    scratch := l.field 0x28 4
    sreg := bitsAt l.regmap 18 10
    qmask := BitVec.ofNat 8 l.regmap
    args := v.entries.map (BitVec.ofNat 64)
    sem := BitVec.ofNat 64 (l.field 0x40 8) }

def Launch.ranks (l : Launch) : Nat := if l.paired then 2 else 1

/-- Blocks of a launch with `m` blocks in one quartet that is empty: full positions take a core each, last positions may
share one (R139, R140, R412 status 0x17). -/
def Launch.quartetBlocks (l : Launch) : Nat :=
  let k := coresFor l.bsize
  let last := threadsAt l.bsize (k - 1)
  let gran := l.ranks * granulesOf l (k - 1)
  let cap := if l.drv || l.qmask ≠ 0 then 1
    else min (48 / (l.ranks * ((last + 31) / 32))) (if gran = 0 then 48 else 1536 / gran)
  (List.range 200).foldl (fun m i => if cap ≠ 0 && decide ((k - 1) * i + (i + cap - 1) / cap ≤ 4) then max m i else m) 0

/-- A running launch of the context is joined under the same key, or the launch may not be joined (R426 Table 3). -/
def State.badJoin (s : State) (li : Nat) (kind1 : Bool) : Bool :=
  let l := s.launch li
  match l.join with
  | none => false
  | some (key, _) =>
    kind1 || !bitAt l.flags 6 || (List.range s.launches.length).any fun j =>
      let m := s.launch j
      j ≠ li && m.ctx = l.ctx && m.state = .running && (m.join.map (·.1)) = some key

/-- The first check of Table 8 that fails for a kernel launch; `read` says that every read of R412 was answered. -/
def State.kernelStatus (s : State) (li : Nat) (read : Bool) (v : LaunchVals) : Option Nat :=
  let l := s.launch li
  let f := l.fill v
  if l.badKernel v.entries then some 0x10
  else if !read then some 0x12
  else if l.field 0 8 ≠ Config.archHash.toNat then some 0x13
  else if v.bsize = 0 ∨ v.bsize > 6144 ∨ (f.paired ∧ v.bsize > 768) then some 0x14
  else if f.ranks * granulesOf f 0 > Config.granulesPerCore then some 0x15
  else if v.entries.any fun e =>
    if entryDrv e then decide (entryReg e ≥ 64) else decide (entryReg e ≥ f.regs) || (l.made && decide (entryReg e < 8)) then some 0x16
  else if f.coresident ∧ v.nblock > 16 * f.quartetBlocks then some 0x17
  else if (s.ctx l.ctx).stopped then some 0x18
  else if s.badJoin li false then some 0x19
  else none

/-- The same for a record of KIND 1. -/
def State.itineraryStatus (s : State) (li : Nat) (read : Bool) : Option Nat :=
  let l := s.launch li
  if l.badItinerary then some 0x10
  else if !read ∨ l.ihdr = none then some 0x12
  else if l.field 0 8 ≠ Config.archHash.toNat then some 0x13
  else if (s.ctx l.ctx).stopped then some 0x18
  else if s.badJoin li true then some 0x19
  else none

/-- Steps 3 and 4 of R412; `read` is false when the semaphore's read faulted. -/
def State.setupLaunch (s : State) (li : Nat) (read : Bool) : State :=
  let l := s.launch li
  if bitsAt l.flags 0 4 = 1 ∧ !l.made then
    match s.itineraryStatus li read with
    | some st => s.refuseLaunch li st
    | none =>
      let s1 := s.updLaunch li fun l => { l with
        state := .running, itinerary := true, prio := bitsAt l.flags 8 2, itin := BitVec.ofNat 64 (l.field 0x48 8) }
      { s1 with walks := s1.walks ++ [{ launch := li, ctx := l.ctx, itin := BitVec.ofNat 64 (l.field 0x48 8)
                                        nnode := leNat ((l.ihdr.getD []).take 4) }] }
  else
    let (s1, ok, v) := s.launchVals l
    match s1.kernelStatus li (read && ok) v with
    | some st => s1.refuseLaunch li st
    | none =>
      let s2 := s1.updLaunch li fun l => { l.fill v with state := .running }
      if v.nblock = 0 then (s2.endLaunch li 0).forgetArrivals li else s2

/-- Steps 1 and 2 of R412: the record at `va`, the itinerary header, and the semaphore; 0x10 of ARG1-ARG3 comes before the
0x12 of the record's own read. -/
def State.beginLaunch (s : State) (li va : Nat) : State :=
  let ctx := (s.launch li).ctx
  match s.hubRead ctx va 128 with
  | .error _ => s.refuseLaunch li (if (s.launch li).badArgs then 0x10 else 0x12)
  | .ok (s1, raw) =>
    let s2 := s1.updLaunch li fun l => { l with raw := raw, recVa := BitVec.ofNat 64 va }
    let l := s2.launch li
    let (s3, h) := if bitsAt l.flags 0 4 = 1 then
        match s2.hubRead ctx (l.field 0x48 8) 64 with
        | .ok r => (r.1, some r.2)
        | .error _ => (s2, none)
      else (s2, none)
    let s4 := s3.updLaunch li fun l => { l with ihdr := h }
    let sem := l.field 0x40 8
    if sem ≠ 0 ∧ sem % 8 = 0 then s4.updLaunch li fun l => { l with state := .semaphore, sem := BitVec.ofNat 64 sem }
    else s4.setupLaunch li true

/-- A new launch, with what its maker knows of it; its number comes back. -/
def State.newLaunch (s : State) (l : Launch) : Nat × State := (s.launches.length, { s with launches := s.launches ++ [l] })

/-! ## Starting packets (R406, R408) -/

/-- The opcodes of Table 5 of R409 and Table 2 of R426. -/
def commandCodes : List Nat := [1, 2, 3, 4, 5, 6, 0x10, 0x11, 0x12, 0x20, 0x21, 0x22, 0x23]

/-- A reserved bit or KIND, or an OPC that is not one (R405 Table 4, R409); bytes 0x3F..0x38 are kept after the ARGs. -/
def Packet.bad (p : Packet) : Bool :=
  let h := p.head.toNat
  p.arg 4 ≠ 0 || bitsAt h 0 32 ≠ 0 || bitsAt h 48 6 ≠ 0 || bitsAt h 56 7 ≠ 0 || p.kind = 0 || decide (p.kind > 3) ||
    (if p.kind = 2 then !commandCodes.contains p.opc else p.opc ≠ 0)

/-- Start a dequeued packet; a command then waits for its own event. A refused LAUNCH packet is a refused launch. -/
def State.startPacket (s : State) (q : Nat) (p : Packet) : State :=
  let (n, s0) := s.draw
  let s1 := s0.updPacket q p.index fun p => { p with started := true, order := n }
  if p.bad then
    let s2 := s1.finishPacket q p.index 0x10 0
    if p.kind = 1 then
      (s2.postEvent evLaunchRefused (s2.queue q).ctx 0xFFFF (p.index.setWidth 64) (BitVec.ofNat 64 (0x10 + q * 2 ^ 32))).2
    else s2
  else if p.kind = 3 then s1.finishPacket q p.index 0 0
  else if p.kind = 2 then s1
  else
    let (li, s2) := s1.newLaunch {
      ctx := (s1.queue q).ctx, queue := q, index := p.index, join := p.join
      badArgs := p.arg 1 ≠ 0 || p.arg 2 ≠ 0 || p.arg 3 ≠ 0 }
    let s3 := s2.updPacket q p.index fun p => { p with launch := some li }
    -- a misaligned ARG0 is not read (R412 step 1)
    if p.arg 0 % 64 ≠ 0 then s3.refuseLaunch li 0x10 else s3.beginLaunch li (p.arg 0)

/-- The first packet with BARRIER that has not started and whose earlier packets have all completed (R408). -/
def HostQueue.startable (h : HostQueue) : Option Packet :=
  let rec go : List Packet → Option Packet
    | [] => none
    | p :: ps => if !p.started then some p else if p.result.isSome then go ps else none
  go h.pkts

/-- Start every packet that a completion has freed. -/
def State.startReady (s : State) (q : Nat) : Nat → State
  | 0 => s
  | n + 1 => match (s.queue q).startable with
    | some p => (s.startPacket q p).startReady q n
    | none => s

/-- After a completion in queue `q`. -/
def State.settleQueue (s : State) (q : Nat) : State := s.startReady q 64

/-- PACKET_DEQUEUE (R405, R406, R408): the next packet of the queue, once its HEAD shows VALID. -/
def execPacketDequeue (q : Nat) (s : State) : Out :=
  let h := s.queue q
  let i := h.rd + BitVec.ofNat 32 h.pkts.length
  -- a PODJOIN marks the LAUNCH packet that is dequeued after it (R426)
  let joining := h.pkts.any fun p => p.kind = 2 && p.opc = 0x23 && p.result.isNone
  if s.mgmt.held ∨ !h.live ∨ h.halted ∨ i = h.wk ∨ h.pkts.length ≥ 64 ∨ joining then .next s
  else
    let stop (t : State) : Out := .next ((t.updQueue q fun h => { h with halted := true }).queueError q (i.setWidth 64) true)
    match s.hubRead h.ctx (h.slotVa i) 8 with
    | .error _ => stop s
    | .ok (s1, hd) =>
      if leNat hd < 2 ^ 63 then .next s1
      else match s1.hubRead h.ctx (h.slotVa i + 8) 56 with
        | .error _ => stop s1
        | .ok (s2, bs) =>
          let f (off n : Nat) := leNat ((bs.drop (off - 8)).take n)
          let p0 : Packet := {
            index := i, head := BitVec.ofNat 64 (leNat hd), sig := BitVec.ofNat 64 (f 0x30 8)
            args := (List.range 4).map (fun k => BitVec.ofNat 64 (f (8 + 8 * k) 8)) ++ [BitVec.ofNat 64 (f 0x38 8)] }
          let p := if p0.kind = 1 then { p0 with join := h.podjoin } else p0
          let s3 := s2.updQueue q fun h => { h with
            pkts := h.pkts ++ [p], podjoin := if p.kind = 1 then none else h.podjoin }
          if p.barrier && h.pkts.any (fun x => x.result.isNone) then .next s3
          else .next ((s3.startPacket q p).settleQueue q)

/-- LAUNCH_SEMAPHORE_READY (R412 step 2): the launch goes on once its semaphore, as a signed number, is at most 0. -/
def execLaunchSemaphoreReady (li : Nat) (s : State) : Out :=
  let l := s.launch li
  if s.mgmt.held ∨ l.state ≠ .semaphore ∨ (s.launch (s.rootLaunch li)).saving then .next s
  else match s.hubRead l.ctx l.sem.toNat 8 with
    | .error _ => .next ((s.setupLaunch li false).settleQueue l.queue)
    | .ok (s1, bs) =>
      if leNat bs = 0 ∨ leNat bs ≥ 2 ^ 63 then .next ((s1.setupLaunch li true).settleQueue l.queue) else .next s1

/-- One of the ring writes of a retirement; a fault skips it (R408). -/
def State.ringWrite (s : State) (ctx va : Nat) (bs : List Byte) : Bool × State :=
  match s.hubWrite ctx va bs with
  | .ok t => (true, t)
  | .error _ => (false, s)

/-- PACKET_RETIRE (R408): the five steps, for the queue's oldest packet once it has completed. -/
def execPacketRetire (q : Nat) (s : State) : Out :=
  let h := s.queue q
  match h.pkts with
  | [] => .next s
  | p :: _ => match p.result with
    | none => .next s
    | some r =>
      if s.mgmt.held ∨ !h.live then .next s
      else
        let sig := if p.sig = 0 then none
          else if p.sig.toNat % 8 ≠ 0 then some none
          else match s.access h.ctx hubCore accAtom p.sig.toNat 8 with
            | .ok ps => some (some ps)
            | .error _ => some none
        let r1 : DWord := if sig = some none then BitVec.ofNat 64 (r.toNat / 2 ^ 16 * 2 ^ 16 + 0x11) else r
        let (ok1, s1) := s.ringWrite h.ctx (h.slotVa p.index + 0x28) (leBytes 8 r1.toNat)
        let s2 := match sig with
          | some (some ps) =>
            let (t, bs) := s1.readPieces h.ctx ps
            t.writePieces h.ctx hubCore ps (leBytes 8 (leNat bs + (2 ^ 64 - 1)))
          | _ => s1
        let s3 := if bitAt p.head.toNat 54 then (s2.postEvent evSignal h.ctx 0xFFFF (p.index.setWidth 64) (BitVec.ofNat 64 q)).2 else s2
        let (ok4, s4) := s3.ringWrite h.ctx (h.slotVa p.index) (leBytes 8 (p.head.toNat % 2 ^ 63))
        let rd := h.rd + 1
        let (ok5, s5) := s4.ringWrite h.ctx h.rdw.toNat (leBytes 4 rd.toNat)
        let s6 := s5.updQueue q fun h => { h with rd := rd, pkts := h.pkts.drop 1 }
        .next (if ok1 && ok4 && ok5 then s6 else s6.queueError q (p.index.setWidth 64) true)

/-! ## Commands (R205, R388, R409) -/

/-- What a command of a queue of context `own` concerns: its context, and its die as 65,536 + the die (R205, R409, R426). -/
def Packet.targets (p : Packet) (own : Nat) : List Nat :=
  let a := p.arg 0
  let ctx := a % 2 ^ 16
  let die (k : Nat) := 65536 + bitsAt a k 16
  match p.opc with
  | 0x02 => [ctx]
  | 0x03 => [ctx]
  | 0x10 => [die 0]
  | 0x11 => [ctx, die 16]
  | 0x12 => [ctx, die 16]
  | 0x20 => [ctx]
  | 0x21 => [ctx]
  | 0x22 => [ctx]
  | 0x23 => [own]
  | _ => []

/-- The command packet `r`, once it may execute: it has started, and no earlier command for its context or die has still to
complete. -/
def State.command (s : State) (r : PacketRef) (opc : Nat) : Option Packet :=
  match s.packet r.queue r.index with
  | none => none
  | some p =>
    let others := s.hub.queues.flatMap fun h => h.pkts.filter fun x =>
      x.kind = 2 && x.started && x.result.isNone && decide (x.order < p.order) && (x.targets h.ctx).any (p.targets (s.queue r.queue).ctx).contains
    if p.kind = 2 ∧ p.opc = opc ∧ p.started ∧ p.result = none ∧ p.waits = [] ∧ others = [] ∧ !s.mgmt.held ∧ (s.queue r.queue).live then some p
    else none

/-- A command completes. -/
def State.reply1 (s : State) (r : PacketRef) (status result : Nat) : State :=
  (s.finishPacket r.queue r.index status result).settleQueue r.queue

/-- A queue that may issue privileged commands: created with PRIV, on the control port (R409). -/
def State.privileged (s : State) (r : PacketRef) : Bool :=
  let h := s.queue r.queue
  h.priv && h.port = s.mgmt.control

/-- A privileged command: its status and result, and the state where its status is 0. -/
def State.privCommand (s : State) (r : PacketRef) (opc : Nat) (run : Packet → Nat × Nat × State) : Out :=
  match s.command r opc with
  | none => .next s
  | some p =>
    if !s.privileged r then .next (s.reply1 r 6 0)
    else match run p with
      | (0, res, t) => .next (t.reply1 r 0 res)
      | (st, _, _) => .next (s.reply1 r st 0)

/-! ## Room on a core (R138, R140, R186, R287, R292) -/

/-- Threads of blocks on the core that have not exited, on a lane. -/
def State.laneLoad (s : State) (core lane : Nat) : Nat :=
  (s.agents.filter fun a =>
    !a.drover && a.stand ≠ .exited && (s.block a.block).state ≠ .saved && (s.block a.block).state ≠ .retired &&
      a.lane = lane && s.coreOf a = core).length

/-- Tile memory a block takes on a core beside the segments of render tiles (R186, R351). -/
def Launch.granulesAt (l : Launch) (n p : Nat) : Nat :=
  (if l.onCore.isSome then 0 else shareGranules l.tileSize) + spillGranules (threadsAt n p) l.spillSize

/-- Granules in use on a core: blocks, and the segments of tiles it owns (R355). -/
def State.granuleLoad (s : State) (core : Nat) : Nat :=
  let blocks := (s.onCore core).foldl (fun n x => n + (s.launch (s.block x.1).launch).granulesAt (s.block x.1).size x.2) 0
  let segs := s.passes.foldl (fun n q => n + (q.runs.filter fun r => r.core = core && decide (r.phase < 7)).length *
    shareGranules (leNat ((q.desc.drop 0x94).take 4))) 0
  blocks + segs

/-- Some block on the core has a drover. -/
def State.droverTaken (s : State) (core : Nat) : Bool := (s.onCore core).any fun x => (s.launch (s.block x.1).launch).drv

/-- Position `p` of a block of `n` threads has room on a core. -/
def State.roomAt (s : State) (l : Launch) (n p core : Nat) : Bool :=
  let t := threadsAt n p
  ((List.range 32).all fun lane =>
    decide (s.laneLoad core lane + l.ranks * (t / 32 + if lane < t % 32 then 1 else 0) ≤ Config.ranksPerLane)) &&
    decide (s.granuleLoad core + l.ranks * l.granulesAt n p ≤ Config.granulesPerCore) &&
    !(l.drv && s.droverTaken core) &&
    (List.range 8).all fun q => !l.qmask.toNat.testBit q || ((s.core core).queues.getD q {}).owner.isNone

/-- Cores in the order of the positions have room, for a block of `n` threads. -/
def State.roomOn (s : State) (l : Launch) (n : Nat) (cores : List Nat) : Bool :=
  cores.zipIdx.all fun x => s.roomAt l n x.2 x.1

/-- Lists of `k` of some cores, in their order. -/
def choose : Nat → List Nat → List (List Nat)
  | 0, _ => [[]]
  | _ + 1, [] => []
  | k + 1, c :: cs => (choose k cs).map (c :: ·) ++ choose (k + 1) cs

/-! ## Scratchpad segments (R193) -/

/-- Free pages of a die's scratchpad that the context is granted, lowest first, as many as `n`. -/
def State.freePages (s : State) (ctx die n : Nat) : List Nat :=
  let grant := ((s.ctx ctx).grants.getD die 0).toNat
  let used := s.blocks.flatMap fun k => if k.state ≠ .retired then k.scratchPages else []
  let units := (List.range (s.carve.getD die 0)).filter fun u => grant.testBit u
  units.foldl (fun acc u =>
    if acc.length ≥ n then acc
    else
      let base := scratchBase + die * scratchWindow + u * scratchUnit
      acc ++ (((List.range 1024).map fun i => base + 4096 * i).filter fun p => !used.contains p).take (n - acc.length)) []

/-- Pages for a segment of `bytes`, all of them or none. -/
def State.segmentPages (s : State) (ctx die bytes : Nat) : Option (List Nat) :=
  let ps := s.freePages ctx die (bytes / 4096)
  if ps.length = bytes / 4096 then some ps else none

/-- No segment of the context lies in the `n` bytes from `va`. -/
def State.segmentFits (s : State) (ctx n va : Nat) : Bool :=
  decide (va + n ≤ 2 ^ 48) && s.blocks.all fun k =>
    k.ctx ≠ ctx || k.state = .retired || k.scratchPages.isEmpty ||
      decide (k.scratchVa.toNat + 4096 * k.scratchPages.length ≤ va) || decide (va + n ≤ k.scratchVa.toNat)

/-- The VA of a new segment of a context: free value number `d`, or the end of another segment where it would meet one. -/
def State.segmentBase (s : State) (ctx n d : Nat) : DWord :=
  let ends := (s.blocks.filter fun k => k.ctx = ctx && k.state ≠ .retired).map fun k =>
    k.scratchVa.toNat + 4096 * k.scratchPages.length
  let vas := (Config.segmentVa d &&& 0xFFFFFFFFF000).toNat :: 4096 :: ends
  BitVec.ofNat 64 ((vas.find? (s.segmentFits ctx n)).getD 0)

/-- A new segment reads zero (R193). -/
def State.clearPages (s : State) (ps : List Nat) : State := ps.foldl (fun t p => t.zeroFill p 4096) s

/-- No translation of the segment's VAs is held (R193, R392). -/
def State.dropSegment (s : State) (ctx : Nat) (va n : Nat) : State :=
  { s with tlb := s.tlb.filter fun e => !(e.ctx = ctx && decide (e.base < va + n) && decide (va < e.base + e.size)) }

/-! ## The Broker's order (R400) -/

/-- The quartets after `q`, in the Broker's order; `up` takes the neighbour die d + 1 first. -/
def quartetOrder (q : Nat) (up : Bool) : List Nat :=
  let d := q / 4
  let all (e : Nat) : List Nat := (List.range 4).map fun i => 4 * (e % 4) + i
  let near := if up then all (d + 1) ++ all (d + 3) else all (d + 3) ++ all (d + 1)
  q :: (all d).filter (· ≠ q) ++ near ++ all (d + 2)

/-- A block of `n` threads can be placed somewhere on a quartet now. -/
def State.quartetRoom (s : State) (l : Launch) (n q : Nat) : Bool :=
  ((choose (coresFor n) ((List.range 4).map fun i => 4 * q + i)).any fun cs => s.roomOn l n cs) &&
    (s.segmentPages l.ctx (q / 4) (l.ranks * l.scratch)).isSome

/-- Cores the Broker may give a block: ascending, of one quartet with room that is first in its order (R139, R400). A
phase's block goes to the core that owns the tile. -/
def State.mayPlace (s : State) (l : Launch) (n : Nat) (cores : List Nat) : Bool :=
  let q := cores.headD 0 / 4
  cores.length = coresFor n && cores.all (fun c => c / 4 = q && decide (c < 64)) &&
    (cores.zip (cores.drop 1)).all (fun x => decide (x.1 < x.2)) && s.roomOn l n cores &&
    (s.segmentPages l.ctx (q / 4) (l.ranks * l.scratch)).isSome &&
    match l.onCore, l.quartet with
    | some c, _ => cores = [c]
    | none, none => true
    | none, some p => [true, false].any fun up => ((quartetOrder p up).takeWhile (· ≠ q)).all fun x => !s.quartetRoom l n x

/-! ## Starting a block (R37, R414) -/

/-- Threads of block number `i` of a launch: the last block of a fragment launch may be smaller (R359). -/
def Launch.sizeOf (l : Launch) (i : Nat) : Nat :=
  match l.seed with
  | .fragment ts => min 1536 (ts.length - 1536 * i)
  | _ => l.bsize

/-- Registers of every thread of a block before the Dispatcher's own: the entries in order, then SREG (R414). -/
def Launch.threadRegs (l : Launch) (va : DWord) : Agent :=
  let a := l.args.foldl (fun (a : Agent) e =>
    if entryDrv e.toNat then a else a.setReg (entryReg e.toNat) (e.setWidth 32)) {}
  if l.sreg = 0x3FF then a else a.setPair l.sreg va

/-- Registers of a drover program (R414). -/
def Launch.droverRegs (l : Launch) : Agent :=
  l.args.foldl (fun (a : Agent) e =>
    let k := 2 * entryReg e.toNat
    if entryDrv e.toNat then a.setReg (if entryHi e.toNat then k + 1 else k) (e.setWidth 32) else a) {}

/-- The registers the Dispatcher sets for thread `t` of block `i`, written last, and whether the thread starts discarded
(R346, R356, R359). -/
def Launch.seeded (l : Launch) (i t : Nat) (a : Agent) : Agent × Bool :=
  match l.seed with
  | .plain => (a, false)
  | .shader count ocnt =>
    (((a.setReg 0 (BitVec.ofNat 32 (i * l.bsize + t))).setReg 1 (BitVec.ofNat 32 count)).setPair 2 ocnt, false)
  | .tile x g1 => ((a.setReg 0 x).setReg 1 g1, false)
  | .fragment ts =>
    let f := ts.getD (1536 * i + t) ⟨[], true⟩
    (f.regs.zipIdx.foldl (fun (b : Agent) r => b.setReg r.2 r.1) a, f.dead)

/-- The agents of one block of a launch, at their entries. A discarded thread of a QLOCK entry is a helper from the start;
at another entry it does not run (R157, R359). -/
def State.agentsFor (s : State) (l : Launch) (li b i n : Nat) (va : DWord) : List Agent :=
  let base := l.threadRegs va
  (List.range n).map fun t =>
    let (a, dead) := l.seeded i t base
    { a with
      ctx := l.ctx, launch := li, block := b, pos := posOfThread t, tidx := t, pc := l.entry, hdr := 0xFFFFFFFF
      stand := if dead then (if s.qlockAt l.ctx l.entry then .discarded else .exited) else .entering }

def State.droversFor (l : Launch) (li b k : Nat) : List Agent :=
  if l.drv then (List.range k).map fun p =>
    { l.droverRegs with drover := true, ctx := l.ctx, launch := li, block := b, pos := p, pc := l.dentry, hdr := 0xFFFFFFFF, stand := .entering }
  else []

/-- Every agent of a block that stands before a header enters it (R29, R382). -/
def State.enterAll (s : State) (b : Nat) : State :=
  (s.agentsOf b).foldl (fun t i =>
    let a := t.agent i
    if a.stand = .entering && (t.block b).state = .resident then
      t.enter i a.pc a.hdr
    else t) s

/-- Bind a launch's queues on a core to a block, empty (R287). -/
def State.bindQueues (s : State) (l : Launch) (b core : Nat) : State :=
  let bind (x : CoreQueue × Nat) : CoreQueue := if l.qmask.toNat.testBit x.2 then { owner := some b, tokens := [] } else x.1
  s.updCore core fun c => { c with queues := c.queues.zipIdx.map bind }

/-- Place block number `placed` of a launch, with its partner, on these cores; each of the two has its own segment (R193). -/
def State.placeBlock (s : State) (li : Nat) (cores : List Nat) : State :=
  let l := s.launch li
  let b := s.blocks.length
  let i := l.placed
  let n := l.sizeOf i
  let m := l.scratch / 4096
  let pages := (s.segmentPages l.ctx (cores.headD 0 / 16) (l.ranks * l.scratch)).getD []
  let home : ShareHome := match l.origin with
    | .phase p r => .segment p r
    | _ => .own
  let add (t : State) (x : Nat) : State :=
    let (d, t1) := t.draw
    let mine := (pages.drop (m * x)).take m
    let va := if mine = [] then 0 else t1.segmentBase l.ctx l.scratch d
    let blk : Block := {
      ctx := l.ctx, launch := li, bidx := i, partner := x, mate := if l.paired then some (b + 1 - x) else none, size := n
      shares := cores.map fun c => { core := c, home := home }
      scratchVa := va, scratchPages := mine }
    let t2 : State := { t1 with blocks := t1.blocks ++ [blk] }
    let t3 := t2.dropSegment l.ctx va.toNat l.scratch
    { t3 with agents := t3.agents ++ t3.agentsFor l li (b + x) i n va }
  let s1 := (List.range l.ranks).foldl add s
  let s2 := { s1 with agents := s1.agents ++ State.droversFor l li b cores.length }
  let s3 := cores.foldl (fun t c => t.bindQueues l b c) (s2.clearPages pages)
  s3.updLaunch li fun l => { l with placed := i + 1, quartet := some (cores.headD 0 / 4), waiting := none }

def State.blocksOf (s : State) (li : Nat) : List Nat := (List.range s.blocks.length).filter fun b => (s.block b).launch = li

/-- BLOCK_PLACE (R139, R140, R174, R193, R292, R400): the launch's next block, with its partner, on these cores, where they
have room and the Broker's order names their quartet. A co-resident launch starts once it is placed whole. -/
def execBlockPlace (li : Nat) (cores : List Nat) (s : State) : Out :=
  let l := s.launch li
  let root := s.launch (s.rootLaunch li)
  if s.mgmt.held ∨ l.state ≠ .running ∨ l.itinerary ∨ l.placed ≥ l.nblock ∨ li ≥ s.launches.length ∨ root.saving ∨ root.restoring
      ∨ (s.ctx l.ctx).stopped ∨ !s.mayPlace l (l.sizeOf l.placed) cores then .next s
  else
    let s1 := s.placeBlock li cores
    if l.coresident then
      if l.placed + 1 = l.nblock then .next ((s1.blocksOf li).foldl (fun t b => t.enterAll b) s1) else .next s1
    else .next ((List.range l.ranks).foldl (fun t x => t.enterAll (s.blocks.length + x)) s1)

/-! ## The end of a pre-emption (R388, R389) -/

/-- Blocks of a packet's launch: its own and those of its nodes and phases (R409). -/
def State.family (s : State) (root : Nat) : List Nat :=
  (List.range s.blocks.length).filter fun b => s.rootLaunch (s.block b).launch = root

/-- PREEMPT_DONE or RESTORE_DONE of a launch. -/
def State.postLaunch (s : State) (kind root : Nat) : State :=
  let l := s.launch root
  (s.postEvent kind l.ctx 0xFFFF (l.index.setWidth 64) (BitVec.ofNat 64 l.queue)).2

/-- Drop a launch from what PREEMPT packets wait for; one that waits for nothing more completes. -/
def State.preemptDone (s : State) (root : Nat) : State :=
  let qs := (List.range s.hub.queues.length).filter fun q => (s.queue q).pkts.any fun p => p.waits.contains root
  let drop (p : Packet) : Packet :=
    if p.waits.contains root then
      { p with waits := p.waits.filter (· ≠ root), result := if p.waits.filter (· ≠ root) = [] then some 0 else p.result }
    else p
  qs.foldl (fun t q => (t.updQueue q fun h => { h with pkts := h.pkts.map drop }).settleQueue q) s

/-- A block is off its cores. -/
def Block.away (k : Block) : Bool := k.state = .saved || k.state = .retired

/-- Every pre-empted block of a launch is off its cores, and its PREEMPT_DONE is due. -/
def State.preempted (s : State) (i : Nat) : Bool :=
  let l := s.launch i
  l.origin = .packet &&
    if l.saving then !l.saved && (l.state = .done || (s.family i).all fun b => (s.block b).away)
    else l.broker && (s.family i).all fun b => !(s.block b).broker || (s.block b).away

/-- Each pre-empted launch of a context whose blocks are saved posts PREEMPT_DONE (R389). -/
def State.settlePreempts (s : State) (ctx : Nat) : State :=
  ((List.range s.launches.length).filter fun i => (s.launch i).ctx = ctx && s.preempted i).foldl
    (fun t i => ((t.updLaunch i fun l => { l with saved := l.saving, broker := false }).postLaunch evPreemptDone i).preemptDone i) s

/-! ## Retirement (R413) -/

/-- The block whose operation this is. -/
def EngineOp.block (o : EngineOp) : Option Nat :=
  match o.body with
  | .convoy c => some c.block
  | .cut c => c.block
  | .trav t => t.block

/-- An operation of a block has not completed. -/
def State.blockBusy (s : State) (b : Nat) : Bool := s.ops.any fun o => o.block = some b && o.state ≠ .done

/-- Acknowledged operations of a block's agents on its cores have not all been acknowledged (R181). -/
def State.blockUnacked (s : State) (b : Nat) : Bool :=
  let k := s.block b
  let cores := k.shares.map (·.core)
  (s.pending.any fun p => p.agents.any fun i => (s.agent i).block = b) ||
    (s.remotes.any fun r => r.ctx = k.ctx && cores.contains r.core) ||
    (s.agentsOf b).any fun i => match (s.agent i).wait with | .half _ _ _ _ _ _ _ => true | _ => false

/-- Free the queues of a block and its partner once both have retired (R287). -/
def State.freeQueues (s : State) (b : Nat) : State :=
  let gone (i : Nat) : Bool := (s.block i).state = .retired
  let k := s.block b
  if gone b && (k.mate.map gone).getD true then
    let free (q : CoreQueue) : CoreQueue := if q.owner = some b || (k.mate.isSome && q.owner = k.mate) then {} else q
    { s with cores := s.cores.map fun c => { c with queues := c.queues.map free } }
  else s

/-- The segment of a block is released at its retirement (R413). -/
def State.freeSegment (s : State) (b : Nat) : State :=
  let k := s.block b
  s.dropSegment k.ctx k.scratchVa.toNat (4096 * k.scratchPages.length)

/-- A launch whose every block has retired is done. -/
def State.settleLaunch (s : State) (li : Nat) : State :=
  let l := s.launch li
  if l.state = .running ∧ l.placed = l.nblock ∧ (s.blocksOf li).all (fun b => (s.block b).state = .retired) then
    ((s.endLaunch li 0).forgetArrivals li).settleQueue l.queue
  else s

/-- BLOCK_RETIRE: every thread has exited, every drover program that serves the block too, every operation is complete and
acknowledged; its share, queues and segment are released. -/
def execBlockRetire (b : Nat) (s : State) : Out :=
  let k := s.block b
  let serving := (s.agentsOf b) ++ match k.mate with
    | some m => (s.agentsOf m).filter fun i => (s.agent i).drover
    | none => []
  if s.mgmt.held ∨ (k.state ≠ .resident ∧ k.state ≠ .saving) ∨ !serving.all (fun i => (s.agent i).stand = .exited) ∨ s.blockBusy b ∨
      s.blockUnacked b ∨ !k.shares.all (fun h => h.engine.queue.isEmpty) then .next s
  else
    let s1 := s.updBlock b fun k => { k with
      state := .retired, quads := [], shares := k.shares.map fun h => { core := h.core, home := h.home } }
    let s2 := { s1 with agents := s1.agents.map fun (a : Agent) => if a.block = b then { a with regs := [] } else a }
    .next ((((s2.freeSegment b).freeQueues b).settleLaunch k.launch).settlePreempts k.ctx)

end Sys2Proof.Machine
end

