-- ==== Sys2Proof/Machine/Matrix.lean ====
section
/-! DEFINITION. The matrix engine: the drover's commands (R296-R313) and vmx (R314-R317). -/

namespace Sys2Proof.Machine

/-! ## Fields (R305) -/

def matAmsk (x : Extended) : Nat := bitsAt x.spec.toNat 36 8
def matBoff (x : Extended) : Nat := bitsAt x.spec.toNat 6 8
def matAcc2 (x : Extended) : Nat := bitsAt x.spec.toNat 3 3
def matAcc (x : Extended) : Nat := bitsAt x.spec.toNat 0 3
def matP1 (x : Extended) : Bool := bitAt x.flags.toNat 3
def matZro (x : Extended) : Bool := bitAt x.flags.toNat 2
def matGth (x : Extended) : Bool := bitAt x.flags.toNat 1
def matLdb (x : Extended) : Bool := bitAt x.flags.toNat 0

/-- The commands, by OP - 0x340. -/
inductive MatOp where
  | mzro | mchb | mche | mma | mgth | mmap | mdrn | mdrg
deriving DecidableEq, Repr, Inhabited

def MatOp.code : MatOp → Nat
  | .mzro => 0
  | .mchb => 1
  | .mche => 2
  | .mma => 3
  | .mgth => 4
  | .mmap => 5
  | .mdrn => 6
  | .mdrg => 7

def MatOp.ofCode : Nat → MatOp
  | 0 => .mzro
  | 1 => .mchb
  | 2 => .mche
  | 3 => .mma
  | 4 => .mgth
  | 5 => .mmap
  | 6 => .mdrn
  | _ => .mdrg

def MatOp.usesA (op : MatOp) (x : Extended) : Bool :=
  match op with
  | .mma => !matGth x
  | .mgth | .mmap => true
  | _ => false

def MatOp.drains : MatOp → Bool
  | .mdrn | .mdrg => true
  | _ => false

def MatOp.steps : MatOp → Bool
  | .mma | .mmap => true
  | _ => false

def MatOp.usesB (op : MatOp) (x : Extended) : Bool := op.steps && matLdb x

/-- Sub-fields a command does not read are zero (R305 Table 6). -/
def matReservedOk (op : MatOp) (x : Extended) : Bool :=
  let spec := x.spec.toNat
  let flags := x.flags.toNat
  let masks : Bool := match op with
    | .mzro | .mchb | .mche => spec % 2 ^ 36 = 0 && flags = 0
    | .mma => spec / 2 ^ 14 = 0 && matAcc2 x = 0 && flags / 4 = 0
    | .mgth => spec = 0 && flags &&& 0x37 = 0
    | .mmap => spec / 2 ^ 14 = 0 && flags / 2 = 0
    | .mdrn => spec / 2 ^ 3 = 0 && flags &&& 0x33 = 0
    | .mdrg => spec / 2 ^ 6 = 0 && flags &&& 0x33 = 0
  masks && x.sci = 0 && (if op.drains then decide (x.sub.toNat < 4) else x.sub = 0) &&
    (op.usesA x || op.drains || x.mfa = 0) && (op.usesB x || x.mfb = 0)

/-- The operand form of a command (R305 Table 6). -/
def matSig (op : MatOp) (x : Extended) : Sig :=
  let g : Sig := { drover := true, thread := false, ctlOk := fun _ => matReservedOk op x }
  match op with
  | .mzro | .mchb | .mche => g
  | .mma => { g with a := if matGth x then .none else .b64, b := if matLdb x then .b64 else .none }
  | .mgth => { g with a := .b64, b := .b64 }
  | .mmap => { g with dst := .w32, a := .onlyQueue 0, b := .onlyQueue 1, c := if matLdb x then .b64 else .none, ownPops := true }
  | .mdrn => { g with a := .b64 }
  | .mdrg => { g with a := .b64, b := .b64 }

/-! ## Classes (R299) -/

/-- K and L of an operand class. -/
structure OpClass where
  k : Nat
  l : Nat
deriving DecidableEq, Repr

/-- The class of a format, with or without a curve; none outside Table 4. -/
def opClass (fmt : Nat) (curved : Bool) : Option OpClass :=
  if curved then (if fmtIsFloat fmt then some ⟨16, 16⟩ else none)
  else if fmt = 0x10 ∨ fmt = 0x11 ∨ fmt = 0x15 then some ⟨32, 32⟩
  else if fmt = 0x12 ∨ fmt = 0x13 ∨ fmt = 0x14 then some ⟨64, 32⟩
  else if fmt = 0x07 ∨ fmt = 0x08 then some ⟨16, 16⟩
  else none

def Manifest.opClass (m : Manifest) : Option OpClass := Machine.opClass m.fmt (m.curveSlot ≠ 0)

/-- A tile of E3M2 or E2M3 holds one element per byte and takes two slots (R302). -/
def twoSlot (fmt : Nat) (curved : Bool) : Bool := !curved && (fmt = 0x12 || fmt = 0x13)

/-- A destination format of a drain (R306 Table 7). -/
def drainFmt (fmt : Nat) : Bool := (0x06 ≤ fmt && fmt ≤ 0x08) || fmtIsMx fmt

/-! ## Checks (R306) -/

/-- The served block with PARTNER 0 or 1 at the drover's position: P1 names the partner. -/
def State.shareFor (s : State) (a : Agent) (p1 : Bool) : EngineAt :=
  let b := if p1 then ((s.block a.block).mate).getD a.block else a.block
  { ctx := a.ctx, core := s.coreOf a, block := b, pos := a.pos }

def State.engineOf (s : State) (a : Agent) : Engine := ((s.block a.block).share a.pos).engine

def Engine.meta (e : Engine) (slot : Nat) : Option SlotMeta := assocGet e.metas slot
def Engine.isOpen (e : Engine) (x : Nat) : Bool := (e.acc.getD x {}).opened

/-- Origin coordinates of a 64-bit value. -/
def originLo (v : DWord) : Nat := bitsAt v.toNat 0 32
def originHi (v : DWord) : Nat := bitsAt v.toNat 32 32

/-- Bits 62..32 of a token are row0 (R310). -/
def tokenOrigin (v : DWord) : DWord := v &&& 0x7FFFFFFFFFFFFFFF#64

/-- A base or a row stride that is no multiple of 16, or a tile plane beyond the share. -/
def Manifest.planeBad (m : Manifest) (tileSize : Nat) : Bool :=
  m.base % 16 ≠ 0 || m.stride 1 % 16 ≠ 0 || (m.tile && decide (m.footEnd > tileSize))

def originBad (m : Manifest) (k : Nat) (v : DWord) (rows : Bool) : Bool :=
  originLo v % k ≠ 0 || decide (originLo v + k > m.ext 0) || (rows && decide (originHi v + 64 > m.ext 1))

/-- Operands of a command as the checks and the engine see them: origins of the A operand (one for each running stream of
mmap), of the B tile, of the destination. -/
structure MatArgs where
  aOrg : List DWord := []
  bOrg : DWord := 0
  dOrg : DWord := 0

/-- The accumulators a command names; an mmap with one running stream names both, and needs both OPEN (DESIGN CHOICE, assumption
64: R310 makes the checks for run, R298 for every named accumulator). -/
def matAccs (op : MatOp) (x : Extended) : List Nat :=
  match op with
  | .mzro | .mchb | .mche => (List.range 8).filter fun i => (matAmsk x).testBit i
  | .mma | .mdrn => [matAcc x]
  | .mgth => []
  | .mmap | .mdrg => [matAcc x, matAcc2 x]

/-- The accumulators a command needs OPEN; the others it needs IDLE (R298 Table 3). -/
def MatOp.needsOpen : MatOp → Bool
  | .mche | .mma | .mmap => true
  | _ => false

/-- Table 7: the conditions with the index each reports, in the table's order. -/
def State.matConditions (s : State) (op : MatOp) (x : Extended) (ag : Agent) (g : MatArgs) : List (Bool × Nat) :=
  let c := s.ctx ag.ctx
  let e := s.engineOf ag
  let ma := c.manifest x.mfa.toNat
  let mb := c.manifest x.mfb.toNat
  let na := x.mfa.toNat
  let nb := x.mfb.toNat
  let ua := op.usesA x
  let ub := op.usesB x
  let ud := op.drains
  let lim := s.tileSizeOf ag.block
  let ka := (ma.opClass.map (·.k)).getD 1
  let kb := (mb.opClass.map (·.k)).getD 1
  let slot := e.meta (matBoff x)
  let bClass := if ub then mb.opClass else slot.bind fun m => opClass m.fmt m.curved
  let aClass := if ua then ma.opClass else e.latchMeta.bind fun m => opClass m.fmt m.curved
  let accs := matAccs op x
  [(ua && na = 0, na), (ud && na = 0, na), (ub && nb = 0, nb),
   ((ua || ud) && !ma.tile, na), (ub && mb.cmp, nb),
   ((ua || ud) && ma.planeBad lim, na), (ub && mb.planeBad lim, nb),
   (ua && ma.opClass.isNone, na), (ud && !drainFmt ma.fmt, na), (ub && mb.opClass.isNone, nb),
   (ua && g.aOrg.any (fun v => originBad ma ka v (op ≠ .mgth)), na), (ub && originBad mb kb g.bOrg true, nb),
   (ud && (decide (originLo g.dOrg + 64 > ma.ext 0) || decide (originHi g.dOrg + 64 > ma.ext 1) ||
      (fmtIsMx ma.fmt && originLo g.dOrg % 32 ≠ 0)), na),
   ((ua || ud) && fmtIsMx ma.fmt && ma.ext 0 % 32 ≠ 0, na), (ub && fmtIsMx mb.fmt && mb.ext 0 % 32 ≠ 0, nb),
   (op.steps && aClass.isSome && bClass.isSome && aClass ≠ bClass, if ua then na else if ub then nb else 0x100),
   (ub && twoSlot mb.fmt (mb.curveSlot ≠ 0) && decide (matBoff x + 1 > 255), 0x100),
   (op = .mma && matGth x && e.latchMeta.isNone, 0x100),
   (op.steps && !ub && (match slot with | none => true | some m => m.second), 0x100),
   (accs.any (fun i => e.isOpen i != op.needsOpen), 0x100),
   ((op = .mzro || op = .mchb || op = .mche) && matAmsk x = 0, 0x100),
   (op = .mmap && matAcc x = matAcc2 x, 0x100),
   (matP1 x && !(s.launch ag.launch).paired, 0x100)]

def State.matOperandFault (s : State) (op : MatOp) (x : Extended) (ag : Agent) (g : MatArgs) : Option Trap :=
  ((s.matConditions op x ag g).find? fun c => c.1).map fun c => { code := .matrixOperand, info := BitVec.ofNat 32 c.2 }

/-- The ranges a B load reads: codes of each column, then its scales (R302). -/
def loadRanges (m : Manifest) (k0 n0 k : Nat) : List (Nat × Nat) :=
  let (b0, len) := m.codeRange k0 k
  let (s0, ns) := blockRange k0 k
  (List.range 64).flatMap fun c =>
    (m.ea 0 (n0 + c) 0 0 + b0, len) :: (if m.scaled then [(m.sa (32 * s0) (n0 + c) 0 0, ns)] else [])

/-- Step 5 of R306: the faulting part with the lowest address. -/
def State.loadFault (s : State) (ag : Agent) (m : Manifest) (rs : List (Nat × Nat)) : Option Trap :=
  if m.tile then none
  else
    let bad := rs.filterMap fun r => match s.access ag.ctx (s.coreOf ag) accRead (r.1 % 2 ^ 64) r.2 with
      | .error f => some f
      | .ok _ => none
    match bad with
    | [] => none
    | f :: fs => some ((fs.foldl (fun b g => if g.va < b.va then g else b) f).trap 0)

def State.matLoadFault (s : State) (op : MatOp) (x : Extended) (ag : Agent) (g : MatArgs) : Option Trap :=
  if op.usesB x then
    let m := (s.ctx ag.ctx).manifest x.mfb.toNat
    let k := (m.opClass.map (·.k)).getD 1
    s.loadFault ag m (loadRanges m (originLo g.bOrg) (originHi g.bOrg) k)
  else none

/-- Read the index vector of mgth: a dropped sector reads zero (R208). -/
def State.gatherIndex (s : State) (ag : Agent) (x : Extended) (off : Nat) : State × List Word :=
  let e := s.shareFor ag (matP1 x)
  let s1 := s.meetTile (some ag.ctx) e.block e.pos off 256
  (s1, (List.range 64).map fun r => BitVec.ofNat 32 (leNat (s1.readTile e.block e.pos (off + 4 * r) 4)))

/-- Steps 4 and 6 of R306, for mgth. -/
def State.gatherPlace (s : State) (ag : Agent) (off : Nat) : Option Trap :=
  (recordFault (s.tileSizeOf ag.block) 256 16 (off : Nat)).map fun t => { t with info := 3 }

def State.gatherRows (s : State) (ag : Agent) (x : Extended) (off : Nat) : Option Trap :=
  let m := (s.ctx ag.ctx).manifest x.mfa.toNat
  if (s.gatherIndex ag x off).2.any fun k => k ≠ 0xFFFFFFFF && decide (k.toNat > m.ext 1 - 1) then
    some { code := .matrixOperand, info := BitVec.ofNat 32 x.mfa.toNat }
  else none

/-- Steps 2 to 6 of R306. -/
def State.matFault (s : State) (op : MatOp) (x : Extended) (ag : Agent) (g : MatArgs) (idxOff : Nat) : Option Trap :=
  orElseTrap (if op.usesA x || op.drains then s.manifestFault ag.ctx x.mfa.toNat else none) <|
  orElseTrap (if op.usesB x then s.manifestFault ag.ctx x.mfb.toNat else none) <|
  orElseTrap (s.matOperandFault op x ag g) <|
  orElseTrap (if op = .mgth then s.gatherPlace ag idxOff else none) <|
  orElseTrap (s.matLoadFault op x ag g) <|
  (if op = .mgth then s.gatherRows ag x idxOff else none)

/-! ## Issue -/

def State.updEngine (s : State) (a : Agent) (f : Engine → Engine) : State :=
  s.updShare a.block a.pos fun sh => { sh with engine := f sh.engine }

/-- Slots after a load into `b`: what it overwrites goes, and the other slot of a two-slot tile with it (R302). -/
def loadMetas (ms : List (Nat × SlotMeta)) (b : Nat) (m : SlotMeta) : List (Nat × SlotMeta) :=
  let taken := if m.twoSlot then [b, b + 1] else [b]
  let mates := taken.filterMap fun t => match assocGet ms t with
    | some o => if o.twoSlot then some (if o.second then t - 1 else t + 1) else none
    | none => none
  let rest := ms.filter fun e => !taken.contains e.1 && !mates.contains e.1
  (b, m) :: (if m.twoSlot then [(b + 1, { m with second := true })] else []) ++ rest

/-- State transitions of a command, which later commands are checked against (R298, R302, R304). -/
def stepMeta (op : MatOp) (x : Extended) (ma mb : Manifest) (e : Engine) : Engine :=
  let setOpen (v : Bool) (e : Engine) : Engine :=
    { e with acc := e.acc.zipIdx.map fun z => if (matAccs op x).contains z.2 then { z.1 with opened := v } else z.1 }
  let slotOf (m : Manifest) : SlotMeta := ⟨m.fmt, m.curveSlot ≠ 0, false, twoSlot m.fmt (m.curveSlot ≠ 0)⟩
  let e1 := if op.usesB x then { e with metas := loadMetas e.metas (matBoff x) (slotOf mb) } else e
  match op with
  | .mchb => setOpen true e1
  | .mche => setOpen false e1
  | .mgth => { e1 with latchMeta := some (slotOf ma) }
  | _ => e1

/-- The pages of a B load, as they translate at issue. -/
def State.loadPages (s : State) (ag : Agent) (m : Manifest) (rs : List (Nat × Nat)) : List (List (Nat × Nat)) :=
  if m.tile then []
  else rs.map fun r => match s.access ag.ctx (s.coreOf ag) accRead (r.1 % 2 ^ 64) r.2 with
    | .ok ps => ps.map fun p => (p.pa, p.len)
    | .error _ => []

/-- Errors that the walks of a B load's translations meet. -/
def State.loadWalked (s : State) (ag : Agent) (m : Manifest) (rs : List (Nat × Nat)) : State :=
  if m.tile || s.latent.isEmpty then s
  else rs.foldl (fun t r => match t.access ag.ctx (t.coreOf ag) accRead (r.1 % 2 ^ 64) r.2 with
    | .ok ps => t.walked ag.ctx ps
    | .error _ => t) s

/-- Put a command into the engine's queue with everything captured at its issue (R265, R296, R303). -/
def State.queueCommand (s : State) (op : MatOp) (x : Extended) (i : Nat) (g : MatArgs) (w : Word) (idx : List Word)
    (runC runU : Option DWord) : State :=
  let ag := s.agent i
  let ma := (s.ctx ag.ctx).manifest x.mfa.toNat
  let mb := (s.ctx ag.ctx).manifest x.mfb.toNat
  let k := (mb.opClass.map (·.k)).getD 1
  let ranges := if op.usesB x then loadRanges mb (originLo g.bOrg) (originHi g.bOrg) k else []
  let cmd : MatCmd := {
    op := op.code, x := x, oa := g.aOrg.headD g.dOrg, ob := g.bOrg, w := w, ma := ma, mb := mb,
    ca := s.curveOf ag.ctx ma, cb := s.curveOf ag.ctx mb, idx := idx,
    pages := s.loadPages ag mb ranges
    runC := runC, runU := runU, seq := s.nonce }
  (s.loadWalked ag mb ranges).draw.2.updEngine ag fun e => { stepMeta op x ma mb e with queue := e.queue ++ [cmd] }

def matArgs (op : MatOp) (l : Lane) : MatArgs :=
  { aOrg := match op with | .mma | .mgth => [l.a.setWidth 64] | _ => []
    bOrg := l.b.setWidth 64
    dOrg := l.a.setWidth 64 }

def gatherOff (l : Lane) : Nat := l.b.toNat % 2 ^ 32

/-- A command other than mmap. -/
def matJob (op : MatOp) (x : Extended) : Job where
  sig := matSig op x
  idle := op = .mgth
  check := fun s l => s.matFault op x (s.agent l.agent) (matArgs op l) (gatherOff l)
  perform := eachLane fun s l =>
    let ag := s.agent l.agent
    let r := if op = .mgth then s.gatherIndex ag x (gatherOff l) else (s, [])
    (r.1.queueCommand op x l.agent (matArgs op l) (l.b.setWidth 32) r.2 none none, {})

/-- mzro (R307). -/
def execMzro (x : Extended) (s : State) : Out := (matJob .mzro x).issue x.fields s

/-- mchb (R307). -/
def execMchb (x : Extended) (s : State) : Out := (matJob .mchb x).issue x.fields s

/-- mche (R301, R307). -/
def execMche (x : Extended) (s : State) : Out := (matJob .mche x).issue x.fields s

/-- mma (R308). -/
def execMma (x : Extended) (s : State) : Out := (matJob .mma x).issue x.fields s

/-- mgth (R309). -/
def execMgth (x : Extended) (s : State) : Out := (matJob .mgth x).issue x.fields s

/-- mdrn (R312). -/
def execMdrn (x : Extended) (s : State) : Out := (matJob .mdrn x).issue x.fields s

/-- mdrg (R313). -/
def execMdrg (x : Extended) (s : State) : Out := (matJob .mdrg x).issue x.fields s

/-! ## mmap (R310) -/

/-- The streams whose PSTAT bit is clear: the queues 0 and 1. -/
def liveStreams (a : Agent) : List Nat := [0, 1].filter fun q => !a.ended.toNat.testBit q

/-- The head token of a stream's queue. -/
def State.headToken (s : State) (a : Agent) (q : Nat) : DWord := (s.tokens (s.coreOf a) q).headD 0

/-- Live streams that are not ending, with their origins. -/
def State.runStreams (s : State) (a : Agent) : List (Nat × DWord) :=
  ((liveStreams a).map fun q => (q, s.headToken a q)).filter fun x => !x.2.getLsbD 63

/-- The queue that gives the B origin of a load (R73, R294). -/
def mapQueue (x : Extended) : Option Nat := if matLdb x then queueField x.sc else none

/-- The tokens an mmap takes: the head of each live stream's queue, then one for a B origin from a queue. With both PSTAT
bits set it takes none (R310). -/
def mapTokens (x : Extended) (a : Agent) : List (Nat × Nat) :=
  let live := liveStreams a
  if live.isEmpty then []
  else
    let qs := live ++ (mapQueue x).toList
    qs.eraseDups.map fun q => (q, (qs.filter (· = q)).length)

/-- The B origin: SC, or the token after the stream's own where SC names a queue. -/
def State.mapOrigin (s : State) (x : Extended) (a : Agent) (l : Lane) : DWord :=
  match mapQueue x with
  | some q => (s.tokens (s.coreOf a) q).getD (if (liveStreams a).contains q then 1 else 0) 0
  | none => l.c.setWidth 64

def State.mapArgs (s : State) (x : Extended) (a : Agent) (l : Lane) : MatArgs :=
  { aOrg := (s.runStreams a).map fun x => tokenOrigin x.2, bOrg := s.mapOrigin x a l }

def mmapCheck (x : Extended) (s : State) (l : Lane) : Option Trap :=
  let a := s.agent l.agent
  if (s.runStreams a).isEmpty then none else s.matFault .mmap x a (s.mapArgs x a l) 0

def mmapLane (x : Extended) (s : State) (l : Lane) : State × LaneRes :=
  let a := s.agent l.agent
  let run := s.runStreams a
  let live := liveStreams a
  let ending := live.filter fun q => (s.headToken a q).getLsbD 63
  let args := s.mapArgs x a l
  let s1 := (mapTokens x a).foldl (fun t q => t.updTokens (s.coreOf a) q.1 fun ts => ts.drop q.2) s
  let s2 := s1.updAgent l.agent fun b =>
    { b with ended := ending.foldl (fun e q => e ||| (1#2 <<< q)) b.ended, solo := if run.length = 1 then b.solo + 1 else b.solo }
  let org (q : Nat) : Option DWord := (run.find? fun r => r.1 = q).map fun r => tokenOrigin r.2
  let s3 := if run.isEmpty then s2 else s2.queueCommand .mmap x l.agent args 0 [] (org 0) (org 1)
  let status : Nat := match org 0, org 1 with
    | some _, some _ => 0
    | some _, none => 1
    | none, some _ => 2
    | none, none => 3
  (s3, { val := BitVec.ofNat 128 status })

/-- mmap: waits for a token of each live stream (R310). -/
def execMmap (x : Extended) (s : State) : Out :=
  ({ sig := matSig .mmap x
     early := fun s i => if (s.launch (s.agent i).launch).paired then none else some { code := .illegalInstruction }
     waits := fun _ a => mapTokens x a
     heads := liveStreams
     check := mmapCheck x
     perform := eachLane (mmapLane x) } : Job).issue x.fields s

/-! ## Values (R300, R301) -/

/-- An element's value: MXVAL, or INV of it where the operand has a curve. -/
def opValue (fmt : Nat) (curved : Bool) (cv : Option Curve) (code scale : Nat) : FVal :=
  let v := mxval scale (decodeFp (fmtFloat fmt) code)
  if curved then decodeFp fp32 (curveInv cv (rne32 v)).1 else v

/-- One line of an operand as its blocks: the block's scale and its element values (unscaled). -/
def opBlocks (fmt : Nat) (curved : Bool) (cv : Option Curve) (l : Nat) (codes : List (Nat × Nat)) : List (Nat × List FVal) :=
  (List.range ((codes.length + l - 1) / l)).map fun b =>
    let part := (codes.drop (l * b)).take l
    if curved then (0x7F, part.map fun x => opValue fmt true cv x.1 x.2)
    else ((part.headD (0, 0x7F)).2, part.map fun x => decodeFp (fmtFloat fmt) x.1)

/-- The lines of a tile as blocks. -/
def OpTile.lines (t : OpTile) : List (List (Nat × List FVal)) :=
  let l := ((opClass t.fmt t.curved).map (·.l)).getD 32
  (t.codes.zip t.scales).zipIdx.map fun x =>
    let cs := x.1.1.zip x.1.2 |>.map fun y => (y.1.toNat, y.2.toNat)
    if t.zeros.contains x.2 then (opBlocks t.fmt false none l cs).map fun b => (0x7F, b.2.map fun _ => decodeFp fp32 0)
    else opBlocks t.fmt t.curved t.curve l cs

/-- A word map as a list of 4,096 words. -/
def denseFrom : Nat → Nat → WordMap → List Word
  | 0, _, _ => []
  | n + 1, k, m =>
    match m with
    | [] => 0 :: denseFrom n (k + 1) []
    | (j, v) :: r => if j = k then v :: denseFrom n (k + 1) r else 0 :: denseFrom n (k + 1) ((j, v) :: r)

def dense (m : WordMap) : List Word := denseFrom 4096 0 m

/-- The canonical map of a list of words. -/
def sparseOf (ws : List Word) : WordMap := ws.zipIdx.filterMap fun x => if x.1 = 0 then none else some (x.2, x.1)

def addWords (a b : List Word) : List Word :=
  (a.zip b).map fun x => BitVec.ofNat 32 (elAdd fp32 .rn x.1.toNat x.2.toNat 0).1

/-- Add one block product to every element (R301). -/
def Accum.addBlock (acc : Accum) (p : List Word) : Accum :=
  if acc.n % 2 = 0 then { acc with even := sparseOf (addWords (dense acc.even) p), n := acc.n + 1 }
  else { acc with odd := sparseOf (addWords (dense acc.odd) p), n := acc.n + 1 }

/-- The block products of one block of every row and column. -/
def blockProducts (sat : Bool) (a b : List (Nat × List FVal)) : List Word :=
  a.flatMap fun x => b.map fun y => BitVec.ofNat 32 (mxdot x.1 x.2 y.1 y.2 sat)

/-- One k-step into an accumulator (R301). -/
def Accum.kStep (acc : Accum) (a b : OpTile) : Accum :=
  let la := a.lines
  let lb := b.lines
  let nb := (la.headD []).length
  (List.range nb).foldl (fun x i =>
    x.addBlock (blockProducts (a.sat || b.sat) (la.map fun r => r.getD i (0x7F, [])) (lb.map fun r => r.getD i (0x7F, [])))) acc

/-- mche folds every element: one rounding of acc + E + O (R301). -/
def Accum.fold (acc : Accum) : Accum :=
  let es := (dense acc.elems).zip ((dense acc.even).zip (dense acc.odd))
  { acc with
    elems := sparseOf (es.map fun x =>
      BitVec.ofNat 32 (rne32 (FVal.sum .rn [wordVal x.1, wordVal x.2.1, wordVal x.2.2])))
    even := [], odd := [], n := 0 }

/-! ## Performing a command (R296) -/

/-- Lines of an operand from a tile plane: row numbers, none for a row of zeros. -/
def State.readLines (s : State) (e : EngineAt) (m : Manifest) (k0 k : Nat) (rows : List (Option Nat)) : State × List (List (Nat × Nat)) :=
  rows.foldl (fun acc r =>
    match r with
    | none => (acc.1, acc.2 ++ [List.replicate k (0, 0x7F)])
    | some row => match acc.1.readCodes e m k0 row 0 0 k with
      | .ok (t, cs) => (t, acc.2 ++ [cs])
      | .error _ => (acc.1, acc.2 ++ [List.replicate k (0, 0x7F)])) (s, [])

def tileOf (m : Manifest) (cv : Option Curve) (ls : List (List (Nat × Nat))) : OpTile :=
  { fmt := m.fmt, curved := m.curveSlot ≠ 0, curve := cv, sat := m.sat
    codes := ls.map fun r => r.map fun x => BitVec.ofNat 64 x.1
    scales := ls.map fun r => r.map fun x => BitVec.ofNat 8 x.2 }

def Manifest.stepK (m : Manifest) : Nat := (m.opClass.map (·.k)).getD 1

/-- The A operand of 64 rows at an origin (R303). -/
def State.readA (s : State) (e : EngineAt) (c : MatCmd) (org : DWord) : State × OpTile :=
  let r := s.readLines e c.ma (originLo org) c.ma.stepK ((List.range 64).map fun i => some (originHi org + i))
  (r.1, tileOf c.ma c.ca r.2)

/-- The bytes of a page list. -/
def State.readPages (s : State) (ctx : Nat) (ps : List (Nat × Nat)) : State × List Byte :=
  s.readMerged ctx (ps.map fun p => { va := 0, pa := p.1, len := p.2, ord := 0 })

/-- The columns of a B load, from the pages translated at issue (R302). -/
def State.loadColumns (s : State) (ctx : Nat) (m : Manifest) (k0 k : Nat) : List (List (Nat × Nat)) → Nat → State × List (List (Nat × Nat))
  | [], _ => (s, [])
  | _, 0 => (s, [])
  | codes :: rest, n + 1 =>
    let (s1, bs) := s.readPages ctx codes
    let cs := m.unpack k0 k bs
    if m.scaled then
      match rest with
      | sc :: rest' =>
        let (s2, ss) := s1.readPages ctx sc
        let line := cs.zipIdx.map fun x => (x.1, (ss.getD ((k0 + x.2) / 32 - k0 / 32) 0).toNat)
        let r := s2.loadColumns ctx m k0 k rest' n
        (r.1, line :: r.2)
      | [] => (s1, [])
    else
      let r := s1.loadColumns ctx m k0 k rest n
      (r.1, (cs.map fun x => (x, 0x7F)) :: r.2)

/-- The B tile a command loads. -/
def State.readB (s : State) (e : EngineAt) (c : MatCmd) : State × OpTile :=
  let k := c.mb.stepK
  let k0 := originLo c.ob
  let r :=
    if c.mb.tile then s.readLines e c.mb k0 k ((List.range 64).map fun i => some (originHi c.ob + i))
    else s.loadColumns e.ctx c.mb k0 k c.pages 64
  (r.1, tileOf c.mb c.cb r.2)

/-- Tiles after a load into slot `b`. -/
def loadSlots (ts : List (Nat × OpTile)) (b : Nat) (t : OpTile) : List (Nat × OpTile) :=
  let wide (t : OpTile) : Bool := twoSlot t.fmt t.curved
  let last := if wide t then b + 1 else b
  (b, t) :: ts.filter fun e => !(decide (e.1 ≤ last) && decide (b ≤ (if wide e.2 then e.1 + 1 else e.1)))

/-- An error dropped in a sector of the B-stage buffer zeroes the codes of its column that the slot holds. -/
def dropColumn (t : OpTile) (col : Nat) (upper : Bool) : OpTile :=
  { t with codes := t.codes.zipIdx.map fun x =>
      if x.2 = col then
        (if twoSlot t.fmt t.curved then x.1.zipIdx.map fun y => if (decide (y.2 ≥ 32)) == upper then 0 else y.1
         else x.1.map fun _ => 0)
      else x.1 }

/-- Errors met in the slots of a tile that a k-step reads; sector j of a slot holds its part of column j. -/
def State.meetSlots (s : State) (a : Agent) (slot : Nat) (wide : Bool) : State :=
  if s.latent.isEmpty then s
  else
    let core := s.coreOf a
    (if wide then [(slot, false), (slot + 1, true)] else [(slot, false)]).foldl (fun t x =>
      (List.range 64).foldl (fun u j =>
        u.meetErrors (.bstage core) (x.1 * 2048 + 32 * j) (some a.ctx) 1 fun v =>
          v.updEngine a fun e => { e with slots := assocUpd e.slots slot fun o => dropColumn o j x.2 }) t) s

/-- A load writes every sector of its slots with a fresh code: what struck them before is gone, and injections fire. -/
def State.fireSlots (s0 : State) (a : Agent) (slot : Nat) (wide : Bool) : State :=
  let core := s0.coreOf a
  let old (l : Latent) : Bool :=
    l.arr = .bstage core && (l.loc / 2048 = slot || (wide && l.loc / 2048 = slot + 1))
  let s := { s0 with latent := s0.latent.filter fun l => !old l }
  if s.logs.isEmpty then s
  else
    (if wide then [slot, slot + 1] else [slot]).foldl (fun t b =>
      (List.range 64).foldl (fun u j => u.fireInjection (.bstage core) (b * 64 + j) (b * 2048 + 32 * j)) t) s

/-- Load the B tile where the command asks for it; the tile in slot BOFF. -/
def State.bTile (s : State) (a : Agent) (e : EngineAt) (c : MatCmd) : State × OpTile :=
  let slot := matBoff c.x
  let s1 : State :=
    if (MatOp.ofCode c.op).usesB c.x then
      let (t, b) := s.readB e c
      (t.updEngine a fun g => { g with slots := loadSlots g.slots slot b }).fireSlots a slot (twoSlot b.fmt b.curved)
    else s
  let tile (t : State) : OpTile := (assocGet (t.engineOf a).slots slot).getD {}
  let s2 := s1.meetSlots a slot (twoSlot (tile s1).fmt (tile s1).curved)
  (s2, tile s2)

def State.updAcc (s : State) (a : Agent) (x : Nat) (f : Accum → Accum) : State :=
  s.updEngine a fun e => { e with acc := updAt e.acc x f }

/-- One row of a drain, from element values (R312). -/
def State.drainRow (s : State) (e : EngineAt) (c : MatCmd) (row : Nat) (vs : List FVal) : State :=
  let rm := (Rounding.ofCode (c.x.sub.toNat % 4)).getD .rn
  let w := fmtBits c.ma.fmt
  let c0 := originLo c.oa
  let r := originHi c.oa + row
  if fmtIsMx c.ma.fmt then
    [0, 1].foldl (fun t b =>
      let (codes, sc) := convBlock c.ma c.ca rm (((vs.drop (32 * b)).take 32).map .fp)
      let t1 := if c.ma.scl then t.planeWrite e (c.ma.sa (c0 + 32 * b) r 0 0) [BitVec.ofNat 8 sc] else t
      t1.planeWrite e (c.ma.ea (c0 + 32 * b) r 0 0) (leBytes (c.ma.bytesOf 32) (packElems w codes))) s
  else s.planeWrite e (c.ma.ea c0 r 0 0) (leBytes (8 * w) (packElems w (vs.map fun v => convOne c.ma c.ca rm (.fp v))))

/-- Rows of 64 of a list. -/
def rowsOf {α : Type} (l : List α) : List (List α) := (List.range 64).map fun i => (l.drop (64 * i)).take 64

def State.drainAll (s : State) (e : EngineAt) (c : MatCmd) (vs : List FVal) : State :=
  (rowsOf vs).zipIdx.foldl (fun t x => t.drainRow e c x.2 x.1) s

/-- The guided combination of two elements (R313). -/
def guided (w : Word) (c u : Word) : FVal :=
  let d := rne32 (FVal.sum .rn [wordVal c, (wordVal u).neg])
  decodeFp fp32 (elFma fp32 .rn w.toNat d u.toNat).1

/-- The effect of a command in the engine. -/
def State.runCommand (s : State) (i : Nat) (c : MatCmd) : State :=
  let a := s.agent i
  let x := c.x
  let own := s.shareFor a false
  let p1 := s.shareFor a (matP1 x)
  let accs := matAccs (MatOp.ofCode c.op) x
  let clear (t : State) : State := if matZro x then accs.foldl (fun u k => u.updAcc a k fun r => { r with elems := [] }) t else t
  match MatOp.ofCode c.op with
  | .mzro => accs.foldl (fun t k => t.updAcc a k fun r => { r with elems := [] }) s
  | .mchb => accs.foldl (fun t k => t.updAcc a k fun r => { r with even := [], odd := [], n := 0 }) s
  | .mche => accs.foldl (fun t k => t.updAcc a k Accum.fold) s
  | .mma =>
    let (s1, b) := s.bTile a own c
    let (s2, ta) := if matGth x then (s1, ((s1.engineOf a).latch).getD {}) else s1.readA own c c.oa
    s2.updAcc a (matAcc x) fun r => r.kStep ta b
  | .mgth =>
    let k := c.ma.stepK
    let r := s.readLines p1 c.ma (originLo c.oa) k (c.idx.map fun w => if w = 0xFFFFFFFF then none else some w.toNat)
    r.1.updEngine a fun e => { e with latch := some { tileOf c.ma c.ca r.2 with
      zeros := c.idx.zipIdx.filterMap fun w => if w.1 = 0xFFFFFFFF then some w.2 else none } }
  | .mmap =>
    let (s1, b) := s.bTile a own c
    let s2 := match c.runC with
      | some org => let (t, ta) := s1.readA own c org; t.updAcc a (matAcc x) fun r => r.kStep ta b
      | none => s1
    match c.runU with
    | some org => let (t, ta) := s2.readA (s.shareFor a true) c org; t.updAcc a (matAcc2 x) fun r => r.kStep ta b
    | none => s2
  | .mdrn =>
    let r := (s.engineOf a).acc.getD (matAcc x) {}
    clear (s.drainAll p1 c ((dense r.elems).map wordVal))
  | .mdrg =>
    let rc := (s.engineOf a).acc.getD (matAcc x) {}
    let ru := (s.engineOf a).acc.getD (matAcc2 x) {}
    clear (s.drainAll p1 c (((dense rc.elems).zip (dense ru.elems)).map fun z => guided c.w z.1 z.2))

/-- The oldest command of a drover program is performed and leaves its queue. -/
def State.nextCommand (s : State) (drover : Nat) : State :=
  let a := s.agent drover
  match (s.engineOf a).queue with
  | [] => s
  | c :: rest => (s.runCommand drover c).updEngine a fun e => { e with queue := rest }

/-- Every command a drover program has issued is performed. -/
def State.finishCommands (s : State) (drover : Nat) : State :=
  (s.engineOf (s.agent drover)).queue.foldl (fun t _ => t.nextCommand drover) s

/-- MATRIX_COMMAND_COMPLETE: the oldest command of a drover program is performed (R296). -/
def execMatrixCommandComplete (drover : Nat) (s : State) : Out := .next (s.nextCommand drover)

/-! ## vmx (R314-R317) -/

def vmxN (x : Extended) : Nat := bitsAt x.spec.toNat 0 3 + 1
def vmxBf (x : Extended) : Bool := bitAt x.flags.toNat 0

def vmxReservedOk (x : Extended) : Bool :=
  x.spec.toNat / 8 = 0 && x.flags.toNat / 2 = 0 && x.mfa = 0 && x.mfb = 0 && x.sci = 0 && x.sub = 0

def vmxIndex (l : Lane) : Nat := l.b.toNat % 256
def vmxVec (l : Lane) : Nat := l.a.toNat % 2 ^ 32
def vmxCol (l : Lane) : Nat := l.c.toNat % 2 ^ 32

/-- The bytes of columns c0 .. c0 + n - 1: each column's codes, then its scales; their pages are checked in that order (DESIGN
CHOICE, assumption 67: R316 names none). -/
def vmxRanges (m : Manifest) (c0 n : Nat) : List (Nat × Nat) :=
  let (b0, len) := m.codeRange 0 (m.ext 0)
  (List.range n).flatMap fun j =>
    (m.ea 0 (c0 + j) 0 0 + b0, len) :: (if m.scaled then [(m.sa 0 (c0 + j) 0 0, (blockRange 0 (m.ext 0)).2)] else [])

/-- The checks of one lane (R316). -/
def vmxFault (x : Extended) (s : State) (l : Lane) : Option Trap :=
  let a := s.agent l.agent
  let i := vmxIndex l
  let m := (s.ctx a.ctx).manifest i
  let bad : Trap := { code := .matrixOperand, info := BitVec.ofNat 32 i }
  let k := m.ext 0
  if i = 0 ∨ !m.valid then some bad
  else if m.cmp ∨ m.base % 16 ≠ 0 ∨ m.stride 1 % 16 ≠ 0 ∨ vmxCol l + vmxN x > m.ext 1 then some bad
  else match m.opClass with
    | none => some bad
    | some c =>
      if k % c.l ≠ 0 then some bad
      else
        orElseTrap (recordFault (s.tileSizeOf a.block) (2 * k) 16 (vmxVec l : Nat)) <|
        if m.tile then
          (if m.footEnd > s.tileSizeOf a.block then some { code := .tileBound, info := 3, addr := BitVec.ofNat 64 m.footEnd } else none)
        else
          (vmxRanges m (vmxCol l) (vmxN x)).findSome? fun r =>
            match s.access a.ctx (s.coreOf a) accRead (r.1 % 2 ^ 64) r.2 with
            | .error f => some (f.trap 0)
            | .ok _ => none

/-- The lanes in the order of the groups: ascending index, ascending lane within a group (R316). Each lane makes all its checks
before the next (DESIGN CHOICE, assumption 67). -/
def vmxOrder (ls : List Lane) : List Lane :=
  (List.range 256).flatMap fun i => ls.filter fun l => vmxIndex l = i

/-- The result columns of one lane (R315). -/
def vmxColumn (m : Manifest) (cv : Option Curve) (xs : List FVal) (codes : List (Nat × Nat)) : Nat :=
  let l := (m.opClass.map (·.l)).getD 32
  let bs := opBlocks m.fmt (m.curveSlot ≠ 0) cv l codes
  let r := bs.zipIdx.foldl (fun (acc : Nat × Nat) y =>
    let p := mxdot 0x7F ((xs.drop (l * y.2)).take l) y.1.1 y.1.2 m.sat
    if y.2 % 2 = 0 then ((elAdd fp32 .rn acc.1 p 0).1, acc.2) else (acc.1, (elAdd fp32 .rn acc.2 p 0).1)) (0, 0)
  (elAdd fp32 .rn r.1 r.2 0).1

/-- The pages of the columns a lane reads. -/
def State.vmxPieces (s : State) (a : Agent) (m : Manifest) (c0 n : Nat) : List Piece :=
  if m.tile then []
  else (vmxRanges m c0 n).flatMap fun r => match s.access a.ctx (s.coreOf a) accRead (r.1 % 2 ^ 64) r.2 with
    | .ok ps => ps
    | .error _ => []

/-- One lane: its reads of e come after the thread's own stores to the same bytes (R232, R317); its columns into gD up; the value of gD is the result. A helper names no entry and receives +0. -/
def vmxLane (x : Extended) (s : State) (l : Lane) : State × LaneRes :=
  let n := vmxN x
  let d := x.dst.toNat
  let put (t : State) (ws : List Nat) : State := t.updAgent l.agent fun a =>
    ws.zipIdx.foldl (fun b w => b.setReg (d + w.2) (BitVec.ofNat 32 w.1)) a
  if !l.want then (put s (List.replicate n 0), {})
  else
    let a := s.agent l.agent
    let e : EngineAt := { ctx := a.ctx, core := s.coreOf a, block := a.block, pos := a.pos }
    let m := (s.ctx a.ctx).manifest (vmxIndex l)
    let cv := s.curveOf a.ctx m
    let k := m.ext 0
    let ps := s.vmxPieces a m (vmxCol l) n
    let s1 := (s.orderOwn l.agent ps).meetTile (some a.ctx) a.block a.pos (vmxVec l) (2 * k)
    let xs := (List.range k).map fun i =>
      decodeFp (if vmxBf x then bf16 else fp16) (leNat (s1.readTile a.block a.pos (vmxVec l + 2 * i) 2))
    let r := (List.range n).foldl (fun (acc : State × List Nat) j =>
      match acc.1.readCodes e m 0 (vmxCol l + j) 0 0 k with
      | .ok (t, cs) => (t, acc.2 ++ [vmxColumn m cv xs cs])
      | .error _ => (acc.1, acc.2 ++ [0])) (s1, [])
    (put (r.1.dropStale l.agent ps) r.2, { val := BitVec.ofNat 128 (r.2.headD 0) })

/-- vmx d, a, b, c, n(N) (R314). -/
def execVmx (x : Extended) (s : State) : Out :=
  ({ sig := { dst := .w32, a := .b32, b := .b32, c := .b32, dstRegs := vmxN x, ctlOk := fun _ => vmxReservedOk x }
     checkAll := fun s ls => (vmxOrder ls).findSome? (vmxFault x s)
     perform := fun s ls =>
       let os := vmxOrder ls
       let r := eachLane (vmxLane x) s os
       (r.1, ls.map fun l => (((os.zip r.2).find? fun y => y.1.agent = l.agent).map (·.2)).getD {}) } : Job).issue x.fields s

end Sys2Proof.Machine
end

