-- ==== Sys2Proof/Machine/Errors.lean ====
section
/-! DEFINITION. Soft errors, write-back, error logs and injection (R208, R384-R386), merge windows (R203), the carve-out and
its grants (R205-R207). -/

namespace Sys2Proof.Machine

/-! ## Who may reach the logs and INJ (R385, R386, R402) -/

/-- The management port, and the host on the control port while the main side runs. -/
def State.trusted (s : State) (who : Party) : Bool :=
  match who with
  | .management => true
  | .host p => p = s.mgmt.control && !s.mgmt.held

/-- The device has this array. -/
def arrayExists : ArrayId → Bool
  | .tile c => decide (c < 64)
  | .bstage c => decide (c < 64)
  | .l2data n => decide (n < 64)
  | .l2tag n => decide (n < 64)
  | .memory n => decide (n < 12)

/-- INJ: an injection register is written; TWO with BITA = BITB is ignored. -/
def execInj (who : Party) (arr : ArrayId) (v : DWord) (s : State) : Out :=
  let n := v.toNat
  if !s.trusted who ∨ !arrayExists arr ∨ (n.testBit 62 ∧ bitsAt n 53 9 = bitsAt n 44 9) then .next s
  else .next (s.updLog arr fun l => { l with inj := v })

/-- An entry of the log (R385 Table 4). -/
def LogEntry.bytes (e : LogEntry) : List Byte :=
  List.replicate 11 0 ++ leBytes 1 e.kind ++ leBytes 2 (e.ctx.getD 0xFFFF) ++ leBytes 2 e.synd.toNat ++ leBytes 8 e.loc ++ leBytes 8 e.seq.toNat

/-- ERRLOG_READ: the entries, oldest first, then CORR and DROP. -/
def execErrlogRead (who : Party) (arr : ArrayId) (s : State) : Out :=
  if !s.trusted who ∨ !arrayExists arr then .next s
  else
    let l := s.arrayLog arr
    .next { s with reply := l.log.flatMap LogEntry.bytes ++ leBytes 4 l.corr.toNat ++ leBytes 4 l.drop.toNat }

/-- ERRLOG_CLEAR. -/
def execErrlogClear (who : Party) (arr : ArrayId) (s : State) : Out :=
  if !s.trusted who ∨ !arrayExists arr then .next s
  else .next (s.updLog arr fun l => { l with log := [], corr := 0, drop := 0 })

/-! ## Errors (R208) -/

/-- SOFT_ERROR: a sector, or a tag, of an array is struck; what an access then meets is decided when one reaches it. -/
def execSoftError (arr : ArrayId) (loc : Nat) (double : Bool) (s : State) : Out :=
  let at_ := match arr with
    | .l2tag _ => loc
    | _ => loc / 32 * 32
  if !arrayExists arr then .next s
  else .next { s with latent := s.latent ++ [⟨arr, at_, double, false⟩] }

/-- A dirty sector goes to memory; a drop found here is charged to the context that last wrote the line. -/
def State.writeBack (s : State) (sector : Nat) : State :=
  match s.dirty.find? fun d => d.sector = sector with
  | none => s
  | some d =>
    let ctx := if d.ctx = 0xFFFF then none else some d.ctx
    let line := sector / 256 * 256
    let slice := homeSlice sector
    let s1 := s.meetErrors (.l2tag slice) (tagPlace line) ctx (s.dirtyOf line).length fun t => t.loseLine line
    let s2 := s1.meetErrors (.l2data slice) sector ctx (if s1.isDirty sector then 1 else 0) fun t => t.zeroSector sector
    if !s2.isDirty sector then s2
    else
      let ctl := memController sector
      let s3 := { s2 with
        dirty := s2.dirty.filter fun d => d.sector ≠ sector
        latent := s2.latent.filter fun l => !(l.arr = ArrayId.memory ctl && l.loc = sector) }
      s3.fireInjection (.memory ctl) (sector / 32) sector

/-- WRITE_BACK. -/
def execWriteBack (sector : Nat) (s : State) : Out := .next (s.writeBack sector)

/-- MERGE_WINDOW_EXPIRE: 64 cc after it opened, an entry takes no further read (R203). -/
def execMergeWindowExpire (sector : Nat) (s : State) : Out := .next { s with merges := s.merges.filter fun e => e.sector ≠ sector }

/-! ## The carve-out (R205-R207) -/

/-- The bytes of a die's units lo .. hi - 1 become zero, or are lost. -/
def State.clearUnits (s : State) (die lo hi : Nat) : State :=
  s.zeroFill (scratchBase + die * scratchWindow + lo * scratchUnit) ((hi - lo) * scratchUnit)

/-- A line whose home is a slice of the die, in one of the ways 16 - hi to 15 - lo that leave the cache. -/
def departs (die lo hi pa : Nat) : Bool :=
  let way := bitsAt (tagPlace (pa / 256 * 256)) 16 4
  homeSlice pa / 16 = die && decide (16 - hi ≤ way) && decide (way ≤ 15 - lo)

/-- Step 3 of R206: reductions pending for a departing line are applied, and its dirty sectors are written back. -/
def State.emptyWays (s : State) (die lo hi : Nat) : State :=
  let main (t : State) (pa : Nat) : Bool := (t.region pa).isMain && departs die lo hi pa
  let s1 := ((s.reds.map (·.pa)).filter (main s)).foldl (fun t pa => t.settleReds pa 2) s
  ((s1.dirty.map (·.sector)).filter (main s1)).foldl State.writeBack s1

/-- Some context holds a grant for a unit from lo up. -/
def State.granted (s : State) (die lo : Nat) : Bool :=
  s.contexts.any fun c => c.2.live && decide ((c.2.grants.getD die 0).toNat ≥ 2 ^ lo)

/-- CARVE: toward the scratchpad it goes on until CARVE_COMPLETE; back to caching it needs every departing unit's grants
revoked, and W changes at once. -/
def execCarve (r : PacketRef) (s : State) : Out :=
  match s.command r 0x10 with
  | none => .next s
  | some p =>
    let die := bitsAt (p.arg 0) 0 16
    let ways := bitsAt (p.arg 0) 16 16
    let w := s.carve.getD die 0
    if !s.privileged r then .next (s.reply1 r 6 0)
    else if die > 3 ∨ ways > 12 ∨ p.arg 0 ≥ 2 ^ 32 ∨ p.arg 1 ≠ 0 ∨ p.arg 2 ≠ 0 ∨ p.arg 3 ≠ 0 then .next (s.reply1 r 2 0)
    else if ways = w then .next (s.reply1 r 0 0)
    else if ways < w then
      if s.granted die ways then .next (s.reply1 r 1 0)
      else .next (({ s with carve := s.carve.set die ways }.clearUnits die ways w).reply1 r 0 0)
    else if s.carving.any (fun c => c.1 = die) then .next s
    else .next { s with carving := s.carving ++ [(die, ways, r)] }

/-- CARVE_COMPLETE: every set of every slice has been treated; the new units read zero. -/
def execCarveComplete (die : Nat) (s : State) : Out :=
  match s.carving.find? fun c => c.1 = die with
  | none => .next s
  | some (_, ways, r) =>
    if s.mgmt.held then .next s
    else
      let w := s.carve.getD die 0
      let s1 := (s.emptyWays die w ways).clearUnits die w ways
      .next ({ s1 with carve := s1.carve.set die ways, carving := s1.carving.filter fun c => c.1 ≠ die }.reply1 r 0 0)

/-- CTX, DIE and UNITS of SPGRANT and SPREVOKE; none where a field is out of range. -/
def State.grantFields (s : State) (p : Packet) : Option (Nat × Nat × Nat) :=
  let a := p.arg 0
  let c := bitsAt a 0 16
  let die := bitsAt a 16 16
  let units := bitsAt a 32 16
  if !(s.ctx c).live ∨ die > 3 ∨ units ≥ 2 ^ 12 ∨ a ≥ 2 ^ 48 ∨ p.arg 1 ≠ 0 ∨ p.arg 2 ≠ 0 ∨ p.arg 3 ≠ 0 then none else some (c, die, units)

/-- SPGRANT: every named unit must be carved. -/
def execSpgrant (r : PacketRef) (s : State) : Out :=
  s.privCommand r 0x11 fun p =>
    match s.grantFields p with
    | none => (2, 0, s)
    | some (c, die, units) =>
      if units ≥ 2 ^ s.carve.getD die 0 then (3, 0, s)
      else (0, 0, s.updCtx c fun k => { k with grants := k.grants.modify die fun g => g ||| BitVec.ofNat 12 units })

/-- A PA lies in one of a die's named units. -/
def inUnits (die units pa : Nat) : Bool :=
  let base := scratchBase + die * scratchWindow
  decide (base ≤ pa) && decide (pa < base + scratchWindow) && units.testBit ((pa - base) / scratchUnit)

/-- A queued matrix command has translated a load from one of these units. -/
def State.unitsInUse (s : State) (ctx die units : Nat) : Bool :=
  s.blocks.any fun k => k.ctx = ctx && k.shares.any fun h => h.engine.queue.any fun m =>
    m.pages.any fun ps => ps.any fun x => inUnits die units x.1

/-- Perform a context's accesses that are still under way: stores and reductions, accepted ones too, and second halves. -/
def State.flushContext (s : State) (ctx : Nat) : State :=
  let s1 := s.performWhere fun p => p.ctx = ctx
  let s2 := (s1.halves.filter fun i => (s1.agent i).ctx = ctx).foldl State.secondHalf s1
  (s2.reds.filter fun r => r.ctx = ctx).foldl (fun t r => t.settleReds r.pa 2) s2

/-- SPREVOKE: no TLB keeps a translation of the context into the units, every access already translated is performed, and
the grants are gone. -/
def execSprevoke (r : PacketRef) (s : State) : Out :=
  match s.command r 0x12 with
  | none => .next s
  | some p =>
    if !s.privileged r then .next (s.reply1 r 6 0)
    else match s.grantFields p with
      | none => .next (s.reply1 r 2 0)
      | some (c, die, units) =>
        if s.unitsInUse c die units then .next s
        else
          let s1 := s.flushContext c
          let s2 := { s1 with tlb := s1.tlb.filter fun e => !(e.ctx = c && inUnits die units e.tr.pa) }
          .next ((s2.updCtx c fun k => { k with grants := k.grants.modify die fun g => g &&& ~~~BitVec.ofNat 12 units }).reply1 r 0 0)

end Sys2Proof.Machine
end

