-- ==== Sys2Proof/Machine/Fence.lean ====
section
/-! DEFINITION. Fences, tfence, scpw, scpinv (R227-R228, R243-R246). -/

namespace Sys2Proof.Machine

/-! ## Fences (R227) -/

def PendBody.isRed : PendBody → Bool
  | .store _ => false
  | .reduce _ _ _ => true
  | .half _ _ _ => true

/-- The agent's pending SO and RC reductions in a scope are performed: read-modify-writes that any fence orders (R234). -/
def State.performReds (s : State) (i : Nat) (sc : Scope) : State :=
  s.performOwn i fun p => p.ord ≠ 2 && p.body.isRed && p.body.bytes.any (s.inScope sc)

/-- A fence: its scope is captured and checked; wanting lanes release, acquire, or both. -/
def fenceJob (release acquire : Bool) : Job where
  sig := { b := .scope }
  check := fun s l => s.scopeFault (s.agent l.agent) l.b.toNat 2
  perform := fun s ls =>
    ((ls.filter (·.want)).foldl (fun t l =>
      let sc := s.laneScope l l.b.toNat
      let t1 := if release then t.releaseAt l.agent sc else t.performReds l.agent sc
      if acquire then t1.emptyAdv l.agent else t1) s, ls.map fun _ => {})

/-- fence (R227). -/
def execFence (o : Operands) (s : State) : Out := (fenceJob true true).issue o.fields s

/-- fence.acq (R227): loads and atomics are performed when they issue, reductions at the fence. -/
def execFenceAcq (o : Operands) (s : State) : Out := (fenceJob false true).issue o.fields s

/-- fence.rel (R227). -/
def execFenceRel (o : Operands) (s : State) : Out := (fenceJob true false).issue o.fields s

/-! ## tfence (R228) -/

/-- Every access that agents of a context on the cores of a scope have translated is performed: stores and reductions, the
second halves of packed atomics, and the B loads of queued matrix commands. -/
def State.flushScope (s : State) (ctx : Nat) (cores : BitVec 64) : State :=
  let here (i : Nat) : Bool := (s.agent i).ctx = ctx && cores.toNat.testBit (s.coreOf (s.agent i))
  let s1 := s.performWhere fun p => p.ctx = ctx && cores.toNat.testBit p.core
  let s2 := (s1.halves.filter here).foldl State.secondHalf s1
  ((List.range s2.agents.length).filter fun i => (s2.agent i).drover && here i).foldl State.finishCommands s2

/-- A TLB in scope: a core's own, or that of the die of a core of the scope. -/
def tlbInScope (cores : BitVec 64) (tlb : Nat) : Bool :=
  if tlb < 64 then cores.toNat.testBit tlb
  else (List.range 16).any fun k => cores.toNat.testBit ((tlb - 64) * 16 + k)

/-- The first byte and the end of the range of a tfence; no pages name every page. -/
def tfenceRange (va pages : Nat) : Nat × Nat :=
  if pages = 0 then (0, 2 ^ 48) else (va / 4096 * 4096, min (2 ^ 48) (va / 4096 * 4096 + 4096 * pages))

/-- One lane's tfence; the thread waits for the requests to peers of the agents in scope (R228 items 1 and 3). -/
def tfenceLane (s : State) (l : Lane) : State × LaneRes :=
  if !l.want then (s, {})
  else
    let a := s.agent l.agent
    let cores := match s.agentScope a l.b.toNat with | .ok sc => sc.cores | .error _ => 0
    let r := tfenceRange (vaBase l) (l.c.toNat % 2 ^ 32)
    let s1 := (s.completionPoint l.agent).flushScope a.ctx cores
    let s2 := { s1 with tlb := s1.tlb.filter fun e =>
      !(e.ctx = a.ctx && tlbInScope cores e.core && decide (e.base < r.2) && decide (r.1 < e.base + e.size)) }
    (if s2.requestsOut a.ctx cores s.nonce then s2.updAgent l.agent fun a => { a with wait := .tfence cores s.nonce } else s2, {})

/-- tfence (R228): after the scope checks, a VA beyond 48 bits is ILLEGAL_OPERAND (R210, R212). -/
def execTfence (o : Operands) (s : State) : Out :=
  ({ sig := { a := .b64, b := .scope, c := .b32 }
     check := fun s l => orElseTrap (s.scopeFault (s.agent l.agent) l.b.toNat 2)
       (if vaBase l ≥ 2 ^ 48 then some (badField 1) else none)
     perform := eachLane tfenceLane } : Job).issue o.fields s

/-! ## Scope entries (R243, R244) -/

/-- Fields of the scpw control word (R243 Table 3). -/
def scpwPen (a : Nat) : Bool := bitAt a 15
def scpwRel (a : Nat) : Bool := bitAt a 17

/-- The VA of the peer mask a control word names. -/
def State.peerMaskVa (s : State) (ctx pset : Nat) : Nat := ((s.ctx ctx).peerBase + BitVec.ofNat 64 (128 * pset) : DWord).toNat

/-- The checks of one lane of scpw, in their order. -/
def scpwCheck (s : State) (l : Lane) : Option Trap :=
  let ag := s.agent l.agent
  let a := l.a.toNat % 2 ^ 32
  let c := l.c.toNat % 2 ^ 32
  if c < 8 ∨ c > 63 then some (badField 3)
  else if bitsAt a 18 14 ≠ 0 ∨ bitsAt a 12 3 ≠ 0 then some (badField 1)
  else if scpwRel a ∧ (bitsAt l.b.toNat 4 60 ≠ 0 ∨ bitsAt l.b.toNat 80 48 ≠ 0) then some (badField 2)
  else if scpwPen a then
    if bitsAt a 0 12 ≥ (s.ctx ag.ctx).peerCount then some (badField 1)
    else match s.access ag.ctx (s.coreOf ag) accRead (s.peerMaskVa ag.ctx (bitsAt a 0 12)) 128 with
      | .error f => some (f.trap 0)
      | .ok _ => none
  else none

/-- Change an entry of a context's scope table: its generation advances (DESIGN CHOICE, assumption 57: every agent's next
capture sees it). -/
def State.setScope (s : State) (ctx i : Nat) (f : ScopeEntry → ScopeEntry) : State :=
  s.updCtx ctx fun c =>
    let e := c.scopeEntry i
    let e1 := { f e with gen := e.gen + 1 }
    { c with scopes := (i, e1) :: c.scopes.filter fun x => x.1 ≠ i }

/-- One lane of scpw: a helper writes nothing and gets zero. The peer mask is read as after a fence sc4. -/
def scpwLane (s : State) (l : Lane) : State × LaneRes :=
  if !l.want then (s, {})
  else
    let ag := s.agent l.agent
    let a := l.a.toNat % 2 ^ 32
    let c := l.c.toNat % 2 ^ 32
    let (s1, mask) : State × BitVec 1024 :=
      if scpwPen a then
        match s.access ag.ctx (s.coreOf ag) accRead (s.peerMaskVa ag.ctx (bitsAt a 0 12)) 128 with
        | .ok ps =>
          let s0 := (((s.walked ag.ctx ps).release0 l.agent).orderOwn l.agent ps).emptyAdv l.agent
          let r := s0.readPieces ag.ctx ps
          (r.1, BitVec.ofNat 1024 (leNat r.2))
        | .error _ => (s, 0)
      else (s, 0)
    let s2 := s1.setScope ag.ctx c fun e => { e with
      valid := true
      rel := scpwRel a
      host := bitAt a 16
      cores := BitVec.ofNat 64 l.b.toNat
      slices := BitVec.ofNat 64 (l.b.toNat / 2 ^ 64)
      peers := mask ||| s1.ownMask }
    (s2, { val := ((s2.ctx ag.ctx).scopeEntry c).gen.setWidth 128 })

/-- scpw d, a, b, c (R243). -/
def execScpw (o : Operands) (s : State) : Out :=
  ({ sig := { dst := .w32, a := .b32, b := .b128, c := .b32, imm := false, drover := true }
     check := scpwCheck
     perform := eachLane scpwLane } : Job).issue o.fields s

/-- One lane of scpinv. -/
def scpinvLane (s : State) (l : Lane) : State × LaneRes :=
  if !l.want then (s, {})
  else
    let ctx := (s.agent l.agent).ctx
    let i := l.b.toNat % 2 ^ 32
    let s1 := s.setScope ctx i fun e => { e with valid := false }
    (s1, { val := ((s1.ctx ctx).scopeEntry i).gen.setWidth 128 })

/-- scpinv d, b (R244). -/
def execScpinv (o : Operands) (s : State) : Out :=
  ({ sig := { dst := .w32, b := .b32, drover := true }
     check := fun _ l => let i := l.b.toNat % 2 ^ 32; if i < 8 ∨ i > 63 then some (badField 2) else none
     perform := eachLane scpinvLane } : Job).issue o.fields s

end Sys2Proof.Machine
end

