-- ==== Sys2Proof/Machine/Host.lean ====
section
/-! DEFINITION. The hosts: contexts, queues, windows (R409, R410, R426), notify registers (R407), BAR0 and the event ring's
registers (R402, R404), accesses through BAR2 (R401, R403). -/

namespace Sys2Proof.Machine

/-! ## Contexts (R409, R410) -/

/-- A field of a context descriptor (R410 Table 6). -/
def descField (bs : List Byte) (off n : Nat) : Nat := leNat ((bs.drop off).take n)

/-- A trap entry: a multiple of 8 below CODE_LIMIT, or none. -/
def trapEntryOk (limit v : Nat) : Bool := v = 0xFFFFFFFF || (v % 8 = 0 && decide (v < limit))

/-- A local range that lies wholly in one HBM4 or LPDDR range of Table 2 of R189. -/
def mainRange (pa n : Nat) : Bool :=
  (decide (pa < 0x8000000000) && decide (pa % hbmWindow + n ≤ hbmBytes) && decide (pa % hbmWindow < hbmBytes)) ||
    (decide (lpddrBase ≤ pa) && decide (pa + n ≤ 2 * lpddrBase) && decide (pa < 2 * lpddrBase))

/-- No field breaks its limit, and every reserved byte is zero (R410 Table 6). -/
def descOk (bs : List Byte) : Bool :=
  let f := descField bs
  let limit := f 0x18 4
  let age := f 0x1C 4
  f 0x00 8 = 0 && f 0x34 4 = 0 && f 0x50 4 = 0 && f 0x58 40 = 0 &&
    f 0x08 8 % 4096 = 0 && mainRange (f 0x08 8) 4096 &&
    f 0x10 8 % 4096 = 0 && mainRange (f 0x10 8) limit &&
    limit % 64 = 0 && decide (limit ≤ Config.maxCodeLimit) &&
    (age = 0 || (age % 256 = 0 && decide (256 ≤ age) && decide (age ≤ 65536))) &&
    trapEntryOk limit (f 0x20 4) && trapEntryOk limit (f 0x24 4) &&
    f 0x28 8 % 128 = 0 && decide (f 0x30 4 ≤ 4096) && f 0x38 8 % 4096 = 0 && decide (f 0x54 4 ≤ 255)

/-- The context a descriptor describes, before its pod mask and its manifests are read. -/
def descContext (bs : List Byte) (own : BitVec 1024) : Context :=
  let f := descField bs
  { ptRoot := f 0x08 8
    codeBase := f 0x10 8
    codeLimit := f 0x18 4
    ageLimit := if f 0x1C 4 = 0 then Config.defaultAgeLimit else f 0x1C 4
    trapT := BitVec.ofNat 32 (f 0x20 4)
    trapD := BitVec.ofNat 32 (f 0x24 4)
    saveBase := BitVec.ofNat 64 (f 0x38 8)
    saveSize := BitVec.ofNat 64 (f 0x40 8)
    peerBase := BitVec.ofNat 64 (f 0x28 8)
    peerCount := f 0x30 4
    podMask := own }

/-- Peer-table entry 0 fixes the pod mask, with the own device in it (R240, R241, R410). -/
def State.readPodMask (s : State) (ctx : Nat) : Option State :=
  let c := s.ctx ctx
  if c.peerCount = 0 then some s
  else match s.hubRead ctx c.peerBase.toNat 128 with
    | .error _ => none
    | .ok (s1, bs) => some (s1.updCtx ctx fun k => { k with podMask := BitVec.ofNat 1024 (leNat bs) ||| s.ownMask })

/-- Install the `n` records of MFINIT at `va`: 72 bytes each, and each entry at GEN 1 (R410). -/
def State.readManifests (s : State) (ctx : Nat) : Nat → Nat → Option State
  | _, 0 => some s
  | va, n + 1 => match s.hubRead ctx va 72 with
    | .error _ => none
    | .ok (s1, bs) =>
      let i := leNat (bs.take 1)
      let m : Manifest := { bits := BitVec.ofNat 512 (leNat (bs.drop 8)) }
      if i = 0 ∨ leNat ((bs.drop 1).take 7) ≠ 0 ∨ (m.valid ∧ !m.accepted) then none
      else
        let s2 := s1.updCtx ctx fun c => { c with
          manifests := (i, { bits := if m.valid then m.bits else 0, gen := 1 }) :: c.manifests.filter fun x => x.1 ≠ i }
        s2.readManifests ctx (va + 72) n

/-- The lowest number no context has. -/
def State.freeContext (s : State) : Nat :=
  (((List.range (s.contexts.length + 1)).find? fun i => (assocGet s.contexts (i + 1)).isNone).getD 0) + 1

/-- Every byte lies at a populated local PA (R189). -/
def State.populated (s : State) (pa n : Nat) : Bool :=
  decide (pa + n ≤ 2 ^ 41) && [pa, pa + n - 1].all fun a => (s.region a).isMain || (s.region a).isScratch

/-- CTXNEW (R410). -/
def execCtxnew (r : PacketRef) (s : State) : Out :=
  s.privCommand r 0x01 fun p =>
    let pa := p.arg 0
    if p.arg 1 ≠ 0 ∨ p.arg 2 ≠ 0 ∨ p.arg 3 ≠ 0 ∨ !s.populated pa 128 then (2, 0, s)
    else
      let s1 := s.meetPa none pa 128
      let bs := s1.peekBytes pa 128
      let n := s1.freeContext
      if !descOk bs then (2, 0, s)
      else if n > 65535 then (7, 0, s)
      else
        let s2 := { s1 with contexts := s1.contexts ++ [(n, descContext bs s1.ownMask)] }
        match s2.readPodMask n with
        | none => (2, 0, s)
        | some s3 => match s3.readManifests n (descField bs 0x48 8) (descField bs 0x54 4) with
          | none => (2, 0, s)
          | some s4 => (0, n, s4)

/-- A context has a resident block, a queued packet or a stopped operation (R409). -/
def State.contextBusy (s : State) (c : Nat) : Bool :=
  s.blocks.any (fun b => b.ctx = c && b.state ≠ .retired) ||
  s.hub.queues.any (fun h => h.live && h.ctx = c && (h.pkts ≠ [] || h.rd ≠ h.wk)) ||
  s.ops.any (fun o => o.ctx = c && o.state ≠ .done) || s.passes.any fun p => p.ctx = c && !p.done

/-- CTXFREE (R409). -/
def execCtxfree (r : PacketRef) (s : State) : Out :=
  s.privCommand r 0x02 fun p =>
    let c := p.arg 0
    if !(s.ctx c).live ∨ p.arg 1 ≠ 0 ∨ p.arg 2 ≠ 0 ∨ p.arg 3 ≠ 0 then (2, 0, s)
    else if s.contextBusy c then (1, 0, s)
    else (0, 0, { s with contexts := s.contexts.filter (fun x => x.1 ≠ c), tlb := s.tlb.filter fun e => e.ctx ≠ c })

/-! ## Queues (R405, R409) -/

/-- Put a queue at number `q`. -/
def State.setQueue (s : State) (q : Nat) (h : HostQueue) : State :=
  let qs := s.hub.queues ++ List.replicate (q + 1 - s.hub.queues.length) { live := false }
  { s with hub := { s.hub with queues := qs.set q h } }

/-- QCREATE: the queue's first packet is packet 0, and RDW reads 0. -/
def execQcreate (r : PacketRef) (s : State) : Out :=
  s.privCommand r 0x03 fun p =>
    let a := p.arg 0
    let c := bitsAt a 0 16
    let lg := bitsAt a 32 8
    if !(s.ctx c).live ∨ lg < 4 ∨ lg > 16 ∨ bitsAt a 16 16 ≠ 0 ∨ bitsAt a 40 8 ≠ 0 ∨ bitsAt a 50 14 ≠ 0 ∨
        p.arg 1 % 64 ≠ 0 ∨ p.arg 2 % 4 ≠ 0 ∨ p.arg 3 ≠ 0 then (2, 0, s)
    else match (List.range 224).find? fun q => !(s.queue q).live with
      | none => (7, 0, s)
      | some q => match s.hubWrite c (p.arg 2) (leBytes 4 0) with
        | .error _ => (2, 0, s)
        | .ok t => (0, q, t.setQueue q {
            ctx := c, log2 := lg, ring := BitVec.ofNat 64 (p.arg 1), rdw := BitVec.ofNat 64 (p.arg 2)
            port := bitsAt a 48 1, priv := bitAt a 49 })

/-- QFREE. -/
def execQfree (r : PacketRef) (s : State) : Out :=
  s.privCommand r 0x04 fun p =>
    let q := p.arg 0
    let h := s.queue q
    if !h.live ∨ p.arg 1 ≠ 0 ∨ p.arg 2 ≠ 0 ∨ p.arg 3 ≠ 0 then (2, 0, s)
    else if h.pkts ≠ [] ∨ h.rd ≠ h.wk then (1, 0, s)
    else (0, 0, s.setQueue q { live := false })

/-- QGRANT: PRIV is cleared when the queue moves to the other port. -/
def execQgrant (r : PacketRef) (s : State) : Out :=
  s.privCommand r 0x05 fun p =>
    let q := bitsAt (p.arg 0) 0 48
    let port := bitsAt (p.arg 0) 48 1
    if !(s.queue q).live ∨ p.arg 0 ≥ 2 ^ 49 ∨ p.arg 1 ≠ 0 ∨ p.arg 2 ≠ 0 ∨ p.arg 3 ≠ 0 then (2, 0, s)
    else (0, 0, s.updQueue q fun h => { h with port := port, priv := h.priv && h.port = port })

/-- HOSTWIN: open or close a BAR2 window of the other port's host. -/
def execHostwin (r : PacketRef) (s : State) : Out :=
  s.privCommand r 0x06 fun p =>
    let w := bitsAt (p.arg 0) 0 63
    let unit := 0x200000
    if w > 15 ∨ p.arg 1 % unit ≠ 0 ∨ p.arg 2 % unit ≠ 0 ∨ p.arg 1 + p.arg 2 > 2 ^ 41 ∨ p.arg 3 ≠ 0 then (2, 0, s)
    else
      let rest := s.hub.windows.filter fun x => x.number ≠ w
      (0, 0, { s with hub := { s.hub with windows := if bitAt (p.arg 0) 63 then rest ++ [⟨w, p.arg 1, p.arg 2⟩] else rest } })

/-- PODJOIN (R426): the next LAUNCH packet of the queue is joined under KEY, with the mask at PSET and the own device. -/
def execPodjoin (r : PacketRef) (s : State) : Out :=
  match s.command r 0x23 with
  | none => .next s
  | some p =>
    let a := p.arg 0
    let ctx := (s.queue r.queue).ctx
    let pset := bitsAt a 32 12
    if bitsAt a 0 32 = 0 ∨ a ≥ 2 ^ 44 ∨ pset ≥ (s.ctx ctx).peerCount ∨ p.arg 1 ≠ 0 ∨ p.arg 2 ≠ 0 ∨ p.arg 3 ≠ 0 then
      .next (s.reply1 r 2 0)
    else match s.hubRead ctx ((s.ctx ctx).peerBase + BitVec.ofNat 64 (128 * pset)).toNat 128 with
      | .error _ => .next (s.reply1 r 2 0)
      | .ok (s1, bs) =>
        .next ((s1.updQueue r.queue fun h => { h with
          podjoin := some (BitVec.ofNat 32 a, BitVec.ofNat 1024 (leNat bs) ||| s.ownMask) }).reply1 r 0 0)

/-! ## BAR0 (R402, R404, R407) -/

/-- A host reaches the device: its link is up, and the main side runs. -/
def State.hostUp (s : State) (port : Nat) : Bool := decide (port < 2) && !s.mgmt.held && s.mgmt.pcieUp.getD port false

/-- The host on the control port. -/
def State.controlHost (s : State) (port : Nat) : Bool := s.hostUp port && port = s.mgmt.control

/-- A notify write that is dropped. -/
def State.dropNotify (s : State) : State := { s with hub := { s.hub with notifydrop := satInc s.hub.notifydrop } }

/-- A write of `v` to the notify register of queue `q` (R407). -/
def State.notifyWrite (s : State) (port q : Nat) (v : Word) : State :=
  let h := s.queue q
  if q > 223 then s
  else if !h.live ∨ h.port ≠ port then s.dropNotify
  else if (v - h.rd).toNat > 2 ^ h.log2 then s.queueError q (v.setWidth 64) false
  else if (v - h.rd).toNat < (h.wk - h.rd).toNat then s.updQueue q fun h => { h with halted := false }
  else s.updQueue q fun h => { h with wk := v, halted := false }

/-- EVBASE: 32-byte aligned, in local HBM4 or LPDDR; the indices go to 0. -/
def State.writeEvbase (s : State) (v : DWord) : State :=
  if v.toNat % 32 ≠ 0 ∨ !mainRange v.toNat 32 then s
  else { s with hub := { s.hub with evbase := v, evwr := 0, evrd := 0 } }

/-- EVSIZE: a power of two from 64 to 65,536; the indices go to 0. -/
def State.writeEvsize (s : State) (v : Word) : State :=
  if (List.range 11).any fun k => v.toNat = 2 ^ (k + 6) then { s with hub := { s.hub with evsize := v, evwr := 0, evrd := 0 } }
  else s

/-- EVRD: neither ahead of EVWR nor behind the oldest unconsumed record. -/
def State.writeEvrd (s : State) (v : Word) : State :=
  if (s.hub.evwr - v).toNat > s.hub.evsize.toNat then s else { s with hub := { s.hub with evrd := v } }

/-- NOTIFY. -/
def execNotify (port queue : Nat) (v : Word) (s : State) : Out :=
  if s.hostUp port then .next (s.notifyWrite port queue v) else .next s

/-- EVBASE: control host only. -/
def execEvbase (port : Nat) (v : DWord) (s : State) : Out := if s.controlHost port then .next (s.writeEvbase v) else .next s

/-- EVSIZE: control host only. -/
def execEvsize (port : Nat) (v : Word) (s : State) : Out := if s.controlHost port then .next (s.writeEvsize v) else .next s

/-- EVRD: control host only. -/
def execEvrd (port : Nat) (v : Word) (s : State) : Out := if s.controlHost port then .next (s.writeEvrd v) else .next s

/-- BAR0_WRITE: the register at an offset, or nothing where Table 2 of R402 lists none or a read-only one. -/
def execBar0Write (port off : Nat) (v : DWord) (s : State) : Out :=
  if !s.hostUp port then .next s
  else if 0x10000 ≤ off ∧ off < 0x10000 + 0x1000 * 224 ∧ off % 0x1000 = 0 then
    .next (s.notifyWrite port ((off - 0x10000) / 0x1000) (v.setWidth 32))
  else if !s.controlHost port then .next s
  else if off = 0x10 then .next (s.writeEvbase v)
  else if off = 0x18 then .next (s.writeEvsize (v.setWidth 32))
  else if off = 0x20 then .next (s.writeEvrd (v.setWidth 32))
  else .next s

/-- What BAR0 reads at an offset (R402 Table 2). -/
def State.bar0Read (s : State) (port off : Nat) : Nat :=
  if off = 0x00 then Config.archHash.toNat
  else if off = 0x08 then (if port = s.mgmt.control then 0 else 1)
  else if off = 0x0C then s.mgmt.devnum
  else if off = 0x10 then s.hub.evbase.toNat
  else if off = 0x18 then s.hub.evsize.toNat
  else if off = 0x1C then s.hub.evwr.toNat
  else if off = 0x20 then s.hub.evrd.toNat
  else if off = 0x24 then s.hub.evlost.toNat
  else if off = 0x28 then s.hub.notifydrop.toNat
  else 0

/-! ## BAR2 (R401-R403) -/

/-- The host on a port reaches the 8-byte unit at `pa`: it is populated, and for the other port's host in a window. -/
def State.bar2Reach (s : State) (port pa : Nat) : Bool :=
  s.populated pa 8 && (port = s.mgmt.control || s.hub.windows.any fun w => decide (w.base ≤ pa) && decide (pa + 8 ≤ w.base + w.bytes))

/-- The 8-byte units an access is cut into: (unit, first byte, bytes). -/
def bar2Units (off len : Nat) : List (Nat × Nat × Nat) :=
  if len = 0 then []
  else (List.range ((off + len - 1) / 8 - off / 8 + 1)).map fun k =>
    let u := (off / 8 + k) * 8
    let lo := max off u
    (u, lo, min (off + len) (u + 8) - lo)

/-- HOST_BAR2_READ: an Unsupported Request reads all ones. -/
def execHostBar2Read (port off len : Nat) (s : State) : Out :=
  if !s.hostUp port then .next s
  else
    let (t, bs) := (bar2Units off len).foldl (fun (acc : State × List Byte) u =>
      if acc.1.bar2Reach port u.1 then
        let t := acc.1.meetPa none u.2.1 u.2.2
        (t, acc.2 ++ t.peekBytes u.2.1 u.2.2)
      else (acc.1, acc.2 ++ List.replicate u.2.2 (BitVec.allOnes 8))) (s, [])
    .next { t with reply := bs }

/-- HOST_BAR2_WRITE: performed in order; an Unsupported Request is dropped. -/
def execHostBar2Write (port off : Nat) (bytes : List Byte) (s : State) : Out :=
  if !s.hostUp port then .next s
  else .next ((bar2Units off bytes.length).foldl (fun t u =>
    if t.bar2Reach port u.1 then t.writePa 0xFFFF u.2.1 ((bytes.drop (u.2.1 - off)).take u.2.2) else t) s)

end Sys2Proof.Machine
end

