-- ==== Sys2Proof/Machine/Integer.lean ====
section
/-! DEFINITION. Integer instructions (R95-R103): typed forms, untyped forms, shifts, bit fields, dot products, lea. -/

namespace Sys2Proof

/-! ## Typed forms (R97, R98) -/

def IntTy.width : IntTy → Nat
  | .s16x2 | .n16x2 => 16
  | .s8x4 | .n8x4 => 8
  | .s64 | .n64 => 64
  | _ => 32

/-- Elements of one operand. -/
def IntTy.count : IntTy → Nat
  | .s16x2 | .n16x2 => 2
  | .s8x4 | .n8x4 => 4
  | _ => 1

def IntTy.signed : IntTy → Bool
  | .s32 | .s16x2 | .s8x4 | .s64 => true
  | _ => false

/-- The class of each operand position (Table 1 of R97). -/
def IntTy.pos : IntTy → Machine.Pos
  | .s32 | .n32 => .b32
  | .s16x2 | .n16x2 => .i16x2
  | .s8x4 | .n8x4 => .i8x4
  | .s64 => .b64
  | .n64 => .n64

def IntTy.res : IntTy → Machine.Res
  | .s32 => .s32
  | .s64 | .n64 => .w64
  | _ => .w32

/-- Element i of a source in the type's reading. -/
def IntTy.elem (ty : IntTy) (v i : Nat) : Int :=
  if ty.signed then Machine.toSigned ty.width (Machine.elemAt ty.width i v) else Machine.elemAt ty.width i v

/-- Act element by element (R98). -/
def IntTy.each (ty : IntTy) (fn : Int → Int → Int → Int) (a b c : Nat) : Nat :=
  Machine.packElems ty.width ((List.range ty.count).map fun i =>
    Machine.wrapTo ty.width (fn (ty.elem a i) (ty.elem b i) (ty.elem c i)))

/-- SATS or SATN by the type (R39). -/
def IntTy.sat (ty : IntTy) (x : Int) : Int := if ty.signed then Machine.satS ty.width x else Machine.satN ty.width x

end Sys2Proof

namespace Sys2Proof.Machine

/-- Two sources, or three for mad (R97). -/
def typedSig (ty : IntTy) : Sig := { dst := ty.res, a := ty.pos, b := ty.pos, drover := true }
def typedSig3 (ty : IntTy) : Sig := { typedSig ty with c := ty.pos }

/-- A compare's element: all ones or zero. -/
def maskOf (p : Bool) : Int := if p then -1 else 0

def fnAdd (ty : IntTy) : Nat → Nat → Nat → Nat := ty.each fun a b _ => a + b
def fnSub (ty : IntTy) : Nat → Nat → Nat → Nat := ty.each fun a b _ => a - b
def fnAdds (ty : IntTy) : Nat → Nat → Nat → Nat := ty.each fun a b _ => ty.sat (a + b)
def fnSubs (ty : IntTy) : Nat → Nat → Nat → Nat := ty.each fun a b _ => ty.sat (a - b)
def fnMul (ty : IntTy) : Nat → Nat → Nat → Nat := ty.each fun a b _ => a * b
def fnMulhi (ty : IntTy) : Nat → Nat → Nat → Nat := ty.each fun a b _ => a * b / ((2 ^ ty.width : Nat) : Int)
def fnMad (ty : IntTy) : Nat → Nat → Nat → Nat := ty.each fun a b c => a * b + c
def fnMin (ty : IntTy) : Nat → Nat → Nat → Nat := ty.each fun a b _ => if a ≤ b then a else b
def fnMax (ty : IntTy) : Nat → Nat → Nat → Nat := ty.each fun a b _ => if a ≥ b then a else b
def fnCmpeq (ty : IntTy) : Nat → Nat → Nat → Nat := ty.each fun a b _ => maskOf (a = b)
def fnCmplt (ty : IntTy) : Nat → Nat → Nat → Nat := ty.each fun a b _ => maskOf (a < b)
def fnCmple (ty : IntTy) : Nat → Nat → Nat → Nat := ty.each fun a b _ => maskOf (a ≤ b)
def execIntAdd (ty : IntTy) (o : Operands) (s : State) : Out := (natJob (typedSig ty) (fnAdd ty)).issue o.fields s
def execIntSub (ty : IntTy) (o : Operands) (s : State) : Out := (natJob (typedSig ty) (fnSub ty)).issue o.fields s
def execIntAdds (ty : IntTy) (o : Operands) (s : State) : Out := (natJob (typedSig ty) (fnAdds ty)).issue o.fields s
def execIntSubs (ty : IntTy) (o : Operands) (s : State) : Out := (natJob (typedSig ty) (fnSubs ty)).issue o.fields s
def execIntMul (ty : IntTy) (o : Operands) (s : State) : Out := (natJob (typedSig ty) (fnMul ty)).issue o.fields s
def execIntMulhi (ty : IntTy) (o : Operands) (s : State) : Out := (natJob (typedSig ty) (fnMulhi ty)).issue o.fields s
def execIntMad (ty : IntTy) (o : Operands) (s : State) : Out := (natJob (typedSig3 ty) (fnMad ty)).issue o.fields s
def execIntMin (ty : IntTy) (o : Operands) (s : State) : Out := (natJob (typedSig ty) (fnMin ty)).issue o.fields s
def execIntMax (ty : IntTy) (o : Operands) (s : State) : Out := (natJob (typedSig ty) (fnMax ty)).issue o.fields s
def execIntCmpeq (ty : IntTy) (o : Operands) (s : State) : Out := (natJob (typedSig ty) (fnCmpeq ty)).issue o.fields s
def execIntCmplt (ty : IntTy) (o : Operands) (s : State) : Out := (natJob (typedSig ty) (fnCmplt ty)).issue o.fields s
def execIntCmple (ty : IntTy) (o : Operands) (s : State) : Out := (natJob (typedSig ty) (fnCmple ty)).issue o.fields s

/-! ## Untyped forms (R99 Table 3) -/

/-- Forms of one, two and three 32-bit sources, of 64-bit sources, and of a count. -/
def sigA32 : Sig := { dst := .w32, a := .b32, drover := true }
def sigAB32 : Sig := { dst := .w32, a := .b32, b := .b32, drover := true }
def sigABC32 : Sig := { dst := .w32, a := .b32, b := .b32, c := .b32, drover := true }
def sigAB64 : Sig := { dst := .w64, a := .b64, b := .b64, drover := true }
def sigShift64 : Sig := { dst := .w64, a := .b64, b := .b32, drover := true }

/-- shl: WRAP(w, A × 2^n), 0 for n ≥ w (R100). -/
def shiftLeft (w a n : Nat) : Nat := if n ≥ w then 0 else a * 2 ^ n % 2 ^ w

/-- shr.n: floor(A / 2^n) with A unsigned (R100). -/
def shiftRightN (w a n : Nat) : Nat := if n ≥ w then 0 else a % 2 ^ w / 2 ^ n

/-- shr.s: floor(A / 2^n) with A signed; copies of the sign for n ≥ w (R100). -/
def shiftRightS (w a n : Nat) : Nat :=
  if n ≥ w then wrapTo w (if toSigned w a < 0 then -1 else 0) else wrapTo w (toSigned w a / ((2 ^ n : Nat) : Int))

/-- rot.b32: rotate left by n mod 32 (R100). -/
def rotateLeft32 (a n : Nat) : Nat := (a * 2 ^ (n % 32) + a / 2 ^ (32 - n % 32)) % 2 ^ 32

/-- Position and field width a control word names; width 0 where the field is empty (R101). -/
def fieldOf (ctl : Nat) : Nat × Nat :=
  let pos := bitsAt ctl 0 8
  let len := bitsAt ctl 8 8
  if len = 0 ∨ pos ≥ 32 then (0, 0) else (pos, min (pos + len) 32 - pos)

def extractN (a ctl : Nat) : Nat := bitsAt a (fieldOf ctl).1 (fieldOf ctl).2
def extractS (a ctl : Nat) : Nat :=
  if (fieldOf ctl).2 = 0 then 0 else wrapTo 32 (toSigned (fieldOf ctl).2 (extractN a ctl))

/-- bfi: the low bits of A replace the field of C (R101). -/
def insertField (a ctl c : Nat) : Nat :=
  let (p, w) := fieldOf ctl
  c - bitsAt c p w * 2 ^ p + bitsAt a 0 w * 2 ^ p

/-- One bits, and leading zero bits, of a 32-bit value. -/
def popCount (a : Nat) : Nat := ((List.range 32).filter fun i => bitAt a i).length
def leadZeros (a : Nat) : Nat := ((List.range 32).takeWhile fun i => !bitAt a (31 - i)).length

/-- Bit j of the result is bit 31 - j of A. -/
def reverseBits (a : Nat) : Nat := packElems 1 ((List.range 32).map fun j => elemAt 1 (31 - j) a)

/-- C plus a sum of products, wrapped once (R102). -/
def dotProduct (signed : Bool) (w n a b c : Nat) : Nat :=
  let el (v i : Nat) : Int := if signed then toSigned w (elemAt w i v) else elemAt w i v
  let c' : Int := if signed then toSigned 32 c else c
  wrapTo 32 ((List.range n).foldl (fun t i => t + el a i * el b i) c')

def dotSig (p : Pos) (r : Res) : Sig := { dst := r, a := p, b := p, c := .b32, drover := true }

def fnAndB32 : Nat → Nat → Nat → Nat := fun a b _ => a &&& b
/-- R99. -/
def execAndB32 (o : Operands) (s : State) : Out := (natJob sigAB32 fnAndB32).issue o.fields s

def fnOrB32 : Nat → Nat → Nat → Nat := fun a b _ => a ||| b
/-- R99. -/
def execOrB32 (o : Operands) (s : State) : Out := (natJob sigAB32 fnOrB32).issue o.fields s

def fnXorB32 : Nat → Nat → Nat → Nat := fun a b _ => a ^^^ b
/-- R99. -/
def execXorB32 (o : Operands) (s : State) : Out := (natJob sigAB32 fnXorB32).issue o.fields s

def fnAndnB32 : Nat → Nat → Nat → Nat := fun a b _ => a &&& (b ^^^ 0xFFFFFFFF)
/-- R99. -/
def execAndnB32 (o : Operands) (s : State) : Out := (natJob sigAB32 fnAndnB32).issue o.fields s

def fnShlB32 : Nat → Nat → Nat → Nat := fun a b _ => shiftLeft 32 a b
/-- R100. -/
def execShlB32 (o : Operands) (s : State) : Out := (natJob sigAB32 fnShlB32).issue o.fields s

def fnShrN32 : Nat → Nat → Nat → Nat := fun a b _ => shiftRightN 32 a b
/-- R100. -/
def execShrN32 (o : Operands) (s : State) : Out := (natJob sigAB32 fnShrN32).issue o.fields s

def fnShrS32 : Nat → Nat → Nat → Nat := fun a b _ => shiftRightS 32 a b
/-- R100. -/
def execShrS32 (o : Operands) (s : State) : Out := (natJob { sigAB32 with dst := .s32 } fnShrS32).issue o.fields s

def fnRotB32 : Nat → Nat → Nat → Nat := fun a b _ => rotateLeft32 a b
/-- R100. -/
def execRotB32 (o : Operands) (s : State) : Out := (natJob sigAB32 fnRotB32).issue o.fields s

def fnShlB64 : Nat → Nat → Nat → Nat := fun a b _ => shiftLeft 64 a b
/-- R100. -/
def execShlB64 (o : Operands) (s : State) : Out := (natJob sigShift64 fnShlB64).issue o.fields s

def fnShrN64 : Nat → Nat → Nat → Nat := fun a b _ => shiftRightN 64 a b
/-- R100. -/
def execShrN64 (o : Operands) (s : State) : Out := (natJob sigShift64 fnShrN64).issue o.fields s

def fnShrS64 : Nat → Nat → Nat → Nat := fun a b _ => shiftRightS 64 a b
/-- R100. -/
def execShrS64 (o : Operands) (s : State) : Out := (natJob sigShift64 fnShrS64).issue o.fields s

def fnBfeN32 : Nat → Nat → Nat → Nat := fun a b _ => extractN a b
/-- R101. -/
def execBfeN32 (o : Operands) (s : State) : Out := (natJob sigAB32 fnBfeN32).issue o.fields s

def fnBfeS32 : Nat → Nat → Nat → Nat := fun a b _ => extractS a b
/-- R101. -/
def execBfeS32 (o : Operands) (s : State) : Out := (natJob { sigAB32 with dst := .s32 } fnBfeS32).issue o.fields s

def fnBfiB32 : Nat → Nat → Nat → Nat := fun a b c => insertField a b c
/-- R101. -/
def execBfiB32 (o : Operands) (s : State) : Out := (natJob sigABC32 fnBfiB32).issue o.fields s

def fnPopcB32 : Nat → Nat → Nat → Nat := fun a _ _ => popCount a
/-- R99. -/
def execPopcB32 (o : Operands) (s : State) : Out := (natJob sigA32 fnPopcB32).issue o.fields s

def fnClzB32 : Nat → Nat → Nat → Nat := fun a _ _ => leadZeros a
/-- R99. -/
def execClzB32 (o : Operands) (s : State) : Out := (natJob sigA32 fnClzB32).issue o.fields s

def fnBrevB32 : Nat → Nat → Nat → Nat := fun a _ _ => reverseBits a
/-- R99. -/
def execBrevB32 (o : Operands) (s : State) : Out := (natJob sigA32 fnBrevB32).issue o.fields s

def fnSelB32 : Nat → Nat → Nat → Nat := fun a b c => (a &&& c) ||| (b &&& (c ^^^ 0xFFFFFFFF))
/-- R99. -/
def execSelB32 (o : Operands) (s : State) : Out := (natJob sigABC32 fnSelB32).issue o.fields s

def fnMovB32 : Nat → Nat → Nat → Nat := fun _ b _ => b
/-- R99. -/
def execMovB32 (o : Operands) (s : State) : Out := (natJob { dst := .w32, b := .b32, drover := true } fnMovB32).issue o.fields s

def fnMovB64 : Nat → Nat → Nat → Nat := fun _ b _ => b
/-- R99. -/
def execMovB64 (o : Operands) (s : State) : Out := (natJob { dst := .w64, b := .b64, drover := true } fnMovB64).issue o.fields s

def fnMovB128 : Nat → Nat → Nat → Nat := fun _ b _ => b
/-- R99. -/
def execMovB128 (o : Operands) (s : State) : Out := (natJob { dst := .w128, b := .b128, imm := false, drover := true } fnMovB128).issue o.fields s

def fnMulwS32 : Nat → Nat → Nat → Nat := fun a b _ => wrapTo 64 (toSigned 32 a * toSigned 32 b)
/-- R99. -/
def execMulwS32 (o : Operands) (s : State) : Out := (natJob { sigAB32 with dst := .w64 } fnMulwS32).issue o.fields s

def fnMulwN32 : Nat → Nat → Nat → Nat := fun a b _ => a * b
/-- R99. -/
def execMulwN32 (o : Operands) (s : State) : Out := (natJob { sigAB32 with dst := .w64 } fnMulwN32).issue o.fields s

def fnDot4S32 : Nat → Nat → Nat → Nat := fun a b c => dotProduct true 8 4 a b c
/-- R102. -/
def execDot4S32 (o : Operands) (s : State) : Out := (natJob (dotSig .i8x4 .s32) fnDot4S32).issue o.fields s

def fnDot4N32 : Nat → Nat → Nat → Nat := fun a b c => dotProduct false 8 4 a b c
/-- R102. -/
def execDot4N32 (o : Operands) (s : State) : Out := (natJob (dotSig .i8x4 .w32) fnDot4N32).issue o.fields s

def fnDot2S32 : Nat → Nat → Nat → Nat := fun a b c => dotProduct true 16 2 a b c
/-- R102. -/
def execDot2S32 (o : Operands) (s : State) : Out := (natJob (dotSig .i16x2 .s32) fnDot2S32).issue o.fields s

def fnDot2N32 : Nat → Nat → Nat → Nat := fun a b c => dotProduct false 16 2 a b c
/-- R102. -/
def execDot2N32 (o : Operands) (s : State) : Out := (natJob (dotSig .i16x2 .w32) fnDot2N32).issue o.fields s

def fnLeaB64 : Nat → Nat → Nat → Nat := fun a b c => wrapTo 64 ((a : Int) + toSigned 32 b * ((2 ^ (c % 8) : Nat) : Int))
/-- R103. -/
def execLeaB64 (o : Operands) (s : State) : Out := (natJob { dst := .w64, a := .b64, b := .b32, c := .b32, drover := true } fnLeaB64).issue o.fields s

def fnCmpneB32 : Nat → Nat → Nat → Nat := fun a b _ => if a ≠ b then 0xFFFFFFFF else 0
/-- R99. -/
def execCmpneB32 (o : Operands) (s : State) : Out := (natJob sigAB32 fnCmpneB32).issue o.fields s

def fnAndB64 : Nat → Nat → Nat → Nat := fun a b _ => a &&& b
/-- R99. -/
def execAndB64 (o : Operands) (s : State) : Out := (natJob sigAB64 fnAndB64).issue o.fields s

def fnOrB64 : Nat → Nat → Nat → Nat := fun a b _ => a ||| b
/-- R99. -/
def execOrB64 (o : Operands) (s : State) : Out := (natJob sigAB64 fnOrB64).issue o.fields s

def fnXorB64 : Nat → Nat → Nat → Nat := fun a b _ => a ^^^ b
/-- R99. -/
def execXorB64 (o : Operands) (s : State) : Out := (natJob sigAB64 fnXorB64).issue o.fields s

end Sys2Proof.Machine
end

