-- ==== Sys2Proof/Machine/Traverse.lean ====
section
/-! DEFINITION. Emission of records (R348, R349), cluster decoding (R323), node formats and the traversal unit
(R364-R371). -/

namespace Sys2Proof.Machine

/-! ## Decoding clusters (R323, R341, R352) -/

/-- A cluster reached through a cut record, with what its consumer has read. -/
structure ClusterData where
  caddr : Nat := 0
  number : Nat := 0
  group : Nat := 0
  rec_ : Cluster := default
  /-- It is a valid cluster record of the graph image. -/
  valid : Bool := false
  pos : List Byte := []
  idx : List Byte := []
deriving DecidableEq, Repr, Inhabited

/-- Vertex v's quantised codes and coordinates: RNE32(EXACT(q × STEP + MIN)). -/
def ClusterData.vertex (d : ClusterData) (v : Nat) : List Nat :=
  let c := d.rec_
  let bits := leNat d.pos
  (List.range 3).map fun k =>
    let q := bitsAt bits (v * c.vertBits + (c.qb.take k).foldl (· + ·) 0) (c.qb.getD k 1)
    rne32 (FVal.sum .rn [FVal.mul (fvalOfInt q) (v32 (c.step.getD k 0)), v32 (c.min.getD k 0)])

/-- The corners of every triangle in order, and whether its bytes are clean. -/
def cornersFrom (nvert : Nat) : List Byte → Nat → List (Nat × Nat × Nat × Bool)
  | a :: b :: c :: bs, ref =>
    let k (x : Byte) := (ref + x.toNat) % 128
    let ok (x : Byte) : Bool := decide (x.toNat < 128) && decide (k x < nvert)
    (k a, k b, k c, ok a && ok b && ok c) :: cornersFrom nvert bs (k a)
  | _, _ => []

/-- Triangle `tri`: its three corners in object space; none where it cannot be decoded. -/
def ClusterData.triangle (d : ClusterData) (tri : Nat) : Option (List (List Nat)) :=
  if !d.valid then none
  else match (cornersFrom d.rec_.nvert d.idx 0)[tri]? with
    | some (a, b, c, true) => some [d.vertex a, d.vertex b, d.vertex c]
    | _ => none

/-- Read cut record r and the cluster it names (R341); streams are read of a valid record only. A cut record with a reserved
bit of GWORD set, and a graph header with a reserved byte set, are refused as a cluster that is not valid (R8, R319, R334; DESIGN
CHOICE, assumption 60). -/
def State.readCluster (s : State) (at_ : EngineAt) (cuts graph : Manifest) (r : Nat) : Landing ClusterData :=
  match s.sideRead at_ cuts accRead (cuts.elemAddr r) 16 with
  | .error f => .error f
  | .ok (s1, cb) =>
  let caddr := fieldAt cb 0 8
  match s1.operandRead at_.ctx at_.core caddr 48 with
  | .error f => .error f
  | .ok (s2, rb) =>
  let size := graph.imageSize
  match (if size < 64 then .ok (s2, []) else s2.operandRead at_.ctx at_.core graph.base 64) with
  | .error f => .error f
  | .ok (s3, hb) =>
    let h := graphHeader hb
    let c := clusterOf rb
    let n := word32 cb 8
    let ok := decide (size ≥ 64) && caddr = graph.base + h.coff + 48 * n && decide (n < h.nclus) && !c.dirty && c.inside size h.astride &&
      bitsAt (word32 cb 12) 24 7 = 0 && zeroAt hb 0x1C 0x40
    let d : ClusterData := { caddr := caddr, number := n, group := bitsAt (word32 cb 12) 0 24, rec_ := c, valid := ok }
    if !ok then .ok (s3, d)
    else match s3.operandRead at_.ctx at_.core (graph.base + c.pos) c.posBytes with
    | .error f => .error f
    | .ok (s4, pb) =>
    match s4.operandRead at_.ctx at_.core (graph.base + c.idx) (3 * c.ntri) with
    | .error f => .error f
    | .ok (s5, ib) => .ok (s5, { d with pos := pb, idx := ib })

/-! ## emit (R349) -/

def emitSig (x : Extended) : Sig where
  dst := .w32
  a := .b32
  b := .b64
  ctlOk := fun _ => x.mfb = 0 && x.sci = 0 && x.sub = 0 && x.flags = 0 && x.spec = 0

/-- The VA of the count word. -/
def countVa (l : Lane) : Nat := (l.b.setWidth 64 : DWord).toNat

def emitCheck (x : Extended) (s : State) (l : Lane) : Option Trap :=
  let a := s.agent l.agent
  let m := (s.ctx a.ctx).manifest x.mfa.toNat
  orElseTrap (s.manifestFault a.ctx x.mfa.toNat) <|
  orElseTrap (if x.mfa = 0 ∨ !m.edgeForm then some { code := .convoyOperand, info := BitVec.ofNat 32 x.mfa.toNat } else none) <|
  orElseTrap (recordFault (s.tileSizeOf a.block) m.rowBytes 16 (l.a.toNat % 2 ^ 32 : Nat)) <|
  orElseTrap (s.vFault l accAtom 3 (countVa l) 4 true) <|
  match s.laneAccess l accWrite m.base (m.footEnd - m.base) with
  | .error f => some (f.trap 1)
  | .ok _ => none

/-- The count word's step, after the wanting threads' own earlier accesses to it (R232), then the record when its index lies below the capacity. Where the word lies on a peer every
wanting lane waits for its old value. -/
def emitLane (x : Extended) (s0 : State) (l : Lane) : State × LaneRes :=
  let a := s0.agent l.agent
  let m := (s0.ctx a.ctx).manifest x.mfa.toNat
  let ps := s0.lanePieces l accAtom (countVa l) 4
  let p := ps.headD default
  let off := l.a.toNat % 2 ^ 32
  let wants := ((s0.caravan (s0.focus.getD 0)).members.filter (·.want)).map (·.agent)
  let s2 := wants.foldl (fun t i => (t.orderOwn i ps).dropAdv i ps) (s0.releaseCaravan.walked a.ctx ps)
  let s := s2.meetTile (some a.ctx) a.block a.pos off m.rowBytes
  let bs := s.readTile a.block a.pos off m.rowBytes
  if s.isPeer p.pa then
    let s1 := s.sendRemote a.ctx (s.coreOf a) p.pa (some l.agent)
    (wants.foldl (fun t i => t.updAgent i fun b =>
      { b with wait := if i = l.agent then .emit x.dst m bs else .same x.dst l.agent }) s1, { late := true })
  else
    let (s1, n) := s.atomAt a.ctx p.pa (.add .n32) 1
    (s1.emitRecord l.agent m n bs, { val := BitVec.ofNat 128 n })

/-- emit d, mN, a, b (R349). -/
def execEmit (x : Extended) (s : State) : Out :=
  ({ sig := emitSig x, uniform := true, check := emitCheck x, perform := eachLane (emitLane x) } : Job).issue x.fields s

/-! ## Node formats (R364) -/

/-- A node-format record: NCH, BKIND, LKIND, NSIZE, CPOFF, BOFF, QOFF. -/
structure NodeFmt where
  nch : Nat
  bkind : Nat
  lkind : Nat
  nsize : Nat
  cpoff : Nat
  boff : Nat
  qoff : Nat
deriving DecidableEq, Repr, Inhabited

def nodeFmt (v : BitVec 256) : NodeFmt where
  nch := bitsAt v.toNat 8 8
  bkind := bitsAt v.toNat 16 8
  lkind := bitsAt v.toNat 24 8
  nsize := bitsAt v.toNat 32 16
  cpoff := bitsAt v.toNat 48 16
  boff := bitsAt v.toNat 64 16
  qoff := bitsAt v.toNat 80 16

/-- Bytes of a child's bound. -/
def boundBytes (bkind : Nat) : Nat := match bkind with | 0 => 24 | 1 => 6 | _ => 16

/-- A record meets Table 9. -/
def nodeFmtOk (v : BitVec 256) : Bool :=
  let f := nodeFmt v
  bitsAt v.toNat 0 8 = 0 && bitsAt v.toNat 96 160 = 0 && decide (1 ≤ f.nch) && decide (f.nch ≤ 8) && decide (f.bkind ≤ 2) &&
    decide (f.lkind ≤ 2) && decide (16 ≤ f.nsize) && decide (f.nsize ≤ 1024) && f.nsize % 16 = 0 &&
    f.cpoff % 4 = 0 && decide (f.cpoff + 4 * f.nch ≤ f.nsize) &&
    f.boff % 4 = 0 && decide (f.boff + f.nch * boundBytes f.bkind ≤ f.nsize) &&
    (f.bkind ≠ 1 || (f.qoff % 4 = 0 && decide (f.qoff + 16 ≤ f.nsize)))

def travfmtSig (x : Extended) : Sig where
  a := .b32
  b := .b32
  ctlOk := fun _ => x.mfa = 0 && x.mfb = 0 && x.sci = 0 && x.sub = 0 && x.flags = 0 && x.spec = 0

def travfmtCheck (s : State) (l : Lane) : Option Trap :=
  let a := s.agent l.agent
  let off := l.a.toNat % 2 ^ 32
  orElseTrap (if l.b.toNat % 2 ^ 32 > 15 then some (badField 2) else none) <|
  orElseTrap (recordFault (s.tileSizeOf a.block) 32 16 (off : Nat)) <|
  if nodeFmtOk (BitVec.ofNat 256 (leNat (s.tileNow a off 32))) then none else some { code := .traversalFormat }

def travfmtLane (s : State) (l : Lane) : State × LaneRes :=
  let a := s.agent l.agent
  let (s1, bs) := s.readPriv l.agent .t (l.a.toNat % 2 ^ 32) 32
  let slot := l.b.toNat % 2 ^ 32
  (s1.updCtx a.ctx fun c => { c with formats := (slot, BitVec.ofNat 256 (leNat bs)) :: c.formats.filter fun e => e.1 ≠ slot }, {})

/-- travfmt [t: a], s (R364). -/
def execTravfmt (x : Extended) (s : State) : Out :=
  ({ sig := travfmtSig x, uniform := true, check := travfmtCheck, perform := eachLane travfmtLane } : Job).issue x.fields s

/-! ## Queries (R366 Table 10) -/

def queryO (q : List Byte) (k : Nat) : Nat := word32 q (4 * k)
def queryD (q : List Byte) (k : Nat) : Nat := word32 q (12 + 4 * k)
def queryTmin (q : List Byte) : Nat := word32 q 0x18
def queryTmax (q : List Byte) : Nat := word32 q 0x1C
def queryC (q : List Byte) (k : Nat) : Nat := word32 q (0x20 + 4 * k)
def queryTarget (q : List Byte) : Nat := fieldAt q 0x38 8

/-! ## The tests (R367) -/

def min32 (a b : Nat) : Nat := (elMinMax fp32 false a b 0).1
def max32 (a b : Nat) : Nat := (elMinMax fp32 true a b 0).1

/-- BOX: whether a bound is entered, with tn and tf. -/
def boxTest (q : List Byte) (lo hi : List Nat) : Bool × Nat × Nat :=
  let t (h : List Nat) (k : Nat) := mul32 (sub32 (h.getD k 0) (queryO q k)) (div32 0x3F800000 (queryD q k))
  let near (k : Nat) := min32 (t lo k) (t hi k)
  let far (k : Nat) := max32 (t lo k) (t hi k)
  let tn := max32 (max32 (near 0) (near 1)) (near 2)
  let tf := min32 (min32 (far 0) (far 1)) (far 2)
  (le32 tn tf && le32 (queryTmin q) tf && le32 tn (queryTmax q), tn, tf)

def vec3 (f : Nat → Nat) : List Nat := [f 0, f 1, f 2]
def subVec (a b : List Nat) : List Nat := vec3 fun k => sub32 (a.getD k 0) (b.getD k 0)

/-- Each component RNE32 of its exact value. -/
def crossVec (a b : List Nat) : List Nat :=
  let x (k : Nat) := v32 (a.getD (k % 3) 0)
  let y (k : Nat) := v32 (b.getD (k % 3) 0)
  vec3 fun k => rne32 (FVal.sum .rn [FVal.mul (x (k + 1)) (y (k + 2)), (FVal.mul (x (k + 2)) (y (k + 1))).neg])

/-- An exact dot product. -/
def dotVec (a b : List Nat) : FVal := FVal.sum .rn (List.zipWith (fun x y => FVal.mul (v32 x) (v32 y)) a b)

/-- TRI: (t, u, v) of a hit. -/
def triTest (q : List Byte) (vs : List (List Nat)) : Option (Nat × Nat × Nat) :=
  let v0 := vs.getD 0 []
  let e1 := subVec (vs.getD 1 []) v0
  let e2 := subVec (vs.getD 2 []) v0
  let dir := vec3 (queryD q)
  let o := subVec (vec3 (queryO q)) v0
  let p := crossVec dir e2
  let qq := crossVec o e1
  let det := rne32 (dotVec e1 p)
  if (v32 det).isZero then none
  else
    let u := rne32 (FVal.div (dotVec o p) (v32 det))
    let v := rne32 (FVal.div (dotVec dir qq) (v32 det))
    let t := rne32 (FVal.div (dotVec e2 qq) (v32 det))
    if le32 0 u && le32 0 v && le32 (add32 u v) 0x3F800000 && le32 (queryTmin q) t && le32 t (queryTmax q) then some (t, u, v)
    else none

/-! ## Walking a tree (R368, R369) -/

/-- Why a walk stops. -/
inductive TravStop where
  | fault (f : AccessFault)
  | format
deriving DecidableEq, Repr

/-- A result entry: REF, T, VALUE, VALUE2. -/
abbrev TravEntry := List Nat

/-- A walk so far. -/
structure TravAcc where
  s : State
  visits : Nat := 0
  found : List TravEntry := []
  stop : Option TravStop := none

/-- A child's box (BKIND 0, 1); none for a scale of 0xFF. -/
def childBox (f : NodeFmt) (node : List Byte) (i : Nat) : Option (List Nat × List Nat) :=
  if f.bkind = 0 then
    let w (k : Nat) := word32 node (f.boff + 24 * i + 4 * k)
    some ([w 0, w 1, w 2], [w 3, w 4, w 5])
  else
    let b (k : Nat) : Nat := (node.getD (f.boff + 6 * i + k) 0).toNat
    let sc (k : Nat) : Nat := (node.getD (f.qoff + 12 + k) 0).toNat
    let v (k c : Nat) := rne32 (FVal.sum .rn [v32 (word32 node (f.qoff + 4 * k)), mxval (sc k) (fvalOfInt (c : Nat))])
    if (List.range 3).any fun k => sc k = 255 then none
    else some ([v 0 (b 0), v 1 (b 1), v 2 (b 2)], [v 0 (b 3), v 1 (b 4), v 2 (b 5)])

def childPtr (f : NodeFmt) (node : List Byte) (i : Nat) : Nat := word32 node (f.cpoff + 4 * i)

/-- A leaf of triangles: the entry of a hit (REF P, T, u, v). -/
def TravOp.leafHit (o : TravOp) (at_ : EngineAt) (p : Nat) (a : TravAcc) : TravAcc :=
  if p / 128 ≥ o.cuts.elems then { a with stop := some .format }
  else match a.s.readCluster at_ o.cuts o.graph (p / 128) with
  | .error f => { a with stop := some (.fault f) }
  | .ok (s1, d) =>
    match d.triangle (p % 128) with
    | none => { a with s := s1, stop := some .format }
    | some vs => match triTest o.query vs with
      | some (t, u, v) => { a with s := s1, found := [p, t, u, v] :: a.found }
      | none => { a with s := s1 }

/-- The children of a node that has been read, in array order; `down` walks an inner child. -/
def TravOp.children (o : TravOp) (at_ : EngineAt) (f : NodeFmt) (node : List Byte) (down : Nat → TravAcc → TravAcc) :
    List Nat → TravAcc → TravAcc
  | [], a => a
  | i :: is_, a =>
    let ptr := childPtr f node i
    let next :=
      if a.stop.isSome ∨ ptr = 0xFFFFFFFF then a
      else if o.pred = 3 then
        let w (k : Nat) := word32 node (f.boff + 16 * i + 4 * k)
        let dv := vec3 fun k => sub32 (w k) (queryO o.query k)
        let dist := sqrt32 (rne32 (dotVec dv dv))
        if ptr ≥ 2 ^ 31 then { a with found := [ptr, dist, w 3, 0] :: a.found }
        else if lt32 (mul32 (queryTmin o.query) dist) (w 3) then down ptr a
        else { a with found := [ptr, dist, w 3, 0] :: a.found }
      else match childBox f node i with
        | none => { a with stop := some .format }
        | some (lo, hi) =>
          let (inside, tn, tf) := boxTest o.query lo hi
          if !inside then a
          else if ptr < 2 ^ 31 then down ptr a
          else if o.pred = 2 then { a with found := [ptr % 2 ^ 31, tn, tf, 0] :: a.found }
          else o.leafHit at_ (ptr % 2 ^ 31) a
    o.children at_ f node down is_ next

/-- Walk from a row with `levels` levels left. -/
def TravOp.walkRow (o : TravOp) (at_ : EngineAt) : Nat → Nat → TravAcc → TravAcc
  | 0, _, a => { a with stop := some .format }
  | levels + 1, row, a =>
    let f := nodeFmt o.fmt
    if a.stop.isSome then a
    else if row ≥ o.tree.rows ∨ a.visits ≥ 2 ^ 20 then { a with stop := some .format }
    else match a.s.sideRead at_ o.tree accRead (o.tree.rowAddr row) f.nsize with
      | .error e => { a with stop := some (.fault e) }
      | .ok (s1, node) =>
        o.children at_ f node (o.walkRow at_ levels) (List.range f.nch) { a with s := s1, visits := a.visits + 1 }

/-- (t, REF) order of two entries. -/
def entryBefore (a b : TravEntry) : Bool :=
  lt32 (a.getD 1 0) (b.getD 1 0) || (!lt32 (b.getD 1 0) (a.getD 1 0) && decide (a.getD 0 0 < b.getD 0 0))

def insertEntry (e : TravEntry) : List TravEntry → List TravEntry
  | [] => [e]
  | x :: xs => if entryBefore e x then e :: x :: xs else x :: insertEntry e xs

/-- The entries of a finished walk, in the order they are written (R368). -/
def TravOp.entries (o : TravOp) (found : List TravEntry) : List TravEntry :=
  match o.pred with
  | 0 => (found.foldr insertEntry []).take 1
  | 1 => []
  | 2 => found.foldr insertEntry []
  | _ => found.reverse

/-- The result header (R369). -/
def travHeader (ovf status count visits : Nat) : List Byte :=
  leBytes 2 ovf ++ leBytes 2 status ++ leBytes 4 count ++ leBytes 4 (min visits 0xFFFFFFFF) ++ leBytes 4 0

/-! ## Issue (R365, R366) -/

def travF (x : Extended) : Nat := bitsAt x.spec.toNat 0 4
def travCap (x : Extended) : Nat := bitsAt x.spec.toNat 4 12
def travG (x : Extended) : Nat := bitsAt x.spec.toNat 16 8

def travSig (x : Extended) : Sig where
  a := .b32
  b := .b32
  c := .b32
  ctlOk := fun _ => x.flags = 0 && bitsAt x.spec.toNat 24 20 = 0

/-- A predicate's requirements on the format and CAP (R365). -/
def predOk (sub cap : Nat) (f : NodeFmt) : Bool :=
  match sub with
  | 0 => decide (f.bkind ≤ 1) && f.lkind = 0 && cap = 1
  | 1 => decide (f.bkind ≤ 1) && f.lkind = 0 && cap = 0
  | 2 => decide (f.bkind ≤ 1) && f.lkind = 1
  | _ => f.bkind = 2 && f.lkind ≠ 1

/-- The entries a query names: the tree; the cut list and graph when leaves are triangles, zero otherwise (R366 step 3).
`lim` is TILE_SIZE, none where there is no share. -/
def State.travEntriesBad (s : State) (ctx tree cuts graph sub cap : Nat) (fmt : Option (BitVec 256)) (lim : Option Nat) : Bool :=
  let c := s.ctx ctx
  match fmt with
  | none => true
  | some v =>
    let f := nodeFmt v
    let m := c.manifest tree
    let k := c.manifest cuts
    !predOk sub cap f || tree = 0 || !m.edgeForm || m.rowBytes ≠ f.nsize ||
      (if f.lkind = 0 then
        cuts = 0 || !k.listForm || (k.tile && (match lim with | some n => decide (k.footEnd > n) | none => true)) ||
          graph = 0 || !(c.manifest graph).graphForm
       else cuts ≠ 0 || graph ≠ 0)

/-- STALE_MANIFEST for the entries that are read (R366 step 1). -/
def State.travStale (s : State) (ctx tree cuts graph : Nat) (fmt : Option (BitVec 256)) : Option Trap :=
  let reads : Bool := match fmt with | some v => (nodeFmt v).lkind = 0 | none => false
  orElseTrap (s.manifestFault ctx tree)
    (if reads then orElseTrap (s.manifestFault ctx cuts) (s.manifestFault ctx graph) else none)

/-- TARGET of a shadow query (R366 step 4). -/
def State.targetFault (s : State) (l : Lane) (lim : Nat) (q : List Byte) : Option Trap :=
  let t := queryTarget q
  if t ≥ 2 ^ 63 then recordFault lim 12 4 (t % 2 ^ 32 : Nat)
  else if t % 4 ≠ 0 then some (vMisaligned t)
  else s.vFault l accRed 3 t 12 false

/-- Checks 1 to 3 of R366, which fault every wanting lane alike. -/
def travCommon (x : Extended) (s : State) (i : Nat) : Option Trap :=
  let a := s.agent i
  let sub := x.sub.toNat
  let fmt := assocGet (s.ctx a.ctx).formats (travF x)
  orElseTrap (if sub > 3 then some (badField 6) else none) <|
  orElseTrap (s.travStale a.ctx x.mfa.toNat x.mfb.toNat (travG x) fmt) <|
  orElseTrap (if sub ≠ 1 then s.scopeFault a x.sci.toNat 6 else none) <|
  if s.travEntriesBad a.ctx x.mfa.toNat x.mfb.toNat (travG x) sub (travCap x) fmt (some (s.tileSizeOf a.block)) ∨
      (sub = 1 ∧ (x.sb ≠ gz ∨ x.sc ≠ gz ∨ x.sci ≠ 0)) then some { code := .traversalFormat }
  else none

/-- The reserved bytes of a query record (R366 Table 10). -/
def queryDirty (q : List Byte) : Bool := fieldAt q 0x2C 12 ≠ 0

/-- Check 4: the lane's own; then TRAVERSAL_FORMAT for a reserved byte of the query that is set (R8; DESIGN CHOICE,
assumption 60: no rule names that report). -/
def travLaneCheck (x : Extended) (s : State) (l : Lane) : Option Trap :=
  let a := s.agent l.agent
  let lim := s.tileSizeOf a.block
  let off := l.a.toNat % 2 ^ 32
  orElseTrap (travCommon x s l.agent) <|
  let q := s.tileNow a off 64
  orElseTrap (recordFault lim 64 16 (off : Nat)) <|
  orElseTrap (if x.sub = 1 then s.targetFault l lim q else
    orElseTrap (recordFault lim (16 * (1 + travCap x)) 16 (l.b.toNat % 2 ^ 32 : Nat)) <|
    privFault .t 8 lim (l.c.toNat % 2 ^ 32 : Nat)) <|
  if queryDirty q then some { code := .traversalFormat } else none

/-- One lane's query; a helper issues none. -/
def travLane (x : Extended) (s0 : State) (l : Lane) : State × LaneRes :=
  if !l.want then (s0, {})
  else
    let a := s0.agent l.agent
    let s := s0.releaseCaravan
    let off := l.a.toNat % 2 ^ 32
    let s1 := s.meetTile (some a.ctx) a.block a.pos off 64
    let c := s1.ctx a.ctx
    (s1.addOp a (.trav {
        block := some a.block, pos := a.pos, tree := c.manifest x.mfa.toNat
        cuts := c.manifest x.mfb.toNat, graph := c.manifest (travG x)
        fmt := (assocGet c.formats (travF x)).getD 0, pred := x.sub.toNat, cap := travCap x
        query := s1.readTile a.block a.pos off 64, result := l.b.toNat % 2 ^ 32
        obj := if x.sub = 1 then none else some (.tile a.block a.pos (l.c.toNat % 2 ^ 32))
        scope := s1.resolveScope a.ctx (s1.coreOf a) (s1.coreList a) x.sci.toNat }), {})

/-- trav.p: one query for each wanting lane (R366). -/
def execTrav (x : Extended) (s : State) : Out :=
  ({ sig := travSig x, check := travLaneCheck x, perform := eachLane (travLane x) } : Job).issue x.fields s

/-! ## Completion (R368, R369, R371) -/

def TravOp.site (i : Nat) (op : EngineOp) (o : TravOp) : EngineAt := ⟨op.ctx, op.core, o.block.getD 0, o.pos, some i⟩

/-- The adds of an unoccluded shadow query, all of them or none. -/
def TravOp.addShadow (o : TravOp) (at_ : EngineAt) (s : State) : Except AccessFault State :=
  let t := queryTarget o.query
  let each (s0 : State) (f : State → Nat → State) : State := (List.range 3).foldl f s0
  if t ≥ 2 ^ 63 then
    match o.block with
    | none => .ok s
    | some b =>
      .ok (each s fun u k =>
        let off := t % 2 ^ 32 + 4 * k
        let u1 := u.meetTile (some at_.ctx) b o.pos off 4
        u1.writeTile b o.pos off (leBytes 4 (add32 (leNat (u1.readTile b o.pos off 4)) (queryC o.query k))))
  else if t % 4 ≠ 0 then .ok s
  else match s.access at_.ctx at_.core accRed t 12 with
    | .error f => .error f
    | .ok ps => .ok (each (s.walked at_.ctx ps) fun u k =>
        match ps.find? fun p => decide (p.va ≤ t + 4 * k) && decide (t + 4 * k < p.va + p.len) with
        | none => u
        | some p =>
          let pa := p.pa + (t + 4 * k - p.va)
          if u.isPeer pa then u.sendRemote at_.ctx at_.core pa none at_.op
          else (u.atomAt at_.ctx pa (.add .f32) (queryC o.query k)).1)

/-- Write a result: a thread's region in t:, or the result edge's record; records beyond its capacity are not written. -/
def TravOp.writeResult (o : TravOp) (at_ : EngineAt) (off : Nat) (bs : List Byte) (s : State) : Except AccessFault State :=
  if o.pred = 1 then .ok s
  else match o.block with
    | some _ => .ok (s.planeWrite at_ (o.result + off) bs)
    | none =>
      if o.index ≥ o.output.rows then .ok s
      else s.engineWrite at_.ctx at_.core accWrite (o.output.rowAddr o.index + off) bs at_.op

/-- The query that runs: its own, or the node's record `index`, read from memory. -/
def TravOp.fetchQuery (o : TravOp) (at_ : EngineAt) (s : State) : Landing TravOp :=
  match o.block with
  | some _ => .ok (s, o)
  | none => (s.operandRead at_.ctx at_.core (o.input.rowAddr o.index) 64).map fun r => (r.1, { o with query := r.2 })

/-- A query stops on a fault (R278, R369). -/
def State.stopTrav (s : State) (i : Nat) (op : EngineOp) (o : TravOp) (f : AccessFault) (visits : Nat) : State :=
  let s1 := match o.writeResult (o.site i op) 0 (travHeader 0 f.code.code.toNat 0 visits) s with
    | .ok t => t
    | .error _ => s
  let (h, s2) := s1.engineFault op.ctx op.core f 0 2
  s2.setOp i (.stopped f.code.code (BitVec.ofNat 64 f.va) h) (.trav o)

/-- The results of a finished walk: entries within CAP, then the header; or a shadow query's adds. -/
def TravOp.finish (o : TravOp) (at_ : EngineAt) (a : TravAcc) : Except AccessFault State :=
  match a.stop with
  | some _ => o.writeResult at_ 0 (travHeader 0 FaultCode.traversalFormat.code.toNat 0 a.visits) a.s
  | none =>
    if o.pred = 1 then (if a.found.isEmpty then o.addShadow at_ a.s else .ok a.s)
    else
      let es := o.entries a.found
      let kept := es.take o.cap
      match (if kept.isEmpty then .ok a.s else o.writeResult at_ 16 (kept.flatMap fun e => e.flatMap (leBytes 4)) a.s) with
      | .error f => .error f
      | .ok s1 => o.writeResult at_ 0 (travHeader (if es.length > o.cap then 1 else 0) 0 es.length a.visits) s1

/-- The running query operation of a number. -/
def State.runningTrav (s : State) (i : Nat) : Option (EngineOp × TravOp) :=
  match s.ops[i]? with
  | some op => match op.state, op.body with
    | .running, .trav o => if s.blockRuns o.block then some (op, o) else none
    | _, _ => none
  | none => none

/-- The arrival of a thread's query at its object, which lies in t:. -/
def State.travArrive (s : State) (op : EngineOp) (o : TravOp) : State :=
  match o.obj with
  | some r => s.orKeep (s.engineArrive op.ctx op.core accObar r)
  | none => s

/-- After a query, once peers have acknowledged its writes: a thread's arrives at its object; a node goes on to its next. -/
def State.travDone (s : State) (i : Nat) (op : EngineOp) (o : TravOp) : State :=
  if s.opRemotes i then s.setOp i .running (.trav { o with written := true })
  else match o.block with
    | some _ => (s.travArrive op o).setOp i .done (.trav o)
    | none =>
      let o1 := { o with index := o.index + 1, written := false }
      s.setOp i (if o.index + 1 < o.count then .running else .done) (.trav o1)

/-- TRAV_QUERY_COMPLETE: a query runs to its results and its arrival, or stops on a fault. -/
def execTravQueryComplete (op : Nat) (s : State) : Out :=
  match s.runningTrav op with
  | none => .next s
  | some (p, o0) =>
    let at_ := o0.site op p
    if o0.written then .next (s.travDone op p o0)
    else match o0.fetchQuery at_ s with
    | .error f => .next (s.stopTrav op p o0 f 0)
    | .ok (s1, o) =>
      let a : TravAcc := if queryDirty o.query then { s := s1, stop := some .format } else o.walkRow at_ 64 0 { s := s1 }
      match a.stop with
      | some (.fault f) => .next (a.s.stopTrav op p o f a.visits)
      | _ => match o.finish at_ a with
        | .error f => .next (a.s.stopTrav op p o f a.visits)
        | .ok s2 => .next (s2.travDone op p o)

/-- EREPLAY of a stopped query (R383): it runs again, or its header stands and its arrival is made. -/
def State.replayTrav (s : State) (i : Nat) (op : EngineOp) (o : TravOp) (code : BitVec 16) (cancel : Bool) : State :=
  if cancel then
    match o.block with
    | some _ =>
      let s1 := match o.writeResult (o.site i op) 2 (leBytes 2 code.toNat) s with | .ok t => t | .error _ => s
      (s1.travArrive op o).setOp i .done (.trav o)
    | none => s.setOp i .done (.trav o)
  else s.setOp i .running (.trav o)

end Sys2Proof.Machine
end

