-- ==== Sys2Proof/Machine/Itinerary.lean ====
section
/-! DEFINITION. The Dispatcher walks an itinerary (R342-R347, R371), and starts a raster pass (R350, R351). -/

namespace Sys2Proof.Machine

def State.walkNo (s : State) (w : Nat) : Walk := s.walks.getD w {}
def State.updWalk (s : State) (w : Nat) (f : Walk → Walk) : State := { s with walks := updAt s.walks w f }

/-- The walk ends: the walk record, then the completion of its launch (R342, R345, R431). -/
def State.endWalk (s : State) (w status node : Nat) : State :=
  let k := s.walkNo w
  let s1 := s.updWalk w fun k => { k with state := .ended status node }
  let (ok, s2) := s1.ringWrite k.ctx (k.itin.toNat + 0x10) (leBytes 4 (status + node * 2 ^ 16))
  (s2.endLaunch k.launch (if ok then 0 else 0x1A)).settleQueue (s2.launch k.launch).queue

/-! ## Node records (R343 Table 1) -/

/-- A node record. -/
abbrev NodeRec := List Byte

def NodeRec.fld (r : NodeRec) (off n : Nat) : Nat := leNat ((r.drop off).take n)
def NodeRec.kind (r : NodeRec) : Nat := NodeRec.fld r 0 4 / 2 ^ 28
def NodeRec.inMf (r : NodeRec) : Nat := NodeRec.fld r 7 1
def NodeRec.outMf (r : NodeRec) : Nat := NodeRec.fld r 6 1
def NodeRec.next0 (r : NodeRec) : Nat := NodeRec.fld r 8 2
def NodeRec.next1 (r : NodeRec) : Nat := NodeRec.fld r 0xA 2
def NodeRec.limit (r : NodeRec) : Nat := NodeRec.fld r 0xC 4
def NodeRec.ocnt (r : NodeRec) : Nat := NodeRec.fld r 0x20 8
def NodeRec.icnt (r : NodeRec) : Nat := NodeRec.fld r 0x28 8
def NodeRec.cond (r : NodeRec) : Nat := NodeRec.fld r 0x30 8
def NodeRec.param (r : NodeRec) : Nat := NodeRec.fld r 0x38 8

/-- The entries have the forms the kind requires; a tile-plane entry is never valid (R343). -/
def State.nodeForms (s : State) (ctx : Nat) (r : NodeRec) : Bool :=
  let c := s.ctx ctx
  let mi := c.manifest (NodeRec.inMf r)
  let mo := c.manifest (NodeRec.outMf r)
  let valid (n : Nat) := (s.manifestFault ctx n).isNone && !(n ≠ 0 && (c.manifest n).tile)
  valid (NodeRec.inMf r) && valid (NodeRec.outMf r) &&
    match NodeRec.kind r with
    | 1 => mi.edgeForm
    | 2 => NodeRec.inMf r ≠ 0 && mi.graphForm && mo.edgeForm
    | 3 => mi.edgeForm && NodeRec.outMf r = 0
    | 4 => mi.edgeForm && (NodeRec.outMf r = 0 || mo.edgeForm)
    | _ => NodeRec.inMf r = 0 && NodeRec.outMf r = 0 && NodeRec.param r = 0

/-- R343: reserved bits and kinds, NEXT, LIMIT, COND, the count words, the entries. -/
def State.nodeOk (s : State) (ctx nnode : Nat) (r : NodeRec) : Bool :=
  let k := NodeRec.kind r
  let control := k = 5 || k = 6
  let nextOk (n : Nat) := n = 0xFFFF || decide (n < nnode)
  decide (1 ≤ k) && decide (k ≤ 6) && NodeRec.fld r 0 4 % 2 ^ 28 = 0 && NodeRec.fld r 4 2 = 0 && NodeRec.fld r 0x10 16 = 0 &&
    nextOk (NodeRec.next0 r) && nextOk (NodeRec.next1 r) &&
    (if k = 6 then decide (NodeRec.limit r ≥ 1) else NodeRec.limit r = 0) &&
    (if control then NodeRec.cond r % 4 = 0 else NodeRec.cond r = 0) &&
    NodeRec.icnt r % 4 = 0 && NodeRec.ocnt r % 4 = 0 && s.nodeForms ctx r

/-- Records a node takes: min(count, capacity), or the whole capacity where ICNT is 0 (R344). -/
def State.nodeCount (s : State) (ctx : Nat) (r : NodeRec) (capacity : Nat) : Option (State × Nat) :=
  if NodeRec.icnt r = 0 then some (s, capacity)
  else match s.hubRead ctx (NodeRec.icnt r) 4 with
    | .ok (t, bs) => some (t, min (leNat bs) capacity)
    | .error _ => none

/-- An engine operation of a node; its home core is core 0, a core of a die the Dispatcher chooses (R333, R347). -/
def State.addNodeOp (s : State) (w : Nat) (body : OpBody) : State :=
  let (n, s1) := s.draw
  let k := s1.walkNo w
  { s1 with ops := s1.ops ++ [{ ctx := k.ctx, core := 0, issuer := hubCore, issued := n, launch := k.launch, body := body }] }

/-! ## Starting the nodes -/

/-- A shader node (R346). -/
def State.startShader (s : State) (w : Nat) (r : NodeRec) : State :=
  let k := s.walkNo w
  match s.nodeCount k.ctx r ((s.ctx k.ctx).manifest (NodeRec.inMf r)).rows with
  | none => s.endWalk w 1 k.node
  | some (s1, 0) => s1.updWalk w fun k => { k with state := .complete }
  | some (s1, count) =>
    let root := s1.launch k.launch
    let (li, s2) := s1.newLaunch {
      ctx := k.ctx, queue := root.queue, index := root.index, origin := .node w, seed := .shader count (BitVec.ofNat 64 (NodeRec.ocnt r)) }
    let s3 := s2.updWalk w fun k => { k with state := .launch li }
    if NodeRec.param r % 64 ≠ 0 then s3.refuseLaunch li 0x10 else s3.beginLaunch li (NodeRec.param r)

/-- A cut-selector node: its block, the checks of R338 steps 1, 4 and 5, and the operation (R347). -/
def State.startCutNode (s : State) (w : Nat) (r : NodeRec) : State :=
  let k := s.walkNo w
  let c := s.ctx k.ctx
  let p := NodeRec.param r
  match (if p % 64 ≠ 0 then none else (s.hubRead k.ctx p 128).toOption) with
  | none => s.endWalk w 1 k.node
  | some (s1, blk) =>
    let view := blk.take 64
    let g := c.manifest (NodeRec.inMf r)
    let o := c.manifest (NodeRec.outMf r)
    match s1.access k.ctx hubCore { rd := true, wr := true } (p + 0x40) 32 with
    | .error _ => s1.endWalk w 1 k.node
    | .ok _ =>
      if leNat (blk.drop 0x60) ≠ 0 ∨ (cutOperand (NodeRec.inMf r) (NodeRec.outMf r) g o none view).isSome then s1.endWalk w 1 k.node
      else
        (s1.addNodeOp w (.cut {
          graph := g, out := o, view := view, obj := .virt (p + 0x40), walk := some w
          scope := s1.resolveScope k.ctx 0 [0] 4 })).updWalk w fun k => { k with state := .cut s1.ops.length }

/-- A traversal node: PARAM, the checks of R365 and of R366 steps 1 and 3, and one operation for its queries (R371). -/
def State.startTravNode (s : State) (w : Nat) (r : NodeRec) : State :=
  let k := s.walkNo w
  let c := s.ctx k.ctx
  let p := NodeRec.param r
  let tree := bitsAt p 0 8
  let cuts := bitsAt p 8 8
  let sub := bitsAt p 16 4
  let cap := bitsAt p 24 12
  let graph := bitsAt p 36 8
  let fmt := assocGet c.formats (bitsAt p 20 4)
  let mi := c.manifest (NodeRec.inMf r)
  let mo := c.manifest (NodeRec.outMf r)
  let outBad := if NodeRec.outMf r = 0 then sub ≠ 1 else mo.rowBytes ≠ 16 * (1 + cap)
  if p ≥ 2 ^ 44 ∨ sub > 3 ∨ mi.rowBytes ≠ 64 ∨ outBad ∨ (s.travStale k.ctx tree cuts graph fmt).isSome ∨
      s.travEntriesBad k.ctx tree cuts graph sub cap fmt none then s.endWalk w 1 k.node
  else match s.nodeCount k.ctx r mi.rows with
    | none => s.endWalk w 1 k.node
    | some (s1, 0) => s1.updWalk w fun k => { k with state := .complete }
    | some (s1, count) =>
      (s1.addNodeOp w (.trav {
        tree := c.manifest tree, cuts := c.manifest cuts, graph := c.manifest graph, fmt := fmt.getD 0, pred := sub, cap := cap
        walk := some w, input := mi, output := mo, count := count })).updWalk w fun k => { k with state := .trav s1.ops.length }

/-! ## The pass descriptor (R350 Table 4, R351) -/

def Pass.field (q : Pass) (off n : Nat) : Nat := leNat ((q.desc.drop off).take n)
def Pass.width (q : Pass) : Nat := q.field 0x80 4
def Pass.height (q : Pass) : Nat := q.field 0x84 4
def Pass.ctl (q : Pass) : Nat := q.field 0x88 4
def Pass.curve (q : Pass) : Nat := bitsAt q.ctl 0 2
def Pass.stripe (q : Pass) : Nat := bitsAt q.ctl 2 6 + 1
def Pass.cull (q : Pass) : Nat := bitsAt q.ctl 8 2
def Pass.npage (q : Pass) : Nat := q.field 0x8C 4
def Pass.low (q : Pass) : Nat := q.field 0x90 4
def Pass.tsize (q : Pass) : Nat := q.field 0x94 4
def Pass.capsz (q : Pass) : Nat := q.field 0x98 4
def Pass.doff (q : Pass) : Nat := q.field 0x9C 4
def Pass.poff (q : Pass) : Nat := q.field 0xA0 4
def Pass.loff (q : Pass) : Nat := q.field 0xA4 4
def Pass.coff (q : Pass) : Nat := q.field 0xA8 4
def Pass.clearz (q : Pass) : Nat := q.field 0xAC 4
def Pass.arena (q : Pass) : Nat := q.field 0x60 8
def Pass.tmap (q : Pass) : Nat := q.field 0x68 8
def Pass.capbase (q : Pass) : Nat := q.field 0x70 8
def Pass.caphdr (q : Pass) : Nat := q.field 0x78 8
def Pass.lfrag (q : Pass) : Nat := q.field 0x40 8
def Pass.ltrans (q : Pass) : Nat := q.field 0x48 8
def Pass.lshade (q : Pass) : Nat := q.field 0x50 8
def Pass.lfinal (q : Pass) : Nat := q.field 0x58 8

/-- R351. -/
def State.passOk (s : State) (q : Pass) : Bool :=
  let g := q.field 0xB0 4
  let vas := [q.lfrag, q.ltrans, q.lshade, q.lfinal, q.arena, q.tmap, q.capbase, q.caphdr]
  let offs := [q.doff, q.poff, q.loff, q.coff]
  decide (q.ctl < 2 ^ 10) && q.field 0xB4 12 = 0 && decide (g < 256) && q.curve ≠ 3 && q.cull ≠ 3 &&
    decide (1 ≤ q.width) && decide (q.width ≤ 16384) && decide (1 ≤ q.height) && decide (q.height ≤ 16384) &&
    q.capsz % 256 = 0 && q.tsize % 4096 = 0 && q.arena % 4096 = 0 && q.capbase % 256 = 0 && q.caphdr % 4 = 0 && fin32 q.clearz &&
    vas.all (fun v => decide (v < 2 ^ 48)) &&
    g ≠ 0 && (s.manifestFault q.ctx g).isNone && ((s.ctx q.ctx).manifest g).graphForm &&
    decide (q.low ≥ 1) && decide (2 * q.low ≤ q.npage) &&
    decide (q.doff + 0x4000 ≤ q.capsz) && decide (q.poff + 0x4000 ≤ q.capsz) && decide (q.loff + 0x81000 ≤ q.capsz) &&
    decide (q.capsz ≤ q.tsize) && decide (q.coff + 0x10000 ≤ q.tsize) && offs.all (fun o => o % 16 = 0)

/-- Cut records past this one are not consumed (R350). -/
def maxCutRecords : Nat := 0x1FFFFFF

/-- A raster node starts its pass, or ends the walk (R351). -/
def State.startRaster (s : State) (w : Nat) (r : NodeRec) : State :=
  let k := s.walkNo w
  let cuts := (s.ctx k.ctx).manifest (NodeRec.inMf r)
  match s.hubRead k.ctx (NodeRec.param r) 0xC0 with
  | .error _ => s.endWalk w 1 k.node
  | .ok (s1, d) =>
    let q : Pass := { walk := w, ctx := k.ctx, cuts := cuts, descVa := BitVec.ofNat 64 (NodeRec.param r), desc := d }
    if !s1.passOk q then s1.endWalk w 1 k.node
    else match s1.nodeCount k.ctx r cuts.elems with
      | none => s1.endWalk w 1 k.node
      | some (s2, count) =>
        let q1 := { q with graph := (s2.ctx k.ctx).manifest (q.field 0xB0 4), ncut := min count maxCutRecords, binned := decide (count = 0) }
        { s2 with passes := s2.passes ++ [q1] }.updWalk w fun k => { k with state := .raster s2.passes.length }

/-- A condition or while node reads its word and chooses (R345). -/
def State.startControl (s : State) (w : Nat) (r : NodeRec) : State :=
  let k := s.walkNo w
  match s.hubRead k.ctx (NodeRec.cond r) 4 with
  | .error _ => s.endWalk w 1 k.node
  | .ok (s1, bs) =>
    let on := leNat bs ≠ 0
    let n := (assocGet k.counts k.node).getD 0
    if NodeRec.kind r = 6 ∧ on ∧ n ≥ NodeRec.limit r then s1.endWalk w 2 k.node
    else s1.updWalk w fun k => { k with
      state := .complete
      next := if on then NodeRec.next0 r else NodeRec.next1 r
      counts := if NodeRec.kind r = 6 then (k.node, if on then n + 1 else 0) :: k.counts.filter (fun c => c.1 ≠ k.node) else k.counts }

/-- The walk may go on: its launch is neither being pre-empted nor restored. -/
def State.walkFree (s : State) (w : Nat) : Bool :=
  let l := s.launch (s.walkNo w).launch
  decide (w < s.walks.length) && !s.mgmt.held && l.state = .running && !l.saving && !l.restoring

/-- Requests to peers of a context that the hub, or one of some cores for a raster node, still awaits. -/
def State.hubUnacked (s : State) (ctx : Nat) (cores : List Nat) : Bool :=
  s.remotes.any fun r => r.ctx = ctx && r.agent.isNone && (decide (r.core ≥ Config.nCores) || cores.contains r.core)

/-- The node of a record starts. -/
def State.startNode (s : State) (w : Nat) (r : NodeRec) : State :=
  let s1 := s.updWalk w fun k => { k with state := .atNode, rec_ := r, next := NodeRec.next0 r }
  match NodeRec.kind r with
  | 1 => s1.startShader w r
  | 2 => s1.startCutNode w r
  | 3 => s1.startRaster w r
  | 4 => s1.startTravNode w r
  | _ => s1.startControl w r

/-- ITINERARY_NODE_START (R343, R345): the record is checked, OCNT set to 0, and the node starts; a zero that goes to a peer is
acknowledged first (R344). -/
def execItineraryNodeStart (w : Nat) (s : State) : Out :=
  let k := s.walkNo w
  if !s.walkFree w then .next s
  else match k.state with
  | .armed => .next (if s.hubUnacked k.ctx [] then s else s.startNode w k.rec_)
  | .atNode => match s.hubRead k.ctx (k.itin.toNat + 0x40 + 64 * k.node) 64 with
    | .error _ => .next (s.endWalk w 1 k.node)
    | .ok (s1, r) =>
      if !s1.nodeOk k.ctx k.nnode r then .next (s1.endWalk w 1 k.node)
      else if NodeRec.ocnt r = 0 then .next (s1.startNode w r)
      else
        let (ok, s2) := s1.ringWrite k.ctx (NodeRec.ocnt r) (leBytes 4 0)
        .next (if !ok then s2.endWalk w 1 k.node
          else if s2.hubUnacked k.ctx [] then s2.updWalk w fun k => { k with state := .armed, rec_ := r }
          else s2.startNode w r)
  | _ => .next s

/-! ## Completion (R345, R347, R371) -/

/-- What a walk's node has come to: still running, refused, or complete with a count for OCNT. -/
inductive NodeEnd where
  | runs
  | refused
  | complete (count : Option Nat)
deriving DecidableEq, Repr

def State.opAt (s : State) (i : Nat) : EngineOp := s.ops.getD i { ctx := 0, core := 0, issuer := 0, issued := 0, launch := 0, body := .cut {} }

/-- How a node stands; a fixed-function node completes when its writes are performed (R345). -/
def State.nodeEnd (s : State) (k : Walk) : NodeEnd :=
  match k.state with
  | .launch li => let l := s.launch li
    if l.state ≠ .done then .runs else if l.status ≠ 0 then .refused else .complete none
  | .cut i => match (s.opAt i).state, (s.opAt i).body with
    | .done, .cut c => if s.hubUnacked k.ctx [] then .runs else .complete (some c.count)
    | _, _ => .runs
  | .trav i => match (s.opAt i).state, (s.opAt i).body with
    | .done, .trav o => .complete (some o.count)
    | _, _ => .runs
  | .raster p =>
    let q := s.passes.getD p {}
    let phases := q.runs.flatMap (·.busy)
    if q.done then (if s.hubUnacked k.ctx (q.runs.map (·.core)) then .runs else .complete none)
    else if phases.all (fun li => (s.launch li).state = .done) && phases.any (fun li => (s.launch li).status ≠ 0) then .refused
    else .runs
  | .complete => if s.hubUnacked k.ctx [] then .runs else .complete none
  | _ => .runs

/-- A pass whose node ends early gives up its tiles. -/
def State.closePass (s : State) (k : Walk) : State :=
  match k.state with
  | .raster p => { s with passes := updAt s.passes p fun q => { q with
      done := true, runs := q.runs.map fun r => { r with phase := 7, seg := [], busy := [], stopped := none } } }
  | _ => s

/-- NODE_COMPLETE: the count of a fixed-function node goes to OCNT; once that write is performed, the walk moves on or ends. -/
def execNodeComplete (w : Nat) (s : State) : Out :=
  let k := s.walkNo w
  if !s.walkFree w then .next s
  else match s.nodeEnd k with
    | .runs => .next s
    | .refused => .next ((s.closePass k).endWalk w 1 k.node)
    | .complete count =>
      let o := NodeRec.ocnt k.rec_
      let (ok, s1) := match count with
        | some n => if o = 0 then (true, s) else s.ringWrite k.ctx o (leBytes 4 n)
        | none => (true, s)
      if !ok then .next (s1.endWalk w 1 k.node)
      else if count.isSome && o ≠ 0 && s1.hubUnacked k.ctx [] then .next (s1.updWalk w fun k => { k with state := .complete })
      else if k.next = 0xFFFF then .next (s1.endWalk w 0 0)
      else .next (s1.updWalk w fun k => { k with state := .atNode, node := k.next })

end Sys2Proof.Machine
end

