-- ==== Sys2Proof/Machine/Mgmt.lean ====
section
/-! DEFINITION. The management port and what stands outside the main side: reset and release (R2, R402, R417), firmware
(R418), identity (R419), sensors, power and heat (R417, R420), links (R401, R421, R422). -/

namespace Sys2Proof.Machine

def State.updMgmt (s : State) (f : Mgmt → Mgmt) : State := { s with mgmt := f s.mgmt }

/-! ## Main-side reset, boot and release (R2, R402, R404, R418) -/

/-- The main side enters reset: every context is lost, the ring registers read zero, links are down, and an image verified
before is now the active one. The error logs, the management side and what main memory holds stay. -/
def State.enterReset (s : State) : State :=
  let m := s.mgmt
  { State.reset with
    mem := clearBytes s.mem scratchBase (4 * scratchWindow)
    logs := s.logs
    latent := s.latent.filter fun l => match l.arr with | .memory _ => true | _ => false
    hub := { notifydrop := s.hub.notifydrop, msixEnabled := s.hub.msixEnabled, msixRaised := s.hub.msixRaised }
    mgmt := { m with
      held := true, pcieUp := [false, false], ports := List.replicate 16 .down
      active := m.pendingActive.getD m.active, pendingActive := none }
    reply := s.reply
    agenda := s.agenda
    nonce := s.nonce }

def Mgmt.slot (m : Mgmt) (k : Nat) : List Byte := if k = 0 then m.slotA else m.slotB

/-- The boot ROM accepts the image of a slot: it verifies, and its SVN is not below the fused minimum. -/
def Mgmt.bootable (m : Mgmt) (k : Nat) : Bool :=
  Config.imageVerifies (m.slot k) && decide (m.minSvn ≤ Config.imageSvn (m.slot k))

/-- Boot and release: the active slot, else the other, else the recovery state; then the LPDDR population; then the links
train and the control port is chosen. -/
def State.bootRelease (s : State) : State :=
  let m := s.mgmt
  match [m.active, 1 - m.active].find? m.bootable with
  | none => s.updMgmt fun m => { m with held := true, recovery := true, reports := m.reports ++ ["recovery"] }
  | some k =>
    if !m.lpddr then s.updMgmt fun m => { m with active := k, recovery := false, held := true, reports := m.reports ++ ["lpddr"] }
    else s.updMgmt fun m => { m with
      active := k, recovery := false, held := false, pcieUp := [true, true], control := m.hostsel.getD 0, hostsel := none
      thermal := false }

/-- MAIN_RELEASE. In the recovery state only the next main-side reset boots. -/
def execMainRelease (s : State) : Out := if s.mgmt.held && !s.mgmt.recovery then .next s.bootRelease else .next s

/-- MAIN_HOLD. -/
def execMainHold (s : State) : Out := .next s.enterReset

/-- MAIN_RESET: a main side that ran, or the recovery state, boots again; one that is held stays held. -/
def execMainReset (s : State) : Out :=
  if s.mgmt.held && !s.mgmt.recovery then .next s.enterReset else .next s.enterReset.bootRelease

/-- HOSTSEL: it decides at the next release. -/
def execHostsel (port : Nat) (s : State) : Out :=
  if port < 2 then .next (s.updMgmt fun m => { m with hostsel := some port }) else .next s

/-- FIRMWARE_UPDATE: the image goes into the inactive slot, or in recovery into slot A; one that verifies becomes the active
one at the next main-side reset. -/
def execFirmwareUpdate (image : List Byte) (s : State) : Out :=
  let k := if s.mgmt.recovery then 0 else 1 - s.mgmt.active
  .next (s.updMgmt fun m => { m with
    slotA := if k = 0 then image else m.slotA
    slotB := if k = 0 then m.slotB else image
    pendingActive := if Config.imageVerifies image then some k else none })

/-! ## Identity, sensors, power (R417, R419, R420) -/

/-- Measurement 4: HOSTSEL, the LPDDR population and the carve-out counts. -/
def State.configMeasured (s : State) : List Nat := [s.mgmt.control, if s.mgmt.lpddr then 1 else 0] ++ s.carve

/-- SPDM_REQUEST, over DOE on either port or over the management port. -/
def execSpdmRequest (via : Party) (req : List Byte) (s : State) : Out :=
  let open_ := match via with
    | .management => true
    | .host p => s.hostUp p
  if open_ then
    let (n, s1) := s.draw
    .next { s1 with reply := Config.spdmAnswer n req (s.mgmt.slot s.mgmt.active) s.mgmt.minSvn s.configMeasured }
  else .next s

/-- SENSOR_READ: the reading as FP32. -/
def execSensorRead (sensor : Nat) (s : State) : Out :=
  let s1 := s.updMgmt fun m => { m with readings := m.readings + 1 }
  .next { s1 with reply := leBytes 4 (Config.sensorValue sensor s.mgmt.readings).toNat }

/-- POWER_CAP_SET: what it withholds shows only in time. -/
def execPowerCapSet (watts : Nat) (s : State) : Out := .next (s.updMgmt fun m => { m with powerCap := watts })

/-- WARNING_TEMPERATURE: a die crosses 95 °C; what is withheld shows only in time. -/
def execWarningTemperature (die : Nat) (up : Bool) (s : State) : Out :=
  if die ≥ Config.nDies then .next s
  else .next (s.updMgmt fun m => { m with hot := if up then m.hot.filter (· ≠ die) ++ [die] else m.hot.filter (· ≠ die) })

/-- An FP32 temperature of 105 °C or more. -/
def tooHot (celsius : Word) : Bool := decide (0x42D20000 ≤ celsius.toNat) && decide (celsius.toNat ≤ 0x7F800000)

/-- THERMAL: the event, the report, and the main side held in reset. -/
def execThermal (sensor : Nat) (celsius : Word) (s : State) : Out :=
  if !tooHot celsius then .next s
  else
    let (_, s1) := s.postEvent evThermal 0xFFFF 0xFFFF (BitVec.ofNat 64 sensor) (celsius.setWidth 64)
    .next (s1.enterReset.updMgmt fun m => { m with thermal := true, reports := m.reports ++ ["thermal"] })

/-! ## Links (R401, R402, R421, R422, R425) -/

/-- PORT_JOIN: a port trains while the main side runs; a device number in use on the fabric refuses it. -/
def execPortJoin (port : Nat) (duplicate : Bool) (s : State) : Out :=
  if port ≥ 16 ∨ s.mgmt.held then .next s
  else .next (s.updMgmt fun m => { m with
    ports := m.ports.set port (if duplicate then .refused else .joined)
    reports := if duplicate then m.reports ++ ["refused"] else m.reports })

/-- DEVNUM_SET: 0 to 1023, before the main side is released. -/
def execDevnumSet (n : Nat) (s : State) : Out :=
  if n < 1024 && s.mgmt.held then .next (s.updMgmt fun m => { m with devnum := n }) else .next s

/-- UALINK_PORT_DOWN: requests through it go unanswered. A refused port carries none, and stays refused: the device goes on as
a lone one (R422). -/
def execUalinkPortDown (port : Nat) (s : State) : Out :=
  if s.mgmt.ports[port]? = some LinkState.refused then .next s
  else .next (s.updMgmt fun m => { m with ports := m.ports.set port .down })

/-- PCIE_LINK_DOWN: the control role stays. -/
def execPcieLinkDown (port : Nat) (s : State) : Out :=
  .next (s.updMgmt fun m => { m with pcieUp := m.pcieUp.set port false })

end Sys2Proof.Machine
end

