-- ==== Sys2Proof/Machine/Paired.lean ====
section
/-! DEFINITION. Paired words (R84-R86). -/

namespace Sys2Proof.Machine

/-- What a slot's operation is: its operand form and its function (R86 Table 10). -/
structure SlotOp where
  sig : Sig
  fn : QWord → QWord → QWord → LaneRes

def natSlot (g : Sig) (fn : Nat → Nat → Nat → Nat) : SlotOp :=
  ⟨g, fun a b c => { val := BitVec.ofNat 128 (fn a.toNat b.toNat c.toNat) }⟩

/-- A typed integer operation with OP = OP7. -/
def typedSlot (f : Nat) (ty : IntTy) : Option SlotOp :=
  match f with
  | 0 => some (natSlot (typedSig ty) (fnAdd ty))
  | 1 => some (natSlot (typedSig ty) (fnSub ty))
  | 2 => some (natSlot (typedSig ty) (fnAdds ty))
  | 3 => some (natSlot (typedSig ty) (fnSubs ty))
  | 4 => some (natSlot (typedSig ty) (fnMul ty))
  | 5 => some (natSlot (typedSig ty) (fnMulhi ty))
  | 6 => some (natSlot (typedSig3 ty) (fnMad ty))
  | 7 => some (natSlot (typedSig ty) (fnMin ty))
  | 8 => some (natSlot (typedSig ty) (fnMax ty))
  | 9 => some (natSlot (typedSig ty) (fnCmpeq ty))
  | 10 => some (natSlot (typedSig ty) (fnCmplt ty))
  | 11 => some (natSlot (typedSig ty) (fnCmple ty))
  | _ => none

def fpSlotTy (n : Nat) : FpTy := if n = 0 then .f32 else if n = 1 then .f16x2 else .bf16x2

/-- The operation of an OP7 code; none for a reserved one. -/
def slotOp (op7 : BitVec 7) : Option SlotOp :=
  let k := op7.toNat
  if k < 0x60 then
    if k % 8 < 6 then (IntTy.ofCode (k % 8)).bind (typedSlot (k / 8)) else none
  else match k with
  | 0x60 => some (natSlot sigAB32 fnAndB32)
  | 0x61 => some (natSlot sigAB32 fnOrB32)
  | 0x62 => some (natSlot sigAB32 fnXorB32)
  | 0x63 => some (natSlot sigAB32 fnAndnB32)
  | 0x64 => some (natSlot sigAB32 fnShlB32)
  | 0x65 => some (natSlot sigAB32 fnShrN32)
  | 0x66 => some (natSlot sigAB32 fnShrS32)
  | 0x67 => some (natSlot sigABC32 fnSelB32)
  | 0x68 => some (natSlot { dst := .w32, b := .b32 } fnMovB32)
  | 0x78 => some ⟨fpSig2 .f32, fpEach .f32 (elCmp fp32 fpEq)⟩
  | 0x79 => some ⟨fpSig2 .f32, fpEach .f32 (elCmp fp32 fpLt)⟩
  | 0x7A => some ⟨fpSig2 .f32, fpEach .f32 (elCmp fp32 fpLe)⟩
  | _ =>
    if 0x69 ≤ k ∧ k ≤ 0x77 then
      let ty := fpSlotTy ((k - 0x69) % 3)
      match (k - 0x69) / 3 with
      | 0 => some ⟨fpSig2 ty, fpEach ty (elAdd ty.fmt .rn)⟩
      | 1 => some ⟨fpSig2 ty, fpEach ty (elMul ty.fmt .rn)⟩
      | 2 => some ⟨fpSig3 ty, fpEach ty (elFma ty.fmt .rn)⟩
      | 3 => some ⟨fpSig2 ty, fpEach ty (elMinMax ty.fmt false)⟩
      | _ => some ⟨fpSig2 ty, fpEach ty (elMinMax ty.fmt true)⟩
    else none

def PairSlotFields (p : PairSlot) : Fields := { dst := p.dst, sa := p.sa, sb := p.sb, sc := p.sc, size := 12 }

/-- Distinct general registers a slot reads. -/
def slotReads (op : SlotOp) (p : PairSlot) : List Nat :=
  let r (q : Pos) (f : BitVec 10) : List Nat := if q ≠ .none ∧ f.toNat < 0x200 then [f.toNat] else []
  r op.sig.a p.sa ++ r op.sig.b p.sb ++ r op.sig.c p.sc

/-- Whether a slot's destination is a register or a discard, and names no queue (R85 items 2 and 5), and its unread
fields hold gz (R76). -/
def slotFieldsOk (op : SlotOp) (p : PairSlot) : Bool :=
  (p.dst.toNat ≤ 0x200) &&
    [(op.sig.a, p.sa), (op.sig.b, p.sb), (op.sig.c, p.sc)].all fun x => unreadOk x.1 x.2 0 && (queueField x.2).isNone

/-- The checks of R85 on a word outside a DRV block. -/
def pairOk (o0 o1 : SlotOp) (p : PairWord) : Bool :=
  let d0 := p.s0.dst.toNat
  let d1 := p.s1.dst.toNat
  let rs := (slotReads o0 p.s0 ++ slotReads o1 p.s1).eraseDups
  slotFieldsOk o0 p.s0 && slotFieldsOk o1 p.s1 &&
    !(d0 < 0x200 && d1 < 0x200 && d0 % 4 = d1 % 4) &&
    rs.length ≤ 4 && (List.range 4).all (fun b => (rs.filter fun r => r % 4 = b).length ≤ 2) &&
    !(d0 < 0x200 && (slotReads o1 p.s1).contains d0)

/-- The checks of a pair word in one lane: R85 before the operand checks, and of these slot 0's before slot 1's (DESIGN
CHOICE, assumption 53: R87 orders the fields of an instruction and not the slots of a word). -/
def State.pairFault (s : State) (c : Caravan) (a : Agent) (o0 o1 : SlotOp) (p : PairWord) : Option Trap :=
  if overruns c 12 || a.drover || !pairOk o0 o1 p then some { code := .illegalInstruction }
  else match s.checkOperands a o0.sig (PairSlotFields p.s0) with
    | some t => some t
    | none => s.checkOperands a o1.sig (PairSlotFields p.s1)

/-- A slot's result in a lane. -/
def State.slotResult (s : State) (a : Agent) (op : SlotOp) (p : PairSlot) : LaneRes :=
  op.fn (s.operand a op.sig.a p.sa 0 false 0) (s.operand a op.sig.b p.sb 0 false 0) (s.operand a op.sig.c p.sc 0 false 0)

/-- The issue of a pair word: both slots read before either writes, slot 0's result enters the latches first (R84). -/
def State.runPair (s00 : State) (ci : Nat) (o0 o1 : SlotOp) (p : PairWord) : State :=
  let c := s00.caravan ci
  let s := s00.begin ci
  let ms := s.laneMembers c
  let faults := (ms.filter (·.want)).filterMap fun m => (s.pairFault c (s.agent m.agent) o0 o1 p).map fun t => (m.agent, t)
  let bad := faults.map (·.1)
  let out := bad ++ s.quadMates c bad
  let s1 := (ms.filter fun m => !out.contains m.agent).foldl (fun t m => t.updAgent m.agent fun a =>
    -- a helper that would fault gets zero (R156)
    let ok := (s.pairFault c a o0 o1 p).isNone
    let r0 := if ok then s.slotResult a o0 p.s0 else {}
    let r1 := if ok then s.slotResult a o1 p.s1 else {}
    commitAgent m.want [(p.s0.dst, o0.sig.dst, r0.val), (p.s1.dst, o1.sig.dst, r1.val)] (r0.flags ||| r1.flags) a) s
  (s1.raise ci c 12 faults).goOn ci 12 none

/-- The two slots of a pair word, issued together (R84). -/
def execPairedWord (p : PairWord) (s : State) : Out :=
  match s.focus with
  | none => .fault .noIssuer
  | some ci =>
    match slotOp p.s0.op7, slotOp p.s1.op7 with
    | some o0, some o1 => .next (s.runPair ci o0 o1 p)
    | _, _ => .next (s.illegal ci 12)

end Sys2Proof.Machine
end

