-- ==== Sys2Proof/Machine/Raster.lean ====
section
/-! DEFINITION. The raster node after its start: binning and parameter lists, tile ownership and the phases of a render,
hidden surfaces, fragment launches, blending, partial flush (R350-R363, R433). -/

namespace Sys2Proof.Machine

def State.pass (s : State) (p : Nat) : Pass := s.passes.getD p {}
def State.updPass (s : State) (p : Nat) (f : Pass → Pass) : State := { s with passes := updAt s.passes p f }
def State.updRun (s : State) (p r : Nat) (f : TileRun → TileRun) : State :=
  s.updPass p fun q => { q with runs := updAt q.runs r f }

/-! ## Tiles and their order (R354) -/

def Pass.tx (q : Pass) : Nat := (q.width + 63) / 64
def Pass.ty (q : Pass) : Nat := (q.height + 63) / 64

/-- D(x, y) of the Hilbert curve, from s = 2^level down. -/
def hilbertAt (n : Nat) : Nat → Nat → Nat → Nat → Nat
  | 0, _, _, d => d
  | level + 1, x, y, d =>
    let s := 2 ^ level
    let rx := if bitAt x level then 1 else 0
    let ry := if bitAt y level then 1 else 0
    let d1 := d + s * s * ((3 * rx) ^^^ ry)
    if ry = 0 then
      if rx = 1 then hilbertAt n level (n - 1 - y) (n - 1 - x) d1 else hilbertAt n level y x d1
    else hilbertAt n level x y d1

/-- The least m with 2^m ≥ n. -/
def ceilLog2 (n : Nat) : Nat := if n ≤ 1 then 0 else Nat.log2 (n - 1) + 1

/-- Bits of x and y interleaved, x lowest. -/
def mortonOf (x y : Nat) : Nat :=
  (List.range 16).foldl (fun d i => d + (if bitAt x i then 4 ^ i else 0) + (if bitAt y i then 2 * 4 ^ i else 0)) 0

/-- Where tile (x, y) stands on the curve; smaller comes first. -/
def Pass.curveKey (q : Pass) (x y : Nat) : Nat :=
  match q.curve with
  | 0 => (x / q.stripe * 512 + y) * 512 + x
  | 1 => mortonOf x y
  | _ => let m := ceilLog2 (max q.tx q.ty)
    hilbertAt (2 ^ m) m x y 0

def insertByKey (k : Nat × Nat) : List (Nat × Nat) → List (Nat × Nat)
  | [] => [k]
  | j :: js => if k.1 ≤ j.1 then k :: j :: js else j :: insertByKey k js

/-- Tile indices in curve order. -/
def Pass.order (q : Pass) : List Nat :=
  let tiles := (List.range (q.tx * q.ty)).map fun i => (q.curveKey (i % q.tx) (i / q.tx), i)
  (tiles.foldr insertByKey []).map (·.2)

/-! ## Primitives (R352, R357) -/

/-- A triangle after the transform: screen positions in 1/256 pixel, depths and c3 as FP32 codes. -/
structure Prim where
  sx : List Int
  sy : List Int
  z : List Nat
  w : List Nat
  translucent : Bool := false
deriving DecidableEq, Repr, Inhabited

def Prim.x (p : Prim) (i : Nat) : Int := p.sx.getD i 0
def Prim.y (p : Prim) (i : Nat) : Int := p.sy.getD i 0

/-- Eij(x, y), the exact edge function. -/
def Prim.edge (p : Prim) (i j : Nat) (x y : Int) : Int :=
  (p.x j - p.x i) * (y - p.y i) - (p.y j - p.y i) * (x - p.x i)

def Prim.area (p : Prim) : Int := p.edge 0 1 (p.x 2) (p.y 2)

/-- c[i] of a vertex: an exact dot product and one rounding. -/
def Pass.clip (q : Pass) (v : List Nat) (i : Nat) : Nat :=
  let m (j : Nat) := v32 (q.field (4 * (4 * i + j)) 4)
  rne32 (FVal.sum .rn ((List.range 3).map (fun j => FVal.mul (m j) (v32 (v.getD j 0))) ++ [m 3]))

/-- EXACT(a × n × 128) to an integer, ties to even. -/
def screenOf (a : FVal) (n : Nat) : Int :=
  match FVal.mul a (fvalOfInt (128 * n : Nat)) with
  | .fin neg m e => (roundInt .rn neg m e).1
  | _ => 0

/-- The transform and the culling of a triangle; none where it is culled. -/
def Pass.transform (q : Pass) (vs : List (List Nat)) : Option Prim :=
  let cs := vs.map fun v => (List.range 4).map (q.clip v)
  let w := cs.map fun c => c.getD 3 0
  let div (k : Nat) := cs.map fun c => div32 (c.getD k 0) (c.getD 3 0)
  let xs := div 0
  let ys := div 1
  let zs := div 2
  let one := fvalOfInt 1
  let p : Prim := {
    sx := xs.map fun x => screenOf (FVal.sum .rn [v32 x, one]) q.width
    sy := ys.map fun y => screenOf (FVal.sum .rn [one, (v32 y).neg]) q.height
    z := zs, w := w }
  if w.any (fun c => le32 c 0) || !(xs ++ ys ++ zs).all fin32 || (p.sx ++ p.sy).any (fun v => decide (v.natAbs ≥ 2 ^ 24)) ||
      p.area = 0 || (q.cull = 1 && decide (p.area < 0)) || (q.cull = 2 && decide (p.area > 0)) then none
  else some p

/-- λk with the sign its exact quotient has, up to the common factor 1 / |A|. -/
def Prim.lambda (p : Prim) (k : Nat) (x y : Int) : FVal :=
  let e := p.edge ((k + 1) % 3) ((k + 2) % 3) x y
  .fin (decide (e < 0) != decide (p.area < 0)) e.natAbs 0

/-- z, b1, b2 at a pixel (R357). An infinite c3 makes its term an exact zero. -/
def Prim.bary (p : Prim) (px py : Nat) : Nat × Nat × Nat :=
  let x : Int := 256 * px + 128
  let y : Int := 256 * py + 128
  let l (k : Nat) := p.lambda k x y
  let z := FVal.div (FVal.sum .rn ((List.range 3).map fun k => FVal.mul (l k) (v32 (p.z.getD k 0)))) (fvalOfInt p.area.natAbs)
  let c (k : Nat) := v32 (p.w.getD k 0)
  let term (k : Nat) : FVal :=
    if (c k).isInf then .fin ((l k).sign != (c k).sign) 0 0
    else ((List.range 3).filter fun j => j ≠ k && !(c j).isInf).foldl (fun t j => FVal.mul t (c j)) (l k)
  let den := FVal.sum .rn ((List.range 3).map term)
  (rne32 z, rne32 (FVal.div (term 1) den), rne32 (FVal.div (term 2) den))

/-- An edge from i to j includes the points on it (R357). -/
def Prim.inclusive (p : Prim) (i j : Nat) : Bool :=
  let dx := p.x j - p.x i
  let dy := p.y j - p.y i
  decide (dy > 0) || (dy = 0 && decide (dx < 0))

/-- The pixel's centre is covered. -/
def Prim.covers (p : Prim) (px py : Nat) : Bool :=
  let x : Int := 256 * px + 128
  let y : Int := 256 * py + 128
  let o : List (Nat × Nat) := if p.area > 0 then [(0, 1), (1, 2), (2, 0)] else [(0, 2), (2, 1), (1, 0)]
  o.all fun e =>
    let v := p.edge e.1 e.2 x y
    decide (v > 0) || (v = 0 && p.inclusive e.1 e.2)

/-! ## Faults of the node (R433) -/

/-- A part of the node is stopped on a fault. -/
def Pass.halted (q : Pass) : Bool := q.stopped.isSome || q.runs.any fun r => r.stopped.isSome

/-- ENGINE_FAULT of a raster access: engine 3 for a save or reload, 4 for the rest. -/
def State.rasterFault (s : State) (ctx core : Nat) (f : AccessFault) (engine : Nat) : (BitVec 16 × DWord × DWord) × State :=
  let (h, s1) := s.engineFault ctx core f 0 engine
  ((f.code.code, BitVec.ofNat 64 f.va, h), s1)

def State.stopPass (s : State) (p : Nat) (f : AccessFault) : State :=
  let (x, s1) := s.rasterFault (s.pass p).ctx 0xFFFF f 4
  s1.updPass p fun q => { q with stopped := some x }

def State.stopRun (s : State) (p r : Nat) (f : AccessFault) (engine : Nat) : State :=
  let q := s.pass p
  let (x, s1) := s.rasterFault q.ctx (q.runs.getD r {}).core f engine
  s1.updRun p r fun t => { t with stopped := some x }

/-- The raster node of a pass runs: its walk is at it, and nothing of it is stopped. -/
def State.passRuns (s : State) (p : Nat) : Bool :=
  let q := s.pass p
  decide (p < s.passes.length) && !q.done && !q.halted && s.walkFree q.walk && (s.walkNo q.walk).state = .raster p

/-! ## Parameter lists (R353) -/

/-- An unsigned base-128 number, low seven bits first. -/
def base128 : Nat → Nat → List Byte
  | 0, _ => []
  | n + 1, v => if v < 128 then [BitVec.ofNat 8 v] else BitVec.ofNat 8 (v % 128 + 128) :: base128 n (v / 128)

/-- Body bytes of a page. -/
def pageBody : Nat := 4080

/-- A page with one entry. -/
def pageBytes (tile first : Nat) : List Byte :=
  leBytes 4 tile ++ leBytes 4 1 ++ leBytes 4 first ++ leBytes 4 0xFFFFFFFF ++ List.replicate pageBody 0

def Pass.listOf (q : Pass) (tile : Nat) : TileList := (q.lists.find? fun l => l.tile = tile).getD { tile := tile }

/-- A free page: the one named if it is free, else the lowest. -/
def Pass.freePage (q : Pass) (hint : Nat) : Option Nat :=
  if q.used.length ≥ q.npage then none
  else if hint < q.npage ∧ !q.used.contains hint then some hint
  else (List.range (q.used.length + 1)).find? fun i => !q.used.contains i

def Pass.putList (q : Pass) (l : TileList) : Pass := { q with lists := l :: q.lists.filter fun x => x.tile ≠ l.tile }

def Pass.rendering (q : Pass) (tile : Nat) : Bool :=
  (q.runs.any fun r => r.tile = tile && decide (r.phase < 7)) || q.partialsDue.any fun l => l.tile = tile

/-- Pages of detached lists that partial renders have still to free. -/
def Pass.selected (q : Pass) : Nat :=
  (q.partialsDue.foldl (fun n l => n + l.pages.length) 0) +
    (q.runs.foldl (fun n r => if r.isPartial && decide (r.phase < 7) then n + r.list.pages.length else n) 0)

/-- The list to flush: the most entries, the lowest tile on ties (R361). -/
def Pass.victim (q : Pass) : Option TileList :=
  (q.lists.filter fun l => l.count > 0 && !q.rendering l.tile).foldl (fun m l => match m with
    | none => some l
    | some k => if l.count > k.count || (l.count = k.count && l.tile < k.tile) then some l else some k) none

/-- Select lists until the free pages and those selected reach 2 × LOW; a tile in a render is passed over until it retires
(R361). -/
def Pass.flush : Nat → Pass → Pass
  | 0, q => q
  | n + 1, q =>
    if q.npage - q.used.length + q.selected ≥ 2 * q.low then { q with flushing := false }
    else match q.victim with
      | none => q
      | some l => Pass.flush n { q with
          lists := q.lists.filter fun x => x.tile ≠ l.tile
          partialsDue := q.partialsDue ++ [l], flushes := satInc q.flushes }

/-- Flushing goes on while binning runs. -/
def Pass.flushOn (q : Pass) : Pass := if q.flushing && !q.binned then q.flush (q.lists.length + 1) else q

def Pass.at_ (q : Pass) : EngineAt := { ctx := q.ctx, core := hubCore, block := 0, pos := 0 }

/-- Append primitive order `pr` to a tile's list; the answer says whether it was appended: with no page free the binner
waits. -/
def State.appendTile (s : State) (p tile pr hint : Nat) : Except AccessFault (Bool × State) :=
  let q := s.pass p
  let l := q.listOf tile
  let enc := base128 8 (pr - l.last)
  let va (i : Nat) := q.arena + 4096 * i
  let here := va (l.pages.getLastD 0)
  if l.count > 0 ∧ l.used + enc.length ≤ pageBody then do
    let s1 ← s.engineWrite q.ctx hubCore accWrite (here + 16 + l.used) enc
    let s2 ← s1.engineWrite q.ctx hubCore accWrite (here + 4) (leBytes 4 (l.inPage + 1))
    return (true, s2.updPass p fun q => (q.putList { l with
      count := l.count + 1, last := pr, inPage := l.inPage + 1, used := l.used + enc.length }).flushOn)
  else match q.freePage hint with
    | none => return (false, s)
    | some i => do
      let s1 ← s.engineWrite q.ctx hubCore accWrite (va i) (pageBytes tile pr)
      let s2 ← if l.count > 0 then s1.engineWrite q.ctx hubCore accWrite (here + 12) (leBytes 4 i) else pure s1
      return (true, s2.updPass p fun q =>
        let q1 := { q.putList { tile := tile, pages := l.pages ++ [i], count := l.count + 1, last := pr, inPage := 1, used := 0 } with
          used := i :: q.used }
        { q1 with flushing := q1.flushing || decide (q1.npage - q1.used.length < q1.low) }.flushOn)

/-- Append what is to do, tile by tile, while pages last. -/
def State.appendTodo (s : State) (p hint : Nat) : List (Nat × Nat) → State
  | [] => s
  | (tile, pr) :: rest => match s.appendTile p tile pr hint with
    | .error f => s.stopPass p f
    | .ok (false, s1) => s1
    | .ok (true, s1) => (s1.updPass p fun q => { q with todo := rest }).appendTodo p hint rest

/-- Tiles whose rectangle meets the closed box of a triangle, in index order (R353). -/
def Pass.tilesOf (q : Pass) (pr : Prim) : List Nat :=
  let lo (l : List Int) : Int := l.foldl min (l.headD 0)
  let hi (l : List Int) : Int := l.foldl max (l.headD 0)
  let range (l : List Int) (n : Nat) : List Nat :=
    let a := (lo l / 16384).toNat
    if hi l < 0 then [] else (List.range (min (n - 1) (hi l / 16384).toNat + 1)).filter (a ≤ ·)
  (range pr.sy q.ty).flatMap fun y => (range pr.sx q.tx).map fun x => y * q.tx + x

/-- Step past a triangle of a cluster of `ntri`. -/
def Pass.nextTri (q : Pass) (ntri : Nat) : Pass :=
  if q.tri + 1 < ntri then { q with tri := q.tri + 1 } else { q with recNo := q.recNo + 1, tri := 0 }

/-- Binning ends when every record is consumed and nothing waits for a page. -/
def Pass.settleBin (q : Pass) : Pass := { q with binned := decide (q.recNo ≥ q.ncut) && q.todo.isEmpty }

/-- BIN_TRIANGLE: the next triangle is decoded, transformed, culled or binned; `page` is the arena page the list engine
takes first (R352, R353, R361). -/
def execBinTriangle (p page : Nat) (s : State) : Out :=
  let q := s.pass p
  if !s.passRuns p ∨ q.binned then .next s
  else if q.todo ≠ [] then .next ((s.appendTodo p page q.todo).updPass p Pass.settleBin)
  else match s.readCluster q.at_ q.cuts q.graph q.recNo with
    | .error f => .next (s.stopPass p f)
    | .ok (s1, d) =>
      let s2 := match d.triangle q.tri with
        | none => s1.updPass p fun q => { q.nextTri d.rec_.ntri with badtri := satInc q.badtri }
        | some vs => match q.transform vs with
          | none => s1.updPass p fun q => { q.nextTri d.rec_.ntri with culled := satInc q.culled }
          | some pr =>
            let todo := (q.tilesOf pr).map fun t => (t, 128 * q.recNo + q.tri)
            (s1.updPass p fun q => { q.nextTri d.rec_.ntri with todo := todo }).appendTodo p page todo
      .next (s2.updPass p Pass.settleBin)

/-! ## Tile ownership (R355) -/

def State.tilesOwned (s : State) (core : Nat) : Nat :=
  s.passes.foldl (fun n q => n + (q.runs.filter fun r => r.core = core && decide (r.phase < 7)).length) 0

/-- The next render: a partial one that was selected, or once binning ended a final one in curve order. -/
def Pass.nextRender (q : Pass) : Option (TileRun × Pass) :=
  match q.partialsDue with
  | l :: ls => some ({ tile := l.tile, isPartial := true, list := l }, { q with partialsDue := ls })
  | [] =>
    if !q.binned then none
    else match q.order[q.finals]? with
      | none => none
      | some t =>
        if q.rendering t then none
        else some ({ tile := t, list := q.listOf t }, { q with finals := q.finals + 1, lists := q.lists.filter fun l => l.tile ≠ t })

/-- A core has room for one block of the launch record at `va`; a fragment block counts as one quad, its size being known
only later (DESIGN CHOICE, assumption 61). A record that cannot be read is judged when its phase launches it. -/
def State.phaseRoom (s : State) (q : Pass) (core : Nat) (frag : Bool) (va : Nat) : Bool :=
  match s.hubRead q.ctx va 128 with
  | .error _ => true
  | .ok (s1, raw) =>
    let l : Launch := {
      ctx := q.ctx, raw := raw, onCore := some core, tileSize := q.tsize, origin := .phase 0 0
      seed := if frag then .fragment (List.replicate 4 ⟨[], false⟩) else .tile 0 0 }
    match s1.launchVals l with
    | (_, true, v) => s.roomAt (l.fill v) ((l.fill v).sizeOf 0) 0 core
    | _ => true

/-- The launch records of the phases of a render, and whether each is a fragment launch (R356). -/
def Pass.phaseVas (q : Pass) (isPartial : Bool) : List (Bool × Nat) :=
  (true, q.lfrag) :: (if q.ltrans = 0 then [] else [(true, q.ltrans)]) ++
    if isPartial then [] else [(false, q.lshade), (false, q.lfinal)]

/-- TILE_ASSIGN: the next tile goes to a core with a free tile position and room for its segment and its phase blocks. -/
def execTileAssign (p core : Nat) (s : State) : Out :=
  let q := s.pass p
  if !s.passRuns p ∨ core ≥ Config.nCores ∨ s.tilesOwned core ≥ 2 then .next s
  else match q.nextRender with
    | none => .next s
    | some (r, q1) =>
      let (n, s0) := s.draw
      let s1 := s0.updPass p fun _ => { q1 with runs := q1.runs ++ [{ r with core := core, order := n }] }
      if s1.granuleLoad core > Config.granulesPerCore ∨ !(q.phaseVas r.isPartial).all (fun x => s1.phaseRoom q core x.1 x.2) then .next s
      else .next s1

/-- The rasteriser (phase 1) and the blender (phase 4) of a core take its tiles in the order of their assignment (R355). -/
def State.phaseTurn (s : State) (r : TileRun) : Bool :=
  let ahead (t : TileRun) : Bool := t.core = r.core && decide (t.order < r.order) && decide (t.phase < 7) &&
    decide (t.phase ≤ r.phase) && !(r.phase = 4 && t.isPartial)
  !(r.phase = 1 || r.phase = 4) || !s.passes.any fun q => q.runs.any ahead

/-! ## Load and save (R356, R362) -/

/-- An engine access to a compressed area. -/
def accPacked (wr : Bool) : Access := { rd := !wr, wr := wr, compressed := true }

/-- The segment of a tile that was never saved: zero, CLEARZ in the depth plane, order 0xFFFFFFFF. -/
def Pass.clearSegment (q : Pass) : Memory :=
  let z := BitVec.ofNat 32 q.clearz
  fillBytes (fillBytes [] q.doff 0x4000 fun i => (z >>> (8 * (i % 4))).setWidth 8) q.poff 0x4000 fun _ => 0xFF

def Pass.chunks (q : Pass) : Nat := q.capsz / 256
def Pass.chunkHdr (q : Pass) (tile c : Nat) : Nat := q.caphdr + 4 * (tile * q.chunks + c)
def Pass.chunkVa (q : Pass) (tile c : Nat) : Nat := q.capbase + tile * q.capsz + 256 * c

/-- Reload the saved region chunk by chunk; a failed chunk reads as zeros and counts as dropped data (R362, R384). -/
def State.reload (s : State) (q : Pass) (tile core : Nat) : Except AccessFault (State × Memory) :=
  (List.range q.chunks).foldl (fun acc c => acc.bind fun (t, m) => do
    let (t1, hb) ← t.engineRead q.ctx core (accPacked false) (q.chunkHdr tile c) 4
    let h := leNat hb
    if !plenOk (bitsAt h 30 2) (bitsAt h 21 9) then
      return (t1.updCtx q.ctx fun k => { k with dropcnt := satInc k.dropcnt }, m)
    let (t2, pb) ← t1.engineRead q.ctx core (accPacked false) (q.chunkVa tile c) (bitsAt h 21 9)
    match chunkDecode h pb with
    | none => return (t2.updCtx q.ctx fun k => { k with dropcnt := satInc k.dropcnt }, m)
    | some bs => return (t2, fillBytes m (256 * c) 256 fun i => bs.getD i 0)) (.ok (s, []))

/-- The writes of a save of [0, CAPSZ), in order: of each chunk its payload, padded with zeros to a multiple of 16 bytes, then
its header (R284, R362). -/
def Pass.saveWrites (q : Pass) (tile : Nat) (seg : Memory) : List (Nat × List Byte) :=
  (List.range q.chunks).flatMap fun c =>
    let b := readBytes seg (256 * c) 256
    let (cf, pay) := chunkEncode b
    [(q.chunkVa tile c, pay ++ List.replicate ((16 - pay.length % 16) % 16) 0),
     (q.chunkHdr tile c, leBytes 4 (chunkHeader cf pay.length (chunkCheck b)))]

/-- Make writes until one faults: how many were made, and the fault. -/
def State.saveChunks (s : State) (ctx core : Nat) : List (Nat × List Byte) → State × Nat × Option AccessFault
  | [] => (s, 0, none)
  | (va, bs) :: ws => match s.engineWrite ctx core (accPacked true) va bs with
    | .error f => (s, 0, some f)
    | .ok t => let r := t.saveChunks ctx core ws; (r.1, r.2.1 + 1, r.2.2)

/-! ## Raster phase (R357, R358) -/

/-- The entries of a page. -/
def pageEntries : Nat → Nat → List Byte → List Nat
  | 0, _, _ => []
  | n + 1, v, bs =>
    let run := bs.takeWhile fun b => decide (b.toNat ≥ 128)
    let d := ((run ++ (bs.drop run.length).take 1).zipIdx.foldl (fun t b => t + b.1.toNat % 128 * 2 ^ (7 * b.2)) 0)
    (v + d) :: pageEntries n (v + d) (bs.drop (run.length + 1))

/-- Read a list back from the arena, page by page. -/
def State.readList (s : State) (q : Pass) (core : Nat) : Nat → Nat → Except AccessFault (State × (List Nat))
  | 0, _ => .ok (s, [])
  | n + 1, i => do
    let (s1, bs) ← s.engineRead q.ctx core accRead (q.arena + 4096 * i) 4096
    let first := fieldAt bs 8 4
    let (s2, rest) ← s1.readList q core n (fieldAt bs 12 4)
    return (s2, first :: pageEntries (fieldAt bs 4 4 - 1) first (bs.drop 16) ++ rest)

/-- Primitive `pr` of a pass, decoded again, with the class of its group. -/
def State.readPrim (s : State) (q : Pass) (core pr : Nat) : Except AccessFault (State × (Option Prim)) := do
  let (s1, d) ← s.readCluster { ctx := q.ctx, core := core, block := 0, pos := 0 } q.cuts q.graph (pr / 128)
  match (d.triangle (pr % 128)).bind q.transform with
  | none => return (s1, none)
  | some p =>
    if q.tmap = 0 then return (s1, some p)
    else
      let (s2, b) ← s1.engineRead q.ctx core accRead (q.tmap + d.group / 8) 1
      return (s2, some { p with translucent := bitAt (leNat b) (d.group % 8) })

/-- (z, P) beats (D, O); zeros compare equal, a NaN beats nothing. -/
def beats (z p d o : Nat) : Bool := lt32 z d || (le32 z d && le32 d z && decide (p < o))

/-- What the raster phase works on; `wrote` are the ranges of the segment it has written. -/
structure RasterAcc where
  seg : Memory
  wrote : List (Nat × Nat)
  changed : List Nat
  unshaded : List (Nat × Nat)
  ldrop : Word
deriving DecidableEq, Repr, Inhabited

def seg32 (m : Memory) (a : Nat) : Nat := leNat (readBytes m a 4)

/-- Layers of pixel k: (z, P, colour bytes). -/
def Pass.layers (q : Pass) (m : Memory) (k : Nat) : List (List Byte) :=
  (List.range (min (readByte m (q.loff + 0x80000 + k)).toNat 8)).map fun j => readBytes m (q.loff + 128 * k + 16 * j) 16

/-- The bytes of the segment that hold a pixel's depth and order, and its layers and their count. -/
def Pass.depthBytes (q : Pass) (k : Nat) : List (Nat × Nat) := [(q.doff + 4 * k, 4), (q.poff + 4 * k, 4)]
def Pass.layerBytes (q : Pass) (k : Nat) : List (Nat × Nat) := [(q.loff + 128 * k, 128), (q.loff + 0x80000 + k, 1)]

/-- Set the layers of a pixel that had `n`; the slots that become vacant hold zeros (DESIGN CHOICE, assumption 61). -/
def Pass.setLayers (q : Pass) (m : Memory) (k n : Nat) (ls : List (List Byte)) : Memory :=
  let m1 := ls.zipIdx.foldl (fun m l => writeBytes m (q.loff + 128 * k + 16 * l.2) l.1) m
  let m2 := (List.range (n - ls.length)).foldl (fun m i => writeBytes m (q.loff + 128 * k + 16 * (ls.length + i)) (List.replicate 16 0)) m1
  writeByte m2 (q.loff + 0x80000 + k) (BitVec.ofNat 8 ls.length)

/-- Apply one covered pixel of primitive `p` (R358). -/
def Pass.fragment (q : Pass) (k z p : Nat) (translucent : Bool) (a : RasterAcc) : RasterAcc :=
  if !beats z p (seg32 a.seg (q.doff + 4 * k)) (seg32 a.seg (q.poff + 4 * k)) then a
  else
    let ls := q.layers a.seg k
    if translucent then
      if ls.length ≥ 8 then { a with ldrop := satInc a.ldrop }
      else { a with
        seg := q.setLayers a.seg k ls.length (ls ++ [leBytes 4 z ++ leBytes 4 p ++ leBytes 8 0])
        wrote := q.layerBytes k ++ a.wrote
        unshaded := (k, p) :: a.unshaded }
    else
      let keep := ls.filter fun l => !beats z p (fieldAt l 0 4) (fieldAt l 4 4)
      let gone := (ls.filter fun l => beats z p (fieldAt l 0 4) (fieldAt l 4 4)).map fun l => fieldAt l 4 4
      let m1 := writeBytes (writeBytes a.seg (q.doff + 4 * k) (leBytes 4 z)) (q.poff + 4 * k) (leBytes 4 p)
      { a with
        seg := if gone = [] then m1 else q.setLayers m1 k ls.length keep
        wrote := q.depthBytes k ++ (if gone = [] then [] else q.layerBytes k) ++ a.wrote
        changed := if a.changed.contains k then a.changed else k :: a.changed
        unshaded := a.unshaded.filter fun u => !(u.1 = k && gone.contains u.2) }

/-- The pixels of a tile that a primitive covers, in (y, x) order. -/
def Pass.covered (q : Pass) (tile : Nat) (pr : Prim) : List Nat :=
  let x0 := 64 * (tile % q.tx)
  let y0 := 64 * (tile / q.tx)
  (List.range 4096).filter fun k =>
    decide (x0 + k % 64 < q.width) && decide (y0 + k / 64 < q.height) && pr.covers (x0 + k % 64) (y0 + k / 64)

/-- Apply primitive `p` to the pixels of a tile that it covers. -/
def Pass.rasterise (q : Pass) (tile : Nat) (x : Nat × Prim) (a : RasterAcc) : RasterAcc :=
  (q.covered tile x.2).foldl (fun a k =>
    q.fragment k (x.2.bary (64 * (tile % q.tx) + k % 64) (64 * (tile / q.tx) + k / 64)).1 x.1 x.2.translucent a) a

/-- The primitives of a list that can be decoded, in its order. -/
def State.readPrims (s : State) (q : Pass) (core : Nat) : List Nat → Except AccessFault (State × List (Nat × Prim))
  | [] => .ok (s, [])
  | p :: ps => do
    let (s1, o) ← s.readPrim q core p
    let (s2, rest) ← s1.readPrims q core ps
    return (s2, (o.map fun pr => (p, pr)).toList ++ rest)

/-! ### The raster unit's accesses to a segment (R208, R386) -/

/-- Errors met by the raster unit's reads of some ranges of a run's segment. -/
def State.meetSegment (s : State) (p r : Nat) (ranges : List (Nat × Nat)) : State :=
  if s.latent.isEmpty then s
  else
    let q := s.pass p
    let core := (q.runs.getD r {}).core
    let base := s.segmentAddr p r
    ranges.foldl (fun t x => t.meetTileAt (some q.ctx) core base x.1 x.2 fun u o =>
      u.updRun p r fun z => { z with seg := writeBytes z.seg o (List.replicate 32 0) }) s

/-- The raster unit has written some ranges of a run's segment, whose errors it has met or whose sectors it covers whole: they
have fresh codes, and injections fire. -/
def State.wroteSegment (s : State) (p r : Nat) (ranges : List (Nat × Nat)) : State :=
  if s.latent.isEmpty && s.logs.isEmpty then s
  else
    let core := ((s.pass p).runs.getD r {}).core
    let base := s.segmentAddr p r
    let hit (l : Latent) : Bool := l.arr = .tile core && ranges.any fun x =>
      (sectorsOf x.1 x.2).any fun o => base + o = l.loc
    ranges.foldl (fun t x => t.fireTile core base x.1 x.2) { s with latent := s.latent.filter fun l => !hit l }

/-! ## Fragment launches (R359) -/

def insertNat (n : Nat) : List Nat → List Nat
  | [] => [n]
  | m :: ms => if n ≤ m then n :: m :: ms else m :: insertNat n ms

/-- Rising, each once. -/
def sortNats (l : List Nat) : List Nat := (l.eraseDups).foldr insertNat []

/-- The four threads of the quad at (qx, qy) of a tile, for the pixels `ks` of a primitive. -/
def Pass.quadThreads (q : Pass) (seg : Memory) (tile p : Nat) (pr : Prim) (layer : Bool) (ks : List Nat) (quad : Nat) : List FragThread :=
  (List.range 4).map fun i =>
    let lx := 2 * (quad % 32) + i % 2
    let ly := 2 * (quad / 32) + i / 2
    let k := 64 * ly + lx
    let px := 64 * (tile % q.tx) + lx
    let py := 64 * (tile / q.tx) + ly
    let (z, b1, b2) := pr.bary px py
    let j := if ks.contains k then ((q.layers seg k).findIdx? fun l => fieldAt l 4 4 = p).getD 0 else 0
    let g5 := if layer then q.loff + 128 * k + 16 * j + 8 else k
    { regs := [p, px + py * 65536, b1, b2, z, g5, tile].map (BitVec.ofNat 32), dead := !ks.contains k }

/-- Threads of a fragment launch: primitives rising, then quads in (y, x) order. -/
def State.fragThreads (s : State) (q : Pass) (seg : Memory) (tile core : Nat) (layer : Bool) (ps : List (Nat × Nat)) :
    List Nat → Except AccessFault (State × (List FragThread))
  | [] => .ok (s, [])
  | p :: rest => do
    let (s1, o) ← s.readPrim q core p
    let ks := (ps.filter fun x => x.2 = p).map (·.1)
    let quads := sortNats (ks.map fun k => k / 128 * 32 + k % 64 / 2)
    let here := match o with
      | some pr => quads.flatMap (q.quadThreads seg tile p pr layer ks)
      | none => []
    let (s2, more) ← s1.fragThreads q seg tile core layer ps rest
    return (s2, here ++ more)

/-- A launch of a phase of run `r` on the core that owns the tile (R351, R356). -/
def State.phaseLaunch (s : State) (p r va : Nat) (seed : Seed) : State :=
  let q := s.pass p
  let root := s.launch (s.walkNo q.walk).launch
  let (li, s1) := s.newLaunch {
    ctx := q.ctx, queue := root.queue, index := root.index, origin := .phase p r, seed := seed
    onCore := some (q.runs.getD r {}).core, tileSize := q.tsize }
  let s2 := s1.updRun p r fun t => { t with busy := li :: t.busy }
  if va % 64 ≠ 0 then s2.refuseLaunch li 0x10 else s2.beginLaunch li va

/-- The fragment phase: LFRAG over the changed winners, LTRANS over the unshaded layers; all then count as shaded. -/
def State.fragmentPhase (s : State) (p r : Nat) : Except AccessFault State := do
  let q := s.pass p
  let t0 := q.runs.getD r {}
  let s0 := s.meetSegment p r (t0.changed.flatMap q.depthBytes ++ t0.unshaded.flatMap fun u => q.layerBytes u.1)
  let t := (s0.pass p).runs.getD r {}
  let wins := t.changed.map fun k => (k, seg32 t.seg (q.poff + 4 * k))
  let (s1, fs) ← s0.fragThreads q t.seg t.tile t.core false wins (sortNats (wins.map (·.2)))
  let lays := if q.ltrans = 0 then [] else t.unshaded
  let (s2, ls) ← s1.fragThreads q t.seg t.tile t.core true lays (sortNats (lays.map (·.2)))
  let s3 := s2.updRun p r fun t => { t with changed := [], unshaded := [] }
  let s4 := if fs = [] then s3 else s3.phaseLaunch p r q.lfrag (.fragment fs)
  return if ls = [] then s4 else s4.phaseLaunch p r q.ltrans (.fragment ls)

/-! ## Blending (R360) -/

def insertLayer (l : List Byte) : List (List Byte) → List (List Byte)
  | [] => [l]
  | m :: ms => if fieldAt l 4 4 ≤ fieldAt m 4 4 then l :: m :: ms else m :: insertLayer l ms

/-- One layer over a colour of four FP32 codes. -/
def blendOver (l : List Byte) (c : List Nat) : List Nat :=
  let ch (i : Nat) := decodeFp fp16 (fieldAt l (8 + 2 * i) 2)
  let k := v32 (rne32 (FVal.sum .rn [fvalOfInt 1, (ch 3).neg]))
  (List.range 4).map fun i => rne32 (FVal.sum .rn [ch i, FVal.mul k (v32 (c.getD i 0))])

/-- The pixels that have layers. -/
def Pass.layered (q : Pass) (seg : Memory) : List Nat := (List.range 4096).filter fun k => q.layers seg k ≠ []

def Pass.blend (q : Pass) (seg : Memory) : Memory :=
  (List.range 4096).foldl (fun m k =>
    match q.layers m k with
    | [] => m
    | ls =>
      let a := q.coff + 16 * k
      let c := (ls.foldr insertLayer []).foldl (fun c l => blendOver l c) ((List.range 4).map fun i => seg32 m (a + 4 * i))
      writeBytes m a (c.flatMap (leBytes 4))) seg

/-! ## The phases of a render (R356) -/

/-- A tile retires from a render: its segment and the pages of the list it consumed are free (R355). -/
def State.retireTile (s : State) (p r : Nat) : State :=
  let t := (s.pass p).runs.getD r {}
  let s1 := s.updPass p fun q => { q with
    used := q.used.filter fun i => !t.list.pages.contains i
    saved := if t.isPartial then t.tile :: q.saved else q.saved }
  (s1.updRun p r fun t => { t with phase := 7, seg := [], busy := [] }).updPass p Pass.flushOn

/-- Phase 0. -/
def State.loadPhase (s : State) (p r : Nat) : State :=
  let q := s.pass p
  let t := q.runs.getD r {}
  if q.saved.contains t.tile then
    match s.reload q t.tile t.core with
    | .error f => s.stopRun p r f 3
    | .ok (s1, m) => (s1.updRun p r fun t => { t with seg := m, phase := 1 }).wroteSegment p r [(0, q.tsize)]
  else (s.updRun p r fun t => { t with seg := q.clearSegment, phase := 1 }).wroteSegment p r [(0, q.tsize)]

/-- Phase 1. -/
def State.rasterPhase (s : State) (p r : Nat) : State :=
  let q := s.pass p
  let t := q.runs.getD r {}
  match (do
    let (s1, ps) ← s.readList q t.core t.list.pages.length (t.list.pages.headD 0)
    s1.readPrims q t.core ps : Except AccessFault (State × List (Nat × Prim))) with
  | .error f => s.stopRun p r f 4
  | .ok (s1, prims) =>
    let s2 := s1.meetSegment p r (prims.flatMap fun x => (q.covered t.tile x.2).flatMap fun k => q.depthBytes k ++ q.layerBytes k)
    let u := (s2.pass p).runs.getD r {}
    let a := prims.foldl (fun a x => q.rasterise t.tile x a) ⟨u.seg, [], u.changed, u.unshaded, q.ldrop⟩
    ((s2.updRun p r fun t => { t with seg := a.seg, changed := a.changed, unshaded := a.unshaded, phase := 2 }).wroteSegment p r
      a.wrote).updPass p fun q => { q with ldrop := a.ldrop }

/-- Phase 4: the pixels with layers are blended (R360). -/
def State.blendPhase (s : State) (p r : Nat) : State :=
  let q := s.pass p
  let colour (k : Nat) : Nat × Nat := (q.coff + 16 * k, 16)
  let s1 := s.meetSegment p r [(q.loff + 0x80000, 4096)]
  let ks := q.layered ((s1.pass p).runs.getD r {}).seg
  let s2 := s1.meetSegment p r (ks.flatMap fun k => colour k :: q.layerBytes k)
  (s2.updRun p r fun t => { t with seg := q.blend t.seg, phase := 5 }).wroteSegment p r (ks.map colour)

/-- Start the phase run `r` has come to. -/
def State.startPhase (s : State) (p r : Nat) : State :=
  let q := s.pass p
  let t := q.runs.getD r {}
  let g1 := BitVec.ofNat 32 (64 * (t.tile % q.tx) + 64 * (t.tile / q.tx) * 65536)
  let next (n : Nat) (u : State) : State := u.updRun p r fun t => { t with phase := n }
  match t.phase with
  | 0 => s.loadPhase p r
  | 1 => s.rasterPhase p r
  | 2 => match s.fragmentPhase p r with
    | .error f => s.stopRun p r f 4
    | .ok s1 => next (if t.isPartial then 6 else 3) s1
  | 3 => next 4 (s.phaseLaunch p r q.lshade (.tile (BitVec.ofNat 32 t.tile) g1))
  | 4 => s.blendPhase p r
  | 5 => next 6 (s.phaseLaunch p r q.lfinal (.tile (BitVec.ofNat 32 t.tile) g1))
  | 6 =>
    if t.isPartial then
      let s0 := s.meetSegment p r [(0, q.capsz)]
      match s0.saveChunks q.ctx t.core ((q.saveWrites t.tile ((s0.pass p).runs.getD r {}).seg).drop t.saveAt) with
      | (s1, n, some f) => (s1.updRun p r fun t => { t with saveAt := t.saveAt + n }).stopRun p r f 3
      | (s1, _, none) => s1.retireTile p r
    else s.retireTile p r
  | _ => s

/-- RENDER_PHASE_START: once the launches of the phase before are done, the tile's next phase. -/
def execRenderPhaseStart (p tile : Nat) (s : State) : Out :=
  let q := s.pass p
  match (List.range q.runs.length).find? fun r => (q.runs.getD r {}).tile = tile && (q.runs.getD r {}).phase ≠ 7 with
  | none => .next s
  | some r =>
    let t := q.runs.getD r {}
    if !s.passRuns p ∨ !t.busy.all (fun li => (s.launch li).state = .done && (s.launch li).status = 0) ∨ !s.phaseTurn t then .next s
    else .next ((s.updRun p r fun t => { t with busy := [] }).startPhase p r)

/-- The four counts of a pass (R350). -/
def Pass.counts (q : Pass) : List Byte :=
  leBytes 4 q.flushes.toNat ++ leBytes 4 q.culled.toNat ++ leBytes 4 q.badtri.toNat ++ leBytes 4 q.ldrop.toNat

/-- RASTER_NODE_COMPLETE: every tile has retired from its final render; the counts are written. -/
def execRasterNodeComplete (p : Nat) (s : State) : Out :=
  let q := s.pass p
  if !s.passRuns p ∨ !q.binned ∨ q.finals < q.tx * q.ty ∨ q.partialsDue ≠ [] ∨ !q.runs.all (fun r => r.phase = 7) then .next s
  else match s.engineWrite q.ctx hubCore accWrite (q.descVa.toNat + 0xC0) q.counts with
    | .error f => .next (s.stopPass p f)
    | .ok s1 => .next (s1.updPass p fun q => { q with done := true })

end Sys2Proof.Machine
end

