-- ==== Sys2Proof/Machine/Sched.lean ====
section
/-! DEFINITION. Forming caravans, filling issue positions, swap-out, aging, and queue waits (R81, R142-R155, R159, R289,
R291). -/

namespace Sys2Proof.Machine

/-! ## After a yield (R153) -/

/-- The instruction before `pc` in a block, found from its start. -/
def State.instrBefore (s : State) (ctx : Nat) (pc : Word) : Nat → Word → Option Instr
  | 0, _ => none
  | n + 1, at_ =>
    let ps := s.parcels ctx at_.toNat 4
    let nxt := at_ + BitVec.ofNat 32 (sizeOfParcels ps)
    if nxt = pc then
      match decode ps with
      | .ok (i, _) => some i
      | .error _ => none
    else if nxt.toNat > pc.toNat then none
    else s.instrBefore ctx pc n nxt

/-- The caravan stands right after a yield (R153). -/
def State.yielded (s : State) (ci : Nat) : Bool :=
  let c := s.caravan ci
  match s.instrBefore (s.block c.block).ctx c.pc 1024 (c.hdr + 8) with
  | some (.yield _) => true
  | _ => false

/-! ## Candidates (R145-R148, R155) -/

/-- What may take a position. -/
inductive Choice where
  | caravan (ci : Nat)
  /-- Threads of a block at a header on one position of its core list; `half` under legacy width (R159). -/
  | threads (b p : Nat) (h : Word) (half : Option Nat)
  /-- Locked quads whose quad PC is the header. -/
  | quads (b p : Nat) (h : Word) (half : Option Nat)
deriving DecidableEq, Repr, Inhabited

/-- A candidate with what Table 2 of R148 compares. -/
structure Candidate where
  aged : Bool
  age : Nat
  header : Nat
  time : Nat
  bidx : Nat
  partner : Nat
  isHeader : Bool
  what : Choice
deriving DecidableEq, Repr, Inhabited

/-- `a` comes before `b` (Table 2). -/
def Candidate.before (a b : Candidate) : Bool :=
  if a.aged != b.aged then a.aged
  else if a.aged && a.age ≠ b.age then decide (a.age > b.age)
  else if a.header ≠ b.header then decide (a.header < b.header)
  else if a.time ≠ b.time then decide (a.time < b.time)
  else if a.bidx ≠ b.bidx then decide (a.bidx < b.bidx)
  else if a.partner ≠ b.partner then decide (a.partner < b.partner)
  else !a.isHeader && b.isHeader

def State.now (s : State) (core : Nat) : Nat := (s.core core).cycle.toNat

/-- No member waits. -/
def State.ready (s : State) (c : Caravan) : Bool := c.members.all fun m => (s.agent m.agent).wait = .ready

/-- The caravan has aged: it was found so, or has been ready that long since it last issued (R147). -/
def State.caravanAged (s : State) (c : Caravan) : Bool :=
  c.aged || (s.ready c && decide (s.now c.core - c.since ≥ (s.ctx (s.block c.block).ctx).ageLimit))

def State.caravanCand (s : State) (ci : Nat) : Candidate :=
  let c := s.caravan ci
  let k := s.block c.block
  { aged := s.caravanAged c, age := s.now c.core - c.since, header := c.hdr.toNat, time := c.formed
    bidx := k.bidx, partner := k.partner, isHeader := false, what := .caravan ci }

/-- Threads of a block at a position of its core list. -/
def State.threadsHere (s : State) (b p : Nat) : List Nat := s.agentsWhere fun a => a.block = b && !a.drover && a.pos = p

/-- Threads that wait at their headers and no record holds. -/
def State.waiters (s : State) (b p : Nat) : List Nat :=
  (s.threadsHere b p).filter fun i => (s.agent i).stand = .header && !s.isHeld i

/-- Locked quads of a block here that are between blocks and no record holds, with their quad PCs. -/
def State.idleQuads (s : State) (b p : Nat) : List (Nat × Word) :=
  (s.block b).quads.filterMap fun q =>
    let ts := s.threadsOfQuad b q
    if ts.any fun i => (s.agent i).pos = p then
      match s.quadPc b q with
      | some h => if s.quadHeld b p q h || ts.any (fun i => (s.agent i).standsAt h && s.isHeld i) then none else some (q, h)
      | none => none
    else none

/-- Header offsets at which threads of the block wait, or that a caravan of it executes (R145). A quad that a fault holds
counts at none (DESIGN CHOICE, assumption 52: R145 and R381 do not say). -/
def State.frontier (s : State) (b p core : Nat) : List Nat :=
  ((s.waiters b p).map fun i => (s.agent i).pc.toNat) ++
    (((s.threadsHere b p).filter fun i => (s.agent i).stand = .quad && !s.isHeld i).map fun i => (s.agent i).pc.toNat) ++
    ((s.idleQuads b p).map fun x => x.2.toNat) ++
    (s.caravans.filter fun c => c.block = b && c.core = core && c.place ≠ .dissolved && c.place ≠ .drover).map fun c => c.hdr.toNat

def minNat (d : Nat) : List Nat → Nat
  | [] => d
  | x :: xs => xs.foldl min x

/-- Halves that form apart (R159). -/
def halvesOf (l : Launch) : List (Option Nat) := if l.legacy then [some 0, some 1] else [none]
def inHalf (half : Option Nat) (lane : Nat) : Bool := match half with | some k => lane / 16 = k | none => true

/-- The quad's arrival: that of its earliest thread. -/
def State.quadSince (s : State) (b q : Nat) : Nat :=
  minNat 0 (((s.threadsOfQuad b q).filter fun i => (s.agent i).stand = .locked).map fun i => (s.agent i).since)

/-- The formable headers of a block on one of its cores. Under legacy width each half has an age and an arrival time of its
own (DESIGN CHOICE, assumption 35: R159 applies R143 to each half and does not speak of R147 and R148). -/
def State.headerCands (s : State) (b p core : Nat) : List Candidate :=
  let k := s.block b
  let low := s.frontier b p core
  let limit := (s.ctx k.ctx).ageLimit
  let now := s.now core
  let mk (h : Word) (time : Nat) (what : Choice) : Option Candidate :=
    let age := now - time
    let aged := decide (age ≥ limit)
    if aged || low.all (fun x => decide (h.toNat ≤ x)) then
      some { aged := aged, age := age, header := h.toNat, time := time, bidx := k.bidx, partner := k.partner, isHeader := true, what := what }
    else none
  let ws := s.waiters b p
  let qs := s.idleQuads b p
  (halvesOf (s.launch k.launch)).flatMap fun half =>
    let here := ws.filter fun i => inHalf half (s.agent i).lane
    let quads := qs.filter fun x => inHalf half (laneOfThread (4 * x.1))
    ((here.map fun i => (s.agent i).pc).eraseDups.filterMap fun h =>
      mk h (minNat now ((here.filter fun i => (s.agent i).pc = h).map fun i => (s.agent i).since)) (.threads b p h half)) ++
    ((quads.map (·.2)).eraseDups.filterMap fun h =>
      mk h (minNat now ((quads.filter fun x => x.2 = h).map fun x => s.quadSince b x.1)) (.quads b p h half))

/-- Every candidate for a free position of a core (R151). -/
def State.candidates (s : State) (core : Nat) : List Candidate :=
  ((List.range s.caravans.length).filterMap fun ci =>
    let c := s.caravan ci
    if c.core = core && c.place = .pending && !c.members.isEmpty &&
        ((s.block c.block).state = .resident || ((s.block c.block).state = .saving && s.latchHeld ci)) then some (s.caravanCand ci) else none) ++
  (s.onCore core).flatMap fun x => if (s.block x.1).state = .resident then s.headerCands x.1 x.2 core else []

def firstCand (cs : List Candidate) : Option Candidate :=
  cs.foldl (fun m c => match m with | none => some c | some k => if c.before k then some c else some k) none

/-! ## Formation (R143, R155) -/

/-- The earliest of some agents: least arrival, then least THREAD (R142). -/
def State.earliest (s : State) (is_ : List Nat) : Option Nat :=
  is_.foldl (fun m i => match m with
    | none => some i
    | some j =>
      let a := s.agent i
      let b := s.agent j
      if a.since < b.since || (a.since = b.since && a.tidx < b.tidx) then some i else some j) none

/-- A caravan of one thread per lane, the earliest at the header. -/
def State.formThreads (s : State) (b p : Nat) (h : Word) (half : Option Nat) (place : Place) : State :=
  let here := (s.waiters b p).filter fun i => (s.agent i).pc = h && inHalf half (s.agent i).lane
  let ms := (List.range 32).filterMap fun lane => (s.earliest (here.filter fun i => (s.agent i).lane = lane)).map fun i => (⟨i, true⟩ : Member)
  let n := s.caravans.length
  (s.caravanFor b ((s.block b).share p).core h (h + 8) ms [] place).updCaravan n fun c => { c with qlock := false }

/-- The quad that comes first of some. -/
def State.earliestQuad (s : State) (b : Nat) (qs : List Nat) : Option Nat :=
  qs.foldl (fun m q => match m with
    | none => some q
    | some r => if s.quadSince b q < s.quadSince b r || (s.quadSince b q = s.quadSince b r && q < r) then some q else some r) none

/-- A caravan of locked quads, the earliest on each group of four lanes; threads whose target is not the quad PC help. -/
def State.formQuads (s : State) (b p : Nat) (h : Word) (half : Option Nat) (place : Place) : State :=
  let here := ((s.idleQuads b p).filter fun x => x.2 = h && inHalf half (laneOfThread (4 * x.1))).map (·.1)
  let qs := (List.range 8).filterMap fun g => s.earliestQuad b (here.filter fun q => laneOfThread (4 * q) / 4 = g)
  let ms := qs.flatMap fun q => (s.threadsOfQuad b q).filterMap fun i =>
    match (s.agent i).stand with
    | .locked => some (⟨i, decide ((s.agent i).pc = h)⟩ : Member)
    | .discarded => some ⟨i, false⟩
    | _ => none
  let lanes := qs.flatMap fun q => (List.range 4).map fun j => laneOfThread (4 * q + j)
  let held := ms.map fun m => (s.agent m.agent).lane
  s.caravanFor b ((s.block b).share p).core h (h + 8) ms (lanes.filter fun l => !held.contains l) place

def State.placeChoice (s : State) (w : Choice) (place : Place) : State :=
  match w with
  | .caravan ci => s.updCaravan ci fun c => { c with place := place }
  | .threads b p h half => s.formThreads b p h half place
  | .quads b p h half => s.formQuads b p h half place

/-! ## Positions (R151-R153) -/

def State.taken (s : State) (core slot pos : Nat) : Bool :=
  s.caravans.any fun c => c.core = core && c.place = .active slot pos

/-- POSITION_FILL: a free position takes the first candidate under Table 2 (R151). -/
def execPositionFill (core slot pos : Nat) (s : State) : Out :=
  if s.mgmt.held ∨ core ≥ Config.nCores ∨ slot ≥ Config.issueSlots ∨ pos ≥ Config.positionsPerSlot ∨ s.taken core slot pos then .next s
  else match firstCand (s.candidates core) with
    | none => .next s
    | some k => .next (s.placeChoice k.what (.active slot pos))

def Caravan.isActive (c : Caravan) : Bool := match c.place with | .active _ _ => true | _ => false

/-- No position of the core is free. -/
def State.full (s : State) (core : Nat) : Bool :=
  decide ((s.caravans.filter fun c => c.core = core && c.isActive).length ≥ Config.issueSlots * Config.positionsPerSlot)

/-- The active caravan of the core that comes last under Table 2, among those a latch does not hold. -/
def State.lastActive (s : State) (core : Nat) : Option Nat :=
  let cs := ((List.range s.caravans.length).filter fun ci =>
    (s.caravan ci).core = core && (s.caravan ci).isActive && !s.latchHeld ci).map s.caravanCand
  let last (m : Option Candidate) (c : Candidate) : Option Candidate :=
    match m with
    | none => some c
    | some k => if k.before c then some c else some k
  (cs.foldl last none).bind fun k =>
    match k.what with
    | .caravan ci => some ci
    | _ => none

/-- What a swap-out does to the members: latches and advance-load entries go (R22, R152, R218). -/
def State.unlatch (s : State) (c : Caravan) : State :=
  c.members.foldl (fun t m => t.updAgent m.agent fun a => { a with latches := emptyLatches, adv := [] }) s

/-- An aged candidate waits, no position is free, and this caravan is the one that makes room (R152). -/
def State.mustSwap (s : State) (ci : Nat) : Bool :=
  let core := (s.caravan ci).core
  s.full core && (s.candidates core).any (·.aged) && s.lastActive core = some ci

/-- SWAP_OUT: of a caravan that waits, that yielded while a candidate comes before it, or that must make room for an aged
candidate, which takes the position (R152, R153). -/
def execSwapOut (ci : Nat) (s : State) : Out :=
  let c := s.caravan ci
  let cs := s.candidates c.core
  let outranked := cs.any fun k => k.before (s.caravanCand ci)
  if s.mgmt.held || !c.isActive || s.latchHeld ci || !(!s.ready c || (s.yielded ci && outranked) || s.mustSwap ci) then .next s
  else
    let s1 := (s.updCaravan ci fun c => { c with place := .pending }).unlatch c
    match s.mustSwap ci, firstCand cs with
    | true, some k => .next (s1.placeChoice k.what c.place)
    | _, _ => .next s1

/-! ## The order of issue (R148, R152, R153) -/

/-- Ready caravans of the same issue slot that come before this one under Table 2. -/
def State.rivals (s : State) (ci : Nat) : List Nat :=
  match (s.caravan ci).place with
  | .active slot _ => (List.range s.caravans.length).filter fun cj =>
      cj ≠ ci && (s.caravan cj).core = (s.caravan ci).core &&
        (match (s.caravan cj).place with | .active k _ => k = slot | _ => false) &&
        s.canIssue cj && (s.caravanCand cj).before (s.caravanCand ci)
  | _ => []

/-- In each cc a slot issues its first ready caravan under Table 2, and may issue the second beside it: that one issues when
the first has issued since it did. -/
def State.turn (s : State) (ci : Nat) : Bool :=
  match s.rivals ci with
  | [] => true
  | [cj] => decide ((s.caravan ci).since < (s.caravan cj).since)
  | _ => false

/-- The caravan may have the issue. -/
def State.mayIssue (s : State) (ci : Nat) : Bool := s.canIssue ci && s.turn ci && (!s.mustSwap ci || s.latchHeld ci)

/-! ## Aging (R146, R147) -/

/-- AGE_LIMIT_REACHED: an aged caravan; or an aged header, whose records close when their oldest held thread has aged. -/
def execAgeLimitReached (what : Aged) (s : State) : Out :=
  match what with
  | .caravan ci =>
    let c := s.caravan ci
    if s.mgmt.held ∨ c.place = .dissolved ∨ !s.caravanAged c then .next s
    else .next (s.updCaravan ci fun c => { c with aged := true })
  | .header b core h =>
    let k := s.block b
    if s.mgmt.held ∨ k.state ≠ .resident then .next s
    else match (List.range k.shares.length).find? fun p => (k.share p).core = core with
      | none => .next s
      | some p =>
        let limit := (s.ctx k.ctx).ageLimit
        let old (r : Record) : Bool :=
          let ts := if r.quads then (r.members.filter fun q => s.quadPc b q = some r.target).map (s.quadSince b)
            else (r.members.filter fun i => (s.agent i).standsAt r.target).map fun i => (s.agent i).since
          r.target = h && ts.any fun t => decide (s.now core - t ≥ limit)
        .next (s.updShare b p fun sh => { sh with records := sh.records.filter fun r => !old r })

/-! ## Queue waits (R289, R291) -/

/-- A queue wait of an agent could end now. -/
def State.queueWaitOver (s : State) (a : Agent) : Bool :=
  match a.wait with
  | .queue [] [] _ => s.engineIdle a
  | .queue pops pushes _ => s.queuesReady a pops pushes
  | _ => false

/-- QUEUE_WAIT_RESUME: tokens, room or an idle engine exist; the instruction issues again. -/
def execQueueWaitResume (ci : Nat) (s : State) : Out :=
  let c := s.caravan ci
  let ms := c.members.filter fun m => (s.agent m.agent).wait ≠ .ready
  if s.mgmt.held || c.place = .dissolved || ms.isEmpty || !ms.all (fun m => s.wakeable m.agent && s.queueWaitOver (s.agent m.agent)) then
    .next s
  else .next ((ms.foldl (fun t m => t.updAgent m.agent fun a => { a with wait := .ready }) s).updCaravan ci
    fun c => { c with since := s.now c.core, aged := false })

/-- The lowest of some queues. -/
def lowest : List Nat → Option Nat
  | [] => none
  | q :: qs => some (qs.foldl min q)

/-- The lowest queue on which an agent waits for tokens or room; an mmap names a stream whose head it waits for (R379). A
queue with fewer tokens than the pops, or less room than the pushes, counts as empty or full (DESIGN CHOICE, assumption 65:
R291 says empty and full, R379 too few tokens and too little room). -/
def State.lacking (s : State) (a : Agent) : Option Nat :=
  let core := s.coreOf a
  match a.wait with
  | .queue pops pushes heads =>
    match lowest (heads.filter fun q => (s.tokens core q).isEmpty) with
    | some q => some q
    | none => lowest (((pops.filter fun x => decide ((s.tokens core x.1).length < x.2)) ++
        pushes.filter fun x => !s.hasRoom core x.1 x.2).map (·.1))
  | _ => none

/-- QUEUE_MISUSE_DETECT: when every thread of the block and its partner and the drovers that serve them has exited or waits
for tokens or room, each waiting instruction raises QUEUE_MISUSE. -/
def execQueueMisuseDetect (b : Nat) (s : State) : Out :=
  let k := s.block b
  let bs := b :: k.mate.toList
  let all := bs.flatMap s.agentsOf
  let gone (i : Nat) : Bool := (s.agent i).stand = .exited
  let helper (i : Nat) : Bool := (s.agent i).stand = .discarded
  let cs := (List.range s.caravans.length).filter fun ci =>
    let c := s.caravan ci
    bs.contains c.block && c.place ≠ .dissolved && !s.ready c
  if s.mgmt.held || k.state ≠ .resident || cs.isEmpty ||
      !all.all (fun i => gone i || helper i || (s.lacking (s.agent i)).isSome) then .next s
  else .next (cs.foldl (fun t ci =>
    let c := t.caravan ci
    let wants := (t.laneMembers c).filter (·.want)
    let faults := wants.filterMap fun m => (s.lacking (s.agent m.agent)).map fun q =>
      (m.agent, ({ code := .queueMisuse, info := BitVec.ofNat 32 q } : Trap))
    (t.clearWait c).raise ci c (sizeOfParcels (t.fetch ci)) faults) s)

end Sys2Proof.Machine
end

