-- ==== Sys2Proof/Machine/Preempt.lean ====
section
/-! DEFINITION. Pre-emption, restore, replay, and pre-emption by the Broker (R388-R393, R383, R400). -/

namespace Sys2Proof.Machine

/-! ## Naming launches (R388, R409) -/

/-- The launches of a context that a handle names among some; none for a handle that is out of range or names none. -/
def State.named (s : State) (ctx : Nat) (handle : Nat) (among : Launch → Bool) : Option (List Nat) :=
  let all := (List.range s.launches.length).filter fun i =>
    let l := s.launch i
    l.ctx = ctx && l.origin = .packet && l.state ≠ .done && among l
  if handle = 0 then some all
  else if handle < 2 ^ 63 ∨ bitsAt handle 48 15 ≠ 0 then none
  else match all.filter fun i => (s.launch i).queue = bitsAt handle 32 16 && (s.launch i).index.toNat = bitsAt handle 0 32 with
    | [] => none
    | ls => some ls

/-- A running launch is one that is not pre-empted; a saved one is, with its saves complete. -/
def Launch.runs (l : Launch) : Bool := !l.saving
def Launch.isSaved (l : Launch) : Bool := l.saved && !l.restoring

/-! ## The save area (R390) -/

/-- SAVEBLK of a block, with its partner. -/
def State.saveBlk (s : State) (b : Nat) : Nat :=
  let k := s.block b
  let l := s.launch k.launch
  65536 + ((List.range k.shares.length).foldl (fun n p =>
    let threads := l.ranks * threadsAt k.size p
    n + 4096 * (l.ranks * (shareGranules l.tileSize + spillGranules (threadsAt k.size p) l.spillSize))
      + 4096 * ((threads * (4 * l.regs + 256) + 4095) / 4096) + if l.drv then 1048576 else 0) 0)

/-- The block that stands for its pair: the first partner, or the second once the first has retired. -/
def State.pairRoot (s : State) (b : Nat) : Bool :=
  (s.block b).partner = 0 || match (s.block b).mate with | some m => decide ((s.block m).state = .retired) | none => true

/-- One block of each pair among some, and every unpaired block. -/
def State.roots (s : State) (bs : List Nat) : List Nat :=
  bs.filter fun b => (s.block b).partner = 0 || !((s.block b).mate.map bs.contains).getD false

def State.saveSum (s : State) (bs : List Nat) : Nat := (s.roots bs).foldl (fun n b => n + s.saveBlk b) 0

/-- Every page of the area in use translates with what is needed. -/
def State.areaOk (s : State) (ctx n : Nat) (acc : Access) : Bool :=
  n = 0 || (s.access ctx hubCore acc (s.ctx ctx).saveBase.toNat n).toOption.isSome

/-- The blocks of launches that hold cores. -/
def State.onCores (s : State) (roots : List Nat) : List Nat :=
  roots.flatMap fun r => (s.family r).filter fun b => (s.block b).state ≠ .saved && (s.block b).state ≠ .retired

/-- The checks before a pre-emption. -/
def State.canSave (s : State) (ctx : Nat) (roots : List Nat) : Bool :=
  let n := s.saveSum (s.onCores roots)
  decide (n ≤ (s.ctx ctx).saveSize.toNat) && s.areaOk ctx n { rd := true, wr := true }

/-- Step 1 of R389: the blocks of these launches stop. -/
def State.beginSave (s : State) (roots : List Nat) : State :=
  let bs := s.onCores roots
  let s1 := bs.foldl (fun t b => t.updBlock b fun k => { k with state := .saving }) s
  roots.foldl (fun t r => t.updLaunch r fun l => { l with saving := true, saved := false, restoring := false }) s1

/-! ## Commands of a context (R388, R409) -/

/-- A context command: the context it names, or a status. -/
def State.ctxCommand (s : State) (r : PacketRef) (opc : Nat) (run : Packet → Nat → Out) : Out :=
  match s.command r opc with
  | none => .next s
  | some p =>
    let c := p.arg 0
    if c ≥ 2 ^ 16 ∨ !(s.ctx c).live then .next (s.reply1 r 2 0)
    else if (s.queue r.queue).ctx ≠ c then .next (s.reply1 r 6 0)
    else run p c

/-- PREEMPT: it completes after the last PREEMPT_DONE. -/
def execPreempt (r : PacketRef) (s : State) : Out :=
  s.ctxCommand r 0x20 fun p c =>
    if p.arg 2 ≠ 0 ∨ p.arg 3 ≠ 0 then .next (s.reply1 r 2 0)
    else match s.named c (p.arg 1) Launch.runs with
      | none => .next (s.reply1 r 2 0)
      | some [] => .next (s.reply1 r 0 0)
      | some roots =>
        if !s.canSave c roots then .next (s.reply1 r 8 0)
        else .next (((s.beginSave roots).updPacket r.queue r.index fun p => { p with waits := roots }).settlePreempts c)

/-! ## Saving a block (R389, R390) -/

/-- The blocks of a block's pair that have not retired. -/
def State.pairOf (s : State) (b : Nat) : List Nat :=
  (b :: (s.block b).mate.toList).filter fun x => (s.block x).state ≠ .retired

/-- A CARVE command of a die of these cores is in progress; it completes first (R393). -/
def State.carvingAt (s : State) (cores : List Nat) : Bool := s.carving.any fun c => cores.any fun x => dieOfCore x = c.1

/-- A convoy that does not start until EREPLAY ends a stopped one before it on its stream (R278); a save does not wait for it
(R394). -/
def State.stalled (s : State) (c : Convoy) : Bool :=
  s.ops.any fun o => match o.state, o.body with
    | .stopped _ _ _, .convoy d => d.block = c.block && d.pos = c.pos && d.chan = c.chan && decide (d.start < c.start)
    | _, _ => false

/-- Fills counted as inbound to a share that have not started and cannot. -/
def State.stalledFills (s : State) (b p : Nat) : Nat :=
  (s.ops.filter fun o => o.state = .running && match o.body with
    | .convoy c => c.kind = .mcst && (s.receivers c).contains (b, p) && s.stalled c
    | _ => false).length

/-- Steps 2 to 4 of R389 are done for a block: its caravans stand where R81 lets them, its matrix commands are complete, its
operations acknowledged, its convoys complete, stopped or queued behind a stopped one, its inbound counters zero but for
fills so queued, and no query that has written something goes on (R391). -/
def State.quiet (s : State) (b : Nat) : Bool :=
  let k := s.block b
  (List.range s.caravans.length).all (fun ci =>
    (s.caravan ci).block ≠ b || (s.caravan ci).place = .dissolved || !s.latchHeld ci) &&
  k.shares.zipIdx.all (fun x => x.1.engine.queue.isEmpty && decide (x.1.inbound ≤ s.stalledFills b x.2)) && !s.blockUnacked b &&
  !s.ops.any fun o => o.state = .running && match o.body with
    | .convoy c => c.block = b && !s.stalled c
    | .trav t => t.block = some b && t.written
    | .cut _ => false

/-- A thread that waits at a header outside trap mode has only that header's live registers saved; each other one comes back
as it was or as zero (R33, R390). -/
def State.saveAgent (s : State) (i : Nat) : State :=
  let a := s.agent i
  let (n, s1) := s.draw
  let dead := match a.stand with
    | .header => !a.trapMode
    | .quad => !a.trapMode
    | .locked => !a.trapMode
    | _ => false
  let live := (s.headerAt a.ctx a.pc).live
  -- an agent held or parked at an instruction by a fault, which no frame of its own records, keeps its latches
  let held := match a.stand with
    | .quadTrap _ true => true
    | .parked _ => true
    | _ => false
  s1.updAgent i fun a =>
    let b := { a with latches := if held then a.latches else emptyLatches, adv := [] }
    if dead && !a.drover then
      { b with regs := b.regs.filter fun w => decide (w.1 < live) || Config.saveKept n i w.1 }
    else b

/-- The save reads a block's tile memory and B-stage slots, with the errors it meets there (R208, R386). -/
def State.readShares (s : State) (b : Nat) : State :=
  if s.latent.isEmpty then s
  else
    let k := s.block b
    let l := s.launch k.launch
    let s1 := (List.range k.shares.length).foldl (fun t p => t.meetTile (some k.ctx) b p 0 l.tileSize) s
    let s2 := (s1.threadsOf b).foldl (fun t i => t.meetSpill (some k.ctx) i 0 l.spillSize) s1
    (s2.agentsWhere fun a => a.block = b && a.drover).foldl (fun t i =>
      (t.engineOf (t.agent i)).slots.foldl (fun u x => u.meetSlots (u.agent i) x.1 (twoSlot x.2.fmt x.2.curved)) t) s2

/-- The bytes of the save area that the context's saved blocks use take values of the device's own layout. -/
def State.fillArea (s : State) (ctx n : Nat) : State :=
  let (d, s1) := s.draw
  match s1.access ctx hubCore { wr := true } (s1.ctx ctx).saveBase.toNat n with
  | .error _ => s1
  | .ok ps => ps.foldl (fun t p =>
      t.writePiece ctx hubCore p ((List.range p.len).map fun i => Config.saveByte d (p.va + i))) s1

/-- Take a block's queues off its cores with their tokens. -/
def State.takeQueues (s : State) (b : Nat) : State :=
  let k := s.block b
  let toks := (List.range k.shares.length).flatMap fun p =>
    (s.core (k.share p).core).queues.zipIdx.filterMap fun x => if x.1.owner = some b then some (p, x.2, x.1.tokens) else none
  let free (q : CoreQueue) : CoreQueue := if q.owner = some b then {} else q
  { s.updBlock b (fun k => { k with tokens := toks }) with
    cores := (s.updBlock b (fun k => { k with tokens := toks })).cores.map fun c => { c with queues := c.queues.map free } }

/-- Step 5: the state of a block and its partner is written and their cores are released. The queues of a pair are those of
its first partner, retired or not. -/
def State.release (s : State) (bs : List Nat) : State :=
  bs.foldl (fun t b => ((b :: (t.block b).mate.toList).foldl State.takeQueues t).updBlock b fun k => { k with state := .saved }) s

/-- A cut operation that still runs starts again at step 1 after the restore (R391). -/
def State.abandonCuts (s : State) (bs : List Nat) : State :=
  { s with ops := s.ops.map fun o => match o.body, o.state with
      | .cut c, .running => if (c.block.map bs.contains).getD false then { o with body := .cut { c with record := none } } else o
      | _, _ => o }

/-- Caravans of a saved block lose their positions. -/
def State.shelve (s : State) (bs : List Nat) : State :=
  { s with caravans := s.caravans.map fun c =>
      if bs.contains c.block && c.isActive then { c with place := .pending } else c }

/-- BLOCK_SAVE: once the waits of step 4 are over, the block and its partner are saved; a co-resident launch releases its
cores when every block is saved (R388). -/
def execBlockSave (b : Nat) (s : State) : Out :=
  let k := s.block b
  let pair := s.pairOf b
  if s.mgmt.held ∨ k.state ≠ .saving ∨ !pair.all s.quiet ∨ s.carvingAt (k.shares.map (·.core)) then .next s
  else
    let s0 := pair.foldl State.readShares s
    let s1 := (pair.flatMap s0.agentsOf).foldl (fun t i => t.saveAgent i) (s0.abandonCuts pair)
    let s2 := (pair.foldl (fun t b => t.updBlock b fun k => { k with state := .stored }) s1).shelve pair
    let held := (s2.family (s2.rootLaunch k.launch)).filter fun b => (s2.block b).state = .saved || (s2.block b).state = .stored
    let s3 := s2.fillArea k.ctx (s2.saveSum held)
    let mates := if (s3.launch k.launch).coresident then s3.blocksOf k.launch else pair
    let all := mates.all fun b => (s3.block b).state ≠ .saving && (s3.block b).state ≠ .resident
    let s4 := if all then s3.release (mates.filter fun b => (s3.block b).state = .stored) else s3
    .next (s4.settlePreempts k.ctx)

/-! ## Restoring (R392) -/

/-- A launch whose blocks are all back is restored: RESTORE_DONE. -/
def State.settleRestore (s : State) (root : Nat) : State :=
  let l := s.launch root
  if l.restoring && (s.family root).all (fun b => (s.block b).state = .resident || (s.block b).state = .retired) then
    (s.updLaunch root fun l => { l with saving := false, saved := false, restoring := false }).postLaunch evRestoreDone root
  else s

/-- The same where the Broker took some of its blocks and the last of them is back (R392, R400). -/
def State.settleBroker (s : State) (root : Nat) : State :=
  if (s.launch root).saving || (s.family root).any (fun b => (s.block b).broker) then s else s.postLaunch evRestoreDone root

/-- RESUME: placement of the saved launches begins; a stopped context runs again (R382). -/
def execResume (r : PacketRef) (s : State) : Out :=
  s.ctxCommand r 0x21 fun p c =>
    if p.arg 2 ≠ 0 ∨ p.arg 3 ≠ 0 then .next (s.reply1 r 2 0)
    else match s.named c (p.arg 1) Launch.isSaved with
      | none => .next (s.reply1 r 2 0)
      | some roots =>
        let bs := roots.flatMap fun x => (s.family x).filter fun b => (s.block b).state = .saved
        if !s.areaOk c (s.saveSum bs) { rd := true } then .next (s.reply1 r 4 0)
        else
          let s1 := s.updCtx c fun k => { k with stopped := false }
          let s2 := roots.foldl (fun t x => t.updLaunch x fun l => { l with restoring := true }) s1
          .next (roots.foldl (fun t x => t.settleRestore x) (s2.reply1 r 0 0))

/-- Pages of the segments of a pair (R193). -/
def State.pairPages (s : State) (b : Nat) : List Nat := (s.pairOf b).flatMap fun x => (s.block x).scratchPages

/-- The die of a scratchpad page. -/
def pageDie (pa : Nat) : Nat := (pa - scratchBase) / scratchWindow

/-- Cores for a saved block: one quartet, room for each position; a phase's block goes back to the tile's core. -/
def State.mayRestore (s : State) (b : Nat) (cores : List Nat) : Bool :=
  let k := s.block b
  let l := s.launch k.launch
  let die := cores.headD 0 / 16
  let held := s.pairPages b
  cores.length = k.shares.length && cores.all (fun c => c / 4 = cores.headD 0 / 4 && decide (c < 64)) &&
    cores.eraseDups.length = cores.length && s.roomOn l k.size cores &&
    (held = [] || pageDie (held.headD 0) = die || (s.segmentPages k.ctx die (4096 * held.length)).isSome) &&
    match l.onCore with
    | some c => cores = [c]
    | none => true

/-- Copy a page of a segment, with the reductions accepted for it applied; completion records go with it. -/
def State.copyPage (s : State) (ctx src dst : Nat) : State :=
  let t := (s.meetPa (some ctx) src 4096).zeroFill dst 4096
  { t with
    mem := fillBytes t.mem dst 4096 fun i => t.peek (src + i)
    signals := t.signals ++ (t.signals.filter fun x => decide (src ≤ x.1) && decide (x.1 < src + 4096)).map fun x =>
      (x.1 - src + dst, x.2) }

/-- The segment of a block moves to another die's scratchpad; no old translation of it stays (R392 step 2). -/
def State.moveSegment (s : State) (b die : Nat) : State :=
  let k := s.block b
  if k.scratchPages = [] ∨ pageDie (k.scratchPages.headD 0) = die then s
  else match s.segmentPages k.ctx die (4096 * k.scratchPages.length) with
    | none => s
    | some ps =>
      let copied := (k.scratchPages.zip ps).foldl (fun (t : State) x => t.copyPage k.ctx x.1 x.2) s
      (copied.updBlock b fun k => { k with scratchPages := ps }).dropSegment k.ctx k.scratchVa.toNat (4096 * ps.length)

/-- Operations of a block follow it to its new cores. -/
def EngineOp.pos (o : EngineOp) : Nat :=
  match o.body with
  | .convoy c => c.pos
  | .cut c => c.pos
  | .trav t => t.pos

/-- Put the queues that were a block's on its new cores, with their tokens. -/
def State.putQueues (s : State) (b : Nat) (cores : List Nat) : State :=
  let s1 := s.updBlock b fun k => { k with tokens := [] }
  (s.block b).tokens.foldl (fun t x => t.updCore (cores.getD x.1 0) fun c =>
    { c with queues := updAt c.queues x.2.1 fun _ => { owner := some b, tokens := x.2.2 } }) s1

/-- The scope of an arrival that a thread still has to make when its block is restored: what is relative to the block or to
its place resolves to the new cores, position by position; an absolute entry stays (R392; DEDUCED, assumption 55). -/
def Scope.rehome (sc : Scope) (s : State) (ctx core : Nat) (old new : List Nat) : Scope :=
  if sc.index ≤ 3 then s.resolveScope ctx core new sc.index
  else if sc.rel then
    { sc with
      cores := coreMask ((old.zip new).filterMap fun x => if sc.cores.toNat.testBit x.1 then some x.2 else none)
      slices := (sc.slices >>> (16 * dieOfCore (old.headD 0)) &&& 0xFFFF#64) <<< (16 * dieOfCore core) }
  else sc

/-- A wait whose arrival is still to come, on the block's new cores. -/
def Wait.rehome (w : Wait) (f : Scope → Scope) : Wait :=
  match w with
  | .arrive sc thenWait => .arrive (f sc) thenWait
  | .drain sc core upTo => .drain (f sc) core upTo
  | _ => w

/-- The restore writes every byte of a block's tile memory and of its B-stage slots: fresh codes, and the injections it fires
(R208, R386). -/
def State.writeShares (s : State) (b : Nat) : State :=
  let k := s.block b
  let s1 := (List.range k.shares.length).foldl (fun t p => t.fillTile (t.block b |>.share p).core (t.blockAddr b p) (4096 * t.blockGranules b p)) s
  (s1.agentsWhere fun a => a.block = b && a.drover).foldl (fun t i =>
    (t.engineOf (t.agent i)).slots.foldl (fun u x => u.fireSlots (u.agent i) x.1 (twoSlot x.2.fmt x.2.curved)) t) s1

/-- Put a block on its new cores: shares, queues with their tokens, operations, arrival times (every age 0). -/
def State.putBlock (s : State) (b : Nat) (cores : List Nat) : State :=
  let old := (s.block b).shares.map (·.core)
  let s1 := (s.updBlock b fun k => { k with
    shares := k.shares.zipIdx.map fun x => { x.1 with core := cores.getD x.2 0 }, state := .placed }).writeShares b
  let s2 := (b :: (s.block b).mate.toList).foldl (fun t x => t.putQueues x cores) s1
  let home (p : Nat) := cores.getD p 0
  { s2 with
    ops := s2.ops.map fun o => if o.block = some b then { o with core := home o.pos } else o
    agents := s2.agents.map fun (a : Agent) =>
      if a.block = b then
        { a with since := s2.now (home a.pos), wait := a.wait.rehome fun sc => sc.rehome s2 a.ctx (home a.pos) old cores }
      else a
    caravans := s2.caravans.map fun (c : Caravan) =>
      if c.block = b && c.place ≠ .dissolved then
        let core := home (s2.agent (c.members.headD ⟨0, false⟩).agent).pos
        { c with core := core, since := s2.now core, formed := s2.now core, aged := false }
      else c }

/-! A sector of the save area that is dropped at a restore is counted, and the block resumes with zeros for what the sector
held (R393); which words of the saved state those are is the device's own layout, so `keep` is a free function of the word
(assumption 33). -/

/-- The words of a list, those that a dropped sector held as zero. -/
def zeroLost {w : Nat} (keep : Nat → Bool) (base : Nat) (xs : List (BitVec w)) : List (BitVec w) :=
  xs.zipIdx.map fun x => if keep (base + x.2) then x.1 else 0

/-- The frame registers, those that a dropped sector held as zero. -/
def TrapFrame.lose (f : TrapFrame) (keep : Nat → Bool) : TrapFrame :=
  let word {w : Nat} (k : Nat) (v : BitVec w) : BitVec w := if keep k then v else 0
  { f with
    code := word 0 f.code, pc := word 1 f.pc, hdr := word 2 f.hdr, nxt := word 3 f.nxt, resume := word 4 f.resume
    info := word 5 f.info, addr := word 6 f.addr, seq := word 7 f.seq, fpstat := word 8 f.fpstat
    held := f.held.zipIdx.map fun x => x.1.map fun l => { l with val := word (9 + x.2) l.val } }

/-- An agent's saved state after the drop. -/
def Agent.lose (a : Agent) (keep : Nat → Nat → Bool) : Agent :=
  { a with
    regs := a.regs.filter fun w => keep 0 w.1
    spill := a.spill.filter fun c => keep 1 c.1
    frame := a.frame.lose (keep 2)
    fpstat := if keep 3 0 then a.fpstat else 0
    solo := if keep 3 1 then a.solo else 0
    ended := if keep 3 2 then a.ended else 0 }

def Accum.lose (x : Accum) (keep : Nat → Bool) : Accum :=
  { x with
    elems := x.elems.filter fun w => keep (3 * w.1), even := x.even.filter fun w => keep (3 * w.1 + 1)
    odd := x.odd.filter fun w => keep (3 * w.1 + 2) }

def OpTile.lose (t : OpTile) (keep : Nat → Bool) : OpTile :=
  { t with
    codes := t.codes.zipIdx.map fun x => zeroLost keep (256 * x.2) x.1
    scales := t.scales.zipIdx.map fun x => zeroLost keep (256 * x.2 + 128) x.1 }

/-- A share after the drop, with the drover's engine. -/
def Share.lose (h : Share) (keep : Nat → Nat → Bool) : Share :=
  { h with
    tile := h.tile.filter fun c => keep 4 c.1
    streams := h.streams.zipIdx.map fun x =>
      { last := if keep 5 (2 * x.2) then x.1.last else 0, wpos := if keep 5 (2 * x.2 + 1) then x.1.wpos else 0 }
    engine := { h.engine with
      acc := h.engine.acc.zipIdx.map fun x => x.1.lose (keep (8 + x.2))
      slots := h.engine.slots.map fun x => (x.1, x.2.lose (keep (16 + x.1)))
      latch := h.engine.latch.map fun t => t.lose (keep 6) } }

/-- The Dispatcher reads the saved state of some blocks: the part of the area in use. -/
def State.readArea (s : State) (bs : List Nat) (ctx n : Nat) : State :=
  match s.access ctx hubCore accRead (s.ctx ctx).saveBase.toNat n with
  | .error _ => s
  | .ok ps =>
    let s1 := ps.foldl (fun t p => if t.isPeer p.pa then t else t.meetPa (some ctx) p.pa p.len) s
    if (s1.ctx ctx).dropcnt = (s.ctx ctx).dropcnt then s1
    else
      let (d, s2) := s1.draw
      -- the free value's second argument: 1024 for each agent or share, and the kind of word within it
      let keep (i kind k : Nat) : Bool := Config.saveKept d (1024 * i + kind) k
      let lose (x : Agent × Nat) : Agent := if bs.contains x.1.block then x.1.lose (keep (2 * x.2)) else x.1
      let s3 := { s2 with agents := s2.agents.zipIdx.map lose }
      bs.foldl (fun t b => t.updBlock b fun k => { k with
        shares := k.shares.zipIdx.map fun x => x.1.lose (keep (2 * (4 * b + x.2) + 1))
        tokens := k.tokens.map fun x => (x.1, x.2.1, zeroLost (keep (2 * (4 * b + x.1) + 1) (512 + x.2.1)) 0 x.2.2) }) s3

/-- Agents parked by a fault form the caravans they stood in again, at the instruction that faulted (R382). -/
def State.unpark (s : State) (b : Nat) : State :=
  let is_ := (s.agentsOf b).filterMap fun i => match (s.agent i).stand with
    | .parked c => some (i, c, (s.agent i).hdr, (s.agent i).pc)
    | _ => none
  ((is_.map (·.2)).eraseDups).foldl (fun t k =>
    let ms := (is_.filter fun x => x.2 = k).map (·.1)
    let a := s.agent (ms.headD 0)
    t.caravanFor b (s.coreOf a) k.2.1 k.2.2 (ms.map fun i => ⟨i, true⟩) [] (if a.drover then .drover else .pending)) s

/-- An agent that was stopped before a header attempts the entry again (R382); in a held quad the quad then goes on. -/
def State.reattempt (s : State) (i : Nat) : State :=
  let a := s.agent i
  if a.stand ≠ .entering then s
  else if !a.drover && !a.trapMode && (s.block a.block).quads.contains a.quadNo then
    (s.updAgent i fun a => { a with stand := .quadTrap true false }).resumeQuad a.block a.quadNo a.pc
  else s.enter i a.pc a.hdr

/-- A quad held by a fault that stopped the context executes the instruction again (R381, R382). -/
def State.retryQuad (s : State) (b q : Nat) : State :=
  match (s.threadsOfQuad b q).find? fun i => !(s.agent i).trapMode && (s.agent i).stand = .quadTrap true true with
  | some i => s.resumeQuad b q (s.agent i).pc
  | none => s

/-- The agents of a restored block go on. -/
def State.wake (s : State) (b : Nat) : State :=
  let l := s.launch (s.block b).launch
  let s1 := s.updBlock b fun k => { k with state := .resident, broker := false }
  let s2 := if l.coresident && l.placed ≠ l.nblock then s1 else (s1.agentsOf b).foldl (fun t i => t.reattempt i) (s1.unpark b)
  (s2.block b).quads.foldl (fun t q => t.retryQuad b q) s2

/-- A launch of higher PRIO waits for room that a block the Broker saved would take: it is not pre-empted itself, and lacks no
scratchpad (R400). -/
def State.brokerYields (s : State) (prio : Nat) : Bool :=
  (List.range s.launches.length).any fun li =>
    let l := s.launch li
    let root := s.launch (s.rootLaunch li)
    l.state = .running && !l.itinerary && decide (l.prio > prio) && decide (l.placed < l.nblock) && !root.saving && !root.restoring &&
      !(s.ctx l.ctx).stopped && (List.range 4).any fun d => (s.segmentPages l.ctx d (l.ranks * l.scratch)).isSome

/-- BLOCK_RESTORE: a saved block and its partner return to cores of one quartet; a co-resident launch resumes when every
block is placed. -/
def execBlockRestore (b : Nat) (cores : List Nat) (s : State) : Out :=
  let k := s.block b
  let root := s.rootLaunch k.launch
  let l := s.launch root
  let due := l.restoring || (k.broker && !l.saving && !s.brokerYields (s.launch k.launch).prio)
  let old := (s.pairPages b).map fun p => pageDie p * 16
  if s.mgmt.held || k.state ≠ .saved || !s.pairRoot b || !due || (s.ctx k.ctx).stopped || !s.mayRestore b cores ||
      s.carvingAt (cores ++ old) then .next s
  else
    let held := (s.family root).filter fun b => (s.block b).state = .saved
    let s0 := s.readArea (s.pairOf b) k.ctx (s.saveSum held)
    let s1 := (s.pairOf b).foldl (fun t x => (t.moveSegment x (cores.headD 0 / 16)).putBlock x cores) s0
    let mates := if (s1.launch k.launch).coresident then s1.blocksOf k.launch else s.pairOf b
    let all := mates.all fun x => (s1.block x).state = .placed || (s1.block x).state = .retired
    let s3 := if all then (mates.filter fun x => (s1.block x).state = .placed).foldl (fun t x => t.wake x) s1 else s1
    .next (if l.restoring then s3.settleRestore root else if all then s3.settleBroker root else s3)

/-! ## Replay (R383) -/

/-- A node's operation or pass was cancelled: its walk ends with WSTATUS 3 (R342). -/
def State.cancelNode (s : State) (w : Nat) : State := (s.closePass (s.walkNo w)).endWalk w 3 (s.walkNo w).node

/-- Replay or cancel the stopped operation of a handle; none where there is none. -/
def State.replay (s : State) (ctx : Nat) (handle : DWord) (cancel : Bool) : Option State :=
  let isOp (o : EngineOp) : Bool := o.ctx = ctx && match o.state with
    | .stopped _ _ h => h = handle
    | _ => false
  let hit (x : Option (BitVec 16 × DWord × DWord)) : Bool := match x with
    | some (_, _, h) => h = handle
    | none => false
  match (List.range s.ops.length).find? fun i => isOp (s.opAt i) with
  | some i =>
    let o := s.opAt i
    let code : BitVec 16 := match o.state with
      | .stopped c _ _ => c
      | _ => 0
    some (match o.body with
      | .convoy c => s.replayConvoy i o c code cancel
      | .cut c =>
        let t := s.replayCut i o c code cancel
        match c.walk with
        | some w => if cancel then t.cancelNode w else t
        | none => t
      | .trav q =>
        let t := s.replayTrav i o q code cancel
        match q.walk with
        | some w => if cancel then t.cancelNode w else t
        | none => t)
  | none =>
    match (List.range s.passes.length).find? fun p =>
        (s.pass p).ctx = ctx && (hit (s.pass p).stopped || (s.pass p).runs.any fun r => hit r.stopped) with
    | none => none
    | some p =>
      if cancel then some (s.cancelNode (s.pass p).walk)
      else some (s.updPass p fun q => { q with
        stopped := if hit q.stopped then none else q.stopped
        runs := q.runs.map fun r => if hit r.stopped then { r with stopped := none } else r })

/-- EREPLAY. -/
def execEreplay (r : PacketRef) (s : State) : Out :=
  s.ctxCommand r 0x22 fun p c =>
    if p.arg 2 > 1 ∨ p.arg 3 ≠ 0 then .next (s.reply1 r 2 0)
    else match s.replay c (BitVec.ofNat 64 (p.arg 1)) (p.arg 2 = 1) with
      | none => .next (s.reply1 r 5 0)
      | some t => .next (t.reply1 r 0 0)

/-! ## Pre-emption by the Broker (R400) -/

/-- The launch has a next block that no quartet has room for. -/
def State.starved (s : State) (li : Nat) : Bool :=
  let l := s.launch li
  l.state = .running && !l.itinerary && !(s.launch (s.rootLaunch li)).saving && decide (l.placed < l.nblock) &&
    match l.onCore with
    | some c => !s.roomOn l (l.sizeOf l.placed) [c]
    | none => (List.range 16).all fun q => !s.quartetRoom l (l.sizeOf l.placed) q

/-- The blocks that are pre-empted with a block: its pair, or every block of a co-resident launch (R388). -/
def State.brokerUnit (s : State) (b : Nat) : List Nat :=
  if (s.launch (s.block b).launch).coresident then (s.blocksOf (s.block b).launch).filter fun x => (s.block x).state ≠ .retired
  else s.pairOf b

/-- Blocks the Broker may pre-empt for a launch of a PRIO, one of each pair: resident ones of launches below it, whose
context has the room to save them beside what is saved (R390, R400). -/
def State.brokerVictims (s : State) (prio : Nat) : List Nat :=
  (List.range s.blocks.length).filter fun b =>
    let k := s.block b
    let l := s.launch k.launch
    let unit := s.brokerUnit b
    let n := s.saveSum (unit ++ (List.range s.blocks.length).filter fun x => (s.block x).ctx = k.ctx && (s.block x).state = .saved)
    k.state = .resident && s.pairRoot b && l.state = .running && decide (l.prio < prio) && !(s.launch (s.rootLaunch k.launch)).saving &&
      (!l.coresident || l.placed = l.nblock) && unit.all (fun x => (s.block x).state = .resident) &&
      decide (n ≤ (s.ctx k.ctx).saveSize.toNat) && s.areaOk k.ctx n { rd := true, wr := true }

/-- The Broker pre-empts a block, with those that go with it. -/
def State.brokerTake (s : State) (b : Nat) : State :=
  let k := s.block b
  let s1 := (s.brokerUnit b).foldl (fun t x => t.updBlock x fun k => { k with state := .saving, broker := true }) s
  s1.updLaunch (s.rootLaunch k.launch) fun l => { l with broker := true }

/-- PRIORITY_PREEMPT: while the next block of a launch has had no room for 65,536 cc, the Broker pre-empts blocks of launches
of lower PRIO, one unit after another until it fits; which it takes is unspecified. -/
def execPriorityPreempt (li : Nat) (s : State) : Out :=
  let l := s.launch li
  if s.mgmt.held || decide (li ≥ s.launches.length) then .next s
  else if !s.starved li then .next (s.updLaunch li fun l => { l with waiting := none })
  else match l.waiting with
    | none => .next (s.updLaunch li fun l => { l with waiting := some (s.clockOf hubCore) })
    | some t =>
      let vs := s.brokerVictims l.prio
      if s.clockOf hubCore < t + 65536 || vs.isEmpty || s.blocks.any (fun k => k.broker && k.state = .saving) then .next s
      else
        let (n, s1) := s.draw
        .next (s1.brokerTake (vs.getD (Config.choice n % vs.length) 0))

end Sys2Proof.Machine
end

