-- ==== Sys2Proof/Machine/Special.lean ====
section
/-! DEFINITION. Special functions (R63, R134, R135). The manual gives exact points, special values, ranges, accuracy
bounds and monotonicity; between them the result is a free value. The true value is computed in fixed point, and the free
values are taken wherever they meet the bounds. -/

namespace Sys2Proof.Machine

/-- The functions in the order of F (R134). -/
inductive SpecialFn where
  | exp2 | log2 | exp | log | sin | cos | tanh | sigm
deriving DecidableEq, Repr

def SpecialFn.number : SpecialFn → Nat
  | .exp2 => 0
  | .log2 => 1
  | .exp => 2
  | .log => 3
  | .sin => 4
  | .cos => 5
  | .tanh => 6
  | .sigm => 7

/-! ## The true values, to about 2^-390 -/

/-- 2^400, ln 2 × 2^400 and π/2 × 2^640, rounded down. -/
def fixOne : Int := 2 ^ 400
def fixLn2 : Int := 0xb17217f7d1cf79abc9e3b39803f2f6af40f343267298b62d8a0d175b8baafa2be7b876206debac98559552fb4afa1b10ed2e
def fixHalfPi : Int := 0x1921fb54442d18469898cc51701b839a252049c1114cf98e804177d4c76273644a29410f31c6809bbdf2a33679a748636605614dbe4be286e9fc26adadaa3848bc90b6aecc4bcfd8de89885d34c6fdad6

def fixMul (a b : Int) : Int := a * b / fixOne

/-- The sum of r^k / k! from term `t` of index k on, taking every `step`-th index with sign `sg`. -/
def expTerms : Nat → Int → Int → Nat → Int → Int
  | 0, _, _, _, acc => acc
  | n + 1, r, t, k, acc => expTerms n r (fixMul t r / (k + 1 : Nat)) (k + 1) (acc + t)

/-- e^r for 0 ≤ r < 1. -/
def fixExp (r : Int) : Int := expTerms 100 r fixOne 0 0

/-- Terms of sine or cosine: t, -t r²/((k+1)(k+2)), and so on. -/
def trigTerms : Nat → Int → Int → Nat → Int → Int
  | 0, _, _, _, acc => acc
  | n + 1, r2, t, k, acc => trigTerms n r2 (-(fixMul t r2 / ((k + 1) * (k + 2) : Nat))) (k + 2) (acc + t)

def fixSin (r : Int) : Int := trigTerms 60 (fixMul r r) r 1 0
def fixCos (r : Int) : Int := trigTerms 60 (fixMul r r) fixOne 0 0

/-- Terms z^(2k+1)/(2k+1) of the inverse hyperbolic tangent. -/
def atanhTerms : Nat → Int → Int → Nat → Int → Int
  | 0, _, _, _, acc => acc
  | n + 1, z2, t, k, acc => atanhTerms n z2 (fixMul t z2) (k + 2) (acc + t / (k : Nat))

/-- The natural logarithm of m·2^e, m > 0. -/
def fixLog (m : Nat) (e : Int) : Int :=
  let l := Nat.log2 m
  let x : Int := (m * 2 ^ (400 - l) : Nat)
  let z := (x - fixOne) * fixOne / (x + fixOne)
  2 * atanhTerms 130 (fixMul z z) z 1 0 + (e + l) * fixLn2

/-- A fixed-point value times 2^e. -/
def fixVal (x : Int) (e : Int) : FVal := .fin (x < 0) x.natAbs (e - 400)

/-- x in fixed point; FP32 values of magnitude below 2^8 are exact in it. -/
def fixOf (neg : Bool) (m : Nat) (e : Int) : Int :=
  let v : Int := (m * 2 ^ (e + 400).toNat : Nat)
  if neg then -v else v

/-- 2^(v/2^400) as a fixed-point value and a power of two; likewise e^(v/2^400). -/
def fixPow2 (v : Int) : Int × Int := (fixExp (fixMul (v % fixOne) fixLn2), v / fixOne)
def fixPowE (v : Int) : Int × Int := (fixExp (v % fixLn2), v / fixLn2)

/-- A pair of a fixed-point value and a power of two, as fixed point. -/
def fixShift (p : Int × Int) : Int := if p.2 ≥ 0 then p.1 * 2 ^ p.2.toNat else p.1 / 2 ^ (-p.2).toNat

/-- The quadrant of x and the rest below π/2. -/
def quadrant (neg : Bool) (m : Nat) (e : Int) : Int × Int :=
  let v : Int := (m * 2 ^ (e + 640).toNat : Nat)
  let x := if neg then -v else v
  (x / fixHalfPi % 4, x % fixHalfPi / 2 ^ 240)

/-- x - x³/d as a value: the tangent's and the sine's, for |x| < 2^-60, to a relative 2^-240; it lies strictly below x. -/
def cubeBelow (neg : Bool) (m : Nat) (e : Int) (d : Nat) : FVal :=
  .fin neg (m * 2 ^ (19 - 2 * e).toNat - m ^ 3 * 2 ^ 19 / d) (3 * e - 19)

/-- The true value of a function at ±m·2^e, m > 0, where it is finite; large arguments of the exponentials are cut at 2^8
in magnitude, where the result has left the range or reached its limit. -/
def trueValue (fn : SpecialFn) (neg : Bool) (m : Nat) (e : Int) : FVal :=
  let big := leadExp m e ≥ 8
  let x := if big then (if neg then -256 * fixOne else 256 * fixOne) else fixOf neg m e
  if leadExp m e ≤ -60 ∧ fn = .sin then cubeBelow neg m e 6
  else if leadExp m e ≤ -60 ∧ fn = .tanh then cubeBelow neg m e 3
  else match fn with
  | .exp2 => let p := fixPow2 x; fixVal p.1 p.2
  | .exp => let p := fixPowE x; fixVal p.1 p.2
  | .log2 => fixVal (fixLog m e * fixOne / fixLn2) 0
  | .log => fixVal (fixLog m e) 0
  | .sin =>
    let (q, r) := quadrant neg m e
    fixVal (if q = 0 then fixSin r else if q = 1 then fixCos r else if q = 2 then -fixSin r else -fixCos r) 0
  | .cos =>
    let (q, r) := quadrant neg m e
    fixVal (if q = 0 then fixCos r else if q = 1 then -fixSin r else if q = 2 then -fixCos r else fixSin r) 0
  | .tanh =>
    let t := max 1 (fixShift (fixPowE (-2 * (if neg then -x else x))))
    let y := (fixOne - t) * fixOne / (fixOne + t)
    fixVal (if neg then -y else y) 0
  | .sigm =>
    let p := fixPowE (if neg then x else -x)
    let d := fixOne * fixOne / (fixOne + fixShift p)
    if neg then fixVal (fixMul p.1 d) p.2 else fixVal d 0

/-! ## The accuracy bound (R63) -/

/-- How far the true value may lie from the one computed, in units of the latter's last place; no FP32 value and no multiple
of an ulp lies that near the true value but an exact result of Table 9. -/
def fixError : Nat := 2 ^ 15

/-- The magnitudes that far from a computed value, below and above. -/
def FVal.atMost (y : FVal) : FVal :=
  match y with
  | .fin n m e => .fin n (m + fixError) e
  | v => v
def FVal.atLeast (y : FVal) : FVal :=
  match y with
  | .fin n m e => .fin n (m - fixError) e
  | v => v

/-- |r - y| ≤ n ulp(y), of every y that the computed one may stand for. -/
def withinUlps (n : Nat) (r y : FVal) : Bool :=
  match r, y with
  | .fin _ _ re, .fin _ m ye =>
    let u : Int := max (leadExp (m - fixError) ye) (-126) - 23
    let e0 := min (min re ye) u
    decide ((r.scaled e0 - y.scaled e0).natAbs + fixError * 2 ^ (ye - e0).toNat ≤ n * 2 ^ (u - e0).toNat)
  | _, _ => false

/-- The code is the true value, or one of the two that bracket it. -/
def faithful (code : Nat) (y : FVal) : Bool :=
  let brackets (v : FVal) : Bool := code = (roundFp fp32 .rd v false).1 || code = (roundFp fp32 .ru v false).1
  brackets y.atLeast && brackets y.atMost

/-- Bound of a function at an input, in ulps; none for a faithful one (R63 Table 9). -/
def ulpBound (fn : SpecialFn) (x : FVal) : Option Nat :=
  match fn with
  | .exp2 => none
  | .log2 => none
  | .sin | .cos =>
    some (if fpLe (match x with | .fin _ m e => .fin false m e | v => v) (decodeFp fp32 0x40490FDB) then 2 else 4)
  | _ => some 2

/-- A result inside the function's true range (R63). -/
def inRange (fn : SpecialFn) (r : FVal) : Bool :=
  let one := FVal.fin false 1 0
  match fn with
  | .exp2 | .exp => !r.sign
  | .sin | .cos | .tanh => fpLe r one && fpLe one.neg r
  | .sigm => !r.sign && fpLe r one
  | _ => true

/-- Whether an FP32 code may be the result where the true value is y. -/
def mayBe (fn : SpecialFn) (x y : FVal) (code : Nat) : Bool :=
  let r := decodeFp fp32 code
  inRange fn r && !r.isNan && !r.isInf &&
    match ulpBound fn x with
    | none => faithful code y
    | some n => withinUlps n r y

/-! ## Monotonic results (R63)

A non-decreasing function is fixed by the inputs at which it comes to reach each output. The outputs admitted at an input run
from a least to a greatest, neither of which falls as the input rises; the free cuts choose among them. -/

/-- The place of an FP32 code in the order of values, zeros at 0; and the code at a place, `neg` deciding a zero's sign. -/
def fpPlace (code : Nat) : Int := if code < 2 ^ 31 then code else -((code - 2 ^ 31 : Nat) : Int)
def fpAtPlace (neg : Bool) (i : Int) : Nat := fp32.signed (if i = 0 then neg else decide (i < 0)) i.natAbs

/-- An input and the output that Table 9 fixes there, by place, for the functions whose bound reaches past it. -/
def SpecialFn.pin : SpecialFn → Option (Int × Int)
  | .exp => some (0, 0x3F800000)
  | .tanh => some (0, 0)
  | .sigm => some (0, 0x3F000000)
  | .log => some (0x3F800000, 0)
  | _ => none

/-- The true value at the input of a place. -/
def trueAt (fn : SpecialFn) (i : Int) : FVal :=
  match decodeFp fp32 (fpAtPlace false i) with
  | .fin neg m e =>
    if m = 0 then (match fn with | .exp => fixVal fixOne 0 | .sigm => fixVal (fixOne / 2) 0 | _ => fixVal 0 0)
    else trueValue fn neg m e
  | v => v

/-- |y| is below 2^k. -/
def belowPow (k : Int) (y : FVal) : Bool :=
  match y with
  | .fin _ m e => m = 0 || decide (leadExp m e < k)
  | _ => false

/-- The least magnitude, as a place, that monotonicity leaves for a 2-ulp result at input place `i` where the true value is y,
2^k ≤ |y| < 2^(k+1): that of the nearest input whose true value lies below 2^k, where an ulp is half as large, unless that is
more than 2 ulps below every output that y's own bound admits there. Where none of the eight next inputs lies below 2^k, they
lie so close that the nearest which does lies within such an ulp of it. -/
def leastMagnitude (fn : SpecialFn) (i : Int) (y : FVal) : Int :=
  match y with
  | .fin neg m e =>
    let k := leadExp m e
    if k ≤ -126 then 0
    else
      let top := (k + 127) * 0x800000
      let beside (j : Nat) : FVal := trueAt fn (if neg then i + j else i - j)
      match [1, 2, 3, 4, 5, 6, 7, 8].find? fun j => belowPow k (beside j) with
      | none => top - 2
      | some j => (([4, 3, 2, 1].map fun (d : Nat) => top - d).find? fun p =>
          withinUlps 2 (decodeFp fp32 (fp32.signed neg p.natAbs)) (beside j)).getD 0
  | _ => 0

/-- The places of the outputs a monotonic function admits at input place `i`, rising; `near` is the rounded true value. -/
def admitted (fn : SpecialFn) (x y : FVal) (i : Int) (near : Nat) : List Int :=
  let around : List Int := (List.range 17).map fun (j : Nat) => fpPlace near - 8 + (j : Int)
  let close := around.filter fun c => mayBe fn x y (fpAtPlace y.sign c)
  let low := if (ulpBound fn x).isSome then leastMagnitude fn i y else 0
  (close.filter fun c => decide (low ≤ (c.natAbs : Int))).filter fun c =>
    match fn.pin with
    | some (i0, v0) => if i > i0 then decide (v0 ≤ c) else decide (c ≤ v0)
    | none => true

/-- The result of a monotonic function: the greatest admitted output whose cut the input has reached, or the least. -/
def monotonicAt (fn : SpecialFn) (x y : FVal) (i : Int) (near : Nat) : Nat :=
  match admitted fn x y i near with
  | [] => near
  | c :: cs => fpAtPlace y.sign (cs.foldl (fun r c => if Config.specialCut fn.number c ≤ i then c else r) c)

/-- The result where Table 9 leaves it open: sine and cosine are not monotonic. -/
def openResult (fn : SpecialFn) (x y : FVal) (code near : Nat) : Nat :=
  if fn = .sin ∨ fn = .cos then
    let free := (Config.special fn.number (BitVec.ofNat 32 code)).toNat
    if mayBe fn x y free then free else near
  else monotonicAt fn x y (fpPlace code) near

/-- n is an integer value from lo to hi. -/
def integerIn (neg : Bool) (m : Nat) (e lo hi : Int) : Option Int :=
  let q := quantise .rz neg m e 0
  if q.2 then none
  else
    let v : Int := if neg then -(q.1 : Int) else q.1
    if lo ≤ v ∧ v ≤ hi then some v else none

/-- A special function on an FP32 code, with its flags (R63, R135). -/
def special32 (fn : SpecialFn) (code : Nat) : Nat × Flags :=
  let nan := fp32.nanCode
  let pinf := fp32.infCode
  let one := 0x3F800000
  match decodeFp fp32 code with
  | .nan s => (nan, flagIf s flagInvalid)
  | .inf neg =>
    match fn with
    | .exp2 | .exp => (if neg then 0 else pinf, 0)
    | .log2 | .log => if neg then (nan, flagInvalid) else (pinf, 0)
    | .sin | .cos => (nan, flagInvalid)
    | .tanh => (fp32.signed neg one, 0)
    | .sigm => (if neg then 0 else one, 0)
  | .fin neg m e =>
    if m = 0 then
      match fn with
      | .exp2 | .exp | .cos => (one, 0)
      | .log2 | .log => (fp32.signed true pinf, flagDivZero)
      | .sin | .tanh => (code, 0)
      | .sigm => (0x3F000000, 0)
    else if (fn = .log2 ∨ fn = .log) ∧ neg then (nan, flagInvalid)
    else if fn = .exp2 ∧ (integerIn neg m e (-149) 127).isSome then
      (rne32 (.fin false 1 ((integerIn neg m e (-149) 127).getD 0)), 0)
    else if (fn = .log2 ∨ fn = .log) ∧ m = 2 ^ Nat.log2 m ∧ (fn = .log2 ∨ leadExp m e = 0) then
      (rne32 (fvalOfInt (leadExp m e)), 0)
    else
      let x := FVal.fin neg m e
      let y := trueValue fn neg m e
      let near := roundFp fp32 .rn y false
      let inexact := flagIf (fn = .exp2 ∨ fn = .log2) flagInexact
      if near.1 = pinf then (pinf, flagOverflow ||| inexact)
      else
        let r := openResult fn x y code near.1
        (r, inexact ||| flagIf (fn = .exp2 ∧ r < 0x00800000) flagUnderflow)

/-- A special function on an element of a type: a 16-bit element is widened, and its result rounded once (R63, R135). -/
def elSpecial (fn : SpecialFn) (f : FpFmt) (a : Nat) : Nat × Flags :=
  if f.width = 32 then special32 fn a
  else
    let x := decodeFp f a
    let r := special32 fn (rne32 x)
    let n := roundFp f .rn (decodeFp fp32 r.1) false
    (n.1, r.2 ||| (n.2 &&& flagOverflow) ||| flagIf x.isSnan flagInvalid)

end Sys2Proof.Machine

namespace Sys2Proof

def SfTy.fp : SfTy → FpTy
  | .f32 => .f32
  | .f16x2 => .f16x2
  | .bf16x2 => .bf16x2

end Sys2Proof

namespace Sys2Proof.Machine

def specialJob (fn : SpecialFn) (ty : SfTy) : Job :=
  aluJob (fpSig1 ty.fp) (fpEach ty.fp fun a _ _ => elSpecial fn ty.fp.fmt a)

/-- exp2 (R63, R134). -/
def execExp2 (ty : SfTy) (o : Operands) (s : State) : Out := (specialJob .exp2 ty).issue o.fields s

/-- log2 (R63, R134). -/
def execLog2 (ty : SfTy) (o : Operands) (s : State) : Out := (specialJob .log2 ty).issue o.fields s

/-- exp (R63, R134). -/
def execExp (ty : SfTy) (o : Operands) (s : State) : Out := (specialJob .exp ty).issue o.fields s

/-- log (R63, R134). -/
def execLog (ty : SfTy) (o : Operands) (s : State) : Out := (specialJob .log ty).issue o.fields s

/-- sin (R63, R134). -/
def execSin (ty : SfTy) (o : Operands) (s : State) : Out := (specialJob .sin ty).issue o.fields s

/-- cos (R63, R134). -/
def execCos (ty : SfTy) (o : Operands) (s : State) : Out := (specialJob .cos ty).issue o.fields s

/-- tanh (R63, R134). -/
def execTanh (ty : SfTy) (o : Operands) (s : State) : Out := (specialJob .tanh ty).issue o.fields s

/-- sigm (R63, R134). -/
def execSigm (ty : SfTy) (o : Operands) (s : State) : Out := (specialJob .sigm ty).issue o.fields s

end Sys2Proof.Machine
end

