-- ==== Sys2Proof/Machine/System.lean ====
section
/-! DEFINITION. Control and status registers, trap, brk and eret (R23-R25, R116-R118, R276, R295, R379, R381, R384). -/

namespace Sys2Proof.Machine

/-- Word j of a latch as the frame shows it. -/
def frameWord (f : TrapFrame) (k j : Nat) : Nat :=
  match f.held.getD k none with
  | some l => if 32 * j < l.width.bits then bitsAt l.val.toNat (32 * j) 32 else 0
  | none => 0

/-- TF_BSTATE: which latches held a value, and their widths (R379). -/
def frameState (f : TrapFrame) : Nat :=
  (List.range 4).foldl (fun n k => match f.held.getD k none with
    | some l => n + 2 ^ k + 2 ^ (2 * k + 4) * (match l.width with | .w32 => 0 | .w64 => 1 | .w128 => 2)
    | none => n) 0

/-- A frame register: whether it is 64 bits wide, and its value (R379 Table 2). -/
def frameRead (f : TrapFrame) (n : Nat) : Option (Bool × Nat) :=
  match n with
  | 0x400 => some (false, f.code.toNat)
  | 0x401 => some (false, f.pc.toNat)
  | 0x402 => some (false, f.hdr.toNat)
  | 0x403 => some (false, f.nxt.toNat)
  | 0x404 => some (false, f.resume.toNat)
  | 0x405 => some (false, f.info.toNat)
  | 0x406 => some (true, f.addr.toNat)
  | 0x408 => some (true, f.seq.toNat)
  | 0x40A => some (false, f.fpstat.toNat)
  | 0x40B => some (false, frameState f)
  | n => if 0x410 ≤ n ∧ n ≤ 0x41F then some (false, frameWord f ((n - 0x410) / 4) ((n - 0x410) % 4)) else none

/-- MSTATE: the OPEN accumulators and the gather latch (R295). -/
def engineState (e : Engine) : Nat :=
  packElems 1 (e.acc.map fun x => if x.opened then 1 else 0) + (if e.latchMeta.isSome then 256 else 0)

/-- A control and status register of an agent: its width and value; none for a number it may not read (R23, R276, R295,
R379, R384). -/
def State.csrRead (s : State) (ai n : Nat) : Option (Bool × Nat) :=
  let a := s.agent ai
  let b := s.block a.block
  let l := s.launch a.launch
  let c := s.ctx a.ctx
  let core := s.coreOf a
  let sh := b.share a.pos
  let t (v : Option (Bool × Nat)) : Option (Bool × Nat) := if a.drover then none else v
  let d (v : Option (Bool × Nat)) : Option (Bool × Nat) := if a.drover then v else none
  if 0x400 ≤ n ∧ n ≤ 0x7FF then (if a.trapMode then frameRead a.frame n else none)
  else if 0x010 ≤ n ∧ n ≤ 0x017 then some (true, (sh.streams.getD (n - 0x010) {}).wpos)
  else match n with
  | 0x000 => t (some (false, a.lane))
  | 0x001 => t (some (false, a.tidx))
  | 0x002 => some (false, b.bidx)
  | 0x003 => some (false, core)
  | 0x004 => some (false, quartetOfCore core)
  | 0x005 => some (false, dieOfCore core)
  | 0x006 => some (false, s.mgmt.devnum)
  | 0x007 => some (false, a.ctx % 0x10000)
  | 0x008 => some (true, (s.core core).cycle.toNat)
  | 0x009 => t (some (false, a.fpstat.toNat))
  | 0x00A => t (some (false, b.partner))
  | 0x00B => some (true, c.codeBase)
  | 0x00C => some (false, c.codeLimit)
  | 0x00D => t (some (false, l.regs))
  | 0x00E => t (some (false, l.tileSize))
  | 0x00F => t (some (false, l.spillSize))
  | 0x018 => some (true, c.dropcnt.toNat)
  | 0x020 => d (some (false, a.pos))
  | 0x021 => d (some (true, a.solo.toNat))
  | 0x022 => d (some (false, a.ended.toNat + (if l.paired then 256 else 0)))
  | 0x023 => d (some (false, engineState sh.engine))
  | _ => none

/-- A 64-bit register needs an even DST that is no discard problem, in a thread (R17, R116). -/
def csrrCheck (f : Fields) (s : State) (l : Lane) : Option Trap :=
  let a := s.agent l.agent
  match s.csrRead l.agent (l.b.toNat % 2 ^ 32) with
  | none => some { code := .illegalInstruction }
  | some (wide, _) =>
    if wide && !a.drover && decide (f.dst.toNat < 0x200) && decide (f.dst.toNat % 2 = 1) then some (badField 0) else none

/-- The read of a WPOS observes the completion of a convoy's writes: an acquire, and a completion point (R234, R276). -/
def readsWpos (l : Lane) : Bool := let n := l.b.toNat % 2 ^ 32; decide (0x010 ≤ n) && decide (n ≤ 0x017)

/-- csrr d, n (R116). -/
def execCsrr (o : Operands) (s : State) : Out :=
  ({ sig := { dst := .w32, b := .b32, drover := true }
     check := csrrCheck o.fields
     perform := fun s ls =>
       (ls.foldl (fun t l => if l.want && readsWpos l then t.completionPoint l.agent else t) s, ls.map fun l =>
         match s.csrRead l.agent (l.b.toNat % 2 ^ 32) with
         | some (wide, v) => { val := BitVec.ofNat 128 v, wide := wide }
         | none => {}) } : Job).issue o.fields s

/-- A register that csrw may write (R23, R295, R379). -/
def csrWritable (a : Agent) (n : Nat) : Bool :=
  if a.drover then n = 0x021 || n = 0x022 || (a.trapMode && (n = 0x404 || n = 0x40A))
  else n = 0x009 || (a.trapMode && (n = 0x404 || n = 0x40A))

/-- The agent after a write of `v` to register `n` (R24, R295, R379). -/
def csrWrite (a : Agent) (n : Nat) (v : Word) : Agent :=
  match n with
  | 0x009 => { a with fpstat := v.setWidth 5 }
  | 0x021 => { a with solo := v.setWidth 64 }
  | 0x022 => { a with ended := v.setWidth 2 }
  | 0x404 => { a with frame := { a.frame with resume := v } }
  | 0x40A => { a with frame := { a.frame with fpstat := v.setWidth 5 } }
  | _ => a

def csrwLane (s : State) (l : Lane) : State × LaneRes :=
  if l.want then (s.updAgent l.agent fun a => csrWrite a (l.b.toNat % 2 ^ 32) (l.c.setWidth 32), {}) else (s, {})

/-- csrw n, c (R116, R117). -/
def execCsrw (o : Operands) (s : State) : Out :=
  ({ sig := { b := .b32, c := .b32, drover := true }
     check := fun s l => if csrWritable (s.agent l.agent) (l.b.toNat % 2 ^ 32) then none else some { code := .illegalInstruction }
     perform := eachLane csrwLane } : Job).issue o.fields s

/-- A job whose whole effect is a trap with the code in source B (R118). -/
def trapJob (code : FaultCode) : Job where
  sig := { b := .b32, drover := true }
  check := fun _ l => some { code := code, info := l.b.setWidth 32 }
  perform := fun s ls => (s, ls.map fun _ => {})

/-- trap code: raises SOFTWARE_TRAP (R118). -/
def execTrap (o : Operands) (s : State) : Out := (trapJob .softwareTrap).issue o.fields s

/-- brk code: raises BREAKPOINT (R118). -/
def execBrk (o : Operands) (s : State) : Out := (trapJob .breakpoint).issue o.fields s

/-! ## eret (R381) -/

/-- Out of trap mode: FPSTAT takes TF_FPSTAT (threads only). -/
def leaveTrap (a : Agent) : Agent :=
  { a with trapMode := false, fpstat := if a.drover then a.fpstat else a.frame.fpstat }

/-- The latches and instruction number at a resume point inside the block (R80, R82). -/
def restoreInside (a : Agent) (t : Word) : Agent :=
  { a with latches := restoredLatches a, issued := if t = a.frame.pc then a.frame.issued else a.frame.issued + 1 }

/-- eret from a fault met in quad-locked code: the thread rejoins its held quad, which goes on at the point it names once no
other thread of it is in trap mode; after an entry fault each thread has a target of its own. -/
def State.eretQuad (s : State) (i : Nat) : State :=
  let a := s.agent i
  let f := a.frame
  let s1 := s.updAgent i fun a =>
    { restoreInside (leaveTrap a) f.pc with stand := .quadTrap true (!f.entry), pc := f.resume, hdr := f.hdr }
  (if f.entry then s1 else s1.aimQuad a.block a.quadNo f.resume (s.insideFrame a f.resume)).resumeQuad a.block a.quadNo f.pc

/-- eret leaves the locked quads of a QLOCK block of a trap routine (DESIGN CHOICE, assumption 52: R155 and R381 do not speak
of it): they unlock, their discarded threads end, and the helpers wait at their own targets. -/
def State.breakQuads (s : State) (c : Caravan) (goes : List Nat) : State :=
  let rest := (c.members.map (·.agent)).filter fun i => !goes.contains i
  let qs := (c.members.map fun m => (s.agent m.agent).quadNo).eraseDups
  let p := (s.agent ((c.members.headD ⟨0, false⟩).agent)).pos
  let s1 := s.updBlock c.block fun k => { k with quads := k.quads.filter fun q => !qs.contains q }
  rest.foldl (fun t i =>
    if (t.agent i).stand = .discarded then t.endAgent i else t.arrive i (t.agent i).pc) (qs.foldl (fun t q => t.leaveRecords c.block p q) s1)

/-- After eret in the lanes `ls` of caravan `ci`: threads that left to one point inside one block form one caravan, which
stands in the pending set with its latches until it takes a position (DESIGN CHOICE, assumption 52: Table 5 of R151 names
no state for it); the others enter the header at their resume point. -/
def eretFinish (s : State) (ci : Nat) (ls : List Lane) : State :=
  let c := s.caravan ci
  let frame (i : Nat) : TrapFrame := (s.agent i).frame
  let ids := (ls.filter (·.want)).map (·.agent)
  let sd := s.updCaravan ci fun k => { k with place := .dissolved, members := [] }
  let s0 := if c.qlock then sd.breakQuads c ids else sd
  -- a quad fault resumes only at TF_PC or TF_NEXT
  let bad := ids.filter fun i => (frame i).quad && (frame i).resume ≠ (frame i).pc && (frame i).resume ≠ (frame i).nxt
  let quads := ids.filter fun i => (frame i).quad && !bad.contains i
  let plain := ids.filter fun i => !(frame i).quad
  let inside := plain.filter fun i => s.insideFrame (s.agent i) (frame i).resume
  let outside := plain.filter fun i => !inside.contains i
  let s1 := bad.foldl (fun t i => t.takeTrap i { code := .illegalInstruction } (faultPoint { c with qlock := false } 8)) s0
  let s2 := quads.foldl (fun t i => t.eretQuad i) s1
  let s3 := inside.foldl (fun t i => t.updAgent i fun a => restoreInside (leaveTrap a) (frame i).resume) s2
  let points := (inside.map fun i => ((frame i).hdr, (frame i).resume)).eraseDups
  let s4 := points.foldl (fun t p =>
    let ms := inside.filter fun i => (frame i).hdr = p.1 && (frame i).resume = p.2
    let drover := ms.any fun i => (s.agent i).drover
    t.caravanFor c.block c.core p.1 p.2 (ms.map fun i => ⟨i, true⟩) [] (if drover then .drover else .pending)) s3
  outside.foldl (fun t i => (t.updAgent i leaveTrap).enter i (frame i).resume c.hdr) s4

/-- eret: returns from trap mode; outside it, ILLEGAL_INSTRUCTION (R381). -/
def execEret (o : Operands) (s : State) : Out :=
  ({ sig := { imm := false, leaves := true, drover := true }
     check := fun s l => if (s.agent l.agent).trapMode then none else some { code := .illegalInstruction }
     perform := fun s ls => (s, ls.map fun _ => {})
     finish := some eretFinish } : Job).issue o.fields s

end Sys2Proof.Machine
end

