-- ==== Sys2Proof/Machine/Dispatch.lean ====
section
/-! DEFINITION. What every instruction and event does: one arm per constructor of `Instr`. -/

namespace Sys2Proof.Machine

/-- The meaning of an instruction. -/
def exec (i : Instr) (s : State) : Host.Outcome State Fault Refusal :=
  match i with
  | .intAdd ty o => Sys2Proof.Machine.execIntAdd ty o s
  | .intSub ty o => Sys2Proof.Machine.execIntSub ty o s
  | .intAdds ty o => Sys2Proof.Machine.execIntAdds ty o s
  | .intSubs ty o => Sys2Proof.Machine.execIntSubs ty o s
  | .intMul ty o => Sys2Proof.Machine.execIntMul ty o s
  | .intMulhi ty o => Sys2Proof.Machine.execIntMulhi ty o s
  | .intMad ty o => Sys2Proof.Machine.execIntMad ty o s
  | .intMin ty o => Sys2Proof.Machine.execIntMin ty o s
  | .intMax ty o => Sys2Proof.Machine.execIntMax ty o s
  | .intCmpeq ty o => Sys2Proof.Machine.execIntCmpeq ty o s
  | .intCmplt ty o => Sys2Proof.Machine.execIntCmplt ty o s
  | .intCmple ty o => Sys2Proof.Machine.execIntCmple ty o s
  | .andB32 o => Sys2Proof.Machine.execAndB32 o s
  | .orB32 o => Sys2Proof.Machine.execOrB32 o s
  | .xorB32 o => Sys2Proof.Machine.execXorB32 o s
  | .andnB32 o => Sys2Proof.Machine.execAndnB32 o s
  | .shlB32 o => Sys2Proof.Machine.execShlB32 o s
  | .shrN32 o => Sys2Proof.Machine.execShrN32 o s
  | .shrS32 o => Sys2Proof.Machine.execShrS32 o s
  | .rotB32 o => Sys2Proof.Machine.execRotB32 o s
  | .shlB64 o => Sys2Proof.Machine.execShlB64 o s
  | .shrN64 o => Sys2Proof.Machine.execShrN64 o s
  | .shrS64 o => Sys2Proof.Machine.execShrS64 o s
  | .bfeN32 o => Sys2Proof.Machine.execBfeN32 o s
  | .bfeS32 o => Sys2Proof.Machine.execBfeS32 o s
  | .bfiB32 o => Sys2Proof.Machine.execBfiB32 o s
  | .popcB32 o => Sys2Proof.Machine.execPopcB32 o s
  | .clzB32 o => Sys2Proof.Machine.execClzB32 o s
  | .brevB32 o => Sys2Proof.Machine.execBrevB32 o s
  | .selB32 o => Sys2Proof.Machine.execSelB32 o s
  | .movB32 o => Sys2Proof.Machine.execMovB32 o s
  | .movB64 o => Sys2Proof.Machine.execMovB64 o s
  | .movB128 o => Sys2Proof.Machine.execMovB128 o s
  | .mulwS32 o => Sys2Proof.Machine.execMulwS32 o s
  | .mulwN32 o => Sys2Proof.Machine.execMulwN32 o s
  | .dot4S32 o => Sys2Proof.Machine.execDot4S32 o s
  | .dot4N32 o => Sys2Proof.Machine.execDot4N32 o s
  | .dot2S32 o => Sys2Proof.Machine.execDot2S32 o s
  | .dot2N32 o => Sys2Proof.Machine.execDot2N32 o s
  | .leaB64 o => Sys2Proof.Machine.execLeaB64 o s
  | .cmpneB32 o => Sys2Proof.Machine.execCmpneB32 o s
  | .andB64 o => Sys2Proof.Machine.execAndB64 o s
  | .orB64 o => Sys2Proof.Machine.execOrB64 o s
  | .xorB64 o => Sys2Proof.Machine.execXorB64 o s
  | .pairedWord p => Sys2Proof.Machine.execPairedWord p s
  | .br o => Sys2Proof.Machine.execBr o s
  | .brz o => Sys2Proof.Machine.execBrz o s
  | .brnz o => Sys2Proof.Machine.execBrnz o s
  | .brx o => Sys2Proof.Machine.execBrx o s
  | .call o => Sys2Proof.Machine.execCall o s
  | .callx o => Sys2Proof.Machine.execCallx o s
  | .ret o => Sys2Proof.Machine.execRet o s
  | .exit o => Sys2Proof.Machine.execExit o s
  | .qloop o => Sys2Proof.Machine.execQloop o s
  | .yield o => Sys2Proof.Machine.execYield o s
  | .nop o => Sys2Proof.Machine.execNop o s
  | .ldPrivate sp ty o => Sys2Proof.Machine.execLdPrivate sp ty o s
  | .stPrivate sp ty o => Sys2Proof.Machine.execStPrivate sp ty o s
  | .csrr o => Sys2Proof.Machine.execCsrr o s
  | .csrw o => Sys2Proof.Machine.execCsrw o s
  | .trap o => Sys2Proof.Machine.execTrap o s
  | .brk o => Sys2Proof.Machine.execBrk o s
  | .fpAdd rm ty o => Sys2Proof.Machine.execFpAdd rm ty o s
  | .fpSub ty o => Sys2Proof.Machine.execFpSub ty o s
  | .fpMul rm ty o => Sys2Proof.Machine.execFpMul rm ty o s
  | .fpFma rm ty o => Sys2Proof.Machine.execFpFma rm ty o s
  | .fpMin ty o => Sys2Proof.Machine.execFpMin ty o s
  | .fpMax ty o => Sys2Proof.Machine.execFpMax ty o s
  | .fpCmpeq ty o => Sys2Proof.Machine.execFpCmpeq ty o s
  | .fpCmplt ty o => Sys2Proof.Machine.execFpCmplt ty o s
  | .fpCmple ty o => Sys2Proof.Machine.execFpCmple ty o s
  | .fpCmpun ty o => Sys2Proof.Machine.execFpCmpun ty o s
  | .fpClass ty o => Sys2Proof.Machine.execFpClass ty o s
  | .fpRint rm ty o => Sys2Proof.Machine.execFpRint rm ty o s
  | .fpScale ty o => Sys2Proof.Machine.execFpScale ty o s
  | .fpDiv ty o => Sys2Proof.Machine.execFpDiv ty o s
  | .fpSqrt ty o => Sys2Proof.Machine.execFpSqrt ty o s
  | .fpRcp ty o => Sys2Proof.Machine.execFpRcp ty o s
  | .fpRsqrt ty o => Sys2Proof.Machine.execFpRsqrt ty o s
  | .fpCpsgn ty o => Sys2Proof.Machine.execFpCpsgn ty o s
  | .cvtScalar k o => Sys2Proof.Machine.execCvtScalar k o s
  | .cvtNarrowMx f o => Sys2Proof.Machine.execCvtNarrowMx f o s
  | .cvtWidenMx f o => Sys2Proof.Machine.execCvtWidenMx f o s
  | .cvtF32E8m0 o => Sys2Proof.Machine.execCvtF32E8m0 o s
  | .qscl f o => Sys2Proof.Machine.execQscl f o s
  | .qnt f o => Sys2Proof.Machine.execQnt f o s
  | .cpnd o => Sys2Proof.Machine.execCpnd o s
  | .cpndi o => Sys2Proof.Machine.execCpndi o s
  | .cpinst o => Sys2Proof.Machine.execCpinst o s
  | .pkB16x2 o => Sys2Proof.Machine.execPkB16x2 o s
  | .pkB8x4 o => Sys2Proof.Machine.execPkB8x4 o s
  | .upkB8x4 o => Sys2Proof.Machine.execUpkB8x4 o s
  | .upkB16x2 o => Sys2Proof.Machine.execUpkB16x2 o s
  | .exp2 ty o => Sys2Proof.Machine.execExp2 ty o s
  | .log2 ty o => Sys2Proof.Machine.execLog2 ty o s
  | .exp ty o => Sys2Proof.Machine.execExp ty o s
  | .log ty o => Sys2Proof.Machine.execLog ty o s
  | .sin ty o => Sys2Proof.Machine.execSin ty o s
  | .cos ty o => Sys2Proof.Machine.execCos ty o s
  | .tanh ty o => Sys2Proof.Machine.execTanh ty o s
  | .sigm ty o => Sys2Proof.Machine.execSigm ty o s
  | .rngB128 o => Sys2Proof.Machine.execRngB128 o s
  | .rnguF32 o => Sys2Proof.Machine.execRnguF32 o s
  | .shflIdx o => Sys2Proof.Machine.execShflIdx o s
  | .shflUp o => Sys2Proof.Machine.execShflUp o s
  | .shflDown o => Sys2Proof.Machine.execShflDown o s
  | .shflXor o => Sys2Proof.Machine.execShflXor o s
  | .shflBcast o => Sys2Proof.Machine.execShflBcast o s
  | .shflIdxB64 o => Sys2Proof.Machine.execShflIdxB64 o s
  | .voteAll o => Sys2Proof.Machine.execVoteAll o s
  | .voteAny o => Sys2Proof.Machine.execVoteAny o s
  | .voteEq o => Sys2Proof.Machine.execVoteEq o s
  | .ballot o => Sys2Proof.Machine.execBallot o s
  | .elect o => Sys2Proof.Machine.execElect o s
  | .matchB32 o => Sys2Proof.Machine.execMatchB32 o s
  | .matchB64 o => Sys2Proof.Machine.execMatchB64 o s
  | .cred op o => Sys2Proof.Machine.execCred op o s
  | .scan op o => Sys2Proof.Machine.execScan op o s
  | .scanx op o => Sys2Proof.Machine.execScanx op o s
  | .ddxC ty o => Sys2Proof.Machine.execDdxC ty o s
  | .ddyC ty o => Sys2Proof.Machine.execDdyC ty o s
  | .ddxF ty o => Sys2Proof.Machine.execDdxF ty o s
  | .ddyF ty o => Sys2Proof.Machine.execDdyF ty o s
  | .barArrive o => Sys2Proof.Machine.execBarArrive o s
  | .barWait o => Sys2Proof.Machine.execBarWait o s
  | .barSync o => Sys2Proof.Machine.execBarSync o s
  | .barrierWaitResume thread => Sys2Proof.Machine.execBarrierWaitResume thread s
  | .obarInit o => Sys2Proof.Machine.execObarInit o s
  | .obarArrive o => Sys2Proof.Machine.execObarArrive o s
  | .obarWait o => Sys2Proof.Machine.execObarWait o s
  | .obarSync o => Sys2Proof.Machine.execObarSync o s
  | .obarWaitResume thread => Sys2Proof.Machine.execObarWaitResume thread s
  | .drain o => Sys2Proof.Machine.execDrain o s
  | .drainAckDone thread => Sys2Proof.Machine.execDrainAckDone thread s
  | .psync o => Sys2Proof.Machine.execPsync o s
  | .psyncMeet thread => Sys2Proof.Machine.execPsyncMeet thread s
  | .ldV ty o => Sys2Proof.Machine.execLdV ty o s
  | .stV ty o => Sys2Proof.Machine.execStV ty o s
  | .ldAcq ty o => Sys2Proof.Machine.execLdAcq ty o s
  | .stRel ty o => Sys2Proof.Machine.execStRel ty o s
  | .ldUa ty o => Sys2Proof.Machine.execLdUa ty o s
  | .stUa ty o => Sys2Proof.Machine.execStUa ty o s
  | .ldAdv ty o => Sys2Proof.Machine.execLdAdv ty o s
  | .chk ty o => Sys2Proof.Machine.execChk ty o s
  | .atomAdd ty o => Sys2Proof.Machine.execAtomAdd ty o s
  | .atomMin ty o => Sys2Proof.Machine.execAtomMin ty o s
  | .atomMax ty o => Sys2Proof.Machine.execAtomMax ty o s
  | .atomAnd ty o => Sys2Proof.Machine.execAtomAnd ty o s
  | .atomOr ty o => Sys2Proof.Machine.execAtomOr ty o s
  | .atomXor ty o => Sys2Proof.Machine.execAtomXor ty o s
  | .atomExch ty o => Sys2Proof.Machine.execAtomExch ty o s
  | .atomCas ty o => Sys2Proof.Machine.execAtomCas ty o s
  | .redAdd ty o => Sys2Proof.Machine.execRedAdd ty o s
  | .redMin ty o => Sys2Proof.Machine.execRedMin ty o s
  | .redMax ty o => Sys2Proof.Machine.execRedMax ty o s
  | .redAnd ty o => Sys2Proof.Machine.execRedAnd ty o s
  | .redOr ty o => Sys2Proof.Machine.execRedOr ty o s
  | .redXor ty o => Sys2Proof.Machine.execRedXor ty o s
  | .reductionRunApply elem count => Sys2Proof.Machine.execReductionRunApply elem count s
  | .fence o => Sys2Proof.Machine.execFence o s
  | .fenceAcq o => Sys2Proof.Machine.execFenceAcq o s
  | .fenceRel o => Sys2Proof.Machine.execFenceRel o s
  | .tfence o => Sys2Proof.Machine.execTfence o s
  | .scpw o => Sys2Proof.Machine.execScpw o s
  | .scpinv o => Sys2Proof.Machine.execScpinv o s
  | .eret o => Sys2Proof.Machine.execEret o s
  | .mfset x => Sys2Proof.Machine.execMfset x s
  | .mfget x => Sys2Proof.Machine.execMfget x s
  | .cvyCopy x => Sys2Proof.Machine.execCvyCopy x s
  | .cvyGath x => Sys2Proof.Machine.execCvyGath x s
  | .cvyScat x => Sys2Proof.Machine.execCvyScat x s
  | .cvyTrn x => Sys2Proof.Machine.execCvyTrn x s
  | .cvyConv x => Sys2Proof.Machine.execCvyConv x s
  | .cvyCmpr x => Sys2Proof.Machine.execCvyCmpr x s
  | .cvyDcmp x => Sys2Proof.Machine.execCvyDcmp x s
  | .cvyMcst x => Sys2Proof.Machine.execCvyMcst x s
  | .cvyA2a x => Sys2Proof.Machine.execCvyA2a x s
  | .convoyComplete op => Sys2Proof.Machine.execConvoyComplete op s
  | .convoyFaultStop op => Sys2Proof.Machine.execConvoyFaultStop op s
  | .vmx x => Sys2Proof.Machine.execVmx x s
  | .cutq x => Sys2Proof.Machine.execCutq x s
  | .cutComplete op => Sys2Proof.Machine.execCutComplete op s
  | .emit x => Sys2Proof.Machine.execEmit x s
  | .travfmt x => Sys2Proof.Machine.execTravfmt x s
  | .trav x => Sys2Proof.Machine.execTrav x s
  | .travQueryComplete op => Sys2Proof.Machine.execTravQueryComplete op s
  | .mzro x => Sys2Proof.Machine.execMzro x s
  | .mchb x => Sys2Proof.Machine.execMchb x s
  | .mche x => Sys2Proof.Machine.execMche x s
  | .mma x => Sys2Proof.Machine.execMma x s
  | .mgth x => Sys2Proof.Machine.execMgth x s
  | .mmap x => Sys2Proof.Machine.execMmap x s
  | .mdrn x => Sys2Proof.Machine.execMdrn x s
  | .mdrg x => Sys2Proof.Machine.execMdrg x s
  | .matrixCommandComplete drover => Sys2Proof.Machine.execMatrixCommandComplete drover s
  | .queueWaitResume caravan => Sys2Proof.Machine.execQueueWaitResume caravan s
  | .queueMisuseDetect block => Sys2Proof.Machine.execQueueMisuseDetect block s
  | .positionFill core slot pos => Sys2Proof.Machine.execPositionFill core slot pos s
  | .swapOut caravan => Sys2Proof.Machine.execSwapOut caravan s
  | .ageLimitReached what => Sys2Proof.Machine.execAgeLimitReached what s
  | .blockPlace launch cores => Sys2Proof.Machine.execBlockPlace launch cores s
  | .blockRetire block => Sys2Proof.Machine.execBlockRetire block s
  | .pageWalk ctx core va => Sys2Proof.Machine.execPageWalk ctx core va s
  | .mergeWindowExpire sector => Sys2Proof.Machine.execMergeWindowExpire sector s
  | .acknowledgement index => Sys2Proof.Machine.execAcknowledgement index s
  | .inj who arr v => Sys2Proof.Machine.execInj who arr v s
  | .carve pkt => Sys2Proof.Machine.execCarve pkt s
  | .spgrant pkt => Sys2Proof.Machine.execSpgrant pkt s
  | .sprevoke pkt => Sys2Proof.Machine.execSprevoke pkt s
  | .preempt pkt => Sys2Proof.Machine.execPreempt pkt s
  | .blockSave block => Sys2Proof.Machine.execBlockSave block s
  | .resume pkt => Sys2Proof.Machine.execResume pkt s
  | .blockRestore block cores => Sys2Proof.Machine.execBlockRestore block cores s
  | .ereplay pkt => Sys2Proof.Machine.execEreplay pkt s
  | .priorityPreempt launch => Sys2Proof.Machine.execPriorityPreempt launch s
  | .ctxnew pkt => Sys2Proof.Machine.execCtxnew pkt s
  | .ctxfree pkt => Sys2Proof.Machine.execCtxfree pkt s
  | .qcreate pkt => Sys2Proof.Machine.execQcreate pkt s
  | .qfree pkt => Sys2Proof.Machine.execQfree pkt s
  | .qgrant pkt => Sys2Proof.Machine.execQgrant pkt s
  | .hostwin pkt => Sys2Proof.Machine.execHostwin pkt s
  | .podjoin pkt => Sys2Proof.Machine.execPodjoin pkt s
  | .notify port queue v => Sys2Proof.Machine.execNotify port queue v s
  | .packetDequeue queue => Sys2Proof.Machine.execPacketDequeue queue s
  | .launchSemaphoreReady launch => Sys2Proof.Machine.execLaunchSemaphoreReady launch s
  | .packetRetire queue => Sys2Proof.Machine.execPacketRetire queue s
  | .evbase port v => Sys2Proof.Machine.execEvbase port v s
  | .evsize port v => Sys2Proof.Machine.execEvsize port v s
  | .evrd port v => Sys2Proof.Machine.execEvrd port v s
  | .bar0Write port off v => Sys2Proof.Machine.execBar0Write port off v s
  | .hostBar2Read port off len => Sys2Proof.Machine.execHostBar2Read port off len s
  | .hostBar2Write port off bytes => Sys2Proof.Machine.execHostBar2Write port off bytes s
  | .itineraryNodeStart walk => Sys2Proof.Machine.execItineraryNodeStart walk s
  | .nodeComplete walk => Sys2Proof.Machine.execNodeComplete walk s
  | .tileAssign pass core => Sys2Proof.Machine.execTileAssign pass core s
  | .binTriangle pass page => Sys2Proof.Machine.execBinTriangle pass page s
  | .renderPhaseStart pass tile => Sys2Proof.Machine.execRenderPhaseStart pass tile s
  | .rasterNodeComplete pass => Sys2Proof.Machine.execRasterNodeComplete pass s
  | .remoteRequest req => Sys2Proof.Machine.execRemoteRequest req s
  | .remoteTimeout index => Sys2Proof.Machine.execRemoteTimeout index s
  | .a2aArrival op rank => Sys2Proof.Machine.execA2aArrival op rank s
  | .portJoin port duplicate => Sys2Proof.Machine.execPortJoin port duplicate s
  | .devnumSet n => Sys2Proof.Machine.execDevnumSet n s
  | .hostsel port => Sys2Proof.Machine.execHostsel port s
  | .mainRelease => Sys2Proof.Machine.execMainRelease s
  | .mainHold => Sys2Proof.Machine.execMainHold s
  | .mainReset => Sys2Proof.Machine.execMainReset s
  | .firmwareUpdate image => Sys2Proof.Machine.execFirmwareUpdate image s
  | .spdmRequest via req => Sys2Proof.Machine.execSpdmRequest via req s
  | .sensorRead sensor => Sys2Proof.Machine.execSensorRead sensor s
  | .powerCapSet watts => Sys2Proof.Machine.execPowerCapSet watts s
  | .errlogRead who arr => Sys2Proof.Machine.execErrlogRead who arr s
  | .errlogClear who arr => Sys2Proof.Machine.execErrlogClear who arr s
  | .thermal sensor celsius => Sys2Proof.Machine.execThermal sensor celsius s
  | .streamByteWritten op p => Sys2Proof.Machine.execStreamByteWritten op p s
  | .carveComplete die => Sys2Proof.Machine.execCarveComplete die s
  | .softError arr loc double => Sys2Proof.Machine.execSoftError arr loc double s
  | .writeBack sector => Sys2Proof.Machine.execWriteBack sector s
  | .advanceLoadEntryRemove thread index => Sys2Proof.Machine.execAdvanceLoadEntryRemove thread index s
  | .peerArrival device key scope => Sys2Proof.Machine.execPeerArrival device key scope s
  | .ualinkPortDown port => Sys2Proof.Machine.execUalinkPortDown port s
  | .pcieLinkDown port => Sys2Proof.Machine.execPcieLinkDown port s
  | .warningTemperature die up => Sys2Proof.Machine.execWarningTemperature die up s

end Sys2Proof.Machine
end

