-- ==== Sys2Proof/Machine/Policy.lean ====
section
/-! DEFINITION. What comes next when the agenda names nothing: the device's own events that are due, in a fixed order; then the
issue of a caravan; then what only waiting allows; then time. Each is one of the choices the manual leaves open (assumption
9); the agenda can name any other. -/

namespace Sys2Proof.Machine

/-- The event does something in this state. -/
def State.stirs (s : State) (i : Instr) : Bool :=
  match exec i s with
  | .next t => decide (t ≠ s)
  | _ => false

/-- The command of a packet. -/
def commandEvent (opc : Nat) (r : PacketRef) : List Instr :=
  match opc with
  | 0x01 => [.ctxnew r]
  | 0x02 => [.ctxfree r]
  | 0x03 => [.qcreate r]
  | 0x04 => [.qfree r]
  | 0x05 => [.qgrant r]
  | 0x06 => [.hostwin r]
  | 0x10 => [.carve r]
  | 0x11 => [.spgrant r]
  | 0x12 => [.sprevoke r]
  | 0x20 => [.preempt r]
  | 0x21 => [.resume r]
  | 0x22 => [.ereplay r]
  | 0x23 => [.podjoin r]
  | _ => []

/-- The Dispatcher's events of a queue. -/
def State.queueEvents (s : State) (q : Nat) : List Instr :=
  (s.queue q).pkts.flatMap (fun p =>
    if p.kind = 2 && p.started && p.result.isNone && p.waits.isEmpty then commandEvent p.opc ⟨q, p.index⟩ else []) ++
    [.packetRetire q, .packetDequeue q]

/-- Core lists of one quartet for a block of `n` threads. -/
def coreLists (n : Nat) : List (List Nat) :=
  (List.range 16).flatMap fun q => choose (coresFor n) ((List.range 4).map fun i => 4 * q + i)

def State.launchEvents (s : State) (li : Nat) : List Instr :=
  let l := s.launch li
  match l.state with
  | .done => []
  | .semaphore => [.launchSemaphoreReady li]
  | .running =>
    if l.itinerary || decide (l.placed ≥ l.nblock) then []
    else match l.onCore with
      | some c => [.blockPlace li [c]]
      | none => (coreLists (l.sizeOf l.placed)).map (.blockPlace li) ++ [.priorityPreempt li]

def State.blockEvents (s : State) (b : Nat) : List Instr :=
  let k := s.block b
  match k.state with
  | .retired => []
  | .saving => [.blockSave b]
  | .saved => if s.pairRoot b then (coreLists k.size).map (.blockRestore b) else []
  | .resident => [.blockRetire b]
  | _ => []

def State.walkEvents (s : State) (w : Nat) : List Instr :=
  match (s.walks.getD w {}).state with
  | .ended _ _ => []
  | .atNode => [.itineraryNodeStart w]
  | .armed => [.itineraryNodeStart w]
  | _ => [.nodeComplete w]

def State.passEvents (s : State) (p : Nat) : List Instr :=
  let q := s.passes.getD p {}
  if q.done then []
  else (q.runs.filter fun r => decide (r.phase < 7)).map (fun r => .renderPhaseStart p r.tile) ++
    (List.range Config.nCores).map (.tileAssign p) ++ [.binTriangle p (q.used.length), .rasterNodeComplete p]

def State.opEvents (s : State) (i : Nat) : List Instr :=
  match s.ops[i]? with
  | some op => match op.state, op.body with
    | .running, .convoy c =>
      [.streamByteWritten i ((List.range c.len).find? (fun p => !c.hasLeft p) |>.getD 0)] ++
        (if c.kind = .a2a then (List.range 1024).filterMap fun r => if c.arrivedAt.contains r then none else some (.a2aArrival i r) else []) ++
        [.convoyComplete i]
    | .running, .cut _ => [.cutComplete i]
    | .running, .trav _ => [.travQueryComplete i]
    | _, _ => []
  | none => []

/-- What ends the wait of an agent, and the next command of a drover's engine. -/
def agentEvents (a : Agent) (i : Nat) : List Instr :=
  (match a.wait with
    | .level _ _ => [.barrierWaitResume i]
    | .arrive _ _ => [.barrierWaitResume i]
    | .object _ _ _ => [.obarWaitResume i]
    | .drain _ _ _ => [.drainAckDone i]
    | .tfence _ _ => [.drainAckDone i]
    | .psync _ _ _ => [.psyncMeet i]
    | _ => []) ++ if a.drover then [.matrixCommandComplete i] else []

/-- Stores and requests under way. -/
def State.storageEvents (s : State) : List Instr :=
  (s.reds.take 1).map (fun r => .reductionRunApply r.pa 1) ++ (List.range s.pending.length).map .acknowledgement ++
    (s.remotes.zipIdx.map fun x => if s.remoteDead x.1 then .remoteTimeout x.2 else .acknowledgement (s.pending.length + x.2)) ++
    (List.range s.halves.length).map fun k => .acknowledgement (s.pending.length + s.remotes.length + k)

/-- The first free position of each core that has a block. -/
def State.fillEvents (s : State) : List Instr :=
  (List.range Config.nCores).filterMap fun c =>
    if s.blocks.any fun k => k.state ≠ .retired && k.shares.any fun h => h.core = c then
      ((List.range 64).find? fun x => !s.taken c (x / 8) (x % 8)).map fun x => .positionFill c (x / 8) (x % 8)
    else none

/-- Caravans that make room for aged candidates (R152). -/
def State.swapEvents (s : State) : List Instr :=
  (List.range Config.nCores).filterMap fun c =>
    if s.full c && (s.candidates c).any (·.aged) then (s.lastActive c).map .swapOut else none

/-- Events of the device that are due at once. -/
def State.dueEvents (s : State) : List Instr :=
  (List.range s.hub.queues.length).flatMap s.queueEvents ++ (List.range s.launches.length).flatMap s.launchEvents ++
    (s.carving.map fun c => .carveComplete c.1) ++ s.storageEvents ++
    s.agents.zipIdx.flatMap (fun x => agentEvents x.1 x.2) ++ (List.range s.ops.length).flatMap s.opEvents ++
    (List.range s.walks.length).flatMap s.walkEvents ++ (List.range s.passes.length).flatMap s.passEvents ++
    (List.range s.blocks.length).flatMap s.blockEvents ++
    (List.range s.caravans.length).flatMap (fun c => [.queueWaitResume c, .ageLimitReached (.caravan c)]) ++
    (List.range s.blocks.length).flatMap (fun b => (s.block b).shares.flatMap fun h =>
      h.records.map fun r => .ageLimitReached (.header b h.core r.target)) ++ s.fillEvents ++ s.swapEvents

/-- Every position of the core is taken, and a header or a caravan that is ready waits for one. -/
def State.crowded (s : State) (core : Nat) : Bool :=
  s.full core && (s.candidates core).any fun k => match k.what with
    | .caravan ci => s.ready (s.caravan ci)
    | _ => true

/-- Events for want of anything to issue. -/
def State.idleEvents (s : State) : List Instr :=
  (List.range s.caravans.length).filterMap (fun ci => if s.crowded (s.caravan ci).core then some (.swapOut ci) else none) ++
    (List.range s.blocks.length).map .queueMisuseDetect

/-- Of the caravans that may issue, one of the core whose count is lowest, and there the one that last issued longest ago. -/
def State.nextIssue (s : State) : Option Nat :=
  ((List.range s.caravans.length).filter s.mayIssue).foldl (fun m c => match m with
    | none => some c
    | some d =>
      let a := s.caravan c
      let b := s.caravan d
      let ka := s.now a.core
      let kb := s.now b.core
      if ka < kb ∨ (ka = kb ∧ a.core = b.core ∧ a.since < b.since) then some c else some d) none

def State.nextItem (s : State) : Agenda :=
  match s.dueEvents.find? s.stirs with
  | some i => .event i
  | none => match s.nextIssue with
    | some c => .issue c
    | none => match s.idleEvents.find? s.stirs with
      | some i => .event i
      | none => .tick 1

end Sys2Proof.Machine
end

