-- ==== Sys2Proof/Machine/Step.lean ====
section
/-! DEFINITION. One step: the agenda's next item, or the one the model's own policy picks. -/

namespace Sys2Proof.Machine

/-- The caravan fetches and executes one instruction; what does not decode raises ILLEGAL_INSTRUCTION (R64, R88). The fetch
meets the errors of its sectors (R208). -/
def stepIssue (s : State) (ci : Nat) : Out :=
  if s.mayIssue ci then
    let s0 := if s.latent.isEmpty then s else s.meetFetch ci
    let s1 := { s0 with focus := some ci }
    match decode (s1.fetch ci) with
    | .ok (i, _) => exec i s1
    | .error _ => .next (s1.illegal ci (sizeOfParcels (s1.fetch ci)))
  else .next s

/-- One item: an issue, an event (an instruction word is no event), or time passing. -/
def stepItem (s : State) (it : Agenda) : Out :=
  match it with
  | .issue c => stepIssue s c
  | .event i => if i.encoded = .noWord then exec i { s with focus := none } else .next s
  | .tick n => .next { s with cores := s.cores.map fun c => { c with cycle := c.cycle + BitVec.ofNat 64 n } }

/-- One step of the machine. -/
def step (s : State) : Out :=
  match s.agenda with
  | it :: rest => stepItem { s with agenda := rest } it
  | [] => stepItem s s.nextItem

/-- `s` with one instruction stored where the next step fetches: the word's parcels follow a header that makes it the
whole of its block, and its caravan is next on the agenda (assumption 8). -/
def State.withFetchWord (s : State) (nbits w : Nat) : State :=
  let ps := parcelsOfNat 4 (w % 2 ^ nbits)
  let p0 := ps.headD 0
  s.withProgram (isMatrixParcel p0) (tagLength p0) ps

end Sys2Proof.Machine
end

