-- ==== Sys2Proof/Safety.lean ====
section
/-! DEFINITION. What counts as a safe run, and the terms in which claims about one instruction are made: when nothing stops
or delays it, which lanes it has, and the state it leaves. -/

namespace Sys2Proof

/-- The step goes on. -/
def Safe (o : Host.Outcome Machine.State Machine.Fault Machine.Refusal) : Prop := ∃ t, o = .next t

/-- Every step of a run goes on. -/
def SafeRun : Nat → Machine.State → Prop
  | 0, _ => True
  | n + 1, s => ∃ t, Machine.step s = .next t ∧ SafeRun n t

/-- Main memory and scratchpad are in canonical form. -/
def MemoryOk (s : Machine.State) : Prop := s.mem.wf = true

namespace Machine

/-- The machine as an instruction of caravan `ci` finds it: its own issue has counted in CYCLE, and the caravan's age has
ended. -/
def State.atIssue (s : State) (ci : Nat) : State := s.begin ci

/-- The members of caravan `ci` in ascending lane order, and those in its want-mask. -/
def State.members (s : State) (ci : Nat) : List Member := s.laneMembers (s.caravan ci)
def State.wanting (s : State) (ci : Nat) : List Member := (s.members ci).filter (·.want)

/-- The agent in its lowest lane. -/
def State.lead (s : State) (ci : Nat) : Agent := s.agent ((s.members ci).headD ⟨0, false⟩).agent

/-- Its lanes with the operand values of an instruction. -/
def State.lanes (s : State) (ci : Nat) (g : Sig) (f : Fields) : List Lane :=
  s.buildLanes (s.caravan ci).core g f (s.wanting ci).length (s.members ci) 0

/-- The same as its work finds it: a thread that takes a token has made its acquire (R290). -/
def State.atWork (s : State) (ci : Nat) (g : Sig) (f : Fields) : State :=
  if (g.pops f (s.wanting ci).length).isEmpty then s.atIssue ci
  else ((s.wanting ci).map (·.agent)).foldl State.emptyAdv (s.atIssue ci)

/-- Caravan `ci` has the issue and nothing stops or delays an instruction with operands `f` of the form `g`: its
members exist and none waits, some lane wants it, every check of R87 passes in every lane (a helper that fails one gets zero, R156),
and its queues hold the tokens and have the room it needs. -/
structure Ready (s : State) (ci : Nat) (g : Sig) (f : Fields) : Prop where
  focus : s.focus = some ci
  idle : ∀ m ∈ (s.caravan ci).members, (s.agent m.agent).wait = .ready
  exist : ∀ m ∈ (s.caravan ci).members, m.agent < s.agents.length
  wants : s.wanting ci ≠ []
  legal : ∀ m ∈ s.members ci, s.staticFault (s.caravan ci) (s.agent m.agent) g f = none
  queues : s.queuesReady (s.lead ci) (g.pops f (s.wanting ci).length) (g.pushes f (s.wanting ci).length) = true

/-- Two states that differ at most in what storage holds and in the records kept of it. -/
structure State.StorageOnly (s t : State) : Prop where
  eq : t = { s with
    mem := t.mem, dirty := t.dirty, merges := t.merges, reds := t.reds, latent := t.latent, logs := t.logs, signals := t.signals }

/-- The same, or in what errors met in storage count and post: what the work of the home slices leaves. -/
structure State.SlicesOnly (s t : State) : Prop where
  eq : t = { s with
    mem := t.mem, dirty := t.dirty, merges := t.merges, reds := t.reds, latent := t.latent, logs := t.logs, signals := t.signals
    contexts := t.contexts, hub := t.hub }

/-- Write the results of lanes to their agents; a late result is written when its wait ends. -/
def State.commitLanes (s : State) (g : Sig) (f : Fields) (rs : List (Lane × LaneRes)) : State :=
  rs.foldl (fun t x => t.updAgent x.1.agent (commitAgent x.1.want (if x.2.late then [] else g.writes f x.2) x.2.flags)) s

/-- The lanes of an instruction, each with its result, complete after work that has left the state `w`: the tokens its
sources named are gone, each result is in its agent, and results for a queue are pushed. -/
def State.completed (s w : State) (ci : Nat) (g : Sig) (f : Fields) (rs : List (Lane × LaneRes)) : State :=
  let core := (s.caravan ci).core
  let n := (s.wanting ci).length
  ((w.takeTokens core (g.pops f n) n fun _ => false).commitLanes g f rs).pushResults core g f rs

/-- What follows the work of a job that left the state `w` and gave the lanes `rs` their results. -/
def Job.after (j : Job) (f : Fields) (ci : Nat) (s w : State) (rs : List (Lane × LaneRes)) : State :=
  let t := s.completed w ci j.sig f rs
  match j.finish with
  | some fin => fin t ci (rs.map (·.1))
  | none => t.goOn ci f.size (j.leave.map fun lv =>
      (rs.filter fun x => x.1.want).map fun x => (x.1.agent, lv t (s.caravan ci) x.1 x.2))

/-- What follows an instruction whose only effect is a result for each lane, a function of all its lanes' operands. -/
def State.afterResults (s : State) (ci : Nat) (g : Sig) (f : Fields) (fn : List Lane → List LaneRes) : State :=
  let ls := s.lanes ci g f
  (s.completed (s.atWork ci g f) ci g f (ls.zip (fn ls))).advance ci f.size

/-- The same with a function of each lane's operands. -/
def State.afterMap (s : State) (ci : Nat) (g : Sig) (f : Fields) (fn : Lane → LaneRes) : State :=
  s.afterResults ci g f fun ls => ls.map fn

/-- What an instruction gives each of its lanes, told as a relation `R` of the lane's operands and its result: wherever
nothing stops or delays it, it completes, its only effects are its results, each written at once, and every lane's result meets
`R`. -/
def Gives (i : Instr) (g : Sig) (f : Fields) (R : Lane → LaneRes → Prop) : Prop :=
  ∀ s ci, Ready s ci g f → ∃ fn, exec i s = .next (s.afterMap ci g f fn) ∧ ∀ l ∈ s.lanes ci g f, (fn l).late = false ∧ R l (fn l)

/-- The same where a lane's result may depend on every lane and on the state the instruction finds. -/
def GivesAll (i : Instr) (g : Sig) (f : Fields) (R : State → List Lane → Lane → LaneRes → Prop) : Prop :=
  ∀ s ci, Ready s ci g f → ∃ rs, exec i s = .next (s.afterResults ci g f fun _ => rs) ∧ rs.length = (s.lanes ci g f).length ∧
    ∀ x ∈ (s.lanes ci g f).zip rs, x.2.late = false ∧ R (s.atWork ci g f) (s.lanes ci g f) x.1 x.2

/-- The instruction is not the last of its block. -/
def Inside (s : State) (ci : Nat) (f : Fields) : Prop :=
  (s.caravan ci).pc + BitVec.ofNat 32 f.size ≠ blockEnd (s.caravan ci).hdr (s.caravan ci).len

/-- Caravan `ci` is agent `i` alone, in code that locks no quad. -/
def Alone (s : State) (ci i : Nat) : Prop :=
  ci < s.caravans.length ∧ i < s.agents.length ∧ (s.caravan ci).members = [⟨i, true⟩] ∧ (s.caravan ci).qlock = false

/-- Work of all the lanes together: where nothing stops the instruction and `pre` holds in every lane, the work is done, each
lane gets its result, and the caravan goes on once no lane waits. -/
def Acts (i : Instr) (g : Sig) (f : Fields) (pre : State → Lane → Prop) (work : State → List Lane → State × List LaneRes) : Prop :=
  ∀ s ci, Ready s ci g f → (∀ l ∈ s.lanes ci g f, pre (s.atIssue ci) l) →
    exec i s = .next ((s.completed (work (s.atWork ci g f) (s.lanes ci g f)).1 ci g f
      ((s.lanes ci g f).zip (work (s.atWork ci g f) (s.lanes ci g f)).2)).goOn ci f.size none)

/-- The same with work of one lane after another, in ascending order. -/
def Works (i : Instr) (g : Sig) (f : Fields) (pre : State → Lane → Prop) (work : State → Lane → State × LaneRes) : Prop :=
  Acts i g f pre (eachLane work)

/-- The lanes of a caravan-uniform instruction after it gave the result `r`, which the wanting lanes alone receive (R160). -/
def State.completedOnce (s w : State) (ci : Nat) (g : Sig) (f : Fields) (r : LaneRes) : State :=
  let core := (s.caravan ci).core
  let n := (s.wanting ci).length
  let ls := s.lanes ci g f
  let t := w.takeTokens core (g.pops f n) n fun _ => false
  (ls.foldl (fun u l => u.updAgent l.agent
    (if l.want then commitAgent true (if r.late then [] else g.writes f r) r.flags else fun a => { a with issued := a.issued + 1 })) t).pushResults core g f
      ((ls.filter (·.want)).map fun l => (l, r))

/-- A caravan-uniform instruction: its work is done once, in the lowest wanting lane, where `pre` holds in it (R160). -/
def Once (i : Instr) (g : Sig) (f : Fields) (pre : State → Lane → Prop) (work : State → Lane → State × LaneRes) : Prop :=
  ∀ s ci, Ready s ci g f → ∀ l, (s.lanes ci g f).find? (·.want) = some l → pre (s.atIssue ci) l →
    exec i s = .next ((s.completedOnce (work (s.atWork ci g f) l).1 ci g f (work (s.atWork ci g f) l).2).goOn ci f.size none)

/-- An instruction that leaves its block: each lane gets the result `val`, the caravan dissolves, and each wanting lane goes
where `out` says. -/
def Leaves (i : Instr) (g : Sig) (f : Fields) (val : Caravan → Lane → LaneRes) (out : Caravan → Lane → Leave) : Prop :=
  ∀ s ci, Ready s ci g f → exec i s = .next
    ((s.completed (s.atWork ci g f) ci g f ((s.lanes ci g f).map fun l => (l, val (s.caravan ci) l))).leaveBlock ci
      (((s.lanes ci g f).filter (·.want)).map fun l => (l.agent, out (s.caravan ci) l)))

/-- A result that raises no flag, told as a relation of operands A, B, C and the value. -/
def Plain (P : QWord → QWord → QWord → QWord → Prop) (l : Lane) (r : LaneRes) : Prop :=
  r.flags = 0 ∧ r.wide = false ∧ P l.a l.b l.c r.val

end Machine

end Sys2Proof
end

