-- ==== Sys2Proof/Certificates/Slice0/Obligations.lean ====
section
/-! DEFINITION. What is claimed of the machine: one statement a claim, with the terms it is made in, by part of the manual. -/

open Sys2Proof Sys2Proof.Machine

namespace Sys2Proof.Machine

/-! ## Terms of the claims about integer instructions -/

/-- Every element of the result is the exact value `E` of the operands' elements, modulo 2^w (R39, R98). -/
def Elementwise (ty : IntTy) (E : Int → Int → Int → Int) : Lane → LaneRes → Prop :=
  Plain fun a b c v => ∀ k < ty.count,
    (elemAt ty.width k v.toNat : Int) = E (ty.elem a.toNat k) (ty.elem b.toNat k) (ty.elem c.toNat k) % 2 ^ ty.width

/-- The range of an element type, and clamping to it (R39). -/
def IntTy.low (ty : IntTy) : Int := if ty.signed then -(2 ^ (ty.width - 1)) else 0
def IntTy.high (ty : IntTy) : Int := if ty.signed then 2 ^ (ty.width - 1) - 1 else 2 ^ ty.width - 1
def clampTo (ty : IntTy) (x : Int) : Int := max (IntTy.low ty) (min (IntTy.high ty) x)

/-- All ones in a `w`-bit element, or 0 (R98). -/
def maskIf (ty : IntTy) (p : Bool) : Int := if p then 2 ^ ty.width - 1 else 0

/-- A 32-bit, or 64-bit, result as a function of the operands' low bits. -/
def Word32 (F : BitVec 32 → BitVec 32 → BitVec 32 → BitVec 32) : Lane → LaneRes → Prop :=
  Plain fun a b c v => v.setWidth 32 = F (a.setWidth 32) (b.setWidth 32) (c.setWidth 32)
def Word64 (F : BitVec 64 → BitVec 64 → BitVec 64 → BitVec 64) : Lane → LaneRes → Prop :=
  Plain fun a b c v => v.setWidth 64 = F (a.setWidth 64) (b.setWidth 64) (c.setWidth 64)

/-- Byte or half `i` of a word, in the signedness of a dot product. -/
def partOf (signed : Bool) (w i : Nat) (a : QWord) : Int :=
  if signed then (a.extractLsb' (w * i) w).toInt else (a.extractLsb' (w * i) w).toNat

/-- The last position a bit-field control word names, plus one, and whether it names any (R101). -/
def fieldTop (ctl : QWord) : Nat := min ((ctl.extractLsb' 0 8).toNat + (ctl.extractLsb' 8 8).toNat) 32
def fieldPos (ctl : QWord) : Nat := (ctl.extractLsb' 0 8).toNat
def fieldAny (ctl : QWord) : Prop := (ctl.extractLsb' 8 8).toNat ≠ 0 ∧ fieldPos ctl < 32

end Sys2Proof.Machine

/-! ## Integer instructions -/

/-- R98: each typed integer form acts element by element, and its only effect is its result. -/
def Obligations.TypedIntegerElements : Prop := ∀ (ty : IntTy) (o : Operands),
  Gives (.intAdd ty o) (typedSig ty) o.fields (Elementwise ty fun a b _ => a + b) ∧
  Gives (.intSub ty o) (typedSig ty) o.fields (Elementwise ty fun a b _ => a - b) ∧
  Gives (.intAdds ty o) (typedSig ty) o.fields (Elementwise ty fun a b _ => clampTo ty (a + b)) ∧
  Gives (.intSubs ty o) (typedSig ty) o.fields (Elementwise ty fun a b _ => clampTo ty (a - b)) ∧
  Gives (.intMul ty o) (typedSig ty) o.fields (Elementwise ty fun a b _ => a * b) ∧
  Gives (.intMulhi ty o) (typedSig ty) o.fields (Elementwise ty fun a b _ => a * b / 2 ^ ty.width) ∧
  Gives (.intMad ty o) (typedSig3 ty) o.fields (Elementwise ty fun a b c => a * b + c) ∧
  Gives (.intMin ty o) (typedSig ty) o.fields (Elementwise ty fun a b _ => min a b) ∧
  Gives (.intMax ty o) (typedSig ty) o.fields (Elementwise ty fun a b _ => max a b) ∧
  Gives (.intCmpeq ty o) (typedSig ty) o.fields (Elementwise ty fun a b _ => maskIf ty (a = b)) ∧
  Gives (.intCmplt ty o) (typedSig ty) o.fields (Elementwise ty fun a b _ => maskIf ty (a < b)) ∧
  Gives (.intCmple ty o) (typedSig ty) o.fields (Elementwise ty fun a b _ => maskIf ty (a ≤ b))

/-- R99 Table 3: the bitwise operations, compares, moves, counts and wide multiplies. -/
def Obligations.UntypedIntegerTable : Prop := ∀ (o : Operands),
  Gives (.andB32 o) sigAB32 o.fields (Word32 fun a b _ => a &&& b) ∧
  Gives (.orB32 o) sigAB32 o.fields (Word32 fun a b _ => a ||| b) ∧
  Gives (.xorB32 o) sigAB32 o.fields (Word32 fun a b _ => a ^^^ b) ∧
  Gives (.andnB32 o) sigAB32 o.fields (Word32 fun a b _ => a &&& ~~~b) ∧
  Gives (.selB32 o) sigABC32 o.fields (Word32 fun a b c => (a &&& c) ||| (b &&& ~~~c)) ∧
  Gives (.cmpneB32 o) sigAB32 o.fields (Word32 fun a b _ => if a ≠ b then BitVec.allOnes 32 else 0) ∧
  Gives (.andB64 o) sigAB64 o.fields (Word64 fun a b _ => a &&& b) ∧
  Gives (.orB64 o) sigAB64 o.fields (Word64 fun a b _ => a ||| b) ∧
  Gives (.xorB64 o) sigAB64 o.fields (Word64 fun a b _ => a ^^^ b) ∧
  Gives (.movB32 o) { dst := .w32, b := .b32, drover := true } o.fields (Word32 fun _ b _ => b) ∧
  Gives (.movB64 o) { dst := .w64, b := .b64, drover := true } o.fields (Word64 fun _ b _ => b) ∧
  Gives (.movB128 o) { dst := .w128, b := .b128, imm := false, drover := true } o.fields (Plain fun _ b _ v => v = b) ∧
  Gives (.mulwS32 o) { sigAB32 with dst := .w64 } o.fields
    (Word64 fun a b _ => BitVec.ofInt 64 ((a.setWidth 32).toInt * (b.setWidth 32).toInt)) ∧
  Gives (.mulwN32 o) { sigAB32 with dst := .w64 } o.fields (Word64 fun a b _ => a * b) ∧
  Gives (.popcB32 o) sigA32 o.fields (Word32 fun a _ _ => BitVec.ofNat 32 ((List.range 32).countP fun i => a.getLsbD i)) ∧
  Gives (.clzB32 o) sigA32 o.fields (Plain fun a _ _ v => v.toNat ≤ 32 ∧
    (∀ i < v.toNat, a.getLsbD (31 - i) = false) ∧ (v.toNat < 32 → a.getLsbD (31 - v.toNat) = true)) ∧
  Gives (.brevB32 o) sigA32 o.fields (Plain fun a _ _ v => ∀ j < 32, v.getLsbD j = a.getLsbD (31 - j))

/-- R100: all 32 bits of a shift count count; a rotation takes it modulo 32. -/
def Obligations.ShiftsByAnyCount : Prop := ∀ (o : Operands),
  Gives (.shlB32 o) sigAB32 o.fields (Word32 fun a n _ => if n.toNat ≥ 32 then 0 else a <<< n.toNat) ∧
  Gives (.shrN32 o) sigAB32 o.fields (Word32 fun a n _ => if n.toNat ≥ 32 then 0 else a >>> n.toNat) ∧
  Gives (.shrS32 o) { sigAB32 with dst := .s32 } o.fields (Word32 fun a n _ =>
    if n.toNat ≥ 32 then (if a.msb then BitVec.allOnes 32 else 0) else a.sshiftRight n.toNat) ∧
  Gives (.rotB32 o) sigAB32 o.fields (Word32 fun a n _ => a.rotateLeft (n.toNat % 32)) ∧
  Gives (.shlB64 o) sigShift64 o.fields (Word64 fun a n _ => if n.toNat ≥ 64 then 0 else a <<< n.toNat) ∧
  Gives (.shrN64 o) sigShift64 o.fields (Word64 fun a n _ => if n.toNat ≥ 64 then 0 else a >>> n.toNat) ∧
  Gives (.shrS64 o) sigShift64 o.fields (Word64 fun a n _ =>
    if n.toNat ≥ 64 then (if a.msb then BitVec.allOnes 64 else 0) else a.sshiftRight n.toNat)

/-- R101-R103: bit fields, bit by bit; dot products sum exactly and wrap once; lea forms a scaled address. -/
def Obligations.BitFieldsDotProductsAndLea : Prop :=
  (∀ (o : Operands),
    Gives (.bfeN32 o) sigAB32 o.fields (Plain fun a ctl _ v => ∀ j < 32,
      v.getLsbD j = true ↔ fieldAny ctl ∧ fieldPos ctl + j < fieldTop ctl ∧ a.getLsbD (fieldPos ctl + j) = true) ∧
    Gives (.bfeS32 o) { sigAB32 with dst := .s32 } o.fields (Plain fun a ctl _ v => ∀ j < 32,
      v.getLsbD j = true ↔ fieldAny ctl ∧ a.getLsbD (min (fieldPos ctl + j) (fieldTop ctl - 1)) = true) ∧
    Gives (.bfiB32 o) sigABC32 o.fields (Plain fun a ctl c v => ∀ j < 32,
      (fieldAny ctl ∧ fieldPos ctl ≤ j ∧ j < fieldTop ctl → v.getLsbD j = a.getLsbD (j - fieldPos ctl)) ∧
      (¬(fieldAny ctl ∧ fieldPos ctl ≤ j ∧ j < fieldTop ctl) → v.getLsbD j = c.getLsbD j))) ∧
  (∀ (o : Operands),
    (∀ signed : Bool,
      Gives (if signed then .dot4S32 o else .dot4N32 o) (dotSig .i8x4 (if signed then .s32 else .w32)) o.fields
        (Plain fun a b c v => v.setWidth 32 = BitVec.ofInt 32 (partOf signed 32 0 c +
          partOf signed 8 0 a * partOf signed 8 0 b + partOf signed 8 1 a * partOf signed 8 1 b +
          partOf signed 8 2 a * partOf signed 8 2 b + partOf signed 8 3 a * partOf signed 8 3 b)) ∧
      Gives (if signed then .dot2S32 o else .dot2N32 o) (dotSig .i16x2 (if signed then .s32 else .w32)) o.fields
        (Plain fun a b c v => v.setWidth 32 = BitVec.ofInt 32 (partOf signed 32 0 c +
          partOf signed 16 0 a * partOf signed 16 0 b + partOf signed 16 1 a * partOf signed 16 1 b))) ∧
    Gives (.leaB64 o) { dst := .w64, a := .b64, b := .b32, c := .b32, drover := true } o.fields
      (Plain fun a b c v => v.setWidth 64 =
        a.setWidth 64 + (b.setWidth 32).signExtend 64 * BitVec.ofNat 64 (2 ^ (c.setWidth 3).toNat)))

namespace Sys2Proof.Machine

/-! ## Terms of the claims about floating point -/



/-- The number a finite value is. -/
def finiteValue : FVal → ℚ
  | .fin n m e => (if n then -1 else 1) * m * 2 ^ e
  | _ => 0

/-- The order of numbers, infinities included; a NaN is in no order with anything. -/
def numberLt : FVal → FVal → Prop
  | .nan _, _ => False
  | _, .nan _ => False
  | .inf a, .inf b => a = true ∧ b = false
  | .inf a, .fin _ _ _ => a = true
  | .fin _ _ _, .inf b => b = false
  | .fin n m e, .fin n' m' e' => finiteValue (.fin n m e) < finiteValue (.fin n' m' e')
def numberEq : FVal → FVal → Prop
  | .inf a, .inf b => a = b
  | .fin n m e, .fin n' m' e' => finiteValue (.fin n m e) = finiteValue (.fin n' m' e')
  | _, _ => False

/-- Element `k` of a compare is all ones where `P` holds of the operands, else 0; a signalling NaN raises Invalid (R122). -/
def Compares (ty : FpTy) (P : FVal → FVal → Prop) : Lane → LaneRes → Prop := fun l r =>
  let at_ (v : QWord) (k : Nat) : Nat := elemAt ty.fmt.width k v.toNat
  let fp (v : QWord) (k : Nat) : FVal := decodeFp ty.fmt (at_ v k)
  r.wide = false ∧
  (∀ k < ty.count, (P (fp l.a k) (fp l.b k) → at_ r.val k = 2 ^ ty.fmt.width - 1) ∧ (¬P (fp l.a k) (fp l.b k) → at_ r.val k = 0)) ∧
  (r.flags = if (∃ k < ty.count, fp l.a k = .nan true ∨ fp l.b k = .nan true) then flagInvalid else 0)

/-- Element `k` of min or max: a number wherever one operand is a number, and that operand's own bits (R121). -/
def PicksNumber (ty : FpTy) (first : FVal → FVal → Prop) (x y : Nat) (z : Nat) : Prop :=
  let a := decodeFp ty.fmt x
  let b := decodeFp ty.fmt y
  (a.isNan ∧ b.isNan → z = ty.fmt.nanCode) ∧ (a.isNan ∧ ¬b.isNan → z = y) ∧ (¬a.isNan ∧ b.isNan → z = x) ∧
  (¬a.isNan ∧ ¬b.isNan ∧ first a b → z = x) ∧ (¬a.isNan ∧ ¬b.isNan ∧ ¬first a b → z = y)

/-- Class `j` of R122 Table 2 is the one of a code: a subnormal is below the smallest normal magnitude. -/
def IsClass (f : FpFmt) (code j : Nat) : Prop :=
  match decodeFp f code with
  | .nan s => j = if s then 0 else 1
  | .inf neg => j = if neg then 2 else 9
  | .fin neg m e =>
    let v := |finiteValue (.fin neg m e)|
    (v = 0 → j = if neg then 5 else 6) ∧ (0 < v → v < 2 ^ (1 - (f.bias : ℤ)) → j = if neg then 4 else 7) ∧
      ((2 : ℚ) ^ (1 - (f.bias : ℤ)) ≤ v → j = if neg then 3 else 8)

/-- EXACT of R45: a real result with the sign of its zero, an infinity, or NaN. -/
inductive Exact where
  | nan
  | inf (neg : Bool)
  | zero (neg : Bool)
  | num (q : ℚ)
deriving DecidableEq

/-- A number; `neg` is the sign of a zero. -/
def Exact.ofRat (q : ℚ) (neg : Bool) : Exact := if q = 0 then .zero neg else .num q

/-- The value of a code. -/
def exactOf : FVal → Exact
  | .nan _ => .nan
  | .inf n => .inf n
  | .fin n m e => if m = 0 then .zero n else .num (finiteValue (.fin n m e))

def Exact.sign : Exact → Bool
  | .nan => false
  | .inf n => n
  | .zero n => n
  | .num q => q < 0

def Exact.value : Exact → ℚ
  | .num q => q
  | _ => 0

def Exact.neg : Exact → Exact
  | .nan => .nan
  | .inf n => .inf !n
  | .zero n => .zero !n
  | .num q => .num (-q)

/-- a + b, in mode `rm`, which signs a zero of mixed or cancelling terms (R45). -/
def Exact.add (rm : Rounding) : Exact → Exact → Exact
  | .nan, _ => .nan
  | _, .nan => .nan
  | .inf a, .inf b => if a = b then .inf a else .nan
  | .inf a, _ => .inf a
  | _, .inf b => .inf b
  | .zero a, .zero b => .zero (if a = b then a else rm = .rd)
  | x, y => .ofRat (x.value + y.value) (rm = .rd)

/-- a × b. -/
def Exact.mul : Exact → Exact → Exact
  | .nan, _ => .nan
  | _, .nan => .nan
  | .inf _, .zero _ => .nan
  | .zero _, .inf _ => .nan
  | .inf a, y => .inf (a != y.sign)
  | x, .inf b => .inf (x.sign != b)
  | x, y => .ofRat (x.value * y.value) (x.sign != y.sign)

/-- a / b (R62). -/
def Exact.div : Exact → Exact → Exact
  | .nan, _ => .nan
  | _, .nan => .nan
  | .inf _, .inf _ => .nan
  | .zero _, .zero _ => .nan
  | .inf a, y => .inf (a != y.sign)
  | x, .inf b => .zero (x.sign != b)
  | x, .zero b => .inf (x.sign != b)
  | x, y => .ofRat (x.value / y.value) (x.sign != y.sign)

/-- a × 2^n. -/
def Exact.scale (n : Int) : Exact → Exact
  | .num q => .num (q * 2 ^ n)
  | x => x

/-- log2 of the smallest subnormal; the largest finite magnitude; the canonical NaN, +0 where there is none (R40 Table 2, R46,
R50 Table 3). -/
def FpFmt.least (f : FpFmt) : Int := if f.kind = .mxint8 then -6 else 1 - (f.bias : Int) - f.frac
def FpFmt.top (f : FpFmt) : ℚ :=
  match f.kind with
  | .ieee => (2 - 2 ^ (-(f.frac : Int))) * 2 ^ (f.bias : Int)
  | .e4m3 => 448
  | .finite => (2 - 2 ^ (-(f.frac : Int))) * 2 ^ ((2 ^ (f.width - 1 - f.frac) - 1 : Nat) - (f.bias : Int))
  | .mxint8 => 127 / 64
def FpFmt.canonicalNan (f : FpFmt) : Nat :=
  if f = fp64 then 0x7FF8000000000000 else if f = fp32 then 0x7FC00000 else if f = fp16 then 0x7E00 else if f = bf16 then 0x7FC0
  else if f = e5m2 then 0x7E else if f = e4m3 then 0x7F else 0

/-- The integer `n` is the real `x` rounded in mode `rm` (R44). -/
def RoundsToInt (rm : Rounding) (x : ℝ) (n : ℤ) : Prop :=
  match rm with
  | .rn => |x - n| ≤ 1 / 2 ∧ (|x - n| = 1 / 2 → Even n)
  | .rz => |(n : ℝ)| ≤ |x| ∧ |x| < |(n : ℝ)| + 1 ∧ 0 ≤ x * n
  | .rd => (n : ℝ) ≤ x ∧ x < n + 1
  | .ru => x ≤ n ∧ (n : ℝ) < x + 1

/-- ROUND of a real `x` that is not zero, with the flags of R43: it is rounded to P(f) significant bits, to a multiple of the
smallest subnormal at the finest; a result beyond the largest finite magnitude overflows; an inexact one that is below the
smallest normal magnitude after rounding without that limit underflows. -/
def RoundsNumber (f : FpFmt) (rm : Rounding) (sat : Bool) (x : ℝ) (code : Nat) (fl : Flags) : Prop :=
  ∃ k n t : ℤ, (2 : ℝ) ^ k ≤ |x| ∧ |x| < (2 : ℝ) ^ (k + 1) ∧
    let g : ℤ := if f.kind = .mxint8 then -6 else max (k - f.frac) f.least
    let q : ℝ := n * (2 : ℝ) ^ g
    let tiny : Prop := if f.kind = .mxint8 then |x| < (2 : ℝ) ^ (-6 : ℤ)
      else |t * (2 : ℝ) ^ (k - f.frac : ℤ)| < (2 : ℝ) ^ (f.least + f.frac : ℤ)
    let toInf : Prop := f.kind = .ieee ∧ sat = false ∧ (rm = .rn ∨ rm = .ru ∧ 0 < x ∨ rm = .rd ∧ x < 0)
    RoundsToInt rm (x / (2 : ℝ) ^ g) n ∧ RoundsToInt rm (x / (2 : ℝ) ^ (k - f.frac : ℤ)) t ∧
    (f.top < |q| → fl = flagOverflow ||| flagInexact ∧ ∃ neg : Bool, (neg = true ↔ x < 0) ∧
      (toInf → decodeFp f code = .inf neg) ∧
      (¬toInf → ∃ m e, decodeFp f code = .fin neg m e ∧ |finiteValue (.fin neg m e)| = f.top)) ∧
    (|q| ≤ f.top → ∃ neg m e, decodeFp f code = .fin neg m e ∧ (finiteValue (.fin neg m e) : ℝ) = q ∧
      (f.kind ≠ .mxint8 → (neg = true ↔ x < 0)) ∧
      (q = x → fl = 0) ∧ (q ≠ x → tiny → fl = flagInexact ||| flagUnderflow) ∧ (q ≠ x → ¬tiny → fl = flagInexact))

/-- ROUND(f, rm, y, sat) of R46, with the flags of the rounding. -/
def Rounds (f : FpFmt) (rm : Rounding) (sat : Bool) (y : Exact) (code : Nat) (fl : Flags) : Prop :=
  match y with
  | .nan => code = f.canonicalNan ∧ fl = 0
  | .inf neg =>
    (f.kind = .ieee ∧ sat = false → decodeFp f code = .inf neg ∧ fl = 0) ∧
    (¬(f.kind = .ieee ∧ sat = false) → fl = flagInexact ∧ ∃ m e, decodeFp f code = .fin neg m e ∧ |finiteValue (.fin neg m e)| = f.top)
  | .zero neg => code = (if neg = true ∧ f.kind ≠ .mxint8 then 2 ^ (f.width - 1) else 0) ∧ fl = 0
  | .num q => RoundsNumber f rm sat q code fl

/-- A result and its flags: Invalid alone where `inv` holds, else Divide-by-zero alone where `dz` does, else those of the
rounding (R43). -/
def Delivers (f : FpFmt) (rm : Rounding) (sat : Bool) (inv dz : Prop) (y : Exact) (r : Nat × Flags) : Prop :=
  r.1 < 2 ^ f.width ∧ ∃ fl, Rounds f rm sat y r.1 fl ∧
    (inv → r.2 = flagInvalid) ∧ (¬inv → dz → r.2 = flagDivZero) ∧ (¬inv → ¬dz → r.2 = fl)

/-- What makes arithmetic Invalid: a signalling NaN, or a NaN that no operand was (R43). -/
def invalidOf (ins : List FVal) (y : Exact) : Prop := FVal.nan true ∈ ins ∨ (y = .nan ∧ ∀ x ∈ ins, x.isNan = false)

/-- Arithmetic that raises nothing but what its rounding and an invalid operation raise. -/
def Arith (f : FpFmt) (rm : Rounding) (ins : List FVal) (y : Exact) (r : Nat × Flags) : Prop :=
  Delivers f rm false (invalidOf ins y) False y r

/-- A finite value that is not zero, divided by zero (R43). -/
def dividesByZero (x y : Exact) : Prop := (∃ q, x = .num q) ∧ ∃ n, y = .zero n

/-- Element `k`, `w` bits wide, of the result is `e k`, for every k below `n`, with each `e k` as `R k` says; the flags of the
elements are OR-ed (R120, R123). -/
def Elements (w n : Nat) (R : Nat → Nat × Flags → Prop) (r : LaneRes) : Prop :=
  r.wide = false ∧ ∃ e : Nat → Nat × Flags, (∀ k < n, R k (e k) ∧ elemAt w k r.val.toNat = (e k).1) ∧
    ∀ i < 5, r.flags.getLsbD i = true ↔ ∃ k < n, (e k).2.getLsbD i = true

/-- An instruction of one, two or three operands of type `ty`, element by element; `R` takes the elements' codes. -/
def FpForm (ty : FpTy) (R : Nat → Nat → Nat → Nat × Flags → Prop) (l : Lane) (r : LaneRes) : Prop :=
  Elements ty.fmt.width ty.count (fun k => R (elemAt ty.fmt.width k l.a.toNat) (elemAt ty.fmt.width k l.b.toNat)
    (elemAt ty.fmt.width k l.c.toNat)) r

/-- rint: the operand's sign, and its value rounded to an integer; a NaN, an infinity, a zero (R120). -/
def RoundsToIntegral (f : FpFmt) (rm : Rounding) (a : Nat) (r : Nat × Flags) : Prop :=
  match decodeFp f a with
  | .nan s => r = (f.canonicalNan, if s then flagInvalid else 0)
  | .inf _ => r = (a, 0)
  | .fin neg m e => (m = 0 → r = (a, 0)) ∧
      (m ≠ 0 → r.2 = 0 ∧ r.1 < 2 ^ f.width ∧ ∃ n m' e', RoundsToInt rm (finiteValue (.fin neg m e) : ℚ) n ∧
        decodeFp f r.1 = .fin neg m' e' ∧ finiteValue (.fin neg m' e') = n)

/-- A root: of a number below zero it is Invalid; `zero` and `inf` say what it is of a zero and of +∞ (R62). -/
def Root (f : FpFmt) (F : ℝ → ℝ) (zero : Bool → Nat × Flags → Prop) (inf : Nat × Flags → Prop) (a : Nat) (r : Nat × Flags) : Prop :=
  match decodeFp f a with
  | .nan s => r = (f.canonicalNan, if s then flagInvalid else 0)
  | .inf neg => (neg = true → r = (f.canonicalNan, flagInvalid)) ∧ (neg = false → inf r)
  | .fin neg m e => (m = 0 → zero neg r) ∧ (m ≠ 0 → neg = true → r = (f.canonicalNan, flagInvalid)) ∧
      (m ≠ 0 → neg = false → r.1 < 2 ^ f.width ∧ RoundsNumber f .rn false (F (finiteValue (.fin neg m e) : ℚ)) r.1 r.2)

/-- The fields of a code: sign, biased exponent, fraction (R40). -/
def FpFmt.code (f : FpFmt) (neg : Bool) (ex fr : Nat) : Nat := (if neg then 2 ^ (f.width - 1) else 0) + ex * 2 ^ f.frac + fr

/-- The value R40 gives those fields. -/
def FpFmt.Reads (f : FpFmt) (neg : Bool) (ex fr : Nat) (v : FVal) : Prop :=
  let last := 2 ^ (f.width - 1 - f.frac) - 1
  (ex = last → fr = 0 → v = .inf neg) ∧ (ex = last → fr ≠ 0 → v = .nan (decide (fr < 2 ^ (f.frac - 1)))) ∧
  (ex < last → ∃ m e, v = .fin neg m e ∧ finiteValue v = (if neg then -1 else 1) *
    (if ex = 0 then (fr : ℚ) / 2 ^ f.frac * 2 ^ (1 - (f.bias : Int)) else (1 + (fr : ℚ) / 2 ^ f.frac) * 2 ^ ((ex : Int) - f.bias)))

/-- The rounding mode a conversion control names (R124). -/
def modeOf (mc : BitVec 3) : Rounding :=
  if mc.toNat % 4 = 0 then .rn else if mc.toNat % 4 = 1 then .rz else if mc.toNat % 4 = 2 then .rd else .ru

/-- One end of a conversion: a format, or integers of a width and signedness. -/
inductive CvtEnd where
  | float (f : FpFmt)
  | int (w : Nat) (signed : Bool)

def CvtEnd.width : CvtEnd → Nat
  | .float f => f.width
  | .int w _ => w

/-- The number a code stands for. -/
def CvtEnd.value : CvtEnd → Nat → Exact
  | .float f, c => exactOf (decodeFp f c)
  | .int w s, c => .ofRat (if s then ((BitVec.ofNat w c).toInt : ℚ) else (c : ℚ)) false

/-- R125 Table 4: what a conversion reads and writes, how many elements it has, and whether element 1 comes from B. -/
structure CvtRow where
  src : CvtEnd
  dst : CvtEnd
  count : Nat := 1
  pair : Bool := false

def cvtRow : ScalarCvt → CvtRow
  | .f32F64 => { src := .float fp64, dst := .float fp32 }
  | .f64F32 => { src := .float fp32, dst := .float fp64 }
  | .f16x2F32 => { src := .float fp32, dst := .float fp16, count := 2, pair := true }
  | .bf16x2F32 => { src := .float fp32, dst := .float bf16, count := 2, pair := true }
  | .f32F16 => { src := .float fp16, dst := .float fp32 }
  | .f32Bf16 => { src := .float bf16, dst := .float fp32 }
  | .f16x2Bf16x2 => { src := .float bf16, dst := .float fp16, count := 2 }
  | .bf16x2F16x2 => { src := .float fp16, dst := .float bf16, count := 2 }
  | .s32F32 => { src := .float fp32, dst := .int 32 true }
  | .n32F32 => { src := .float fp32, dst := .int 32 false }
  | .f32S32 => { src := .int 32 true, dst := .float fp32 }
  | .f32N32 => { src := .int 32 false, dst := .float fp32 }
  | .s64F64 => { src := .float fp64, dst := .int 64 true }
  | .n64F64 => { src := .float fp64, dst := .int 64 false }
  | .f64S64 => { src := .int 64 true, dst := .float fp64 }
  | .f64N64 => { src := .int 64 false, dst := .float fp64 }
  | .s32F64 => { src := .float fp64, dst := .int 32 true }
  | .f64S32 => { src := .int 32 true, dst := .float fp64 }
  | .s16x2F16x2 => { src := .float fp16, dst := .int 16 true, count := 2 }
  | .f16x2S16x2 => { src := .int 16 true, dst := .float fp16, count := 2 }

/-- TOINT of R49: the value rounded to an integer, clamped to the range with Invalid, else with Inexact where it changed. -/
def ConvertsToInt (w : Nat) (signed : Bool) (rm : Rounding) (y : Exact) (r : Nat × Flags) : Prop :=
  let lo : ℤ := if signed then -2 ^ (w - 1) else 0
  let hi : ℤ := if signed then 2 ^ (w - 1) - 1 else 2 ^ w - 1
  let gives (n : ℤ) (fl : Flags) : Prop := (r.1 : ℤ) = n % 2 ^ w ∧ r.2 = fl
  match y with
  | .nan => gives 0 flagInvalid
  | .inf neg => gives (if neg then lo else hi) flagInvalid
  | .zero _ => gives 0 0
  | .num q => ∃ n, RoundsToInt rm (q : ℝ) n ∧ (n < lo → gives lo flagInvalid) ∧ (hi < n → gives hi flagInvalid) ∧
      (lo ≤ n → n ≤ hi → gives n (if (n : ℚ) = q then 0 else flagInexact))

/-- One element converted: rounded once into a format, Invalid for a signalling NaN and for what the format lacks (R43, R124), or
to an integer. -/
def Converts (src dst : CvtEnd) (rm : Rounding) (sat : Bool) (c : Nat) (r : Nat × Flags) : Prop :=
  let y := src.value c
  match dst with
  | .int w s => ConvertsToInt w s rm y r
  | .float g => Delivers g rm sat ((∃ f, src = .float f ∧ decodeFp f c = .nan true) ∨ (y = .nan ∧ g.kind ≠ .ieee ∧ g.kind ≠ .e4m3) ∨
      ((∃ n, y = .inf n) ∧ g.kind ≠ .ieee)) False y r

/-- A function of R63 over the reals. -/
def SpecialFn.Is (fn : SpecialFn) (x y : ℝ) : Prop :=
  match fn with
  | .exp2 => y = (2 : ℝ) ^ x
  | .log2 => y = Real.logb 2 x
  | .exp => y = Real.exp x
  | .log => y = Real.log x
  | .sin => y = Real.sin x
  | .cos => y = Real.cos x
  | .tanh => y = Real.tanh x
  | .sigm => y = 1 / (1 + Real.exp (-x))

/-- |r - y| ≤ n·ulp(y) (R63); a true result of zero is exact. -/
def NearUlps (n : ℕ) (r y : ℝ) : Prop :=
  (y = 0 → r = 0) ∧ (y ≠ 0 → ∃ k : ℤ, (2 : ℝ) ^ k ≤ |y| ∧ |y| < (2 : ℝ) ^ (k + 1) ∧ |r - y| ≤ n * (2 : ℝ) ^ (max k (-126) - 23))

/-- No finite FP32 value lies between a faithful result and the true one, and none is the true one unless the result is (R63). -/
def Faithful (r y : ℝ) : Prop :=
  ∀ code < 2 ^ 32, ∀ n m e, decodeFp fp32 code = .fin n m e →
    let v : ℝ := (finiteValue (.fin n m e) : ℚ)
    (r ≤ y → v ≤ y → v ≤ r) ∧ (y ≤ r → y ≤ v → r ≤ v)

/-- The accuracy of Table 9; 0x40490FDB is RNE32(π). -/
def SpecialFn.Accurate (fn : SpecialFn) (x y r : ℝ) : Prop :=
  match fn with
  | .exp2 | .log2 => Faithful r y
  | .exp | .log | .tanh | .sigm => NearUlps 2 r y
  | .sin | .cos => NearUlps 4 r y ∧ (|x| ≤ ((finiteValue (decodeFp fp32 0x40490FDB) : ℚ) : ℝ) → NearUlps 2 r y)

/-- A number at or below another. -/
def notAbove (a b : FVal) : Prop := numberLt a b ∨ numberEq a b

/-- FP32 number of a word that is finite. -/
def wordNumber (w : Word) : ℚ := finiteValue (decodeFp fp32 w.toNat)
def isFinite32 (w : Word) : Prop := ∃ n m e, decodeFp fp32 w.toNat = .fin n m e

/-- Knots and slopes as R59 accepts them: finite, the knots rising, every slope positive and normal. -/
structure Curve.Sound (c : Curve) : Prop where
  lengths : c.x.length = 16 ∧ c.y.length = 16 ∧ c.k.length = 16
  finite : ∀ w ∈ c.x ++ c.y ++ c.k, isFinite32 w
  rises : ∀ j < 15, wordNumber (c.x.getD j 0) < wordNumber (c.x.getD (j + 1) 0) ∧ wordNumber (c.y.getD j 0) < wordNumber (c.y.getD (j + 1) 0)
  slopes : ∀ w ∈ c.k, (2 : ℚ) ^ (-126 : ℤ) ≤ wordNumber w

/-- The segment of a value: the largest j whose key is at or below it, or 0 (R60). -/
def isSegment (keys : List Word) (x : ℚ) (j : Nat) : Prop :=
  j < 16 ∧ (∀ i < 16, wordNumber (keys.getD i 0) ≤ x → i ≤ j) ∧ (j = 0 ∨ wordNumber (keys.getD j 0) ≤ x)

/-- A curve, or the identity, on an FP32 code: `F j x` is the exact value on segment j, whose zero is +0 (R60, R130). -/
def Curves (c : Option Curve) (keys : Curve → List Word) (F : Curve → Nat → ℚ → ℚ) (a : Nat) (r : Nat × Flags) : Prop :=
  match c with
  | none => r = (a, 0)
  | some c => match decodeFp fp32 a with
    | .nan s => r = (0x7FC00000, if s then flagInvalid else 0)
    | .inf _ => r = (a, 0)
    | v => ∃ j, isSegment (keys c) (finiteValue v) j ∧ Delivers fp32 .rn false False False (.ofRat (F c j (finiteValue v)) false) r

/-- FWD and INV of R60. -/
def Forward (c : Option Curve) : Nat → Nat × Flags → Prop :=
  Curves c (·.x) fun c j x => wordNumber (c.y.getD j 0) + wordNumber (c.k.getD j 0) * (x - wordNumber (c.x.getD j 0))
def Inverse (c : Option Curve) : Nat → Nat × Flags → Prop :=
  Curves c (·.y) fun c j y => wordNumber (c.x.getD j 0) + (y - wordNumber (c.y.getD j 0)) / wordNumber (c.k.getD j 0)

/-- The curve in the slot a lane's operand names: slot 0 and an empty slot are the identity (R58, R131). -/
def State.slotOf (s : State) (l : Lane) (v : QWord) : Option Curve :=
  if v.toNat % 16 = 0 then none else assocGet (s.ctx (s.agent l.agent).ctx).curves (v.toNat % 16)

/-- That curve is one that R59 accepts. -/
def soundSlot (s : State) (l : Lane) (v : QWord) : Prop := ∀ c, s.slotOf l v = some c → c.Sound

/-- EMAX of R128. -/
def emaxOf : MxFmt → ℤ
  | .e4m3 => 8
  | .e5m2 => 15
  | .e3m2 => 4
  | .e2m3 => 2
  | .e2m1 => 2
  | .mxi8 => 0

/-- The shared scale of FP32 codes (R128). -/
def IsScale (m : MxFmt) (ys : List Nat) (s : Nat) : Prop :=
  let v (y : Nat) : FVal := decodeFp fp32 y
  ((∃ y ∈ ys, (v y).isNan = true) → s = 0xFF) ∧
  ((∀ y ∈ ys, (v y).isNan = false) → (∃ y ∈ ys, (v y).isInf = true) → s = 0xFE) ∧
  ((∀ y ∈ ys, (v y).isZero = true) → s = 0) ∧
  ((∀ y ∈ ys, (v y).isNan = false ∧ (v y).isInf = false) → ∀ y ∈ ys, (v y).isZero = false →
    (∀ z ∈ ys, |finiteValue (v z)| ≤ |finiteValue (v y)|) → ∃ k : ℤ, (2 : ℚ) ^ k ≤ |finiteValue (v y)| ∧
      |finiteValue (v y)| < (2 : ℚ) ^ (k + 1) ∧ (s : ℤ) = min (max (k - emaxOf m + 127) 0) 254)

/-- One value quantised under scale code `s` (R129): FWD, then one rounding of y × 2^(127 - s), the flags of both. -/
def Quantises (m : MxFmt) (rm : Rounding) (sat : Bool) (c : Option Curve) (a s : Nat) (r : LaneRes) : Prop :=
  let g := mxFormat m
  r.wide = false ∧ ∃ y, Forward c a y ∧
    (s = 0xFF → r.val.toNat = g.canonicalNan ∧ r.flags = y.2 ||| flagInvalid) ∧
    (s ≠ 0xFF → ∃ q, Delivers g rm sat (decodeFp fp32 y.1 = .nan true ∨ ((exactOf (decodeFp fp32 y.1) = .nan) ∧ g.kind ≠ .ieee ∧ g.kind ≠ .e4m3) ∨
      ((decodeFp fp32 y.1).isInf = true ∧ g.kind ≠ .ieee)) False ((exactOf (decodeFp fp32 y.1)).scale (127 - (s : ℤ))) q ∧
      r.val.toNat = q.1 ∧ r.flags = y.2 ||| q.2)

/-- One round of the generator of R136 on (k0, k1, c0, c1, c2, c3). -/
def philoxRound (k : Word × Word × Word × Word × Word × Word) : Word × Word × Word × Word × Word × Word :=
  let (k0, k1, c0, c1, c2, c3) := k
  let p0 : DWord := 0xD2511F53 * c0.setWidth 64
  let p1 : DWord := 0xCD9E8D57 * c2.setWidth 64
  (k0 + 0x9E3779B9, k1 + 0xBB67AE85, p1.extractLsb' 32 32 ^^^ c1 ^^^ k0, p1.setWidth 32, p0.extractLsb' 32 32 ^^^ c3 ^^^ k1, p0.setWidth 32)
def philoxTen (k : Word × Word × Word × Word × Word × Word) : Word × Word × Word × Word × Word × Word :=
  philoxRound (philoxRound (philoxRound (philoxRound (philoxRound (philoxRound (philoxRound (philoxRound (philoxRound (philoxRound k)))))))))

end Sys2Proof.Machine

/-! ## Floating point, conversions, special functions, random numbers -/

/-- R40, R43-R46, R62, R120: a code has the value of its fields; each value form gives its exact result, rounded once in the mode
named, element by element, with the special values and the flags of the rules. -/
def Obligations.FpValueForms : Prop :=
  (∀ f ∈ [fp64, fp32, fp16, bf16], ∀ (neg : Bool) (ex fr : Nat), ex < 2 ^ (f.width - 1 - f.frac) → fr < 2 ^ f.frac →
    f.Reads neg ex fr (decodeFp f (f.code neg ex fr))) ∧
  ∀ (rm : Rounding) (ty : FpTy) (o : Operands),
  let f := ty.fmt
  let v (a : Nat) : FVal := decodeFp f a
  let x (a : Nat) : Exact := exactOf (v a)
  Gives (.fpAdd rm ty o) (fpSig2 ty) o.fields (FpForm ty fun a b _ => Arith f rm [v a, v b] ((x a).add rm (x b))) ∧
  Gives (.fpSub ty o) (fpSig2 ty) o.fields (FpForm ty fun a b _ => Arith f .rn [v a, v b] ((x a).add .rn (x b).neg)) ∧
  Gives (.fpMul rm ty o) (fpSig2 ty) o.fields (FpForm ty fun a b _ => Arith f rm [v a, v b] ((x a).mul (x b))) ∧
  Gives (.fpFma rm ty o) (fpSig3 ty) o.fields (FpForm ty fun a b c =>
    let y := ((x a).mul (x b)).add rm (x c)
    Delivers f rm false (invalidOf [v a, v b, v c] y ∨ invalidOf [v a, v b] ((x a).mul (x b))) False y) ∧
  Gives (.fpRint rm ty o) (fpSig1 ty) o.fields (FpForm ty fun a _ _ => RoundsToIntegral f rm a) ∧
  Gives (.fpScale ty o) { dst := ty.res, a := ty.pos, b := ty.scalePos } o.fields (fun l r =>
    let w := if ty.count = 2 then 16 else 32
    Elements f.width ty.count (fun k e =>
      let a := elemAt f.width k l.a.toNat
      Arith f .rn [v a] ((x a).scale (l.b.extractLsb' (w * k) w).toInt) e) r) ∧
  Gives (.fpDiv ty o) (fpSig2 ty) o.fields (FpForm ty fun a b _ =>
    Delivers f .rn false (invalidOf [v a, v b] ((x a).div (x b))) (dividesByZero (x a) (x b)) ((x a).div (x b))) ∧
  Gives (.fpRcp ty o) (fpSig1 ty) o.fields (FpForm ty fun a _ _ =>
    Delivers f .rn false (invalidOf [v a] ((Exact.num 1).div (x a))) (dividesByZero (.num 1) (x a)) ((Exact.num 1).div (x a))) ∧
  Gives (.fpSqrt ty o) (fpSig1 ty) o.fields (FpForm ty fun a _ _ =>
    Root f Real.sqrt (fun _ r => r = (a, 0)) (fun r => r = (a, 0)) a) ∧
  Gives (.fpRsqrt ty o) (fpSig1 ty) o.fields (FpForm ty fun a _ _ =>
    Root f (fun z => 1 / Real.sqrt z) (fun neg r => r.1 < 2 ^ f.width ∧ decodeFp f r.1 = .inf neg ∧ r.2 = flagDivZero) (fun r => r = (0, 0)) a) ∧
  Gives (.fpCpsgn ty o) (fpSig2 ty) o.fields (Plain fun a b _ v => ∀ k < ty.count, ∀ j < ty.fmt.width,
    v.getLsbD (ty.fmt.width * k + j) = (if j = ty.fmt.width - 1 then b else a).getLsbD (ty.fmt.width * k + j))

/-- R121, R122: the compares follow the order of the numbers, +0 equal to -0, and are false of a NaN; cmpun is true of one; class
writes one bit of Table 2, and zeros beside it; min and max return an operand's bits, a number whenever one operand is one, -0 below +0. -/
def Obligations.FpComparesAndMinMax : Prop :=
  (∀ (ty : FpTy) (o : Operands),
    Gives (.fpCmpeq ty o) (fpSig2 ty) o.fields (Compares ty numberEq) ∧
    Gives (.fpCmplt ty o) (fpSig2 ty) o.fields (Compares ty numberLt) ∧
    Gives (.fpCmple ty o) (fpSig2 ty) o.fields (Compares ty fun x y => numberLt x y ∨ numberEq x y) ∧
    Gives (.fpCmpun ty o) (fpSig2 ty) o.fields (Compares ty fun x y => x.isNan ∨ y.isNan) ∧
    Gives (.fpClass ty o) { dst := .w32, a := ty.pos } o.fields (Plain fun a _ _ v =>
      let w := if ty.count = 2 then 16 else 32
      ∀ k < ty.count, ∃ j < 10, IsClass ty.fmt (elemAt ty.fmt.width k a.toNat) j ∧ elemAt w k v.toNat = 2 ^ j)) ∧
  (∀ (ty : FpTy) (o : Operands),
    let at_ (v : QWord) (k : Nat) : Nat := elemAt ty.fmt.width k v.toNat
    let fp (v : QWord) (k : Nat) : FVal := decodeFp ty.fmt (at_ v k)
    let flags (l : Lane) : Flags := if (∃ k < ty.count, fp l.a k = .nan true ∨ fp l.b k = .nan true) then flagInvalid else 0
    Gives (.fpMin ty o) (fpSig2 ty) o.fields (fun l r => r.wide = false ∧ r.flags = flags l ∧ ∀ k < ty.count,
      PicksNumber ty (fun a b => numberLt a b ∨ numberEq a b ∧ a.sign = true) (at_ l.a k) (at_ l.b k) (at_ r.val k)) ∧
    Gives (.fpMax ty o) (fpSig2 ty) o.fields (fun l r => r.wide = false ∧ r.flags = flags l ∧ ∀ k < ty.count,
      PicksNumber ty (fun a b => numberLt b a ∨ numberEq a b ∧ a.sign = false) (at_ l.a k) (at_ l.b k) (at_ r.val k)))

/-- R43, R49, R124-R127: a conversion rounds each selected element once, in the mode and with the saturation of its control, or by
TOINT; the E2M1 form keeps C's low half above its four codes; an E8M0 code is its power of two. That an infinite
operand which saturates in a format with infinities sets Inexact is the model's reading (assumption 43). -/
def Obligations.ConversionsRoundEachElement : Prop := ∀ (k : ScalarCvt) (m : MxFmt) (o : Operands),
  let rm := modeOf o.fields.mc
  let sat := o.fields.mc.getLsbD 2
  let w := if m = .e2m1 then 4 else 8
  Gives (.cvtScalar k o) { (scalarCvt k).1 with ctlC := true } o.fields (fun l r =>
    Elements (cvtRow k).dst.width (cvtRow k).count (fun i => Converts (cvtRow k).src (cvtRow k).dst rm sat
      (elemAt (cvtRow k).src.width (if (cvtRow k).pair then 0 else i) (if (cvtRow k).pair ∧ i = 1 then l.b else l.a).toNat)) r) ∧
  Gives (.cvtNarrowMx m o)
    { dst := .w32, a := .f16x2, b := .f16x2, c := if m = .e2m1 then .b32 else .none, ctlC := true } o.fields (fun l r =>
    Elements w 4 (fun i => Converts (.float fp16) (.float (mxFormat m)) rm sat (elemAt 16 (i % 2) (if i < 2 then l.a else l.b).toNat)) r ∧
    (m = .e2m1 → ∀ j < 16, r.val.getLsbD (16 + j) = l.c.getLsbD j)) ∧
  Gives (.cvtWidenMx m o) { dst := .w32, a := mxPos m, b := .b32, ctlC := true } o.fields (fun l r =>
    Elements 16 2 (fun i => Converts (.float (mxFormat m)) (.float fp16) rm sat
      (elemAt w (2 * (l.b.toNat % (if m = .e2m1 then 4 else 2)) + i) l.a.toNat)) r) ∧
  Gives (.cvtF32E8m0 o) { dst := .w32, a := .nf8x4, b := .b32, ctlC := true } o.fields (Plain fun a b _ v =>
    let s := elemAt 8 (b.toNat % 4) a.toNat
    (s = 0xFF → v = 0x7FC00000#128) ∧ (s ≠ 0xFF → v.toNat < 2 ^ 31 ∧ finiteValue (decodeFp fp32 v.toNat) = 2 ^ ((s : ℤ) - 127)))

/-- R59, R60, R128-R130, R133: packing moves bits and nothing else; the shared scale over the active lanes; one value quantised
under a scale; the companding curves, whose slot 0 moves bits and whose other slots make a NaN canonical. A record that installs
gives knots and slopes that meet every check of R59. -/
def Obligations.PackingQuantisingCompanding : Prop :=
  (∀ (o : Operands),
    Gives (.pkB16x2 o) { dst := .w32, a := .i16x2, b := .i16x2 } o.fields
      (Plain fun a b _ v => v.setWidth 32 = b.setWidth 16 ++ a.setWidth 16) ∧
    Gives (.pkB8x4 o) { dst := .w32, a := .i8x4, b := .i8x4, c := .b32 } o.fields
      (Plain fun a b c v => v.setWidth 32 = c.setWidth 16 ++ (b.setWidth 8 ++ a.setWidth 8)) ∧
    Gives (.upkB8x4 o) { dst := .w32, a := .i8x4 } o.fields
      (Plain fun a _ _ v => v.setWidth 32 = ((a.extractLsb' 8 8).setWidth 16 : BitVec 16) ++ ((a.setWidth 8).setWidth 16 : BitVec 16)) ∧
    Gives (.upkB16x2 o) { dst := .w32, a := .i16x2 } o.fields (Plain fun a _ _ v => v.setWidth 32 = (a.setWidth 16).setWidth 32)) ∧
  (∀ (m : MxFmt) (o : Operands),
    GivesAll (.qscl m o) { dst := .w32, a := .f32, c := .b32 } o.fields (fun s ls l r => (∀ x ∈ ls, soundSlot s x x.c) →
      r.wide = false ∧ ∃ ys : List (Nat × Flags), ys.length = ls.length ∧
        (∀ p ∈ ls.zip ys, Forward (s.slotOf p.1 p.1.c) p.1.a.toNat p.2 ∧ (p.1 = l → r.flags = p.2.2)) ∧
        IsScale m (ys.map (·.1)) r.val.toNat) ∧
    GivesAll (.qnt m o) { dst := .w32, a := .f32, b := .b32, c := .b32, ctlC := true } o.fields (fun s _ l r => soundSlot s l l.c →
      Quantises m (modeOf o.fields.mc) (o.fields.mc.getLsbD 2) (s.slotOf l l.c) l.a.toNat (l.b.toNat % 256) r) ∧
    (∀ inv : Bool, GivesAll (if inv then .cpndi o else .cpnd o) { dst := .w32, a := .f32, b := .b32 } o.fields (fun s _ l r =>
      soundSlot s l l.b → ∃ y, r = { val := BitVec.ofNat 128 y.1, flags := y.2 } ∧
        (l.b.toNat % 16 = 0 → y = (l.a.toNat, 0)) ∧
        (∀ sg, l.b.toNat % 16 ≠ 0 → decodeFp fp32 l.a.toNat = .nan sg → y = (0x7FC00000, if sg then flagInvalid else 0)) ∧
        ((decodeFp fp32 l.a.toNat).isNan = false → (if inv then Inverse else Forward) (s.slotOf l l.b) l.a.toNat y)))) ∧
  (∀ bs c, curveOfRecord bs = some c → c.Sound ∧
    (let word (off : Nat) : Word := BitVec.ofNat 32 (leNat ((bs.drop off).take 4))
     c.y.getD 0 0 = word 0 ∧ (∀ j < 16, c.x.getD j 0 = word (0x10 + 4 * j) ∧ c.k.getD j 0 = word (0x50 + 4 * j)) ∧
     ∀ j < 15, ∃ fl, Delivers fp32 .rn false False False
       (.ofRat (wordNumber (c.y.getD j 0) + wordNumber (c.k.getD j 0) * (wordNumber (c.x.getD (j + 1) 0) - wordNumber (c.x.getD j 0))) false)
       ((c.y.getD (j + 1) 0).toNat, fl)))

/-- R63, R134, R135: the special functions act element by element; a 16-bit element is widened exactly, evaluated in FP32 and
rounded once, which adds Overflow and no other flag. The exact results of Table 9, its special values, and what lies beyond the
range of FP32, are those of the FP32 functions. -/
def Obligations.SpecialFunctionsElementwise : Prop :=
  (∀ (ty : SfTy) (o : Operands),
    let E (fn : SpecialFn) : Nat → Nat → Nat → Nat × Flags → Prop := fun a _ _ r =>
      (ty = .f32 → r = special32 fn a) ∧
      (ty ≠ .f32 → ∃ x fl, x < 2 ^ 32 ∧ ((decodeFp ty.fp.fmt a).isNan = true → x = 0x7FC00000) ∧
        ((decodeFp ty.fp.fmt a).isNan = false → exactOf (decodeFp fp32 x) = exactOf (decodeFp ty.fp.fmt a)) ∧
        r.1 < 2 ^ 16 ∧ Rounds ty.fp.fmt .rn false (exactOf (decodeFp fp32 (special32 fn x).1)) r.1 fl ∧
        r.2 = (special32 fn x).2 ||| (fl &&& flagOverflow) ||| (if decodeFp ty.fp.fmt a = .nan true then flagInvalid else 0))
    let form (i : Instr) (fn : SpecialFn) : Prop := Gives i (fpSig1 ty.fp) o.fields (FpForm ty.fp (E fn))
    form (.exp2 ty o) .exp2 ∧ form (.log2 ty o) .log2 ∧ form (.exp ty o) .exp ∧ form (.log ty o) .log ∧
    form (.sin ty o) .sin ∧ form (.cos ty o) .cos ∧ form (.tanh ty o) .tanh ∧ form (.sigm ty o) .sigm) ∧
  (∀ neg : Bool, ∀ z, z = (if neg then 0x80000000 else 0) →
    special32 .exp2 z = (0x3F800000, 0) ∧ special32 .exp z = (0x3F800000, 0) ∧ special32 .cos z = (0x3F800000, 0) ∧
    special32 .log2 z = (0xFF800000, flagDivZero) ∧ special32 .log z = (0xFF800000, flagDivZero) ∧
    special32 .sin z = (z, 0) ∧ special32 .tanh z = (z, 0) ∧ special32 .sigm z = (0x3F000000, 0)) ∧
  special32 .exp2 0xFF800000 = (0, 0) ∧ special32 .exp2 0x7F800000 = (0x7F800000, 0) ∧
  special32 .exp 0xFF800000 = (0, 0) ∧ special32 .exp 0x7F800000 = (0x7F800000, 0) ∧
  special32 .log2 0x7F800000 = (0x7F800000, 0) ∧ special32 .log 0x7F800000 = (0x7F800000, 0) ∧
  special32 .sigm 0xFF800000 = (0, 0) ∧ special32 .sigm 0x7F800000 = (0x3F800000, 0) ∧
  special32 .tanh 0xFF800000 = (0xBF800000, 0) ∧ special32 .tanh 0x7F800000 = (0x3F800000, 0) ∧
  (∀ z, z = 0x7F800000 ∨ z = 0xFF800000 → special32 .sin z = (0x7FC00000, flagInvalid) ∧ special32 .cos z = (0x7FC00000, flagInvalid)) ∧
  special32 .log2 0x3F800000 = (0, 0) ∧ special32 .log 0x3F800000 = (0, 0) ∧
  (∀ n : Int, -149 ≤ n → n ≤ 127 → ∃ code, code < 2 ^ 32 ∧ decodeFp fp32 code ≠ .nan true ∧ finiteValue (decodeFp fp32 code) = n ∧
    ∃ v, special32 .exp2 code = (v, 0) ∧ finiteValue (decodeFp fp32 v) = (2 : ℚ) ^ n) ∧
  (∀ (n : Int) (code : Nat), code < 2 ^ 32 → finiteValue (decodeFp fp32 code) = (2 : ℚ) ^ n →
    ∃ v, special32 .log2 code = (v, 0) ∧ exactOf (decodeFp fp32 v) = .ofRat n false) ∧
  (∀ code, code < 2 ^ 32 → (decodeFp fp32 code).isNan = false → (decodeFp fp32 code).isInf = false →
    let x := finiteValue (decodeFp fp32 code)
    (128 ≤ x → special32 .exp2 code = (0x7F800000, flagOverflow ||| flagInexact)) ∧
    (89 ≤ x → special32 .exp code = (0x7F800000, flagOverflow)) ∧
    (x ≤ -151 → (special32 .exp2 code).1 ≤ 1 ∧ (special32 .exp2 code).2 = flagUnderflow ||| flagInexact) ∧
    (x ≤ -106 → (special32 .exp code).1 ≤ 2 ∧ (special32 .exp code).2 = 0)) ∧
  (∀ fn x, x < 2 ^ 32 → ∀ s, decodeFp fp32 x = .nan s → special32 fn x = (0x7FC00000, if s then flagInvalid else 0)) ∧
  (∀ x, x < 2 ^ 32 → (decodeFp fp32 x).isNan = false → (decodeFp fp32 x).sign = true → (decodeFp fp32 x).isZero = false →
    special32 .log2 x = (0x7FC00000, flagInvalid) ∧ special32 .log x = (0x7FC00000, flagInvalid))

/-- R63 Table 9: between its exact points each FP32 special function is as accurate as the table says, inside the function's range,
and above the largest finite number where it overflows; and a result of exp2, log2, exp, log, tanh or sigmoid never falls as the
input rises. Which of the results within these bounds it is, is the model's free value (assumption 12). -/
def Obligations.SpecialFunctionsMeetTable9 : Prop :=
  (∀ (fn : SpecialFn) (code : Nat) (neg : Bool) (m : Nat) (e : Int), code < 2 ^ 32 → decodeFp fp32 code = .fin neg m e → m ≠ 0 →
    (fn = .log2 ∨ fn = .log → neg = false) → ∀ y : ℝ, fn.Is (finiteValue (.fin neg m e) : ℚ) y →
    let r := decodeFp fp32 (special32 fn code).1
    (r = .inf false ∧ (fn = .exp2 ∨ fn = .exp) ∧ (fp32.top : ℝ) < y) ∨
    ∃ n' m' e', r = .fin n' m' e' ∧ fn.Accurate (finiteValue (.fin neg m e) : ℚ) y (finiteValue r : ℚ) ∧
      (fn = .exp2 ∨ fn = .exp ∨ fn = .sigm → n' = false) ∧
      (fn = .sin ∨ fn = .cos ∨ fn = .tanh ∨ fn = .sigm → |finiteValue r| ≤ 1)) ∧
  (∀ (fn : SpecialFn) (a b : Nat), fn ≠ .sin → fn ≠ .cos → a < 2 ^ 32 → b < 2 ^ 32 →
    (fn = .log2 ∨ fn = .log → (decodeFp fp32 a).sign = false ∧ (decodeFp fp32 b).sign = false) →
    notAbove (decodeFp fp32 a) (decodeFp fp32 b) → notAbove (decodeFp fp32 (special32 fn a).1) (decodeFp fp32 (special32 fn b).1))

/-- R136, R137: ten rounds of the stateless generator; 24 random bits as an exact value in [0, 1). -/
def Obligations.RandomNumberGenerator : Prop := ∀ (o : Operands),
  Gives (.rngB128 o) { dst := .w128, a := .b64, b := .b128, imm := false } o.fields (Plain fun a b _ v =>
    let k := philoxTen (a.extractLsb' 0 32, a.extractLsb' 32 32, b.extractLsb' 0 32, b.extractLsb' 32 32, b.extractLsb' 64 32,
      b.extractLsb' 96 32)
    v = k.2.2.2.2.2 ++ k.2.2.2.2.1 ++ k.2.2.2.1 ++ k.2.2.1) ∧
  Gives (.rnguF32 o) { dst := .w32, a := .b32 } o.fields (Plain fun a _ _ v => v.toNat < 2 ^ 32 ∧
    (decodeFp fp32 v.toNat).isNan = false ∧ (decodeFp fp32 v.toNat).isInf = false ∧
    finiteValue (decodeFp fp32 v.toNat) = (((a.setWidth 32).toNat / 256 : Nat) : ℚ) / 2 ^ 24)

namespace Sys2Proof.Machine

/-! ## Terms of the claims about cross-lane instructions -/

/-- The lanes a vote, ballot, match, reduction or scan combines: every member lane, or the wanting ones (R163). -/
def takesPart (s : State) (ls : List Lane) (l : Lane) : List LaneVal :=
  if l.b = 0 then s.laneVals ls else (s.laneVals ls).filter (·.want)

/-- A result every lane computes without a flag from what the lanes hold. -/
def FromLanes (P : State → List Lane → Lane → QWord → Prop) (s : State) (ls : List Lane) (l : Lane) (r : LaneRes) : Prop :=
  r.flags = 0 ∧ r.wide = false ∧ P s ls l r.val

/-- All ones or zero in 32 bits. -/
def mask32Of (p : Prop) (v : QWord) : Prop := (p → v.setWidth 32 = BitVec.allOnes 32) ∧ (¬p → v.setWidth 32 = 0#32)

/-- The value of lane `j` of R165: zero off the range 0-31, wrapped into the half H under legacy width, zero where no member is. -/
def sourceLane (s : State) (ls : List Lane) (j : Int) : Nat :=
  if j < 0 ∨ j > 31 then 0
  else (laneVal? (s.laneVals ls) (if (s.legacyHalf ls).1 then (s.legacyHalf ls).2 + j.toNat % 16 else j.toNat)).getD 0

/-- A shuffle whose 8-bit source index is `j` of this lane's number within its width and its B (R165). -/
def Shuffles (j : Nat → QWord → Int) (s : State) (ls : List Lane) (l : Lane) (v : QWord) : Prop :=
  let r := if (s.legacyHalf ls).1 then l.lane % 16 else l.lane
  let w := 32 / 2 ^ (l.c.toNat % 4)
  let i := j r l.b
  v.setWidth 32 = (BitVec.ofNat 32 (sourceLane s ls (i / 8))).rotateRight (w * ((i % 8).toNat % (32 / w)))

/-- B[7..3] and B[2..0]. -/
def laneField (b : QWord) : Nat := (b.extractLsb' 3 5).toNat
def elemField (b : QWord) : Nat := (b.extractLsb' 0 3).toNat

/-- The B of the lowest-numbered wanting lane. -/
def leaderB (ls : List Lane) : QWord := ((ls.find? (·.want)).getD default).b

/-- One row of R170 Table 3: what two values combine to, exactly or by a relation that gives flags too, and the identity. -/
structure CombineRow where
  combines : Word → Word → Nat × Flags → Prop
  ident : Word

/-- A combine that raises nothing. -/
def exactly (F : Word → Word → Word) : Word → Word → Nat × Flags → Prop := fun p q r => r = ((F p q).toNat, 0)

/-- min or max of R121 with its flag; `first` says when the left one is taken. -/
def picks (first : FVal → FVal → Prop) : Word → Word → Nat × Flags → Prop := fun p q r =>
  PicksNumber .f32 first p.toNat q.toNat r.1 ∧
    r.2 = if decodeFp fp32 p.toNat = .nan true ∨ decodeFp fp32 q.toNat = .nan true then flagInvalid else 0

def combineRow : CredOp → CombineRow
  | .addS32 => { combines := exactly fun p q => p + q, ident := 0 }
  | .minS32 => { combines := exactly fun p q => if p.toInt ≤ q.toInt then p else q, ident := 0x7FFFFFFF }
  | .maxS32 => { combines := exactly fun p q => if p.toInt ≤ q.toInt then q else p, ident := 0x80000000 }
  | .minN32 => { combines := exactly fun p q => if p.toNat ≤ q.toNat then p else q, ident := 0xFFFFFFFF }
  | .maxN32 => { combines := exactly fun p q => if p.toNat ≤ q.toNat then q else p, ident := 0 }
  | .andB32 => { combines := exactly fun p q => p &&& q, ident := 0xFFFFFFFF }
  | .orB32 => { combines := exactly fun p q => p ||| q, ident := 0 }
  | .xorB32 => { combines := exactly fun p q => p ^^^ q, ident := 0 }
  | .addF32 => { combines := fun p q r => let x := decodeFp fp32 p.toNat
                                          let y := decodeFp fp32 q.toNat
                                          Arith fp32 .rn [x, y] ((exactOf x).add .rn (exactOf y)) r, ident := 0 }
  | .minF32 => { combines := picks fun a b => numberLt a b ∨ numberEq a b ∧ a.sign = true, ident := 0x7FC00000 }
  | .maxF32 => { combines := picks fun a b => numberLt b a ∨ numberEq a b ∧ a.sign = false, ident := 0x7FC00000 }

/-- A combine of the model is the one of a row. -/
def Combine.Is (k : Combine) (row : CombineRow) : Prop :=
  k.ident = row.ident.toNat ∧ ∀ p q : Word, row.combines p q (k.op p.toNat q.toNat)

/-- COMB of R169; the flags of what it depends on go with a value. -/
def combined (k : Combine) : Option (Nat × Flags) → Option (Nat × Flags) → Option (Nat × Flags)
  | none, y => y
  | x, none => x
  | some p, some q => some ((k.op p.1 q.1).1, p.2 ||| q.2 ||| (k.op p.1 q.1).2)

/-- Position `i` of the range after `t` steps of R169, from the values `x` of the lanes in P. -/
def afterSteps (k : Combine) (x : Nat → Option Nat) : Nat → Nat → Option (Nat × Flags)
  | 0, i => (x i).map fun v => (v, 0)
  | t + 1, i => if 2 ^ t ≤ i then combined k (afterSteps k x t (i - 2 ^ t)) (afterSteps k x t i) else afterSteps k x t i

/-- The exact fold of the participating lanes' values in ascending lane order, IDENT where there is none (R169). -/
def foldOf (op : Nat → Nat → Nat) (ident : Nat) : List Nat → Nat
  | [] => ident
  | v :: vs => vs.foldl op v

end Sys2Proof.Machine

/-! ## Cross-lane instructions -/

/-- R165, R166: a shuffle reads A of the lane its index names and rotates by its element; the 64-bit form does not rotate. -/
def Obligations.ShufflesReadTheNamedLane : Prop := ∀ (o : Operands),
  let g : Sig := { dst := .w32, a := .b32, b := .b32, c := .shufWidth, noQueue := true }
  GivesAll (.shflIdx o) g o.fields (FromLanes (Shuffles fun _ b => (b.setWidth 8).toNat)) ∧
  GivesAll (.shflUp o) g o.fields (FromLanes (Shuffles fun r b => ((r : Int) - laneField b) * 8 + elemField b)) ∧
  GivesAll (.shflDown o) g o.fields (FromLanes (Shuffles fun r b => ((r : Int) + laneField b) * 8 + elemField b)) ∧
  GivesAll (.shflXor o) g o.fields (FromLanes (Shuffles fun r b => ((r ^^^ laneField b : Nat) : Int) * 8 + elemField b)) ∧
  GivesAll (.shflBcast o) g o.fields (FromLanes fun s ls => Shuffles (fun _ _ => ((leaderB ls).setWidth 8).toNat) s ls) ∧
  GivesAll (.shflIdxB64 o) { dst := .w64, a := .b64, b := .b32, noQueue := true } o.fields
    (FromLanes fun s ls l v => v.setWidth 64 = BitVec.ofNat 64 (sourceLane s ls (laneField l.b)))

/-- R167, R168: votes, ballot, elect and match over the participating lanes, bits numbered by physical lane. -/
def Obligations.VotesAndMatches : Prop := ∀ (o : Operands),
  let g : Sig := { sigVote with noQueue := true }
  GivesAll (.voteAll o) g o.fields (FromLanes fun s ls l => mask32Of (∀ p ∈ takesPart s ls l, p.val ≠ 0)) ∧
  GivesAll (.voteAny o) g o.fields (FromLanes fun s ls l => mask32Of (∃ p ∈ takesPart s ls l, p.val ≠ 0)) ∧
  GivesAll (.voteEq o) g o.fields (FromLanes fun s ls l => mask32Of (∀ p ∈ takesPart s ls l, ∀ q ∈ takesPart s ls l, p.val = q.val)) ∧
  GivesAll (.ballot o) g o.fields (FromLanes fun s ls l v => ∀ i < 32,
    v.getLsbD i = true ↔ ∃ p ∈ takesPart s ls l, p.lane = i ∧ p.val ≠ 0) ∧
  GivesAll (.elect o) { dst := .w32, noQueue := true } o.fields (FromLanes fun _ ls l =>
    mask32Of ((ls.find? (·.want)).map (·.lane) = some l.lane)) ∧
  (∀ i : Instr, i = .matchB32 o ∨ i = .matchB64 o →
    GivesAll i (if i = .matchB32 o then g else { dst := .w32, a := .b64, b := .sel, noQueue := true }) o.fields
      (FromLanes fun s ls l v => ∀ b < 32, v.getLsbD b = true ↔
        (∃ p ∈ takesPart s ls l, p.lane = l.lane) ∧ ∃ p ∈ takesPart s ls l, p.lane = b ∧ p.val = l.a.toNat))

/-- R169, R170: reductions and scans run the fixed network over the participating lanes of the range, step by step, each position at
or past the distance combining with the one that far below; R170 Table 3 gives each combine and its identity. cred gives the top
position and the flags it depends on; scan each lane its own position, scanx that of the highest participating lane below, both
with every combine's flags. -/
def Obligations.ReductionsRunTheNetwork : Prop :=
  (∀ (c : CredOp) (n : ScanOp) (x : ScanxOp) (o : Operands),
    let g : Sig := { sigVote with noQueue := true }
    let first (s : State) (ls : List Lane) : Nat := (s.legacyHalf ls).2
    let width (s : State) (ls : List Lane) : Nat := if (s.legacyHalf ls).1 then 16 else 32
    let steps (s : State) (ls : List Lane) : Nat := if (s.legacyHalf ls).1 then 4 else 5
    let at_ (k : Combine) (s : State) (ls : List Lane) (l : Lane) (i : Nat) : Option (Nat × Flags) :=
      if i < width s ls then afterSteps k (fun j => laneVal? (takesPart s ls l) (first s ls + j)) (steps s ls) i else none
    let value (k : Combine) (y : Option (Nat × Flags)) (v : QWord) : Prop := v = BitVec.ofNat 128 ((y.map (·.1)).getD k.ident)
    let allFlags (k : Combine) (s : State) (ls : List Lane) (l : Lane) (fl : Flags) : Prop :=
      ∀ b < 5, fl.getLsbD b = true ↔ ∃ i < width s ls, ∃ y, at_ k s ls l i = some y ∧ y.2.getLsbD b = true
    GivesAll (.cred c o) g o.fields (fun s ls l r => r.wide = false ∧
      value c.combine (at_ c.combine s ls l (width s ls - 1)) r.val ∧
      r.flags = ((at_ c.combine s ls l (width s ls - 1)).map (·.2)).getD 0) ∧
    GivesAll (.scan n o) g o.fields (fun s ls l r => r.wide = false ∧
      value n.combine (at_ n.combine s ls l (l.lane - first s ls)) r.val ∧ allFlags n.combine s ls l r.flags) ∧
    GivesAll (.scanx x o) g o.fields (fun s ls l r => r.wide = false ∧
      (∀ m, (∃ p ∈ takesPart s ls l, p.lane = m) → m < l.lane → (∀ p ∈ takesPart s ls l, p.lane < l.lane → p.lane ≤ m) →
        value x.combine (at_ x.combine s ls l (m - first s ls)) r.val) ∧
      ((∀ p ∈ takesPart s ls l, ¬ p.lane < l.lane) → value x.combine none r.val) ∧ allFlags x.combine s ls l r.flags)) ∧
  (∀ c : CredOp, c.combine.Is (combineRow c)) ∧
  ScanOp.addS32.combine.Is (combineRow .addS32) ∧ ScanOp.addF32.combine.Is (combineRow .addF32) ∧
  ScanOp.maxS32.combine.Is (combineRow .maxS32) ∧ ScanOp.minS32.combine.Is (combineRow .minS32) ∧
  ScanxOp.addS32.combine.Is (combineRow .addS32) ∧ ScanxOp.addF32.combine.Is (combineRow .addF32) ∧
  (∀ (c : CredOp) (p : List LaneVal),
    (c ≠ .addF32 ∧ c ≠ .minF32 ∧ c ≠ .maxF32) → p.Pairwise (fun x y => x.lane < y.lane) → (∀ v ∈ p, v.lane < 32 ∧ v.val < 2 ^ 32) →
    (((afterSteps c.combine (laneVal? p) 5 31).map (·.1)).getD c.combine.ident) =
      foldOf (fun x y => (c.combine.op x y).1) c.combine.ident (p.map (·.val)))

/-- R171, R172: in a quad-locked block a derivative is one rounded difference of two positions of its quad, element by element, with the
flags of R43; elsewhere it is +0 and raises nothing. -/
def Obligations.DerivativesWithinTheQuad : Prop := ∀ (ty : DerivTy) (o : Operands),
  let g : Sig := { dst := .w32, a := ty.fp.pos, noQueue := true }
  let f := ty.fp.fmt
  let v (s : State) (ls : List Lane) (l : Lane) (k e : Nat) : Nat :=
    elemAt f.width e (BitVec.ofNat 128 ((laneVal? (s.laneVals ls) (l.lane - l.lane % 4 + k)).getD 0)).toNat
  let R (m t : Nat → Nat) (s : State) (ls : List Lane) (l : Lane) (r : LaneRes) : Prop :=
    (∀ ci, s.focus = some ci → (s.caravan ci).qlock = true → Elements f.width ty.fp.count (fun e =>
        let x := decodeFp f (v s ls l (m (l.lane % 4)) e)
        let y := decodeFp f (v s ls l (t (l.lane % 4)) e)
        Arith f .rn [x, y] ((exactOf x).add .rn (exactOf y).neg)) r) ∧
    (∀ ci, s.focus = some ci → (s.caravan ci).qlock = false → r = {})
  GivesAll (.ddxF ty o) g o.fields (R (fun i => if i % 2 = 0 then i + 1 else i) (fun i => if i % 2 = 0 then i else i - 1)) ∧
  GivesAll (.ddyF ty o) g o.fields (R (fun i => if i < 2 then i + 2 else i) (fun i => if i < 2 then i else i - 2)) ∧
  GivesAll (.ddxC ty o) g o.fields (R (fun _ => 1) (fun _ => 0)) ∧
  GivesAll (.ddyC ty o) g o.fields (R (fun _ => 2) (fun _ => 0))

namespace Sys2Proof.Machine

/-! ## Terms of the claims about control flow, private memory and traps -/

/-- A tested value is zero (R96, R106). -/
def goesIf (p : Prop) [Decidable p] (t : Word) (c : Caravan) : Leave := .to (if p then t else c.fall)

/-- Every register of an agent, every special register of it but its way through the code, and its stack. -/
def sameValues (a b : Agent) : Prop :=
  b.regs = a.regs ∧ b.fpstat = a.fpstat ∧ b.spill = a.spill ∧ b.adv = a.adv ∧ b.trapMode = a.trapMode ∧ b.frame = a.frame ∧
    b.solo = a.solo ∧ b.ended = a.ended

/-- One byte of the t: or k: space an agent addresses. -/
def State.spaceByte (s : State) (i : Nat) (sp : PrivSpace) (x : Nat) : Byte :=
  match sp with
  | .t => readByte (s.shareMem (s.agent i).block (s.agent i).pos) x
  | .k => readByte (s.agent i).spill x

/-- The t: share of an agent exists and is its own segment. -/
def hasShare (s : State) (i : Nat) : Prop :=
  (s.agent i).block < s.blocks.length ∧ (s.agent i).pos < (s.block (s.agent i).block).shares.length ∧
    ((s.block (s.agent i).block).share (s.agent i).pos).home = .own

/-- The offset of a private access is inside its space and a multiple of its size (R112). -/
def privOk (sp : PrivSpace) (n : Nat) (s : State) (l : Lane) : Prop :=
  0 ≤ privOffset l ∧ privOffset l + n ≤ s.spaceSize (s.agent l.agent) sp ∧ privOffset l % n = 0

end Sys2Proof.Machine

/-! ## Paired words, control flow, private memory, control registers, traps -/

/-- R84, R156: both slots of a P96 word read their sources before either writes; slot 0's result enters the latches first; a helper
that fails a check gets zero from both. -/
def Obligations.PairedWordReadsBeforeItWrites : Prop := ∀ (s : State) (ci : Nat) (p : PairWord) (o0 o1 : SlotOp),
  s.focus = some ci → slotOp p.s0.op7 = some o0 → slotOp p.s1.op7 = some o1 → s.wanting ci ≠ [] →
  (∀ m ∈ (s.caravan ci).members, m.agent < s.agents.length ∧ (s.agent m.agent).wait = .ready) →
  (∀ m ∈ s.wanting ci, s.pairFault (s.caravan ci) (s.agent m.agent) o0 o1 p = none) →
  ∃ t : State, exec (.pairedWord p) s = .next (t.advance ci 12) ∧ { t with agents := s.agents } = s.atIssue ci ∧
    (∀ m ∈ s.members ci, ∃ v0 v1 : LaneRes,
      (s.pairFault (s.caravan ci) (s.agent m.agent) o0 o1 p = none →
        v0 = s.slotResult (s.agent m.agent) o0 p.s0 ∧ v1 = s.slotResult (s.agent m.agent) o1 p.s1) ∧
      (s.pairFault (s.caravan ci) (s.agent m.agent) o0 o1 p ≠ none → v0 = {} ∧ v1 = {}) ∧
      t.agent m.agent = commitAgent m.want [(p.s0.dst, o0.sig.dst, v0.val), (p.s1.dst, o1.sig.dst, v1.val)]
        (v0.flags ||| v1.flags) (s.agent m.agent)) ∧
    (∀ i, (∀ m ∈ s.members ci, m.agent ≠ i) → t.agent i = s.agent i)

/-- R104, R106-R110: each control transfer sends every wanting thread to its target, or to the fall-through header, having
written its result; nop and yield do nothing, and the caravan goes on. -/
def Obligations.ControlInstructionsComplete : Prop :=
  (∀ (o : Operands) (drover : Bool),
    let f := o.fields
    let target (c : Caravan) (l : Lane) : Word := c.hdr + 8 * l.b.setWidth 32
    let none_ : Caravan → Lane → LaneRes := fun _ _ => {}
    Leaves (.br o) sigBr f none_ (fun c l => .to (target c l)) ∧
    (∀ s ci, s.focusDrover = drover → Ready s ci (sigTest drover) f →
      exec (.brz o) s = .next ((s.completed (s.atWork ci (sigTest drover) f) ci (sigTest drover) f ((s.lanes ci (sigTest drover) f).map fun l => (l, {}))).leaveBlock ci
        (((s.lanes ci (sigTest drover) f).filter (·.want)).map fun l => (l.agent, goesIf (l.a = 0) (target (s.caravan ci) l) (s.caravan ci)))) ∧
      exec (.brnz o) s = .next ((s.completed (s.atWork ci (sigTest drover) f) ci (sigTest drover) f ((s.lanes ci (sigTest drover) f).map fun l => (l, {}))).leaveBlock ci
        (((s.lanes ci (sigTest drover) f).filter (·.want)).map fun l => (l.agent, goesIf (l.a ≠ 0) (target (s.caravan ci) l) (s.caravan ci))))) ∧
    Leaves (.brx o) sigTo f none_ (fun _ l => .to (l.a.setWidth 32)) ∧
    Leaves (.call o) { sigBr with dst := .w32 } f (fun c _ => { val := c.fall.setWidth 128 }) (fun c l => .to (target c l)) ∧
    Leaves (.callx o) { sigTo with dst := .w32 } f (fun c _ => { val := c.fall.setWidth 128 }) (fun _ l => .to (l.a.setWidth 32)) ∧
    Leaves (.ret o) sigTo f none_ (fun _ l => .to (l.a.setWidth 32)) ∧
    Leaves (.qloop o) { dst := .w64, a := .queue, b := .b32, leaves := true, drover := true } f (fun _ l => { val := l.a })
      (fun c l => goesIf (l.a.getLsbD 63 = true) (target c l) c) ∧
    (∀ s ci, s.droverBusy = false → Ready s ci { leaves := true, drover := true } f →
      exec (.exit o) s = .next ((s.completed (s.atWork ci { leaves := true, drover := true } f) ci { leaves := true, drover := true } f
        ((s.lanes ci { leaves := true, drover := true } f).map fun l => (l, {}))).leaveBlock ci
          (((s.lanes ci { leaves := true, drover := true } f).filter (·.want)).map fun l => (l.agent, .exit))))) ∧
  (∀ (o : Operands),
    Gives (.nop o) { drover := true } o.fields (fun _ r => r = {}) ∧ Gives (.yield o) { drover := true } o.fields (fun _ r => r = {}))

/-- R31, R104, R142: a thread that leaves a block for a header that passes the entry checks waits there, its latches empty
and every register as it was; a thread that exits has no store pending, and ends, and no thread outside its quad changes. -/
def Obligations.TransfersArriveAndExitsEnd : Prop :=
  (∀ (s : State) (ci i : Nat) (h : Word),
    Alone s ci i → (s.agent i).drover = false → s.entryFault (s.agent i) h = none → s.qlockAt (s.agent i).ctx h = false →
    let t := s.leaveBlock ci [(i, .to h)]
    (t.agent i).pc = h ∧ (t.agent i).stand = .header ∧ (t.agent i).latches = emptyLatches ∧ (t.agent i).issued = 0 ∧
      (t.agent i).wait = .ready ∧ sameValues (s.agent i) (t.agent i) ∧ (∀ j, j ≠ i → t.agent j = s.agent j) ∧
      (t.caravan ci).place = .dissolved ∧ t.mem = s.mem ∧ t.hub = s.hub) ∧
  (∀ (s : State) (ci i : Nat), Alone s ci i → (s.agent i).drover = false →
    let t := s.leaveBlock ci [(i, .exit)]
    (t.agent i).stand = .exited ∧ (∀ p ∈ t.pending, i ∉ p.agents) ∧
      ((s.agent i).trapMode = false ∨ (s.agent i).frame.quad = false → ∀ p ∈ s.pending, i ∉ p.agents → p ∈ t.pending) ∧
      (t.agent i).regs = (s.agent i).regs ∧
      (∀ j, (s.agent j).block ≠ (s.agent i).block ∨ (s.agent j).drover = true ∨ (s.agent j).quadNo ≠ (s.agent i).quadNo →
        t.agent j = s.agent j))

/-- R104, R378, R379: an entry fault at a target is recorded at that target, and the thread enters its trap routine. -/
def Obligations.EntryFaultIsRecordedAtTheTarget : Prop := ∀ (s : State) (ci i : Nat) (h e : Word) (x : FaultCode),
  Alone s ci i → (s.agent i).drover = false → (s.agent i).trapMode = false → s.entryFault (s.agent i) h = some x →
  s.trapEntry (s.agent i) = some e → s.entryFault (s.agent i) e = none → s.qlockAt (s.agent i).ctx e = false →
  let t := s.leaveBlock ci [(i, .to h)]
  let a := t.agent i
  a.trapMode = true ∧ a.frame.code = x.code ∧ a.frame.pc = h ∧ a.frame.hdr = (s.caravan ci).hdr ∧ a.frame.nxt = h ∧
    a.frame.resume = h ∧ a.frame.info = 0 ∧ a.frame.addr = 0 ∧ a.frame.seq = s.hub.seq ∧ a.frame.fpstat = (s.agent i).fpstat ∧
    a.frame.held = (s.agent i).latches ∧ t.hub.seq = s.hub.seq + 1 ∧ a.pc = e ∧ a.stand = .header ∧ a.latches = emptyLatches ∧
    a.regs = (s.agent i).regs ∧ a.fpstat = (s.agent i).fpstat ∧ t.mem = s.mem

/-- R111-R115: a private access inside its space and aligned is done, lane after lane in ascending order; a helper stores
nothing. -/
def Obligations.PrivateAccessesComplete : Prop := ∀ (sp : PrivSpace) (lt : LoadTy) (st : StoreTy) (o : Operands),
  Works (.ldPrivate sp lt o) { dst := lt.res, a := .b32, b := .b32 } o.fields (privOk sp lt.bytes) (loadPrivLane sp lt) ∧
  Works (.stPrivate sp st o) { a := .b32, b := .b32, c := st.pos } o.fields (privOk sp st.bytes) (storePrivLane sp st)

/-- R112-R115: where no error is latent, one thread's store writes the low bytes of C, least significant first, at its offset, and
nothing else, and a load gives the little-endian value of its bytes, extended by its type, in b0. -/
def Obligations.PrivateAccessesMoveTheirBytes : Prop :=
  (∀ (s : State) (ci i : Nat) (sp : PrivSpace) (ty : StoreTy) (o : Operands),
    let g : Sig := { a := .b32, b := .b32, c := ty.pos }
    Alone s ci i → Ready s ci g o.fields → Inside s ci o.fields → hasShare s i → s.latent = [] →
    ∀ l ∈ s.lanes ci g o.fields, privOk sp ty.bytes s l → ∃ t, exec (.stPrivate sp ty o) s = .next t ∧
      (∀ k < ty.bytes, t.spaceByte i sp ((privOffset l).toNat + k) = l.c.extractLsb' (8 * k) 8) ∧
      (∀ x : Nat, (x : Int) < privOffset l ∨ privOffset l + ty.bytes ≤ (x : Int) → t.spaceByte i sp x = s.spaceByte i sp x) ∧
      (sp = .t → ∀ x, t.spaceByte i .k x = s.spaceByte i .k x) ∧ (sp = .k → ∀ x, t.spaceByte i .t x = s.spaceByte i .t x) ∧
      (t.agent i).regs = (s.agent i).regs ∧ (t.agent i).latches = (s.agent i).latches ∧ (t.agent i).fpstat = (s.agent i).fpstat ∧
      (∀ j, j ≠ i → t.agent j = s.agent j) ∧ t.mem = s.mem ∧ t.pending = s.pending ∧ t.hub = s.hub ∧
      (t.caravan ci).pc = (s.caravan ci).pc + 8) ∧
  (∀ (s : State) (ci i : Nat) (sp : PrivSpace) (ty : LoadTy) (o : Operands),
    let g : Sig := { dst := ty.res, a := .b32, b := .b32 }
    Alone s ci i → Ready s ci g o.fields → Inside s ci o.fields → hasShare s i → s.latent = [] →
    ∀ l ∈ s.lanes ci g o.fields, privOk sp ty.bytes s l → ∃ t v, exec (.ldPrivate sp ty o) s = .next t ∧
      v = leNat ((List.range ty.bytes).map fun k => s.spaceByte i sp ((privOffset l).toNat + k)) ∧
      t.agent i = commitAgent true [(o.fields.dst, ty.res, BitVec.ofNat 128 (match ty with
        | .s8 => wrapTo 32 (toSigned 8 v)
        | .s16 => wrapTo 32 (toSigned 16 v)
        | _ => v))] 0 (s.agent i) ∧
      (∀ sp' x, t.spaceByte i sp' x = s.spaceByte i sp' x) ∧ (∀ j, j ≠ i → t.agent j = s.agent j))

namespace Sys2Proof.Machine

/-- A control and status register as an agent reads it: its number, whether it is 64 bits wide, its value. -/
structure CsrRow where
  no : Nat
  wide : Bool
  val : Nat
deriving DecidableEq, Repr

/-- The registers threads and drovers both have (R23 Table 2, R276, R295 Table 2, R384). -/
def csrsOfAll (s : State) (a : Agent) : List CsrRow :=
  let core := s.coreOf a
  let c := s.ctx a.ctx
  [⟨0x002, false, (s.block a.block).bidx⟩, ⟨0x003, false, core⟩, ⟨0x004, false, core / 4 % 4⟩, ⟨0x005, false, core / 16⟩,
   ⟨0x006, false, s.mgmt.devnum⟩, ⟨0x007, false, a.ctx % 2 ^ 16⟩, ⟨0x008, true, (s.core core).cycle.toNat⟩,
   ⟨0x00B, true, c.codeBase⟩, ⟨0x00C, false, c.codeLimit⟩, ⟨0x018, true, c.dropcnt.toNat⟩] ++
  (List.range 8).map fun k => ⟨0x010 + k, true, (((s.block a.block).share a.pos).streams.getD k {}).wpos⟩

/-- A thread's own (R23 Table 2). -/
def csrsOfThreads (s : State) (a : Agent) : List CsrRow :=
  let l := s.launch a.launch
  [⟨0x000, false, a.lane⟩, ⟨0x001, false, a.tidx⟩, ⟨0x009, false, a.fpstat.toNat⟩, ⟨0x00A, false, (s.block a.block).partner⟩,
   ⟨0x00D, false, l.regs⟩, ⟨0x00E, false, l.tileSize⟩, ⟨0x00F, false, l.spillSize⟩]

/-- A drover's own; the list position is the share it serves (R295 Table 2). -/
def csrsOfDrovers (s : State) (a : Agent) : List CsrRow :=
  let e := ((s.block a.block).share a.pos).engine
  [⟨0x020, false, a.pos⟩, ⟨0x021, true, a.solo.toNat⟩,
   ⟨0x022, false, a.ended.toNat + if (s.launch a.launch).paired then 2 ^ 8 else 0⟩,
   ⟨0x023, false, (e.acc.zipIdx.map fun x => if x.1.opened then 2 ^ x.2 else 0).sum + if e.latchMeta.isSome then 2 ^ 8 else 0⟩]

/-- TF_BSTATE's part for a latch: held, and its width as 0, 1 or 2. -/
def latchBits (k : Nat) : Option Latch → Nat
  | none => 0
  | some l => 2 ^ k + 2 ^ (2 * k + 4) * (match l.width with | .w32 => 0 | .w64 => 1 | .w128 => 2)

/-- Word `j` of a latch that the frame holds; zero where it holds none of that width. -/
def latchWord (j : Nat) : Option Latch → Nat
  | none => 0
  | some l => if 32 * j < l.width.bits then (l.val.extractLsb' (32 * j) 32).toNat else 0

/-- The frame registers (R379 Table 2). -/
def csrsOfFrame (f : TrapFrame) : List CsrRow :=
  [⟨0x400, false, f.code.toNat⟩, ⟨0x401, false, f.pc.toNat⟩, ⟨0x402, false, f.hdr.toNat⟩, ⟨0x403, false, f.nxt.toNat⟩,
   ⟨0x404, false, f.resume.toNat⟩, ⟨0x405, false, f.info.toNat⟩, ⟨0x406, true, f.addr.toNat⟩, ⟨0x408, true, f.seq.toNat⟩,
   ⟨0x40A, false, f.fpstat.toNat⟩, ⟨0x40B, false, ((List.range 4).map fun k => latchBits k (f.held.getD k none)).sum⟩] ++
  (List.range 16).map fun m => ⟨0x410 + m, false, latchWord (m % 4) (f.held.getD (m / 4) none)⟩

/-- All registers agent `i` may read: a frame's in trap mode alone. -/
def csrTable (s : State) (i : Nat) : List CsrRow :=
  let a := s.agent i
  csrsOfAll s a ++ (if a.drover then csrsOfDrovers s a else csrsOfThreads s a) ++ (if a.trapMode then csrsOfFrame a.frame else [])

/-- The registers an agent may write. -/
def csrNumbersWritten (a : Agent) : List Nat :=
  (if a.drover then [0x021, 0x022] else [0x009]) ++ (if a.trapMode then [0x404, 0x40A] else [])

end Sys2Proof.Machine

/-- R23, R24, R116, R117, R276, R295, R379: csrr gives each lane the register its B names, with its value in the tables, one word or
a pair wide, and a wanting thread that reads a WPOS passes a completion point; csrw writes the register in wanting lanes, and a
write changes that register alone. -/
def Obligations.ControlRegistersReadAndWrite : Prop :=
  (∀ (o : Operands) (s : State) (ci : Nat), let g : Sig := { dst := .w32, b := .b32, drover := true }
    Ready s ci g o.fields → ∀ row : Lane → CsrRow,
    (∀ l ∈ s.lanes ci g o.fields, row l ∈ csrTable (s.atWork ci g o.fields) l.agent ∧ (row l).no = l.b.toNat % 2 ^ 32 ∧
      ((row l).wide = true → (s.agent l.agent).drover = true ∨ 0x200 ≤ o.fields.dst.toNat ∨ o.fields.dst.toNat % 2 = 0)) →
    exec (.csrr o) s = .next ((s.completed
      ((s.lanes ci g o.fields).foldl (fun t l =>
        if l.want = true ∧ 0x010 ≤ (row l).no ∧ (row l).no ≤ 0x017 then t.completionPoint l.agent else t) (s.atWork ci g o.fields)) ci g o.fields
      ((s.lanes ci g o.fields).map fun l => (l, { val := BitVec.ofNat 128 (row l).val, wide := (row l).wide }))).goOn ci o.fields.size none)) ∧
  (∀ o : Operands, Works (.csrw o) { b := .b32, c := .b32, drover := true } o.fields
    (fun s l => l.b.toNat % 2 ^ 32 ∈ csrNumbersWritten (s.agent l.agent))
    (fun s l => if l.want then (s.updAgent l.agent fun a => csrWrite a (l.b.toNat % 2 ^ 32) (l.c.setWidth 32), {}) else (s, {}))) ∧
  (∀ (a : Agent) (v : Word),
    csrWrite a 0x009 v = { a with fpstat := v.setWidth 5 } ∧ csrWrite a 0x021 v = { a with solo := v.setWidth 64 } ∧
    csrWrite a 0x022 v = { a with ended := v.setWidth 2 } ∧ csrWrite a 0x404 v = { a with frame := { a.frame with resume := v } } ∧
    csrWrite a 0x40A v = { a with frame := { a.frame with fpstat := v.setWidth 5 } })

/-- R118, R378, R379: trap and brk fill the frame, with the code in TF_INFO and the next instruction as the resume point,
and enter the trap routine; no register is written and no latch shifted into the frame. -/
def Obligations.TrapAndBrkEnterTheRoutine : Prop := ∀ (s : State) (ci i : Nat) (o : Operands) (e : Word) (isBrk : Bool),
  let g : Sig := { b := .b32, drover := true }
  Alone s ci i → Ready s ci g o.fields → (s.agent i).trapMode = false → (s.agent i).drover = false →
  s.trapEntry (s.agent i) = some e → s.entryFault (s.agent i) e = none → s.qlockAt (s.agent i).ctx e = false →
  ∀ l ∈ s.lanes ci g o.fields, ∃ t, exec (if isBrk then .brk o else .trap o) s = .next t ∧
    let a := t.agent i
    a.trapMode = true ∧ a.frame.code = (if isBrk then 0x0013 else 0x0012) ∧ a.frame.pc = (s.caravan ci).pc ∧
    a.frame.hdr = (s.caravan ci).hdr ∧ a.frame.resume = a.frame.nxt ∧
    a.frame.nxt = (if ((s.caravan ci).pc + 8).toNat < (blockEnd (s.caravan ci).hdr (s.caravan ci).len).toNat
      then (s.caravan ci).pc + 8 else (s.caravan ci).fall) ∧
    a.frame.info = l.b.setWidth 32 ∧ a.frame.addr = 0 ∧ a.frame.seq = s.hub.seq ∧ t.hub.seq = s.hub.seq + 1 ∧
    a.frame.fpstat = (s.agent i).fpstat ∧ a.frame.held = (s.agent i).latches ∧ a.latches = emptyLatches ∧ a.pc = e ∧
    a.stand = .header ∧ a.regs = (s.agent i).regs ∧ a.fpstat = (s.agent i).fpstat ∧ (∀ j, j ≠ i → t.agent j = s.agent j) ∧
    t.mem = s.mem

/-- R381: eret leaves trap mode; at TF_PC or TF_NEXT inside the block it restores the latches and goes on there, elsewhere
it enters the header at TF_RESUME with empty latches. That those who resume
inside a block form a caravan of their own is the model's choice (assumption 52). -/
def Obligations.EretReturnsFromTheTrap : Prop := ∀ (s : State) (ci i : Nat) (o : Operands),
  let g : Sig := { imm := false, leaves := true, drover := true }
  Alone s ci i → Ready s ci g o.fields → (s.agent i).trapMode = true → (s.agent i).frame.quad = false →
  (s.agent i).drover = false →
  let f := (s.agent i).frame
  ∃ t, exec (.eret o) s = .next t ∧ (t.caravan ci).place = .dissolved ∧
    (s.insideFrame (s.agent i) f.resume = true → ∃ cn, (t.agent i).stand = .caravan cn ∧ (t.caravan cn).pc = f.resume ∧
      (t.caravan cn).hdr = f.hdr ∧ (t.caravan cn).members = [⟨i, true⟩] ∧ (t.agent i).latches = f.held ∧
      (t.agent i).trapMode = false ∧ (t.agent i).fpstat = f.fpstat ∧ (t.agent i).regs = (s.agent i).regs) ∧
    (s.insideFrame (s.agent i) f.resume = false → s.entryFault { s.agent i with trapMode := false } f.resume = none →
      s.qlockAt (s.agent i).ctx f.resume = false →
      (t.agent i).stand = .header ∧ (t.agent i).pc = f.resume ∧ (t.agent i).latches = emptyLatches ∧
      (t.agent i).trapMode = false ∧ (t.agent i).fpstat = f.fpstat ∧ (t.agent i).regs = (s.agent i).regs)

namespace Sys2Proof.Machine

/-! ## Terms of the claims about the v: space -/

/-- The alignment and page checks of a lane's access pass (R212). -/
def vOk (acc : Access) (va n : Nat) (align : Bool) (s : State) (l : Lane) : Prop :=
  (align = true → va % n = 0) ∧ ∃ ps, s.laneAccess l acc va n = .ok ps

/-- Scope `i` is not sc7 and can be captured (R211, R246). -/
def scopeOk (s : State) (l : Lane) (i : Nat) : Prop := i ≠ 7 ∧ ∃ sc, s.agentScope (s.agent l.agent) i = .ok sc

/-- No error lies latent, no reduction waits, and no array has a log, so no injection is armed. -/
def Quiet (s : State) : Prop := s.latent = [] ∧ s.reds = [] ∧ s.logs = []

/-- A lane's access of `n` aligned bytes lies in one page, at PA `p` below the peer windows. -/
def oneLocalPiece (s : State) (l : Lane) (acc : Access) (va n p ord : Nat) : Prop :=
  va % n = 0 ∧ p % n = 0 ∧ p + n ≤ peerBase ∧ ∃ fresh, s.laneAccess l acc va n = .ok [⟨va, p, n, ord, fresh⟩]

/-- Byte `k` of a value. -/
def byteOf (v : QWord) (k : Nat) : Byte := v.extractLsb' (8 * k) 8

/-- Storage outside `n` bytes at `p` reads as before, by local PA. -/
def SameOutside (s t : State) (p n : Nat) : Prop := ∀ x : Nat, x < peerBase → (x < p ∨ p + n ≤ x) → t.peek x = s.peek x

/-- The scope and order checks of an atom or a red, then its address (R211, R212, R220). -/
def atomOk (acc : Access) (isRed : Bool) (op : Lane → AtomOp) (f : Fields) (s : State) (l : Lane) : Prop :=
  orderOk isRed f = true ∧ scopeOk s l (atomScope f) ∧ vOk acc (atomVa (op l) l) (op l).bytes true s l

/-- The instruction of a convoy. -/
def Transform.instr (k : Transform) (x : Extended) : Instr :=
  match k with
  | .copy => .cvyCopy x
  | .gath => .cvyGath x
  | .scat => .cvyScat x
  | .trn => .cvyTrn x
  | .conv => .cvyConv x
  | .cmpr => .cvyCmpr x
  | .dcmp => .cvyDcmp x
  | .mcst => .cvyMcst x
  | .a2a => .cvyA2a x

/-- A record that mfset takes: VALID clear; or no reserved bit, a format there is, scales and a curve that fit it, and VAs below
2^48, or offsets and nothing compressed in a tile plane (R261, R262, R264). -/
def acceptsRecord (r : BitVec 512) : Prop :=
  let fmt := (r.extractLsb' 488 5).toNat
  r.getLsbD 511 = false ∨
    (r.extractLsb' 504 3 = 0 ∧ r.extractLsb' 493 7 = 0 ∧ r.extractLsb' 448 40 = 0 ∧ fmt ≠ 0x0F ∧ fmt ≤ 0x15 ∧
      (r.getLsbD 507 = true → 0x10 ≤ fmt) ∧ (r.extractLsb' 500 4 ≠ 0 → 0x05 ≤ fmt ∧ fmt ≤ 0x08 ∨ 0x10 ≤ fmt) ∧
      (r.getLsbD 510 = true → r.getLsbD 509 = false ∧ r.extractLsb' 128 64 = 0 ∧ r.extractLsb' 32 32 = 0 ∧ r.extractLsb' 96 32 = 0) ∧
      (r.getLsbD 510 = false → r.extractLsb' 48 16 = 0 ∧ r.extractLsb' 112 16 = 0 ∧ r.extractLsb' 176 16 = 0))

/-- Where mfset and mfget have their record: 64 bytes of the thread's t: share, or eight registers of a drover. -/
def recordHere (x : Extended) (s : State) (l : Lane) : Prop :=
  let a := s.agent l.agent
  let off := l.a.toNat % 2 ^ 32
  (a.drover = true → x.sa.toNat < 64 ∧ x.sa.toNat % 8 = 0) ∧
  (a.drover = false → off + 64 ≤ (s.launch a.launch).tileSize ∧ off % 16 = 0 ∧ hasShare s l.agent)

/-- The record stands there. -/
def recordIs (x : Extended) (s : State) (l : Lane) (r : BitVec 512) : Prop :=
  let a := s.agent l.agent
  (a.drover = true → ∀ j < 8, a.pair (2 * (x.sa.toNat + j)) = r.extractLsb' (64 * j) 64) ∧
  (a.drover = false → ∀ j < 64, s.spaceByte l.agent .t (l.a.toNat % 2 ^ 32 + j) = r.extractLsb' (8 * j) 8)

/-- A completed result changes nothing of an agent but its registers, latches, flags and instruction count. -/
def onlyResult (a b : Agent) : Prop :=
  b = { a with regs := b.regs, wrote := b.wrote, latches := b.latches, issued := b.issued, fpstat := b.fpstat }

end Sys2Proof.Machine

/-! ## Instructions done once per caravan -/

/-- R131, R160, R337, R349, R364: cpinst, mfset, mfget, travfmt, cutq, emit and the convoys are done once, in the lowest wanting lane,
whose result every wanting thread receives, wherever that lane passes the instruction's own checks. cpinst gives the slot named the
curve of its record and leaves the others; travfmt does so with a node format; cutq adds a running operation with the entries, the
view block and the object named; emit counts, and where the old count lies below the capacity its record is on its way to that row.
What mfset, mfget and the convoys leave, EntriesAndStreamsAdvance says. -/
def Obligations.UniformInstructionsActOnce : Prop := ∀ (o : Operands) (x : Extended) (drover : Bool),
  let passes (chk : State → Lane → Option Trap) (s : State) (l : Lane) : Prop := chk s l = none
  Once (.cpinst o) { a := .b32, b := .b32, c := .b32 } o.fields (passes (cpinstCheck o.fields)) cpinstLane ∧
  (∀ s ci, s.focusDrover = drover → Ready s ci (mfSig x drover) x.fields → ∀ l, (s.lanes ci (mfSig x drover) x.fields).find? (·.want) = some l →
    (mfsetCheck x (s.atIssue ci) l = none → exec (.mfset x) s = .next
      ((s.completedOnce (mfsetLane x (s.atWork ci (mfSig x drover) x.fields) l).1 ci (mfSig x drover) x.fields (mfsetLane x (s.atWork ci (mfSig x drover) x.fields) l).2).goOn ci x.fields.size none)) ∧
    (recordPlace (s.atIssue ci) l = none → exec (.mfget x) s = .next
      ((s.completedOnce (mfgetLane x (s.atWork ci (mfSig x drover) x.fields) l).1 ci (mfSig x drover) x.fields (mfgetLane x (s.atWork ci (mfSig x drover) x.fields) l).2).goOn ci x.fields.size none))) ∧
  (∀ k : Transform, Once (k.instr x) (convoySig k x) x.fields (passes (convoyCheck k x)) (issueConvoy k x)) ∧
  Once (.travfmt x) (travfmtSig x) x.fields (passes travfmtCheck) travfmtLane ∧
  Once (.cutq x) (cutqSig x) x.fields (passes (cutqCheck x)) (issueCut x) ∧
  Once (.emit x) (emitSig x) x.fields (passes (emitCheck x)) (emitLane x) ∧
  (∀ (s : State) (ci : Nat), s.latent = [] →
    let tile (l : Lane) (off n : Nat) : List Byte := (List.range n).map fun j => s.spaceByte l.agent .t (off + j)
    let does (i : Instr) (g : Sig) (f : Fields) (u : State) (r : LaneRes) : Prop :=
      exec i s = .next ((s.completedOnce u ci g f r).goOn ci f.size none)
    (let g : Sig := { a := .b32, b := .b32, c := .b32 }
      let f := o.fields
      Ready s ci g f → ∀ l, (s.lanes ci g f).find? (·.want) = some l → cpinstCheck f (s.atIssue ci) l = none →
      let c := (s.agent l.agent).ctx
      let slot := l.c.toNat % 2 ^ 32
      assocGet s.contexts c ≠ none → ∃ u, does (.cpinst o) g f u {} ∧ u = { s.atWork ci g f with contexts := u.contexts } ∧
        1 ≤ slot ∧ slot ≤ 15 ∧ curveOfRecord (tile l (privOffset l).toNat 144) ≠ none ∧
        (u.ctx c).curve slot = curveOfRecord (tile l (privOffset l).toNat 144) ∧
        (∀ k, k ≠ slot → (u.ctx c).curve k = (s.ctx c).curve k) ∧ u.ctx c = { s.ctx c with curves := (u.ctx c).curves } ∧
        ∀ d, d ≠ c → u.ctx d = s.ctx d) ∧
    (let g := travfmtSig x
      let f := x.fields
      Ready s ci g f → ∀ l, (s.lanes ci g f).find? (·.want) = some l → travfmtCheck (s.atIssue ci) l = none →
      let c := (s.agent l.agent).ctx
      let slot := l.b.toNat % 2 ^ 32
      assocGet s.contexts c ≠ none → ∃ u, does (.travfmt x) g f u {} ∧ u = { s.atWork ci g f with contexts := u.contexts } ∧ slot ≤ 15 ∧
        assocGet (u.ctx c).formats slot = some (BitVec.ofNat 256 (leNat (tile l (l.a.toNat % 2 ^ 32) 32))) ∧
        (∀ k, k ≠ slot → assocGet (u.ctx c).formats k = assocGet (s.ctx c).formats k) ∧
        u.ctx c = { s.ctx c with formats := (u.ctx c).formats } ∧ ∀ d, d ≠ c → u.ctx d = s.ctx d) ∧
    (let g := cutqSig x
      let f := x.fields
      Ready s ci g f → s.pending = [] → ∀ l, (s.lanes ci g f).find? (·.want) = some l → cutqCheck x (s.atIssue ci) l = none →
      let a := s.agent l.agent
      ∃ u op k, does (.cutq x) g f u {} ∧ u = { s.atWork ci g f with ops := u.ops, nonce := u.nonce } ∧ u.ops = s.ops ++ [op] ∧
        op.state = .running ∧ op.ctx = a.ctx ∧ op.core = s.coreOf a ∧ op.body = .cut k ∧ k.block = some a.block ∧
        k.graph = (s.ctx a.ctx).manifest x.mfa.toNat ∧ k.out = (s.ctx a.ctx).manifest x.mfb.toNat ∧ k.view = tile l (l.b.toNat % 2 ^ 32) 64 ∧
        k.obj = (if convoyCsp x then .virt (vaBase l) else .tile a.block a.pos (l.a.toNat % 2 ^ 32))) ∧
    (let g := emitSig x
      let f := x.fields
      Ready s ci g f → s.pending = [] → Quiet s → ∀ l, (s.lanes ci g f).find? (·.want) = some l → emitCheck x (s.atIssue ci) l = none →
      let a := s.agent l.agent
      let m := (s.ctx a.ctx).manifest x.mfa.toNat
      ∀ pa ord, oneLocalPiece s l accAtom (countVa l) 4 pa ord → let n := s.peekNat pa 4
      ∃ u, does (.emit x) g f u { val := BitVec.ofNat 128 n } ∧ u.peekNat pa 4 = (n + 1) % 2 ^ 32 ∧ SameOutside s u pa 4 ∧
        (∀ j, u.agent j = { s.agent j with adv := (u.agent j).adv }) ∧ (m.rows ≤ n → u.pending = []) ∧
        (n < m.rows → ∀ q ord' fresh, q + m.rowBytes ≤ peerBase →
          s.access a.ctx (s.coreOf a) accWrite (m.rowAddr n) m.rowBytes = .ok [⟨m.rowAddr n, q, m.rowBytes, ord', fresh⟩] →
          (∀ p ∈ u.pending, p.agents = [l.agent]) ∧
            (u.performWhere fun _ => true).peekBytes q m.rowBytes = tile l (l.a.toNat % 2 ^ 32) m.rowBytes)))

/-- R264, R265, R274, R275: mfset takes an acceptable record into its entry, or clears the entry where VALID is clear; GEN advances
by one and is the result, and no other entry or context changes; mfget writes the record out, m0's being VALID alone, with GEN
for its result. A convoy issued on a channel starts where the channel's stream ended and captures its entries; END is the start
plus its stream bytes, and its result; the engine holds it, running. -/
def Obligations.EntriesAndStreamsAdvance : Prop :=
  (∀ (x : Extended) (drover : Bool) (s : State) (ci : Nat), let g := mfSig x drover
    let f := x.fields
    let n := x.mfa.toNat
    s.focusDrover = drover → Ready s ci g f → s.latent = [] → ∀ l, (s.lanes ci g f).find? (·.want) = some l → recordHere x s l →
    let a := s.agent l.agent
    assocGet s.contexts a.ctx ≠ none →
    (∀ r, recordIs x s l r → n ≠ 0 → acceptsRecord r → ∃ u, exec (.mfset x) s = .next ((s.completedOnce u ci g f
        { val := (((s.ctx a.ctx).manifest n).gen + 1).setWidth 128 }).goOn ci f.size none) ∧
      ((u.ctx a.ctx).manifest n).gen = ((s.ctx a.ctx).manifest n).gen + 1 ∧
      ((u.ctx a.ctx).manifest n).bits = (if r.getLsbD 511 then r else 0) ∧
      (∀ k, k ≠ n → (u.ctx a.ctx).manifest k = (s.ctx a.ctx).manifest k) ∧ (∀ c, c ≠ a.ctx → u.ctx c = s.ctx c) ∧
      u.ctx a.ctx = { s.ctx a.ctx with manifests := (u.ctx a.ctx).manifests }) ∧
    (let bits : BitVec 512 := if n = 0 then 1#512 <<< 511 else ((s.ctx a.ctx).manifest n).bits
      ∃ u, exec (.mfget x) s = .next ((s.completedOnce u ci g f { val := ((s.ctx a.ctx).manifest n).gen.setWidth 128 }).goOn ci f.size none) ∧
        recordIs x u l bits ∧ u.contexts = s.contexts)) ∧
  (∀ (k : Transform) (x : Extended) (s : State) (ci : Nat), let g := convoySig k x
    let f := x.fields
    Ready s ci g f → ∀ l, (s.lanes ci g f).find? (·.want) = some l → convoyCheck k x (s.atIssue ci) l = none →
    let a := s.agent l.agent
    let md := (s.ctx a.ctx).manifest x.mfb.toNat
    let start := (((s.block a.block).share a.pos).streams.getD (convoyChan x) {}).last
    let n := streamBytes k md (convoyExtents k x)
    a.block < s.blocks.length → a.pos < (s.block a.block).shares.length →
    ((s.block a.block).share a.pos).streams.length = 8 →
    ∃ u op c, exec (k.instr x) s = .next ((s.completedOnce u ci g f { val := BitVec.ofNat 128 (start + n) }).goOn ci f.size none) ∧
      (((u.block a.block).share a.pos).streams.getD (convoyChan x) {}).last = start + n ∧
      (∀ ch < 8, ch ≠ convoyChan x →
        (((u.block a.block).share a.pos).streams.getD ch {}) = (((s.block a.block).share a.pos).streams.getD ch {})) ∧
      u.ops = s.ops ++ [op] ∧ op.body = .convoy c ∧ op.state = .running ∧ op.ctx = a.ctx ∧ c.kind = k ∧ c.start = start ∧ c.len = n ∧
      c.src = (s.ctx a.ctx).manifest x.mfa.toNat ∧ c.dst = md)

/-! ## The v: space -/

/-- R213-R219: loads and stores of the v: space complete wherever their checks pass, by the translation the checks found; an advance
load completes on every address. One thread's advance load of a page that is not SO gives the value and records it under its
register, in place of that register's old entry or else of the oldest of four, and no entry stays that it read newer bytes of (R232;
assumption 13); one that would fault, or meets an SO page, gives
zero and is deferred; a check gives the bytes of a valid entry, or the value in storage, and removes the entry. -/
def Obligations.MemoryAccessesComplete : Prop :=
  (∀ (lt : LoadTy) (st : StoreTy) (ty : WideTy) (o : Operands),
  let f := o.fields
  Acts (.ldV lt o) { dst := lt.res, a := .b64, b := .b32 } f
    (fun s l => vOk accLoad (vaOffset l) lt.bytes true s l) (fun s => eachLane (vLoadLane s vaOffset lt.bytes lt.extend) s) ∧
  Acts (.ldUa ty o) { dst := ty.res, a := .b64, b := .b32 } f
    (fun s l => vOk accLoad (vaOffset l) ty.bytes false s l) (fun s => eachLane (vLoadLane s vaOffset ty.bytes id) s) ∧
  Acts (.ldAcq ty o) { dst := ty.res, a := .b64, b := .scope } f
    (fun s l => scopeOk s l l.b.toNat ∧ vOk accLoad (vaBase l) ty.bytes true s l)
    (fun s => eachLane (fun t l =>
      let r := vLoadLane s vaBase ty.bytes id t l
      (if t.observes (s.lanePieces l accLoad (vaBase l) ty.bytes) then r.1.completionPoint l.agent else r.1.emptyAdv l.agent, r.2)) s) ∧
  Acts (.ldAdv ty o) { dst := ty.res, a := .b64, b := .b32 } f (fun _ _ => True) (fun s => eachLane (ldAdvLane s f ty.bytes) s) ∧
  Acts (.chk ty o) { dst := ty.res, a := .b64, b := .b32 } f
    (fun s l => (∀ q ∈ (sigChk ty).sourceQueues f, q = none) ∧ (∃ e, findAdv (s.agent l.agent) f (vaOffset l) ty.bytes = some e ∧ e.state = .valid) ∨
      vOk accLoad (vaOffset l) ty.bytes true s l) (fun s => eachLane (chkLane s f ty.bytes) s) ∧
  Acts (.stV st o) { a := .b64, b := .b32, c := st.pos } f
    (fun s l => vOk accStore (vaOffset l) st.bytes true s l) (vStoreLanes vaOffset st.bytes) ∧
  Acts (.stUa ty o) { a := .b64, b := .b32, c := ty.pos } f
    (fun s l => vOk accStore (vaOffset l) ty.bytes false s l) (vStoreLanes vaOffset ty.bytes) ∧
  Acts (.stRel ty o) { a := .b64, b := .scope, c := ty.pos } f
    (fun s l => scopeOk s l l.b.toNat ∧ vOk accStore (vaBase l) ty.bytes true s l)
    (fun s ls => vStoreLanes vaBase ty.bytes
      ((ls.filter (·.want)).foldl (fun t l => t.releaseAt l.agent (s.laneScope l l.b.toNat)) s) ls)) ∧
  (∀ (s : State) (ci i : Nat) (ty : WideTy) (o : Operands),
    let f := o.fields
    let g : Sig := { dst := ty.res, a := .b64, b := .b32 }
    let n := ty.bytes
    let old := (s.agent i).adv
    Alone s ci i → Ready s ci g f → Inside s ci f → Quiet s → (∀ q ∈ s.pending, i ∉ q.agents) → g.pops f (s.wanting ci).length = [] →
    ∀ l ∈ s.lanes ci g f,
    let entry (pa : Nat) (v : QWord) (st : AdvState) : AdvEntry := ⟨f.dst.toNat, BitVec.ofNat 64 (vaOffset l), pa, n, v, st⟩
    let records (t : State) (old : List AdvEntry) (e : AdvEntry) : Prop :=
      ((∃ x ∈ old, x.reg = f.dst.toNat) → (t.agent i).adv = old.filter (fun x => x.reg ≠ f.dst.toNat) ++ [e]) ∧
      ((∀ x ∈ old, x.reg ≠ f.dst.toNat) → old.length < 4 → (t.agent i).adv = old ++ [e]) ∧
      ((∀ x ∈ old, x.reg ≠ f.dst.toNat) → 4 ≤ old.length → (t.agent i).adv = old.drop 1 ++ [e])
    let stale (p : Nat) (x : AdvEntry) : Prop :=
      x.state = .valid ∧ p < x.pa + x.size ∧ x.pa < p + n ∧ s.peekNat x.pa x.size ≠ x.bytes.toNat
    let gives (t : State) (v : QWord) : Prop :=
      t.agent i = { commitAgent true [(f.dst, ty.res, v)] 0 (s.agent i) with adv := (t.agent i).adv } ∧ (∀ x, t.peek x = s.peek x)
    (∀ p ord, oneLocalPiece s l accLoad (vaOffset l) n p ord →
      let v : QWord := BitVec.ofNat 128 (leNat ((List.range n).map fun k => s.peek (p + k)))
      (ord ≠ 1 → ∃ t, exec (.ldAdv ty o) s = .next t ∧ gives t v ∧
        records t (old.filter fun x => ¬stale p x) (entry p v .valid)) ∧
      (ord = 1 → ∃ t, exec (.ldAdv ty o) s = .next t ∧ gives t 0 ∧ records t old (entry 0 0 .deferred)) ∧
      ((∀ e, findAdv (s.agent i) f (vaOffset l) n = some e → e.state = .deferred) → ∃ t, exec (.chk ty o) s = .next t ∧ gives t v ∧
        ∀ e ∈ (t.agent i).adv, e ∈ old ∧ ¬(e.reg = f.dst.toNat ∧ e.va.toNat = vaOffset l ∧ e.size = n))) ∧
    ((vaOffset l % n ≠ 0 ∨ ∃ e, s.laneAccess l accLoad (vaOffset l) n = .error e) →
      ∃ t, exec (.ldAdv ty o) s = .next t ∧ gives t 0 ∧ records t old (entry 0 0 .deferred)) ∧
    (∀ e ∈ old, e.reg = f.dst.toNat → e.va.toNat = vaOffset l → e.size = n → e.state = .valid → (∀ x ∈ old, x.reg = e.reg → x = e) →
      ∃ t, exec (.chk ty o) s = .next t ∧ gives t e.bytes ∧ (t.agent i).adv = old.filter fun x => x.reg ≠ e.reg))

/-- R181, R213: a thread's store to one page changes no byte when it issues; its acknowledgement writes the low bytes of C
at the translated address, least significant first, and no other byte, register or pending store. R218: the store removes the
entries of the thread's advance-load table whose bytes it overlaps, and no others; an operand from a queue, an acquire, removes all
(R290). -/
def Obligations.StoreTakesEffectWhenAcknowledged : Prop := ∀ (s : State) (ci i p ord : Nat) (ty : StoreTy) (o : Operands),
  let g : Sig := { a := .b64, b := .b32, c := ty.pos }
  Alone s ci i → Ready s ci g o.fields → Inside s ci o.fields → Quiet s → (∀ q ∈ s.pending, i ∉ q.agents) →
  ∀ l ∈ s.lanes ci g o.fields, oneLocalPiece s l accStore (vaOffset l) ty.bytes p ord →
  ∃ t u, exec (.stV ty o) s = .next t ∧ (∀ x, t.peek x = s.peek x) ∧ (t.agent i).regs = (s.agent i).regs ∧
    (t.agent i).latches = (s.agent i).latches ∧ (∀ j, j ≠ i → t.agent j = s.agent j) ∧
    (∀ e, e ∈ (t.agent i).adv ↔ e ∈ (s.agent i).adv ∧ g.pops o.fields (s.wanting ci).length = [] ∧ ¬(e.state = .valid ∧ e.pa < p + ty.bytes ∧ p < e.pa + e.size)) ∧
    exec (.acknowledgement s.pending.length) t = .next u ∧ u.agents = t.agents ∧ u.pending = s.pending ∧
    (∀ k < ty.bytes, u.peek (p + k) = byteOf l.c k) ∧ SameOutside s u p ty.bytes

/-- R213, R218: a thread's load from one page gives the little-endian value of the bytes at the translated address, extended by
its type, in b0 and its destination, and changes nothing else of the thread, but that the entries of its
advance-load table whose bytes it overlaps go, or all where it pops a queue (R290). -/
def Obligations.LoadReadsStorage : Prop := ∀ (s : State) (ci i p ord : Nat) (ty : LoadTy) (o : Operands),
  let g : Sig := { dst := ty.res, a := .b64, b := .b32 }
  Alone s ci i → Ready s ci g o.fields → Inside s ci o.fields → Quiet s → (∀ q ∈ s.pending, i ∉ q.agents) →
  ∀ l ∈ s.lanes ci g o.fields, oneLocalPiece s l accLoad (vaOffset l) ty.bytes p ord →
  ∃ t v, exec (.ldV ty o) s = .next t ∧ v = leNat ((List.range ty.bytes).map fun k => s.peek (p + k)) ∧
    t.agent i = { commitAgent true [(o.fields.dst, ty.res, BitVec.ofNat 128 (match ty with
      | .s8 => wrapTo 32 (toSigned 8 v)
      | .s16 => wrapTo 32 (toSigned 16 v)
      | _ => v))] 0 (s.agent i) with
        adv := if g.pops o.fields (s.wanting ci).length = [] then
            (s.agent i).adv.filter fun e => ¬(e.state = .valid ∧ e.pa < p + ty.bytes ∧ p < e.pa + e.size)
          else [] } ∧
    (∀ j, j ≠ i → t.agent j = s.agent j) ∧ t.mem = s.mem ∧ t.pending = s.pending

/-- R220-R222, R225: atomics and reductions complete wherever their order, scope and address pass. How lanes that
share an element act in turn is the model's (assumption 50). -/
def Obligations.AtomicsAndReductionsComplete : Prop := ∀ (a : AddTy) (m : MinTy) (b : BitTy) (ty : WideTy) (o : Operands),
  let f := o.fields
  let atom (i : Instr) (op : AtomOp) : Prop :=
    Acts i (atomSig op.elem) f (atomOk accAtom false (fun _ => op) f) (atomLanes (fun _ => op) f)
  let red (i : Instr) (op : AtomOp) : Prop :=
    Acts i { a := .b64, b := .b32, c := op.elem.pos, ctlA := true, ctlB := true, ctlC := true, ctlOk := orderOk true } f
      (atomOk accRed true (fun _ => op) f) (redLanes op f)
  atom (.atomAdd a o) (.add a) ∧ atom (.atomMin m o) (.min m) ∧ atom (.atomMax m o) (.max m) ∧ atom (.atomAnd b o) (.and b) ∧
  atom (.atomOr b o) (.or b) ∧ atom (.atomXor b o) (.xor b) ∧ atom (.atomExch b o) (.exch b) ∧
  Acts (.atomCas ty o) { atomSig ty.elem with b := ty.pos, imm := ty ≠ .b128 } f
    (atomOk accAtom false (fun l => .cas ty l.b) f) (atomLanes (fun l => .cas ty l.b) f) ∧
  red (.redAdd a o) (.add a) ∧ red (.redMin m o) (.min m) ∧ red (.redMax m o) (.max m) ∧ red (.redAnd b o) (.and b) ∧
  red (.redOr b o) (.or b) ∧ red (.redXor b o) (.xor b)

/-- R220-R223: one atomic step on an element in local storage returns the old value, leaves the new one there unless a
compare failed, and changes no other byte; R221 Table 3 gives the new value of the integer and the floating-point forms; each half
of a packed addition is a step of its own. R226: a run
of pending packed halves is accumulated in FP32 in order and rounded once into its element; the other pending halves stay. -/
def Obligations.AtomicAndReductionSteps : Prop :=
  ((∀ (s : State) (ctx pa v : Nat) (op : AtomOp), Quiet s → pa + op.bytes ≤ peerBase →
      let n := op.bytes
      let x := s.peekNat pa n
      let r := s.atomAt ctx pa op v
      r.2 = x ∧ (∀ k < n, r.1.peek (pa + k) = BitVec.ofNat 8 ((if op.writes x v then op.apply x v else x) / 2 ^ (8 * k))) ∧
        SameOutside s r.1 pa n ∧ r.1.agents = s.agents ∧ r.1.pending = s.pending) ∧
    (∀ x v : Word, (AtomOp.add .n32).apply x.toNat v.toNat = (x + v).toNat ∧
      (AtomOp.min .s32).apply x.toNat v.toNat = (if x.sle v then x else v).toNat ∧
      (AtomOp.max .s32).apply x.toNat v.toNat = (if x.sle v then v else x).toNat ∧
      (AtomOp.min .n32).apply x.toNat v.toNat = (if x.ule v then x else v).toNat ∧
      (AtomOp.max .n32).apply x.toNat v.toNat = (if x.ule v then v else x).toNat ∧
      (AtomOp.and .b32).apply x.toNat v.toNat = (x &&& v).toNat ∧ (AtomOp.or .b32).apply x.toNat v.toNat = (x ||| v).toNat ∧
      (AtomOp.xor .b32).apply x.toNat v.toNat = (x ^^^ v).toNat ∧ (AtomOp.exch .b32).apply x.toNat v.toNat = v.toNat) ∧
    (∀ x v : DWord, (AtomOp.add .n64).apply x.toNat v.toNat = (x + v).toNat ∧
      (AtomOp.min .s64).apply x.toNat v.toNat = (if x.sle v then x else v).toNat ∧
      (AtomOp.max .s64).apply x.toNat v.toNat = (if x.sle v then v else x).toNat ∧
      (AtomOp.min .n64).apply x.toNat v.toNat = (if x.ule v then x else v).toNat ∧
      (AtomOp.max .n64).apply x.toNat v.toNat = (if x.ule v then v else x).toNat ∧
      (AtomOp.and .b64).apply x.toNat v.toNat = (x &&& v).toNat ∧ (AtomOp.or .b64).apply x.toNat v.toNat = (x ||| v).toNat ∧
      (AtomOp.xor .b64).apply x.toNat v.toNat = (x ^^^ v).toNat ∧ (AtomOp.exch .b64).apply x.toNat v.toNat = v.toNat) ∧
    (∀ (ty : WideTy) (new : QWord) (x v : Nat), (AtomOp.cas ty new).writes x v = true ↔ x = v) ∧
    (∀ (ty : WideTy) (new : QWord) (v : Nat), (AtomOp.cas ty new).apply v v = new.toNat) ∧
    (∀ x v : Word,
      (∃ fl, Rounds fp32 .rn false ((exactOf (decodeFp fp32 x.toNat)).add .rn (exactOf (decodeFp fp32 v.toNat))) ((AtomOp.add .f32).apply x.toNat v.toNat) fl) ∧
      PicksNumber .f32 (fun a b => numberLt a b ∨ numberEq a b ∧ a.sign = true) x.toNat v.toNat ((AtomOp.min .f32).apply x.toNat v.toNat) ∧
      PicksNumber .f32 (fun a b => numberLt b a ∨ numberEq a b ∧ a.sign = false) x.toNat v.toNat ((AtomOp.max .f32).apply x.toNat v.toNat) ∧
      ∀ isBf : Bool, let f := if isBf then bf16 else fp16
        ∀ k < 2, ∃ fl, Rounds f .rn false ((exactOf (decodeFp f (elemAt 16 k x.toNat))).add .rn (exactOf (decodeFp f (elemAt 16 k v.toNat))))
          (elemAt 16 k ((AtomOp.add (if isBf then .bf16x2 else .f16x2)).apply x.toNat v.toNat)) fl) ∧
    (∀ x v : DWord, ∃ fl, Rounds fp64 .rn false ((exactOf (decodeFp fp64 x.toNat)).add .rn (exactOf (decodeFp fp64 v.toNat)))
      ((AtomOp.add .f64).apply x.toNat v.toNat) fl) ∧
    (∀ (s : State) (ctx pa : Nat) (isBf : Bool) (v : BitVec 16), Quiet s → pa + 2 ≤ peerBase →
      let f := if isBf then bf16 else fp16
      let r := s.halfAt ctx pa isBf v
      r.2 = s.peekNat pa 2 ∧ SameOutside s r.1 pa 2 ∧ r.1.agents = s.agents ∧ r.1.pending = s.pending ∧
        ∃ fl, Rounds f .rn false ((exactOf (decodeFp f (s.peekNat pa 2))).add .rn (exactOf (decodeFp f v.toNat))) (r.1.peekNat pa 2) fl)) ∧
  (∀ (s : State) (e n : Nat) (r : PendRed) (rs : List PendRed),
    s.latent = [] → e + 2 ≤ peerBase → (s.reds.filter fun q => q.pa = e).take n = r :: rs →
    ∃ t, exec (.reductionRunApply e n) s = .next t ∧
      (let f := if r.bf16 then bf16 else fp16
       let acc := rs.foldl (fun a q => decodeFp fp32 (rne32 (FVal.sum .rn [a, decodeFp f q.val.toNat]))) (decodeFp f r.val.toNat)
       t.peekNat e 2 = (roundFp f .rn (FVal.sum .rn [decodeFp f (s.peekNat e 2), acc]) false).1 % 2 ^ 16) ∧
      SameOutside s t e 2 ∧ (∀ q, q ∈ t.reds ↔ (q ∈ s.reds ∧ q.pa ≠ e) ∨ q ∈ (s.reds.filter fun q => q.pa = e).drop n) ∧
      t.agents = s.agents ∧ t.pending = s.pending)

/-- R36, R227, R228, R234, R243, R244: fences, tfence, scpw and scpinv complete wherever their operands pass; a release performs its
agent's pending accesses to bytes in its scope, but for unordered ones, and no other agent's; an acquire empties its advance-load
table; what a tfence, scpw without a peer mask, and scpinv leave. -/
def Obligations.FencesAndScopes : Prop :=
  (∀ (o : Operands),
    let f := o.fields
    let fence (i : Instr) (release acquire : Bool) : Prop := Acts i { b := .scope } f (fun s l => scopeOk s l l.b.toNat) (fun s ls =>
      ((ls.filter (·.want)).foldl (fun t l =>
        let sc := s.laneScope l l.b.toNat
        let t1 := if release then t.releaseAt l.agent sc else t.performReds l.agent sc
        if acquire then t1.updAgent l.agent fun a => { a with adv := [] } else t1) s, ls.map fun _ => {}))
    fence (.fence o) true true ∧ fence (.fenceAcq o) false true ∧ fence (.fenceRel o) true false ∧
    Works (.tfence o) { a := .b64, b := .scope, c := .b32 } f (fun s l => scopeOk s l l.b.toNat ∧ vaBase l < 2 ^ 48) tfenceLane ∧
    Works (.scpw o) { dst := .w32, a := .b32, b := .b128, c := .b32, imm := false, drover := true } f (fun s l => scpwCheck s l = none) scpwLane ∧
    Works (.scpinv o) { dst := .w32, b := .b32, drover := true } f (fun _ l => 8 ≤ l.b.toNat % 2 ^ 32 ∧ l.b.toNat % 2 ^ 32 ≤ 63) scpinvLane) ∧
  ((∀ (s : State) (i : Nat) (sc : Scope), let t := s.releaseAt i sc
      t.agents = s.agents ∧ (∀ p ∈ t.pending, p ∈ s.pending) ∧ (∀ p ∈ s.pending, i ∉ p.agents → p ∈ t.pending) ∧
      (∀ p ∈ t.pending, i ∈ p.agents → p.ord = 2 ∨ ∀ b ∈ p.body.bytes, s.inScope sc b = false) ∧
      (∀ p ∈ s.pending, i ∈ p.agents → p.ord = 2 → p ∈ t.pending)) ∧
    (∀ (s : State) (i : Nat) (sc : Scope), let t := s.performReds i sc
      t.agents = s.agents ∧ (∀ p ∈ t.pending, p ∈ s.pending) ∧ (∀ p ∈ s.pending, i ∉ p.agents → p ∈ t.pending) ∧
      (∀ p ∈ t.pending, i ∈ p.agents → p.ord = 2 ∨ p.body.isRed = false ∨ ∀ b ∈ p.body.bytes, s.inScope sc b = false) ∧
      (∀ p ∈ s.pending, i ∈ p.agents → p.ord ≠ 1 → p.body.isRed = false → p ∈ t.pending)) ∧
    (∀ (s : State) (l : Lane) (sc : Scope), l.want = true → s.agentScope (s.agent l.agent) l.b.toNat = .ok sc →
      let t := (tfenceLane s l).1
      let r := tfenceRange (vaBase l) (l.c.toNat % 2 ^ 32)
      (∀ e ∈ t.tlb, e ∈ s.tlb ∧ ¬(e.ctx = (s.agent l.agent).ctx ∧ tlbInScope sc.cores e.core = true ∧ e.base < r.2 ∧ r.1 < e.base + e.size)) ∧
      (∀ e ∈ s.tlb, ¬(e.ctx = (s.agent l.agent).ctx ∧ tlbInScope sc.cores e.core = true ∧ e.base < r.2 ∧ r.1 < e.base + e.size) → e ∈ t.tlb) ∧
      (∀ p ∈ t.pending, l.agent ∉ p.agents ∧ ¬(p.ctx = (s.agent l.agent).ctx ∧ sc.cores.toNat.testBit p.core = true)) ∧
      ((∀ r ∈ s.remotes, ¬(r.ctx = (s.agent l.agent).ctx ∧ sc.cores.toNat.testBit r.core = true)) → s.halves = [] →
        (s.agent l.agent).wait = .ready → (t.agent l.agent).wait = .ready) ∧
      (∀ r ∈ t.remotes, r.ctx = (s.agent l.agent).ctx → sc.cores.toNat.testBit r.core = true → r.issued < s.nonce →
        l.agent < s.agents.length → (t.agent l.agent).wait = .tfence sc.cores s.nonce)) ∧
    (∀ (s : State) (l : Lane) (k : Nat), l.want = true → l.a.getLsbD 15 = false → assocGet s.contexts (s.agent l.agent).ctx ≠ none →
      let ctx := (s.agent l.agent).ctx
      let n := l.c.toNat % 2 ^ 32
      let old := (s.ctx ctx).scopeEntry n
      let r := scpwLane s l
      let e := (r.1.ctx ctx).scopeEntry n
      e.valid = true ∧ e.gen = old.gen + 1 ∧ e.rel = l.a.getLsbD 17 ∧ e.host = l.a.getLsbD 16 ∧ e.cores = l.b.setWidth 64 ∧
        e.slices = l.b.extractLsb' 64 64 ∧ e.peers = s.ownMask ∧ r.2.val = e.gen.setWidth 128 ∧
        (k ≠ n → (r.1.ctx ctx).scopeEntry k = (s.ctx ctx).scopeEntry k) ∧ r.1.agents = s.agents ∧ r.1.mem = s.mem) ∧
    (∀ (s : State) (l : Lane) (k : Nat), l.want = true → assocGet s.contexts (s.agent l.agent).ctx ≠ none →
      let ctx := (s.agent l.agent).ctx
      let n := l.b.toNat % 2 ^ 32
      let old := (s.ctx ctx).scopeEntry n
      let r := scpinvLane s l
      (r.1.ctx ctx).scopeEntry n = { old with valid := false, gen := old.gen + 1 } ∧ r.2.val = (old.gen + 1).setWidth 128 ∧
        (k ≠ n → (r.1.ctx ctx).scopeEntry k = (s.ctx ctx).scopeEntry k) ∧ r.1.agents = s.agents ∧ r.1.mem = s.mem))

namespace Sys2Proof.Machine

/-! ## Terms of the claims about synchronization -/

/-- Caravan `ci`, agent `i` alone, has gone on to the next instruction of 8 bytes. -/
def WentOn (s t : State) (ci i : Nat) : Prop :=
  (t.caravan ci).pc = (s.caravan ci).pc + 8 ∧ (t.caravan ci).members = (s.caravan ci).members ∧ (t.agent i).wait = .ready ∧
    (t.agent i).regs = (s.agent i).regs

/-- The open phase of barrier `k`, of this device alone, still awaits participant `i`. -/
def awaits (s : State) (i : Nat) (k : BarKey) : Prop :=
  ∃ sc, (s.barrierAt k).scope = some sc ∧ s.otherPeers sc = 0 ∧ i ∈ (s.barrierAt k).parts ∧ i ∉ (s.barrierAt k).arrived ∧
    (s.agent i).stand ≠ .exited

/-- And it awaits no other. -/
def awaitsNoOther (s : State) (i : Nat) (k : BarKey) : Prop :=
  ∀ j ∈ (s.barrierAt k).parts, j = i ∨ j ∈ (s.barrierAt k).arrived ∨ (s.agent j).stand = .exited

/-- The operand checks of a level barrier pass, and the thread may arrive now (R174, R175). -/
def mayArrive (s : State) (i idx : Nat) : Prop :=
  idx ≠ 0 ∧ s.levelFault (s.agent i) idx = none ∧ s.arriveFault i (s.threadScope i idx) = none ∧ s.arrivalDone i idx = true

/-- The 8 bytes of the barrier object a lane names in its own t: share, as a number. -/
def State.objectAt (s : State) (i off : Nat) : Nat := leNat ((List.range 8).map fun k => s.spaceByte i .t (off + k))

/-- Agent `i` waits inside an instruction of caravan `ci`, which is its own: an instruction of 8 bytes, whichever pending accesses
are performed; and its block does not stop for a save. -/
def WaitsIn (s : State) (ci i : Nat) : Prop :=
  Alone s ci i ∧ (s.agent i).stand = .caravan ci ∧ (s.caravan ci).pc + 8 ≠ blockEnd (s.caravan ci).hdr (s.caravan ci).len ∧
    s.wakeable i = true ∧ ∀ fs : List (PendStore → Bool), sizeOfParcels ((fs.foldl State.performWhere s).fetch ci) = 8

end Sys2Proof.Machine

/-! ## Barriers, barrier objects, drain, psync -/

/-- R174-R176: an arrival that is not the last counts and its thread goes on (bar.arrive) or waits (bar.sync); the last one
completes the phase, and then bar.sync goes on too; bar.wait goes on once the phase of its thread's arrival is over. Which
threads take part is the model's reading (assumption 23). -/
def Obligations.LevelBarriersCountArrivals : Prop := ∀ (s : State) (ci i : Nat) (o : Operands),
  Alone s ci i → Ready s ci sigLevel o.fields → Inside s ci o.fields →
  ∀ l ∈ s.lanes ci sigLevel o.fields,
    let k := s.openKey i (s.threadScope i l.b.toNat)
    let b := s.barrierAt k
    (mayArrive s i l.b.toNat → awaits s i k →
      (awaitsNoOther s i k → ∃ t u, exec (.barArrive o) s = .next t ∧ exec (.barSync o) s = .next u ∧
        (t.barrierAt k).phase = b.phase + 1 ∧ (t.barrierAt k).arrived = [] ∧ WentOn s t ci i ∧
        (u.barrierAt k).phase = b.phase + 1 ∧ (u.barrierAt k).arrived = [] ∧ WentOn s u ci i ∧ (u.agent i).adv = []) ∧
      (¬ awaitsNoOther s i k → ∃ t u, exec (.barArrive o) s = .next t ∧ exec (.barSync o) s = .next u ∧
        t.barrierAt k = { b with arrived := i :: b.arrived } ∧ WentOn s t ci i ∧
        u.barrierAt k = { b with arrived := i :: b.arrived } ∧ (u.agent i).wait = .level k b.phase ∧
        (u.caravan ci).pc = (s.caravan ci).pc)) ∧
    (s.levelFault (s.agent i) l.b.toNat = none → s.arrivalDone i l.b.toNat = true →
      ∃ t, exec (.barWait o) s = .next t ∧ WentOn s t ci i ∧ (t.agent i).adv = [])

/-- R181: a drain with nothing older pending on its core and context arrives and goes on at once; one with an older store
pending waits, and goes on once everything older is acknowledged. R175, R180: a wait of a level barrier goes on once its phase is
over, and one of an object in the thread's own share once the object's phase has changed, and obar.sync then writes the old phase;
until then it stays. What is older goes by the model's numbers
of issue (assumption 24). -/
def Obligations.DrainsAndWaitsEnd : Prop :=
  (∀ (s : State) (ci i : Nat) (o : Operands),
    (Alone s ci i → Ready s ci sigLevel o.fields → Inside s ci o.fields → ∀ l ∈ s.lanes ci sigLevel o.fields,
      mayArrive s i l.b.toNat →
      (s.drained (s.agent i).ctx (s.coreOf (s.agent i)) s.nonce = true → ∃ t, exec (.drain o) s = .next t ∧ WentOn s t ci i) ∧
      (∀ p ∈ s.pending, p.ctx = (s.agent i).ctx → p.core = s.coreOf (s.agent i) → p.seq < s.nonce →
        ∃ t, exec (.drain o) s = .next t ∧ (t.agent i).wait = .drain (s.threadScope i l.b.toNat) (s.coreOf (s.agent i)) s.nonce ∧
          (t.caravan ci).pc = (s.caravan ci).pc ∧ t.pending = s.pending)) ∧
    (∀ sc core upTo, WaitsIn s ci i → (s.agent i).wait = .drain sc core upTo → s.arrivalDone i sc.index = true → s.arriveFault i sc = none →
      s.drained (s.agent i).ctx core upTo = true →
      ∃ t, exec (.drainAckDone i) s = .next t ∧ WentOn s t ci i)) ∧
  (∀ (s : State) (ci i : Nat), WaitsIn s ci i →
    (∀ k p, (s.agent i).wait = .level k p → (s.barrierAt k).phase > p →
      ∃ t, exec (.barrierWaitResume i) s = .next t ∧ WentOn s t ci i ∧ (t.agent i).adv = []) ∧
    (∀ off p dst, (s.agent i).wait = .object (.tile (s.agent i).block (s.agent i).pos off) p dst → hasShare s i → Quiet s →
      (objPhase (s.objectAt i off) = p.toNat → exec (.obarWaitResume i) s = .next s) ∧
      (objPhase (s.objectAt i off) ≠ p.toNat → ∃ t, exec (.obarWaitResume i) s = .next t ∧
        (t.caravan ci).pc = (s.caravan ci).pc + 8 ∧ (t.agent i).wait = .ready ∧ (t.agent i).adv = [] ∧
        (dst = none → (t.agent i).regs = (s.agent i).regs) ∧
        ∀ d, dst = some d → (t.agent i).regs = ((s.agent i).writeDst d .w32 (p.setWidth 128)).regs ∧
          (t.agent i).latch 0 = some ⟨.w32, p.setWidth 128, (s.agent i).issued⟩)))

/-- R177-R180, of an object in the thread's own share or in the v: space: obar.init writes PHASE 0 and both counts, obar.arrive takes
C + 1 arrivals and gives the old phase, obar.wait goes on where the phase differs from C and waits where it does not, obar.sync
arrives, and goes on with the old phase where its own arrival has changed it, or waits. An arrival of count n is n arrivals of 1; each takes 1 from PENDING, and the one that finds
PENDING 1 advances PHASE modulo 2^16 and sets PENDING to EXPECT. -/
def Obligations.BarrierObjectsCountAndWait : Prop :=
  (∀ (s : State) (ci i : Nat) (o : Operands) (k : ObarForm),
    let g := obarSig k o.fields
    let f := o.fields
    Alone s ci i → Ready s ci g f → Inside s ci f → Quiet s → ∀ l ∈ s.lanes ci g f, ∀ pa ord,
    (obarVirtual f = false → hasShare s i ∧ privOk .t 8 s l) →
    (obarVirtual f = true → oneLocalPiece s l accObar (vaOffset l) 8 pa ord ∧ ∀ q ∈ s.pending, i ∉ q.agents) →
      let object (u : State) : Nat := if obarVirtual f then u.peekNat pa 8 else u.objectAt i (privOffset l).toNat
      let ref : ObjRef :=
        if obarVirtual f then .virt (vaOffset l) else .tile (s.agent i).block (s.agent i).pos (privOffset l).toNat
      let w := object s
      let c := l.c.toNat % 2 ^ 32
      let old : QWord := BitVec.ofNat 128 (objPhase w)
      let gives (t : State) : Prop := t.agent i = { commitAgent true [(f.dst, .w32, old)] 0 (s.agent i) with adv := (t.agent i).adv } ∧
        (t.caravan ci).pc = (s.caravan ci).pc + 8
      (k = obarInitForm → 1 ≤ c → c ≤ 0xFFFFFF → ∃ t, exec (.obarInit o) s = .next t ∧ object t = c * 2 ^ 24 + c ∧ WentOn s t ci i) ∧
      (k = obarArriveForm → c < 2 ^ 24 → objExpect w ≠ 0 →
        ∃ t, exec (.obarArrive o) s = .next t ∧ object t = objStep w (c + 1) ∧ gives t) ∧
      (k = obarArriveForm → c < 2 ^ 24 → objExpect w ≠ 0 → objPhase (objStep w (c + 1)) ≠ objPhase w →
        ∃ t, exec (.obarSync o) s = .next t ∧ object t = objStep w (c + 1) ∧ gives t ∧ (t.agent i).adv = []) ∧
      (k = obarArriveForm → c < 2 ^ 24 → objExpect w ≠ 0 → objPhase (objStep w (c + 1)) = objPhase w →
        ∃ t, exec (.obarSync o) s = .next t ∧ object t = objStep w (c + 1) ∧ (t.caravan ci).pc = (s.caravan ci).pc ∧
          (t.agent i).regs = (s.agent i).regs ∧ (t.agent i).wait = .object ref (BitVec.ofNat 16 (objPhase w)) (some f.dst)) ∧
      (k = obarWaitForm → objPhase w ≠ c % 2 ^ 16 → ∃ t, exec (.obarWait o) s = .next t ∧ WentOn s t ci i ∧ (t.agent i).adv = []) ∧
      (k = obarWaitForm → objPhase w = c % 2 ^ 16 → ∃ t, exec (.obarWait o) s = .next t ∧ (t.caravan ci).pc = (s.caravan ci).pc ∧
        (t.agent i).wait = .object ref (BitVec.ofNat 16 (objPhase w)) none)) ∧
  (∀ (w n : Nat), 1 ≤ n → 1 ≤ objPending w → 1 ≤ objExpect w →
    objStep w n = (fun x => objStep x 1)^[n] w ∧
    (objPending w ≠ 1 → objPhase (objStep w 1) = objPhase w ∧ objPending (objStep w 1) = objPending w - 1) ∧
    (objPending w = 1 → objPhase (objStep w 1) = (objPhase w + 1) % 2 ^ 16 ∧ objPending (objStep w 1) = objExpect w) ∧
    objExpect (objStep w 1) = objExpect w)

/-- R182: a thread's psync waits for the partner's; the k-th of one meets the k-th of the other, and each writes the other's
value to its own destination and b0, at the issue of the second; where the partner has exited, it gives zero. -/
def Obligations.PsyncExchangesValues : Prop := ∀ (s : State) (ci i j : Nat) (o : Operands),
  let g : Sig := { dst := .w32, a := .b32, noQueue := true, sync := true, paired := true }
  let f := o.fields
  let got (a : Agent) (n : Nat) (d : BitVec 10) (v : QWord) (b : Agent) : Prop :=
    b.regs = (a.writeDst d .w32 v).regs ∧ b.wait = .ready ∧ b.adv = [] ∧ b.latch 0 = some ⟨.w32, v.setWidth 32 |>.setWidth 128, n⟩
  s.partnerOf i = some j → i ≠ j → j < s.agents.length →
  (Alone s ci i → Ready s ci g f → Inside s ci f → ∀ l ∈ s.lanes ci g f,
    ((s.agent j).stand ≠ .exited → (∀ v d, (s.agent j).wait ≠ .psync (s.agent i).psyncs v d) →
      ∃ t, exec (.psync o) s = .next t ∧ (t.agent i).wait = .psync (s.agent i).psyncs (l.a.setWidth 32) f.dst ∧
        (t.agent i).psyncs = (s.agent i).psyncs + 1 ∧ (t.caravan ci).pc = (s.caravan ci).pc) ∧
    ((s.agent j).stand = .exited → ∃ t, exec (.psync o) s = .next t ∧ (t.caravan ci).pc = (s.caravan ci).pc + 8 ∧
      (t.agent i).wait = .ready ∧ (t.agent i).regs = ((s.agent i).writeDst f.dst .w32 0).regs) ∧
    (∀ cj v' d', WaitsIn s cj j → ci ≠ cj → (s.agent j).wait = .psync (s.agent i).psyncs v' d' →
      ∃ t, exec (.psync o) s = .next t ∧ got (s.agent i) ((s.agent i).issued + 1) f.dst (v'.setWidth 128) (t.agent i) ∧
        got (s.agent j) (s.agent j).issued d' ((l.a.setWidth 32).setWidth 128) (t.agent j) ∧
        (t.agent i).psyncs = (s.agent i).psyncs + 1 ∧
        (t.caravan ci).pc = (s.caravan ci).pc + 8 ∧ (t.caravan cj).pc = (s.caravan cj).pc + 8)) ∧
  (∀ cj k v d v' d', WaitsIn s ci i → WaitsIn s cj j → ci ≠ cj → s.partnerOf j = some i →
    (s.agent i).wait = .psync k v d → (s.agent j).wait = .psync k v' d' →
    ∃ t, exec (.psyncMeet i) s = .next t ∧ got (s.agent i) (s.agent i).issued d (v'.setWidth 128) (t.agent i) ∧
      got (s.agent j) (s.agent j).issued d' (v.setWidth 128) (t.agent j) ∧
      (t.caravan ci).pc = (s.caravan ci).pc + 8 ∧ (t.caravan cj).pc = (s.caravan cj).pc + 8)

namespace Sys2Proof.Machine

/-! ## Terms of the claims about the engines -/

/-- The instruction of a matrix command other than mmap. -/
def MatOp.instr (op : MatOp) (x : Extended) : Instr :=
  match op with
  | .mzro => .mzro x
  | .mchb => .mchb x
  | .mche => .mche x
  | .mma => .mma x
  | .mgth => .mgth x
  | .mmap => .mmap x
  | .mdrn => .mdrn x
  | .mdrg => .mdrg x

/-- Agent `i` stands in a share that exists. -/
def inShare (s : State) (i : Nat) : Prop :=
  (s.agent i).block < s.blocks.length ∧ (s.agent i).pos < (s.block (s.agent i).block).shares.length

/-- Accumulators named by their number; one off the eight is empty. -/
def State.acc (s : State) (i k : Nat) : Accum := (s.engineOf (s.agent i)).acc.getD k {}

/-- The maps of an accumulator are in canonical form. -/
def Accum.canonical (a : Accum) : Prop := sparseWf 0 a.elems = true ∧ sparseWf 0 a.even = true ∧ sparseWf 0 a.odd = true

/-- Element `k` of a map. -/
def elemOf (m : WordMap) (k : Nat) : Word := sparseGet 0 m k

/-- A code `v` is x + y rounded to nearest in FP32. -/
def AddsTo (x y v : Word) : Prop :=
  ∃ fl, Rounds fp32 .rn false ((exactOf (decodeFp fp32 x.toNat)).add .rn (exactOf (decodeFp fp32 y.toNat))) v.toNat fl

/-- MXDOT of R57 on element values and their scales. -/
def IsMxDot (sa : Nat) (a : List Exact) (sb : Nat) (b : List Exact) (sat : Bool) (v : Word) : Prop :=
  let sum := (List.zipWith Exact.mul a b).foldl (Exact.add .rn) (.zero true)
  (sa = 0xFF ∨ sb = 0xFF → v = 0x7FC00000) ∧
  (sa ≠ 0xFF → sb ≠ 0xFF →
    (sum = .nan → v = 0x7FC00000) ∧ (∀ n, sum = .inf n → v = if n then 0xFF800000 else 0x7F800000) ∧ (∀ n, sum = .zero n → v = 0) ∧
    (∀ q, sum = .num q → ∃ p fl, Rounds fp32 .rn false sum p fl ∧ p < 2 ^ 32 ∧
      (∀ n, exactOf (decodeFp fp32 p) = .zero n → v = 0) ∧
      ((∀ n, exactOf (decodeFp fp32 p) ≠ .zero n) → ∃ fl', Rounds fp32 .rn sat
        ((exactOf (decodeFp fp32 p)).scale ((sa : ℤ) - 127 + ((sb : ℤ) - 127))) v.toNat fl')))

/-- Products `p` go in turn to an even and an odd sum, each by one FP32 addition, from product number `n` on (R301). -/
def SumsUp (n count : Nat) (p : Nat → Word) (even odd even' odd' : Word) : Prop :=
  ∃ e o : Nat → Word, e 0 = even ∧ o 0 = odd ∧ e count = even' ∧ o count = odd' ∧ ∀ j < count,
    ((n + j) % 2 = 0 → AddsTo (e j) (p j) (e (j + 1)) ∧ o (j + 1) = o j) ∧
    ((n + j) % 2 = 1 → AddsTo (o j) (p j) (o (j + 1)) ∧ e (j + 1) = e j)

/-- An operand element's value and the scale of its block (R56, R300). -/
def OperandValue (fmt : Nat) (curved : Bool) (cv : Option Curve) (code scale : Nat) (v : Exact) (sc : Nat) : Prop :=
  let x := exactOf (decodeFp (fmtFloat fmt) code)
  (curved = false → v = x ∧ sc = scale) ∧
  (curved = true → sc = 0x7F ∧ ∃ y fl z, Rounds fp32 .rn false (if scale = 0xFF then .nan else x.scale ((scale : ℤ) - 127)) y fl ∧ y < 2 ^ 32 ∧
    Inverse cv y z ∧ v = exactOf (decodeFp fp32 z.1))

/-- Byte at an address of an entry: of the share an operation works in, zero past its end, or of the page it translates to. -/
def State.entryByte (s : State) (e : EngineAt) (m : Manifest) (x : Nat) : Byte :=
  if m.tile then (if x < s.tileSizeOf e.block then readByte (s.shareMem e.block e.pos) x else 0)
  else match s.access e.ctx e.core accRead (x % 2 ^ 64) 1 with
    | .ok (p :: _) => s.peek p.pa
    | _ => 0

/-- The code of element (i0, i1) of an entry, and the scale of its block, 0x7F where none is stored (R55, R263). -/
def State.entryCode (s : State) (e : EngineAt) (m : Manifest) (i0 i1 : Nat) : Nat :=
  let w := fmtBits m.fmt
  bitsAt (leNat ((List.range 16).map fun j => s.entryByte e m (m.ea 0 i1 0 0 + w * i0 / 8 + j))) (w * i0 % 8) w
def State.entryScale (s : State) (e : EngineAt) (m : Manifest) (i0 i1 : Nat) : Nat :=
  if m.scaled then (s.entryByte e m (m.sa i0 i1 0 0)).toNat else 0x7F

/-- A tile of 64 lines of one k-step, of class `cl`. -/
def OpTile.Whole (t : OpTile) (cl : OpClass) : Prop :=
  opClass t.fmt t.curved = some cl ∧ t.codes.length = 64 ∧ t.scales.length = 64 ∧
    (∀ r ∈ t.codes, r.length = cl.k) ∧ (∀ r ∈ t.scales, r.length = cl.k) ∧ ∀ c, t.curve = some c → c.Sound

/-- The tile of entry `m` whose line r has element e from `get r e`, its code and its scale; a line of none is +0. -/
def OpTile.From (t : OpTile) (m : Manifest) (cv : Option Curve) (get : Nat → Option (Nat → Nat × Nat)) : Prop :=
  t.fmt = m.fmt ∧ t.curved = decide (m.curveSlot ≠ 0) ∧ t.curve = cv ∧ t.sat = m.sat ∧
  t.zeros = (List.range 64).filter (fun r => (get r).isNone) ∧
  ∀ r < 64, ∀ g, get r = some g → ∀ e < m.stepK,
    (t.codes.getD r []).getD e 0 = BitVec.ofNat 64 (g e).1 ∧ (t.scales.getD r []).getD e 0 = BitVec.ofNat 8 (g e).2

/-- Lines of a tile that are rows of an entry from element k0 on (R302, R303, R309). -/
def State.linesAt (s : State) (e : EngineAt) (m : Manifest) (k0 : Nat) (row : Nat → Option Nat) (r : Nat) : Option (Nat → Nat × Nat) :=
  (row r).map fun q i => (s.entryCode e m (k0 + i) q, s.entryScale e m (k0 + i) q)

/-- Lines of a B tile that was translated when its command issued (R302). -/
def State.linesLoaded (s : State) (c : MatCmd) (r : Nat) : Option (Nat → Nat × Nat) :=
  let w := fmtBits c.mb.fmt
  let k0 := originLo c.ob
  let range (n : Nat) : List Byte := (c.pages.getD n []).flatMap fun p => s.peekBytes p.1 p.2
  some fun i =>
    (bitsAt (leNat (range (if c.mb.scaled then 2 * r else r))) (w * k0 % 8 + w * i) w,
     if c.mb.scaled then ((range (2 * r + 1)).getD ((k0 + i) / 32 - k0 / 32) 0).toNat else 0x7F)

/-- The value and scale of element e of line r of a tile. -/
def OpTile.Holds (t : OpTile) (r e : Nat) (v : Exact) (sc : Nat) : Prop :=
  (r ∈ t.zeros → v = .zero false ∧ sc = 0x7F) ∧
  (r ∉ t.zeros → OperandValue t.fmt t.curved t.curve ((t.codes.getD r []).getD e 0).toNat ((t.scales.getD r []).getD e 0).toNat v sc)

/-- One k-step of tiles `a` and `b` (R301): the block products of every row and column go to their element's sums. -/
def KStep (cl : OpClass) (a b : OpTile) (acc acc' : Accum) : Prop :=
  acc'.elems = acc.elems ∧ acc'.opened = acc.opened ∧ acc'.n = acc.n + cl.k / cl.l ∧ ∀ r < 64, ∀ c < 64, ∃ p : Nat → Word,
    SumsUp acc.n (cl.k / cl.l) p (elemOf acc.even (64 * r + c)) (elemOf acc.odd (64 * r + c))
      (elemOf acc'.even (64 * r + c)) (elemOf acc'.odd (64 * r + c)) ∧
    ∀ n < cl.k / cl.l, ∃ (va vb : Nat → Exact) (sa sb : Nat → Nat),
      (∀ i < cl.l, a.Holds r (cl.l * n + i) (va i) (sa i) ∧ b.Holds c (cl.l * n + i) (vb i) (sb i)) ∧
      IsMxDot (sa 0) ((List.range cl.l).map va) (sb 0) ((List.range cl.l).map vb) (a.sat || b.sat) (p n)

/-- An accumulator's element passes FWD of the destination's curve (R271, R312). -/
def MatCmd.Curved (c : MatCmd) (v : Word) (y : Nat × Flags) : Prop :=
  ∃ a fl, Rounds fp32 .rn false (exactOf (decodeFp fp32 v.toNat)) a fl ∧ a < 2 ^ 32 ∧ Forward c.ca a y

/-- Where row `i` of a drain starts, in bytes (R312). -/
def MatCmd.rowAt (c : MatCmd) (i : Nat) : Nat := c.ma.ea (originLo c.oa) (originHi c.oa + i) 0 0

/-- A drain of elements `src` into the plane of `c.ma` (R271, R312): what every code and scale then is, and that nothing else of
the plane changes. -/
def MatCmd.Drains (c : MatCmd) (e : EngineAt) (src : Nat → Nat → Word → Prop) (s t : State) : Prop :=
  let m := c.ma
  let rm := modeOf (c.x.sub.setWidth 3)
  let c0 := originLo c.oa
  let code (i j : Nat) : Nat := t.entryCode e m (c0 + j) (originHi c.oa + i)
  (∀ i < 64,
    (fmtIsMx m.fmt = false → ∀ j < 64, ∃ v y fl, src i j v ∧ c.Curved v y ∧
      Rounds (fmtFloat m.fmt) rm m.sat (exactOf (decodeFp fp32 y.1)) (code i j) fl) ∧
    (fmtIsMx m.fmt = true → ∀ b < 2, ∃ (ys : Nat → Nat × Flags) (sc : Nat), (∀ j < 32, ∃ v, src i (32 * b + j) v ∧ c.Curved v (ys j)) ∧
      (m.scl = true → IsScale (fmtMx m.fmt) ((List.range 32).map fun j => (ys j).1) sc) ∧ (m.scl = false → sc = 0x7F) ∧
      t.entryScale e m (c0 + 32 * b) (originHi c.oa + i) = sc ∧
      ∀ j < 32, ∃ q : LaneRes, Quantises (fmtMx m.fmt) rm m.sat none (ys j).1 sc q ∧ code i (32 * b + j) = q.val.toNat)) ∧
  (∀ x, (∀ i < 64, x < c.rowAt i ∨ c.rowAt i + m.bytesOf 64 ≤ x) →
    (m.scaled = true → ∀ i < 64, ∀ b < 2, x ≠ m.sa (c0 + 32 * b) (originHi c.oa + i) 0 0) → t.entryByte e m x = s.entryByte e m x)

/-- The destination of a drain as its checks leave it: rows of an existing tile plane, with no two elements or scales on one byte
(R306). -/
structure MatCmd.Drainable (c : MatCmd) (e : EngineAt) (s : State) : Prop where
  plane : c.ma.tile = true ∧ drainFmt c.ma.fmt = true
  share : e.block < s.blocks.length ∧ e.pos < (s.block e.block).shares.length ∧ ((s.block e.block).share e.pos).home = .own
  inside : c.ma.footEnd ≤ s.tileSizeOf e.block ∧ originLo c.oa + 64 ≤ c.ma.ext 0 ∧ originHi c.oa + 64 ≤ c.ma.ext 1
  blocks : fmtIsMx c.ma.fmt = true → originLo c.oa % 32 = 0 ∧ c.ma.ext 0 % 32 = 0
  rows : c.ma.bytesOf (c.ma.ext 0) ≤ c.ma.stride 1
  apart : c.ma.scaled = true → ∀ i < 64, ∀ b < 2, let x := c.ma.sa (originLo c.oa + 32 * b) (originHi c.oa + i) 0 0
    x < s.tileSizeOf e.block ∧ (x < c.ma.base ∨ c.ma.footEnd ≤ x)
  curve : (c.ma.curveSlot = 0 → c.ca = none) ∧ ∀ k, c.ca = some k → k.Sound

/-- The eight bytes of a barrier object that an operation reaches: in an existing share, or in local storage where its VA
translates. -/
def State.objectIs (s : State) (ctx core : Nat) (acc : Access) (r : ObjRef) (w : Nat) : Prop :=
  match r with
  | .tile b p off => b < s.blocks.length ∧ p < (s.block b).shares.length ∧ ((s.block b).share p).home = .own ∧ leNat (s.readTile b p off 8) = w
  | .virt va => ∃ pa ord fresh, s.access ctx core acc va 8 = .ok [⟨va, pa, 8, ord, fresh⟩] ∧ pa + 8 ≤ peerBase ∧ s.peekNat pa 8 = w

/-- What stands there in `t`. -/
def State.objectBecomes (s t : State) (ctx core : Nat) (acc : Access) (r : ObjRef) (w : Nat) : Prop :=
  match r with
  | .tile b p off => leNat (t.readTile b p off 8) = w
  | .virt va => ∀ pa ord fresh, s.access ctx core acc va 8 = .ok [⟨va, pa, 8, ord, fresh⟩] → t.peekNat pa 8 = w

/-- One byte of local storage that an access of `acc` to a VA reaches. -/
def State.reaches (s : State) (e : EngineAt) (acc : Access) (va pa : Nat) : Prop :=
  ∃ v n ord fresh, s.access e.ctx e.core acc (va % 2 ^ 64) 1 = .ok [⟨v, pa, n, ord, fresh⟩] ∧ pa < peerBase

/-- Byte x of row q of a convoy that moves bytes: the address in its source, none for a byte of zero, and in its destination (R270,
R272). -/
def Convoy.moves (c : Convoy) (q x : Nat) : Option (Option Nat × Nat) :=
  let e (k : Nat) : Nat := c.ext.getD k 1
  let so (k : Nat) : Nat := c.so.getD k 0
  let dd (k : Nat) : Nat := c.dd.getD k 0
  let r1 := if c.kind = .trn then e 0 else e 1
  let i1 := q % r1
  let i2 := q / r1 % e 2
  let i3 := q / (r1 * e 2)
  let k := c.idx.getD i1 0
  match c.kind with
  | .copy | .mcst =>
    some (some (c.src.ea (so 0) (so 1 + i1) (so 2 + i2) (so 3 + i3) + x), c.dst.ea (dd 0) (dd 1 + i1) (dd 2 + i2) (dd 3 + i3) + x)
  | .trn =>
    let b := fmtBits c.src.fmt / 8
    some (some (c.src.ea (so 0 + i1) (so 1 + x / b) (so 2 + i2) (so 3 + i3) + x % b), c.dst.ea (dd 0) (dd 1 + i1) (dd 2 + i2) (dd 3 + i3) + x)
  | .gath =>
    some (if c.src.ext 1 ≤ k.toNat then none else some (c.src.ea (so 0) k.toNat (so 2 + i2) (so 3 + i3) + x), c.dst.ea 0 i1 i2 i3 + x)
  | .scat =>
    if c.dst.ext 1 ≤ k.toNat then none
    else some (some (c.src.ea 0 i1 i2 i3 + x), c.dst.ea (dd 0) k.toNat (dd 2 + i2) (dd 3 + i3) + x)
  | _ => none

/-- Byte x of row q goes to byte d, in granule g of the destination; it is byte a of the source. -/
def Convoy.fills (c : Convoy) (g q x : Nat) (a : Option Nat) (d : Nat) : Prop :=
  q < c.allRows ∧ x < c.rowLen ∧ c.moves q x = some (a, d) ∧ d / 16 = g

/-- A later row of a scatter has the destination of row q (R270). -/
def Convoy.superseded (c : Convoy) (q : Nat) : Prop :=
  c.kind = .scat ∧ ∃ r a b d, q < r ∧ r < c.allRows ∧ c.moves q 0 = some (a, d) ∧ c.moves r 0 = some (b, d)

/-- The byte a convoy moves. -/
def Convoy.moved (s : State) (c : Convoy) (e : EngineAt) : Option Nat → Byte
  | none => 0
  | some a => s.entryByte e c.src a

/-- Granule g can be filled at once: its sources and its bytes lie in existing shares or in local storage that the convoy may
reach, and no element of a transposed row lies in two granules. -/
def Convoy.local_ (s : State) (c : Convoy) (e : EngineAt) (g : Nat) : Prop :=
  let eb := fmtBits c.src.fmt / 8
  (c.kind = .trn → 0 < eb ∧ c.rowLen % eb = 0 ∧ 16 % eb = 0 ∧ ∀ q a d, c.moves q 0 = some (a, d) → d % eb = 0) ∧
  (∀ r ∈ s.receivers c, r.1 < s.blocks.length ∧ r.2 < (s.block r.1).shares.length ∧ ((s.block r.1).share r.2).home = .own) ∧
  ∀ q x a d, c.fills g q x a d →
    (c.src.tile = false → ∀ v, a = some v → ∃ pa, s.reaches e accRead v pa) ∧
    (c.dst.tile = true → ∀ r ∈ s.receivers c, d < s.tileSizeOf r.1) ∧
    (c.dst.tile = false → ∃ pa, s.reaches e accWrite d pa)

/-- Operation `op` of a state. -/
def State.operation (s : State) (op : Nat) : OpState × Option OpBody :=
  match s.ops[op]? with
  | some o => (o.state, some o.body)
  | none => (.done, none)

end Sys2Proof.Machine

/-! ## The matrix engine, convoys, cuts and queries -/

/-- R296, R298, R306: a matrix command that passes its checks enters its engine's queue behind the commands before it, with
its entries captured; mchb opens and mche closes the accumulators of its mask, and no element changes until it is performed. What is
settled at issue and what at the command's turn is the model's reading (assumption 26). -/
def Obligations.MatrixCommandsEnterTheQueue : Prop := ∀ (s : State) (ci i : Nat) (op : MatOp) (x : Extended),
  let g := matSig op x
  let f := x.fields
  Alone s ci i → inShare s i → Ready s ci g f → Inside s ci f → op ≠ .mmap →
  (op = .mgth → (s.engineOf (s.agent i)).queue = []) →
  ∀ l ∈ s.lanes ci g f, s.matFault op x (s.agent i) (matArgs op l) (gatherOff l) = none → s.latent = [] →
  ∃ t c, exec (op.instr x) s = .next t ∧ (t.engineOf (t.agent i)).queue = (s.engineOf (s.agent i)).queue ++ [c] ∧
    c.op = op.code ∧ c.x = x ∧ c.ma = (s.ctx (s.agent i).ctx).manifest x.mfa.toNat ∧
    c.mb = (s.ctx (s.agent i).ctx).manifest x.mfb.toNat ∧ c.w = l.b.setWidth 32 ∧
    (∀ k < 8, (t.acc i k).elems = (s.acc i k).elems ∧ (t.acc i k).even = (s.acc i k).even ∧ (t.acc i k).odd = (s.acc i k).odd) ∧
    ((s.engineOf (s.agent i)).acc.length = 8 → ∀ k < 8, (t.acc i k).opened =
      (if op = .mchb ∧ (matAmsk x).testBit k then true else if op = .mche ∧ (matAmsk x).testBit k then false else (s.acc i k).opened)) ∧
    (t.caravan ci).pc = (s.caravan ci).pc + 16 ∧ (t.agent i).regs = (s.agent i).regs ∧ t.mem = s.mem

/-- R310: mmap takes one token of each live stream, and one more where its B origin comes from a queue; a token with bit 63 ends
its stream; the result says which streams ran, in its destination or pushed to its queue, and SOLO counts the steps of one stream
alone. That a B origin in a stream's own queue is the token after the stream's is the model's reading (assumption 64). -/
def Obligations.MmapTakesATokenOfEachStream : Prop := ∀ (s : State) (ci i : Nat) (x : Extended),
  let g := matSig .mmap x
  let f := x.fields
  let a := s.agent i
  let core := s.coreOf a
  let tok (q : Nat) : DWord := (s.tokens core q).headD 0
  let live (q : Nat) : Bool := decide (q < 2) && !a.ended.getLsbD q
  let runs (q : Nat) : Bool := live q && !(tok q).getLsbD 63
  let origin : Option Nat := if matLdb x then queueField x.sc else none
  let takes (q : Nat) : Nat := (if live q then 1 else 0) + if (live 0 || live 1) && origin = some q then 1 else 0
  let status : QWord := if runs 0 then (if runs 1 then 0 else 1) else (if runs 1 then 2 else 3)
  Alone s ci i → a.drover = true → Ready s ci g f → Inside s ci f → inShare s i → core < s.cores.length → (s.core core).queues.length = 8 →
  core = (s.caravan ci).core → (s.launch a.launch).paired = true → (∀ q < 8, takes q ≤ (s.tokens core q).length) →
  ∀ l ∈ s.lanes ci g f, mmapCheck x (s.atIssue ci) l = none →
  ∃ t, exec (.mmap x) s = .next t ∧
    (∀ q < 8, t.tokens core q = (s.tokens core q).drop (takes q) ++ if queueField f.dst = some q then [status.setWidth 64] else []) ∧
    (queueField f.dst = none → (t.agent i).regs = (a.writeDst f.dst .w64 status).regs) ∧
    (∀ q < 2, (t.agent i).ended.getLsbD q = !runs q) ∧
    (t.agent i).solo = (if runs 0 != runs 1 then a.solo + 1 else a.solo) ∧
    (t.agent i).latch 0 = some ⟨.w64, status, a.issued + 1⟩ ∧
    (t.engineOf (t.agent i)).queue.length = (s.engineOf a).queue.length + (if runs 0 || runs 1 then 1 else 0) ∧
    (t.caravan ci).pc = (s.caravan ci).pc + 16

/-- R57, R296, R300-R303, R307-R309, R312, R313: commands are performed in the queue's order. mzro makes the elements of its mask +0,
mchb their partial sums, and mche rounds acc + E + O once; mma loads its B tile where LDB asks, and adds the block products of
its A operand, or of the gather latch, and the tile to one accumulator's sums in turn; mgth fills the latch with the rows of its
index vector, or +0; mdrn and mdrg convert every element, or the guided combination of two, into the destination's plane, and
ZRO then makes the accumulators +0. Other accumulators stay. -/
def Obligations.MatrixCommandsPerformInOrder : Prop :=
  (∀ (s : State) (i : Nat) (c : MatCmd) (rest : List MatCmd),
    (s.engineOf (s.agent i)).queue = c :: rest → inShare s i →
    ∃ t, exec (.matrixCommandComplete i) s = .next t ∧ (t.engineOf (t.agent i)).queue = rest ∧
      ((s.engineOf (s.agent i)).acc.length = 8 → (∀ k < 8, (s.acc i k).canonical) → c.op = MatOp.mzro.code ∨ c.op = MatOp.mchb.code ∨ c.op = MatOp.mche.code →
        ∀ k < 8,
          ((matAmsk c.x).testBit k = false → t.acc i k = s.acc i k) ∧
          ((matAmsk c.x).testBit k = true →
            (c.op = MatOp.mzro.code → ∀ e, elemOf (t.acc i k).elems e = 0) ∧
            (c.op = MatOp.mchb.code → ∀ e, elemOf (t.acc i k).even e = 0 ∧ elemOf (t.acc i k).odd e = 0 ∧
              elemOf (t.acc i k).elems e = elemOf (s.acc i k).elems e) ∧
            (c.op = MatOp.mche.code → ∀ e < 4096, ∃ fl, Rounds fp32 .rn false
              (((exactOf (wordVal (elemOf (s.acc i k).elems e))).add .rn (exactOf (wordVal (elemOf (s.acc i k).even e)))).add .rn
                (exactOf (wordVal (elemOf (s.acc i k).odd e)))) (elemOf (t.acc i k).elems e).toNat fl)))) ∧
  (∀ (s : State) (i : Nat) (c : MatCmd) (rest : List MatCmd),
    (s.engineOf (s.agent i)).queue = c :: rest → inShare s i → s.latent = [] → s.reds = [] → s.logs = [] →
    (s.engineOf (s.agent i)).acc.length = 8 → (∀ k < 8, (s.acc i k).canonical) →
    let own := s.shareFor (s.agent i) false
    let p1 := s.shareFor (s.agent i) (matP1 c.x)
    let k := matAcc c.x
    let u := matAcc2 c.x
    let slot := matBoff c.x
    (∀ ta tb cl, c.op = MatOp.mma.code → ta.Whole cl → tb.Whole cl →
      (matGth c.x = true → (s.engineOf (s.agent i)).latch = some ta) →
      (matGth c.x = false → c.ma.tile = true ∧ c.ma.stepK = cl.k ∧
        ta.From c.ma c.ca (s.linesAt own c.ma (originLo c.oa) fun r => some (originHi c.oa + r))) →
      (matLdb c.x = false → assocGet (s.engineOf (s.agent i)).slots slot = some tb) →
      (matLdb c.x = true → c.mb.stepK = cl.k ∧
        (c.mb.tile = true → tb.From c.mb c.cb (s.linesAt own c.mb (originLo c.ob) fun r => some (originHi c.ob + r))) ∧
        (c.mb.tile = false → (∀ ps ∈ c.pages, ∀ p ∈ ps, p.1 + p.2 ≤ peerBase) ∧ c.pages.length = (if c.mb.scaled then 128 else 64) ∧
          tb.From c.mb c.cb (s.linesLoaded c))) →
      ∃ t, exec (.matrixCommandComplete i) s = .next t ∧ KStep cl ta tb (s.acc i k) (t.acc i k) ∧
        (∀ j < 8, j ≠ k → t.acc i j = s.acc i j) ∧ assocGet (t.engineOf (t.agent i)).slots slot = some tb) ∧
    (c.op = MatOp.mgth.code → c.idx.length = 64 → c.ma.tile = true →
      ∃ t tl, exec (.matrixCommandComplete i) s = .next t ∧ (t.engineOf (t.agent i)).latch = some tl ∧
        tl.From c.ma c.ca (s.linesAt p1 c.ma (originLo c.oa) fun r =>
          if c.idx.getD r 0 = 0xFFFFFFFF then none else some (c.idx.getD r 0).toNat) ∧
        (∀ r ∈ tl.codes, r.length = c.ma.stepK) ∧ ∀ j < 8, t.acc i j = s.acc i j) ∧
    (c.op = MatOp.mdrn.code ∨ c.op = MatOp.mdrg.code → c.Drainable p1 s →
      ∃ t, exec (.matrixCommandComplete i) s = .next t ∧
        c.Drains p1 (fun r j v =>
          (c.op = MatOp.mdrn.code → v = elemOf (s.acc i k).elems (64 * r + j)) ∧
          (c.op = MatOp.mdrg.code → ∃ d fl fl',
            let x := exactOf (wordVal (elemOf (s.acc i k).elems (64 * r + j)))
            let y := exactOf (wordVal (elemOf (s.acc i u).elems (64 * r + j)))
            Rounds fp32 .rn false (x.add .rn y.neg) d fl ∧ d < 2 ^ 32 ∧
            Rounds fp32 .rn false (((exactOf (decodeFp fp32 c.w.toNat)).mul (exactOf (decodeFp fp32 d))).add .rn y) v.toNat fl')) s t ∧
        (∀ j < 8, t.acc i j = s.acc i j ∨ (matZro c.x = true ∧ (j = k ∨ j = u ∧ c.op = MatOp.mdrg.code))) ∧
        (matZro c.x = true → ∀ e, elemOf (t.acc i k).elems e = 0 ∧ (c.op = MatOp.mdrg.code → elemOf (t.acc i u).elems e = 0))))

/-- R314-R317, R366: vmx and trav complete in every lane once their checks pass, vmx group by group in ascending index. Each of a thread's N results of vmx is the sum of two
sums that take the products of its vector's blocks with a column's in turn, each addition rounded once; each wanting lane of trav
has its query put in flight with its 64 bytes captured, and its registers stay. -/
def Obligations.VmxAndTravComplete : Prop := ∀ (x : Extended),
  Acts (.vmx x) { dst := .w32, a := .b32, b := .b32, c := .b32, dstRegs := vmxN x, ctlOk := fun _ => vmxReservedOk x } x.fields
    (fun s l => l.want = true → vmxFault x s l = none) (fun s ls =>
      let os := vmxOrder ls
      let r := eachLane (vmxLane x) s os
      (r.1, ls.map fun l => (((os.zip r.2).find? fun y => y.1.agent = l.agent).map (·.2)).getD {})) ∧
  (∀ ls : List Lane, (vmxOrder ls).Perm ls ∧
    (vmxOrder ls).Pairwise (fun l m => vmxIndex l < vmxIndex m ∨ vmxIndex l = vmxIndex m ∧ [l, m].Sublist ls)) ∧
  (∀ (s : State) (ci i : Nat), let g : Sig := { dst := .w32, a := .b32, b := .b32, c := .b32, dstRegs := vmxN x, ctlOk := fun _ => vmxReservedOk x }
    Alone s ci i → (s.agent i).drover = false → Ready s ci g x.fields → Inside s ci x.fields → hasShare s i → Quiet s → s.pending = [] →
    ∀ l ∈ s.lanes ci g x.fields, vmxFault x s l = none →
    let a := s.agent i
    let e : EngineAt := { ctx := a.ctx, core := s.coreOf a, block := a.block, pos := a.pos }
    let m := (s.ctx a.ctx).manifest (l.b.toNat % 256)
    let d := x.dst.toNat
    let vec := l.a.toNat % 2 ^ 32
    let half (k : Nat) : Nat := leNat ((List.range 2).map fun j => s.spaceByte i .t (vec + 2 * k + j))
    ∀ cl, m.opClass = some cl → (∀ c, s.curveOf a.ctx m = some c → c.Sound) →
    (m.tile = false → ∀ r ∈ vmxRanges m (l.c.toNat % 2 ^ 32) (vmxN x), ∀ ps, s.access a.ctx (s.coreOf a) accRead (r.1 % 2 ^ 64) r.2 = .ok ps →
      ∀ p ∈ ps, p.pa + p.len ≤ peerBase) →
    ∃ t, exec (.vmx x) s = .next t ∧
      (∀ j < vmxN x, ∃ (p : Nat → Word) (even odd : Word), SumsUp 0 (m.ext 0 / cl.l) p 0 0 even odd ∧ AddsTo even odd (elemOf (t.agent i).regs (d + j)) ∧
        ∀ n < m.ext 0 / cl.l, ∃ (vb : Nat → Exact) (sb : Nat → Nat),
          (∀ k < cl.l, OperandValue m.fmt (decide (m.curveSlot ≠ 0)) (s.curveOf a.ctx m)
            (s.entryCode e m (cl.l * n + k) (l.c.toNat % 2 ^ 32 + j)) (s.entryScale e m (cl.l * n + k) (l.c.toNat % 2 ^ 32 + j)) (vb k) (sb k)) ∧
          IsMxDot 0x7F ((List.range cl.l).map fun k => exactOf (decodeFp (if vmxBf x then bf16 else fp16) (half (cl.l * n + k)))) (sb 0)
            ((List.range cl.l).map vb) m.sat (p n)) ∧
      (∀ k, k < d ∨ d + vmxN x ≤ k → elemOf (t.agent i).regs k = elemOf (s.agent i).regs k) ∧
      (∀ j, j ≠ i → t.agent j = s.agent j) ∧ t.mem = s.mem) ∧
  Works (.trav x) (travSig x) x.fields (fun s l => travLaneCheck x s l = none) (travLane x) ∧
  (∀ (s : State) (l : Lane), l.want = true → s.latent = [] → ∃ op o, (travLane x s l).1.ops = s.ops ++ [op] ∧ op.body = .trav o ∧
    op.state = .running ∧ o.query = s.readTile (s.agent l.agent).block (s.agent l.agent).pos (l.a.toNat % 2 ^ 32) 64 ∧
    o.pred = x.sub.toNat ∧ (travLane x s l).1.agents = s.agents)

/-- R270, R272, R274, R277-R279, R284, R285, R334, R336, R339, R369, R428: what each engine event leaves of its operation and writes. A
byte of a convoy lands with all that the convoy writes to its 16-byte granule: of a convoy that moves bytes, each byte of the granule
is one that is bound for it, of scattered rows with one destination that of the last, and nothing else changes. A chunk packed decodes to itself. Completion writes the record, then arrives once at the object; a
fault stops the convoy under a sequence number. A cut operation writes its records within the capacities, then its completion
record, then arrives, each once peers have acknowledged what came before; a query writes its entries within CAP, then its header. That an
event does a granule, or a whole cut or query, at once is the model's choice (assumptions 25, 27). -/
def Obligations.EngineEventsMoveTheirOperation : Prop := ∀ (s : State) (op : Nat),
  (∀ o c, s.runningConvoy op = some (o, c) →
    let e := c.site op o
    (∀ p s1 c1, p < c.len → p / c.rowLen < c.allRows → c.hasLeft p = false → 0 < c.rowLen → c.land op o p s = (s1, c1, none) →
      ∃ t, exec (.streamByteWritten op p) s = .next t ∧ t.operation op = (.running, some (.convoy c1)) ∧ c1.hasLeft p = true ∧ t.mem = s1.mem ∧
        ∀ b q, t.shareMem b q = s1.shareMem b q) ∧
    (∀ p a0 d0, let g := d0 / 16
      p < c.len → c.hasLeft p = false → c.fills g (p / c.rowLen) (p % c.rowLen) a0 d0 → c.kind ∈ [.copy, .trn, .gath, .scat, .mcst] →
      c.scales = false → Quiet s → c.local_ s e g →
      ∃ t, exec (.streamByteWritten op p) s = .next t ∧
        (∀ q x a d, c.fills g q x a d → ∃ q' x' a', c.fills g q' x' a' d ∧ ¬c.superseded q' ∧
          (c.dst.tile = true → ∀ r ∈ s.receivers c, t.entryByte { e with block := r.1, pos := r.2 } c.dst d = c.moved s e a') ∧
          (c.dst.tile = false → ∀ pa, s.reaches e accWrite d pa → t.peek pa = c.moved s e a')) ∧
        (c.dst.tile = true → t.mem = s.mem ∧ ∀ b k y,
          (∀ q x a d, c.fills g q x a d → (b, k) ∈ s.receivers c → y ≠ d) →
            readByte (t.shareMem b k) y = readByte (s.shareMem b k) y) ∧
        (c.dst.tile = false → (∀ b k, t.shareMem b k = s.shareMem b k) ∧ ∀ y < peerBase,
          (∀ q x a d, c.fills g q x a d → ¬s.reaches e accWrite d y) → t.peek y = s.peek y)) ∧
    (∀ s1 c1 f, c.reached < c.len → c.hasLeft c.reached = false → c.land op o c.reached s = (s1, c1, some f) →
      ∃ t va h, exec (.convoyFaultStop op) s = .next t ∧ t.operation op = (.stopped f.code.code va h, some (.convoy c1)) ∧ va.toNat = f.va % 2 ^ 64 ∧
        t.hub.seq = h + 1) ∧
    (c.len ≤ c.reached → c.kind ≠ .a2a → s.opRemotes op = false → Quiet s → ∀ w, s.objectIs o.ctx o.core accObar c.obj w →
      (c.wantRec = false → ∃ t, exec (.convoyComplete op) s = .next t ∧ t.operation op = (.done, some (.convoy c)) ∧
        s.objectBecomes t o.ctx o.core accObar c.obj (if objExpect w = 0 then w else objStep w 1)) ∧
      (c.wantRec = true → ∀ b p off, c.obj = .tile b p off → ∃ t, exec (.convoyComplete op) s = .next t ∧ t.operation op = (.done, some (.convoy c)) ∧
        s.objectBecomes t o.ctx o.core accObar c.obj (if objExpect w = 0 then w else objStep w 1) ∧
        leNat (t.readTile b p (off + 16) 8) = (c.start + c.len) % 2 ^ 64 ∧ leNat (t.readTile b p (off + 24) 2) = 0 ∧
        leNat (t.readTile b p (off + 26) 2) = min c.failed 0xFFFF ∧ leNat (t.readTile b p (off + 28) 4) = c.first % 2 ^ 32)) ∧
    (∀ rank s1, c.kind = .a2a → rank < c.peers.length → rank ∉ c.arrivedAt → c.rankWritten rank = true → s.arriveRank op o c rank = .ok s1 →
      ∃ t, exec (.a2aArrival op rank) s = .next t ∧ t.operation op = (.running, some (.convoy { c with arrivedAt := rank :: c.arrivedAt })) ∧
        t.mem = s1.mem ∧ t.remotes = s1.remotes)) ∧
  (∀ b : List Byte, b.length = 256 → (chunkEncode b).2.length ≤ 256 ∧
    chunkDecode (chunkHeader (chunkEncode b).1 (chunkEncode b).2.length (chunkCheck b)) (chunkEncode b).2 = some b) ∧
  (∀ o c, s.runningCut op = some (o, c) → c.record = none →
    (∀ f, c.read o.ctx o.core s = .error f → ∃ t va h, exec (.cutComplete op) s = .next t ∧
      t.operation op = (.stopped f.code.code va h, some (.cut { c with record := none, stage := 0 }))) ∧
    (∀ s1 h out, Quiet s → c.read o.ctx o.core s = .ok (s1, h, out) → c.out.tile = true → c.out.fmt = 0x04 → out.sides = [] →
      (∃ b, c.block = some b ∧ b < s1.blocks.length ∧ c.pos < (s1.block b).shares.length ∧ ((s1.block b).share c.pos).home = .own ∧
        c.out.footEnd ≤ s1.tileSizeOf b) → (∀ i j, i < c.out.elems → j < i → c.out.elemAddr j + 16 ≤ c.out.elemAddr i) →
      ∃ s2 : State, exec (.cutComplete op) s = .next (s2.endCut op o { c with count := out.cuts.length }
          (leBytes 2 (if c.out.elems < out.cuts.length then 1 else 0) ++ leBytes 2 out.status ++ leBytes 4 out.firstBad ++ leBytes 4 0 ++
            leBytes 4 out.cuts.length)) ∧
        s2.mem = s1.mem ∧
        (∀ j < min out.cuts.length c.out.elems, let r := out.cuts.getD j default
          let word (off n : Nat) : Nat := leNat ((List.range n).map fun k => s2.entryByte (c.site op o) c.out (c.out.elemAddr j + off + k))
          word 0 8 = (c.graph.base + h.coff + 48 * r.cluster) % 2 ^ 64 ∧ word 8 4 = r.cluster % 2 ^ 32 ∧
          word 12 4 = (r.group + if r.fallback then 2 ^ 31 else 0) % 2 ^ 32) ∧
        (∀ y, (∀ j < min out.cuts.length c.out.elems, y < c.out.elemAddr j ∨ c.out.elemAddr j + 16 ≤ y) →
          s2.entryByte (c.site op o) c.out y = s1.entryByte (c.site op o) c.out y)) ∧
    (∀ s1 h out s2, c.stage = 0 → c.read o.ctx o.core s = .ok (s1, h, out) → c.writeRecords (c.site op o) h out s1 = .ok s2 →
      let rec_ := cutRecord out c.out.elems (viewScap c.view)
      let at_ (k : Nat) : OpBody := .cut { c with count := out.cuts.length, record := some rec_, stage := k }
      (s2.opRemotes op = true → ∃ t, exec (.cutComplete op) s = .next t ∧ t.operation op = (.running, some (at_ 0)) ∧ t.mem = s2.mem) ∧
      (s2.opRemotes op = false → ∀ s3, s2.writeObjAt o.ctx o.core c.objAcc c.obj 16 rec_ (some op) = .ok s3 →
        (s3.opRemotes op = true → ∃ t, exec (.cutComplete op) s = .next t ∧ t.operation op = (.running, some (at_ 1)) ∧ t.mem = s3.mem) ∧
        (s3.opRemotes op = false → ∀ s4, s3.engineArrive o.ctx o.core c.objAcc c.obj (some op) = .ok s4 → s4.opRemotes op = false →
          ∃ t, exec (.cutComplete op) s = .next t ∧ t.operation op = (.done, some (at_ 2)) ∧
            t.mem = s4.mem ∧ ∀ b p, t.shareMem b p = s4.shareMem b p)))) ∧
  (∀ o q b, s.runningTrav op = some (o, q) → q.block = some b → q.written = false → queryDirty q.query = false →
    let e := q.site op o
    let a := q.walkRow e 64 0 { s := s }
    (∀ f, a.stop = some (.fault f) → ∃ t va h, exec (.travQueryComplete op) s = .next t ∧ t.operation op = (.stopped f.code.code va h, some (.trav q))) ∧
    (∀ s2, (∀ f, a.stop ≠ some (.fault f)) → q.finish e a = .ok s2 → exec (.travQueryComplete op) s = .next (s2.travDone op o q)) ∧
    ((∀ f, a.stop ≠ some (.fault f)) → q.pred ≠ 1 → a.s.latent = [] → a.s.logs = [] → b < a.s.blocks.length → q.pos < (a.s.block b).shares.length →
      ((a.s.block b).share q.pos).home = .own → q.result + 16 * (1 + q.cap) ≤ a.s.tileSizeOf b →
      let es := if a.stop = none then q.entries a.found else []
      ∃ s2 : State, exec (.travQueryComplete op) s = .next (s2.travDone op o q) ∧ s2.mem = a.s.mem ∧
        (let at_ (off n : Nat) : Nat := leNat (s2.readTile b q.pos (q.result + off) n)
         at_ 0 2 = (if q.cap < es.length then 1 else 0) ∧ at_ 2 2 = (if a.stop = none then 0 else FaultCode.traversalFormat.code.toNat) ∧
         at_ 4 4 = es.length % 2 ^ 32 ∧ at_ 8 4 = min a.visits 0xFFFFFFFF ∧ at_ 12 4 = 0 ∧
         (∀ j < min es.length q.cap, ∀ k < 4, at_ (16 + 16 * j + 4 * k) 4 = ((es.getD j []).getD k 0) % 2 ^ 32)) ∧
        ∀ y, y < q.result ∨ q.result + 16 * (1 + min es.length q.cap) ≤ y →
          readByte (s2.shareMem b q.pos) y = readByte (a.s.shareMem b q.pos) y))

namespace Sys2Proof.Machine

/-! ## Terms of the claims about events -/

/-- Command `r` does its work, leaving `u`, and completes with a status and a result (R405, R409). -/
def Replies (i : Instr) (s : State) (r : PacketRef) (status result : Nat) (u : State) : Prop := exec i s = .next (u.reply1 r status result)

/-- The packet of `r` is this command, may execute, and has zeros in ARG1 to ARG3 beyond those named. -/
def Asks (s : State) (r : PacketRef) (opc : Nat) (p : Packet) (used : List Nat) : Prop :=
  s.command r opc = some p ∧ ∀ k, 1 ≤ k → k ≤ 3 → k ∉ used → p.arg k = 0

/-- The event has been posted (R404 Table 3): it has the next sequence number; with room in the ring its record lies at record EVWR,
and EVWR has advanced; with none, or with no ring set up, EVLOST counts it. -/
def Posted (s t : State) (kind ctx core : Nat) (d0 d1 : DWord) : Prop :=
  let h := s.hub
  let at_ := h.evbase.toNat + 32 * (h.evwr.toNat % h.evsize.toNat)
  t.hub.seq = h.seq + 1 ∧
  (h.evsize = 0 ∨ h.evwr - h.evrd = h.evsize → t.hub.evlost = satInc h.evlost ∧ t.hub.evwr = h.evwr ∧ t.mem = s.mem) ∧
  (h.evsize ≠ 0 → h.evwr - h.evrd ≠ h.evsize → t.hub.evlost = h.evlost ∧ t.hub.evwr = h.evwr + 1 ∧
    (at_ + 32 ≤ peerBase → readBytes t.mem at_ 32 = leBytes 8 h.seq.toNat ++ leBytes 2 kind ++ leBytes 2 ctx ++ leBytes 2 core ++ leBytes 2 0 ++
      leBytes 8 d0.toNat ++ leBytes 8 d1.toNat))

/-- An array's log register file after an update of it, told through the log of each array. -/
def logsBut (s t : State) (arr : ArrayId) : Prop := ∀ a, a ≠ arr → t.arrayLog a = s.arrayLog a

/-- How many arrivals at a scope a peer's launch under a key has told of (R427). -/
def State.peerCount (s : State) (key : Word) (scope device : Nat) : Nat :=
  match s.peerArrivals.find? fun p => p.key = key && p.scope = scope && p.device = device with
  | some p => p.phases
  | none => 0

/-- The grants a context holds on a die. -/
def State.grantMask (s : State) (c die : Nat) : BitVec 12 := (s.ctx c).grants.getD die 0

/-- No part of a packet's launch is being pre-empted, and the main side runs. -/
def State.goes (s : State) (li : Nat) : Prop :=
  s.mgmt.held = false ∧ (s.launch (s.rootLaunch li)).saving = false ∧ (s.launch (s.rootLaunch li)).restoring = false

end Sys2Proof.Machine

/-! ## Scheduling, placement, retirement -/

/-- R148, R151-R153: a free position takes a candidate before which none comes, and a slot issues nothing of a caravan that two ready
ones of the slot come before; a caravan that waits may lose its position, and with it its members' latches and advance-load entries;
while an aged candidate has no position, the last active caravan that no latch holds issues nothing, and its swap-out gives the
candidate that comes first its position; a queue wait ends once its tokens or room are there; an aged caravan is marked. R291: where the one thread of a block waits on a queue and nothing of the block can end the wait, QUEUE_MISUSE names the
lowest queue that lacks tokens or room. How
the second of two ready caravans comes to issue, and ties, are the model's reading (assumptions 9, 35). -/
def Obligations.PositionsAndWaits : Prop :=
  (∀ (s : State) (ci : Nat), s.mgmt.held = false →
    (∀ core slot pos, core < 64 → slot < 8 → pos < 8 → s.taken core slot pos = false → s.candidates core ≠ [] →
      ∃ k ∈ s.candidates core, (∀ c ∈ s.candidates core, c.before k = false) ∧
        exec (.positionFill core slot pos) s = .next (s.placeChoice k.what (.active slot pos))) ∧
    (ci < s.caravans.length → (s.caravan ci).isActive = true → s.latchHeld ci = false → s.ready (s.caravan ci) = false →
      ∃ t, exec (.swapOut ci) s = .next t ∧ (t.caravan ci).place = .pending ∧ (t.caravan ci).pc = (s.caravan ci).pc ∧
        (∀ m ∈ (s.caravan ci).members, m.agent < s.agents.length →
          (t.agent m.agent).latches = emptyLatches ∧ (t.agent m.agent).adv = [] ∧ (t.agent m.agent).regs = (s.agent m.agent).regs)) ∧
    (∀ slot pos cj ck rest, s.agenda = .issue ci :: rest → (s.caravan ci).place = .active slot pos → cj ≠ ck →
      (∀ x ∈ [cj, ck], x ≠ ci ∧ (s.caravan x).core = (s.caravan ci).core ∧ (∃ p, (s.caravan x).place = .active slot p) ∧ s.canIssue x = true ∧
        (s.caravanCand x).before (s.caravanCand ci) = true) → step s = .next { s with agenda := rest }) ∧
    (∀ slot pos, let core := (s.caravan ci).core
      (s.caravan ci).place = .active slot pos → s.full core = true → (∃ k ∈ s.candidates core, k.aged = true) →
      s.lastActive core = some ci → s.latchHeld ci = false →
      (∀ rest, s.agenda = .issue ci :: rest → step s = .next { s with agenda := rest }) ∧
      ∃ k ∈ s.candidates core, (∀ c ∈ s.candidates core, c.before k = false) ∧ ∃ u t : State,
        u.caravan ci = { s.caravan ci with place := .pending } ∧ (∀ c, c ≠ ci → u.caravan c = s.caravan c) ∧
        (∀ m ∈ (s.caravan ci).members, m.agent < s.agents.length → (u.agent m.agent).latches = emptyLatches ∧ (u.agent m.agent).adv = []) ∧
        t = u.placeChoice k.what (.active slot pos) ∧ exec (.swapOut ci) s = .next t) ∧
    ((s.caravan ci).place ≠ .dissolved → s.ready (s.caravan ci) = false →
      (∀ m ∈ (s.caravan ci).members, (s.agent m.agent).wait ≠ .ready → s.wakeable m.agent = true ∧ s.queueWaitOver (s.agent m.agent) = true ∧
        m.agent < s.agents.length) →
      ∃ t, exec (.queueWaitResume ci) s = .next t ∧ (t.caravan ci).pc = (s.caravan ci).pc ∧
        ∀ m ∈ (s.caravan ci).members, (t.agent m.agent).wait = .ready ∧ (t.agent m.agent).regs = (s.agent m.agent).regs) ∧
    (ci < s.caravans.length → (s.caravan ci).place ≠ .dissolved → s.caravanAged (s.caravan ci) = true →
      ∃ t, exec (.ageLimitReached (.caravan ci)) s = .next t ∧ (t.caravan ci).aged = true ∧ t.agents = s.agents)) ∧
  (∀ (s : State) (ci i q : Nat) (e : Word),
    let b := (s.caravan ci).block
    Alone s ci i → s.mgmt.held = false → (s.caravan ci).place ≠ .dissolved → (s.block b).state = .resident → (s.block b).mate = none →
    s.agentsOf b = [i] → (∀ c, c ≠ ci → (s.caravan c).place = .dissolved ∨ (s.caravan c).block ≠ b) →
    s.lacking (s.agent i) = some q → (s.agent i).trapMode = false → (s.agent i).drover = false → s.trapEntry (s.agent i) = some e →
    s.entryFault (s.agent i) e = none → s.qlockAt (s.agent i).ctx e = false →
    ∃ t, exec (.queueMisuseDetect b) s = .next t ∧ (t.agent i).trapMode = true ∧ (t.agent i).frame.code = 0x000E ∧
      (t.agent i).frame.info = BitVec.ofNat 32 q ∧ (t.agent i).frame.pc = (s.caravan ci).pc ∧ (t.agent i).frame.resume = (s.caravan ci).pc ∧
      (t.agent i).pc = e ∧ (t.agent i).wait = .ready ∧ (t.agent i).regs = (s.agent i).regs ∧ t.mem = s.mem)

/-- R139, R413: the Broker places the launch's next block on the cores named, with its partner; a block whose agents have exited
and whose operations are done retires, and its t: share is gone. -/
def Obligations.BlocksArePlacedAndRetire : Prop := ∀ (s : State),
  (∀ li cores, s.goes li → (s.launch li).state = .running → (s.launch li).itinerary = false → (s.launch li).placed < (s.launch li).nblock →
    li < s.launches.length → (s.ctx (s.launch li).ctx).stopped = false →
    s.mayPlace (s.launch li) ((s.launch li).sizeOf (s.launch li).placed) cores = true →
    ∃ t, exec (.blockPlace li cores) s = .next t ∧ t.blocks.length = s.blocks.length + (s.launch li).ranks ∧
      (t.launch li).placed = (s.launch li).placed + 1 ∧
      ∀ x < (s.launch li).ranks, let b := t.block (s.blocks.length + x)
        b.launch = li ∧ b.bidx = (s.launch li).placed ∧ b.partner = x ∧ b.shares.map (·.core) = cores ∧ b.ctx = (s.launch li).ctx) ∧
  (∀ b, s.mgmt.held = false → (s.block b).state = .resident → b < s.blocks.length → (s.block b).mate = none →
    (∀ i ∈ s.agentsOf b, (s.agent i).stand = .exited) → s.blockBusy b = false → s.blockUnacked b = false →
    (∀ h ∈ (s.block b).shares, h.engine.queue = []) →
    ∃ t, exec (.blockRetire b) s = .next t ∧ (t.block b).state = .retired ∧ ∀ h ∈ (t.block b).shares, h.tile = [] ∧ h.inbound = 0)

/-! ## Storage events -/

/-- R200, R202, R203, R206, R208, R385, R386: a walk's result is held and translates as the walk did; windows close; write-back changes no
byte that is read; errors lie latent; the logs are read, cleared and armed by those who may; new units of the carve-out read zero. The
model's choices: a walk is an event of its own, which entry a full TLB gives up is open, a merge window closes by an event, and errors
come as events (assumptions 16, 17, 51, 38). -/
def Obligations.StorageEvents : Prop := ∀ (s : State),
  (∀ ctx core va size tr, Quiet s → core < 64 → (s.ctx ctx).live = true → s.walk ctx va.toNat = some (size, tr) → 0 < size →
    (∀ e ∈ s.tlb, ¬(e.ctx = ctx ∧ (e.core = core ∨ e.core = dieTlb core) ∧ e.base ≤ va.toNat ∧ va.toNat < e.base + e.size)) →
    ∃ t, exec (.pageWalk ctx core va) s = .next t ∧ t.lookup ctx core va.toNat = s.lookup ctx core va.toNat ∧
      (∃ e ∈ t.tlb, e.ctx = ctx ∧ e.core = core ∧ e.base ≤ va.toNat ∧ va.toNat < e.base + e.size ∧ e.tr = tr) ∧ t.mem = s.mem) ∧
  (∀ sec, ∃ t, exec (.mergeWindowExpire sec) s = .next t ∧ (∀ x, x ∈ t.merges ↔ x ∈ s.merges ∧ x.sector ≠ sec) ∧ t.mem = s.mem) ∧
  (∀ sec, Quiet s → (∃ d ∈ s.dirty, d.sector = sec) → ∃ t, exec (.writeBack sec) s = .next t ∧
    (∀ d, d ∈ t.dirty ↔ d ∈ s.dirty ∧ d.sector ≠ sec) ∧ (∀ x, t.peek x = s.peek x)) ∧
  (∀ i k, i < s.agents.length → ∃ t, exec (.advanceLoadEntryRemove i k) s = .next t ∧ (t.agent i).adv = (s.agent i).adv.eraseIdx k ∧
    (t.agent i).regs = (s.agent i).regs ∧ t.mem = s.mem) ∧
  (∀ arr loc double, arrayExists arr = true → (∀ n, arr ≠ .l2tag n) → ∃ t, exec (.softError arr loc double) s = .next t ∧
    t.latent = s.latent ++ [⟨arr, loc / 32 * 32, double, false⟩] ∧ t.mem = s.mem) ∧
  (∀ n loc double, n < 64 → ∃ t, exec (.softError (.l2tag n) loc double) s = .next t ∧ t.latent = s.latent ++ [⟨.l2tag n, loc, double, false⟩]) ∧
  (∀ who arr v, s.trusted who = true → arrayExists arr = true →
    (¬(v.getLsbD 62 = true ∧ v.extractLsb' 53 9 = v.extractLsb' 44 9) → ∃ t, exec (.inj who arr v) s = .next t ∧
      (t.arrayLog arr).inj = v ∧ (t.arrayLog arr).log = (s.arrayLog arr).log ∧ logsBut s t arr ∧ t.mem = s.mem) ∧
    (∃ t, exec (.errlogClear who arr) s = .next t ∧ (t.arrayLog arr).log = [] ∧ (t.arrayLog arr).corr = 0 ∧ (t.arrayLog arr).drop = 0 ∧
      (t.arrayLog arr).inj = (s.arrayLog arr).inj ∧ logsBut s t arr) ∧
    (∃ t, exec (.errlogRead who arr) s = .next t ∧ t.logs = s.logs ∧
      t.reply = (s.arrayLog arr).log.flatMap LogEntry.bytes ++ leBytes 4 (s.arrayLog arr).corr.toNat ++ leBytes 4 (s.arrayLog arr).drop.toNat)) ∧
  (∀ die ways r, s.mgmt.held = false → s.carving = [(die, ways, r)] → die < s.carve.length →
    ∃ u, Replies (.carveComplete die) s r 0 0 u ∧ u.carve.getD die 0 = ways ∧ u.carving = [] ∧
      ∀ a, scratchBase + die * scratchWindow + s.carve.getD die 0 * scratchUnit ≤ a → a < scratchBase + die * scratchWindow + ways * scratchUnit →
        readByte u.mem a = 0)

/-! ## Commands -/

/-- R205-R207, R409, R410, R426: what each command of a privileged queue, and PODJOIN, does with arguments in range; a queue that is not privileged
gets status 6. Which numbers CTXNEW and QCREATE give is the model's choice (assumption 63), and so is what a unit holds once it
leaves the scratchpad (assumption 36). -/
def Obligations.PrivilegedCommands : Prop := ∀ (s : State) (r : PacketRef) (p : Packet),
  (s.privileged r = false → ∀ x : Instr × Nat, x ∈ [(Instr.ctxnew r, 1), (.ctxfree r, 2), (.qcreate r, 3), (.qfree r, 4), (.qgrant r, 5),
      (.hostwin r, 6), (.carve r, 0x10), (.spgrant r, 0x11), (.sprevoke r, 0x12)] → s.command r x.2 = some p → Replies x.1 s r 6 0 s) ∧
  (s.privileged r = true →
    (∀ die ways, die ≤ 3 → ways ≤ 12 → s.carve.length = 4 → Asks s r 0x10 p [] → p.arg 0 = die + ways * 2 ^ 16 →
      (ways = s.carve.getD die 0 → Replies (.carve r) s r 0 0 s) ∧
      (ways < s.carve.getD die 0 → s.granted die ways = true → Replies (.carve r) s r 1 0 s) ∧
      (ways < s.carve.getD die 0 → s.granted die ways = false → ∃ u, Replies (.carve r) s r 0 0 u ∧ u.carve.getD die 0 = ways) ∧
      (s.carve.getD die 0 < ways → s.carving = [] → ∃ t, exec (.carve r) s = .next t ∧ t.carving = [(die, ways, r)] ∧ t.carve = s.carve)) ∧
    (∀ c die units, (s.ctx c).live = true → c < 2 ^ 16 → die ≤ 3 → units < 2 ^ 12 → (s.ctx c).grants.length = 4 →
      p.arg 0 = c + die * 2 ^ 16 + units * 2 ^ 32 →
      (Asks s r 0x11 p [] → units < 2 ^ s.carve.getD die 0 → ∃ u, Replies (.spgrant r) s r 0 0 u ∧
        u.grantMask c die = s.grantMask c die ||| BitVec.ofNat 12 units ∧ ∀ d, d ≠ die → u.grantMask c d = s.grantMask c d) ∧
      (Asks s r 0x11 p [] → 2 ^ s.carve.getD die 0 ≤ units → Replies (.spgrant r) s r 3 0 s) ∧
      (Asks s r 0x12 p [] → s.unitsInUse c die units = false → ∃ u, Replies (.sprevoke r) s r 0 0 u ∧
        u.grantMask c die = s.grantMask c die &&& ~~~BitVec.ofNat 12 units ∧ (∀ q ∈ u.pending, q.ctx ≠ c) ∧
        ∀ e ∈ u.tlb, ¬(e.ctx = c ∧ inUnits die units e.tr.pa = true))) ∧
    (Asks s r 1 p [] → s.populated (p.arg 0) 128 = true → Quiet s → ∀ s3 s4,
      let bs := s.peekBytes (p.arg 0) 128
      let n := s.freeContext
      descOk bs = true → n ≤ 65535 → { s with contexts := s.contexts ++ [(n, descContext bs s.ownMask)] }.readPodMask n = some s3 →
      s3.readManifests n (descField bs 0x48 8) (descField bs 0x54 4) = some s4 → Replies (.ctxnew r) s r 0 n s4) ∧
    (Asks s r 2 p [] → (s.ctx (p.arg 0)).live = true → s.contextBusy (p.arg 0) = false → ∃ u, Replies (.ctxfree r) s r 0 0 u ∧
      (u.ctx (p.arg 0)).live = false ∧ (∀ c, c ≠ p.arg 0 → u.ctx c = s.ctx c) ∧ ∀ e ∈ u.tlb, e.ctx ≠ p.arg 0) ∧
    (∀ c lg port, ∀ priv : Bool, (s.ctx c).live = true → c < 2 ^ 16 → 4 ≤ lg → lg ≤ 16 → port < 2 → Asks s r 3 p [1, 2] →
      p.arg 0 = c + lg * 2 ^ 32 + port * 2 ^ 48 + (if priv then 2 ^ 49 else 0) → p.arg 1 % 64 = 0 → p.arg 2 % 4 = 0 →
      p.arg 1 < 2 ^ 64 → p.arg 2 < 2 ^ 64 →
      ∀ q t, (List.range 224).find? (fun q => !(s.queue q).live) = some q → s.hubWrite c (p.arg 2) (leBytes 4 0) = .ok t →
      ∃ u, Replies (.qcreate r) s r 0 q u ∧ u.queue q =
        { ctx := c, log2 := lg, ring := BitVec.ofNat 64 (p.arg 1), rdw := BitVec.ofNat 64 (p.arg 2), port := port, priv := priv }) ∧
    (Asks s r 4 p [] → (s.queue (p.arg 0)).live = true → (s.queue (p.arg 0)).pkts = [] → (s.queue (p.arg 0)).rd = (s.queue (p.arg 0)).wk →
      ∃ u, Replies (.qfree r) s r 0 0 u ∧ (u.queue (p.arg 0)).live = false) ∧
    (∀ q port, q < 2 ^ 48 → port < 2 → Asks s r 5 p [] → p.arg 0 = q + port * 2 ^ 48 → (s.queue q).live = true →
      ∃ u, Replies (.qgrant r) s r 0 0 u ∧ (u.queue q).port = port ∧ ((u.queue q).priv = true ↔ (s.queue q).priv = true ∧ (s.queue q).port = port)) ∧
    (∀ w, ∀ on : Bool, w ≤ 15 → Asks s r 6 p [1, 2] → p.arg 0 = w + (if on then 2 ^ 63 else 0) → p.arg 1 % 0x200000 = 0 → p.arg 2 % 0x200000 = 0 →
      p.arg 1 + p.arg 2 ≤ 2 ^ 41 → ∃ u, Replies (.hostwin r) s r 0 0 u ∧
        ∀ x, x ∈ u.hub.windows ↔ (x ∈ s.hub.windows ∧ x.number ≠ w) ∨ (on = true ∧ x = ⟨w, p.arg 1, p.arg 2⟩))) ∧
  (∀ key pset, 0 < key → key < 2 ^ 32 → Asks s r 0x23 p [] → p.arg 0 = key + pset * 2 ^ 32 →
    pset < (s.ctx (s.queue r.queue).ctx).peerCount → pset < 2 ^ 12 → ∀ s1 bs,
    s.hubRead (s.queue r.queue).ctx ((s.ctx (s.queue r.queue).ctx).peerBase + BitVec.ofNat 64 (128 * pset)).toNat 128 = .ok (s1, bs) →
    ∃ u, Replies (.podjoin r) s r 0 0 u ∧ (u.queue r.queue).podjoin = some (BitVec.ofNat 32 key, BitVec.ofNat 1024 (leNat bs) ||| s.ownMask))

/-- R382, R383, R388-R392, R400: a pre-emption stops the blocks that hold cores; a quiet block is saved with its latches
empty, but those of a thread that a fault holds at its instruction (assumption 52), and returns to the cores it is given; RESUME lets a stopped context run; a replay or cancel answers for the handle's operation. Once the next block of a launch has waited
65,536 cc for room, the Broker stops a resident block of a launch of lower PRIO. How a block's state lies in the save area is the
device's own (assumption 33). -/
def Obligations.PreemptionSavesAndRestores : Prop := ∀ (s : State) (r : PacketRef) (p : Packet),
  (∀ c h roots, Asks s r 0x20 p [1] → p.arg 0 = c → p.arg 1 = h → c < 2 ^ 16 → (s.ctx c).live = true → (s.queue r.queue).ctx = c →
    s.named c h Launch.runs = some roots → roots ≠ [] → s.canSave c roots = true →
    ∃ t, exec (.preempt r) s = .next t ∧ (∀ x ∈ roots, (t.launch x).saving = true) ∧ ∀ b ∈ s.onCores roots, (t.block b).state = .saving) ∧
  (∀ c h roots, Asks s r 0x21 p [1] → p.arg 0 = c → p.arg 1 = h → c < 2 ^ 16 → assocGet s.contexts c ≠ none → (s.ctx c).live = true →
    (s.queue r.queue).ctx = c → s.named c h Launch.isSaved = some roots →
    s.areaOk c (s.saveSum (roots.flatMap fun x => (s.family x).filter fun b => (s.block b).state = .saved)) { rd := true } = true →
    ∃ t, exec (.resume r) s = .next t ∧ (t.ctx c).stopped = false ∧
      ∀ x ∈ roots, (∃ b ∈ s.family x, (s.block b).state = .saved) → (t.launch x).restoring = true) ∧
  (∀ c, ∀ cancel : Bool, Asks s r 0x22 p [1, 2] → p.arg 0 = c → c < 2 ^ 16 → (s.ctx c).live = true → (s.queue r.queue).ctx = c →
    p.arg 2 = (if cancel then 1 else 0) →
    (∀ u, s.replay c (BitVec.ofNat 64 (p.arg 1)) cancel = some u → Replies (.ereplay r) s r 0 0 u) ∧
    (s.replay c (BitVec.ofNat 64 (p.arg 1)) cancel = none → Replies (.ereplay r) s r 5 0 s)) ∧
  (∀ b, s.mgmt.held = false → (s.block b).state = .saving → b < s.blocks.length → (s.block b).mate = none → s.quiet b = true →
    (s.launch (s.block b).launch).coresident = false → s.carving = [] →
    ∃ t, exec (.blockSave b) s = .next t ∧ (t.block b).state = .saved ∧
      ∀ i ∈ s.agentsOf b, (t.agent i).adv = [] ∧ (t.agent i).pc = (s.agent i).pc ∧
        let stopped := (∃ want, (s.agent i).stand = .quadTrap want true) ∨ ∃ c, (s.agent i).stand = .parked c
        (¬stopped → (t.agent i).latches = emptyLatches) ∧ (stopped → (t.agent i).latches = (s.agent i).latches)) ∧
  (∀ b cores, s.mgmt.held = false → (s.block b).state = .saved → b < s.blocks.length → (s.block b).partner = 0 → (s.block b).mate = none →
    (s.launch (s.rootLaunch (s.block b).launch)).restoring = true → (s.ctx (s.block b).ctx).stopped = false → s.mayRestore b cores = true →
    s.carving = [] →
    ∃ t, exec (.blockRestore b cores) s = .next t ∧ (t.block b).state ≠ .saved ∧ (t.block b).shares.map (·.core) = cores) ∧
  (∀ li, s.mgmt.held = false → li < s.launches.length → s.starved li = true →
    ((s.launch li).waiting = none → ∃ t, exec (.priorityPreempt li) s = .next t ∧ (t.launch li).waiting = some (s.clockOf hubCore) ∧
      t.blocks = s.blocks) ∧
    (∀ t0, (s.launch li).waiting = some t0 → s.clockOf hubCore < t0 + 65536 → exec (.priorityPreempt li) s = .next s) ∧
    (∀ t0, (s.launch li).waiting = some t0 → t0 + 65536 ≤ s.clockOf hubCore → s.brokerVictims (s.launch li).prio ≠ [] →
      (∀ k ∈ s.blocks, k.broker = true → k.state ≠ .saving) →
      ∃ t, exec (.priorityPreempt li) s = .next t ∧ ∃ v ∈ s.brokerVictims (s.launch li).prio,
        (t.block v).state = .saving ∧ (t.block v).broker = true ∧ (s.block v).state = .resident ∧
        (s.launch (s.block v).launch).prio < (s.launch li).prio ∧
        ∀ b, b ∉ s.brokerUnit v → t.block b = s.block b))

/-! ## Hosts and queues -/

/-- R401-R404, R407: the hosts' registers and BAR2: a notify in range moves WK; a stale one leaves it without an event; one beyond the
ring's size leaves it with QUEUE_ERROR; a foreign one, and one to a number that names no queue, are counted; only the control
host writes the ring's registers, which return to 0; BAR2 reads and writes bytes, and all ones where nothing answers. -/
def Obligations.HostRegistersAndBar2 : Prop := ∀ (s : State) (port : Nat), s.hostUp port = true →
  (∀ q v, q < 224 → (s.queue q).live = true →
    ((s.queue q).port = port → (v - (s.queue q).rd).toNat ≤ 2 ^ (s.queue q).log2 → ((s.queue q).wk - (s.queue q).rd).toNat ≤ (v - (s.queue q).rd).toNat →
      ∃ t, exec (.notify port q v) s = .next t ∧ exec (.bar0Write port (0x10000 + 0x1000 * q) (v.setWidth 64)) s = .next t ∧
        t.queue q = { s.queue q with wk := v, halted := false } ∧ t.mem = s.mem) ∧
    ((s.queue q).port = port → (v - (s.queue q).rd).toNat ≤ 2 ^ (s.queue q).log2 → (v - (s.queue q).rd).toNat < ((s.queue q).wk - (s.queue q).rd).toNat →
      ∃ t, exec (.notify port q v) s = .next t ∧ t.queue q = { s.queue q with halted := false } ∧ t.hub.seq = s.hub.seq ∧ t.mem = s.mem) ∧
    ((s.queue q).port = port → 2 ^ (s.queue q).log2 < (v - (s.queue q).rd).toNat →
      ∃ t, exec (.notify port q v) s = .next t ∧ t.hub.queues = s.hub.queues ∧
        Posted s t 8 (s.queue q).ctx 0xFFFF (v.setWidth 64) (BitVec.ofNat 64 q)) ∧
    ((s.queue q).port ≠ port → ∃ t, exec (.notify port q v) s = .next t ∧ t.queue q = s.queue q ∧ t.hub.notifydrop = satInc s.hub.notifydrop)) ∧
  (∀ q v, q < 224 → (s.queue q).live = false →
    exec (.notify port q v) s = .next { s with hub := { s.hub with notifydrop := satInc s.hub.notifydrop } }) ∧
  (port = s.mgmt.control →
    (∀ v : DWord, v.toNat % 32 = 0 → mainRange v.toNat 32 = true → ∃ t, exec (.evbase port v) s = .next t ∧
      exec (.bar0Write port 0x10 v) s = .next t ∧ t.hub = { s.hub with evbase := v, evwr := 0, evrd := 0 }) ∧
    (∀ (v : Word) k, 6 ≤ k → k ≤ 16 → v.toNat = 2 ^ k → ∃ t, exec (.evsize port v) s = .next t ∧
      exec (.bar0Write port 0x18 (v.setWidth 64)) s = .next t ∧ t.hub = { s.hub with evsize := v, evwr := 0, evrd := 0 }) ∧
    (∀ v : Word, (s.hub.evwr - v).toNat ≤ s.hub.evsize.toNat → ∃ t, exec (.evrd port v) s = .next t ∧
      exec (.bar0Write port 0x20 (v.setWidth 64)) s = .next t ∧ t.hub = { s.hub with evrd := v })) ∧
  (port ≠ s.mgmt.control → ∀ v w, exec (.evbase port v) s = .next s ∧ exec (.evsize port w) s = .next s ∧ exec (.evrd port w) s = .next s) ∧
  (∀ pa, pa % 8 = 0 → pa + 8 ≤ peerBase → Quiet s →
    (s.bar2Reach port pa = true → (∃ t, exec (.hostBar2Read port pa 8) s = .next t ∧ t.reply = s.peekBytes pa 8 ∧ t.mem = s.mem) ∧
      (∀ bs : List Byte, bs.length = 8 → ∃ t, exec (.hostBar2Write port pa bs) s = .next t ∧ t.peekBytes pa 8 = bs ∧ SameOutside s t pa 8)) ∧
    (s.bar2Reach port pa = false → (∃ t, exec (.hostBar2Read port pa 8) s = .next t ∧ t.reply = List.replicate 8 0xFF) ∧
      (∀ bs : List Byte, bs.length = 8 → exec (.hostBar2Write port pa bs) s = .next s)))

/-- R405, R406, R408, R412, R426: the Dispatcher takes the next packet whose HEAD is VALID, holds one with BARRIER back until every
earlier one has completed, gives a LAUNCH packet the mark of the PODJOIN before it, retires the oldest once it has a result, which it
writes, then takes 1 from the signal, posts SIGNAL, writes HEAD with VALID clear and the new read index, and lets a launch go on when
its semaphore, as a signed number, is at most 0. That
a queue waits while its PODJOIN is unfinished is the model's reading (assumption 30). -/
def Obligations.PacketsRunInOrder : Prop := ∀ (s : State) (q : Nat), s.mgmt.held = false → (s.queue q).live = true →
  (∀ s1 s2 hd bs, let h := s.queue q
    let i := h.rd + BitVec.ofNat 32 h.pkts.length
    h.halted = false → i ≠ h.wk → h.pkts.length < 64 → (∀ x ∈ h.pkts, ¬(x.kind = 2 ∧ x.opc = 0x23 ∧ x.result = none)) → (∀ x ∈ h.pkts, x.index ≠ i) →
    s.hubRead h.ctx (h.slotVa i) 8 = .ok (s1, hd) → 2 ^ 63 ≤ leNat hd → s1.hubRead h.ctx (h.slotVa i + 8) 56 = .ok (s2, bs) →
    ∃ t p, exec (.packetDequeue q) s = .next t ∧ p ∈ (t.queue q).pkts ∧ p.index = i ∧ p.head = BitVec.ofNat 64 (leNat hd) ∧
      p.sig = BitVec.ofNat 64 (leNat ((bs.drop 0x28).take 8)) ∧ (∀ k < 4, p.arg k = leNat ((bs.drop (8 * k)).take 8) % 2 ^ 64) ∧
      (p.kind = 1 → p.join = h.podjoin ∧ (t.queue q).podjoin = none) ∧ (p.kind ≠ 1 → p.join = none ∧ (t.queue q).podjoin = h.podjoin) ∧
      ((∃ x ∈ h.pkts, x.result = none) ∧ p.barrier = true → p.started = false ∧ p.result = none) ∧
      ((∀ x ∈ h.pkts, x.result ≠ none) ∨ p.barrier = false → p.started = true)) ∧
  (∀ s1 hd, let h := s.queue q
    let i := h.rd + BitVec.ofNat 32 h.pkts.length
    h.halted = false → i ≠ h.wk → h.pkts.length < 64 → (∀ x ∈ h.pkts, ¬(x.kind = 2 ∧ x.opc = 0x23 ∧ x.result = none)) →
    s.hubRead h.ctx (h.slotVa i) 8 = .ok (s1, hd) → leNat hd < 2 ^ 63 → exec (.packetDequeue q) s = .next s1) ∧
  (∀ p rest v, (s.queue q).pkts = p :: rest → p.result = some v → ∃ t, exec (.packetRetire q) s = .next t ∧
    (t.queue q).rd = (s.queue q).rd + 1 ∧ (t.queue q).pkts = rest) ∧
  (∀ p rest v r s1, let h := s.queue q
    let atom := s.access h.ctx hubCore accAtom p.sig.toNat 8
    let bad : Prop := p.sig ≠ 0 ∧ (p.sig.toNat % 8 ≠ 0 ∨ ∃ f, atom = .error f)
    h.pkts = p :: rest → p.result = some v → Quiet s →
    (bad → r.extractLsb' 16 48 = v.extractLsb' 16 48 ∧ r.extractLsb' 0 16 = 0x11) → (¬bad → r = v) →
    s.hubWrite h.ctx (h.slotVa p.index + 0x28) (leBytes 8 r.toNat) = .ok s1 →
    ∃ s2 s3, (p.sig = 0 ∨ bad → s2 = s1) ∧
      (∀ pa ord fresh, p.sig ≠ 0 → ¬bad → atom = .ok [⟨p.sig.toNat, pa, 8, ord, fresh⟩] → pa + 8 ≤ peerBase →
        s2.peekNat pa 8 = (s1.peekNat pa 8 + (2 ^ 64 - 1)) % 2 ^ 64 ∧ SameOutside s1 s2 pa 8) ∧
      (p.head.getLsbD 54 = true → Posted s2 s3 7 h.ctx 0xFFFF (p.index.setWidth 64) (BitVec.ofNat 64 q)) ∧
      (p.head.getLsbD 54 = false → s3 = s2) ∧
      ∀ s4 s5, s3.hubWrite h.ctx (h.slotVa p.index) (leBytes 8 (p.head.toNat % 2 ^ 63)) = .ok s4 →
        s4.hubWrite h.ctx h.rdw.toNat (leBytes 4 (h.rd + 1).toNat) = .ok s5 →
        ∃ t, exec (.packetRetire q) s = .next t ∧ t.mem = s5.mem ∧ t.hub.seq = s3.hub.seq ∧
          t.queue q = { h with rd := h.rd + 1, pkts := rest }) ∧
  (∀ p rest, (s.queue q).pkts = p :: rest → p.result = none → exec (.packetRetire q) s = .next s) ∧
  (∀ li s1 bs, (s.launch li).state = .semaphore → (s.launch (s.rootLaunch li)).saving = false →
    s.hubRead (s.launch li).ctx (s.launch li).sem.toNat 8 = .ok (s1, bs) →
    (leNat bs = 0 ∨ 2 ^ 63 ≤ leNat bs → exec (.launchSemaphoreReady li) s = .next ((s1.setupLaunch li true).settleQueue (s.launch li).queue)) ∧
    (0 < leNat bs → leNat bs < 2 ^ 63 → exec (.launchSemaphoreReady li) s = .next s1))

/-! ## Itineraries and raster passes -/

/-- R343-R347, R350, R353, R355, R356, R358: a node that starts leaves its walk at the launch, the operation or the pass its record asks
for, or at its end; one whose count word lies on a peer waits until the peer has its zero, and at its end the count; a condition and a while choose their branch; a node that is complete sends the walk on or ends it; a triangle goes,
in order, to the list of every tile it may touch, in the page the list has or in a new one; a tile is assigned, cleared or reloaded,
rasterised, shaded, blended, saved or retired; a pass completes. How room for a fragment block is counted before its size is known is
the model's choice (assumption 61). -/
def Obligations.WalksAndPassesGoOn : Prop := ∀ (s : State) (w p : Nat),
  (s.walkFree w = true → (s.walkNo w).state = .atNode → ∀ x,
    s.hubRead (s.walkNo w).ctx ((s.walkNo w).itin.toNat + 0x40 + 64 * (s.walkNo w).node) 64 = x →
    (∀ f, x = .error f → ∃ t, exec (.itineraryNodeStart w) s = .next t ∧ (t.walkNo w).state = .ended 1 (s.walkNo w).node) ∧
    (∀ s1 r, x = .ok (s1, r) → s1.nodeOk (s.walkNo w).ctx (s.walkNo w).nnode r = false →
      ∃ t, exec (.itineraryNodeStart w) s = .next t ∧ (t.walkNo w).state = .ended 1 (s.walkNo w).node) ∧
    (∀ s1 s2 r bs, x = .ok (s1, r) → s1.nodeOk (s.walkNo w).ctx (s.walkNo w).nnode r = true → NodeRec.ocnt r = 0 → NodeRec.kind r = 5 →
      s1.hubRead (s.walkNo w).ctx (NodeRec.cond r) 4 = .ok (s2, bs) →
      ∃ t, exec (.itineraryNodeStart w) s = .next t ∧ (t.walkNo w).state = .complete ∧
        (t.walkNo w).next = if leNat bs ≠ 0 then NodeRec.next0 r else NodeRec.next1 r) ∧
    (∀ s1 s2 r bs, x = .ok (s1, r) → s1.nodeOk (s.walkNo w).ctx (s.walkNo w).nnode r = true → NodeRec.ocnt r = 0 → NodeRec.kind r = 6 →
      s1.hubRead (s.walkNo w).ctx (NodeRec.cond r) 4 = .ok (s2, bs) →
      let n := (assocGet (s.walkNo w).counts (s.walkNo w).node).getD 0
      (leNat bs = 0 → ∃ t, exec (.itineraryNodeStart w) s = .next t ∧ (t.walkNo w).state = .complete ∧ (t.walkNo w).next = NodeRec.next1 r ∧
        assocGet (t.walkNo w).counts (s.walkNo w).node = some 0) ∧
      (leNat bs ≠ 0 → n < NodeRec.limit r → ∃ t, exec (.itineraryNodeStart w) s = .next t ∧ (t.walkNo w).state = .complete ∧
        (t.walkNo w).next = NodeRec.next0 r ∧ assocGet (t.walkNo w).counts (s.walkNo w).node = some (n + 1)) ∧
      (leNat bs ≠ 0 → NodeRec.limit r ≤ n → ∃ t, exec (.itineraryNodeStart w) s = .next t ∧ (t.walkNo w).state = .ended 2 (s.walkNo w).node)) ∧
    (∀ s1 r, x = .ok (s1, r) → s1.nodeOk (s.walkNo w).ctx (s.walkNo w).nnode r = true → NodeRec.ocnt r = 0 → NodeRec.icnt r = 0 →
      let ctx := (s.walkNo w).ctx
      let mi := (s1.ctx ctx).manifest (NodeRec.inMf r)
      let mo := (s1.ctx ctx).manifest (NodeRec.outMf r)
      let p := NodeRec.param r
      (NodeRec.kind r = 1 → 0 < mi.rows → ∃ t, exec (.itineraryNodeStart w) s = .next t ∧
        (t.walkNo w).state = .launch s.launches.length ∧ t.launches.length = s.launches.length + 1 ∧
        (t.launch s.launches.length).origin = .node w ∧ (t.launch s.launches.length).seed = .shader mi.rows 0 ∧
        (p % 64 ≠ 0 → (t.launch s.launches.length).state = .done ∧ (t.launch s.launches.length).status = 0x10)) ∧
      (NodeRec.kind r = 2 → p % 64 = 0 → ∀ s2 blk, s1.hubRead ctx p 128 = .ok (s2, blk) →
        (s2.access ctx hubCore { rd := true, wr := true } (p + 0x40) 32).isOk = true → leNat (blk.drop 0x60) = 0 →
        cutOperand (NodeRec.inMf r) (NodeRec.outMf r) mi mo none (blk.take 64) = none →
        ∃ t c, exec (.itineraryNodeStart w) s = .next t ∧ (t.walkNo w).state = .cut s.ops.length ∧ t.ops.length = s.ops.length + 1 ∧
          t.operation s.ops.length = (.running, some (.cut c)) ∧ c.graph = mi ∧ c.out = mo ∧ c.view = blk.take 64 ∧ c.obj = .virt (p + 0x40)) ∧
      (NodeRec.kind r = 3 → ∀ s2 d, s1.hubRead ctx p 0xC0 = .ok (s2, d) →
        let q : Pass := { walk := w, ctx := ctx, cuts := mi, descVa := BitVec.ofNat 64 p, desc := d }
        s2.passOk q = true → ∃ t, exec (.itineraryNodeStart w) s = .next t ∧ (t.walkNo w).state = .raster s.passes.length ∧
          t.passes.length = s.passes.length + 1 ∧ t.pass s.passes.length =
            { q with graph := (s1.ctx ctx).manifest (q.field 0xB0 4), ncut := min mi.elems 0x1FFFFFF, binned := decide (mi.elems = 0) }) ∧
      (NodeRec.kind r = 4 → 0 < mi.rows → p < 2 ^ 44 → bitsAt p 16 4 ≤ 3 → mi.rowBytes = 64 →
        (if NodeRec.outMf r = 0 then bitsAt p 16 4 = 1 else mo.rowBytes = 16 * (1 + bitsAt p 24 12)) →
        let fmt := assocGet (s1.ctx ctx).formats (bitsAt p 20 4)
        s1.travStale ctx (bitsAt p 0 8) (bitsAt p 8 8) (bitsAt p 36 8) fmt = none →
        s1.travEntriesBad ctx (bitsAt p 0 8) (bitsAt p 8 8) (bitsAt p 36 8) (bitsAt p 16 4) (bitsAt p 24 12) fmt none = false →
        ∃ t q, exec (.itineraryNodeStart w) s = .next t ∧ (t.walkNo w).state = .trav s.ops.length ∧ t.ops.length = s.ops.length + 1 ∧
          t.operation s.ops.length = (.running, some (.trav q)) ∧ q.input = mi ∧ q.output = mo ∧ q.count = mi.rows ∧
          q.pred = bitsAt p 16 4 ∧ q.cap = bitsAt p 24 12)) ∧
    (∃ t, exec (.itineraryNodeStart w) s = .next t ∧ (t.walkNo w).state ≠ .atNode)) ∧
  (s.walkFree w = true → s.nodeEnd (s.walkNo w) = .refused → ∃ t, exec (.nodeComplete w) s = .next t ∧
    (t.walkNo w).state = .ended 1 (s.walkNo w).node) ∧
  (∀ n, s.walkFree w = true → s.nodeEnd (s.walkNo w) = .complete (some n) → NodeRec.ocnt (s.walkNo w).rec_ ≠ 0 → (s.walkNo w).next ≠ 0xFFFF →
    ∀ s1, s.hubWrite (s.walkNo w).ctx (NodeRec.ocnt (s.walkNo w).rec_) (leBytes 4 n) = .ok s1 →
    (s1.hubUnacked (s.walkNo w).ctx [] = false → ∃ t, exec (.nodeComplete w) s = .next t ∧ (t.walkNo w).state = .atNode ∧
      (t.walkNo w).node = (s.walkNo w).next ∧ t.mem = s1.mem) ∧
    (s1.hubUnacked (s.walkNo w).ctx [] = true → ∃ t, exec (.nodeComplete w) s = .next t ∧ (t.walkNo w).state = .complete ∧
      (t.walkNo w).next = (s.walkNo w).next ∧ (t.walkNo w).node = (s.walkNo w).node)) ∧
  (s.walkFree w = true → (s.walkNo w).state = .armed →
    (s.hubUnacked (s.walkNo w).ctx [] = true → exec (.itineraryNodeStart w) s = .next s) ∧
    (s.hubUnacked (s.walkNo w).ctx [] = false → ∃ t, exec (.itineraryNodeStart w) s = .next t ∧ (t.walkNo w).state ≠ .armed)) ∧
  (s.walkFree w = true → s.nodeEnd (s.walkNo w) = .complete none →
    ((s.walkNo w).next = 0xFFFF → ∃ t, exec (.nodeComplete w) s = .next t ∧ (t.walkNo w).state = .ended 0 0) ∧
    ((s.walkNo w).next ≠ 0xFFFF → ∃ t, exec (.nodeComplete w) s = .next t ∧ (t.walkNo w).state = .atNode ∧ (t.walkNo w).node = (s.walkNo w).next ∧
      t.mem = s.mem)) ∧
  (s.passRuns p = true →
    (∀ core tr q1, core < 64 → s.tilesOwned core < 2 → (s.pass p).nextRender = some (tr, q1) →
      let u := { s with nonce := s.nonce + 1 }.updPass p fun _ => { q1 with runs := q1.runs ++ [{ tr with core := core, order := s.nonce }] }
      u.granuleLoad core ≤ Config.granulesPerCore → (∀ x ∈ (s.pass p).phaseVas tr.isPartial, u.phaseRoom (s.pass p) core x.1 x.2 = true) →
      exec (.tileAssign p core) s = .next u) ∧
    (∀ page s1 d, (s.pass p).binned = false → (s.pass p).todo = [] →
      s.readCluster (s.pass p).at_ (s.pass p).cuts (s.pass p).graph (s.pass p).recNo = .ok (s1, d) →
      (d.triangle (s.pass p).tri = none → ∃ t, exec (.binTriangle p page) s = .next t ∧ (t.pass p).badtri = satInc (s.pass p).badtri ∧
        (t.pass p).culled = (s.pass p).culled) ∧
      (∀ vs, d.triangle (s.pass p).tri = some vs → (s.pass p).transform vs = none → ∃ t, exec (.binTriangle p page) s = .next t ∧
        (t.pass p).culled = satInc (s.pass p).culled ∧ (t.pass p).badtri = (s.pass p).badtri) ∧
      (∀ vs pr, d.triangle (s.pass p).tri = some vs → vs.length = 3 → (s.pass p).transform vs = some pr →
        (∀ x y, x < (s.pass p).tx → y < (s.pass p).ty → (y * (s.pass p).tx + x ∈ (s.pass p).tilesOf pr ↔
          (∃ a ∈ pr.sx, a < 16384 * (x + 1)) ∧ (∃ a ∈ pr.sx, (16384 * x : Int) ≤ a) ∧
          (∃ a ∈ pr.sy, a < 16384 * (y + 1)) ∧ ∃ a ∈ pr.sy, (16384 * y : Int) ≤ a)) ∧
        ((s.pass p).freePage page = none → (∀ l ∈ (s.pass p).lists, l.count = 0) → ∃ t, exec (.binTriangle p page) s = .next t ∧
          (t.pass p).todo = ((s.pass p).tilesOf pr).map (fun tile => (tile, 128 * (s.pass p).recNo + (s.pass p).tri)) ∧
          (t.pass p).lists = (s.pass p).lists ∧ (t.pass p).culled = (s.pass p).culled ∧ (t.pass p).badtri = (s.pass p).badtri))) ∧
    (∀ page tile pr, let q := s.pass p
      let l := q.listOf tile
      q.binned = false → q.todo = [(tile, pr)] → q.flushing = false →
      (∀ i s1, l.count = 0 → q.freePage page = some i → q.low ≤ q.npage - (q.used.length + 1) →
        s.engineWrite q.ctx hubCore accWrite (q.arena + 4096 * i)
          (leBytes 4 tile ++ leBytes 4 1 ++ leBytes 4 pr ++ leBytes 4 0xFFFFFFFF ++ List.replicate 4080 0) = .ok s1 →
        ∃ t, exec (.binTriangle p page) s = .next t ∧ t.mem = s1.mem ∧ (t.pass p).todo = [] ∧ (t.pass p).used = i :: q.used ∧
          (t.pass p).listOf tile = { tile := tile, pages := l.pages ++ [i], count := 1, last := pr, inPage := 1, used := 0 }) ∧
      (∀ s1 s2, 0 < l.count → let enc := base128 8 (pr - l.last)
        let here := q.arena + 4096 * l.pages.getLastD 0
        l.used + enc.length ≤ 4080 → s.engineWrite q.ctx hubCore accWrite (here + 16 + l.used) enc = .ok s1 →
        s1.engineWrite q.ctx hubCore accWrite (here + 4) (leBytes 4 (l.inPage + 1)) = .ok s2 →
        ∃ t, exec (.binTriangle p page) s = .next t ∧ t.mem = s2.mem ∧ (t.pass p).todo = [] ∧ (t.pass p).used = q.used ∧
          (t.pass p).listOf tile = { l with tile := tile, count := l.count + 1, last := pr, inPage := l.inPage + 1, used := l.used + enc.length })) ∧
    (∀ tr tile, s.latent = [] → (s.pass p).runs = [tr] → tr.tile = tile → tr.busy = [] → s.phaseTurn tr = true →
      let q := s.pass p
      (tr.phase = 0 → tile ∉ q.saved → q.doff + 0x4000 ≤ q.poff ∨ q.poff + 0x4000 ≤ q.doff → ∃ t r, exec (.renderPhaseStart p tile) s = .next t ∧
        (t.pass p).runs = [r] ∧ r.phase = 1 ∧ (∀ k < 4096, seg32 r.seg (q.doff + 4 * k) = q.clearz ∧ seg32 r.seg (q.poff + 4 * k) = 0xFFFFFFFF) ∧
        ∀ a, (a < q.doff ∨ q.doff + 0x4000 ≤ a) → (a < q.poff ∨ q.poff + 0x4000 ≤ a) → readByte r.seg a = 0) ∧
      (∀ s1 m, tr.phase = 0 → tile ∈ q.saved → s.reload q tile tr.core = .ok (s1, m) → ∃ t r, exec (.renderPhaseStart p tile) s = .next t ∧
        (t.pass p).runs = [r] ∧ r.phase = 1 ∧ r.seg = m ∧ t.mem = s1.mem) ∧
      (∀ s1 s2 n pr, tr.phase = 1 → s.readList q tr.core tr.list.pages.length (tr.list.pages.headD 0) = .ok (s1, [n]) →
        s1.readPrim q tr.core n = .ok (s2, some pr) → pr.translucent = false → n < 2 ^ 32 →
        q.doff + 0x4000 ≤ q.poff ∨ q.poff + 0x4000 ≤ q.doff → q.doff + 0x4000 ≤ q.loff + 0x80000 ∨ q.loff + 0x81000 ≤ q.doff →
        q.poff + 0x4000 ≤ q.loff + 0x80000 ∨ q.loff + 0x81000 ≤ q.poff → (∀ k < 4096, readByte tr.seg (q.loff + 0x80000 + k) = 0) →
        ∃ t r, exec (.renderPhaseStart p tile) s = .next t ∧ (t.pass p).runs = [r] ∧ r.phase = 2 ∧
          ∀ k < 4096, let x := 64 * (tile % q.tx) + k % 64
            let y := 64 * (tile / q.tx) + k / 64
            let z := (pr.bary x y).1
            let hit := x < q.width ∧ y < q.height ∧ pr.covers x y = true ∧
              beats z n (seg32 tr.seg (q.doff + 4 * k)) (seg32 tr.seg (q.poff + 4 * k)) = true
            (hit → seg32 r.seg (q.doff + 4 * k) = z % 2 ^ 32 ∧ seg32 r.seg (q.poff + 4 * k) = n ∧ k ∈ r.changed) ∧
            (¬hit → seg32 r.seg (q.doff + 4 * k) = seg32 tr.seg (q.doff + 4 * k) ∧
              seg32 r.seg (q.poff + 4 * k) = seg32 tr.seg (q.poff + 4 * k) ∧ (k ∈ r.changed ↔ k ∈ tr.changed))) ∧
      (tr.phase = 2 → tr.changed = [] → tr.unshaded = [] → ∃ t r, exec (.renderPhaseStart p tile) s = .next t ∧ (t.pass p).runs = [r] ∧
        r.phase = (if tr.isPartial then 6 else 3) ∧ r.seg = tr.seg ∧ r.busy = [] ∧ t.launches = s.launches) ∧
      (tr.phase = 3 ∨ tr.phase = 5 → ∃ t r, exec (.renderPhaseStart p tile) s = .next t ∧ (t.pass p).runs = [r] ∧ r.phase = tr.phase + 1 ∧
        r.busy = [s.launches.length] ∧ t.launches.length = s.launches.length + 1 ∧
        (t.launch s.launches.length).origin = .phase p 0 ∧ (t.launch s.launches.length).onCore = some tr.core ∧
        (t.launch s.launches.length).seed = .tile (BitVec.ofNat 32 tile) (BitVec.ofNat 32 (64 * (tile % q.tx) + 64 * (tile / q.tx) * 65536))) ∧
      (tr.phase = 4 → ∃ t, exec (.renderPhaseStart p tile) s = .next t ∧ (t.pass p).runs.map (·.phase) = [5] ∧
        (t.pass p).runs.map (·.seg) = [q.blend tr.seg]) ∧
      (tr.phase = 6 → tr.isPartial = false → ∃ t, exec (.renderPhaseStart p tile) s = .next t ∧ (t.pass p).runs.map (·.phase) = [7]) ∧
      (∀ s1 n, tr.phase = 6 → tr.isPartial = true → tr.saveAt = 0 →
        s.saveChunks q.ctx tr.core ((List.range (q.capsz / 256)).flatMap fun c =>
          let b := readBytes tr.seg (256 * c) 256
          let pay := (chunkEncode b).2
          [(q.capbase + tile * q.capsz + 256 * c, pay ++ List.replicate ((16 - pay.length % 16) % 16) 0),
           (q.caphdr + 4 * (tile * (q.capsz / 256) + c), leBytes 4 (chunkHeader (chunkEncode b).1 pay.length (chunkCheck b)))]) = (s1, n, none) →
        ∃ t, exec (.renderPhaseStart p tile) s = .next t ∧ t.mem = s1.mem ∧ (t.pass p).runs.map (·.phase) = [7] ∧ tile ∈ (t.pass p).saved ∧
          ∀ i, i ∈ (t.pass p).used ↔ i ∈ q.used ∧ i ∉ tr.list.pages)) ∧
    (∀ s1, (s.pass p).binned = true → (s.pass p).tx * (s.pass p).ty ≤ (s.pass p).finals → (s.pass p).partialsDue = [] →
      (∀ tr ∈ (s.pass p).runs, tr.phase = 7) →
      s.engineWrite (s.pass p).ctx hubCore accWrite ((s.pass p).descVa.toNat + 0xC0) (s.pass p).counts = .ok s1 →
      ∃ t, exec (.rasterNodeComplete p) s = .next t ∧ (t.pass p).done = true))

/-! ## Peers and the management side -/

/-- R402, R421, R422, R424, R425, R427: a peer's request is performed here as an atomic step, an object's arrival, a write or a read,
while the main side runs and a fabric is joined; a request that is not answered in time is dropped, counted and posted, and an atom's
destination gets zero; a joined peer's arrival counts under its KEY, whether a launch under it runs here yet or not, and the last one
that an open phase awaits completes it; ports join, are refused, and fall; the control role stays when a link goes down. What a
request names, and how a peer's arrivals are told, are the model's reading (assumptions 37, 55). -/
def Obligations.PeersAndPorts : Prop := ∀ (s : State),
  (∀ req, s.mgmt.held = true ∨ s.fabricUp = false → exec (.remoteRequest req) s = .next s) ∧
  (∀ dev pa (op : AtomOp) v, let n := op.bytes
    s.mgmt.held = false → s.fabricUp = true → Quiet s → pa % n = 0 → (s.region pa).isMain = true → (s.region (pa + n - 1)).isMain = true → pa + n ≤ peerBase →
    op.packed = none → let x := s.peekNat pa n
    let w := v.toNat % 2 ^ (8 * n)
    ∃ t, exec (.remoteRequest (.atom dev pa op v)) s = .next t ∧ t.reply = leBytes n x ∧ SameOutside s t pa n ∧
      t.peekBytes pa n = leBytes n (if op.writes x w then op.apply x w else x)) ∧
  (∀ dev pa, s.mgmt.held = false → s.fabricUp = true → Quiet s → pa % 8 = 0 → (s.region pa).isMain = true →
    (s.region (pa + 7)).isMain = true → pa + 8 ≤ peerBase → let w := s.peekNat pa 8
    ∃ t, exec (.remoteRequest (.arrive dev pa)) s = .next t ∧ SameOutside s t pa 8 ∧
      t.peekNat pa 8 = if objExpect w = 0 then w else objStep w 1) ∧
  (∀ dev pa (bs : List Byte), s.mgmt.held = false → s.fabricUp = true → Quiet s → bs ≠ [] → pa + bs.length ≤ peerBase →
    (s.region pa).isMain = true → (s.region (pa + bs.length - 1)).isMain = true →
    (∃ t, exec (.remoteRequest (.write dev pa bs)) s = .next t ∧ t.peekBytes pa bs.length = bs ∧ SameOutside s t pa bs.length) ∧
    (∃ t, exec (.remoteRequest (.read dev pa bs.length)) s = .next t ∧ t.reply = s.peekBytes pa bs.length ∧ t.mem = s.mem)) ∧
  (∀ k r, s.remotes[k]? = some r → r.born + Config.remoteBound ≤ s.clockOf r.core → assocGet s.contexts r.ctx ≠ none →
    (r.agent = none → ∃ t, exec (.remoteTimeout k) s = .next t ∧ t.remotes = s.remotes.eraseIdx k ∧
      (t.ctx r.ctx).dropcnt = satInc (s.ctx r.ctx).dropcnt ∧ Posted s t 3 r.ctx 0xFFFF (BitVec.ofNat 64 r.pa) 0) ∧
    (∀ i ci (d : BitVec 10), r.agent = some i → r.op = none → Alone s ci i → (s.agent i).wait = .remote d 4 → (s.agent i).drover = false →
      (s.agent i).stand = .caravan ci → (∀ a ∈ s.agents, ∀ q o, a.wait ≠ .same q o) → d.toNat < 0x200 →
      (s.hub.evsize = 0 ∨ s.hub.evwr - s.hub.evrd = s.hub.evsize) →
      s.fetch ci ≠ [] → (s.caravan ci).pc + BitVec.ofNat 32 (sizeOfParcels (s.fetch ci)) ≠ blockEnd (s.caravan ci).hdr (s.caravan ci).len →
      ∃ t, exec (.remoteTimeout k) s = .next t ∧ t.remotes = s.remotes.eraseIdx k ∧ (t.agent i).wait = .ready ∧
        (t.agent i).greg d.toNat = 0 ∧ (t.ctx r.ctx).dropcnt = satInc (s.ctx r.ctx).dropcnt)) ∧
  (∀ k r, s.remotes[k]? = some r →
    (s.clockOf r.core < r.born + Config.remoteBound → exec (.remoteTimeout k) s = .next s) ∧
    (s.fabricUp = false ∨ r.born + Config.remoteBound ≤ s.clockOf r.core →
      exec (.acknowledgement (s.pending.length + k)) s = .next s) ∧
    (s.fabricUp = true → s.clockOf r.core < r.born + Config.remoteBound → r.agent = none →
      ∃ t, exec (.acknowledgement (s.pending.length + k)) s = .next t ∧ t.remotes = s.remotes.eraseIdx k ∧ t.contexts = s.contexts ∧
        t.hub = s.hub ∧ t.mem = s.mem)) ∧
  (∀ dev key sc, s.mgmt.held = true ∨ s.fabricUp = false → exec (.peerArrival dev key sc) s = .next s) ∧
  (∀ dev key sc, s.mgmt.held = false → s.fabricUp = true → ∃ t, exec (.peerArrival dev key sc) s = .next t ∧
    t.agents = s.agents ∧ t.mem = s.mem ∧ t.launches = s.launches ∧
    (∀ n, t.peerThere key sc n dev = decide (n < s.peerCount key sc dev + 1)) ∧
    (∀ key' sc' n d, (key', sc', d) ≠ (key, sc, dev) → t.peerThere key' sc' n d = s.peerThere key' sc' n d) ∧
    (∀ k : BarKey, k.scope ≠ sc → t.barrierAt k = s.barrierAt k) ∧
    (∀ (k : BarKey) scope key' m, let b := s.barrierAt k
      k.scope = sc → b.scope = some scope → b.key = k → (s.launch k.launch).join = some (key', m) →
      let awaited (d : Nat) : Prop := d < 1024 ∧ (s.otherPeers scope &&& m).toNat.testBit d = true
      let all : Prop := (∀ i ∈ b.parts, i ∈ b.arrived ∨ (s.agent i).stand = .exited) ∧ ∀ d, awaited d → t.peerThere key' sc b.phase d = true
      (all → t.barrierAt k = { b with phase := b.phase + 1, scope := none, arrived := [], parts := [] }) ∧
      (¬all → t.barrierAt k = b))) ∧
  (∀ port, port < 16 → s.mgmt.ports.length = 16 →
    (s.mgmt.held = false → ∀ dup : Bool, ∃ t, exec (.portJoin port dup) s = .next t ∧
      t.mgmt.ports = s.mgmt.ports.set port (if dup then .refused else .joined) ∧ t.mem = s.mem) ∧
    (s.mgmt.ports[port]? ≠ some .refused → ∃ t, exec (.ualinkPortDown port) s = .next t ∧
      t.mgmt.ports = s.mgmt.ports.set port .down ∧ t.mem = s.mem) ∧
    (s.mgmt.ports[port]? = some .refused → exec (.ualinkPortDown port) s = .next s)) ∧
  (∀ port, ∃ t, exec (.pcieLinkDown port) s = .next t ∧ t.mgmt.pcieUp = s.mgmt.pcieUp.set port false ∧ t.mgmt.control = s.mgmt.control ∧ t.mem = s.mem)

/-- R2, R402, R417, R418, R419, R420, R422: the management port sets the device number while the main side is held, names the control
port, which takes effect at the release, holds, releases and resets the main side, updates the inactive slot, answers for identity and
sensors, caps power; at 105.0 °C or above a THERMAL event is posted and the main side is held. What an image verifies to, what SPDM answers and what a sensor reads are free values of the
model (assumptions 39, 40, 41). -/
def Obligations.ManagementActs : Prop := ∀ (s : State),
  (∀ n, n < 1024 → s.mgmt.held = true → ∃ t, exec (.devnumSet n) s = .next t ∧ t.mgmt = { s.mgmt with devnum := n }) ∧
  (s.mgmt.held = false → ∀ n, exec (.devnumSet n) s = .next s) ∧
  (∀ port, port < 2 → ∃ t, exec (.hostsel port) s = .next t ∧ t.mgmt = { s.mgmt with hostsel := some port }) ∧
  (s.mgmt.held = true → s.mgmt.recovery = false → s.mgmt.lpddr = true → s.mgmt.bootable s.mgmt.active = true →
    ∃ t, exec .mainRelease s = .next t ∧ t.mgmt.held = false ∧ t.mgmt.control = s.mgmt.hostsel.getD 0 ∧ t.mgmt.pcieUp = [true, true] ∧
      t.mem = s.mem ∧ t.agents = s.agents) ∧
  (s.mgmt.held = true → s.mgmt.recovery = false → s.mgmt.bootable s.mgmt.active = false → s.mgmt.bootable (1 - s.mgmt.active) = false →
    ∃ t, exec .mainRelease s = .next t ∧ t.mgmt.held = true ∧ t.mgmt.recovery = true) ∧
  (∃ t, exec .mainHold s = .next t ∧ t.mgmt.held = true ∧ t.agents = [] ∧ t.contexts = [] ∧ t.hub.evbase = 0 ∧ t.hub.evsize = 0 ∧
    t.hub.notifydrop = s.hub.notifydrop ∧ t.logs = s.logs ∧ t.mgmt.devnum = s.mgmt.devnum ∧
    ∀ a, a < scratchBase → readByte t.mem a = readByte s.mem a) ∧
  (s.mgmt.held = false → s.mgmt.lpddr = true → s.mgmt.bootable (s.mgmt.pendingActive.getD s.mgmt.active) = true →
    ∃ t, exec .mainReset s = .next t ∧ t.mgmt.held = false ∧ t.mgmt.active = s.mgmt.pendingActive.getD s.mgmt.active ∧ t.agents = [] ∧
      t.contexts = [] ∧ t.logs = s.logs) ∧
  (s.mgmt.held = false → s.mgmt.bootable (s.mgmt.pendingActive.getD s.mgmt.active) = false →
    s.mgmt.bootable (1 - s.mgmt.pendingActive.getD s.mgmt.active) = false →
    ∃ t, exec .mainReset s = .next t ∧ t.mgmt.held = true ∧ t.mgmt.recovery = true ∧ t.agents = [] ∧ t.contexts = [] ∧ t.logs = s.logs) ∧
  (∀ image, s.mgmt.recovery = false → s.mgmt.active ≤ 1 → ∃ t, exec (.firmwareUpdate image) s = .next t ∧
    t.mgmt.slot (1 - s.mgmt.active) = image ∧ t.mgmt.slot s.mgmt.active = s.mgmt.slot s.mgmt.active ∧ t.mgmt.active = s.mgmt.active ∧
    t.mgmt.pendingActive = if Config.imageVerifies image then some (1 - s.mgmt.active) else none) ∧
  (∀ req, ∃ t, exec (.spdmRequest .management req) s = .next t ∧
    t.reply = Config.spdmAnswer s.nonce req (s.mgmt.slot s.mgmt.active) s.mgmt.minSvn s.configMeasured ∧ t.mgmt = s.mgmt ∧ t.mem = s.mem) ∧
  (∀ sensor, ∃ t, exec (.sensorRead sensor) s = .next t ∧ t.reply.length = 4 ∧ t.mem = s.mem ∧ t.agents = s.agents) ∧
  (∀ watts, ∃ t, exec (.powerCapSet watts) s = .next t ∧ t.mgmt = { s.mgmt with powerCap := watts } ∧ t.agents = s.agents) ∧
  (∀ die, ∀ up : Bool, die < 4 → ∃ t, exec (.warningTemperature die up) s = .next t ∧ (∀ d, d ∈ t.mgmt.hot ↔ (d ∈ s.mgmt.hot ∧ d ≠ die) ∨ (up = true ∧ d = die)) ∧
    t.agents = s.agents) ∧
  (∀ sensor celsius, 0x42D20000 ≤ celsius.toNat → celsius.toNat ≤ 0x7F800000 → ∃ t, exec (.thermal sensor celsius) s = .next t ∧
    t.mgmt.held = true ∧ t.mgmt.thermal = true ∧ t.mgmt.reports = s.mgmt.reports ++ ["thermal"] ∧ t.agents = [] ∧ t.contexts = [] ∧
    ∃ u, Posted s u 9 0xFFFF 0xFFFF (BitVec.ofNat 64 sensor) (celsius.setWidth 64) ∧
      ∀ a, a < scratchBase ∨ scratchBase + 4 * scratchWindow ≤ a → readByte t.mem a = readByte u.mem a) ∧
  (∀ sensor celsius, celsius.toNat < 0x42D20000 → exec (.thermal sensor celsius) s = .next s)

namespace Sys2Proof.Machine

/-! ## Terms of the claims about results and steps -/

/-- What register word `k` of an agent last had written; registers are pairs of words in a drover. -/
def Agent.word (a : Agent) (k : Nat) : Word := sparseGet 0 a.regs k

/-- A read of register word `k` is sure to find it (R33, R380). -/
def Agent.sure (a : Agent) (k : Nat) : Prop := a.trapMode = true ∨ k < a.live ∨ k ∈ a.wrote

/-- The register words a result of `r` goes to (R17, R74, R75). -/
def dstWords (drover : Bool) (d : BitVec 10) (r : Res) : List Nat :=
  if 0x200 ≤ d.toNat then []
  else if drover then [2 * d.toNat, 2 * d.toNat + 1]
  else (List.range (r.width / 32)).map fun j => d.toNat + j

/-- Word `j` of a result as the registers take it; a drover's 32-bit result is extended (R96). -/
def wordOfResult (drover : Bool) (r : Res) (v : QWord) (j : Nat) : Word :=
  if drover ∧ r.width ≤ 32 ∧ j = 1 then (if r = .s32 ∧ v.getLsbD 31 then BitVec.allOnes 32 else 0)
  else v.extractLsb' (32 * j) 32

/-- The parcel at offset `off` of a context's code (R5, R26). -/
def State.parcelAt (s : State) (ctx off : Nat) : Word := BitVec.ofNat 32 (s.peekNat ((s.ctx ctx).codeBase + off) 4)

end Sys2Proof.Machine

/-- A row of the opcode table that has words, and no event. -/
def Sys2Proof.Instr.hasWord (i : Instr) : Prop := i.encoded ≠ .noWord

/-! ## Results, steps, encodings -/

/-- R16, R17, R20, R24, R31, R74, R75, R96: what an instruction whose only effect is a result leaves behind. Its destination's
registers take the result, each word at its place; the latches shift; the flags of a wanting thread accumulate; a thread that takes a
token has made an acquire (R290); every other register, special register, agent and caravan, every byte, and every other piece of the
machine stays as it was; where a result goes to a queue, its push is a release, whose stores a slice performs. The caravan then goes
on to the next instruction, or, at the end of the block, every wanting thread to the fall-through header. By how much the core's
CYCLE rises is the model's choice (assumption 44). -/
def Obligations.ResultsReachOnlyTheirDestination : Prop :=
  ∀ (s : State) (ci : Nat) (g : Sig) (f : Fields) (fn : List Lane → List LaneRes),
  Ready s ci g f → (fn (s.lanes ci g f)).length = (s.lanes ci g f).length → (∀ r ∈ fn (s.lanes ci g f), r.late = false) →
  let t := s.afterResults ci g f fn
  let w := s.completed (s.atWork ci g f) ci g f ((s.lanes ci g f).zip (fn (s.lanes ci g f)))
  (∀ i, i ∉ (s.lanes ci g f).map (·.agent) → w.agent i = s.agent i) ∧
  (∀ x ∈ (s.lanes ci g f).zip (fn (s.lanes ci g f)),
    let a := s.agent x.1.agent
    let b := w.agent x.1.agent
    let r := g.resOf x.2
    let ws := if g.dst = .none then [] else dstWords a.drover f.dst r
    onlyResult { a with adv := b.adv } b ∧ b.adv = (if x.1.want = true ∧ g.pops f (s.wanting ci).length ≠ [] then [] else a.adv) ∧
    b.issued = a.issued + 1 ∧
    b.fpstat = (if x.1.want = true ∧ a.drover = false then a.fpstat ||| x.2.flags else a.fpstat) ∧
    b.latches = (if g.dst = .none then a.latches else some (resultLatch a r x.2.val (a.issued + 1)) :: a.latches.take 3) ∧
    (∀ k, k ∉ ws → b.word k = a.word k ∧ (k ∈ b.wrote ↔ k ∈ a.wrote)) ∧
    (∀ j k, ws[j]? = some k → b.word k = wordOfResult a.drover r x.2.val j ∧ b.sure k ∧ b.greg k = b.word k)) ∧
  (∀ c, c ≠ ci → w.caravan c = s.caravan c) ∧
  (∀ c, c ≠ (s.caravan ci).core → w.core c = s.core c) ∧
  ((s.caravan ci).core < s.cores.length → (w.core (s.caravan ci).core).cycle = (s.core (s.caravan ci).core).cycle + 1) ∧
  (∀ q, (∀ x ∈ g.pops f (s.wanting ci).length, x.1 ≠ q) → (g.dst = .none ∨ queueField f.dst ≠ some q) →
    w.tokens (s.caravan ci).core q = s.tokens (s.caravan ci).core q) ∧
  (g.dst = .none ∨ queueField f.dst = none → (∀ x, w.peek x = s.peek x) ∧
    w = { s with agents := w.agents, caravans := w.caravans, cores := w.cores }) ∧
  (Quiet s → w.contexts = s.contexts ∧ w.hub = s.hub) ∧
  { s with agents := w.agents, caravans := w.caravans, cores := w.cores, pending := w.pending }.SlicesOnly w ∧
  (Inside s ci f → t = { w with caravans := t.caravans } ∧ (∀ c, c ≠ ci → t.caravan c = s.caravan c) ∧
    t.caravan ci = { s.caravan ci with pc := (s.caravan ci).pc + BitVec.ofNat 32 f.size, since := (t.caravan ci).since, aged := false }) ∧
  (¬Inside s ci f → t = w.leaveBlock ci (((s.caravan ci).members.filter (·.want)).map fun m =>
    (m.agent, .to (fallHeader (s.caravan ci).hdr (s.caravan ci).len))))

/-- R26, R64, R88: a step runs the agenda's next item. An issue of a caravan that may issue reads the parcels at the PC, up to
the end of the block, and runs the instruction they decode to; what does not decode raises ILLEGAL_INSTRUCTION; a caravan that
may not issue, or whose turn it is not, does nothing. The fetch meets what errors lie in its sectors (R208). An event runs as it is; time passes on every core. With nothing on the agenda, the model's own
policy names the item (DESIGN CHOICE of assumption 9). -/
def Obligations.StepRunsTheDecodedInstruction : Prop := ∀ (s : State),
  (∀ ci rest, s.agenda = .issue ci :: rest →
    let u := { s with agenda := rest }
    let v := { (if s.latent = [] then u else u.meetFetch ci) with focus := some ci }
    (u.mayIssue ci = false → step s = .next u) ∧
    (u.mayIssue ci = true →
      (∀ k < 4, (v.caravan ci).pc.toNat + 4 * k + 4 ≤ (blockEnd (v.caravan ci).hdr (v.caravan ci).len).toNat →
        (v.fetch ci)[k]? = some (v.parcelAt (v.block (v.caravan ci).block).ctx ((v.caravan ci).pc.toNat + 4 * k))) ∧
      (∀ k, (blockEnd (v.caravan ci).hdr (v.caravan ci).len).toNat < (v.caravan ci).pc.toNat + 4 * k + 4 → (v.fetch ci)[k]? = none) ∧
      (∀ i ps, decode (v.fetch ci) = .ok (i, ps) → step s = exec i v) ∧
      (∀ x i e, decode (v.fetch ci) = .error x → Alone v ci i → (v.agent i).trapMode = false → (v.agent i).drover = false →
        v.trapEntry (v.agent i) = some e → v.entryFault (v.agent i) e = none → v.qlockAt (v.agent i).ctx e = false →
        ∃ t, step s = .next t ∧ (t.agent i).trapMode = true ∧ (t.agent i).frame.code = 0x0001 ∧
          (t.agent i).frame.pc = (v.caravan ci).pc ∧ (t.agent i).frame.resume = (v.caravan ci).pc ∧ (t.agent i).frame.info = 0 ∧
          (t.agent i).pc = e ∧ (t.agent i).regs = (v.agent i).regs ∧ t.mem = v.mem))) ∧
  (∀ i rest, s.agenda = .event i :: rest →
    (i.hasWord → step s = .next { s with agenda := rest }) ∧
    (¬i.hasWord → step s = exec i { s with agenda := rest, focus := none })) ∧
  (∀ n rest, s.agenda = .tick n :: rest → ∃ t, step s = .next t ∧ t = { s with agenda := rest, cores := t.cores } ∧
    ∀ c < s.cores.length, t.core c = { s.core c with cycle := (s.core c).cycle + BitVec.ofNat 64 n }) ∧
  (s.agenda = [] → step s = step { s with agenda := [s.nextItem] })

/-- R65-R69, R86, R88, R90: words worked in the manual, of every format and of most families, decode to the instructions they
stand for; a block header and a reserved code are refused. -/
def Obligations.DecodesTheManualsWords : Prop :=
  decodeTableWord 64 0x0014050200600290 =
    some (.fpFma .rn .f32 (.v64 { ret := 0, mc := 0, mb := 0, ma := 0, sc := 0x280, sb := 0x281, sa := 0, nwb := 1, dst := 0x200 })) ∧
  decodeTableWord 64 0x0010048800000000 =
    some (.intAdd .s32 (.v64 { ret := 0, mc := 0, mb := 0, ma := 0, sc := 0x200, sb := 0x244, sa := 0, nwb := 0, dst := 0 })) ∧
  decodeTableWord 64 0x00000004800021C9 = some (.movB32 (.v64i { imm := 4, sa := 0x200, dst := 2 })) ∧
  decodeTableWord 64 0xFFFFFFFE00A00609 = some (.brnz (.v64i { imm := 0xFFFFFFFE, sa := 2, dst := 0x200 })) ∧
  decodeTableWord 64 0x001004010020061C =
    some (.exit (.v64 { ret := 0, mc := 0, mb := 0, ma := 0, sc := 0x200, sb := 0x200, sa := 0x200, nwb := 0, dst := 0x200 })) ∧
  decodeTableWord 64 0x2810000400805450 = some (.cvtNarrowMx .e4m3 (.v64 { ret := 0, mc := 5, mb := 0, ma := 0, sc := 0x200, sb := 2, sa := 1, nwb := 0, dst := 5 })) ∧
  decodeTableWord 64 0x001004900100470C =
    some (.shflXor (.v64 { ret := 0, mc := 0, mb := 0, ma := 0, sc := 0x200, sb := 0x248, sa := 2, nwb := 0, dst := 4 })) ∧
  decodeTableWord 64 0x0000000000605825 = some (.stPrivate .t .b32 (.v64i { imm := 0, sa := 1, dst := 0x205 })) ∧
  decodeTableWord 64 0x086070180300A9E4 =
    some (.atomCas .b64 (.v64 { ret := 0, mc := 1, mb := 0, ma := 3, sc := 0xE, sb := 0xC, sa := 6, nwb := 0, dst := 0xA })) ∧
  decodeTableWord 64 0x00100486030018B0 =
    some (.ldAcq .b32 (.v64 { ret := 0, mc := 0, mb := 0, ma := 0, sc := 0x200, sb := 0x243, sa := 6, nwb := 0, dst := 1 })) ∧
  decodeTableWord 64 0x0000001001803A15 = some (.redAdd .bf16x2 (.v64i { imm := 0x10, sa := 6, dst := 3 })) ∧
  decodeTableWord 64 0x0010048300200A88 =
    some (.barSync (.v64 { ret := 0, mc := 0, mb := 0, ma := 0, sc := 0x200, sb := 0x241, sa := 0x200, nwb := 0, dst := 0x200 })) ∧
  decodeTableWord 64 0x0000000180002C81 = some (.csrr (.v64i { imm := 1, sa := 0x200, dst := 2 })) ∧
  decodeTableWord 96 0x8000300405D90000400811A6 = some (.pairedWord {
    s0 := { op7 := 0x69, dst := 8, sa := 1, sb := 2, sc := 0x200 }, s1 := { op7 := 0x6C, dst := 5, sa := 1, sb := 3, sc := 0x200 } }) ∧
  decodeTableWord 128 0x05000000000000000008020000806B83 =
    some (.mfset { mfa := 5, mfb := 0, sci := 0, sub := 0, flags := 0, spec := 0, sc := 0x200, sb := 0x200, sa := 2, dst := 6 }) ∧
  decodeTableWord 128 0x050604120000001F83F0300800814B8B =
    some (.cvyCopy { mfa := 5, mfb := 6, sci := 1, sub := 0, flags := 0x12, spec := 0x1F83F, sc := 0xC, sb := 8, sa := 2, dst := 0x14 }) ∧
  decodeTableWord 128 0x0C0D0001000000002028000601200D0F =
    some (.mma { mfa := 0xC, mfb := 0xD, sci := 0, sub := 0, flags := 1, spec := 0x202, sc := 0x200, sb := 6, sa := 4, dst := 0x200 }) ∧
  decodeTableWord 128 0x28150400000001400120180501200C03 =
    some (.trav { mfa := 0x28, mfb := 0x15, sci := 1, sub := 0, flags := 0, spec := 0x140012, sc := 6, sb := 5, sa := 4, dst := 0x200 }) ∧
  decode [0x0A005FFF, 0, 0, 0] = .error .headerMarker ∧ decode [0xE00, 0x00100401] = .error (.reservedOpcode 0x380)

/-- R64-R69, R84-R90: the encoding of every instruction of the tables, with every operand at every value, decodes to it and
leaves what follows; and a word that decodes is the encoding of what it decodes to, so no bit of it is dropped and no two
words mean one instruction. -/
def Obligations.EncodingsRoundTrip : Prop :=
  (∀ (i : Instr) (rest : List Word), i.hasWord → i.wf = true → decode (encode i ++ rest) = .ok (i, rest)) ∧
  (∀ (ps rest : List Word) (i : Instr), decode ps = .ok (i, rest) → i.hasWord ∧ ps = encode i ++ rest)

/-- Every step of the machine goes on, whatever the agenda names: no instruction and no event ends in a fault or a refusal. -/
def Obligations.EveryStepGoesOn : Prop := ∀ s : State, Safe (step s)

/-- The model holds memory in one form, which every step keeps: addresses strictly rising, and no entry that holds what an unlisted
address reads as; so two memories that read alike are one list. The form is the model's own presentation of the bytes of local
storage (assumption 2). -/
def Obligations.MemoryStaysCanonical : Prop :=
  (∀ s t : State, MemoryOk s → step s = .next t → MemoryOk t) ∧
  ∀ m n : Memory, m.wf = true → n.wf = true → (∀ a, readByte m a = readByte n a) → m = n

/-- R191, R387, R401, R402, R404: reset leaves the main side held with its links down, nothing carved, no context, block, thread or
queue, the ring's registers and EVLOST zero and the first sequence number 1, with memory in canonical form; that every byte of
memory reads zero then is the model's choice (assumption 2), and that power-on holds the main side is presumed (assumption 7). A main-side reset reads zero in the ring's registers from any state. -/
def Obligations.ResetState : Prop :=
  let s := State.reset
  MemoryOk s ∧ (∀ pa, s.peek pa = 0) ∧ s.mgmt.held = true ∧ (∀ p, s.hostUp p = false) ∧ s.fabricUp = false ∧
  (∀ d < 4, s.carve[d]? = some 0) ∧ s.contexts = [] ∧ s.blocks = [] ∧ s.agents = [] ∧ s.caravans = [] ∧ s.launches = [] ∧
  (∀ q, (s.queue q).live = false) ∧ s.hub.seq = 1 ∧ s.cores.length = 64 ∧ (∀ c < 64, ∀ q < 8, s.tokens c q = []) ∧
  (∀ u : State, ∀ off ∈ [0x10, 0x18, 0x1C, 0x20, 0x24], ∃ t, exec .mainHold u = .next t ∧ t.bar0Read 0 off = 0)

namespace Sys2Proof.Machine

/-- Agent `i`, a thread alone in caravan `ci`, which has the issue, may take a trap: its routine's header at `e` can be entered. -/
structure MayTrap (s : State) (ci i : Nat) (e : Word) : Prop where
  focus : s.focus = some ci
  alone : Alone s ci i
  ready : (s.agent i).wait = .ready
  thread : (s.agent i).drover = false
  running : (s.agent i).trapMode = false
  entry : s.trapEntry (s.agent i) = some e
  enters : s.entryFault (s.agent i) e = none
  unlocked : s.qlockAt (s.agent i).ctx e = false

/-- Thread `i` has taken the trap and stands at its routine; nothing else of it, of storage or of a queue has changed (R19, R378,
R379). -/
structure TrapTaken (s t : State) (ci i : Nat) (e : Word) (code : BitVec 16) (info : Word) (addr : DWord) : Prop where
  mode : (t.agent i).trapMode = true
  code : (t.agent i).frame.code = code
  pc : (t.agent i).frame.pc = (s.caravan ci).pc
  hdr : (t.agent i).frame.hdr = (s.caravan ci).hdr
  resume : (t.agent i).frame.resume = (s.caravan ci).pc
  info : (t.agent i).frame.info = info
  addr : (t.agent i).frame.addr = addr
  seq : (t.agent i).frame.seq = s.hub.seq ∧ t.hub.seq = s.hub.seq + 1
  held : (t.agent i).frame.held = (s.agent i).latches ∧ (t.agent i).latches = emptyLatches
  fpstat : (t.agent i).frame.fpstat = (s.agent i).fpstat ∧ (t.agent i).fpstat = (s.agent i).fpstat
  stands : (t.agent i).pc = e ∧ (t.agent i).stand = .header
  kept : (t.agent i).regs = (s.agent i).regs ∧ (t.agent i).spill = (s.agent i).spill ∧ (t.agent i).adv = (s.agent i).adv
  others : ∀ j, j ≠ i → t.agent j = s.agent j
  storage : t.mem = s.mem ∧ t.pending = s.pending ∧ ∀ sp x, t.spaceByte i sp x = s.spaceByte i sp x
  queues : ∀ c q, t.tokens c q = s.tokens c q

end Sys2Proof.Machine

/-- R16, R19, R76, R87, R112, R212: a thread's faulting instruction takes its trap and does nothing else. An integer add whose word the
rules refuse raises ILLEGAL_INSTRUCTION, and one that names a register past the launch's count ILLEGAL_OPERAND with the field; an
access of t: or k: out of its space raises TILE_BOUND, before ALIGNMENT; one of v: that is misaligned raises ALIGNMENT, and else
the first fault of its pages, at the VA of the faulting part; csrr and csrw of a number with no such register raise
ILLEGAL_INSTRUCTION (R23). R156: a helper that would fault raises nothing, and its destination gets zero. -/
def Obligations.FaultsArePrecise : Prop :=
 (∀ (s : State) (ci : Nat) (ty : IntTy) (o : Operands),
  let f := o.fields
  let g := typedSig ty
  s.focus = some ci → (∀ m ∈ (s.caravan ci).members, (s.agent m.agent).wait = .ready ∧ m.agent < s.agents.length) → s.wanting ci ≠ [] →
  (∀ m ∈ s.wanting ci, s.staticFault (s.caravan ci) (s.agent m.agent) g f = none) → Inside s ci f →
  s.queuesReady (s.lead ci) (g.pops f (s.wanting ci).length) (g.pushes f (s.wanting ci).length) = true →
  ∃ t, exec (.intAdd ty o) s = .next t ∧ (Quiet s → t.hub.seq = s.hub.seq) ∧ ∀ m ∈ s.members ci, m.want = false →
    s.staticFault (s.caravan ci) (s.agent m.agent) g f ≠ none →
    (t.agent m.agent).trapMode = (s.agent m.agent).trapMode ∧ (t.agent m.agent).stand = (s.agent m.agent).stand ∧
    (∀ k ∈ dstWords (s.agent m.agent).drover f.dst g.dst, (t.agent m.agent).word k = 0) ∧
    ∀ k, k ∉ dstWords (s.agent m.agent).drover f.dst g.dst → (t.agent m.agent).word k = (s.agent m.agent).word k) ∧
 ∀ (s : State) (ci i : Nat) (e : Word), MayTrap s ci i e → ∀ (o : Operands),
  let f := o.fields
  (∀ ty, s.checkKind (s.caravan ci) (s.agent i) (typedSig ty) f = false ∨ checkFields (typedSig ty) f = false →
    ∃ t, exec (.intAdd ty o) s = .next t ∧ TrapTaken s t ci i e 0x0001 0 0) ∧
  (∀ ty, s.checkKind (s.caravan ci) (s.agent i) (typedSig ty) f = true → checkFields (typedSig ty) f = true →
    (f.dst.toNat < 0x200 → (s.launch (s.agent i).launch).regs ≤ f.dst.toNat →
      ∃ t, exec (.intAdd ty o) s = .next t ∧ TrapTaken s t ci i e 0x0002 0 0) ∧
    (s.checkDst (s.agent i) (typedSig ty) f = none → f.sa.toNat < 0x200 → (s.launch (s.agent i).launch).regs ≤ f.sa.toNat →
      ∃ t, exec (.intAdd ty o) s = .next t ∧ TrapTaken s t ci i e 0x0002 1 0)) ∧
  (∀ g : Sig, g = { dst := .w32, b := .b32, drover := true } → Ready s ci g f → ∀ l ∈ s.lanes ci g f, (∀ row ∈ csrTable s i, row.no ≠ l.b.toNat % 2 ^ 32) →
    ∃ t, exec (.csrr o) s = .next t ∧ TrapTaken s t ci i e 0x0001 0 0) ∧
  (∀ g : Sig, g = { b := .b32, c := .b32, drover := true } → Ready s ci g f → ∀ l ∈ s.lanes ci g f, l.b.toNat % 2 ^ 32 ∉ csrNumbersWritten (s.agent i) →
    ∃ t, exec (.csrw o) s = .next t ∧ TrapTaken s t ci i e 0x0001 0 0) ∧
  (∀ (sp : PrivSpace) (ty : LoadTy), let g : Sig := { dst := ty.res, a := .b32, b := .b32 }
    Ready s ci g f → ∀ l ∈ s.lanes ci g f,
    (privOffset l < 0 ∨ privOffset l + ty.bytes > s.spaceSize (s.agent i) sp →
      ∃ t, exec (.ldPrivate sp ty o) s = .next t ∧ TrapTaken s t ci i e 0x0005 sp.info (BitVec.ofInt 64 (privOffset l))) ∧
    (0 ≤ privOffset l → privOffset l + ty.bytes ≤ s.spaceSize (s.agent i) sp → privOffset l % ty.bytes ≠ 0 →
      ∃ t, exec (.ldPrivate sp ty o) s = .next t ∧ TrapTaken s t ci i e 0x0009 sp.info (BitVec.ofInt 64 (privOffset l)))) ∧
  (∀ (sp : PrivSpace) (ty : StoreTy), let g : Sig := { a := .b32, b := .b32, c := ty.pos }
    Ready s ci g f → ∀ l ∈ s.lanes ci g f,
    (privOffset l < 0 ∨ privOffset l + ty.bytes > s.spaceSize (s.agent i) sp →
      ∃ t, exec (.stPrivate sp ty o) s = .next t ∧ TrapTaken s t ci i e 0x0005 sp.info (BitVec.ofInt 64 (privOffset l))) ∧
    (0 ≤ privOffset l → privOffset l + ty.bytes ≤ s.spaceSize (s.agent i) sp → privOffset l % ty.bytes ≠ 0 →
      ∃ t, exec (.stPrivate sp ty o) s = .next t ∧ TrapTaken s t ci i e 0x0009 sp.info (BitVec.ofInt 64 (privOffset l)))) ∧
  (∀ ty : LoadTy, let g : Sig := { dst := ty.res, a := .b64, b := .b32 }
    Ready s ci g f → ∀ l ∈ s.lanes ci g f,
    (vaOffset l % ty.bytes ≠ 0 → ∃ t, exec (.ldV ty o) s = .next t ∧ TrapTaken s t ci i e 0x0009 2 (BitVec.ofNat 64 (vaOffset l))) ∧
    (∀ x, vaOffset l % ty.bytes = 0 → s.laneAccess l accLoad (vaOffset l) ty.bytes = .error x →
      ∃ t, exec (.ldV ty o) s = .next t ∧
        TrapTaken s t ci i e x.code.code (BitVec.ofNat 32 (if x.upper then 4 else 0)) (BitVec.ofNat 64 x.va))) ∧
  (∀ ty : StoreTy, let g : Sig := { a := .b64, b := .b32, c := ty.pos }
    Ready s ci g f → ∀ l ∈ s.lanes ci g f,
    (vaOffset l % ty.bytes ≠ 0 → ∃ t, exec (.stV ty o) s = .next t ∧ TrapTaken s t ci i e 0x0009 2 (BitVec.ofNat 64 (vaOffset l))) ∧
    (∀ x, vaOffset l % ty.bytes = 0 → s.laneAccess l accStore (vaOffset l) ty.bytes = .error x →
      ∃ t, exec (.stV ty o) s = .next t ∧
        TrapTaken s t ci i e x.code.code (BitVec.ofNat 32 (if x.upper then 5 else 1)) (BitVec.ofNat 64 x.va)))

/-- R401, R402, R409, R417: no instruction of a thread or a drover reaches what is the hosts' and the management side's: the management
state, the carve-out, the queues with their packets, the windows, the ring's base and size, the walks, and which contexts there are. -/
def Obligations.InstructionsLeaveTheHostsSide : Prop := ∀ (i : Instr) (s t : State), i.hasWord → exec i s = .next t →
  t.mgmt = s.mgmt ∧ t.carve = s.carve ∧ t.carving = s.carving ∧ t.walks = s.walks ∧ t.hub.queues = s.hub.queues ∧
  t.hub.windows = s.hub.windows ∧ t.hub.evbase = s.hub.evbase ∧ t.hub.evsize = s.hub.evsize ∧ t.hub.evrd = s.hub.evrd ∧
  t.hub.notifydrop = s.hub.notifydrop ∧ t.contexts.map (·.1) = s.contexts.map (·.1) ∧ t.launches.length = s.launches.length ∧
  t.blocks.length = s.blocks.length ∧ t.agents.length = s.agents.length
end

