-- ==== Sys2Proof/Laws/Sparse.lean ====
section
/-! SUPPORT. Laws of sparse maps and of storage: read after write, and the canonical form that every write keeps. -/

namespace Sys2Proof.Machine

variable {α : Type}

@[simp] theorem sparseGet_nil (d : α) (k : Nat) : sparseGet d [] k = d := rfl

theorem sparseGet_insert_same (d v : α) (m : List (Nat × α)) (k : Nat) : sparseGet d (sparseInsert m k v) k = v := by
  induction m with
  | nil => simp [sparseInsert, sparseGet]
  | cons e m ih =>
    obtain ⟨j, w⟩ := e
    unfold sparseInsert
    split
    · simp [sparseGet]
    · split
      · simp [sparseGet]
      · rename_i h
        have : j ≠ k := fun e => h e.symm
        simp [sparseGet, this, ih]

theorem sparseGet_insert_other (d v : α) (m : List (Nat × α)) {k x : Nat} (h : x ≠ k) :
    sparseGet d (sparseInsert m k v) x = sparseGet d m x := by
  induction m with
  | nil => simp [sparseInsert, sparseGet, h.symm]
  | cons e m ih =>
    obtain ⟨j, w⟩ := e
    unfold sparseInsert
    split
    · simp [sparseGet, h.symm]
    · split
      · rename_i e; subst e; simp [sparseGet, h.symm]
      · simp [sparseGet, ih]

theorem sparseGet_filter_out (d : α) (m : List (Nat × α)) (p : Nat → Bool) (x : Nat) (h : p x = false) :
    sparseGet d (m.filter fun e => p e.1) x = d := by
  induction m with
  | nil => rfl
  | cons e m ih =>
    by_cases hp : p e.1 = true
    · have : e.1 ≠ x := by rintro rfl; simp_all
      simp [hp, sparseGet, this, ih]
    · simp [hp, ih]

theorem sparseGet_filter_in (d : α) (m : List (Nat × α)) (p : Nat → Bool) (x : Nat) (h : p x = true) :
    sparseGet d (m.filter fun e => p e.1) x = sparseGet d m x := by
  induction m with
  | nil => rfl
  | cons e m ih =>
    by_cases hp : p e.1 = true
    · simp [hp, sparseGet, ih]
    · have : e.1 ≠ x := by rintro rfl; simp_all
      simp [hp, sparseGet, this, ih]

theorem mem_sparseInsert {m : List (Nat × α)} {k : Nat} {v : α} {e : Nat × α} (h : e ∈ sparseInsert m k v) : e = (k, v) ∨ e ∈ m := by
  induction m with
  | nil => simpa [sparseInsert] using h
  | cons x m ih =>
    obtain ⟨j, w⟩ := x
    unfold sparseInsert at h
    split at h
    · simpa using h
    · split at h
      · rcases List.mem_cons.1 h with h | h
        · exact .inl h
        · exact .inr (List.mem_cons_of_mem _ h)
      · rcases List.mem_cons.1 h with h | h
        · exact .inr (h ▸ List.mem_cons_self)
        · exact (ih h).imp id fun h => List.mem_cons_of_mem _ h

variable [DecidableEq α]

/-- A read after a write to the same key gives the value written. -/
@[simp] theorem sparseGet_set_same (d v : α) (m : List (Nat × α)) (k : Nat) : sparseGet d (sparseSet d m k v) k = v := by
  unfold sparseSet
  split
  · rename_i h
    have := sparseGet_filter_out d m (fun j => decide (j ≠ k)) k (by simp)
    rw [this, h]
  · exact sparseGet_insert_same d v m k

/-- A write leaves every other key alone. -/
theorem sparseGet_set_other (d v : α) (m : List (Nat × α)) {k x : Nat} (h : x ≠ k) :
    sparseGet d (sparseSet d m k v) x = sparseGet d m x := by
  unfold sparseSet
  split
  · exact sparseGet_filter_in d m (fun j => decide (j ≠ k)) x (by simp [h])
  · exact sparseGet_insert_other d v m h

theorem sparseGet_set (d v : α) (m : List (Nat × α)) (k x : Nat) :
    sparseGet d (sparseSet d m k v) x = if x = k then v else sparseGet d m x := by
  split
  · rename_i h; subst h; simp
  · rename_i h; exact sparseGet_set_other d v m h

/-! ## The canonical form -/

theorem sparseWf_cons (d v : α) (k : Nat) (m : List (Nat × α)) :
    sparseWf d ((k, v) :: m) = true ↔ v ≠ d ∧ (∀ e ∈ m, k < e.1) ∧ sparseWf d m = true := by
  simp [sparseWf, and_assoc]

theorem sparseWf_filter (d : α) (p : Nat × α → Bool) : ∀ m : List (Nat × α), sparseWf d m = true → sparseWf d (m.filter p) = true
  | [], _ => rfl
  | (k, v) :: m, h => by
    obtain ⟨hv, hk, hm⟩ := (sparseWf_cons d v k m).1 h
    have ih := sparseWf_filter d p m hm
    by_cases hp : p (k, v) = true
    · rw [List.filter_cons_of_pos hp]
      exact (sparseWf_cons d v k _).2 ⟨hv, fun e he => hk e (List.mem_filter.1 he).1, ih⟩
    · rw [List.filter_cons_of_neg hp]; exact ih

theorem sparseWf_insert (d : α) {v : α} (hv : v ≠ d) (k : Nat) : ∀ m : List (Nat × α), sparseWf d m = true →
    sparseWf d (sparseInsert m k v) = true
  | [], _ => by simp [sparseInsert, sparseWf, hv]
  | (j, w) :: m, h => by
    obtain ⟨hw, hj, hm⟩ := (sparseWf_cons d w j m).1 h
    unfold sparseInsert
    split
    · rename_i hlt
      refine (sparseWf_cons d v k _).2 ⟨hv, fun e he => ?_, h⟩
      rcases List.mem_cons.1 he with rfl | he
      · exact hlt
      · exact Nat.lt_trans hlt (hj e he)
    · split
      · rename_i _ e; subst e
        exact (sparseWf_cons d v _ _).2 ⟨hv, hj, hm⟩
      · refine (sparseWf_cons d w j _).2 ⟨hw, fun e he => ?_, sparseWf_insert d hv k m hm⟩
        rcases mem_sparseInsert he with rfl | he
        · simp only; omega
        · exact hj e he

/-- A write keeps the canonical form. -/
theorem sparseWf_set (d : α) (m : List (Nat × α)) (k : Nat) (v : α) (h : sparseWf d m = true) : sparseWf d (sparseSet d m k v) = true := by
  unfold sparseSet
  split
  · exact sparseWf_filter d _ m h
  · rename_i hv; exact sparseWf_insert d hv k m h

/-! ## Bytes of storage -/

@[simp] theorem readByte_writeByte_same (m : Memory) (a : Nat) (b : Byte) : readByte (writeByte m a b) a = b :=
  sparseGet_set_same _ _ _ _

theorem readByte_writeByte_other (m : Memory) {a x : Nat} (b : Byte) (h : x ≠ a) :
    readByte (writeByte m a b) x = readByte m x := sparseGet_set_other _ _ _ h

/-- What a byte reads as after a run of bytes is written. -/
theorem readByte_writeBytes (bs : List Byte) : ∀ (m : Memory) (a x : Nat),
    readByte (writeBytes m a bs) x = if h : a ≤ x ∧ x < a + bs.length then bs[x - a]'(by omega) else readByte m x := by
  induction bs with
  | nil => intro m a x; simp only [writeBytes, List.length_nil]; rw [dif_neg (by omega)]
  | cons b bs ih =>
    intro m a x
    simp only [writeBytes, ih, List.length_cons]
    by_cases hx : x = a
    · subst hx
      rw [dif_neg (by omega), dif_pos (by omega)]; simp
    · by_cases hr : a + 1 ≤ x ∧ x < a + 1 + bs.length
      · rw [dif_pos hr, dif_pos (by omega)]
        have e : x - a = (x - (a + 1)) + 1 := by omega
        simp [e]
      · rw [dif_neg hr, dif_neg (by omega), readByte_writeByte_other m b hx]

theorem readByte_writeBytes_outside {m : Memory} {a x : Nat} {bs : List Byte} (h : x < a ∨ a + bs.length ≤ x) :
    readByte (writeBytes m a bs) x = readByte m x := by
  rw [readByte_writeBytes, dif_neg (by omega)]

/-- Reading back the bytes just written. -/
theorem readBytes_writeBytes (m : Memory) (a : Nat) (bs : List Byte) : readBytes (writeBytes m a bs) a bs.length = bs := by
  apply List.ext_getElem
  · simp [readBytes]
  · intro i h1 h2
    simp [readBytes, readByte_writeBytes, h2]

theorem readByte_clearBytes (m : Memory) (a n x : Nat) :
    readByte (clearBytes m a n) x = if a ≤ x ∧ x < a + n then 0 else readByte m x := by
  unfold clearBytes readByte
  split
  · exact sparseGet_filter_out 0 m (fun j => decide (j < a) || decide (a + n ≤ j)) x (by simp; omega)
  · exact sparseGet_filter_in 0 m (fun j => decide (j < a) || decide (a + n ≤ j)) x (by simp; omega)

theorem wf_writeByte {m : Memory} (h : m.wf = true) (a : Nat) (b : Byte) : (writeByte m a b).wf = true := sparseWf_set _ _ _ _ h

theorem wf_writeBytes {m : Memory} (h : m.wf = true) (a : Nat) (bs : List Byte) : (writeBytes m a bs).wf = true := by
  induction bs generalizing m a with
  | nil => exact h
  | cons b bs ih => exact ih (wf_writeByte h a b) (a + 1)

theorem wf_clearBytes {m : Memory} (h : m.wf = true) (a n : Nat) : (clearBytes m a n).wf = true := sparseWf_filter _ _ _ h

theorem wf_filter {m : Memory} (h : m.wf = true) (p : Host.Cell → Bool) : Memory.wf (m.filter p) = true := sparseWf_filter _ _ _ h

theorem wf_writeCells {m : Memory} (h : m.wf = true) (cs : List Host.Cell) : (writeCells m cs).wf = true := by
  unfold writeCells
  induction cs generalizing m with
  | nil => exact h
  | cons c cs ih => exact ih (wf_writeByte h c.1 c.2)

theorem sparseWf_append (d : α) : ∀ (m n : List (Nat × α)), sparseWf d m = true → sparseWf d n = true →
    (∀ x ∈ m, ∀ y ∈ n, x.1 < y.1) → sparseWf d (m ++ n) = true
  | [], _, _, hn, _ => hn
  | (k, v) :: m, n, hm, hn, hlt => by
    obtain ⟨hv, hk, hm'⟩ := (sparseWf_cons d v k m).1 hm
    refine (sparseWf_cons d v k _).2 ⟨hv, fun e he => ?_, sparseWf_append d m n hm' hn fun x hx y hy => hlt x (List.mem_cons_of_mem _ hx) y hy⟩
    rcases List.mem_append.1 he with he | he
    · exact hk e he
    · exact hlt (k, v) List.mem_cons_self e he

theorem wf_fill (f : Nat → Byte) (a : Nat) (is : List Nat) (h : is.Pairwise (· < ·)) :
    Memory.wf (is.filterMap fun i => if f i = 0 then none else some (a + i, f i)) = true := by
  induction is with
  | nil => rfl
  | cons i is ih =>
    have hi := List.pairwise_cons.1 h
    by_cases hf : f i = 0
    · simpa [List.filterMap_cons, hf] using ih hi.2
    · simp only [List.filterMap_cons, hf, if_false]
      refine (sparseWf_cons 0 _ _ _).2 ⟨hf, fun e he => ?_, ih hi.2⟩
      obtain ⟨j, hj, he⟩ := List.mem_filterMap.1 he
      split at he
      · cases he
      · cases he; have := hi.1 j hj; simp only; omega

theorem wf_fillBytes {m : Memory} (h : m.wf = true) (a n : Nat) (f : Nat → Byte) : (fillBytes m a n f).wf = true := by
  have hs : (List.range n).Pairwise (· < ·) := List.pairwise_lt_range
  have hmid : ∀ e ∈ (List.range n).filterMap (fun i => if f i = 0 then none else some (a + i, f i)), a ≤ e.1 ∧ e.1 < a + n := by
    intro e he
    obtain ⟨i, hi, he⟩ := List.mem_filterMap.1 he
    have := List.mem_range.1 hi
    split at he
    · cases he
    · cases he; simp only; omega
  refine sparseWf_append 0 _ _ (sparseWf_append 0 _ _ (wf_filter h _) (wf_fill f a _ hs) ?_) (wf_filter h _) ?_
  · intro x hx y hy
    have h1 := (List.mem_filter.1 hx).2
    have h2 := hmid y hy
    simp at h1; omega
  · intro x hx y hy
    have h2 := (List.mem_filter.1 hy).2
    simp at h2
    rcases List.mem_append.1 hx with hx | hx
    · have h1 := (List.mem_filter.1 hx).2
      simp at h1; omega
    · have := hmid x hx; omega

/-! ## Tables -/

@[simp] theorem updAt_length {β : Type} (l : List β) (i : Nat) (f : β → β) : (updAt l i f).length = l.length := by simp [updAt]

theorem getD_updAt {β : Type} (l : List β) (i j : Nat) (f : β → β) (d : β) :
    (updAt l i f).getD j d = if i = j ∧ j < l.length then f (l.getD j d) else l.getD j d := by
  unfold updAt
  simp only [List.getD_eq_getElem?_getD, List.getElem?_modify]
  by_cases hj : j < l.length
  · by_cases hi : i = j <;> simp [hj, hi]
  · simp [hj]

theorem getD_updAt_other {β : Type} (l : List β) {i j : Nat} (f : β → β) (d : β) (h : i ≠ j) : (updAt l i f).getD j d = l.getD j d := by
  rw [getD_updAt, if_neg (fun e => h e.1)]

theorem getD_updAt_same {β : Type} (l : List β) {i : Nat} (f : β → β) (d : β) (h : i < l.length) :
    (updAt l i f).getD i d = f (l.getD i d) := by
  rw [getD_updAt, if_pos ⟨rfl, h⟩]

theorem updAt_updAt {β : Type} (l : List β) (i : Nat) (f g : β → β) : updAt (updAt l i f) i g = updAt l i (g ∘ f) := by
  simp [updAt, List.modify_modify_eq]

theorem updAt_id {β : Type} (l : List β) (i : Nat) (f : β → β) (d : β) (h : f (l.getD i d) = l.getD i d) : updAt l i f = l := by
  unfold updAt
  apply List.ext_getElem?
  intro j
  rw [List.getElem?_modify]
  by_cases hj : j < l.length
  · by_cases hi : i = j
    · subst hi; simp [hj] at h ⊢; exact h
    · simp [hi]
  · simp [hj]

end Sys2Proof.Machine
end

