-- ==== Sys2Proof/Laws/State.lean ====
section
/-! SUPPORT. Laws of State: one lemma per field per update, and what an accessor reads after an update of its table. -/

namespace Sys2Proof.Machine

/-! ## updAgent -/

section
variable (s : State) (i : Nat) (f : Agent → Agent)
@[simp] theorem updAgent_agents : (s.updAgent i f).agents = updAt s.agents i f := rfl
@[simp] theorem updAgent_caravans : (s.updAgent i f).caravans = s.caravans := rfl
@[simp] theorem updAgent_blocks : (s.updAgent i f).blocks = s.blocks := rfl
@[simp] theorem updAgent_launches : (s.updAgent i f).launches = s.launches := rfl
@[simp] theorem updAgent_contexts : (s.updAgent i f).contexts = s.contexts := rfl
@[simp] theorem updAgent_cores : (s.updAgent i f).cores = s.cores := rfl
@[simp] theorem updAgent_barriers : (s.updAgent i f).barriers = s.barriers := rfl
@[simp] theorem updAgent_ops : (s.updAgent i f).ops = s.ops := rfl
@[simp] theorem updAgent_walks : (s.updAgent i f).walks = s.walks := rfl
@[simp] theorem updAgent_passes : (s.updAgent i f).passes = s.passes := rfl
@[simp] theorem updAgent_mem : (s.updAgent i f).mem = s.mem := rfl
@[simp] theorem updAgent_carve : (s.updAgent i f).carve = s.carve := rfl
@[simp] theorem updAgent_carving : (s.updAgent i f).carving = s.carving := rfl
@[simp] theorem updAgent_tlb : (s.updAgent i f).tlb = s.tlb := rfl
@[simp] theorem updAgent_pending : (s.updAgent i f).pending = s.pending := rfl
@[simp] theorem updAgent_reds : (s.updAgent i f).reds = s.reds := rfl
@[simp] theorem updAgent_remotes : (s.updAgent i f).remotes = s.remotes := rfl
@[simp] theorem updAgent_dirty : (s.updAgent i f).dirty = s.dirty := rfl
@[simp] theorem updAgent_latent : (s.updAgent i f).latent = s.latent := rfl
@[simp] theorem updAgent_logs : (s.updAgent i f).logs = s.logs := rfl
@[simp] theorem updAgent_merges : (s.updAgent i f).merges = s.merges := rfl
@[simp] theorem updAgent_signals : (s.updAgent i f).signals = s.signals := rfl
@[simp] theorem updAgent_peerArrivals : (s.updAgent i f).peerArrivals = s.peerArrivals := rfl
@[simp] theorem updAgent_hub : (s.updAgent i f).hub = s.hub := rfl
@[simp] theorem updAgent_mgmt : (s.updAgent i f).mgmt = s.mgmt := rfl
@[simp] theorem updAgent_reply : (s.updAgent i f).reply = s.reply := rfl
@[simp] theorem updAgent_focus : (s.updAgent i f).focus = s.focus := rfl
@[simp] theorem updAgent_agenda : (s.updAgent i f).agenda = s.agenda := rfl
@[simp] theorem updAgent_nonce : (s.updAgent i f).nonce = s.nonce := rfl
end

/-! ## updCaravan -/

section
variable (s : State) (i : Nat) (f : Caravan → Caravan)
@[simp] theorem updCaravan_agents : (s.updCaravan i f).agents = s.agents := rfl
@[simp] theorem updCaravan_caravans : (s.updCaravan i f).caravans = updAt s.caravans i f := rfl
@[simp] theorem updCaravan_blocks : (s.updCaravan i f).blocks = s.blocks := rfl
@[simp] theorem updCaravan_launches : (s.updCaravan i f).launches = s.launches := rfl
@[simp] theorem updCaravan_contexts : (s.updCaravan i f).contexts = s.contexts := rfl
@[simp] theorem updCaravan_cores : (s.updCaravan i f).cores = s.cores := rfl
@[simp] theorem updCaravan_barriers : (s.updCaravan i f).barriers = s.barriers := rfl
@[simp] theorem updCaravan_ops : (s.updCaravan i f).ops = s.ops := rfl
@[simp] theorem updCaravan_walks : (s.updCaravan i f).walks = s.walks := rfl
@[simp] theorem updCaravan_passes : (s.updCaravan i f).passes = s.passes := rfl
@[simp] theorem updCaravan_mem : (s.updCaravan i f).mem = s.mem := rfl
@[simp] theorem updCaravan_carve : (s.updCaravan i f).carve = s.carve := rfl
@[simp] theorem updCaravan_carving : (s.updCaravan i f).carving = s.carving := rfl
@[simp] theorem updCaravan_tlb : (s.updCaravan i f).tlb = s.tlb := rfl
@[simp] theorem updCaravan_pending : (s.updCaravan i f).pending = s.pending := rfl
@[simp] theorem updCaravan_reds : (s.updCaravan i f).reds = s.reds := rfl
@[simp] theorem updCaravan_remotes : (s.updCaravan i f).remotes = s.remotes := rfl
@[simp] theorem updCaravan_dirty : (s.updCaravan i f).dirty = s.dirty := rfl
@[simp] theorem updCaravan_latent : (s.updCaravan i f).latent = s.latent := rfl
@[simp] theorem updCaravan_logs : (s.updCaravan i f).logs = s.logs := rfl
@[simp] theorem updCaravan_merges : (s.updCaravan i f).merges = s.merges := rfl
@[simp] theorem updCaravan_signals : (s.updCaravan i f).signals = s.signals := rfl
@[simp] theorem updCaravan_peerArrivals : (s.updCaravan i f).peerArrivals = s.peerArrivals := rfl
@[simp] theorem updCaravan_hub : (s.updCaravan i f).hub = s.hub := rfl
@[simp] theorem updCaravan_mgmt : (s.updCaravan i f).mgmt = s.mgmt := rfl
@[simp] theorem updCaravan_reply : (s.updCaravan i f).reply = s.reply := rfl
@[simp] theorem updCaravan_focus : (s.updCaravan i f).focus = s.focus := rfl
@[simp] theorem updCaravan_agenda : (s.updCaravan i f).agenda = s.agenda := rfl
@[simp] theorem updCaravan_nonce : (s.updCaravan i f).nonce = s.nonce := rfl
end

/-! ## updBlock -/

section
variable (s : State) (i : Nat) (f : Block → Block)
@[simp] theorem updBlock_agents : (s.updBlock i f).agents = s.agents := rfl
@[simp] theorem updBlock_caravans : (s.updBlock i f).caravans = s.caravans := rfl
@[simp] theorem updBlock_blocks : (s.updBlock i f).blocks = updAt s.blocks i f := rfl
@[simp] theorem updBlock_launches : (s.updBlock i f).launches = s.launches := rfl
@[simp] theorem updBlock_contexts : (s.updBlock i f).contexts = s.contexts := rfl
@[simp] theorem updBlock_cores : (s.updBlock i f).cores = s.cores := rfl
@[simp] theorem updBlock_barriers : (s.updBlock i f).barriers = s.barriers := rfl
@[simp] theorem updBlock_ops : (s.updBlock i f).ops = s.ops := rfl
@[simp] theorem updBlock_walks : (s.updBlock i f).walks = s.walks := rfl
@[simp] theorem updBlock_passes : (s.updBlock i f).passes = s.passes := rfl
@[simp] theorem updBlock_mem : (s.updBlock i f).mem = s.mem := rfl
@[simp] theorem updBlock_carve : (s.updBlock i f).carve = s.carve := rfl
@[simp] theorem updBlock_carving : (s.updBlock i f).carving = s.carving := rfl
@[simp] theorem updBlock_tlb : (s.updBlock i f).tlb = s.tlb := rfl
@[simp] theorem updBlock_pending : (s.updBlock i f).pending = s.pending := rfl
@[simp] theorem updBlock_reds : (s.updBlock i f).reds = s.reds := rfl
@[simp] theorem updBlock_remotes : (s.updBlock i f).remotes = s.remotes := rfl
@[simp] theorem updBlock_dirty : (s.updBlock i f).dirty = s.dirty := rfl
@[simp] theorem updBlock_latent : (s.updBlock i f).latent = s.latent := rfl
@[simp] theorem updBlock_logs : (s.updBlock i f).logs = s.logs := rfl
@[simp] theorem updBlock_merges : (s.updBlock i f).merges = s.merges := rfl
@[simp] theorem updBlock_signals : (s.updBlock i f).signals = s.signals := rfl
@[simp] theorem updBlock_peerArrivals : (s.updBlock i f).peerArrivals = s.peerArrivals := rfl
@[simp] theorem updBlock_hub : (s.updBlock i f).hub = s.hub := rfl
@[simp] theorem updBlock_mgmt : (s.updBlock i f).mgmt = s.mgmt := rfl
@[simp] theorem updBlock_reply : (s.updBlock i f).reply = s.reply := rfl
@[simp] theorem updBlock_focus : (s.updBlock i f).focus = s.focus := rfl
@[simp] theorem updBlock_agenda : (s.updBlock i f).agenda = s.agenda := rfl
@[simp] theorem updBlock_nonce : (s.updBlock i f).nonce = s.nonce := rfl
end

/-! ## updLaunch -/

section
variable (s : State) (i : Nat) (f : Launch → Launch)
@[simp] theorem updLaunch_agents : (s.updLaunch i f).agents = s.agents := rfl
@[simp] theorem updLaunch_caravans : (s.updLaunch i f).caravans = s.caravans := rfl
@[simp] theorem updLaunch_blocks : (s.updLaunch i f).blocks = s.blocks := rfl
@[simp] theorem updLaunch_launches : (s.updLaunch i f).launches = updAt s.launches i f := rfl
@[simp] theorem updLaunch_contexts : (s.updLaunch i f).contexts = s.contexts := rfl
@[simp] theorem updLaunch_cores : (s.updLaunch i f).cores = s.cores := rfl
@[simp] theorem updLaunch_barriers : (s.updLaunch i f).barriers = s.barriers := rfl
@[simp] theorem updLaunch_ops : (s.updLaunch i f).ops = s.ops := rfl
@[simp] theorem updLaunch_walks : (s.updLaunch i f).walks = s.walks := rfl
@[simp] theorem updLaunch_passes : (s.updLaunch i f).passes = s.passes := rfl
@[simp] theorem updLaunch_mem : (s.updLaunch i f).mem = s.mem := rfl
@[simp] theorem updLaunch_carve : (s.updLaunch i f).carve = s.carve := rfl
@[simp] theorem updLaunch_carving : (s.updLaunch i f).carving = s.carving := rfl
@[simp] theorem updLaunch_tlb : (s.updLaunch i f).tlb = s.tlb := rfl
@[simp] theorem updLaunch_pending : (s.updLaunch i f).pending = s.pending := rfl
@[simp] theorem updLaunch_reds : (s.updLaunch i f).reds = s.reds := rfl
@[simp] theorem updLaunch_remotes : (s.updLaunch i f).remotes = s.remotes := rfl
@[simp] theorem updLaunch_dirty : (s.updLaunch i f).dirty = s.dirty := rfl
@[simp] theorem updLaunch_latent : (s.updLaunch i f).latent = s.latent := rfl
@[simp] theorem updLaunch_logs : (s.updLaunch i f).logs = s.logs := rfl
@[simp] theorem updLaunch_merges : (s.updLaunch i f).merges = s.merges := rfl
@[simp] theorem updLaunch_signals : (s.updLaunch i f).signals = s.signals := rfl
@[simp] theorem updLaunch_peerArrivals : (s.updLaunch i f).peerArrivals = s.peerArrivals := rfl
@[simp] theorem updLaunch_hub : (s.updLaunch i f).hub = s.hub := rfl
@[simp] theorem updLaunch_mgmt : (s.updLaunch i f).mgmt = s.mgmt := rfl
@[simp] theorem updLaunch_reply : (s.updLaunch i f).reply = s.reply := rfl
@[simp] theorem updLaunch_focus : (s.updLaunch i f).focus = s.focus := rfl
@[simp] theorem updLaunch_agenda : (s.updLaunch i f).agenda = s.agenda := rfl
@[simp] theorem updLaunch_nonce : (s.updLaunch i f).nonce = s.nonce := rfl
end

/-! ## updCore -/

section
variable (s : State) (i : Nat) (f : Core → Core)
@[simp] theorem updCore_agents : (s.updCore i f).agents = s.agents := rfl
@[simp] theorem updCore_caravans : (s.updCore i f).caravans = s.caravans := rfl
@[simp] theorem updCore_blocks : (s.updCore i f).blocks = s.blocks := rfl
@[simp] theorem updCore_launches : (s.updCore i f).launches = s.launches := rfl
@[simp] theorem updCore_contexts : (s.updCore i f).contexts = s.contexts := rfl
@[simp] theorem updCore_cores : (s.updCore i f).cores = updAt s.cores i f := rfl
@[simp] theorem updCore_barriers : (s.updCore i f).barriers = s.barriers := rfl
@[simp] theorem updCore_ops : (s.updCore i f).ops = s.ops := rfl
@[simp] theorem updCore_walks : (s.updCore i f).walks = s.walks := rfl
@[simp] theorem updCore_passes : (s.updCore i f).passes = s.passes := rfl
@[simp] theorem updCore_mem : (s.updCore i f).mem = s.mem := rfl
@[simp] theorem updCore_carve : (s.updCore i f).carve = s.carve := rfl
@[simp] theorem updCore_carving : (s.updCore i f).carving = s.carving := rfl
@[simp] theorem updCore_tlb : (s.updCore i f).tlb = s.tlb := rfl
@[simp] theorem updCore_pending : (s.updCore i f).pending = s.pending := rfl
@[simp] theorem updCore_reds : (s.updCore i f).reds = s.reds := rfl
@[simp] theorem updCore_remotes : (s.updCore i f).remotes = s.remotes := rfl
@[simp] theorem updCore_dirty : (s.updCore i f).dirty = s.dirty := rfl
@[simp] theorem updCore_latent : (s.updCore i f).latent = s.latent := rfl
@[simp] theorem updCore_logs : (s.updCore i f).logs = s.logs := rfl
@[simp] theorem updCore_merges : (s.updCore i f).merges = s.merges := rfl
@[simp] theorem updCore_signals : (s.updCore i f).signals = s.signals := rfl
@[simp] theorem updCore_peerArrivals : (s.updCore i f).peerArrivals = s.peerArrivals := rfl
@[simp] theorem updCore_hub : (s.updCore i f).hub = s.hub := rfl
@[simp] theorem updCore_mgmt : (s.updCore i f).mgmt = s.mgmt := rfl
@[simp] theorem updCore_reply : (s.updCore i f).reply = s.reply := rfl
@[simp] theorem updCore_focus : (s.updCore i f).focus = s.focus := rfl
@[simp] theorem updCore_agenda : (s.updCore i f).agenda = s.agenda := rfl
@[simp] theorem updCore_nonce : (s.updCore i f).nonce = s.nonce := rfl
end

/-! ## updCtx -/

section
variable (s : State) (i : Nat) (f : Context → Context)
@[simp] theorem updCtx_agents : (s.updCtx i f).agents = s.agents := rfl
@[simp] theorem updCtx_caravans : (s.updCtx i f).caravans = s.caravans := rfl
@[simp] theorem updCtx_blocks : (s.updCtx i f).blocks = s.blocks := rfl
@[simp] theorem updCtx_launches : (s.updCtx i f).launches = s.launches := rfl
@[simp] theorem updCtx_contexts : (s.updCtx i f).contexts = assocUpd s.contexts i f := rfl
@[simp] theorem updCtx_cores : (s.updCtx i f).cores = s.cores := rfl
@[simp] theorem updCtx_barriers : (s.updCtx i f).barriers = s.barriers := rfl
@[simp] theorem updCtx_ops : (s.updCtx i f).ops = s.ops := rfl
@[simp] theorem updCtx_walks : (s.updCtx i f).walks = s.walks := rfl
@[simp] theorem updCtx_passes : (s.updCtx i f).passes = s.passes := rfl
@[simp] theorem updCtx_mem : (s.updCtx i f).mem = s.mem := rfl
@[simp] theorem updCtx_carve : (s.updCtx i f).carve = s.carve := rfl
@[simp] theorem updCtx_carving : (s.updCtx i f).carving = s.carving := rfl
@[simp] theorem updCtx_tlb : (s.updCtx i f).tlb = s.tlb := rfl
@[simp] theorem updCtx_pending : (s.updCtx i f).pending = s.pending := rfl
@[simp] theorem updCtx_reds : (s.updCtx i f).reds = s.reds := rfl
@[simp] theorem updCtx_remotes : (s.updCtx i f).remotes = s.remotes := rfl
@[simp] theorem updCtx_dirty : (s.updCtx i f).dirty = s.dirty := rfl
@[simp] theorem updCtx_latent : (s.updCtx i f).latent = s.latent := rfl
@[simp] theorem updCtx_logs : (s.updCtx i f).logs = s.logs := rfl
@[simp] theorem updCtx_merges : (s.updCtx i f).merges = s.merges := rfl
@[simp] theorem updCtx_signals : (s.updCtx i f).signals = s.signals := rfl
@[simp] theorem updCtx_peerArrivals : (s.updCtx i f).peerArrivals = s.peerArrivals := rfl
@[simp] theorem updCtx_hub : (s.updCtx i f).hub = s.hub := rfl
@[simp] theorem updCtx_mgmt : (s.updCtx i f).mgmt = s.mgmt := rfl
@[simp] theorem updCtx_reply : (s.updCtx i f).reply = s.reply := rfl
@[simp] theorem updCtx_focus : (s.updCtx i f).focus = s.focus := rfl
@[simp] theorem updCtx_agenda : (s.updCtx i f).agenda = s.agenda := rfl
@[simp] theorem updCtx_nonce : (s.updCtx i f).nonce = s.nonce := rfl
end

/-! ## updOp -/

section
variable (s : State) (i : Nat) (f : EngineOp → EngineOp)
@[simp] theorem updOp_agents : (s.updOp i f).agents = s.agents := rfl
@[simp] theorem updOp_caravans : (s.updOp i f).caravans = s.caravans := rfl
@[simp] theorem updOp_blocks : (s.updOp i f).blocks = s.blocks := rfl
@[simp] theorem updOp_launches : (s.updOp i f).launches = s.launches := rfl
@[simp] theorem updOp_contexts : (s.updOp i f).contexts = s.contexts := rfl
@[simp] theorem updOp_cores : (s.updOp i f).cores = s.cores := rfl
@[simp] theorem updOp_barriers : (s.updOp i f).barriers = s.barriers := rfl
@[simp] theorem updOp_ops : (s.updOp i f).ops = updAt s.ops i f := rfl
@[simp] theorem updOp_walks : (s.updOp i f).walks = s.walks := rfl
@[simp] theorem updOp_passes : (s.updOp i f).passes = s.passes := rfl
@[simp] theorem updOp_mem : (s.updOp i f).mem = s.mem := rfl
@[simp] theorem updOp_carve : (s.updOp i f).carve = s.carve := rfl
@[simp] theorem updOp_carving : (s.updOp i f).carving = s.carving := rfl
@[simp] theorem updOp_tlb : (s.updOp i f).tlb = s.tlb := rfl
@[simp] theorem updOp_pending : (s.updOp i f).pending = s.pending := rfl
@[simp] theorem updOp_reds : (s.updOp i f).reds = s.reds := rfl
@[simp] theorem updOp_remotes : (s.updOp i f).remotes = s.remotes := rfl
@[simp] theorem updOp_dirty : (s.updOp i f).dirty = s.dirty := rfl
@[simp] theorem updOp_latent : (s.updOp i f).latent = s.latent := rfl
@[simp] theorem updOp_logs : (s.updOp i f).logs = s.logs := rfl
@[simp] theorem updOp_merges : (s.updOp i f).merges = s.merges := rfl
@[simp] theorem updOp_signals : (s.updOp i f).signals = s.signals := rfl
@[simp] theorem updOp_peerArrivals : (s.updOp i f).peerArrivals = s.peerArrivals := rfl
@[simp] theorem updOp_hub : (s.updOp i f).hub = s.hub := rfl
@[simp] theorem updOp_mgmt : (s.updOp i f).mgmt = s.mgmt := rfl
@[simp] theorem updOp_reply : (s.updOp i f).reply = s.reply := rfl
@[simp] theorem updOp_focus : (s.updOp i f).focus = s.focus := rfl
@[simp] theorem updOp_agenda : (s.updOp i f).agenda = s.agenda := rfl
@[simp] theorem updOp_nonce : (s.updOp i f).nonce = s.nonce := rfl
end

/-! ## updWalk -/

section
variable (s : State) (i : Nat) (f : Walk → Walk)
@[simp] theorem updWalk_agents : (s.updWalk i f).agents = s.agents := rfl
@[simp] theorem updWalk_caravans : (s.updWalk i f).caravans = s.caravans := rfl
@[simp] theorem updWalk_blocks : (s.updWalk i f).blocks = s.blocks := rfl
@[simp] theorem updWalk_launches : (s.updWalk i f).launches = s.launches := rfl
@[simp] theorem updWalk_contexts : (s.updWalk i f).contexts = s.contexts := rfl
@[simp] theorem updWalk_cores : (s.updWalk i f).cores = s.cores := rfl
@[simp] theorem updWalk_barriers : (s.updWalk i f).barriers = s.barriers := rfl
@[simp] theorem updWalk_ops : (s.updWalk i f).ops = s.ops := rfl
@[simp] theorem updWalk_walks : (s.updWalk i f).walks = updAt s.walks i f := rfl
@[simp] theorem updWalk_passes : (s.updWalk i f).passes = s.passes := rfl
@[simp] theorem updWalk_mem : (s.updWalk i f).mem = s.mem := rfl
@[simp] theorem updWalk_carve : (s.updWalk i f).carve = s.carve := rfl
@[simp] theorem updWalk_carving : (s.updWalk i f).carving = s.carving := rfl
@[simp] theorem updWalk_tlb : (s.updWalk i f).tlb = s.tlb := rfl
@[simp] theorem updWalk_pending : (s.updWalk i f).pending = s.pending := rfl
@[simp] theorem updWalk_reds : (s.updWalk i f).reds = s.reds := rfl
@[simp] theorem updWalk_remotes : (s.updWalk i f).remotes = s.remotes := rfl
@[simp] theorem updWalk_dirty : (s.updWalk i f).dirty = s.dirty := rfl
@[simp] theorem updWalk_latent : (s.updWalk i f).latent = s.latent := rfl
@[simp] theorem updWalk_logs : (s.updWalk i f).logs = s.logs := rfl
@[simp] theorem updWalk_merges : (s.updWalk i f).merges = s.merges := rfl
@[simp] theorem updWalk_signals : (s.updWalk i f).signals = s.signals := rfl
@[simp] theorem updWalk_peerArrivals : (s.updWalk i f).peerArrivals = s.peerArrivals := rfl
@[simp] theorem updWalk_hub : (s.updWalk i f).hub = s.hub := rfl
@[simp] theorem updWalk_mgmt : (s.updWalk i f).mgmt = s.mgmt := rfl
@[simp] theorem updWalk_reply : (s.updWalk i f).reply = s.reply := rfl
@[simp] theorem updWalk_focus : (s.updWalk i f).focus = s.focus := rfl
@[simp] theorem updWalk_agenda : (s.updWalk i f).agenda = s.agenda := rfl
@[simp] theorem updWalk_nonce : (s.updWalk i f).nonce = s.nonce := rfl
end

/-! ## updMgmt -/

section
variable (s : State) (f : Mgmt → Mgmt)
@[simp] theorem updMgmt_agents : (s.updMgmt f).agents = s.agents := rfl
@[simp] theorem updMgmt_caravans : (s.updMgmt f).caravans = s.caravans := rfl
@[simp] theorem updMgmt_blocks : (s.updMgmt f).blocks = s.blocks := rfl
@[simp] theorem updMgmt_launches : (s.updMgmt f).launches = s.launches := rfl
@[simp] theorem updMgmt_contexts : (s.updMgmt f).contexts = s.contexts := rfl
@[simp] theorem updMgmt_cores : (s.updMgmt f).cores = s.cores := rfl
@[simp] theorem updMgmt_barriers : (s.updMgmt f).barriers = s.barriers := rfl
@[simp] theorem updMgmt_ops : (s.updMgmt f).ops = s.ops := rfl
@[simp] theorem updMgmt_walks : (s.updMgmt f).walks = s.walks := rfl
@[simp] theorem updMgmt_passes : (s.updMgmt f).passes = s.passes := rfl
@[simp] theorem updMgmt_mem : (s.updMgmt f).mem = s.mem := rfl
@[simp] theorem updMgmt_carve : (s.updMgmt f).carve = s.carve := rfl
@[simp] theorem updMgmt_carving : (s.updMgmt f).carving = s.carving := rfl
@[simp] theorem updMgmt_tlb : (s.updMgmt f).tlb = s.tlb := rfl
@[simp] theorem updMgmt_pending : (s.updMgmt f).pending = s.pending := rfl
@[simp] theorem updMgmt_reds : (s.updMgmt f).reds = s.reds := rfl
@[simp] theorem updMgmt_remotes : (s.updMgmt f).remotes = s.remotes := rfl
@[simp] theorem updMgmt_dirty : (s.updMgmt f).dirty = s.dirty := rfl
@[simp] theorem updMgmt_latent : (s.updMgmt f).latent = s.latent := rfl
@[simp] theorem updMgmt_logs : (s.updMgmt f).logs = s.logs := rfl
@[simp] theorem updMgmt_merges : (s.updMgmt f).merges = s.merges := rfl
@[simp] theorem updMgmt_signals : (s.updMgmt f).signals = s.signals := rfl
@[simp] theorem updMgmt_peerArrivals : (s.updMgmt f).peerArrivals = s.peerArrivals := rfl
@[simp] theorem updMgmt_hub : (s.updMgmt f).hub = s.hub := rfl
@[simp] theorem updMgmt_mgmt : (s.updMgmt f).mgmt = f s.mgmt := rfl
@[simp] theorem updMgmt_reply : (s.updMgmt f).reply = s.reply := rfl
@[simp] theorem updMgmt_focus : (s.updMgmt f).focus = s.focus := rfl
@[simp] theorem updMgmt_agenda : (s.updMgmt f).agenda = s.agenda := rfl
@[simp] theorem updMgmt_nonce : (s.updMgmt f).nonce = s.nonce := rfl
end

/-! ## Accessors after an update -/

section
variable (s : State)

theorem agent_updAgent (i j : Nat) (f) : (s.updAgent i f).agent j = if i = j ∧ j < s.agents.length then f (s.agent j) else s.agent j :=
  getD_updAt _ _ _ _ _
theorem agent_updAgent_same {i : Nat} (f) (h : i < s.agents.length) : (s.updAgent i f).agent i = f (s.agent i) := getD_updAt_same _ _ _ h
theorem agent_updAgent_other {i j : Nat} (f) (h : i ≠ j) : (s.updAgent i f).agent j = s.agent j := getD_updAt_other _ _ _ h
theorem caravan_updCaravan (i j : Nat) (f) : (s.updCaravan i f).caravan j = if i = j ∧ j < s.caravans.length then f (s.caravan j) else s.caravan j :=
  getD_updAt _ _ _ _ _
theorem caravan_updCaravan_same {i : Nat} (f) (h : i < s.caravans.length) : (s.updCaravan i f).caravan i = f (s.caravan i) := getD_updAt_same _ _ _ h
theorem caravan_updCaravan_other {i j : Nat} (f) (h : i ≠ j) : (s.updCaravan i f).caravan j = s.caravan j := getD_updAt_other _ _ _ h
theorem block_updBlock (i j : Nat) (f) : (s.updBlock i f).block j = if i = j ∧ j < s.blocks.length then f (s.block j) else s.block j :=
  getD_updAt _ _ _ _ _
theorem block_updBlock_same {i : Nat} (f) (h : i < s.blocks.length) : (s.updBlock i f).block i = f (s.block i) := getD_updAt_same _ _ _ h
theorem block_updBlock_other {i j : Nat} (f) (h : i ≠ j) : (s.updBlock i f).block j = s.block j := getD_updAt_other _ _ _ h
theorem launch_updLaunch (i j : Nat) (f) : (s.updLaunch i f).launch j = if i = j ∧ j < s.launches.length then f (s.launch j) else s.launch j :=
  getD_updAt _ _ _ _ _
theorem launch_updLaunch_same {i : Nat} (f) (h : i < s.launches.length) : (s.updLaunch i f).launch i = f (s.launch i) := getD_updAt_same _ _ _ h
theorem launch_updLaunch_other {i j : Nat} (f) (h : i ≠ j) : (s.updLaunch i f).launch j = s.launch j := getD_updAt_other _ _ _ h
theorem core_updCore (i j : Nat) (f) : (s.updCore i f).core j = if i = j ∧ j < s.cores.length then f (s.core j) else s.core j :=
  getD_updAt _ _ _ _ _
theorem core_updCore_same {i : Nat} (f) (h : i < s.cores.length) : (s.updCore i f).core i = f (s.core i) := getD_updAt_same _ _ _ h
theorem core_updCore_other {i j : Nat} (f) (h : i ≠ j) : (s.updCore i f).core j = s.core j := getD_updAt_other _ _ _ h
@[simp] theorem agent_updCaravan (i j : Nat) (f) : (s.updCaravan i f).agent j = s.agent j := rfl
@[simp] theorem agent_updBlock (i j : Nat) (f) : (s.updBlock i f).agent j = s.agent j := rfl
@[simp] theorem agent_updLaunch (i j : Nat) (f) : (s.updLaunch i f).agent j = s.agent j := rfl
@[simp] theorem agent_updCore (i j : Nat) (f) : (s.updCore i f).agent j = s.agent j := rfl
@[simp] theorem agent_updCtx (i j : Nat) (f) : (s.updCtx i f).agent j = s.agent j := rfl
@[simp] theorem caravan_updAgent (i j : Nat) (f) : (s.updAgent i f).caravan j = s.caravan j := rfl
@[simp] theorem caravan_updBlock (i j : Nat) (f) : (s.updBlock i f).caravan j = s.caravan j := rfl
@[simp] theorem caravan_updLaunch (i j : Nat) (f) : (s.updLaunch i f).caravan j = s.caravan j := rfl
@[simp] theorem caravan_updCore (i j : Nat) (f) : (s.updCore i f).caravan j = s.caravan j := rfl
@[simp] theorem caravan_updCtx (i j : Nat) (f) : (s.updCtx i f).caravan j = s.caravan j := rfl
@[simp] theorem block_updAgent (i j : Nat) (f) : (s.updAgent i f).block j = s.block j := rfl
@[simp] theorem block_updCaravan (i j : Nat) (f) : (s.updCaravan i f).block j = s.block j := rfl
@[simp] theorem block_updLaunch (i j : Nat) (f) : (s.updLaunch i f).block j = s.block j := rfl
@[simp] theorem block_updCore (i j : Nat) (f) : (s.updCore i f).block j = s.block j := rfl
@[simp] theorem block_updCtx (i j : Nat) (f) : (s.updCtx i f).block j = s.block j := rfl
@[simp] theorem launch_updAgent (i j : Nat) (f) : (s.updAgent i f).launch j = s.launch j := rfl
@[simp] theorem launch_updCaravan (i j : Nat) (f) : (s.updCaravan i f).launch j = s.launch j := rfl
@[simp] theorem launch_updBlock (i j : Nat) (f) : (s.updBlock i f).launch j = s.launch j := rfl
@[simp] theorem launch_updCore (i j : Nat) (f) : (s.updCore i f).launch j = s.launch j := rfl
@[simp] theorem launch_updCtx (i j : Nat) (f) : (s.updCtx i f).launch j = s.launch j := rfl
@[simp] theorem core_updAgent (i j : Nat) (f) : (s.updAgent i f).core j = s.core j := rfl
@[simp] theorem core_updCaravan (i j : Nat) (f) : (s.updCaravan i f).core j = s.core j := rfl
@[simp] theorem core_updBlock (i j : Nat) (f) : (s.updBlock i f).core j = s.core j := rfl
@[simp] theorem core_updLaunch (i j : Nat) (f) : (s.updLaunch i f).core j = s.core j := rfl
@[simp] theorem core_updCtx (i j : Nat) (f) : (s.updCtx i f).core j = s.core j := rfl
@[simp] theorem ctx_updAgent (i c : Nat) (f) : (s.updAgent i f).ctx c = s.ctx c := rfl
@[simp] theorem ctx_updCaravan (i c : Nat) (f) : (s.updCaravan i f).ctx c = s.ctx c := rfl
@[simp] theorem ctx_updBlock (i c : Nat) (f) : (s.updBlock i f).ctx c = s.ctx c := rfl
@[simp] theorem ctx_updLaunch (i c : Nat) (f) : (s.updLaunch i f).ctx c = s.ctx c := rfl
@[simp] theorem ctx_updCore (i c : Nat) (f) : (s.updCore i f).ctx c = s.ctx c := rfl

theorem updAgent_updAgent (i : Nat) (f g : Agent → Agent) : (s.updAgent i f).updAgent i g = s.updAgent i (g ∘ f) := by
  simp [State.updAgent, updAt_updAt]

/-- An update that changes nothing at its entry is no update. -/
theorem updAgent_id (i : Nat) (f : Agent → Agent) (h : f (s.agent i) = s.agent i) : s.updAgent i f = s := by
  have : updAt s.agents i f = s.agents := updAt_id _ _ _ {} h
  simp [State.updAgent, this]

end

end Sys2Proof.Machine
end

