-- ==== Sys2Proof/Laws/Issue.lean ====
section
/-! SUPPORT. Laws of the issue: what an instruction that nothing stops leaves (`Job.issue_ready`, `issue_map`). -/

namespace Sys2Proof.Machine

/-! ## Lanes -/

theorem laneMembers_nodup (s : State) (c : Caravan) : ((s.laneMembers c).map (·.agent)).Nodup := by
  unfold State.laneMembers
  split
  · rename_i h
    match c.members, h with
    | [], _ => simp
    | [m], _ => simp
  · unfold List.Nodup
    rw [List.pairwise_map]
    refine List.Pairwise.filterMap _ ?_ List.nodup_range
    intro a b hab x hx y hy e
    have h1 := List.find?_some hx
    have h2 := List.find?_some hy
    simp only [decide_eq_true_eq] at h1 h2
    exact hab (by rw [← h1, ← h2, e])

theorem laneMembers_subset {s : State} {c : Caravan} {m : Member} (h : m ∈ s.laneMembers c) : m ∈ c.members := by
  unfold State.laneMembers at h
  split at h
  · exact h
  · obtain ⟨l, _, hl⟩ := List.mem_filterMap.1 h
    exact List.mem_of_find?_eq_some hl

theorem buildLanes_map (s : State) (core : Nat) (g : Sig) (f : Fields) (n : Nat) (ms : List Member) :
    ∀ j, (s.buildLanes core g f n ms j).map (fun l => Member.mk l.agent l.want) = ms := by
  induction ms with
  | nil => intro j; rfl
  | cons m ms ih => intro j; simp [State.buildLanes, ih]

theorem lanes_agents (s : State) (ci : Nat) (g : Sig) (f : Fields) :
    (s.lanes ci g f).map (·.agent) = (s.members ci).map (·.agent) := by
  have h := congrArg (List.map Member.agent) (buildLanes_map s (s.caravan ci).core g f (s.wanting ci).length (s.members ci) 0)
  simpa [State.lanes, Function.comp_def] using h

theorem lanes_nodup (s : State) (ci : Nat) (g : Sig) (f : Fields) : ((s.lanes ci g f).map (·.agent)).Nodup := by
  rw [lanes_agents]; exact laneMembers_nodup s _

theorem lanes_wanting (s : State) (ci : Nat) (g : Sig) (f : Fields) :
    ((s.lanes ci g f).filter (·.want)).map (·.agent) = (s.wanting ci).map (·.agent) := by
  have h := congrArg (List.filter Member.want) (buildLanes_map s (s.caravan ci).core g f (s.wanting ci).length (s.members ci) 0)
  have h2 := congrArg (List.map Member.agent) h
  simpa [State.lanes, State.wanting, List.filter_map, Function.comp_def] using h2

/-! ## The issue counts as a cycle, ends the caravan's age, and changes nothing else -/

section
variable (s : State) (ci : Nat)

@[simp] theorem begin_agents : (s.begin ci).agents = s.agents := rfl
@[simp] theorem begin_agent (i : Nat) : (s.begin ci).agent i = s.agent i := rfl
@[simp] theorem begin_block (i : Nat) : (s.begin ci).block i = s.block i := rfl
@[simp] theorem begin_launch (i : Nat) : (s.begin ci).launch i = s.launch i := rfl

theorem begin_caravan (i : Nat) : ∃ n a, (s.begin ci).caravan i = { s.caravan i with since := n, aged := a } := by
  have e : (s.begin ci).caravan i = ((s.tick (s.caravan ci).core 1).updCaravan ci _).caravan i := rfl
  rw [e, caravan_updCaravan]
  split
  · exact ⟨_, _, rfl⟩
  · exact ⟨_, _, rfl⟩

theorem core_begin_queues (i : Nat) : ((s.begin ci).core i).queues = (s.core i).queues := by
  have e : (s.begin ci).core i = (s.tick (s.caravan ci).core 1).core i := rfl
  rw [e]; simp only [State.tick, core_updCore]; split <;> rfl

@[simp] theorem tokens_begin (i q : Nat) : (s.begin ci).tokens i q = s.tokens i q := by
  simp [State.tokens, core_begin_queues]

@[simp] theorem coreOf_begin (a : Agent) : (s.begin ci).coreOf a = s.coreOf a := rfl
@[simp] theorem regCount_begin (a : Agent) : (s.begin ci).regCount a = s.regCount a := rfl

@[simp] theorem source_begin (a : Agent) (p : Pos) (f : BitVec 10) : (s.begin ci).source a p f = s.source a p f := rfl

@[simp] theorem operand_begin (a : Agent) (p : Pos) (f : BitVec 10) (m : BitVec 3) (ctl : Bool) (t : DWord) :
    (s.begin ci).operand a p f m ctl t = s.operand a p f m ctl t := rfl

@[simp] theorem operandB_begin (a : Agent) (g : Sig) (f : Fields) (t : DWord) :
    (s.begin ci).operandB a g f t = s.operandB a g f t := rfl

@[simp] theorem queueBound_begin (a : Agent) (q : Nat) : (s.begin ci).queueBound a q = s.queueBound a q := by
  simp [State.queueBound, core_begin_queues]; rfl

@[simp] theorem checkSource_begin (a : Agent) (g : Sig) (p : Pos) (f : BitVec 10) (no : Nat) :
    (s.begin ci).checkSource a g p f no = s.checkSource a g p f no := by simp [State.checkSource]

@[simp] theorem checkDst_begin (a : Agent) (g : Sig) (f : Fields) : (s.begin ci).checkDst a g f = s.checkDst a g f := by
  simp [State.checkDst]; rfl

@[simp] theorem staticFault_begin (k : Caravan) (a : Agent) (g : Sig) (f : Fields) :
    (s.begin ci).staticFault k a g f = s.staticFault k a g f := by
  simp [State.staticFault, State.checkOperands, State.checkKind]

@[simp] theorem hasRoom_begin (i q n : Nat) : (s.begin ci).hasRoom i q n = s.hasRoom i q n := by
  have h : (s.begin ci).reserved i q = s.reserved i q := rfl
  simp [State.hasRoom, h]

@[simp] theorem queuesReady_begin (a : Agent) (x y : List (Nat × Nat)) : (s.begin ci).queuesReady a x y = s.queuesReady a x y := by
  simp [State.queuesReady, State.engineIdle]

@[simp] theorem laneMembers_begin (k : Caravan) : (s.begin ci).laneMembers k = s.laneMembers k := rfl

theorem buildLanes_begin (core : Nat) (g : Sig) (f : Fields) (k : Nat) (ms : List Member) :
    ∀ j, (s.begin ci).buildLanes core g f k ms j = s.buildLanes core g f k ms j := by
  induction ms with
  | nil => intro j; rfl
  | cons m ms ih => intro j; simp [State.buildLanes, ih, State.tokenFor]

/-! ## The acquire of an instruction that takes a token changes only advance-load tables -/

theorem emptyAdv_frame (is : List Nat) : ∀ t : State, is.foldl State.emptyAdv t = { t with agents := (is.foldl State.emptyAdv t).agents } := by
  induction is with
  | nil => intro t; rfl
  | cons i is ih => intro t; rw [List.foldl_cons, ih]; rfl

theorem emptyAdv_agent (is : List Nat) (i : Nat) :
    ∀ t : State, ∃ a, (is.foldl State.emptyAdv t).agent i = { t.agent i with adv := a } := by
  induction is with
  | nil => intro t; exact ⟨_, rfl⟩
  | cons j is ih =>
    intro t
    obtain ⟨a, h⟩ := ih (t.emptyAdv j)
    rw [List.foldl_cons, h]
    unfold State.emptyAdv
    rw [agent_updAgent]
    split
    · exact ⟨a, rfl⟩
    · exact ⟨a, rfl⟩

/-- Work finds the agents as they were, but for their advance-load tables. -/
theorem atWork_agent (g : Sig) (f : Fields) (i : Nat) : ∃ a, (s.atWork ci g f).agent i = { s.agent i with adv := a } := by
  unfold State.atWork
  split
  · exact ⟨_, rfl⟩
  · exact emptyAdv_agent _ _ _

theorem atWork_frame (g : Sig) (f : Fields) : s.atWork ci g f = { s.atIssue ci with agents := (s.atWork ci g f).agents } := by
  unfold State.atWork
  split
  · rfl
  · exact emptyAdv_frame _ _

theorem atWork_caravan (g : Sig) (f : Fields) (i : Nat) :
    ∃ n a, (s.atWork ci g f).caravan i = { s.caravan i with since := n, aged := a } := by
  rw [atWork_frame]; exact begin_caravan s ci i

theorem atWork_members (g : Sig) (f : Fields) : ((s.atWork ci g f).caravan ci).members = (s.caravan ci).members := by
  obtain ⟨_, _, h⟩ := atWork_caravan s ci g f ci; rw [h]

theorem atWork_wait (g : Sig) (f : Fields) (i : Nat) : ((s.atWork ci g f).agent i).wait = (s.agent i).wait := by
  obtain ⟨_, h⟩ := atWork_agent s ci g f i; rw [h]

/-- Without a queue among its sources an instruction makes no acquire of its own. -/
theorem atWork_none {g : Sig} {f : Fields} (h : g.pops f (s.wanting ci).length = []) : s.atWork ci g f = s.atIssue ci := by
  unfold State.atWork; rw [h]; rfl

theorem clearWait_ready (c : Caravan) (h : ∀ m ∈ c.members, (s.agent m.agent).wait = .ready) : s.clearWait c = s := by
  unfold State.clearWait
  generalize c.members = ms at h
  induction ms with
  | nil => rfl
  | cons m ms ih =>
    rw [List.foldl_cons, updAgent_id]
    · exact ih fun x hx => h x (List.mem_cons_of_mem _ hx)
    · rw [h m List.mem_cons_self]
end

/-! ## An instruction that nothing stops -/

theorem faultsOf_none (u : Bool) (ms : List Nat) (chk : Nat → Option Trap) (h : ∀ i ∈ ms, chk i = none) :
    faultsOf u ms chk = [] := by
  unfold faultsOf
  split
  · cases ms with
    | nil => rfl
    | cons i ms => simp [h i]
  · exact List.filterMap_eq_nil_iff.2 fun i hi => by simp [h i hi]

theorem quadMates_nil (s : State) (c : Caravan) : s.quadMates c [] = [] := by
  unfold State.quadMates; split <;> simp

theorem raise_nil (s : State) (ci : Nat) (c : Caravan) (size : Nat) : s.raise ci c size [] = s := rfl

theorem find_lane {ls : List Lane} (h : (ls.map (·.agent)).Nodup) {l : Lane} (hl : l ∈ ls) :
    (ls.find? fun x => x.agent = l.agent) = some l := by
  induction ls with
  | nil => cases hl
  | cons x ls ih =>
    rw [List.map_cons, List.nodup_cons] at h
    rcases List.mem_cons.1 hl with rfl | hl
    · simp
    · have : x.agent ≠ l.agent := fun e => h.1 (e ▸ List.mem_map_of_mem hl)
      simp [this, ih h.2 hl]

/-- What is left of an issue when no check fails and nothing waits. -/
def Job.rest (j : Job) (f : Fields) (ci : Nat) (s : State) : State :=
  let w := j.complete f (s.caravan ci) (s.wanting ci).length (j.sig.pops f (s.wanting ci).length) (s.lanes ci j.sig f) []
    (s.atIssue ci)
  match j.finish with
  | some fin => fin w.1 ci (w.2.map (·.1))
  | none => w.1.goOn ci f.size (j.leave.map fun lv =>
      (w.2.filter fun x => x.1.want).map fun x => (x.1.agent, lv w.1 (s.caravan ci) x.1 x.2))

/-- The checks of an opcode's own find nothing. -/
structure Job.Passes (j : Job) (f : Fields) (ci : Nat) (s : State) : Prop where
  early : ∀ m ∈ s.members ci, j.early (s.atIssue ci) m.agent = none
  waits : j.waits (s.atIssue ci) (s.lead ci) = []
  idle : j.idle = false
  faults : j.laneFaults (s.atIssue ci) (s.lanes ci j.sig f) = []

/-- The checks of the lanes find nothing when none of them does. -/
theorem Job.laneFaults_each {j : Job} {u : State} {ls : List Lane} (hd : (ls.map (·.agent)).Nodup)
    (ha : j.checkAll u (ls.filter (·.want)) = none) (hc : ∀ l ∈ ls, l.want = true → j.check u l = none) : j.laneFaults u ls = [] := by
  unfold Job.laneFaults
  rw [ha]
  refine faultsOf_none _ _ _ fun i hi => ?_
  obtain ⟨l, hl, rfl⟩ := List.mem_map.1 hi
  obtain ⟨hl, hw⟩ := List.mem_filter.1 hl
  rw [find_lane hd hl]
  exact hc l hl hw

/-- The check of the lowest wanting lane is the only one of a caravan-uniform instruction (R160). -/
theorem Job.laneFaults_once {j : Job} {u : State} {ls : List Lane} (hd : (ls.map (·.agent)).Nodup) (hu : j.uniform = true)
    (ha : j.checkAll u (ls.filter (·.want)) = none) {l : Lane} (hl : ls.find? (·.want) = some l) (hc : j.check u l = none) :
    j.laneFaults u ls = [] := by
  unfold Job.laneFaults
  rw [ha]
  have hm : l ∈ ls := List.mem_of_find?_eq_some hl
  rw [← List.head?_filter] at hl
  simp [faultsOf, hu, hl, find_lane hd hm, hc]

/-- No check of R87, nor the early one, fails in any lane. -/
theorem Ready.firstFault {j : Job} {s : State} {ci : Nat} {f : Fields} (h : Ready s ci j.sig f) (p : j.Passes f ci s) {m : Member}
    (hm : m ∈ s.members ci) : j.firstFault (s.atIssue ci) (s.caravan ci) f m.agent = none := by
  have := h.legal m hm
  simp only [Job.firstFault, State.atIssue, staticFault_begin, begin_agent] at this ⊢
  rw [this]; exact p.early m hm

theorem Job.run_ready {j : Job} {s : State} {ci : Nat} {f : Fields} (h : Ready s ci j.sig f) (p : j.Passes f ci s) :
    j.run f ci s = j.rest f ci s := by
  have hu : (s.begin ci).clearWait (s.caravan ci) = s.atIssue ci := clearWait_ready _ _ h.idle
  have hf1 : faultsOf j.uniform ((s.wanting ci).map (·.agent)) (j.firstFault (s.atIssue ci) (s.caravan ci) f) = [] := by
    refine faultsOf_none _ _ _ fun i hi => ?_
    obtain ⟨m, hm, rfl⟩ := List.mem_map.1 hi
    exact h.firstFault p (List.mem_filter.1 hm).1
  have hl : (s.atIssue ci).buildLanes (s.caravan ci).core j.sig f (s.wanting ci).length (s.members ci) 0 = s.lanes ci j.sig f :=
    buildLanes_begin s _ _ _ _ _ _ _
  have hf2 := p.faults
  have hn : (s.wanting ci).length ≠ 0 := fun e => h.wants (List.length_eq_zero_iff.1 e)
  have hq : (s.atIssue ci).queuesReady (s.lead ci) (j.sig.pops f (s.wanting ci).length)
      (j.sig.pushes f (s.wanting ci).length) = true := by
    simp only [State.atIssue, queuesReady_begin]; exact h.queues
  have hms : (s.members ci).filter (fun m => !([] : List Nat).contains m.agent) = s.members ci := by simp
  have hlm : (s.atIssue ci).laneMembers (s.caravan ci) = s.members ci := rfl
  have hw : (s.members ci).filter (·.want) = s.wanting ci := rfl
  have hlead : (s.atIssue ci).agent ((s.members ci).headD ⟨0, false⟩).agent = s.lead ci := rfl
  unfold Job.run
  simp only [hu, hlm, hw, hf1, List.map_nil, quadMates_nil, List.append_nil, hms, hlead, p.waits, hn, if_false, hq, Bool.not_true,
    Bool.false_eq_true, p.idle, Bool.false_and, hl, hf2, raise_nil]
  rfl

theorem find_zip {ls : List Lane} (h : (ls.map (·.agent)).Nodup) (rs : List LaneRes) {x : Lane × LaneRes} (hx : x ∈ ls.zip rs) :
    ((ls.zip rs).find? fun y => y.1.agent = x.1.agent) = some x := by
  induction ls generalizing rs with
  | nil => simp at hx
  | cons l ls ih =>
    cases rs with
    | nil => simp at hx
    | cons r rs =>
      rw [List.map_cons, List.nodup_cons] at h
      rw [List.zip_cons_cons] at hx ⊢
      rcases List.mem_cons.1 hx with rfl | hx
      · simp
      · have : l.agent ≠ x.1.agent := fun e => h.1 (e ▸ List.mem_map_of_mem (List.of_mem_zip hx).1)
        simp [this, ih h.2 rs hx]

/-- The members of the lanes of an instruction. -/
theorem lane_member {s : State} {ci : Nat} {g : Sig} {f : Fields} {l : Lane} (h : l ∈ s.lanes ci g f) :
    ∃ m ∈ s.members ci, m.agent = l.agent := by
  have h1 := List.mem_map_of_mem (f := Lane.agent) h
  rw [lanes_agents] at h1
  exact List.mem_map.1 h1

/-- The acquires of an instruction, told by its lanes. -/
theorem acquires_lanes (s : State) (ci : Nat) (g : Sig) (f : Fields) :
    (if (g.pops f (s.wanting ci).length).isEmpty then s.atIssue ci
      else ((s.lanes ci g f).filter (·.want)).foldl (fun t l => t.emptyAdv l.agent) (s.atIssue ci)) = s.atWork ci g f := by
  unfold State.atWork
  rw [← lanes_wanting s ci g f, List.foldl_map]

/-- When every lane passes its check, the work of the lanes and their results are all that is left. -/
theorem Job.complete_clean {j : Job} {s : State} {ci : Nat} {f : Fields} (h : Ready s ci j.sig f) (p : j.Passes f ci s)
    (hu : j.uniform = false) (hl : j.late = false) (hc : ∀ l ∈ s.lanes ci j.sig f, j.check (s.atIssue ci) l = none)
    {w : State} {rs : List LaneRes} (hp : j.perform (s.atWork ci j.sig f) (s.lanes ci j.sig f) = (w, rs))
    (hlen : rs.length = (s.lanes ci j.sig f).length) :
    j.complete f (s.caravan ci) (s.wanting ci).length (j.sig.pops f (s.wanting ci).length) (s.lanes ci j.sig f) [] (s.atIssue ci) =
      (s.completed w ci j.sig f ((s.lanes ci j.sig f).zip rs), (s.lanes ci j.sig f).zip rs) := by
  have hacq := acquires_lanes s ci j.sig f
  have hff : ∀ l ∈ s.lanes ci j.sig f, j.firstFault (s.atIssue ci) (s.caravan ci) f l.agent = none := fun l hx => by
    obtain ⟨m, hm, e⟩ := lane_member hx
    rw [← e]; exact h.firstFault p hm
  have hd := lanes_nodup s ci j.sig f
  generalize hls : s.lanes ci j.sig f = ls at hp hlen hacq hff hc hd ⊢
  have hlive : ls.filter (fun l => !([] : List Nat).contains l.agent) = ls := by simp
  have hgood : ls.filter (fun l => l.want || (!j.uniform && (j.firstFault (s.atIssue ci) (s.caravan ci) f l.agent).isNone &&
      (j.check (s.atIssue ci) l).isNone)) = ls := List.filter_eq_self.2 fun l hx => by simp [hu, hc l hx, hff l hx]
  have hstay : (fun i => ([] : List Nat).contains (((ls.filter (·.want)).map (·.agent)).getD i 0)) = fun _ => false := by
    funext i; simp
  unfold Job.complete
  simp only [hlive]
  rw [hgood, hacq]
  simp only [hu, hl, Bool.false_eq_true, if_false, hstay, hp]
  refine Prod.ext ?_ rfl
  unfold State.completed
  simp only
  congr 1
  unfold State.commitLanes
  have hfold : ∀ (xs : List (Lane × LaneRes)) (t : State), (∀ x ∈ xs, x ∈ ls.zip rs) →
      (xs.map (·.1)).foldl (fun t l => t.updAgent l.agent (j.commit f l (j.resultFor (ls.zip rs) l))) t =
      xs.foldl (fun t x => t.updAgent x.1.agent (commitAgent x.1.want (if x.2.late then [] else j.sig.writes f x.2) x.2.flags)) t := by
    intro xs
    induction xs with
    | nil => intro t _; rfl
    | cons x xs ih =>
      intro t hx
      rw [List.map_cons, List.foldl_cons, List.foldl_cons, ih _ fun y hy => hx y (List.mem_cons_of_mem _ hy)]
      have hr : j.resultFor (ls.zip rs) x.1 = some x.2 := by
        unfold Job.resultFor; rw [find_zip hd rs (hx x List.mem_cons_self)]
      have hk : j.commit f x.1 (some x.2) = commitAgent x.1.want (if x.2.late then [] else j.sig.writes f x.2) x.2.flags := by
        funext a; simp [Job.commit, hl]
      rw [hr, hk]
  have := hfold (ls.zip rs) (w.takeTokens (s.caravan ci).core (j.sig.pops f (s.wanting ci).length) (s.wanting ci).length fun _ => false)
    fun x hx => hx
  rw [List.map_fst_zip (by omega)] at this
  exact this

end Sys2Proof.Machine
end

