-- ==== Sys2Proof/Laws/Storage.lean ====
section
/-! SUPPORT. Laws of physical writes: what they touch (`StorageOnly`), and that storage keeps its canonical form. -/

namespace Sys2Proof.Machine

theorem State.StorageOnly.refl (s : State) : s.StorageOnly s := ⟨rfl⟩

theorem State.StorageOnly.trans {s t u : State} (h : s.StorageOnly t) (k : t.StorageOnly u) : s.StorageOnly u := by
  constructor; rw [k.eq, h.eq]

section
variable {s t : State} (h : s.StorageOnly t)
include h
theorem State.StorageOnly.agents : t.agents = s.agents := by rw [h.eq]
theorem State.StorageOnly.caravans : t.caravans = s.caravans := by rw [h.eq]
theorem State.StorageOnly.blocks : t.blocks = s.blocks := by rw [h.eq]
theorem State.StorageOnly.launches : t.launches = s.launches := by rw [h.eq]
theorem State.StorageOnly.contexts : t.contexts = s.contexts := by rw [h.eq]
theorem State.StorageOnly.cores : t.cores = s.cores := by rw [h.eq]
theorem State.StorageOnly.pending : t.pending = s.pending := by rw [h.eq]
theorem State.StorageOnly.mgmt : t.mgmt = s.mgmt := by rw [h.eq]
theorem State.StorageOnly.carve : t.carve = s.carve := by rw [h.eq]
theorem State.StorageOnly.hub : t.hub = s.hub := by rw [h.eq]
theorem State.StorageOnly.agent (i : Nat) : t.agent i = s.agent i := by rw [h.eq]; rfl
theorem State.StorageOnly.caravan (i : Nat) : t.caravan i = s.caravan i := by rw [h.eq]; rfl
theorem State.StorageOnly.localPa (pa : Nat) : t.localPa pa = s.localPa pa := by rw [h.eq]; rfl
end

/-- A chain of writes is a write. -/
theorem State.StorageOnly.foldl {β : Type} (f : State → β → State) (hf : ∀ (s : State) (x : β), s.StorageOnly (f s x)) (xs : List β) (s : State) :
    s.StorageOnly (xs.foldl f s) := by
  induction xs generalizing s with
  | nil => exact State.StorageOnly.refl s
  | cons x xs ih => exact (hf s x).trans (ih (f s x))

theorem State.StorageOnly.latent (s : State) (l : List Latent) : s.StorageOnly { s with latent := l } := ⟨rfl⟩
theorem State.StorageOnly.reds (s : State) (l : List PendRed) : s.StorageOnly { s with reds := l } := ⟨rfl⟩

theorem poke_only (s : State) (ctx pa : Nat) (bs : List Byte) : s.StorageOnly (s.poke ctx pa bs) := ⟨rfl⟩

theorem poke_mem (s : State) (ctx pa : Nat) (bs : List Byte) : (s.poke ctx pa bs).mem = writeBytes s.mem (s.localPa pa) bs := rfl

theorem updLog_only (s : State) (a : ArrayId) (f : ArrayLog → ArrayLog) : s.StorageOnly (s.updLog a f) := by
  unfold State.updLog; split <;> exact ⟨rfl⟩

theorem fireInjection_only (s : State) (a : ArrayId) (x l : Nat) : s.StorageOnly (s.fireInjection a x l) := by
  unfold State.fireInjection
  simp only
  split
  · exact (updLog_only s a _).trans (State.StorageOnly.latent _ _)
  · exact ⟨rfl⟩

theorem put_only (s : State) (ctx pa : Nat) (bs : List Byte) : s.StorageOnly (s.put ctx pa bs) := by
  have h := fun l => (poke_only s ctx pa bs).trans (State.StorageOnly.latent (s.poke ctx pa bs) l)
  unfold State.put
  simp only
  split
  · exact h _
  · exact (h _).trans (State.StorageOnly.foldl _
      (fun s _ => (fireInjection_only s _ _ _).trans (fireInjection_only _ _ _ _)) _ _)

/-! ## What the home slices do -/

theorem State.SlicesOnly.refl (s : State) : s.SlicesOnly s := ⟨rfl⟩

theorem State.SlicesOnly.trans {s t u : State} (h : s.SlicesOnly t) (k : t.SlicesOnly u) : s.SlicesOnly u := by
  constructor; rw [k.eq, h.eq]

theorem State.StorageOnly.slices {s t : State} (h : s.StorageOnly t) : s.SlicesOnly t := by
  constructor; rw [h.eq]

section
variable {s t : State} (h : s.SlicesOnly t)
include h
theorem State.SlicesOnly.agents : t.agents = s.agents := by rw [h.eq]
theorem State.SlicesOnly.caravans : t.caravans = s.caravans := by rw [h.eq]
theorem State.SlicesOnly.cores : t.cores = s.cores := by rw [h.eq]
theorem State.SlicesOnly.pending : t.pending = s.pending := by rw [h.eq]
theorem State.SlicesOnly.agent (i : Nat) : t.agent i = s.agent i := by rw [h.eq]; rfl
theorem State.SlicesOnly.caravan (i : Nat) : t.caravan i = s.caravan i := by rw [h.eq]; rfl
end

theorem State.SlicesOnly.foldl {β : Type} (f : State → β → State) (hf : ∀ (s : State) (x : β), s.SlicesOnly (f s x)) (xs : List β) (s : State) :
    s.SlicesOnly (xs.foldl f s) := by
  induction xs generalizing s with
  | nil => exact State.SlicesOnly.refl s
  | cons x xs ih => exact (hf s x).trans (ih (f s x))

theorem postEventAt_slices (s : State) (q : DWord) (kind ctx core : Nat) (d0 d1 : DWord) :
    s.SlicesOnly (s.postEventAt q kind ctx core d0 d1) := by
  unfold State.postEventAt
  simp only
  split
  · exact ⟨rfl⟩
  · exact (put_only s _ _ _).slices.trans ⟨rfl⟩

theorem logDropped_slices (s : State) (a : ArrayId) (loc : Nat) (ctx : Option Nat) (inj : Bool) :
    s.SlicesOnly (s.logDropped a loc ctx inj) := by
  unfold State.logDropped
  simp only
  refine State.SlicesOnly.trans ?_ (postEventAt_slices _ _ _ _ _ _ _)
  have h : s.SlicesOnly s.takeSeq.2 := ⟨rfl⟩
  cases ctx with
  | none => exact h.trans (updLog_only _ _ _).slices
  | some c => exact (h.trans (updLog_only _ _ _).slices).trans ⟨rfl⟩

theorem logCorrected_slices (s : State) (a : ArrayId) (loc : Nat) (ctx : Option Nat) (inj : Bool) :
    s.SlicesOnly (s.logCorrected a loc ctx inj) := by
  unfold State.logCorrected
  simp only
  have h := (updLog_only s a fun l => { l with corr := satInc l.corr }).slices
  split
  · exact h
  · exact (h.trans (State.SlicesOnly.trans (t := (s.updLog a _).takeSeq.2) ⟨rfl⟩ (updLog_only _ _ _).slices))

theorem meetErrors_slices (s : State) (a : ArrayId) (loc : Nat) (ctx : Option Nat) (drops : Nat) {lose : State → State}
    (hl : ∀ t : State, t.SlicesOnly (lose t)) : s.SlicesOnly (s.meetErrors a loc ctx drops lose) := by
  unfold State.meetErrors
  simp only
  split
  · exact ⟨rfl⟩
  · have h0 : s.SlicesOnly { s with latent := s.latent.filter fun l => !(l.arr = a && l.loc = loc) } := ⟨rfl⟩
    have h1 := h0.trans (State.SlicesOnly.foldl (fun (t : State) (l : Latent) =>
      if !l.double then t.logCorrected a loc ctx l.injected
      else (List.range drops).foldl (fun u _ => u.logDropped a loc ctx l.injected) t) (fun t l => by
        split
        · exact logCorrected_slices _ _ _ _ _
        · exact State.SlicesOnly.foldl _ (fun u _ => logDropped_slices _ _ _ _ _) _ _)
      (s.latent.filter fun l => l.arr = a && l.loc = loc) _)
    split
    · exact h1.trans (hl _)
    · exact h1

theorem State.SlicesOnly.mem (s : State) (m : Memory) : s.SlicesOnly { s with mem := m } := ⟨rfl⟩
theorem zeroSector_slices (s : State) (sec : Nat) : s.SlicesOnly (s.zeroSector sec) := State.SlicesOnly.mem s _
theorem loseLine_slices (s : State) (line : Nat) : s.SlicesOnly (s.loseLine line) := ⟨rfl⟩

theorem meetTag_slices (s : State) (ctx : Option Nat) (sec : Nat) : s.SlicesOnly (s.meetTag ctx sec) :=
  meetErrors_slices s _ _ ctx _ fun u => loseLine_slices u _

theorem meetSector_slices (s : State) (ctx : Option Nat) (sec : Nat) : s.SlicesOnly (s.meetSector ctx sec) := by
  have h2 : ∀ (t : State) a loc n, t.SlicesOnly (t.meetErrors a loc ctx n fun u => u.zeroSector sec) :=
    fun t a loc n => meetErrors_slices t a loc ctx n fun u => zeroSector_slices u sec
  have h1 := meetTag_slices s ctx sec
  unfold State.meetSector
  simp only
  split <;> split <;> first | exact h1.trans (h2 _ _ _ _) | exact (h1.trans (h2 _ _ _ _)).trans (h2 _ _ _ _)

theorem meetWrite_slices (s : State) (ctx pa n : Nat) : s.SlicesOnly (s.meetWrite ctx pa n) := by
  unfold State.meetWrite
  split
  · exact State.SlicesOnly.refl s
  · refine State.SlicesOnly.foldl _ (fun t sec => ?_) _ _
    split
    · exact State.SlicesOnly.refl t
    · split
      · exact meetTag_slices _ _ _
      · exact meetSector_slices _ _ _

theorem applyReds_slices (s : State) (pa n : Nat) : s.SlicesOnly (s.applyReds pa n) := by
  unfold State.applyReds
  simp only
  split
  · exact State.SlicesOnly.refl s
  · exact (((State.StorageOnly.reds s _).slices).trans (meetWrite_slices _ _ _ _)).trans (put_only _ _ _ _).slices

theorem settleReds_slices (s : State) (pa n : Nat) : s.SlicesOnly (s.settleReds pa n) := by
  unfold State.settleReds
  split
  · exact State.SlicesOnly.refl s
  · exact State.SlicesOnly.foldl _ (fun s _ => applyReds_slices s _ _) _ _

/-- A physical write touches storage, and what errors met there count and post. -/
theorem writePa_slices (s : State) (ctx pa : Nat) (bs : List Byte) : s.SlicesOnly (s.writePa ctx pa bs) :=
  ((settleReds_slices s _ _).trans (meetWrite_slices _ _ _ _)).trans (put_only _ _ _ _).slices

theorem writeRmw_slices (s : State) (ctx pa : Nat) (bs : List Byte) : s.SlicesOnly (s.writeRmw ctx pa bs) :=
  (writePa_slices s ctx pa bs).trans ⟨rfl⟩

theorem meetPa_slices (s : State) (ctx : Option Nat) (pa n : Nat) : s.SlicesOnly (s.meetPa ctx pa n) := by
  unfold State.meetPa
  simp only
  have h := settleReds_slices s (s.localPa pa) n
  split
  · exact h
  · refine h.trans (State.SlicesOnly.foldl _ (fun t sec => ?_) _ _)
    split
    · exact meetSector_slices _ _ _
    · exact State.SlicesOnly.refl t

theorem atomAt_slices (s : State) (ctx pa : Nat) (op : AtomOp) (v : Nat) : s.SlicesOnly (s.atomAt ctx pa op v).1 := by
  unfold State.atomAt
  simp only
  have h := (meetPa_slices s (some ctx) pa op.bytes).trans
    (⟨rfl⟩ : (s.meetPa (some ctx) pa op.bytes).SlicesOnly ((s.meetPa (some ctx) pa op.bytes).closeMerges (s.localPa pa) op.bytes))
  split
  · exact h.trans (writeRmw_slices _ _ _ _)
  · exact h

theorem halfAt_slices (s : State) (ctx pa : Nat) (isBf : Bool) (v : BitVec 16) : s.SlicesOnly (s.halfAt ctx pa isBf v).1 :=
  (meetPa_slices s _ _ _).trans (writeRmw_slices _ _ _ _)

theorem acceptHalf_slices (s : State) (ctx pa : Nat) (isBf : Bool) (v : BitVec 16) : s.SlicesOnly (s.acceptHalf ctx pa isBf v) := by
  unfold State.acceptHalf
  simp only
  split
  · exact (settleReds_slices s _ _).trans ⟨rfl⟩
  · exact ⟨rfl⟩

theorem halfRed_slices (s : State) (ctx pa : Nat) (so isBf : Bool) (v : BitVec 16) : s.SlicesOnly (s.halfRed ctx pa so isBf v) := by
  unfold State.halfRed
  split
  · exact halfAt_slices _ _ _ _ _
  · exact acceptHalf_slices _ _ _ _ _

/-- What a home slice performs touches storage, and what errors met there count and post. -/
theorem perform_slices (s : State) (p : PendStore) : s.SlicesOnly (s.perform p) := by
  unfold State.perform
  split
  · exact State.SlicesOnly.foldl _ (fun t _ => writePa_slices t _ _ _) _ _
  · exact State.SlicesOnly.foldl _ (fun t _ => atomAt_slices t _ _ _ _) _ _
  · exact State.SlicesOnly.foldl _ (fun t _ => halfRed_slices t _ _ _ _ _) _ _

/-- Performing pending accesses: beside what the slices do, exactly those are pending no more. -/
theorem performWhere_slices (s : State) (f : PendStore → Bool) :
    ({ s with pending := s.pending.filter fun p => !f p } : State).SlicesOnly (s.performWhere f) :=
  State.SlicesOnly.foldl _ perform_slices _ _

theorem performWhere_agents (s : State) (f : PendStore → Bool) : (s.performWhere f).agents = s.agents := (performWhere_slices s f).agents
theorem performWhere_caravans (s : State) (f : PendStore → Bool) : (s.performWhere f).caravans = s.caravans := (performWhere_slices s f).caravans
theorem performWhere_cores (s : State) (f : PendStore → Bool) : (s.performWhere f).cores = s.cores := (performWhere_slices s f).cores

theorem flushStores_pending (s : State) (i : Nat) : (s.flushStores i).pending = s.pending.filter fun p => !p.agents.contains i := by
  have h := (performWhere_slices s fun p => p.agents.contains i).pending
  simpa [State.flushStores] using h

theorem flushStores_agents (s : State) (i : Nat) : (s.flushStores i).agents = s.agents := performWhere_agents s _

/-- A release performs some of the agent's own accesses. -/
theorem release0_slices (s : State) (i : Nat) :
    ∃ ps, ({ s with pending := ps } : State).SlicesOnly (s.release0 i) := ⟨_, performWhere_slices s _⟩

/-! ## The canonical form -/

theorem foldl_memoryOk {β : Type} (f : State → β → State) (hf : ∀ (s : State) (x : β), MemoryOk s → MemoryOk (f s x)) (xs : List β) (s : State)
    (h : MemoryOk s) : MemoryOk (xs.foldl f s) := by
  induction xs generalizing s with
  | nil => exact h
  | cons x xs ih => exact ih (f s x) (hf s x h)

theorem poke_memoryOk {s : State} (h : MemoryOk s) (ctx pa : Nat) (bs : List Byte) : MemoryOk (s.poke ctx pa bs) :=
  wf_writeBytes h _ _

theorem updLog_mem (s : State) (a : ArrayId) (f : ArrayLog → ArrayLog) : (s.updLog a f).mem = s.mem := by
  unfold State.updLog; split <;> rfl

theorem fireInjection_mem (s : State) (a : ArrayId) (x l : Nat) : (s.fireInjection a x l).mem = s.mem := by
  unfold State.fireInjection
  simp only
  split
  · exact updLog_mem s a _
  · rfl

theorem put_memoryOk {s : State} (h : MemoryOk s) (ctx pa : Nat) (bs : List Byte) : MemoryOk (s.put ctx pa bs) := by
  unfold State.put
  simp only
  have h1 := poke_memoryOk h ctx pa bs
  split
  · exact h1
  · refine foldl_memoryOk _ (fun s x h => ?_) _ _ (show MemoryOk { s.poke ctx pa bs with latent := _ } from h1)
    unfold MemoryOk; rw [fireInjection_mem, fireInjection_mem]; exact h

theorem postEventAt_memoryOk {s : State} (h : MemoryOk s) (q : DWord) (kind ctx core : Nat) (d0 d1 : DWord) :
    MemoryOk (s.postEventAt q kind ctx core d0 d1) := by
  unfold State.postEventAt
  simp only
  split
  · exact h
  · exact put_memoryOk h _ _ _

theorem logDropped_memoryOk {s : State} (h : MemoryOk s) (a : ArrayId) (loc : Nat) (ctx : Option Nat) (inj : Bool) :
    MemoryOk (s.logDropped a loc ctx inj) := by
  unfold State.logDropped
  simp only
  refine postEventAt_memoryOk ?_ _ _ _ _ _ _
  have h1 : ∀ f, MemoryOk (s.takeSeq.2.updLog a f) := fun f => by unfold MemoryOk; rw [updLog_mem]; exact h
  cases ctx with
  | none => exact h1 _
  | some c => exact h1 _

theorem logCorrected_memoryOk {s : State} (h : MemoryOk s) (a : ArrayId) (loc : Nat) (ctx : Option Nat) (inj : Bool) :
    MemoryOk (s.logCorrected a loc ctx inj) := by
  have h1 : ∀ f, MemoryOk (s.updLog a f) := fun f => by unfold MemoryOk; rw [updLog_mem]; exact h
  unfold State.logCorrected
  simp only
  split
  · exact h1 _
  · unfold MemoryOk; rw [updLog_mem]; exact h1 _

theorem meetErrors_memoryOk {s : State} (h : MemoryOk s) (a : ArrayId) (loc : Nat) (ctx : Option Nat) (drops : Nat) {lose : State → State}
    (hl : ∀ t, MemoryOk t → MemoryOk (lose t)) : MemoryOk (s.meetErrors a loc ctx drops lose) := by
  unfold State.meetErrors
  simp only
  split
  · exact h
  · have h1 : MemoryOk ((s.latent.filter fun l => l.arr = a && l.loc = loc).foldl (fun (t : State) (l : Latent) =>
        if !l.double then t.logCorrected a loc ctx l.injected
        else (List.range drops).foldl (fun u _ => u.logDropped a loc ctx l.injected) t)
        { s with latent := s.latent.filter fun l => !(l.arr = a && l.loc = loc) }) := by
      refine foldl_memoryOk _ (fun t l ht => ?_) _ _ h
      split
      · exact logCorrected_memoryOk ht _ _ _ _
      · exact foldl_memoryOk _ (fun u _ hu => logDropped_memoryOk hu _ _ _ _) _ _ ht
    split
    · exact hl _ h1
    · exact h1

theorem wf_writeAll {m : Memory} (h : m.wf = true) (ds : List Dirty) :
    (ds.foldl (fun m d => writeBytes m d.sector d.backing) m).wf = true := by
  induction ds generalizing m with
  | nil => exact h
  | cons d ds ih => exact ih (wf_writeBytes h _ _)

theorem memoryOk_of {s : State} {m : Memory} (h : m.wf = true) : MemoryOk { s with mem := m } := h

theorem zeroSector_memoryOk {s : State} (h : MemoryOk s) (sec : Nat) : MemoryOk (s.zeroSector sec) := memoryOk_of (wf_writeBytes h _ _)

theorem meetTag_memoryOk {s : State} (h : MemoryOk s) (ctx : Option Nat) (sec : Nat) : MemoryOk (s.meetTag ctx sec) :=
  meetErrors_memoryOk h _ _ ctx _ fun _ hu => wf_writeAll hu _

theorem meetSector_memoryOk {s : State} (h : MemoryOk s) (ctx : Option Nat) (sec : Nat) : MemoryOk (s.meetSector ctx sec) := by
  have h2 : ∀ (t : State) a loc n, MemoryOk t → MemoryOk (t.meetErrors a loc ctx n fun u => u.zeroSector sec) :=
    fun t a loc n ht => meetErrors_memoryOk ht a loc ctx n fun u hu => zeroSector_memoryOk hu sec
  have h1 := meetTag_memoryOk h ctx sec
  unfold State.meetSector
  simp only
  split <;> split <;> first | exact h2 _ _ _ _ h1 | exact h2 _ _ _ _ (h2 _ _ _ _ h1)

theorem meetWrite_memoryOk {s : State} (h : MemoryOk s) (ctx pa n : Nat) : MemoryOk (s.meetWrite ctx pa n) := by
  unfold State.meetWrite
  split
  · exact h
  · refine foldl_memoryOk _ (fun t sec ht => ?_) _ _ h
    split
    · exact ht
    · split
      · exact meetTag_memoryOk ht _ _
      · exact meetSector_memoryOk ht _ _

theorem applyReds_memoryOk {s : State} (h : MemoryOk s) (pa n : Nat) : MemoryOk (s.applyReds pa n) := by
  unfold State.applyReds
  simp only
  split
  · exact h
  · have h1 : ∀ l, MemoryOk { s with reds := l } := fun _ => h
    exact put_memoryOk (meetWrite_memoryOk (h1 _) _ _ _) _ _ _

theorem settleReds_memoryOk {s : State} (h : MemoryOk s) (pa n : Nat) : MemoryOk (s.settleReds pa n) := by
  unfold State.settleReds
  split
  · exact h
  · exact foldl_memoryOk _ (fun s _ h => applyReds_memoryOk h _ _) _ _ h

/-- A physical write keeps the canonical form. -/
theorem writePa_memoryOk {s : State} (h : MemoryOk s) (ctx pa : Nat) (bs : List Byte) : MemoryOk (s.writePa ctx pa bs) :=
  put_memoryOk (meetWrite_memoryOk (settleReds_memoryOk h _ _) _ _ _) _ _ _

theorem writeRmw_memoryOk {s : State} (h : MemoryOk s) (ctx pa : Nat) (bs : List Byte) : MemoryOk (s.writeRmw ctx pa bs) :=
  writePa_memoryOk h ctx pa bs

theorem meetPa_memoryOk {s : State} (h : MemoryOk s) (ctx : Option Nat) (pa n : Nat) : MemoryOk (s.meetPa ctx pa n) := by
  unfold State.meetPa
  simp only
  have h1 := settleReds_memoryOk h (s.localPa pa) n
  split
  · exact h1
  · refine foldl_memoryOk _ (fun t sec ht => ?_) _ _ h1
    split
    · exact meetSector_memoryOk ht _ _
    · exact ht

theorem atomAt_memoryOk {s : State} (h : MemoryOk s) (ctx pa : Nat) (op : AtomOp) (v : Nat) : MemoryOk (s.atomAt ctx pa op v).1 := by
  have h1 := meetPa_memoryOk h (some ctx) pa op.bytes
  unfold State.atomAt
  simp only
  split
  · exact writeRmw_memoryOk (s := (s.meetPa (some ctx) pa op.bytes).closeMerges (s.localPa pa) op.bytes) h1 _ _ _
  · exact h1

theorem halfRed_memoryOk {s : State} (h : MemoryOk s) (ctx pa : Nat) (so isBf : Bool) (v : BitVec 16) :
    MemoryOk (s.halfRed ctx pa so isBf v) := by
  unfold State.halfRed
  split
  · exact writeRmw_memoryOk (meetPa_memoryOk h _ _ _) _ _ _
  · unfold State.acceptHalf
    simp only
    split
    · exact settleReds_memoryOk h _ _
    · exact h

/-- What a home slice performs keeps the canonical form. -/
theorem perform_memoryOk {s : State} (h : MemoryOk s) (p : PendStore) : MemoryOk (s.perform p) := by
  unfold State.perform
  split
  · exact foldl_memoryOk _ (fun t _ ht => writePa_memoryOk ht _ _ _) _ _ h
  · exact foldl_memoryOk _ (fun t _ ht => atomAt_memoryOk ht _ _ _ _) _ _ h
  · exact foldl_memoryOk _ (fun t _ ht => halfRed_memoryOk ht _ _ _ _ _) _ _ h

theorem performWhere_memoryOk {s : State} (h : MemoryOk s) (f : PendStore → Bool) : MemoryOk (s.performWhere f) :=
  foldl_memoryOk _ (fun _ p ht => perform_memoryOk ht p) _ _ h

theorem flushStores_memoryOk {s : State} (h : MemoryOk s) (i : Nat) : MemoryOk (s.flushStores i) := performWhere_memoryOk h _

end Sys2Proof.Machine
end

