-- ==== Sys2Proof/Laws/Commit.lean ====
section
/-! SUPPORT. Laws of results: what writing a result changes in an agent, what completing the lanes of an instruction
changes in the machine, and the spec lemma of every instruction that only gives its lanes a result (`issue_results`). -/

namespace Sys2Proof.Machine

/-! ## One agent -/

/-- Two agents that differ at most in registers and latches. -/
structure Agent.RegsOnly (a b : Agent) : Prop where
  eq : b = { a with regs := b.regs, wrote := b.wrote, latches := b.latches }

theorem Agent.RegsOnly.refl (a : Agent) : a.RegsOnly a := ⟨rfl⟩
theorem Agent.RegsOnly.trans {a b c : Agent} (h : a.RegsOnly b) (k : b.RegsOnly c) : a.RegsOnly c := by
  constructor; rw [k.eq, h.eq]

theorem setReg_only (a : Agent) (k : Nat) (v : Word) : a.RegsOnly (a.setReg k v) := ⟨rfl⟩
theorem setPair_only (a : Agent) (k : Nat) (v : DWord) : a.RegsOnly (a.setPair k v) := ⟨rfl⟩
theorem setQuad_only (a : Agent) (k : Nat) (v : QWord) : a.RegsOnly (a.setQuad k v) := ⟨rfl⟩
theorem shiftLatch_only (a : Agent) (l : Latch) : a.RegsOnly (a.shiftLatch l) := ⟨rfl⟩

theorem writeDst_only (a : Agent) (d : BitVec 10) (r : Res) (v : QWord) : a.RegsOnly (a.writeDst d r v) := by
  unfold Agent.writeDst
  simp only
  split
  · split
    · exact setPair_only _ _ _
    · split
      · exact Agent.RegsOnly.refl a
      · exact setPair_only _ _ _
      · exact setQuad_only _ _ _
      · exact setReg_only _ _ _
  · exact Agent.RegsOnly.refl a

theorem writes_only (born : Nat) (ws : List (BitVec 10 × Res × QWord)) (a : Agent) :
    a.RegsOnly (ws.foldl (fun (x : Agent) w => (x.writeDst w.1 w.2.1 w.2.2).shiftLatch (resultLatch x w.2.1 w.2.2 born)) a) := by
  induction ws generalizing a with
  | nil => exact Agent.RegsOnly.refl a
  | cons w ws ih => exact ((writeDst_only a _ _ _).trans (shiftLatch_only _ _)).trans (ih _)

/-- Beside registers and latches, a result advances the instruction count and accumulates flags, and changes nothing. -/
theorem commitAgent_frame (want : Bool) (ws : List (BitVec 10 × Res × QWord)) (fl : Flags) (a : Agent) :
    commitAgent want ws fl a = { a with
      regs := (commitAgent want ws fl a).regs
      wrote := (commitAgent want ws fl a).wrote
      latches := (commitAgent want ws fl a).latches
      issued := a.issued + 1
      fpstat := if want && !a.drover then accumFlags a.fpstat fl else a.fpstat } := by
  unfold commitAgent
  simp only
  generalize hb : ws.foldl (fun (x : Agent) w => (x.writeDst w.1 w.2.1 w.2.2).shiftLatch
    (resultLatch x w.2.1 w.2.2 (a.issued + 1))) a = b
  have h := (hb ▸ writes_only (a.issued + 1) ws a : a.RegsOnly b)
  rw [h.eq]

@[simp] theorem commitAgent_wait (want : Bool) (ws : List (BitVec 10 × Res × QWord)) (fl : Flags) (a : Agent) :
    (commitAgent want ws fl a).wait = a.wait := by rw [commitAgent_frame]

/-! ## The lanes of an instruction -/

theorem commitLanes_frame (t : State) (g : Sig) (f : Fields) (rs : List (Lane × LaneRes)) :
    t.commitLanes g f rs = { t with agents := (t.commitLanes g f rs).agents } := by
  unfold State.commitLanes
  induction rs generalizing t with
  | nil => rfl
  | cons x rs ih => rw [List.foldl_cons, ih]; rfl

theorem commitLanes_cons (t : State) (g : Sig) (f : Fields) (x : Lane × LaneRes) (rs : List (Lane × LaneRes)) :
    t.commitLanes g f (x :: rs) =
      (t.updAgent x.1.agent (commitAgent x.1.want (if x.2.late then [] else g.writes f x.2) x.2.flags)).commitLanes g f rs := rfl

theorem commitLanes_length (t : State) (g : Sig) (f : Fields) (rs : List (Lane × LaneRes)) :
    (t.commitLanes g f rs).agents.length = t.agents.length := by
  induction rs generalizing t with
  | nil => rfl
  | cons x rs ih => rw [commitLanes_cons, ih]; simp

/-- An agent in no lane is left alone. -/
theorem commitLanes_other (g : Sig) (f : Fields) {rs : List (Lane × LaneRes)} {i : Nat} (h : i ∉ rs.map (·.1.agent)) (t : State) :
    (t.commitLanes g f rs).agent i = t.agent i := by
  induction rs generalizing t with
  | nil => rfl
  | cons x rs ih =>
    rw [List.map_cons, List.mem_cons, not_or] at h
    rw [commitLanes_cons, ih h.2, agent_updAgent_other _ _ (Ne.symm h.1)]

/-- Each lane's agent gets that lane's result. -/
theorem commitLanes_lane (g : Sig) (f : Fields) {rs : List (Lane × LaneRes)} (hd : (rs.map (·.1.agent)).Nodup)
    {x : Lane × LaneRes} (hx : x ∈ rs) (t : State) (hr : x.1.agent < t.agents.length) :
    (t.commitLanes g f rs).agent x.1.agent =
      commitAgent x.1.want (if x.2.late then [] else g.writes f x.2) x.2.flags (t.agent x.1.agent) := by
  induction rs generalizing t with
  | nil => cases hx
  | cons y rs ih =>
    rw [List.map_cons, List.nodup_cons] at hd
    rw [commitLanes_cons]
    rcases List.mem_cons.1 hx with rfl | hx
    · rw [commitLanes_other g f hd.1, agent_updAgent_same _ _ hr]
    · have : y.1.agent ≠ x.1.agent := fun e => hd.1 (e ▸ List.mem_map_of_mem (f := fun z : Lane × LaneRes => z.1.agent) hx)
      rw [ih hd.2 hx _ (by simpa using hr), agent_updAgent_other _ _ this]

theorem commitLanes_wait (g : Sig) (f : Fields) (rs : List (Lane × LaneRes)) (i : Nat) (t : State) :
    ((t.commitLanes g f rs).agent i).wait = (t.agent i).wait := by
  induction rs generalizing t with
  | nil => rfl
  | cons x rs ih => rw [commitLanes_cons, ih, agent_updAgent]; split <;> simp

/-! ## Tokens and pushes -/

theorem takeTokens_frame (t : State) (core : Nat) (pops : List (Nat × Nat)) (n : Nat) (stay : Nat → Bool) :
    t.takeTokens core pops n stay = { t with cores := (t.takeTokens core pops n stay).cores } := by
  unfold State.takeTokens
  induction pops generalizing t with
  | nil => rfl
  | cons x pops ih => rw [List.foldl_cons, ih]; rfl

@[simp] theorem takeTokens_nil (t : State) (core n : Nat) (stay : Nat → Bool) : t.takeTokens core [] n stay = t := rfl

/-- A push performs pending accesses of the pushing agents and changes the queue, and nothing else. -/
theorem pushResults_frame (t : State) (core : Nat) (g : Sig) (f : Fields) (rs : List (Lane × LaneRes)) :
    ({ t with cores := (t.pushResults core g f rs).cores, pending := (t.pushResults core g f rs).pending } : State).SlicesOnly
      (t.pushResults core g f rs) := by
  have key : ∀ (q : Nat) (v : Lane × LaneRes → State → DWord) (xs : List (Lane × LaneRes)) (t : State),
      ∃ cs ps, ({ t with cores := cs, pending := ps } : State).SlicesOnly (xs.foldl (fun t x =>
        if x.1.want && !x.2.late then (t.release0 x.1.agent).updTokens core q fun ts => ts ++ [v x t] else t) t) := by
    intro q v xs
    induction xs with
    | nil => intro t; exact ⟨t.cores, t.pending, ⟨rfl⟩⟩
    | cons x xs ih =>
      intro t
      rw [List.foldl_cons]
      obtain ⟨cs, ps, h⟩ := ih (if x.1.want && !x.2.late then (t.release0 x.1.agent).updTokens core q fun ts => ts ++ [v x t] else t)
      refine ⟨cs, ps, State.SlicesOnly.trans ?_ h⟩
      split
      · constructor
        obtain ⟨qs, h0⟩ := release0_slices t x.1.agent
        have h1 := h0.eq
        simp only [State.updTokens, State.updCore]
        rw [h1]
      · exact ⟨rfl⟩
  unfold State.pushResults
  split
  · exact ⟨rfl⟩
  · exact ⟨rfl⟩
  · rename_i q _ _
    obtain ⟨cs, ps, h⟩ := key q (fun x t => BitVec.ofNat 64 (extendResult (t.agent x.1.agent).drover (g.resOf x.2) x.2.val)) rs t
    have h1 := h.cores
    have h2 := h.pending
    simp only at h1 h2
    rw [h1, h2]; exact h

/-- Without a queue as its destination an instruction pushes nothing. -/
theorem pushResults_none (t : State) (core : Nat) {g : Sig} {f : Fields} (rs : List (Lane × LaneRes))
    (h : g.dst = .none ∨ queueField f.dst = none) : t.pushResults core g f rs = t := by
  unfold State.pushResults
  rcases h with h | h
  · rw [h]
  · rw [h]; cases g.dst <;> rfl

/-! ## The completed instruction -/

theorem framesCompose (w t1 t2 t3 : State) (h1 : t1 = { w with cores := t1.cores }) (h2 : t2 = { t1 with agents := t2.agents })
    (h3 : ({ t2 with cores := t3.cores, pending := t3.pending } : State).SlicesOnly t3) :
    ({ w with agents := t3.agents, cores := t3.cores, pending := t3.pending } : State).SlicesOnly t3 := by
  have ha : t3.agents = t2.agents := h3.agents
  constructor
  have e := h3.eq
  rw [h2, h1] at e
  rw [ha]
  exact e

section
variable (s w : State) (ci : Nat) (g : Sig) (f : Fields) (rs : List (Lane × LaneRes))

/-- What completing the lanes touches, beside storage. -/
theorem completed_frame :
    ({ w with agents := (s.completed w ci g f rs).agents, cores := (s.completed w ci g f rs).cores,
              pending := (s.completed w ci g f rs).pending } : State).SlicesOnly (s.completed w ci g f rs) :=
  framesCompose w _ _ _ (takeTokens_frame _ _ _ _ _) (commitLanes_frame _ _ _ _) (pushResults_frame _ _ _ _ _)

theorem completed_agents : (s.completed w ci g f rs).agents =
    ((w.takeTokens (s.caravan ci).core (g.pops f (s.wanting ci).length) (s.wanting ci).length fun _ => false).commitLanes g f rs).agents := by
  unfold State.completed
  simp only
  exact (pushResults_frame ((w.takeTokens (s.caravan ci).core (g.pops f (s.wanting ci).length) (s.wanting ci).length fun _ => false).commitLanes
    g f rs) (s.caravan ci).core g f rs).agents

theorem completed_caravan (c : Nat) : (s.completed w ci g f rs).caravan c = w.caravan c := by
  rw [(completed_frame s w ci g f rs).caravan]; rfl

theorem completed_other {i : Nat} (h : i ∉ rs.map (·.1.agent)) : (s.completed w ci g f rs).agent i = w.agent i := by
  have h1 := commitLanes_other g f h (w.takeTokens (s.caravan ci).core (g.pops f (s.wanting ci).length) (s.wanting ci).length fun _ => false)
  unfold State.agent at h1 ⊢
  rw [completed_agents, h1, takeTokens_frame]

theorem completed_lane (hd : (rs.map (·.1.agent)).Nodup) {x : Lane × LaneRes} (hx : x ∈ rs) (hr : x.1.agent < w.agents.length) :
    (s.completed w ci g f rs).agent x.1.agent =
      commitAgent x.1.want (if x.2.late then [] else g.writes f x.2) x.2.flags (w.agent x.1.agent) := by
  have h1 := commitLanes_lane g f hd hx
    (w.takeTokens (s.caravan ci).core (g.pops f (s.wanting ci).length) (s.wanting ci).length fun _ => false)
    (by rw [takeTokens_frame]; exact hr)
  unfold State.agent at h1 ⊢
  rw [completed_agents, h1, takeTokens_frame]

theorem completed_wait (i : Nat) : ((s.completed w ci g f rs).agent i).wait = (w.agent i).wait := by
  have h1 := commitLanes_wait g f rs i
    (w.takeTokens (s.caravan ci).core (g.pops f (s.wanting ci).length) (s.wanting ci).length fun _ => false)
  unfold State.agent at h1 ⊢
  rw [completed_agents, h1, takeTokens_frame]
end

/-- No member waits: the caravan goes on. -/
theorem goOn_ready {t : State} {ci size : Nat} {outs : Option (List (Nat × Leave))} (h1 : (t.caravan ci).members ≠ [])
    (h2 : ∀ m ∈ (t.caravan ci).members, (t.agent m.agent).wait = .ready) :
    t.goOn ci size outs = match outs with
      | some ls => t.leaveBlock ci ls
      | none => t.advance ci size := by
  unfold State.goOn
  simp only
  rw [if_neg (by simpa using h1), if_neg (by simpa using h2)]
  all_goals cases outs <;> rfl

theorem members_ne_nil {s : State} {ci : Nat} (h : s.wanting ci ≠ []) : (s.caravan ci).members ≠ [] := by
  intro e
  obtain ⟨m, hm⟩ := List.exists_mem_of_ne_nil _ h
  have := laneMembers_subset (List.mem_filter.1 hm).1
  rw [e] at this; cases this

/-- The spec lemma of every instruction none of whose lanes faults: its work `j.perform`, then its results, then its way on. -/
theorem Job.issue_clean {j : Job} {s : State} {ci : Nat} {f : Fields} (h : Ready s ci j.sig f) (p : j.Passes f ci s)
    (hu : j.uniform = false) (hl : j.late = false) (hc : ∀ l ∈ s.lanes ci j.sig f, j.check (s.atIssue ci) l = none)
    {w : State} {rs : List LaneRes} (hp : j.perform (s.atWork ci j.sig f) (s.lanes ci j.sig f) = (w, rs))
    (hlen : rs.length = (s.lanes ci j.sig f).length) :
    j.issue f s = .next (j.after f ci s w ((s.lanes ci j.sig f).zip rs)) := by
  unfold Job.issue
  rw [h.focus]
  simp only
  rw [Job.run_ready h p]
  unfold Job.rest
  rw [Job.complete_clean h p hu hl hc hp hlen]
  rfl

/-- Completing the lanes keeps the caravan and every wait: an instruction whose work leaves no member waiting goes on. -/
theorem completed_goOn {s w : State} {ci : Nat} {g : Sig} {f : Fields} (rs : List (Lane × LaneRes)) {size : Nat}
    {outs : Option (List (Nat × Leave))} (h : s.wanting ci ≠ []) (hk : (w.caravan ci).members = (s.caravan ci).members)
    (hw : ∀ m ∈ (s.caravan ci).members, (w.agent m.agent).wait = .ready) :
    (s.completed w ci g f rs).goOn ci size outs = match outs with
      | some ls => (s.completed w ci g f rs).leaveBlock ci ls
      | none => (s.completed w ci g f rs).advance ci size := by
  have e : ((s.completed w ci g f rs).caravan ci).members = (s.caravan ci).members := by rw [completed_caravan]; exact hk
  refine goOn_ready ?_ ?_
  · rw [e]; exact members_ne_nil h
  · intro m hm
    rw [e] at hm
    rw [completed_wait]
    exact hw m hm

/-- The spec lemma of an instruction that leaves the state alone and gives each lane a result. -/
theorem Job.issue_results {j : Job} {s : State} {ci : Nat} {f : Fields} {rs : List LaneRes}
    (h : Ready s ci j.sig f) (p : j.Passes f ci s) (hu : j.uniform = false) (hl : j.late = false)
    (hc : ∀ l ∈ s.lanes ci j.sig f, j.check (s.atIssue ci) l = none)
    (hp : j.perform (s.atWork ci j.sig f) (s.lanes ci j.sig f) = (s.atWork ci j.sig f, rs))
    (hlen : rs.length = (s.lanes ci j.sig f).length)
    (hf : j.finish = none) (hv : j.leave = none) : j.issue f s = .next (s.afterResults ci j.sig f fun _ => rs) := by
  rw [Job.issue_clean h p hu hl hc hp hlen]
  unfold Job.after State.afterResults
  rw [hf, hv]
  exact congrArg Host.Outcome.next (completed_goOn _ h.wants (atWork_members s ci _ _) fun m hm => by
    rw [atWork_wait]; exact h.idle m hm)

/-- The spec lemma of an instruction that leaves its block. -/
theorem Job.issue_leaves {j : Job} {s : State} {ci : Nat} {f : Fields} {val : Caravan → Lane → LaneRes} {out : Caravan → Lane → Leave}
    {lv : State → Caravan → Lane → LaneRes → Leave} (h : Ready s ci j.sig f) (p : j.Passes f ci s) (hu : j.uniform = false)
    (hl : j.late = false) (hc : ∀ l ∈ s.lanes ci j.sig f, j.check (s.atIssue ci) l = none)
    (hp : j.perform (s.atWork ci j.sig f) (s.lanes ci j.sig f) = (s.atWork ci j.sig f, (s.lanes ci j.sig f).map (val (s.caravan ci))))
    (hf : j.finish = none) (hv : j.leave = some lv) (hlv : ∀ t l, lv t (s.caravan ci) l (val (s.caravan ci) l) = out (s.caravan ci) l) :
    j.issue f s = .next ((s.completed (s.atWork ci j.sig f) ci j.sig f
      ((s.lanes ci j.sig f).map fun l => (l, val (s.caravan ci) l))).leaveBlock ci
      (((s.lanes ci j.sig f).filter (·.want)).map fun l => (l.agent, out (s.caravan ci) l))) := by
  have hz : (s.lanes ci j.sig f).zip ((s.lanes ci j.sig f).map (val (s.caravan ci))) =
      (s.lanes ci j.sig f).map fun l => (l, val (s.caravan ci) l) := by
    rw [List.zip_map_right, List.zip_eq_zipWith, List.zipWith_self, List.map_map]; rfl
  rw [Job.issue_clean h p hu hl hc hp (by simp)]
  unfold Job.after
  simp only [hf, hv, hz, Option.map_some]
  rw [completed_goOn (w := s.atWork ci j.sig f) _ h.wants (atWork_members s ci _ _) fun m hm => by rw [atWork_wait]; exact h.idle m hm]
  simp only [List.filter_map, List.map_map, Function.comp_def, hlv]

/-- The spec lemma of an instruction whose lanes work on the state. -/
theorem Job.issue_acts {j : Job} {s : State} {ci : Nat} {f : Fields} (h : Ready s ci j.sig f) (p : j.Passes f ci s)
    (hu : j.uniform = false) (hl : j.late = false) (hc : ∀ l ∈ s.lanes ci j.sig f, j.check (s.atIssue ci) l = none)
    (hlen : (j.perform (s.atWork ci j.sig f) (s.lanes ci j.sig f)).2.length = (s.lanes ci j.sig f).length)
    (hf : j.finish = none) (hv : j.leave = none) :
    j.issue f s = .next ((s.completed (j.perform (s.atWork ci j.sig f) (s.lanes ci j.sig f)).1 ci j.sig f
      ((s.lanes ci j.sig f).zip (j.perform (s.atWork ci j.sig f) (s.lanes ci j.sig f)).2)).goOn ci f.size none) := by
  rw [Job.issue_clean h p hu hl hc rfl hlen]
  unfold Job.after
  simp only [hf, hv, Option.map_none]

/-- One result for each lane. -/
theorem eachLane_length (fn : State → Lane → State × LaneRes) (s : State) (ls : List Lane) : (eachLane fn s ls).2.length = ls.length := by
  have : ∀ (ls : List Lane) (acc : State × List LaneRes),
      (ls.foldl (fun (acc : State × List LaneRes) l => let r := fn acc.1 l; (r.1, acc.2 ++ [r.2])) acc).2.length = acc.2.length + ls.length := by
    intro ls
    induction ls with
    | nil => intro acc; rfl
    | cons l ls ih => intro acc; rw [List.foldl_cons, ih]; simp; omega
  exact (this ls (s, [])).trans (by simp)

/-- The spec lemma of a caravan-uniform instruction. -/
theorem Job.issue_once {j : Job} {s : State} {ci : Nat} {f : Fields} {work : State → Lane → State × LaneRes}
    (h : Ready s ci j.sig f) (p : j.Passes f ci s) (hu : j.uniform = true) (hl : j.late = false)
    (hp : j.perform = eachLane work) (hf : j.finish = none) (hv : j.leave = none)
    {l : Lane} (hw : (s.lanes ci j.sig f).find? (·.want) = some l) :
    j.issue f s = .next ((s.completedOnce (work (s.atWork ci j.sig f) l).1 ci j.sig f (work (s.atWork ci j.sig f) l).2).goOn ci f.size
      none) := by
  have hd := lanes_nodup s ci j.sig f
  have hacq := acquires_lanes s ci j.sig f
  unfold Job.issue
  rw [h.focus]
  simp only
  rw [Job.run_ready h p]
  unfold Job.rest Job.complete
  generalize hls : s.lanes ci j.sig f = ls at hw hd hacq ⊢
  have hlive : ls.filter (fun l => !([] : List Nat).contains l.agent) = ls := by simp
  have hgood : ls.filter (fun l => l.want || (!j.uniform && (j.firstFault (s.atIssue ci) (s.caravan ci) f l.agent).isNone &&
      (j.check (s.atIssue ci) l).isNone)) = ls.filter (·.want) := by simp [hu]
  have hone : (ls.filter (·.want)).take 1 = [l] := by
    rw [← List.head?_filter] at hw
    cases hk : ls.filter (·.want) with
    | nil => rw [hk] at hw; cases hw
    | cons a as => rw [hk] at hw; simp at hw; simp [hw]
  have hstay : (fun i => ([] : List Nat).contains (((ls.filter (·.want)).map (·.agent)).getD i 0)) = fun _ => false := by
    funext i; simp
  have hww : (ls.filter (·.want)).filter (·.want) = ls.filter (·.want) := by simp
  simp only [hlive]
  rw [hgood, hww, hacq]
  simp only [hone, hu, hl, hp, hf, hv, hstay, if_true, Bool.false_eq_true, if_false, Option.map_none]
  have he : eachLane work (s.atWork ci j.sig f) [l] =
      ((work (s.atWork ci j.sig f) l).1, [(work (s.atWork ci j.sig f) l).2]) := rfl
  simp only [he, List.headD_cons]
  refine congrArg Host.Outcome.next ?_
  unfold State.completedOnce
  simp only [hls]
  generalize (work (s.atWork ci j.sig f) l).2 = r
  generalize (work (s.atWork ci j.sig f) l).1.takeTokens (s.caravan ci).core (j.sig.pops f (s.wanting ci).length) (s.wanting ci).length
    (fun _ => false) = t
  suffices hfold : ∀ (xs : List Lane) (t : State), (∀ x ∈ xs, x ∈ ls) →
      xs.foldl (fun t l => t.updAgent l.agent (j.commit f l (j.resultFor ((ls.filter (·.want)).map fun l => (l, r)) l))) t =
      xs.foldl (fun u l => u.updAgent l.agent
        (if l.want then commitAgent true (if r.late then [] else j.sig.writes f r) r.flags else fun a => { a with issued := a.issued + 1 })) t by
    rw [hfold ls t fun _ hx => hx]
  intro xs
  induction xs with
  | nil => intro t _; rfl
  | cons x xs ih =>
    intro t hx
    rw [List.foldl_cons, List.foldl_cons, ih _ fun y hy => hx y (List.mem_cons_of_mem _ hy)]
    have hx0 := hx x List.mem_cons_self
    congr 2
    have hsub : ((ls.filter (·.want)).map (·.agent)).Nodup := hd.sublist (List.filter_sublist.map _)
    have hfind : ∀ (ys : List Lane), ((ys.map fun l => (l, r)).find? fun y => y.1.agent = x.agent) =
        (ys.find? fun y => y.agent = x.agent).map fun l => (l, r) := by
      intro ys; induction ys with
      | nil => rfl
      | cons y ys ih2 =>
        rw [List.map_cons, List.find?_cons, List.find?_cons]
        split <;> simp_all
    by_cases hxw : x.want = true
    · have : (ls.filter (·.want)).find? (fun y => y.agent = x.agent) = some x :=
        find_lane hsub (List.mem_filter.2 ⟨hx0, hxw⟩)
      funext a
      simp [Job.resultFor, hfind, this, Job.commit, hxw, hl]
    · have : (ls.filter (·.want)).find? (fun y => y.agent = x.agent) = none := by
        rw [List.find?_eq_none]
        intro y hy hxy
        obtain ⟨hy1, hy2⟩ := List.mem_filter.1 hy
        have h1 := find_lane hd hy1
        have h2 := find_lane hd hx0
        simp only [decide_eq_true_eq] at hxy
        rw [hxy, h2] at h1
        exact hxw (Option.some.inj h1 ▸ hy2)
      funext a
      simp [Job.resultFor, hfind, this, Job.commit, hxw, hu]

/-- The spec lemma of an instruction that is a function of each lane's operands. -/
theorem issue_map {g : Sig} {fn : Lane → LaneRes} {s : State} {ci : Nat} {f : Fields} (h : Ready s ci g f) :
    (pureJob g fn).issue f s = .next (s.afterMap ci g f fn) :=
  Job.issue_results (j := pureJob g fn) h
    ⟨fun _ _ => rfl, rfl, rfl, Job.laneFaults_each (lanes_nodup s ci g f) rfl fun _ _ _ => rfl⟩ rfl rfl (fun _ _ => rfl) rfl (List.length_map _) rfl rfl

end Sys2Proof.Machine
end

