-- ==== Sys2Proof/Laws/Fields.lean ====
section
/-! SUPPORT. Laws of packed elements and byte strings. -/

namespace Sys2Proof.Machine

theorem packElems_lt (w : Nat) (es : List Nat) : packElems w es < 2 ^ (w * es.length) := by
  induction es with
  | nil => simp [packElems]
  | cons e es ih =>
    have h1 : e % 2 ^ w < 2 ^ w := Nat.mod_lt _ (Nat.two_pow_pos w)
    have h2 : 2 ^ (w * (es.length + 1)) = 2 ^ w * 2 ^ (w * es.length) := by rw [Nat.mul_succ, Nat.pow_add, Nat.mul_comm]
    simp only [packElems, List.length_cons, h2]
    nlinarith [Nat.two_pow_pos w]

/-- Element `i` of packed elements. -/
theorem elemAt_packElems (w : Nat) (es : List Nat) : ∀ {i : Nat} (h : i < es.length), elemAt w i (packElems w es) = es[i] % 2 ^ w := by
  induction es with
  | nil => intro i h; simp at h
  | cons e es ih =>
    intro i h
    have hlt : e % 2 ^ w < 2 ^ w := Nat.mod_lt _ (Nat.two_pow_pos w)
    cases i with
    | zero => simp [elemAt, packElems]
    | succ i =>
      have hi : i < es.length := by simpa using h
      have h1 : (e % 2 ^ w + 2 ^ w * packElems w es) / 2 ^ (w * (i + 1)) = packElems w es / 2 ^ (w * i) := by
        rw [Nat.mul_succ, Nat.pow_add, Nat.mul_comm (2 ^ (w * i)), ← Nat.div_div_eq_div_mul,
          Nat.add_mul_div_left _ _ (Nat.two_pow_pos w), Nat.div_eq_of_lt hlt, Nat.zero_add]
      simp only [packElems, elemAt, h1, List.getElem_cons_succ]
      exact ih hi

theorem wrapTo_lt (w : Nat) (x : Int) : wrapTo w x < 2 ^ w := by
  unfold wrapTo
  have : (0 : Int) < ((2 ^ w : Nat) : Int) := by exact_mod_cast Nat.two_pow_pos w
  have h1 := Int.emod_lt_of_pos x this
  have h2 := Int.emod_nonneg x (ne_of_gt this)
  omega

/-- The bytes of a value, read back. -/
theorem leNat_leBytes (n v : Nat) : leNat (leBytes n v) = v % 256 ^ n := by
  induction n generalizing v with
  | zero => simp [leBytes, leNat, Nat.mod_one]
  | succ n ih =>
    have h : v % (256 * 256 ^ n) = v % 256 + 256 * (v / 256 % 256 ^ n) := Nat.mod_mul
    rw [leBytes, leNat, ih, BitVec.toNat_ofNat, show 256 ^ (n + 1) = 256 * 256 ^ n from Nat.pow_succ', h]

theorem leBytes_length (n v : Nat) : (leBytes n v).length = n := by
  induction n generalizing v with
  | zero => rfl
  | succ n ih => simp [leBytes, ih]

end Sys2Proof.Machine
end

