-- ==== Sys2Proof/Laws/Operands.lean ====
section
/-! SUPPORT. Laws of operands: where the values of a lane come from, and that a 32-bit or 64-bit position holds no more. -/

namespace Sys2Proof.Machine

/-- The operand values of a lane are read from its agent. -/
theorem buildLanes_operands {s : State} {core : Nat} {g : Sig} {f : Fields} {n : Nat} {ms : List Member} {l : Lane} :
    ∀ {j}, l ∈ s.buildLanes core g f n ms j → ∃ t u v : DWord,
      l.a = s.operand (s.agent l.agent) g.a f.sa f.ma g.ctlA t ∧ l.b = s.operandB (s.agent l.agent) g f u ∧
      l.c = s.operand (s.agent l.agent) g.c (g.fieldC f) f.mc g.ctlC v ∧ l.lane = (s.agent l.agent).lane := by
  induction ms with
  | nil => intro j h; cases h
  | cons m ms ih =>
    intro j h
    rcases List.mem_cons.1 h with rfl | h
    · exact ⟨_, _, _, rfl, rfl, rfl, rfl⟩
    · exact ih h

theorem lane_operands {s : State} {ci : Nat} {g : Sig} {f : Fields} {l : Lane} (h : l ∈ s.lanes ci g f) : ∃ t u v : DWord,
      l.a = s.operand (s.agent l.agent) g.a f.sa f.ma g.ctlA t ∧ l.b = s.operandB (s.agent l.agent) g f u ∧
      l.c = s.operand (s.agent l.agent) g.c (g.fieldC f) f.mc g.ctlC v ∧ l.lane = (s.agent l.agent).lane := buildLanes_operands h

theorem regSource_lt {a : Agent} {n k w v : Nat} (hw : w = 32 ∨ w = 64) (h : a.regSource n k w = some v) : v < 2 ^ w := by
  have h1 := (a.greg k).isLt
  have h2 := (a.pair k).isLt
  have h3 : ∀ x, x % 2 ^ w < 2 ^ w := fun x => Nat.mod_lt _ (Nat.two_pow_pos w)
  unfold Agent.regSource at h
  split at h
  · split at h
    · cases h
    · cases h; exact h3 _
  · rcases hw with rfl | rfl
    · split at h
      · cases h
      · rw [if_pos rfl] at h; cases h; exact h1
    · split at h
      · cases h
      · rw [if_neg (by decide), if_pos rfl] at h
        split at h
        · cases h; exact h2
        · cases h

theorem latchSource_lt {a : Agent} {k w v : Nat} (h : a.latchSource k w = some v) : v < 2 ^ w := by
  unfold Agent.latchSource at h
  split at h
  · split at h
    · cases h; exact Nat.mod_lt _ (Nat.two_pow_pos w)
    · cases h
  · cases h

theorem constantBits_lt (i : Nat) : constantBits i < 2 ^ 32 := by
  by_cases h : i < 32
  · have : ∀ i < 32, constantBits i < 2 ^ 32 := by decide
    exact this i h
  · unfold constantBits
    rw [List.getD_eq_default _ _ (by simpa using h)]
    decide

theorem lane_lt (a : Agent) : a.lane < 32 := Nat.mod_lt _ (by decide)

/-- A literal in a 32-bit or 64-bit position of raw bits. -/
theorem literal_lt {p : Pos} (hp : p = .b32 ∨ p = .b64) {f lane v : Nat} (hl : lane < 32) (h : literal p f lane = some v) :
    v < 2 ^ p.width := by
  have hc := constantBits_lt (f - 0x280)
  unfold literal at h
  rcases hp with rfl | rfl <;>
    simp only [Pos.isChoice, Pos.ofInt, Pos.ofConstant, Pos.width, onesOf] at h ⊢ <;>
    split_ifs at h <;> simp at h <;> omega

theorem source_lt {s : State} {a : Agent} {p : Pos} (hp : p = .b32 ∨ p = .b64) {f : BitVec 10} {v : Nat}
    (h : s.source a p f = some (.val v)) : v < 2 ^ p.width := by
  have hw : p.width = 32 ∨ p.width = 64 := by rcases hp with rfl | rfl <;> simp [Pos.width]
  have hl := lane_lt a
  have key : (literal p f.toNat a.lane).map Source.val = some (.val v) → v < 2 ^ p.width := by
    intro e
    cases hq : literal p f.toNat a.lane with
    | none => rw [hq] at e; cases e
    | some x => rw [hq] at e; cases e; exact literal_lt hp hl hq
  have kreg : ∀ n k, (a.regSource n k p.width).map Source.val = some (.val v) → v < 2 ^ p.width := by
    intro n k e
    cases hq : a.regSource n k p.width with
    | none => rw [hq] at e; cases e
    | some x => rw [hq] at e; cases e; exact regSource_lt hw hq
  have klat : ∀ k, (a.latchSource k p.width).map Source.val = some (.val v) → v < 2 ^ p.width := by
    intro k e
    cases hq : a.latchSource k p.width with
    | none => rw [hq] at e; cases e
    | some x => rw [hq] at e; cases e; exact latchSource_lt hq
  have hnq : p ≠ .queue := by rcases hp with rfl | rfl <;> simp
  unfold State.source at h
  rw [if_neg hnq] at h
  have hno : ∀ q, p ≠ .onlyQueue q := by rcases hp with rfl | rfl <;> simp
  have hor : p ≠ .origins := by rcases hp with rfl | rfl <;> simp
  have hrec : p ≠ .record := by rcases hp with rfl | rfl <;> simp
  split at h
  · rename_i q; exact absurd rfl (hno q)
  · rw [if_neg hrec] at h
    split at h
    · cases h
    · rw [if_neg fun e => hor e.1] at h
      split at h
      · exact key h
      · split at h
        · exact kreg _ _ h
        · split at h
          · exact klat _ h
          · split at h
            · split at h <;> cases h
            · split at h
              · cases h
              · exact key h

/-- A value in a position of raw bits fits it. -/
theorem operand_lt (s : State) (a : Agent) {p : Pos} (hp : p = .b32 ∨ p = .b64) (f : BitVec 10) (m : BitVec 3) (ctl : Bool)
    (t : DWord) : (s.operand a p f m ctl t).toNat < 2 ^ p.width := by
  have hmod : ∀ v, (applyMod p m.toNat v).getD v = v := by
    intro v
    unfold applyMod
    rcases hp with rfl | rfl <;> simp only <;> split <;> rfl
  have hpow : 0 < 2 ^ p.width := Nat.two_pow_pos _
  have key : ∀ v, v < 2 ^ p.width → (BitVec.ofNat 128 (if ctl then v else (applyMod p m.toNat v).getD v)).toNat < 2 ^ p.width := by
    intro v hv
    rw [hmod, ite_self, BitVec.toNat_ofNat]
    exact lt_of_le_of_lt (Nat.mod_le _ _) hv
  unfold State.operand
  split
  · simpa using hpow
  · refine key _ ?_
    cases hs : s.source a p f with
    | none => exact hpow
    | some x =>
      cases x with
      | val v => exact source_lt hp hs
      | queue q => exact Nat.mod_lt _ hpow

theorem operandB_lt (s : State) (a : Agent) {g : Sig} (hp : g.b = .b32 ∨ g.b = .b64) (f : Fields) (t : DWord) :
    (s.operandB a g f t).toNat < 2 ^ g.b.width := by
  unfold State.operandB
  split
  · rename_i w _
    rw [BitVec.toNat_ofNat]
    refine lt_of_le_of_lt (Nat.mod_le _ _) ?_
    rcases hp with hp | hp <;> rw [hp] <;> simp only [Pos.ofImm, Pos.width, Option.getD_some]
    · exact w.isLt
    · unfold wrapTo; omega
  · exact operand_lt s a hp _ _ _ _

theorem lane_a_lt {s : State} {ci : Nat} {g : Sig} {f : Fields} {l : Lane} (h : l ∈ s.lanes ci g f) (hp : g.a = .b32 ∨ g.a = .b64) :
    l.a.toNat < 2 ^ g.a.width := by
  obtain ⟨t, u, v, ha, -⟩ := lane_operands h
  rw [ha]; exact operand_lt s _ hp _ _ _ _

theorem lane_b_lt {s : State} {ci : Nat} {g : Sig} {f : Fields} {l : Lane} (h : l ∈ s.lanes ci g f) (hp : g.b = .b32 ∨ g.b = .b64) :
    l.b.toNat < 2 ^ g.b.width := by
  obtain ⟨t, u, v, -, hb, -⟩ := lane_operands h
  rw [hb]; exact operandB_lt s _ hp _ _

theorem lane_c_lt {s : State} {ci : Nat} {g : Sig} {f : Fields} {l : Lane} (h : l ∈ s.lanes ci g f) (hp : g.c = .b32 ∨ g.c = .b64) :
    l.c.toNat < 2 ^ g.c.width := by
  obtain ⟨t, u, v, -, -, hc, -⟩ := lane_operands h
  rw [hc]; exact operand_lt s _ hp _ _ _ _

end Sys2Proof.Machine
end

