-- ==== Sys2Proof/Tests/Slice0.lean ====
section
/-! SUPPORT. Tests: words of the spec decode as it says, ill-formed terms are refused, the manual's worked values come out, and
every statement with hypotheses has states and operands that meet them. -/

open Sys2Proof Sys2Proof.Machine

namespace Sys2Proof.Tests
-- One theorem after another: the stacks of many that wait for each other would not fit.
set_option Elab.async false

/-! ## Decoding: words written out from Tables 1, 2, 4 and 13 to 21 of R65, R66, R69 and R90 -/

/-- RET 2, MC 5, MB 3, MA 6, SC 0x2A1, SB 0x155, SA 0x3C2, NWB 1, DST 0x0B7. -/
def oR : Operands := .v64 { ret := 2, mc := 5, mb := 3, ma := 6, sc := 0x2A1, sb := 0x155, sa := 0x3C2, nwb := 1, dst := 0x0B7 }
/-- IMM32 0xDEADBEEF, SA 0x3C2, DST 0x0B7. -/
def oI : Operands := .v64i { imm := 0xDEADBEEF, sa := 0x3C2, dst := 0x0B7 }
/-- MFA 0x93, MFB 0xC6, SCI 0x35, SUB 9, FLAGS 0x2A, SPEC 0x123456789AB, SC 0x2A1, SB 0x155, SA 0x3C2, DST 0x0B7. -/
def oX : Extended :=
  { mfa := 0x93, mfb := 0xC6, sci := 0x35, sub := 9, flags := 0x2A, spec := 0x123456789AB, sc := 0x2A1, sb := 0x155, sa := 0x3C2, dst := 0x0B7 }

theorem test_decode_typed_integer :
    decodeTableWord 64 0xABD50AABE14B7004 = some (.intAdd .n32 oR) ∧
    decodeTableWord 64 0xDEADBEEFF08B7031 = some (.intSub .s8x4 oI) ∧
    decodeTableWord 64 0xABD50AABE14B705C = some (.intAdds .n64 oR) ∧
    decodeTableWord 64 0xDEADBEEFF08B7069 = some (.intSubs .s16x2 oI) ∧
    decodeTableWord 64 0xABD50AABE14B7094 = some (.intMul .n8x4 oR) ∧
    decodeTableWord 64 0xDEADBEEFF08B70A1 = some (.intMulhi .s32 oI) ∧
    decodeTableWord 64 0xABD50AABE14B70CC = some (.intMad .n16x2 oR) ∧
    decodeTableWord 64 0xDEADBEEFF08B70F9 = some (.intMin .s64 oI) ∧
    decodeTableWord 64 0xABD50AABE14B7104 = some (.intMax .n32 oR) ∧
    decodeTableWord 64 0xDEADBEEFF08B7131 = some (.intCmpeq .s8x4 oI) ∧
    decodeTableWord 64 0xABD50AABE14B715C = some (.intCmplt .n64 oR) ∧
    decodeTableWord 64 0xDEADBEEFF08B7169 = some (.intCmple .s16x2 oI) := by decide

theorem test_decode_untyped_integer :
    decodeTableWord 64 0xABD50AABE14B7180 = some (.andB32 oR) ∧
    decodeTableWord 64 0xDEADBEEFF08B7185 = some (.orB32 oI) ∧
    decodeTableWord 64 0xABD50AABE14B7188 = some (.xorB32 oR) ∧
    decodeTableWord 64 0xDEADBEEFF08B718D = some (.andnB32 oI) ∧
    decodeTableWord 64 0xABD50AABE14B7190 = some (.shlB32 oR) ∧
    decodeTableWord 64 0xDEADBEEFF08B7195 = some (.shrN32 oI) ∧
    decodeTableWord 64 0xABD50AABE14B7198 = some (.shrS32 oR) ∧
    decodeTableWord 64 0xDEADBEEFF08B719D = some (.rotB32 oI) ∧
    decodeTableWord 64 0xABD50AABE14B71A0 = some (.shlB64 oR) ∧
    decodeTableWord 64 0xDEADBEEFF08B71A5 = some (.shrN64 oI) ∧
    decodeTableWord 64 0xABD50AABE14B71A8 = some (.shrS64 oR) ∧
    decodeTableWord 64 0xDEADBEEFF08B71AD = some (.bfeN32 oI) ∧
    decodeTableWord 64 0xABD50AABE14B71B0 = some (.bfeS32 oR) ∧
    decodeTableWord 64 0xDEADBEEFF08B71B5 = some (.bfiB32 oI) ∧
    decodeTableWord 64 0xABD50AABE14B71B8 = some (.popcB32 oR) ∧
    decodeTableWord 64 0xDEADBEEFF08B71BD = some (.clzB32 oI) ∧
    decodeTableWord 64 0xABD50AABE14B71C0 = some (.brevB32 oR) ∧
    decodeTableWord 64 0xDEADBEEFF08B71C5 = some (.selB32 oI) ∧
    decodeTableWord 64 0xABD50AABE14B71C8 = some (.movB32 oR) ∧
    decodeTableWord 64 0xDEADBEEFF08B71CD = some (.movB64 oI) ∧
    decodeTableWord 64 0xABD50AABE14B71D0 = some (.movB128 oR) ∧
    decodeTableWord 64 0xDEADBEEFF08B71D5 = some (.mulwS32 oI) ∧
    decodeTableWord 64 0xABD50AABE14B71D8 = some (.mulwN32 oR) ∧
    decodeTableWord 64 0xDEADBEEFF08B71DD = some (.dot4S32 oI) ∧
    decodeTableWord 64 0xABD50AABE14B71E0 = some (.dot4N32 oR) ∧
    decodeTableWord 64 0xDEADBEEFF08B71E5 = some (.dot2S32 oI) ∧
    decodeTableWord 64 0xABD50AABE14B71E8 = some (.dot2N32 oR) ∧
    decodeTableWord 64 0xDEADBEEFF08B71ED = some (.leaB64 oI) ∧
    decodeTableWord 64 0xABD50AABE14B71F0 = some (.cmpneB32 oR) ∧
    decodeTableWord 64 0xDEADBEEFF08B71F5 = some (.andB64 oI) ∧
    decodeTableWord 64 0xABD50AABE14B71F8 = some (.orB64 oR) ∧
    decodeTableWord 64 0xDEADBEEFF08B71FD = some (.xorB64 oI) := by decide

theorem test_decode_floating_point :
    decodeTableWord 64 0xABD50AABE14B7200 = some (.fpAdd .rn .f32 oR) ∧
    decodeTableWord 64 0xDEADBEEFF08B7235 = some (.fpAdd .ru .f16x2 oI) ∧
    decodeTableWord 64 0xABD50AABE14B7248 = some (.fpSub .bf16x2 oR) ∧
    decodeTableWord 64 0xDEADBEEFF08B726D = some (.fpMul .rz .f64 oI) ∧
    decodeTableWord 64 0xABD50AABE14B7290 = some (.fpFma .rn .f32 oR) ∧
    decodeTableWord 64 0xDEADBEEFF08B72B5 = some (.fpFma .rd .f16x2 oI) ∧
    decodeTableWord 64 0xABD50AABE14B72D8 = some (.fpMin .bf16x2 oR) ∧
    decodeTableWord 64 0xDEADBEEFF08B72ED = some (.fpMax .f64 oI) ∧
    decodeTableWord 64 0xABD50AABE14B72F0 = some (.fpCmpeq .f32 oR) ∧
    decodeTableWord 64 0xDEADBEEFF08B7305 = some (.fpCmplt .f16x2 oI) ∧
    decodeTableWord 64 0xABD50AABE14B7318 = some (.fpCmple .bf16x2 oR) ∧
    decodeTableWord 64 0xDEADBEEFF08B732D = some (.fpCmpun .f64 oI) ∧
    decodeTableWord 64 0xABD50AABE14B7330 = some (.fpClass .f32 oR) ∧
    decodeTableWord 64 0xDEADBEEFF08B7345 = some (.fpRint .rn .f16x2 oI) ∧
    decodeTableWord 64 0xABD50AABE14B736C = some (.fpRint .rd .f64 oR) ∧
    decodeTableWord 64 0xDEADBEEFF08B7389 = some (.fpScale .bf16x2 oI) ∧
    decodeTableWord 64 0xABD50AABE14B739C = some (.fpDiv .f64 oR) ∧
    decodeTableWord 64 0xDEADBEEFF08B73A1 = some (.fpSqrt .f32 oI) ∧
    decodeTableWord 64 0xABD50AABE14B73B4 = some (.fpRcp .f16x2 oR) ∧
    decodeTableWord 64 0xDEADBEEFF08B73C9 = some (.fpRsqrt .bf16x2 oI) ∧
    decodeTableWord 64 0xABD50AABE14B73DC = some (.fpCpsgn .f64 oR) := by decide

theorem test_decode_conversions :
    decodeTableWord 64 0xABD50AABE14B7400 = some (.cvtScalar .f32F64 oR) ∧
    decodeTableWord 64 0xDEADBEEFF08B7435 = some (.cvtScalar .n64F64 oI) ∧
    decodeTableWord 64 0xABD50AABE14B744C = some (.cvtScalar .f16x2S16x2 oR) ∧
    decodeTableWord 64 0xDEADBEEFF08B7461 = some (.cvtNarrowMx .e2m1 oI) ∧
    decodeTableWord 64 0xABD50AABE14B7474 = some (.cvtWidenMx .e2m3 oR) ∧
    decodeTableWord 64 0xDEADBEEFF08B7485 = some (.qscl .e5m2 oI) ∧
    decodeTableWord 64 0xABD50AABE14B74AC = some (.qnt .mxi8 oR) ∧
    decodeTableWord 64 0xDEADBEEFF08B74B1 = some (.cpnd oI) ∧
    decodeTableWord 64 0xABD50AABE14B74B4 = some (.cpndi oR) ∧
    decodeTableWord 64 0xDEADBEEFF08B74B9 = some (.cpinst oI) ∧
    decodeTableWord 64 0xABD50AABE14B74BC = some (.pkB16x2 oR) ∧
    decodeTableWord 64 0xDEADBEEFF08B74C1 = some (.pkB8x4 oI) ∧
    decodeTableWord 64 0xABD50AABE14B74C4 = some (.upkB8x4 oR) ∧
    decodeTableWord 64 0xDEADBEEFF08B74C9 = some (.upkB16x2 oI) ∧
    decodeTableWord 64 0xABD50AABE14B74CC = some (.cvtF32E8m0 oR) := by decide

theorem test_decode_special_functions :
    decodeTableWord 64 0xABD50AABE14B7500 = some (.exp2 .f32 oR) ∧
    decodeTableWord 64 0xDEADBEEFF08B7515 = some (.log2 .f16x2 oI) ∧
    decodeTableWord 64 0xABD50AABE14B7528 = some (.exp .bf16x2 oR) ∧
    decodeTableWord 64 0xDEADBEEFF08B7531 = some (.log .f32 oI) ∧
    decodeTableWord 64 0xABD50AABE14B7544 = some (.sin .f16x2 oR) ∧
    decodeTableWord 64 0xDEADBEEFF08B7559 = some (.cos .bf16x2 oI) ∧
    decodeTableWord 64 0xABD50AABE14B7560 = some (.tanh .f32 oR) ∧
    decodeTableWord 64 0xDEADBEEFF08B7575 = some (.sigm .f16x2 oI) ∧
    decodeTableWord 64 0xABD50AABE14B7580 = some (.rngB128 oR) ∧
    decodeTableWord 64 0xDEADBEEFF08B7585 = some (.rnguF32 oI) := by decide

theorem test_decode_control :
    decodeTableWord 64 0xABD50AABE14B7600 = some (.br oR) ∧
    decodeTableWord 64 0xDEADBEEFF08B7605 = some (.brz oI) ∧
    decodeTableWord 64 0xABD50AABE14B7608 = some (.brnz oR) ∧
    decodeTableWord 64 0xDEADBEEFF08B760D = some (.brx oI) ∧
    decodeTableWord 64 0xABD50AABE14B7610 = some (.call oR) ∧
    decodeTableWord 64 0xDEADBEEFF08B7615 = some (.callx oI) ∧
    decodeTableWord 64 0xABD50AABE14B7618 = some (.ret oR) ∧
    decodeTableWord 64 0xDEADBEEFF08B761D = some (.exit oI) ∧
    decodeTableWord 64 0xABD50AABE14B7620 = some (.qloop oR) ∧
    decodeTableWord 64 0xDEADBEEFF08B7625 = some (.yield oI) ∧
    decodeTableWord 64 0xABD50AABE14B7628 = some (.nop oR) ∧
    decodeTableWord 64 0xDEADBEEFF08B7C81 = some (.csrr oI) ∧
    decodeTableWord 64 0xABD50AABE14B7C84 = some (.csrw oR) ∧
    decodeTableWord 64 0xDEADBEEFF08B7C89 = some (.trap oI) ∧
    decodeTableWord 64 0xABD50AABE14B7C8C = some (.brk oR) ∧
    decodeTableWord 64 0xABD50AABE14B7C90 = some (.eret oR) := by decide

theorem test_decode_cross_lane :
    decodeTableWord 64 0xABD50AABE14B7700 = some (.shflIdx oR) ∧
    decodeTableWord 64 0xDEADBEEFF08B7705 = some (.shflUp oI) ∧
    decodeTableWord 64 0xABD50AABE14B7708 = some (.shflDown oR) ∧
    decodeTableWord 64 0xDEADBEEFF08B770D = some (.shflXor oI) ∧
    decodeTableWord 64 0xABD50AABE14B7710 = some (.shflBcast oR) ∧
    decodeTableWord 64 0xDEADBEEFF08B7715 = some (.shflIdxB64 oI) ∧
    decodeTableWord 64 0xABD50AABE14B7718 = some (.voteAll oR) ∧
    decodeTableWord 64 0xDEADBEEFF08B771D = some (.voteAny oI) ∧
    decodeTableWord 64 0xABD50AABE14B7720 = some (.voteEq oR) ∧
    decodeTableWord 64 0xDEADBEEFF08B7725 = some (.ballot oI) ∧
    decodeTableWord 64 0xABD50AABE14B7728 = some (.elect oR) ∧
    decodeTableWord 64 0xDEADBEEFF08B772D = some (.matchB32 oI) ∧
    decodeTableWord 64 0xABD50AABE14B7730 = some (.matchB64 oR) ∧
    decodeTableWord 64 0xDEADBEEFF08B7735 = some (.cred .addS32 oI) ∧
    decodeTableWord 64 0xABD50AABE14B7750 = some (.cred .xorB32 oR) ∧
    decodeTableWord 64 0xDEADBEEFF08B775D = some (.cred .maxF32 oI) ∧
    decodeTableWord 64 0xABD50AABE14B7768 = some (.scan .maxS32 oR) ∧
    decodeTableWord 64 0xDEADBEEFF08B7775 = some (.scanx .addF32 oI) ∧
    decodeTableWord 64 0xABD50AABE14B7778 = some (.ddxC .f32 oR) ∧
    decodeTableWord 64 0xDEADBEEFF08B777D = some (.ddyC .f32 oI) ∧
    decodeTableWord 64 0xABD50AABE14B7790 = some (.ddxF .f16x2 oR) ∧
    decodeTableWord 64 0xDEADBEEFF08B7795 = some (.ddyF .f16x2 oI) := by decide

theorem test_decode_barriers :
    decodeTableWord 64 0xABD50AABE14B7A80 = some (.barArrive oR) ∧
    decodeTableWord 64 0xDEADBEEFF08B7A85 = some (.barWait oI) ∧
    decodeTableWord 64 0xABD50AABE14B7A88 = some (.barSync oR) ∧
    decodeTableWord 64 0xDEADBEEFF08B7A8D = some (.obarInit oI) ∧
    decodeTableWord 64 0xABD50AABE14B7A90 = some (.obarArrive oR) ∧
    decodeTableWord 64 0xDEADBEEFF08B7A95 = some (.obarWait oI) ∧
    decodeTableWord 64 0xABD50AABE14B7A98 = some (.obarSync oR) ∧
    decodeTableWord 64 0xDEADBEEFF08B7A9D = some (.drain oI) ∧
    decodeTableWord 64 0xABD50AABE14B7AA0 = some (.psync oR) := by decide

theorem test_decode_private_memory :
    decodeTableWord 64 0xABD50AABE14B7808 = some (.ldPrivate .t .s16 oR) ∧
    decodeTableWord 64 0xDEADBEEFF08B782D = some (.stPrivate .t .b128 oI) ∧
    decodeTableWord 64 0xABD50AABE14B7830 = some (.ldPrivate .k .s8 oR) ∧
    decodeTableWord 64 0xDEADBEEFF08B785D = some (.stPrivate .k .b128 oI) ∧
    decodeTableWord 64 0xABD50AABE14B7824 = some (.stPrivate .t .b32 oR) := by decide

theorem test_decode_virtual_memory :
    decodeTableWord 64 0xABD50AABE14B7884 = some (.ldV .n8 oR) ∧
    decodeTableWord 64 0xDEADBEEFF08B78A9 = some (.stV .b64 oI) ∧
    decodeTableWord 64 0xABD50AABE14B78B0 = some (.ldAcq .b32 oR) ∧
    decodeTableWord 64 0xDEADBEEFF08B78C5 = some (.stRel .b128 oI) ∧
    decodeTableWord 64 0xABD50AABE14B78CC = some (.ldUa .b64 oR) ∧
    decodeTableWord 64 0xDEADBEEFF08B78D5 = some (.stUa .b32 oI) ∧
    decodeTableWord 64 0xABD50AABE14B78E8 = some (.ldAdv .b128 oR) ∧
    decodeTableWord 64 0xDEADBEEFF08B78F1 = some (.chk .b64 oI) := by decide

theorem test_decode_atomics :
    decodeTableWord 64 0xABD50AABE14B7990 = some (.atomAdd .f16x2 oR) ∧
    decodeTableWord 64 0xDEADBEEFF08B7999 = some (.atomMin .s32 oI) ∧
    decodeTableWord 64 0xABD50AABE14B79B8 = some (.atomMax .n64 oR) ∧
    decodeTableWord 64 0xDEADBEEFF08B79C5 = some (.atomAnd .b64 oI) ∧
    decodeTableWord 64 0xABD50AABE14B79C8 = some (.atomOr .b32 oR) ∧
    decodeTableWord 64 0xDEADBEEFF08B79D5 = some (.atomXor .b64 oI) ∧
    decodeTableWord 64 0xABD50AABE14B79D8 = some (.atomExch .b32 oR) ∧
    decodeTableWord 64 0xABD50AABE14B79E8 = some (.atomCas .b128 oR) ∧
    decodeTableWord 64 0xABD50AABE14B7A14 = some (.redAdd .bf16x2 oR) ∧
    decodeTableWord 64 0xDEADBEEFF08B7A29 = some (.redMin .f32 oI) ∧
    decodeTableWord 64 0xABD50AABE14B7A30 = some (.redMax .n32 oR) ∧
    decodeTableWord 64 0xDEADBEEFF08B7A41 = some (.redAnd .b32 oI) ∧
    decodeTableWord 64 0xABD50AABE14B7A4C = some (.redOr .b64 oR) ∧
    decodeTableWord 64 0xDEADBEEFF08B7A51 = some (.redXor .b32 oI) ∧
    decodeTableWord 64 0xABD50AABE14B7A60 = some (.fence oR) ∧
    decodeTableWord 64 0xDEADBEEFF08B7A65 = some (.fenceAcq oI) ∧
    decodeTableWord 64 0xABD50AABE14B7A68 = some (.fenceRel oR) ∧
    decodeTableWord 64 0xDEADBEEFF08B7A6D = some (.tfence oI) ∧
    decodeTableWord 64 0xABD50AABE14B7C94 = some (.scpw oR) ∧
    decodeTableWord 64 0xDEADBEEFF08B7C99 = some (.scpinv oI) := by decide

theorem test_decode_engine_commands :
    decodeTableWord 128 0x93C6D66A123456789ABA8555F08B7B83 = some (.mfset oX) ∧
    decodeTableWord 128 0x93C6D66A123456789ABA8555F08B7B87 = some (.mfget oX) ∧
    decodeTableWord 128 0x93C6D66A123456789ABA8555F08B7B8B = some (.cvyCopy oX) ∧
    decodeTableWord 128 0x93C6D66A123456789ABA8555F08B7B8F = some (.cvyGath oX) ∧
    decodeTableWord 128 0x93C6D66A123456789ABA8555F08B7B93 = some (.cvyScat oX) ∧
    decodeTableWord 128 0x93C6D66A123456789ABA8555F08B7B97 = some (.cvyTrn oX) ∧
    decodeTableWord 128 0x93C6D66A123456789ABA8555F08B7B9B = some (.cvyConv oX) ∧
    decodeTableWord 128 0x93C6D66A123456789ABA8555F08B7B9F = some (.cvyCmpr oX) ∧
    decodeTableWord 128 0x93C6D66A123456789ABA8555F08B7BA3 = some (.cvyDcmp oX) ∧
    decodeTableWord 128 0x93C6D66A123456789ABA8555F08B7BA7 = some (.cvyMcst oX) ∧
    decodeTableWord 128 0x93C6D66A123456789ABA8555F08B7BAB = some (.cvyA2a oX) ∧
    decodeTableWord 128 0x93C6D66A123456789ABA8555F08B7BC3 = some (.vmx oX) ∧
    decodeTableWord 128 0x93C6D66A123456789ABA8555F08B7BE3 = some (.cutq oX) ∧
    decodeTableWord 128 0x93C6D66A123456789ABA8555F08B7C03 = some (.trav oX) ∧
    decodeTableWord 128 0x93C6D66A123456789ABA8555F08B7C07 = some (.travfmt oX) ∧
    decodeTableWord 128 0x93C6D66A123456789ABA8555F08B7C0B = some (.emit oX) := by decide

theorem test_decode_matrix_commands :
    decodeTableWord 128 0x93C6D66A123456789ABA8555F08B7D03 = some (.mzro oX) ∧
    decodeTableWord 128 0x93C6D66A123456789ABA8555F08B7D07 = some (.mchb oX) ∧
    decodeTableWord 128 0x93C6D66A123456789ABA8555F08B7D0B = some (.mche oX) ∧
    decodeTableWord 128 0x93C6D66A123456789ABA8555F08B7D0F = some (.mma oX) ∧
    decodeTableWord 128 0x93C6D66A123456789ABA8555F08B7D13 = some (.mgth oX) ∧
    decodeTableWord 128 0x93C6D66A123456789ABA8555F08B7D17 = some (.mmap oX) ∧
    decodeTableWord 128 0x93C6D66A123456789ABA8555F08B7D1B = some (.mdrn oX) ∧
    decodeTableWord 128 0x93C6D66A123456789ABA8555F08B7D1F = some (.mdrg oX) := by decide

/-- Codes that the tables leave out, opcodes the header marker, and a word cut short are refused
by name (R64, R86, R88, R90). -/
theorem test_decode_rejects :
    decodeTableWord 64 0xABD50AABE14B73E0 = none ∧
    decodeTableWord 64 0xABD50AABE14B74D0 = none ∧
    decodeTableWord 64 0xABD50AABE14B750C = none ∧
    decodeTableWord 64 0xABD50AABE14B7588 = none ∧
    decodeTableWord 64 0xABD50AABE14B762C = none ∧
    decodeTableWord 64 0xABD50AABE14B7798 = none ∧
    decodeTableWord 64 0xABD50AABE14B7860 = none ∧
    decodeTableWord 64 0xABD50AABE14B78F8 = none ∧
    decodeTableWord 64 0xABD50AABE14B79EC = none ∧
    decodeTableWord 64 0xABD50AABE14B7A58 = none ∧
    decodeTableWord 64 0xABD50AABE14B7AA4 = none ∧
    decodeTableWord 64 0xABD50AABE14B7C9C = none ∧
    decodeTableWord 64 0xABD50AABE14B7E00 = none ∧
    decodeTableWord 64 0xABD50AABE14B7FF8 = none ∧
    decodeTableWord 64 0xABD50AABE14B7B80 = none ∧
    decodeTableWord 64 0xABD50AABE14B7D00 = none ∧
    decodeTableWord 128 0x93C6D66A123456789ABA8555F08B7003 = none ∧
    decodeTableWord 128 0x93C6D66A123456789ABA8555F08B7BAF = none ∧
    decodeTableWord 128 0x93C6D66A123456789ABA8555F08B7BC7 = none ∧
    decodeTableWord 128 0x93C6D66A123456789ABA8555F08B7C0F = none ∧
    decodeTableWord 128 0x93C6D66A123456789ABA8555F08B7D23 = none ∧
    decodeTableWord 96 0x80003004050100004008101A = none ∧
    decodeTableWord 96 0x8000300405010000400811EE = none ∧
    decodeTableWord 96 0x8000300405BF000040081002 = none ∧
    decode [0x00600290] = .error .tooShort := by decide
/-! ## Ill-formed terms, one for each check -/

theorem test_illFormed_forms :
    (Instr.movB128 oI).wf = false ∧ (Instr.rngB128 oI).wf = false ∧ (Instr.scpw oI).wf = false ∧ (Instr.eret oI).wf = false ∧
    (Instr.atomCas .b128 oI).wf = false ∧ (Instr.atomCas .b64 oI).wf = true ∧
    (Instr.pairedWord { s0 := { op7 := 0x06, dst := 0, sa := 0, sb := 0, sc := 0 }, s1 := default }).wf = false ∧
    (Instr.pairedWord { s0 := default, s1 := { op7 := 0x7B, dst := 0, sa := 0, sb := 0, sc := 0 } }).wf = false ∧
    (Instr.pairedWord { s0 := { op7 := 0x7A, dst := 0, sa := 0, sb := 0, sc := 0 }, s1 := default }).wf = true := by decide

theorem test_illFormed_places :
    (Instr.positionFill 64 0 0).wf = false ∧ (Instr.positionFill 0 8 0).wf = false ∧ (Instr.positionFill 0 0 8).wf = false ∧
    (Instr.pageWalk 1 64 0).wf = false ∧ (Instr.tileAssign 0 64).wf = false ∧
    (Instr.blockPlace 0 [64]).wf = false ∧ (Instr.blockPlace 0 []).wf = false ∧ (Instr.blockPlace 0 [0, 1, 2, 3, 4]).wf = false ∧
    (Instr.blockRestore 0 [64]).wf = false ∧ (Instr.blockRestore 0 []).wf = false ∧
    (Instr.carveComplete 4).wf = false ∧ (Instr.warningTemperature 4 true).wf = false := by decide

theorem test_illFormed_parties :
    (Instr.notify 2 0 0).wf = false ∧ (Instr.evbase 2 0).wf = false ∧ (Instr.evsize 2 0).wf = false ∧ (Instr.evrd 2 0).wf = false ∧
    (Instr.bar0Write 2 0 0).wf = false ∧ (Instr.hostBar2Read 2 0 8).wf = false ∧ (Instr.hostBar2Write 2 0 []).wf = false ∧
    (Instr.hostsel 2).wf = false ∧ (Instr.pcieLinkDown 2).wf = false ∧ (Instr.portJoin 16 false).wf = false ∧ (Instr.ualinkPortDown 16).wf = false ∧
    (Instr.devnumSet 1024).wf = false ∧ (Instr.peerArrival 1024 0 1).wf = false ∧ (Instr.peerArrival 0 0 64).wf = false ∧
    (Instr.a2aArrival 0 1024).wf = false ∧ (Instr.spdmRequest (.host 2) []).wf = false ∧
    (Instr.errlogRead (.host 2) (.tile 0)).wf = false ∧ (Instr.errlogClear .management (.tile 64)).wf = false ∧
    (Instr.inj .management (.bstage 64) 0).wf = false ∧ (Instr.softError (.l2data 64) 0 false).wf = false ∧
    (Instr.softError (.l2tag 64) 0 false).wf = false ∧ (Instr.softError (.memory 12) 0 false).wf = false ∧
    (Instr.remoteRequest (.atom 1024 0 (.add .n32) 0)).wf = false ∧ (Instr.remoteRequest (.reduce 1024 0 (.add .n32) 0)).wf = false ∧
    (Instr.remoteRequest (.write 1024 0 [1])).wf = false ∧ (Instr.remoteRequest (.write 0 0 [])).wf = false ∧
    (Instr.remoteRequest (.read 1024 0 1)).wf = false ∧ (Instr.remoteRequest (.read 0 0 0)).wf = false := by decide
/-! ## Small states -/

/-- Register forms: destination, A, B, C. -/
def V (d a b c : BitVec 10) : Operands := .v64 { ret := 0, mc := 0, mb := 0, ma := 0, sc := c, sb := b, sa := a, nwb := 0, dst := d }
def VI (d a : BitVec 10) (w : Word) : Operands := .v64i { imm := w, sa := a, dst := d }

/-- One block of one agent on core 0, `len` parcels long, whose caravan has the issue; its words of code are zero. -/
def one (drv : Bool) (len : Nat) (regs : WordMap) : State :=
  let s := State.reset.withProgram drv len []
  { s with agenda := [], focus := some 0, agents := s.agents.map fun a => { a with regs := regs } }

/-- One block of threads in one caravan, lane after lane. -/
def caravanOf (qlock : Bool) (regs : List WordMap) : State :=
  let s := one false 64 []
  { s with agents := (List.range regs.length).map fun l => { s.agent 0 with tidx := l, regs := regs.getD l [] }
           caravans := s.caravans.map fun c => { c with qlock := qlock, members := (List.range regs.length).map fun l => ⟨l, true⟩ } }

/-- The words of registers of an agent after a step, and its flags. -/
def regsOf (o : Out) (i : Nat) (ks : List Nat) : List Word :=
  match o with
  | .next t => ks.map (t.agent i).word
  | _ => []
def flagsOf (o : Out) (i : Nat) : Option Flags :=
  match o with
  | .next t => some (t.agent i).fpstat
  | _ => none
def stateOf (o : Out) : State :=
  match o with
  | .next t => t
  | _ => State.reset
/-! ## One step on the examples of the manual -/

/-- R98 Table 2. -/
theorem test_typed_integers :
    let s := one false 64 [(1, 0x7FF08001), (2, 0x0020FFFE), (3, 0x0510FF00), (4, 0x0A010101), (5, 0x80000000), (6, 3), (7, 0xFFFFFFFF)]
    regsOf (exec (.intAdds .s16x2 (V 8 1 2 0x200)) s) 0 [8] = [0x7FFF8000] ∧
    regsOf (exec (.intAdd .s16x2 (V 8 1 2 0x200)) s) 0 [8] = [0x80107FFF] ∧
    regsOf (exec (.intSubs .n8x4 (V 8 3 4 0x200)) s) 0 [8] = [0x000FFE00] ∧
    regsOf (exec (.intMulhi .s32 (V 8 5 6 0x200)) s) 0 [8] = [0xFFFFFFFE] ∧
    regsOf (exec (.intMulhi .n32 (V 8 5 6 0x200)) s) 0 [8] = [1] ∧
    regsOf (exec (.intMul .s32 (V 8 5 6 0x200)) s) 0 [8] = [0x80000000] ∧
    regsOf (exec (.intCmplt .s32 (V 8 7 0x200 0x200)) s) 0 [8] = [0xFFFFFFFF] ∧
    regsOf (exec (.intCmplt .n32 (V 8 7 0x200 0x200)) s) 0 [8] = [0] := by decide

/-- R100 (a shift by 40), R103, and pass 1 of `bits4` (R115 Table 6): bfe, popc, shr. -/
theorem test_untyped_integers :
    let s := one false 64 [(1, 0x80017F03), (2, 4), (4, 0xFFFFFFF0), (6, 0x80000000)]
    regsOf (exec (.shrS32 (VI 8 6 40)) s) 0 [8] = [0xFFFFFFFF] ∧
    regsOf (exec (.rotB32 (VI 8 1 36)) s) 0 [8] = regsOf (exec (.rotB32 (VI 8 1 4)) s) 0 [8] ∧
    regsOf (exec (.leaB64 (V 8 4 2 0x243)) s) 0 [8, 9] = [0x00000010, 0x00000001] ∧
    regsOf (exec (.bfeN32 (VI 8 1 0x0800)) s) 0 [8] = [3] ∧
    regsOf (exec (.popcB32 (V 8 2 0x200 0x200)) s) 0 [8] = [1] ∧
    regsOf (exec (.shrN32 (V 8 1 0x248 0x200)) s) 0 [8] = [0x0080017F] := by decide

/-- R123 Table 3. -/
theorem test_floating_point :
    let s := one false 64 [(1, 0x3F800001), (2, 0xBF800002), (3, 0x3F800000), (4, 0xBF800000), (5, 0x7F800001), (6, 0x40000000), (7, 0x80000000),
      (8, 0xBF000000), (9, 0xFFFFFF6A), (10, 0x40400000), (11, 0x7FC01234), (12, 0x400054B0), (13, 0x380054B0), (14, 0xFFFFFF6B)]
    regsOf (exec (.fpFma .rn .f32 (V 16 1 1 2)) s) 0 [16] = [0x28800000] ∧
    regsOf (exec (.fpAdd .rd .f32 (V 16 3 4 0x200)) s) 0 [16] = [0x80000000] ∧
    regsOf (exec (.fpMin .f32 (V 16 5 6 0x200)) s) 0 [16] = [0x40000000] ∧
    flagsOf (exec (.fpMin .f32 (V 16 5 6 0x200)) s) 0 = some flagInvalid ∧
    regsOf (exec (.fpMax .f32 (V 16 7 0x200 0x200)) s) 0 [16] = [0] ∧
    regsOf (exec (.fpRint .rd .f32 (V 16 8 0x200 0x200)) s) 0 [16] = [0xBF800000] ∧
    regsOf (exec (.fpScale .f32 (V 16 3 14 0x200)) s) 0 [16] = [1] ∧
    regsOf (exec (.fpScale .f32 (V 16 3 9 0x200)) s) 0 [16] = [0] ∧
    flagsOf (exec (.fpScale .f32 (V 16 3 9 0x200)) s) 0 = some (flagUnderflow ||| flagInexact) ∧
    regsOf (exec (.fpDiv .f32 (V 16 3 10 0x200)) s) 0 [16] = [0x3EAAAAAB] ∧
    regsOf (exec (.fpCpsgn .f32 (V 16 11 4 0x200)) s) 0 [16] = [0xFFC01234] := by decide

/-- R127 (the worked cvt), R129 Table 5, R135, R136 and R137. -/
theorem test_conversions :
    let s := one false 64 [(1, 0x9A005FD0), (2, 0x4A807E00), (3, 0xC0400000), (4, 0x80)]
    regsOf (exec (.cvtNarrowMx .e4m3 (.v64 { ret := 0, mc := 5, mb := 0, ma := 0, sc := 0x200, sb := 2, sa := 1, nwb := 0, dst := 5 })) s) 0 [5]
      = [0x557F817E] ∧
    flagsOf (exec (.cvtNarrowMx .e4m3 (V 5 1 2 0x200)) s) 0 = some (flagOverflow ||| flagUnderflow ||| flagInexact) ∧
    regsOf (exec (.cvtNarrowMx .e4m3 (V 5 1 2 0x200)) s) 0 [5] = [0x557F827E] ∧
    regsOf (exec (.qnt .e4m3 (V 5 3 4 0x200)) s) 0 [5] = [0xBC] := by decide
theorem test_random_numbers :
    let s := one false 64 [(1, 0x6627E8D5)]
    regsOf (exec (.rngB128 (V 8 0x200 0x200 0x200)) s) 0 [8, 9, 10, 11] = [0x6627E8D5, 0xE169C58D, 0xBC57AC4C, 0x9B00DBD8] ∧
    regsOf (exec (.rnguF32 (V 12 1 0x200 0x200)) s) 0 [12] = [0x3ECC4FD0] := by decide
theorem test_shared_scale :
    regsOf (exec (.qscl .e4m3 (V 5 1 0x200 0x200)) (caravanOf false [[(1, 0x447A0000)], [(1, 0xC0400000)], [(1, 0x3B800000)], []])) 2 [5] = [0x80] := by
  decide

/-- R166 Table 2, with lane 5 no member: the members stand in lanes 0 to 4, 6 and 7. -/
theorem test_shuffles :
    let s0 := caravanOf false ((List.range 8).map fun l => [(2, 0xA0B0C000 + BitVec.ofNat 32 l), (3, 0x11)])
    let s := { s0 with caravans := s0.caravans.map fun c => { c with members := c.members.eraseIdx 5 } }
    regsOf (exec (.shflUp (V 4 2 0x248 0x200)) s) 6 [4] = [0] ∧ regsOf (exec (.shflUp (V 4 2 0x248 0x200)) s) 7 [4] = [0xA0B0C006] ∧
    regsOf (exec (.shflUp (V 4 2 0x248 0x200)) s) 0 [4] = [0] ∧
    regsOf (exec (.shflXor (V 4 2 0x248 0x200)) s) 4 [4] = [0] ∧ regsOf (exec (.shflXor (V 4 2 0x248 0x200)) s) 6 [4] = [0xA0B0C007] ∧
    regsOf (exec (.shflIdx (V 4 2 3 0x242)) s) 1 [4] = [0x02A0B0C0] ∧
    regsOf (exec (.shflIdx (VI 4 2 0x18)) s) 7 [4] = [0xA0B0C003] := by decide

/-- R168 and R170 Table 4. -/
theorem test_match_and_scan :
    (let s := caravanOf false [[(2, 0)], [(2, 0x80000000)], [(2, 0x7FC00000)], [(2, 0)]]
     (List.range 4).flatMap (fun i => regsOf (exec (.matchB32 (V 4 2 0x200 0x200)) s) i [4]) = [9, 2, 4, 9]) ∧
    (let s := caravanOf false [[(2, 0x4B800000)], [(2, 0x3F800000)], [(2, 0x3F800000)], [(2, 0xCB800000)]]
     (List.range 4).flatMap (fun i => regsOf (exec (.scan .addF32 (V 4 2 0x200 0x200)) s) i [4]) = [0x4B800000, 0x4B800000, 0x4B800001, 0x3F800000] ∧
     (List.range 4).flatMap (fun i => regsOf (exec (.scanx .addF32 (V 4 2 0x200 0x200)) s) i [4]) = [0, 0x4B800000, 0x4B800000, 0x4B800001] ∧
     regsOf (exec (.cred .addF32 (V 4 2 0x200 0x200)) s) 2 [4] = [0x3F800000] ∧
     flagsOf (exec (.cred .addF32 (V 4 2 0x200 0x200)) s) 0 = some flagInexact) := by decide

/-- R172. -/
theorem test_derivatives :
    let v : List WordMap := [[(2, 0x3F800000)], [(2, 0x40400000)], [(2, 0x40800000)], [(2, 0x41200000)]]
    let all (q : Bool) (i : Instr) : List Word := (List.range 4).flatMap fun l => regsOf (exec i (caravanOf q v)) l [4]
    all true (.ddxF .f32 (V 4 2 0x200 0x200)) = [0x40000000, 0x40000000, 0x40C00000, 0x40C00000] ∧
    all true (.ddyF .f32 (V 4 2 0x200 0x200)) = [0x40400000, 0x40E00000, 0x40400000, 0x40E00000] ∧
    all true (.ddxC .f32 (V 4 2 0x200 0x200)) = [0x40000000, 0x40000000, 0x40000000, 0x40000000] ∧
    all true (.ddyC .f32 (V 4 2 0x200 0x200)) = [0x40400000, 0x40400000, 0x40400000, 0x40400000] ∧
    all false (.ddxF .f32 (V 4 2 0x200 0x200)) = [0, 0, 0, 0] := by decide

/-- R86: the worked pair leaves g8's value in b1 and g5's in b0. -/
theorem test_paired_word :
    let s := one false 64 [(1, 0x3F800000), (2, 0x40000000), (3, 0x40400000)]
    let o := exec (.pairedWord { s0 := { op7 := 0x69, dst := 8, sa := 1, sb := 2, sc := 0x200 }, s1 := { op7 := 0x6C, dst := 5, sa := 1, sb := 3, sc := 0x200 } }) s
    regsOf o 0 [8, 5] = [0x40400000, 0x40400000] ∧ ((stateOf o).agent 0).latch 1 = some ⟨.w32, 0x40400000, 1⟩ := by decide

/-- R180 Table 8. -/
theorem test_barrier_object :
    let s := one false 64 [(1, 8), (4, 7)]
    let t := stateOf (exec (.obarInit (.v64 { ret := 0, mc := 0, mb := 0, ma := 0, sc := 0x243, sb := 0x200, sa := 1, nwb := 0, dst := 0x200 })) s)
    let a (u : State) (c : BitVec 10) : State := stateOf (exec (.obarArrive (V 4 1 0x200 c)) u)
    t.objectAt 0 8 = 0x0000000003000003 ∧ (a t 0x200).objectAt 0 8 = 0x0000000003000002 ∧
    (a (a (a t 0x200) 0x200) 0x200).objectAt 0 8 = 0x0001000003000003 ∧
    (a (a (a (a t 0x200) 0x200) 0x200) 0x244).objectAt 0 8 = 0x0002000003000001 ∧
    ((a (a (a (a t 0x200) 0x200) 0x200) 0x244).agent 0).word 4 = 1 := by decide

/-- `bits4`, pass 1 (R115 Table 6): the store, and the two fetches that need no other word of the arena. -/
theorem test_private_store_and_fetch :
    (stateOf (exec (.stPrivate .t .b32 (VI 3 0 0)) (one false 64 [(0, 0x20), (3, 2)]))).spaceByte 0 .t 0x20 = 2 ∧
    regsOf (step (State.reset.withFetchWord 64 0x00000004800021C9)) 0 [2] = [4] ∧
    regsOf (step (State.reset.withFetchWord 64 0x0010048800000000)) 0 [0] = [4] := by decide

/-- Atomics on a word of main memory: the old value comes back, the new one is there (R220, R221), by hand from their tables. -/
theorem test_atomic_step :
    let r := (stateOf (.next State.reset)).atomAt 1 0x40 (.add .n32) 0xFFFFFFFF
    r.2 = 0 ∧ r.1.peekNat 0x40 4 = 0xFFFFFFFF ∧ (r.1.atomAt 1 0x40 (.add .n32) 2).1.peekNat 0x40 4 = 1 ∧
    (r.1.atomAt 1 0x40 (.max .s32) 0).1.peekNat 0x40 4 = 0 := by decide
/-! ## Witnesses: states and operands that meet the hypotheses of the statements -/

def readyB (s : State) (ci : Nat) (g : Sig) (f : Fields) : Bool :=
  decide (s.focus = some ci) && decide (∀ m ∈ (s.caravan ci).members, (s.agent m.agent).wait = .ready) &&
    decide (∀ m ∈ (s.caravan ci).members, m.agent < s.agents.length) && decide (s.wanting ci ≠ []) &&
    decide (∀ m ∈ s.members ci, s.staticFault (s.caravan ci) (s.agent m.agent) g f = none) &&
    s.queuesReady (s.lead ci) (g.pops f (s.wanting ci).length) (g.pushes f (s.wanting ci).length)

theorem ready_of {s ci g f} (h : readyB s ci g f = true) : Ready s ci g f := by
  simp only [readyB, Bool.and_eq_true, decide_eq_true_eq] at h
  obtain ⟨⟨⟨⟨⟨h1, h2⟩, h3⟩, h4⟩, h5⟩, h6⟩ := h
  exact ⟨h1, h2, h3, h4, h5, h6⟩

theorem ready_each {s ci} {l : List (Sig × Operands)} (h : (l.all fun x => readyB s ci x.1 x.2.fields) = true) :
    ∀ x ∈ l, Ready s ci x.1 x.2.fields := fun x hx => ready_of (List.all_eq_true.1 h x hx)

theorem ready_all {α : Type} {l : List α} {s : α → State} {g : α → Sig} {f : α → Fields} {P : α → Prop}
    (h : ∀ x ∈ l, readyB (s x) 0 (g x) (f x) = true ∧ P x) : ∀ x ∈ l, Ready (s x) 0 (g x) (f x) ∧ P x :=
  fun x hx => ⟨ready_of (h x hx).1, (h x hx).2⟩

/-- Operands of a form: a register of the position's alignment where the form reads or writes one, else what it allows. -/
def srcOf : Pos → BitVec 10
  | .none => 0x200
  | .queue => 0x208
  | .onlyQueue q => 0x208 + BitVec.ofNat 10 q
  | .scope => 0x241
  | .sel => 0x241
  | .shufWidth => 0x243
  | .b128 => 4
  | _ => 2
def V' (g : Sig) : Operands := V (if g.dst = .none then 0x200 else 8) (srcOf g.a) (srcOf g.b) (srcOf g.c)

/-- A page held by core 0 for context 1. -/
def page (va pa : Nat) (wr cmp : Bool) : TlbEntry :=
  { ctx := 1, core := 0, base := va, size := 0x1000, tr := { pa := pa, ord := 0, cmp := cmp, amo := wr, wr := wr, rd := true } }

/-- The state of most witnesses: trap routines at the header at 0; queue 0 of core 0 bound to the block, one token in it; four
pages of the v: space held by the core, at 0x10000 in the scratchpad, at 0x11000 read-only in it, at 0x12000 in main memory, and
at 0x13000 compressed. -/
def base (drv : Bool) (len : Nat) (regs : WordMap) : State :=
  let s := one drv len regs
  { s with contexts := s.contexts.map fun c => (c.1, { c.2 with trapT := 0, trapD := 0, grants := [1, 0, 0, 0], scopes := [(8, { valid := true, cores := 1 })] })
           carve := [1, 0, 0, 0]
           cores := s.cores.set 0 { queues := { owner := some 0, tokens := [5] } :: List.replicate 7 {} }
           tlb := [page 0x10000 scratchBase true false, page 0x11000 (scratchBase + 0x1000) false false, page 0x12000 0x20000 true false,
             page 0x13000 0x30000 true true] }

theorem alone_base (drv len regs) : Alone (base drv len regs) 0 0 := ⟨Nat.one_pos, Nat.one_pos, rfl, rfl⟩

theorem witness_TypedIntegerElements :
    ∀ x ∈ [typedSig .s32, typedSig .n8x4, typedSig .n64, typedSig3 .s16x2, typedSig3 .s64].map fun g => (g, V' g),
      Ready (base false 64 []) 0 x.1 x.2.fields := ready_each (by decide)
theorem witness_UntypedIntegerTable :
    ∀ x ∈ [sigAB32, sigABC32, sigAB64, sigA32, { dst := .w32, b := .b32, drover := true }, { dst := .w64, b := .b64, drover := true },
        { dst := .w128, b := .b128, imm := false, drover := true }, { sigAB32 with dst := .w64 }].map fun g => (g, V' g),
      Ready (base false 64 []) 0 x.1 x.2.fields := ready_each (by decide)
/-- And in a drover. -/
theorem witness_integers_of_a_drover :
    ∀ x ∈ [typedSig .s32, typedSig .n64, sigAB32, sigAB64, sigShift64].map fun g => (g, V' g), Ready (base true 64 []) 0 x.1 x.2.fields :=
  ready_each (by decide)
theorem witness_ShiftsByAnyCount :
    ∀ x ∈ [sigAB32, { sigAB32 with dst := .s32 }, sigShift64].map fun g => (g, V' g), Ready (base false 64 []) 0 x.1 x.2.fields :=
  ready_each (by decide)
theorem witness_BitFieldsDotProductsAndLea :
    ∀ x ∈ [sigAB32, { sigAB32 with dst := .s32 }, sigABC32, dotSig .i8x4 .s32, dotSig .i8x4 .w32, dotSig .i16x2 .s32, dotSig .i16x2 .w32,
        { dst := .w64, a := .b64, b := .b32, c := .b32, drover := true }].map fun g => (g, V' g),
      Ready (base false 64 []) 0 x.1 x.2.fields := ready_each (by decide)
/-- Bit fields at the ends of the word: none from position 32 or of length 0, one of one bit at 31, one cut off at 32 (R101). -/
theorem witness_bitFields : ¬fieldAny 0x0120 ∧ ¬fieldAny 0x0005 ∧ (fieldAny 0x011F ∧ fieldTop 0x011F = 32) ∧ (fieldAny 0xFF00 ∧ fieldTop 0xFF00 = 32) := by
  unfold fieldAny; decide
theorem witness_FpValueForms :
    ∀ x ∈ [fpSig2 .f32, fpSig3 .f16x2, fpSig1 .bf16x2, fpSig2 .f64, { dst := FpTy.f64.res, a := FpTy.f64.pos, b := FpTy.f64.scalePos },
        { dst := FpTy.f16x2.res, a := FpTy.f16x2.pos, b := FpTy.f16x2.scalePos }].map fun g => (g, V' g),
      Ready (base false 64 []) 0 x.1 x.2.fields := ready_each (by decide)
theorem witness_FpComparesAndMinMax :
    ∀ x ∈ [fpSig2 .f32, fpSig2 .bf16x2, fpSig2 .f64, { dst := .w32, a := FpTy.f64.pos }, { dst := .w32, a := FpTy.f16x2.pos }].map fun g => (g, V' g),
      Ready (base false 64 []) 0 x.1 x.2.fields := ready_each (by decide)
theorem witness_ConversionsRoundEachElement :
    ∀ x ∈ [{ (scalarCvt .f32F64).1 with ctlC := true }, { (scalarCvt .f64S64).1 with ctlC := true }, { (scalarCvt .bf16x2F32).1 with ctlC := true },
        { dst := .w32, a := .f16x2, b := .f16x2, ctlC := true }, { dst := .w32, a := .f16x2, b := .f16x2, c := .b32, ctlC := true },
        { dst := .w32, a := mxPos .e2m1, b := .b32, ctlC := true }, { dst := .w32, a := mxPos .e4m3, b := .b32, ctlC := true },
        { dst := .w32, a := .nf8x4, b := .b32, ctlC := true }].map fun g => (g, V' g),
      Ready (base false 64 []) 0 x.1 x.2.fields := ready_each (by decide)
theorem witness_PackingQuantisingCompanding :
    ∀ x ∈ [{ dst := .w32, a := .i16x2, b := .i16x2 }, { dst := .w32, a := .i8x4, b := .i8x4, c := .b32 }, { dst := .w32, a := .i8x4 },
        { dst := .w32, a := .i16x2 }, { dst := .w32, a := .f32, c := .b32 }, { dst := .w32, a := .f32, b := .b32, c := .b32, ctlC := true },
        { dst := .w32, a := .f32, b := .b32 }].map fun g : Sig => (g, V' g),
      Ready (base false 64 []) 0 x.1 x.2.fields := ready_each (by decide)
/-- A record of 16 rising knots and slopes of 1 installs; a slot with nothing installed is the identity. -/
theorem witness_curves :
    let words (l : List Nat) : List Byte := leBytes 64 (packElems 32 l)
    let knots := [0, 0x3F800000, 0x40000000, 0x40400000, 0x40800000, 0x40A00000, 0x40C00000, 0x40E00000, 0x41000000, 0x41100000, 0x41200000,
      0x41300000, 0x41400000, 0x41500000, 0x41600000, 0x41700000]
    (curveOfRecord (leBytes 16 0 ++ words knots ++ words (List.replicate 16 0x3F800000))).isSome = true ∧
    (base false 64 []).slotOf { (default : Lane) with agent := 0 } 0 = none ∧ (base false 64 []).slotOf { (default : Lane) with agent := 0 } 15 = none := by
  decide +kernel
theorem witness_SpecialFunctionsElementwise :
    ∀ x ∈ [SfTy.f32, .f16x2, .bf16x2].map fun ty => (fpSig1 ty.fp, V' (fpSig1 ty.fp)), Ready (base false 64 []) 0 x.1 x.2.fields :=
  ready_each (by decide)
/-- Both kinds of NaN, and the least and the greatest negative number (R63). -/
theorem witness_SpecialFunctionsElementwise_points :
    decodeFp fp32 0x7FC00000 = .nan false ∧ decodeFp fp32 0x7F800001 = .nan true ∧
    (∀ x ∈ [0x80000001, 0xFF7FFFFF, 0xFF800000], (decodeFp fp32 x).isNan = false ∧ (decodeFp fp32 x).sign = true ∧ (decodeFp fp32 x).isZero = false) := by
  decide
/-- One, whose function values all exist, and an infinity it lies below. -/
theorem witness_SpecialFunctionsMeetTable9 :
    (decodeFp fp32 0x3F800000 = .fin false 0x800000 (-23) ∧ (decodeFp fp32 0x3F800000).sign = false ∧ (decodeFp fp32 0x7F800000).sign = false) ∧
    (∀ (fn : SpecialFn) (x : ℝ), ∃ y, fn.Is x y) ∧ notAbove (decodeFp fp32 0x3F800000) (decodeFp fp32 0x7F800000) ∧
    notAbove (decodeFp fp32 0x7F800000) (decodeFp fp32 0x7F800000) := by
  refine ⟨by decide, fun fn _ => by cases fn <;> exact ⟨_, rfl⟩, .inl ?_, .inr ?_⟩
  · rw [(by decide : decodeFp fp32 0x3F800000 = .fin false 0x800000 (-23)), (by decide : decodeFp fp32 0x7F800000 = .inf false)]
    exact rfl
  · rw [(by decide : decodeFp fp32 0x7F800000 = .inf false)]
    exact rfl
theorem witness_RandomNumberGenerator :
    ∀ x ∈ [{ dst := .w128, a := .b64, b := .b128, imm := false }, { dst := .w32, a := .b32 }].map fun g : Sig => (g, V' g),
      Ready (base false 64 []) 0 x.1 x.2.fields := ready_each (by decide)
theorem witness_ShufflesReadTheNamedLane :
    ∀ x ∈ [{ dst := .w32, a := .b32, b := .b32, c := .shufWidth, noQueue := true }, { dst := .w64, a := .b64, b := .b32, noQueue := true }].map
        fun g : Sig => (g, V' g),
      Ready (caravanOf false [[], [], []]) 0 x.1 x.2.fields := ready_each (by decide)
theorem witness_VotesAndMatches :
    ∀ x ∈ [{ sigVote with noQueue := true }, { dst := .w32, noQueue := true }, { dst := .w32, a := .b64, b := .sel, noQueue := true }].map
        fun g : Sig => (g, V' g),
      Ready (caravanOf false [[], [], []]) 0 x.1 x.2.fields := ready_each (by decide)
/-- Of three lanes, lane 2 has lane 1 as the highest participant before it, lane 0 has none; the second part of the statement
takes any lanes in order. -/
theorem witness_ReductionsRunTheNetwork :
    let s := caravanOf false [[], [], []]
    let g : Sig := { sigVote with noQueue := true }
    let f := (V' g).fields
    Ready s 0 g f ∧
    (∃ l ∈ s.lanes 0 g f, l.lane = 2 ∧ (∃ p ∈ takesPart s (s.lanes 0 g f) l, p.lane = 1) ∧ 1 < l.lane ∧
      ∀ p ∈ takesPart s (s.lanes 0 g f) l, p.lane < l.lane → p.lane ≤ 1) ∧
    (∃ l ∈ s.lanes 0 g f, l.lane = 0 ∧ ∀ p ∈ takesPart s (s.lanes 0 g f) l, ¬p.lane < l.lane) ∧
    (let p : List LaneVal := [⟨0, 5, true⟩, ⟨31, 0xFFFFFFFF, true⟩]
     p.Pairwise (fun x y => x.lane < y.lane) ∧ ∀ v ∈ p, v.lane < 32 ∧ v.val < 2 ^ 32) := by
  refine ⟨ready_of (by decide), ?_, ?_, ?_⟩ <;> decide
theorem witness_DerivativesWithinTheQuad :
    let g : Sig := { dst := .w32, a := DerivTy.f32.fp.pos, noQueue := true }
    (Ready (caravanOf true [[], [], [], []]) 0 g (V' g).fields ∧ ((caravanOf true [[], [], [], []]).caravan 0).qlock = true) ∧
    (Ready (caravanOf false [[], [], [], []]) 0 g (V' g).fields ∧ ((caravanOf false [[], [], [], []]).caravan 0).qlock = false) :=
  ⟨⟨ready_of (by decide), by decide⟩, ready_of (by decide), by decide⟩

/-- The headers worked under R33. -/
theorem test_block_headers :
    headerOf 0x0A005FFF = { drv := false, qlock := false, recon := 0, live := 40, len := 5, marked := true } ∧
    headerOf 0x3000000010006FFF = { drv := false, qlock := false, recon := 0, live := 64, len := 6, marked := true } := by decide
/-- R284 Table 9: the header and payload of a chunk of 64 words 0x3F800000, and the zero-run candidate of its byte planes. -/
theorem test_chunk_header :
    let b : List Byte := (List.replicate 64 [(0 : Byte), 0, 0x80, 0x3F]).flatten
    chunkEncode b = (3, [0, 0, 0x80, 0x3F]) ∧ chunkHeader 3 4 (chunkCheck b) = 0xC0801F80 ∧
      chunkDecode 0xC0801F80 [0, 0, 0x80, 0x3F] = some b ∧
      zrEncode 256 (planeDeltas b) = [0xFF, 0, 0x80, 0xBE, 0, 0x3F, 0xBE] := by decide +kernel
/-- R354 Table 6: a screen of 3 by 3 tiles. -/
theorem test_tile_order :
    let q (ctl : Nat) : Pass := { desc := List.replicate 0x80 0 ++ leBytes 4 192 ++ leBytes 4 192 ++ leBytes 4 ctl ++ List.replicate 0x80 0 }
    (q 4).order = [0, 1, 3, 4, 6, 7, 2, 5, 8] ∧ (q 1).order = [0, 1, 3, 4, 2, 5, 6, 7, 8] ∧ (q 2).order = [0, 1, 4, 3, 6, 7, 8, 5, 2] := by decide +kernel
/-- trap with an immediate (R119, R378, R379): the code and its operand are in the frame, and the thread resumes after it. -/
theorem test_trap_entry :
    (match exec (.trap (VI 0x200 0x200 0x1234)) (base false 64 []) with
     | .next t => some ((t.agent 0).trapMode, (t.agent 0).pc, (t.agent 0).frame.info, (t.agent 0).frame.pc, (t.agent 0).frame.resume)
     | _ => none) = some (true, 0, 0x1234, 8, 16) := by decide +kernel
/-- The leaf worked under R199: granted, beyond the carve-out, and not granted. -/
theorem test_large_page :
    let s (ways : Nat) (grant : BitVec 12) : State :=
      { base false 64 [] with carve := [0, ways, 0, 0], contexts := [(1, { grants := [0, grant, 0, 0] })] }
    let leaf (t : State) := (t.leafOf 1 0x123457ABC0 1 0xC10060001E).map fun x => (x.1, x.2.pa + 0x17ABC0, x.2.amo, x.2.wr, x.2.rd, x.2.cmp)
    leaf (s 4 2) = some (0x200000, 0xC10077ABC0, true, true, true, false) ∧ leaf (s 1 2) = none ∧ leaf (s 4 1) = none := by decide +kernel
theorem witness_PairedWordReadsBeforeItWrites :
    let s := base false 64 []
    let p : PairWord := { s0 := { op7 := 0x69, dst := 8, sa := 1, sb := 2, sc := 0x200 }, s1 := { op7 := 0x6C, dst := 5, sa := 1, sb := 3, sc := 0x200 } }
    ∃ o0 o1, s.focus = some 0 ∧ slotOp p.s0.op7 = some o0 ∧ slotOp p.s1.op7 = some o1 ∧ s.wanting 0 ≠ [] ∧
      (∀ m ∈ (s.caravan 0).members, m.agent < s.agents.length ∧ (s.agent m.agent).wait = .ready) ∧
      (∀ m ∈ s.wanting 0, s.pairFault (s.caravan 0) (s.agent m.agent) o0 o1 p = none) :=
  ⟨_, _, rfl, rfl, rfl, by decide, by decide, by decide⟩

theorem witness_ControlInstructionsComplete :
    (∀ x ∈ [sigBr, sigTest false, sigTo, { sigBr with dst := .w32 }, { sigTo with dst := .w32 }, { dst := .w64, a := .queue, b := .b32, leaves := true, drover := true },
        { leaves := true, drover := true }].map fun g => (g, V' g), Ready (base false 2 []) 0 x.1 x.2.fields) ∧
    (∀ x ∈ [sigTest true, { leaves := true, drover := true }].map fun g => (g, V' g), Ready (base true 2 []) 0 x.1 x.2.fields) ∧
    ((base false 2 []).droverBusy = false ∧ (base true 2 []).droverBusy = false ∧ (base false 2 []).focusDrover = false ∧ (base true 2 []).focusDrover = true) ∧
    Ready (base false 2 []) 0 { drover := true } (V 0x200 0x200 0x200 0x200).fields :=
  ⟨ready_each (by decide), ready_each (by decide), by decide, ready_of (by decide)⟩

theorem witness_TransfersArriveAndExitsEnd :
    let s := base false 2 []
    Alone s 0 0 ∧ (s.agent 0).drover = false ∧ s.entryFault (s.agent 0) 0 = none ∧ s.qlockAt (s.agent 0).ctx 0 = false :=
  ⟨alone_base .., by decide, by decide, by decide⟩

/-- A target that is no multiple of 8, and one at CODE_LIMIT. -/
theorem witness_EntryFaultIsRecordedAtTheTarget :
    let s := base false 2 []
    Alone s 0 0 ∧ (s.agent 0).drover = false ∧ (s.agent 0).trapMode = false ∧ s.entryFault (s.agent 0) 4 = some .branchTarget ∧
      s.entryFault (s.agent 0) 4096 = some .codeBound ∧ s.trapEntry (s.agent 0) = some 0 ∧ s.entryFault (s.agent 0) 0 = none ∧
      s.qlockAt (s.agent 0).ctx 0 = false :=
  ⟨alone_base .., by decide, by decide, by decide, by decide, by decide, by decide, by decide⟩

/-- Loads and stores at both ends of the t: and k: spaces. -/
theorem witness_PrivateAccesses :
    let gl : Sig := { dst := LoadTy.b32.res, a := .b32, b := .b32 }
    let gs : Sig := { a := .b32, b := .b32, c := StoreTy.b128.pos }
    let s := base false 64 [(1, 4092), (2, 252), (3, 4080)]
    (∀ x ∈ [(gl, VI 8 1 0), (gl, VI 8 2 0), (gl, V 8 0x200 0x200 0x200), (gs, VI 4 3 0), (gs, VI 4 0x200 0)], Ready s 0 x.1 x.2.fields) ∧
    (∀ l ∈ s.lanes 0 gl (VI 8 1 0).fields, privOk .t 4 s l ∧ privOk .t 4 (s.atIssue 0) l) ∧
    (∀ l ∈ s.lanes 0 gl (VI 8 2 0).fields, privOk .k 4 s l ∧ privOk .k 4 (s.atIssue 0) l) ∧
    (∀ l ∈ s.lanes 0 gl (V 8 0x200 0x200 0x200).fields, privOk .t 4 s l ∧ privOk .k 4 s l) ∧
    (∀ l ∈ s.lanes 0 gs (VI 4 3 0).fields, privOk .t 16 s l) ∧ (∀ l ∈ s.lanes 0 gs (VI 4 0x200 0).fields, privOk .k 16 s l) ∧
    Alone s 0 0 ∧ Inside s 0 (VI 8 1 0).fields ∧ hasShare s 0 ∧ s.latent = [] := by
  unfold privOk hasShare Inside
  exact ⟨ready_each (by decide), by decide, by decide, by decide, by decide, by decide, alone_base .., by decide, by decide, rfl⟩

/-- csrr of words and pairs by a thread, in and out of trap mode, and by a drover, and of a WPOS; csrw of every writable register. -/
theorem witness_ControlRegistersReadAndWrite :
    let g : Sig := { dst := .w32, b := .b32, drover := true }
    let s := base false 64 []
    let d := base true 64 []
    let p := { s with agents := s.agents.map fun a => { a with trapMode := true } }
    let w : Sig := { b := .b32, c := .b32, drover := true }
    (∀ x ∈ [(s, 0x001), (s, 0x008), (s, 0x017), (d, 0x023), (p, 0x41F)], Ready x.1 0 g (VI 8 0x200 x.2).fields ∧
      ∀ l ∈ x.1.lanes 0 g (VI 8 0x200 x.2).fields, ∃ row ∈ csrTable (x.1.atWork 0 g (VI 8 0x200 x.2).fields) l.agent,
        row.no = l.b.toNat % 2 ^ 32 ∧ (row.wide = true → (8 : BitVec 10).toNat % 2 = 0)) ∧
    (∀ x ∈ [(s, 0x009), (d, 0x021), (d, 0x022), (p, 0x404), (p, 0x40A)], Ready x.1 0 w (VI 2 0x200 x.2).fields ∧
      ∀ l ∈ x.1.lanes 0 w (VI 2 0x200 x.2).fields, l.b.toNat % 2 ^ 32 ∈ csrNumbersWritten ((x.1.atIssue 0).agent l.agent)) :=
  ⟨ready_all (by decide +kernel), ready_all (by decide +kernel)⟩

theorem witness_TrapAndBrkEnterTheRoutine :
    let s := base false 64 []
    let o := VI 0x200 0x200 7
    Alone s 0 0 ∧ Ready s 0 { b := .b32, drover := true } o.fields ∧ (s.agent 0).trapMode = false ∧ (s.agent 0).drover = false ∧
      s.trapEntry (s.agent 0) = some 0 ∧ s.entryFault (s.agent 0) 0 = none ∧ s.qlockAt (s.agent 0).ctx 0 = false :=
  ⟨alone_base .., ready_of (by decide), by decide, by decide, by decide, by decide, by decide⟩

/-- In trap mode, with the resume point at an instruction of the faulting block, or at its header. -/
def inTrap (resume : Word) : State :=
  let s := base false 2 []
  { s with agents := s.agents.map fun a => { a with trapMode := true, frame := { pc := 8, hdr := 0, nxt := 12, resume := resume } } }
theorem witness_EretReturnsFromTheTrap :
    let g : Sig := { imm := false, leaves := true, drover := true }
    (∀ r ∈ [8, 12, 0], Ready (inTrap r) 0 g (V' g).fields ∧ ((inTrap r).agent 0).trapMode = true ∧ ((inTrap r).agent 0).frame.quad = false) ∧
    (∀ r, Alone (inTrap r) 0 0) ∧
    (inTrap 8).insideFrame ((inTrap 8).agent 0) 8 = true ∧ (inTrap 12).insideFrame ((inTrap 12).agent 0) 12 = true ∧
    (inTrap 0).insideFrame ((inTrap 0).agent 0) 0 = false ∧
    (inTrap 0).entryFault { (inTrap 0).agent 0 with trapMode := false } 0 = none ∧ (inTrap 0).qlockAt ((inTrap 0).agent 0).ctx 0 = false := by
  refine ⟨?_, fun r => ⟨Nat.one_pos, Nat.one_pos, rfl, rfl⟩, by decide, by decide, by decide, by decide, by decide⟩
  intro r hr
  have h : ([8, 12, 0].all fun r => readyB (inTrap r) 0 { imm := false, leaves := true, drover := true }
    (V' { imm := false, leaves := true, drover := true }).fields) = true := by decide
  exact ⟨ready_of (List.all_eq_true.1 h r hr), rfl, rfl⟩
/-- An entry's record: base and metadata base, format, extents 0 and 1, stride 1, and the five top bits VALID, TILE, CMP, SAT, SCL. -/
def entry (base hbase fmt e0 e1 stride top : Nat) : Manifest :=
  { bits := let at_ (n k : Nat) : BitVec 512 := BitVec.ofNat 512 n <<< k
            at_ base 0 ||| at_ hbase 128 ||| at_ (e0 - 1) 192 ||| at_ (e1 - 1) 208 ||| at_ stride 256 ||| at_ fmt 488 ||| at_ top 507 }

/-- A state for the engines: m5 a row of 64 FP32 in the share, m6 the same in main memory, m8 compressed bytes, m9 a cluster image,
m10 an edge of four records, m11 a tree of one node; a curve record at 512, a node format at 1024 (and in slot 1), a view at 1088, the
record of m6 at 1152, a query at 2048; sc1 and sc8 name core 0. -/
def engine (drv : Bool) (regs : WordMap) : State :=
  let s := base drv 64 regs
  let curve := leBytes 16 0 ++ leBytes 64 (packElems 32 [0, 0x3F800000, 0x40000000, 0x40400000, 0x40800000, 0x40A00000, 0x40C00000, 0x40E00000,
      0x41000000, 0x41100000, 0x41200000, 0x41300000, 0x41400000, 0x41500000, 0x41600000, 0x41700000]) ++
    leBytes 64 (packElems 32 (List.replicate 16 0x3F800000))
  let format := 2 ^ 8 + 64 * 2 ^ 32 + 4 * 2 ^ 64
  { s with
    contexts := s.contexts.map fun c => (c.1, { c.2 with
      manifests := [(5, entry 256 0 6 64 1 0 24), (6, entry 0x12000 0 6 64 1 0 16), (8, entry 0x13000 0x13800 0 256 1 0 20),
        (9, entry 0x12400 0 0 256 1 0 16), (10, entry 0x12800 0 4 1 4 16 16), (11, entry 0x12C00 0 4 4 1 0 16)]
      formats := [(1, BitVec.ofNat 256 format)] })
    blocks := s.blocks.map fun b => { b with shares := b.shares.map fun h => { h with
      tile := writeBytes (writeBytes (writeBytes (writeBytes [] 512 curve) 1024 (leBytes 32 format)) 1088 (leBytes 64 (0x44800000 * 2 ^ 96)))
        1152 (leBytes 64 (entry 0x12000 0 6 64 1 0 16).bits.toNat) } } }

/-- An extended word: entries, scope, sub-operation, flags, and sources. -/
def X (mfa mfb : BitVec 8) (sci : BitVec 6) (sub : BitVec 4) (flags : BitVec 6) (spec : BitVec 44) (d a b c : BitVec 10) : Extended :=
  { mfa := mfa, mfb := mfb, sci := sci, sub := sub, flags := flags, spec := spec, sc := c, sb := b, sa := a, dst := d }

/-- cpinst; mfset and mfget by a thread and by a drover; each transform; travfmt; cutq; emit, of an edge with room and of a full one. -/
theorem witness_UniformInstructionsActOnce :
    let s := engine false [(1, 512), (2, 0x12F00), (10, 1024), (11, 1088), (12, 1152), (14, 0x12F00), (18, 1)]
    let d := engine true [(0, 0x12000), (15, 0x80000600)]
    let x5 := X 5 0 0 0 0 0 8 12 0x200 0x200
    let xd := X 5 0 0 0 0 0 8 0 0x200 0x200
    let tf := X 0 0 0 0 0 0 0x200 10 18 0x200
    let cq := X 9 10 1 0 0 0 0x200 0x200 11 0x200
    let em := X 10 0 0 0 0 0 8 0x200 14 0x200
    let others : List (State × Sig × Fields × (State → Lane → Option Trap)) :=
      [(s, { a := .b32, b := .b32, c := .b32 }, (V 0x200 1 0x200 18).fields, cpinstCheck (V 0x200 1 0x200 18).fields),
        (s, mfSig x5 false, x5.fields, mfsetCheck x5), (s, mfSig x5 false, x5.fields, recordPlace),
        (d, mfSig xd true, xd.fields, mfsetCheck xd), (d, mfSig xd true, xd.fields, recordPlace),
        (s, travfmtSig tf, tf.fields, travfmtCheck), (s, cutqSig cq, cq.fields, cutqCheck cq), (s, emitSig em, em.fields, emitCheck em)]
    let convoys := [(Transform.copy, X 5 6 1 0 0 0 8 0x200 0x200 0x200), (.gath, X 6 5 1 0 0 0 8 0x200 0x200 0x200),
      (.scat, X 5 6 8 0 0 0 8 0x200 0x200 0x200), (.trn, X 5 6 1 0 0 0 8 0x200 0x200 0x200), (.conv, X 5 6 1 3 0 63 8 0x200 0x200 0x200),
      (.cmpr, X 5 8 1 0 0 0 8 0x200 0x200 0x200), (.dcmp, X 8 5 1 0 0x10 0 8 0x200 0x200 0x200),
      (.mcst, X 6 5 1 1 0 0 8 0x200 0x200 0x200), (.a2a, X 5 6 1 0 8 0 8 14 0x200 0x200)]
    (∀ x ∈ others, Ready x.1 0 x.2.1 x.2.2.1 ∧ ∃ l ∈ (x.1.lanes 0 x.2.1 x.2.2.1).find? (·.want), x.2.2.2 (x.1.atIssue 0) l = none) ∧
    (∀ x ∈ convoys, Ready s 0 (convoySig x.1 x.2) x.2.fields ∧
      ∃ l ∈ (s.lanes 0 (convoySig x.1 x.2) x.2.fields).find? (·.want), convoyCheck x.1 x.2 (s.atIssue 0) l = none) ∧
    s.focusDrover = false ∧ d.focusDrover = true ∧ s.pending = [] ∧ assocGet s.contexts (s.agent 0).ctx ≠ none ∧
    (let full : State := { s with mem := writeBytes s.mem 0x20F00 (leBytes 4 4) }
     let m := (s.ctx 1).manifest 10
     m.rows = 4 ∧ s.peekNat 0x20F00 4 = 0 ∧ full.peekNat 0x20F00 4 = 4 ∧ Quiet s ∧ full.pending = [] ∧ Quiet full ∧
       (∀ t ∈ [s, full], Ready t 0 (emitSig em) em.fields ∧ ∃ l ∈ (t.lanes 0 (emitSig em) em.fields).find? (·.want),
         emitCheck em (t.atIssue 0) l = none ∧ countVa l = 0x12F00 ∧ t.laneAccess l accAtom 0x12F00 4 = .ok [⟨0x12F00, 0x20F00, 4, 0, false⟩]) ∧
       s.access 1 0 accWrite (m.rowAddr 0) m.rowBytes = .ok [⟨m.rowAddr 0, 0x20800, m.rowBytes, 0, false⟩]) := by
  unfold Quiet
  refine ⟨ready_all ?_, ready_all ?_, ?_, ?_, ?_, ?_, ?_, ?_, ?_, ?_, ?_, ?_, ready_all ?_, ?_⟩ <;> decide +kernel

/-- Records of an entry of main memory and of a tile plane, and one of VALID clear, in a thread's share; a record in a drover's
registers; a share with its eight channels. -/
theorem witness_EntriesAndStreamsAdvance :
    let s := engine false [(12, 1152), (14, 2048)]
    let d := engine true [(0, 0x12000), (15, 0x80000600)]
    (∀ x ∈ [(s, false, X 5 0 0 0 0 0 8 12 0x200 0x200, (entry 0x12000 0 6 64 1 0 16).bits), (s, false, X 255 0 0 0 0 0 8 14 0x200 0x200, 0),
        (s, false, X 0 0 0 0 0 0 8 14 0x200 0x200, 0), (d, true, X 5 0 0 0 0 0 8 0 0x200 0x200, (entry 0x12000 0 6 1 1 0 16).bits)],
      Ready x.1 0 (mfSig x.2.2.1 x.2.1) x.2.2.1.fields ∧ x.1.focusDrover = x.2.1 ∧
      ∃ l ∈ (x.1.lanes 0 (mfSig x.2.2.1 x.2.1) x.2.2.1.fields).find? (·.want), recordHere x.2.2.1 x.1 l ∧ recordIs x.2.2.1 x.1 l x.2.2.2 ∧
        assocGet x.1.contexts (x.1.agent l.agent).ctx ≠ none) ∧
    (∀ e ∈ [entry 0x12000 0 6 64 1 0 16, { bits := 0 }, entry 256 0 6 64 1 0 24], acceptsRecord e.bits) ∧ s.latent = [] ∧ d.latent = [] ∧
    (let a := s.agent 0
     a.block < s.blocks.length ∧ a.pos < (s.block a.block).shares.length ∧ ((s.block a.block).share a.pos).streams.length = 8) := by
  unfold recordHere recordIs acceptsRecord hasShare
  dsimp only
  exact ⟨ready_all (by decide +kernel), by decide +kernel, by decide +kernel⟩

def vOkB (acc : Access) (va n : Nat) (align : Bool) (s : State) (l : Lane) : Bool :=
  (!align || va % n = 0) && (match s.laneAccess l acc va n with | .ok _ => true | .error _ => false)
theorem vOk_of {acc va n align s l} (h : vOkB acc va n align s l = true) : vOk acc va n align s l := by
  unfold vOkB at h
  rw [Bool.and_eq_true] at h
  refine ⟨fun ha => by simpa [ha] using h.1, ?_⟩
  generalize s.laneAccess l acc va n = x at h
  cases x with
  | error => exact Bool.noConfusion h.2
  | ok ps => exact ⟨ps, rfl⟩
def scopeOkB (s : State) (l : Lane) (i : Nat) : Bool :=
  decide (i ≠ 7) && (match s.agentScope (s.agent l.agent) i with | .ok _ => true | .error _ => false)
theorem scopeOk_of {s l i} (h : scopeOkB s l i = true) : scopeOk s l i := by
  unfold scopeOkB at h
  rw [Bool.and_eq_true, decide_eq_true_eq] at h
  refine ⟨h.1, ?_⟩
  generalize s.agentScope (s.agent l.agent) i = x at h
  cases x with
  | error => exact Bool.noConfusion h.2
  | ok sc => exact ⟨sc, rfl⟩

/-- The instruction is ready, and every lane passes, where the checks are made: at its issue. -/
def goesB (s : State) (g : Sig) (f : Fields) (chk : State → Lane → Bool) : Bool :=
  readyB s 0 g f && (s.lanes 0 g f).all (chk (s.atIssue 0))
theorem goes_of {s g f chk} {P : State → Lane → Prop} (h : goesB s g f chk = true) (k : ∀ t l, chk t l = true → P t l) :
    Ready s 0 g f ∧ ∀ l ∈ s.lanes 0 g f, P (s.atIssue 0) l := by
  unfold goesB at h
  rw [Bool.and_eq_true] at h
  exact ⟨ready_of h.1, fun l hl => k _ l (List.all_eq_true.1 h.2 l hl)⟩

theorem both {c d : State → Lane → Bool} {P Q : State → Lane → Prop} (hp : ∀ t l, c t l = true → P t l) (hq : ∀ t l, d t l = true → Q t l) :
    ∀ t l, (c t l && d t l) = true → P t l ∧ Q t l := by
  intro t l h
  rw [Bool.and_eq_true] at h
  exact ⟨hp t l h.1, hq t l h.2⟩

/-- An aligned access at the end of a page; unaligned ones across two pages; a check whose entry is valid, one without, and one whose
offset pops a queue. -/
theorem witness_MemoryAccessesComplete :
    let s := base false 64 [(2, 0x10FFC), (4, 0x10FF8), (6, 0x10FFE), (10, 0x10100), (12, 0x10FF3)]
    let s' := { s with agents := s.agents.map fun a => { a with adv := [⟨8, 0xFFFFFFFFFFFF, 0, 8, 5, .valid⟩], regs := [(2, 0xFFFFFFFF), (3, 0xFFFF)] } }
    let gl (ty : LoadTy) : Sig := { dst := ty.res, a := .b64, b := .b32 }
    let gw (ty : WideTy) : Sig := { dst := ty.res, a := .b64, b := .b32 }
    let at_ (s : State) (g : Sig) (f : Fields) (P : State → Lane → Prop) : Prop := Ready s 0 g f ∧ ∀ l ∈ s.lanes 0 g f, P (s.atIssue 0) l
    at_ s (gl .b32) (VI 8 2 0).fields (fun s l => vOk accLoad (vaOffset l) 4 true s l) ∧
    at_ s (gw .b64) (VI 8 6 0xFFFFFFFF).fields (fun s l => vOk accLoad (vaOffset l) 8 false s l) ∧
    at_ s { dst := WideTy.b64.res, a := .b64, b := .scope } (V 8 4 0x241 0x200).fields
      (fun s l => scopeOk s l l.b.toNat ∧ vOk accLoad (vaBase l) 8 true s l) ∧
    at_ s (gw .b128) (VI 8 2 0).fields (fun _ _ => True) ∧
    at_ s (gw .b32) (VI 8 2 0).fields (fun s l => vOk accLoad (vaOffset l) 4 true s l) ∧
    at_ s' (gw .b64) (VI 8 2 0).fields (fun s l => ∃ e, findAdv (s.agent l.agent) (VI 8 2 0).fields (vaOffset l) 8 = some e ∧ e.state = .valid) ∧
    (∀ q ∈ (sigChk .b64).sourceQueues (VI 8 2 0).fields, q = none) ∧
    at_ s (gw .b64) (V 8 12 0x208 0x200).fields (fun s l => vOk accLoad (vaOffset l) 8 true s l) ∧
    at_ s { a := .b64, b := .b32, c := StoreTy.b64.pos } (VI 4 4 0).fields (fun s l => vOk accStore (vaOffset l) 8 true s l) ∧
    at_ s { a := .b64, b := .b32, c := WideTy.b32.pos } (VI 4 6 0xFFFFFFFE).fields (fun s l => vOk accStore (vaOffset l) 4 false s l) ∧
    at_ s { a := .b64, b := .scope, c := WideTy.b32.pos } (V 0x200 2 0x248 4).fields
      (fun s l => scopeOk s l l.b.toNat ∧ vOk accStore (vaBase l) 4 true s l) := by
  refine ⟨goes_of (chk := fun s l => vOkB accLoad (vaOffset l) 4 true s l) (by decide) fun _ _ => vOk_of,
    goes_of (chk := fun s l => vOkB accLoad (vaOffset l) 8 false s l) (by decide) fun _ _ => vOk_of,
    goes_of (chk := fun s l => scopeOkB s l l.b.toNat && vOkB accLoad (vaBase l) 8 true s l) (by decide +kernel)
      (both (fun _ _ => scopeOk_of) fun _ _ => vOk_of),
    goes_of (chk := fun _ _ => true) (by decide) fun _ _ _ => trivial,
    goes_of (chk := fun s l => vOkB accLoad (vaOffset l) 4 true s l) (by decide) fun _ _ => vOk_of,
    goes_of (chk := fun s l => decide ((findAdv (s.agent l.agent) (VI 8 2 0).fields (vaOffset l) 8).map (·.state) = some .valid)) (by decide)
      fun _ _ h => Option.map_eq_some_iff.1 (of_decide_eq_true h),
    by decide, goes_of (chk := fun s l => vOkB accLoad (vaOffset l) 8 true s l) (by decide +kernel) fun _ _ => vOk_of,
    goes_of (chk := fun s l => vOkB accStore (vaOffset l) 8 true s l) (by decide) fun _ _ => vOk_of,
    goes_of (chk := fun s l => vOkB accStore (vaOffset l) 4 false s l) (by decide) fun _ _ => vOk_of,
    goes_of (chk := fun s l => scopeOkB s l l.b.toNat && vOkB accStore (vaBase l) 4 true s l) (by decide +kernel)
      (both (fun _ _ => scopeOk_of) fun _ _ => vOk_of)⟩

/-- A thread with R2:R3 = `va` and the advance loads given; its one page has the order `ord`. -/
def advancing (va : Word) (ord : Nat) (adv : List AdvEntry) : State :=
  let s := base false 64 [(2, va)]
  let p := page 0x10000 scratchBase true false
  { s with agents := s.agents.map fun a => { a with adv := adv }
           tlb := [{ p with tr := { p.tr with ord := ord } }] }
def advOf (reg va : Nat) (st : AdvState) : AdvEntry := ⟨reg, BitVec.ofNat 64 va, scratchBase, 4, 5, st⟩

/-- The last word of a page of ordered and of strictly ordered access, where the table is empty, holds the register, is full; where
nothing is held for the address, or a deferred entry; a misaligned and an unmapped address; a valid entry. -/
theorem witness_AdvanceLoadsAndChecks :
    let f := (VI 8 2 0).fields
    let g : Sig := { dst := WideTy.b32.res, a := .b64, b := .b32 }
    let full := [advOf 2 0 .valid, advOf 4 0 .deferred, advOf 6 0 .valid, advOf 10 0 .valid]
    (∀ va ord adv, Alone (advancing va ord adv) 0 0) ∧
    (let places := [advancing 0x10FFC 0 [], advancing 0x10FFC 1 [advOf 8 0x10FFC .deferred], advancing 0x10FFC 0 full]
     (∀ s ∈ places ++ [advancing 0x10FFE 0 [], advancing 0x20000 0 [], advancing 0x10000 0 [advOf 4 0x10000 .valid, advOf 8 0x10000 .valid]],
       Ready s 0 g f ∧ Inside s 0 f ∧ Quiet s ∧ (∀ q ∈ s.pending, 0 ∉ q.agents) ∧ g.pops f (s.wanting 0).length = []) ∧
     (∀ s ∈ places, ∀ l ∈ s.lanes 0 g f, (oneLocalPiece s l accLoad (vaOffset l) 4 (scratchBase + 0xFFC) 0 ∨
        oneLocalPiece s l accLoad (vaOffset l) 4 (scratchBase + 0xFFC) 1) ∧
       (findAdv (s.agent 0) f (vaOffset l) 4).all (·.state = .deferred) = true)) ∧
    (∀ l ∈ (advancing 0x10FFE 0 []).lanes 0 g f, vaOffset l % 4 ≠ 0) ∧
    (let s := advancing 0x20000 0 []
     ∀ l ∈ s.lanes 0 g f, (match s.laneAccess l accLoad (vaOffset l) 4 with | .error _ => true | .ok _ => false) = true) ∧
    (let s := advancing 0x10000 0 [advOf 4 0x10000 .valid, advOf 8 0x10000 .valid]
     ∀ l ∈ s.lanes 0 g f, ∃ e ∈ (s.agent 0).adv, e.reg = f.dst.toNat ∧ e.va.toNat = vaOffset l ∧ e.size = 4 ∧ e.state = .valid ∧
       ∀ y ∈ (s.agent 0).adv, y.reg = e.reg → y = e) := by
  unfold Inside Quiet oneLocalPiece
  exact ⟨fun _ _ _ => ⟨Nat.one_pos, Nat.one_pos, rfl, rfl⟩, ⟨ready_all (by decide +kernel), by decide +kernel⟩, by decide +kernel⟩

/-- A store and a load of the last word of the scratchpad page. -/
theorem witness_StoreTakesEffectAndLoadReads :
    let s := base false 64 [(2, 0x10FFC)]
    let gs : Sig := { a := .b64, b := .b32, c := StoreTy.b32.pos }
    let gl : Sig := { dst := LoadTy.b32.res, a := .b64, b := .b32 }
    Alone s 0 0 ∧ Ready s 0 gs (VI 4 2 0).fields ∧ Ready s 0 gl (VI 8 2 0).fields ∧ Inside s 0 (VI 4 2 0).fields ∧ Inside s 0 (VI 8 2 0).fields ∧ Quiet s ∧
      (∀ q ∈ s.pending, 0 ∉ q.agents) ∧
      (∀ l ∈ s.lanes 0 gs (VI 4 2 0).fields, oneLocalPiece s l accStore (vaOffset l) 4 (scratchBase + 0xFFC) 0) ∧
      (∀ l ∈ s.lanes 0 gl (VI 8 2 0).fields, oneLocalPiece s l accLoad (vaOffset l) 4 (scratchBase + 0xFFC) 0) := by
  unfold Inside Quiet oneLocalPiece
  exact ⟨alone_base .., ready_of (by decide), ready_of (by decide), by decide, by decide, by decide, by decide, by decide, by decide⟩

/-- An atomic and a reduction in main memory, at scope sc1. -/
def VS (d a b c : BitVec 10) : Operands := .v64 { ret := 0, mc := 0, mb := 0, ma := 1, sc := c, sb := b, sa := a, nwb := 0, dst := d }
theorem witness_AtomicsAndReductionsComplete :
    let s := base false 64 [(2, 0x12FF8)]
    let f := (VS 8 2 0x200 4).fields
    let fr := (VS 0x200 2 0x200 4).fields
    let op : AtomOp := .add .n32
    let goes (g : Sig) (f : Fields) (P : State → Lane → Prop) : Prop := Ready s 0 g f ∧ ∀ l ∈ s.lanes 0 g f, P (s.atIssue 0) l
    goes (atomSig op.elem) f (atomOk accAtom false (fun _ => op) f) ∧
    goes { atomSig WideTy.b64.elem with b := WideTy.b64.pos, imm := true } (VS 8 2 4 6).fields (atomOk accAtom false (fun l => .cas .b64 l.b) (VS 8 2 4 6).fields) ∧
    goes { a := .b64, b := .b32, c := op.elem.pos, ctlA := true, ctlB := true, ctlC := true, ctlOk := orderOk true } fr
      (atomOk accRed true (fun _ => op) fr) := by
  have key : ∀ (acc : Access) (isRed : Bool) (op : Lane → AtomOp) (f : Fields) (t : State) (l : Lane),
      (orderOk isRed f && (scopeOkB t l (atomScope f) && vOkB acc (atomVa (op l) l) (op l).bytes true t l)) = true →
      atomOk acc isRed op f t l := by
    intro acc isRed op f t l h
    rw [Bool.and_eq_true, Bool.and_eq_true] at h
    exact ⟨h.1, scopeOk_of h.2.1, vOk_of h.2.2⟩
  exact ⟨goes_of (chk := fun t l => orderOk false (VS 8 2 0x200 4).fields && (scopeOkB t l (atomScope (VS 8 2 0x200 4).fields) &&
      vOkB accAtom (atomVa (.add .n32) l) 4 true t l)) (by decide +kernel) (key _ _ _ _),
    goes_of (chk := fun t l => orderOk false (VS 8 2 4 6).fields && (scopeOkB t l (atomScope (VS 8 2 4 6).fields) &&
      vOkB accAtom (atomVa (.cas .b64 l.b) l) 8 true t l)) (by decide +kernel) (key _ _ _ _),
    goes_of (chk := fun t l => orderOk true (VS 0x200 2 0x200 4).fields && (scopeOkB t l (atomScope (VS 0x200 2 0x200 4).fields) &&
      vOkB accRed (atomVa (.add .n32) l) 4 true t l)) (by decide +kernel) (key _ _ _ _)⟩

/-- An element at the start of memory and one that ends where the peers begin; a run of two pending halves of three. -/
theorem witness_AtomicAndReductionSteps :
    Quiet State.reset ∧ 0 + (AtomOp.add .n32).bytes ≤ peerBase ∧ (peerBase - 16) + (AtomOp.cas .b128 0).bytes ≤ peerBase ∧
    (let s := { State.reset with reds := [⟨0x40, 1, true, 0x3F80⟩, ⟨0x42, 1, true, 0x3F80⟩, ⟨0x40, 1, true, 0x3F81⟩, ⟨0x40, 1, false, 1⟩] }
     s.latent = [] ∧ 0x40 + 2 ≤ peerBase ∧ (s.reds.filter fun q => q.pa = 0x40).take 2 = ⟨0x40, 1, true, 0x3F80⟩ :: [⟨0x40, 1, true, 0x3F81⟩]) := by
  unfold Quiet; decide

theorem witness_FencesAndScopes :
    let s := base false 64 [(2, 0xFFFFFFFF), (3, 0xFFFF), (6, 63)]
    let goes (g : Sig) (f : Fields) (P : State → Lane → Prop) : Prop := Ready s 0 g f ∧ ∀ l ∈ s.lanes 0 g f, P (s.atIssue 0) l
    goes { b := .scope } (V 0x200 0x200 0x248 0x200).fields (fun s l => scopeOk s l l.b.toNat) ∧
    goes { a := .b64, b := .scope, c := .b32 } (V 0x200 2 0x241 4).fields (fun s l => scopeOk s l l.b.toNat ∧ vaBase l < 2 ^ 48) ∧
    goes { dst := .w32, a := .b32, b := .b128, c := .b32, imm := false, drover := true } (V 8 0x200 0x200 0x248).fields (fun s l => scpwCheck s l = none) ∧
    goes { dst := .w32, b := .b32, drover := true } (VI 8 0x200 8).fields (fun _ l => 8 ≤ l.b.toNat % 2 ^ 32 ∧ l.b.toNat % 2 ^ 32 ≤ 63) ∧
    goes { dst := .w32, b := .b32, drover := true } (V 8 0x200 6 0x200).fields (fun _ l => 8 ≤ l.b.toNat % 2 ^ 32 ∧ l.b.toNat % 2 ^ 32 ≤ 63) ∧
    assocGet s.contexts (s.agent 0).ctx ≠ none ∧ (∃ sc, s.agentScope (s.agent 0) 1 = .ok sc) ∧
    (let u : State := { s with remotes := [{ ctx := 1, core := 0, pa := peerBase, issued := 0, born := 0, agent := none, op := none }], nonce := 1 }
     ∃ r ∈ (tfenceLane u { (default : Lane) with agent := 0, want := true, b := 1 }).1.remotes, r.ctx = (u.agent 0).ctx ∧ r.issued < u.nonce ∧
       (match u.agentScope (u.agent 0) 1 with | .ok sc => sc.cores.toNat.testBit r.core | .error _ => false) = true) :=
  ⟨goes_of (chk := fun s l => scopeOkB s l l.b.toNat) (by decide +kernel) fun _ _ => scopeOk_of,
    goes_of (chk := fun s l => scopeOkB s l l.b.toNat && decide (vaBase l < 2 ^ 48)) (by decide +kernel)
      (both (fun _ _ => scopeOk_of) fun _ _ => of_decide_eq_true),
    goes_of (chk := fun s l => decide (scpwCheck s l = none)) (by decide +kernel) fun _ _ => of_decide_eq_true,
    goes_of (chk := fun _ l => decide (8 ≤ l.b.toNat % 2 ^ 32 ∧ l.b.toNat % 2 ^ 32 ≤ 63)) (by decide) fun _ _ => of_decide_eq_true,
    goes_of (chk := fun _ l => decide (8 ≤ l.b.toNat % 2 ^ 32 ∧ l.b.toNat % 2 ^ 32 ≤ 63)) (by decide) fun _ _ => of_decide_eq_true,
    by decide, (scopeOk_of (l := { (default : Lane) with agent := 0 }) (by decide +kernel)).2, by decide +kernel⟩
/-- Two threads of one block, the first alone in the caravan that issues, the second at a header; an open phase of barrier sc1 with
the participants given. -/
def meeting (parts : List Nat) : State :=
  let s := base false 64 []
  let a := s.agent 0
  { s with agents := [a, { a with tidx := 1, stand := .header, pc := 0 }]
           barriers := [{ key := s.barKey a (s.threadScope 0 1), phase := 3, scope := some (s.threadScope 0 1), parts := parts }] }
def meetingKey (parts : List Nat) : BarKey := (meeting parts).openKey 0 ((meeting parts).threadScope 0 1)

theorem witness_LevelBarriersCountArrivals :
    let o := V 0x200 0x200 0x241 0x200
    (∀ ps, Alone (meeting ps) 0 0) ∧
    (∀ ps ∈ [[0], [0, 1]], Ready (meeting ps) 0 sigLevel o.fields ∧ awaits (meeting ps) 0 (meetingKey ps) ∧
      Inside (meeting ps) 0 o.fields ∧ mayArrive (meeting ps) 0 1) ∧
    awaitsNoOther (meeting [0]) 0 (meetingKey [0]) ∧ ¬awaitsNoOther (meeting [0, 1]) 0 (meetingKey [0, 1]) := by
  have h : ∀ ps ∈ [[0], [0, 1]], readyB (meeting ps) 0 sigLevel (V 0x200 0x200 0x241 0x200).fields = true ∧
      (((meeting ps).barrierAt (meetingKey ps)).scope = some ((meeting ps).threadScope 0 1) ∧
        (meeting ps).otherPeers ((meeting ps).threadScope 0 1) = 0 ∧ 0 ∈ ((meeting ps).barrierAt (meetingKey ps)).parts ∧
        0 ∉ ((meeting ps).barrierAt (meetingKey ps)).arrived ∧ ((meeting ps).agent 0).stand ≠ .exited) ∧
      Inside (meeting ps) 0 (V 0x200 0x200 0x241 0x200).fields ∧ mayArrive (meeting ps) 0 1 := by
    unfold mayArrive Inside; decide +kernel
  unfold awaitsNoOther
  exact ⟨fun ps => ⟨Nat.one_pos, Nat.two_pos, rfl, rfl⟩, fun ps hp => ⟨ready_of (h ps hp).1, ⟨_, (h ps hp).2.1⟩, (h ps hp).2.2⟩,
    by decide +kernel⟩

/-- A drain with nothing pending and with an older store pending; the same drain waiting, its store acknowledged; a barrier wait whose phase is
over; an object wait whose object has moved on. -/
def waiting (w : Wait) : State :=
  let s := base false 64 []
  { s with agents := s.agents.map fun a => { a with wait := w } }
def older : State := { base false 64 [] with pending := [⟨[0], 1, 0, 0, 0, .store [(scratchBase, 1)]⟩], nonce := 1 }
theorem fetch_agents (s : State) (as : List Agent) (ci : Nat) : ({ s with agents := as } : State).fetch ci = s.fetch ci := by
  have h : ∀ n ctx off, ({ s with agents := as } : State).parcels ctx off n = s.parcels ctx off n := by
    intro n
    induction n with
    | zero => intros; rfl
    | succ n ih => intro ctx off; rw [State.parcels, State.parcels, ih]; rfl
  exact h ..
theorem performWhere_none {s : State} (h : s.pending = []) (f : PendStore → Bool) : s.performWhere f = s := by
  cases s
  cases h
  rfl
/-- With nothing pending, a wait is at an instruction of 8 bytes if the parcels there say so. -/
theorem waitsIn_of {s : State} {ci i : Nat} (h : s.pending = [] ∧ Alone s ci i ∧ (s.agent i).stand = .caravan ci ∧
    (s.caravan ci).pc + 8 ≠ blockEnd (s.caravan ci).hdr (s.caravan ci).len ∧ s.wakeable i = true ∧ sizeOfParcels (s.fetch ci) = 8) :
    WaitsIn s ci i := by
  obtain ⟨hp, ha, hs, hb, hw, hf⟩ := h
  refine ⟨ha, hs, hb, hw, fun fs => ?_⟩
  induction fs with
  | nil => exact hf
  | cons f fs ih => rw [List.foldl_cons, performWhere_none hp]; exact ih
def ownScope : Scope := (base false 64 []).threadScope 0 1
theorem witness_DrainsAndWaitsEnd :
    let o := V 0x200 0x200 0x241 0x200
    let k : BarKey := (base false 64 []).barKey ((base false 64 []).agent 0) ownScope
    (∀ w, WaitsIn (waiting w) 0 0) ∧
    (Ready (base false 64 []) 0 sigLevel o.fields ∧ mayArrive (base false 64 []) 0 1 ∧ (base false 64 []).drained 1 0 (base false 64 []).nonce = true) ∧
    (Alone older 0 0 ∧ Ready older 0 sigLevel o.fields ∧ Inside older 0 o.fields ∧ mayArrive older 0 1 ∧
      ∃ p ∈ older.pending, p.ctx = (older.agent 0).ctx ∧ p.core = older.coreOf (older.agent 0) ∧ p.seq < older.nonce) ∧
    (let s := waiting (.drain ownScope 0 1)
     s.arrivalDone 0 1 = true ∧ s.arriveFault 0 ownScope = none ∧ s.drained 1 0 1 = true) ∧
    (let s := { waiting (.level k 3) with barriers := [{ key := k, phase := 4 }] }
     WaitsIn s 0 0 ∧ (s.agent 0).wait = .level k 3 ∧ (s.barrierAt k).phase > 3) ∧
    (let s := waiting (.object (.tile 0 0 8) 1 none)
     (s.agent 0).wait = .object (.tile (s.agent 0).block (s.agent 0).pos 8) 1 none ∧ hasShare s 0 ∧ Quiet s ∧
       objPhase (s.objectAt 0 8) ≠ (1 : BitVec 16).toNat) := by
  have hb : ((base false 64 []).caravan 0).pc + 8 ≠ blockEnd ((base false 64 []).caravan 0).hdr ((base false 64 []).caravan 0).len ∧
      sizeOfParcels ((base false 64 []).fetch 0) = 8 := by decide +kernel
  have hw : ∀ w, WaitsIn (waiting w) 0 0 := fun w => waitsIn_of ⟨rfl, ⟨Nat.one_pos, Nat.one_pos, rfl, rfl⟩, rfl, hb.1, rfl,
    (congrArg sizeOfParcels (fetch_agents _ _ 0)).trans hb.2⟩
  unfold mayArrive Inside hasShare Quiet
  exact ⟨hw, ⟨ready_of (by decide +kernel), by decide +kernel⟩,
    ⟨⟨Nat.one_pos, Nat.one_pos, rfl, rfl⟩, ready_of (by decide +kernel), by decide +kernel⟩, by decide +kernel,
    ⟨waitsIn_of ⟨rfl, ⟨Nat.one_pos, Nat.one_pos, rfl, rfl⟩, rfl, by decide +kernel⟩, rfl, by decide +kernel⟩, by decide +kernel⟩

/-- An object at 8 with EXPECT 3 and PENDING 1 (its next arrival completes the phase), one with EXPECT 1, one that awaits three; counts at
both ends; an object in the scratchpad. -/
def withObject (w : Nat) (c : Word) : State :=
  let s := base false 64 [(1, 8), (3, c)]
  { s with blocks := s.blocks.map fun b => { b with shares := b.shares.map fun h => { h with tile := writeBytes [] 8 (leBytes 8 w) } } }
theorem witness_BarrierObjectsCountAndWait :
    let oi := V 0x200 1 0x200 3
    let oa := V 4 1 0x200 3
    let g (k : ObarForm) (o : Operands) : Sig := obarSig k o.fields
    (∀ w c, Alone (withObject w c) 0 0) ∧
    (let s := withObject 0x0001000003000001 1
     Ready s 0 (g obarInitForm oi) oi.fields ∧ Ready s 0 (g obarArriveForm oa) oa.fields ∧ Ready s 0 (g obarWaitForm oi) oi.fields ∧ Inside s 0 oi.fields ∧
     hasShare s 0 ∧ Quiet s ∧ obarVirtual oi.fields = false ∧ obarVirtual oa.fields = false ∧
     (∀ l ∈ s.lanes 0 (g obarArriveForm oa) oa.fields, privOk .t 8 s l ∧ l.c.toNat % 2 ^ 32 = 1) ∧
     objExpect (s.objectAt 0 8) ≠ 0 ∧ objPending (s.objectAt 0 8) ≤ 1 + 1 ∧
       (1 + 1 - objPending (s.objectAt 0 8)) / objExpect (s.objectAt 0 8) + 1 < 2 ^ 16 ∧ objPhase (s.objectAt 0 8) = 1 % 2 ^ 16) ∧
    (let s := withObject 0x0000000001000001 0xFFFFFF
     Ready s 0 (g obarInitForm oi) oi.fields ∧ Ready s 0 (g obarWaitForm oi) oi.fields ∧ Ready s 0 (g obarArriveForm oa) oa.fields ∧
     (∀ l ∈ s.lanes 0 (g obarWaitForm oi) oi.fields, privOk .t 8 s l ∧ l.c.toNat % 2 ^ 32 = 0xFFFFFF) ∧ objPhase (s.objectAt 0 8) ≠ 0xFFFFFF % 2 ^ 16) ∧
    (let s := withObject 0x0000000003000003 0
     Ready s 0 (g obarArriveForm oa) oa.fields ∧ hasShare s 0 ∧ objExpect (s.objectAt 0 8) ≠ 0 ∧
       objPhase (objStep (s.objectAt 0 8) 1) = objPhase (s.objectAt 0 8)) ∧
    (let s : State := { base false 64 [(2, 0x10F00), (5, 1)] with mem := writeBytes [] (scratchBase + 0xF00) (leBytes 8 0x0001000003000001) }
     Alone s 0 0 ∧ Quiet s ∧ s.pending = [] ∧ ∀ x ∈ [(obarInitForm, VS 0x200 2 0x200 5), (obarArriveForm, VS 4 2 0x200 5), (obarWaitForm, VS 0x200 2 0x200 5)],
       Ready s 0 (g x.1 x.2) x.2.fields ∧ Inside s 0 x.2.fields ∧ obarVirtual x.2.fields = true ∧ s.peekNat (scratchBase + 0xF00) 8 = 0x0001000003000001 ∧
       ∀ l ∈ s.lanes 0 (g x.1 x.2) x.2.fields, oneLocalPiece s l accObar (vaOffset l) 8 (scratchBase + 0xF00) 0) ∧
    (objPending 0x0001000003000001 = 1 ∧ objPending 0x0000000003000003 ≠ 1 ∧ 1 ≤ objPending 0x0000000003000003 ∧ 1 ≤ objExpect 0x0000000003000003) := by
  unfold Inside hasShare Quiet privOk oneLocalPiece
  refine ⟨fun _ _ => ⟨Nat.one_pos, Nat.one_pos, rfl, rfl⟩, ⟨ready_of (by decide), ready_of (by decide), ready_of (by decide), ?_⟩,
    ⟨ready_of (by decide), ready_of (by decide), ready_of (by decide), ?_⟩, ⟨ready_of (by decide), ?_⟩,
    ⟨⟨Nat.one_pos, Nat.one_pos, rfl, rfl⟩, ⟨rfl, rfl, rfl⟩, rfl, ready_all (by decide +kernel)⟩, ?_⟩ <;> decide

/-- Two blocks of a paired launch, one thread in each, in caravans of their own; the first one's partner is before it, has exited,
already waits, or waits with it. -/
def pair (w0 w1 : Wait) (st1 : Stand) : State :=
  let s := base false 64 []
  let a := s.agent 0
  { s with agents := [{ a with wait := w0 }, { a with block := 1, stand := st1, wait := w1 }]
           blocks := (s.blocks.map fun b => { b with mate := some 1 }) ++ (s.blocks.map fun b => { b with mate := some 0, partner := 1 })
           caravans := s.caravans ++ s.caravans.map fun c => { c with block := 1, members := [⟨1, true⟩], place := .active 0 1 }
           launches := s.launches.map fun l => { l with paired := true } }
theorem witness_PsyncExchangesValues :
    let o := V 8 2 0x200 0x200
    let g : Sig := { dst := .w32, a := .b32, noQueue := true, sync := true, paired := true }
    (let s := pair .ready .ready .header
     s.partnerOf 0 = some 1 ∧ 1 < s.agents.length ∧ Alone s 0 0 ∧ Ready s 0 g o.fields ∧ Inside s 0 o.fields ∧ (s.agent 1).stand ≠ .exited ∧
       ∀ k v d, (s.agent 1).wait ≠ .psync k v d) ∧
    (let s := pair .ready .ready .exited
     s.partnerOf 0 = some 1 ∧ Alone s 0 0 ∧ Ready s 0 g o.fields ∧ Inside s 0 o.fields ∧ (s.agent 1).stand = .exited) ∧
    (let s := pair .ready (.psync 0 9 0x200) (.caravan 1)
     s.partnerOf 0 = some 1 ∧ Alone s 0 0 ∧ Ready s 0 g o.fields ∧ Inside s 0 o.fields ∧ WaitsIn s 1 1 ∧ (s.agent 1).wait = .psync (s.agent 0).psyncs 9 0x200) ∧
    (let s := pair (.psync 4 7 8) (.psync 4 9 0x200) (.caravan 1)
     s.partnerOf 0 = some 1 ∧ s.partnerOf 1 = some 0 ∧ WaitsIn s 0 0 ∧ WaitsIn s 1 1 ∧ (s.agent 0).wait = .psync 4 7 8 ∧ (s.agent 1).wait = .psync 4 9 0x200) := by
  unfold Inside
  exact ⟨⟨by decide, by decide, ⟨Nat.two_pos, Nat.two_pos, rfl, rfl⟩, ready_of (by decide), by decide, by decide, fun _ _ _ h => nomatch h⟩,
    ⟨by decide, ⟨Nat.two_pos, Nat.two_pos, rfl, rfl⟩, ready_of (by decide), by decide, by decide⟩,
    ⟨by decide, ⟨Nat.two_pos, Nat.two_pos, rfl, rfl⟩, ready_of (by decide), by decide,
      waitsIn_of ⟨rfl, ⟨Nat.one_lt_two, Nat.one_lt_two, rfl, rfl⟩, rfl, by decide +kernel⟩, rfl⟩,
    by decide, by decide, waitsIn_of ⟨rfl, ⟨Nat.two_pos, Nat.two_pos, rfl, rfl⟩, rfl, by decide +kernel⟩,
    waitsIn_of ⟨rfl, ⟨Nat.one_lt_two, Nat.one_lt_two, rfl, rfl⟩, rfl, by decide +kernel⟩, rfl, rfl⟩
/-- A drover of a paired launch: m5 a plane of 64 rows of 32 E4M3 in the share, m12 one of 64 by 64; accumulators `op` open, a tile in slot 0;
tokens in both queues. -/
def drover (op : List Nat) (t0 t1 : DWord) : State :=
  let s := base true 64 []
  let acc : List Accum := (List.range 8).map fun k => { opened := op.contains k }
  { s with
    contexts := s.contexts.map fun c => (c.1, { c.2 with manifests := [(5, entry 0 0 16 32 64 32 24), (12, entry 0 0 16 64 64 64 24)] })
    launches := s.launches.map fun l => { l with paired := true }
    cores := s.cores.set 0 { queues := { owner := some 0, tokens := [t0] } :: { owner := some 0, tokens := [t1] } :: List.replicate 6 {} }
    blocks := s.blocks.map fun b => { b with shares := b.shares.map fun h => { h with engine := { h.engine with
      acc := acc, metas := [(0, { fmt := 16, curved := false, second := false, twoSlot := false })] } } } }

theorem alone_drover (op t0 t1) : Alone (drover op t0 t1) 0 0 := ⟨Nat.one_pos, Nat.one_pos, rfl, rfl⟩

theorem witness_MatrixCommandsEnterTheQueue :
    let idle := drover [] 0 0
    let open_ := drover [0, 1] 0 0
    let word (mfa mfb : BitVec 8) (flags : BitVec 6) (spec : BitVec 44) : Extended := X mfa mfb 0 0 flags spec 0x200 0x200 0x200 0x200
    (∀ y ∈ [(idle, MatOp.mzro, word 0 0 0 0xFF000000000), (idle, .mchb, word 0 0 0 0x01000000000), (open_, .mche, word 0 0 0 0x02000000000),
        (open_, .mma, word 5 5 1 0x3FC1), (open_, .mma, word 5 0 0 0), (idle, .mgth, word 5 0 0 0), (idle, .mdrn, word 12 0 0 7),
        (idle, .mdrg, word 12 0 0 0x08)],
      Ready y.1 0 (matSig y.2.1 y.2.2) y.2.2.fields ∧
        ∀ l ∈ y.1.lanes 0 (matSig y.2.1 y.2.2) y.2.2.fields, y.1.matFault y.2.1 y.2.2 (y.1.agent 0) (matArgs y.2.1 l) (gatherOff l) = none) ∧
    (Alone idle 0 0 ∧ Alone open_ 0 0) ∧ (∀ s ∈ [idle, open_], inShare s 0 ∧ Inside s 0 (word 0 0 0 0).fields ∧
      (s.engineOf (s.agent 0)).queue = [] ∧ s.latent = [] ∧ (s.engineOf (s.agent 0)).acc.length = 8) := by
  unfold inShare Inside
  exact ⟨ready_all (by decide +kernel), ⟨alone_drover .., alone_drover ..⟩, by decide +kernel⟩

/-- Both streams running, one ending, both ending; then a stream that has ended, whose queue is empty; with its result to a queue and
its B origin from either stream's queue, or from a third. -/
theorem witness_MmapTakesATokenOfEachStream :
    let x := X 5 0 0 0 0 0x01 8 0x208 0x209 0x200
    let late := drover [0, 1] 0 0
    let late := { late with cores := late.cores.set 0 { queues := { owner := some 0, tokens := [0] } :: { owner := some 0 } :: List.replicate 6 {} }
                            agents := late.agents.map fun a => { a with ended := 2 } }
    (∀ op t0 t1, Alone (drover op t0 t1) 0 0) ∧ Alone late 0 0 ∧
    ∀ s ∈ [drover [0, 1] 0 0, drover [0, 1] 0 0x8000000000000000, drover [0, 1] 0x8000000000000000 0x8000000000000000, late],
      Ready s 0 (matSig .mmap x) x.fields ∧ (s.agent 0).drover = true ∧ Inside s 0 x.fields ∧ inShare s 0 ∧
      s.coreOf (s.agent 0) < s.cores.length ∧ (s.core 0).queues.length = 8 ∧ s.coreOf (s.agent 0) = (s.caravan 0).core ∧
      (s.launch (s.agent 0).launch).paired = true ∧ (∀ q < 2, (!(s.agent 0).ended.getLsbD q) = true → s.tokens 0 q ≠ []) ∧
      (matLdb x = false ∧ queueField x.fields.dst = none) ∧
      ∀ l ∈ s.lanes 0 (matSig .mmap x) x.fields, mmapCheck x (s.atIssue 0) l = none := by
  unfold Inside inShare
  exact ⟨alone_drover, ⟨Nat.one_pos, Nat.one_pos, rfl, rfl⟩, ready_all (by decide +kernel)⟩
theorem witness_MmapTakesATokenOfEachStream_queues :
    let s0 := drover [0, 1] 0 0
    let s : State := { s0 with cores := s0.cores.set 0 { queues := List.replicate 8 { owner := some 0, tokens := [0, 0] } } }
    Alone s 0 0 ∧ ∀ x ∈ [X 5 5 0 0 1 0x01 0x20B 0x208 0x209 0x208, X 5 5 0 0 1 0x01 8 0x208 0x209 0x209, X 5 5 0 0 1 0x01 8 0x208 0x209 0x20A],
      Ready s 0 (matSig .mmap x) x.fields ∧ (s.agent 0).drover = true ∧ Inside s 0 x.fields ∧ inShare s 0 ∧ (s.core 0).queues.length = 8 ∧
      (s.launch (s.agent 0).launch).paired = true ∧ (∀ q < 8, 2 ≤ (s.tokens 0 q).length) ∧ matLdb x = true ∧ queueField x.fields.sc ≠ none ∧
      ∀ l ∈ s.lanes 0 (matSig .mmap x) x.fields, mmapCheck x (s.atIssue 0) l = none := by
  unfold Inside inShare
  exact ⟨⟨Nat.one_pos, Nat.one_pos, rfl, rfl⟩, ready_all (by decide +kernel)⟩

/-- Lines of zero elements, as memory without an entry gives them. -/
def zeroTile : OpTile :=
  { fmt := 16, codes := List.replicate 64 (List.replicate 32 0), scales := List.replicate 64 (List.replicate 32 0x7F) }
theorem zeroTile_whole : zeroTile.Whole ⟨32, 32⟩ :=
  ⟨rfl, rfl, rfl, by decide +kernel, by decide +kernel, nofun⟩
theorem zeroTile_from {m : Manifest} {get : Nat → Option (Nat → Nat × Nat)} (h : m.fmt = 16 ∧ m.curveSlot = 0 ∧ m.sat = false ∧ m.stepK = 32)
    (hg : ∀ r, get r = some fun _ => (0, 0x7F)) : zeroTile.From m none get := by
  refine ⟨h.1.symm, by simp [h.2.1, zeroTile], rfl, h.2.2.1.symm, by simp [hg, zeroTile], fun r hr g hgr e he => ?_⟩
  rw [hg r] at hgr
  cases hgr
  rw [h.2.2.2] at he
  exact (by decide +kernel : ∀ r < 64, ∀ e < 32, (zeroTile.codes.getD r []).getD e 0 = 0 ∧ (zeroTile.scales.getD r []).getD e 0 = 0x7F) r hr e he
theorem zero_lines {s : State} {e : EngineAt} {m : Manifest} (h : ∀ x, s.entryByte e m x = 0) (hs : m.scaled = false) (k0 n r : Nat) :
    s.linesAt e m k0 (fun r => some (n + r)) r = some fun _ => (0, 0x7F) := by
  have z : leNat ((List.range 16).map fun _ => (0 : Byte)) = 0 := by decide
  simp only [State.linesAt, State.entryCode, State.entryScale, h, hs, z, bitsAt, Nat.zero_div, Nat.zero_mod, Option.map_some, Bool.false_eq_true, if_false]
theorem leNat_zeros (l : List Byte) (h : ∀ b ∈ l, b = 0) : leNat l = 0 := by
  induction l with
  | nil => rfl
  | cons b l ih => rw [leNat, h b (List.mem_cons_self ..), ih fun x hx => h x (List.mem_cons_of_mem _ hx)]; rfl
theorem zero_loaded {s : State} {c : MatCmd} (h : ∀ x, s.peek x = 0) (hs : c.mb.scaled = false) (r : Nat) :
    s.linesLoaded c r = some fun _ => (0, 0x7F) := by
  have z : ∀ l : List (Nat × Nat), leNat (l.flatMap fun p => s.peekBytes p.1 p.2) = 0 := fun l => leNat_zeros _ (by simp [State.peekBytes, h])
  simp only [State.linesLoaded, hs, z, bitsAt, Nat.zero_div, Nat.zero_mod, Bool.false_eq_true, if_false]
theorem empty_plane {s : State} {e : EngineAt} {m : Manifest} (ht : m.tile = true) (hm : s.shareMem e.block e.pos = []) (x : Nat) : s.entryByte e m x = 0 := by
  simp [State.entryByte, ht, hm, readByte, sparseGet]

theorem witness_MatrixCommandsPerformInOrder_masks :
    (∀ op ∈ [MatOp.mzro, .mchb, .mche],
      let s0 := drover [] 0 0
      let c : MatCmd := { op := op.code, x := X 0 0 0 0 0 0x81000000000 0x200 0x200 0x200 0x200 }
      let s := s0.updEngine (s0.agent 0) fun e => { e with queue := [c, c], acc := e.acc.map fun a => { a with elems := [(0, 5), (4095, 7)], even := [(64, 1)] } }
      (s.engineOf (s.agent 0)).queue = c :: [c] ∧ inShare s 0 ∧ (s.engineOf (s.agent 0)).acc.length = 8 ∧ (∀ k < 8, (s.acc 0 k).canonical) ∧
        (matAmsk c.x).testBit 0 = true ∧ (matAmsk c.x).testBit 7 = true ∧ (matAmsk c.x).testBit 1 = false) := by
  unfold inShare Accum.canonical
  decide +kernel

/-- The command at the head of the engine's queue, a tile of zeros in slot 0 and in the gather latch. -/
def performing (c : MatCmd) : State :=
  let s0 := drover [] 0 0
  { s0.updEngine (s0.agent 0) fun e => { e with queue := [c], slots := [(0, zeroTile)], latch := some zeroTile } with
    mem := []
    launches := s0.launches.map fun l => { l with tileSize := 16384 } }
def plane (n : Nat) : Manifest := entry 0 0 16 n 64 n 24
/-- mma with the flags given and a B entry; drains with ZRO into a plane of MX elements and one of FP16, and with scales. -/
def mmaOf (f : BitVec 6) (mb : Manifest) : MatCmd :=
  { op := MatOp.mma.code, x := X 5 5 0 0 f 0 0x200 0x200 0x200 0x200, ma := plane 32, mb := mb, pages := List.replicate 64 [(0x20000, 32)] }
def inMemory : Manifest := entry 0x20000 0 16 32 64 32 16
def drains : List MatCmd :=
  let x : Extended := X 5 5 0 0 4 0 0x200 0x200 0x200 0x200
  [{ op := MatOp.mdrn.code, x := x, ma := plane 64 }, { op := MatOp.mdrn.code, x := x, ma := entry 0 0 7 64 64 128 24 },
    { op := MatOp.mdrg.code, x := x, ma := entry 0 4096 16 64 64 64 26 }]
/-- mma of a plane's rows, of the gather latch, with a B tile from a plane and from pages; mgth; the drains. -/
theorem witness_MatrixCommandsPerformInOrder :
    (∀ c ∈ [mmaOf 0 {}, mmaOf 2 {}, mmaOf 1 (plane 32), mmaOf 1 inMemory, { mmaOf 0 {} with op := MatOp.mgth.code, idx := List.replicate 64 0xFFFFFFFF }] ++ drains,
      let s := performing c
      (s.engineOf (s.agent 0)).queue = [c] ∧ inShare s 0 ∧ Quiet s ∧ (s.engineOf (s.agent 0)).acc.length = 8 ∧ (∀ k < 8, (s.acc 0 k).canonical) ∧
        (s.engineOf (s.agent 0)).latch = some zeroTile ∧ assocGet (s.engineOf (s.agent 0)).slots (matBoff c.x) = some zeroTile ∧
        (c.idx ≠ [] → c.idx.length = 64 ∧ c.ma.tile = true) ∧ (c.mb = inMemory → c.mb.tile = false ∧ c.mb.stepK = 32 ∧ c.pages.length = 64 ∧ ∀ ps ∈ c.pages, ∀ p ∈ ps, p.1 + p.2 ≤ peerBase)) ∧
    (∀ c, ∀ e : EngineAt, e.block = 0 → e.pos = 0 → zeroTile.From (plane 32) none ((performing c).linesAt e (plane 32) (originLo 0) fun r => some (originHi 0 + r))) ∧
    (plane 32).tile = true ∧ (plane 32).stepK = 32 ∧
    zeroTile.From inMemory none ((performing (mmaOf 1 inMemory)).linesLoaded (mmaOf 1 inMemory)) ∧
    (∀ c ∈ drains, c.Drainable ((performing c).shareFor ((performing c).agent 0) false) (performing c)) := by
  unfold inShare Accum.canonical Quiet
  have ok : ∀ c ∈ drains, (c.ma.tile = true ∧ drainFmt c.ma.fmt = true) ∧
      (let s := performing c
       let e := s.shareFor (s.agent 0) false
       (e.block < s.blocks.length ∧ e.pos < (s.block e.block).shares.length ∧ ((s.block e.block).share e.pos).home = .own) ∧
       (c.ma.footEnd ≤ s.tileSizeOf e.block ∧ originLo c.oa + 64 ≤ c.ma.ext 0 ∧ originHi c.oa + 64 ≤ c.ma.ext 1) ∧
       (fmtIsMx c.ma.fmt = true → originLo c.oa % 32 = 0 ∧ c.ma.ext 0 % 32 = 0) ∧ c.ma.bytesOf (c.ma.ext 0) ≤ c.ma.stride 1 ∧
       (c.ma.scaled = true → ∀ i < 64, ∀ b < 2, let x := c.ma.sa (originLo c.oa + 32 * b) (originHi c.oa + i) 0 0
         x < s.tileSizeOf e.block ∧ (x < c.ma.base ∨ c.ma.footEnd ≤ x)) ∧ c.ca = none) := by decide +kernel
  refine ⟨by decide +kernel, fun c e hb hp => zeroTile_from (by decide +kernel) fun r => ?_, by decide +kernel, by decide +kernel,
    zeroTile_from (by decide +kernel) fun r => zero_loaded (fun x => ?_) (by decide +kernel) r, fun c hc => ?_⟩
  · exact zero_lines (fun x => empty_plane (by decide +kernel) (by rw [hb, hp]; rfl) x) (by decide +kernel) _ _ r
  · have h : (performing (mmaOf 1 inMemory)).latent = [] ∧ (performing (mmaOf 1 inMemory)).mem = [] := by decide +kernel
    simp only [State.peek, h.1, h.2, ne_eq, not_true_eq_false, decide_false, Bool.false_and, Bool.false_eq_true, if_false]
    rfl
  · obtain ⟨hp, hs, hi, hb, hr, ha, hc⟩ := ok c hc
    exact ⟨hp, hs, hi, hb, hr, ha, fun _ => hc, fun k hk => by rw [hc] at hk; cases hk⟩

/-- A thread with a vector at R2, the number of a B entry in R3 and column 0 in R4, and a query; that entry is `m`. -/
def scoring (m : Manifest) : State :=
  let s := engine false [(2, 0), (3, 5), (10, 2048), (11, 2176), (12, 2240)]
  { s with contexts := s.contexts.map fun c => (c.1, { c.2 with manifests := (5, m) :: c.2.manifests.filter fun x => x.1 ≠ 5 }) }
/-- The columns in a plane of the share, and in main memory; a query. -/
theorem witness_VmxAndTravComplete :
    let xv := X 0 0 0 0 0 7 8 2 3 0x200
    let xt := X 11 10 1 0 0 (1 + 16 + 9 * 65536) 0x200 10 11 12
    let gv : Sig := { dst := .w32, a := .b32, b := .b32, c := .b32, dstRegs := vmxN xv, ctlOk := fun _ => vmxReservedOk xv }
    let states := [scoring (entry 0 0 16 32 8 32 24), scoring (entry 0x12000 0 16 32 8 32 16)]
    (∀ m, Alone (scoring m) 0 0) ∧
    (∀ s ∈ states, Ready s 0 gv xv.fields ∧ Inside s 0 xv.fields ∧ hasShare s 0 ∧ Quiet s ∧ s.pending = [] ∧ (s.agent 0).drover = false ∧
      ∀ l ∈ s.lanes 0 gv xv.fields, l.want = true ∧ vmxFault xv s l = none ∧ vmxFault xv (s.atIssue 0) l = none ∧
        (let m := (s.ctx 1).manifest (l.b.toNat % 256)
         m.opClass = some ⟨32, 32⟩ ∧ s.curveOf 1 m = none ∧
         ∀ r ∈ vmxRanges m (l.c.toNat % 2 ^ 32) (vmxN xv), m.tile = false →
           (match s.access 1 0 accRead (r.1 % 2 ^ 64) r.2 with
            | .ok ps => ps.all fun p => p.pa + p.len ≤ peerBase
            | .error _ => false) = true)) ∧
    (∀ s ∈ states, Ready s 0 (travSig xt) xt.fields ∧ ∀ l ∈ s.lanes 0 (travSig xt) xt.fields, l.want = true ∧ travLaneCheck xt (s.atIssue 0) l = none) := by
  unfold Inside hasShare Quiet
  exact ⟨fun _ => ⟨Nat.one_pos, Nat.one_pos, rfl, rfl⟩, ready_all (by decide +kernel), ready_all (by decide +kernel)⟩

def isOk {ε α : Type} (x : Except ε α) : Bool := match x with | .ok _ => true | .error _ => false
theorem ok_of {ε α : Type} {x : Except ε α} (h : isOk x = true) : ∃ a, x = .ok a := by
  cases x with
  | ok a => exact ⟨a, rfl⟩
  | error => exact Bool.noConfusion h
theorem error_of {ε α : Type} {x : Except ε α} (h : isOk x = false) : ∃ e, x = .error e := by
  cases x with
  | ok a => exact Bool.noConfusion h
  | error e => exact ⟨e, rfl⟩

/-- A running convoy of 16 bytes from m5 to a destination, with its object in the share. -/
def convoyOf (kind : Transform) (dst : Manifest) (landed : List (Nat × Nat)) : Convoy :=
  { kind := kind, len := 16, src := entry 256 0 6 64 1 0 24, dst := dst, so := [0, 0, 0, 0], dd := [0, 0, 0, 0], ext := [4, 1, 1, 1]
    obj := .tile 0 0 8, scope := { peers := 1 }, landed := landed }
def opOf (b : OpBody) : EngineOp := { ctx := 1, core := 0, issuer := 0, issued := 0, launch := 0, body := b }
def running (b : OpBody) : State :=
  let s := engine false []
  { s with ops := [opOf b]
           blocks := s.blocks.map fun k => { k with shares := k.shares.map fun h => { h with tile := writeBytes h.tile 8 (leBytes 8 0x1000001) } } }
def m6 : Manifest := entry 0x12000 0 6 64 1 0 16
/-- An address that no page maps. -/
def unmapped : Manifest := entry 0x50000 0 6 64 1 0 16

/-- One row whose bytes each have an address in the source and one in the destination, with the storage those stand for. -/
theorem local_of {s : State} {c : Convoy} {e : EngineAt} {g : Nat} (hk : c.kind ≠ .trn ∧ c.allRows = 1) (h : ∀ r ∈ s.receivers c,
      r.1 < s.blocks.length ∧ r.2 < (s.block r.1).shares.length ∧ ((s.block r.1).share r.2).home = .own)
    (k : ∀ x < c.rowLen, ∃ a d pa, c.moves 0 x = some (some a, d) ∧
      (c.src.tile = true ∨ s.access e.ctx e.core accRead (a % 2 ^ 64) 1 = .ok [⟨a, pa, 1, 0, false⟩]) ∧
      (if c.dst.tile then decide (∀ r ∈ s.receivers c, d < s.tileSizeOf r.1) else
        decide (s.access e.ctx e.core accWrite (d % 2 ^ 64) 1 = .ok [⟨d, pa, 1, 0, false⟩])) = true ∧ pa < peerBase) : c.local_ s e g := by
  refine ⟨fun ht => absurd ht hk.1, h, fun q x a d hm => ?_⟩
  obtain rfl : q = 0 := Nat.lt_one_iff.1 (hk.2 ▸ hm.1)
  obtain ⟨a', d', pa, hm', hs, hd, hp⟩ := k x hm.2.1
  obtain ⟨rfl, rfl⟩ : some a' = a ∧ d' = d := by simpa [hm'] using hm.2.2.1
  refine ⟨fun ht v hv => ?_, fun ht => ?_, fun ht => ?_⟩
  · obtain rfl : a' = v := by simpa using hv
    exact ⟨pa, _, _, _, _, hs.resolve_left (by simp [ht]), hp⟩
  · simpa [ht] using hd
  · exact ⟨pa, _, _, _, _, by simpa [ht] using hd, hp⟩

theorem tileObject {s : State} {ctx core acc b p off w} (h : b < s.blocks.length ∧ p < (s.block b).shares.length ∧
    ((s.block b).share p).home = .own ∧ leNat (s.readTile b p off 8) = w) : s.objectIs ctx core acc (.tile b p off) w := h

theorem witness_EngineEvents_convoys :
    (let c := convoyOf .copy m6 []
     let o := opOf (.convoy c)
     let s := running (.convoy c)
     c.local_ s (c.site 0 o) 0x1200 ∧ Quiet s ∧ s.runningConvoy 0 = some (o, c) ∧ 15 < c.len ∧ c.hasLeft 0 = false ∧ c.hasLeft 15 = false ∧
       c.fills 0x1200 0 0 (some 256) 0x12000 ∧ c.fills 0x1200 0 15 (some 271) 0x1200F ∧ 0 < c.rowLen ∧ 15 / c.rowLen < c.allRows ∧ (c.land 0 o 0 s).2.2 = none ∧ (c.land 0 o 15 s).2.2 = none ∧ c.scales = false) ∧
    (let c := { convoyOf .copy (entry 256 0 6 64 1 0 24) [] with src := m6 }
     let s := running (.convoy c)
     c.local_ s (c.site 0 (opOf (.convoy c))) 16 ∧ c.fills 16 0 0 (some 0x12000) 256 ∧ s.runningConvoy 0 = some (opOf (.convoy c), c) ∧ c.dst.tile = true) ∧
    (let c := convoyOf .copy unmapped []
     let s := running (.convoy c)
     s.runningConvoy 0 = some (opOf (.convoy c), c) ∧ c.reached < c.len ∧ c.hasLeft c.reached = false ∧
       (c.land 0 (opOf (.convoy c)) c.reached s).2.2.isSome = true) ∧
    (∀ acc, (running (.convoy (convoyOf .copy m6 [(0, 16)]))).objectIs 1 0 acc (.tile 0 0 8) 0x1000001) ∧
    (∃ w, (running (.convoy (convoyOf .copy m6 [(0, 16)]))).objectIs 1 0 accObar (.virt 0x10F00) w) ∧
    (∀ rec_ : Bool, let c := { convoyOf .copy m6 [(0, 16)] with wantRec := rec_ }
     let s := running (.convoy c)
     s.runningConvoy 0 = some (opOf (.convoy c), c) ∧ c.len ≤ c.reached ∧ c.kind ≠ .a2a ∧ s.opRemotes 0 = false ∧ objExpect 0x1000001 ≠ 0 ∧
       c.obj = .tile 0 0 8) ∧
    (let c := convoyOf .a2a m6 [(0, 16)]
     (running (.convoy c)).runningConvoy 0 = some (opOf (.convoy c), c) ∧ 0 < c.peers.length ∧ 0 ∉ c.arrivedAt ∧ c.rankWritten 0 = true ∧
       isOk ((running (.convoy c)).arriveRank 0 (opOf (.convoy c)) c 0) = true) := by
  unfold Quiet Convoy.fills
  refine ⟨⟨?_, by decide +kernel⟩, ⟨?_, by decide +kernel⟩, by decide +kernel, fun _ => tileObject (by decide +kernel),
    ⟨_, scratchBase + 0xF00, 0, false, by decide +kernel, by decide +kernel, rfl⟩, by decide +kernel⟩
  · refine local_of (by decide +kernel) (by decide +kernel) fun x hx => ⟨256 + x, 0x12000 + x, 0x20000 + x, ?_⟩
    revert x; decide +kernel
  · refine local_of (by decide +kernel) (by decide +kernel) fun x hx => ⟨0x12000 + x, 256 + x, 0x20000 + x, ?_⟩
    revert x; decide +kernel

/-- A cut operation over a graph, into 16-byte records in the share; the memory of a mapped graph here holds zeros, no image. -/
def cutOf (g : Manifest) : CutOp :=
  { block := some 0, graph := g, out := entry 2048 0 4 1 4 16 24, view := leBytes 64 (0x44800000 * 2 ^ 96), obj := .tile 0 0 8, scope := { peers := 1 } }
/-- A box query over the tree m11, whose node holds no child, and over a tree that no page maps. -/
def queryOf (t : Manifest) : TravOp :=
  { block := some 0, tree := t, fmt := BitVec.ofNat 256 (2 ^ 8 + 64 * 2 ^ 32 + 4 * 2 ^ 64), pred := 2, cap := 1, query := List.replicate 64 0, result := 64
    obj := some (.tile 0 0 8), scope := { peers := 1 } }
def faulted (a : TravAcc) : Bool := match a.stop with | some (.fault _) => true | _ => false

theorem witness_EngineEvents_cuts :
    (let c := cutOf unmapped
     (running (.cut c)).runningCut 0 = some (opOf (.cut c), c) ∧ c.record = none ∧ isOk (c.read 1 0 (running (.cut c))) = false) ∧
    (let c := cutOf (entry 0x12400 0 0 256 1 0 16)
     (running (.cut c)).runningCut 0 = some (opOf (.cut c), c) ∧ Quiet (running (.cut c)) ∧ c.record = none ∧ c.stage = 0 ∧
       c.out.tile = true ∧ c.out.fmt = 0x04 ∧ c.block = some 0 ∧
       (∀ i < 4, ∀ j < i, c.out.elemAddr j + 16 ≤ c.out.elemAddr i) ∧ c.out.elems = 4 ∧
       (match c.read 1 0 (running (.cut c)) with
        | .ok (s1, h, out) => decide (out.sides = [] ∧ 0 < s1.blocks.length ∧ 0 < (s1.block 0).shares.length ∧ ((s1.block 0).share 0).home = .own ∧
            c.out.footEnd ≤ s1.tileSizeOf 0) &&
            isOk ((c.writeRecords (c.site 0 (opOf (.cut c))) h out s1).bind fun s2 =>
              (s2.writeObjAt 1 0 c.objAcc c.obj 16 (cutRecord out c.out.elems (viewScap c.view)) (some 0)).bind fun s3 =>
                if s2.opRemotes 0 || s3.opRemotes 0 then .error default else s3.engineArrive 1 0 c.objAcc c.obj (some 0))
        | .error _ => false) = true) ∧
    (let c := { cutOf (entry 0x12400 0 0 256 1 0 16) with obj := .virt 0x14000, walk := some 0 }
     let away (rs : List Remote) : State := { running (.cut c) with remotes := rs, tlb := [page 0x14000 (peerBase + peerWindow) true false, page 0x12000 0x20000 true false] }
     (away []).runningCut 0 = some (opOf (.cut c), c) ∧
       (∀ x ∈ [(([] : List Remote), false), ([{ ctx := 1, core := 0, pa := peerBase, issued := 0, born := 0, agent := none, op := some 0 }], true)],
         (match c.read 1 0 (away x.1) with
          | .ok (s1, h, out) => match c.writeRecords (c.site 0 (opOf (.cut c))) h out s1 with
            | .ok s2 => s2.opRemotes 0 == x.2 &&
              match s2.writeObjAt 1 0 c.objAcc c.obj 16 (cutRecord out c.out.elems (viewScap c.view)) (some 0) with
              | .ok s3 => s3.opRemotes 0
              | .error _ => false
            | .error _ => false
          | .error _ => false) = true)) := by
  unfold Quiet
  decide +kernel
theorem witness_EngineEvents_queries :
    (let q := queryOf unmapped
     let s := running (.trav q)
     s.runningTrav 0 = some (opOf (.trav q), q) ∧ q.block = some 0 ∧ q.written = false ∧ queryDirty q.query = false ∧
       faulted (q.walkRow (q.site 0 (opOf (.trav q))) 64 0 { s := s }) = true) ∧
    (let q := queryOf (entry 0x12C00 0 4 16 1 0 16)
     let a := q.walkRow (q.site 0 (opOf (.trav q))) 64 0 { s := running (.trav q) }
     (running (.trav q)).runningTrav 0 = some (opOf (.trav q), q) ∧ faulted a = false ∧ isOk (q.finish (q.site 0 (opOf (.trav q))) a) = true ∧
       q.pred ≠ 1 ∧ a.s.latent = [] ∧ a.s.logs = [] ∧ 0 < a.s.blocks.length ∧ 0 < (a.s.block 0).shares.length ∧ ((a.s.block 0).share 0).home = .own ∧
       q.result + 16 * (1 + q.cap) ≤ a.s.tileSizeOf 0) := by
  decide +kernel



/-- The caravan of `base` waits: a pop of a queue without tokens; and with a token to come. -/
def waitingOn (pops : List (Nat × Nat)) (st : Place) : State :=
  let s := base false 64 []
  { s with agents := s.agents.map fun a => { a with wait := .queue pops [] [] }, caravans := s.caravans.map fun c => { c with place := st } }
/-- `n` caravans of one thread each, that formed one after another; the first 64 are active, those of `aged` have aged. -/
def crowd (n : Nat) (aged : List Nat) : State :=
  let s := base false 64 []
  { s with agents := List.replicate n (s.agent 0)
           agenda := [.issue 0]
           caravans := (List.range n).map fun k => { s.caravan 0 with
             members := [⟨k, true⟩], place := if k < 64 then .active (k / 8) (k % 8) else .pending, formed := k, aged := aged.contains k } }

theorem witness_PositionsAndWaits_positions :
    (let s : State := { base false 64 [] with caravans := (base false 64 []).caravans.map fun c => { c with place := .pending } }
     s.mgmt.held = false ∧ s.taken 0 0 0 = false ∧ s.candidates 0 ≠ [] ∧ s.taken 0 7 7 = false) ∧
    (let s := waitingOn [(1, 1)] (.active 0 0)
     0 < s.caravans.length ∧ (s.caravan 0).isActive = true ∧ s.latchHeld 0 = false ∧ s.ready (s.caravan 0) = false) ∧
    (let s := crowd 3 [1, 2]
     s.mgmt.held = false ∧ s.agenda = [.issue 0] ∧ ∀ x ∈ [1, 2], (s.caravan x).core = (s.caravan 0).core ∧ (s.caravan x).place = .active 0 x ∧
       s.canIssue x = true ∧ (s.caravanCand x).before (s.caravanCand 0) = true) ∧
    (let s := crowd 65 [64]
     s.full 0 = true ∧ (∃ k ∈ s.candidates 0, k.aged = true) ∧ s.lastActive 0 = some 63 ∧ s.latchHeld 63 = false ∧
       (s.caravan 63).place = .active 7 7) ∧
    (let s := waitingOn [(0, 1)] .pending
     (s.caravan 0).place ≠ .dissolved ∧ s.ready (s.caravan 0) = false ∧
       ∀ m ∈ (s.caravan 0).members, (s.agent m.agent).wait ≠ .ready → s.wakeable m.agent = true ∧ s.queueWaitOver (s.agent m.agent) = true ∧ m.agent < s.agents.length) ∧
    (let s : State := { base false 64 [] with cores := (base false 64 []).cores.map fun c => { c with cycle := 0x100000000 } }
     0 < s.caravans.length ∧ (s.caravan 0).place ≠ .dissolved ∧ s.caravanAged (s.caravan 0) = true) := by
  decide +kernel

theorem witness_PositionsAndWaits_misuse :
    let s := waitingOn [(1, 1)] .pending
    Alone s 0 0 ∧ s.mgmt.held = false ∧ (s.caravan 0).place ≠ .dissolved ∧ (s.block 0).state = .resident ∧ (s.block 0).mate = none ∧
      s.agentsOf 0 = [0] ∧ (∀ c, c ≠ 0 → (s.caravan c).place = .dissolved ∨ (s.caravan c).block ≠ 0) ∧ s.lacking (s.agent 0) = some 1 ∧
      (s.agent 0).trapMode = false ∧ (s.agent 0).drover = false ∧ s.trapEntry (s.agent 0) = some 0 ∧ s.entryFault (s.agent 0) 0 = none ∧
      s.qlockAt (s.agent 0).ctx 0 = false := by
  refine ⟨⟨Nat.one_pos, Nat.one_pos, rfl, rfl⟩, by decide, by decide, by decide, by decide, by decide, fun c hc => ?_, by decide, by decide, by decide,
    by decide +kernel, by decide +kernel, by decide +kernel⟩
  cases c with
  | zero => exact absurd rfl hc
  | succ n => exact .inl rfl

/-- A launch of two blocks of 64 threads, one placed on core 0; and the same with every agent exited. -/
def launching : State :=
  let s := base false 64 []
  { s with launches := s.launches.map fun l => { l with nblock := 2, bsize := 64, regs := 32, placed := 1 } }

theorem witness_BlocksArePlacedAndRetire :
    (let s := launching
     s.goes 0 ∧ (s.launch 0).state = .running ∧ (s.launch 0).itinerary = false ∧ (s.launch 0).placed < (s.launch 0).nblock ∧ 0 < s.launches.length ∧
       (s.ctx (s.launch 0).ctx).stopped = false ∧ s.mayPlace (s.launch 0) ((s.launch 0).sizeOf (s.launch 0).placed) [0] = true ∧
       s.mayPlace (s.launch 0) ((s.launch 0).sizeOf (s.launch 0).placed) [63] = true) ∧
    (let s : State := { base false 64 [] with agents := (base false 64 []).agents.map fun a => { a with stand := .exited } }
     s.mgmt.held = false ∧ (s.block 0).state = .resident ∧ 0 < s.blocks.length ∧ (s.block 0).mate = none ∧
       (∀ i ∈ s.agentsOf 0, (s.agent i).stand = .exited) ∧ s.blockBusy 0 = false ∧ s.blockUnacked 0 = false ∧
       ∀ h ∈ (s.block 0).shares, h.engine.queue = []) := by
  unfold State.goes
  refine ⟨⟨?_, ?_, ?_, ?_, ?_, ?_, ?_, ?_⟩, ?_, ?_, ?_, ?_, ?_, ?_, ?_, ?_⟩ <;> decide +kernel

/-- Four levels of tables below 0x40000 map the page at 0x50000 to 0x44000 and the large page at 0x200000 to itself. -/
def tables : State :=
  let s := base false 64 []
  let pte (m : List (Nat × Byte)) (a v : Nat) := writeBytes m a (leBytes 8 v)
  { s with
    contexts := s.contexts.map fun c => (c.1, { c.2 with ptRoot := 0x40000 })
    mem := pte (pte (pte (pte (pte s.mem 0x40000 0x41001) 0x41000 0x42001) 0x42000 0x43001) 0x42008 0x20000E) 0x43280 0x4400E }

theorem witness_StorageEvents :
    Quiet tables ∧ (∃ tr, (tables.ctx 1).live = true ∧ tables.walk 1 (0x50010 : DWord).toNat = some (0x1000, tr) ∧
      ∀ e ∈ tables.tlb, ¬(e.ctx = 1 ∧ (e.core = 3 ∨ e.core = dieTlb 3) ∧ e.base ≤ (0x50010 : DWord).toNat ∧ (0x50010 : DWord).toNat < e.base + e.size)) ∧
    (let s : State := { tables with dirty := [⟨0x44000, 1, leBytes 32 0⟩] }
     Quiet s ∧ ∃ d ∈ s.dirty, d.sector = 0x44000) ∧
    (arrayExists (.l2data 63) = true ∧ ∀ n, ArrayId.l2data 63 ≠ .l2tag n) ∧
    (tables.trusted .management = true ∧ arrayExists (.l2tag 0) = true ∧ ¬((0 : DWord).getLsbD 62 = true ∧ (0 : DWord).extractLsb' 53 9 = (0 : DWord).extractLsb' 44 9)) ∧
    (let s : State := { tables with carving := [(0, 2, ⟨0, 0⟩)] }
     s.mgmt.held = false ∧ s.carving = [(0, 2, ⟨0, 0⟩)] ∧ 0 < s.carve.length ∧ s.carve.getD 0 0 = 1) :=
  ⟨⟨rfl, rfl, rfl⟩, ⟨{ pa := 0x44000, ord := 0, cmp := false, amo := false, wr := true, rd := true }, rfl, by decide +kernel, by decide +kernel⟩, ⟨⟨rfl, rfl, rfl⟩, by decide +kernel⟩, ⟨rfl, nofun⟩, ⟨by decide +kernel, by decide +kernel, by decide +kernel⟩,
    by decide +kernel, rfl, by decide +kernel, by decide +kernel⟩

/-- `tables`, with a packet of opcode `opc` in queue 0 of context 1, started; queue 1 and context 7 are idle. -/
def asking (priv : Bool) (opc : Nat) (args : List Nat) : State :=
  let p : Packet := { index := 0, head := BitVec.ofNat 64 (2 ^ 63 + 2 * 2 ^ 40 + opc * 2 ^ 32), args := args.map (BitVec.ofNat 64), sig := 0, started := true }
  { tables with
    contexts := (7, {}) :: tables.contexts.map fun c => (c.1, { c.2 with peerBase := 0x50100, peerCount := 1, saveBase := 0x200000, saveSize := 0x100000 })
    hub := { tables.hub with queues := [{ ctx := 1, ring := 0x50000, rdw := 0x50800, priv := priv, wk := 1, pkts := [p] }, { ctx := 7 }] } }
def pk (priv : Bool) (opc : Nat) (args : List Nat) : Packet := ((asking priv opc args).queue 0).pkts.headD default
def asksB (s : State) (opc : Nat) (used : List Nat) : Bool :=
  match s.command ⟨0, 0⟩ opc with
  | some p => [1, 2, 3].all fun k => decide (k ∈ used) || decide (p.arg k = 0)
  | none => false
theorem asks_of {s opc used} (h : asksB s opc used = true) : ∃ p, Asks s ⟨0, 0⟩ opc p used := by
  unfold asksB at h
  cases hc : s.command ⟨0, 0⟩ opc with
  | none => rw [hc] at h; exact Bool.noConfusion h
  | some p =>
    rw [hc] at h
    refine ⟨p, hc, fun k h1 h2 hu => ?_⟩
    have hk : k ∈ [1, 2, 3] := by simp; omega
    simpa [hu] using List.all_eq_true.1 h k hk

theorem witness_commands_of_unprivileged_queues :
    ∀ x : Instr × Nat, x ∈ [(Instr.ctxnew ⟨0, 0⟩, 1), (.ctxfree ⟨0, 0⟩, 2), (.qcreate ⟨0, 0⟩, 3), (.qfree ⟨0, 0⟩, 4), (.qgrant ⟨0, 0⟩, 5),
      (.hostwin ⟨0, 0⟩, 6), (.carve ⟨0, 0⟩, 0x10), (.spgrant ⟨0, 0⟩, 0x11), (.sprevoke ⟨0, 0⟩, 0x12)] →
      (asking false x.2 []).privileged ⟨0, 0⟩ = false ∧ ((asking false x.2 []).command ⟨0, 0⟩ x.2).isSome = true := by
  decide +kernel

theorem witness_CARVE :
    (∀ ways ∈ [0, 1, 2, 12], let s := asking true 0x10 [ways * 2 ^ 16]
      s.privileged ⟨0, 0⟩ = true ∧ s.carve.length = 4 ∧ asksB s 0x10 [] = true ∧ (pk true 0x10 [ways * 2 ^ 16]).arg 0 = 0 + ways * 2 ^ 16) ∧
    (let s := asking true 0x10 [0]
     s.carve.getD 0 0 = 1 ∧ s.granted 0 0 = true ∧ s.carving = [] ∧
       (let t : State := { s with contexts := s.contexts.map fun c => (c.1, { c.2 with grants := [0, 0, 0, 0] }) }
        t.granted 0 0 = false ∧ t.carve.getD 0 0 = 1 ∧ asksB t 0x10 [] = true)) := by
  decide +kernel

theorem witness_grants :
    ∀ x ∈ [(0x11, 1), (0x11, 2), (0x11, 4095), (0x12, 1)], let s := asking true x.1 [1 + x.2 * 2 ^ 32]
      s.privileged ⟨0, 0⟩ = true ∧ (s.ctx 1).live = true ∧ (s.ctx 1).grants.length = 4 ∧ asksB s x.1 [] = true ∧
        (pk true x.1 [1 + x.2 * 2 ^ 32]).arg 0 = 1 + 0 * 2 ^ 16 + x.2 * 2 ^ 32 ∧ s.carve.getD 0 0 = 1 ∧ s.unitsInUse 1 0 x.2 = false := by
  decide +kernel

theorem witness_CTXNEW :
    let s0 := asking true 1 [0x48000]
    let s : State := { s0 with mem := writeBytes (writeBytes s0.mem 0x48018 (leBytes 4 64)) 0x48020 (leBytes 8 0xFFFFFFFFFFFFFFFF) }
    let bs := s.peekBytes 0x48000 128
    let n := s.freeContext
    asksB s 1 [] = true ∧ (pk true 1 [0x48000]).arg 0 = 0x48000 ∧ s.privileged ⟨0, 0⟩ = true ∧ s.populated 0x48000 128 = true ∧ Quiet s ∧ descOk bs = true ∧ n = 2 ∧
      (match ({ s with contexts := s.contexts ++ [(n, descContext bs s.ownMask)] } : State).readPodMask n with
       | some s3 => (s3.readManifests n (descField bs 0x48 8) (descField bs 0x54 4)).isSome
       | none => false) = true := by
  unfold Quiet
  decide +kernel

theorem witness_CTXFREE :
    let s := asking true 2 [7]
    asksB s 2 [] = true ∧ (pk true 2 [7]).arg 0 = 7 ∧ s.privileged ⟨0, 0⟩ = true ∧ (s.ctx 7).live = true ∧ s.contextBusy 7 = false := by
  decide +kernel

theorem witness_queue_commands :
    (∀ priv : Bool, let args := [1 + 4 * 2 ^ 32 + 0 * 2 ^ 48 + (if priv then 2 ^ 49 else 0), 0x50000, 0x50804]
      let s := asking true 3 args
      asksB s 3 [1, 2] = true ∧ s.privileged ⟨0, 0⟩ = true ∧ (pk true 3 args).arg 0 = 1 + 4 * 2 ^ 32 + 0 * 2 ^ 48 + (if priv then 2 ^ 49 else 0) ∧
        (pk true 3 args).arg 1 % 64 = 0 ∧ (pk true 3 args).arg 2 % 4 = 0 ∧
        (List.range 224).find? (fun q => !(s.queue q).live) = some 2 ∧ isOk (s.hubWrite 1 ((pk true 3 args).arg 2) (leBytes 4 0)) = true) ∧
    (let s := asking true 4 [1]
     asksB s 4 [] = true ∧ s.privileged ⟨0, 0⟩ = true ∧ (pk true 4 [1]).arg 0 = 1 ∧ (s.queue 1).live = true ∧ (s.queue 1).pkts = [] ∧ (s.queue 1).rd = (s.queue 1).wk) ∧
    (∀ port < 2, let s := asking true 5 [1 + port * 2 ^ 48]
      asksB s 5 [] = true ∧ s.privileged ⟨0, 0⟩ = true ∧ (pk true 5 [1 + port * 2 ^ 48]).arg 0 = 1 + port * 2 ^ 48 ∧ (s.queue 1).live = true) ∧
    (∀ on : Bool, let args := [15 + (if on then 2 ^ 63 else 0), 0x200000, 2 ^ 41 - 0x200000]
      let s := asking true 6 args
      asksB s 6 [1, 2] = true ∧ s.privileged ⟨0, 0⟩ = true ∧ (pk true 6 args).arg 0 = 15 + (if on then 2 ^ 63 else 0) ∧ (pk true 6 args).arg 1 % 0x200000 = 0 ∧
        (pk true 6 args).arg 2 % 0x200000 = 0 ∧ (pk true 6 args).arg 1 + (pk true 6 args).arg 2 ≤ 2 ^ 41) := by
  decide +kernel

theorem witness_PODJOIN :
    let s := asking false 0x23 [5]
    asksB s 0x23 [] = true ∧ (pk false 0x23 [5]).arg 0 = 5 + 0 * 2 ^ 32 ∧ 0 < (s.ctx (s.queue 0).ctx).peerCount ∧
      isOk (s.hubRead (s.queue 0).ctx ((s.ctx (s.queue 0).ctx).peerBase + BitVec.ofNat 64 (128 * 0)).toNat 128) = true := by
  decide +kernel

theorem witness_PREEMPT :
    let s := asking false 0x20 [1, 0]
    asksB s 0x20 [1] = true ∧ (pk false 0x20 [1, 0]).arg 0 = 1 ∧ (pk false 0x20 [1, 0]).arg 1 = 0 ∧ (s.ctx 1).live = true ∧ (s.queue 0).ctx = 1 ∧
      s.named 1 0 Launch.runs = some [0] ∧ s.canSave 1 [0] = true ∧ s.onCores [0] = [0] := by
  decide +kernel

/-- The block of `asking` is saved and its launch with it. -/
def savedBlock (opc : Nat) (args : List Nat) (restoring : Bool) : State :=
  let s := asking false opc args
  { s with blocks := s.blocks.map fun b => { b with state := .saved }
           launches := s.launches.map fun l => { l with saving := true, saved := true, restoring := restoring, regs := 32 } }

theorem witness_RESUME_and_restore :
    (let s := savedBlock 0x21 [1, 0] false
     asksB s 0x21 [1] = true ∧ (pk false 0x21 [1, 0]).arg 0 = 1 ∧ (pk false 0x21 [1, 0]).arg 1 = 0 ∧ assocGet s.contexts 1 ≠ none ∧ (s.ctx 1).live = true ∧
       (s.queue 0).ctx = 1 ∧ s.named 1 0 Launch.isSaved = some [0] ∧ 0 ∈ s.family 0 ∧ (s.block 0).state = .saved ∧
       s.areaOk 1 (s.saveSum (([0] : List Nat).flatMap fun x => (s.family x).filter fun b => (s.block b).state = .saved)) { rd := true } = true) ∧
    (let s := savedBlock 0x21 [1, 0] true
     s.mgmt.held = false ∧ (s.block 0).state = .saved ∧ 0 < s.blocks.length ∧ (s.block 0).partner = 0 ∧ (s.block 0).mate = none ∧
       (s.launch (s.rootLaunch (s.block 0).launch)).restoring = true ∧ (s.ctx (s.block 0).ctx).stopped = false ∧ s.mayRestore 0 [63] = true ∧ s.carving = []) := by
  decide +kernel

theorem witness_EREPLAY :
    (∀ cancel : Bool, let args := [1, 9, if cancel then 1 else 0]
      let s0 := asking false 0x22 args
      let op : EngineOp := { ctx := 1, core := 0, issuer := 0, issued := 0, launch := 0, state := .stopped 6 0 9, body := .cut (cutOf unmapped) }
      let s : State := { s0 with ops := [op] }
      asksB s 0x22 [1, 2] = true ∧ (pk false 0x22 args).arg 0 = 1 ∧ (s.ctx 1).live = true ∧ (s.queue 0).ctx = 1 ∧
        (pk false 0x22 args).arg 2 = (if cancel then 1 else 0) ∧ (s.replay 1 (BitVec.ofNat 64 ((pk false 0x22 args).arg 1)) cancel).isSome = true ∧
        s0.replay 1 9 cancel = none) := by
  decide +kernel

theorem witness_BLOCK_SAVE :
    let s0 := asking false 0 []
    let s : State := { s0 with blocks := s0.blocks.map fun b => { b with state := .saving } }
    s.mgmt.held = false ∧ (s.block 0).state = .saving ∧ 0 < s.blocks.length ∧ (s.block 0).mate = none ∧ s.quiet 0 = true ∧
      (s.launch (s.block 0).launch).coresident = false ∧ s.carving = [] := by
  decide +kernel

/-- A launch of PRIO 3 whose blocks ask for more tile than a core has; it is not known to wait, has waited too short, and long enough. -/
theorem witness_PRIORITY_PREEMPT :
    ∀ x ∈ [(none, 0), (some 5, 65540), (some 5, 65541)],
      let s0 := asking false 0 []
      let s : State := { s0 with
        launches := s0.launches ++ [{ ctx := 1, prio := 3, nblock := 1, bsize := 1, tileSize := 0x1000000, waiting := x.1 }]
        cores := s0.cores.map fun c => { c with cycle := BitVec.ofNat 64 x.2 } }
      s.mgmt.held = false ∧ 1 < s.launches.length ∧ s.starved 1 = true ∧ s.brokerVictims (s.launch 1).prio = [0] ∧ s.clockOf hubCore = x.2 ∧
        ∀ k ∈ s.blocks, k.broker = true → k.state ≠ .saving := by
  decide +kernel

/-- `asking`'s machine with both hosts' links up and memory words of the page at 0x50000. -/
def hosting (ws : List (Nat × Nat)) : State :=
  let s := asking false 0 []
  { s with mgmt := { s.mgmt with pcieUp := [true, true] }
           mem := ws.foldl (fun m w => writeBytes m (0x44000 + w.1) (leBytes 8 w.2)) s.mem }

theorem witness_HostRegistersAndBar2 :
    (let s := hosting []
     s.hostUp 0 = true ∧ s.hostUp 1 = true ∧ (s.queue 0).live = true ∧ (s.queue 0).port = 0 ∧ (0 : Nat) = s.mgmt.control ∧
     (s.queue 0).rd = 0 ∧ (s.queue 0).wk = 1 ∧ (s.queue 0).log2 = 4 ∧ s.hub.evwr = 0 ∧ Quiet s ∧
     s.bar2Reach 0 0x44000 = true ∧ s.bar2Reach 1 0x44000 = false) ∧
    (∀ v ∈ [0, 0x20, 0x10000000000], (BitVec.ofNat 64 v).toNat % 32 = 0 ∧ mainRange (BitVec.ofNat 64 v).toNat 32 = true) ∧
    ((64 : Word).toNat = 2 ^ 6 ∧ (65536 : Word).toNat = 2 ^ 16) := by
  unfold Quiet
  decide +kernel
/-- Writes to the notify register of that queue in range, of 1 and of 16, beyond its size, and stale after WK 5; 0 goes to EVRD of an empty
ring; queue 9 is none. -/
theorem witness_notify :
    (∀ v ∈ [1, 16], (BitVec.ofNat 32 v - 0).toNat ≤ 2 ^ 4 ∧ ((1 : Word) - 0).toNat ≤ (BitVec.ofNat 32 v - 0).toNat) ∧ 2 ^ 4 < ((17 : Word) - 0).toNat ∧
    (((4 : Word) - 0).toNat ≤ 2 ^ 4 ∧ ((4 : Word) - 0).toNat < ((5 : Word) - 0).toNat) ∧ ((0 : Word) - 0).toNat ≤ 0 ∧
    ((hosting []).queue 9).live = false := by decide +kernel

def seventh (i : Nat) (r : Option DWord) : Packet := { index := BitVec.ofNat 32 i, head := 0, args := [], sig := 0, result := r, started := true }
/-- Queue 0 with packets dequeued, and a packet of HEAD `hd` at slot `slot`. -/
def ringOf (pkts : List Packet) (wk : Word) (slot hd : Nat) : State :=
  let s := hosting [(64 * slot, hd)]
  { s with hub := { s.hub with queues := [{ ctx := 1, ring := 0x50000, rdw := 0x50804, wk := wk, pkts := pkts }] } }
def headOk (s : State) : Bool :=
  let h := s.queue 0
  let i := h.rd + BitVec.ofNat 32 h.pkts.length
  !h.halted && decide (i ≠ h.wk) && decide (h.pkts.length < 64) && h.pkts.all (fun x => !(x.kind = 2 ∧ x.opc = 0x23 ∧ x.result = none)) &&
    h.pkts.all (fun x => x.index ≠ i) &&
    match s.hubRead h.ctx (h.slotVa i) 8 with
    | .error _ => false
    | .ok (s1, hd) => decide (2 ^ 63 ≤ leNat hd) && isOk (s1.hubRead h.ctx (h.slotVa i + 8) 56)

/-- A packet that starts, of KIND 1 and 2; one with BARRIER behind one that is unfinished; a slot that is not valid; a retirement and an
unfinished head. -/
theorem witness_PacketsRunInOrder :
    (∀ kind ∈ [1, 2], let s := ringOf [] 1 0 (2 ^ 63 + kind * 2 ^ 40)
     s.mgmt.held = false ∧ (s.queue 0).live = true ∧ headOk s = true) ∧
    (let s := ringOf [seventh 0 none] 2 1 (2 ^ 63 + 2 ^ 55)
     headOk s = true ∧ bitAt (2 ^ 63 + 2 ^ 55) 55 = true ∧ ∃ x ∈ (s.queue 0).pkts, x.result = none) ∧
    (let s := ringOf [seventh 0 (some 0)] 2 1 (2 ^ 63 + 2 ^ 55); headOk s = true ∧ ∀ x ∈ (s.queue 0).pkts, x.result ≠ none) ∧
    (let s := ringOf [] 1 0 5
     isOk (s.hubRead 1 ((s.queue 0).slotVa 0) 8) = true ∧ headOk s = false ∧ (0 : Word) ≠ (s.queue 0).wk) ∧
    ((seventh 0 (some 0)).result = some 0 ∧ (seventh 0 none).result = none) := by
  decide +kernel

/-- A packet to be retired, with SIGNAL and without: with no signal word; one at the start of the page; one out of alignment; one that
no page maps. -/
theorem witness_PacketsRunInOrder_retire :
    ∀ x ∈ [(0, none), (0x50100, some true), (0x50104, some false), (0x90000, some false)], ∀ intr ∈ [0, 2 ^ 54],
      let p : Packet := { seventh 0 (some 0) with head := BitVec.ofNat 64 (2 ^ 63 + intr), sig := BitVec.ofNat 64 x.1 }
      let s0 := ringOf [p] 1 0 (2 ^ 63)
      let s : State := { s0 with mem := writeBytes s0.mem 0x43280 (leBytes 8 0x4401E) }
      s.mgmt.held = false ∧ (s.queue 0).live = true ∧ (s.queue 0).pkts = [p] ∧ Quiet s ∧
        isOk (s.hubWrite 1 ((s.queue 0).slotVa p.index + 0x28) (leBytes 8 0)) = true ∧ isOk (s.hubWrite 1 ((s.queue 0).slotVa p.index) (leBytes 8 0)) = true ∧
        isOk (s.hubWrite 1 (s.queue 0).rdw.toNat (leBytes 4 1)) = true ∧ (p.sig = 0) = (x.2 = none) ∧
        (x.2 = some false → p.sig.toNat % 8 ≠ 0 ∨ isOk (s.access 1 hubCore accAtom p.sig.toNat 8) = false) ∧
        (x.2 = some true → s.access 1 hubCore accAtom p.sig.toNat 8 = .ok [⟨0x50100, 0x44100, 8, 0, true⟩]) := by
  unfold Quiet
  decide +kernel

theorem witness_LAUNCH_SEMAPHORE_READY :
    ∀ x ∈ [0, 1, 2 ^ 63 - 1, 2 ^ 63, 2 ^ 64 - 1],
      let s0 := hosting [(16, x)]
      let s : State := { s0 with launches := s0.launches.map fun l => { l with state := .semaphore, sem := 0x50010 } }
      (s.launch 0).state = .semaphore ∧ (s.launch (s.rootLaunch 0)).saving = false ∧
        (match s.hubRead 1 (s.launch 0).sem.toNat 8 with | .ok (_, bs) => decide (leNat bs = x) | .error _ => false) = true := by
  decide +kernel

/-- A pass descriptor for one tile: an identity transform, the arena at 0x200000, the save area at 0x13000, graph m9. -/
def descFor (capsz : Nat) : List Byte :=
  leBytes 64 (0x3F800000 * (1 + 2 ^ 160 + 2 ^ 320 + 2 ^ 480)) ++ leBytes 32 0 ++ leBytes 8 0x200000 ++ leBytes 8 0 ++ leBytes 8 0x13000 ++
    leBytes 8 0x13800 ++ [64, 64, 0, 4, 1, 0x99000, capsz, 0, 0x4000, 0x8000, 0x89000, 0x3F800000, 9, 0, 0, 0].flatMap (leBytes 4)

/-- A walk of launch 0 at node 0 of an itinerary at 0x50000, in a state of its own; m9 a graph image, m11 a tree, m20 an edge of four
records, m21 an edge of queries, m22 one of results. -/
def walkingAt (k : Walk → Walk) (ws : List (Nat × Nat)) : State :=
  let s := hosting ws
  { s with
    walks := [k { ctx := 1, itin := 0x50000, nnode := 1, state := .atNode }]
    contexts := s.contexts.map fun c => (c.1, { c.2 with
      manifests := [(9, entry 0x50800 0 0 1024 1 0 16), (11, entry 0x12C00 0 4 4 1 0 16), (20, entry 0x50300 0 4 1 4 16 16),
        (21, entry 0x12800 0 4 4 2 64 16), (22, entry 0x12900 0 4 2 2 32 16)]
      formats := [(1, BitVec.ofNat 256 (2 ^ 8 + 2 ^ 24 + 64 * 2 ^ 32 + 4 * 2 ^ 64))] }) }
/-- The words of node 0: its kind, entries, LIMIT, condition and parameter; it is the last node. -/
def node0 (kind inMf outMf limit cond param : Nat) : List (Nat × Nat) :=
  [(0x40, kind * 2 ^ 28 + inMf * 2 ^ 56 + outMf * 2 ^ 48), (0x48, 0xFFFFFFFF + limit * 2 ^ 32), (0x70, cond), (0x78, param)]
def nodeRead (s : State) (P : State → NodeRec → Bool) : Bool :=
  match s.hubRead 1 ((s.walkNo 0).itin.toNat + 0x40) 64 with
  | .ok (s1, r) => s1.nodeOk 1 1 r && NodeRec.ocnt r = 0 && NodeRec.icnt r = 0 && P s1 r
  | .error _ => false

/-- A record out of reach; one of kind 0; an IF whose condition is zero and nonzero; a WHILE's; a launch, a cut, a pass, a traversal. -/
theorem witness_walks_start :
    (let s := walkingAt (fun k => { k with itin := 0x90000 }) []
     s.walkFree 0 = true ∧ (s.walkNo 0).state = .atNode ∧ isOk (s.hubRead 1 ((s.walkNo 0).itin.toNat + 0x40) 64) = false) ∧
    (let s := walkingAt id []
     isOk (s.hubRead 1 ((s.walkNo 0).itin.toNat + 0x40) 64) = true ∧ nodeRead s (fun _ _ => true) = false) ∧
    (∀ x ∈ [0, 1], ∀ kind ∈ [5, 6], nodeRead (walkingAt id ((0x100, x) :: node0 kind 0 0 (3 * (kind - 5)) 0x50100 0)) (fun s1 r =>
      NodeRec.kind r = kind && NodeRec.limit r = 3 * (kind - 5) && match s1.hubRead 1 (NodeRec.cond r) 4 with
        | .ok (_, bs) => decide (leNat bs = x)
        | .error _ => false) = true) ∧
    (∀ n ∈ [2, 3], assocGet ((walkingAt (fun k => { k with counts := [(0, n)] }) []).walkNo 0).counts 0 = some n) ∧
    nodeRead (walkingAt id (node0 1 20 0 0 0 0x50201)) (fun s1 r =>
      NodeRec.kind r = 1 && decide (0 < ((s1.ctx 1).manifest (NodeRec.inMf r)).rows) && NodeRec.param r % 64 ≠ 0) = true ∧
    nodeRead (walkingAt id ((0x408, 0x44800000 * 2 ^ 32) :: node0 2 9 20 0 0 0x50400)) (fun s1 r =>
      NodeRec.kind r = 2 && NodeRec.param r % 64 = 0 && match s1.hubRead 1 (NodeRec.param r) 128 with
        | .ok (s2, blk) => (s2.access 1 hubCore { rd := true, wr := true } (NodeRec.param r + 0x40) 32).isOk && leNat (blk.drop 0x60) = 0 &&
            decide (cutOperand (NodeRec.inMf r) (NodeRec.outMf r) ((s1.ctx 1).manifest (NodeRec.inMf r)) ((s1.ctx 1).manifest (NodeRec.outMf r)) none
              (blk.take 64) = none)
        | .error _ => false) = true ∧
    nodeRead (walkingAt id ((List.range 24).map (fun k => (0x200 + 8 * k, fieldAt (descFor 0x89000) (8 * k) 8)) ++ node0 3 20 0 0 0 0x50200)) (fun s1 r =>
      NodeRec.kind r = 3 && match s1.hubRead 1 (NodeRec.param r) 0xC0 with
        | .ok (s2, d) => s2.passOk { walk := 0, ctx := 1, cuts := (s1.ctx 1).manifest (NodeRec.inMf r), descVa := 0x50200, desc := d }
        | .error _ => false) = true ∧
    nodeRead (walkingAt id (node0 4 21 22 0 0 (11 + 2 * 2 ^ 16 + 2 ^ 20 + 2 ^ 24))) (fun s1 r =>
      let p := NodeRec.param r
      let fmt := assocGet (s1.ctx 1).formats (bitsAt p 20 4)
      NodeRec.kind r = 4 && decide (0 < ((s1.ctx 1).manifest (NodeRec.inMf r)).rows) && decide (p < 2 ^ 44) && decide (bitsAt p 16 4 ≤ 3) &&
        ((s1.ctx 1).manifest (NodeRec.inMf r)).rowBytes = 64 && NodeRec.outMf r ≠ 0 &&
        ((s1.ctx 1).manifest (NodeRec.outMf r)).rowBytes = 16 * (1 + bitsAt p 24 12) &&
        decide (s1.travStale 1 (bitsAt p 0 8) (bitsAt p 8 8) (bitsAt p 36 8) fmt = none) &&
        !s1.travEntriesBad 1 (bitsAt p 0 8) (bitsAt p 8 8) (bitsAt p 36 8) (bitsAt p 16 4) (bitsAt p 24 12) fmt none) = true := by
  decide +kernel

/-- A node that is complete at the end and not; one whose launch was refused; one that writes its count, to a page here and to a peer's;
one whose zero is under way to a peer, and has arrived. -/
theorem witness_walks_end :
    (∀ n ∈ [0xFFFF, 0], let s := walkingAt (fun k => { k with state := .complete, next := n }) []
      s.walkFree 0 = true ∧ s.nodeEnd (s.walkNo 0) = .complete none ∧ (s.walkNo 0).next = n) ∧
    (let s0 := walkingAt (fun k => { k with state := .launch 1 }) []
     let s : State := { s0 with launches := s0.launches ++ [{ state := .done, status := 0x10 }] }
     s.walkFree 0 = true ∧ s.nodeEnd (s.walkNo 0) = .refused) ∧
    (let s0 := walkingAt (fun k => { k with state := .trav 0, next := 0, rec_ := leBytes 64 (0x50100 * 2 ^ 256) }) []
     ∀ peer : Bool,
       let s : State := { s0 with ops := [{ opOf (.trav { count := 2 }) with state := .done }]
                                  tlb := if peer then [{ page 0x50000 (peerBase + peerWindow) true false with core := hubCore }] else [] }
       s.walkFree 0 = true ∧ s.nodeEnd (s.walkNo 0) = .complete (some 2) ∧ NodeRec.ocnt (s.walkNo 0).rec_ ≠ 0 ∧ (s.walkNo 0).next ≠ 0xFFFF ∧
         (match s.hubWrite 1 (NodeRec.ocnt (s.walkNo 0).rec_) (leBytes 4 2) with
          | .ok s1 => s1.hubUnacked (s.walkNo 0).ctx [] == peer
          | .error _ => false) = true) ∧
    (∀ away : Bool,
      let s : State := { walkingAt (fun k => { k with state := .armed }) [] with
        remotes := if away then [{ ctx := 1, core := hubCore, pa := peerBase + peerWindow, issued := 0, born := 0, agent := none, op := none }] else [] }
      s.walkFree 0 = true ∧ (s.walkNo 0).state = .armed ∧ s.hubUnacked (s.walkNo 0).ctx [] = away) := by
  decide +kernel

/-- A pass over the cut list m20, whose first record names the one cluster of m9; its triangle covers the upper right of the one tile. -/
def passing (f : Pass → Pass) : State :=
  let s := walkingAt (fun k => { k with state := .raster 0 }) [(0x300, 0x50840), (0x804, 1), (0x80C, 0x40), (0x850, 0x3F800000 + 0x3F800000 * 2 ^ 32),
    (0x860, 2 * 2 ^ 7 + 0x100 * 2 ^ 32), (0x868, 0x110), (0x900, 0x88), (0x910, 0x020100)]
  { s with passes := [f { ctx := 1, cuts := (s.ctx 1).manifest 20, graph := (s.ctx 1).manifest 9, descVa := 0x50200, desc := descFor 256 }] }
/-- What is read of the triangle that is next. -/
def clusterRead (s : State) (P : Option (List (List Nat)) → Bool) : Bool :=
  match s.readCluster (s.pass 0).at_ (s.pass 0).cuts (s.pass 0).graph (s.pass 0).recNo with
  | .ok (_, d) => P (d.triangle (s.pass 0).tri)
  | .error _ => false

/-- A tile goes to a core that has room. A triangle that is malformed; one with c3 zero, culled; one that is binned, where no page is free;
its page opened; an entry added to it. -/
theorem witness_passes_binning :
    (let s := passing fun q => { q with partialsDue := [{ tile := 0 }] }
     s.passRuns 0 = true ∧ s.tilesOwned 0 < 2 ∧ ((s.pass 0).nextRender.any fun r =>
       let u := { s with nonce := s.nonce + 1 }.updPass 0 fun _ => { r.2 with runs := r.2.runs ++ [{ r.1 with core := 0, order := s.nonce }] }
       decide (u.granuleLoad 0 ≤ Config.granulesPerCore) && ((s.pass 0).phaseVas r.1.isPartial).all fun x => u.phaseRoom (s.pass 0) 0 x.1 x.2) = true) ∧
    (let s := passing fun q => { q with tri := 1 }
     s.passRuns 0 = true ∧ (s.pass 0).binned = false ∧ (s.pass 0).todo = [] ∧ clusterRead s (fun x => x = none) = true) ∧
    (let s := passing fun q => { q with desc := List.replicate 192 0 }
     s.passRuns 0 = true ∧ clusterRead s (fun x => match x with | some vs => (s.pass 0).transform vs = none | none => false) = true) ∧
    (let s := passing fun q => { q with used := [0, 1, 2, 3] }
     s.passRuns 0 = true ∧ (s.pass 0).freePage 0 = none ∧ (s.pass 0).lists = [] ∧
       clusterRead s (fun x => match x with | some vs => decide (vs.length = 3) && ((s.pass 0).transform vs).any fun pr => (s.pass 0).tilesOf pr = [0]
                                            | none => false) = true) ∧
    (let s := passing fun q => { q with todo := [(0, 5)] }
     let q := s.pass 0
     s.passRuns 0 = true ∧ q.flushing = false ∧ (q.listOf 0).count = 0 ∧ q.freePage 0 = some 0 ∧ q.low ≤ q.npage - (q.used.length + 1) ∧
       isOk (s.engineWrite 1 hubCore accWrite q.arena
         (leBytes 4 0 ++ leBytes 4 1 ++ leBytes 4 5 ++ leBytes 4 0xFFFFFFFF ++ List.replicate 4080 0)) = true) ∧
    (let s := passing fun q => { q with todo := [(0, 5)], lists := [{ tile := 0, pages := [0], count := 1, last := 0, inPage := 1, used := 0 }], used := [0] }
     let q := s.pass 0
     s.passRuns 0 = true ∧ 0 < (q.listOf 0).count ∧ isOk ((s.engineWrite 1 hubCore accWrite (q.arena + 16) (base128 8 5)).bind fun s1 =>
       s1.engineWrite 1 hubCore accWrite (q.arena + 4) (leBytes 4 2)) = true) := by
  decide +kernel

/-- A tile at each phase: cleared, reloaded, its list of one opaque triangle read, nothing to shade, kept and saved; a pass at its end. -/
theorem witness_passes_phases :
    (∀ ph < 7, ∀ part : Bool, let s := passing fun q => { q with runs := [{ tile := 0, phase := ph, isPartial := part, list := { tile := 0, pages := [0] } }] }
      s.passRuns 0 = true ∧ s.latent = [] ∧ (s.pass 0).runs.length = 1 ∧ ∀ tr ∈ (s.pass 0).runs, tr.tile = 0 ∧ tr.busy = [] ∧ tr.phase = ph ∧ tr.isPartial = part ∧
        tr.saveAt = 0 ∧ tr.changed = [] ∧ tr.unshaded = [] ∧ s.phaseTurn tr = true) ∧
    (let s := passing id
     let q := s.pass 0
     0 ∉ q.saved ∧ q.doff + 0x4000 ≤ q.poff ∧ q.doff + 0x4000 ≤ q.loff + 0x80000 ∧ q.poff + 0x4000 ≤ q.loff + 0x80000 ∧
       (match s.readList q 0 1 0 with
        | .ok (s1, ns) => decide (ns = [0]) && match s1.readPrim q 0 0 with
          | .ok (_, pr) => pr.any fun p => !p.translucent && p.covers 40 20
          | .error _ => false
        | .error _ => false) = true ∧
       (s.saveChunks 1 0 ((List.range (q.capsz / 256)).flatMap fun c =>
          let b := readBytes [] (256 * c) 256
          let pay := (chunkEncode b).2
          [(q.capbase + 0 * q.capsz + 256 * c, pay ++ List.replicate ((16 - pay.length % 16) % 16) 0),
           (q.caphdr + 4 * (0 * (q.capsz / 256) + c), leBytes 4 (chunkHeader (chunkEncode b).1 pay.length (chunkCheck b)))])).2.2 = none) ∧
    (let s := passing fun q => { q with saved := [0] }
     isOk (s.reload (s.pass 0) 0 0) = true) ∧
    (∀ a, readByte ([] : Memory) a = 0) ∧
    (let s := passing fun q => { q with binned := true, finals := 1, runs := [{ phase := 7 }] }
     s.passRuns 0 = true ∧ (s.pass 0).tx * (s.pass 0).ty ≤ (s.pass 0).finals ∧ (s.pass 0).partialsDue = [] ∧
       (∀ tr ∈ (s.pass 0).runs, tr.phase = 7) ∧
       isOk (s.engineWrite (s.pass 0).ctx hubCore accWrite ((s.pass 0).descVa.toNat + 0xC0) (s.pass 0).counts) = true) := by
  exact ⟨by decide +kernel, by decide +kernel, by decide +kernel, fun _ => rfl, by decide +kernel⟩

/-- `hosting` with a port joined, and requests to peers at the time they are dropped; the thread waits for one of them. -/
def fabric (ws : List (Nat × Nat)) : State :=
  let s := hosting ws
  { s with mgmt := { s.mgmt with ports := s.mgmt.ports.set 3 .joined } }
def unanswered : State :=
  let s := fabric []
  let r : Remote := { ctx := 1, core := 0, pa := peerBase, issued := 0, born := 0, agent := none, op := none }
  { s with agents := s.agents.map fun a => { a with wait := .remote 8 4 }
           remotes := [r, { r with agent := some 0 }, { r with core := hubCore }]
           cores := s.cores.set 1 { cycle := BitVec.ofNat 64 Config.remoteBound } |>.set 0 { cycle := BitVec.ofNat 64 Config.remoteBound } }

theorem witness_PeersAndPorts :
    let fresh := hosting []
    (∀ w ∈ [0, 0x1000001], let s := fabric [(0, w)]
      s.mgmt.held = false ∧ s.fabricUp = true ∧ Quiet s ∧ 0x44000 % 8 = 0 ∧ (s.region 0x44000).isMain = true ∧ (s.region 0x44007).isMain = true ∧
        s.peekNat 0x44000 8 = w ∧ (objExpect w = 0) = (w = 0)) ∧
    ((∀ x ∈ [AtomOp.add .n32, .cas .b128 5], 0x44000 % x.bytes = 0 ∧ ((fabric []).region 0x44000).isMain = true ∧
      ((fabric []).region (0x44000 + x.bytes - 1)).isMain = true ∧ x.packed = none) ∧ Quiet (fabric []) ∧ (fabric []).fabricUp = true ∧
      (fabric []).mgmt.held = false ∧ (hosting []).fabricUp = false ∧ 0x44000 + [(1 : Byte), 2].length ≤ peerBase) ∧
    (let s := unanswered
     Alone s 0 0 ∧ (∀ a ∈ s.agents, ∀ q o, a.wait ≠ .same q o) ∧ s.remotes.length = 3 ∧
     (∀ r ∈ s.remotes, r.born + Config.remoteBound ≤ s.clockOf r.core ∧ assocGet s.contexts r.ctx ≠ none ∧ r.op = none) ∧
     (s.agent 0).wait = .remote 8 4 ∧ (s.agent 0).drover = false ∧ (s.agent 0).stand = .caravan 0 ∧ s.hub.evsize = 0 ∧
     s.fetch 0 ≠ [] ∧ (s.caravan 0).pc + BitVec.ofNat 32 (sizeOfParcels (s.fetch 0)) ≠ blockEnd (s.caravan 0).hdr (s.caravan 0).len) ∧
    (let s : State := { unanswered with cores := fresh.cores, remotes := [{ ctx := 1, core := 0, pa := peerBase, issued := 0, born := 0, agent := none, op := none }] }
     (∀ r ∈ s.remotes, s.clockOf r.core < r.born + Config.remoteBound ∧ r.agent = none) ∧ s.remotes.length = 1 ∧ s.fabricUp = true ∧
       ({ s with mgmt := fresh.mgmt } : State).fabricUp = false) ∧
    (let k : BarKey := { scope := 5, launch := 0, block := none, core := none }
     let sc : Scope := { index := 5, cores := 1, slices := allSlices, peers := 3 }
     let open_ (arrived : List Nat) : State := { fabric [] with
       launches := (fabric []).launches.map fun l => { l with join := some (5, 3) }
       barriers := [{ key := k, phase := 0, arrived := arrived, scope := some sc, parts := [0] }] }
     (∀ u ∈ [open_ [], open_ [0]], (u.barrierAt k).scope = some sc ∧ (u.barrierAt k).key = k ∧ (u.launch k.launch).join = some (5, 3)) ∧
       (∀ d < 1024, (((open_ [0]).otherPeers sc &&& 3).toNat.testBit d = true) = (d = 1)) ∧
       (∀ i ∈ ((open_ [0]).barrierAt k).parts, i ∈ ((open_ [0]).barrierAt k).arrived) ∧
       ¬(∀ i ∈ ((open_ []).barrierAt k).parts, i ∈ ((open_ []).barrierAt k).arrived ∨ ((open_ []).agent i).stand = .exited)) ∧
    (let refused : State := { fresh with mgmt := { fresh.mgmt with ports := fresh.mgmt.ports.set 4 .refused } }
     refused.mgmt.ports[4]? = some .refused ∧ refused.mgmt.ports[3]? ≠ some .refused ∧ refused.mgmt.ports.length = 16) ∧
    (hosting []).mgmt.ports.length = 16 := by
  unfold Quiet
  refine ⟨by decide +kernel, by decide +kernel, ⟨⟨Nat.one_pos, Nat.one_pos, rfl, rfl⟩, ?_, by decide +kernel⟩, by decide +kernel⟩
  intro a ha q o h
  have : ∀ a ∈ unanswered.agents, a.wait = .remote 8 4 := by decide +kernel
  rw [this a ha] at h
  cases h

/-- A held machine whose two slots hold one image boots it or enters recovery, whichever its verification says; so does one that is reset. -/
theorem witness_boot (image : List Byte) :
    let m : Mgmt := { slotA := image, slotB := image }
    let s := { State.reset with mgmt := m }
    let r := { State.reset with mgmt := { m with held := false } }
    (s.mgmt.held = true ∧ s.mgmt.recovery = false ∧ s.mgmt.lpddr = true ∧ r.mgmt.held = false ∧ r.mgmt.lpddr = true) ∧
    ((s.mgmt.bootable s.mgmt.active = true ∧ r.mgmt.bootable (r.mgmt.pendingActive.getD r.mgmt.active) = true) ∨
     (s.mgmt.bootable s.mgmt.active = false ∧ s.mgmt.bootable (1 - s.mgmt.active) = false ∧
       r.mgmt.bootable (r.mgmt.pendingActive.getD r.mgmt.active) = false ∧ r.mgmt.bootable (1 - r.mgmt.pendingActive.getD r.mgmt.active) = false)) := by
  intro m s r
  refine ⟨⟨rfl, rfl, rfl, rfl, rfl⟩, ?_⟩
  rcases Bool.eq_false_or_eq_true (m.bootable 0) with h | h
  · exact .inl ⟨h, h⟩
  · exact .inr ⟨h, h, h, h⟩
theorem witness_ManagementActs :
    State.reset.mgmt.held = true ∧ (hosting []).mgmt.held = false ∧ State.reset.mgmt.recovery = false ∧ State.reset.mgmt.active ≤ 1 ∧
    ((0x42D20000 : Word).toNat = 0x42D20000 ∧ (0x7F800000 : Word).toNat ≤ 0x7F800000 ∧ (0x42D1FFFF : Word).toNat < 0x42D20000) := by
  decide +kernel

/-- A result to a register, to a queue, and to none; an operand from a queue; inside a block and at its end. -/
theorem witness_ResultsReachOnlyTheirDestination :
    let g := typedSig .s32
    let s := base false 64 []
    let fn (ls : List Lane) : List LaneRes := ls.map fun l => { val := l.a + l.b }
    ∀ x ∈ [V' g, V 0x208 2 2 0x200, V 0x200 2 2 0x200, V 8 0x208 2 0x200].flatMap fun o => [(s, o, true), (base false 2 [], o, false)],
      Ready x.1 0 g x.2.1.fields ∧ (Inside x.1 0 x.2.1.fields ↔ x.2.2 = true) ∧ Quiet x.1 ∧
      (fn (x.1.lanes 0 g x.2.1.fields)).length = (x.1.lanes 0 g x.2.1.fields).length ∧ ∀ r ∈ fn (x.1.lanes 0 g x.2.1.fields), r.late = false := by
  unfold Inside Quiet
  exact ready_all (by decide +kernel)

/-- `base` with an instruction's parcels in its block, and what its agenda names. -/
def coded (w : Nat) (ag : List Agenda) : State :=
  let s := base false 64 []
  { s with mem := writeBytes s.mem 8 (leBytes 8 w), agenda := ag }
def decodesAt (s : State) (ci : Nat) : Bool := match decode (s.fetch ci) with | .ok _ => true | .error _ => false

/-- An s32 add, and a reserved code, with no error lying latent and with one in the sector fetched; a caravan that has no position; an
instruction's word as an event; an event; time; an empty agenda. -/
theorem witness_StepRunsTheDecodedInstruction :
    (∀ l ∈ [[], [({ arr := .l2data 0, loc := 0, double := false, injected := false } : Latent)]], ∀ w ∈ [0x0010048800000000, 0x0010040100000E00],
      let s : State := { coded w [.issue 0] with latent := l }
      let u : State := { s with agenda := [] }
      let v : State := { (if s.latent = [] then u else u.meetFetch 0) with focus := some 0 }
      s.agenda = [.issue 0] ∧ u.mayIssue 0 = true ∧ decodesAt v 0 = (w = 0x0010048800000000) ∧
        (v.caravan 0).pc.toNat + 4 ≤ (blockEnd (v.caravan 0).hdr (v.caravan 0).len).toNat ∧
        Alone v 0 0 ∧ (v.agent 0).trapMode = false ∧ (v.agent 0).drover = false ∧ v.trapEntry (v.agent 0) = some 0 ∧
        v.entryFault (v.agent 0) 0 = none ∧ v.qlockAt (v.agent 0).ctx 0 = false) ∧
    (let s := coded 0 [.issue 7]
     ({ s with agenda := [] } : State).mayIssue 7 = false) ∧
    ((Instr.intAdd .s32 (V 0 0 0 0x200)).encoded ≠ .noWord ∧ (Instr.positionFill 0 0 0).encoded = .noWord) ∧
    ((coded 0 [.tick 5]).agenda = [.tick 5] ∧ 0 < (coded 0 [.tick 5]).cores.length) ∧ (coded 0 []).agenda = [] := by
  unfold Alone
  decide +kernel

theorem witness_EncodingsRoundTrip :
    let i := Instr.intAdd .s32 (V 0 0 0x244 0x200)
    (i.hasWord ∧ i.wf = true) ∧ (match decode [0, 0x00100488] with | .ok (j, ps) => decide (j = i) && ps.isEmpty | .error _ => false) = true := by
  unfold Instr.hasWord
  decide +kernel

/-- One byte of memory that is not zero, and the empty memory. -/
theorem witness_MemoryStaysCanonical :
    (MemoryOk State.reset ∧ (match step State.reset with | .next _ => true | _ => false) = true) ∧
    MemoryOk (coded 0x0010048800000000 []) ∧ Memory.wf [(5, 1)] = true ∧ Memory.wf ([] : Memory) = true := by
  unfold MemoryOk
  decide +kernel

theorem witness_InstructionsLeaveTheHostsSide :
    let i := Instr.intAdd .s32 (V 0 0 0x244 0x200)
    i.hasWord ∧ ∃ t, exec i (base false 64 []) = .next t := by
  intro i
  refine ⟨by unfold Instr.hasWord; decide +kernel, stateOf (exec i (base false 64 [])), ?_⟩
  have h : (match exec i (base false 64 []) with | .next _ => true | _ => false) = true := by decide +kernel
  cases hx : exec i (base false 64 []) with
  | next t => rfl
  | fault => rw [hx] at h; exact Bool.noConfusion h
  | refused => rw [hx] at h; exact Bool.noConfusion h

/-- The thread of `base` under a launch of 32 registers; registers 2 and 3 hold an address or an offset. -/
def trapping (regs : WordMap) : State :=
  let s := base false 64 regs
  { s with launches := s.launches.map fun l => { l with regs := 32 } }
def addresses : List WordMap := [[], [(2, 0xFFFFFFFC)], [(2, 0x2000)], [(2, 2)], [(2, 0x10002)], [(2, 0x70000)], [(2, 0x11000)]]
theorem witness_MayTrap (k : Nat) (hk : k < addresses.length) : MayTrap (trapping addresses[k]) 0 0 0 := by
  have h : ∀ j < addresses.length, (trapping (addresses.getD j [])).entryFault ((trapping (addresses.getD j [])).agent 0) 0 = none ∧
      (trapping (addresses.getD j [])).qlockAt ((trapping (addresses.getD j [])).agent 0).ctx 0 = false := by decide +kernel
  have e : addresses[k] = addresses.getD k [] := (List.getD_eq_getElem _ _ hk).symm
  rw [e]
  exact ⟨rfl, ⟨Nat.one_pos, Nat.one_pos, rfl, rfl⟩, rfl, rfl, rfl, rfl, (h k hk).1, (h k hk).2⟩

/-- Of an add: a reserved modifier, NWB with a destination, a destination and a source past the launch's registers. -/
theorem witness_FaultsArePrecise_fields :
    let s := trapping []
    let kind (o : Operands) := s.checkKind (s.caravan 0) (s.agent 0) (typedSig .s32) o.fields
    let flds (o : Operands) := checkFields (typedSig .s32) o.fields
    let late : Caravan := { s.caravan 0 with pc := 8 + 4 * 63 }
    s.checkKind late (s.agent 0) (typedSig .s32) (V 0 0 0 0x200).fields = false ∧
    flds (V 0 0 0 3) = false ∧ flds (.v64 { ret := 0, mc := 0, mb := 0, ma := 0, sc := 0x200, sb := 0, sa := 0, nwb := 1, dst := 1 }) = false ∧
    (kind (V 32 0 0 0x200) = true ∧ flds (V 32 0 0 0x200) = true ∧ (s.launch 0).regs ≤ (V 32 0 0 0x200).fields.dst.toNat) ∧
    (kind (V 0 511 0 0x200) = true ∧ flds (V 0 511 0 0x200) = true ∧ s.checkDst (s.agent 0) (typedSig .s32) (V 0 511 0 0x200).fields = none ∧
      (V 0 511 0 0x200).fields.sa.toNat < 0x200 ∧ (s.launch 0).regs ≤ (V 0 511 0 0x200).fields.sa.toNat) := by
  decide +kernel

/-- Of a thread and its helper, the thread alone holds a value in b0. -/
def helping : State :=
  let s := caravanOf true [[], []]
  { s with agents := s.agents.mapIdx fun i a => if i = 0 then { a with latches := [some ⟨.w32, 5, 1⟩, none, none, none] } else a
           caravans := s.caravans.map fun c => { c with members := [⟨0, true⟩, ⟨1, false⟩] } }
theorem witness_FaultsArePrecise_helper :
    let s := helping
    let f := (V 8 0x204 2 0x200).fields
    let g := typedSig .s32
    s.focus = some 0 ∧ (∀ m ∈ (s.caravan 0).members, (s.agent m.agent).wait = .ready ∧ m.agent < s.agents.length) ∧ s.wanting 0 ≠ [] ∧
      (∀ m ∈ s.wanting 0, s.staticFault (s.caravan 0) (s.agent m.agent) g f = none) ∧ Inside s 0 f ∧ Quiet s ∧
      s.queuesReady (s.lead 0) (g.pops f (s.wanting 0).length) (g.pushes f (s.wanting 0).length) = true ∧
      ∃ m ∈ s.members 0, m.want = false ∧ s.staticFault (s.caravan 0) (s.agent m.agent) g f ≠ none := by
  unfold Inside Quiet
  decide +kernel

/-- A read of a number with no register, and one of a frame register out of trap mode; a write of one that is only read. -/
theorem witness_FaultsArePrecise_registers :
    let r : Sig := { dst := .w32, b := .b32, drover := true }
    let w : Sig := { b := .b32, c := .b32, drover := true }
    let s := trapping []
    (∀ o ∈ [VI 8 0x200 0x019, VI 8 0x200 0x400], Ready s 0 r o.fields ∧ ∀ l ∈ s.lanes 0 r o.fields, ∀ row ∈ csrTable s 0, row.no ≠ l.b.toNat % 2 ^ 32) ∧
    (∀ o ∈ [VI 2 0x200 0x001, VI 2 0x200 0x404], Ready s 0 w o.fields ∧ ∀ l ∈ s.lanes 0 w o.fields, l.b.toNat % 2 ^ 32 ∉ csrNumbersWritten (s.agent 0)) :=
  ⟨ready_all (by decide +kernel), ready_all (by decide +kernel)⟩

def readyLane (s : State) (g : Sig) (f : Fields) (P : Lane → Bool) : Bool := readyB s 0 g f && (s.lanes 0 g f).any P

/-- t: and k: accesses that begin below 0, end past the space, and are misaligned inside it. -/
theorem witness_FaultsArePrecise_private :
    ∀ sp ∈ [PrivSpace.t, .k], ∀ x ∈ [(0xFFFFFFFC, 0), (0x2000, 0), (2, 1)],
      let s := trapping [(2, BitVec.ofNat 32 x.1)]
      let out (l : Lane) : Bool := decide (privOffset l < 0) || decide (privOffset l + 4 > s.spaceSize (s.agent 0) sp)
      let P (l : Lane) : Bool := if x.2 = 0 then out l else !out l && decide (privOffset l % 4 ≠ 0)
      readyLane s { dst := LoadTy.b32.res, a := .b32, b := .b32 } (VI 8 2 0).fields P = true ∧
      readyLane s { a := .b32, b := .b32, c := StoreTy.b32.pos } (VI 8 2 0).fields P = true := by
  decide +kernel

def errorOf (x : Except AccessFault (List Piece)) : Option (FaultCode × Nat × Bool) := match x with | .error f => some (f.code, f.va, f.upper) | .ok _ => none
/-- v: accesses: misaligned; unmapped; a store to a page without write permission. -/
theorem witness_FaultsArePrecise_virtual :
    (readyLane (trapping [(2, 0x10002)]) { dst := LoadTy.b32.res, a := .b64, b := .b32 } (VI 8 2 0).fields (fun l => vaOffset l % 4 ≠ 0) = true ∧
     readyLane (trapping [(2, 0x10002)]) { a := .b64, b := .b32, c := StoreTy.b32.pos } (VI 8 2 0).fields (fun l => vaOffset l % 4 ≠ 0) = true) ∧
    readyLane (trapping [(2, 0x70000)]) { dst := LoadTy.b64.res, a := .b64, b := .b32 } (VI 8 2 0).fields
      (fun l => vaOffset l % 8 = 0 && errorOf ((trapping [(2, 0x70000)]).laneAccess l accLoad (vaOffset l) 8) = some (.translation, 0x70000, false)) = true ∧
    readyLane (trapping [(2, 0x11000)]) { a := .b64, b := .b32, c := StoreTy.b64.pos } (VI 8 2 0).fields
      (fun l => vaOffset l % 8 = 0 && errorOf ((trapping [(2, 0x11000)]).laneAccess l accStore (vaOffset l) 8) = some (.permission, 0x11000, false)) = true := by
  decide +kernel

end Sys2Proof.Tests
end

namespace Sys2Proof.Machine

/-! # What a physical write and a posted event do to storage -/

theorem foldl_mem {β : Type} (f : State → β → State) (hf : ∀ (s : State) (x : β), (f s x).mem = s.mem) (xs : List β) (s : State) :
    (xs.foldl f s).mem = s.mem := by
  induction xs generalizing s with
  | nil => rfl
  | cons x xs ih => rw [List.foldl_cons, ih, hf]

/-- A write by PA puts exactly its bytes into storage; injections that it fires touch the logs alone. -/
@[simp] theorem put_mem (s : State) (ctx pa : Nat) (bs : List Byte) : (s.put ctx pa bs).mem = writeBytes s.mem (s.localPa pa) bs := by
  unfold State.put
  simp only
  split
  · rfl
  · rw [foldl_mem _ fun t _ => by rw [fireInjection_mem, fireInjection_mem]]; rfl

/-- Below the peer window a PA is local (R189). -/
theorem localPa_of_lt_peerBase (s : State) {pa : Nat} (h : pa < peerBase) : s.localPa pa = pa :=
  if_neg fun hpeer => Nat.not_le_of_lt h hpeer.1

@[simp] theorem eventRecord_length (q : DWord) (kind ctx core : Nat) (d0 d1 : DWord) : (eventRecord q kind ctx core d0 d1).length = 32 := by
  simp [eventRecord, leBytes_length]

section
variable (s : State) (kind ctx core : Nat) (d0 d1 : DWord)

theorem postEvent_slices : s.SlicesOnly (s.postEvent kind ctx core d0 d1).2 :=
  State.SlicesOnly.trans (t := s.takeSeq.2) ⟨rfl⟩ (postEventAt_slices _ _ _ _ _ _ _)

theorem postEvent_mgmt : (s.postEvent kind ctx core d0 d1).2.mgmt = s.mgmt := by rw [(postEvent_slices s kind ctx core d0 d1).eq]

/-- With no ring set up, or none of its records free, the Event Arbiter counts the event as lost. -/
theorem postEvent_of_no_room (h : s.hub.evsize = 0 ∨ s.hub.evwr - s.hub.evrd = s.hub.evsize) :
    (s.postEvent kind ctx core d0 d1).2 = { s with hub := { s.hub with seq := s.hub.seq + 1, evlost := satInc s.hub.evlost } } :=
  if_pos h

/-- With room, the record is written at EVWR. -/
theorem postEvent_of_room (h : ¬(s.hub.evsize = 0 ∨ s.hub.evwr - s.hub.evrd = s.hub.evsize)) :
    (s.postEvent kind ctx core d0 d1).2 =
      { s.takeSeq.2.put 0xFFFF (s.hub.evbase.toNat + 32 * (s.hub.evwr.toNat % s.hub.evsize.toNat))
          (eventRecord s.hub.seq kind ctx core d0 d1) with
        hub := { s.hub with
          seq := s.hub.seq + 1, evwr := s.hub.evwr + 1
          msixRaised := if s.hub.msixEnabled then s.hub.msixRaised + 1 else s.hub.msixRaised } } :=
  if_neg h

/-- R404: what posting an event does to the ring. -/
theorem posted_postEvent : Posted s (s.postEvent kind ctx core d0 d1).2 kind ctx core d0 d1 := by
  by_cases hroom : s.hub.evsize = 0 ∨ s.hub.evwr - s.hub.evrd = s.hub.evsize
  · rw [postEvent_of_no_room s kind ctx core d0 d1 hroom]
    exact ⟨rfl, fun _ => ⟨rfl, rfl, rfl⟩, fun hset hfree => absurd hroom (not_or.2 ⟨hset, hfree⟩)⟩
  · rw [postEvent_of_room s kind ctx core d0 d1 hroom]
    refine ⟨rfl, fun h => absurd h hroom, fun _ _ => ⟨rfl, rfl, fun hlocal => ?_⟩⟩
    have hread := readBytes_writeBytes s.mem (s.hub.evbase.toNat + 32 * (s.hub.evwr.toNat % s.hub.evsize.toNat))
      (eventRecord s.hub.seq kind ctx core d0 d1)
    rw [eventRecord_length] at hread
    rw [put_mem, localPa_of_lt_peerBase _ (by omega)]
    exact hread
end

/-! # The main side's reset (R2, R402, R417) -/

section
variable (s : State)

@[simp] theorem enterReset_mgmt : s.enterReset.mgmt =
    { s.mgmt with
      held := true, pcieUp := [false, false], ports := List.replicate 16 .down
      active := s.mgmt.pendingActive.getD s.mgmt.active, pendingActive := none } := rfl

/-- Storage outside the scratchpad windows outlives a reset of the main side. -/
theorem readByte_enterReset {a : Nat} (h : a < scratchBase ∨ scratchBase + 4 * scratchWindow ≤ a) :
    readByte s.enterReset.mem a = readByte s.mem a := by
  have hmem : s.enterReset.mem = clearBytes s.mem scratchBase (4 * scratchWindow) := rfl
  rw [hmem, readByte_clearBytes, if_neg (by omega)]

/-- A reset changes neither what the slots hold nor the fused minimum, so the boot ROM judges a slot as before. -/
theorem bootable_enterReset (k : Nat) : s.enterReset.mgmt.bootable k = s.mgmt.bootable k := rfl

/-! # Boot and release (R402, R418) -/

/-- A populated device whose active slot boots is released: its links train and HOSTSEL takes effect. -/
theorem bootRelease_of_bootable (hboot : s.mgmt.bootable s.mgmt.active = true) (hlpddr : s.mgmt.lpddr = true) :
    s.bootRelease = s.updMgmt fun m => { m with
      recovery := false, held := false, pcieUp := [true, true], control := m.hostsel.getD 0, hostsel := none, thermal := false } := by
  have hslot : [s.mgmt.active, 1 - s.mgmt.active].find? s.mgmt.bootable = some s.mgmt.active := List.find?_cons_of_pos hboot
  simp only [State.bootRelease, hslot, hlpddr]
  rfl

/-- Where neither slot boots, the main side stays held, in the recovery state. -/
theorem bootRelease_of_unbootable (hactive : s.mgmt.bootable s.mgmt.active = false) (hother : s.mgmt.bootable (1 - s.mgmt.active) = false) :
    s.bootRelease = s.updMgmt fun m => { m with held := true, recovery := true, reports := m.reports ++ ["recovery"] } := by
  have hnone : [s.mgmt.active, 1 - s.mgmt.active].find? s.mgmt.bootable = none := by simp [hactive, hother]
  simp only [State.bootRelease, hnone]

theorem exec_mainRelease_of_held (hheld : s.mgmt.held = true) (hrec : s.mgmt.recovery = false) :
    exec .mainRelease s = .next s.bootRelease := if_pos (by simp [hheld, hrec])

theorem exec_mainReset_of_running (hrun : s.mgmt.held = false) : exec .mainReset s = .next s.enterReset.bootRelease :=
  if_neg (by simp [hrun])

/-! # The other acts of the management port -/

theorem exec_devnumSet_of_held {n : Nat} (hn : n < 1024) (hheld : s.mgmt.held = true) :
    exec (.devnumSet n) s = .next (s.updMgmt fun m => { m with devnum := n }) := if_pos (by simp [hn, hheld])

theorem exec_devnumSet_of_running (n : Nat) (hrun : s.mgmt.held = false) : exec (.devnumSet n) s = .next s := if_neg (by simp [hrun])

theorem exec_hostsel {port : Nat} (hport : port < 2) : exec (.hostsel port) s = .next (s.updMgmt fun m => { m with hostsel := some port }) :=
  if_pos hport

/-- The image goes to the slot that is not active, which the next reset of the main side takes if the image verifies. -/
theorem firmwareUpdate_fills_inactive_slot (image : List Byte) (hrec : s.mgmt.recovery = false) (hslot : s.mgmt.active ≤ 1) :
    ∃ t, exec (.firmwareUpdate image) s = .next t ∧
      t.mgmt.slot (1 - s.mgmt.active) = image ∧ t.mgmt.slot s.mgmt.active = s.mgmt.slot s.mgmt.active ∧ t.mgmt.active = s.mgmt.active ∧
      t.mgmt.pendingActive = if Config.imageVerifies image then some (1 - s.mgmt.active) else none := by
  refine ⟨_, rfl, ?_⟩
  obtain hA | hB : s.mgmt.active = 0 ∨ s.mgmt.active = 1 := by omega
  · simp [hrec, hA, Mgmt.slot]
  · simp [hrec, hB, Mgmt.slot]

/-- A die is counted as hot once it has crossed the warning temperature upwards, until it crosses it downwards (R420). -/
theorem warningTemperature_marks_die {die : Nat} (up : Bool) (hdie : die < 4) :
    ∃ t, exec (.warningTemperature die up) s = .next t ∧
      (∀ d, d ∈ t.mgmt.hot ↔ (d ∈ s.mgmt.hot ∧ d ≠ die) ∨ (up = true ∧ d = die)) ∧ t.agents = s.agents := by
  refine ⟨_, if_neg (Nat.not_le_of_lt hdie), fun d => ?_, rfl⟩
  cases up <;> simp

/-! # The thermal stop (R420) -/

theorem exec_thermal_of_hot (sensor : Nat) {celsius : Word} (hmin : 0x42D20000 ≤ celsius.toNat) (hmax : celsius.toNat ≤ 0x7F800000) :
    exec (.thermal sensor celsius) s =
      .next ((s.postEvent evThermal 0xFFFF 0xFFFF (BitVec.ofNat 64 sensor) (celsius.setWidth 64)).2.enterReset.updMgmt fun m =>
        { m with thermal := true, reports := m.reports ++ ["thermal"] }) :=
  if_neg (by simp [tooHot, hmin, hmax])

theorem exec_thermal_of_cool (sensor : Nat) {celsius : Word} (hcool : celsius.toNat < 0x42D20000) : exec (.thermal sensor celsius) s = .next s :=
  if_pos (by simp [tooHot]; omega)

/-- The event is posted first; the reset that follows keeps its record, for the ring lies in storage. -/
theorem thermal_posts_and_holds (sensor : Nat) {celsius : Word} (hmin : 0x42D20000 ≤ celsius.toNat) (hmax : celsius.toNat ≤ 0x7F800000) :
    ∃ t, exec (.thermal sensor celsius) s = .next t ∧ t.mgmt.held = true ∧ t.mgmt.thermal = true ∧
      t.mgmt.reports = s.mgmt.reports ++ ["thermal"] ∧ t.agents = [] ∧ t.contexts = [] ∧
      ∃ u, Posted s u 9 0xFFFF 0xFFFF (BitVec.ofNat 64 sensor) (celsius.setWidth 64) ∧
        ∀ a, a < scratchBase ∨ scratchBase + 4 * scratchWindow ≤ a → readByte t.mem a = readByte u.mem a := by
  refine ⟨_, exec_thermal_of_hot s sensor hmin hmax, rfl, rfl, ?_, rfl, rfl, _, posted_postEvent s _ _ _ _ _, fun a ha => ?_⟩
  · simp [postEvent_mgmt]
  · exact readByte_enterReset _ ha
end

/-- Settles O51: act by act. A release boots the active slot; a hold, a reset and the thermal stop all pass through `enterReset`, which
says what they lose and keep. -/
theorem managementActs : Obligations.ManagementActs := by
  intro s
  refine ⟨?devnumHeld, ?devnumRunning, ?hostsel, ?release, ?releaseRecovery, ?hold, ?reset, ?resetRecovery, ?firmware, ?spdm, ?sensor, ?cap,
    ?warning, ?thermal, ?cool⟩
  case devnumHeld => exact fun n hn hheld => ⟨_, exec_devnumSet_of_held s hn hheld, rfl⟩
  case devnumRunning => exact fun hrun n => exec_devnumSet_of_running s n hrun
  case hostsel => exact fun port hport => ⟨_, exec_hostsel s hport, rfl⟩
  case release =>
    intro hheld hrec hlpddr hboot
    rw [exec_mainRelease_of_held s hheld hrec, bootRelease_of_bootable s hboot hlpddr]
    exact ⟨_, rfl, rfl, rfl, rfl, rfl, rfl⟩
  case releaseRecovery =>
    intro hheld hrec hactive hother
    rw [exec_mainRelease_of_held s hheld hrec, bootRelease_of_unbootable s hactive hother]
    exact ⟨_, rfl, rfl, rfl⟩
  case hold => exact ⟨s.enterReset, rfl, rfl, rfl, rfl, rfl, rfl, rfl, rfl, rfl, fun a ha => readByte_enterReset s (.inl ha)⟩
  case reset =>
    intro hrun hlpddr hboot
    rw [exec_mainReset_of_running s hrun, bootRelease_of_bootable s.enterReset ((bootable_enterReset s _).trans hboot) hlpddr]
    exact ⟨_, rfl, rfl, rfl, rfl, rfl, rfl⟩
  case resetRecovery =>
    intro hrun hactive hother
    rw [exec_mainReset_of_running s hrun, bootRelease_of_unbootable s.enterReset ((bootable_enterReset s _).trans hactive)
      ((bootable_enterReset s _).trans hother)]
    exact ⟨_, rfl, rfl, rfl, rfl, rfl, rfl⟩
  case firmware => exact fun image hrec hslot => firmwareUpdate_fills_inactive_slot s image hrec hslot
  case spdm => exact fun req => ⟨_, rfl, rfl, rfl, rfl⟩
  case sensor => exact fun sensor => ⟨_, rfl, leBytes_length 4 _, rfl, rfl⟩
  case cap => exact fun watts => ⟨_, rfl, rfl, rfl⟩
  case warning => exact fun die up hdie => warningTemperature_marks_die s up hdie
  case thermal => exact fun sensor celsius hmin hmax => thermal_posts_and_holds s sensor hmin hmax
  case cool => exact fun sensor celsius hcool => exec_thermal_of_cool s sensor hcool

end Sys2Proof.Machine

namespace Sys2Proof.Machine

/-! # Arriving at a header, and taking a trap (R142, R378) -/

/-- An agent that has arrived at a header of plain code (R21, R142). -/
def Agent.atHeader (h : Word) (now : Nat) (a : Agent) : Agent :=
  { a with pc := h, latches := emptyLatches, issued := 0, wait := .ready, since := now, stand := .header }

/-- An agent whose frame is filled (R378). -/
def Agent.trapped (x : Trap) (at_ : FaultPoint) (seq : DWord) (a : Agent) : Agent :=
  { a with trapMode := true, frame := trapFrame a x at_ seq, latches := emptyLatches, wait := .ready }

@[simp] theorem agent_closeRecords (s : State) (b p i : Nat) : (s.closeRecords b p).agent i = s.agent i := rfl

/-- A share that keeps its bytes and its home is still read as before. -/
theorem shareMem_updShare (s : State) (b p b' p' : Nat) (f : Share → Share) (hf : ∀ sh, (f sh).home = sh.home ∧ (f sh).tile = sh.tile) :
    (s.updShare b p f).shareMem b' p' = s.shareMem b' p' := by
  have hshare : (((s.updShare b p f).block b').share p').home = ((s.block b').share p').home ∧
      (((s.updShare b p f).block b').share p').tile = ((s.block b').share p').tile := by
    unfold State.updShare
    rw [block_updBlock]
    split
    · simp only [Block.share, getD_updAt]
      split
      · exact hf _
      · exact ⟨rfl, rfl⟩
    · exact ⟨rfl, rfl⟩
  unfold State.shareMem
  simp only [hshare.1, hshare.2]
  rfl

/-- The entry checks look at an agent's context, launch and kind alone. -/
theorem entryFault_agent (s : State) {a b : Agent} (h : Word) (hc : b.ctx = a.ctx) (hl : b.launch = a.launch) (hd : b.drover = a.drover) :
    s.entryFault b h = s.entryFault a h := by
  have hn : s.regCount b = s.regCount a := by simp [State.regCount, hl, hd]
  simp only [State.entryFault, hc, hd, hn]

theorem arrive_unlocked {s : State} {i : Nat} {h : Word} (hd : (s.agent i).drover = false) (hq : s.qlockAt (s.agent i).ctx h = false) :
    s.arrive i h = (s.updAgent i (Agent.atHeader h (s.core (s.coreOf (s.agent i))).cycle.toNat)).closeRecords
      (s.agent i).block (s.agent i).pos := by
  unfold State.arrive
  simp only [hd, hq, Bool.false_and, Bool.false_eq_true, if_false]
  rfl

/-- A thread outside trap mode, with a routine whose header can be entered, takes its trap: the frame is filled under the next
sequence number, and the thread stands at the routine. -/
theorem takeTrap_enters {s : State} {i : Nat} {e : Word} (x : Trap) (at_ : FaultPoint) (hi : i < s.agents.length)
    (hd : (s.agent i).drover = false) (hm : (s.agent i).trapMode = false) (he : s.trapEntry (s.agent i) = some e)
    (hf : s.entryFault (s.agent i) e = none) (hq : s.qlockAt (s.agent i).ctx e = false) :
    s.takeTrap i x at_ = (s.takeSeq.2.updAgent i (Agent.atHeader e (s.core (s.coreOf (s.agent i))).cycle.toNat ∘
      Agent.trapped x at_ s.hub.seq)).closeRecords (s.agent i).block (s.agent i).pos := by
  set u := s.takeSeq.2.updAgent i (Agent.trapped x at_ s.hub.seq) with hu
  have hb : u.agent i = (s.agent i).trapped x at_ s.hub.seq := agent_updAgent_same _ _ hi
  have henter : u.entryFault (u.agent i) e = none := by rw [hb]; exact (entryFault_agent s e rfl rfl rfl).trans hf
  have hgo : s.takeTrap i x at_ = u.arrive i e := by
    unfold State.takeTrap
    simp only [hm, he]
    exact (congrArg (fun o : Option FaultCode => match o with
      | some f => (u.stopContext (s.agent i).ctx (s.coreOf (s.agent i)) f e).parkAt i
          { pc := e, hdr := at_.hdr, nxt := e, entry := true, quad := false }
      | none => u.arrive i e) henter : _)
  rw [hgo, arrive_unlocked (by rw [hb]; exact hd) (by rw [hb]; exact hq), hb, hu, updAgent_updAgent]
  rfl

/-! # A thread alone in its caravan whose instruction faults -/

/-- Thread `i` is caravan `ci` alone, and a trap brings it to its routine at `e`. -/
structure TrapsTo (s : State) (ci i : Nat) (e : Word) : Prop where
  alone : Alone s ci i
  thread : (s.agent i).drover = false
  running : (s.agent i).trapMode = false
  entry : s.trapEntry (s.agent i) = some e
  enters : s.entryFault (s.agent i) e = none
  unlocked : s.qlockAt (s.agent i).ctx e = false

theorem MayTrap.trapsTo {s : State} {ci i : Nat} {e : Word} (h : MayTrap s ci i e) : TrapsTo s ci i e :=
  ⟨h.alone, h.thread, h.running, h.entry, h.enters, h.unlocked⟩

theorem Alone.begin {s : State} {ci i : Nat} (h : Alone s ci i) : Alone (s.begin ci) ci i := by
  obtain ⟨hci, hi, hm, hq⟩ := h
  obtain ⟨n, a, hk⟩ := begin_caravan s ci ci
  exact ⟨by simpa [State.begin, State.tick] using hci, hi, by rw [hk]; exact hm, by rw [hk]; exact hq⟩

theorem TrapsTo.begin {s : State} {ci i : Nat} {e : Word} (h : TrapsTo s ci i e) : TrapsTo (s.begin ci) ci i e :=
  ⟨h.alone.begin, h.thread, h.running, h.entry, h.enters, h.unlocked⟩

/-- A trap taken after the issue has begun is a trap taken from the state before. -/
theorem TrapTaken.of_begin {s t : State} {ci i : Nat} {e : Word} {code : BitVec 16} {info : Word} {addr : DWord}
    (h : TrapTaken (s.begin ci) t ci i e code info addr) : TrapTaken s t ci i e code info addr := by
  obtain ⟨n, a, hk⟩ := begin_caravan s ci ci
  have hpc := h.pc
  have hhdr := h.hdr
  have hres := h.resume
  have hqs := h.queues
  rw [hk] at hpc hhdr hres
  simp only [tokens_begin] at hqs
  exact ⟨h.mode, h.code, hpc, hhdr, hres, h.info, h.addr, h.seq, h.held, h.fpstat, h.stands, h.kept, h.others, h.storage, hqs⟩

/-- What the trap itself leaves: `s` is the state whose caravans alone have changed. -/
theorem trapTaken_takeTrap {s u : State} {ci i : Nat} {e : Word} (h : TrapsTo s ci i e) (cs : List Caravan)
    (hu : u = { s with caravans := cs }) (x : Trap) (at_ : FaultPoint) (hpc : at_.pc = (s.caravan ci).pc)
    (hhdr : at_.hdr = (s.caravan ci).hdr) (hx : x.code.resumesAfter = false) :
    TrapTaken s (u.takeTrap i x at_) ci i e x.code.code x.info x.addr := by
  subst hu
  obtain ⟨-, hi, -, -⟩ := h.alone
  rw [takeTrap_enters (s := { s with caravans := cs }) x at_ hi h.thread h.running h.entry h.enters h.unlocked]
  generalize hg : (Agent.atHeader e _ ∘ Agent.trapped x at_ _) = g
  have hframe : (g (s.agent i)).frame = trapFrame (s.agent i) x at_ s.hub.seq := by subst hg; rfl
  have hstand : (g (s.agent i)).trapMode = true ∧ (g (s.agent i)).latches = emptyLatches ∧ (g (s.agent i)).pc = e ∧
      (g (s.agent i)).stand = .header := by subst hg; exact ⟨rfl, rfl, rfl, rfl⟩
  have hkept : (g (s.agent i)).regs = (s.agent i).regs ∧ (g (s.agent i)).spill = (s.agent i).spill ∧
      (g (s.agent i)).adv = (s.agent i).adv ∧ (g (s.agent i)).fpstat = (s.agent i).fpstat ∧
      (g (s.agent i)).block = (s.agent i).block ∧ (g (s.agent i)).pos = (s.agent i).pos := by
    subst hg; exact ⟨rfl, rfl, rfl, rfl, rfl, rfl⟩
  obtain ⟨gmode, glatch, gpc, gstand⟩ := hstand
  obtain ⟨gregs, gspill, gadv, gfp, gblock, gpos⟩ := hkept
  generalize ht : ((State.takeSeq _).2.updAgent i g).closeRecords _ _ = t
  have hti : t.agent i = g (s.agent i) := by subst ht; exact agent_updAgent_same _ g hi
  have hshare : ∀ b p, t.shareMem b p = s.shareMem b p := by
    intro b p; subst ht; exact shareMem_updShare _ _ _ _ _ _ fun _ => ⟨rfl, rfl⟩
  have hspace : ∀ sp y, t.spaceByte i sp y = s.spaceByte i sp y := by
    intro sp y
    unfold State.spaceByte
    rw [hti, gblock, gpos, gspill, hshare]
  have hother : ∀ j, j ≠ i → t.agent j = s.agent j := by
    intro j hj; subst ht; exact agent_updAgent_other _ g (Ne.symm hj)
  have hrest : t.hub.seq = s.hub.seq + 1 ∧ t.mem = s.mem ∧ t.pending = s.pending ∧ ∀ c q, t.tokens c q = s.tokens c q := by
    subst ht; exact ⟨rfl, rfl, rfl, fun _ _ => rfl⟩
  obtain ⟨hseq, hmem, hpending, hqueues⟩ := hrest
  constructor
  case others => exact hother
  all_goals simp [hti, hframe, trapFrame, hx, hpc, hhdr, gmode, glatch, gpc, gstand, gregs, gspill, gadv, gfp, hseq, hmem, hpending,
    hqueues, hspace]

/-- The fault of the only lane of a caravan as it issued, `c`: the thread leaves the caravan, which dissolves, and takes its trap. -/
theorem trapTaken_raise {s : State} {ci i : Nat} {e : Word} (h : TrapsTo s ci i e) {c : Caravan} (hpc : c.pc = (s.caravan ci).pc)
    (hhdr : c.hdr = (s.caravan ci).hdr) (hmem : c.members = (s.caravan ci).members) (hlock : c.qlock = false) {x : Trap}
    (hx : x.code.resumesAfter = false) (size : Nat) :
    TrapTaken s (s.raise ci c size [(i, x)]) ci i e x.code.code x.info x.addr ∧
      ((s.raise ci c size [(i, x)]).caravan ci).members = [] := by
  obtain ⟨hci, hi, hm, -⟩ := h.alone
  have hmates : s.quadMates c [i] = [] := by simp [State.quadMates, hlock]
  have hout : (s.caravan ci).members.filter (fun m => !([i] : List Nat).contains m.agent && !false) = [] := by simp [hm]
  set u := s.updCaravan ci fun k =>
    { k with members := k.members.filter fun m => !([i] : List Nat).contains m.agent && !false } with hu
  have hempty : (u.caravan ci).members = [] := by rw [hu, caravan_updCaravan_same _ _ hci]; exact hout
  have htrap := trapTaken_takeTrap h u.caravans (u := u) rfl x (faultPoint c size) hpc hhdr hx
  have henters := takeTrap_enters (s := u) x (faultPoint c size) hi h.thread h.running h.entry h.enters h.unlocked
  have hkept : (u.takeTrap i x (faultPoint c size)).caravan ci = u.caravan ci := by rw [henters]; rfl
  have hlen : ci < (u.takeTrap i x (faultPoint c size)).caravans.length := by
    rw [henters]; exact (updAt_length _ _ _).symm ▸ hci
  have hraise : s.raise ci c size [(i, x)] =
      (u.takeTrap i x (faultPoint c size)).updCaravan ci fun k => { k with place := .dissolved } := by
    unfold State.raise
    simp only [List.isEmpty_cons, Bool.false_eq_true, if_false, List.map_cons, List.map_nil, hmates, hmem.trans hm, List.foldl_cons,
      List.foldl_nil, List.contains_nil]
    rw [if_pos (by rw [hkept, hempty]; rfl)]
  rw [hraise]
  refine ⟨⟨htrap.mode, htrap.code, htrap.pc, htrap.hdr, htrap.resume, htrap.info, htrap.addr, htrap.seq, htrap.held, htrap.fpstat,
    htrap.stands, htrap.kept, htrap.others, htrap.storage, htrap.queues⟩, ?_⟩
  rw [caravan_updCaravan_same _ _ hlen, hkept, hempty]

/-- The same once the issue of the instruction has begun. -/
theorem trapTaken_raise_begin {s : State} {ci i : Nat} {e : Word} (h : TrapsTo s ci i e) {x : Trap} (hx : x.code.resumesAfter = false)
    (size : Nat) : TrapTaken s ((s.begin ci).raise ci (s.caravan ci) size [(i, x)]) ci i e x.code.code x.info x.addr ∧
      (((s.begin ci).raise ci (s.caravan ci) size [(i, x)]).caravan ci).members = [] := by
  obtain ⟨n, a, hk⟩ := begin_caravan s ci ci
  obtain ⟨htaken, hempty⟩ := trapTaken_raise h.begin (c := s.caravan ci) (by rw [hk]) (by rw [hk]) (by rw [hk]) h.alone.2.2.2 hx size
  exact ⟨htaken.of_begin, hempty⟩

end Sys2Proof.Machine

namespace Sys2Proof.Machine

/-! # One step (R26, R64, R88) -/

/-- The parcels fetched are those at the offsets asked for. -/
theorem parcels_getElem? (s : State) (ctx : Nat) : ∀ (n off k : Nat),
    (s.parcels ctx off n)[k]? = if k < n then some (s.parcelAt ctx (off + 4 * k)) else none
  | 0, off, k => by simp [State.parcels]
  | n + 1, off, 0 => by simp [State.parcels, State.parcelAt, State.codeNat]
  | n + 1, off, k + 1 => by
    rw [State.parcels, List.getElem?_cons_succ, parcels_getElem? s ctx n (off + 4) k]
    simp only [Nat.add_lt_add_iff_right, show off + 4 + 4 * k = off + 4 * (k + 1) by omega]

/-- A fetch gives the parcels from the program counter to the end of the block, four at most. -/
theorem fetch_getElem? (s : State) (ci k : Nat) : (s.fetch ci)[k]? =
    if k < min 4 (((blockEnd (s.caravan ci).hdr (s.caravan ci).len).toNat - (s.caravan ci).pc.toNat) / 4) then
      some (s.parcelAt (s.block (s.caravan ci).block).ctx ((s.caravan ci).pc.toNat + 4 * k)) else none :=
  parcels_getElem? s _ _ _ _

/-- The state in which a fetched instruction runs: its fetch has met the errors of its sectors, and its caravan has the issue. -/
def State.fetched (s : State) (ci : Nat) : State := { (if s.latent = [] then s else s.meetFetch ci) with focus := some ci }

section
variable {s : State} {ci : Nat} (hmay : s.mayIssue ci = true)
include hmay

theorem stepIssue_of_decoded {i : Instr} {ps : List Word} (hdec : decode ((s.fetched ci).fetch ci) = .ok (i, ps)) :
    stepIssue s ci = exec i (s.fetched ci) := by
  unfold State.fetched at hdec
  unfold stepIssue
  simp only [if_pos hmay, List.isEmpty_iff, hdec]
  rfl

theorem stepIssue_of_refused {x : DecodeError} (hdec : decode ((s.fetched ci).fetch ci) = .error x) :
    stepIssue s ci = .next ((s.fetched ci).illegal ci (sizeOfParcels ((s.fetched ci).fetch ci))) := by
  unfold State.fetched at hdec
  unfold stepIssue
  simp only [if_pos hmay, List.isEmpty_iff, hdec]
  rfl

end

/-- What cannot be decoded raises ILLEGAL_INSTRUCTION in a thread that is alone. -/
theorem trapTaken_illegal {s : State} {ci i : Nat} {e : Word} (h : TrapsTo s ci i e) (size : Nat) :
    TrapTaken s (s.illegal ci size) ci i e 0x0001 0 0 := by
  obtain ⟨-, -, hm, -⟩ := h.alone
  have hillegal : s.illegal ci size = (s.begin ci).raise ci (s.caravan ci) size [(i, { code := .illegalInstruction })] := by
    simp [State.illegal, State.laneMembers, hm]
  rw [hillegal]
  exact (trapTaken_raise_begin h rfl size).1

theorem step_agenda {s : State} {it : Agenda} {rest : List Agenda} (h : s.agenda = it :: rest) :
    step s = stepItem { s with agenda := rest } it := by unfold step; rw [h]

/-- Settles O53: `stepIssue_of_decoded` says what an issue runs, `fetch_getElem?` which parcels it reads, and `trapTaken_illegal` what
becomes of a word that does not decode; the other items are the equations of `stepItem`. -/
theorem stepRunsTheDecodedInstruction : Obligations.StepRunsTheDecodedInstruction := by
  intro s
  refine ⟨fun ci rest hs => ⟨fun hno => ?held, fun hmay => ⟨fun k _ hin => ?inside, fun k hpast => ?past, fun i ps hdec => ?decoded,
    fun x i e hdec halone hmode hthread hentry henters hopen => ?refused⟩⟩, fun i rest hs => ⟨fun hword => ?word, fun hevent => ?event⟩,
    fun n rest hs => ⟨_, step_agenda hs, rfl, fun c hc => ?tick⟩, fun hs => ?policy⟩
  case held =>
    rw [step_agenda hs]
    exact if_neg (by simp [hno])
  case inside => exact (fetch_getElem? _ ci k).trans (if_pos (by omega))
  case past => exact (fetch_getElem? _ ci k).trans (if_neg (by omega))
  case decoded => exact (step_agenda hs).trans (stepIssue_of_decoded hmay hdec)
  case refused =>
    have h := trapTaken_illegal ⟨halone, hthread, hmode, hentry, henters, hopen⟩
      (sizeOfParcels (State.fetch (State.fetched { s with agenda := rest } ci) ci))
    exact ⟨_, (step_agenda hs).trans (stepIssue_of_refused hmay hdec), h.mode, h.code, h.pc, h.resume, h.info, h.stands.1, h.kept.1,
      h.storage.1⟩
  case word =>
    rw [step_agenda hs]
    exact if_neg hword
  case event =>
    rw [step_agenda hs]
    exact if_pos (not_not.1 hevent)
  case tick => simp [State.core, hc]
  case policy =>
    have hsame : ({ s with agenda := [] } : State) = s := by rw [← hs]
    rw [step_agenda (s := { s with agenda := [s.nextItem] }) rfl]
    unfold step
    rw [hs]
    exact congrArg (fun t => stepItem t s.nextItem) hsame.symm

end Sys2Proof.Machine

namespace Sys2Proof.Machine

/-! # What moving agents between blocks keeps

Ending a block, taking a trap, locking, settling and resuming quads all change agents, caravans, blocks and what the slices hold.
`Keeps P` says what they leave: agents outside `P`, every agent's place, the TLBs, the requests to peers; and no access becomes
pending. -/

/-- Two agents in one place: the same kind, block and thread number. -/
def Agent.samePlace (a b : Agent) : Prop := a.drover = b.drover ∧ a.block = b.block ∧ a.tidx = b.tidx

structure Keeps (P : Nat → Prop) (s t : State) : Prop where
  tlb : t.tlb = s.tlb
  remotes : t.remotes = s.remotes
  pending : ∀ p ∈ t.pending, p ∈ s.pending
  count : t.agents.length = s.agents.length
  place : ∀ j, (t.agent j).samePlace (s.agent j)
  others : ∀ j, ¬P j → t.agent j = s.agent j

section
variable {P : Nat → Prop} {s t u : State}

theorem Keeps.of_agents (ha : t.agents = s.agents) (ht : t.tlb = s.tlb) (hr : t.remotes = s.remotes)
    (hp : ∀ p ∈ t.pending, p ∈ s.pending) : Keeps P s t := by
  have h : ∀ j, t.agent j = s.agent j := fun j => by unfold State.agent; rw [ha]
  exact ⟨ht, hr, hp, by rw [ha], fun j => by rw [h]; exact ⟨rfl, rfl, rfl⟩, fun j _ => h j⟩

theorem Keeps.refl (s : State) : Keeps P s s := Keeps.of_agents rfl rfl rfl fun _ h => h

theorem Keeps.trans (h : Keeps P s t) (k : Keeps P t u) : Keeps P s u where
  tlb := k.tlb.trans h.tlb
  remotes := k.remotes.trans h.remotes
  pending p hp := h.pending p (k.pending p hp)
  count := k.count.trans h.count
  place j := ⟨(k.place j).1.trans (h.place j).1, (k.place j).2.1.trans (h.place j).2.1, (k.place j).2.2.trans (h.place j).2.2⟩
  others j hj := (k.others j hj).trans (h.others j hj)

/-- Steps each of which keeps what it meets, one after another. -/
theorem Keeps.foldl {β : Type} {f : State → β → State} {xs : List β} (h : ∀ t, Keeps P s t → ∀ x ∈ xs, Keeps P t (f t x)) :
    Keeps P s (xs.foldl f s) := by
  suffices hgo : ∀ (ys : List β), (∀ y ∈ ys, y ∈ xs) → ∀ t, Keeps P s t → Keeps P s (ys.foldl f t) from
    hgo xs (fun _ h => h) s (.refl s)
  intro ys
  induction ys with
  | nil => exact fun _ _ ht => ht
  | cons y ys ih =>
    exact fun hys t ht => ih (fun z hz => hys z (List.mem_cons_of_mem _ hz)) _ (ht.trans (h t ht y (hys y List.mem_cons_self)))

theorem State.SlicesOnly.keeps (h : s.SlicesOnly t) : Keeps P s t :=
  .of_agents h.agents (by rw [h.eq]) (by rw [h.eq]) fun p hp => h.pending ▸ hp

theorem keeps_performWhere (f : PendStore → Bool) : Keeps P s (s.performWhere f) :=
  (Keeps.of_agents rfl rfl rfl fun _ h => (List.mem_filter.1 h).1 : Keeps P s { s with pending := s.pending.filter fun p => !f p }).trans
    (performWhere_slices s f).keeps

/-- A change of one agent that leaves it where it is, and leaves it alone if it is not in `P`. -/
theorem keeps_updAgent_of {i : Nat} {f : Agent → Agent} (hi : ¬P i → f (s.agent i) = s.agent i) (hf : ∀ a, (f a).samePlace a) :
    Keeps P s (s.updAgent i f) where
  tlb := rfl
  remotes := rfl
  pending _ h := h
  count := updAt_length _ _ _
  place j := by
    rw [agent_updAgent]
    split
    · exact hf _
    · exact ⟨rfl, rfl, rfl⟩
  others j hj := by
    rw [agent_updAgent]
    split
    · rename_i h; obtain ⟨rfl, -⟩ := h; exact hi hj
    · rfl

theorem keeps_updAgent {i : Nat} {f : Agent → Agent} (hi : P i) (hf : ∀ a, (f a).samePlace a) : Keeps P s (s.updAgent i f) :=
  keeps_updAgent_of (fun h => absurd hi h) hf

/-- A change of every agent that leaves each where it is, and leaves those alone that are not in `P`. -/
theorem keeps_mapAgents {f : Agent → Agent} (ha : t.agents = s.agents.map f) (hd : f {} = {}) (hf : ∀ a, (f a).samePlace a)
    (hi : ∀ j < s.agents.length, ¬P j → f (s.agent j) = s.agent j) (ht : t.tlb = s.tlb) (hr : t.remotes = s.remotes)
    (hp : t.pending = s.pending) : Keeps P s t := by
  have hagent : ∀ j, t.agent j = f (s.agent j) := fun j => by
    simp only [State.agent, ha, List.getD_eq_getElem?_getD, List.getElem?_map]
    cases s.agents[j]? with
    | none => exact hd.symm
    | some a => rfl
  refine ⟨ht, hr, fun _ h => hp ▸ h, by rw [ha, List.length_map], fun j => by rw [hagent]; exact hf _, fun j hj => ?_⟩
  rw [hagent]
  by_cases hlt : j < s.agents.length
  · exact hi j hlt hj
  · have hdef : s.agent j = {} := List.getD_eq_default _ _ (by omega)
    rw [hdef, hd]

/-! ## Threads of a quad -/

theorem mem_agentsWhere {p : Agent → Bool} {j : Nat} : j ∈ s.agentsWhere p ↔ j < s.agents.length ∧ p (s.agent j) = true := by
  simp only [State.agentsWhere, List.mem_map, List.mem_filter, List.mem_zipIdx_iff_getElem?, Prod.exists]
  constructor
  · rintro ⟨a, n, ⟨ha, hp⟩, rfl⟩
    obtain ⟨hn, rfl⟩ := List.getElem?_eq_some_iff.1 ha
    exact ⟨hn, by simpa [State.agent, hn] using hp⟩
  · rintro ⟨hj, hp⟩
    exact ⟨s.agents[j], j, ⟨List.getElem?_eq_getElem hj, by simpa [State.agent, hj] using hp⟩, rfl⟩

theorem mem_threadsOfQuad {b q j : Nat} : j ∈ s.threadsOfQuad b q ↔
    j < s.agents.length ∧ (s.agent j).block = b ∧ (s.agent j).drover = false ∧ (s.agent j).quadNo = q := by
  simp [State.threadsOfQuad, mem_agentsWhere, and_assoc]

/-- Every thread of a quad that has not exited is in `P`. -/
def Owns (P : Nat → Prop) (b q : Nat) (s : State) : Prop := ∀ j ∈ s.threadsOfQuad b q, (s.agent j).stand ≠ .exited → P j

theorem Keeps.threadsOfQuad (h : Keeps P s t) {b q j : Nat} : j ∈ t.threadsOfQuad b q ↔ j ∈ s.threadsOfQuad b q := by
  obtain ⟨hd, hb, ht⟩ := h.place j
  simp only [mem_threadsOfQuad, h.count, hd, hb, Agent.quadNo, ht]

theorem Owns.keeps {b q : Nat} (ho : Owns P b q s) (h : Keeps P s t) : Owns P b q t := by
  intro j hj hs
  by_contra hP
  exact hP (ho j (h.threadsOfQuad.1 hj) (by rw [← h.others j hP]; exact hs))

/-- The quad of a thread, which moving does not change. -/
theorem Owns.of_mem {b q j : Nat} (ho : Owns P b q s) (hj : j ∈ s.threadsOfQuad b q) : Owns P (s.agent j).block (s.agent j).quadNo s := by
  obtain ⟨-, hb, -, hq⟩ := mem_threadsOfQuad.1 hj
  rw [hb, hq]; exact ho

end

/-! ## Records, locks and the ends of threads -/

section
variable {P : Nat → Prop} {s : State}

theorem keeps_closeRecords (b p : Nat) : Keeps P s (s.closeRecords b p) := .of_agents rfl rfl rfl fun _ h => h

theorem keeps_openRecord (b p : Nat) (target : Word) (ms : List Nat) (quads : Bool) : Keeps P s (s.openRecord b p target ms quads) := by
  unfold State.openRecord
  split
  · exact .refl s
  · exact .of_agents rfl rfl rfl fun _ h => h

/-- A thread of quad `q` of block `b` that waits for its quad is locked with it. -/
def Agent.lockedIn (b q : Nat) (a : Agent) : Agent :=
  if a.block = b && !a.drover && a.quadNo = q && a.stand = .quad then { a with stand := .locked } else a

theorem Agent.lockedIn_of_not_waiting {b q : Nat} {a : Agent} (h : a.block = b → a.drover = false → a.quadNo = q → a.stand ≠ .quad) :
    a.lockedIn b q = a := by
  refine if_neg fun hc => ?_
  simp only [Bool.and_eq_true, decide_eq_true_eq, Bool.not_eq_true'] at hc
  obtain ⟨⟨⟨hb, hd⟩, hq⟩, hs⟩ := hc
  exact h hb hd hq hs

theorem keeps_tryLock {b q : Nat} (ho : Owns P b q s) : Keeps P s (s.tryLock b q) := by
  unfold State.tryLock
  simp only
  split
  · refine keeps_mapAgents (f := Agent.lockedIn b q) rfl ?_ (fun a => ?_) (fun j hlt hj => ?_) rfl rfl rfl
    · exact Agent.lockedIn_of_not_waiting fun _ _ _ => by simp
    · unfold Agent.lockedIn; split <;> exact ⟨rfl, rfl, rfl⟩
    · exact Agent.lockedIn_of_not_waiting fun hb hd hq hs => hj (ho j (mem_threadsOfQuad.2 ⟨hlt, hb, hd, hq⟩) (by simp [hs]))
  · exact .refl s

/-- A quad that a thread which is not a drover's belongs to. -/
def OwnsQuadOf (P : Nat → Prop) (s : State) (i : Nat) : Prop :=
  P i ∧ ((s.agent i).drover = false → Owns P (s.agent i).block (s.agent i).quadNo s)

theorem OwnsQuadOf.keeps {t : State} {i : Nat} (ho : OwnsQuadOf P s i) (h : Keeps P s t) : OwnsQuadOf P t i := by
  obtain ⟨hd, hb, ht⟩ := h.place i
  refine ⟨ho.1, fun hd' => ?_⟩
  have hq : (t.agent i).quadNo = (s.agent i).quadNo := by simp [Agent.quadNo, ht]
  rw [hb, hq]
  exact (ho.2 (hd ▸ hd')).keeps h

theorem keeps_endAgent {i : Nat} (ho : OwnsQuadOf P s i) : Keeps P s (s.endAgent i) := by
  have h0 : Keeps P s ((s.flushStores i).updAgent i fun a =>
      { a with stand := .exited, latches := emptyLatches, adv := [], spill := [], wait := .ready, trapMode := false }) :=
    (keeps_performWhere _).trans (keeps_updAgent ho.1 fun _ => ⟨rfl, rfl, rfl⟩)
  unfold State.endAgent
  simp only
  split
  · exact h0
  · rename_i hd
    exact (h0.trans (keeps_tryLock ((ho.2 (by simpa using hd)).keeps h0))).trans (keeps_closeRecords _ _)

theorem keeps_settleQuad {b q : Nat} (ho : Owns P b q s) (p : Nat) : Keeps P s (s.settleQuad b p q) := by
  unfold State.settleQuad
  split
  · exact keeps_closeRecords _ _
  · simp only
    split
    · exact .refl s
    · refine Keeps.trans ?_ (keeps_closeRecords _ _)
      have h0 : Keeps P s ((s.updBlock b fun k => { k with quads := k.quads.filter (· ≠ q) }).leaveRecords b p q) :=
        .of_agents rfl rfl rfl fun _ h => h
      refine h0.trans (.foldl fun t ht i hi => ?_)
      have hi' := (h0.trans ht).threadsOfQuad.2 hi
      have hown := (ho.keeps (h0.trans ht)).of_mem hi'
      split
      · rename_i hs
        exact keeps_endAgent ⟨(ho.keeps (h0.trans ht)) i hi' (by rw [hs]; simp), fun _ => hown⟩
      · rename_i hs
        exact keeps_updAgent ((ho.keeps (h0.trans ht)) i hi' (by rw [hs]; simp)) fun _ => ⟨rfl, rfl, rfl⟩
      · exact .refl t

/-! ## Caravans, arrivals and traps -/

theorem keeps_updAgents {ms : List Member} {g : Member → Agent → Agent} (hm : ∀ m ∈ ms, P m.agent)
    (hg : ∀ m a, (g m a).samePlace a) : Keeps P s (ms.foldl (fun t m => t.updAgent m.agent (g m)) s) :=
  .foldl fun _ _ m hm' => keeps_updAgent (hm m hm') (hg m)

theorem foldl_updAt_agents (ms : List Member) (g : Member → Agent → Agent) : ∀ s : State,
    ({ s with agents := ms.foldl (fun as m => updAt as m.agent (g m)) s.agents } : State) =
      ms.foldl (fun t m => t.updAgent m.agent (g m)) s := by
  induction ms with
  | nil => exact fun _ => rfl
  | cons m ms ih => exact fun s => ih (s.updAgent m.agent (g m))

theorem keeps_caravanFor (b core : Nat) (hdr pc : Word) {ms : List Member} (vacant : List Nat) (place : Place)
    (hm : ∀ m ∈ ms, P m.agent) : Keeps P s (s.caravanFor b core hdr pc ms vacant place) := by
  unfold State.caravanFor
  simp only
  rw [foldl_updAt_agents]
  refine Keeps.trans ?_ (keeps_updAgents hm fun m a => ?_)
  · exact .of_agents rfl rfl rfl fun _ h => h
  · split <;> exact ⟨rfl, rfl, rfl⟩

theorem keeps_arrive {i : Nat} (ho : OwnsQuadOf P s i) (h : Word) : Keeps P s (s.arrive i h) := by
  unfold State.arrive
  simp only
  set u := s.updAgent i fun a => { a with
    pc := h, latches := emptyLatches, issued := 0, wait := .ready, since := (s.core (s.coreOf (s.agent i))).cycle.toNat
    stand := if s.qlockAt (s.agent i).ctx h && !(s.agent i).drover && !((s.agent i).trapMode && (s.agent i).frame.quad) then .quad
      else .header } with hu
  have h0 : Keeps P s u := keeps_updAgent ho.1 fun _ => ⟨rfl, rfl, rfl⟩
  split
  · exact h0.trans (keeps_caravanFor _ _ _ _ _ _ (by simpa using ho.1))
  · rename_i hd
    split
    · exact (h0.trans (keeps_tryLock ((ho.2 (by simpa using hd)).keeps h0))).trans (keeps_closeRecords _ _)
    · exact h0.trans (keeps_closeRecords _ _)

theorem keeps_stopContext (ctx core : Nat) (code : FaultCode) (pc : Word) : Keeps P s (s.stopContext ctx core code pc) := by
  unfold State.stopContext
  split
  · exact .refl s
  · refine Keeps.trans ?_ (postEvent_slices _ _ _ _ _ _).keeps
    exact .of_agents rfl rfl rfl fun _ h => h

theorem keeps_parkAt {i : Nat} (hi : P i) (at_ : FaultPoint) : Keeps P s (s.parkAt i at_) := keeps_updAgent hi fun _ => ⟨rfl, rfl, rfl⟩

theorem keeps_takeTrap {i : Nat} (ho : OwnsQuadOf P s i) (x : Trap) (at_ : FaultPoint) : Keeps P s (s.takeTrap i x at_) := by
  unfold State.takeTrap
  simp only
  split
  · exact (keeps_stopContext _ _ _ _).trans (keeps_parkAt ho.1 _)
  · exact (keeps_stopContext _ _ _ _).trans (keeps_parkAt ho.1 _)
  · have h1 : Keeps P s s.takeSeq.2 := .of_agents rfl rfl rfl fun _ h => h
    have h2 := h1.trans (keeps_updAgent (P := P) (s := s.takeSeq.2) (f := Agent.trapped x at_ s.hub.seq) ho.1 fun _ => ⟨rfl, rfl, rfl⟩)
    split
    · exact h2.trans ((keeps_stopContext _ _ _ _).trans (keeps_parkAt ho.1 _))
    · exact h2.trans (keeps_arrive (ho.keeps h2) _)

theorem keeps_resumeQuad {b q : Nat} (ho : Owns P b q s) (fault : Word) : Keeps P s (s.resumeQuad b q fault) := by
  have hall : ∀ i ∈ s.threadsOfQuad b q, (s.agent i).stand ≠ .exited → P i := ho
  unfold State.resumeQuad
  simp only
  split
  · exact .refl s
  · split
    · set ms := (s.threadsOfQuad b q).filterMap fun i => match (s.agent i).stand with
        | .quadTrap want _ => some (⟨i, want⟩ : Member)
        | .discarded => some ⟨i, false⟩
        | _ => none with hms
      have hm : ∀ m ∈ ms, P m.agent := by
        intro m hm
        obtain ⟨i, hi, he⟩ := List.mem_filterMap.1 (hms ▸ hm)
        split at he
        · rename_i hs; cases he; exact hall i hi (by rw [hs]; simp)
        · rename_i hs; cases he; exact hall i hi (by rw [hs]; simp)
        · cases he
      refine Keeps.trans ?_ (keeps_caravanFor _ _ _ _ _ _ hm)
      split
      · exact .refl s
      · exact keeps_updAgents hm fun _ _ => ⟨rfl, rfl, rfl⟩
    · split
      · refine .foldl fun t ht x hx => keeps_takeTrap ?_ _ _
        obtain ⟨i, hi, he⟩ := List.mem_filterMap.1 hx
        split at he
        · rename_i hs
          obtain ⟨f, -, rfl⟩ := Option.map_eq_some_iff.1 he
          exact ⟨hall i hi (by rw [hs]; simp), fun _ => (ho.keeps ht).of_mem (ht.threadsOfQuad.2 hi)⟩
        · cases he
      · have hfold : Keeps P s ((s.threadsOfQuad b q).foldl (fun t i => t.updAgent i fun a => match a.stand with
            | .quadTrap _ _ => { a with stand := .locked, latches := emptyLatches, issued := 0 }
            | _ => a) s) := .foldl fun t ht i hi => keeps_updAgent_of (fun hP => by
          have hexit : (t.agent i).stand = .exited := by
            by_contra hs
            exact hP ((ho.keeps ht) i (ht.threadsOfQuad.2 hi) hs)
          rw [hexit]) fun a => by split <;> exact ⟨rfl, rfl, rfl⟩
        exact hfold.trans (keeps_settleQuad (ho.keeps hfold) _)

end

/-! # A thread that leaves a block alone (R31, R104, R108, R142) -/

section
variable {s : State} {ci i : Nat}

/-- The state in which a thread alone in its caravan meets its successor: the caravan is gone. -/
def State.onItsWay (s : State) (ci i : Nat) : State :=
  (s.updCaravan ci fun c => { c with place := .dissolved }).updAgent i fun a => { a with stand := .entering }

theorem onItsWay_length : (s.onItsWay ci i).agents.length = s.agents.length := updAt_length _ _ _

theorem onItsWay_agent_same (hi : i < s.agents.length) : (s.onItsWay ci i).agent i = { s.agent i with stand := .entering } :=
  agent_updAgent_same _ _ hi

theorem onItsWay_agent_other {j : Nat} (hj : j ≠ i) : (s.onItsWay ci i).agent j = s.agent j := agent_updAgent_other _ _ (Ne.symm hj)

/-- One successor, or none, is no divergence: no record is opened. -/
theorem leaveBlock_alone (h : Alone s ci i) (lv : Leave) : s.leaveBlock ci [(i, lv)] = match lv with
    | .to t => (s.onItsWay ci i).enter i t (s.caravan ci).hdr
    | .exit => (s.onItsWay ci i).exitAgent i := by
  obtain ⟨-, -, -, hq⟩ := h
  have hone : (s.caravan ci).splits (leaveTargets [(i, lv)]).length = none := by
    rcases lv with t | _
    · exact if_neg (by rw [show leaveTargets [(i, .to t)] = [t] from rfl]; simp)
    · exact if_neg (by rw [show leaveTargets [(i, .exit)] = [] from rfl]; simp)
  unfold State.leaveBlock State.leavePlain
  simp only [hq, Bool.false_eq_true, if_false, hone]
  rcases lv with t | _ <;> rfl

/-- A thread that goes to a header of plain code which passes the entry checks waits there. -/
theorem enter_unlocked {s : State} {h : Word} (fromHdr : Word) (hd : (s.agent i).drover = false) (hf : s.entryFault (s.agent i) h = none)
    (hq : s.qlockAt (s.agent i).ctx h = false) :
    s.enter i h fromHdr = (s.updAgent i (Agent.atHeader h (s.core (s.coreOf (s.agent i))).cycle.toNat)).closeRecords
      (s.agent i).block (s.agent i).pos := by
  unfold State.enter
  rw [hf]
  exact arrive_unlocked hd hq

/-- A thread whose target passes the entry checks, outside quad-locked code. -/
theorem leaveBlock_to_header {h : Word} (ha : Alone s ci i) (hd : (s.agent i).drover = false) (hf : s.entryFault (s.agent i) h = none)
    (hq : s.qlockAt (s.agent i).ctx h = false) :
    s.leaveBlock ci [(i, .to h)] = ((s.onItsWay ci i).updAgent i
      (Agent.atHeader h (s.core (s.coreOf (s.agent i))).cycle.toNat)).closeRecords (s.agent i).block (s.agent i).pos := by
  have hi := onItsWay_agent_same (ci := ci) ha.2.1
  rw [leaveBlock_alone ha]
  simp only
  rw [enter_unlocked (s := s.onItsWay ci i) (s.caravan ci).hdr (by rw [hi]; exact hd)
    (by rw [hi]; exact (entryFault_agent s h rfl rfl rfl).trans hf) (by rw [hi]; exact hq), hi]
  rfl

/-! ## Exit -/

/-- The end of an agent, before its quad and its records hear of it. -/
def State.ended (s : State) (i : Nat) : State :=
  (s.flushStores i).updAgent i fun a =>
    { a with stand := .exited, latches := emptyLatches, adv := [], spill := [], wait := .ready, trapMode := false }

theorem agent_flushStores (s : State) (i j : Nat) : (s.flushStores i).agent j = s.agent j := by
  unfold State.agent; rw [flushStores_agents]

theorem ended_agent_same (hi : i < s.agents.length) : (s.ended i).agent i = { s.agent i with
    stand := .exited, latches := emptyLatches, adv := [], spill := [], wait := .ready, trapMode := false } := by
  rw [State.ended, agent_updAgent_same _ _ (by rw [flushStores_agents]; exact hi), agent_flushStores]

theorem ended_agent_other {j : Nat} (hj : j ≠ i) : (s.ended i).agent j = s.agent j := by
  rw [State.ended, agent_updAgent_other _ _ (Ne.symm hj), agent_flushStores]

theorem mem_ended_pending {p : PendStore} : p ∈ (s.ended i).pending ↔ p ∈ s.pending ∧ i ∉ p.agents := by
  simp [State.ended, flushStores_pending]

theorem endAgent_of_thread (hd : (s.agent i).drover = false) : s.endAgent i =
    ((s.ended i).tryLock (s.agent i).block (s.agent i).quadNo).closeRecords (s.agent i).block (s.agent i).pos := by
  unfold State.endAgent
  simp only [hd, Bool.false_eq_true, if_false]
  rfl

/-- The threads of a quad that have not exited. -/
def liveInQuad (s : State) (b q j : Nat) : Prop := j ∈ s.threadsOfQuad b q ∧ (s.agent j).stand ≠ .exited

theorem owns_liveInQuad (s : State) (b q : Nat) : Owns (liveInQuad s b q) b q s := fun _ hj hs => ⟨hj, hs⟩

/-- Beside the agent that ends, an exit touches only what has not exited of its quad. -/
theorem keeps_exitAgent (hd : (s.agent i).drover = false) :
    Keeps (liveInQuad (s.ended i) (s.agent i).block (s.agent i).quadNo) (s.ended i) (s.exitAgent i) := by
  have hown := owns_liveInQuad (s.ended i) (s.agent i).block (s.agent i).quadNo
  have hend : Keeps (liveInQuad (s.ended i) (s.agent i).block (s.agent i).quadNo) (s.ended i) (s.endAgent i) := by
    rw [endAgent_of_thread hd]
    exact (keeps_tryLock hown).trans (keeps_closeRecords _ _)
  unfold State.exitAgent
  simp only
  split
  · exact hend.trans (keeps_resumeQuad (hown.keeps hend) _)
  · exact hend

/-- An exit that resumes no quad performs the agent's own accesses alone. -/
theorem exitAgent_pending (hd : (s.agent i).drover = false) (hq : (s.agent i).trapMode = false ∨ (s.agent i).frame.quad = false) :
    (s.exitAgent i).pending = (s.ended i).pending := by
  have hno : ((s.agent i).trapMode && (s.agent i).frame.quad && !(s.agent i).drover) = false := by
    rcases hq with h | h <;> simp [h]
  unfold State.exitAgent
  simp only [hno, Bool.false_eq_true, if_false]
  rw [endAgent_of_thread hd]
  unfold State.tryLock
  simp only
  split <;> rfl

/-- Settles O18: `leaveBlock_to_header` gives the state at the header outright; `keeps_exitAgent` bounds what an exit touches to the
live threads of the quad, of which the exited one is none. -/
theorem transfersArriveAndExitsEnd : Obligations.TransfersArriveAndExitsEnd := by
  refine ⟨fun s ci i h ha hd hf hq => ?arrives, fun s ci i ha hd => ?exits⟩
  case arrives =>
    have hci := ha.1
    have hi := ha.2.1
    rw [leaveBlock_to_header ha hd hf hq]
    set t := ((s.onItsWay ci i).updAgent i _).closeRecords _ _ with ht
    have hti : t.agent i = Agent.atHeader h (s.core (s.coreOf (s.agent i))).cycle.toNat { s.agent i with stand := .entering } := by
      rw [ht, agent_closeRecords, agent_updAgent_same _ _ (onItsWay_length.symm ▸ hi), onItsWay_agent_same hi]
    have hother : ∀ j, j ≠ i → t.agent j = s.agent j := fun j hj => by
      rw [ht, agent_closeRecords, agent_updAgent_other _ _ (Ne.symm hj), onItsWay_agent_other hj]
    have hplace : (t.caravan ci).place = .dissolved :=
      congrArg Caravan.place (caravan_updCaravan_same s (fun c => { c with place := .dissolved }) hci)
    simp only [hti]
    exact ⟨rfl, rfl, rfl, rfl, rfl, ⟨rfl, rfl, rfl, rfl, rfl, rfl, rfl, rfl⟩, hother, hplace, rfl, rfl⟩
  case exits =>
    have hi := ha.2.1
    set u := s.onItsWay ci i with hu
    have hui : u.agent i = { s.agent i with stand := .entering } := onItsWay_agent_same hi
    have huj : ∀ j, j ≠ i → u.agent j = s.agent j := fun j hj => onItsWay_agent_other hj
    have hlen : i < u.agents.length := onItsWay_length.symm ▸ hi
    have hud : (u.agent i).drover = false := by rw [hui]; exact hd
    rw [show s.leaveBlock ci [(i, .exit)] = u.exitAgent i from leaveBlock_alone ha .exit]
    have hkeeps := keeps_exitAgent hud
    have hgone : (u.exitAgent i).agent i = (u.ended i).agent i :=
      hkeeps.others i fun hl => hl.2 (by rw [ended_agent_same hlen])
    have hrest : ∀ p ∈ (u.exitAgent i).pending, i ∉ p.agents := fun p hp => (mem_ended_pending.1 (hkeeps.pending p hp)).2
    refine ⟨?_, hrest, fun hmode p hp hown => ?_, ?_, fun j hj => ?_⟩
    · rw [hgone, ended_agent_same hlen]
    · rw [exitAgent_pending hud (by rw [hui]; exact hmode)]
      exact mem_ended_pending.2 ⟨hp, hown⟩
    · rw [hgone, ended_agent_same hlen, hui]
    · have hne : j ≠ i := by
        rintro rfl
        rcases hj with h | h | h
        · exact h rfl
        · rw [hd] at h; cases h
        · exact h rfl
      have hout : ¬liveInQuad (u.ended i) (u.agent i).block (u.agent i).quadNo j := by
        rintro ⟨hmem, -⟩
        obtain ⟨-, hb, hd', hq⟩ := mem_threadsOfQuad.1 hmem
        rw [ended_agent_other hne, huj j hne] at hb hd' hq
        rw [hui] at hb hq
        rcases hj with h | h | h
        · exact h hb
        · rw [hd'] at h; cases h
        · exact h hq
      rw [hkeeps.others j hout, ended_agent_other hne, huj j hne]

end

end Sys2Proof.Machine

namespace Sys2Proof.Machine

/-! # Jobs of the plain kind: a check of each lane, work, and results at once -/

/-- A job with nothing but a check of each lane and its work: no early check, no wait of its own, no way out of the block. -/
structure Job.Plain (j : Job) : Prop where
  early : ∀ s i, j.early s i = none
  waits : ∀ s a, j.waits s a = []
  idle : j.idle = false
  checkAll : ∀ s ls, j.checkAll s ls = none
  uniform : j.uniform = false
  late : j.late = false
  finish : j.finish = none
  leave : j.leave = none

/-- The spec lemma of such a job: where every lane passes its check, its work is done and the caravan goes on. -/
theorem Job.Plain.issue_acts {j : Job} (hj : j.Plain) {s : State} {ci : Nat} {f : Fields} (h : Ready s ci j.sig f)
    (hc : ∀ l ∈ s.lanes ci j.sig f, j.check (s.atIssue ci) l = none)
    (hlen : (j.perform (s.atWork ci j.sig f) (s.lanes ci j.sig f)).2.length = (s.lanes ci j.sig f).length) :
    j.issue f s = .next ((s.completed (j.perform (s.atWork ci j.sig f) (s.lanes ci j.sig f)).1 ci j.sig f
      ((s.lanes ci j.sig f).zip (j.perform (s.atWork ci j.sig f) (s.lanes ci j.sig f)).2)).goOn ci f.size none) :=
  Job.issue_acts h ⟨fun _ _ => hj.early _ _, hj.waits _ _, hj.idle,
    Job.laneFaults_each (lanes_nodup s ci j.sig f) (hj.checkAll _ _) fun l hl _ => hc l hl⟩ hj.uniform hj.late hc hlen hj.finish hj.leave

/-! # Control and status registers (R23, R24, R116, R276, R295, R379) -/

theorem packElems_one_eq_sum {α : Type} (p : α → Bool) : ∀ (xs : List α) (k : Nat),
    2 ^ k * packElems 1 (xs.map fun x => if p x then 1 else 0) = ((xs.zipIdx k).map fun x => if p x.1 then 2 ^ x.2 else 0).sum
  | [], _ => by simp [packElems]
  | x :: xs, k => by
    have ih := packElems_one_eq_sum p xs (k + 1)
    simp only [List.map_cons, List.zipIdx_cons, List.sum_cons, packElems, ← ih]
    cases p x <;> simp <;> ring

theorem engineState_eq_sum (e : Engine) : engineState e =
    (e.acc.zipIdx.map fun x => if x.1.opened then 2 ^ x.2 else 0).sum + if e.latchMeta.isSome then 2 ^ 8 else 0 := by
  have h := packElems_one_eq_sum (fun x : Accum => x.opened) e.acc 0
  rw [Nat.pow_zero, Nat.one_mul] at h
  exact congrArg (· + if e.latchMeta.isSome then 256 else 0) h

theorem frameState_eq_sum (fr : TrapFrame) : frameState fr = ((List.range 4).map fun k => latchBits k (fr.held.getD k none)).sum := by
  have hstep : ∀ (n k : Nat), (match fr.held.getD k none with
      | some l => n + 2 ^ k + 2 ^ (2 * k + 4) * (match l.width with | .w32 => 0 | .w64 => 1 | .w128 => 2)
      | none => n) = n + latchBits k (fr.held.getD k none) := by
    intro n k
    cases fr.held.getD k none with
    | none => rfl
    | some l => exact Nat.add_assoc _ _ _
  rw [List.sum_eq_foldl, List.foldl_map]
  exact congrArg (fun g => (List.range 4).foldl g 0) (funext fun n => funext fun k => hstep n k)

theorem frameWord_eq_latchWord (fr : TrapFrame) (k j : Nat) : frameWord fr k j = latchWord j (fr.held.getD k none) := by
  unfold frameWord latchWord
  cases fr.held.getD k none with
  | none => rfl
  | some l => simp only [bitsAt, BitVec.extractLsb'_toNat, Nat.shiftRight_eq_div_pow]

theorem frameRead_latchWord (fr : TrapFrame) {m : Nat} (hm : m < 16) :
    frameRead fr (0x410 + m) = some (false, latchWord (m % 4) (fr.held.getD (m / 4) none)) := by
  rw [← frameWord_eq_latchWord]
  unfold frameRead
  split
  any_goals omega
  rw [if_pos (by omega), Nat.add_sub_cancel_left]

section
variable (s : State) (i : Nat)

/-- Each row of the tables is what csrr reads. -/
def readsRow (r : CsrRow) : Prop := s.csrRead i r.no = some (r.wide, r.val)

theorem csrRead_ofAll : ∀ r ∈ csrsOfAll s (s.agent i), readsRow s i r := by
  simp only [csrsOfAll, List.forall_mem_append, List.forall_mem_cons, List.forall_mem_map, List.mem_range]
  refine ⟨⟨rfl, rfl, rfl, rfl, rfl, rfl, rfl, rfl, rfl, rfl, fun _ h => nomatch h⟩, fun k hk => ?_⟩
  simp only [readsRow, State.csrRead]
  rw [if_neg (by omega), if_pos (by omega), Nat.add_sub_cancel_left]

theorem csrRead_ofThreads (hd : (s.agent i).drover = false) : ∀ r ∈ csrsOfThreads s (s.agent i), readsRow s i r := by
  simp [csrsOfThreads, readsRow, State.csrRead, hd]

theorem csrRead_ofDrovers (hd : (s.agent i).drover = true) : ∀ r ∈ csrsOfDrovers s (s.agent i), readsRow s i r := by
  simp [csrsOfDrovers, readsRow, State.csrRead, hd, engineState_eq_sum]

theorem csrRead_ofFrame (hm : (s.agent i).trapMode = true) : ∀ r ∈ csrsOfFrame (s.agent i).frame, readsRow s i r := by
  have hread : ∀ n, 0x400 ≤ n → n ≤ 0x7FF → s.csrRead i n = frameRead (s.agent i).frame n := fun n h1 h2 => by
    simp only [State.csrRead]
    rw [if_pos ⟨h1, h2⟩, if_pos hm]
  simp only [csrsOfFrame, List.forall_mem_append, List.forall_mem_cons, List.forall_mem_map, List.mem_range, readsRow]
  refine ⟨?_, fun m hlt => ?_⟩
  · simp [hread, frameRead, frameState_eq_sum]
  · rw [hread _ (by omega) (by omega), frameRead_latchWord _ hlt]

theorem csrRead_of_mem {r : CsrRow} (h : r ∈ csrTable s i) : s.csrRead i r.no = some (r.wide, r.val) := by
  simp only [csrTable, List.mem_append] at h
  rcases h with (h | h) | h
  · exact csrRead_ofAll s i r h
  · split at h
    · rename_i hd; exact csrRead_ofDrovers s i hd r h
    · rename_i hd; exact csrRead_ofThreads s i (by simpa using hd) r h
  · split at h
    · rename_i hm; exact csrRead_ofFrame s i hm r h
    · cases h

theorem frameRead_of_no_row {fr : TrapFrame} {n : Nat} (h : ∀ r ∈ csrsOfFrame fr, r.no ≠ n) : frameRead fr n = none := by
  simp only [csrsOfFrame, List.forall_mem_append, List.forall_mem_cons, List.forall_mem_map, List.mem_range] at h
  obtain ⟨hrows, hlatches⟩ := h
  unfold frameRead
  split <;> simp at hrows
  exact if_neg fun hin => hlatches (n - 0x410) (by omega) (by omega)

/-- A number of no row is none that csrr may read. -/
theorem csrRead_of_no_row {n : Nat} (h : ∀ r ∈ csrTable s i, r.no ≠ n) : s.csrRead i n = none := by
  simp only [csrTable, List.forall_mem_append] at h
  obtain ⟨⟨hall, hown⟩, hframe⟩ := h
  unfold State.csrRead
  simp only
  split
  · split
    · rename_i hm
      rw [if_pos hm] at hframe
      exact frameRead_of_no_row hframe
    · rfl
  · simp only [csrsOfAll, List.forall_mem_append, List.forall_mem_cons, List.forall_mem_map, List.mem_range] at hall
    obtain ⟨hrows, hstreams⟩ := hall
    split
    · exact absurd (by omega) (hstreams (n - 0x010) (by omega))
    · cases hd : (s.agent i).drover <;> simp only [hd] at hown <;> split <;> simp_all [csrsOfThreads, csrsOfDrovers]

end

/-- Which registers an agent may read depends on the agent alone. -/
theorem csrTable_numbers_begin (s : State) (ci i : Nat) :
    (csrTable (s.begin ci) i).map (·.no) = (csrTable s i).map (·.no) := by
  unfold csrTable
  simp only [begin_agent, List.map_append]
  congr 2

/-- An instruction reads the registers as its issue found them: the acquire that a token makes touches none. -/
theorem csrRead_atWork (s : State) (ci : Nat) (g : Sig) (f : Fields) (i n : Nat) :
    (s.atWork ci g f).csrRead i n = (s.atIssue ci).csrRead i n := by
  obtain ⟨a, ha⟩ := atWork_agent s ci g f i
  unfold State.csrRead
  rw [ha, atWork_frame]
  rfl

/-! ## csrr -/

/-- The job of csrr. -/
def csrrJob (f : Fields) : Job where
  sig := { dst := .w32, b := .b32, drover := true }
  check := csrrCheck f
  perform := fun s ls =>
    (ls.foldl (fun t l => if l.want && readsWpos l then t.completionPoint l.agent else t) s, ls.map fun l =>
      match s.csrRead l.agent (l.b.toNat % 2 ^ 32) with
      | some (wide, v) => { val := BitVec.ofNat 128 v, wide := wide }
      | none => {})

theorem exec_csrr (o : Operands) (s : State) : exec (.csrr o) s = (csrrJob o.fields).issue o.fields s := rfl

theorem csrrJob_plain (f : Fields) : (csrrJob f).Plain := ⟨fun _ _ => rfl, fun _ _ => rfl, rfl, fun _ _ => rfl, rfl, rfl, rfl, rfl⟩

theorem csrrCheck_of_read {f : Fields} {s : State} {l : Lane} {wide : Bool} {v : Nat}
    (hread : s.csrRead l.agent (l.b.toNat % 2 ^ 32) = some (wide, v))
    (hwide : wide = true → (s.agent l.agent).drover = true ∨ 0x200 ≤ f.dst.toNat ∨ f.dst.toNat % 2 = 0) : csrrCheck f s l = none := by
  unfold csrrCheck
  rw [hread]
  refine if_neg fun hbad => ?_
  simp only [Bool.and_eq_true, Bool.not_eq_true', decide_eq_true_eq] at hbad
  obtain ⟨⟨⟨hw, hd⟩, hlow⟩, hodd⟩ := hbad
  rcases hwide hw with h | h | h
  · rw [hd] at h; cases h
  · omega
  · omega

theorem csrr_reads_rows {o : Operands} {s : State} {ci : Nat} (h : Ready s ci (csrrJob o.fields).sig o.fields) (row : Lane → CsrRow)
    (hrow : ∀ l ∈ s.lanes ci (csrrJob o.fields).sig o.fields,
      row l ∈ csrTable (s.atWork ci (csrrJob o.fields).sig o.fields) l.agent ∧ (row l).no = l.b.toNat % 2 ^ 32 ∧
      ((row l).wide = true → (s.agent l.agent).drover = true ∨ 0x200 ≤ o.fields.dst.toNat ∨ o.fields.dst.toNat % 2 = 0)) :
    exec (.csrr o) s = .next ((s.completed
      ((s.lanes ci (csrrJob o.fields).sig o.fields).foldl (fun t l =>
        if l.want = true ∧ 0x010 ≤ (row l).no ∧ (row l).no ≤ 0x017 then t.completionPoint l.agent else t)
        (s.atWork ci (csrrJob o.fields).sig o.fields)) ci (csrrJob o.fields).sig o.fields
      ((s.lanes ci (csrrJob o.fields).sig o.fields).map fun l =>
        (l, { val := BitVec.ofNat 128 (row l).val, wide := (row l).wide }))).goOn ci o.fields.size none) := by
  set g := (csrrJob o.fields).sig with hg
  have hread : ∀ l ∈ s.lanes ci g o.fields,
      (s.atWork ci g o.fields).csrRead l.agent (l.b.toNat % 2 ^ 32) = some ((row l).wide, (row l).val) := fun l hl => by
    obtain ⟨hmem, hno, -⟩ := hrow l hl
    rw [← hno]; exact csrRead_of_mem _ _ hmem
  have hcheck : ∀ l ∈ s.lanes ci g o.fields, (csrrJob o.fields).check (s.atIssue ci) l = none := fun l hl =>
    csrrCheck_of_read (by rw [← csrRead_atWork s ci g o.fields]; exact hread l hl) (hrow l hl).2.2
  have hperform : (csrrJob o.fields).perform (s.atWork ci g o.fields) (s.lanes ci g o.fields) =
      ((s.lanes ci g o.fields).foldl (fun t l =>
        if l.want = true ∧ 0x010 ≤ (row l).no ∧ (row l).no ≤ 0x017 then t.completionPoint l.agent else t) (s.atWork ci g o.fields),
        (s.lanes ci g o.fields).map fun l => { val := BitVec.ofNat 128 (row l).val, wide := (row l).wide }) := by
    refine Prod.ext (List.foldl_ext _ _ _ fun t l hl => ?_) (List.map_congr_left fun l hl => ?_)
    · simp only [readsWpos, ← (hrow l hl).2.1, Bool.and_eq_true, decide_eq_true_eq]
    · simp only [hread l hl]
  rw [exec_csrr, (csrrJob_plain o.fields).issue_acts h hcheck (by rw [hperform]; exact List.length_map _), hperform, ← List.map_prod_left_eq_zip]

/-! ## csrw -/

/-- The job of csrw. -/
def csrwJob : Job where
  sig := { b := .b32, c := .b32, drover := true }
  check := fun s l => if csrWritable (s.agent l.agent) (l.b.toNat % 2 ^ 32) then none else some { code := .illegalInstruction }
  perform := eachLane csrwLane

theorem csrwJob_plain : csrwJob.Plain := ⟨fun _ _ => rfl, fun _ _ => rfl, rfl, fun _ _ => rfl, rfl, rfl, rfl, rfl⟩

theorem csrWritable_iff (a : Agent) (n : Nat) : csrWritable a n = true ↔ n ∈ csrNumbersWritten a := by
  unfold csrWritable csrNumbersWritten
  cases a.drover <;> cases a.trapMode <;> simp [or_assoc]

/-- Settles O22: `csrRead_of_mem` ties the tables to what csrr reads, `csrWritable_iff` the list of writable registers to csrw. -/
theorem controlRegistersReadAndWrite : Obligations.ControlRegistersReadAndWrite := by
  refine ⟨fun o s ci h row hrow => csrr_reads_rows h row hrow, fun o s ci h hpre => ?writes, fun a v => ⟨rfl, rfl, rfl, rfl, rfl⟩⟩
  exact csrwJob_plain.issue_acts h (fun l hl => if_pos ((csrWritable_iff _ _).2 (hpre l hl))) (eachLane_length _ _ _)

end Sys2Proof.Machine

namespace Sys2Proof.Machine

/-! # Where the words of a result go (R17, R20, R74, R75, R96) -/

/-- Write words to consecutive registers. -/
def Agent.setWords (a : Agent) (k : Nat) : List Word → Agent
  | [] => a
  | w :: ws => (a.setReg k w).setWords (k + 1) ws

section
variable (a : Agent) (k : Nat) (v : Word)

theorem word_setReg (j : Nat) : (a.setReg k v).word j = if j = k then v else a.word j := sparseGet_set _ _ _ _ _

theorem mem_wrote_setReg {j : Nat} (h : j ≠ k) : j ∈ (a.setReg k v).wrote ↔ j ∈ a.wrote := by
  unfold Agent.setReg
  simp only
  split
  · rfl
  · simp [h]

theorem sure_setReg_same : (a.setReg k v).sure k := by
  unfold Agent.sure Agent.setReg
  simp only
  split
  · rename_i h
    simp only [Bool.or_eq_true, decide_eq_true_eq, List.contains_iff_mem] at h
    exact or_assoc.1 h
  · exact .inr (.inr List.mem_cons_self)

theorem sure_setReg {j : Nat} (h : a.sure j) : (a.setReg k v).sure j := by
  by_cases hj : j = k
  · rw [hj]; exact sure_setReg_same a k v
  · exact h.imp id (Or.imp id (mem_wrote_setReg a k v hj).2)

end

theorem word_setWords (ws : List Word) : ∀ (a : Agent) (k j : Nat),
    (a.setWords k ws).word j = if h : k ≤ j ∧ j < k + ws.length then ws[j - k]'(by omega) else a.word j := by
  induction ws with
  | nil => intro a k j; simp only [Agent.setWords, List.length_nil]; rw [dif_neg (by omega)]
  | cons w ws ih =>
    intro a k j
    simp only [Agent.setWords, ih, word_setReg, List.length_cons]
    by_cases hj : j = k
    · subst hj
      rw [dif_neg (by omega), dif_pos (by omega)]; simp
    · by_cases hr : k + 1 ≤ j ∧ j < k + 1 + ws.length
      · rw [dif_pos hr, dif_pos (by omega)]
        simp [show j - k = (j - (k + 1)) + 1 by omega]
      · rw [dif_neg hr, dif_neg (by omega), if_neg hj]

theorem mem_wrote_setWords {j : Nat} (ws : List Word) : ∀ (a : Agent) (k : Nat), j < k ∨ k + ws.length ≤ j →
    (j ∈ (a.setWords k ws).wrote ↔ j ∈ a.wrote) := by
  induction ws with
  | nil => exact fun _ _ _ => Iff.rfl
  | cons w ws ih =>
    intro a k h
    rw [List.length_cons] at h
    exact (ih _ (k + 1) (by omega)).trans (mem_wrote_setReg a k w (by omega))

theorem sure_setWords_of_sure {j : Nat} (ws : List Word) : ∀ (a : Agent) (k : Nat), a.sure j → (a.setWords k ws).sure j := by
  induction ws with
  | nil => exact fun _ _ h => h
  | cons w ws ih => exact fun a k h => ih _ _ (sure_setReg a k w h)

theorem sure_setWords {j : Nat} (ws : List Word) : ∀ (a : Agent) (k : Nat), k ≤ j → j < k + ws.length → (a.setWords k ws).sure j := by
  induction ws with
  | nil => intro a k h1 h2; simp at h2; omega
  | cons w ws ih =>
    intro a k h1 h2
    rw [List.length_cons] at h2
    by_cases hj : j = k
    · rw [hj]; exact sure_setWords_of_sure ws _ _ (sure_setReg_same a k w)
    · exact ih _ (k + 1) (by omega) (by omega)

/-- A register that is sure to be found reads as its word. -/
theorem greg_of_sure {a : Agent} {k : Nat} (h : a.sure k) : a.greg k = a.word k := by
  have hk : a.keeps k = true := by
    unfold Agent.keeps
    rcases h with h | h | h <;> simp [h]
  unfold Agent.greg
  rw [if_pos hk]; rfl

/-- The first register word of a destination, and how many words a result has. -/
def firstWord (drover : Bool) (d : BitVec 10) : Nat := if drover then 2 * d.toNat else d.toNat
def wordCount (drover : Bool) (r : Res) : Nat := if drover then 2 else r.width / 32

/-- The words of a result. -/
def resultWords (drover : Bool) (r : Res) (v : QWord) : List Word := (List.range (wordCount drover r)).map (wordOfResult drover r v)

theorem dstWords_eq (drover : Bool) (d : BitVec 10) (r : Res) : dstWords drover d r =
    if 0x200 ≤ d.toNat then [] else (List.range (wordCount drover r)).map (firstWord drover d + ·) := by
  unfold dstWords wordCount firstWord
  cases drover <;> rfl

theorem setPair_eq (a : Agent) (k : Nat) (v : DWord) : a.setPair k v = a.setWords k [v.setWidth 32, (v >>> 32).setWidth 32] := rfl

theorem setQuad_eq (a : Agent) (k : Nat) (v : QWord) : a.setQuad k v =
    a.setWords k [(v.setWidth 64).setWidth 32, ((v.setWidth 64) >>> 32).setWidth 32, ((v >>> 64).setWidth 64).setWidth 32,
      (((v >>> 64).setWidth 64) >>> 32).setWidth 32] := rfl

theorem toSigned_eq_toInt (v : QWord) : toSigned 32 v.toNat = (v.setWidth 32).toInt := by
  rw [BitVec.toInt_eq_toNat_cond, BitVec.toNat_setWidth]; rfl

theorem ofNat_wrapTo (x : Int) : BitVec.ofNat 64 (wrapTo 64 x) = BitVec.ofInt 64 x := by
  apply BitVec.eq_of_toNat_eq
  rw [BitVec.toNat_ofNat, BitVec.toNat_ofInt, Nat.mod_eq_of_lt (by unfold wrapTo; omega)]; rfl

/-- A drover's register: a signed 32-bit result is extended with its sign, another with zeros. -/
theorem ofNat_extendResult (r : Res) (v : QWord) : BitVec.ofNat 64 (extendResult true r v) =
    if r = .s32 then (v.setWidth 32).signExtend 64 else (BitVec.ofNat 128 (v.toNat % 2 ^ r.width)).setWidth 64 := by
  unfold extendResult
  split
  · rename_i h
    rw [if_pos h.2, ofNat_wrapTo, toSigned_eq_toInt]; rfl
  · rename_i h
    rw [if_neg (by simpa using h)]
    apply BitVec.eq_of_toNat_eq
    simp

theorem highWord_signExtend (x : Word) : ((x.signExtend 64) >>> 32).setWidth 32 = if x.getLsbD 31 then BitVec.allOnes 32 else 0 := by
  refine BitVec.eq_of_getLsbD_eq fun i hi => ?_
  have e : (((x.signExtend 64) >>> 32).setWidth 32).getLsbD i = x.getLsbD 31 := by
    simp [BitVec.getElem_signExtend, hi, BitVec.msb_eq_getLsbD_last, show 32 + i < 64 by omega]
  rw [e]
  split
  · rename_i h; rw [h, BitVec.getLsbD_allOnes]; simpa using hi
  · rename_i h; rw [Bool.not_eq_true] at h; rw [h]; simp

/-- The words of a drover's result. -/
theorem words_extendResult (r : Res) (v : QWord) (hr : r ≠ .none) :
    (BitVec.ofNat 64 (extendResult true r v)).setWidth 32 = wordOfResult true r v 0 ∧
    ((BitVec.ofNat 64 (extendResult true r v)) >>> 32).setWidth 32 = wordOfResult true r v 1 := by
  rw [ofNat_extendResult]
  cases r with
  | none => exact absurd rfl hr
  | s32 =>
    refine ⟨?_, (highWord_signExtend _).trans ?_⟩
    · refine BitVec.eq_of_getLsbD_eq fun i hi => ?_
      simp [wordOfResult, BitVec.getElem_signExtend, hi, show i < 64 by omega, show i < 128 by omega]
    · simp [wordOfResult, Res.width]
  | w32 =>
    refine ⟨BitVec.eq_of_toNat_eq ?_, BitVec.eq_of_toNat_eq ?_⟩
    · simp [wordOfResult, Res.width]
    · simp [wordOfResult, Res.width]; omega
  | w64 =>
    refine ⟨BitVec.eq_of_toNat_eq ?_, BitVec.eq_of_toNat_eq ?_⟩
    · simp [wordOfResult, Res.width]
    · simp [wordOfResult, Res.width, Nat.shiftRight_eq_div_pow]; omega
  | w128 =>
    refine ⟨BitVec.eq_of_toNat_eq ?_, BitVec.eq_of_toNat_eq ?_⟩
    · simp [wordOfResult, Res.width]
    · simp [wordOfResult, Res.width, Nat.shiftRight_eq_div_pow]; omega
theorem writeDst_register {a : Agent} {d : BitVec 10} {r : Res} (v : QWord) (hd : d.toNat < 0x200) (hr : r ≠ .none) :
    a.writeDst d r v = a.setWords (firstWord a.drover d) (resultWords a.drover r v) := by
  unfold Agent.writeDst
  simp only [hd, if_true]
  by_cases hv : a.drover
  · obtain ⟨h0, h1⟩ := words_extendResult r v hr
    simp only [hv, if_true, setPair_eq, h0, h1]; rfl
  · rw [Bool.not_eq_true] at hv
    simp only [hv, Bool.false_eq_true, if_false, extendResult, false_and]
    have e (j : Nat) : wordOfResult false r v j = v.extractLsb' (32 * j) 32 := rfl
    cases r with
    | none => exact absurd rfl hr
    | w32 => exact congrArg (fun w => a.setReg d.toNat w) (BitVec.eq_of_toNat_eq (by simp [e, Res.width]))
    | s32 => exact congrArg (fun w => a.setReg d.toNat w) (BitVec.eq_of_toNat_eq (by simp [e, Res.width]))
    | w64 =>
      rw [setPair_eq]
      refine congrArg (fun l => a.setWords d.toNat l) (List.ext_getElem rfl fun j h1 h2 => BitVec.eq_of_toNat_eq ?_)
      rcases j with _ | _ | j
      · simp [resultWords, wordCount, e, Res.width]
      · simp [resultWords, wordCount, e, Res.width, Nat.shiftRight_eq_div_pow]; omega
      · simp at h1
    | w128 =>
      have ev : BitVec.ofNat 128 (v.toNat % 2 ^ Res.w128.width) = v := BitVec.eq_of_toNat_eq (by simpa [Res.width] using v.isLt)
      simp only [ev, setQuad_eq]
      refine congrArg (fun l => a.setWords d.toNat l) (List.ext_getElem rfl fun j h1 h2 => BitVec.eq_of_toNat_eq ?_)
      rcases j with _ | _ | _ | _ | j
      · simp [resultWords, wordCount, e, Res.width]
      · simp [resultWords, wordCount, e, Res.width, Nat.shiftRight_eq_div_pow]; omega
      · simp [resultWords, wordCount, e, Res.width, Nat.shiftRight_eq_div_pow]
      · simp [resultWords, wordCount, e, Res.width, Nat.shiftRight_eq_div_pow]; omega
      · exact absurd h1 (by simp)

/-- Nothing is written where the destination names a queue. -/
theorem writeDst_queue {a : Agent} {d : BitVec 10} (r : Res) (v : QWord) (hd : 0x200 ≤ d.toNat) : a.writeDst d r v = a := by
  unfold Agent.writeDst
  simp only
  rw [if_neg (by omega)]

/-- What a result does to the registers of its agent: its words take it, and are sure to be found; another is as it was. -/
theorem writeDst_words (a : Agent) (d : BitVec 10) {r : Res} (v : QWord) (hr : r ≠ .none) :
    (∀ k, k ∉ dstWords a.drover d r → (a.writeDst d r v).word k = a.word k ∧ (k ∈ (a.writeDst d r v).wrote ↔ k ∈ a.wrote)) ∧
    (∀ j k, (dstWords a.drover d r)[j]? = some k → (a.writeDst d r v).word k = wordOfResult a.drover r v j ∧ (a.writeDst d r v).sure k) := by
  rw [dstWords_eq]
  split
  · rename_i hd
    rw [writeDst_queue r v hd]
    simp
  · rename_i hd
    have hl : (resultWords a.drover r v).length = wordCount a.drover r := by simp [resultWords]
    rw [writeDst_register v (by omega) hr]
    refine ⟨fun k hk => ?_, fun j k hj => ?_⟩
    · have out : ¬(firstWord a.drover d ≤ k ∧ k < firstWord a.drover d + (resultWords a.drover r v).length) := by
        rw [hl]
        intro h
        exact hk (List.mem_map.2 ⟨k - firstWord a.drover d, List.mem_range.2 (by omega), by omega⟩)
      exact ⟨by rw [word_setWords, dif_neg out], mem_wrote_setWords _ _ _ (by omega)⟩
    · obtain ⟨hj, rfl⟩ : j < wordCount a.drover r ∧ firstWord a.drover d + j = k := by
        simpa [List.getElem?_map, Option.map_eq_some_iff, List.getElem?_range, List.getElem?_eq_some_iff] using hj
      refine ⟨?_, sure_setWords _ _ _ (by omega) (by omega)⟩
      rw [word_setWords, dif_pos (by omega)]
      simp [resultWords]

end Sys2Proof.Machine

namespace Sys2Proof.Machine

/-! # Where no error is latent, what the slices do reports nothing (R208, R384, R385) -/

/-- Where no error is latent and no array has a log, so it stays, and no context's counts and no event change. -/
structure State.ReportsNothing (s t : State) : Prop where
  keeps : s.latent = [] → s.logs = [] → t.latent = [] ∧ t.logs = [] ∧ t.contexts = s.contexts ∧ t.hub = s.hub

theorem State.ReportsNothing.refl (s : State) : s.ReportsNothing s := ⟨fun hl hg => ⟨hl, hg, rfl, rfl⟩⟩

theorem State.ReportsNothing.trans {s t u : State} (h : s.ReportsNothing t) (k : t.ReportsNothing u) : s.ReportsNothing u := by
  refine ⟨fun hl hg => ?_⟩
  obtain ⟨tl, tg, tc, th⟩ := h.keeps hl hg
  obtain ⟨ul, ug, uc, uh⟩ := k.keeps tl tg
  exact ⟨ul, ug, uc.trans tc, uh.trans th⟩

theorem State.ReportsNothing.reds (s : State) (l : List PendRed) : s.ReportsNothing { s with reds := l } :=
  ⟨fun hl hg => ⟨hl, hg, rfl, rfl⟩⟩

theorem State.ReportsNothing.pending (s : State) (l : List PendStore) : s.ReportsNothing { s with pending := l } :=
  ⟨fun hl hg => ⟨hl, hg, rfl, rfl⟩⟩

/-- What touches neither the errors nor the contexts and the events. -/
theorem State.ReportsNothing.of_eq {s t : State} (hl : t.latent = s.latent) (hg : t.logs = s.logs) (hc : t.contexts = s.contexts)
    (hh : t.hub = s.hub) : s.ReportsNothing t := ⟨fun el eg => ⟨hl.trans el, hg.trans eg, hc, hh⟩⟩

theorem State.ReportsNothing.foldl {β : Type} (f : State → β → State) (hf : ∀ (s : State) (x : β), s.ReportsNothing (f s x))
    (xs : List β) (s : State) : s.ReportsNothing (xs.foldl f s) := by
  induction xs generalizing s with
  | nil => exact State.ReportsNothing.refl s
  | cons x xs ih => exact (hf s x).trans (ih (f s x))

theorem put_reportsNothing (s : State) (ctx pa : Nat) (bs : List Byte) : s.ReportsNothing (s.put ctx pa bs) := by
  refine ⟨fun hl hg => ?_⟩
  have el : (s.poke ctx pa bs).latent = [] := hl
  have eg : (s.poke ctx pa bs).logs = [] := hg
  unfold State.put
  simp only [el, eg, List.filter_nil, List.isEmpty_nil, if_true]
  exact ⟨trivial, trivial, rfl, rfl⟩

theorem meetWrite_reportsNothing (s : State) (ctx pa n : Nat) : s.ReportsNothing (s.meetWrite ctx pa n) := by
  refine ⟨fun hl hg => ?_⟩
  unfold State.meetWrite
  rw [hl, List.isEmpty_nil, if_pos rfl]
  exact ⟨hl, hg, rfl, rfl⟩

theorem applyReds_reportsNothing (s : State) (pa n : Nat) : s.ReportsNothing (s.applyReds pa n) := by
  unfold State.applyReds
  simp only
  split
  · exact .refl s
  · exact ((State.ReportsNothing.reds s _).trans (meetWrite_reportsNothing _ _ _ _)).trans
      (put_reportsNothing _ _ _ _)

theorem settleReds_reportsNothing (s : State) (pa n : Nat) : s.ReportsNothing (s.settleReds pa n) := by
  unfold State.settleReds
  split
  · exact .refl s
  · exact .foldl _ (fun t _ => applyReds_reportsNothing t _ _) _ _

theorem writePa_reportsNothing (s : State) (ctx pa : Nat) (bs : List Byte) : s.ReportsNothing (s.writePa ctx pa bs) :=
  ((settleReds_reportsNothing s _ _).trans (meetWrite_reportsNothing _ _ _ _)).trans (put_reportsNothing _ _ _ _)

theorem writeRmw_reportsNothing (s : State) (ctx pa : Nat) (bs : List Byte) : s.ReportsNothing (s.writeRmw ctx pa bs) :=
  (writePa_reportsNothing s ctx pa bs).trans (.of_eq rfl rfl rfl rfl)

theorem meetPa_reportsNothing (s : State) (ctx : Option Nat) (pa n : Nat) : s.ReportsNothing (s.meetPa ctx pa n) := by
  refine ⟨fun hl hg => ?_⟩
  have h := (settleReds_reportsNothing s (s.localPa pa) n).keeps hl hg
  unfold State.meetPa
  simp only
  rw [h.1, List.isEmpty_nil, if_pos rfl]
  exact h

theorem atomAt_reportsNothing (s : State) (ctx pa : Nat) (op : AtomOp) (v : Nat) : s.ReportsNothing (s.atomAt ctx pa op v).1 := by
  unfold State.atomAt
  simp only
  have h := (meetPa_reportsNothing s (some ctx) pa op.bytes).trans
    (State.ReportsNothing.of_eq (t := (s.meetPa (some ctx) pa op.bytes).closeMerges (s.localPa pa) op.bytes) rfl rfl rfl rfl)
  split
  · exact h.trans (writeRmw_reportsNothing _ _ _ _)
  · exact h

theorem halfAt_reportsNothing (s : State) (ctx pa : Nat) (isBf : Bool) (v : BitVec 16) : s.ReportsNothing (s.halfAt ctx pa isBf v).1 :=
  (meetPa_reportsNothing s _ _ _).trans (writeRmw_reportsNothing _ _ _ _)

theorem acceptHalf_reportsNothing (s : State) (ctx pa : Nat) (isBf : Bool) (v : BitVec 16) :
    s.ReportsNothing (s.acceptHalf ctx pa isBf v) := by
  unfold State.acceptHalf
  simp only
  split
  · exact (settleReds_reportsNothing s _ _).trans (.of_eq rfl rfl rfl rfl)
  · exact .of_eq rfl rfl rfl rfl

theorem perform_reportsNothing (s : State) (p : PendStore) : s.ReportsNothing (s.perform p) := by
  unfold State.perform
  split
  · exact .foldl _ (fun t _ => writePa_reportsNothing t _ _ _) _ _
  · exact .foldl _ (fun t _ => atomAt_reportsNothing t _ _ _ _) _ _
  · refine .foldl _ (fun t _ => ?_) _ _
    unfold State.halfRed
    split
    · exact halfAt_reportsNothing _ _ _ _ _
    · exact acceptHalf_reportsNothing _ _ _ _ _

theorem performWhere_reportsNothing (s : State) (f : PendStore → Bool) : s.ReportsNothing (s.performWhere f) :=
  (State.ReportsNothing.pending s _).trans (.foldl _ perform_reportsNothing _ _)

theorem pushResults_reportsNothing (t : State) (core : Nat) (g : Sig) (f : Fields) (rs : List (Lane × LaneRes)) :
    t.ReportsNothing (t.pushResults core g f rs) := by
  unfold State.pushResults
  split
  · exact .refl t
  · exact .refl t
  · refine .foldl _ (fun u x => ?_) _ _
    split
    · exact (performWhere_reportsNothing u _).trans (.of_eq rfl rfl rfl rfl)
    · exact .refl u

theorem takeTokens_reportsNothing (t : State) (core : Nat) (pops : List (Nat × Nat)) (n : Nat) (stay : Nat → Bool) :
    t.ReportsNothing (t.takeTokens core pops n stay) := by
  rw [takeTokens_frame]; exact .of_eq rfl rfl rfl rfl

theorem commitLanes_reportsNothing (t : State) (g : Sig) (f : Fields) (rs : List (Lane × LaneRes)) :
    t.ReportsNothing (t.commitLanes g f rs) := by
  rw [commitLanes_frame]; exact .of_eq rfl rfl rfl rfl

/-- Completing the lanes posts no event and counts no error. -/
theorem completed_reportsNothing (s w : State) (ci : Nat) (g : Sig) (f : Fields) (rs : List (Lane × LaneRes)) :
    w.ReportsNothing (s.completed w ci g f rs) :=
  ((takeTokens_reportsNothing w _ _ _ _).trans (commitLanes_reportsNothing _ _ _ _)).trans (pushResults_reportsNothing _ _ _ _ _)

theorem atWork_reportsNothing (s : State) (ci : Nat) (g : Sig) (f : Fields) : s.ReportsNothing (s.atWork ci g f) := by
  rw [atWork_frame]; exact .of_eq rfl rfl rfl rfl

end Sys2Proof.Machine

namespace Sys2Proof.Machine

/-! # What a completed instruction leaves of its agents (R20, R24, R218, R290) -/

theorem writeDst_latches (a : Agent) (d : BitVec 10) (r : Res) (v : QWord) : (a.writeDst d r v).latches = a.latches := by
  unfold Agent.writeDst
  simp only
  split
  · split
    · rfl
    · cases r <;> rfl
  · rfl

theorem resOf_ne_none {g : Sig} (h : g.dst ≠ .none) (r : LaneRes) : g.resOf r ≠ .none := by
  unfold Sig.resOf
  split
  · decide
  · exact h

section
variable (want : Bool) (g : Sig) (f : Fields) (r : LaneRes) (fl : Flags) (a : Agent)

theorem commitAgent_onlyResult (ws : List (BitVec 10 × Res × QWord)) : onlyResult a (commitAgent want ws fl a) := by
  unfold onlyResult
  rw [commitAgent_frame]

theorem commitAgent_latches : (commitAgent want (g.writes f r) fl a).latches =
    if g.dst = .none then a.latches else some (resultLatch a (g.resOf r) r.val (a.issued + 1)) :: a.latches.take 3 := by
  unfold Sig.writes
  split
  · rfl
  · exact congrArg (fun l => some (resultLatch a (g.resOf r) r.val (a.issued + 1)) :: l.take 3) (writeDst_latches a _ _ _)

theorem commitAgent_words :
    let b := commitAgent want (g.writes f r) fl a
    let ws := if g.dst = .none then [] else dstWords a.drover f.dst (g.resOf r)
    (∀ k, k ∉ ws → b.word k = a.word k ∧ (k ∈ b.wrote ↔ k ∈ a.wrote)) ∧
    (∀ j k, ws[j]? = some k → b.word k = wordOfResult a.drover (g.resOf r) r.val j ∧ b.sure k ∧ b.greg k = b.word k) := by
  intro b ws
  by_cases h : g.dst = .none
  · simp [ws, b, Sig.writes, h, commitAgent, Agent.word]
  · have hb : b.regs = (a.writeDst f.dst (g.resOf r) r.val).regs ∧ b.wrote = (a.writeDst f.dst (g.resOf r) r.val).wrote ∧
        b.live = (a.writeDst f.dst (g.resOf r) r.val).live ∧ b.trapMode = (a.writeDst f.dst (g.resOf r) r.val).trapMode := by
      simp only [b, Sig.writes, if_neg h]
      exact ⟨rfl, rfl, rfl, rfl⟩
    obtain ⟨hregs, hwrote, hlive, htrap⟩ := hb
    have hword : ∀ k, b.word k = (a.writeDst f.dst (g.resOf r) r.val).word k := fun k => by unfold Agent.word; rw [hregs]
    obtain ⟨hout, hin⟩ := writeDst_words a f.dst r.val (resOf_ne_none h r)
    simp only [ws, if_neg h]
    refine ⟨fun k hk => ?_, fun j k hj => ?_⟩
    · rw [hword, hwrote]; exact hout k hk
    · obtain ⟨hv, hs⟩ := hin j k hj
      have hs : b.sure k := by unfold Agent.sure at hs ⊢; rwa [hwrote, hlive, htrap]
      exact ⟨(hword k).trans hv, hs, greg_of_sure hs⟩


/-- All that a result does to its agent. -/
theorem commitAgent_lands (v : List AdvEntry) :
    let b := commitAgent want (g.writes f r) r.flags { a with adv := v }
    let ws := if g.dst = .none then [] else dstWords a.drover f.dst (g.resOf r)
    onlyResult { a with adv := b.adv } b ∧ b.adv = v ∧ b.issued = a.issued + 1 ∧
    b.fpstat = (if want = true ∧ a.drover = false then a.fpstat ||| r.flags else a.fpstat) ∧
    b.latches = (if g.dst = .none then a.latches else some (resultLatch a (g.resOf r) r.val (a.issued + 1)) :: a.latches.take 3) ∧
    (∀ k, k ∉ ws → b.word k = a.word k ∧ (k ∈ b.wrote ↔ k ∈ a.wrote)) ∧
    (∀ j k, ws[j]? = some k → b.word k = wordOfResult a.drover (g.resOf r) r.val j ∧ b.sure k ∧ b.greg k = b.word k) := by
  intro b ws
  have hf := commitAgent_frame want (g.writes f r) r.flags { a with adv := v }
  have hadv : b.adv = v := by rw [show b = _ from hf]
  refine ⟨?_, hadv, by rw [show b = _ from hf], ?_, commitAgent_latches want g f r r.flags { a with adv := v },
    commitAgent_words want g f r r.flags { a with adv := v }⟩
  · rw [hadv]; exact commitAgent_onlyResult want r.flags { a with adv := v } _
  · rw [show b = _ from hf]
    simp only [Bool.and_eq_true, Bool.not_eq_true', accumFlags]

end

theorem emptyAdv_agents_length (is : List Nat) : ∀ t : State, (is.foldl State.emptyAdv t).agents.length = t.agents.length := by
  induction is with
  | nil => intro t; rfl
  | cons i is ih => intro t; rw [List.foldl_cons, ih]; exact updAt_length _ _ _

theorem emptyAdv_adv (is : List Nat) (i : Nat) : ∀ t : State, i < t.agents.length →
    ((is.foldl State.emptyAdv t).agent i).adv = if i ∈ is then [] else (t.agent i).adv := by
  induction is with
  | nil => intro t _; rfl
  | cons j is ih =>
    intro t ht
    have e : (t.emptyAdv j).agents.length = t.agents.length := updAt_length _ _ _
    rw [List.foldl_cons, ih _ (e.symm ▸ ht)]
    unfold State.emptyAdv
    by_cases hj : j = i
    · subst hj; rw [agent_updAgent_same _ _ ht]; simp
    · rw [agent_updAgent_other _ _ hj]; simp [Ne.symm hj]

section
variable {s : State} {ci : Nat} {g : Sig} {f : Fields}

theorem lane_wants_iff {l : Lane} (h : l ∈ s.lanes ci g f) : l.want = true ↔ l.agent ∈ (s.wanting ci).map (·.agent) := by
  rw [← lanes_wanting s ci g f]
  refine ⟨fun hw => List.mem_map_of_mem (f := fun z : Lane => z.agent) (List.mem_filter.2 ⟨h, hw⟩), fun hm => ?_⟩
  obtain ⟨y, hy, e⟩ := List.mem_map.1 hm
  obtain ⟨hy, hw⟩ := List.mem_filter.1 hy
  rwa [← List.inj_on_of_nodup_map (lanes_nodup s ci g f) hy h e]

theorem lane_exists (h : Ready s ci g f) {l : Lane} (hl : l ∈ s.lanes ci g f) : l.agent < s.agents.length := by
  obtain ⟨m, hm, e⟩ := lane_member hl
  rw [← e]
  exact h.exist m (laneMembers_subset hm)

theorem atWork_agents_length : (s.atWork ci g f).agents.length = s.agents.length := by
  unfold State.atWork
  split
  · rfl
  · exact emptyAdv_agents_length _ _

/-- What work finds of a lane's advance-load table: nothing, where it takes a token. -/
theorem atWork_adv (h : Ready s ci g f) {l : Lane} (hl : l ∈ s.lanes ci g f) : ((s.atWork ci g f).agent l.agent).adv =
    if l.want = true ∧ g.pops f (s.wanting ci).length ≠ [] then [] else (s.agent l.agent).adv := by
  unfold State.atWork
  by_cases hp : g.pops f (s.wanting ci).length = []
  · simp [hp]; rfl
  · rw [if_neg (by simpa using hp), emptyAdv_adv _ _ (s.atIssue ci) (lane_exists h hl)]
    simp only [← lane_wants_iff hl, hp, ne_eq, not_false_eq_true, and_true]
    rfl

theorem atWork_other {i : Nat} (h : i ∉ (s.lanes ci g f).map (·.agent)) : (s.atWork ci g f).agent i = s.agent i := by
  have key : ∀ (is : List Nat) (t : State), i ∉ is → (is.foldl State.emptyAdv t).agent i = t.agent i := by
    intro is
    induction is with
    | nil => exact fun _ _ => rfl
    | cons j is ih =>
      intro t hi
      rw [List.mem_cons, not_or] at hi
      rw [List.foldl_cons, ih _ hi.2]
      exact agent_updAgent_other _ _ (Ne.symm hi.1)
  unfold State.atWork
  split
  · rfl
  · refine key _ _ fun hi => h ?_
    rw [← lanes_wanting s ci g f] at hi
    exact ((List.filter_sublist).map _).subset hi

/-- What work finds of a lane's agent. -/
theorem atWork_lane (h : Ready s ci g f) {l : Lane} (hl : l ∈ s.lanes ci g f) : (s.atWork ci g f).agent l.agent =
    { s.agent l.agent with adv := if l.want = true ∧ g.pops f (s.wanting ci).length ≠ [] then [] else (s.agent l.agent).adv } := by
  obtain ⟨a, e⟩ := atWork_agent s ci g f l.agent
  rw [e, ← atWork_adv h hl, e]

end

/-! # What it leaves of the cores and their queues -/

/-- Two states whose cores differ at most in the tokens of some queues of one core. -/
structure State.QueuesOnly (core : Nat) (Q : Nat → Prop) (s t : State) : Prop where
  other : ∀ c, c ≠ core → t.core c = s.core c
  cycle : (t.core core).cycle = (s.core core).cycle
  tokens : ∀ q, ¬Q q → t.tokens core q = s.tokens core q

section
variable {core : Nat} {Q : Nat → Prop}

theorem State.QueuesOnly.of_cores {s t : State} (h : t.cores = s.cores) : s.QueuesOnly core Q t := by
  have e (c : Nat) : t.core c = s.core c := by unfold State.core; rw [h]
  exact ⟨fun c _ => e c, by rw [e], fun q _ => by unfold State.tokens; rw [e]⟩

theorem State.QueuesOnly.trans {s t u : State} (h : s.QueuesOnly core Q t) (k : t.QueuesOnly core Q u) : s.QueuesOnly core Q u :=
  ⟨fun c hc => (k.other c hc).trans (h.other c hc), k.cycle.trans h.cycle, fun q hq => (k.tokens q hq).trans (h.tokens q hq)⟩

theorem State.QueuesOnly.foldl {β : Type} (f : State → β → State) (xs : List β)
    (hf : ∀ x ∈ xs, ∀ s : State, s.QueuesOnly core Q (f s x)) :
    ∀ s : State, s.QueuesOnly core Q (xs.foldl f s) := by
  induction xs with
  | nil => exact fun s => .of_cores rfl
  | cons x xs ih =>
    exact fun s => (hf x List.mem_cons_self s).trans (ih (fun y hy => hf y (List.mem_cons_of_mem x hy)) (f s x))

theorem updTokens_queuesOnly (s : State) {q : Nat} (hq : Q q) (f : List DWord → List DWord) :
    s.QueuesOnly core Q (s.updTokens core q f) := by
  refine ⟨fun c hc => core_updCore_other _ _ (Ne.symm hc), ?_, fun p hp => ?_⟩
  · simp only [State.updTokens, core_updCore]; split <;> rfl
  · have hne : q ≠ p := fun e => hp (e ▸ hq)
    simp only [State.tokens, State.updTokens, core_updCore]
    split
    · simp only [getD_updAt_other _ _ _ hne]
    · rfl

theorem takeTokens_queuesOnly (s : State) {pops : List (Nat × Nat)} (h : ∀ x ∈ pops, Q x.1) (n : Nat) (stay : Nat → Bool) :
    s.QueuesOnly core Q (s.takeTokens core pops n stay) :=
  .foldl _ _ (fun x hx t => updTokens_queuesOnly t (h x hx) _) s

theorem commitLanes_queuesOnly (s : State) (g : Sig) (f : Fields) (rs : List (Lane × LaneRes)) :
    s.QueuesOnly core Q (s.commitLanes g f rs) := by
  rw [commitLanes_frame]; exact .of_cores rfl

theorem pushResults_queuesOnly (s : State) {g : Sig} {f : Fields} (h : ∀ q, g.dst ≠ .none → queueField f.dst = some q → Q q)
    (rs : List (Lane × LaneRes)) : s.QueuesOnly core Q (s.pushResults core g f rs) := by
  unfold State.pushResults
  split
  · exact .of_cores rfl
  · exact .of_cores rfl
  · rename_i q hq hd
    refine .foldl _ _ (fun x _ t => ?_) s
    split
    · exact (State.QueuesOnly.of_cores (performWhere_cores t _)).trans (updTokens_queuesOnly _ (h q hd hq) _)
    · exact .of_cores rfl

end

/-- Completing the lanes changes the tokens of the queues its operands name, and nothing else of any core. -/
theorem completed_queuesOnly (s w : State) (ci : Nat) (g : Sig) (f : Fields) (rs : List (Lane × LaneRes)) :
    w.QueuesOnly (s.caravan ci).core
      (fun q => (∃ x ∈ g.pops f (s.wanting ci).length, x.1 = q) ∨ (g.dst ≠ .none ∧ queueField f.dst = some q))
      (s.completed w ci g f rs) :=
  (takeTokens_queuesOnly w (fun x hx => .inl ⟨x, hx, rfl⟩) _ _).trans ((commitLanes_queuesOnly _ g f rs).trans
    (pushResults_queuesOnly _ (fun _ hd hq => .inr ⟨hd, hq⟩) rs))

section
variable (s : State) (ci : Nat) (g : Sig) (f : Fields)

theorem atWork_core (c : Nat) : (s.atWork ci g f).core c = (s.tick (s.caravan ci).core 1).core c := by
  rw [atWork_frame]; rfl

theorem atWork_core_other {c : Nat} (h : c ≠ (s.caravan ci).core) : (s.atWork ci g f).core c = s.core c := by
  rw [atWork_core]; exact core_updCore_other _ _ (Ne.symm h)

theorem atWork_cycle (h : (s.caravan ci).core < s.cores.length) :
    ((s.atWork ci g f).core (s.caravan ci).core).cycle = (s.core (s.caravan ci).core).cycle + 1 := by
  rw [atWork_core]; unfold State.tick; rw [core_updCore_same _ _ h]; rfl

theorem atWork_tokens (c q : Nat) : (s.atWork ci g f).tokens c q = s.tokens c q := by
  have e : (s.atWork ci g f).tokens c q = (s.begin ci).tokens c q := by rw [atWork_frame]; rfl
  rw [e, tokens_begin]

theorem atWork_caravan_other {c : Nat} (h : c ≠ ci) : (s.atWork ci g f).caravan c = s.caravan c := by
  have e : (s.atWork ci g f).caravan c = (s.begin ci).caravan c := by rw [atWork_frame]; rfl
  rw [e]; exact caravan_updCaravan_other _ _ (Ne.symm h)

end

/-! # What it leaves of the whole machine -/

section
variable (s : State) (ci : Nat) (g : Sig) (f : Fields) (rs : List (Lane × LaneRes))

theorem framesFromIssue (s u w : State) (cs : List Caravan) (ks : List Core)
    (h0 : u = { s with agents := u.agents, caravans := cs, cores := ks })
    (h : ({ u with agents := w.agents, cores := w.cores, pending := w.pending } : State).SlicesOnly w) :
    ({ s with agents := w.agents, caravans := w.caravans, cores := w.cores, pending := w.pending } : State).SlicesOnly w := by
  have hc : w.caravans = cs := by rw [h.caravans, h0]
  constructor
  have e := h.eq
  rw [h0] at e
  rw [hc]
  exact e

theorem completed_slices :
    let w := s.completed (s.atWork ci g f) ci g f rs
    ({ s with agents := w.agents, caravans := w.caravans, cores := w.cores, pending := w.pending } : State).SlicesOnly w :=
  framesFromIssue s (s.atWork ci g f) _ (s.begin ci).caravans (s.begin ci).cores (atWork_frame s ci g f)
    (completed_frame s (s.atWork ci g f) ci g f rs)

theorem framesUnpushed (s u t w : State) (cs : List Caravan) (ks : List Core)
    (h0 : u = { s with agents := u.agents, caravans := cs, cores := ks }) (h1 : t = { u with cores := t.cores })
    (h2 : w = { t with agents := w.agents }) : w = { s with agents := w.agents, caravans := w.caravans, cores := w.cores } := by
  have hc : w.caravans = cs := by rw [h2, h1, h0]
  have hk : w.cores = t.cores := by rw [h2]
  rw [h1, h0] at h2
  rw [hc, hk]
  exact h2

/-- Where the result goes to no queue, no slice works. -/
theorem completed_unpushed (h : g.dst = .none ∨ queueField f.dst = none) :
    let w := s.completed (s.atWork ci g f) ci g f rs
    w = { s with agents := w.agents, caravans := w.caravans, cores := w.cores } := by
  intro w
  have hw : w = ((s.atWork ci g f).takeTokens (s.caravan ci).core (g.pops f (s.wanting ci).length) (s.wanting ci).length fun _ => false).commitLanes
      g f rs := pushResults_none _ _ rs h
  exact framesUnpushed s (s.atWork ci g f) _ w (s.begin ci).caravans (s.begin ci).cores (atWork_frame s ci g f)
    (takeTokens_frame _ _ _ _ _) (by rw [hw]; exact commitLanes_frame _ _ _ _)

end

/-- A caravan with members is one of the machine's. -/
theorem caravan_lt_of_members {s : State} {ci : Nat} (h : (s.caravan ci).members ≠ []) : ci < s.caravans.length := by
  by_contra hn
  refine h ?_
  unfold State.caravan
  rw [List.getD_eq_getElem?_getD, List.getElem?_eq_none (by omega)]
  rfl

/-- Going on inside a block, the program counter steps over the instruction. -/
theorem advance_inside {t : State} {ci size : Nat} (hci : ci < t.caravans.length)
    (h : (t.caravan ci).pc + BitVec.ofNat 32 size ≠ blockEnd (t.caravan ci).hdr (t.caravan ci).len) :
    t.advance ci size = { t with caravans := (t.advance ci size).caravans } ∧
    (∀ c, c ≠ ci → (t.advance ci size).caravan c = t.caravan c) ∧
    (t.advance ci size).caravan ci = { t.caravan ci with
      pc := (t.caravan ci).pc + BitVec.ofNat 32 size, since := ((t.advance ci size).caravan ci).since, aged := false } := by
  unfold State.advance
  simp only [h, if_false]
  refine ⟨rfl, fun c hc => caravan_updCaravan_other _ _ (Ne.symm hc), ?_⟩
  rw [caravan_updCaravan_same _ _ hci]

theorem advance_end {t : State} {ci size : Nat}
    (h : (t.caravan ci).pc + BitVec.ofNat 32 size = blockEnd (t.caravan ci).hdr (t.caravan ci).len) :
    t.advance ci size = t.leaveBlock ci (((t.caravan ci).members.filter (·.want)).map fun m =>
      (m.agent, .to (fallHeader (t.caravan ci).hdr (t.caravan ci).len))) := by
  unfold State.advance
  simp only [h, if_true]

/-! # The claim -/

section
variable {s : State} {ci : Nat} {g : Sig} {f : Fields}

/-- Going on after the lanes have completed, inside the block and at its end. -/
theorem completed_advance (h : s.wanting ci ≠ []) (rs : List (Lane × LaneRes)) :
    let w := s.completed (s.atWork ci g f) ci g f rs
    let t := w.advance ci f.size
    (Inside s ci f → t = { w with caravans := t.caravans } ∧ (∀ c, c ≠ ci → t.caravan c = s.caravan c) ∧
      t.caravan ci = { s.caravan ci with pc := (s.caravan ci).pc + BitVec.ofNat 32 f.size, since := (t.caravan ci).since, aged := false }) ∧
    (¬Inside s ci f → t = w.leaveBlock ci (((s.caravan ci).members.filter (·.want)).map fun m =>
      (m.agent, .to (fallHeader (s.caravan ci).hdr (s.caravan ci).len)))) := by
  intro w t
  obtain ⟨n, a, hk⟩ := atWork_caravan s ci g f ci
  have hw : w.caravan ci = { s.caravan ci with since := n, aged := a } := (completed_caravan s _ ci g f rs ci).trans hk
  have hother (c : Nat) (hc : c ≠ ci) : w.caravan c = s.caravan c := (completed_caravan s _ ci g f rs c).trans (atWork_caravan_other s ci g f hc)
  have hlt : ci < w.caravans.length := caravan_lt_of_members (by rw [hw]; exact members_ne_nil h)
  refine ⟨fun hin => ?_, fun hin => ?_⟩
  · obtain ⟨ht, hoth, hci⟩ := advance_inside (t := w) (size := f.size) hlt (by rw [hw]; exact hin)
    refine ⟨ht, fun c hc => (hoth c hc).trans (hother c hc), hci.trans ?_⟩
    rw [hw]
  · have e := advance_end (t := w) (ci := ci) (size := f.size) (by rw [hw]; exact not_not.1 hin)
    rw [hw] at e
    exact e

theorem zip_agents {ls : List Lane} {rs : List LaneRes} (h : rs.length = ls.length) :
    (ls.zip rs).map (·.1.agent) = ls.map (·.agent) := by
  rw [← List.map_fst_zip (l₁ := ls) (l₂ := rs) h.ge, List.map_map, List.map_fst_zip h.ge]
  rfl

/-- What each lane's agent has after its result. -/
theorem completed_agent (h : Ready s ci g f) {rs : List LaneRes} (hlate : ∀ r ∈ rs, r.late = false) {x : Lane × LaneRes}
    (hx : x ∈ (s.lanes ci g f).zip rs) (hlen : rs.length = (s.lanes ci g f).length) :
    (s.completed (s.atWork ci g f) ci g f ((s.lanes ci g f).zip rs)).agent x.1.agent =
      commitAgent x.1.want (g.writes f x.2) x.2.flags { s.agent x.1.agent with
        adv := if x.1.want = true ∧ g.pops f (s.wanting ci).length ≠ [] then [] else (s.agent x.1.agent).adv } := by
  obtain ⟨hl, hr⟩ := List.of_mem_zip (a := x.1) (b := x.2) hx
  have hd : (((s.lanes ci g f).zip rs).map (·.1.agent)).Nodup := by
    rw [zip_agents hlen]; exact lanes_nodup s ci g f
  rw [completed_lane s _ ci g f _ hd hx (by rw [atWork_agents_length]; exact lane_exists h hl), hlate _ hr, atWork_lane h hl]
  rfl

end

/-- Settles O52: each lane's agent by what a result writes (`commitAgent`), the queues by `QueuesOnly`, the rest of the machine by
what takes no part in a result. -/
theorem resultsReachOnlyTheirDestination : Obligations.ResultsReachOnlyTheirDestination := by
  unfold Obligations.ResultsReachOnlyTheirDestination
  intro s ci g f fn h hlen hlate t w
  have hq := completed_queuesOnly s (s.atWork ci g f) ci g f ((s.lanes ci g f).zip (fn (s.lanes ci g f)))
  obtain ⟨hinside, hend⟩ := completed_advance (g := g) (f := f) h.wants ((s.lanes ci g f).zip (fn (s.lanes ci g f)))
  refine ⟨fun i hi => ?_, fun x hx => ?_, fun c hc => ?_, fun c hc => ?_, fun hc => ?_, fun q hpop hpush => ?_, fun hd => ?_, fun hquiet => ?_,
    completed_slices s ci g f _, hinside, hend⟩
  · exact (completed_other s _ ci g f _ (by rw [zip_agents hlen]; exact hi)).trans (atWork_other hi)
  · have e : w.agent x.1.agent = _ := completed_agent h hlate hx hlen
    rw [e]
    exact commitAgent_lands _ g f x.2 _ _
  · exact (completed_caravan s _ ci g f _ c).trans (atWork_caravan_other s ci g f hc)
  · exact (hq.other c hc).trans (atWork_core_other s ci g f hc)
  · rw [hq.cycle, atWork_cycle s ci g f hc]
  · rw [hq.tokens q, atWork_tokens]
    rintro (⟨x, hx, e⟩ | ⟨hd, e⟩)
    · exact hpop x hx e
    · exact hpush.elim hd (fun hne => hne e)
  · have e := completed_unpushed s ci g f ((s.lanes ci g f).zip (fn (s.lanes ci g f))) hd
    refine ⟨fun x => ?_, e⟩
    rw [show w = _ from e]; rfl
  · obtain ⟨hl, -, hg⟩ := hquiet
    obtain ⟨-, -, hc, hh⟩ := ((atWork_reportsNothing s ci g f).trans (completed_reportsNothing s _ ci g f
      ((s.lanes ci g f).zip (fn (s.lanes ci g f))))).keeps hl hg
    exact ⟨hc, hh⟩

end Sys2Proof.Machine

namespace Sys2Proof.Machine

/-! # What completing a wait keeps: places, TLBs, requests to peers; no access becomes pending -/

/-- Any agent may change. -/
def anyAgent : Nat → Prop := fun _ => True

section
variable {s : State}

theorem ownsQuadOf_any (i : Nat) : OwnsQuadOf anyAgent s i := ⟨trivial, fun _ _ _ _ => trivial⟩
theorem owns_any (b q : Nat) : Owns anyAgent b q s := fun _ _ _ => trivial

theorem keeps_enter {P : Nat → Prop} {i : Nat} (ho : OwnsQuadOf P s i) (h fromHdr : Word) : Keeps P s (s.enter i h fromHdr) := by
  unfold State.enter
  split
  · exact keeps_takeTrap ho _ _
  · exact keeps_arrive ho _

theorem keeps_exitAgent_any (i : Nat) : Keeps anyAgent s (s.exitAgent i) := by
  have h : Keeps anyAgent s (s.endAgent i) := keeps_endAgent (ownsQuadOf_any i)
  unfold State.exitAgent
  simp only
  split
  · exact h.trans (keeps_resumeQuad (owns_any _ _) _)
  · exact h

theorem keeps_leavePlain (c : Caravan) (ls : List (Nat × Leave)) : Keeps anyAgent s (s.leavePlain c ls) := by
  have hgo (t : State) : Keeps anyAgent t (ls.foldl (fun t x => match x.2 with
      | .to h => t.enter x.1 h c.hdr
      | .exit => t.exitAgent x.1) (ls.foldl (fun t x => t.updAgent x.1 fun a => { a with stand := .entering }) t)) := by
    refine Keeps.trans (t := ls.foldl (fun t x => t.updAgent x.1 fun a => { a with stand := .entering }) t) ?_ ?_
    · exact .foldl fun u _ x _ => keeps_updAgent trivial fun _ => ⟨rfl, rfl, rfl⟩
    · refine .foldl fun u _ x _ => ?_
      split
      · exact keeps_enter (ownsQuadOf_any _) _ _
      · exact keeps_exitAgent_any _
  unfold State.leavePlain
  simp only
  split
  · exact hgo s
  · split
    · exact (keeps_openRecord _ _ _ _ _).trans (hgo _)
    · exact .foldl fun u _ x _ => keeps_takeTrap (ownsQuadOf_any _) _ _

theorem keeps_leaveQuads (c : Caravan) (ls : List (Nat × Leave)) : Keeps anyAgent s (s.leaveQuads c ls) := by
  have hhold (b : Nat → Bool) (t : State) : Keeps anyAgent t (c.members.foldl (fun t m => t.updAgent m.agent fun a =>
      if b a.quadNo && a.stand = .locked then { a with stand := .quadTrap m.want false, hdr := c.hdr } else a) t) :=
    .foldl fun u _ m _ => keeps_updAgent trivial fun a => by split <;> exact ⟨rfl, rfl, rfl⟩
  unfold State.leaveQuads
  simp only
  set s1 := c.members.foldl (fun t m => t.updAgent m.agent fun a =>
    { a with latches := emptyLatches, issued := 0, since := (s.core c.core).cycle.toNat
             stand := if a.stand = .discarded then .discarded else .locked }) s with hs1
  set s2 := ls.foldl (fun t x => match x.2 with
    | .to h => t.updAgent x.1 fun a => { a with pc := h }
    | .exit => t.updAgent x.1 fun a => { a with stand := .discarded }) s1 with hs2
  have h1 : Keeps anyAgent s s1 := .foldl fun u _ m _ => keeps_updAgent trivial fun _ => ⟨rfl, rfl, rfl⟩
  have h2 : Keeps anyAgent s s2 := h1.trans (.foldl fun u _ x _ => by
    split <;> exact keeps_updAgent trivial fun _ => ⟨rfl, rfl, rfl⟩)
  have hgo (t : State) {bad : List (Nat × Word × FaultCode)} {qs : List Nat} {p : Nat} {b : Nat → Bool} :
      Keeps anyAgent t (qs.foldl (fun t q => t.settleQuad c.block p q) (bad.foldl (fun t x => t.takeTrap x.1 { code := x.2.2 }
        { pc := x.2.1, hdr := c.hdr, nxt := x.2.1, entry := true, quad := true }) (c.members.foldl (fun t m => t.updAgent m.agent fun a =>
          if b a.quadNo && a.stand = .locked then { a with stand := .quadTrap m.want false, hdr := c.hdr } else a) t))) :=
    ((hhold b t).trans (.foldl fun u _ x _ => keeps_takeTrap (ownsQuadOf_any _) _ _)).trans
      (.foldl fun u _ q _ => keeps_settleQuad (owns_any _ _) _)
  split
  · exact h2.trans (hgo s2)
  · split
    · exact (h2.trans (keeps_openRecord _ _ _ _ _)).trans (hgo _)
    · exact h2.trans ((hhold (fun _ => true) s2).trans (.foldl fun u _ x _ => keeps_takeTrap (ownsQuadOf_any _) _ _))

theorem keeps_leaveBlock (ci : Nat) (ls : List (Nat × Leave)) : Keeps anyAgent s (s.leaveBlock ci ls) := by
  have h0 : Keeps anyAgent s (s.updCaravan ci fun c => { c with place := .dissolved }) := .of_agents rfl rfl rfl fun _ h => h
  unfold State.leaveBlock
  simp only
  split
  · exact h0.trans (keeps_leaveQuads _ _)
  · exact h0.trans (keeps_leavePlain _ _)

theorem keeps_advance (ci size : Nat) : Keeps anyAgent s (s.advance ci size) := by
  unfold State.advance
  simp only
  split
  · exact keeps_leaveBlock _ _
  · exact .of_agents rfl rfl rfl fun _ h => h

theorem keeps_goOn (ci size : Nat) (outs : Option (List (Nat × Leave))) : Keeps anyAgent s (s.goOn ci size outs) := by
  unfold State.goOn
  simp only
  split
  · exact .refl s
  · split
    · exact .refl s
    · split
      · exact keeps_leaveBlock _ _
      · exact keeps_advance _ _

/-! ## The second half of a packed atomic (R221, R223) -/

theorem writeDst_samePlace (a : Agent) (d : BitVec 10) (r : Res) (v : QWord) : (a.writeDst d r v).samePlace a := by
  rw [(writeDst_only a d r v).eq]; exact ⟨rfl, rfl, rfl⟩

theorem keeps_settleAtoms (ci : Nat) : Keeps anyAgent s (s.settleAtoms ci) := by
  unfold State.settleAtoms
  simp only
  split
  · exact .refl s
  · refine Keeps.trans (.foldl fun u _ x _ => ?_) (keeps_goOn _ _ _)
    have h1 : Keeps anyAgent u (u.updAgent x.1 fun a =>
        { (a.writeDst x.2.1 (resOfBytes x.2.2.1) x.2.2.2).shiftLatch (resultLatch a (resOfBytes x.2.2.1) x.2.2.2 a.issued) with wait := .ready }) :=
      keeps_updAgent trivial fun a => writeDst_samePlace a _ _ _
    split
    · exact h1.trans ((keeps_performWhere _).trans (.of_agents rfl rfl rfl fun _ h => h))
    · exact h1

theorem keeps_gotValue (i : Nat) (d : BitVec 10) (n v : Nat) : Keeps anyAgent s (s.gotValue i d n v) := by
  have hupd (u : State) (j : Nat) : Keeps anyAgent u (u.updAgent j fun a => { a with wait := .got d n (BitVec.ofNat 128 v) }) :=
    keeps_updAgent trivial fun _ => ⟨rfl, rfl, rfl⟩
  unfold State.gotValue
  simp only
  set s1 := List.foldl _ _ _ with hs1
  have h1 : Keeps anyAgent s s1 := (hupd s i).trans (.foldl fun u _ m _ => hupd u m)
  split
  · exact h1.trans (keeps_settleAtoms _)
  · exact h1

theorem keeps_endHalf (i : Nat) : Keeps anyAgent s (s.endHalf i) := by
  unfold State.endHalf
  split
  · exact (halfAt_slices _ _ _ _ _).keeps.trans (keeps_gotValue _ _ _ _)
  · exact .refl s

theorem keeps_secondHalf (i : Nat) : Keeps anyAgent s (s.secondHalf i) := .foldl fun _ _ j _ => keeps_endHalf j

end

end Sys2Proof.Machine

namespace Sys2Proof.Machine

/-! # What the matrix engine keeps: it works on storage, tile memory and its own state (R296, R301-R313) -/

section
variable {P : Nat → Prop} {s : State}

/-- Steps that pass a state along with what they have read. -/
theorem Keeps.foldl_fst {α β : Type} {f : State × α → β → State × α} (h : ∀ acc x, Keeps P acc.1 (f acc x).1) (xs : List β) :
    ∀ acc : State × α, Keeps P acc.1 (xs.foldl f acc).1 := by
  induction xs with
  | nil => exact fun acc => .refl acc.1
  | cons x xs ih => exact fun acc => (h acc x).trans (ih (f acc x))

theorem keeps_meetErrors (a : ArrayId) (loc : Nat) (ctx : Option Nat) (drops : Nat) {lose : State → State} (hl : ∀ t, Keeps P t (lose t)) :
    Keeps P s (s.meetErrors a loc ctx drops lose) := by
  unfold State.meetErrors
  simp only
  split
  · exact .refl s
  · set s0 : State := { s with latent := s.latent.filter fun l => !(l.arr = a && l.loc = loc) } with hs0
    have h0 : Keeps P s s0 := .of_agents rfl rfl rfl fun _ h => h
    have h1 (hits : List Latent) : Keeps P s (hits.foldl (fun t l => if !l.double then t.logCorrected a loc ctx l.injected
        else (List.range drops).foldl (fun u _ => u.logDropped a loc ctx l.injected) t) s0) := h0.trans (.foldl fun t _ l _ => by
      split
      · exact (logCorrected_slices _ _ _ _ _).keeps
      · exact .foldl fun u _ _ _ => (logDropped_slices _ _ _ _ _).keeps)
    split
    · exact (h1 _).trans (hl _)
    · exact h1 _

/-! ## Tile memory -/

theorem keeps_updShareMem (b p : Nat) (f : Memory → Memory) : Keeps P s (s.updShareMem b p f) := by
  unfold State.updShareMem
  split <;> exact .of_agents rfl rfl rfl fun _ h => h

theorem keeps_meetTile (ctx : Option Nat) (b p off n : Nat) : Keeps P s (s.meetTile ctx b p off n) := by
  unfold State.meetTile
  split
  · exact .refl s
  · exact .foldl fun t _ o _ => keeps_meetErrors _ _ _ _ fun u => keeps_updShareMem _ _ _

theorem keeps_meetTileWrite (b p off n : Nat) : Keeps P s (s.meetTileWrite b p off n) := by
  unfold State.meetTileWrite
  split
  · exact .refl s
  · refine .foldl fun t _ o _ => ?_
    split
    · exact .of_agents rfl rfl rfl fun _ h => h
    · exact keeps_meetTile _ _ _ _ _

theorem keeps_fireTile (core base off n : Nat) : Keeps P s (s.fireTile core base off n) := by
  unfold State.fireTile
  split
  · exact .refl s
  · exact .foldl fun t _ o _ => (fireInjection_only _ _ _ _).slices.keeps

theorem keeps_planeWrite (e : EngineAt) (off : Nat) (bs : List Byte) : Keeps P s (s.planeWrite e off bs) :=
  ((keeps_meetTileWrite _ _ _ _).trans (keeps_updShareMem _ _ _)).trans (keeps_fireTile _ _ _ _)

theorem keeps_planeRead (e : EngineAt) (off n : Nat) : Keeps P s (s.planeRead e off n).1 := keeps_meetTile _ _ _ _ _

/-! ## Translated reads -/

theorem keeps_meetWalk (ctx va : Nat) : ∀ (lv t : Nat) (s : State), Keeps P s (s.meetWalk ctx va lv t)
  | 0, _, _ => (meetPa_slices _ _ _ _).keeps
  | n + 1, t, s => by
    have h : Keeps P s (s.meetPa (some ctx) (t + 8 * walkIndex va (n + 1)) 8) := (meetPa_slices _ _ _ _).keeps
    unfold State.meetWalk
    simp only
    split
    · exact h.trans (keeps_meetWalk ctx va n _ _)
    · exact h

theorem keeps_walked (ctx : Nat) (ps : List Piece) : Keeps P s (s.walked ctx ps) := by
  unfold State.walked
  split
  · exact .refl s
  · refine .foldl fun t _ p _ => ?_
    split
    · exact .refl t
    · exact keeps_meetWalk _ _ _ _ _

theorem keeps_dropRemote (ctx pa : Nat) : Keeps P s (s.dropRemote ctx pa) :=
  (Keeps.of_agents rfl rfl rfl fun _ h => h : Keeps P s (s.updCtx ctx fun c => { c with dropcnt := satInc c.dropcnt })).trans
    (postEvent_slices _ _ _ _ _ _).keeps

theorem keeps_readPiece (ctx : Nat) (p : Piece) : Keeps P s (s.readPiece ctx p).1 := by
  unfold State.readPiece
  split
  · exact (Keeps.of_agents rfl rfl rfl fun _ h => h : Keeps P s s.draw.2).trans (.foldl fun t _ _ _ => keeps_dropRemote _ _)
  · exact (meetPa_slices _ _ _ _).keeps

theorem keeps_readPieces (ctx : Nat) (ps : List Piece) : Keeps P s (s.readPieces ctx ps).1 :=
  .foldl_fst (f := fun acc p => ((acc.1.readPiece ctx p).1, acc.2 ++ (acc.1.readPiece ctx p).2)) (fun _ p => keeps_readPiece ctx p) ps (s, [])

theorem keeps_openMerge (sec : Nat) : Keeps P s (s.openMerge sec) := by
  unfold State.openMerge
  split
  · exact .refl s
  · exact .of_agents rfl rfl rfl fun _ h => h

theorem keeps_readMerged (ctx : Nat) (ps : List Piece) : Keeps P s (s.readMerged ctx ps).1 :=
  Keeps.trans (t := ps.foldl (fun t p => t.openMerges p.pa p.len) s)
    (.foldl fun _ _ _ _ => .foldl fun _ _ _ _ => keeps_openMerge _) (keeps_readPieces _ _)

theorem keeps_sideRead {e : EngineAt} {m : Manifest} {acc : Access} {addr n : Nat} {r : State × List Byte}
    (h : s.sideRead e m acc addr n = .ok r) : Keeps P s r.1 := by
  unfold State.sideRead at h
  split at h
  · cases h; exact keeps_planeRead _ _ _
  · cases ha : s.access e.ctx e.core acc (addr % 2 ^ 64) n with
    | error f => rw [ha] at h; cases h
    | ok ps => rw [ha] at h; cases h; exact (keeps_walked _ _).trans (keeps_readMerged _ _)

theorem keeps_readCodes {e : EngineAt} {m : Manifest} {i0 i1 i2 i3 n : Nat} {r : State × List (Nat × Nat)}
    (h : s.readCodes e m i0 i1 i2 i3 n = .ok r) : Keeps P s r.1 := by
  unfold State.readCodes at h
  simp only at h
  split at h
  · cases h
  · rename_i s1 bs h1
    split at h
    · cases h
    · rename_i s2 ss h2
      cases h
      refine (keeps_sideRead h1).trans ?_
      split at h2
      · exact keeps_sideRead h2
      · cases h2; exact .refl s1

/-! ## Operands of a matrix command -/

theorem keeps_readLines (e : EngineAt) (m : Manifest) (k0 k : Nat) (rows : List (Option Nat)) : Keeps P s (s.readLines e m k0 k rows).1 := by
  refine .foldl_fst (fun acc r => ?_) rows (s, [])
  split
  · exact .refl _
  · split
    · rename_i h; exact keeps_readCodes h
    · exact .refl _

theorem keeps_readA (e : EngineAt) (c : MatCmd) (org : DWord) : Keeps P s (s.readA e c org).1 := keeps_readLines _ _ _ _ _

theorem keeps_loadColumns (ctx : Nat) (m : Manifest) (k0 k : Nat) : ∀ (n : Nat) (pages : List (List (Nat × Nat))) (s : State),
    Keeps P s (s.loadColumns ctx m k0 k pages n).1
  | 0, pages, s => by cases pages <;> exact .refl s
  | n + 1, [], s => .refl s
  | n + 1, codes :: rest, s => by
    have h1 : Keeps P s (s.readPages ctx codes).1 := keeps_readMerged _ _
    unfold State.loadColumns
    simp only
    split
    · split
      · rename_i sc rest'
        have h2 : Keeps P (s.readPages ctx codes).1 ((s.readPages ctx codes).1.readPages ctx sc).1 := keeps_readMerged _ _
        exact (h1.trans h2).trans (keeps_loadColumns ctx m k0 k n rest' _)
      · exact h1
    · exact h1.trans (keeps_loadColumns ctx m k0 k n rest _)

theorem keeps_readB (e : EngineAt) (c : MatCmd) : Keeps P s (s.readB e c).1 := by
  unfold State.readB
  simp only
  split
  · exact keeps_readLines _ _ _ _ _
  · exact keeps_loadColumns _ _ _ _ _ _ _

theorem keeps_updEngine (a : Agent) (f : Engine → Engine) : Keeps P s (s.updEngine a f) := .of_agents rfl rfl rfl fun _ h => h
theorem keeps_updAcc (a : Agent) (x : Nat) (f : Accum → Accum) : Keeps P s (s.updAcc a x f) := keeps_updEngine _ _

theorem keeps_meetSlots (a : Agent) (slot : Nat) (wide : Bool) : Keeps P s (s.meetSlots a slot wide) := by
  unfold State.meetSlots
  simp only
  split
  · exact .refl s
  · exact .foldl fun _ _ _ _ => .foldl fun _ _ _ _ => keeps_meetErrors _ _ _ _ fun _ => keeps_updEngine _ _

theorem keeps_fireSlots (a : Agent) (slot : Nat) (wide : Bool) : Keeps P s (s.fireSlots a slot wide) := by
  have h0 (l : List Latent) : Keeps P s { s with latent := l } := .of_agents rfl rfl rfl fun _ h => h
  unfold State.fireSlots
  simp only
  split
  · exact h0 _
  · exact (h0 _).trans (.foldl fun _ _ _ _ => .foldl fun _ _ _ _ => (fireInjection_only _ _ _ _).slices.keeps)

theorem keeps_bTile (a : Agent) (e : EngineAt) (c : MatCmd) : Keeps P s (s.bTile a e c).1 := by
  unfold State.bTile
  simp only
  refine Keeps.trans ?_ (keeps_meetSlots _ _ _)
  split
  · exact ((keeps_readB e c).trans (keeps_updEngine _ _)).trans (keeps_fireSlots _ _ _)
  · exact .refl s

theorem keeps_drainAll (e : EngineAt) (c : MatCmd) (vs : List FVal) : Keeps P s (s.drainAll e c vs) := by
  refine .foldl fun t _ x _ => ?_
  unfold State.drainRow
  simp only
  split
  · refine .foldl fun u _ b _ => ?_
    refine Keeps.trans ?_ (keeps_planeWrite _ _ _)
    split
    · exact keeps_planeWrite _ _ _
    · exact .refl u
  · exact keeps_planeWrite _ _ _

/-! ## Commands -/

theorem keeps_runCommand (i : Nat) (c : MatCmd) : Keeps P s (s.runCommand i c) := by
  have hclear (t : State) : Keeps P t (if matZro c.x = true then
      (matAccs (MatOp.ofCode c.op) c.x).foldl (fun u k => u.updAcc (s.agent i) k fun r => { r with elems := [] }) t else t) := by
    split
    · exact .foldl fun _ _ _ _ => keeps_updAcc _ _ _
    · exact .refl t
  unfold State.runCommand
  simp only
  split
  · exact .foldl fun _ _ _ _ => keeps_updAcc _ _ _
  · exact .foldl fun _ _ _ _ => keeps_updAcc _ _ _
  · exact .foldl fun _ _ _ _ => keeps_updAcc _ _ _
  · refine Keeps.trans (keeps_bTile (s.agent i) (s.shareFor (s.agent i) false) c) (Keeps.trans ?_ (keeps_updAcc _ _ _))
    split
    · exact .refl _
    · exact keeps_readA _ _ _
  · exact (keeps_readLines _ _ _ _ _).trans (keeps_updEngine _ _)
  · have hstep (t : State) (e : EngineAt) (org : DWord) (x : Nat) (f : OpTile → Accum → Accum) :
        Keeps P t ((t.readA e c org).1.updAcc (s.agent i) x (f (t.readA e c org).2)) := (keeps_readA _ _ _).trans (keeps_updAcc _ _ _)
    have hb : Keeps P s (s.bTile (s.agent i) (s.shareFor (s.agent i) false) c).1 := keeps_bTile _ _ _
    split
    · split
      · exact hb.trans ((hstep _ _ _ _ fun ta r => r.kStep ta _).trans (hstep _ _ _ _ fun ta r => r.kStep ta _))
      · exact hb.trans (hstep _ _ _ _ fun ta r => r.kStep ta _)
    · split
      · exact hb.trans (hstep _ _ _ _ fun ta r => r.kStep ta _)
      · exact hb
  · exact (keeps_drainAll _ _ _).trans (hclear _)
  · exact (keeps_drainAll _ _ _).trans (hclear _)

theorem keeps_nextCommand (i : Nat) : Keeps P s (s.nextCommand i) := by
  unfold State.nextCommand
  simp only
  split
  · exact .refl s
  · exact (keeps_runCommand _ _).trans (keeps_updEngine _ _)

theorem keeps_finishCommands (i : Nat) : Keeps P s (s.finishCommands i) := .foldl fun _ _ _ _ => keeps_nextCommand i

end

end Sys2Proof.Machine

namespace Sys2Proof.Machine

/-! # Fences and scope-table instructions (R36, R227, R228, R234, R243, R244) -/

/-! ## They complete -/

theorem scopeFault_none {s : State} {l : Lane} (h : scopeOk s l l.b.toNat) (field : Nat) :
    s.scopeFault (s.agent l.agent) l.b.toNat field = none := by
  obtain ⟨h7, sc, hsc⟩ := h
  unfold State.scopeFault
  rw [if_neg h7, hsc]

theorem fenceJob_plain (release acquire : Bool) : (fenceJob release acquire).Plain where
  early _ _ := rfl
  waits _ _ := rfl
  idle := rfl
  checkAll _ _ := rfl
  uniform := rfl
  late := rfl
  finish := rfl
  leave := rfl

/-- What a fence does in its wanting lanes. -/
theorem fence_acts (release acquire : Bool) {i : Instr} {f : Fields} (hi : ∀ s, exec i s = (fenceJob release acquire).issue f s) :
    Acts i { b := .scope } f (fun s l => scopeOk s l l.b.toNat) (fenceJob release acquire).perform := by
  intro s ci h hc
  rw [hi]
  exact (fenceJob_plain release acquire).issue_acts h (fun l hl => scopeFault_none (hc l hl) 2) (by simp [fenceJob])

def tfenceJob : Job where
  sig := { a := .b64, b := .scope, c := .b32 }
  check := fun s l => orElseTrap (s.scopeFault (s.agent l.agent) l.b.toNat 2) (if vaBase l ≥ 2 ^ 48 then some (badField 1) else none)
  perform := eachLane tfenceLane

theorem tfenceJob_plain : tfenceJob.Plain := ⟨fun _ _ => rfl, fun _ _ => rfl, rfl, fun _ _ => rfl, rfl, rfl, rfl, rfl⟩

def scpwJob : Job where
  sig := { dst := .w32, a := .b32, b := .b128, c := .b32, imm := false, drover := true }
  check := scpwCheck
  perform := eachLane scpwLane

theorem scpwJob_plain : scpwJob.Plain := ⟨fun _ _ => rfl, fun _ _ => rfl, rfl, fun _ _ => rfl, rfl, rfl, rfl, rfl⟩

def scpinvJob : Job where
  sig := { dst := .w32, b := .b32, drover := true }
  check := fun _ l => let i := l.b.toNat % 2 ^ 32; if i < 8 ∨ i > 63 then some (badField 2) else none
  perform := eachLane scpinvLane

theorem scpinvJob_plain : scpinvJob.Plain := ⟨fun _ _ => rfl, fun _ _ => rfl, rfl, fun _ _ => rfl, rfl, rfl, rfl, rfl⟩

/-- A plain job of one lane after another. -/
theorem Job.Plain.works {j : Job} (hj : j.Plain) {i : Instr} {f : Fields} {pre : State → Lane → Prop}
    {work : State → Lane → State × LaneRes} (hi : ∀ s, exec i s = j.issue f s)
    (hw : j.perform = eachLane work) (hc : ∀ s l, pre s l → j.check s l = none) :
    Works i j.sig f pre work := by
  intro s ci h hpre
  rw [hi, hj.issue_acts h (fun l hl => hc _ l (hpre l hl)) (by rw [hw]; exact eachLane_length _ _ _), hw]

/-! ## Releases and reductions -/

theorem mem_performOwn_pending {s : State} {i : Nat} {f : PendStore → Bool} {p : PendStore} : p ∈ (s.performOwn i f).pending ↔
    p ∈ s.pending ∧ (i ∈ p.agents → f p = false ∧ ((∃ q ∈ s.pending, i ∈ q.agents ∧ f q = true ∧ q.ord = 1) → p.ord ≠ 1)) := by
  unfold State.performOwn
  simp only
  rw [(performWhere_slices s _).pending]
  simp only [List.mem_filter]
  refine and_congr_right fun _ => ?_
  by_cases hi : i ∈ p.agents
  · by_cases ho : p.ord = 1 <;> simp [hi, ho]
  · simp [hi]

theorem performOwn_agents (s : State) (i : Nat) (f : PendStore → Bool) : (s.performOwn i f).agents = s.agents := performWhere_agents _ _

theorem releaseAt_leaves (s : State) (i : Nat) (sc : Scope) :
    let t := s.releaseAt i sc
    t.agents = s.agents ∧ (∀ p ∈ t.pending, p ∈ s.pending) ∧ (∀ p ∈ s.pending, i ∉ p.agents → p ∈ t.pending) ∧
      (∀ p ∈ t.pending, i ∈ p.agents → p.ord = 2 ∨ ∀ b ∈ p.body.bytes, s.inScope sc b = false) ∧
      (∀ p ∈ s.pending, i ∈ p.agents → p.ord = 2 → p ∈ t.pending) := by
  intro t
  have hmem (p : PendStore) : p ∈ t.pending ↔ _ := mem_performOwn_pending
  refine ⟨performOwn_agents _ _ _, fun p hp => ((hmem p).1 hp).1, fun p hp hi => (hmem p).2 ⟨hp, fun h => absurd h hi⟩,
    fun p hp hi => ?_, fun p hp _ ho => (hmem p).2 ⟨hp, fun _ => ⟨by simp [ho], fun _ => by simp [ho]⟩⟩⟩
  have hf := (((hmem p).1 hp).2 hi).1
  by_cases ho : p.ord = 2
  · exact .inl ho
  · exact .inr (by simpa [ho] using hf)

theorem performReds_leaves (s : State) (i : Nat) (sc : Scope) :
    let t := s.performReds i sc
    t.agents = s.agents ∧ (∀ p ∈ t.pending, p ∈ s.pending) ∧ (∀ p ∈ s.pending, i ∉ p.agents → p ∈ t.pending) ∧
      (∀ p ∈ t.pending, i ∈ p.agents → p.ord = 2 ∨ p.body.isRed = false ∨ ∀ b ∈ p.body.bytes, s.inScope sc b = false) ∧
      (∀ p ∈ s.pending, i ∈ p.agents → p.ord ≠ 1 → p.body.isRed = false → p ∈ t.pending) := by
  intro t
  have hmem (p : PendStore) : p ∈ t.pending ↔ _ := mem_performOwn_pending
  refine ⟨performOwn_agents _ _ _, fun p hp => ((hmem p).1 hp).1, fun p hp hi => (hmem p).2 ⟨hp, fun h => absurd h hi⟩,
    fun p hp hi => ?_, fun p hp _ ho hr => (hmem p).2 ⟨hp, fun _ => ⟨by simp [hr], fun _ => ho⟩⟩⟩
  have hf := (((hmem p).1 hp).2 hi).1
  by_cases ho : p.ord = 2
  · exact .inl ho
  · by_cases hr : p.body.isRed = true
    · exact .inr (.inr (by simpa [ho, hr] using hf))
    · exact .inr (.inl (by simpa using hr))

/-! ## tfence -/

/-- Every access translated through a scope is performed: none of its context and cores stays pending. -/
theorem keeps_flushScope (s : State) (ctx : Nat) (cores : BitVec 64) :
    Keeps anyAgent (s.performWhere fun p => p.ctx = ctx && cores.toNat.testBit p.core) (s.flushScope ctx cores) :=
  Keeps.trans (t := _) (.foldl fun _ _ j _ => keeps_secondHalf j) (.foldl fun _ _ j _ => keeps_finishCommands j)

theorem flushScope_pending {s : State} {ctx : Nat} {cores : BitVec 64} {p : PendStore} (h : p ∈ (s.flushScope ctx cores).pending) :
    p ∈ s.pending ∧ ¬(p.ctx = ctx ∧ cores.toNat.testBit p.core = true) := by
  have h := (keeps_flushScope s ctx cores).pending p h
  rw [(performWhere_slices s _).pending] at h
  obtain ⟨hp, hn⟩ := List.mem_filter.1 h
  exact ⟨hp, fun hc => by simp [hc.1, hc.2] at hn⟩

theorem keeps_flushScope_all (s : State) (ctx : Nat) (cores : BitVec 64) : Keeps anyAgent s (s.flushScope ctx cores) :=
  (keeps_performWhere _).trans (keeps_flushScope s ctx cores)

theorem halves_of_waits {s t : State} (hn : t.agents.length = s.agents.length) (h : ∀ j, (t.agent j).wait = (s.agent j).wait)
    (hs : s.halves = []) : t.halves = [] := by
  refine List.eq_nil_iff_forall_not_mem.2 fun j hj => ?_
  have hj' : j ∈ s.halves := by
    obtain ⟨hlt, hp⟩ := mem_agentsWhere.1 hj
    exact mem_agentsWhere.2 ⟨hn ▸ hlt, by rw [← h j]; exact hp⟩
  rw [hs] at hj'; cases hj'

/-- With no packed atomic in its second half, flushing a scope changes no agent. -/
theorem flushScope_agent {s : State} (hs : s.halves = []) (ctx : Nat) (cores : BitVec 64) (j : Nat) :
    (s.flushScope ctx cores).agent j = s.agent j := by
  set s1 := s.performWhere fun p => p.ctx = ctx && cores.toNat.testBit p.core with hs1
  have ha : s1.agents = s.agents := performWhere_agents _ _
  have hag (j : Nat) : s1.agent j = s.agent j := by unfold State.agent; rw [ha]
  have hno : s1.halves = [] := halves_of_waits (by rw [ha]) (fun j => by rw [hag]) hs
  have hk : Keeps (fun _ => False) s1 (s.flushScope ctx cores) := by
    unfold State.flushScope
    simp only [← hs1, hno, List.filter_nil, List.foldl_nil]
    exact .foldl fun _ _ j _ => keeps_finishCommands j
  exact (hk.others j id).trans (hag j)

/-- The state of a tfence's lane when what it orders is performed. -/
def State.fenced (s : State) (l : Lane) (sc : Scope) : State :=
  (s.completionPoint l.agent).flushScope (s.agent l.agent).ctx sc.cores

/-- The translations a tfence drops (R228). -/
def tfenceDrops (l : Lane) (ctx : Nat) (sc : Scope) (e : TlbEntry) : Prop :=
  e.ctx = ctx ∧ tlbInScope sc.cores e.core = true ∧ e.base < (tfenceRange (vaBase l) (l.c.toNat % 2 ^ 32)).2 ∧
    (tfenceRange (vaBase l) (l.c.toNat % 2 ^ 32)).1 < e.base + e.size

/-- Translations are dropped from the TLBs. -/
def State.dropTlb (s : State) (p : TlbEntry → Bool) : State := { s with tlb := s.tlb.filter fun e => !p e }

section
variable (s : State) (p : TlbEntry → Bool)
@[simp] theorem dropTlb_tlb : (s.dropTlb p).tlb = s.tlb.filter fun e => !p e := rfl
@[simp] theorem dropTlb_remotes : (s.dropTlb p).remotes = s.remotes := rfl
@[simp] theorem dropTlb_pending : (s.dropTlb p).pending = s.pending := rfl
@[simp] theorem dropTlb_agents : (s.dropTlb p).agents = s.agents := rfl
@[simp] theorem dropTlb_agent (i : Nat) : (s.dropTlb p).agent i = s.agent i := rfl
@[simp] theorem dropTlb_requestsOut (ctx : Nat) (cores : BitVec 64) (n : Nat) :
    (s.dropTlb p).requestsOut ctx cores n = s.requestsOut ctx cores n := rfl
end

/-- And when its translations are dropped. -/
def State.untranslated (s : State) (l : Lane) (sc : Scope) : State :=
  (s.fenced l sc).dropTlb fun e => e.ctx = (s.agent l.agent).ctx && tlbInScope sc.cores e.core &&
    decide (e.base < (tfenceRange (vaBase l) (l.c.toNat % 2 ^ 32)).2) &&
    decide ((tfenceRange (vaBase l) (l.c.toNat % 2 ^ 32)).1 < e.base + e.size)

theorem tfenceLane_eq {s : State} {l : Lane} {sc : Scope} (hw : l.want = true) (hsc : s.agentScope (s.agent l.agent) l.b.toNat = .ok sc) :
    (tfenceLane s l).1 = if (s.untranslated l sc).requestsOut (s.agent l.agent).ctx sc.cores s.nonce
      then (s.untranslated l sc).updAgent l.agent fun a => { a with wait := .tfence sc.cores s.nonce } else s.untranslated l sc := by
  unfold tfenceLane
  simp only [hw, Bool.not_true, Bool.false_eq_true, if_false, hsc]
  rfl

theorem keeps_completionPoint (s : State) (i : Nat) : Keeps anyAgent s (s.completionPoint i) :=
  (keeps_performWhere _).trans (keeps_updAgent trivial fun _ => ⟨rfl, rfl, rfl⟩)

theorem completionPoint_wait (s : State) (i j : Nat) : ((s.completionPoint i).agent j).wait = (s.agent j).wait := by
  unfold State.completionPoint
  rw [agent_updAgent]
  split <;> rw [agent_flushStores]

theorem completionPoint_pending (s : State) (i : Nat) : (s.completionPoint i).pending = s.pending.filter fun p => !p.agents.contains i :=
  flushStores_pending s i

section
variable {s : State} {l : Lane} {sc : Scope}

theorem keeps_fenced : Keeps anyAgent s (s.fenced l sc) := (keeps_completionPoint s l.agent).trans (keeps_flushScope_all _ _ _)

theorem fenced_pending {p : PendStore} (h : p ∈ (s.fenced l sc).pending) :
    l.agent ∉ p.agents ∧ ¬(p.ctx = (s.agent l.agent).ctx ∧ sc.cores.toNat.testBit p.core = true) := by
  obtain ⟨hp, hn⟩ := flushScope_pending h
  rw [completionPoint_pending] at hp
  exact ⟨by simpa using (List.mem_filter.1 hp).2, hn⟩

theorem fenced_wait (hs : s.halves = []) (j : Nat) : ((s.fenced l sc).agent j).wait = (s.agent j).wait := by
  have hno : (s.completionPoint l.agent).halves = [] := halves_of_waits (keeps_completionPoint s _).count (completionPoint_wait s _) hs
  unfold State.fenced
  rw [flushScope_agent hno, completionPoint_wait]

theorem fenced_remotes : (s.fenced l sc).remotes = s.remotes := (keeps_fenced (s := s) (l := l) (sc := sc)).remotes
theorem fenced_length : (s.fenced l sc).agents.length = s.agents.length := (keeps_fenced (s := s) (l := l) (sc := sc)).count
theorem fenced_tlb : (s.fenced l sc).tlb = s.tlb := (keeps_fenced (s := s) (l := l) (sc := sc)).tlb

theorem mem_untranslated_tlb {e : TlbEntry} :
    e ∈ (s.untranslated l sc).tlb ↔ e ∈ s.tlb ∧ ¬tfenceDrops l (s.agent l.agent).ctx sc e := by
  unfold State.untranslated tfenceDrops
  rw [dropTlb_tlb, fenced_tlb, List.mem_filter]
  refine and_congr_right fun _ => ?_
  simp only [Bool.not_eq_true', Bool.and_eq_false_iff, decide_eq_false_iff_not, not_and_or, Bool.not_eq_true, or_assoc]

theorem untranslated_remotes : (s.untranslated l sc).remotes = s.remotes := by
  unfold State.untranslated
  rw [dropTlb_remotes, fenced_remotes]

theorem untranslated_pending : (s.untranslated l sc).pending = (s.fenced l sc).pending := dropTlb_pending _ _

theorem requestsOut_iff {ctx : Nat} {cores : BitVec 64} {n : Nat} : s.requestsOut ctx cores n = true ↔
    ∃ r ∈ s.remotes, r.ctx = ctx ∧ cores.toNat.testBit r.core = true ∧ r.issued < n := by
  simp [State.requestsOut, and_assoc]

theorem untranslated_requestsOut {ctx : Nat} {cores : BitVec 64} {n : Nat} : (s.untranslated l sc).requestsOut ctx cores n = true ↔
    ∃ r ∈ s.remotes, r.ctx = ctx ∧ cores.toNat.testBit r.core = true ∧ r.issued < n := by
  rw [requestsOut_iff, untranslated_remotes]

theorem updAgent_where_keeps (u : State) (c : Bool) (i : Nat) (f : Agent → Agent) :
    (if c = true then u.updAgent i f else u).tlb = u.tlb ∧ (if c = true then u.updAgent i f else u).pending = u.pending ∧
    (if c = true then u.updAgent i f else u).remotes = u.remotes := by
  cases c <;> exact ⟨rfl, rfl, rfl⟩

theorem tfenceLane_keeps (hw : l.want = true) (hsc : s.agentScope (s.agent l.agent) l.b.toNat = .ok sc) :
    (tfenceLane s l).1.tlb = (s.untranslated l sc).tlb ∧ (tfenceLane s l).1.pending = (s.fenced l sc).pending ∧
    (tfenceLane s l).1.remotes = s.remotes := by
  rw [tfenceLane_eq hw hsc]
  obtain ⟨htlb, hpending, hremotes⟩ := updAgent_where_keeps (s.untranslated l sc)
    ((s.untranslated l sc).requestsOut (s.agent l.agent).ctx sc.cores s.nonce) l.agent fun a => { a with wait := .tfence sc.cores s.nonce }
  exact ⟨htlb, hpending.trans untranslated_pending, hremotes.trans untranslated_remotes⟩

/-- Where no request to a peer is out, the lane waits for nothing. -/
theorem tfenceLane_ready (hw : l.want = true) (hsc : s.agentScope (s.agent l.agent) l.b.toNat = .ok sc)
    (hr : ∀ r ∈ s.remotes, ¬(r.ctx = (s.agent l.agent).ctx ∧ sc.cores.toNat.testBit r.core = true)) (hs : s.halves = [])
    (hwait : (s.agent l.agent).wait = .ready) : ((tfenceLane s l).1.agent l.agent).wait = .ready := by
  have hno : ¬(s.untranslated l sc).requestsOut (s.agent l.agent).ctx sc.cores s.nonce = true := fun hout => by
    obtain ⟨q, hq, hctx, hcore, -⟩ := untranslated_requestsOut.1 hout
    exact hr q hq ⟨hctx, hcore⟩
  rw [tfenceLane_eq hw hsc, if_neg hno]
  unfold State.untranslated
  rw [dropTlb_agent, fenced_wait hs, hwait]

/-- Where one is, the lane waits for it. -/
theorem tfenceLane_waits (hw : l.want = true) (hsc : s.agentScope (s.agent l.agent) l.b.toNat = .ok sc) {r : Remote}
    (hr : r ∈ s.remotes) (hctx : r.ctx = (s.agent l.agent).ctx) (hcore : sc.cores.toNat.testBit r.core = true) (hissued : r.issued < s.nonce)
    (hlt : l.agent < s.agents.length) : ((tfenceLane s l).1.agent l.agent).wait = .tfence sc.cores s.nonce := by
  have hlen : l.agent < (s.untranslated l sc).agents.length := by
    unfold State.untranslated
    rw [dropTlb_agents, fenced_length]; exact hlt
  rw [tfenceLane_eq hw hsc, if_pos (untranslated_requestsOut.2 ⟨r, hr, hctx, hcore, hissued⟩), agent_updAgent_same _ _ hlen]

end

/-! ## The scope table -/

theorem assocGet_assocUpd {α : Type} (m : List (Nat × α)) (k : Nat) (f : α → α) : assocGet (assocUpd m k f) k = (assocGet m k).map f := by
  induction m with
  | nil => rfl
  | cons e m ih =>
    obtain ⟨j, v⟩ := e
    by_cases hj : j = k
    · simp [assocUpd, assocGet, hj]
    · simpa [assocUpd, assocGet, hj] using ih

theorem ctx_updCtx_same {s : State} {i : Nat} (f : Context → Context) (h : assocGet s.contexts i ≠ none) :
    (s.updCtx i f).ctx i = f (s.ctx i) := by
  obtain ⟨c, hc⟩ := Option.ne_none_iff_exists'.1 h
  simp [State.ctx, assocGet_assocUpd, hc]

theorem assocGet_filter_ne {α : Type} (m : List (Nat × α)) {k n : Nat} (h : k ≠ n) :
    assocGet (m.filter fun x => x.1 ≠ n) k = assocGet m k := by
  induction m with
  | nil => rfl
  | cons e m ih =>
    obtain ⟨j, v⟩ := e
    by_cases hj : j = n
    · have hk : j ≠ k := fun e => h (e.symm.trans hj)
      simpa [List.filter_cons, hj, assocGet, Ne.symm h] using ih
    · by_cases hk : j = k <;> simp_all [assocGet]

section
variable {s : State} {ctx n : Nat} (f : ScopeEntry → ScopeEntry)

theorem scopeEntry_setScope (h : assocGet s.contexts ctx ≠ none) (k : Nat) : ((s.setScope ctx n f).ctx ctx).scopeEntry k =
    if k = n then { f ((s.ctx ctx).scopeEntry n) with gen := ((s.ctx ctx).scopeEntry n).gen + 1 } else (s.ctx ctx).scopeEntry k := by
  unfold State.setScope
  rw [ctx_updCtx_same _ h]
  by_cases hk : k = n
  · subst hk; simp [Context.scopeEntry, assocGet]
  · rw [if_neg hk]
    simp only [Context.scopeEntry, assocGet]
    rw [if_neg (Ne.symm hk), assocGet_filter_ne _ hk]

end

theorem bitAt_eq_getLsbD (v : QWord) {j : Nat} (hj : j < 32) : bitAt (v.toNat % 2 ^ 32) j = v.getLsbD j := by
  unfold bitAt
  rw [← Nat.testBit_eq_decide_div_mod_eq, Nat.testBit_mod_two_pow, decide_eq_true hj]
  rfl

/-- The entry scpw writes where it names no peer mask, over the one it finds. -/
def scpwEntry (s : State) (l : Lane) (e : ScopeEntry) : ScopeEntry :=
  { e with
    valid := true
    rel := l.a.getLsbD 17
    host := l.a.getLsbD 16
    cores := BitVec.ofNat 64 l.b.toNat
    slices := BitVec.ofNat 64 (l.b.toNat / 2 ^ 64)
    peers := 0 ||| s.ownMask }

theorem scpwLane_own {s : State} {l : Lane} (hw : l.want = true) (hpen : l.a.getLsbD 15 = false) :
    (scpwLane s l).1 = s.setScope (s.agent l.agent).ctx (l.c.toNat % 2 ^ 32) (scpwEntry s l) ∧
    (scpwLane s l).2.val = (((scpwLane s l).1.ctx (s.agent l.agent).ctx).scopeEntry (l.c.toNat % 2 ^ 32)).gen.setWidth 128 := by
  have hp : scpwPen (l.a.toNat % 2 ^ 32) = false := (bitAt_eq_getLsbD l.a (by omega)).trans hpen
  have hr : scpwRel (l.a.toNat % 2 ^ 32) = l.a.getLsbD 17 := bitAt_eq_getLsbD l.a (by omega)
  have hh : bitAt (l.a.toNat % 2 ^ 32) 16 = l.a.getLsbD 16 := bitAt_eq_getLsbD l.a (by omega)
  unfold scpwLane
  simp only [hw, Bool.not_true, Bool.false_eq_true, if_false, hp, hr, hh]
  exact ⟨rfl, trivial⟩

/-- What scpw leaves of the scope table, where it names no peer mask. -/
theorem scpwLane_leaves {s : State} {l : Lane} (k : Nat) (hw : l.want = true) (hpen : l.a.getLsbD 15 = false)
    (hctx : assocGet s.contexts (s.agent l.agent).ctx ≠ none) :
    let ctx := (s.agent l.agent).ctx
    let n := l.c.toNat % 2 ^ 32
    let old := (s.ctx ctx).scopeEntry n
    let r := scpwLane s l
    let e := (r.1.ctx ctx).scopeEntry n
    e.valid = true ∧ e.gen = old.gen + 1 ∧ e.rel = l.a.getLsbD 17 ∧ e.host = l.a.getLsbD 16 ∧ e.cores = l.b.setWidth 64 ∧
      e.slices = l.b.extractLsb' 64 64 ∧ e.peers = s.ownMask ∧ r.2.val = e.gen.setWidth 128 ∧
      (k ≠ n → (r.1.ctx ctx).scopeEntry k = (s.ctx ctx).scopeEntry k) ∧ r.1.agents = s.agents ∧ r.1.mem = s.mem := by
  intro ctx n old r e
  obtain ⟨hs, hv⟩ := scpwLane_own hw hpen
  have hentry (j : Nat) : (r.1.ctx ctx).scopeEntry j =
      if j = n then { scpwEntry s l old with gen := old.gen + 1 } else (s.ctx ctx).scopeEntry j := by
    rw [show r.1 = _ from hs]; exact scopeEntry_setScope _ hctx j
  have he : e = { scpwEntry s l old with gen := old.gen + 1 } := (hentry n).trans (if_pos rfl)
  refine ⟨by rw [he]; rfl, by rw [he], by rw [he]; rfl, by rw [he]; rfl, ?_, ?_, ?_, hv, fun hk => (hentry k).trans (if_neg hk), ?_, ?_⟩
  · rw [he]; exact BitVec.eq_of_toNat_eq (by simp [scpwEntry])
  · rw [he]; exact BitVec.eq_of_toNat_eq (by simp [scpwEntry, Nat.shiftRight_eq_div_pow])
  · rw [he]; exact BitVec.zero_or
  · rw [show r.1 = _ from hs]; rfl
  · rw [show r.1 = _ from hs]; rfl

/-- What scpinv leaves of the scope table. -/
theorem scpinvLane_leaves {s : State} {l : Lane} (k : Nat) (hw : l.want = true) (hctx : assocGet s.contexts (s.agent l.agent).ctx ≠ none) :
    let ctx := (s.agent l.agent).ctx
    let n := l.b.toNat % 2 ^ 32
    let old := (s.ctx ctx).scopeEntry n
    let r := scpinvLane s l
    (r.1.ctx ctx).scopeEntry n = { old with valid := false, gen := old.gen + 1 } ∧ r.2.val = (old.gen + 1).setWidth 128 ∧
      (k ≠ n → (r.1.ctx ctx).scopeEntry k = (s.ctx ctx).scopeEntry k) ∧ r.1.agents = s.agents ∧ r.1.mem = s.mem := by
  intro ctx n old r
  have hr : r = (s.setScope ctx n fun e => { e with valid := false },
      { val := (((s.setScope ctx n fun e => { e with valid := false }).ctx ctx).scopeEntry n).gen.setWidth 128 }) := by
    unfold r scpinvLane
    simp only [hw, Bool.not_true, Bool.false_eq_true, if_false]
    rfl
  have hentry (j : Nat) := scopeEntry_setScope (n := n) (fun e => { e with valid := false }) hctx j
  rw [hr]
  refine ⟨(hentry n).trans (if_pos rfl), ?_, fun hk => (hentry k).trans (if_neg hk), rfl, rfl⟩
  rw [(hentry n).trans (if_pos rfl)]

/-! # The claim -/

/-- Settles O32: the fences and table instructions are plain jobs; `mem_performOwn_pending` says what a release and a fence perform,
`Keeps` what flushing a scope can touch. -/
theorem fencesAndScopes : Obligations.FencesAndScopes := by
  refine ⟨fun o => ⟨?fence, ?acq, ?rel, ?tfence, ?scpw, ?scpinv⟩, releaseAt_leaves, performReds_leaves, fun s l sc hw hsc => ?drops,
    fun s l k hw hpen hctx => scpwLane_leaves k hw hpen hctx, fun s l k hw hctx => scpinvLane_leaves k hw hctx⟩
  case fence => exact fence_acts true true fun _ => rfl
  case acq => exact fence_acts false true fun _ => rfl
  case rel => exact fence_acts true false fun _ => rfl
  case tfence =>
    refine tfenceJob_plain.works (fun _ => rfl) rfl fun s l hpre => ?_
    obtain ⟨hscope, hva⟩ := hpre
    simp only [tfenceJob, scopeFault_none hscope, orElseTrap, if_neg (Nat.not_le.2 hva)]
  case scpw => exact scpwJob_plain.works (fun _ => rfl) rfl fun _ _ h => h
  case scpinv => exact scpinvJob_plain.works (fun _ => rfl) rfl fun _ _ h => if_neg (by omega)
  case drops =>
    intro t r
    obtain ⟨htlb, hpending, hremotes⟩ := tfenceLane_keeps hw hsc
    refine ⟨fun e he => mem_untranslated_tlb.1 (htlb ▸ he), fun e he hn => ?_, fun p hp => fenced_pending (hpending ▸ hp),
      fun hr hs hwait => tfenceLane_ready hw hsc hr hs hwait,
      fun q hq hctx hcore hissued hlt => tfenceLane_waits hw hsc (hremotes ▸ hq) hctx hcore hissued hlt⟩
    rw [htlb]
    exact mem_untranslated_tlb.2 ⟨he, hn⟩

end Sys2Proof.Machine

namespace Sys2Proof.Machine

/-! # A helper that would fault gets zero (R156) -/

section
variable {s : State} {ci : Nat} {g : Sig} {f : Fields} {fn : Lane → LaneRes}

/-- A lane works if it is wanted, or nothing of R87 stops it. -/
def State.laneWorks (s : State) (ci : Nat) (g : Sig) (f : Fields) (l : Lane) : Bool :=
  l.want || (s.staticFault (s.caravan ci) (s.agent l.agent) g f).isNone

/-- What each lane gets: nothing but zero where it does not work. -/
def State.laneGets (s : State) (ci : Nat) (g : Sig) (f : Fields) (fn : Lane → LaneRes) (l : Lane) : LaneRes :=
  if s.laneWorks ci g f l then fn l else {}

/-- Wanting lanes may issue: what `Ready` asks, but of the wanting lanes alone. -/
structure MayIssue (s : State) (ci : Nat) (g : Sig) (f : Fields) : Prop where
  focus : s.focus = some ci
  idle : ∀ m ∈ (s.caravan ci).members, (s.agent m.agent).wait = .ready
  wants : s.wanting ci ≠ []
  legal : ∀ m ∈ s.wanting ci, s.staticFault (s.caravan ci) (s.agent m.agent) g f = none
  queues : s.queuesReady (s.lead ci) (g.pops f (s.wanting ci).length) (g.pushes f (s.wanting ci).length) = true

theorem firstFault_pureJob (i : Nat) : (pureJob g fn).firstFault (s.atIssue ci) (s.caravan ci) f i =
    s.staticFault (s.caravan ci) (s.agent i) g f := by
  have h : (s.atIssue ci).staticFault (s.caravan ci) (s.agent i) g f = s.staticFault (s.caravan ci) (s.agent i) g f :=
    staticFault_begin s ci _ _ _ _
  unfold Job.firstFault
  simp only [pureJob]
  rw [show (s.atIssue ci).agent i = s.agent i from rfl, h]
  cases s.staticFault (s.caravan ci) (s.agent i) g f <;> rfl

/-- With the wanting lanes clear, the issue runs all lanes. -/
theorem run_pureJob (h : MayIssue s ci g f) : (pureJob g fn).run f ci s = (pureJob g fn).rest f ci s := by
  have hu : (s.begin ci).clearWait (s.caravan ci) = s.atIssue ci := clearWait_ready _ _ h.idle
  have hf1 : faultsOf (pureJob g fn).uniform ((s.wanting ci).map (·.agent)) ((pureJob g fn).firstFault (s.atIssue ci) (s.caravan ci) f) = [] := by
    refine faultsOf_none _ _ _ fun i hi => ?_
    obtain ⟨m, hm, rfl⟩ := List.mem_map.1 hi
    rw [firstFault_pureJob]; exact h.legal m hm
  have hl : (s.atIssue ci).buildLanes (s.caravan ci).core g f (s.wanting ci).length (s.members ci) 0 = s.lanes ci g f :=
    buildLanes_begin s _ _ _ _ _ _ _
  have hf2 : (pureJob g fn).laneFaults (s.atIssue ci) (s.lanes ci g f) = [] :=
    Job.laneFaults_each (lanes_nodup s ci g f) rfl fun _ _ _ => rfl
  have hn : (s.wanting ci).length ≠ 0 := fun e => h.wants (List.length_eq_zero_iff.1 e)
  have hq : (s.atIssue ci).queuesReady (s.lead ci) (g.pops f (s.wanting ci).length) (g.pushes f (s.wanting ci).length) = true := by
    simp only [State.atIssue, queuesReady_begin]; exact h.queues
  have hms : (s.members ci).filter (fun m => !([] : List Nat).contains m.agent) = s.members ci := by simp
  have hlm : (s.atIssue ci).laneMembers (s.caravan ci) = s.members ci := rfl
  have hw : (s.members ci).filter (·.want) = s.wanting ci := rfl
  have hlead : (s.atIssue ci).agent ((s.members ci).headD ⟨0, false⟩).agent = s.lead ci := rfl
  have hsig : (pureJob g fn).sig = g := rfl
  have hwaits (u : State) (a : Agent) : (pureJob g fn).waits u a = [] := rfl
  have hidle : (pureJob g fn).idle = false := rfl
  unfold Job.run
  simp only [hu, hlm, hw, hf1, List.map_nil, quadMates_nil, List.append_nil, hms, hlead, hsig, hwaits, hn, if_false, hq, Bool.not_true,
    Bool.false_eq_true, hidle, Bool.false_and, hl, hf2, raise_nil]
  rfl

/-- The result of a lane that works is its own, and a lane that does not has none. -/
theorem resultFor_working {ls : List Lane} (hd : (ls.map (·.agent)).Nodup) (p : Lane → Bool) {l : Lane} (hl : l ∈ ls) :
    (pureJob g fn).resultFor ((ls.filter p).map fun l => (l, fn l)) l = some (if p l then fn l else {}) := by
  have hfind : ((ls.filter p).map fun l => (l, fn l)).find? (fun x => x.1.agent = l.agent) =
      ((ls.filter p).find? fun x => x.agent = l.agent).map fun l => (l, fn l) := by
    rw [List.find?_map]; rfl
  have hd' : ((ls.filter p).map (·.agent)).Nodup := hd.sublist (List.filter_sublist.map _)
  unfold Job.resultFor
  by_cases hp : p l = true
  · rw [hfind, find_lane hd' (List.mem_filter.2 ⟨hl, hp⟩), if_pos hp]; rfl
  · have hno : ((ls.filter p).find? fun x => x.agent = l.agent) = none := by
      refine List.find?_eq_none.2 fun x hx he => ?_
      obtain ⟨hx, hpx⟩ := List.mem_filter.1 hx
      have e : x.agent = l.agent := by simpa using he
      exact hp (List.inj_on_of_nodup_map hd hx hl e ▸ hpx)
    rw [hfind, hno, if_neg hp]; rfl

/-- A lane that does not work pushes nothing, for no thread wants its result. -/
theorem pushResults_filter (t : State) (core : Nat) (p : Lane → Bool) (hp : ∀ l : Lane, l.want = true → p l = true) (r : Lane → LaneRes)
    (hr : ∀ l, p l = true → r l = fn l) (ls : List Lane) :
    t.pushResults core g f ((ls.filter p).map fun l => (l, fn l)) = t.pushResults core g f (ls.map fun l => (l, r l)) := by
  unfold State.pushResults
  split
  · rfl
  · rfl
  · induction ls generalizing t with
    | nil => rfl
    | cons l ls ih =>
      by_cases hl : p l = true
      · simp only [List.filter_cons, hl, if_true, List.map_cons, List.foldl_cons, hr l hl]
        exact ih _
      · have hw : l.want = false := Bool.eq_false_iff.2 fun hw => hl (hp l hw)
        simp only [List.filter_cons, hl, if_false, List.map_cons, List.foldl_cons, hw, Bool.false_and, Bool.false_eq_true]
        exact ih _

/-- All lanes complete, those that do not work with zero. -/
theorem complete_pureJob : ((pureJob g fn).complete f (s.caravan ci) (s.wanting ci).length (g.pops f (s.wanting ci).length) (s.lanes ci g f) []
    (s.atIssue ci)).1 = s.completed (s.atWork ci g f) ci g f ((s.lanes ci g f).map fun l => (l, s.laneGets ci g f fn l)) := by
  have hacq := acquires_lanes s ci g f
  have hd := lanes_nodup s ci g f
  generalize hls : s.lanes ci g f = ls at hacq hd ⊢
  have hlive : ls.filter (fun l => !([] : List Nat).contains l.agent) = ls := by simp
  have hgood : ls.filter (fun l => l.want || (!(pureJob g fn).uniform &&
      ((pureJob g fn).firstFault (s.atIssue ci) (s.caravan ci) f l.agent).isNone &&
      ((pureJob g fn).check (s.atIssue ci) l).isNone)) = ls.filter (s.laneWorks ci g f) := by
    refine List.filter_congr fun l _ => ?_
    rw [firstFault_pureJob]
    simp [pureJob, State.laneWorks]
  have hwant : (ls.filter (s.laneWorks ci g f)).filter (·.want) = ls.filter (·.want) := by
    rw [List.filter_filter]
    exact List.filter_congr fun l _ => by cases hw : l.want <;> simp [State.laneWorks, hw]
  have hstay : (fun i => ([] : List Nat).contains (((ls.filter (·.want)).map (·.agent)).getD i 0)) = fun _ => false := by
    funext i; simp
  have hzip : (ls.filter (s.laneWorks ci g f)).zip ((ls.filter (s.laneWorks ci g f)).map fn) =
      (ls.filter (s.laneWorks ci g f)).map fun l => (l, fn l) := by
    rw [← List.map_prod_left_eq_zip]
  have hperform (u : State) (xs : List Lane) : (pureJob g fn).perform u xs = (u, xs.map fn) := rfl
  have hcommit (t : State) : ls.foldl (fun t l => t.updAgent l.agent ((pureJob g fn).commit f l
        ((pureJob g fn).resultFor ((ls.filter (s.laneWorks ci g f)).map fun l => (l, fn l)) l))) t =
      t.commitLanes g f (ls.map fun l => (l, s.laneGets ci g f fn l)) := by
    unfold State.commitLanes
    rw [List.foldl_map]
    refine List.foldl_ext _ _ _ fun t l hl => ?_
    rw [resultFor_working hd _ hl]
    rfl
  unfold Job.complete
  simp only [hlive]
  rw [hgood, hwant, hacq]
  simp only [show (pureJob g fn).uniform = false from rfl, show (pureJob g fn).late = false from rfl, Bool.false_eq_true, if_false, hstay,
    hperform, hzip]
  rw [hcommit]
  exact pushResults_filter _ _ _ (fun l hw => by simp [State.laneWorks, hw]) _ (fun l hl => if_pos hl) _

/-- The spec lemma of an instruction that only gives each lane a result, where helpers may fail R87. -/
theorem issue_pureJob (h : MayIssue s ci g f) : (pureJob g fn).issue f s = .next ((s.completed (s.atWork ci g f) ci g f
    ((s.lanes ci g f).map fun l => (l, s.laneGets ci g f fn l))).advance ci f.size) := by
  have hrest : (pureJob g fn).rest f ci s = (s.completed (s.atWork ci g f) ci g f
      ((s.lanes ci g f).map fun l => (l, s.laneGets ci g f fn l))).goOn ci f.size none := by
    rw [← complete_pureJob]; rfl
  unfold Job.issue
  rw [h.focus]
  simp only
  rw [run_pureJob h, hrest, completed_goOn (s := s) (w := s.atWork ci g f) _ h.wants (atWork_members s ci _ _) fun m hm => by
    rw [atWork_wait]; exact h.idle m hm]

/-- The lane of a member. -/
theorem lane_of_member {m : Member} (hm : m ∈ s.members ci) : ∃ l ∈ s.lanes ci g f, l.agent = m.agent ∧ l.want = m.want := by
  have h := buildLanes_map s (s.caravan ci).core g f (s.wanting ci).length (s.members ci) 0
  rw [← h] at hm
  obtain ⟨l, hl, rfl⟩ := List.mem_map.1 hm
  exact ⟨l, hl, rfl, rfl⟩

theorem wordOfResult_zero (drover : Bool) (r : Res) (j : Nat) : wordOfResult drover r 0 j = 0 := by
  have hbit : (0 : QWord).getLsbD 31 = false := by decide
  have hword : (0 : QWord).extractLsb' (32 * j) 32 = 0 := BitVec.eq_of_toNat_eq (by simp)
  unfold wordOfResult
  split
  · rw [hbit]; simp
  · exact hword

/-- What a helper that does not work is left with: nothing changed but its destination, which is zero. -/
theorem completed_idle (hdst : g.dst ≠ .none) {l : Lane} (hl : l ∈ s.lanes ci g f) (hidle : s.laneWorks ci g f l = false)
    (hlt : l.agent < s.agents.length) :
    let b := (s.completed (s.atWork ci g f) ci g f ((s.lanes ci g f).map fun l => (l, s.laneGets ci g f fn l))).agent l.agent
    b.trapMode = (s.agent l.agent).trapMode ∧ b.stand = (s.agent l.agent).stand ∧
    (∀ k ∈ dstWords (s.agent l.agent).drover f.dst g.dst, b.word k = 0) ∧
    ∀ k, k ∉ dstWords (s.agent l.agent).drover f.dst g.dst → b.word k = (s.agent l.agent).word k := by
  intro b
  have hd : (((s.lanes ci g f).map fun l => (l, s.laneGets ci g f fn l)).map (·.1.agent)).Nodup := by
    rw [List.map_map]; exact lanes_nodup s ci g f
  have hmem : (l, s.laneGets ci g f fn l) ∈ (s.lanes ci g f).map fun l => (l, s.laneGets ci g f fn l) := List.mem_map_of_mem hl
  have hgets : s.laneGets ci g f fn l = {} := if_neg (by rw [hidle]; decide)
  obtain ⟨v, hv⟩ := atWork_agent s ci g f l.agent
  have hb : b = commitAgent l.want (g.writes f {}) 0 { s.agent l.agent with adv := v } := by
    have e := completed_lane s (s.atWork ci g f) ci g f _ hd hmem (by rw [atWork_agents_length]; exact hlt)
    rw [hv] at e
    rw [hgets] at e
    exact e
  have hres : g.resOf {} = g.dst := rfl
  obtain ⟨hout, hin⟩ := commitAgent_words l.want g f {} 0 { s.agent l.agent with adv := v }
  rw [if_neg hdst, hres, ← hb] at hout hin
  have hframe := commitAgent_frame l.want (g.writes f {}) 0 { s.agent l.agent with adv := v }
  rw [← hb] at hframe
  refine ⟨by rw [hframe], by rw [hframe], fun k hk => ?_, fun k hk => (hout k hk).1⟩
  obtain ⟨j, hj⟩ := List.mem_iff_getElem?.1 hk
  rw [(hin j k hj).1]
  exact wordOfResult_zero _ _ _

end

end Sys2Proof.Machine

namespace Sys2Proof.Machine

/-! # A thread alone whose instruction faults (R19, R87) -/

section
variable {s : State} {ci i : Nat} {f : Fields} {j : Job} {x : Trap}

theorem members_alone (h : Alone s ci i) : s.members ci = [⟨i, true⟩] := by
  obtain ⟨-, -, hm, -⟩ := h
  simp [State.members, State.laneMembers, hm]

theorem wanting_alone (h : Alone s ci i) : s.wanting ci = [⟨i, true⟩] := by simp [State.wanting, members_alone h]

theorem clearWait_alone (h : Alone s ci i) (hr : (s.agent i).wait = .ready) : (s.begin ci).clearWait (s.caravan ci) = s.begin ci := by
  obtain ⟨-, -, hm, -⟩ := h
  refine clearWait_ready _ _ fun m hm' => ?_
  rw [hm, List.mem_singleton] at hm'
  rw [hm']; exact hr

/-- The checks of R87 come before anything else: the thread is taken out with the first fault. -/
theorem Job.issue_firstFault (hfocus : s.focus = some ci) (h : Alone s ci i) (hr : (s.agent i).wait = .ready)
    (hx : j.firstFault (s.begin ci) (s.caravan ci) f i = some x) :
    j.issue f s = .next ((s.begin ci).raise ci (s.caravan ci) f.size [(i, x)]) := by
  have hlm : (s.begin ci).laneMembers (s.caravan ci) = [⟨i, true⟩] := members_alone h
  have hfaults : faultsOf j.uniform [i] (j.firstFault (s.begin ci) (s.caravan ci) f) = [(i, x)] := by
    unfold faultsOf; cases j.uniform <;> simp [hx]
  have hnone : (([⟨i, true⟩] : List Member).filter fun m =>
      !([i] ++ (s.begin ci).quadMates (s.caravan ci) [i]).contains m.agent) = [] := by simp
  have hwants : (([⟨i, true⟩] : List Member).filter (·.want)).map (·.agent) = [i] := rfl
  unfold Job.issue
  rw [hfocus]
  simp only
  unfold Job.run
  simp only [clearWait_alone h hr, hlm, hwants, hfaults, List.map_cons, List.map_nil, hnone, List.filter_nil, List.length_nil, if_true]

/-- The lane of a thread alone. -/
theorem lanes_alone (h : Alone s ci i) (g : Sig) : ∃ l, s.lanes ci g f = [l] ∧ l.agent = i ∧ l.want = true := by
  have hmap := buildLanes_map s (s.caravan ci).core g f (s.wanting ci).length (s.members ci) 0
  obtain ⟨l, hl, hl'⟩ : ∃ l, s.lanes ci g f = [l] ∧ Member.mk l.agent l.want = ⟨i, true⟩ := by
    rw [members_alone h] at hmap
    have hone : (s.lanes ci g f).length = 1 := by
      have e := congrArg List.length hmap
      rw [List.length_map] at e
      unfold State.lanes; rw [members_alone h]; exact e
    obtain ⟨l, hl⟩ := List.length_eq_one_iff.1 hone
    refine ⟨l, hl, ?_⟩
    unfold State.lanes at hl
    rw [members_alone h] at hl
    rw [hl] at hmap
    simpa using hmap
  cases l
  simp only [Member.mk.injEq] at hl'
  exact ⟨_, hl, hl'.1, hl'.2⟩

theorem updTokens_id (t : State) (core q : Nat) {g : List DWord → List DWord} (h : ∀ ts, g ts = ts) : t.updTokens core q g = t := by
  have hqueues (c : Core) : updAt c.queues q (fun k => { k with tokens := g k.tokens }) = c.queues := updAt_id _ _ _ {} (by rw [h])
  have hcores : updAt t.cores core (fun c => { c with queues := updAt c.queues q fun k => { k with tokens := g k.tokens } }) = t.cores :=
    updAt_id _ _ _ {} (by rw [hqueues])
  unfold State.updTokens State.updCore
  rw [hcores]

/-- Where every lane stays, no token is taken. -/
theorem takeTokens_stay (t : State) (core : Nat) (pops : List (Nat × Nat)) (n : Nat) {stay : Nat → Bool} (h : ∀ k, stay (k % n) = true) :
    t.takeTokens core pops n stay = t := by
  have hall (k : Nat) (ts : List DWord) :
      (ts.take k).zipIdx.filterMap (fun e => if stay (e.2 % n) then some e.1 else none) ++ ts.drop k = ts := by
    have hsome : (fun e : DWord × Nat => if stay (e.2 % n) then some e.1 else none) = some ∘ Prod.fst := by
      funext e; simp [h]
    rw [hsome, List.filterMap_eq_map, List.zipIdx_map_fst, List.take_append_drop]
  unfold State.takeTokens
  induction pops with
  | nil => rfl
  | cons p pops ih => rw [List.foldl_cons, updTokens_id t core p.1 (hall p.2), ih]

/-- Where every lane is taken out, nothing is done. -/
theorem Job.Plain.complete_out (hj : j.Plain) (hnone : ∀ u, j.perform u [] = (u, [])) {c : Caravan} {n : Nat} {pops : List (Nat × Nat)}
    {lanes : List Lane} {out : List Nat} {u : State} (hlive : (lanes.filter fun l => !out.contains l.agent) = [])
    (hstay : ∀ k, out.contains (((lanes.filter (·.want)).map (·.agent)).getD (k % n) 0) = true) :
    j.complete f c n pops lanes out u = (u, []) := by
  have hpush : u.pushResults c.core j.sig f [] = u := by unfold State.pushResults; split <;> rfl
  have htake := takeTokens_stay u c.core pops n (stay := fun k => out.contains (((lanes.filter (·.want)).map (·.agent)).getD k 0)) hstay
  unfold Job.complete
  simp only [hlive, List.filter_nil, hj.uniform, hj.late, Bool.false_eq_true, if_false, List.foldl_nil, ite_self, hnone, List.zip_nil_left,
    htake, hpush]

/-- A check of the opcode's own comes after R87 and the waits: the thread is taken out with its fault, and nothing is done. -/
theorem Job.Plain.issue_refused (hj : j.Plain) (hready : Ready s ci j.sig f) (h : Alone s ci i)
    (hnone : ∀ u, j.perform u [] = (u, [])) {l : Lane} (hl : l ∈ s.lanes ci j.sig f) (hx : j.check (s.begin ci) l = some x)
    (hgone : (((s.begin ci).raise ci (s.caravan ci) f.size [(i, x)]).caravan ci).members = []) :
    j.issue f s = .next ((s.begin ci).raise ci (s.caravan ci) f.size [(i, x)]) := by
  obtain ⟨l', hls, hag, hw⟩ := lanes_alone (f := f) h j.sig
  obtain rfl : l = l' := by simpa [hls] using hl
  have hlm : (s.begin ci).laneMembers (s.caravan ci) = s.members ci := rfl
  have hu : (s.begin ci).clearWait (s.caravan ci) = s.begin ci := clearWait_ready _ _ hready.idle
  have hf1 : faultsOf j.uniform ((s.wanting ci).map (·.agent)) (j.firstFault (s.begin ci) (s.caravan ci) f) = [] := by
    refine faultsOf_none _ _ _ fun k hk => ?_
    obtain ⟨m, hm, rfl⟩ := List.mem_map.1 hk
    have hlegal := hready.legal m (List.mem_filter.1 hm).1
    simp only [Job.firstFault, staticFault_begin, begin_agent, hlegal]
    exact hj.early _ _
  have hlanes : (s.begin ci).buildLanes (s.caravan ci).core j.sig f (s.wanting ci).length (s.members ci) 0 = [l] :=
    (buildLanes_begin s ci _ _ _ _ _ _).trans hls
  have hf2 : j.laneFaults (s.begin ci) [l] = [(i, x)] := by
    unfold Job.laneFaults
    rw [hj.checkAll]
    simp [faultsOf, hj.uniform, hw, hx, hag]
  have hq : (s.begin ci).queuesReady (s.lead ci) (j.sig.pops f (s.wanting ci).length) (j.sig.pushes f (s.wanting ci).length) = true := by
    rw [queuesReady_begin]; exact hready.queues
  have hn : (s.wanting ci).length ≠ 0 := fun e => hready.wants (List.length_eq_zero_iff.1 e)
  have hwl : (s.members ci).filter (·.want) = s.wanting ci := rfl
  have hlead : (s.begin ci).agent ((s.members ci).headD ⟨0, false⟩).agent = s.lead ci := rfl
  have hms : (s.members ci).filter (fun m => !([] : List Nat).contains m.agent) = s.members ci := by simp
  have hcomplete : j.complete f (s.caravan ci) (s.wanting ci).length (j.sig.pops f (s.wanting ci).length) [l]
      ([i] ++ (s.begin ci).quadMates (s.caravan ci) [i]) (s.begin ci) = (s.begin ci, []) :=
    hj.complete_out hnone (by simp [hag]) fun k => by simp [wanting_alone h, hw, hag, Nat.mod_one]
  unfold Job.issue
  rw [hready.focus]
  simp only
  unfold Job.run
  simp only [hu, hlm, hwl, hf1, List.map_nil, quadMates_nil, List.append_nil, hms, hlead, hj.waits, hn, if_false, hq, Bool.not_true,
    Bool.false_eq_true, hj.idle, Bool.false_and, hlanes, hf2, List.map_cons, hcomplete, hj.finish, hj.leave, List.nil_append]
  refine congrArg Host.Outcome.next ?_
  unfold State.goOn
  simp only [hgone, List.isEmpty_nil, if_true]

end

end Sys2Proof.Machine

namespace Sys2Proof.Machine

/-! # Storage and translation do not depend on caravans and cores

The issue of an instruction counts a cycle of its core and ends its caravan's age before its lanes are checked; what an access meets
and how it is translated is the same before and after. -/

/-- The same machine with other caravans and cores. -/
def State.regrouped (s : State) (cs : List Caravan) (ks : List Core) : State := { s with caravans := cs, cores := ks }

theorem begin_regrouped (s : State) (ci : Nat) : s.begin ci = s.regrouped (s.begin ci).caravans (s.begin ci).cores := rfl

section
variable (s : State) (cs : List Caravan) (ks : List Core)

theorem foldl_regrouped {β : Type} {f : State → β → State} (hf : ∀ (t : State) (x : β), f (t.regrouped cs ks) x = (f t x).regrouped cs ks)
    (xs : List β) : ∀ s : State, xs.foldl f (s.regrouped cs ks) = (xs.foldl f s).regrouped cs ks := by
  induction xs with
  | nil => exact fun _ => rfl
  | cons x xs ih => intro s; rw [List.foldl_cons, List.foldl_cons, hf, ih]

theorem ite_regrouped (c : Prop) [Decidable c] (t u : State) :
    (if c then t.regrouped cs ks else u.regrouped cs ks) = (if c then t else u).regrouped cs ks := by split <;> rfl

theorem localPa_regrouped (pa : Nat) : (s.regrouped cs ks).localPa pa = s.localPa pa := rfl
theorem region_regrouped (pa : Nat) : (s.regrouped cs ks).region pa = s.region pa := rfl
theorem peekNat_regrouped (pa n : Nat) : (s.regrouped cs ks).peekNat pa n = s.peekNat pa n := rfl
theorem isDirty_regrouped (sec : Nat) : (s.regrouped cs ks).isDirty sec = s.isDirty sec := rfl
theorem dirtyOf_regrouped (line : Nat) : (s.regrouped cs ks).dirtyOf line = s.dirtyOf line := rfl
theorem latent_regrouped : (s.regrouped cs ks).latent = s.latent := rfl
theorem reds_regrouped : (s.regrouped cs ks).reds = s.reds := rfl
theorem setReds_regrouped (l : List PendRed) : ({ s.regrouped cs ks with reds := l } : State) = State.regrouped { s with reds := l } cs ks := rfl

theorem updLog_regrouped (a : ArrayId) (f : ArrayLog → ArrayLog) : (s.regrouped cs ks).updLog a f = (s.updLog a f).regrouped cs ks := by
  unfold State.updLog
  rw [← ite_regrouped]; rfl

theorem fireInjection_regrouped (a : ArrayId) (target loc : Nat) :
    (s.regrouped cs ks).fireInjection a target loc = (s.fireInjection a target loc).regrouped cs ks := by
  unfold State.fireInjection
  simp only
  rw [← ite_regrouped, updLog_regrouped]; rfl

theorem put_regrouped (ctx pa : Nat) (bs : List Byte) : (s.regrouped cs ks).put ctx pa bs = (s.put ctx pa bs).regrouped cs ks := by
  unfold State.put
  simp only
  rw [← ite_regrouped, ← foldl_regrouped cs ks fun t sec => by rw [fireInjection_regrouped, fireInjection_regrouped]]; rfl

theorem postEventAt_regrouped (q : DWord) (kind ctx core : Nat) (d0 d1 : DWord) :
    (s.regrouped cs ks).postEventAt q kind ctx core d0 d1 = (s.postEventAt q kind ctx core d0 d1).regrouped cs ks := by
  unfold State.postEventAt
  simp only
  rw [← ite_regrouped, put_regrouped]; rfl

theorem takeSeq_regrouped : (s.regrouped cs ks).takeSeq = (s.takeSeq.1, s.takeSeq.2.regrouped cs ks) := rfl

theorem updCtx_regrouped (i : Nat) (f : Context → Context) : (s.regrouped cs ks).updCtx i f = (s.updCtx i f).regrouped cs ks := rfl

theorem logDropped_regrouped (a : ArrayId) (loc : Nat) (ctx : Option Nat) (inj : Bool) :
    (s.regrouped cs ks).logDropped a loc ctx inj = (s.logDropped a loc ctx inj).regrouped cs ks := by
  unfold State.logDropped
  simp only [takeSeq_regrouped]
  rw [updLog_regrouped]
  cases ctx with
  | none => simp only [postEventAt_regrouped]
  | some c => simp only [updCtx_regrouped, postEventAt_regrouped]

theorem logCorrected_regrouped (a : ArrayId) (loc : Nat) (ctx : Option Nat) (inj : Bool) :
    (s.regrouped cs ks).logCorrected a loc ctx inj = (s.logCorrected a loc ctx inj).regrouped cs ks := by
  have harray (u : State) : (u.regrouped cs ks).arrayLog a = u.arrayLog a := rfl
  unfold State.logCorrected
  simp only
  rw [updLog_regrouped]
  simp only [harray, takeSeq_regrouped]
  rw [← ite_regrouped, updLog_regrouped]

theorem meetErrors_regrouped (a : ArrayId) (loc : Nat) (ctx : Option Nat) (drops : Nat) {lose : State → State}
    (hl : ∀ t : State, lose (t.regrouped cs ks) = (lose t).regrouped cs ks) :
    (s.regrouped cs ks).meetErrors a loc ctx drops lose = (s.meetErrors a loc ctx drops lose).regrouped cs ks := by
  have hstep (hits : List Latent) (u : State) : hits.foldl (fun t l => if !l.double then t.logCorrected a loc ctx l.injected
      else (List.range drops).foldl (fun u _ => u.logDropped a loc ctx l.injected) t) (u.regrouped cs ks) =
      (hits.foldl (fun t l => if !l.double then t.logCorrected a loc ctx l.injected
        else (List.range drops).foldl (fun u _ => u.logDropped a loc ctx l.injected) t) u).regrouped cs ks :=
    foldl_regrouped cs ks (fun t l => by
      rw [← ite_regrouped, logCorrected_regrouped, foldl_regrouped cs ks fun t _ => logDropped_regrouped t cs ks _ _ _ _]) hits u
  unfold State.meetErrors
  simp only
  rw [← ite_regrouped, ← ite_regrouped, ← hl, ← hstep]; rfl

theorem meetTag_regrouped (ctx : Option Nat) (sec : Nat) : (s.regrouped cs ks).meetTag ctx sec = (s.meetTag ctx sec).regrouped cs ks := by
  unfold State.meetTag
  simp only [dirtyOf_regrouped]
  exact meetErrors_regrouped s cs ks _ _ _ _ fun _ => rfl

theorem meetSector_regrouped (ctx : Option Nat) (sec : Nat) :
    (s.regrouped cs ks).meetSector ctx sec = (s.meetSector ctx sec).regrouped cs ks := by
  have hzero (t : State) : (t.regrouped cs ks).zeroSector sec = (t.zeroSector sec).regrouped cs ks := by
    simp only [State.zeroSector, State.regrouped]
  have hmeet (t : State) (a : ArrayId) (loc n : Nat) : (t.regrouped cs ks).meetErrors a loc ctx n (fun t => t.zeroSector sec) =
      (t.meetErrors a loc ctx n fun t => t.zeroSector sec).regrouped cs ks := meetErrors_regrouped t cs ks a loc ctx n hzero
  unfold State.meetSector
  simp only [region_regrouped, meetTag_regrouped, isDirty_regrouped, hmeet, ite_regrouped]

theorem meetWrite_regrouped (ctx pa n : Nat) : (s.regrouped cs ks).meetWrite ctx pa n = (s.meetWrite ctx pa n).regrouped cs ks := by
  have hstep (t : State) (sec : Nat) : (if !((t.regrouped cs ks).region sec).isMain && !((t.regrouped cs ks).region sec).isScratch
      then t.regrouped cs ks
      else if pa ≤ sec ∧ sec + 32 ≤ pa + n then (t.regrouped cs ks).meetTag (chargedTo ctx) sec
      else (t.regrouped cs ks).meetSector (chargedTo ctx) sec) = (if !(t.region sec).isMain && !(t.region sec).isScratch then t
      else if pa ≤ sec ∧ sec + 32 ≤ pa + n then t.meetTag (chargedTo ctx) sec else t.meetSector (chargedTo ctx) sec).regrouped cs ks := by
    simp only [region_regrouped, meetTag_regrouped, meetSector_regrouped, ite_regrouped]
  unfold State.meetWrite
  rw [latent_regrouped, foldl_regrouped cs ks hstep, ite_regrouped]

theorem applyReds_regrouped (pa n : Nat) : (s.regrouped cs ks).applyReds pa n = (s.applyReds pa n).regrouped cs ks := by
  unfold State.applyReds
  simp only [reds_regrouped]
  split
  · rfl
  · rw [setReds_regrouped, meetWrite_regrouped, peekNat_regrouped, put_regrouped]

theorem settleReds_regrouped (pa n : Nat) : (s.regrouped cs ks).settleReds pa n = (s.settleReds pa n).regrouped cs ks := by
  have hstep (t : State) (e : Nat) : (t.regrouped cs ks).applyReds e ((t.regrouped cs ks).reds.filter fun r => r.pa = e).length =
      (t.applyReds e (t.reds.filter fun r => r.pa = e).length).regrouped cs ks := applyReds_regrouped t cs ks _ _
  unfold State.settleReds
  simp only [reds_regrouped]
  rw [foldl_regrouped cs ks hstep]
  exact ite_regrouped cs ks _ _ _

theorem meetPa_regrouped (ctx : Option Nat) (pa n : Nat) : (s.regrouped cs ks).meetPa ctx pa n = (s.meetPa ctx pa n).regrouped cs ks := by
  have hstep (t : State) (sec : Nat) : (if ((t.regrouped cs ks).region sec).isMain || ((t.regrouped cs ks).region sec).isScratch
      then (t.regrouped cs ks).meetSector ctx sec else t.regrouped cs ks) =
      (if (t.region sec).isMain || (t.region sec).isScratch then t.meetSector ctx sec else t).regrouped cs ks := by
    simp only [region_regrouped, meetSector_regrouped, ite_regrouped]
  unfold State.meetPa
  simp only [localPa_regrouped, settleReds_regrouped, latent_regrouped]
  rw [foldl_regrouped cs ks hstep]
  exact ite_regrouped cs ks _ _ _

theorem walkAt_regrouped (ctx va : Nat) : ∀ lv t, (s.regrouped cs ks).walkAt ctx va lv t = s.walkAt ctx va lv t
  | 0, t => by
    have hpeek (u : State) (pa n : Nat) : (u.regrouped cs ks).peekNat pa n = u.peekNat pa n := rfl
    unfold State.walkAt
    simp only [meetPa_regrouped, hpeek]
    rfl
  | n + 1, t => by
    have hpeek (u : State) (pa n : Nat) : (u.regrouped cs ks).peekNat pa n = u.peekNat pa n := rfl
    have hok (k : Nat) : (s.regrouped cs ks).tableOk k = s.tableOk k := rfl
    unfold State.walkAt
    simp only [meetPa_regrouped, hpeek, hok, walkAt_regrouped ctx va n]
    rfl

theorem lookup_regrouped (ctx core va : Nat) : (s.regrouped cs ks).lookup ctx core va = s.lookup ctx core va := by
  have hwalk : (s.regrouped cs ks).walk ctx va = s.walk ctx va := by
    unfold State.walk
    rw [walkAt_regrouped]; rfl
  unfold State.lookup
  rw [hwalk]; rfl

theorem access_regrouped (ctx core : Nat) (acc : Access) (va n : Nat) :
    (s.regrouped cs ks).access ctx core acc va n = s.access ctx core acc va n := by
  unfold State.access
  simp only [lookup_regrouped]
  rfl

end

/-- An access is checked the same once the issue has begun. -/
theorem laneAccess_begin (s : State) (ci : Nat) (l : Lane) (acc : Access) (va n : Nat) :
    (s.begin ci).laneAccess l acc va n = s.laneAccess l acc va n := by
  rw [begin_regrouped]; exact access_regrouped s _ _ _ _ _ _ _

end Sys2Proof.Machine

namespace Sys2Proof.Machine

/-! # Faults are taken precisely (R16, R19, R23, R76, R87, R112, R156, R212) -/

section
variable {s : State} {ci i : Nat} {e : Word} {f : Fields} {j : Job} {x : Trap}

/-- A fault of R87 is taken. -/
theorem MayTrap.of_firstFault (h : MayTrap s ci i e) (hx : j.firstFault (s.begin ci) (s.caravan ci) f i = some x)
    (hresume : x.code.resumesAfter = false) : ∃ t, j.issue f s = .next t ∧ TrapTaken s t ci i e x.code.code x.info x.addr :=
  ⟨_, Job.issue_firstFault h.focus h.alone h.ready hx, (trapTaken_raise_begin h.trapsTo hresume f.size).1⟩

/-- A fault of the opcode's own check is taken. -/
theorem MayTrap.of_check (h : MayTrap s ci i e) (hj : j.Plain) (hready : Ready s ci j.sig f) (hnone : ∀ u, j.perform u [] = (u, []))
    (hx : ∀ l ∈ s.lanes ci j.sig f, l.agent = i → j.check (s.begin ci) l = some x) (hresume : x.code.resumesAfter = false) :
    ∃ t, j.issue f s = .next t ∧ TrapTaken s t ci i e x.code.code x.info x.addr := by
  obtain ⟨htaken, hgone⟩ := trapTaken_raise_begin h.trapsTo hresume f.size
  obtain ⟨l, hls, hag, -⟩ := lanes_alone (f := f) h.alone j.sig
  have hl : l ∈ s.lanes ci j.sig f := by rw [hls]; exact List.mem_singleton_self l
  exact ⟨_, hj.issue_refused hready h.alone hnone hl (hx l hl hag) hgone, htaken⟩

/-- A thread alone has one lane. -/
theorem lane_alone_unique (h : Alone s ci i) {g : Sig} {l k : Lane} (hl : l ∈ s.lanes ci g f) (hk : k ∈ s.lanes ci g f) : k = l := by
  obtain ⟨l', hls, -, -⟩ := lanes_alone (f := f) h g
  rw [hls, List.mem_singleton] at hl hk
  rw [hl, hk]

/-! ## An integer add -/

theorem res_ne_none (ty : IntTy) : ty.res ≠ .none := by cases ty <;> decide

/-- A thread's register past the launch's count is no destination. -/
theorem checkDst_past (ty : IntTy) {a : Agent} (hd : a.drover = false) (hdst : f.dst.toNat < 0x200)
    (hn : (s.launch a.launch).regs ≤ f.dst.toNat) :
    s.checkDst a (typedSig ty) f = some (badField 0) := by
  have hw : (typedSig ty).dst.width ≠ 0 := by cases ty <;> decide
  have hgz : f.dst ≠ gz := fun h => by rw [h] at hdst; exact absurd hdst (by decide)
  have hcount : s.regCount a = (s.launch a.launch).regs := by simp [State.regCount, hd]
  have hsize : ¬(f.dst.toNat < s.regCount a ∧ f.dst.toNat % ((typedSig ty).dst.width / 32) = 0) := by rw [hcount]; omega
  unfold State.checkDst
  simp only [hw, if_false, show (typedSig ty).dstRegs = 0 from rfl, Nat.lt_irrefl, hd, Bool.false_eq_true, false_and, hgz, hdst, if_true, hsize]

/-- Nor is it a source. -/
theorem checkSource_past (ty : IntTy) {a : Agent} (hd : a.drover = false) (hsa : f.sa.toNat < 0x200)
    (hn : (s.launch a.launch).regs ≤ f.sa.toNat) : s.checkSource a (typedSig ty) (typedSig ty).a f.sa 1 = some (badField 1) := by
  have hreg (w : Nat) : a.regSource (s.regCount a) f.sa.toNat w = none := by
    simp [Agent.regSource, State.regCount, hd, hn]
  have hsource : s.source a ty.pos f.sa = none := by
    unfold State.source
    cases ty <;> simp [IntTy.pos, Pos.isChoice, hd, hsa, hreg]
  have hpos : ty.pos ≠ .none := by cases ty <;> decide
  unfold State.checkSource
  rw [show (typedSig ty).a = ty.pos from rfl, hsource, if_neg hpos]

/-- The fault an integer add takes by R87. -/
theorem intAdd_traps {o : Operands} (ty : IntTy) (h : MayTrap s ci i e) {x : Trap}
    (hx : s.staticFault (s.caravan ci) (s.agent i) (typedSig ty) o.fields = some x) (hresume : x.code.resumesAfter = false) :
    ∃ t, exec (.intAdd ty o) s = .next t ∧ TrapTaken s t ci i e x.code.code x.info x.addr :=
  h.of_firstFault (j := natJob (typedSig ty) (fnAdd ty)) ((firstFault_pureJob (ci := ci) i).trans hx) hresume

theorem staticFault_illegal {c : Caravan} {a : Agent} {g : Sig} (h : s.checkKind c a g f = false ∨ checkFields g f = false) :
    s.staticFault c a g f = some { code := .illegalInstruction } := by
  unfold State.staticFault
  by_cases hk : s.checkKind c a g f = true
  · have hf : checkFields g f = false := h.resolve_left (by rw [hk]; decide)
    rw [hk, hf]; rfl
  · rw [Bool.not_eq_true] at hk
    rw [hk]; rfl

theorem staticFault_operands {c : Caravan} {a : Agent} {g : Sig} (hk : s.checkKind c a g f = true) (hf : checkFields g f = true) :
    s.staticFault c a g f = s.checkOperands a g f := by
  unfold State.staticFault
  rw [hk, hf]; rfl

/-- A helper that would fault raises nothing and gets zero. -/
theorem intAdd_helpers (ty : IntTy) (o : Operands) (hfocus : s.focus = some ci)
    (hmembers : ∀ m ∈ (s.caravan ci).members, (s.agent m.agent).wait = .ready ∧ m.agent < s.agents.length) (hwants : s.wanting ci ≠ [])
    (hlegal : ∀ m ∈ s.wanting ci, s.staticFault (s.caravan ci) (s.agent m.agent) (typedSig ty) o.fields = none) (hin : Inside s ci o.fields)
    (hqueues : s.queuesReady (s.lead ci) ((typedSig ty).pops o.fields (s.wanting ci).length)
      ((typedSig ty).pushes o.fields (s.wanting ci).length) = true) :
    ∃ t, exec (.intAdd ty o) s = .next t ∧ (Quiet s → t.hub.seq = s.hub.seq) ∧ ∀ m ∈ s.members ci, m.want = false →
      s.staticFault (s.caravan ci) (s.agent m.agent) (typedSig ty) o.fields ≠ none →
      (t.agent m.agent).trapMode = (s.agent m.agent).trapMode ∧ (t.agent m.agent).stand = (s.agent m.agent).stand ∧
      (∀ k ∈ dstWords (s.agent m.agent).drover o.fields.dst (typedSig ty).dst, (t.agent m.agent).word k = 0) ∧
      ∀ k, k ∉ dstWords (s.agent m.agent).drover o.fields.dst (typedSig ty).dst → (t.agent m.agent).word k = (s.agent m.agent).word k := by
  have hissue : MayIssue s ci (typedSig ty) o.fields := ⟨hfocus, fun m hm => (hmembers m hm).1, hwants, hlegal, hqueues⟩
  refine ⟨_, issue_pureJob hissue, fun hquiet => ?_, fun m hm hw hfault => ?_⟩
  all_goals rw [((completed_advance hwants _).1 hin).1]
  · obtain ⟨hl, -, hg⟩ := hquiet
    obtain ⟨-, -, -, hh⟩ := ((atWork_reportsNothing s ci _ _).trans (completed_reportsNothing s _ ci _ _ _)).keeps hl hg
    exact congrArg _ hh
  · obtain ⟨l, hl, hag, hwant⟩ := lane_of_member (g := typedSig ty) (f := o.fields) hm
    rw [← hag] at hfault ⊢
    refine completed_idle (res_ne_none ty) hl ?_ ?_
    · unfold State.laneWorks
      rw [hwant, hw, Bool.false_or]
      exact Option.isNone_eq_false_iff.2 (Option.isSome_iff_ne_none.2 hfault)
    · rw [hag]; exact (hmembers m (laneMembers_subset hm)).2

/-! ## csrr and csrw -/

theorem csrr_traps {o : Operands} (h : MayTrap s ci i e) (hready : Ready s ci (csrrJob o.fields).sig o.fields) {l : Lane}
    (hl : l ∈ s.lanes ci (csrrJob o.fields).sig o.fields) (hno : ∀ row ∈ csrTable s i, row.no ≠ l.b.toNat % 2 ^ 32) :
    ∃ t, exec (.csrr o) s = .next t ∧ TrapTaken s t ci i e 0x0001 0 0 := by
  refine h.of_check (csrrJob_plain o.fields) hready (x := { code := .illegalInstruction }) (fun _ => rfl) (fun k hk hag => ?_) rfl
  rw [lane_alone_unique h.alone hl hk] at hag ⊢
  have hnumbers := csrTable_numbers_begin s ci i
  have hread : (s.begin ci).csrRead l.agent (l.b.toNat % 2 ^ 32) = none := by
    rw [hag]
    refine csrRead_of_no_row _ _ fun row hrow he => ?_
    have hmem : row.no ∈ (csrTable s i).map (·.no) := hnumbers ▸ List.mem_map_of_mem hrow
    obtain ⟨row', hrow', he'⟩ := List.mem_map.1 hmem
    exact hno row' hrow' (he'.trans he)
  show csrrCheck o.fields (s.begin ci) l = _
  unfold csrrCheck
  rw [hread]

theorem csrw_traps {o : Operands} (h : MayTrap s ci i e) (hready : Ready s ci csrwJob.sig o.fields) {l : Lane}
    (hl : l ∈ s.lanes ci csrwJob.sig o.fields) (hno : l.b.toNat % 2 ^ 32 ∉ csrNumbersWritten (s.agent i)) :
    ∃ t, exec (.csrw o) s = .next t ∧ TrapTaken s t ci i e 0x0001 0 0 := by
  refine h.of_check csrwJob_plain hready (x := { code := .illegalInstruction }) (fun _ => rfl) (fun k hk hag => ?_) rfl
  rw [lane_alone_unique h.alone hl hk] at hag ⊢
  exact if_neg fun hw => hno (hag ▸ (csrWritable_iff _ _).1 hw)

/-! ## Tile memory and spill stacks (R112) -/

/-- The jobs of ld and st in t: and k:. -/
def loadPrivJob (sp : PrivSpace) (ty : LoadTy) : Job where
  sig := { dst := ty.res, a := .b32, b := .b32 }
  check := privCheck sp ty.bytes
  perform := eachLane (loadPrivLane sp ty)

def storePrivJob (sp : PrivSpace) (ty : StoreTy) : Job where
  sig := { a := .b32, b := .b32, c := ty.pos }
  check := privCheck sp ty.bytes
  perform := eachLane (storePrivLane sp ty)

theorem loadPrivJob_plain (sp : PrivSpace) (ty : LoadTy) : (loadPrivJob sp ty).Plain :=
  ⟨fun _ _ => rfl, fun _ _ => rfl, rfl, fun _ _ => rfl, rfl, rfl, rfl, rfl⟩

theorem storePrivJob_plain (sp : PrivSpace) (ty : StoreTy) : (storePrivJob sp ty).Plain :=
  ⟨fun _ _ => rfl, fun _ _ => rfl, rfl, fun _ _ => rfl, rfl, rfl, rfl, rfl⟩

/-- An access of t: or k: out of its space, and one that is misaligned. -/
theorem spaceAccess_traps {sp : PrivSpace} {n : Nat} (h : MayTrap s ci i e) (hj : j.Plain) (hcheck : j.check = privCheck sp n)
    (hnone : ∀ u, j.perform u [] = (u, [])) (hready : Ready s ci j.sig f) {l : Lane} (hl : l ∈ s.lanes ci j.sig f) :
    (privOffset l < 0 ∨ privOffset l + n > s.spaceSize (s.agent i) sp →
      ∃ t, j.issue f s = .next t ∧ TrapTaken s t ci i e 0x0005 sp.info (BitVec.ofInt 64 (privOffset l))) ∧
    (0 ≤ privOffset l → privOffset l + n ≤ s.spaceSize (s.agent i) sp → privOffset l % n ≠ 0 →
      ∃ t, j.issue f s = .next t ∧ TrapTaken s t ci i e 0x0009 sp.info (BitVec.ofInt 64 (privOffset l))) := by
  have hfault (k : Lane) (hk : k ∈ s.lanes ci j.sig f) (hag : k.agent = i) :
      j.check (s.begin ci) k = privFault sp n (s.spaceSize (s.agent i) sp) (privOffset l) := by
    rw [hcheck, lane_alone_unique h.alone hl hk] at *
    rw [← hag]; rfl
  refine ⟨fun hout => ?_, fun h0 hin hal => ?_⟩
  · refine h.of_check hj hready hnone (x := { code := .tileBound, info := sp.info, addr := BitVec.ofInt 64 (privOffset l) })
      (fun k hk hag => (hfault k hk hag).trans ?_) rfl
    exact if_pos hout
  · refine h.of_check hj hready hnone (x := { code := .alignment, info := sp.info, addr := BitVec.ofInt 64 (privOffset l) })
      (fun k hk hag => (hfault k hk hag).trans ?_) rfl
    unfold privFault
    simp only
    rw [if_neg (by omega), if_pos hal]

/-! ## Memory by virtual address (R212) -/

def loadVJob (ty : LoadTy) : Job where
  sig := { dst := ty.res, a := .b64, b := .b32 }
  check := fun s l => s.vFault l accLoad 0 (vaOffset l) ty.bytes true
  perform := fun s => eachLane (vLoadLane s vaOffset ty.bytes ty.extend) s

def storeVJob (ty : StoreTy) : Job where
  sig := { a := .b64, b := .b32, c := ty.pos }
  check := fun s l => s.vFault l accStore 1 (vaOffset l) ty.bytes true
  perform := vStoreLanes vaOffset ty.bytes

theorem loadVJob_plain (ty : LoadTy) : (loadVJob ty).Plain := ⟨fun _ _ => rfl, fun _ _ => rfl, rfl, fun _ _ => rfl, rfl, rfl, rfl, rfl⟩
theorem storeVJob_plain (ty : StoreTy) : (storeVJob ty).Plain := ⟨fun _ _ => rfl, fun _ _ => rfl, rfl, fun _ _ => rfl, rfl, rfl, rfl, rfl⟩

theorem checkPage_resumes {acc : Access} {t : Translation} {c : FaultCode} (h : s.checkPage acc t = some c) : c.resumesAfter = false := by
  unfold State.checkPage at h
  split at h
  · cases h; rfl
  · split at h
    · cases h; rfl
    · split at h
      · cases h; rfl
      · cases h

/-- No fault of an access resumes past its instruction (R379). -/
theorem access_resumes {ctx core va n : Nat} {acc : Access} {x : AccessFault} (h : s.access ctx core acc va n = .error x) :
    x.code.resumesAfter = false := by
  unfold State.access at h
  generalize pageParts va n = parts at h
  induction parts with
  | nil => cases h
  | cons p parts ih =>
    rw [List.foldr_cons] at h
    simp only at h
    split at h
    · cases h; rfl
    · split at h
      · cases h; rfl
      · split at h
        · rename_i hc; cases h; exact checkPage_resumes hc
        · generalize hr : List.foldr _ _ parts = rest at h ih
          cases rest with
          | ok ps => cases h
          | error y => cases h; exact ih rfl

/-- An access of v: that is misaligned, and one whose pages fault. -/
theorem pagedAccess_traps {acc : Access} {bits n : Nat} (h : MayTrap s ci i e) (hj : j.Plain)
    (hcheck : j.check = fun s l => s.vFault l acc bits (vaOffset l) n true) (hnone : ∀ u, j.perform u [] = (u, []))
    (hready : Ready s ci j.sig f) {l : Lane} (hl : l ∈ s.lanes ci j.sig f) :
    (vaOffset l % n ≠ 0 → ∃ t, j.issue f s = .next t ∧ TrapTaken s t ci i e 0x0009 2 (BitVec.ofNat 64 (vaOffset l))) ∧
    (∀ x, vaOffset l % n = 0 → s.laneAccess l acc (vaOffset l) n = .error x →
      ∃ t, j.issue f s = .next t ∧
        TrapTaken s t ci i e x.code.code (BitVec.ofNat 32 (bits + if x.upper then 4 else 0)) (BitVec.ofNat 64 x.va)) := by
  have hfault (k : Lane) (hk : k ∈ s.lanes ci j.sig f) : j.check (s.begin ci) k = s.vFault l acc bits (vaOffset l) n true := by
    rw [hcheck, lane_alone_unique h.alone hl hk]
    simp only [State.vFault, laneAccess_begin]
  refine ⟨fun hal => ?_, fun x hal hx => ?_⟩
  · refine h.of_check hj hready hnone (x := vMisaligned (vaOffset l)) (fun k hk _ => (hfault k hk).trans ?_) rfl
    exact if_pos (by simpa using hal)
  · refine h.of_check hj hready hnone (x := x.trap bits) (fun k hk _ => (hfault k hk).trans ?_) (access_resumes hx)
    unfold State.vFault
    rw [if_neg (by simpa using hal), hx]

end

/-- Settles O59: a fault of R87 is taken by `MayTrap.of_firstFault`, one of an opcode's own check by `MayTrap.of_check`, for the checks read
nothing that the beginning of the issue changes; a helper's zero is `completed_idle`. -/
theorem faultsArePrecise : Obligations.FaultsArePrecise := by
  refine ⟨fun s ci ty o hfocus hmembers hwants hlegal hin hqueues => intAdd_helpers ty o hfocus hmembers hwants hlegal hin hqueues,
    fun s ci i e h o => ⟨fun ty hbad => ?illegal, fun ty hk hf => ⟨fun hd hn => ?dst, fun hdst hs hn => ?source⟩,
      fun g hg hready l hl hno => ?csrr, fun g hg hready l hl hno => ?csrw, fun sp ty hready l hl => ?load, fun sp ty hready l hl => ?store,
      fun ty hready l hl => ?loadV, fun ty hready l hl => ?storeV⟩⟩
  case illegal => exact intAdd_traps ty h (staticFault_illegal hbad) rfl
  case dst =>
    refine intAdd_traps ty h (x := badField 0) ((staticFault_operands hk hf).trans ?_) rfl
    unfold State.checkOperands
    rw [checkDst_past ty h.thread hd hn]
  case source =>
    refine intAdd_traps ty h (x := badField 1) ((staticFault_operands hk hf).trans ?_) rfl
    unfold State.checkOperands
    rw [hdst, checkSource_past ty h.thread hs hn]
  case csrr => subst hg; exact csrr_traps h hready hl hno
  case csrw => subst hg; exact csrw_traps h hready hl hno
  case load => exact spaceAccess_traps (j := loadPrivJob sp ty) h (loadPrivJob_plain sp ty) rfl (fun _ => rfl) hready hl
  case store => exact spaceAccess_traps (j := storePrivJob sp ty) h (storePrivJob_plain sp ty) rfl (fun _ => rfl) hready hl
  case loadV =>
    obtain ⟨hal, hpage⟩ := pagedAccess_traps (j := loadVJob ty) h (loadVJob_plain ty) rfl (fun _ => rfl) hready hl
    refine ⟨hal, fun x hx ha => ?_⟩
    have ht := hpage x hx ha
    rw [Nat.zero_add] at ht
    exact ht
  case storeV =>
    obtain ⟨hal, hpage⟩ := pagedAccess_traps (j := storeVJob ty) h (storeVJob_plain ty) rfl (fun _ => rfl) hready hl
    refine ⟨hal, fun x hx ha => ?_⟩
    have ht := hpage x hx ha
    rw [show (1 + if x.upper = true then 4 else 0) = if x.upper = true then 5 else 1 by split <;> rfl] at ht
    exact ht

end Sys2Proof.Machine

namespace Sys2Proof.Machine

/-! # Finite values (R40) -/

section

variable (n : Bool) (m : Nat) (e : Int)

theorem abs_finiteValue : |finiteValue (.fin n m e)| = m * 2 ^ e := by
  have h : (0 : ℚ) ≤ m * 2 ^ e := by positivity
  cases n <;> simp only [finiteValue, Bool.false_eq_true, if_false, if_true, one_mul, neg_mul, abs_neg, abs_of_nonneg h]

theorem finiteValue_eq_zero : finiteValue (.fin n m e) = 0 ↔ m = 0 := by
  rw [← abs_eq_zero, abs_finiteValue, mul_eq_zero, Nat.cast_eq_zero, or_iff_left (zpow_ne_zero _ two_ne_zero)]

theorem finiteValue_not : finiteValue (.fin (!n) m e) = -finiteValue (.fin n m e) := by
  cases n <;> simp [finiteValue]

theorem finiteValue_lt_zero : finiteValue (.fin n m e) < 0 ↔ n = true ∧ m ≠ 0 := by
  have h : m ≠ 0 → (0 : ℚ) < m * 2 ^ e := fun hm => by
    have : 0 < m := Nat.pos_of_ne_zero hm
    positivity
  have h0 : (0 : ℚ) ≤ m * 2 ^ e := by positivity
  cases n
  · simpa [finiteValue] using h0
  · simp only [finiteValue, if_true, neg_mul, one_mul, neg_lt_zero, true_and]
    exact ⟨fun hp hm => by simp [hm] at hp, h⟩

theorem finiteValue_shift (k : Int) : finiteValue (.fin n m (e + k)) = finiteValue (.fin n m e) * 2 ^ k := by
  simp only [finiteValue, zpow_add₀ (two_ne_zero' ℚ), mul_assoc]

theorem exactOf_fin : exactOf (.fin n m e) = Exact.ofRat (finiteValue (.fin n m e)) n := by
  simp only [exactOf, Exact.ofRat, finiteValue_eq_zero]

end

/-- The exponent of the leading bit. -/
theorem leadExp_le {m : Nat} (h : m ≠ 0) (e : Int) : (2 : ℝ) ^ leadExp m e ≤ m * 2 ^ e := by
  rw [leadExp, add_comm, zpow_add₀ two_ne_zero, zpow_natCast]
  exact mul_le_mul_of_nonneg_right (by exact_mod_cast Nat.log2_self_le h) (by positivity)

theorem lt_leadExp (m : Nat) (e : Int) : (m : ℝ) * 2 ^ e < 2 ^ (leadExp m e + 1) := by
  rw [leadExp, add_assoc, add_comm, zpow_add₀ two_ne_zero]
  exact mul_lt_mul_of_pos_right (by exact_mod_cast Nat.lt_log2_self) (by positivity)

/-! # Rounding to an integer (R44) -/

/-- The mode that rounds the magnitude of a number of that sign. -/
def magnitudeMode (neg : Bool) : Rounding → Rounding
  | .rd => if neg then .ru else .rd
  | .ru => if neg then .rd else .ru
  | rm => rm

theorem roundsToInt_neg {rm : Rounding} {x : ℝ} {n : ℤ} (h : RoundsToInt (magnitudeMode true rm) x n) : RoundsToInt rm (-x) (-n) := by
  have hs : -x - ((-n : ℤ) : ℝ) = -(x - n) := by push_cast; ring
  cases rm <;> simp only [magnitudeMode, if_true, RoundsToInt] at h ⊢
  · rw [hs, abs_neg]; exact ⟨h.1, fun e => (h.2 e).neg⟩
  · push_cast; rw [abs_neg, abs_neg, neg_mul_neg]; exact h
  · push_cast; constructor <;> linarith [h.1, h.2]
  · push_cast; constructor <;> linarith [h.1, h.2]

/-- A sign put on a number and its rounding. -/
def signOf (neg : Bool) : ℤ := if neg then -1 else 1

theorem roundsToInt_signed {rm : Rounding} {neg : Bool} {x : ℝ} {n : ℤ} (h : RoundsToInt (magnitudeMode neg rm) x n) :
    RoundsToInt rm (signOf neg * x) (signOf neg * n) := by
  cases neg
  · have : magnitudeMode false rm = rm := by cases rm <;> rfl
    simpa [signOf, this] using h
  · simpa [signOf] using roundsToInt_neg h

theorem roundsToInt_int (rm : Rounding) (n : ℤ) : RoundsToInt rm n n := by
  cases rm <;> simp only [RoundsToInt, sub_self, abs_zero]
  · norm_num
  · exact ⟨le_refl _, by linarith, mul_self_nonneg _⟩
  · exact ⟨le_refl _, by linarith⟩
  · exact ⟨le_refl _, by linarith⟩

/-- A quotient with remainder, rounded. -/
theorem roundsToInt_roundShift (rm : Rounding) (neg : Bool) (m sh : Nat) :
    RoundsToInt (magnitudeMode neg rm) ((m : ℝ) / 2 ^ sh) ((roundShift rm neg m sh).1 : ℤ) := by
  have hP : (0 : ℝ) < 2 ^ sh := by positivity
  have hm : (m : ℝ) = 2 ^ sh * (m / 2 ^ sh : ℕ) + (m % 2 ^ sh : ℕ) := by exact_mod_cast (Nat.div_add_mod m (2 ^ sh)).symm
  have hr : m % 2 ^ sh < 2 ^ sh := Nat.mod_lt _ (by positivity)
  generalize hq : m / 2 ^ sh = q at hm
  generalize hr' : m % 2 ^ sh = r at hm hr
  have hrR : (r : ℝ) < 2 ^ sh := by exact_mod_cast hr
  have hx : (m : ℝ) / 2 ^ sh = q + r / 2 ^ sh := by rw [hm]; field_simp
  have h0 : (0 : ℝ) ≤ r / 2 ^ sh := by positivity
  have h1 : (r : ℝ) / 2 ^ sh < 1 := (div_lt_one hP).2 hrR
  have hz : (r : ℝ) / 2 ^ sh = 0 ↔ r = 0 := by simp
  have hlt : (r : ℝ) / 2 ^ sh < 1 / 2 ↔ 2 * r < 2 ^ sh := by
    rw [div_lt_div_iff₀ hP two_pos, one_mul, mul_comm]; exact_mod_cast Iff.rfl
  have heq : (r : ℝ) / 2 ^ sh = 1 / 2 ↔ 2 * r = 2 ^ sh := by
    rw [div_eq_div_iff hP.ne' two_ne_zero, one_mul, mul_comm]; exact_mod_cast Iff.rfl
  rw [hx]
  generalize (r : ℝ) / 2 ^ sh = t at *
  have h01 : (0 : ℝ) ≤ q := by positivity
  have hup : (roundShift rm neg m sh).1 = if (match (magnitudeMode neg rm) with
      | .rn => decide (2 * r > 2 ^ sh) || (decide (2 * r = 2 ^ sh) && decide (q % 2 = 1))
      | .rz => false
      | .rd => false
      | .ru => decide (r ≠ 0)) then q + 1 else q := by
    cases rm <;> cases neg <;> simp [roundShift, magnitudeMode, hq, hr']
  rw [hup]
  cases magnitudeMode neg rm <;> simp only [RoundsToInt]
  case rz =>
    simp only [Bool.false_eq_true, if_false, Int.cast_natCast, abs_of_nonneg h01, abs_of_nonneg (add_nonneg h01 h0)]
    exact ⟨by linarith, by linarith, by positivity⟩
  case rd => simp only [Bool.false_eq_true, if_false, Int.cast_natCast]; constructor <;> linarith
  case ru =>
    by_cases hr0 : r = 0
    · simp only [hr0, hz.2 hr0, ne_eq, not_true_eq_false, decide_false, Bool.false_eq_true, if_false, Int.cast_natCast]
      constructor <;> linarith
    · have : 0 < t := lt_of_le_of_ne h0 fun e => hr0 (hz.1 e.symm)
      simp only [hr0, ne_eq, not_false_eq_true, decide_true, if_true]
      push_cast
      constructor <;> linarith
  case rn =>
    rcases lt_trichotomy (2 * r) (2 ^ sh) with hlt' | heq' | hgt
    · have ht := hlt.2 hlt'
      rw [if_neg (by simp; omega)]
      have : (q : ℝ) + t - ((q : ℤ) : ℝ) = t := by push_cast; ring
      rw [this, abs_of_nonneg h0]
      exact ⟨ht.le, fun e => absurd e ht.ne⟩
    · have ht := heq.2 heq'
      by_cases ho : q % 2 = 1
      · rw [if_pos (by simp [heq', ho])]
        have : (q : ℝ) + t - (((q + 1 : ℕ) : ℤ) : ℝ) = -(1 / 2) := by push_cast; rw [ht]; ring
        rw [this, abs_neg, abs_of_pos one_half_pos]
        exact ⟨le_refl _, fun _ => by exact_mod_cast (Nat.odd_iff.2 ho).add_one⟩
      · rw [if_neg (by simp [heq', ho])]
        have : (q : ℝ) + t - ((q : ℤ) : ℝ) = 1 / 2 := by push_cast; rw [ht]; ring
        rw [this, abs_of_pos one_half_pos]
        exact ⟨le_refl _, fun _ => by exact_mod_cast Nat.even_iff.2 (by omega)⟩
    · have ht : 1 / 2 < t := lt_of_le_of_ne (not_lt.1 fun h => by have := hlt.1 h; omega) fun e => by have := heq.1 e.symm; omega
      rw [if_pos (by simp [hgt])]
      have : (q : ℝ) + t - (((q + 1 : ℕ) : ℤ) : ℝ) = -(1 - t) := by push_cast; ring
      rw [this, abs_neg, abs_of_pos (by linarith)]
      exact ⟨by linarith, fun e => absurd e (by linarith)⟩

/-- The two integers around the quotient. -/
theorem roundShift_floor (rm : Rounding) (neg : Bool) (m sh : Nat) :
    (roundShift rm neg m sh).1 = m / 2 ^ sh ∨ (roundShift rm neg m sh).1 = m / 2 ^ sh + 1 :=
  (ite_eq_or_eq _ _ _).symm

/-- Bits are lost exactly where the quotient is no integer. -/
theorem roundShift_exact (rm : Rounding) (neg : Bool) (m sh : Nat) :
    (roundShift rm neg m sh).2 = false ↔ ((roundShift rm neg m sh).1 : ℝ) = m / 2 ^ sh := by
  have hP : (2 : ℝ) ^ sh ≠ 0 := by positivity
  have hd := Nat.div_add_mod m (2 ^ sh)
  have hr : m % 2 ^ sh < 2 ^ sh := Nat.mod_lt _ (by positivity)
  rw [eq_div_iff hP]
  have key : ((roundShift rm neg m sh).1 : ℝ) * 2 ^ sh = m ↔ (roundShift rm neg m sh).1 * 2 ^ sh = m := by exact_mod_cast Iff.rfl
  rw [key]
  have h2 : (roundShift rm neg m sh).2 = decide (m % 2 ^ sh ≠ 0) := rfl
  rw [h2, decide_eq_false_iff_not, not_not]
  constructor
  · intro h0
    have hp : 0 ≠ 2 ^ sh := (Nat.two_pow_pos sh).ne
    have : (roundShift rm neg m sh).1 = m / 2 ^ sh := by cases rm <;> simp [roundShift, h0, hp]
    rw [this, mul_comm]
    omega
  · intro h
    rcases roundShift_floor rm neg m sh with e | e <;> rw [e] at h
    · rw [mul_comm] at h; omega
    · rw [add_mul, one_mul, mul_comm] at h; omega

/-- A magnitude rounded to a multiple of 2^qe. -/
theorem roundsToInt_quantise (rm : Rounding) (neg : Bool) (m : Nat) (e qe : Int) :
    RoundsToInt (magnitudeMode neg rm) ((m : ℝ) * 2 ^ e / 2 ^ qe) ((quantise rm neg m e qe).1 : ℤ) := by
  unfold quantise
  split
  · next h =>
    have : (m : ℝ) * 2 ^ e / 2 ^ qe = ((m * 2 ^ (e - qe).toNat : ℕ) : ℤ) := by
      rw [mul_div_assoc, ← zpow_sub₀ two_ne_zero]
      push_cast
      rw [← zpow_natCast, Int.toNat_of_nonneg (by omega)]
    rw [this]
    exact roundsToInt_int _ _
  · next h =>
    have : (m : ℝ) * 2 ^ e / 2 ^ qe = m / 2 ^ (qe - e).toNat := by
      rw [mul_div_assoc, ← zpow_sub₀ two_ne_zero, ← zpow_natCast, Int.toNat_of_nonneg (by omega), ← neg_sub qe e, zpow_neg]
      rfl
    rw [this]
    exact roundsToInt_roundShift _ _ _ _

theorem quantise_exact (rm : Rounding) (neg : Bool) (m : Nat) (e qe : Int) :
    (quantise rm neg m e qe).2 = false ↔ ((quantise rm neg m e qe).1 : ℝ) * 2 ^ qe = m * 2 ^ e := by
  unfold quantise
  split
  · next h =>
    simp only [true_iff]
    push_cast
    rw [← zpow_natCast, Int.toNat_of_nonneg (by omega), mul_assoc, ← zpow_add₀ two_ne_zero]
    congr 2; omega
  · next h =>
    have : (m : ℝ) / 2 ^ (qe - e).toNat = m * 2 ^ e / 2 ^ qe := by
      rw [mul_div_assoc, ← zpow_sub₀ two_ne_zero, ← zpow_natCast, Int.toNat_of_nonneg (by omega), ← neg_sub qe e, zpow_neg]
      rfl
    rw [roundShift_exact, this, eq_div_iff (by positivity)]

end Sys2Proof.Machine

namespace Sys2Proof.Machine

/-! # Codes of a format (R40, R50) -/

/-- The value of a magnitude code. -/
def FpFmt.magValue (f : FpFmt) (c : Nat) : ℚ :=
  if c / 2 ^ f.frac = 0 then (c : ℚ) * 2 ^ f.qmin else ((2 ^ f.frac + c % 2 ^ f.frac : Nat) : ℚ) * 2 ^ (f.qmin + (c / 2 ^ f.frac - 1 : Nat))

/-- A format with a sign, an exponent and a fraction, whose top codes are as its kind says. -/
structure FpFmt.Regular (f : FpFmt) : Prop where
  kind : f.kind ≠ .mxint8
  frac : 1 ≤ f.frac
  width : f.frac + 2 ≤ f.width
  top : f.magValue f.maxCode = f.top
  max : f.maxCode < 2 ^ (f.width - 1)
  inf : f.kind = .ieee → f.infCode = f.maxCode + 1 ∧ f.nanCode < 2 ^ (f.width - 1) ∧ f.infCode < 2 ^ (f.width - 1)
  e4m3 : f.kind = .e4m3 → f.maxCode = 0x7E
  nan : f.nanCode = f.canonicalNan ∧ f.nanCode < 2 ^ f.width

theorem least_eq_qmin (f : FpFmt) : f.least = f.qmin := rfl

theorem magValue_mid (f : FpFmt) {n d : Nat} (hn : n ≤ 2 ^ (f.frac + 1)) (hd : d = 0 ∨ 2 ^ f.frac ≤ n) :
    f.magValue (d * 2 ^ f.frac + n) = n * 2 ^ (f.qmin + d) := by
  have hP : 0 < 2 ^ f.frac := Nat.two_pow_pos _
  rw [pow_succ] at hn
  unfold FpFmt.magValue
  rcases Nat.lt_trichotomy n (2 ^ f.frac) with h | h | h
  · obtain rfl := hd.resolve_right (by omega)
    rw [if_pos (by simp [Nat.div_eq_of_lt h])]
    simp
  · have e : d * 2 ^ f.frac + n = (d + 1) * 2 ^ f.frac := by rw [h]; ring
    rw [e, Nat.mul_div_cancel _ hP, Nat.mul_mod_left, if_neg (by omega), h, Nat.add_sub_cancel, Nat.add_zero]
  · rcases Nat.lt_or_ge n (2 ^ f.frac * 2) with h2 | h2
    · have e : d * 2 ^ f.frac + n = (n - 2 ^ f.frac) + (d + 1) * 2 ^ f.frac := by rw [add_mul]; omega
      rw [e, Nat.add_mul_div_right _ _ hP, Nat.add_mul_mod_self_right, Nat.div_eq_of_lt (by omega), Nat.mod_eq_of_lt (by omega),
        if_neg (by omega), Nat.zero_add, Nat.add_sub_cancel, Nat.add_sub_of_le (by omega)]
    · have e : d * 2 ^ f.frac + n = (d + 2) * 2 ^ f.frac := by rw [add_mul]; omega
      have e2 : n = 2 ^ f.frac * 2 := by omega
      rw [e, Nat.mul_div_cancel _ hP, Nat.mul_mod_left, if_neg (by omega), e2, Nat.add_zero, show d + 2 - 1 = d + 1 by omega]
      push_cast
      rw [← add_assoc, zpow_add_one₀ two_ne_zero]
      ring

/-- Every magnitude code is a multiple of the quantum of its exponent field. -/
theorem code_split (f : FpFmt) (c : Nat) : ∃ d n, c = d * 2 ^ f.frac + n ∧ n < 2 ^ (f.frac + 1) ∧ (d = 0 ∨ 2 ^ f.frac ≤ n) := by
  have hd := Nat.div_add_mod c (2 ^ f.frac)
  have hr : c % 2 ^ f.frac < 2 ^ f.frac := Nat.mod_lt _ (by positivity)
  rw [pow_succ]
  rcases Nat.eq_zero_or_pos (c / 2 ^ f.frac) with h | h
  · refine ⟨0, c, by simp, ?_, .inl rfl⟩
    rw [h] at hd; omega
  · refine ⟨c / 2 ^ f.frac - 1, 2 ^ f.frac + c % 2 ^ f.frac, ?_, by omega, .inr (by omega)⟩
    rw [Nat.sub_mul, one_mul, ← add_assoc, Nat.sub_add_cancel (Nat.le_mul_of_pos_left _ h), mul_comm, hd]

theorem magValue_succ (f : FpFmt) (c : Nat) : ∃ d : Nat, f.magValue (c + 1) = f.magValue c + 2 ^ (f.qmin + d) := by
  obtain ⟨d, n, rfl, hn, hd⟩ := code_split f c
  refine ⟨d, ?_⟩
  rw [magValue_mid f hn.le hd, add_assoc, magValue_mid f hn (hd.imp_right fun h => by omega)]
  push_cast; ring

theorem magValue_strictMono (f : FpFmt) : StrictMono f.magValue := strictMono_nat_of_lt_succ fun c => by
  obtain ⟨d, h⟩ := magValue_succ f c
  rw [h]
  exact lt_add_of_pos_right _ (by positivity)

theorem magValue_zero (f : FpFmt) : f.magValue 0 = 0 := by simp [FpFmt.magValue]

theorem magValue_nonneg (f : FpFmt) (c : Nat) : 0 ≤ f.magValue c := magValue_zero f ▸ (magValue_strictMono f).monotone (Nat.zero_le c)

theorem regular_of_mem {f : FpFmt} (h : f ∈ [fp64, fp32, fp16, bf16, e5m2, e4m3, e3m2, e2m3, e2m1]) : f.Regular := by
  simp only [List.mem_cons, List.not_mem_nil, or_false] at h
  rcases h with rfl | rfl | rfl | rfl | rfl | rfl | rfl | rfl | rfl
  all_goals
    refine ⟨by decide, by decide, by decide, ?_, by decide, by decide, by decide, by decide⟩
    simp only [FpFmt.qmin, fp64, fp32, fp16, bf16, e5m2, e4m3, e3m2, e2m3, e2m1, reduceCtorEq, if_false, FpFmt.magValue]
    norm_num [FpFmt.maxCode, FpFmt.top, FpFmt.infCode]
  rw [show 1023 = 971 + 52 from rfl, pow_add]
  generalize (2 : ℚ) ^ 971 = x
  ring

section

variable {f : FpFmt} (h : f.Regular) (neg : Bool)
include h

theorem signed_regular (c : Nat) : f.signed neg c = (if neg then 2 ^ (f.width - 1) else 0) + c := by
  cases neg <;> simp [FpFmt.signed, h.kind]

theorem half_width : 2 ^ f.width = 2 * 2 ^ (f.width - 1) := by
  have := h.width
  rw [← pow_succ', Nat.sub_add_cancel (by omega)]

theorem signed_lt {c : Nat} (hc : c < 2 ^ (f.width - 1)) : f.signed neg c < 2 ^ f.width := by
  rw [signed_regular h, half_width h]
  split <;> omega

theorem decodeFp_signed {c : Nat} (hc : c < 2 ^ (f.width - 1)) :
    decodeFp f (f.signed neg c) =
      if f.kind = .ieee ∧ c ≥ f.infCode then
        (if c = f.infCode then .inf neg else .nan (f.width > 8 && decide (c % 2 ^ f.frac < 2 ^ (f.frac - 1))))
      else if f.kind = .e4m3 ∧ c = 0x7F then .nan false
      else if c / 2 ^ f.frac = 0 then .fin neg (c % 2 ^ f.frac) f.qmin
      else .fin neg (2 ^ f.frac + c % 2 ^ f.frac) (f.qmin + (c / 2 ^ f.frac - 1 : Nat)) := by
  have hl := signed_lt h neg hc
  have hneg : decide (f.signed neg c ≥ 2 ^ (f.width - 1)) = neg := by
    rw [signed_regular h]
    cases neg
    · simpa using hc
    · simp
  have hmod : f.signed neg c % 2 ^ (f.width - 1) = c := by
    rw [signed_regular h]
    cases neg
    · simp [Nat.mod_eq_of_lt hc]
    · simp [Nat.add_mod_left, Nat.mod_eq_of_lt hc]
  simp only [decodeFp, Nat.mod_eq_of_lt hl, h.kind, if_false, hneg, hmod]

/-- A code up to the largest finite one is a number: `magValue` with its sign. -/
theorem decodeFp_finite {c : Nat} (hc : c ≤ f.maxCode) :
    ∃ m e, decodeFp f (f.signed neg c) = .fin neg m e ∧ (m : ℚ) * 2 ^ e = f.magValue c := by
  rw [decodeFp_signed h neg (hc.trans_lt h.max), if_neg (fun k => by have := (h.inf k.1).1; omega),
    if_neg (fun k => by have := h.e4m3 k.1; omega)]
  unfold FpFmt.magValue
  split
  · next hz =>
    have : c < 2 ^ f.frac := (Nat.div_eq_zero_iff.1 hz).resolve_left (by positivity)
    exact ⟨_, _, rfl, by rw [Nat.mod_eq_of_lt this]⟩
  · exact ⟨_, _, rfl, rfl⟩

theorem decodeFp_infCode (hk : f.kind = .ieee) : decodeFp f (f.signed neg f.infCode) = .inf neg := by
  rw [decodeFp_signed h neg (h.inf hk).2.2, if_pos ⟨hk, le_refl _⟩, if_pos rfl]

theorem decodeFp_maxCode : ∃ m e, decodeFp f (f.signed neg f.maxCode) = .fin neg m e ∧ |finiteValue (.fin neg m e)| = f.top := by
  obtain ⟨m, e, hd, hv⟩ := decodeFp_finite h neg (le_refl _)
  exact ⟨m, e, hd, by rw [abs_finiteValue, hv, h.top]⟩

end

end Sys2Proof.Machine

namespace Sys2Proof.Machine

/-! # ROUND (R43, R46) -/

/-- Rounding to an integer does not pass an integer. -/
theorem le_roundsToInt {rm : Rounding} {x : ℝ} {n a : ℤ} (h : RoundsToInt rm x n) (ha : (a : ℝ) ≤ x) (h0 : 0 ≤ x) : a ≤ n := by
  by_contra hlt
  have hn : (n : ℝ) + 1 ≤ a := by exact_mod_cast not_le.1 hlt
  cases rm <;> simp only [RoundsToInt] at h
  · have := le_abs_self (x - n); linarith [h.1]
  · obtain ⟨h1, h2, h3⟩ := h
    rw [abs_of_nonneg h0] at h1 h2
    rcases lt_or_ge (n : ℝ) 0 with hneg | hneg
    · have hx : x = 0 := by nlinarith
      rw [hx] at h1
      exact absurd (abs_eq_zero.1 (le_antisymm h1 (abs_nonneg _))) hneg.ne
    · rw [abs_of_nonneg hneg] at h2; linarith
  · linarith [h.2]
  · linarith [h.1]

theorem roundsToInt_le {rm : Rounding} {x : ℝ} {n b : ℤ} (h : RoundsToInt rm x n) (hb : x ≤ b) (h0 : 0 ≤ x) : n ≤ b := by
  by_contra hlt
  have hn : (b : ℝ) + 1 ≤ n := by exact_mod_cast not_le.1 hlt
  cases rm <;> simp only [RoundsToInt] at h
  · have := neg_abs_le (x - n); linarith [h.1]
  · obtain ⟨h1, -⟩ := h
    rw [abs_of_nonneg h0] at h1
    have := le_abs_self (n : ℝ); linarith
  · linarith [h.1]
  · linarith [h.2]

section

variable {f : FpFmt} (rm : Rounding) (neg : Bool) {m : Nat} (e : Int)

theorem cast_finiteValue (neg : Bool) (m : Nat) (e : Int) : ((finiteValue (.fin neg m e) : ℚ) : ℝ) = signOf neg * (m * 2 ^ e) := by
  cases neg <;> simp [finiteValue, signOf]

theorem signOf_mul_abs (neg : Bool) {x : ℝ} (h : 0 ≤ x) : |(signOf neg : ℝ) * x| = x := by
  cases neg <;> simp [signOf, abs_of_nonneg h]

/-- The quotient by a quantum, rounded. -/
theorem roundsToInt_finite (neg : Bool) (m : Nat) (e qe : Int) :
    RoundsToInt rm (((finiteValue (.fin neg m e) : ℚ) : ℝ) / 2 ^ qe) (signOf neg * ((quantise rm neg m e qe).1 : ℤ)) := by
  rw [cast_finiteValue, mul_div_assoc]
  exact roundsToInt_signed (roundsToInt_quantise rm neg m e qe)

variable (hm : m ≠ 0)
include hm

/-- A value has at most P bits above its quantum, and as many where the quantum is not the least. -/
theorem quantum_bounds (h : f.kind ≠ .mxint8) :
    (m : ℝ) * 2 ^ e / 2 ^ f.quantum m e < 2 ^ (f.frac + 1) ∧
      (f.quantum m e = f.qmin ∨ (2 : ℝ) ^ f.frac ≤ (m : ℝ) * 2 ^ e / 2 ^ f.quantum m e ∧ f.quantum m e = leadExp m e - f.frac) ∧
      f.qmin ≤ f.quantum m e := by
  have hq : f.quantum m e = max (leadExp m e - f.frac) f.qmin := if_neg h
  have hl := lt_leadExp m e
  have hg := leadExp_le hm e
  refine ⟨?_, ?_, by omega⟩
  · rw [div_lt_iff₀ (by positivity), ← zpow_natCast, ← zpow_add₀ two_ne_zero]
    exact hl.trans_le (zpow_le_zpow_right₀ one_le_two (by push_cast; omega))
  · rcases le_total (leadExp m e - f.frac) f.qmin with hc | hc
    · exact .inl (by omega)
    · refine .inr ⟨?_, by omega⟩
      rw [le_div_iff₀ (by positivity), ← zpow_natCast, ← zpow_add₀ two_ne_zero]
      exact (zpow_le_zpow_right₀ one_le_two (by omega)).trans hg

theorem quantise_bounds (h : f.kind ≠ .mxint8) :
    (quantise rm neg m e (f.quantum m e)).1 ≤ 2 ^ (f.frac + 1) ∧
      (f.quantum m e = f.qmin ∨ 2 ^ f.frac ≤ (quantise rm neg m e (f.quantum m e)).1) := by
  obtain ⟨hlt, hge, -⟩ := quantum_bounds (f := f) e hm h
  have hr := roundsToInt_quantise rm neg m e (f.quantum m e)
  have h0 : (0 : ℝ) ≤ (m : ℝ) * 2 ^ e / 2 ^ f.quantum m e := by positivity
  refine ⟨?_, hge.imp_right fun k => ?_⟩
  · exact_mod_cast roundsToInt_le (b := ((2 ^ (f.frac + 1) : ℕ) : ℤ)) hr (by push_cast; exact hlt.le) h0
  · exact_mod_cast le_roundsToInt (a := ((2 ^ f.frac : ℕ) : ℤ)) hr (by push_cast; exact k.1) h0

/-- The code of a multiple of the quantum has its value. -/
theorem magValue_magCode (h : f.kind ≠ .mxint8) :
    f.magValue (f.magCode (quantise rm neg m e (f.quantum m e)).1 (f.quantum m e)) =
      (quantise rm neg m e (f.quantum m e)).1 * 2 ^ f.quantum m e := by
  obtain ⟨hle, hge⟩ := quantise_bounds (f := f) rm neg e hm h
  obtain ⟨-, -, hq⟩ := quantum_bounds (f := f) e hm h
  rw [FpFmt.magCode, if_neg h, magValue_mid f hle (hge.imp_left fun k => by omega), Int.toNat_of_nonneg (by omega)]
  congr 2
  omega

/-- Below the smallest normal magnitude, rounded without a limit on the exponent. -/
theorem tiny_iff (h : f.kind ≠ .mxint8) : f.tiny rm neg m e = true ↔
    |((signOf neg * ((quantise rm neg m e (leadExp m e - f.frac)).1 : ℤ) : ℤ) : ℝ) * 2 ^ (leadExp m e - f.frac)| < (2 : ℝ) ^ (f.least + f.frac) := by
  have hr := roundsToInt_quantise rm neg m e (leadExp m e - f.frac)
  set q := (quantise rm neg m e (leadExp m e - f.frac)).1 with hqdef
  have hq : q ≠ 0 := by
    have h1 : (1 : ℝ) ≤ (m : ℝ) * 2 ^ e / 2 ^ (leadExp m e - f.frac) := by
      rw [le_div_iff₀ (by positivity), one_mul]
      exact (zpow_le_zpow_right₀ one_le_two (by omega)).trans (leadExp_le hm e)
    have := le_roundsToInt (a := 1) hr (by exact_mod_cast h1) (by positivity)
    omega
  have ht : f.tiny rm neg m e = decide (leadExp q (leadExp m e - f.frac) < f.qmin + f.frac) := by
    unfold FpFmt.tiny; rw [if_neg h]
  rw [ht, decide_eq_true_iff, Int.cast_mul, mul_assoc, Int.cast_natCast, signOf_mul_abs neg (by positivity), least_eq_qmin]
  constructor
  · intro k
    exact (lt_leadExp _ _).trans_le (zpow_le_zpow_right₀ one_le_two (by omega))
  · intro k
    exact (zpow_lt_zpow_iff_right₀ one_lt_two).1 ((leadExp_le hq _).trans_lt k)

end

section

variable {f : FpFmt} (rm : Rounding) (sat neg : Bool) {m : Nat} (e : Int)

/-- ROUND of a number other than zero. -/
theorem roundFp_number (h : f.Regular) (hm : m ≠ 0) : RoundsNumber f rm sat (finiteValue (.fin neg m e) : ℚ)
    (roundFp f rm (.fin neg m e) sat).1 (roundFp f rm (.fin neg m e) sat).2 := by
  have hx : |((finiteValue (.fin neg m e) : ℚ) : ℝ)| = m * 2 ^ e := by rw [cast_finiteValue, signOf_mul_abs neg (by positivity)]
  have hneg : ((finiteValue (.fin neg m e) : ℚ) : ℝ) < 0 ↔ neg = true := by
    rw [Rat.cast_lt_zero, finiteValue_lt_zero]; simp [hm]
  have hpos : 0 < ((finiteValue (.fin neg m e) : ℚ) : ℝ) ↔ neg = false := by
    rw [← not_iff_not, not_lt, le_iff_lt_or_eq, hneg, Rat.cast_eq_zero, finiteValue_eq_zero]; simp [hm]
  have hq : f.quantum m e = max (leadExp m e - f.frac) f.least := if_neg h.kind
  have hv := magValue_magCode (f := f) rm neg e hm h.kind
  have hex := quantise_exact rm neg m e (f.quantum m e)
  have hcode : roundFp f rm (.fin neg m e) sat =
      if f.magCode (quantise rm neg m e (f.quantum m e)).1 (f.quantum m e) > f.maxCode then
        (f.signed neg (if f.hasInf && !sat && (rm = .rn || (rm = .ru && !neg) || (rm = .rd && neg)) then f.infCode else f.maxCode),
          flagOverflow ||| flagInexact)
      else (f.signed neg (f.magCode (quantise rm neg m e (f.quantum m e)).1 (f.quantum m e)),
        flagIf (quantise rm neg m e (f.quantum m e)).2 flagInexact |||
          flagIf ((quantise rm neg m e (f.quantum m e)).2 && f.tiny rm neg m e) flagUnderflow) := by
    simp only [roundFp, hm, if_false]
  generalize hQ : quantise rm neg m e (f.quantum m e) = Q at *
  have hr : RoundsToInt rm (((finiteValue (.fin neg m e) : ℚ) : ℝ) / 2 ^ f.quantum m e) (signOf neg * (Q.1 : ℤ)) := hQ ▸ roundsToInt_finite rm neg m e _
  have habs : |((signOf neg * (Q.1 : ℤ) : ℤ) : ℝ) * (2 : ℝ) ^ f.quantum m e| = ((f.magValue (f.magCode Q.1 (f.quantum m e)) : ℚ) : ℝ) := by
    rw [Int.cast_mul, mul_assoc, Int.cast_natCast, signOf_mul_abs neg (by positivity), hv]; push_cast; rfl
  have hcmp : (f.top : ℝ) < |((signOf neg * (Q.1 : ℤ) : ℤ) : ℝ) * (2 : ℝ) ^ f.quantum m e| ↔ f.maxCode < f.magCode Q.1 (f.quantum m e) := by
    rw [habs, ← h.top, Rat.cast_lt, (magValue_strictMono f).lt_iff_lt]
  have hsame : ((signOf neg * (Q.1 : ℤ) : ℤ) : ℝ) * (2 : ℝ) ^ f.quantum m e = ((finiteValue (.fin neg m e) : ℚ) : ℝ) ↔ Q.2 = false := by
    rw [hex, cast_finiteValue, Int.cast_mul, mul_assoc, Int.cast_natCast]
    exact mul_right_inj' (by cases neg <;> simp [signOf])
  rw [hcode]
  refine ⟨leadExp m e, signOf neg * (Q.1 : ℤ), signOf neg * ((quantise rm neg m e (leadExp m e - f.frac)).1 : ℤ),
    hx ▸ leadExp_le hm e, hx ▸ lt_leadExp m e, ?_⟩
  simp only [h.kind, if_false]
  rw [← hq]
  refine ⟨hr, roundsToInt_finite rm neg m e _, fun hover => ?_, fun hin => ?_⟩
  · rw [if_pos (hcmp.1 hover)]
    refine ⟨rfl, neg, hneg.symm, fun hi => ?_, fun hi => ?_⟩
    · obtain ⟨hk, hs, hd⟩ := hi
      rw [hpos, hneg] at hd
      rw [if_pos (by simpa [FpFmt.hasInf, hk, hs, or_assoc] using hd)]
      exact decodeFp_infCode h neg hk
    · rw [hpos, hneg] at hi
      rw [if_neg (by simpa [FpFmt.hasInf, and_assoc, or_assoc] using hi)]
      exact decodeFp_maxCode h neg
  · have hle : f.magCode Q.1 (f.quantum m e) ≤ f.maxCode := not_lt.1 fun k => absurd hin (not_le.2 (hcmp.2 k))
    rw [if_neg (not_lt.2 hle)]
    obtain ⟨m', e', hd, hval⟩ := decodeFp_finite h neg hle
    refine ⟨neg, m', e', hd, ?_, fun _ => hneg.symm, fun hx => ?_, fun hx ht => ?_, fun hx ht => ?_⟩
    · rw [cast_finiteValue, Int.cast_mul, mul_assoc, Int.cast_natCast]
      have : (m' : ℝ) * 2 ^ e' = (Q.1 : ℝ) * 2 ^ f.quantum m e := by
        have := congrArg (Rat.cast (K := ℝ)) (hval.trans hv)
        push_cast at this
        exact this
      rw [this]
    · simp [hsame.1 hx, flagIf]
    · simp [Bool.eq_true_of_not_eq_false fun k => hx (hsame.2 k), (tiny_iff rm neg e hm h.kind).2 ht, flagIf]
    · simp [Bool.eq_true_of_not_eq_false fun k => hx (hsame.2 k), Bool.eq_false_iff.2 fun k => ht ((tiny_iff rm neg e hm h.kind).1 k), flagIf]

end

end Sys2Proof.Machine

namespace Sys2Proof.Machine

/-! # ROUND in MXINT8, and of every exact value (R46, R50) -/

theorem decodeFp_mxi8 (neg : Bool) {c : Nat} (hc : c ≤ 127) : decodeFp mxi8 (mxi8.signed neg c) = .fin (neg && decide (c ≠ 0)) c (-6) := by
  revert c; cases neg <;> decide

section

variable (rm : Rounding) (sat neg : Bool) {m : Nat} (e : Int)

theorem roundFp_mxi8 (hm : m ≠ 0) : RoundsNumber mxi8 rm sat (finiteValue (.fin neg m e) : ℚ)
    (roundFp mxi8 rm (.fin neg m e) sat).1 (roundFp mxi8 rm (.fin neg m e) sat).2 := by
  have hx : |((finiteValue (.fin neg m e) : ℚ) : ℝ)| = m * 2 ^ e := by rw [cast_finiteValue, signOf_mul_abs neg (by positivity)]
  have hneg : ((finiteValue (.fin neg m e) : ℚ) : ℝ) < 0 ↔ neg = true := by
    rw [Rat.cast_lt_zero, finiteValue_lt_zero]; simp [hm]
  have hex := quantise_exact rm neg m e (-6)
  have hcode : roundFp mxi8 rm (.fin neg m e) sat =
      if (quantise rm neg m e (-6)).1 > 127 then (mxi8.signed neg 127, flagOverflow ||| flagInexact)
      else (mxi8.signed neg (quantise rm neg m e (-6)).1,
        flagIf (quantise rm neg m e (-6)).2 flagInexact |||
          flagIf ((quantise rm neg m e (-6)).2 && decide (leadExp m e < -6)) flagUnderflow) := by
    simp only [roundFp, hm, if_false]
    simp [FpFmt.quantum, FpFmt.magCode, FpFmt.maxCode, FpFmt.hasInf, FpFmt.tiny, mxi8]
  generalize hQ : quantise rm neg m e (-6) = Q at *
  have hr : RoundsToInt rm (((finiteValue (.fin neg m e) : ℚ) : ℝ) / 2 ^ (-6 : ℤ)) (signOf neg * (Q.1 : ℤ)) := hQ ▸ roundsToInt_finite rm neg m e _
  have habs : |((signOf neg * (Q.1 : ℤ) : ℤ) : ℝ) * (2 : ℝ) ^ (-6 : ℤ)| = Q.1 * 2 ^ (-6 : ℤ) := by
    rw [Int.cast_mul, mul_assoc, Int.cast_natCast, signOf_mul_abs neg (by positivity)]
  have htop : mxi8.top = 127 * 2 ^ (-6 : ℤ) := by simp only [FpFmt.top, mxi8]; norm_num
  have hcmp : (mxi8.top : ℝ) < |((signOf neg * (Q.1 : ℤ) : ℤ) : ℝ) * (2 : ℝ) ^ (-6 : ℤ)| ↔ 127 < Q.1 := by
    rw [habs, htop]
    push_cast
    rw [mul_lt_mul_iff_left₀ (by positivity)]
    exact_mod_cast Iff.rfl
  have hsame : ((signOf neg * (Q.1 : ℤ) : ℤ) : ℝ) * (2 : ℝ) ^ (-6 : ℤ) = ((finiteValue (.fin neg m e) : ℚ) : ℝ) ↔ Q.2 = false := by
    rw [hex, cast_finiteValue, Int.cast_mul, mul_assoc, Int.cast_natCast]
    exact mul_right_inj' (by cases neg <;> simp [signOf])
  have htiny : |((finiteValue (.fin neg m e) : ℚ) : ℝ)| < (2 : ℝ) ^ (-6 : ℤ) ↔ leadExp m e < -6 := by
    rw [hx]
    constructor
    · exact fun k => (zpow_lt_zpow_iff_right₀ one_lt_two).1 ((leadExp_le hm e).trans_lt k)
    · exact fun k => (lt_leadExp m e).trans_le (zpow_le_zpow_right₀ one_le_two (by omega))
  rw [hcode]
  refine ⟨leadExp m e, signOf neg * (Q.1 : ℤ), signOf neg * ((quantise rm neg m e (leadExp m e - mxi8.frac)).1 : ℤ),
    hx ▸ leadExp_le hm e, hx ▸ lt_leadExp m e, ?_⟩
  have hk : mxi8.kind = .mxint8 := rfl
  simp only [hk, if_true]
  refine ⟨hr, roundsToInt_finite rm neg m e _, fun hover => ?_, fun hin => ?_⟩
  · rw [if_pos (hcmp.1 hover)]
    refine ⟨rfl, neg, hneg.symm, fun hi => by simp at hi, fun _ => ?_⟩
    refine ⟨127, -6, ?_, by rw [abs_finiteValue, htop]; rfl⟩
    rw [decodeFp_mxi8 neg (le_refl _)]; simp
  · have hle : Q.1 ≤ 127 := not_lt.1 fun k => absurd hin (not_le.2 (hcmp.2 k))
    rw [if_neg (not_lt.2 hle)]
    refine ⟨_, _, _, decodeFp_mxi8 neg hle, ?_, fun hn => absurd rfl hn, fun hx => ?_, fun hx ht => ?_, fun hx ht => ?_⟩
    · rw [cast_finiteValue, Int.cast_mul, mul_assoc, Int.cast_natCast]
      rcases Nat.eq_zero_or_pos Q.1 with h0 | h0
      · simp [h0]
      · simp [Nat.pos_iff_ne_zero.1 h0]
    · simp [hsame.1 hx, flagIf]
    · simp [Bool.eq_true_of_not_eq_false fun k => hx (hsame.2 k), htiny.1 ht, flagIf]
    · have : ¬leadExp m e < -6 := fun k => ht (htiny.2 k)
      simp [Bool.eq_true_of_not_eq_false fun k => hx (hsame.2 k), this, flagIf]

end

/-- The formats of R40 Table 2 and R50 Table 3. -/
def formats : List FpFmt := [fp64, fp32, fp16, bf16, e5m2, e4m3, e3m2, e2m3, e2m1, mxi8]

theorem regular_or_mxi8 {f : FpFmt} (h : f ∈ formats) : f.Regular ∨ f = mxi8 := by
  have : f ∈ [fp64, fp32, fp16, bf16, e5m2, e4m3, e3m2, e2m3, e2m1] ++ [mxi8] := h
  rcases List.mem_append.1 this with h | h
  · exact .inl (regular_of_mem h)
  · exact .inr (List.mem_singleton.1 h)

theorem mxFormat_mem (m : MxFmt) : mxFormat m ∈ formats := by cases m <;> decide

theorem fmt_mem (ty : FpTy) : ty.fmt ∈ [fp64, fp32, fp16, bf16] := by cases ty <;> decide

section

variable {f : FpFmt} (hf : f ∈ formats) (rm : Rounding) (sat : Bool)
include hf

theorem nanCode_eq : f.nanCode = f.canonicalNan := by
  rcases regular_or_mxi8 hf with h | rfl
  · exact h.nan.1
  · rfl

/-- ROUND of R46 is what the model computes. -/
theorem roundFp_rounds (x : FVal) : Rounds f rm sat (exactOf x) (roundFp f rm x sat).1 (roundFp f rm x sat).2 := by
  cases x with
  | nan s => exact ⟨nanCode_eq hf, rfl⟩
  | inf neg =>
    have hr : roundFp f rm (.inf neg) sat = if f.hasInf && !sat then (f.signed neg f.infCode, 0) else (f.signed neg f.maxCode, flagInexact) := rfl
    rw [hr]
    refine ⟨fun h => ?_, fun h => ?_⟩
    · have hreg : f.Regular := (regular_or_mxi8 hf).resolve_right fun e => by subst e; exact absurd h.1 (by decide)
      rw [if_pos (by simp [FpFmt.hasInf, h.1, h.2])]
      exact ⟨decodeFp_infCode hreg neg h.1, rfl⟩
    · rw [if_neg (by simpa [FpFmt.hasInf] using h)]
      refine ⟨rfl, ?_⟩
      rcases regular_or_mxi8 hf with hreg | rfl
      · exact decodeFp_maxCode hreg neg
      · exact ⟨127, -6, by cases neg <;> decide, by rw [abs_finiteValue]; simp only [FpFmt.top, mxi8]; norm_num⟩
  | fin neg m e =>
    rw [exactOf]
    split
    · next hm =>
      have hr : roundFp f rm (.fin neg m e) sat = (f.signed neg 0, 0) := if_pos hm
      rw [hr]
      refine ⟨?_, rfl⟩
      by_cases hk : f.kind = .mxint8
      · simp [FpFmt.signed, hk]
      · simp [FpFmt.signed, hk]
    · next hm =>
      rcases regular_or_mxi8 hf with h | rfl
      · exact roundFp_number rm sat neg e h hm
      · exact roundFp_mxi8 rm sat neg e hm

theorem roundFp_lt (x : FVal) : (roundFp f rm x sat).1 < 2 ^ f.width := by
  rcases regular_or_mxi8 hf with h | rfl
  · have hmax := signed_lt h
    have h0 : 0 < 2 ^ (f.width - 1) := Nat.two_pow_pos _
    cases x with
    | nan s => exact h.nan.2
    | inf neg =>
      simp only [roundFp]
      split
      · next hi => exact hmax _ (h.inf (by simpa [FpFmt.hasInf] using (Bool.and_eq_true_iff.1 hi).1)).2.2
      · exact hmax _ h.max
    | fin neg m e =>
      simp only [roundFp]
      split
      · exact hmax _ h0
      · split
        · refine hmax _ ?_
          split
          · next hi => exact (h.inf (by simpa [FpFmt.hasInf] using (Bool.and_eq_true_iff.1 (Bool.and_eq_true_iff.1 hi).1).1)).2.2
          · exact h.max
        · next hc => exact hmax _ ((not_lt.1 hc).trans_lt h.max)
  · have hs : ∀ neg c, c ≤ 127 → mxi8.signed neg c < 2 ^ mxi8.width := fun neg c hc => by
      revert c; cases neg <;> decide
    cases x with
    | nan s => exact (by decide : mxi8.nanCode < 2 ^ mxi8.width)
    | inf neg => simp only [roundFp, FpFmt.hasInf, mxi8]; exact hs neg 127 (le_refl _)
    | fin neg m e =>
      simp only [roundFp]
      split
      · exact hs _ _ (Nat.zero_le _)
      · split
        · exact hs neg 127 (le_refl _)
        · next hc => exact hs _ _ (not_lt.1 hc)

end

/-! # Flags (R43) -/

/-- A rounding raises neither Invalid nor Divide-by-zero. -/
theorem roundFp_flags (f : FpFmt) (rm : Rounding) (x : FVal) (sat : Bool) : (roundFp f rm x sat).2 &&& 0b00011#5 = 0 := by
  have h0 : (0 : Flags) &&& 0b00011#5 = 0 := by decide
  have hi : flagInexact &&& 0b00011#5 = 0 := by decide
  have ho : (flagOverflow ||| flagInexact) &&& 0b00011#5 = 0 := by decide
  have h : ∀ a b, (flagIf a flagInexact ||| flagIf b flagUnderflow) &&& 0b00011#5 = 0 := by decide
  cases x with
  | nan s => exact h0
  | inf neg =>
    simp only [roundFp]
    split
    · exact h0
    · exact hi
  | fin neg m e =>
    simp only [roundFp]
    split
    · exact h0
    · split
      · exact ho
      · exact h _ _

/-- Of a NaN it raises nothing, of an infinity at most Inexact. -/
theorem roundFp_special {f : FpFmt} {rm : Rounding} {x : FVal} {sat : Bool} (h : x.isNan = true ∨ x.isInf = true) :
    (roundFp f rm x sat).2 &&& ~~~flagInexact = 0 := by
  have h0 : (0 : Flags) &&& ~~~flagInexact = 0 := by decide
  have hi : flagInexact &&& ~~~flagInexact = 0 := by decide
  cases x with
  | nan s => exact h0
  | inf neg =>
    simp only [roundFp]
    split
    · exact h0
    · exact hi
  | fin neg m e => simp [FVal.isNan, FVal.isInf] at h

theorem settleFlags_invalid {fl : Flags} (h : fl &&& ~~~flagInexact = 0) : settleFlags (fl ||| flagInvalid) = flagInvalid := by
  revert fl; decide

theorem settleFlags_valid {fl : Flags} (h : fl &&& 0b00011#5 = 0) : settleFlags fl = fl := by
  revert fl; decide

/-- A rounding with the flags that an operation adds to it. -/
theorem delivers_roundFp {f : FpFmt} (hf : f ∈ formats) {rm : Rounding} {sat : Bool} {x : FVal} {y : Exact} {P D : Prop} {inv dz : Bool}
    (hr : Rounds f rm sat y (roundFp f rm x sat).1 (roundFp f rm x sat).2) (hP : inv = true ↔ P) (hD : dz = true ↔ D)
    (hx : P → x.isNan = true ∨ x.isInf = true) (hz : D → ¬P ∧ (roundFp f rm x sat).2 = 0) :
    Delivers f rm sat P D y
      ((roundFp f rm x sat).1, settleFlags ((roundFp f rm x sat).2 ||| flagIf inv flagInvalid ||| flagIf dz flagDivZero)) := by
  refine ⟨roundFp_lt hf rm sat x, _, hr, fun h => ?_, fun h hd => ?_, fun h hd => ?_⟩
  · rw [hP.2 h, Bool.eq_false_iff.2 fun k => (hz (hD.1 k)).1 h]
    simpa [flagIf] using settleFlags_invalid (roundFp_special (hx h))
  · rw [hD.2 hd, Bool.eq_false_iff.2 fun k => h (hP.1 k), (hz hd).2]
    rfl
  · rw [Bool.eq_false_iff.2 fun k => h (hP.1 k), Bool.eq_false_iff.2 fun k => hd (hD.1 k)]
    simpa [flagIf] using settleFlags_valid (roundFp_flags f rm x sat)

/-! # Element by element (R120, R123) -/

theorem foldl_or_getLsbD (es : List Flags) (f : Flags) (i : Nat) :
    (es.foldl (fun f r => f ||| r) f).getLsbD i = true ↔ f.getLsbD i = true ∨ ∃ r ∈ es, r.getLsbD i = true := by
  induction es generalizing f with
  | nil => simp
  | cons e es ih => rw [List.foldl_cons, ih, BitVec.getLsbD_or]; simp [or_assoc]

/-- Packed results are their elements. -/
theorem elements_pack {w n : Nat} {R : Nat → Nat × Flags → Prop} {e : Nat → Nat × Flags} (hw : w * n ≤ 128)
    (h : ∀ k < n, R k (e k) ∧ (e k).1 < 2 ^ w) : Elements w n R (packRes w ((List.range n).map e)) := by
  refine ⟨rfl, e, fun k hk => ⟨(h k hk).1, ?_⟩, fun i _ => ?_⟩
  · have hl := packElems_lt w (((List.range n).map e).map (·.1))
    rw [List.length_map, List.length_map, List.length_range] at hl
    have hlen : k < (((List.range n).map e).map (·.1)).length := by simpa using hk
    simp only [packRes, BitVec.toNat_ofNat]
    rw [Nat.mod_eq_of_lt (hl.trans_le (Nat.pow_le_pow_right two_pos hw)), elemAt_packElems w _ hlen]
    simp [Nat.mod_eq_of_lt (h k hk).2]
  · have : (packRes w ((List.range n).map e)).flags = (((List.range n).map e).map (·.2)).foldl (fun f r => f ||| r) 0 := by
      rw [List.foldl_map]; rfl
    rw [this, foldl_or_getLsbD]
    simp

theorem elemAt_lt (w i v : Nat) : elemAt w i v < 2 ^ w := Nat.mod_lt _ (Nat.two_pow_pos w)

/-- An element function, its flags settled, on every element. -/
theorem fpEach_elements {ty : FpTy} {fn : Nat → Nat → Nat → Nat × Flags} {R : Nat → Nat × Flags → Prop} {a b c : QWord}
    (h : ∀ k < ty.count, let r := fn (elemAt ty.fmt.width k a.toNat) (elemAt ty.fmt.width k b.toNat) (elemAt ty.fmt.width k c.toNat)
      R k (r.1, settleFlags r.2) ∧ r.1 < 2 ^ ty.fmt.width) : Elements ty.fmt.width ty.count R (fpEach ty fn a b c) := by
  have hw : ty.fmt.width * ty.count ≤ 128 := by cases ty <;> decide
  have hp : fpEach ty fn a b c = packRes ty.fmt.width ((List.range ty.count).map fun i =>
      ((fn (elemAt ty.fmt.width i a.toNat) (elemAt ty.fmt.width i b.toNat) (elemAt ty.fmt.width i c.toNat)).1,
        settleFlags (fn (elemAt ty.fmt.width i a.toNat) (elemAt ty.fmt.width i b.toNat) (elemAt ty.fmt.width i c.toNat)).2)) := by
    simp only [fpEach, packRes, List.map_map, List.foldl_map]
    rfl
  rw [hp]
  exact elements_pack hw h

theorem fpEach_form {ty : FpTy} {fn : Nat → Nat → Nat → Nat × Flags} {R : Nat → Nat → Nat → Nat × Flags → Prop} (l : Lane)
    (h : ∀ a b c, a < 2 ^ ty.fmt.width → b < 2 ^ ty.fmt.width →
      R a b c ((fn a b c).1, settleFlags (fn a b c).2) ∧ (fn a b c).1 < 2 ^ ty.fmt.width) :
    FpForm ty R l (fpEach ty fn l.a l.b l.c) :=
  fpEach_elements fun _ _ => h _ _ _ (elemAt_lt ..) (elemAt_lt ..)

/-- A function of the operands gives each lane its value. -/
theorem gives_alu {i : Instr} {g : Sig} {f : Fields} {fn : QWord → QWord → QWord → LaneRes} {R : Lane → LaneRes → Prop}
    (hi : ∀ s, exec i s = (aluJob g fn).issue f s)
    (hR : ∀ s ci, Ready s ci g f → ∀ l ∈ s.lanes ci g f, (fn l.a l.b l.c).late = false ∧ R l (fn l.a l.b l.c)) : Gives i g f R :=
  fun s ci hready => ⟨fun l => fn l.a l.b l.c, (hi s).trans (issue_map hready), hR s ci hready⟩

end Sys2Proof.Machine

namespace Sys2Proof.Machine

/-! # Exact arithmetic (R45) -/

theorem exactOf_neg (x : FVal) : exactOf x.neg = (exactOf x).neg := by
  cases x with
  | nan s => rfl
  | inf n => rfl
  | fin n m e =>
    simp only [FVal.neg, exactOf]
    split
    · rfl
    · simp only [Exact.neg, finiteValue_not]

theorem sign_exactOf (x : FVal) : (exactOf x).sign = x.sign := by
  cases x with
  | nan s => rfl
  | inf n => rfl
  | fin n m e =>
    simp only [exactOf]
    split
    · rfl
    · next hm => simp [Exact.sign, FVal.sign, finiteValue_lt_zero, hm]

theorem finiteValue_mul (n n' : Bool) (m m' : Nat) (e e' : Int) :
    finiteValue (.fin (n != n') (m * m') (e + e')) = finiteValue (.fin n m e) * finiteValue (.fin n' m' e') := by
  rw [finiteValue_shift]
  cases n <;> cases n' <;> simp [finiteValue] <;> ring

theorem ofRat_eq_zero {q : ℚ} (h : q = 0) (n : Bool) : Exact.ofRat q n = .zero n := if_pos h
theorem ofRat_of_ne {q : ℚ} (h : q ≠ 0) (n : Bool) : Exact.ofRat q n = .num q := if_neg h

theorem exactOf_mul (x y : FVal) : exactOf (x.mul y) = (exactOf x).mul (exactOf y) := by
  cases x with
  | nan s => cases y <;> rfl
  | inf a =>
    cases y with
    | nan s => rfl
    | inf b => rfl
    | fin b m e =>
      by_cases hm : m = 0
      · simp [FVal.mul, exactOf, hm, Exact.mul]
      · have := sign_exactOf (.fin b m e)
        simp only [exactOf, hm, if_false, FVal.sign] at this
        simp [FVal.mul, exactOf, hm, Exact.mul, this]
  | fin a m e =>
    cases y with
    | nan s => simp only [FVal.mul, exactOf]; split <;> rfl
    | inf b =>
      by_cases hm : m = 0
      · simp [FVal.mul, exactOf, hm, Exact.mul]
      · have := sign_exactOf (.fin a m e)
        simp only [exactOf, hm, if_false, FVal.sign] at this
        simp [FVal.mul, exactOf, hm, Exact.mul, this]
    | fin b m' e' =>
      have hx := sign_exactOf (.fin a m e)
      have hy := sign_exactOf (.fin b m' e')
      have h1 := finiteValue_eq_zero a m e
      have h2 := finiteValue_eq_zero b m' e'
      have hmul : FVal.mul (.fin a m e) (.fin b m' e') = .fin (a != b) (m * m') (e + e') := rfl
      rw [hmul, exactOf_fin, finiteValue_mul]
      by_cases hm : m = 0 <;> by_cases hm' : m' = 0 <;> simp_all [exactOf, Exact.mul, Exact.ofRat, Exact.sign, Exact.value, FVal.sign]

/-! ## Sums -/

/-- A number, not a NaN or an infinity. -/
def FVal.isNumber (x : FVal) : Bool := !x.isNan && !x.isInf

theorem isNumber_iff {x : FVal} : x.isNumber = true ↔ ∃ n m e, x = .fin n m e := by
  cases x <;> simp [FVal.isNumber, FVal.isNan, FVal.isInf]

/-- The exponent a sum is taken at lies at or below that of every term but a zero. -/
theorem sumExponent_le (xs : List FVal) (a : Int) :
    let e0 := xs.foldl (fun a x => match x with | .fin _ m e => if m = 0 then a else min a e | _ => a) a
    e0 ≤ a ∧ ∀ n m e, .fin n m e ∈ xs → m ≠ 0 → e0 ≤ e := by
  induction xs generalizing a with
  | nil => simp
  | cons x xs ih =>
    obtain ⟨h1, h2⟩ := ih (match x with | .fin _ m e => if m = 0 then a else min a e | _ => a)
    simp only [List.foldl_cons]
    refine ⟨h1.trans ?_, fun n m e hmem hm => ?_⟩
    · split
      · split
        · exact le_refl _
        · exact min_le_left _ _
      · exact le_refl _
    · rcases List.mem_cons.1 hmem with rfl | hmem
      · refine h1.trans ?_
        simp only [hm, if_false]
        exact min_le_right _ _
      · exact h2 n m e hmem hm

theorem scaled_value {n : Bool} {m : Nat} {e e0 : Int} (h : m ≠ 0 → e0 ≤ e) : ((FVal.scaled e0 (.fin n m e) : ℤ) : ℚ) * 2 ^ e0 = finiteValue (.fin n m e) := by
  rcases Nat.eq_zero_or_pos m with rfl | hm
  · simp [FVal.scaled, finiteValue]
  · have := h hm.ne'
    have hz : (2 : ℚ) ^ (e - e0).toNat * 2 ^ e0 = 2 ^ e := by
      rw [← zpow_natCast, Int.toNat_of_nonneg (by omega), ← zpow_add₀ two_ne_zero]; congr 1; omega
    cases n <;> simp only [FVal.scaled, finiteValue, Bool.false_eq_true, if_false, if_true] <;> push_cast <;> rw [← hz] <;> ring

/-- The sign R45 gives an exact zero that is the sum of numbers. -/
def zeroSign (rm : Rounding) (xs : List FVal) : Bool :=
  if xs.all (fun x => x.isZero && x.sign) then true
  else if xs.all (fun x => x.isZero && !x.sign) then false
  else rm = .rd

theorem sum_scaled (xs : List FVal) (hx : ∀ x ∈ xs, x.isNumber = true) (e0 a : Int) (h : ∀ n m e, .fin n m e ∈ xs → m ≠ 0 → e0 ≤ e) :
    ((xs.foldl (fun a x => a + FVal.scaled e0 x) a : ℤ) : ℚ) * 2 ^ e0 = a * 2 ^ e0 + (xs.map finiteValue).sum := by
  induction xs generalizing a with
  | nil => simp
  | cons x xs ih =>
    obtain ⟨n, m, e, rfl⟩ := isNumber_iff.1 (hx x List.mem_cons_self)
    rw [List.foldl_cons, ih (fun y hy => hx y (List.mem_cons_of_mem _ hy)) _ fun n m e hm => h n m e (List.mem_cons_of_mem _ hm),
      List.map_cons, List.sum_cons, ← scaled_value fun hm => h n m e List.mem_cons_self hm]
    push_cast
    ring

/-- A sum of numbers is a number, exactly. -/
theorem sum_numbers (rm : Rounding) {xs : List FVal} (hx : ∀ x ∈ xs, x.isNumber = true) :
    ∃ n m e, FVal.sum rm xs = .fin n m e ∧ finiteValue (.fin n m e) = (xs.map finiteValue).sum ∧ (m = 0 → n = zeroSign rm xs) := by
  have hnan : xs.any FVal.isNan = false := by
    rw [List.any_eq_false]; intro x hm; have := hx x hm; simp [FVal.isNumber] at this; simp [this]
  have hinf : ∀ p : FVal → Bool, (xs.any fun x => x.isInf && p x) = false := fun p => by
    rw [List.any_eq_false]; intro x hm; have := hx x hm; simp [FVal.isNumber] at this; simp [this]
  have hp := hinf fun x => !x.sign
  have hn := hinf fun x => x.sign
  obtain ⟨-, hle⟩ := sumExponent_le xs 0
  have hsum : FVal.sum rm xs =
      let e0 := xs.foldl (fun a x => match x with | .fin _ m e => if m = 0 then a else min a e | _ => a) (0 : Int)
      let t := xs.foldl (fun a x => a + FVal.scaled e0 x) (0 : Int)
      if t = 0 then .fin (zeroSign rm xs) 0 0 else .fin (t < 0) t.natAbs e0 := by
    unfold FVal.sum
    simp only [hnan, hp, hn, Bool.false_eq_true, if_false, Bool.false_and]
    rfl
  simp only at hsum
  generalize he : xs.foldl (fun a x => match x with | .fin _ m e => if m = 0 then a else min a e | _ => a) (0 : Int) = e0 at hsum hle
  have hval := sum_scaled xs hx e0 0 hle
  simp only [Int.cast_zero, zero_mul, zero_add] at hval
  generalize ht : xs.foldl (fun a x => a + FVal.scaled e0 x) (0 : Int) = t at hsum hval
  rw [hsum]
  by_cases h0 : t = 0
  · rw [if_pos h0]
    refine ⟨_, _, _, rfl, ?_, fun _ => rfl⟩
    rw [← hval, h0]
    simp [finiteValue]
  · rw [if_neg h0]
    refine ⟨_, _, _, rfl, ?_, fun h => absurd (Int.natAbs_eq_zero.1 h) h0⟩
    rw [← hval]
    have habs : ((t.natAbs : ℕ) : ℚ) = |(t : ℚ)| := by rw [Nat.cast_natAbs, Int.cast_abs]
    simp only [finiteValue, habs, decide_eq_true_eq]
    split
    · next hl => rw [abs_of_neg (by exact_mod_cast hl)]; ring
    · next hl => rw [abs_of_nonneg (by exact_mod_cast not_lt.1 hl)]; ring

theorem exactOf_sum (rm : Rounding) {xs : List FVal} (hx : ∀ x ∈ xs, x.isNumber = true) :
    exactOf (FVal.sum rm xs) = .ofRat (xs.map finiteValue).sum (zeroSign rm xs) := by
  obtain ⟨n, m, e, hs, hv, hz⟩ := sum_numbers rm hx
  rw [hs, exactOf_fin, hv]
  unfold Exact.ofRat
  split
  · next h0 =>
    rw [hz ((finiteValue_eq_zero n m e).1 (hv.trans h0))]
  · rfl

theorem exactOf_sum_pair (rm : Rounding) (x y : FVal) : exactOf (FVal.sum rm [x, y]) = (exactOf x).add rm (exactOf y) := by
  by_cases hn : x.isNumber = true ∧ y.isNumber = true
  · rw [exactOf_sum rm (by simpa using hn)]
    obtain ⟨⟨n, m, e, rfl⟩, n', m', e', rfl⟩ := hn.imp isNumber_iff.1 isNumber_iff.1
    have h1 := finiteValue_eq_zero n m e
    have h2 := finiteValue_eq_zero n' m' e'
    simp only [List.map_cons, List.map_nil, List.sum_cons, List.sum_nil, add_zero, exactOf]
    by_cases hm : m = 0 <;> by_cases hm' : m' = 0
    · rw [h1.2 hm, h2.2 hm']
      cases n <;> cases n' <;> simp [hm, hm', Exact.ofRat, Exact.add, zeroSign, FVal.isZero, FVal.sign]
    · rw [h1.2 hm]
      simp [hm, hm', Exact.ofRat, Exact.add, Exact.value, h2]
    · rw [h2.2 hm']
      simp [hm, hm', Exact.ofRat, Exact.add, Exact.value, h1]
    · simp only [hm, hm', Exact.ofRat, Exact.add, Exact.value, zeroSign, FVal.isZero, if_false, List.all_cons, decide_false,
        Bool.false_and, Bool.false_eq_true] <;> rfl
  · cases x with
    | nan s => rfl
    | inf a =>
      cases y with
      | nan s => rfl
      | inf b => cases a <;> cases b <;> rfl
      | fin b m e => by_cases hm : m = 0 <;> cases a <;> simp [FVal.sum, FVal.isNan, FVal.isInf, FVal.sign, exactOf, Exact.add, hm]
    | fin a m e =>
      cases y with
      | nan s => by_cases hm : m = 0 <;> simp [FVal.sum, FVal.isNan, exactOf, Exact.add, hm]
      | inf b => by_cases hm : m = 0 <;> cases b <;> simp [FVal.sum, FVal.isNan, FVal.isInf, FVal.sign, exactOf, Exact.add, hm]
      | fin b m e => simp [FVal.isNumber, FVal.isNan, FVal.isInf] at hn

theorem exactOf_scale (x : FVal) (k : Int) :
    exactOf (match x with | .fin s m e => FVal.fin s m (e + k) | y => y) = (exactOf x).scale k := by
  cases x with
  | nan s => rfl
  | inf n => rfl
  | fin n m e =>
    simp only [exactOf, finiteValue_shift]
    split <;> rfl

end Sys2Proof.Machine

namespace Sys2Proof.Machine

/-! # A value carried with a sticky bit rounds as the exact one (R46, R62)

A magnitude `2r + 1` in units of 2^h stands for every magnitude strictly between `2r` and `2r + 2`: where the quantum is at least four such
units, none of the integers and half-integers of a quotient by the quantum lies between them. -/

/-- No multiple of 2^h separates the two. -/
def SameCell (h : Int) (x y : ℝ) : Prop := ∀ j : ℤ, (j * (2 : ℝ) ^ h ≤ x ↔ j * (2 : ℝ) ^ h ≤ y) ∧ (x ≤ j * (2 : ℝ) ^ h ↔ y ≤ j * (2 : ℝ) ^ h)

theorem SameCell.symm {h : Int} {x y : ℝ} (c : SameCell h x y) : SameCell h y x := fun j => ⟨(c j).1.symm, (c j).2.symm⟩

theorem SameCell.neg {h : Int} {x y : ℝ} (c : SameCell h x y) : SameCell h (-x) (-y) := fun j => by
  have := c (-j)
  push_cast at this
  rw [neg_mul] at this
  exact ⟨le_neg.trans (this.2.trans le_neg.symm), neg_le.trans (this.1.trans neg_le.symm)⟩

theorem SameCell.nonneg_iff {h : Int} {x y : ℝ} (c : SameCell h x y) : 0 ≤ x ↔ 0 ≤ y := by simpa using (c 0).1

theorem SameCell.pos_iff {h : Int} {x y : ℝ} (c : SameCell h x y) : 0 < x ↔ 0 < y := by
  have := (c 0).2
  rw [Int.cast_zero, zero_mul] at this
  rw [← not_le, ← not_le, this]

theorem SameCell.abs {h : Int} {x y : ℝ} (c : SameCell h x y) : SameCell h |x| |y| := by
  rcases le_or_gt 0 x with hx | hx
  · rwa [abs_of_nonneg hx, abs_of_nonneg (c.nonneg_iff.1 hx)]
  · rw [abs_of_neg hx, abs_of_neg (not_le.1 (mt c.nonneg_iff.2 hx.not_ge))]
    exact c.neg

/-- Multiples of a coarser power are multiples. -/
theorem SameCell.coarser {h g : Int} (hg : h ≤ g) {x y : ℝ} (c : SameCell h x y) : SameCell g x y := fun j => by
  have := c (j * 2 ^ (g - h).toNat)
  have e : ((j * 2 ^ (g - h).toNat : ℤ) : ℝ) * 2 ^ h = j * 2 ^ g := by
    push_cast
    rw [← zpow_natCast, Int.toNat_of_nonneg (by omega), mul_assoc, ← zpow_add₀ two_ne_zero]
    congr 2; omega
  rwa [e] at this

theorem SameCell.zpow_le {h : Int} {x y : ℝ} (c : SameCell h x y) {k : Int} (hk : h ≤ k) : (2 : ℝ) ^ k ≤ x ↔ (2 : ℝ) ^ k ≤ y := by
  simpa using ((c.coarser hk) 1).1

theorem SameCell.eq_iff {h : Int} {x y : ℝ} (c : SameCell h x y) (j : ℤ) : x = j * (2 : ℝ) ^ h ↔ y = j * (2 : ℝ) ^ h := by
  rw [le_antisymm_iff, le_antisymm_iff, (c j).1, (c j).2]

/-- Rounding a quotient by 2^g turns on the multiples of 2^(g-1). -/
theorem SameCell.roundsToInt_nonneg {g : Int} {x y : ℝ} (c : SameCell (g - 1) x y) (hx : 0 ≤ x) (hy : 0 ≤ y) {rm : Rounding} {n : ℤ}
    (h : RoundsToInt rm (x / 2 ^ g) n) : RoundsToInt rm (y / 2 ^ g) n := by
  have hP : (0 : ℝ) < 2 ^ g := by positivity
  have half : (2 : ℝ) ^ (g - 1) = 2 ^ g / 2 := by rw [zpow_sub_one₀ two_ne_zero, div_eq_mul_inv]
  -- The comparison with an integer or half-integer a/2.
  have le_div (a : ℤ) (z : ℝ) : (a : ℝ) / 2 ≤ z / 2 ^ g ↔ a * (2 : ℝ) ^ (g - 1) ≤ z := by
    rw [le_div_iff₀ hP, half]; ring_nf
  have div_le (a : ℤ) (z : ℝ) : z / 2 ^ g ≤ (a : ℝ) / 2 ↔ z ≤ a * (2 : ℝ) ^ (g - 1) := by
    rw [div_le_iff₀ hP, half]; ring_nf
  have hle (a : ℤ) : (a : ℝ) / 2 ≤ x / 2 ^ g ↔ (a : ℝ) / 2 ≤ y / 2 ^ g := by rw [le_div, le_div, (c a).1]
  have hge (a : ℤ) : x / 2 ^ g ≤ (a : ℝ) / 2 ↔ y / 2 ^ g ≤ (a : ℝ) / 2 := by rw [div_le, div_le, (c a).2]
  have hx0 : 0 ≤ x / 2 ^ g := by positivity
  have hy0 : 0 ≤ y / 2 ^ g := by positivity
  generalize x / 2 ^ g = u at *
  generalize y / 2 ^ g = v at *
  have hint (a : ℤ) : ((2 * a : ℤ) : ℝ) / 2 = a := by push_cast; ring
  have ile (a : ℤ) : (a : ℝ) ≤ u ↔ (a : ℝ) ≤ v := by rw [← hint a]; exact hle _
  have ige (a : ℤ) : u ≤ (a : ℝ) ↔ v ≤ (a : ℝ) := by rw [← hint a]; exact hge _
  have up : ((2 * n + 1 : ℤ) : ℝ) / 2 = n + 1 / 2 := by push_cast; ring
  have down : ((2 * n - 1 : ℤ) : ℝ) / 2 = n - 1 / 2 := by push_cast; ring
  cases rm <;> simp only [RoundsToInt] at h ⊢
  · obtain ⟨h1, h2⟩ := h
    rw [abs_le] at h1
    have a1 := (hge (2 * n + 1)).1 (by rw [up]; linarith)
    have a2 := (hle (2 * n - 1)).1 (by rw [down]; linarith)
    rw [up] at a1
    rw [down] at a2
    refine ⟨abs_le.2 ⟨by linarith, by linarith⟩, fun he => h2 ?_⟩
    rcases (abs_eq one_half_pos.le).1 he with k | k
    · have := (hle (2 * n + 1)).2 (by rw [up]; linarith)
      rw [up] at this
      rw [abs_of_nonneg] <;> linarith
    · have := (hge (2 * n - 1)).2 (by rw [down]; linarith)
      rw [down] at this
      rw [abs_of_nonpos] <;> linarith
  · obtain ⟨h1, h2, h3⟩ := h
    rw [abs_of_nonneg hx0] at h1 h2
    rw [abs_of_nonneg hy0]
    have e : |(n : ℝ)| = ((|n| : ℤ) : ℝ) := by push_cast; rfl
    refine ⟨?_, ?_, ?_⟩
    · rw [e] at h1 ⊢; exact (ile _).1 h1
    · rw [e] at h2 ⊢
      have : ¬(((|n| + 1 : ℤ) : ℝ) ≤ u) := by push_cast; linarith
      have := mt (ile _).2 this
      push_cast at this ⊢; linarith
    · rcases lt_or_ge (n : ℝ) 0 with hn | hn
      · have hu : u ≤ ((0 : ℤ) : ℝ) := by push_cast; nlinarith
        have := (ige 0).1 hu
        have hv : v = 0 := le_antisymm (by simpa using this) hy0
        simp [hv]
      · positivity
  · refine ⟨(ile _).1 h.1, ?_⟩
    have : ¬(((n + 1 : ℤ) : ℝ) ≤ u) := by push_cast; linarith [h.2]
    have := mt (ile _).2 this
    push_cast at this; linarith
  · refine ⟨(ige _).1 h.1, ?_⟩
    have : ¬(u ≤ ((n - 1 : ℤ) : ℝ)) := by push_cast; linarith [h.2]
    have := mt (ige _).2 this
    push_cast at this; linarith

theorem magnitudeMode_twice (rm : Rounding) : magnitudeMode true (magnitudeMode true rm) = rm := by cases rm <;> rfl

theorem SameCell.roundsToInt {g : Int} {x y : ℝ} (c : SameCell (g - 1) x y) {rm : Rounding} {n : ℤ}
    (h : RoundsToInt rm (x / 2 ^ g) n) : RoundsToInt rm (y / 2 ^ g) n := by
  rcases le_or_gt 0 x with hx | hx
  · exact c.roundsToInt_nonneg hx (c.nonneg_iff.1 hx) h
  · have hy : y < 0 := not_le.1 (mt c.nonneg_iff.2 hx.not_ge)
    have h1 : RoundsToInt (magnitudeMode true rm) (-x / 2 ^ g) (-n) := by
      rw [neg_div]; exact roundsToInt_neg (by rwa [magnitudeMode_twice])
    have h2 := c.neg.roundsToInt_nonneg (neg_nonneg.2 hx.le) (neg_nonneg.2 hy.le) h1
    simpa [neg_div] using roundsToInt_neg h2

/-- Two numbers, told apart by no multiple of half of the quantum that P bits leave, round alike. -/
theorem roundsNumber_sameCell {f : FpFmt} (hk : f.kind ≠ .mxint8) {rm : Rounding} {sat : Bool} {x y : ℝ} {h : Int}
    (c : SameCell h x y) {k : Int} (hk1 : (2 : ℝ) ^ k ≤ |x|) (hk2 : |x| < (2 : ℝ) ^ (k + 1)) (hh : h + 1 ≤ k - f.frac)
    {code : Nat} {fl : Flags} (hr : RoundsNumber f rm sat x code fl) : RoundsNumber f rm sat y code fl := by
  obtain ⟨k', n, t, h1, h2, hr⟩ := hr
  obtain rfl : k' = k := by
    have a1 := (zpow_lt_zpow_iff_right₀ (one_lt_two (α := ℝ))).1 (h1.trans_lt hk2)
    have a2 := (zpow_lt_zpow_iff_right₀ (one_lt_two (α := ℝ))).1 (hk1.trans_lt h2)
    omega
  refine ⟨k', n, t, (c.abs.zpow_le (by omega)).1 h1, not_le.1 fun a => not_lt.2 ((c.abs.zpow_le (by omega)).2 a) h2, ?_⟩
  simp only [hk, if_false] at hr ⊢
  obtain ⟨hn, ht, hover, hin⟩ := hr
  have hq : x = n * (2 : ℝ) ^ max (k' - (f.frac : ℤ)) f.least ↔ y = n * (2 : ℝ) ^ max (k' - (f.frac : ℤ)) f.least :=
    (c.coarser (by omega)).eq_iff n
  have hneg : x < 0 ↔ y < 0 := by rw [← not_le, ← not_le, c.nonneg_iff]
  refine ⟨(c.coarser (by omega)).roundsToInt hn, (c.coarser (by omega)).roundsToInt ht, ?_, fun hle => ?_⟩
  · rw [← hneg, ← c.pos_iff]; exact hover
  · obtain ⟨neg, m, e, hd, hv, hs, h3, h4, h5⟩ := hin hle
    exact ⟨neg, m, e, hd, hv, fun a => (hs a).trans hneg, fun a => h3 (hq.2 a.symm).symm, fun a => h4 fun b => a (hq.1 b.symm).symm,
      fun a => h5 fun b => a (hq.1 b.symm).symm⟩

/-- A magnitude in units of 2^h between two multiples of two units, carried with a sticky bit. -/
theorem sameCell_sticky {h : Int} {r s : Nat} {z : ℝ} (hs : s ≤ 1) (h0 : s = 0 → z = 2 * r * 2 ^ h)
    (h1 : s = 1 → 2 * r * (2 : ℝ) ^ h < z ∧ z < 2 * (r + 1) * (2 : ℝ) ^ h) : SameCell (h + 1) (((2 * r + s : ℕ) : ℝ) * 2 ^ h) z := by
  have hP : (0 : ℝ) < 2 ^ h := by positivity
  intro j
  have e : (j : ℝ) * 2 ^ (h + 1) = (2 * j) * 2 ^ h := by rw [zpow_add_one₀ two_ne_zero]; ring
  rw [e]
  rcases Nat.le_one_iff_eq_zero_or_eq_one.1 hs with rfl | rfl
  · rw [h0 rfl]; simp
  · obtain ⟨a, b⟩ := h1 rfl
    push_cast
    rcases le_or_gt j r with hj | hj
    · have hjr : (j : ℝ) ≤ r := by exact_mod_cast hj
      have k1 : 2 * (j : ℝ) * 2 ^ h ≤ 2 * r * 2 ^ h := by nlinarith
      have k2 : 2 * (r : ℝ) * 2 ^ h < (2 * r + 1) * 2 ^ h := by nlinarith
      exact ⟨iff_of_true (k1.trans k2.le) (k1.trans a.le), iff_of_false (k1.trans_lt k2).not_ge (k1.trans_lt a).not_ge⟩
    · have hjr : (r : ℝ) + 1 ≤ j := by exact_mod_cast hj
      have k1 : 2 * ((r : ℝ) + 1) * 2 ^ h ≤ 2 * j * 2 ^ h := by nlinarith
      have k2 : (2 * (r : ℝ) + 1) * 2 ^ h < 2 * (r + 1) * 2 ^ h := by nlinarith
      exact ⟨iff_of_false (k2.trans_le k1).not_ge (b.trans_le k1).not_ge, iff_of_true (k2.trans_le k1).le (b.trans_le k1).le⟩

/-- ROUND of a number carried with a sticky bit below at least P bits. -/
theorem roundFp_sticky {f : FpFmt} (hf : f.Regular) (rm : Rounding) (sat neg : Bool) {h : Int} {r s : Nat} {z : ℝ} (hs : s ≤ 1)
    (hr : 2 ^ (f.frac + 2) ≤ r) (h0 : s = 0 → z = 2 * r * 2 ^ h)
    (h1 : s = 1 → 2 * r * (2 : ℝ) ^ h < z ∧ z < 2 * (r + 1) * (2 : ℝ) ^ h) :
    RoundsNumber f rm sat (signOf neg * z) (roundFp f rm (.fin neg (2 * r + s) h) sat).1 (roundFp f rm (.fin neg (2 * r + s) h) sat).2 := by
  have hm : 2 * r + s ≠ 0 := by have := Nat.two_pow_pos (f.frac + 2); omega
  have c := sameCell_sticky (h := h) hs h0 h1
  have habs : |((finiteValue (.fin neg (2 * r + s) h) : ℚ) : ℝ)| = ((2 * r + s : ℕ) : ℝ) * 2 ^ h := by
    rw [cast_finiteValue, signOf_mul_abs neg (by positivity)]
  have hc : SameCell (h + 1) ((finiteValue (.fin neg (2 * r + s) h) : ℚ) : ℝ) (signOf neg * z) := by
    rw [cast_finiteValue]
    cases neg
    · simpa [signOf] using c
    · simpa [signOf] using c.neg
  refine roundsNumber_sameCell hf.kind hc (k := leadExp (2 * r + s) h) (habs ▸ leadExp_le hm h) (habs ▸ lt_leadExp _ h) ?_
    (roundFp_number rm sat neg h hf hm)
  have : f.frac + 2 ≤ Nat.log2 (2 * r + s) := (Nat.le_log2 hm).2 (by omega)
  unfold leadExp
  omega

end Sys2Proof.Machine

namespace Sys2Proof.Machine

/-! # Quotients and roots (R62) -/

/-- The formats of arithmetic have a sign and at most 52 fraction bits. -/
theorem arithmetic_format (ty : FpTy) : ty.fmt.Regular ∧ ty.fmt.frac ≤ 60 ∧ ty.fmt ∈ formats ∧ ty.fmt.kind = .ieee :=
  ⟨regular_of_mem (by cases ty <;> decide), by cases ty <;> decide, by cases ty <;> decide, by cases ty <;> rfl⟩

section

variable {f : FpFmt} (hf : f.Regular) (hfrac : f.frac ≤ 60) (rm : Rounding) (sat : Bool)
include hf hfrac

theorem roundFp_quotient {a b : Bool} {m n : Nat} {e g : Int} (hm : m ≠ 0) (hn : n ≠ 0) :
    RoundsNumber f rm sat ((finiteValue (.fin a m e) / finiteValue (.fin b n g) : ℚ) : ℝ)
      (roundFp f rm ((FVal.fin a m e).div (.fin b n g)) sat).1 (roundFp f rm ((FVal.fin a m e).div (.fin b n g)) sat).2 := by
  set k := 68 + Nat.log2 n with hk
  have hdiv : (FVal.fin a m e).div (.fin b n g) =
      .fin (a != b) (2 * (m * 2 ^ k / n) + if m * 2 ^ k % n = 0 then 0 else 1) (e - g - k - 1) := by
    simp only [FVal.div, hm, hn, if_false, hk]
  have hz : ((finiteValue (.fin a m e) / finiteValue (.fin b n g) : ℚ) : ℝ) =
      signOf (a != b) * (2 * ((m * 2 ^ k : ℕ) / n : ℝ) * 2 ^ (e - g - k - 1)) := by
    have h2 : (2 : ℝ) * 2 ^ k * 2 ^ (e - g - k - 1) = 2 ^ e / 2 ^ g := by
      rw [← pow_succ', ← zpow_natCast, ← zpow_add₀ two_ne_zero, ← zpow_sub₀ two_ne_zero]
      congr 1; push_cast; ring
    push_cast
    rw [cast_finiteValue, cast_finiteValue]
    have h3 : (2 * ((m : ℝ) * 2 ^ k / n) * 2 ^ (e - g - k - 1)) = m / n * (2 * 2 ^ k * 2 ^ (e - g - k - 1)) := by ring
    rw [h3, h2]
    have hn' : (n : ℝ) ≠ 0 := by exact_mod_cast hn
    cases a <;> cases b <;> simp [signOf] <;> field_simp
  have hnR : (0 : ℝ) < n := by exact_mod_cast Nat.pos_of_ne_zero hn
  have hdm := Nat.div_add_mod (m * 2 ^ k) n
  have hlt : m * 2 ^ k % n < n := Nat.mod_lt _ (Nat.pos_of_ne_zero hn)
  generalize hq : m * 2 ^ k / n = q at *
  generalize hr : m * 2 ^ k % n = r at *
  have hP : (0 : ℝ) < 2 ^ (e - g - k - 1) := by positivity
  have hdmR : ((m * 2 ^ k : ℕ) : ℝ) = n * q + r := by exact_mod_cast hdm.symm
  rw [hdiv, hz]
  refine roundFp_sticky hf rm sat _ (by split <;> omega) ?_ (fun h0 => ?_) (fun h1 => ?_)
  · have h2 : n < 2 ^ (Nat.log2 n + 1) := Nat.lt_log2_self
    have h3 : 2 ^ 67 * n < 2 ^ k := by
      calc 2 ^ 67 * n < 2 ^ 67 * 2 ^ (Nat.log2 n + 1) := by omega
        _ = 2 ^ k := by rw [← pow_add]; congr 1; omega
    have h4 : 2 ^ k ≤ m * 2 ^ k := Nat.le_mul_of_pos_left _ (Nat.pos_of_ne_zero hm)
    have h5 : 2 ^ 67 ≤ q := by
      rw [← hq, Nat.le_div_iff_mul_le (Nat.pos_of_ne_zero hn)]; omega
    exact (Nat.pow_le_pow_right two_pos (by omega : f.frac + 2 ≤ 67)).trans h5
  · have : r = 0 := by by_contra h; simp [h] at h0
    rw [hdmR, this]
    push_cast
    field_simp
    ring
  · have hr0 : r ≠ 0 := by intro h; simp [h] at h1
    have hrR : (0 : ℝ) < r := by exact_mod_cast Nat.pos_of_ne_zero hr0
    have hrn : (r : ℝ) < n := by exact_mod_cast hlt
    constructor
    · refine mul_lt_mul_of_pos_right ?_ hP
      have : (q : ℝ) < ((m * 2 ^ k : ℕ) : ℝ) / n := by rw [lt_div_iff₀ hnR, hdmR]; linarith [mul_comm (q : ℝ) n]
      linarith
    · refine mul_lt_mul_of_pos_right ?_ hP
      have : ((m * 2 ^ k : ℕ) : ℝ) / n < q + 1 := by rw [div_lt_iff₀ hnR, hdmR]; nlinarith
      linarith

/-- ROUND of a quotient (R62). -/
theorem roundFp_div (hm : f ∈ formats) (x y : FVal) :
    Rounds f rm sat ((exactOf x).div (exactOf y)) (roundFp f rm (x.div y) sat).1 (roundFp f rm (x.div y) sat).2 := by
  have exact (h : exactOf (x.div y) = (exactOf x).div (exactOf y)) :
      Rounds f rm sat ((exactOf x).div (exactOf y)) (roundFp f rm (x.div y) sat).1 (roundFp f rm (x.div y) sat).2 :=
    h ▸ roundFp_rounds hm rm sat _
  cases x with
  | nan s => exact exact (by cases y <;> rfl)
  | inf a =>
    cases y with
    | nan s => exact exact rfl
    | inf b => exact exact rfl
    | fin b n g =>
      have := sign_exactOf (.fin b n g)
      refine exact ?_
      by_cases hn : n = 0
      · simp [FVal.div, exactOf, hn, Exact.div, Exact.sign]
      · simp only [exactOf, hn, if_false, FVal.sign] at this
        simp [FVal.div, exactOf, hn, Exact.div, this]
  | fin a m e =>
    have ha := sign_exactOf (.fin a m e)
    cases y with
    | nan s => exact exact (by by_cases h : m = 0 <;> simp [FVal.div, exactOf, Exact.div, h])
    | inf b =>
      refine exact ?_
      by_cases h : m = 0
      · simp [FVal.div, exactOf, Exact.div, h, Exact.sign]
      · simp only [exactOf, h, if_false, FVal.sign] at ha
        simp [FVal.div, exactOf, Exact.div, h, ha]
    | fin b n g =>
      have hb := sign_exactOf (.fin b n g)
      have hv := finiteValue_eq_zero b n g
      by_cases h : m = 0 <;> by_cases hn : n = 0
      · exact exact (by simp [FVal.div, exactOf, Exact.div, h, hn])
      · refine exact ?_
        simp only [exactOf, hn, if_false, FVal.sign] at hb
        simp [FVal.div, exactOf, Exact.div, h, hn, Exact.sign, Exact.ofRat, Exact.value] at hb ⊢
        simp [hb]
      · refine exact ?_
        simp only [exactOf, h, if_false, FVal.sign] at ha
        simp [FVal.div, exactOf, Exact.div, h, hn, ha]
      · have hne : finiteValue (.fin a m e) / finiteValue (.fin b n g) ≠ 0 :=
          div_ne_zero (mt (finiteValue_eq_zero a m e).1 h) (mt hv.1 hn)
        have hd : (exactOf (.fin a m e)).div (exactOf (.fin b n g)) = .num (finiteValue (.fin a m e) / finiteValue (.fin b n g)) := by
          simp only [exactOf, h, hn, if_false, Exact.div, Exact.value]
          exact ofRat_of_ne hne _
        rw [hd]
        exact roundFp_quotient hf hfrac rm sat h hn

end

/-! ## Square roots -/

theorem isqrtFrom_spec (n x r : Nat) (hle : r * r ≤ x) (hlt : x < (r + 2 ^ (n + 1)) * (r + 2 ^ (n + 1))) :
    isqrtFrom n x r * isqrtFrom n x r ≤ x ∧ x < (isqrtFrom n x r + 1) * (isqrtFrom n x r + 1) := by
  induction n generalizing r with
  | zero =>
    simp only [isqrtFrom]
    split
    · next h => exact ⟨h, by simpa using hlt⟩
    · next h => exact ⟨hle, not_le.1 h⟩
  | succ n ih =>
    simp only [isqrtFrom]
    split
    · next h =>
      refine ih _ h ?_
      have : r + 2 ^ (n + 1) + 2 ^ (n + 1) = r + 2 ^ (n + 1 + 1) := by rw [pow_succ 2 (n + 1)]; ring
      rwa [this]
    · next h => exact ih _ hle (not_le.1 h)

theorem isqrt_spec (x : Nat) : isqrt x * isqrt x ≤ x ∧ x < (isqrt x + 1) * (isqrt x + 1) := by
  refine isqrtFrom_spec _ x 0 (Nat.zero_le _) ?_
  have h : x < 2 ^ (Nat.log2 x + 1) := Nat.lt_log2_self
  rw [zero_add, ← pow_add]
  exact h.trans_le (Nat.pow_le_pow_right two_pos (by omega))

theorem le_isqrt {x a : Nat} (h : a * a ≤ x) : a ≤ isqrt x := by
  by_contra hlt
  have := (isqrt_spec x).2
  have h2 : isqrt x + 1 ≤ a := by omega
  exact absurd (h.trans_lt this) (not_lt.2 (Nat.mul_le_mul h2 h2))

section

variable {f : FpFmt} (hf : f.Regular) (hfrac : f.frac ≤ 60) (rm : Rounding) (sat : Bool)
include hf hfrac

theorem roundFp_sqrt {m : Nat} (e : Int) (hm : m ≠ 0) :
    RoundsNumber f rm sat (Real.sqrt ((finiteValue (.fin false m e) : ℚ) : ℝ))
      (roundFp f rm (sqrtPos m e) sat).1 (roundFp f rm (sqrtPos m e) sat).2 := by
  set k : Nat := 140 + (if (e - 140) % 2 = 0 then 0 else 1) with hk
  have heven : 2 * ((e - k) / 2) = e - k := by split at hk <;> omega
  obtain ⟨h1, h2⟩ := isqrt_spec (m * 2 ^ k)
  have hs : sqrtPos m e = .fin false (2 * isqrt (m * 2 ^ k) + if isqrt (m * 2 ^ k) * isqrt (m * 2 ^ k) = m * 2 ^ k then 0 else 1) ((e - k) / 2 - 1) := rfl
  have hbig : 2 ^ 70 ≤ isqrt (m * 2 ^ k) := by
    refine le_isqrt ?_
    rw [← pow_add]
    exact (Nat.pow_le_pow_right two_pos (by omega)).trans (Nat.le_mul_of_pos_left _ (Nat.pos_of_ne_zero hm))
  have hz : Real.sqrt ((finiteValue (.fin false m e) : ℚ) : ℝ) = signOf false * (2 * Real.sqrt ((m * 2 ^ k : ℕ) : ℝ) * 2 ^ ((e - k) / 2 - 1)) := by
    have hsq : ((finiteValue (.fin false m e) : ℚ) : ℝ) = ((m * 2 ^ k : ℕ) : ℝ) * (2 ^ ((e - k) / 2)) ^ 2 := by
      rw [cast_finiteValue, ← zpow_natCast, ← zpow_mul]
      push_cast
      rw [← zpow_natCast (2 : ℝ) k, mul_assoc, ← zpow_add₀ two_ne_zero]
      simp only [signOf, Bool.false_eq_true, if_false, Int.cast_one, one_mul]
      congr 2; omega
    rw [hsq, Real.sqrt_mul (Nat.cast_nonneg _), Real.sqrt_sq (by positivity), zpow_sub_one₀ two_ne_zero]
    simp only [signOf, Bool.false_eq_true, if_false, Int.cast_one]
    ring
  rw [hs, hz]
  generalize isqrt (m * 2 ^ k) = r at *
  generalize m * 2 ^ k = x at *
  have hP : (0 : ℝ) < 2 ^ ((e - k) / 2 - 1) := by positivity
  refine roundFp_sticky hf rm sat _ (by split <;> omega) ((Nat.pow_le_pow_right two_pos (by omega)).trans hbig) (fun h => ?_) (fun h => ?_)
  · have he : r * r = x := by by_contra hne; simp [hne] at h
    rw [← he, Nat.cast_mul, Real.sqrt_mul_self (Nat.cast_nonneg _)]
  · have hne : r * r ≠ x := fun he => by simp [he] at h
    have a1 : (r : ℝ) < Real.sqrt x := Real.lt_sqrt_of_sq_lt (by rw [sq]; exact_mod_cast lt_of_le_of_ne h1 hne)
    have a2 : Real.sqrt x < r + 1 := (Real.sqrt_lt' (by positivity)).2 (by rw [sq]; exact_mod_cast h2)
    exact ⟨mul_lt_mul_of_pos_right (by linarith) hP, mul_lt_mul_of_pos_right (by linarith) hP⟩

theorem roundFp_rsqrt {m : Nat} (e : Int) (hm : m ≠ 0) :
    RoundsNumber f rm sat (1 / Real.sqrt ((finiteValue (.fin false m e) : ℚ) : ℝ))
      (roundFp f rm (rsqrtPos m e) sat).1 (roundFp f rm (rsqrtPos m e) sat).2 := by
  set m' := if e % 2 = 0 then m else 2 * m with hm'
  set e' := if e % 2 = 0 then e else e - 1 with he'
  have heven : 2 * (e' / 2) = e' := by split at he' <;> omega
  have hm0 : m' ≠ 0 := by split at hm' <;> omega
  have hval : ((finiteValue (.fin false m e) : ℚ) : ℝ) = m' * (2 ^ (e' / 2)) ^ 2 := by
    rw [cast_finiteValue, ← zpow_natCast, ← zpow_mul]
    have : e' / 2 * ((2 : ℕ) : ℤ) = e' := by push_cast; omega
    rw [this]
    simp only [signOf, Bool.false_eq_true, if_false, Int.cast_one, one_mul, hm', he']
    split
    · rfl
    · rw [zpow_sub_one₀ two_ne_zero]; push_cast; ring
  set k := 70 + Nat.log2 m' with hk
  obtain ⟨h1, h2⟩ := isqrt_spec (2 ^ (2 * k) / m')
  have hs : rsqrtPos m e = .fin false (2 * isqrt (2 ^ (2 * k) / m') +
      if isqrt (2 ^ (2 * k) / m') * isqrt (2 ^ (2 * k) / m') * m' = 2 ^ (2 * k) then 0 else 1) (-(e' / 2) - k - 1) := rfl
  have hpos : 0 < m' := Nat.pos_of_ne_zero hm0
  have hbig : 2 ^ 69 ≤ isqrt (2 ^ (2 * k) / m') := by
    refine le_isqrt ((Nat.le_div_iff_mul_le hpos).2 ?_)
    have h3 : m' < 2 ^ (Nat.log2 m' + 1) := Nat.lt_log2_self
    calc 2 ^ 69 * 2 ^ 69 * m' ≤ 2 ^ 138 * 2 ^ (Nat.log2 m' + 1) := by rw [← pow_add]; exact Nat.mul_le_mul_left _ h3.le
      _ ≤ 2 ^ (2 * k) := by rw [← pow_add]; exact Nat.pow_le_pow_right two_pos (by omega)
  have hz : 1 / Real.sqrt ((finiteValue (.fin false m e) : ℚ) : ℝ) = signOf false * (2 * (2 ^ k / Real.sqrt m') * 2 ^ (-(e' / 2) - k - 1)) := by
    have hp : (2 : ℝ) * 2 ^ k * 2 ^ (-(e' / 2) - k - 1) = (2 ^ (e' / 2))⁻¹ := by
      rw [← zpow_neg, ← pow_succ', ← zpow_natCast, ← zpow_add₀ two_ne_zero]
      congr 1; push_cast; ring
    have hsq : Real.sqrt (m' : ℝ) ≠ 0 := (Real.sqrt_pos.2 (by exact_mod_cast hpos)).ne'
    rw [hval, Real.sqrt_mul (Nat.cast_nonneg _), Real.sqrt_sq (by positivity), one_div, mul_inv, ← hp]
    simp only [signOf, Bool.false_eq_true, if_false, Int.cast_one]
    field_simp
  rw [hs, hz]
  have hlow : isqrt (2 ^ (2 * k) / m') * isqrt (2 ^ (2 * k) / m') * m' ≤ 2 ^ (2 * k) := (Nat.mul_le_mul_right _ h1).trans (Nat.div_mul_le_self _ _)
  have hhigh : 2 ^ (2 * k) < (isqrt (2 ^ (2 * k) / m') + 1) * (isqrt (2 ^ (2 * k) / m') + 1) * m' := (Nat.div_lt_iff_lt_mul hpos).1 h2
  generalize isqrt (2 ^ (2 * k) / m') = r at *
  have hP : (0 : ℝ) < 2 ^ (-(e' / 2) - k - 1) := by positivity
  have hm'R : (0 : ℝ) < m' := by exact_mod_cast hpos
  have hS : (0 : ℝ) < Real.sqrt m' := Real.sqrt_pos.2 hm'R
  have hSS : Real.sqrt m' * Real.sqrt m' = (m' : ℝ) := Real.mul_self_sqrt hm'R.le
  have hkk : ((2 : ℝ) ^ k) ^ 2 = ((2 ^ (2 * k) : ℕ) : ℝ) := by push_cast; rw [← pow_mul, mul_comm]
  have key (a : ℝ) : (a * Real.sqrt m') ^ 2 = a * a * m' := by rw [mul_pow, sq, sq, hSS]
  refine roundFp_sticky hf rm sat _ (by split <;> omega) ((Nat.pow_le_pow_right two_pos (by omega)).trans hbig) (fun h => ?_) (fun h => ?_)
  · have he : r * r * m' = 2 ^ (2 * k) := by by_contra hne; simp [hne] at h
    have : (2 : ℝ) ^ k = r * Real.sqrt m' := by
      refine (pow_left_inj₀ (by positivity) (by positivity) two_ne_zero).1 ?_
      rw [hkk, key, ← he]; push_cast; rfl
    rw [this, mul_div_assoc, div_self hS.ne', mul_one]
  · have hne : r * r * m' ≠ 2 ^ (2 * k) := fun he => by simp [he] at h
    have a1 : (r : ℝ) < 2 ^ k / Real.sqrt m' := by
      rw [lt_div_iff₀ hS]
      refine (pow_lt_pow_iff_left₀ (by positivity) (by positivity) two_ne_zero).1 ?_
      rw [hkk, key]; exact_mod_cast lt_of_le_of_ne hlow hne
    have a2 : 2 ^ k / Real.sqrt m' < r + 1 := by
      rw [div_lt_iff₀ hS]
      refine (pow_lt_pow_iff_left₀ (by positivity) (by positivity) two_ne_zero).1 ?_
      rw [hkk, key]; exact_mod_cast hhigh
    exact ⟨mul_lt_mul_of_pos_right (by linarith) hP, mul_lt_mul_of_pos_right (by linarith) hP⟩

end

end Sys2Proof.Machine

namespace Sys2Proof.Machine

/-! # Codes and their values -/

section

variable {f : FpFmt} (h : f.Regular)
include h

/-- Every code is a magnitude with a sign. -/
theorem code_signed (c : Nat) : ∃ neg mag, mag < 2 ^ (f.width - 1) ∧ decodeFp f c = decodeFp f (f.signed neg mag) ∧
    (c < 2 ^ f.width → c = f.signed neg mag) := by
  have hw := half_width h
  have hlt : c % 2 ^ f.width < 2 ^ f.width := Nat.mod_lt _ (Nat.two_pow_pos _)
  have hmod : decodeFp f c = decodeFp f (c % 2 ^ f.width) := by simp only [decodeFp, Nat.mod_mod]
  refine ⟨decide (2 ^ (f.width - 1) ≤ c % 2 ^ f.width), c % 2 ^ f.width % 2 ^ (f.width - 1), Nat.mod_lt _ (Nat.two_pow_pos _), ?_⟩
  have hs : f.signed (decide (2 ^ (f.width - 1) ≤ c % 2 ^ f.width)) (c % 2 ^ f.width % 2 ^ (f.width - 1)) = c % 2 ^ f.width := by
    rw [signed_regular h]
    by_cases hc : 2 ^ (f.width - 1) ≤ c % 2 ^ f.width
    · rw [if_pos (by simpa using hc), Nat.mod_eq_sub_mod hc, Nat.mod_eq_of_lt (by omega)]; omega
    · rw [if_neg (by simpa using hc), Nat.mod_eq_of_lt (by omega), Nat.zero_add]
  rw [hs]
  exact ⟨hmod, fun hc => (Nat.mod_eq_of_lt hc).symm⟩

/-- A code that is a number has the value of its magnitude. -/
theorem finite_code {c : Nat} {neg : Bool} {m : Nat} {e : Int} (hd : decodeFp f c = .fin neg m e) :
    ∃ mag ≤ f.maxCode, decodeFp f c = decodeFp f (f.signed neg mag) ∧ (m : ℚ) * 2 ^ e = f.magValue mag ∧
      f.qmin ≤ e ∧ m < 2 ^ (f.frac + 1) ∧ (e = f.qmin ∨ 2 ^ f.frac ≤ m) ∧ (c < 2 ^ f.width → c = f.signed neg mag) := by
  obtain ⟨neg', mag, hmag, he, hc⟩ := code_signed h c
  have hd' := he.symm.trans hd
  rw [decodeFp_signed h neg' hmag] at hd'
  have hle : mag ≤ f.maxCode := by
    by_contra hgt
    have htop : f.kind = .ieee ∧ mag ≥ f.infCode ∨ f.kind = .e4m3 ∧ mag = 0x7F := by
      cases hk : f.kind with
      | ieee => have := (h.inf hk).1; exact .inl ⟨rfl, by omega⟩
      | e4m3 =>
        have h1 : f.maxCode = 2 ^ (f.width - 1) - 2 := by simp only [FpFmt.maxCode, hk]
        have h2 := h.e4m3 hk
        exact .inr ⟨rfl, by omega⟩
      | finite =>
        have h1 : f.maxCode = 2 ^ (f.width - 1) - 1 := by simp only [FpFmt.maxCode, hk]
        omega
      | mxint8 => exact absurd hk h.kind
    rcases htop with ht | ht
    · rw [if_pos ht] at hd'
      split at hd' <;> cases hd'
    · rw [if_neg (by rw [ht.1]; simp), if_pos ht] at hd'
      cases hd'
  have hr : mag % 2 ^ f.frac < 2 ^ f.frac := Nat.mod_lt _ (Nat.two_pow_pos _)
  have hp : 2 ^ (f.frac + 1) = 2 * 2 ^ f.frac := by ring
  have hval : neg' = neg ∧ (m : ℚ) * 2 ^ e = f.magValue mag ∧ f.qmin ≤ e ∧ m < 2 ^ (f.frac + 1) ∧ (e = f.qmin ∨ 2 ^ f.frac ≤ m) := by
    rw [if_neg (fun k => by have := (h.inf k.1).1; omega), if_neg (fun k => by have := h.e4m3 k.1; omega)] at hd'
    unfold FpFmt.magValue
    split at hd'
    · next hz =>
      cases hd'
      rw [if_pos hz]
      have : mag < 2 ^ f.frac := (Nat.div_eq_zero_iff.1 hz).resolve_left (by positivity)
      exact ⟨rfl, by rw [Nat.mod_eq_of_lt this], le_refl _, by omega, .inl rfl⟩
    · next hz =>
      cases hd'
      rw [if_neg hz]
      exact ⟨rfl, rfl, by omega, by omega, .inr (by omega)⟩
  obtain ⟨rfl, hv⟩ := hval
  exact ⟨mag, hle, he, hv.1, hv.2.1, hv.2.2.1, hv.2.2.2, hc⟩

end

theorem roundsToInt_of_int {rm : Rounding} {j n : ℤ} (h : RoundsToInt rm (j : ℝ) n) : n = j := by
  cases rm <;> simp only [RoundsToInt] at h
  · have h1 : |((j - n : ℤ) : ℝ)| < 1 := by push_cast; linarith [h.1]
    have h2 : |j - n| < 1 := by exact_mod_cast h1
    have := Int.abs_lt_one_iff.1 h2
    omega
  · obtain ⟨h1, h2, h3⟩ := h
    have h1 : |n| ≤ |j| := by exact_mod_cast h1
    have h2 : |j| < |n| + 1 := by exact_mod_cast h2
    have h3 : 0 ≤ j * n := by exact_mod_cast h3
    rcases abs_eq_abs.1 (le_antisymm h1 (by omega) : |n| = |j|) with e | e
    · exact e
    · rw [e] at h3 ⊢
      have : j = 0 := by nlinarith [mul_self_nonneg j]
      simp [this]
  · obtain ⟨h1, h2⟩ := h
    have h1 : n ≤ j := by exact_mod_cast h1
    have h2 : j < n + 1 := by exact_mod_cast h2
    omega
  · obtain ⟨h1, h2⟩ := h
    have h1 : j ≤ n := by exact_mod_cast h1
    have h2 : n < j + 1 := by exact_mod_cast h2
    omega

/-- A number that the format has rounds to itself, in every mode. -/
theorem rounds_representable {f : FpFmt} (hk : f.kind ≠ .mxint8) {rm : Rounding} {sat : Bool} {x : ℝ} {code : Nat} {fl : Flags}
    (hr : RoundsNumber f rm sat x code fl) {n g : ℤ} (hx : x = n * 2 ^ g) (hn : |n| < 2 ^ (f.frac + 1)) (hg : f.least ≤ g)
    (htop : |x| ≤ f.top) : ∃ neg m e, decodeFp f code = .fin neg m e ∧ ((finiteValue (.fin neg m e) : ℚ) : ℝ) = x ∧ (neg = true ↔ x < 0) ∧ fl = 0 := by
  obtain ⟨k, n', t, h1, h2, hr⟩ := hr
  simp only [hk, if_false] at hr
  obtain ⟨hn', -, -, hin⟩ := hr
  have hkg : max (k - f.frac) f.least ≤ g := by
    have hnR : |(n : ℝ)| < 2 ^ (f.frac + 1) := by exact_mod_cast hn
    have : (2 : ℝ) ^ k < 2 ^ ((f.frac : ℤ) + 1 + g) := by
      refine h1.trans_lt ?_
      rw [hx, abs_mul, abs_of_pos (by positivity : (0 : ℝ) < 2 ^ g), zpow_add₀ two_ne_zero]
      exact mul_lt_mul_of_pos_right (by exact_mod_cast hnR) (by positivity)
    have := (zpow_lt_zpow_iff_right₀ (one_lt_two (α := ℝ))).1 this
    omega
  have hdiv : x / 2 ^ max (k - (f.frac : ℤ)) f.least = ((n * 2 ^ (g - max (k - (f.frac : ℤ)) f.least).toNat : ℤ) : ℝ) := by
    rw [hx, mul_div_assoc, ← zpow_sub₀ two_ne_zero]
    push_cast
    rw [← zpow_natCast, Int.toNat_of_nonneg (by omega)]
  have hq : (n' : ℝ) * 2 ^ max (k - (f.frac : ℤ)) f.least = x := by
    rw [hdiv] at hn'
    rw [roundsToInt_of_int hn', ← hdiv]
    exact div_mul_cancel₀ _ (by positivity)
  rw [hq] at hin
  obtain ⟨neg, m, e, hd, hv, hs, h3, -⟩ := hin htop
  exact ⟨neg, m, e, hd, hv, hs hk, h3 rfl⟩

/-! # The value forms (R120) -/

/-- The value R40 gives the fields of a code. -/
theorem decodeFp_reads {f : FpFmt} (hf : f ∈ [fp64, fp32, fp16, bf16]) (neg : Bool) {ex fr : Nat} (hex : ex < 2 ^ (f.width - 1 - f.frac))
    (hfr : fr < 2 ^ f.frac) : f.Reads neg ex fr (decodeFp f (f.code neg ex fr)) := by
  have hreg : f.Regular := regular_of_mem (by revert hf; simp only [List.mem_cons, List.not_mem_nil, or_false]; tauto)
  have hieee : f.kind = .ieee ∧ 8 < f.width ∧ f.infCode = (2 ^ (f.width - 1 - f.frac) - 1) * 2 ^ f.frac := by
    simp only [List.mem_cons, List.not_mem_nil, or_false] at hf
    rcases hf with rfl | rfl | rfl | rfl <;> decide
  obtain ⟨hk, hw, hinf⟩ := hieee
  have hP : 0 < 2 ^ f.frac := Nat.two_pow_pos _
  have hcode : f.code neg ex fr = f.signed neg (ex * 2 ^ f.frac + fr) := by rw [signed_regular hreg, FpFmt.code, add_assoc]
  have hwid := hreg.width
  have hhalf : 2 ^ (f.width - 1) = 2 ^ (f.width - 1 - f.frac) * 2 ^ f.frac := by rw [← pow_add]; congr 1; omega
  have hmag : ex * 2 ^ f.frac + fr < 2 ^ (f.width - 1) := by
    rw [hhalf]
    calc ex * 2 ^ f.frac + fr < (ex + 1) * 2 ^ f.frac := by rw [add_mul]; omega
      _ ≤ _ := Nat.mul_le_mul_right _ hex
  have hdiv : (ex * 2 ^ f.frac + fr) / 2 ^ f.frac = ex := by
    rw [Nat.mul_comm, Nat.mul_add_div hP, Nat.div_eq_of_lt hfr, Nat.add_zero]
  have hmod : (ex * 2 ^ f.frac + fr) % 2 ^ f.frac = fr := by rw [Nat.mul_comm, Nat.mul_add_mod, Nat.mod_eq_of_lt hfr]
  rw [hcode, decodeFp_signed hreg neg hmag, hdiv, hmod, hinf]
  have hqmin : f.qmin = 1 - (f.bias : ℤ) - f.frac := by rw [FpFmt.qmin, if_neg hreg.kind]
  refine ⟨fun he h0 => ?_, fun he h0 => ?_, fun he => ?_⟩
  · rw [he, h0, if_pos ⟨hk, by simp⟩, if_pos (by simp)]
  · rw [he, if_pos ⟨hk, by simp⟩, if_neg (by simpa using h0)]
    simp [hw]
  · have hlt : ¬(ex * 2 ^ f.frac + fr ≥ (2 ^ (f.width - 1 - f.frac) - 1) * 2 ^ f.frac) := by
      have : (ex + 1) * 2 ^ f.frac ≤ (2 ^ (f.width - 1 - f.frac) - 1) * 2 ^ f.frac := Nat.mul_le_mul_right _ he
      rw [add_mul] at this; omega
    have hz : (2 : ℚ) ^ f.frac * 2 ^ f.qmin = 2 ^ (1 - (f.bias : ℤ)) := by
      rw [← zpow_natCast, ← zpow_add₀ two_ne_zero, hqmin]; congr 1; omega
    rw [if_neg (fun k => hlt k.2), if_neg (by rw [hk]; simp)]
    by_cases h0 : ex = 0
    · rw [if_pos h0, if_pos h0]
      refine ⟨_, _, rfl, ?_⟩
      rw [← hz]
      have hne : (2 : ℚ) ^ f.frac ≠ 0 := by positivity
      simp only [finiteValue]
      field_simp
    · rw [if_neg h0, if_neg h0]
      refine ⟨_, _, rfl, ?_⟩
      have hz2 : (2 : ℚ) ^ (f.qmin + (ex - 1 : Nat)) * 2 ^ f.frac = 2 ^ ((ex : ℤ) - f.bias) := by
        rw [← zpow_natCast, ← zpow_add₀ two_ne_zero, hqmin]; congr 1; omega
      rw [← hz2]
      have hne : (2 : ℚ) ^ f.frac ≠ 0 := by positivity
      simp only [finiteValue]
      push_cast
      field_simp

theorem exactOf_nan {x : FVal} : exactOf x = .nan ↔ x.isNan = true := by
  cases x with
  | fin n m e => simp only [exactOf]; split <;> simp [FVal.isNan]
  | nan s => simp [FVal.isNan, exactOf]
  | inf n => simp [FVal.isNan, exactOf]

/-- What makes arithmetic Invalid, as the model tests it. -/
theorem invalidOf_iff (ins : List FVal) (x : FVal) :
    (ins.any FVal.isSnan || (x.isNan && !ins.any FVal.isNan)) = true ↔ invalidOf ins (exactOf x) := by
  have hs : ∀ y : FVal, y.isSnan = true ↔ y = .nan true := fun y => by cases y <;> simp [FVal.isSnan]
  have hx := (exactOf_nan (x := x)).symm
  have ha : ins.any FVal.isNan = false ↔ ∀ x ∈ ins, x.isNan = false := by simp [List.any_eq_false]
  rw [Bool.or_eq_true, List.any_eq_true, Bool.and_eq_true, hx, Bool.not_eq_true', ha]
  simp only [hs, exists_eq_right, invalidOf]

/-- The result of a value form: one rounding, Invalid, and Divide-by-zero where `dz` says so. -/
theorem fpRound_delivers {f : FpFmt} (hf : f ∈ formats) {rm : Rounding} {ins : List FVal} {x : FVal} {y : Exact} {D : Prop} {dz : Bool}
    (hr : Rounds f rm false y (roundFp f rm x false).1 (roundFp f rm x false).2) (hy : y = .nan ↔ x.isNan = true)
    (hins : FVal.nan true ∈ ins → x.isNan = true) (hD : dz = true ↔ D)
    (hz : D → x.isNan = false ∧ (roundFp f rm x false).2 = 0) :
    Delivers f rm false (invalidOf ins y) D y ((fpRound f rm ins x).1, settleFlags ((fpRound f rm ins x).2 ||| flagIf dz flagDivZero)) := by
  have hiff : invalidOf ins y ↔ invalidOf ins (exactOf x) := by simp only [invalidOf, hy, exactOf_nan]
  have hnan : invalidOf ins y → x.isNan = true := fun h => h.elim hins fun k => hy.1 k.1
  exact delivers_roundFp hf hr ((invalidOf_iff ins x).trans hiff.symm) hD (fun h => .inl (hnan h))
    fun h => ⟨fun k => by simp [hnan k] at hz; exact hz h, (hz h).2⟩

/-- The same where nothing divides by zero. -/
theorem fpRound_arith {f : FpFmt} (hf : f ∈ formats) {rm : Rounding} {ins : List FVal} {x : FVal} {y : Exact}
    (hr : Rounds f rm false y (roundFp f rm x false).1 (roundFp f rm x false).2) (hy : y = .nan ↔ x.isNan = true)
    (hins : FVal.nan true ∈ ins → x.isNan = true) :
    Arith f rm ins y ((fpRound f rm ins x).1, settleFlags (fpRound f rm ins x).2) := by
  have := fpRound_delivers hf (ins := ins) hr hy hins (D := False) (dz := false) (by simp) (by simp)
  simpa [flagIf, Arith] using this

theorem fpRound_exact {f : FpFmt} (hf : f ∈ formats) {rm : Rounding} {ins : List FVal} {x : FVal} {y : Exact} (h : exactOf x = y)
    (hins : FVal.nan true ∈ ins → x.isNan = true) : Arith f rm ins y ((fpRound f rm ins x).1, settleFlags (fpRound f rm ins x).2) :=
  fpRound_arith hf (h ▸ roundFp_rounds hf rm false x) (by rw [← h, exactOf_nan]) hins

theorem fpRound_lt {f : FpFmt} (hf : f ∈ formats) (rm : Rounding) (ins : List FVal) (x : FVal) : (fpRound f rm ins x).1 < 2 ^ f.width :=
  roundFp_lt hf rm false x

/-! ## Where a NaN comes from -/

theorem mul_nan {x y : FVal} (h : x.isNan = true ∨ y.isNan = true) : (x.mul y).isNan = true := by
  rcases h with h | h
  · cases x <;> cases y <;> simp_all [FVal.isNan, FVal.mul]
  · cases y with
    | nan s => cases x <;> rfl
    | inf n => cases h
    | fin n m e => cases h

theorem div_nan {x y : FVal} (h : x.isNan = true ∨ y.isNan = true) : (x.div y).isNan = true := by
  rcases h with h | h
  · cases x <;> cases y <;> simp_all [FVal.isNan, FVal.div]
  · cases y with
    | nan s => cases x <;> rfl
    | inf n => cases h
    | fin n m e => cases h

theorem sum_nan (rm : Rounding) {xs : List FVal} {x : FVal} (hm : x ∈ xs) (h : x.isNan = true) : (FVal.sum rm xs).isNan = true := by
  have : xs.any FVal.isNan = true := List.any_eq_true.2 ⟨x, hm, h⟩
  simp [FVal.sum, this, FVal.isNan]

theorem ofRat_ne_nan (q : ℚ) (n : Bool) : Exact.ofRat q n ≠ .nan := by unfold Exact.ofRat; split <;> simp

/-- A quotient is NaN exactly where the model's is. -/
theorem exactOf_div_nan (x y : FVal) : (exactOf x).div (exactOf y) = .nan ↔ (x.div y).isNan = true := by
  cases x with
  | nan s => cases y <;> simp [exactOf, Exact.div, FVal.div, FVal.isNan]
  | inf a =>
    cases y with
    | nan s => exact iff_of_true rfl rfl
    | inf b => exact iff_of_true rfl rfl
    | fin b n g => by_cases hn : n = 0 <;> simp [exactOf, hn, Exact.div, FVal.div, FVal.isNan]
  | fin a m e =>
    cases y with
    | nan s => by_cases hm : m = 0 <;> simp [exactOf, hm, Exact.div, FVal.div, FVal.isNan]
    | inf b => by_cases hm : m = 0 <;> simp [exactOf, hm, Exact.div, FVal.div, FVal.isNan]
    | fin b n g =>
      by_cases hm : m = 0 <;> by_cases hn : n = 0 <;> simp [exactOf, hm, hn, Exact.div, FVal.div, FVal.isNan, ofRat_ne_nan]

theorem nan_mem_pair {a b : FVal} (h : FVal.nan true ∈ [a, b]) : a.isNan = true ∨ b.isNan = true := by
  rcases List.mem_pair.1 h with e | e
  · exact .inl (e ▸ rfl)
  · exact .inr (e ▸ rfl)

theorem isNan_neg (x : FVal) : x.neg.isNan = x.isNan := by cases x <;> rfl

/-! ## The element functions -/

@[simp] theorem settleFlags_zero : settleFlags 0 = 0 := by decide
@[simp] theorem settleFlags_flagInvalid : settleFlags flagInvalid = flagInvalid := by decide
@[simp] theorem settleFlags_flagDivZero : settleFlags flagDivZero = flagDivZero := by decide
theorem settleFlags_flagIf (p : Bool) : settleFlags (flagIf p flagInvalid) = if p then flagInvalid else 0 := by cases p <;> decide

section

variable {f : FpFmt} (hf : f ∈ formats) (rm : Rounding) (a b c : Nat)
include hf

theorem elAdd_arith : Arith f rm [decodeFp f a, decodeFp f b] ((exactOf (decodeFp f a)).add rm (exactOf (decodeFp f b)))
    ((elAdd f rm a b c).1, settleFlags (elAdd f rm a b c).2) :=
  fpRound_exact hf (exactOf_sum_pair rm _ _) fun h => sum_nan rm h rfl

theorem elSub_arith : Arith f .rn [decodeFp f a, decodeFp f b] ((exactOf (decodeFp f a)).add .rn (exactOf (decodeFp f b)).neg)
    ((elSub f a b c).1, settleFlags (elSub f a b c).2) := by
  refine fpRound_exact hf (by rw [exactOf_sum_pair, exactOf_neg]) fun h => ?_
  rcases nan_mem_pair h with k | k
  · exact sum_nan .rn (List.mem_cons_self ..) k
  · exact sum_nan .rn (List.mem_cons_of_mem _ (List.mem_singleton_self _)) ((isNan_neg _).trans k)

theorem elMul_arith : Arith f rm [decodeFp f a, decodeFp f b] ((exactOf (decodeFp f a)).mul (exactOf (decodeFp f b)))
    ((elMul f rm a b c).1, settleFlags (elMul f rm a b c).2) :=
  fpRound_exact hf (exactOf_mul _ _) fun h => mul_nan (nan_mem_pair h)

theorem elFma_delivers :
    let x := decodeFp f a
    let y := decodeFp f b
    let z := decodeFp f c
    let e := ((exactOf x).mul (exactOf y)).add rm (exactOf z)
    Delivers f rm false (invalidOf [x, y, z] e ∨ invalidOf [x, y] ((exactOf x).mul (exactOf y))) False e
      ((elFma f rm a b c).1, settleFlags (elFma f rm a b c).2) := by
  intro x y z e
  have he : exactOf (FVal.sum rm [x.mul y, z]) = e := by rw [exactOf_sum_pair, exactOf_mul]
  have hp : (x.mul y).isNan = true → (FVal.sum rm [x.mul y, z]).isNan = true := sum_nan rm (List.mem_cons_self ..)
  have hprod : ((x.mul y).isNan && !x.isNan && !y.isNan) = true → invalidOf [x, y] ((exactOf x).mul (exactOf y)) := fun h => by
    simp only [Bool.and_eq_true, Bool.not_eq_true'] at h
    exact .inr ⟨by rw [← exactOf_mul, exactOf_nan]; exact h.1.1, by simp [h.1.2, h.2]⟩
  have hinv : ([x, y, z].any FVal.isSnan || ((FVal.sum rm [x.mul y, z]).isNan && !([x, y, z].any FVal.isNan)) ||
      ((x.mul y).isNan && !x.isNan && !y.isNan)) = true ↔ invalidOf [x, y, z] e ∨ invalidOf [x, y] ((exactOf x).mul (exactOf y)) := by
    rw [Bool.or_eq_true, invalidOf_iff, he]
    refine ⟨Or.imp_right hprod, fun h => h.elim .inl fun k => ?_⟩
    rcases k with k | ⟨k, hn⟩
    · exact .inl (.inl (by simp only [List.mem_cons, List.not_mem_nil, or_false] at k ⊢; tauto))
    · rw [← exactOf_mul, exactOf_nan] at k
      exact .inr (by simp [k, hn x, hn y])
  have hnan : invalidOf [x, y, z] e ∨ invalidOf [x, y] ((exactOf x).mul (exactOf y)) → (FVal.sum rm [x.mul y, z]).isNan = true := by
    rintro ((h | h) | (h | h))
    · rcases List.mem_cons.1 h with k | k
      · exact hp (mul_nan (.inl (k ▸ rfl)))
      · rcases nan_mem_pair k with k | k
        · exact hp (mul_nan (.inr k))
        · exact sum_nan rm (by simp) k
    · exact exactOf_nan.1 (he.trans h.1)
    · exact hp (mul_nan (nan_mem_pair h))
    · exact hp (exactOf_nan.1 ((exactOf_mul x y).trans h.1))
  have := delivers_roundFp hf (dz := false) (he ▸ roundFp_rounds hf rm false (FVal.sum rm [x.mul y, z])) hinv
    (by simp) (fun h => .inl (hnan h)) (D := False) False.elim
  have hor : ∀ p q : Bool, flagIf (p || q) flagInvalid = flagIf p flagInvalid ||| flagIf q flagInvalid := by decide
  rw [hor, ← BitVec.or_assoc, show flagIf false flagDivZero = 0#5 from rfl, BitVec.or_zero] at this
  exact this

theorem elScale_arith (nw : Nat) : Arith f .rn [decodeFp f a] ((exactOf (decodeFp f a)).scale (toSigned nw b))
    ((elScale f nw a b c).1, settleFlags (elScale f nw a b c).2) := by
  refine fpRound_exact hf ?_ fun h => ?_
  · rw [← exactOf_scale] <;> cases decodeFp f a <;> rfl
  · rw [← List.mem_singleton.1 h]
    rfl

/-- A division, with Divide-by-zero where a number other than zero is divided by zero. -/
theorem divide_delivers (hreg : f.Regular) (hfrac : f.frac ≤ 60) (hk : f.kind = .ieee) (x y : FVal) :
    Delivers f .rn false (invalidOf [x, y] ((exactOf x).div (exactOf y))) (dividesByZero (exactOf x) (exactOf y)) ((exactOf x).div (exactOf y))
      ((divide f x y).1, settleFlags (divide f x y).2) := by
  have hdz : (y.isZero && !x.isZero && !x.isNan && !x.isInf) = true ↔ dividesByZero (exactOf x) (exactOf y) := by
    have num : ∀ z : FVal, (∃ q, exactOf z = .num q) ↔ (!z.isZero && !z.isNan && !z.isInf) = true := fun z => by
      cases z with
      | fin n m e => by_cases h : m = 0 <;> simp [exactOf, FVal.isZero, FVal.isNan, FVal.isInf, h]
      | nan s => simp [exactOf, FVal.isNan]
      | inf n => simp [exactOf, FVal.isInf]
    have zero : ∀ z : FVal, (∃ n, exactOf z = .zero n) ↔ z.isZero = true := fun z => by
      cases z with
      | fin n m e => by_cases h : m = 0 <;> simp [exactOf, FVal.isZero, h]
      | nan s => simp [exactOf, FVal.isZero]
      | inf n => simp [exactOf, FVal.isZero]
    rw [dividesByZero, num, zero]
    simp only [Bool.and_eq_true, Bool.not_eq_true']
    tauto
  have hdiv : dividesByZero (exactOf x) (exactOf y) → ∃ n, x.div y = .inf n := fun h => by
    rw [← hdz] at h
    cases y with
    | fin b n g =>
      cases x with
      | fin a m e => exact ⟨a != b, by simp_all [FVal.div, FVal.isZero]⟩
      | nan s => simp [FVal.isNan] at h
      | inf n => simp [FVal.isInf] at h
    | nan s => simp [FVal.isZero] at h
    | inf n => simp [FVal.isZero] at h
  refine fpRound_delivers hf (roundFp_div hreg hfrac .rn false hf x y) (exactOf_div_nan x y) (fun h => div_nan (nan_mem_pair h)) hdz fun h => ?_
  obtain ⟨n, hn⟩ := hdiv h
  rw [hn]
  exact ⟨rfl, by simp [roundFp, FpFmt.hasInf, hk]⟩

/-- A number rounded to an integer is in the format, and keeps its sign. -/
theorem elRint_roundsToIntegral (hreg : f.Regular) (hone : f.qmin ≤ 0 ∧ (2 : ℚ) ^ f.frac ≤ f.top) (ha : a < 2 ^ f.width) :
    RoundsToIntegral f rm a ((elRint f rm a b c).1, settleFlags (elRint f rm a b c).2) ∧ (elRint f rm a b c).1 < 2 ^ f.width := by
  unfold RoundsToIntegral elRint
  cases hd : decodeFp f a with
  | nan s => simp only [settleFlags_flagIf, nanCode_eq hf]; exact ⟨trivial, nanCode_eq hf ▸ hreg.nan.2⟩
  | inf n => simp only [settleFlags_zero]; exact ⟨trivial, ha⟩
  | fin n m e =>
    by_cases hm : m = 0
    · simp only [hm, if_true, settleFlags_zero]
      exact ⟨⟨fun _ => trivial, fun h => absurd rfl h⟩, ha⟩
    · simp only [hm, if_false, settleFlags_zero]
      refine ⟨⟨fun h => h.elim, fun _ => ⟨trivial, roundFp_lt hf .., ?_⟩⟩, roundFp_lt hf ..⟩
      have hr := roundsToInt_finite rm n m e 0
      rw [zpow_zero, div_one] at hr
      obtain ⟨mag, hmax, -, hv, hqe, hmlt, -, -⟩ := finite_code hreg hd
      have htop : (m : ℚ) * 2 ^ e ≤ f.top := by rw [hv, ← hreg.top]; exact (magValue_strictMono f).monotone hmax
      have htopR : (m : ℝ) * 2 ^ e ≤ f.top := by
        have := (Rat.cast_le (K := ℝ)).2 htop
        push_cast at this
        exact this
      -- The rounded number is m·2^e itself where e ≥ 0, else at most 2^frac.
      have hrep : ∃ (j : ℕ) (g : ℤ), ((quantise rm n m e 0).1 : ℝ) = j * 2 ^ g ∧ j < 2 ^ (f.frac + 1) ∧ f.least ≤ g ∧
          ((quantise rm n m e 0).1 : ℝ) ≤ f.top := by
        by_cases he : 0 ≤ e
        · have hex : (quantise rm n m e 0).2 = false := by unfold quantise; rw [if_pos he]
          have := (quantise_exact rm n m e 0).1 hex
          rw [zpow_zero, mul_one] at this
          exact ⟨m, e, this, hmlt, hqe, this ▸ htopR⟩
        · have hle : (quantise rm n m e 0).1 ≤ 2 ^ f.frac := by
            have h0 := roundsToInt_quantise rm n m e 0
            rw [zpow_zero, div_one] at h0
            have hb : (m : ℝ) * 2 ^ e ≤ ((2 ^ f.frac : ℕ) : ℤ) := by
              have h1 : (m : ℝ) ≤ 2 ^ (f.frac + 1) := by exact_mod_cast hmlt.le
              have h2 : (2 : ℝ) ^ e ≤ 2 ^ (-1 : ℤ) := zpow_le_zpow_right₀ one_le_two (by omega)
              calc (m : ℝ) * 2 ^ e ≤ 2 ^ (f.frac + 1) * 2 ^ (-1 : ℤ) := mul_le_mul h1 h2 (by positivity) (by positivity)
                _ = _ := by push_cast; rw [pow_succ, zpow_neg_one]; field_simp
            exact_mod_cast roundsToInt_le h0 hb (by positivity)
          refine ⟨(quantise rm n m e 0).1, 0, by simp, lt_of_le_of_lt hle (Nat.pow_lt_pow_right one_lt_two (Nat.lt_succ_self _)), hone.1, ?_⟩
          have h2 : ((2 ^ f.frac : ℕ) : ℝ) ≤ f.top := by exact_mod_cast hone.2
          exact le_trans (by exact_mod_cast hle) h2
      generalize (quantise rm n m e 0).1 = q at *
      obtain ⟨j, g, hj, hjlt, hg, hqtop⟩ := hrep
      by_cases hq : q = 0
      · have h0 : roundFp f rm (.fin n q 0) false = (f.signed n 0, 0) := if_pos hq
        obtain ⟨m', e', hd', hv'⟩ := decodeFp_finite hreg n (Nat.zero_le f.maxCode)
        rw [h0]
        refine ⟨_, m', e', hr, hd', ?_⟩
        rw [magValue_zero] at hv'
        simp [finiteValue, hv', hq]
      · have hval : ((finiteValue (.fin n q 0) : ℚ) : ℝ) = signOf n * (q : ℝ) := by rw [cast_finiteValue]; simp
        obtain ⟨n', m', e', hd', hv', hs, -⟩ := rounds_representable hreg.kind (roundFp_number rm false n 0 hreg hq) (n := signOf n * j) (g := g)
          (by rw [hval, hj]; push_cast; ring)
          (by rw [abs_mul]; cases n <;> simp [signOf] <;> exact_mod_cast hjlt) hg
          (by rw [hval, signOf_mul_abs n (Nat.cast_nonneg _)]; exact hqtop)
        have hn : n' = n := by
          have : ((finiteValue (.fin n q 0) : ℚ) : ℝ) < 0 ↔ n = true := by rw [Rat.cast_lt_zero, finiteValue_lt_zero]; simp [hq]
          rw [Bool.eq_iff_iff, hs, this]
        subst hn
        refine ⟨_, m', e', hr, hd', ?_⟩
        rw [hval] at hv'
        exact_mod_cast hv'

section

variable (hreg : f.Regular) (hfrac : f.frac ≤ 60) (ha : a < 2 ^ f.width)
include hreg hfrac ha

theorem elSqrt_root : Root f Real.sqrt (fun _ r => r = (a, 0)) (fun r => r = (a, 0)) a ((elSqrt f a b c).1, settleFlags (elSqrt f a b c).2) ∧
    (elSqrt f a b c).1 < 2 ^ f.width := by
  have hnan := hreg.nan.2
  unfold Root elSqrt
  cases hd : decodeFp f a with
  | nan s => simp only [settleFlags_flagIf, nanCode_eq hf]; exact ⟨trivial, nanCode_eq hf ▸ hnan⟩
  | inf n =>
    cases n
    · simp only [Bool.false_eq_true, if_false, settleFlags_zero]
      exact ⟨⟨fun h => h.elim, fun _ => trivial⟩, ha⟩
    · simp only [if_true, settleFlags_flagInvalid, nanCode_eq hf]
      exact ⟨⟨fun _ => trivial, fun h => by simp at h⟩, nanCode_eq hf ▸ hnan⟩
  | fin n m e =>
    by_cases hm : m = 0
    · simp only [hm, if_true, settleFlags_zero]
      exact ⟨⟨fun _ => trivial, fun h => absurd rfl h, fun h => absurd rfl h⟩, ha⟩
    · cases n <;> simp only [hm, if_false, if_true, Bool.false_eq_true]
      · refine ⟨⟨fun h => h.elim, fun _ h => h.elim, fun _ _ => ⟨roundFp_lt hf .., ?_⟩⟩, roundFp_lt hf ..⟩
        rw [settleFlags_valid (roundFp_flags ..)]
        exact roundFp_sqrt hreg hfrac .rn false e hm
      · simp only [settleFlags_flagInvalid, nanCode_eq hf]
        exact ⟨⟨fun h => h.elim, fun _ _ => trivial, fun _ h => by simp at h⟩, nanCode_eq hf ▸ hnan⟩

omit ha in
theorem elRsqrt_root (hk : f.kind = .ieee) : Root f (fun z => 1 / Real.sqrt z)
    (fun neg r => r.1 < 2 ^ f.width ∧ decodeFp f r.1 = .inf neg ∧ r.2 = flagDivZero) (fun r => r = (0, 0)) a
    ((elRsqrt f a b c).1, settleFlags (elRsqrt f a b c).2) ∧ (elRsqrt f a b c).1 < 2 ^ f.width := by
  have hnan := hreg.nan.2
  unfold Root elRsqrt
  cases hd : decodeFp f a with
  | nan s => simp only [settleFlags_flagIf, nanCode_eq hf]; exact ⟨trivial, nanCode_eq hf ▸ hnan⟩
  | inf n =>
    cases n
    · simp only [Bool.false_eq_true, if_false, settleFlags_zero]
      exact ⟨⟨fun h => h.elim, fun _ => trivial⟩, Nat.two_pow_pos _⟩
    · simp only [if_true, settleFlags_flagInvalid, nanCode_eq hf]
      exact ⟨⟨fun _ => trivial, fun h => by simp at h⟩, nanCode_eq hf ▸ hnan⟩
  | fin n m e =>
    by_cases hm : m = 0
    · simp only [hm, if_true, settleFlags_flagDivZero]
      have hlt := signed_lt hreg n (hreg.inf hk).2.2
      exact ⟨⟨fun _ => ⟨hlt, decodeFp_infCode hreg n hk, trivial⟩, fun h => absurd rfl h, fun h => absurd rfl h⟩, hlt⟩
    · cases n <;> simp only [hm, if_false, if_true, Bool.false_eq_true]
      · refine ⟨⟨fun h => h.elim, fun _ h => h.elim, fun _ _ => ⟨roundFp_lt hf .., ?_⟩⟩, roundFp_lt hf ..⟩
        rw [settleFlags_valid (roundFp_flags ..)]
        exact roundFp_rsqrt hreg hfrac .rn false e hm
      · simp only [settleFlags_flagInvalid, nanCode_eq hf]
        exact ⟨⟨fun h => h.elim, fun _ _ => trivial, fun _ h => by simp at h⟩, nanCode_eq hf ▸ hnan⟩

end

end

end Sys2Proof.Machine

namespace Sys2Proof.Machine

/-! ## Bits of an element -/

theorem testBit_elemAt {w k j v : Nat} (hj : j < w) : (elemAt w k v).testBit j = v.testBit (w * k + j) := by
  rw [elemAt, Nat.testBit_mod_two_pow, ← Nat.shiftRight_eq_div_pow, Nat.testBit_shiftRight]
  simp [hj]

theorem getLsbD_elemAt {w k j : Nat} (v : QWord) (hj : j < w) : v.getLsbD (w * k + j) = (elemAt w k v.toNat).testBit j := by
  rw [testBit_elemAt hj]; rfl

theorem toSigned_ofNat (w v : Nat) : toSigned w v = (BitVec.ofNat w v).toInt := by
  simp only [toSigned, BitVec.toInt, BitVec.toNat_ofNat]

/-- The copied sign over the rest of the bits. -/
theorem testBit_elCpsgn {f : FpFmt} {a b j : Nat} (c : Nat) (hj : j < f.width) (hb : b < 2 ^ f.width) :
    (elCpsgn f a b c).1.testBit j = if j = f.width - 1 then b.testBit j else a.testBit j := by
  have hw : 2 ^ f.width = 2 ^ (f.width - 1) * 2 := by rw [← pow_succ]; congr 1; omega
  have hbd : b / 2 ^ (f.width - 1) < 2 := Nat.div_lt_of_lt_mul (by omega)
  have hlt : a % 2 ^ (f.width - 1) < 2 ^ (f.width - 1) := Nat.mod_lt _ (Nat.two_pow_pos _)
  have h : (elCpsgn f a b c).1 = 2 ^ (f.width - 1) * (b / 2 ^ (f.width - 1)) + a % 2 ^ (f.width - 1) := by
    simp only [elCpsgn]; ring
  rw [h, Nat.testBit_two_pow_mul_add _ hlt]
  by_cases hlast : j = f.width - 1
  · rw [if_neg (by omega), if_pos hlast, hlast, Nat.sub_self, ← Nat.shiftRight_eq_div_pow, Nat.testBit_shiftRight, Nat.add_zero]
  · rw [if_pos (by omega), if_neg hlast, Nat.testBit_mod_two_pow]
    simp; omega

theorem elCpsgn_lt {f : FpFmt} {a b : Nat} (c : Nat) (hw : 0 < f.width) (hb : b < 2 ^ f.width) : (elCpsgn f a b c).1 < 2 ^ f.width := by
  refine Nat.lt_pow_two_of_testBit _ fun i hi => ?_
  have hlt : a % 2 ^ (f.width - 1) < 2 ^ (f.width - 1) := Nat.mod_lt _ (Nat.two_pow_pos _)
  have h : (elCpsgn f a b c).1 = 2 ^ (f.width - 1) * (b / 2 ^ (f.width - 1)) + a % 2 ^ (f.width - 1) := by
    simp only [elCpsgn]; ring
  rw [h, Nat.testBit_two_pow_mul_add _ hlt, if_neg (by omega), ← Nat.shiftRight_eq_div_pow, Nat.testBit_shiftRight]
  exact Nat.testBit_lt_two_pow (hb.trans_le (Nat.pow_le_pow_right two_pos (by omega)))

/-! # The claim -/

/-- Element by element: an instruction whose element function meets `R` once its flags are settled. -/
theorem gives_form {i : Instr} {g : Sig} {f : Fields} {ty : FpTy} {fn : Nat → Nat → Nat → Nat × Flags}
    {R : Nat → Nat → Nat → Nat × Flags → Prop} (hi : ∀ s, exec i s = (aluJob g (fpEach ty fn)).issue f s)
    (h : ∀ a b c, a < 2 ^ ty.fmt.width → b < 2 ^ ty.fmt.width → R a b c ((fn a b c).1, settleFlags (fn a b c).2) ∧ (fn a b c).1 < 2 ^ ty.fmt.width) :
    Gives i g f (FpForm ty R) :=
  gives_alu hi fun _ _ _ l _ => ⟨rfl, fpEach_form l h⟩

theorem gives_scale (ty : FpTy) (o : Operands) :
    Gives (.fpScale ty o) { dst := ty.res, a := ty.pos, b := ty.scalePos } o.fields (fun l r =>
      let w := if ty.count = 2 then 16 else 32
      Elements ty.fmt.width ty.count (fun k e =>
        let a := elemAt ty.fmt.width k l.a.toNat
        Arith ty.fmt .rn [decodeFp ty.fmt a] ((exactOf (decodeFp ty.fmt a)).scale (l.b.extractLsb' (w * k) w).toInt) e) r) := by
  obtain ⟨-, -, hf, -⟩ := arithmetic_format ty
  refine gives_alu (fun _ => rfl) fun _ _ _ l _ => ⟨rfl, fpEach_elements fun k hk => ⟨?_, fpRound_lt hf ..⟩⟩
  have hexp : toSigned (if ty.count = 2 then 16 else 32) (elemAt ty.fmt.width k l.b.toNat) =
      (l.b.extractLsb' ((if ty.count = 2 then 16 else 32) * k) (if ty.count = 2 then 16 else 32)).toInt := by
    rw [toSigned_ofNat]
    congr 1
    refine BitVec.eq_of_toNat_eq ?_
    have hc : ∀ n < FpTy.f64.count, n = 0 := by decide
    have hc' : ∀ n < FpTy.f32.count, n = 0 := by decide
    cases ty
    · obtain rfl := hc' k hk
      simp [elemAt, FpTy.count, FpTy.fmt, fp32]
    · simp [elemAt, FpTy.count, FpTy.fmt, fp16, Nat.shiftRight_eq_div_pow]
    · simp [elemAt, FpTy.count, FpTy.fmt, bf16, Nat.shiftRight_eq_div_pow]
    · obtain rfl := hc k hk
      simp [elemAt, FpTy.count, FpTy.fmt, fp64]
  have := elScale_arith hf (elemAt ty.fmt.width k l.a.toNat) (elemAt ty.fmt.width k l.b.toNat) (elemAt ty.fmt.width k l.c.toNat)
    (if ty.count = 2 then 16 else 32)
  rw [hexp] at this
  exact this

theorem gives_cpsgn (ty : FpTy) (o : Operands) :
    Gives (.fpCpsgn ty o) (fpSig2 ty) o.fields (Plain fun a b _ v => ∀ k < ty.count, ∀ j < ty.fmt.width,
      v.getLsbD (ty.fmt.width * k + j) = (if j = ty.fmt.width - 1 then b else a).getLsbD (ty.fmt.width * k + j)) := by
  have hw : 0 < ty.fmt.width := by cases ty <;> decide
  refine gives_alu (fun _ => rfl) fun _ _ _ l _ => ⟨rfl, ?_⟩
  obtain ⟨hwide, e, he, hflags⟩ := fpEach_elements (ty := ty) (fn := elCpsgn ty.fmt) (a := l.a) (b := l.b) (c := l.c)
    (R := fun k r => r = ((elCpsgn ty.fmt (elemAt ty.fmt.width k l.a.toNat) (elemAt ty.fmt.width k l.b.toNat) 0).1, 0))
    fun k _ => ⟨by simp only [elCpsgn, settleFlags_zero], elCpsgn_lt _ hw (elemAt_lt ..)⟩
  refine ⟨?_, hwide, fun k hk j hj => ?_⟩
  · refine BitVec.eq_of_getLsbD_eq fun i hi => ?_
    rw [show BitVec.getLsbD (0 : Flags) i = false from BitVec.getLsbD_zero, ← Bool.not_eq_true, hflags i hi]
    rintro ⟨k, hk, h⟩
    rw [(he k hk).1] at h
    simp at h
  · obtain ⟨h1, h2⟩ := he k hk
    rw [getLsbD_elemAt _ hj, h2, h1]
    simp only
    rw [testBit_elCpsgn _ hj (elemAt_lt ..)]
    split <;> rw [getLsbD_elemAt _ hj]

theorem frac_le_top {f : FpFmt} (hk : f.kind = .ieee) (hb : f.frac ≤ f.bias) : (2 : ℚ) ^ f.frac ≤ f.top := by
  have h1 : (2 : ℚ) ^ (-(f.frac : ℤ)) ≤ 1 := zpow_le_one_of_nonpos₀ one_le_two (by omega)
  have h2 : (2 : ℚ) ^ f.frac ≤ 2 ^ (f.bias : ℤ) := by
    rw [← zpow_natCast]; exact zpow_le_zpow_right₀ one_le_two (by omega)
  have ht : f.top = (2 - 2 ^ (-(f.frac : ℤ))) * 2 ^ (f.bias : ℤ) := by simp only [FpFmt.top, hk]
  rw [ht]
  nlinarith [show (0 : ℚ) < 2 ^ (f.bias : ℤ) by positivity]

/-- Settles O5: the operand values are exact rationals (`exactOf_mul`, `exactOf_sum_pair`, `roundFp_div`, `roundFp_sqrt`), `roundFp_rounds`
says that the model's rounding is ROUND of R46, and `delivers_roundFp` which flags stand beside it; `fpEach_elements` puts elements together. -/
theorem fpValueForms : Obligations.FpValueForms := by
  refine ⟨fun f hf neg ex fr hex hfr => decodeFp_reads hf neg hex hfr, fun rm ty o => ?_⟩
  obtain ⟨hreg, hfrac, hf, hk⟩ := arithmetic_format ty
  have hone : ty.fmt.qmin ≤ 0 ∧ (2 : ℚ) ^ ty.fmt.frac ≤ ty.fmt.top := by
    have hb : ty.fmt.qmin ≤ 0 ∧ ty.fmt.frac ≤ ty.fmt.bias := by cases ty <;> decide
    exact ⟨hb.1, frac_le_top hk hb.2⟩
  have lt (rm : Rounding) (x : FVal) := roundFp_lt hf rm false x
  dsimp only
  refine ⟨gives_form (fun _ => rfl) fun a b c _ _ => ⟨elAdd_arith hf rm a b c, lt ..⟩,
    gives_form (fun _ => rfl) fun a b c _ _ => ⟨elSub_arith hf a b c, lt ..⟩,
    gives_form (fun _ => rfl) fun a b c _ _ => ⟨elMul_arith hf rm a b c, lt ..⟩,
    gives_form (fun _ => rfl) fun a b c _ _ => ⟨elFma_delivers hf rm a b c, lt ..⟩,
    gives_form (fun _ => rfl) fun a b c ha _ => elRint_roundsToIntegral hf rm a b c hreg hone ha,
    gives_scale ty o,
    gives_form (fun _ => rfl) fun a b c _ _ => ⟨divide_delivers hf hreg hfrac hk _ _, lt ..⟩,
    gives_form (fun _ => rfl) fun a b c _ _ => ⟨?_, lt ..⟩,
    gives_form (fun _ => rfl) fun a b c ha _ => elSqrt_root hf a b c hreg hfrac ha,
    gives_form (fun _ => rfl) fun a b c _ _ => elRsqrt_root hf a b c hreg hfrac hk,
    gives_cpsgn ty o⟩
  have hone : exactOf (.fin false 1 0) = .num 1 := by simp [exactOf, finiteValue]
  have := divide_delivers hf hreg hfrac hk (.fin false 1 0) (decodeFp ty.fmt a)
  rw [hone] at this
  have hinv : ∀ y, invalidOf [.fin false 1 0, decodeFp ty.fmt a] y ↔ invalidOf [decodeFp ty.fmt a] y := fun y => by
    simp [invalidOf, FVal.isNan]
  rw [hinv] at this
  exact this

end Sys2Proof.Machine

namespace Sys2Proof.Machine

/-! # Conversions to a format and to an integer (R43, R49, R124) -/

theorem exactOf_fvalOfInt (i : Int) : exactOf (fvalOfInt i) = .ofRat i false := by
  have hv : finiteValue (fvalOfInt i) = i := by
    have habs : ((i.natAbs : ℕ) : ℚ) = |(i : ℚ)| := by rw [Nat.cast_natAbs, Int.cast_abs]
    simp only [fvalOfInt, finiteValue, habs, decide_eq_true_eq, zpow_zero, mul_one]
    split
    · next h => rw [abs_of_neg (by exact_mod_cast h)]; ring
    · next h => rw [abs_of_nonneg (by exact_mod_cast not_lt.1 h)]; ring
  unfold fvalOfInt at hv ⊢
  rw [exactOf_fin, hv]
  unfold Exact.ofRat
  split
  · next h0 => have : i = 0 := by exact_mod_cast h0
               simp [this]
  · rfl

theorem cvtTo_delivers {g : FpFmt} (hg : g ∈ formats) (rm : Rounding) (sat : Bool) (x : FVal) {P : Prop} (hP : P ↔ x = .nan true) :
    Delivers g rm sat (P ∨ (exactOf x = .nan ∧ g.kind ≠ .ieee ∧ g.kind ≠ .e4m3) ∨ ((∃ n, exactOf x = .inf n) ∧ g.kind ≠ .ieee)) False (exactOf x)
      (cvtTo g rm sat x) := by
  have hinf : (∃ n, exactOf x = .inf n) ↔ x.isInf = true := by
    cases x with
    | fin n m e => simp only [exactOf]; split <;> simp [FVal.isInf]
    | nan s => simp [FVal.isInf, exactOf]
    | inf n => simp [FVal.isInf, exactOf]
  have hsnan : x = .nan true ↔ x.isSnan = true := by cases x <;> simp [FVal.isSnan]
  have hinv : (x.isSnan || (x.isNan && !g.hasNan) || (x.isInf && !g.hasInf)) = true ↔
      (P ∨ (exactOf x = .nan ∧ g.kind ≠ .ieee ∧ g.kind ≠ .e4m3) ∨ ((∃ n, exactOf x = .inf n) ∧ g.kind ≠ .ieee)) := by
    rw [exactOf_nan, hinf, hP, hsnan]
    simp [FpFmt.hasNan, FpFmt.hasInf, or_assoc]
  have hspec : (P ∨ (exactOf x = .nan ∧ g.kind ≠ .ieee ∧ g.kind ≠ .e4m3) ∨ ((∃ n, exactOf x = .inf n) ∧ g.kind ≠ .ieee)) →
      x.isNan = true ∨ x.isInf = true := by
    rintro (h | h | h)
    · rw [hP.1 h]; exact .inl rfl
    · exact .inl (exactOf_nan.1 h.1)
    · exact .inr (hinf.1 h.1)
  have := delivers_roundFp hg (dz := false) (D := False) (roundFp_rounds hg rm sat x) hinv (by simp) hspec False.elim
  rw [show flagIf false flagDivZero = 0#5 from rfl, BitVec.or_zero] at this
  exact this

theorem cvtTo_lt {g : FpFmt} (hg : g ∈ formats) (rm : Rounding) (sat : Bool) (x : FVal) : (cvtTo g rm sat x).1 < 2 ^ g.width := roundFp_lt hg rm sat x

theorem wrapTo_cast (w : Nat) (x : Int) : ((wrapTo w x : Nat) : ℤ) = x % 2 ^ w := by
  unfold wrapTo
  rw [Int.toNat_of_nonneg (Int.emod_nonneg _ (by positivity))]
  push_cast; rfl

theorem quantise_zero (rm : Rounding) (neg : Bool) (e qe : Int) : quantise rm neg 0 e qe = (0, false) := by
  have hp (sh : Nat) : 0 ≠ 2 ^ sh := (Nat.two_pow_pos sh).ne
  unfold quantise
  split
  · simp
  · cases rm <;> simp [roundShift, hp]

/-- TOINT of R49 is what the model computes. -/
theorem cvtInt_converts {w : Nat} (hw : 0 < w) (signed : Bool) (rm : Rounding) (x : FVal) :
    ConvertsToInt w signed rm (exactOf x) (cvtInt w signed rm x) := by
  have hP : (0 : ℤ) < 2 ^ (w - 1) := by positivity
  have h2 : (2 : ℤ) ^ w = 2 * 2 ^ (w - 1) := by rw [← pow_succ']; congr 1; omega
  have hlo : (if signed then -((2 ^ (w - 1) : Nat) : ℤ) else 0) = if signed then -2 ^ (w - 1) else 0 := by push_cast; rfl
  have hhi : (if signed then ((2 ^ (w - 1) : Nat) : ℤ) - 1 else ((2 ^ w : Nat) : ℤ) - 1) = if signed then 2 ^ (w - 1) - 1 else 2 ^ w - 1 := by
    push_cast; rfl
  have hle : (if signed then -2 ^ (w - 1) else (0 : ℤ)) ≤ 0 ∧ (0 : ℤ) ≤ if signed then 2 ^ (w - 1) - 1 else 2 ^ w - 1 := by
    cases signed <;> simp <;> omega
  unfold ConvertsToInt
  simp only
  cases x with
  | nan s => exact ⟨wrapTo_cast w 0, by simp only [cvtInt, toInt, settleFlags_flagInvalid]⟩
  | inf n =>
    refine ⟨?_, by simp only [cvtInt, toInt, settleFlags_flagInvalid]⟩
    rw [← hlo, ← hhi]
    exact wrapTo_cast w _
  | fin n m e =>
    rw [← hlo, ← hhi] at hle ⊢
    simp only [cvtInt, toInt]
    generalize (if signed = true then -((2 ^ (w - 1) : Nat) : ℤ) else 0) = lo at *
    generalize (if signed = true then ((2 ^ (w - 1) : Nat) : ℤ) - 1 else ((2 ^ w : Nat) : ℤ) - 1) = hi at *
    by_cases hm : m = 0
    · subst hm
      have hr : roundInt rm n 0 e = (0, false) := by simp [roundInt, quantise_zero]
      rw [hr, if_neg (by simpa using hle.1), if_neg (by simpa using hle.2)]
      exact ⟨wrapTo_cast w 0, settleFlags_zero⟩
    · have hval : (roundInt rm n m e).1 = signOf n * ((quantise rm n m e 0).1 : ℤ) := by cases n <;> simp [roundInt, signOf]
      have hr := roundsToInt_finite rm n m e 0
      rw [zpow_zero, div_one, ← hval] at hr
      have hex : (roundInt rm n m e).2 = false ↔ (((roundInt rm n m e).1 : ℤ) : ℚ) = finiteValue (.fin n m e) := by
        have h1 := quantise_exact rm n m e 0
        rw [zpow_zero, mul_one] at h1
        have h3 : (roundInt rm n m e).2 = (quantise rm n m e 0).2 := rfl
        rw [h3, h1, hval, ← (Rat.cast_injective (α := ℝ)).eq_iff, cast_finiteValue]
        push_cast
        exact (mul_right_inj' (by cases n <;> simp [signOf])).symm
      generalize roundInt rm n m e = R at *
      simp only [exactOf, hm, if_false]
      refine ⟨R.1, hr, fun h => ?_, fun h => ?_, fun h1 h2 => ?_⟩
      · rw [if_pos h]; exact ⟨wrapTo_cast w _, settleFlags_flagInvalid⟩
      · rw [if_neg (by omega), if_pos h]; exact ⟨wrapTo_cast w _, settleFlags_flagInvalid⟩
      · rw [if_neg (by omega), if_neg (by omega)]
        refine ⟨wrapTo_cast w _, ?_⟩
        have hs : ∀ b : Bool, settleFlags (flagIf b flagInexact) = if b = false then 0 else flagInexact := by decide
        simp only [hs, hex]

/-! # One element converted -/

/-- The model's conversion of a code. -/
def cvtCode (src dst : CvtEnd) (rm : Rounding) (sat : Bool) (c : Nat) : Nat × Flags :=
  let x := match src with
    | .float f => decodeFp f c
    | .int w s => fvalOfInt (if s then toSigned w c else c)
  match dst with
  | .float g => cvtTo g rm sat x
  | .int w s => cvtInt w s rm x

/-- An end of a conversion: a format, or integers of some width. -/
def CvtEnd.Legal : CvtEnd → Prop
  | .float f => f ∈ formats
  | .int w _ => 0 < w

theorem cvtCode_converts {src dst : CvtEnd} (hd : dst.Legal) (rm : Rounding) (sat : Bool) (c : Nat) :
    Converts src dst rm sat c (cvtCode src dst rm sat c) := by
  obtain ⟨x, hx, hv, hs⟩ : ∃ x, (∀ g, cvtCode src (.float g) rm sat c = cvtTo g rm sat x) ∧ src.value c = exactOf x ∧
      ((∃ f, src = .float f ∧ decodeFp f c = .nan true) ↔ x = .nan true) := by
    cases src with
    | float f => exact ⟨decodeFp f c, fun _ => rfl, rfl, by simp⟩
    | int w s =>
      refine ⟨_, fun _ => rfl, ?_, by simp [fvalOfInt]⟩
      cases s
      · simp [CvtEnd.value, exactOf_fvalOfInt]
      · simp [CvtEnd.value, exactOf_fvalOfInt, toSigned_ofNat]
  unfold Converts
  cases dst with
  | float g => rw [hx, hv]; exact cvtTo_delivers hd rm sat x hs
  | int w s =>
    cases src with
    | float f => exact cvtInt_converts hd s rm _
    | int w' s' =>
      have := cvtInt_converts hd s rm (fvalOfInt (if s' then toSigned w' c else c))
      cases s'
      · simpa [cvtCode, CvtEnd.value, exactOf_fvalOfInt] using this
      · simpa [cvtCode, CvtEnd.value, exactOf_fvalOfInt, toSigned_ofNat] using this

theorem cvtCode_lt {src dst : CvtEnd} (hd : dst.Legal) (rm : Rounding) (sat : Bool) (c : Nat) : (cvtCode src dst rm sat c).1 < 2 ^ dst.width := by
  cases dst with
  | float g => exact cvtTo_lt hd rm sat _
  | int w s => exact wrapTo_lt w _

theorem oneRes_eq_packRes {w : Nat} {r : Nat × Flags} (h : r.1 < 2 ^ w) : oneRes r = packRes w [r] := by
  simp [oneRes, packRes, packElems, Nat.mod_eq_of_lt h]

theorem ctlMode_eq (f : Fields) : ctlMode f = modeOf f.mc := by
  have : ∀ m : BitVec 3, (Rounding.ofCode (m.toNat % 4)).getD .rn = modeOf m := by decide
  exact this f.mc

theorem ctlSat_eq (f : Fields) : ctlSat f = f.mc.getLsbD 2 := by
  have : ∀ m : BitVec 3, decide (m.toNat ≥ 4) = m.getLsbD 2 := by decide
  exact this f.mc

/-! # The forms -/

theorem cvtRow_legal (k : ScalarCvt) : (cvtRow k).dst.Legal ∧ (cvtRow k).dst.width * (cvtRow k).count ≤ 128 := by
  cases k <;> refine ⟨?_, by decide⟩ <;> simp [cvtRow, CvtEnd.Legal, formats]

/-- A scalar conversion is that of its row of R125 Table 4; an unsigned integer is read whole, so it has to fit its width. -/
theorem scalarCvt_eq (k : ScalarCvt) (rm : Rounding) (sat : Bool) (a b : QWord)
    (hfit : (k = .f32N32 → a.toNat < 2 ^ 32) ∧ (k = .f64N64 → a.toNat < 2 ^ 64)) :
    (scalarCvt k).2 rm sat a b = packRes (cvtRow k).dst.width ((List.range (cvtRow k).count).map fun i =>
      cvtCode (cvtRow k).src (cvtRow k).dst rm sat
        (elemAt (cvtRow k).src.width (if (cvtRow k).pair then 0 else i) (if (cvtRow k).pair ∧ i = 1 then b else a).toNat)) := by
  have hs : ∀ w, toSigned w a.toNat = toSigned w (elemAt w 0 a.toNat) := fun w => by simp [toSigned, elemAt]
  have lt := cvtCode_lt (src := (cvtRow k).src) (cvtRow_legal k).1 rm sat
  cases k
  case f32N32 =>
    have : elemAt 32 0 a.toNat = a.toNat := by simpa [elemAt] using hfit.1 rfl
    refine (oneRes_eq_packRes (lt a.toNat)).trans ?_
    exact congrArg (fun c => packRes 32 [cvtCode (.int 32 false) (.float fp32) rm sat c]) this.symm
  case f64N64 =>
    have : elemAt 64 0 a.toNat = a.toNat := by simpa [elemAt] using hfit.2 rfl
    refine (oneRes_eq_packRes (lt a.toNat)).trans ?_
    exact congrArg (fun c => packRes 64 [cvtCode (.int 64 false) (.float fp64) rm sat c]) this.symm
  case f32S32 =>
    refine (oneRes_eq_packRes (lt a.toNat)).trans ?_
    exact congrArg (fun c => packRes 32 [cvtTo fp32 rm sat (fvalOfInt c)]) (hs 32)
  case f64S64 =>
    refine (oneRes_eq_packRes (lt a.toNat)).trans ?_
    exact congrArg (fun c => packRes 64 [cvtTo fp64 rm sat (fvalOfInt c)]) (hs 64)
  case f64S32 =>
    refine (oneRes_eq_packRes (lt a.toNat)).trans ?_
    exact congrArg (fun c => packRes 64 [cvtTo fp64 rm sat (fvalOfInt c)]) (hs 32)
  case f32F64 => exact oneRes_eq_packRes (lt _)
  case f64F32 => exact oneRes_eq_packRes (lt _)
  case f32F16 => exact oneRes_eq_packRes (lt _)
  case f32Bf16 => exact oneRes_eq_packRes (lt _)
  case s32F32 => exact oneRes_eq_packRes (lt _)
  case n32F32 => exact oneRes_eq_packRes (lt _)
  case s64F64 => exact oneRes_eq_packRes (lt _)
  case n64F64 => exact oneRes_eq_packRes (lt _)
  case s32F64 => exact oneRes_eq_packRes (lt _)
  all_goals rfl

/-- A value in an unsigned 64-bit position fits it. -/
theorem source_n64_lt {s : State} {a : Agent} {f : BitVec 10} {v : Nat} (h : s.source a .n64 f = some (.val v)) : v < 2 ^ 64 := by
  have hl := lane_lt a
  have key : (literal .n64 f.toNat a.lane).map Source.val = some (.val v) → v < 2 ^ 64 := by
    intro e
    obtain ⟨x, hx, e⟩ := Option.map_eq_some_iff.1 e
    cases e
    unfold literal at hx
    simp only [Pos.isChoice, Pos.ofInt, Pos.ofConstant, Pos.width, onesOf] at hx
    split_ifs at hx <;> simp at hx <;> omega
  unfold State.source at h
  simp only [reduceCtorEq, if_false, false_and, Pos.isChoice, Bool.false_eq_true, Pos.width] at h
  split at h
  · simp at h
  · split at h
    · obtain ⟨x, hx, e⟩ := Option.map_eq_some_iff.1 h
      cases e
      exact regSource_lt (.inr rfl) hx
    · split at h
      · obtain ⟨x, hx, e⟩ := Option.map_eq_some_iff.1 h
        cases e
        exact latchSource_lt hx
      · split at h
        · simp at h
        · split at h
          · cases h
          · exact key h

theorem lane_a_n64_lt {s : State} {ci : Nat} {g : Sig} {f : Fields} {l : Lane} (h : l ∈ s.lanes ci g f) (hp : g.a = .n64) : l.a.toNat < 2 ^ 64 := by
  obtain ⟨t, u, v, ha, -⟩ := lane_operands h
  rw [ha, hp]
  have hmod : ∀ m v, (applyMod .n64 m v).getD v = v := fun m v => by unfold applyMod; split <;> rfl
  unfold State.operand
  rw [if_neg (by decide), BitVec.toNat_ofNat, hmod, ite_self]
  refine lt_of_le_of_lt (Nat.mod_le _ _) ?_
  cases hs : s.source (s.agent l.agent) .n64 f.sa with
  | none => exact Nat.two_pow_pos _
  | some x =>
    cases x with
    | val v => exact source_n64_lt hs
    | queue q => exact Nat.mod_lt _ (Nat.two_pow_pos _)

theorem gives_cvtScalar (k : ScalarCvt) (o : Operands) :
    Gives (.cvtScalar k o) { (scalarCvt k).1 with ctlC := true } o.fields (fun l r =>
      Elements (cvtRow k).dst.width (cvtRow k).count (fun i => Converts (cvtRow k).src (cvtRow k).dst (modeOf o.fields.mc) (o.fields.mc.getLsbD 2)
        (elemAt (cvtRow k).src.width (if (cvtRow k).pair then 0 else i) (if (cvtRow k).pair ∧ i = 1 then l.b else l.a).toNat)) r) := by
  obtain ⟨hd, hw⟩ := cvtRow_legal k
  refine gives_alu (fn := fun a b _ => (scalarCvt k).2 (ctlMode o.fields) (ctlSat o.fields) a b) (fun _ => rfl) fun s ci _ l hl => ?_
  have hfit : (k = .f32N32 → l.a.toNat < 2 ^ 32) ∧ (k = .f64N64 → l.a.toNat < 2 ^ 64) :=
    ⟨fun e => by subst e; exact lane_a_lt hl (.inl rfl), fun e => by subst e; exact lane_a_n64_lt hl rfl⟩
  rw [scalarCvt_eq k _ _ _ _ hfit, ctlMode_eq, ctlSat_eq]
  exact ⟨rfl, elements_pack hw fun i _ => ⟨cvtCode_converts hd _ _ _, cvtCode_lt hd _ _ _⟩⟩

/-- What the low `w·n` bits and the flags decide. -/
theorem Elements.of_low {w n : Nat} {R : Nat → Nat × Flags → Prop} {r r' : LaneRes} (h : Elements w n R r) (hwide : r'.wide = false)
    (hflags : r'.flags = r.flags) (hval : ∀ k < n, elemAt w k r'.val.toNat = elemAt w k r.val.toNat) : Elements w n R r' := by
  obtain ⟨-, e, he, hf⟩ := h
  exact ⟨hwide, e, fun k hk => ⟨(he k hk).1, (hval k hk).trans (he k hk).2⟩, hflags ▸ hf⟩

/-- An element below what is put above bit `N`. -/
theorem elemAt_add_above {w k x y N : Nat} (h : w * (k + 1) ≤ N) : elemAt w k (x * 2 ^ N + y) = elemAt w k y := by
  have e : x * 2 ^ N = 2 ^ (w * k) * (2 ^ w * (x * 2 ^ (N - w * (k + 1)))) := by
    have : 2 ^ N = 2 ^ (w * k) * 2 ^ w * 2 ^ (N - w * (k + 1)) := by rw [← pow_add, ← pow_add]; congr 1; rw [mul_add] at h ⊢; omega
    rw [this]; ring
  rw [elemAt, elemAt, e, Nat.mul_add_div (Nat.two_pow_pos _), Nat.mul_add_mod]

theorem mxWidth (m : MxFmt) : (mxFormat m).width ≤ if m = .e2m1 then 4 else 8 := by cases m <;> decide

theorem cvtCode_mx_lt (m : MxFmt) (src : CvtEnd) (rm : Rounding) (sat : Bool) (c : Nat) :
    (cvtCode src (.float (mxFormat m)) rm sat c).1 < 2 ^ (if m = .e2m1 then 4 else 8) :=
  (cvtCode_lt (dst := .float (mxFormat m)) (mxFormat_mem m) rm sat c).trans_le (Nat.pow_le_pow_right two_pos (mxWidth m))

theorem gives_cvtNarrowMx (m : MxFmt) (o : Operands) :
    Gives (.cvtNarrowMx m o)
      { dst := .w32, a := .f16x2, b := .f16x2, c := if m = .e2m1 then .b32 else .none, ctlC := true } o.fields (fun l r =>
      Elements (if m = .e2m1 then 4 else 8) 4 (fun i => Converts (.float fp16) (.float (mxFormat m)) (modeOf o.fields.mc) (o.fields.mc.getLsbD 2)
        (elemAt 16 (i % 2) (if i < 2 then l.a else l.b).toNat)) r ∧
      (m = .e2m1 → ∀ j < 16, r.val.getLsbD (16 + j) = l.c.getLsbD j)) := by
  refine gives_alu (fun _ => rfl) fun s ci _ l hl => ?_
  rw [ctlMode_eq, ctlSat_eq]
  generalize modeOf o.fields.mc = rm
  generalize o.fields.mc.getLsbD 2 = sat
  have hw : (if m = .e2m1 then 4 else 8) * 4 ≤ 128 := by split <;> decide
  have he := elements_pack (R := fun i => Converts (.float fp16) (.float (mxFormat m)) rm sat (elemAt 16 (i % 2) (if i < 2 then l.a else l.b).toNat))
    hw fun i _ => ⟨cvtCode_converts (dst := .float (mxFormat m)) (mxFormat_mem m) rm sat _, cvtCode_mx_lt m (.float fp16) rm sat (elemAt 16 (i % 2) (if i < 2 then l.a else l.b).toNat)⟩
  have hlist : [fpElemAt fp16 l.a 0, fpElemAt fp16 l.a 1, fpElemAt fp16 l.b 0, fpElemAt fp16 l.b 1].map (cvtTo (mxFormat m) rm sat) =
      (List.range 4).map fun i => cvtCode (.float fp16) (.float (mxFormat m)) rm sat (elemAt 16 (i % 2) (if i < 2 then l.a else l.b).toNat) := rfl
  rw [← hlist] at he
  unfold narrowMx
  by_cases hm : m = .e2m1
  · simp only [hm, if_true] at he ⊢
    have hlt : (packRes 4 ([fpElemAt fp16 l.a 0, fpElemAt fp16 l.a 1, fpElemAt fp16 l.b 0, fpElemAt fp16 l.b 1].map
        (cvtTo (mxFormat .e2m1) rm sat))).val.toNat < 2 ^ 16 := by
      have := packElems_lt 4 (([fpElemAt fp16 l.a 0, fpElemAt fp16 l.a 1, fpElemAt fp16 l.b 0, fpElemAt fp16 l.b 1].map
        (cvtTo (mxFormat .e2m1) rm sat)).map (·.1))
      exact lt_of_le_of_lt (Nat.mod_le _ _) this
    have hlate : (packRes 4 ([fpElemAt fp16 l.a 0, fpElemAt fp16 l.a 1, fpElemAt fp16 l.b 0, fpElemAt fp16 l.b 1].map
        (cvtTo (mxFormat .e2m1) rm sat))).late = false := rfl
    generalize packRes 4 _ = p at *
    have hc : bitsAt l.c.toNat 0 16 < 2 ^ 16 := Nat.mod_lt _ (Nat.two_pow_pos _)
    have hval : (BitVec.ofNat 128 (bitsAt l.c.toNat 0 16 * 2 ^ 16 + p.val.toNat)).toNat = bitsAt l.c.toNat 0 16 * 2 ^ 16 + p.val.toNat := by
      rw [BitVec.toNat_ofNat, Nat.mod_eq_of_lt (by omega)]
    refine ⟨hlate, he.of_low he.1 rfl fun k hk => ?_, fun _ j hj => ?_⟩
    · simp only [hval]
      exact elemAt_add_above (by omega)
    · rw [BitVec.getLsbD, hval, Nat.mul_comm, Nat.testBit_two_pow_mul_add _ hlt, if_neg (by omega), Nat.add_sub_cancel_left, bitsAt,
        Nat.testBit_mod_two_pow]
      simp [hj, BitVec.getLsbD]
  · simp only [hm, if_false] at he ⊢
    exact ⟨rfl, he, fun h => h.elim⟩

theorem gives_cvtWidenMx (m : MxFmt) (o : Operands) :
    Gives (.cvtWidenMx m o) { dst := .w32, a := mxPos m, b := .b32, ctlC := true } o.fields (fun l r =>
      Elements 16 2 (fun i => Converts (.float (mxFormat m)) (.float fp16) (modeOf o.fields.mc) (o.fields.mc.getLsbD 2)
        (elemAt (if m = .e2m1 then 4 else 8) (2 * (l.b.toNat % (if m = .e2m1 then 4 else 2)) + i) l.a.toNat)) r) := by
  refine gives_alu (fn := fun a b _ => packRes 16 ((List.range 2).map fun i => cvtCode (.float (mxFormat m)) (.float fp16) (ctlMode o.fields)
    (ctlSat o.fields) (elemAt (if m = .e2m1 then 4 else 8) (2 * (b.toNat % (if m = .e2m1 then 4 else 2)) + i) a.toNat))) (fun _ => rfl)
    fun s ci _ l hl => ⟨rfl, ?_⟩
  rw [ctlMode_eq, ctlSat_eq]
  have hd : CvtEnd.Legal (.float fp16) := show fp16 ∈ formats by decide
  exact elements_pack (by decide) fun i _ => ⟨cvtCode_converts hd _ _ _, cvtCode_lt hd _ _ _⟩

theorem rne32_eq (x : FVal) : rne32 x = (roundFp fp32 .rn x false).1 := rfl

/-- An E8M0 code that is no NaN, in FP32 (R53). -/
theorem rne32_decodeE8m0 {c : Nat} (hs : c < 255) :
    rne32 (decodeE8m0 c) < 2 ^ 31 ∧ finiteValue (decodeFp fp32 (rne32 (decodeE8m0 c))) = 2 ^ ((c : ℤ) - 127) := by
  have hreg : fp32.Regular := regular_of_mem (by decide)
  have hdec : decodeE8m0 c = .fin false 1 ((c : ℤ) - 127) := by
    unfold decodeE8m0; rw [Nat.mod_eq_of_lt (by omega), if_neg (by omega)]
  have hx : ((finiteValue (.fin false 1 ((c : ℤ) - 127)) : ℚ) : ℝ) = 2 ^ ((c : ℤ) - 127) := by rw [cast_finiteValue]; simp [signOf]
  have htop : (2 : ℝ) ^ ((c : ℤ) - 127) ≤ (fp32.top : ℝ) := by
    refine (zpow_le_zpow_right₀ one_le_two (by omega : (c : ℤ) - 127 ≤ 127)).trans ?_
    simp only [FpFmt.top, fp32]; norm_num
  obtain ⟨neg, m, e, hd, hv, hneg, -⟩ := rounds_representable hreg.kind (roundFp_number .rn false false ((c : ℤ) - 127) hreg one_ne_zero)
    (n := 1) (g := (c : ℤ) - 127) (by rw [hx]; simp) (by norm_num [fp32]) (by simp only [FpFmt.least, fp32]; simp; omega)
    (by rw [hx, abs_of_pos (by positivity)]; exact htop)
  have hn : neg = false := by
    rw [← Bool.not_eq_true, hneg, hx]; exact not_lt.2 (by positivity)
  subst hn
  obtain ⟨mag, hmag, -, -, -, -, -, hcode⟩ := finite_code hreg hd
  have hr := hcode (roundFp_lt (f := fp32) (by decide) .rn false _)
  rw [hdec, rne32_eq]
  refine ⟨?_, ?_⟩
  · rw [hr]
    have : fp32.maxCode < 2 ^ 31 := by decide
    simp only [FpFmt.signed, Bool.false_eq_true, if_false, ite_self]
    omega
  · have h2 : ((2 : ℝ) ^ ((c : ℤ) - 127)) = (((2 : ℚ) ^ ((c : ℤ) - 127) : ℚ) : ℝ) := by push_cast; rfl
    rw [hd]
    exact Rat.cast_injective ((hv.trans hx).trans h2)

theorem gives_cvtF32E8m0 (o : Operands) :
    Gives (.cvtF32E8m0 o) { dst := .w32, a := .nf8x4, b := .b32, ctlC := true } o.fields (Plain fun a b _ v =>
      let s := elemAt 8 (b.toNat % 4) a.toNat
      (s = 0xFF → v = 0x7FC00000#128) ∧ (s ≠ 0xFF → v.toNat < 2 ^ 31 ∧ finiteValue (decodeFp fp32 v.toNat) = 2 ^ ((s : ℤ) - 127))) := by
  refine gives_alu (fun _ => rfl) fun s ci _ l hl => ⟨rfl, rfl, rfl, ?_⟩
  have hs : elemAt 8 (l.b.toNat % 4) l.a.toNat < 256 := elemAt_lt 8 _ _
  dsimp only
  generalize elemAt 8 (l.b.toNat % 4) l.a.toNat = c at *
  refine ⟨fun h => ?_, fun h => ?_⟩
  · have : rne32 (decodeE8m0 0xFF) = 0x7FC00000 := by decide
    rw [h, this]
  · obtain ⟨hlt, hv⟩ := rne32_decodeE8m0 (c := c) (by omega)
    rw [BitVec.toNat_ofNat, Nat.mod_eq_of_lt (hlt.trans (Nat.pow_lt_pow_right one_lt_two (by decide)))]
    exact ⟨hlt, hv⟩

/-- Settles O7: each form packs what `cvtCode` makes of the elements its operands select, and `cvtCode_converts` says that is ROUND or TOINT
of the element's value (`cvtTo_delivers`, `cvtInt_converts`). -/
theorem conversionsRoundEachElement : Obligations.ConversionsRoundEachElement := fun k m o =>
  ⟨gives_cvtScalar k o, gives_cvtNarrowMx m o, gives_cvtWidenMx m o, gives_cvtF32E8m0 o⟩

end Sys2Proof.Machine

namespace Sys2Proof.Machine

/-! # Packing moves bits (R133) -/

theorem toNat_append_eq_add {m n : Nat} (x : BitVec m) (y : BitVec n) : (x ++ y).toNat = x.toNat * 2 ^ n + y.toNat := by
  rw [BitVec.toNat_append, ← Nat.shiftLeft_add_eq_or_of_lt y.isLt, Nat.shiftLeft_eq]

theorem gives_nat {i : Instr} {g : Sig} {f : Fields} {fn : Nat → Nat → Nat → Nat} {P : QWord → QWord → QWord → QWord → Prop}
    (hi : ∀ s, exec i s = (natJob g fn).issue f s) (h : ∀ a b c : QWord, P a b c (BitVec.ofNat 128 (fn a.toNat b.toNat c.toNat))) :
    Gives i g f (Plain P) :=
  gives_alu hi fun _ _ _ l _ => ⟨rfl, rfl, rfl, h l.a l.b l.c⟩

theorem gives_packing (o : Operands) :
    Gives (.pkB16x2 o) { dst := .w32, a := .i16x2, b := .i16x2 } o.fields
      (Plain fun a b _ v => v.setWidth 32 = b.setWidth 16 ++ a.setWidth 16) ∧
    Gives (.pkB8x4 o) { dst := .w32, a := .i8x4, b := .i8x4, c := .b32 } o.fields
      (Plain fun a b c v => v.setWidth 32 = c.setWidth 16 ++ (b.setWidth 8 ++ a.setWidth 8)) ∧
    Gives (.upkB8x4 o) { dst := .w32, a := .i8x4 } o.fields
      (Plain fun a _ _ v => v.setWidth 32 = ((a.extractLsb' 8 8).setWidth 16 : BitVec 16) ++ ((a.setWidth 8).setWidth 16 : BitVec 16)) ∧
    Gives (.upkB16x2 o) { dst := .w32, a := .i16x2 } o.fields (Plain fun a _ _ v => v.setWidth 32 = (a.setWidth 16).setWidth 32) := by
  refine ⟨gives_nat (fun _ => rfl) fun a b c => ?_, gives_nat (fun _ => rfl) fun a b c => ?_, gives_nat (fun _ => rfl) fun a b c => ?_,
    gives_nat (fun _ => rfl) fun a b c => ?_⟩ <;> apply BitVec.eq_of_toNat_eq <;>
    simp only [toNat_append_eq_add, BitVec.toNat_setWidth, BitVec.toNat_ofNat, BitVec.extractLsb'_toNat, elemAt, packElems, bitsAt,
      Nat.shiftRight_eq_div_pow, Nat.reduceMul, Nat.reducePow, Nat.div_one] <;> omega

/-! # The order of numbers -/

/-- A compare of two numbers takes the sign of their difference. -/
theorem compareFp_fin (n n' : Bool) (m m' : Nat) (e e' : Int) :
    (compareFp (.fin n m e) (.fin n' m' e') < 0 ↔ finiteValue (.fin n m e) < finiteValue (.fin n' m' e')) ∧
    (compareFp (.fin n m e) (.fin n' m' e') ≤ 0 ↔ finiteValue (.fin n m e) ≤ finiteValue (.fin n' m' e')) ∧
    (compareFp (.fin n m e) (.fin n' m' e') = 0 ↔ finiteValue (.fin n m e) = finiteValue (.fin n' m' e')) := by
  have hc : compareFp (.fin n m e) (.fin n' m' e') =
      if FVal.scaled (min e e') (.fin n m e) < FVal.scaled (min e e') (.fin n' m' e') then -1
      else if FVal.scaled (min e e') (.fin n m e) = FVal.scaled (min e e') (.fin n' m' e') then 0 else 1 := rfl
  have hP : (0 : ℚ) < 2 ^ min e e' := by positivity
  rw [hc, ← scaled_value (n := n) (m := m) (e := e) fun _ => min_le_left e e',
    ← scaled_value (n := n') (m := m') (e := e') fun _ => min_le_right e e', mul_lt_mul_iff_left₀ hP, mul_le_mul_iff_left₀ hP,
    mul_left_inj' hP.ne', Int.cast_lt, Int.cast_le, Int.cast_inj]
  generalize FVal.scaled (min e e') (.fin n m e) = x
  generalize FVal.scaled (min e e') (.fin n' m' e') = y
  rcases lt_trichotomy x y with h | h | h
  · simp [h, h.le, h.ne]
  · simp [h]
  · simp [h.not_gt, h.ne', h.not_ge]

theorem fpLe_fin (n n' : Bool) (m m' : Nat) (e e' : Int) :
    fpLe (.fin n m e) (.fin n' m' e') = true ↔ finiteValue (.fin n m e) ≤ finiteValue (.fin n' m' e') := by
  simp [fpLe, ordered, FVal.isNan, (compareFp_fin n n' m m' e e').2.1]

theorem fpLt_fin (n n' : Bool) (m m' : Nat) (e e' : Int) :
    fpLt (.fin n m e) (.fin n' m' e') = true ↔ finiteValue (.fin n m e) < finiteValue (.fin n' m' e') := by
  simp [fpLt, ordered, FVal.isNan, (compareFp_fin n n' m m' e e').1]

theorem isFinite32_iff (w : Word) : isFinite32 w ↔ (wordVal w).isNumber = true := isNumber_iff.symm

theorem finite32_iff (w : Word) : finite32 w = true ↔ isFinite32 w := by
  rw [isFinite32_iff]
  unfold finite32
  cases wordVal w <;> simp [FVal.isNumber, FVal.isNan, FVal.isInf]

theorem fpLe_word {u w : Word} (hu : isFinite32 u) (hw : isFinite32 w) : fpLe (wordVal u) (wordVal w) = true ↔ wordNumber u ≤ wordNumber w := by
  obtain ⟨n, m, e, h⟩ := hu
  obtain ⟨n', m', e', h'⟩ := hw
  unfold wordVal wordNumber
  rw [h, h', fpLe_fin]

theorem fpLt_word {u w : Word} (hu : isFinite32 u) (hw : isFinite32 w) : fpLt (wordVal u) (wordVal w) = true ↔ wordNumber u < wordNumber w := by
  obtain ⟨n, m, e, h⟩ := hu
  obtain ⟨n', m', e', h'⟩ := hw
  unfold wordVal wordNumber
  rw [h, h', fpLt_fin]

/-! # Segments (R60) -/

/-- The last number below `n` that meets a test. -/
theorem getLastD_filter_range (p : Nat → Bool) (n : Nat) (hn : 0 < n) :
    let j := ((List.range n).filter p).getLastD 0
    j < n ∧ (∀ i < n, p i = true → i ≤ j) ∧ (j = 0 ∨ p j = true) := by
  induction n with
  | zero => omega
  | succ n ih =>
    simp only [List.range_succ, List.filter_append, List.filter_cons, List.filter_nil]
    by_cases hp : p n = true
    · simp only [hp, if_true, List.getLastD_concat]
      exact ⟨Nat.lt_succ_self _, fun i hi _ => by omega, .inr trivial⟩
    · simp only [hp, Bool.false_eq_true, if_false, List.append_nil]
      rcases Nat.eq_zero_or_pos n with rfl | h0
      · simp only [List.range_zero, List.filter_nil, List.getLastD_nil]
        exact ⟨by omega, fun i hi h => by omega, .inl trivial⟩
      · obtain ⟨h1, h2, h3⟩ := ih h0
        refine ⟨by omega, fun i hi h => ?_, h3⟩
        rcases Nat.lt_succ_iff_lt_or_eq.1 hi with h' | rfl
        · exact h2 i h' h
        · exact absurd h hp

theorem segmentOf_isSegment {keys : List Word} (hk : ∀ j < 16, isFinite32 (keys.getD j 0)) (n : Bool) (m : Nat) (e : Int) :
    isSegment keys (finiteValue (.fin n m e)) (segmentOf keys (.fin n m e)) := by
  have hp : ∀ j < 16, (fpLe (wordVal (keys.getD j 0)) (.fin n m e) = true ↔ wordNumber (keys.getD j 0) ≤ finiteValue (.fin n m e)) := fun j hj => by
    obtain ⟨n', m', e', h⟩ := hk j hj
    unfold wordVal wordNumber
    rw [h, fpLe_fin]
  obtain ⟨h1, h2, h3⟩ := getLastD_filter_range (fun j => fpLe (wordVal (keys.getD j 0)) (.fin n m e)) 16 (by decide)
  refine ⟨h1, fun i hi h => h2 i hi ((hp i hi).2 h), h3.imp_right (hp _ h1).1⟩

/-! # The curves (R59, R60) -/

theorem exactOf_plusZero (n : Bool) (m : Nat) (e : Int) : exactOf (plusZero (.fin n m e)) = .ofRat (finiteValue (.fin n m e)) false := by
  by_cases hm : m = 0
  · simp [plusZero, FVal.isZero, hm, exactOf, Exact.ofRat, finiteValue]
  · have : finiteValue (.fin n m e) ≠ 0 := mt (finiteValue_eq_zero n m e).1 hm
    simp [plusZero, FVal.isZero, hm, exactOf, Exact.ofRat, this]

/-- A rounding that raises what it raises. -/
theorem delivers_plain {f : FpFmt} (hf : f ∈ formats) {rm : Rounding} {sat : Bool} {x : FVal} {y : Exact}
    (hr : Rounds f rm sat y (roundFp f rm x sat).1 (roundFp f rm x sat).2) : Delivers f rm sat False False y (roundFp f rm x sat) :=
  ⟨roundFp_lt hf rm sat x, _, hr, False.elim, fun _ => False.elim, fun _ _ => rfl⟩

section

variable {c : Curve} (hc : c.Sound)
include hc

theorem Curve.Sound.finiteAt {ws : List Word} (h : ws = c.x ∨ ws = c.y ∨ ws = c.k) {j : Nat} (hj : j < 16) : isFinite32 (ws.getD j 0) := by
  obtain ⟨hx, hy, hk⟩ := hc.lengths
  have hlen : ws.length = 16 := by rcases h with rfl | rfl | rfl <;> assumption
  refine hc.finite _ ?_
  have : ws.getD j 0 ∈ ws := by rw [List.getD_eq_getElem _ _ (by omega)]; exact List.getElem_mem _
  simp only [List.mem_append]
  rcases h with rfl | rfl | rfl
  · exact .inl (.inl this)
  · exact .inl (.inr this)
  · exact .inr this

theorem Curve.Sound.slope_pos {j : Nat} (hj : j < 16) : 0 < wordNumber (c.k.getD j 0) := by
  have hlen := hc.lengths.2.2
  refine lt_of_lt_of_le (by positivity) (hc.slopes (c.k.getD j 0) ?_)
  rw [List.getD_eq_getElem _ _ (by omega)]; exact List.getElem_mem _

end

/-- A point on a line, exactly, rounded once. -/
theorem delivers_line {u k w v : FVal} (hu : u.isNumber = true) (hk : k.isNumber = true) (hw : w.isNumber = true) (hv : v.isNumber = true) :
    Delivers fp32 .rn false False False (.ofRat (finiteValue u + finiteValue k * (finiteValue v - finiteValue w)) false)
      (roundFp fp32 .rn (plusZero (FVal.sum .rn [u, k.mul (FVal.sum .rn [v, w.neg])])) false) := by
  obtain ⟨n, m, e, rfl⟩ := isNumber_iff.1 hk
  obtain ⟨n2, m2, e2, rfl⟩ := isNumber_iff.1 hw
  have hneg : (FVal.neg (.fin n2 m2 e2)).isNumber = true := rfl
  obtain ⟨n3, m3, e3, hs, hsv, -⟩ := sum_numbers .rn (xs := [v, (FVal.fin n2 m2 e2).neg]) (by simp [hv, hneg])
  rw [hs]
  have hmul : (FVal.mul (.fin n m e) (.fin n3 m3 e3)).isNumber = true := rfl
  obtain ⟨n4, m4, e4, ht, htv, -⟩ := sum_numbers .rn (xs := [u, FVal.mul (.fin n m e) (.fin n3 m3 e3)]) (by simp [hu, hmul])
  rw [ht]
  refine delivers_plain (by decide) ?_
  have := roundFp_rounds (f := fp32) (by decide) .rn false (plusZero (.fin n4 m4 e4))
  rw [exactOf_plusZero, htv] at this
  have hval : ([u, FVal.mul (.fin n m e) (.fin n3 m3 e3)].map finiteValue).sum =
      finiteValue u + finiteValue (.fin n m e) * (finiteValue v - finiteValue (.fin n2 m2 e2)) := by
    have h1 : finiteValue (FVal.mul (.fin n m e) (.fin n3 m3 e3)) = finiteValue (.fin n m e) * finiteValue (.fin n3 m3 e3) := finiteValue_mul ..
    simp only [List.map_cons, List.map_nil, List.sum_cons, List.sum_nil, add_zero, h1, hsv, FVal.neg, finiteValue_not]
    ring
  rwa [hval] at this

/-- FWD on the model's codes. -/
theorem curveFwd_forward {c : Option Curve} (hc : ∀ k, c = some k → k.Sound) (a : Nat) : Forward c a (curveFwd c a) := by
  cases c with
  | none => exact rfl
  | some c =>
    have hs := hc c rfl
    unfold Forward Curves curveFwd
    dsimp only
    cases hd : decodeFp fp32 a with
    | nan s => cases s <;> exact rfl
    | inf n => exact rfl
    | fin n m e =>
      have hseg := segmentOf_isSegment (keys := c.x) (fun j hj => hs.finiteAt (.inl rfl) hj) n m e
      refine ⟨_, hseg, ?_⟩
      have hj := hseg.1
      exact delivers_line ((isFinite32_iff _).1 (hs.finiteAt (.inr (.inl rfl)) hj)) ((isFinite32_iff _).1 (hs.finiteAt (.inr (.inr rfl)) hj))
        ((isFinite32_iff _).1 (hs.finiteAt (.inl rfl) hj)) (v := .fin n m e) rfl

/-- A quotient whose zero is +0, rounded once. -/
theorem delivers_quotient {x k : FVal} (hx : x.isNumber = true) (hk : k.isNumber = true) (h0 : finiteValue k ≠ 0) :
    Delivers fp32 .rn false False False (.ofRat (finiteValue x / finiteValue k) false) (roundFp fp32 .rn (plusZero (x.div k)) false) := by
  obtain ⟨n, m, e, rfl⟩ := isNumber_iff.1 hx
  obtain ⟨n', m', e', rfl⟩ := isNumber_iff.1 hk
  have hm' : m' ≠ 0 := mt (finiteValue_eq_zero n' m' e').2 h0
  refine delivers_plain (by decide) ?_
  by_cases hm : m = 0
  · have : plusZero ((FVal.fin n m e).div (.fin n' m' e')) = .fin false 0 0 := by simp [FVal.div, hm, hm', plusZero, FVal.isZero]
    rw [this, (finiteValue_eq_zero n m e).2 hm, zero_div]
    exact roundFp_rounds (f := fp32) (by decide) .rn false (.fin false 0 0)
  · have hnz : plusZero ((FVal.fin n m e).div (.fin n' m' e')) = (FVal.fin n m e).div (.fin n' m' e') := by
      have hpos : m * 2 ^ (68 + Nat.log2 m') ≠ 0 := by positivity
      have : ¬(m * 2 ^ (68 + Nat.log2 m') < m' ∧ m * 2 ^ (68 + Nat.log2 m') % m' = 0) := fun h => hpos (by
        have := h.2; rwa [Nat.mod_eq_of_lt h.1] at this)
      simp only [FVal.div, hm, hm', if_false, plusZero, FVal.isZero]
      rw [if_neg]
      simpa [hm', Nat.div_eq_zero_iff] using this
    rw [hnz, ofRat_of_ne (div_ne_zero (mt (finiteValue_eq_zero n m e).1 hm) h0)]
    exact roundFp_quotient (regular_of_mem (by decide)) (by decide) .rn false hm hm'

/-- The inverse of a line, its quotient taken over one denominator. -/
theorem delivers_inverseLine {x k y v : FVal} (hx : x.isNumber = true) (hk : k.isNumber = true) (hy : y.isNumber = true) (hv : v.isNumber = true)
    (h0 : finiteValue k ≠ 0) :
    Delivers fp32 .rn false False False (.ofRat (finiteValue x + (finiteValue v - finiteValue y) / finiteValue k) false)
      (roundFp fp32 .rn (plusZero ((FVal.sum .rn [x.mul k, v, y.neg]).div k)) false) := by
  obtain ⟨n1, m1, e1, rfl⟩ := isNumber_iff.1 hx
  obtain ⟨n2, m2, e2, rfl⟩ := isNumber_iff.1 hk
  obtain ⟨n3, m3, e3, rfl⟩ := isNumber_iff.1 hy
  have hmul : (FVal.mul (.fin n1 m1 e1) (.fin n2 m2 e2)).isNumber = true := rfl
  have hneg : (FVal.neg (.fin n3 m3 e3)).isNumber = true := rfl
  obtain ⟨n4, m4, e4, ht, htv, -⟩ := sum_numbers .rn (xs := [FVal.mul (.fin n1 m1 e1) (.fin n2 m2 e2), v, FVal.neg (.fin n3 m3 e3)])
    (by simp [hv, hmul, hneg])
  rw [ht]
  have := delivers_quotient (x := .fin n4 m4 e4) rfl hk h0
  have hval : finiteValue (.fin n4 m4 e4) / finiteValue (.fin n2 m2 e2) =
      finiteValue (.fin n1 m1 e1) + (finiteValue v - finiteValue (.fin n3 m3 e3)) / finiteValue (.fin n2 m2 e2) := by
    have h1 : finiteValue (FVal.mul (.fin n1 m1 e1) (.fin n2 m2 e2)) = finiteValue (.fin n1 m1 e1) * finiteValue (.fin n2 m2 e2) :=
      finiteValue_mul ..
    rw [htv]
    simp only [List.map_cons, List.map_nil, List.sum_cons, List.sum_nil, add_zero, h1, FVal.neg, finiteValue_not]
    field_simp
    ring
  rwa [hval] at this

/-- INV on the model's codes. -/
theorem curveInv_inverse {c : Option Curve} (hc : ∀ k, c = some k → k.Sound) (a : Nat) : Inverse c a (curveInv c a) := by
  cases c with
  | none => exact rfl
  | some c =>
    have hs := hc c rfl
    unfold Inverse Curves curveInv
    dsimp only
    cases hd : decodeFp fp32 a with
    | nan s => cases s <;> exact rfl
    | inf n => exact rfl
    | fin n m e =>
      have hseg := segmentOf_isSegment (keys := c.y) (fun j hj => hs.finiteAt (.inr (.inl rfl)) hj) n m e
      refine ⟨_, hseg, ?_⟩
      have hj := hseg.1
      exact delivers_inverseLine ((isFinite32_iff _).1 (hs.finiteAt (.inl rfl) hj)) ((isFinite32_iff _).1 (hs.finiteAt (.inr (.inr rfl)) hj))
        ((isFinite32_iff _).1 (hs.finiteAt (.inr (.inl rfl)) hj)) (v := .fin n m e) rfl (hs.slope_pos hj).ne'

/-! ## A record that installs (R59) -/

/-- Knot after knot. -/
theorem knots_spec (x k : List Word) (n : Nat) (ys : List Word) (h0 : ys ≠ []) :
    (knots x k n ys).length = ys.length + n ∧ (∀ j < ys.length, (knots x k n ys).getD j 0 = ys.getD j 0) ∧
    ∀ j, ys.length ≤ j + 1 → j + 1 < ys.length + n → (knots x k n ys).getD (j + 1) 0 =
      BitVec.ofNat 32 (rne32 (plusZero (FVal.sum .rn [wordVal ((knots x k n ys).getD j 0),
        (wordVal (k.getD j 0)).mul (FVal.sum .rn [wordVal (x.getD (j + 1) 0), (wordVal (x.getD j 0)).neg])]))) := by
  induction n generalizing ys with
  | zero => exact ⟨rfl, fun _ _ => rfl, fun j h1 h2 => by omega⟩
  | succ n ih =>
    have hlen : 0 < ys.length := List.length_pos_of_ne_nil h0
    set y : Word := BitVec.ofNat 32 (rne32 (plusZero (FVal.sum .rn [wordVal (ys.getLastD 0), (wordVal (k.getD (ys.length - 1) 0)).mul
      (FVal.sum .rn [wordVal (x.getD ys.length 0), (wordVal (x.getD (ys.length - 1) 0)).neg])]))) with hy
    have he : knots x k (n + 1) ys = knots x k n (ys ++ [y]) := rfl
    obtain ⟨h1, h2, h3⟩ := ih (ys ++ [y]) (by simp)
    rw [List.length_append, List.length_singleton] at h1 h2 h3
    have hold : ∀ j < ys.length, (knots x k n (ys ++ [y])).getD j 0 = ys.getD j 0 := fun j hj => by
      rw [h2 j (by omega), List.getD_append _ _ _ _ hj]
    rw [he]
    refine ⟨by omega, hold, fun j hj1 hj2 => ?_⟩
    rcases Nat.lt_or_ge (j + 1) (ys.length + 1) with hlt | hge
    · have hj : j = ys.length - 1 := by omega
      have hlast : ys.getD j 0 = ys.getLastD 0 := by
        rw [List.getD_eq_getElem _ _ (by omega), List.getLastD_eq_getLast?, List.getLast?_eq_getElem?, List.getElem?_eq_getElem (by omega)]
        simp [hj]
      rw [h2 (j + 1) (by omega), hold j (by omega), hlast, show j + 1 = ys.length by omega, hj, hy]
      simp
    · exact h3 j hge (by omega)

theorem risesFp_getD {ws : List Word} (h : risesFp ws = true) {j : Nat} (hj : j + 1 < ws.length) :
    fpLt (wordVal (ws.getD j 0)) (wordVal (ws.getD (j + 1) 0)) = true := by
  induction ws generalizing j with
  | nil => simp at hj
  | cons a ws ih =>
    cases ws with
    | nil => simp at hj
    | cons b ws =>
      obtain ⟨h1, h2⟩ := Bool.and_eq_true_iff.1 (show (fpLt (wordVal a) (wordVal b) && risesFp (b :: ws)) = true from h)
      cases j with
      | zero => exact h1
      | succ j => exact ih h2 (by simpa using hj)

/-- A record that installs passed every check of R59. -/
theorem curveOfRecord_sound {bs : List Byte} {c : Curve} (h : curveOfRecord bs = some c) :
    c.Sound ∧ c.x = (List.range 16).map (fun j => fieldWord bs (0x10 + 4 * j)) ∧ c.k = (List.range 16).map (fun j => fieldWord bs (0x50 + 4 * j)) ∧
      c.y = knots c.x c.k 15 [fieldWord bs 0] := by
  unfold curveOfRecord at h
  simp only at h
  split at h
  · next hok =>
    obtain rfl := Option.some.inj h
    simp only [Bool.and_eq_true, List.all_eq_true] at hok
    obtain ⟨⟨⟨⟨⟨hxk, -⟩, hrx⟩, hsl⟩, hyf⟩, hry⟩ := hok
    set x := (List.range 16).map fun j => fieldWord bs (0x10 + 4 * j) with hx
    set k := (List.range 16).map fun j => fieldWord bs (0x50 + 4 * j) with hk
    have hlx : x.length = 16 := by simp [hx]
    have hlk : k.length = 16 := by simp [hk]
    have hly : (knots x k 15 [fieldWord bs 0]).length = 16 := (knots_spec x k 15 [fieldWord bs 0] (by simp)).1
    have fin {ws : List Word} (hws : ∀ w ∈ ws, finite32 w = true) (hl : ws.length = 16) {j : Nat} (hj : j < 16) : isFinite32 (ws.getD j 0) := by
      rw [List.getD_eq_getElem _ _ (by omega)]; exact (finite32_iff _).1 (hws _ (List.getElem_mem _))
    have hxf : ∀ w ∈ x, finite32 w = true := fun w hw => hxk w (by simp [hw])
    have hkf : ∀ w ∈ k, finite32 w = true := fun w hw => hxk w (by simp [hw])
    refine ⟨⟨⟨hlx, hly, hlk⟩, fun w hw => ?_, fun j hj => ⟨?_, ?_⟩, fun w hw => ?_⟩, rfl, rfl, rfl⟩
    · simp only [List.mem_append] at hw
      rcases hw with (hw | hw) | hw
      · exact (finite32_iff w).1 (hxf w hw)
      · exact (finite32_iff w).1 (hyf w hw)
      · exact (finite32_iff w).1 (hkf w hw)
    · exact (fpLt_word (fin hxf hlx (by omega)) (fin hxf hlx (by omega))).1 (risesFp_getD hrx (by omega))
    · exact (fpLt_word (fin hyf hly (by omega)) (fin hyf hly (by omega))).1 (risesFp_getD hry (by omega))
    · have hw32 := hsl w hw
      obtain ⟨n, m, e, hd⟩ := (finite32_iff w).1 (hkf w hw)
      unfold wordVal at hw32
      rw [hd, fpLe_fin] at hw32
      unfold wordNumber
      rw [hd]
      simpa [finiteValue] using hw32
  · cases h

/-- What an installed record holds: its knots and slopes are its fields, and each knot of Y is the point before it carried along the slope. -/
theorem curveOfRecord_fields {bs : List Byte} {c : Curve} (h : curveOfRecord bs = some c) :
    c.y.getD 0 0 = fieldWord bs 0 ∧ (∀ j < 16, c.x.getD j 0 = fieldWord bs (0x10 + 4 * j) ∧ c.k.getD j 0 = fieldWord bs (0x50 + 4 * j)) ∧
    ∀ j < 15, ∃ fl, Delivers fp32 .rn false False False
      (.ofRat (wordNumber (c.y.getD j 0) + wordNumber (c.k.getD j 0) * (wordNumber (c.x.getD (j + 1) 0) - wordNumber (c.x.getD j 0))) false)
      ((c.y.getD (j + 1) 0).toNat, fl) := by
  obtain ⟨hs, hx, hk, hy⟩ := curveOfRecord_sound h
  obtain ⟨-, h2, h3⟩ := knots_spec c.x c.k 15 [fieldWord bs 0] (by simp)
  rw [← hy] at h2 h3
  refine ⟨h2 0 (by simp), fun j hj => ?_, fun j hj => ?_⟩
  · rw [hx, hk]
    simp [List.getD_eq_getElem?_getD, hj]
  · have hd := delivers_line (u := wordVal (c.y.getD j 0)) (k := wordVal (c.k.getD j 0)) (v := wordVal (c.x.getD (j + 1) 0))
      (w := wordVal (c.x.getD j 0)) ((isFinite32_iff _).1 (hs.finiteAt (.inr (.inl rfl)) (by omega)))
      ((isFinite32_iff _).1 (hs.finiteAt (.inr (.inr rfl)) (by omega))) ((isFinite32_iff _).1 (hs.finiteAt (.inl rfl) (by omega)))
      ((isFinite32_iff _).1 (hs.finiteAt (.inl rfl) (by omega)))
    have hn := h3 j (by simp) (by simp; omega)
    generalize plusZero _ = z at hd hn
    have hlt : (roundFp fp32 .rn z false).1 < 2 ^ 32 := hd.1
    rw [hn, BitVec.toNat_ofNat, rne32_eq, Nat.mod_eq_of_lt hlt]
    exact ⟨_, hd⟩

end Sys2Proof.Machine

namespace Sys2Proof.Machine

/-! # The shared scale (R128) -/

/-- The leading exponents grow with the magnitudes. -/
theorem leadExp_mono {m m' : Nat} (hm : m ≠ 0) (e e' : Int) (h : (m : ℝ) * 2 ^ e ≤ m' * 2 ^ e') : leadExp m e ≤ leadExp m' e' := by
  have := (zpow_lt_zpow_iff_right₀ (one_lt_two (α := ℝ))).1 (((leadExp_le hm e).trans h).trans_lt (lt_leadExp m' e'))
  omega

/-- The leading exponent of a number other than zero. -/
def topOf : FVal → Option Int
  | .fin _ m e => if m = 0 then none else some (leadExp m e)
  | _ => none

theorem foldl_max_le {ts : List Int} {t b : Int} (h : ∀ x ∈ t :: ts, x ≤ b) (hb : b ∈ t :: ts) : ts.foldl max t = b := by
  have hle : ∀ (l : List Int) (a : Int), a ≤ l.foldl max a ∧ ∀ x ∈ l, x ≤ l.foldl max a := fun l => by
    induction l with
    | nil => simp
    | cons y l ih =>
      intro a
      obtain ⟨h1, h2⟩ := ih (max a y)
      exact ⟨(le_max_left a y).trans h1, fun x hx => (List.mem_cons.1 hx).elim (fun e => e ▸ (le_max_right a y).trans h1) (h2 x)⟩
  have hmem : ∀ (l : List Int) (a : Int), l.foldl max a ∈ a :: l := fun l => by
    induction l with
    | nil => simp
    | cons y l ih =>
      intro a
      rcases List.mem_cons.1 (ih (max a y)) with e | e
      · rw [List.foldl_cons, e]
        rcases max_choice a y with k | k <;> rw [k] <;> simp
      · exact List.mem_cons_of_mem _ (List.mem_cons_of_mem _ e)
  refine le_antisymm (h _ (hmem ts t)) ?_
  rcases List.mem_cons.1 hb with e | e
  · exact e ▸ (hle ts t).1
  · exact (hle ts t).2 b e

theorem emax_eq (m : MxFmt) : emax m = emaxOf m := by cases m <;> rfl

theorem scaleCode_le (m : MxFmt) (ys : List Nat) : scaleCode m ys ≤ 0xFF := by
  unfold scaleCode
  simp only
  split
  · exact le_refl _
  · split
    · decide
    · split
      · exact Nat.zero_le _
      · omega

theorem scaleCode_isScale (m : MxFmt) (ys : List Nat) : IsScale m ys (scaleCode m ys) := by
  have hcode : scaleCode m ys =
      if (ys.map (decodeFp fp32)).any FVal.isNan then 0xFF
      else if (ys.map (decodeFp fp32)).any FVal.isInf then 0xFE
      else match (ys.map (decodeFp fp32)).filterMap topOf with
        | [] => 0
        | t :: ts => (min (max (ts.foldl max t - emax m + 127) 0) 254).toNat := rfl
  have hnan : (∀ y ∈ ys, (decodeFp fp32 y).isNan = false) → (ys.map (decodeFp fp32)).any FVal.isNan = false := fun h => by
    simpa [List.any_eq_false] using h
  have hinf : (∀ y ∈ ys, (decodeFp fp32 y).isInf = false) → (ys.map (decodeFp fp32)).any FVal.isInf = false := fun h => by
    simpa [List.any_eq_false] using h
  refine ⟨fun ⟨y, hy, h⟩ => ?_, fun hn ⟨y, hy, h⟩ => ?_, fun hz => ?_, fun hf y hy hyz hmax => ?_⟩
  · rw [hcode, if_pos (List.any_eq_true.2 ⟨_, List.mem_map_of_mem hy, h⟩)]
  · rw [hcode, hnan hn, if_neg (by simp), if_pos (List.any_eq_true.2 ⟨_, List.mem_map_of_mem hy, h⟩)]
  · dsimp only at hz
    have num : ∀ y ∈ ys, ∃ n e, decodeFp fp32 y = .fin n 0 e := fun y hy => by
      have := hz y hy
      cases hd : decodeFp fp32 y with
      | fin n m e => rw [hd] at this; exact ⟨n, e, by simp [FVal.isZero] at this; simp [this]⟩
      | nan s => rw [hd] at this; cases this
      | inf n => rw [hd] at this; cases this
    have hnone : (ys.map (decodeFp fp32)).filterMap topOf = [] := by
      rw [List.filterMap_eq_nil_iff]
      intro v hv
      obtain ⟨y, hy, rfl⟩ := List.mem_map.1 hv
      obtain ⟨n, e, hd⟩ := num y hy
      rw [hd]; rfl
    rw [hcode, hnan fun y hy => by obtain ⟨n, e, hd⟩ := num y hy; rw [hd]; rfl, hinf fun y hy => by obtain ⟨n, e, hd⟩ := num y hy; rw [hd]; rfl,
      hnone]
    rfl
  · dsimp only at hf hyz hmax ⊢
    rw [hcode, hnan fun y hy => (hf y hy).1, hinf fun y hy => (hf y hy).2]
    simp only [Bool.false_eq_true, if_false]
    have num : ∀ z ∈ ys, ∃ n m e, decodeFp fp32 z = .fin n m e := fun z hz => isNumber_iff.1 (by simp [FVal.isNumber, hf z hz])
    obtain ⟨n, mm, e, hd⟩ := num y hy
    have hmm : mm ≠ 0 := by rw [hd] at hyz; simpa [FVal.isZero] using hyz
    have habs : ((|finiteValue (decodeFp fp32 y)| : ℚ) : ℝ) = mm * 2 ^ e := by rw [hd, abs_finiteValue]; push_cast; rfl
    have hmem : leadExp mm e ∈ (ys.map (decodeFp fp32)).filterMap topOf :=
      List.mem_filterMap.2 ⟨_, List.mem_map_of_mem hy, by rw [hd]; exact if_neg hmm⟩
    have hle : ∀ x ∈ (ys.map (decodeFp fp32)).filterMap topOf, x ≤ leadExp mm e := fun x hx => by
      obtain ⟨v, hv, hx⟩ := List.mem_filterMap.1 hx
      obtain ⟨z, hz, rfl⟩ := List.mem_map.1 hv
      obtain ⟨n', m', e', hd'⟩ := num z hz
      rw [hd'] at hx
      simp only [topOf] at hx
      split at hx
      · cases hx
      · next hm' =>
        obtain rfl := Option.some.inj hx
        refine leadExp_mono hm' e' e ?_
        have := (Rat.cast_le (K := ℝ)).2 (hmax z hz)
        rw [habs, hd', abs_finiteValue] at this
        push_cast at this
        exact this
    refine ⟨leadExp mm e, ?_, ?_, ?_⟩
    · have := leadExp_le hmm e
      rw [← habs] at this
      rw [← Rat.cast_le (K := ℝ)]
      push_cast at this ⊢
      exact this
    · have := lt_leadExp mm e
      rw [← habs] at this
      rw [← Rat.cast_lt (K := ℝ)]
      push_cast at this ⊢
      exact this
    · generalize (ys.map (decodeFp fp32)).filterMap topOf = tops at *
      cases tops with
      | nil => cases hmem
      | cons t ts =>
        simp only
        rw [foldl_max_le hle hmem, emax_eq, Int.toNat_of_nonneg (by omega)]

/-! # Quantising and companding (R129, R130) -/

theorem curve_eq_slotOf (s : State) (l : Lane) (v : QWord) : s.laneCurve l v = s.slotOf l v := rfl

theorem quantOne_quantises (m : MxFmt) (rm : Rounding) (sat : Bool) {c : Option Curve} (hc : ∀ k, c = some k → k.Sound) (a scale : Nat) :
    Quantises m rm sat c a (scale % 256) (quantOne m rm sat c a scale) := by
  have hg := mxFormat_mem m
  have hfit : ∀ v, v < 2 ^ (mxFormat m).width → (BitVec.ofNat 128 v).toNat = v := fun v hv => by
    rw [BitVec.toNat_ofNat, Nat.mod_eq_of_lt (hv.trans_le (Nat.pow_le_pow_right two_pos (by cases m <;> decide)))]
  unfold Quantises
  simp only
  by_cases hs : scale % 256 = 255
  · have hq : quantOne m rm sat c a scale =
        { val := BitVec.ofNat 128 (roundFp (mxFormat m) rm (.nan false) sat).1, flags := (curveFwd c a).2 ||| flagInvalid } := by
      unfold quantOne; simp only [hs, if_true]
    rw [hq]
    refine ⟨rfl, curveFwd c a, curveFwd_forward hc a, fun _ => ⟨?_, rfl⟩, fun h => absurd hs h⟩
    rw [hfit _ (roundFp_lt hg ..)]
    exact nanCode_eq hg
  · have hq : quantOne m rm sat c a scale =
        let x := match decodeFp fp32 (curveFwd c a).1 with
          | .fin n m e => FVal.fin n m (e + (127 - (scale % 256 : Nat) : Int))
          | v => v
        let r := cvtTo (mxFormat m) rm sat x
        { val := BitVec.ofNat 128 r.1, flags := (curveFwd c a).2 ||| r.2 } := by
      unfold quantOne; simp only [hs, if_false] <;> rfl
    rw [hq]
    refine ⟨rfl, curveFwd c a, curveFwd_forward hc a, fun h => absurd h hs, fun _ => ?_⟩
    generalize decodeFp fp32 (curveFwd c a).1 = y
    have hscale := exactOf_scale y (127 - (scale % 256 : Nat))
    have key : ∀ x, exactOf x = (exactOf y).scale (127 - (scale % 256 : Nat)) → (y = .nan true ↔ x = .nan true) → (x.isInf = y.isInf) →
        Delivers (mxFormat m) rm sat (y = .nan true ∨ ((exactOf y = .nan) ∧ (mxFormat m).kind ≠ .ieee ∧ (mxFormat m).kind ≠ .e4m3) ∨
          (y.isInf = true ∧ (mxFormat m).kind ≠ .ieee)) False ((exactOf y).scale (127 - (scale % 256 : Nat))) (cvtTo (mxFormat m) rm sat x) := by
      intro x hx hsn hi
      have := cvtTo_delivers hg rm sat x hsn
      have hinf : (∃ n, exactOf x = .inf n) ↔ y.isInf = true := by
        rw [← hi]
        cases x with
        | fin n m e => simp only [exactOf]; split <;> simp [FVal.isInf]
        | nan s => simp [FVal.isInf, exactOf]
        | inf n => simp [FVal.isInf, exactOf]
      have hnan : exactOf x = .nan ↔ exactOf y = .nan := by
        rw [hx]
        cases exactOf y <;> simp [Exact.scale]
      rwa [hinf, hnan, hx] at this
    refine ⟨_, key _ ?_ ?_ ?_, hfit _ (cvtTo_lt hg ..), rfl⟩
    · cases y <;> exact hscale
    · cases y <;> simp
    · cases y <;> rfl

/-- A job that leaves the state alone and gives each lane a result of its own. -/
theorem givesAll_results {i : Instr} {g : Sig} {f : Fields} {R : State → List Lane → Lane → LaneRes → Prop}
    {work : State → List Lane → State × List LaneRes} (res : State → List Lane → Lane → LaneRes)
    (hi : ∀ s, exec i s = ({ sig := g, perform := work } : Job).issue f s) (hp : ∀ s ls, work s ls = (s, ls.map (res s ls)))
    (hR : ∀ s ls l, (res s ls l).late = false ∧ R s ls l (res s ls l)) : GivesAll i g f R := by
  intro s ci hready
  refine ⟨(s.lanes ci g f).map (res (s.atWork ci g f) (s.lanes ci g f)), ?_, List.length_map _, fun x hx => ?_⟩
  · rw [hi]
    exact Job.issue_results (j := { sig := g, perform := work }) hready
      ⟨fun _ _ => rfl, rfl, rfl, Job.laneFaults_each (lanes_nodup s ci g f) rfl fun _ _ _ => rfl⟩ rfl rfl (fun _ _ => rfl) (hp _ _)
      (List.length_map _) rfl rfl
  · obtain ⟨n, hn, rfl⟩ := List.mem_iff_getElem.1 hx
    rw [List.getElem_zip, List.getElem_map]
    exact hR _ _ _

theorem gives_qscl (m : MxFmt) (o : Operands) :
    GivesAll (.qscl m o) { dst := .w32, a := .f32, c := .b32 } o.fields (fun s ls l r => (∀ x ∈ ls, soundSlot s x x.c) →
      r.wide = false ∧ ∃ ys : List (Nat × Flags), ys.length = ls.length ∧
        (∀ p ∈ ls.zip ys, Forward (s.slotOf p.1 p.1.c) p.1.a.toNat p.2 ∧ (p.1 = l → r.flags = p.2.2)) ∧
        IsScale m (ys.map (·.1)) r.val.toNat) := by
  refine givesAll_results (fun s ls l =>
    { val := BitVec.ofNat 128 (scaleCode m ((ls.map fun l => curveFwd (s.laneCurve l l.c) l.a.toNat).map (·.1)))
      flags := (curveFwd (s.laneCurve l l.c) l.a.toNat).2 }) (fun _ => rfl) (fun s ls => ?_) fun s ls l => ⟨rfl, fun hs => ⟨rfl,
    ls.map fun l => curveFwd (s.laneCurve l l.c) l.a.toNat, List.length_map _, fun p hp => ?_, ?_⟩⟩
  · simp only [List.map_map, Function.comp_def]
  · obtain ⟨n, hn, rfl⟩ := List.mem_iff_getElem.1 hp
    rw [List.getElem_zip, List.getElem_map]
    exact ⟨curveFwd_forward (hs _ (List.getElem_mem _)) _, fun h => by rw [show l = _ from h.symm]⟩
  · have := scaleCode_le m ((ls.map fun l => curveFwd (s.laneCurve l l.c) l.a.toNat).map (·.1))
    rw [BitVec.toNat_ofNat, Nat.mod_eq_of_lt (by omega)]
    exact scaleCode_isScale m _

theorem gives_qnt (m : MxFmt) (o : Operands) :
    GivesAll (.qnt m o) { dst := .w32, a := .f32, b := .b32, c := .b32, ctlC := true } o.fields (fun s _ l r => soundSlot s l l.c →
      Quantises m (modeOf o.fields.mc) (o.fields.mc.getLsbD 2) (s.slotOf l l.c) l.a.toNat (l.b.toNat % 256) r) := by
  refine givesAll_results (fun s _ l =>
    quantOne m (ctlMode o.fields) (ctlSat o.fields) (s.laneCurve l l.c) l.a.toNat l.b.toNat) (fun _ => rfl) (fun s ls => rfl)
    fun s ls l => ⟨?_, fun hs => ?_⟩
  · unfold quantOne
    simp only
    split <;> rfl
  · rw [ctlMode_eq, ctlSat_eq]
    exact quantOne_quantises m _ _ hs _ _

/-- What `cpnd` and `cpndi` give a lane, of a curve function that keeps its rule and returns the input under slot 0. -/
theorem slotCurve_curves {fn : Option Curve → Nat → Nat × Flags} {R : Option Curve → Nat → Nat × Flags → Prop} (h0 : ∀ a, fn none a = (a, 0))
    (hR : ∀ (c : Option Curve) (a : Nat), (∀ k, c = some k → k.Sound) → R c a (fn c a)) (s : State) (l : Lane) (hs : soundSlot s l l.b) :
    ∃ y, oneRes (slotCurve fn s l) = { val := BitVec.ofNat 128 y.1, flags := y.2 } ∧
      (l.b.toNat % 16 = 0 → y = (l.a.toNat, 0)) ∧
      (∀ sg, l.b.toNat % 16 ≠ 0 → decodeFp fp32 l.a.toNat = .nan sg → y = (0x7FC00000, if sg then flagInvalid else 0)) ∧
      ((decodeFp fp32 l.a.toNat).isNan = false → R (s.slotOf l l.b) l.a.toNat y) := by
  have hsame : s.laneCurve l l.b = s.slotOf l l.b := rfl
  refine ⟨slotCurve fn s l, rfl, fun h => ?_, fun sg h hd => ?_, fun hd => ?_⟩
  · have hnone : s.slotOf l l.b = none := if_pos h
    unfold slotCurve
    split
    · rw [if_pos h, h0]
    · rw [hsame, hnone, h0]
  · unfold slotCurve
    rw [hd]
    simp only [h, if_false]
    cases sg <;> rfl
  · have : slotCurve fn s l = fn (s.slotOf l l.b) l.a.toNat := by
      unfold slotCurve
      split
      · next h => rw [h] at hd; cases hd
      · rw [hsame]
    rw [this]
    exact hR _ _ hs

theorem gives_cpnd (o : Operands) (inv : Bool) :
    GivesAll (if inv then .cpndi o else .cpnd o) { dst := .w32, a := .f32, b := .b32 } o.fields (fun s _ l r =>
      soundSlot s l l.b → ∃ y, r = { val := BitVec.ofNat 128 y.1, flags := y.2 } ∧
        (l.b.toNat % 16 = 0 → y = (l.a.toNat, 0)) ∧
        (∀ sg, l.b.toNat % 16 ≠ 0 → decodeFp fp32 l.a.toNat = .nan sg → y = (0x7FC00000, if sg then flagInvalid else 0)) ∧
        ((decodeFp fp32 l.a.toNat).isNan = false → (if inv then Inverse else Forward) (s.slotOf l l.b) l.a.toNat y)) := by
  cases inv with
  | false =>
    exact givesAll_results (fun s _ l => oneRes (slotCurve curveFwd s l)) (fun _ => rfl) (fun s ls => rfl) fun s ls l =>
      ⟨rfl, fun hs => slotCurve_curves (fun _ => rfl) (fun c a hc => curveFwd_forward hc a) s l hs⟩
  | true =>
    exact givesAll_results (fun s _ l => oneRes (slotCurve curveInv s l)) (fun _ => rfl) (fun s ls => rfl) fun s ls l =>
      ⟨rfl, fun hs => slotCurve_curves (fun _ => rfl) (fun c a hc => curveInv_inverse hc a) s l hs⟩

/-- Settles O8: packing is a sum of shifted fields; the shared scale is the largest leading exponent; FWD, INV and the quantised value
are exact sums, products and quotients rounded once; a record that installs passed every check of R59. -/
theorem packingQuantisingCompanding : Obligations.PackingQuantisingCompanding :=
  ⟨gives_packing, fun m o => ⟨gives_qscl m o, gives_qnt m o, gives_cpnd o⟩,
    fun _ _ h => ⟨(curveOfRecord_sound h).1, curveOfRecord_fields h⟩⟩

end Sys2Proof.Machine

namespace Sys2Proof.Machine

/-! # Sums of any number of values (R45, R57) -/

theorem zeroSign_append (xs : List FVal) (x : FVal) : zeroSign .rn (xs ++ [x]) = (zeroSign .rn xs && (x.isZero && x.sign)) := by
  have h (ys : List FVal) : zeroSign .rn ys = ys.all fun y => y.isZero && y.sign := by
    unfold zeroSign
    split
    · next h => exact h.symm
    · next h => rw [Bool.eq_false_of_not_eq_true h]; split <;> rfl
  rw [h, h, List.all_append, List.all_cons, List.all_nil, Bool.and_true]

/-- Of values that are not all numbers some is a NaN or an infinity. -/
theorem any_special {xs : List FVal} (h : ¬∀ x ∈ xs, x.isNumber = true) :
    (xs.any FVal.isNan || ((xs.any fun x => x.isInf && !x.sign) || (xs.any fun x => x.isInf && x.sign))) = true := by
  simp only [not_forall] at h
  obtain ⟨x, hx, hn⟩ := h
  have hany (p : FVal → Bool) (hp : p x = true) : xs.any p = true := List.any_eq_true.2 ⟨x, hx, hp⟩
  cases x with
  | nan s => simp [hany FVal.isNan rfl]
  | inf s => cases s with
    | false => simp [hany (fun x => x.isInf && !x.sign) rfl]
    | true => simp [hany (fun x => x.isInf && x.sign) rfl]
  | fin n m e => exact absurd rfl hn

/-- What a sum of values that are not all numbers is. -/
theorem sum_special (rm : Rounding) (xs : List FVal) (h : ¬∀ x ∈ xs, x.isNumber = true) :
    FVal.sum rm xs = if xs.any FVal.isNan || ((xs.any fun x => x.isInf && !x.sign) && (xs.any fun x => x.isInf && x.sign)) then .nan false
      else .inf (xs.any fun x => x.isInf && x.sign) := by
  have hany := any_special h
  unfold FVal.sum
  simp only
  generalize xs.any FVal.isNan = a at hany ⊢
  generalize (xs.any fun x => x.isInf && !x.sign) = p at hany ⊢
  generalize (xs.any fun x => x.isInf && x.sign) = q at hany ⊢
  cases a <;> cases p <;> cases q <;> simp at hany ⊢

/-- One more value: the sum so far and that value. -/
theorem exactOf_sum_append (xs : List FVal) (x : FVal) :
    exactOf (FVal.sum .rn (xs ++ [x])) = (exactOf (FVal.sum .rn xs)).add .rn (exactOf x) := by
  rw [← exactOf_sum_pair]
  by_cases hx : ∀ y ∈ xs, y.isNumber = true
  · obtain ⟨n, m, e, hs, hv, hz⟩ := sum_numbers .rn hx
    by_cases hn : x.isNumber = true
    · have hall : ∀ y ∈ xs ++ [x], y.isNumber = true := by
        intro y hy
        rcases List.mem_append.1 hy with h | h
        · exact hx y h
        · rw [List.mem_singleton.1 h]; exact hn
      have hpair : ∀ y ∈ [FVal.sum .rn xs, x], y.isNumber = true := by
        rw [hs]; simpa using ⟨rfl, hn⟩
      rw [exactOf_sum .rn hall, exactOf_sum .rn hpair, hs]
      have hval : ((xs ++ [x]).map finiteValue).sum = ([FVal.fin n m e, x].map finiteValue).sum := by
        simp only [List.map_append, List.map_cons, List.map_nil, List.sum_append, List.sum_cons, List.sum_nil, add_zero, hv]
      rw [hval]
      by_cases h0 : ([FVal.fin n m e, x].map finiteValue).sum = 0
      · rw [ofRat_eq_zero h0, ofRat_eq_zero h0, zeroSign_append, show [FVal.fin n m e, x] = [FVal.fin n m e] ++ [x] from rfl, zeroSign_append]
        congr 2
        have hsingle : zeroSign .rn [FVal.fin n m e] = (decide (m = 0) && n) := by
          by_cases hm : m = 0 <;> cases n <;> simp [zeroSign, FVal.isZero, FVal.sign, hm]
        rw [hsingle]
        by_cases hm : m = 0
        · rw [← hz hm]; simp [hm]
        · have hne := mt (finiteValue_eq_zero n m e).1 hm
          rw [hv] at hne
          have : zeroSign .rn xs ≠ true := fun hk => hne (List.sum_eq_zero fun q hq => by
            obtain ⟨y, hy, rfl⟩ := List.mem_map.1 hq
            unfold zeroSign at hk
            split at hk
            · next hall =>
              have := List.all_eq_true.1 hall y hy
              cases y with
              | fin n' m' e' => simp [FVal.isZero] at this; exact (finiteValue_eq_zero n' m' e').2 this.1
              | nan s => simp [FVal.isZero] at this
              | inf s => simp [FVal.isZero] at this
            · split at hk <;> simp at hk)
          rw [Bool.eq_false_of_not_eq_true this]; simp [hm]
      · rw [ofRat_of_ne h0, ofRat_of_ne h0]
    · rw [sum_special .rn (xs ++ [x]) (fun h => hn (h x (by simp))), sum_special .rn [FVal.sum .rn xs, x] (fun h => hn (h x (by simp))), hs]
      have hno : ∀ y ∈ xs, y.isNan = false ∧ y.isInf = false := fun y hy => by
        have := hx y hy; simp [FVal.isNumber] at this; exact this
      have h1 : xs.any FVal.isNan = false := List.any_eq_false.2 fun y hy => by simp [(hno y hy).1]
      have h2 (p : FVal → Bool) : (xs.any fun y => y.isInf && p y) = false := List.any_eq_false.2 fun y hy => by simp [(hno y hy).2]
      simp only [List.any_append, h1, h2 fun y => !y.sign, h2 fun y => y.sign, List.any_cons, List.any_nil, Bool.false_or, Bool.or_false]
      rfl
  · rw [sum_special .rn (xs ++ [x]) (fun h => hx fun y hy => h y (by simp [hy]))]
    have hnot : (FVal.sum .rn xs).isNumber = false := by
      rw [sum_special .rn xs hx]; split <;> rfl
    rw [sum_special .rn [FVal.sum .rn xs, x] (fun h => by rw [h _ (by simp)] at hnot; cases hnot), sum_special .rn xs hx]
    have hany := any_special hx
    simp only [List.any_append, List.any_cons, List.any_nil, Bool.or_false]
    generalize xs.any FVal.isNan = a at hany ⊢
    generalize (xs.any fun x => x.isInf && !x.sign) = p at hany ⊢
    generalize (xs.any fun x => x.isInf && x.sign) = q at hany ⊢
    revert hany
    cases x with
    | nan s => cases a <;> cases p <;> cases q <;> decide +revert
    | inf s => revert a p q s; decide
    | fin n m e =>
      have h1 : (FVal.fin n m e).isNan = false := rfl
      have h2 : (FVal.fin n m e).isInf = false := rfl
      rw [h1, h2]
      generalize (FVal.fin n m e).sign = t
      revert a p q t; decide

theorem exactOf_sum_list (xs : List FVal) : exactOf (FVal.sum .rn xs) = (xs.map exactOf).foldl (Exact.add .rn) (.zero true) := by
  induction xs using List.reverseRecOn with
  | nil => rfl
  | append_singleton xs x ih => rw [exactOf_sum_append, ih, List.map_append, List.foldl_append]; rfl

theorem exactOf_sum_triple (x y z : FVal) : exactOf (FVal.sum .rn [x, y, z]) = ((exactOf x).add .rn (exactOf y)).add .rn (exactOf z) := by
  rw [show [x, y, z] = [x, y] ++ [z] from rfl, exactOf_sum_append, exactOf_sum_pair]

/-! # Block products (R57) -/

theorem exactOf_zero {x : FVal} {n : Bool} : exactOf x = .zero n ↔ ∃ e, x = .fin n 0 e := by
  cases x with
  | nan s => simp [exactOf]
  | inf s => simp [exactOf]
  | fin s m e => by_cases hm : m = 0 <;> simp [exactOf, hm]

theorem exactOf_inf {x : FVal} {n : Bool} : exactOf x = .inf n ↔ x = .inf n := by
  cases x with
  | nan s => simp [exactOf]
  | inf s => simp [exactOf]
  | fin s m e => by_cases hm : m = 0 <;> simp [exactOf, hm]

theorem toNat_ofNat_lt {v : Nat} (h : v < 2 ^ 32) : (BitVec.ofNat 32 v).toNat = v := by rw [BitVec.toNat_ofNat, Nat.mod_eq_of_lt h]

theorem rnef_lt (x : FVal) (sat : Bool) : rnef fp32 x sat < 2 ^ 32 := roundFp_lt (f := fp32) (by decide) .rn sat x

theorem rnef_rounds (x : FVal) (sat : Bool) : ∃ fl, Rounds fp32 .rn sat (exactOf x) (rnef fp32 x sat) fl :=
  ⟨_, roundFp_rounds (f := fp32) (by decide) .rn sat x⟩

theorem rne32_lt (x : FVal) : rne32 x < 2 ^ 32 := rnef_lt x false
theorem rne32_rounds (x : FVal) : ∃ fl, Rounds fp32 .rn false (exactOf x) (rne32 x) fl := rnef_rounds x false

/-- The block product of values that are not all zero scales: the sum rounded to FP32, then scaled and rounded once more. -/
theorem mxdot_number {sa sb : Nat} (ha : sa < 255) (hb : sb < 255) (as bs : List FVal) (sat : Bool) {n : Bool} {m : Nat} {e : Int}
    (hs : FVal.sum .rn (List.zipWith FVal.mul as bs) = .fin n m e) :
    mxdot sa as sb bs sat = match decodeFp fp32 (rne32 (.fin n m e)) with
      | .fin n m e => if m = 0 then 0 else rnef fp32 (.fin n m (e + ((sa : Int) - 127 + ((sb : Int) - 127)))) sat
      | x => rnef fp32 x sat := by
  unfold mxdot
  rw [if_neg (by simp; omega), Nat.mod_eq_of_lt (by omega), Nat.mod_eq_of_lt (by omega)]
  simp only [hs] <;> rfl

theorem zipWith_exactOf (as bs : List FVal) : (List.zipWith FVal.mul as bs).map exactOf = List.zipWith Exact.mul (as.map exactOf) (bs.map exactOf) := by
  rw [List.map_zipWith, List.zipWith_map]
  simp only [exactOf_mul]

/-- A zero rounds to a zero. -/
theorem decode_rne32_zero (n : Bool) (e : Int) : decodeFp fp32 (rne32 (.fin n 0 e)) = .fin n 0 (-149) := by
  have h : rne32 (.fin n 0 e) = fp32.signed n 0 := rfl
  rw [h]
  cases n <;> decide

/-- MXDOT on the model's values. -/
theorem mxdot_isMxDot {sa sb : Nat} (ha : sa < 256) (hb : sb < 256) (as bs : List FVal) (sat : Bool) :
    IsMxDot sa (as.map exactOf) sb (bs.map exactOf) sat (BitVec.ofNat 32 (mxdot sa as sb bs sat)) := by
  have hsum : (List.zipWith Exact.mul (as.map exactOf) (bs.map exactOf)).foldl (Exact.add .rn) (.zero true) =
      exactOf (FVal.sum .rn (List.zipWith FVal.mul as bs)) := by rw [exactOf_sum_list, zipWith_exactOf]
  unfold IsMxDot
  simp only [hsum]
  refine ⟨fun h => ?_, fun h h' => ?_⟩
  · have : mxdot sa as sb bs sat = fp32.nanCode := by
      unfold mxdot
      rw [if_pos (by rcases h with rfl | rfl <;> simp)]
    rw [this]; rfl
  · have hm : ¬(sa % 256 = 255 || sb % 256 = 255) = true := by simp; omega
    cases hs : FVal.sum .rn (List.zipWith FVal.mul as bs) with
    | nan s =>
      have : mxdot sa as sb bs sat = fp32.nanCode := by unfold mxdot; rw [if_neg hm]; simp only [hs]
      rw [this]
      exact ⟨fun _ => rfl, fun n hn => (nomatch hn), fun n hn => (nomatch hn), fun n hn => (nomatch hn)⟩
    | inf s =>
      have : mxdot sa as sb bs sat = fp32.signed s fp32.infCode := by unfold mxdot; rw [if_neg hm]; simp only [hs]
      rw [this]
      refine ⟨fun hn => (nomatch hn), fun n hn => ?_, fun n hn => (nomatch hn), fun n hn => (nomatch hn)⟩
      obtain rfl : s = n := by cases hn; rfl
      cases s <;> rfl
    | fin n m e =>
      rw [mxdot_number (by omega) (by omega) as bs sat hs]
      refine ⟨fun hn => ?_, fun k hn => ?_, fun k hn => ?_, fun q hq => ?_⟩
      · cases exactOf_nan.1 hn
      · cases exactOf_inf.1 hn
      · obtain ⟨e', he⟩ := exactOf_zero.1 hn
        cases he
        rw [decode_rne32_zero]; rfl
      · obtain ⟨fl, hr⟩ := rnef_rounds (.fin n m e) false
        refine ⟨rne32 (.fin n m e), fl, hr, rnef_lt _ _, fun k hk => ?_, fun hk => ?_⟩
        · obtain ⟨e', he⟩ := exactOf_zero.1 hk
          rw [he]; rfl
        · cases hd : decodeFp fp32 (rne32 (.fin n m e)) with
          | nan s =>
            simp only
            rw [toNat_ofNat_lt (rnef_lt _ _)]
            exact rnef_rounds (.nan s) sat
          | inf s =>
            simp only
            rw [toNat_ofNat_lt (rnef_lt _ _)]
            exact rnef_rounds (.inf s) sat
          | fin n' m' e' =>
            have hm' : m' ≠ 0 := fun h0 => hk n' (by rw [hd, h0]; rfl)
            simp only [hm', if_false]
            rw [toNat_ofNat_lt (rnef_lt _ _)]
            have := rnef_rounds (.fin n' m' (e' + ((sa : Int) - 127 + ((sb : Int) - 127)))) sat
            rwa [exactOf_scale (.fin n' m' e')] at this

end Sys2Proof.Machine

namespace Sys2Proof.Machine

/-! # Word maps as lists (R301) -/

theorem sparseGet_of_lt {α : Type} (d : α) (m : List (Nat × α)) {k : Nat} (h : ∀ e ∈ m, k < e.1) : sparseGet d m k = d := by
  induction m with
  | nil => rfl
  | cons e m ih =>
    obtain ⟨j, v⟩ := e
    have : k < j := h (j, v) List.mem_cons_self
    rw [sparseGet, if_neg (by omega), ih fun e he => h e (List.mem_cons_of_mem _ he)]

theorem length_denseFrom (n : Nat) : ∀ (k : Nat) (m : WordMap), (denseFrom n k m).length = n := by
  induction n with
  | zero => intros; rfl
  | succ n ih =>
    intro k m
    cases m with
    | nil => simp [denseFrom, ih]
    | cons e m => obtain ⟨j, v⟩ := e; simp only [denseFrom]; split <;> simp [ih]

/-- The list holds what the map holds. -/
theorem getD_denseFrom (n : Nat) : ∀ (k : Nat) (m : WordMap), sparseWf 0 m = true → (∀ e ∈ m, k ≤ e.1) → ∀ i < n,
    (denseFrom n k m).getD i 0 = elemOf m (k + i) := by
  induction n with
  | zero => intro _ _ _ _ i hi; omega
  | succ n ih =>
    intro k m hw hk i hi
    cases m with
    | nil =>
      cases i with
      | zero => rfl
      | succ i => exact (ih (k + 1) [] rfl (by simp) i (by omega)).trans rfl
    | cons e m =>
      obtain ⟨j, v⟩ := e
      obtain ⟨-, hlt, hm⟩ := (sparseWf_cons 0 v j m).1 hw
      have hkj : k ≤ j := hk (j, v) List.mem_cons_self
      simp only [denseFrom]
      by_cases hj : j = k
      · rw [if_pos hj]
        cases i with
        | zero => simp [elemOf, sparseGet, hj]
        | succ i =>
          rw [List.getD_cons_succ, ih (k + 1) m hm (fun e he => by have := hlt e he; omega) i (by omega)]
          simp only [elemOf, sparseGet]
          rw [if_neg (by omega)]
          congr 1
          omega
      · rw [if_neg hj]
        cases i with
        | zero =>
          rw [List.getD_cons_zero]
          refine (sparseGet_of_lt 0 ((j, v) :: m) fun e he => ?_).symm
          rcases List.mem_cons.1 he with rfl | he
          · simp only; omega
          · have := hlt e he; omega
        | succ i =>
          rw [List.getD_cons_succ, ih (k + 1) ((j, v) :: m) hw (fun e he => ?_) i (by omega)]
          · congr 1; omega
          · rcases List.mem_cons.1 he with rfl | he
            · simp only; omega
            · have := hlt e he; omega

@[simp] theorem length_dense (m : WordMap) : (dense m).length = 4096 := length_denseFrom _ _ _

theorem getD_dense {m : WordMap} (hw : sparseWf 0 m = true) {i : Nat} (hi : i < 4096) : (dense m).getD i 0 = elemOf m i :=
  (getD_denseFrom 4096 0 m hw (fun _ _ => Nat.zero_le _) i hi).trans (by rw [Nat.zero_add])

/-- The canonical map of a list, its first word at `k`. -/
def sparseFrom (ws : List Word) (k : Nat) : WordMap := (ws.zipIdx k).filterMap fun x => if x.1 = 0 then none else some (x.2, x.1)

theorem sparseFrom_zero (ws : List Word) : sparseFrom ws 0 = sparseOf ws := rfl

theorem sparseFrom_cons (w : Word) (ws : List Word) (k : Nat) :
    sparseFrom (w :: ws) k = if w = 0 then sparseFrom ws (k + 1) else (k, w) :: sparseFrom ws (k + 1) := by
  unfold sparseFrom
  rw [List.zipIdx_cons, List.filterMap_cons]
  by_cases h : w = 0
  · simp only [h, if_true]
  · simp only [h, if_false]

theorem sparseFrom_spec (ws : List Word) : ∀ k, sparseWf 0 (sparseFrom ws k) = true ∧ (∀ e ∈ sparseFrom ws k, k ≤ e.1) ∧
    ∀ i, elemOf (sparseFrom ws k) (k + i) = ws.getD i 0 := by
  induction ws with
  | nil => exact fun k => ⟨rfl, by simp [sparseFrom], fun i => by simp [sparseFrom, elemOf]⟩
  | cons w ws ih =>
    intro k
    obtain ⟨h1, h2, h3⟩ := ih (k + 1)
    rw [sparseFrom_cons]
    have hlt : ∀ e ∈ sparseFrom ws (k + 1), k < e.1 := fun e he => by have := h2 e he; omega
    have hget : ∀ i, elemOf (sparseFrom ws (k + 1)) (k + (i + 1)) = ws.getD i 0 := fun i => by
      rw [← h3 i]; congr 1; omega
    by_cases hw : w = 0
    · rw [if_pos hw]
      refine ⟨h1, fun e he => (hlt e he).le, fun i => ?_⟩
      cases i with
      | zero => rw [List.getD_cons_zero, hw]; exact sparseGet_of_lt 0 _ hlt
      | succ i => rw [List.getD_cons_succ]; exact hget i
    · rw [if_neg hw]
      refine ⟨(sparseWf_cons 0 w k _).2 ⟨hw, hlt, h1⟩, fun e he => ?_, fun i => ?_⟩
      · rcases List.mem_cons.1 he with rfl | he
        · exact le_refl _
        · exact (hlt e he).le
      · cases i with
        | zero => simp [elemOf, sparseGet]
        | succ i =>
          rw [List.getD_cons_succ, ← hget i]
          simp only [elemOf, sparseGet]
          rw [if_neg (by omega)]

theorem wf_sparseOf (ws : List Word) : sparseWf 0 (sparseOf ws) = true := (sparseFrom_spec ws 0).1

theorem elemOf_sparseOf (ws : List Word) (i : Nat) : elemOf (sparseOf ws) i = ws.getD i 0 := by
  have := (sparseFrom_spec ws 0).2.2 i
  rwa [Nat.zero_add] at this

/-! # Accumulators (R301, R307) -/

theorem addsTo_elAdd (x y : Word) : AddsTo x y (BitVec.ofNat 32 (elAdd fp32 .rn x.toNat y.toNat 0).1) := by
  have hlt : (elAdd fp32 .rn x.toNat y.toNat 0).1 < 2 ^ 32 := fpRound_lt (f := fp32) (by decide) ..
  refine ⟨(roundFp fp32 .rn (FVal.sum .rn [decodeFp fp32 x.toNat, decodeFp fp32 y.toNat]) false).2, ?_⟩
  rw [toNat_ofNat_lt hlt, ← exactOf_sum_pair]
  exact roundFp_rounds (f := fp32) (by decide) .rn false _

/-- Words that go to the elements of a canonical map, one addition each. -/
theorem elemOf_addWords {m : WordMap} (hw : sparseWf 0 m = true) {p : List Word} (hp : p.length = 4096) {e : Nat} (he : e < 4096) :
    AddsTo (elemOf m e) (p.getD e 0) (elemOf (sparseOf (addWords (dense m) p)) e) := by
  have h : (addWords (dense m) p).getD e 0 = BitVec.ofNat 32 (elAdd fp32 .rn ((dense m).getD e 0).toNat (p.getD e 0).toNat 0).1 := by
    unfold addWords
    rw [List.getD_eq_getElem _ _ (by simp [hp, he]), List.getElem_map, List.getElem_zip, List.getD_eq_getElem _ _ (by simp [he]),
      List.getD_eq_getElem _ _ (by simp [hp, he])]
  rw [elemOf_sparseOf, h, getD_dense hw he]
  exact addsTo_elAdd _ _

/-- The accumulator after the first `j` of block products `p`. -/
def Accum.after (acc : Accum) (p : Nat → List Word) (j : Nat) : Accum := (List.range j).foldl (fun x i => x.addBlock (p i)) acc

theorem Accum.after_succ (acc : Accum) (p : Nat → List Word) (j : Nat) : acc.after p (j + 1) = (acc.after p j).addBlock (p j) := by
  unfold Accum.after
  rw [List.range_succ, List.foldl_append]; rfl

/-- A block product goes to the sum whose turn it is; nothing else of the accumulator changes. -/
theorem Accum.addBlock_spec (acc : Accum) (p : List Word) : (acc.addBlock p).elems = acc.elems ∧ (acc.addBlock p).opened = acc.opened ∧
    (acc.addBlock p).n = acc.n + 1 ∧
    (acc.n % 2 = 0 → (acc.addBlock p).even = sparseOf (addWords (dense acc.even) p) ∧ (acc.addBlock p).odd = acc.odd) ∧
    (acc.n % 2 = 1 → (acc.addBlock p).odd = sparseOf (addWords (dense acc.odd) p) ∧ (acc.addBlock p).even = acc.even) := by
  unfold Accum.addBlock
  split
  · next h => exact ⟨rfl, rfl, rfl, fun _ => ⟨rfl, rfl⟩, fun h' => by omega⟩
  · next h => exact ⟨rfl, rfl, rfl, fun h' => absurd h' h, fun _ => ⟨rfl, rfl⟩⟩

theorem Accum.addBlock_canonical {acc : Accum} (h : acc.canonical) (p : List Word) : (acc.addBlock p).canonical := by
  obtain ⟨he, hv, ho⟩ := h
  unfold Accum.addBlock
  split
  · exact ⟨he, wf_sparseOf _, ho⟩
  · exact ⟨he, hv, wf_sparseOf _⟩

theorem Accum.after_spec {acc : Accum} (h : acc.canonical) (p : Nat → List Word) (j : Nat) :
    (acc.after p j).canonical ∧ (acc.after p j).elems = acc.elems ∧ (acc.after p j).opened = acc.opened ∧ (acc.after p j).n = acc.n + j := by
  induction j with
  | zero => exact ⟨h, rfl, rfl, rfl⟩
  | succ j ih =>
    obtain ⟨h1, h2, h3, h4⟩ := ih
    obtain ⟨g1, g2, g3, -⟩ := (acc.after p j).addBlock_spec (p j)
    rw [Accum.after_succ]
    exact ⟨Accum.addBlock_canonical h1 _, g1.trans h2, g2.trans h3, by rw [g3, h4]; omega⟩

/-- Block products go in turn to an element's two sums (R301). -/
theorem Accum.after_sumsUp {acc : Accum} (h : acc.canonical) (p : Nat → List Word) {count : Nat} (hp : ∀ j < count, (p j).length = 4096) {e : Nat}
    (he : e < 4096) : SumsUp acc.n count (fun j => (p j).getD e 0) (elemOf acc.even e) (elemOf acc.odd e)
      (elemOf (acc.after p count).even e) (elemOf (acc.after p count).odd e) := by
  refine ⟨fun j => elemOf (acc.after p j).even e, fun j => elemOf (acc.after p j).odd e, rfl, rfl, rfl, rfl, fun j hj => ?_⟩
  obtain ⟨⟨-, hv, ho⟩, -, -, hn⟩ := Accum.after_spec h p j
  obtain ⟨-, -, -, heven, hodd⟩ := (acc.after p j).addBlock_spec (p j)
  simp only [Accum.after_succ]
  rw [hn] at heven hodd
  refine ⟨fun hm => ?_, fun hm => ?_⟩
  · obtain ⟨h1, h2⟩ := heven hm
    rw [h1, h2]
    exact ⟨elemOf_addWords hv (hp j hj) he, rfl⟩
  · obtain ⟨h1, h2⟩ := hodd hm
    rw [h1, h2]
    exact ⟨elemOf_addWords ho (hp j hj) he, rfl⟩

/-- mche: one rounding of acc + E + O (R301). -/
theorem Accum.fold_rounds {acc : Accum} (h : acc.canonical) {e : Nat} (he : e < 4096) : ∃ fl, Rounds fp32 .rn false
    (((exactOf (wordVal (elemOf acc.elems e))).add .rn (exactOf (wordVal (elemOf acc.even e)))).add .rn
      (exactOf (wordVal (elemOf acc.odd e)))) (elemOf acc.fold.elems e).toNat fl := by
  obtain ⟨h1, h2, h3⟩ := h
  have hval : elemOf acc.fold.elems e = BitVec.ofNat 32 (rne32 (FVal.sum .rn [wordVal (elemOf acc.elems e), wordVal (elemOf acc.even e),
      wordVal (elemOf acc.odd e)])) := by
    rw [← getD_dense h1 he, ← getD_dense h2 he, ← getD_dense h3 he]
    unfold Accum.fold
    simp only
    rw [elemOf_sparseOf, List.getD_eq_getElem _ _ (by simp [he]), List.getElem_map, List.getElem_zip, List.getElem_zip,
      List.getD_eq_getElem _ _ (by simp [he]), List.getD_eq_getElem _ _ (by simp [he]), List.getD_eq_getElem _ _ (by simp [he])]
  rw [hval, toNat_ofNat_lt (rne32_lt _), ← exactOf_sum_triple]
  exact rne32_rounds _

end Sys2Proof.Machine

namespace Sys2Proof.Machine

/-! # The lines of a tile (R299-R301) -/

theorem opClass_sizes {fmt : Nat} {curved : Bool} {cl : OpClass} (h : opClass fmt curved = some cl) :
    cl = ⟨16, 16⟩ ∨ cl = ⟨32, 32⟩ ∨ cl = ⟨64, 32⟩ := by
  unfold opClass at h
  split_ifs at h <;> simp at h <;> simp [← h]

/-- The code and the scale of element `e` of line `r`. -/
def OpTile.cell (t : OpTile) (r e : Nat) : Nat × Nat := (((t.codes.getD r []).getD e 0).toNat, ((t.scales.getD r []).getD e 0).toNat)

/-- The value and the scale the engine gives an element. -/
def OpTile.element (t : OpTile) (r e : Nat) : FVal × Nat :=
  if r ∈ t.zeros then (decodeFp fp32 0, 0x7F)
  else if t.curved then (opValue t.fmt true t.curve (t.cell r e).1 (t.cell r e).2, 0x7F)
  else (decodeFp (fmtFloat t.fmt) (t.cell r e).1, (t.cell r e).2)

theorem exactOf_mxval {s : Nat} (h : s < 256) (x : FVal) : exactOf (mxval s x) = if s = 0xFF then .nan else (exactOf x).scale ((s : ℤ) - 127) := by
  unfold mxval
  rw [Nat.mod_eq_of_lt h]
  by_cases hs : s = 255
  · rw [if_pos hs, if_pos hs]; rfl
  · rw [if_neg hs, if_neg hs, ← exactOf_scale]
    cases x <;> rfl

/-- Those are the value and the scale the rules name. -/
theorem OpTile.holds_element {t : OpTile} (hc : ∀ c, t.curve = some c → c.Sound) (r e : Nat) :
    t.Holds r e (exactOf (t.element r e).1) (t.element r e).2 := by
  refine ⟨fun hr => ?_, fun hr => ?_⟩
  · unfold OpTile.element
    rw [if_pos hr]
    exact ⟨rfl, rfl⟩
  · unfold OpTile.element
    rw [if_neg hr]
    refine ⟨fun h => ?_, fun h => ?_⟩
    · rw [h]; exact ⟨rfl, rfl⟩
    · rw [if_pos h]
      obtain ⟨fl, hround⟩ := rne32_rounds (mxval (t.cell r e).2 (decodeFp (fmtFloat t.fmt) (t.cell r e).1))
      rw [exactOf_mxval (BitVec.isLt _)] at hround
      exact ⟨rfl, _, fl, curveInv t.curve (rne32 (mxval (t.cell r e).2 (decodeFp (fmtFloat t.fmt) (t.cell r e).1))), hround, rne32_lt _,
        curveInv_inverse hc _, rfl⟩

theorem OpTile.element_scale_lt (t : OpTile) (r e : Nat) : (t.element r e).2 < 256 := by
  unfold OpTile.element
  split
  · decide
  · split
    · exact (by decide : 0x7F < 256)
    · exact BitVec.isLt _

section

variable {t : OpTile} {cl : OpClass} (ht : t.Whole cl)
include ht

/-- A line as the engine reads it: each element's code and scale. -/
theorem OpTile.Whole.cells {r : Nat} (hr : r < 64) :
    ((t.codes.getD r []).zip (t.scales.getD r [])).map (fun y => (y.1.toNat, y.2.toNat)) = (List.range cl.k).map (t.cell r) := by
  obtain ⟨-, hcl, hsl, hrow, hsrow, -⟩ := ht
  have h1 : (t.codes.getD r []).length = cl.k := hrow _ (by rw [List.getD_eq_getElem _ _ (by omega)]; exact List.getElem_mem _)
  have h2 : (t.scales.getD r []).length = cl.k := hsrow _ (by rw [List.getD_eq_getElem _ _ (by omega)]; exact List.getElem_mem _)
  unfold OpTile.cell
  generalize t.codes.getD r [] = cs at h1 ⊢
  generalize t.scales.getD r [] = ss at h2 ⊢
  refine List.ext_getElem (by simp [h1, h2]) fun e he he' => ?_
  have hek : e < cl.k := by simpa using he'
  simp [h1, h2, hek]

omit ht in
/-- Block `n` of a line of `k` elements. -/
theorem getD_opBlocks (fmt : Nat) (curved : Bool) (cv : Option Curve) {k l n : Nat} (g : Nat → Nat × Nat) (hl : 0 < l) (hn : n < k / l) :
    ((opBlocks fmt curved cv l ((List.range k).map g)).length = (k + l - 1) / l) ∧
    (opBlocks fmt curved cv l ((List.range k).map g)).getD n (0x7F, []) =
      if curved then (0x7F, (List.range l).map fun i => opValue fmt true cv (g (l * n + i)).1 (g (l * n + i)).2)
      else ((g (l * n)).2, (List.range l).map fun i => decodeFp (fmtFloat fmt) (g (l * n + i)).1) := by
  have hlen : (opBlocks fmt curved cv l ((List.range k).map g)).length = (k + l - 1) / l := by simp [opBlocks]
  have hnl : l * n + l ≤ k := by
    have := Nat.div_mul_le_self k l
    calc l * n + l = (n + 1) * l := by ring
      _ ≤ k / l * l := Nat.mul_le_mul_right l hn
      _ ≤ k := this
  have hn' : n < (k + l - 1) / l := lt_of_lt_of_le hn (Nat.div_le_div_right (by omega))
  have hpart : (((List.range k).map g).drop (l * n)).take l = (List.range l).map fun i => g (l * n + i) := by
    refine List.ext_getElem (by simp; omega) fun i hi hi' => ?_
    simp
  refine ⟨hlen, ?_⟩
  rw [List.getD_eq_getElem _ _ (by omega)]
  simp only [opBlocks, List.getElem_map, List.getElem_range, List.length_map, List.length_range, hpart]
  cases curved with
  | true => simp [Function.comp_def]
  | false =>
    obtain ⟨l, rfl⟩ : ∃ j, l = j + 1 := ⟨l - 1, by omega⟩
    simp [List.range_succ_eq_map, Function.comp_def]

/-- The blocks of a line. -/
theorem OpTile.Whole.line {r n : Nat} (hr : r < 64) (hn : n < cl.k / cl.l) :
    (t.lines.getD r []).length = cl.k / cl.l ∧
    (t.lines.getD r []).getD n (0x7F, []) = ((t.element r (cl.l * n)).2, (List.range cl.l).map fun i => (t.element r (cl.l * n + i)).1) := by
  have hcells := ht.cells hr
  obtain ⟨hcls, hcl, hsl, -, -, -⟩ := ht
  have hsize := opClass_sizes hcls
  have hpos : 0 < cl.l := by rcases hsize with h | h | h <;> rw [h] <;> decide
  have hdiv : (cl.k + cl.l - 1) / cl.l = cl.k / cl.l := by rcases hsize with h | h | h <;> rw [h] <;> rfl
  have hline : t.lines.getD r [] =
      if r ∈ t.zeros then (opBlocks t.fmt false none cl.l ((List.range cl.k).map (t.cell r))).map fun b => (0x7F, b.2.map fun _ => decodeFp fp32 0)
      else opBlocks t.fmt t.curved t.curve cl.l ((List.range cl.k).map (t.cell r)) := by
    rw [List.getD_eq_getElem _ _ (by simp [OpTile.lines, hcl, hsl, hr])]
    simp only [OpTile.lines, hcls, Option.map_some, Option.getD_some, List.getElem_map, List.getElem_zipIdx, List.getElem_zip, Nat.zero_add,
      List.contains_eq_mem, decide_eq_true_eq, ← hcells, List.getD_eq_getElem t.codes [] (by omega : r < t.codes.length),
      List.getD_eq_getElem t.scales [] (by omega : r < t.scales.length)]
  by_cases hz : r ∈ t.zeros
  · obtain ⟨h1, h2⟩ := getD_opBlocks t.fmt false none (t.cell r) hpos hn
    rw [if_pos hz] at hline
    refine ⟨by rw [hline, List.length_map, h1, hdiv], ?_⟩
    have he : ∀ e, t.element r e = (decodeFp fp32 0, 0x7F) := fun e => if_pos hz
    rw [List.getD_eq_getElem _ _ (by rw [h1, hdiv]; exact hn)] at h2
    rw [hline, List.getD_eq_getElem _ _ (by rw [List.length_map, h1, hdiv]; exact hn), List.getElem_map, h2]
    simp [he, Function.comp_def]
  · obtain ⟨h1, h2⟩ := getD_opBlocks t.fmt t.curved t.curve (t.cell r) hpos hn
    rw [if_neg hz] at hline
    refine ⟨by rw [hline, h1, hdiv], ?_⟩
    rw [hline, h2]
    cases hc : t.curved <;> simp [OpTile.element, hz, hc]

theorem OpTile.Whole.length_lines : t.lines.length = 64 := by
  obtain ⟨-, hcl, hsl, -⟩ := ht
  simp [OpTile.lines, hcl, hsl]

theorem OpTile.Whole.scale_curve : ∀ c, t.curve = some c → c.Sound := ht.2.2.2.2.2

end

/-! # One k-step (R301) -/

theorem getD_flatMap_map {α β γ : Type} (f : α → β → γ) (bs : List β) (d : γ) (da : α) (db : β) : ∀ (as : List α) {r c : Nat}, r < as.length → c < bs.length →
    (as.flatMap fun x => bs.map fun y => f x y).getD (bs.length * r + c) d = f (as.getD r da) (bs.getD c db)
  | [], r, c, hr, _ => absurd hr (by simp)
  | a :: as, r, c, hr, hc => by
    rw [List.flatMap_cons]
    cases r with
    | zero =>
      rw [Nat.mul_zero, Nat.zero_add, List.getD_append _ _ _ _ (by simpa using hc), List.getD_eq_getElem _ _ (by simpa using hc), List.getElem_map,
        List.getD_cons_zero, List.getD_eq_getElem _ _ hc]
    | succ r =>
      rw [List.getD_append_right _ _ _ _ (by rw [List.length_map, Nat.mul_succ]; omega), List.getD_cons_succ]
      have := getD_flatMap_map f bs d da db as (r := r) (c := c) (by simpa using hr) hc
      rw [← this]
      congr 1
      rw [List.length_map, Nat.mul_succ]
      omega

/-- Block products of tiles `a` and `b`, block `n`. -/
def stepProducts (a b : OpTile) (n : Nat) : List Word :=
  blockProducts (a.sat || b.sat) (a.lines.map fun r => r.getD n (0x7F, [])) (b.lines.map fun r => r.getD n (0x7F, []))

theorem kStep_eq {a b : OpTile} {cl : OpClass} (ha : a.Whole cl) (acc : Accum) : acc.kStep a b = acc.after (stepProducts a b) (cl.k / cl.l) := by
  have hlen : (a.lines.headD []).length = cl.k / cl.l := by
    have hpos : 0 < cl.k / cl.l := by rcases opClass_sizes ha.1 with h | h | h <;> rw [h] <;> decide
    have := (ha.line (r := 0) (by decide) hpos).1
    rwa [List.headD_eq_head?_getD, List.head?_eq_getElem?, ← List.getD_eq_getElem?_getD]
  unfold Accum.kStep Accum.after
  simp only [hlen]
  rfl

/-- A k-step on canonical sums is the one R301 describes. -/
theorem kStep_kStep {a b : OpTile} {cl : OpClass} (ha : a.Whole cl) (hb : b.Whole cl) {acc : Accum} (hacc : acc.canonical) :
    KStep cl a b acc (acc.kStep a b) := by
  rw [kStep_eq ha]
  obtain ⟨-, h2, h3, h4⟩ := Accum.after_spec hacc (stepProducts a b) (cl.k / cl.l)
  have hlenA := ha.length_lines
  have hlenB := hb.length_lines
  have hget : ∀ n, ∀ r < 64, ∀ c < 64, (stepProducts a b n).getD (64 * r + c) 0 =
      BitVec.ofNat 32 (mxdot ((a.lines.getD r []).getD n (0x7F, [])).1 ((a.lines.getD r []).getD n (0x7F, [])).2
        ((b.lines.getD c []).getD n (0x7F, [])).1 ((b.lines.getD c []).getD n (0x7F, [])).2 (a.sat || b.sat)) := fun n r hr c hc => by
    have := getD_flatMap_map (fun x y : Nat × List FVal => BitVec.ofNat 32 (mxdot x.1 x.2 y.1 y.2 (a.sat || b.sat)))
      (b.lines.map fun r => r.getD n (0x7F, [])) 0 (0x7F, []) (0x7F, []) (a.lines.map fun r => r.getD n (0x7F, [])) (r := r) (c := c)
      (by simpa [hlenA] using hr) (by simpa [hlenB] using hc)
    rw [List.length_map, hlenB] at this
    refine this.trans ?_
    simp only [List.getD_eq_getElem?_getD, List.getElem?_map, List.getElem?_eq_getElem (by omega : r < a.lines.length),
      List.getElem?_eq_getElem (by omega : c < b.lines.length), Option.map_some, Option.getD_some]
  have hlen : ∀ n, (stepProducts a b n).length = 4096 := fun n => by
    simp [stepProducts, blockProducts, hlenA, hlenB, Function.comp_def]
  refine ⟨h2, h3, h4, fun r hr c hc => ⟨fun n => (stepProducts a b n).getD (64 * r + c) 0,
    Accum.after_sumsUp hacc _ (fun n _ => hlen n) (by omega), fun n hn => ?_⟩⟩
  refine ⟨fun i => exactOf (a.element r (cl.l * n + i)).1, fun i => exactOf (b.element c (cl.l * n + i)).1,
    fun i => (a.element r (cl.l * n + i)).2, fun i => (b.element c (cl.l * n + i)).2,
    fun i _ => ⟨OpTile.holds_element ha.scale_curve _ _, OpTile.holds_element hb.scale_curve _ _⟩, ?_⟩
  have := mxdot_isMxDot (a.element_scale_lt r (cl.l * n)) (b.element_scale_lt c (cl.l * n))
    ((List.range cl.l).map fun i => (a.element r (cl.l * n + i)).1) ((List.range cl.l).map fun i => (b.element c (cl.l * n + i)).1) (a.sat || b.sat)
  simp only [hget n r hr c hc, (ha.line hr hn).2, (hb.line hc hn).2]
  simpa only [List.map_map, Function.comp_def, Nat.add_zero] using this

end Sys2Proof.Machine

namespace Sys2Proof.Machine

/-! # What the matrix engine keeps of the blocks (R296) -/

/-- States with the same blocks and shares whose engines have the same commands in their queues. -/
structure QueuesKept (s t : State) : Prop where
  blocks : t.blocks.length = s.blocks.length
  shares : ∀ b, (t.block b).shares.length = (s.block b).shares.length
  queue : ∀ b p, ((t.block b).share p).engine.queue = ((s.block b).share p).engine.queue

theorem block_updShare (s : State) (b p b' : Nat) (f : Share → Share) :
    (s.updShare b p f).block b' = if b = b' ∧ b' < s.blocks.length then { s.block b' with shares := updAt (s.block b').shares p f } else s.block b' :=
  getD_updAt _ _ _ _ _

theorem share_updShare (s : State) (b p b' p' : Nat) (f : Share → Share) :
    ((s.updShare b p f).block b').share p' =
      if (b = b' ∧ b' < s.blocks.length) ∧ p = p' ∧ p' < (s.block b').shares.length then f ((s.block b').share p') else (s.block b').share p' := by
  rw [block_updShare]
  by_cases h : b = b' ∧ b' < s.blocks.length
  · rw [if_pos h]
    simp only [Block.share, getD_updAt, h, true_and]
  · rw [if_neg h, if_neg fun k => h k.1]

section
variable {s t u : State}

theorem QueuesKept.of_blocks (h : t.blocks = s.blocks) : QueuesKept s t := by
  have hb : ∀ b, t.block b = s.block b := fun b => by unfold State.block; rw [h]
  exact ⟨by rw [h], fun b => by rw [hb], fun b p => by rw [hb]⟩

theorem QueuesKept.refl (s : State) : QueuesKept s s := .of_blocks rfl

theorem QueuesKept.trans (h : QueuesKept s t) (k : QueuesKept t u) : QueuesKept s u :=
  ⟨k.blocks.trans h.blocks, fun b => (k.shares b).trans (h.shares b), fun b p => (k.queue b p).trans (h.queue b p)⟩

theorem QueuesKept.foldl {β : Type} {f : State → β → State} {xs : List β} (h : ∀ t x, QueuesKept t (f t x)) : QueuesKept s (xs.foldl f s) := by
  induction xs generalizing s with
  | nil => exact .refl s
  | cons x xs ih => exact (h s x).trans ih

theorem QueuesKept.foldl_fst {α β : Type} {f : State × α → β → State × α} (h : ∀ acc x, QueuesKept acc.1 (f acc x).1) (xs : List β) :
    ∀ acc : State × α, QueuesKept acc.1 (xs.foldl f acc).1 := by
  induction xs with
  | nil => exact fun acc => .refl acc.1
  | cons x xs ih => exact fun acc => (h acc x).trans (ih (f acc x))

theorem QueuesKept.updShare (b p : Nat) {f : Share → Share} (hf : ∀ sh, (f sh).engine.queue = sh.engine.queue) : QueuesKept s (s.updShare b p f) where
  blocks := updAt_length _ _ _
  shares b' := by rw [block_updShare]; split <;> simp
  queue b' p' := by rw [share_updShare]; split <;> simp [hf]

theorem State.SlicesOnly.queuesKept (h : s.SlicesOnly t) : QueuesKept s t := .of_blocks (by rw [h.eq])

theorem queuesKept_updShareMem (b p : Nat) (f : Memory → Memory) : QueuesKept s (s.updShareMem b p f) := by
  unfold State.updShareMem
  split
  · exact .updShare _ _ fun _ => rfl
  · exact .of_blocks rfl

theorem queuesKept_updEngine (a : Agent) {f : Engine → Engine} (hf : ∀ e, (f e).queue = e.queue) : QueuesKept s (s.updEngine a f) :=
  .updShare _ _ fun _ => hf _

theorem queuesKept_updAcc (a : Agent) (x : Nat) (f : Accum → Accum) : QueuesKept s (s.updAcc a x f) := queuesKept_updEngine _ fun _ => rfl

theorem queuesKept_meetErrors (a : ArrayId) (loc : Nat) (ctx : Option Nat) (drops : Nat) {lose : State → State} (hl : ∀ t, QueuesKept t (lose t)) :
    QueuesKept s (s.meetErrors a loc ctx drops lose) := by
  have h0 : QueuesKept s { s with latent := s.latent.filter fun l => !(l.arr = a && l.loc = loc) } := .of_blocks rfl
  have h1 (hits : List Latent) := h0.trans (.foldl (f := fun t l => if !l.double then t.logCorrected a loc ctx l.injected
      else (List.range drops).foldl (fun u _ => u.logDropped a loc ctx l.injected) t) (fun t l => by
    split
    · exact (logCorrected_slices _ _ _ _ _).queuesKept
    · exact .foldl fun u _ => (logDropped_slices _ _ _ _ _).queuesKept) (xs := hits))
  unfold State.meetErrors
  simp only
  split
  · exact .refl s
  · split
    · exact (h1 _).trans (hl _)
    · exact h1 _

/-! ## Tile memory and translated reads -/

theorem queuesKept_meetTile (ctx : Option Nat) (b p off n : Nat) : QueuesKept s (s.meetTile ctx b p off n) := by
  unfold State.meetTile
  split
  · exact .refl s
  · exact .foldl fun t o => queuesKept_meetErrors _ _ _ _ fun u => queuesKept_updShareMem _ _ _

theorem queuesKept_planeWrite (e : EngineAt) (off : Nat) (bs : List Byte) : QueuesKept s (s.planeWrite e off bs) := by
  have hmeet (b p n : Nat) : QueuesKept s (s.meetTileWrite b p off n) := by
    unfold State.meetTileWrite
    split
    · exact .refl s
    · refine .foldl fun t o => ?_
      split
      · exact .of_blocks rfl
      · exact queuesKept_meetTile _ _ _ _ _
  have hfire (t : State) (core base n : Nat) : QueuesKept t (t.fireTile core base off n) := by
    unfold State.fireTile
    split
    · exact .refl t
    · exact .foldl fun t o => (fireInjection_only _ _ _ _).slices.queuesKept
  exact ((hmeet _ _ _).trans (queuesKept_updShareMem _ _ _)).trans (hfire _ _ _ _)

theorem queuesKept_meetWalk (ctx va : Nat) : ∀ (lv t : Nat) (s : State), QueuesKept s (s.meetWalk ctx va lv t)
  | 0, _, _ => (meetPa_slices _ _ _ _).queuesKept
  | n + 1, t, s => by
    have h : QueuesKept s (s.meetPa (some ctx) (t + 8 * walkIndex va (n + 1)) 8) := (meetPa_slices _ _ _ _).queuesKept
    unfold State.meetWalk
    simp only
    split
    · exact h.trans (queuesKept_meetWalk ctx va n _ _)
    · exact h

theorem queuesKept_walked (ctx : Nat) (ps : List Piece) : QueuesKept s (s.walked ctx ps) := by
  unfold State.walked
  split
  · exact .refl s
  · refine .foldl fun t p => ?_
    split
    · exact .refl t
    · exact queuesKept_meetWalk _ _ _ _ _

theorem queuesKept_dropRemote (ctx pa : Nat) : QueuesKept s (s.dropRemote ctx pa) :=
  (QueuesKept.of_blocks rfl : QueuesKept s (s.updCtx ctx fun c => { c with dropcnt := satInc c.dropcnt })).trans
    (postEvent_slices _ _ _ _ _ _).queuesKept

theorem queuesKept_readPiece (ctx : Nat) (p : Piece) : QueuesKept s (s.readPiece ctx p).1 := by
  unfold State.readPiece
  split
  · exact (QueuesKept.of_blocks rfl : QueuesKept s s.draw.2).trans (.foldl fun t _ => queuesKept_dropRemote _ _)
  · exact (meetPa_slices _ _ _ _).queuesKept

theorem queuesKept_openMerge (sec : Nat) : QueuesKept s (s.openMerge sec) := by
  unfold State.openMerge
  split
  · exact .refl s
  · exact .of_blocks rfl

theorem queuesKept_readMerged (ctx : Nat) (ps : List Piece) : QueuesKept s (s.readMerged ctx ps).1 :=
  QueuesKept.trans (t := ps.foldl (fun t p => t.openMerges p.pa p.len) s) (.foldl fun _ _ => .foldl fun _ _ => queuesKept_openMerge _)
    (.foldl_fst (f := fun acc p => ((acc.1.readPiece ctx p).1, acc.2 ++ (acc.1.readPiece ctx p).2)) (fun _ p => queuesKept_readPiece ctx p) ps
      (ps.foldl (fun t p => t.openMerges p.pa p.len) s, []))

theorem queuesKept_sideRead {e : EngineAt} {m : Manifest} {acc : Access} {addr n : Nat} {r : State × List Byte}
    (h : s.sideRead e m acc addr n = .ok r) : QueuesKept s r.1 := by
  unfold State.sideRead at h
  split at h
  · cases h; exact queuesKept_meetTile _ _ _ _ _
  · cases ha : s.access e.ctx e.core acc (addr % 2 ^ 64) n with
    | error f => rw [ha] at h; cases h
    | ok ps => rw [ha] at h; cases h; exact (queuesKept_walked _ _).trans (queuesKept_readMerged _ _)

theorem queuesKept_readCodes {e : EngineAt} {m : Manifest} {i0 i1 i2 i3 n : Nat} {r : State × List (Nat × Nat)}
    (h : s.readCodes e m i0 i1 i2 i3 n = .ok r) : QueuesKept s r.1 := by
  unfold State.readCodes at h
  simp only at h
  split at h
  · cases h
  · next s1 bs h1 =>
    split at h
    · cases h
    · next s2 ss h2 =>
      cases h
      refine (queuesKept_sideRead h1).trans ?_
      split at h2
      · exact queuesKept_sideRead h2
      · cases h2; exact .refl s1

/-! ## Operands and commands -/

theorem queuesKept_readLines (e : EngineAt) (m : Manifest) (k0 k : Nat) (rows : List (Option Nat)) : QueuesKept s (s.readLines e m k0 k rows).1 := by
  refine .foldl_fst (fun acc r => ?_) rows (s, [])
  split
  · exact .refl _
  · split
    · next h => exact queuesKept_readCodes h
    · exact .refl _

theorem queuesKept_loadColumns (ctx : Nat) (m : Manifest) (k0 k : Nat) : ∀ (n : Nat) (pages : List (List (Nat × Nat))) (s : State),
    QueuesKept s (s.loadColumns ctx m k0 k pages n).1
  | 0, pages, s => by cases pages <;> exact .refl s
  | n + 1, [], s => .refl s
  | n + 1, codes :: rest, s => by
    have h1 : QueuesKept s (s.readPages ctx codes).1 := queuesKept_readMerged _ _
    unfold State.loadColumns
    simp only
    split
    · split
      · next sc rest' =>
        have h2 : QueuesKept (s.readPages ctx codes).1 ((s.readPages ctx codes).1.readPages ctx sc).1 := queuesKept_readMerged _ _
        exact (h1.trans h2).trans (queuesKept_loadColumns ctx m k0 k n rest' _)
      · exact h1
    · exact h1.trans (queuesKept_loadColumns ctx m k0 k n rest _)

theorem queuesKept_bTile (a : Agent) (e : EngineAt) (c : MatCmd) : QueuesKept s (s.bTile a e c).1 := by
  have hmeet (t : State) (slot : Nat) (wide : Bool) : QueuesKept t (t.meetSlots a slot wide) := by
    unfold State.meetSlots
    simp only
    split
    · exact .refl t
    · exact .foldl fun _ _ => .foldl fun _ _ => queuesKept_meetErrors _ _ _ _ fun _ => queuesKept_updEngine _ fun _ => rfl
  have hfire (t : State) (slot : Nat) (wide : Bool) : QueuesKept t (t.fireSlots a slot wide) := by
    have h0 (l : List Latent) : QueuesKept t { t with latent := l } := .of_blocks rfl
    unfold State.fireSlots
    simp only
    split
    · exact h0 _
    · exact (h0 _).trans (.foldl fun _ _ => .foldl fun _ _ => (fireInjection_only _ _ _ _).slices.queuesKept)
  have hread : QueuesKept s (s.readB e c).1 := by
    unfold State.readB
    simp only
    split
    · exact queuesKept_readLines _ _ _ _ _
    · exact queuesKept_loadColumns _ _ _ _ _ _ _
  unfold State.bTile
  simp only
  refine QueuesKept.trans ?_ (hmeet _ _ _)
  split
  · refine (hread.trans ?_).trans (hfire _ _ _)
    exact queuesKept_updEngine _ fun _ => rfl
  · exact .refl s

theorem queuesKept_drainAll (e : EngineAt) (c : MatCmd) (vs : List FVal) : QueuesKept s (s.drainAll e c vs) := by
  refine .foldl fun t x => ?_
  unfold State.drainRow
  simp only
  split
  · refine .foldl fun u b => ?_
    refine QueuesKept.trans ?_ (queuesKept_planeWrite _ _ _)
    split
    · exact queuesKept_planeWrite _ _ _
    · exact .refl u
  · exact queuesKept_planeWrite _ _ _

theorem queuesKept_runCommand (i : Nat) (c : MatCmd) : QueuesKept s (s.runCommand i c) := by
  have hclear (t : State) : QueuesKept t (if matZro c.x = true then
      (matAccs (MatOp.ofCode c.op) c.x).foldl (fun u k => u.updAcc (s.agent i) k fun r => { r with elems := [] }) t else t) := by
    split
    · exact .foldl fun _ _ => queuesKept_updAcc _ _ _
    · exact .refl t
  have hstep (t : State) (e : EngineAt) (org : DWord) (x : Nat) (f : OpTile → Accum → Accum) :
      QueuesKept t ((t.readA e c org).1.updAcc (s.agent i) x (f (t.readA e c org).2)) :=
    (queuesKept_readLines _ _ _ _ _).trans (queuesKept_updAcc _ _ _)
  have hb : QueuesKept s (s.bTile (s.agent i) (s.shareFor (s.agent i) false) c).1 := queuesKept_bTile _ _ _
  unfold State.runCommand
  simp only
  split
  · exact .foldl fun _ _ => queuesKept_updAcc _ _ _
  · exact .foldl fun _ _ => queuesKept_updAcc _ _ _
  · exact .foldl fun _ _ => queuesKept_updAcc _ _ _
  · refine hb.trans (QueuesKept.trans ?_ (queuesKept_updAcc _ _ _))
    split
    · exact .refl _
    · exact queuesKept_readLines _ _ _ _ _
  · refine QueuesKept.trans ?_ (queuesKept_updEngine _ ?_)
    · exact queuesKept_readLines _ _ _ _ _
    · exact fun _ => rfl
  · split
    · split
      · exact hb.trans ((hstep _ _ _ _ fun ta r => r.kStep ta _).trans (hstep _ _ _ _ fun ta r => r.kStep ta _))
      · exact hb.trans (hstep _ _ _ _ fun ta r => r.kStep ta _)
    · split
      · exact hb.trans (hstep _ _ _ _ fun ta r => r.kStep ta _)
      · exact hb
  · exact (queuesKept_drainAll _ _ _).trans (hclear _)
  · exact (queuesKept_drainAll _ _ _).trans (hclear _)

end

end Sys2Proof.Machine

namespace Sys2Proof.Machine

/-! # The engine of an agent (R293, R296) -/

section
variable {s : State} {a : Agent}

/-- The agent's share exists. -/
def State.hasEngine (s : State) (a : Agent) : Prop := a.block < s.blocks.length ∧ a.pos < (s.block a.block).shares.length

theorem QueuesKept.hasEngine {t : State} (h : QueuesKept s t) (hs : s.hasEngine a) : t.hasEngine a := by
  unfold State.hasEngine
  rw [h.blocks, h.shares]
  exact hs

theorem engineOf_updEngine (h : s.hasEngine a) (f : Engine → Engine) : (s.updEngine a f).engineOf a = f (s.engineOf a) := by
  unfold State.engineOf State.updEngine
  rw [share_updShare, if_pos ⟨⟨rfl, h.1⟩, rfl, h.2⟩]

theorem updEngine_updEngine (f g : Engine → Engine) : (s.updEngine a f).updEngine a g = s.updEngine a (g ∘ f) := by
  unfold State.updEngine State.updShare State.updBlock
  simp only [updAt_updAt, Function.comp_def]

theorem updEngine_id {f : Engine → Engine} (hf : ∀ e, f e = e) : s.updEngine a f = s := by
  have h1 : (fun sh : Share => { sh with engine := f sh.engine }) = id := by funext sh; rw [hf]; rfl
  have h2 : (fun k : Block => { k with shares := updAt k.shares a.pos id }) = id := by
    funext k
    rw [updAt_id k.shares a.pos id {} rfl]; rfl
  unfold State.updEngine State.updShare State.updBlock
  rw [h1, h2, updAt_id s.blocks a.block id {} rfl]

/-- Changes of accumulators one after another are one change of the engine. -/
theorem foldl_updAcc (f : Accum → Accum) (ks : List Nat) :
    ks.foldl (fun t k => t.updAcc a k f) s = s.updEngine a fun e => { e with acc := ks.foldl (fun l k => updAt l k f) e.acc } := by
  induction ks generalizing s with
  | nil => exact (updEngine_id fun _ => rfl).symm
  | cons k ks ih =>
    rw [List.foldl_cons, ih]
    exact updEngine_updEngine _ _

theorem getD_foldl_updAt {α : Type} (f : α → α) (d : α) (ks : List Nat) (hn : ks.Nodup) (l : List α) {k : Nat} (hk : k < l.length) :
    (ks.foldl (fun l k => updAt l k f) l).getD k d = if k ∈ ks then f (l.getD k d) else l.getD k d := by
  induction ks generalizing l with
  | nil => simp
  | cons j ks ih =>
    obtain ⟨hj, hn⟩ := List.nodup_cons.1 hn
    rw [List.foldl_cons, ih hn _ (by simpa using hk), getD_updAt]
    by_cases h : j = k
    · subst h; simp [hj, hk]
    · simp [h, Ne.symm h]

/-! # A command leaves its queue (R296) -/

variable {i : Nat} {c : MatCmd}

theorem agent_runCommand (s : State) (i : Nat) (c : MatCmd) (j : Nat) : (s.runCommand i c).agent j = s.agent j :=
  (keeps_runCommand (P := fun _ => False) i c).others j id

/-- The state after the oldest command. -/
def State.afterCommand (s : State) (i : Nat) (c : MatCmd) (rest : List MatCmd) : State :=
  (s.runCommand i c).updEngine (s.agent i) fun e => { e with queue := rest }

variable {rest : List MatCmd}

theorem exec_matrixCommandComplete (hq : (s.engineOf (s.agent i)).queue = c :: rest) :
    exec (.matrixCommandComplete i) s = .next (s.afterCommand i c rest) := by
  have : s.nextCommand i = s.afterCommand i c rest := by
    unfold State.nextCommand
    simp only [hq]
    rfl
  rw [← this]
  rfl

theorem agent_afterCommand (s : State) (c : MatCmd) (rest : List MatCmd) : (s.afterCommand i c rest).agent i = s.agent i :=
  agent_runCommand s i c i

theorem engineOf_afterCommand (hs : s.hasEngine (s.agent i)) (c : MatCmd) (rest : List MatCmd) :
    (s.afterCommand i c rest).engineOf ((s.afterCommand i c rest).agent i) = { (s.runCommand i c).engineOf (s.agent i) with queue := rest } := by
  rw [agent_afterCommand]
  exact engineOf_updEngine ((queuesKept_runCommand i c).hasEngine hs) _

theorem acc_afterCommand (hs : s.hasEngine (s.agent i)) (c : MatCmd) (rest : List MatCmd) (k : Nat) :
    (s.afterCommand i c rest).acc i k = ((s.runCommand i c).engineOf (s.agent i)).acc.getD k {} := by
  unfold State.acc
  rw [engineOf_afterCommand hs]

/-- Accumulators that a command changes all alike. -/
theorem acc_of_foldl (hs : s.hasEngine (s.agent i)) (hlen : (s.engineOf (s.agent i)).acc.length = 8) {ks : List Nat} (hn : ks.Nodup) {f : Accum → Accum}
    (hr : s.runCommand i c = ks.foldl (fun t k => t.updAcc (s.agent i) k f) s) {k : Nat} (hk : k < 8) :
    (s.afterCommand i c rest).acc i k = if k ∈ ks then f (s.acc i k) else s.acc i k := by
  rw [acc_afterCommand hs, hr, foldl_updAcc, engineOf_updEngine hs]
  exact getD_foldl_updAt f {} ks hn _ (by omega)

/-! # The commands of a mask (R307) -/

/-- mzro, mchb and mche change the accumulators of their mask, each alike. -/
theorem acc_masked (hs : s.hasEngine (s.agent i)) (hlen : (s.engineOf (s.agent i)).acc.length = 8) {f : Accum → Accum}
    (hr : s.runCommand i c = ((List.range 8).filter fun k => (matAmsk c.x).testBit k).foldl (fun t k => t.updAcc (s.agent i) k f) s)
    {k : Nat} (hk : k < 8) : (s.afterCommand i c rest).acc i k = if (matAmsk c.x).testBit k then f (s.acc i k) else s.acc i k := by
  rw [acc_of_foldl hs hlen (List.nodup_range.filter _) hr hk]
  simp [hk]

theorem runCommand_mask {op : MatOp} {f : Accum → Accum} (hop : c.op = op.code)
    (h : op = .mzro ∧ f = (fun r => { r with elems := [] }) ∨ op = .mchb ∧ f = (fun r => { r with even := [], odd := [], n := 0 }) ∨
      op = .mche ∧ f = Accum.fold) :
    s.runCommand i c = ((List.range 8).filter fun k => (matAmsk c.x).testBit k).foldl (fun t k => t.updAcc (s.agent i) k f) s := by
  unfold State.runCommand
  rw [hop]
  rcases h with ⟨rfl, rfl⟩ | ⟨rfl, rfl⟩ | ⟨rfl, rfl⟩ <;> rfl

theorem masked_command (hs : s.hasEngine (s.agent i)) (hlen : (s.engineOf (s.agent i)).acc.length = 8) (hcan : ∀ k < 8, (s.acc i k).canonical)
    (hop : c.op = MatOp.mzro.code ∨ c.op = MatOp.mchb.code ∨ c.op = MatOp.mche.code) {k : Nat} (hk : k < 8) :
    let t := s.afterCommand i c rest
    ((matAmsk c.x).testBit k = false → t.acc i k = s.acc i k) ∧
    ((matAmsk c.x).testBit k = true →
      (c.op = MatOp.mzro.code → ∀ e, elemOf (t.acc i k).elems e = 0) ∧
      (c.op = MatOp.mchb.code → ∀ e, elemOf (t.acc i k).even e = 0 ∧ elemOf (t.acc i k).odd e = 0 ∧
        elemOf (t.acc i k).elems e = elemOf (s.acc i k).elems e) ∧
      (c.op = MatOp.mche.code → ∀ e < 4096, ∃ fl, Rounds fp32 .rn false
        (((exactOf (wordVal (elemOf (s.acc i k).elems e))).add .rn (exactOf (wordVal (elemOf (s.acc i k).even e)))).add .rn
          (exactOf (wordVal (elemOf (s.acc i k).odd e)))) (elemOf (t.acc i k).elems e).toNat fl)) := by
  intro t
  rcases hop with hop | hop | hop
  · rw [acc_masked hs hlen (runCommand_mask hop (.inl ⟨rfl, rfl⟩)) hk]
    refine ⟨fun hm => if_neg (by simp [hm]), fun hm => ?_⟩
    rw [if_pos hm]
    exact ⟨fun _ e => rfl, fun h => absurd (hop.symm.trans h) (by decide), fun h => absurd (hop.symm.trans h) (by decide)⟩
  · rw [acc_masked hs hlen (runCommand_mask hop (.inr (.inl ⟨rfl, rfl⟩))) hk]
    refine ⟨fun hm => if_neg (by simp [hm]), fun hm => ?_⟩
    rw [if_pos hm]
    exact ⟨fun h => absurd (hop.symm.trans h) (by decide), fun _ e => ⟨rfl, rfl, rfl⟩, fun h => absurd (hop.symm.trans h) (by decide)⟩
  · rw [acc_masked hs hlen (runCommand_mask hop (.inr (.inr ⟨rfl, rfl⟩))) hk]
    refine ⟨fun hm => if_neg (by simp [hm]), fun hm => ?_⟩
    rw [if_pos hm]
    exact ⟨fun h => absurd (hop.symm.trans h) (by decide), fun h => absurd (hop.symm.trans h) (by decide),
      fun _ e he => Accum.fold_rounds (hcan k hk) he⟩

end

end Sys2Proof.Machine

namespace Sys2Proof.Machine

/-! # Bits of byte strings (R5, R55) -/

theorem testBit_leNat (bs : List Byte) : ∀ j, (leNat bs).testBit j = (bs.getD (j / 8) 0).getLsbD (j % 8) := by
  induction bs with
  | nil => intro j; simp [leNat]
  | cons b bs ih =>
    intro j
    rw [leNat, show b.toNat + 256 * leNat bs = 2 ^ 8 * leNat bs + b.toNat by ring, Nat.testBit_two_pow_mul_add _ b.isLt]
    by_cases hj : j < 8
    · rw [if_pos hj, Nat.div_eq_of_lt hj, Nat.mod_eq_of_lt hj]; rfl
    · rw [if_neg hj, ih, show j / 8 = (j - 8) / 8 + 1 by omega, List.getD_cons_succ, show (j - 8) % 8 = j % 8 by omega]

theorem testBit_bitsAt (v lo n k : Nat) : (bitsAt v lo n).testBit k = (decide (k < n) && v.testBit (lo + k)) := by
  rw [bitsAt, Nat.testBit_mod_two_pow, Nat.testBit_div_two_pow, Nat.add_comm]

theorem fmtBits_mem (c : Nat) : fmtBits c ∈ [0, 4, 6, 8, 16, 32, 64, 128] := by
  by_cases h : c < 22
  · revert c; decide
  · have : fmtBits c = 0 := by
      unfold fmtBits
      rw [List.getD_eq_getElem?_getD, List.getElem?_eq_none (by simp; omega)]; rfl
    rw [this]; decide

/-- An element lies within the 16 bytes from the one that holds its first bit. -/
theorem fmtBits_span (c i : Nat) : fmtBits c * i % 8 + fmtBits c ≤ 128 := by
  have h := fmtBits_mem c
  simp only [List.mem_cons, List.not_mem_nil, or_false] at h
  rcases h with h | h | h | h | h | h | h | h <;> rw [h] <;> omega

/-! # Elements of an entry, bit by bit (R55, R263) -/

/-- Bit `j` of row `i1` of an entry. -/
def State.rowBit (s : State) (e : EngineAt) (m : Manifest) (i1 j : Nat) : Bool := (s.entryByte e m (m.ea 0 i1 0 0 + j / 8)).getLsbD (j % 8)

theorem testBit_entryCode (s : State) (e : EngineAt) (m : Manifest) (i0 i1 k : Nat) :
    (s.entryCode e m i0 i1).testBit k = (decide (k < fmtBits m.fmt) && s.rowBit e m i1 (fmtBits m.fmt * i0 + k)) := by
  have hspan := fmtBits_span m.fmt i0
  unfold State.entryCode
  simp only
  rw [testBit_bitsAt, testBit_leNat]
  by_cases hk : k < fmtBits m.fmt
  · have hlt : (fmtBits m.fmt * i0 % 8 + k) / 8 < 16 := by omega
    rw [List.getD_eq_getElem _ _ (by simpa using hlt), List.getElem_map, List.getElem_range]
    unfold State.rowBit
    rw [show m.ea 0 i1 0 0 + fmtBits m.fmt * i0 / 8 + (fmtBits m.fmt * i0 % 8 + k) / 8 = m.ea 0 i1 0 0 + (fmtBits m.fmt * i0 + k) / 8 by omega,
      show (fmtBits m.fmt * i0 % 8 + k) % 8 = (fmtBits m.fmt * i0 + k) % 8 by omega]
  · simp [hk]

/-- Elements unpacked from the bytes of a row that hold them. -/
theorem unpack_row (s : State) (e : EngineAt) (m : Manifest) (i0 i1 n : Nat) :
    m.unpack i0 n ((List.range (m.codeRange i0 n).2).map fun j => s.entryByte e m (m.ea 0 i1 0 0 + (m.codeRange i0 n).1 + j)) =
      (List.range n).map fun i => s.entryCode e m (i0 + i) i1 := by
  unfold Manifest.unpack Manifest.codeRange
  dsimp only
  refine List.map_congr_left fun i hi => Nat.eq_of_testBit_eq fun k => ?_
  have hin : i < n := List.mem_range.1 hi
  rw [testBit_entryCode, testBit_bitsAt]
  by_cases hk : k < fmtBits m.fmt
  · have h1 : fmtBits m.fmt * (i + 1) ≤ fmtBits m.fmt * n := Nat.mul_le_mul_left _ hin
    rw [Nat.mul_succ] at h1
    have h2 := Nat.mul_add (fmtBits m.fmt) i0 n
    have h3 := Nat.mul_add (fmtBits m.fmt) i0 i
    rw [testBit_leNat, List.getD_eq_getElem _ _ (by rw [List.length_map, List.length_range]; omega), List.getElem_map, List.getElem_range]
    unfold State.rowBit
    congr 2
    · congr 1; omega
    · omega
  · simp [hk]

/-! # Reads of a tile plane where nothing is latent -/

section
variable {s : State} (hl : s.latent = [])
include hl

theorem meetTile_quiet (ctx : Option Nat) (b p off n : Nat) : s.meetTile ctx b p off n = s := by
  unfold State.meetTile
  rw [hl]; rfl

theorem planeRead_quiet {m : Manifest} (hm : m.tile = true) (e : EngineAt) (off n : Nat) :
    s.planeRead e off n = (s, (List.range n).map fun j => s.entryByte e m (off + j)) := by
  unfold State.planeRead
  simp only [meetTile_quiet hl]
  congr 1
  refine List.ext_getElem (by simp [State.readTile, readBytes]) fun j hj hj' => ?_
  have hjn : j < n := by simpa using hj'
  have hbyte : s.entryByte e m (off + j) = if off + j < s.tileSizeOf e.block then readByte (s.shareMem e.block e.pos) (off + j) else 0 := by
    unfold State.entryByte; rw [if_pos hm]
  simp only [List.getElem_map, List.getElem_range, hbyte, List.getElem_append, State.readTile, readBytes, List.length_map, List.length_range,
    List.getElem_replicate]
  by_cases hlim : off + j < s.tileSizeOf e.block
  · rw [if_pos hlim, dif_pos (by omega)]
  · rw [if_neg hlim, dif_neg (by omega)]

/-- The codes of elements of a row of a tile plane, each with its block's scale. -/
theorem readCodes_quiet {m : Manifest} (hm : m.tile = true) (e : EngineAt) (i0 i1 n : Nat) :
    s.readCodes e m i0 i1 0 0 n = .ok (s, (List.range n).map fun i => (s.entryCode e m (i0 + i) i1, s.entryScale e m (i0 + i) i1)) := by
  have hside (addr k : Nat) : s.sideRead e m accRead addr k = .ok (s, (List.range k).map fun j => s.entryByte e m (addr + j)) := by
    unfold State.sideRead
    rw [if_pos hm, planeRead_quiet hl hm]
  have hcodes := unpack_row s e m i0 i1 n
  unfold State.readCodes
  simp only [hside]
  cases hsc : m.scaled with
  | false =>
    simp only [Bool.false_eq_true, if_false]
    congr 2
    refine List.ext_getElem (by simp [Manifest.unpack]) fun i hi hi' => ?_
    simp only [List.getElem_map, List.getElem_zipIdx, hcodes, List.getElem_range]
    simp [State.entryScale, hsc]
  | true =>
    simp only [if_true]
    congr 2
    refine List.ext_getElem (by simp [Manifest.unpack]) fun i hi hi' => ?_
    have hin : i < n := by simpa using hi'
    have hlt : (i0 + i) / 32 - i0 / 32 < (i0 + n + 31) / 32 - i0 / 32 := by omega
    simp only [List.getElem_map, List.getElem_zipIdx, hcodes, List.getElem_range, Nat.zero_add, blockRange]
    rw [List.getD_eq_getElem _ _ (by simpa using hlt), List.getElem_map, List.getElem_range]
    unfold State.entryScale
    rw [if_pos hsc]
    congr 3
    unfold Manifest.sa
    omega

/-- A line of `k` elements of an entry: those of a row from element `k0` on, or zeros where there is none. -/
def State.lineOf (s : State) (e : EngineAt) (m : Manifest) (k0 k : Nat) : Option Nat → List (Nat × Nat)
  | none => List.replicate k (0, 0x7F)
  | some q => (List.range k).map fun i => (s.entryCode e m (k0 + i) q, s.entryScale e m (k0 + i) q)

omit hl in
@[simp] theorem length_lineOf (e : EngineAt) (m : Manifest) (k0 k : Nat) (r : Option Nat) : (s.lineOf e m k0 k r).length = k := by
  cases r <;> simp [State.lineOf]

/-- Rows of a tile plane as the engine reads them. -/
theorem readLines_quiet {m : Manifest} (hm : m.tile = true) (e : EngineAt) (k0 k : Nat) (rows : List (Option Nat)) :
    s.readLines e m k0 k rows = (s, rows.map (s.lineOf e m k0 k)) := by
  have hgo : ∀ (rows : List (Option Nat)) (ls : List (List (Nat × Nat))),
      rows.foldl (fun (acc : State × List (List (Nat × Nat))) r =>
        match r with
        | none => (acc.1, acc.2 ++ [List.replicate k (0, 0x7F)])
        | some row => match acc.1.readCodes e m k0 row 0 0 k with
          | .ok (t, cs) => (t, acc.2 ++ [cs])
          | .error _ => (acc.1, acc.2 ++ [List.replicate k (0, 0x7F)])) (s, ls) = (s, ls ++ rows.map (s.lineOf e m k0 k)) := fun rows => by
    induction rows with
    | nil => intro ls; simp
    | cons r rows ih =>
      intro ls
      cases r with
      | none => simp only [List.foldl_cons, ih, List.map_cons, List.append_assoc, List.singleton_append, State.lineOf]
      | some q => simp only [List.foldl_cons, readCodes_quiet hl hm, ih, List.map_cons, List.append_assoc, List.singleton_append, State.lineOf]
  exact (hgo rows []).trans (by rw [List.nil_append])

end

end Sys2Proof.Machine

namespace Sys2Proof.Machine

/-! # Reads of translated pages where nothing is latent (R203, R302) -/

/-- States that differ at most in merge entries and in numbers drawn. -/
structure State.ReadsOnly (s t : State) : Prop where
  eq : t = { s with merges := t.merges, nonce := t.nonce }

section
variable {s t u : State}

theorem State.ReadsOnly.refl (s : State) : s.ReadsOnly s := ⟨rfl⟩
theorem State.ReadsOnly.trans (h : s.ReadsOnly t) (k : t.ReadsOnly u) : s.ReadsOnly u := by constructor; rw [k.eq, h.eq]
theorem State.ReadsOnly.agents (h : s.ReadsOnly t) : t.agents = s.agents := by rw [h.eq]
theorem State.ReadsOnly.blocks (h : s.ReadsOnly t) : t.blocks = s.blocks := by rw [h.eq]
theorem State.ReadsOnly.peekBytes (h : s.ReadsOnly t) (pa n : Nat) : t.peekBytes pa n = s.peekBytes pa n := by rw [h.eq]; rfl
theorem State.ReadsOnly.quiet (h : s.ReadsOnly t) (hq : Quiet s) : Quiet t := by unfold Quiet; rw [h.eq]; exact hq

theorem State.ReadsOnly.foldl {β : Type} {f : State → β → State} (h : ∀ (s : State) x, s.ReadsOnly (f s x)) (xs : List β) : ∀ s : State, s.ReadsOnly (xs.foldl f s) := by
  induction xs with
  | nil => exact fun s => .refl s
  | cons x xs ih => exact fun s => (h s x).trans (ih _)

theorem isPeer_of_lt_peerBase (s : State) {pa : Nat} (h : pa < peerBase) : s.isPeer pa = false := by
  unfold State.isPeer State.region
  rw [localPa_of_lt_peerBase s h]
  have hno : ¬(peerBase ≤ pa ∧ pa < 2 * peerBase) := by omega
  simp only [if_neg hno]
  split_ifs <;> rfl

theorem meetPa_quiet (hq : Quiet s) (ctx : Option Nat) (pa n : Nat) : s.meetPa ctx pa n = s := by
  obtain ⟨hl, hr, -⟩ := hq
  have : s.settleReds (s.localPa pa) n = s := by unfold State.settleReds; rw [hr]; rfl
  unfold State.meetPa
  simp only [this, hl]
  rfl

/-- A page of local storage, or an empty one. -/
theorem readPiece_quiet (hq : Quiet s) (ctx : Nat) (p : Piece) (hp : p.pa + p.len ≤ peerBase) :
    s.ReadsOnly (s.readPiece ctx p).1 ∧ (s.readPiece ctx p).2 = s.peekBytes p.pa p.len := by
  by_cases hpeer : s.isPeer p.pa = true
  · have hlen : p.len = 0 := by
      by_contra h0
      rw [isPeer_of_lt_peerBase s (by omega)] at hpeer
      cases hpeer
    have : s.readPiece ctx p = (s.draw.2, []) := by
      unfold State.readPiece
      rw [if_pos hpeer, hlen]
      rfl
    rw [this, hlen]
    exact ⟨⟨rfl⟩, rfl⟩
  · unfold State.readPiece
    rw [if_neg hpeer, meetPa_quiet hq]
    exact ⟨.refl s, rfl⟩

/-- The bytes of a list of pages. -/
def State.pageBytes (s : State) (ps : List (Nat × Nat)) : List Byte := ps.flatMap fun p => s.peekBytes p.1 p.2

theorem readPages_quiet (hq : Quiet s) (ctx : Nat) {ps : List (Nat × Nat)} (hp : ∀ p ∈ ps, p.1 + p.2 ≤ peerBase) :
    s.ReadsOnly (s.readPages ctx ps).1 ∧ (s.readPages ctx ps).2 = s.pageBytes ps := by
  have hopen : ∀ (s : State) (sec : Nat), s.ReadsOnly (s.openMerge sec) := fun s sec => by
    unfold State.openMerge
    split
    · exact .refl s
    · exact ⟨rfl⟩
  have hgo : ∀ (ps : List (Nat × Nat)), (∀ p ∈ ps, p.1 + p.2 ≤ peerBase) → ∀ (u : State) (bs : List Byte), s.ReadsOnly u →
      let r := (ps.map fun p => ({ va := 0, pa := p.1, len := p.2, ord := 0 } : Piece)).foldl
        (fun acc p => ((acc.1.readPiece ctx p).1, acc.2 ++ (acc.1.readPiece ctx p).2)) (u, bs)
      s.ReadsOnly r.1 ∧ r.2 = bs ++ s.pageBytes ps := fun ps => by
    induction ps with
    | nil => exact fun _ u bs hu => ⟨hu, (List.append_nil bs).symm⟩
    | cons p ps ih =>
      intro hp u bs hu
      obtain ⟨h1, h2⟩ := readPiece_quiet (hu.quiet hq) ctx { va := 0, pa := p.1, len := p.2, ord := 0 } (hp p List.mem_cons_self)
      obtain ⟨h3, h4⟩ := ih (fun q hq => hp q (List.mem_cons_of_mem _ hq)) _ (bs ++ (u.readPiece ctx { va := 0, pa := p.1, len := p.2, ord := 0 }).2)
        (hu.trans h1)
      refine ⟨h3, h4.trans ?_⟩
      rw [h2, hu.peekBytes, List.append_assoc]
      rfl
  obtain ⟨h1, h2⟩ := hgo ps hp _ [] (State.ReadsOnly.foldl (f := fun (t : State) (p : Piece) => t.openMerges p.pa p.len)
    (fun s p => .foldl hopen _ s) (ps.map fun p => { va := 0, pa := p.1, len := p.2, ord := 0 }) s)
  exact ⟨h1, h2⟩

/-- A column of a B tile from its pages: its codes, and the scales of its blocks (R302). -/
def State.loadedLine (s : State) (m : Manifest) (k0 k : Nat) (codes scales : List (Nat × Nat)) : List (Nat × Nat) :=
  (List.range k).map fun i => (bitsAt (leNat (s.pageBytes codes)) (fmtBits m.fmt * k0 % 8 + fmtBits m.fmt * i) (fmtBits m.fmt),
    if m.scaled then ((s.pageBytes scales).getD ((k0 + i) / 32 - k0 / 32) 0).toNat else 0x7F)

theorem State.ReadsOnly.loadedLine (h : s.ReadsOnly t) (m : Manifest) (k0 k : Nat) (codes scales : List (Nat × Nat)) :
    t.loadedLine m k0 k codes scales = s.loadedLine m k0 k codes scales := by
  unfold State.loadedLine State.pageBytes
  simp only [h.peekBytes]

/-- The columns of a B load. -/
theorem loadColumns_quiet (ctx : Nat) (m : Manifest) (k0 k : Nat) : ∀ (n : Nat) (pages : List (List (Nat × Nat))) (s : State), Quiet s →
    pages.length = (if m.scaled then 2 * n else n) → (∀ ps ∈ pages, ∀ p ∈ ps, p.1 + p.2 ≤ peerBase) →
    s.ReadsOnly (s.loadColumns ctx m k0 k pages n).1 ∧ (s.loadColumns ctx m k0 k pages n).2 = (List.range n).map fun r =>
      s.loadedLine m k0 k (pages.getD (if m.scaled then 2 * r else r) []) (pages.getD (2 * r + 1) []) := by
  intro n
  induction n with
  | zero =>
    intro pages s hq hlen _
    have : pages = [] := List.length_eq_zero_iff.1 (by rw [hlen]; split <;> rfl)
    rw [this]
    exact ⟨.refl s, rfl⟩
  | succ n ih =>
    intro pages s hq hlen hp
    cases pages with
    | nil => split at hlen <;> simp at hlen
    | cons codes rest =>
      obtain ⟨h1, h2⟩ := readPages_quiet hq ctx (hp codes List.mem_cons_self)
      have hline : m.unpack k0 k (s.pageBytes codes) = (List.range k).map fun i =>
        bitsAt (leNat (s.pageBytes codes)) (fmtBits m.fmt * k0 % 8 + fmtBits m.fmt * i) (fmtBits m.fmt) := rfl
      cases hsc : m.scaled with
      | false =>
        rw [hsc] at hlen ih
        simp only [Bool.false_eq_true, if_false] at hlen ih ⊢
        obtain ⟨h3, h4⟩ := ih rest _ (h1.quiet hq) (by simpa using hlen) fun ps hps => hp ps (List.mem_cons_of_mem _ hps)
        unfold State.loadColumns
        simp only [hsc, Bool.false_eq_true, if_false, h2, hline]
        refine ⟨h1.trans h3, ?_⟩
        rw [h4, List.range_succ_eq_map, List.map_cons]
        congr 1
        · simp only [List.map_map, Function.comp_def, State.loadedLine, hsc, Bool.false_eq_true, if_false, List.getD_cons_zero]
        · rw [List.map_map]
          refine List.map_congr_left fun r _ => ?_
          rw [Function.comp_apply, h1.loadedLine]
          simp only [List.getD_cons_succ, State.loadedLine, hsc, Bool.false_eq_true, if_false]
      | true =>
        rw [hsc] at hlen ih
        simp only [if_true] at hlen ih ⊢
        cases rest with
        | nil => simp at hlen; omega
        | cons sc rest =>
          obtain ⟨h3, h4⟩ := readPages_quiet (h1.quiet hq) ctx (hp sc (by simp))
          obtain ⟨h5, h6⟩ := ih rest _ (h3.quiet (h1.quiet hq)) (by simp at hlen; omega) fun ps hps =>
            hp ps (List.mem_cons_of_mem _ (List.mem_cons_of_mem _ hps))
          have hsame : (s.readPages ctx codes).1.pageBytes sc = s.pageBytes sc := by unfold State.pageBytes; simp only [h1.peekBytes]
          unfold State.loadColumns
          simp only [hsc, if_true, h2, h4, hline, hsame]
          refine ⟨(h1.trans h3).trans h5, ?_⟩
          rw [h6, List.range_succ_eq_map, List.map_cons]
          congr 1
          · unfold State.loadedLine
            rw [hsc]
            refine List.ext_getElem (by simp) fun i hi hi' => ?_
            simp
          · rw [List.map_map]
            refine List.map_congr_left fun r _ => ?_
            rw [Function.comp_apply, (h1.trans h3).loadedLine, show 2 * (r + 1) = 2 * r + 1 + 1 from rfl]
            rfl

end

end Sys2Proof.Machine

namespace Sys2Proof.Machine

/-! # Tiles from lines (R302, R303, R309) -/

/-- 64 lines of `k` elements. -/
def OpTile.Shaped (t : OpTile) (k : Nat) : Prop :=
  t.codes.length = 64 ∧ t.scales.length = 64 ∧ (∀ r ∈ t.codes, r.length = k) ∧ ∀ r ∈ t.scales, r.length = k

theorem OpTile.Whole.shaped {t : OpTile} {cl : OpClass} (h : t.Whole cl) : t.Shaped cl.k := by
  obtain ⟨-, h1, h2, h3, h4, -⟩ := h
  exact ⟨h1, h2, h3, h4⟩

theorem tileOf_shaped {m : Manifest} {cv : Option Curve} {ls : List (List (Nat × Nat))} {k : Nat} (hlen : ls.length = 64) (hk : ∀ l ∈ ls, l.length = k) :
    (tileOf m cv ls).Shaped k := by
  refine ⟨by simp [tileOf, hlen], by simp [tileOf, hlen], fun r hr => ?_, fun r hr => ?_⟩ <;>
  · obtain ⟨l, hl, rfl⟩ := List.mem_map.1 hr
    rw [List.length_map, hk l hl]

/-- A tile made of lines holds them. -/
theorem tileOf_from {m : Manifest} {cv : Option Curve} {ls : List (List (Nat × Nat))} {get : Nat → Option (Nat → Nat × Nat)} {zs : List Nat}
    (hz : zs = (List.range 64).filter fun r => (get r).isNone)
    (hls : ∀ r < 64, ∀ g, get r = some g → ls.getD r [] = (List.range m.stepK).map g) : ({ tileOf m cv ls with zeros := zs } : OpTile).From m cv get := by
  refine ⟨rfl, rfl, rfl, rfl, hz, fun r hr g hg e he => ?_⟩
  have hline := hls r hr g hg
  have hget {α : Type} (f : List (Nat × Nat) → List α) (hf : f [] = []) : (ls.map f).getD r [] = f (ls.getD r []) := by
    rw [← hf, List.getD_map]
  constructor
  · show ((ls.map fun r => r.map fun x => BitVec.ofNat 64 x.1).getD r []).getD e 0 = _
    rw [hget _ rfl, hline, List.getD_eq_getElem _ _ (by simpa using he)]
    simp
  · show ((ls.map fun r => r.map fun x => BitVec.ofNat 8 x.2).getD r []).getD e 0 = _
    rw [hget _ rfl, hline, List.getD_eq_getElem _ _ (by simpa using he)]
    simp

theorem tileOf_from_rows {m : Manifest} {cv : Option Curve} {ls : List (List (Nat × Nat))} {get : Nat → Option (Nat → Nat × Nat)}
    (hsome : ∀ r, (get r).isSome = true) (hls : ∀ r < 64, ∀ g, get r = some g → ls.getD r [] = (List.range m.stepK).map g) :
    (tileOf m cv ls).From m cv get :=
  tileOf_from (zs := []) (List.filter_eq_nil_iff.2 fun r _ => by simp [Option.isNone_iff_eq_none, Option.ne_none_iff_isSome.2 (hsome r)]).symm hls

/-- Lines that all hold elements determine the tile. -/
theorem OpTile.From.unique {t t' : OpTile} {m : Manifest} {cv : Option Curve} {get : Nat → Option (Nat → Nat × Nat)} (h : t.From m cv get)
    (h' : t'.From m cv get) (hsome : ∀ r < 64, ∃ g, get r = some g) (ht : t.Shaped m.stepK) (ht' : t'.Shaped m.stepK) : t = t' := by
  obtain ⟨f1, f2, f3, f4, f5, f6⟩ := h
  obtain ⟨g1, g2, g3, g4, g5, g6⟩ := h'
  obtain ⟨c1, c2, c3, c4⟩ := ht
  obtain ⟨d1, d2, d3, d4⟩ := ht'
  have hrows {α : Type} (z : α) {x y : List (List α)} (hx : x.length = 64) (hy : y.length = 64) (hxk : ∀ r ∈ x, r.length = m.stepK)
      (hyk : ∀ r ∈ y, r.length = m.stepK) (he : ∀ r < 64, ∀ e < m.stepK, (x.getD r []).getD e z = (y.getD r []).getD e z) : x = y := by
    refine List.ext_getElem (by omega) fun r hr hr' => ?_
    have h1 := hxk _ (List.getElem_mem hr)
    have h2 := hyk _ (List.getElem_mem hr')
    refine List.ext_getElem (by omega) fun e hk hk' => ?_
    have := he r (by omega) e (by omega)
    rwa [List.getD_eq_getElem _ _ hr, List.getD_eq_getElem _ _ hr', List.getD_eq_getElem _ _ hk, List.getD_eq_getElem _ _ hk'] at this
  have hcodes : t.codes = t'.codes := hrows 0 c1 d1 c3 d3 fun r hr e he => by
    obtain ⟨g, hg⟩ := hsome r hr
    rw [(f6 r hr g hg e he).1, (g6 r hr g hg e he).1]
  have hscales : t.scales = t'.scales := hrows 0 c2 d2 c4 d4 fun r hr e he => by
    obtain ⟨g, hg⟩ := hsome r hr
    rw [(f6 r hr g hg e he).2, (g6 r hr g hg e he).2]
  cases t
  cases t'
  simp only at f1 f2 f3 f4 f5 g1 g2 g3 g4 g5 hcodes hscales
  subst f1 f2 f3 f4 f5 hcodes hscales
  simp only [g1, g2, g3, g4, g5]

/-! # Operands read where nothing is latent -/

section
variable {s : State}

/-- Rows of a tile plane, all of them rows of the entry. -/
theorem readRows_from (hl : s.latent = []) {m : Manifest} (hm : m.tile = true) (e : EngineAt) (cv : Option Curve) (k0 n0 : Nat) :
    ∃ t, s.readLines e m k0 m.stepK ((List.range 64).map fun i => some (n0 + i)) = (s, t) ∧
      (tileOf m cv t).From m cv (s.linesAt e m k0 fun r => some (n0 + r)) ∧ (tileOf m cv t).Shaped m.stepK := by
  refine ⟨_, readLines_quiet hl hm e k0 m.stepK _, tileOf_from_rows (fun _ => rfl) fun r hr g hg => ?_,
    tileOf_shaped (by simp) fun l hl => ?_⟩
  · cases hg
    rw [List.getD_eq_getElem _ _ (by simpa using hr)]
    simp [State.lineOf]
  · obtain ⟨r, -, rfl⟩ := List.mem_map.1 hl
    simp

/-- Columns loaded from pages. -/
theorem loadColumns_from (hq : Quiet s) (c : MatCmd) (ctx : Nat) (hp : ∀ ps ∈ c.pages, ∀ p ∈ ps, p.1 + p.2 ≤ peerBase)
    (hlen : c.pages.length = if c.mb.scaled then 128 else 64) :
    ∃ u t, s.loadColumns ctx c.mb (originLo c.ob) c.mb.stepK c.pages 64 = (u, t) ∧ s.ReadsOnly u ∧
      (tileOf c.mb c.cb t).From c.mb c.cb (s.linesLoaded c) ∧ (tileOf c.mb c.cb t).Shaped c.mb.stepK := by
  obtain ⟨h1, h2⟩ := loadColumns_quiet ctx c.mb (originLo c.ob) c.mb.stepK 64 c.pages s hq hlen hp
  refine ⟨_, _, rfl, h1, ?_⟩
  rw [h2]
  refine ⟨tileOf_from_rows (fun _ => rfl) fun r hr g hg => ?_, tileOf_shaped (by simp) fun l hl => ?_⟩
  · cases hg
    rw [List.getD_eq_getElem _ _ (by simpa using hr), List.getElem_map, List.getElem_range]
    rfl
  · obtain ⟨r, -, rfl⟩ := List.mem_map.1 hl
    simp [State.loadedLine]

theorem fireSlots_quiet (hq : Quiet s) (a : Agent) (slot : Nat) (wide : Bool) : s.fireSlots a slot wide = s := by
  obtain ⟨hl, -, hg⟩ := hq
  have h0 (p : Latent → Bool) : { s with latent := s.latent.filter p } = s := by
    cases s
    cases hl
    rfl
  unfold State.fireSlots
  simp only
  split
  · exact h0 _
  · next h => exact absurd (by rw [hg]; rfl) h

theorem meetSlots_quiet (hl : s.latent = []) (a : Agent) (slot : Nat) (wide : Bool) : s.meetSlots a slot wide = s := by
  unfold State.meetSlots
  rw [hl]
  rfl

/-- Bytes of a tile plane do not depend on the engine. -/
theorem entryByte_updEngine (a : Agent) (f : Engine → Engine) (e : EngineAt) {m : Manifest} (hm : m.tile = true) (x : Nat) :
    (s.updEngine a f).entryByte e m x = s.entryByte e m x := by
  have hmem : (s.updEngine a f).shareMem e.block e.pos = s.shareMem e.block e.pos := shareMem_updShare _ _ _ _ _ _ fun _ => ⟨rfl, rfl⟩
  have hsize : (s.updEngine a f).tileSizeOf e.block = s.tileSizeOf e.block := by
    unfold State.tileSizeOf State.updEngine
    rw [block_updShare]
    split <;> rfl
  unfold State.entryByte
  rw [if_pos hm, if_pos hm, hmem, hsize]

/-- The state in which a command's B tile stands in its slot (R302). -/
structure Loaded (s : State) (a : Agent) (slot : Nat) (tb : OpTile) (t : State) : Prop where
  quiet : Quiet t
  engine : t.hasEngine a
  acc : (t.engineOf a).acc = (s.engineOf a).acc
  latch : (t.engineOf a).latch = (s.engineOf a).latch
  slot : assocGet (t.engineOf a).slots slot = some tb
  bytes : ∀ (e : EngineAt) (m : Manifest) (x : Nat), m.tile = true → t.entryByte e m x = s.entryByte e m x

theorem Loaded.linesAt {a : Agent} {slot : Nat} {tb : OpTile} {t : State} (h : Loaded s a slot tb t) (e : EngineAt) {m : Manifest} (hm : m.tile = true)
    (k0 : Nat) (row : Nat → Option Nat) : t.linesAt e m k0 row = s.linesAt e m k0 row := by
  funext r
  unfold State.linesAt State.entryCode State.entryScale
  simp only [h.bytes e m _ hm]

theorem loaded_here {a : Agent} {slot : Nat} {tb : OpTile} (hq : Quiet s) (hs : s.hasEngine a) (hslot : assocGet (s.engineOf a).slots slot = some tb) :
    Loaded s a slot tb s := ⟨hq, hs, rfl, rfl, hslot, fun _ _ _ _ => rfl⟩

theorem assocGet_loadSlots (ts : List (Nat × OpTile)) (b : Nat) (t : OpTile) : assocGet (loadSlots ts b t) b = some t := if_pos rfl

theorem loaded_into {a : Agent} {u : State} (hq : Quiet s) (hs : s.hasEngine a) (hu : s.ReadsOnly u) (slot : Nat) (tb : OpTile) :
    Loaded s a slot tb (u.updEngine a fun g => { g with slots := loadSlots g.slots slot tb }) := by
  have hus : u.hasEngine a := by unfold State.hasEngine State.block; rw [hu.blocks]; exact hs
  have hue : u.engineOf a = s.engineOf a := by unfold State.engineOf State.block; rw [hu.blocks]
  have he := engineOf_updEngine hus fun g => { g with slots := loadSlots g.slots slot tb }
  refine ⟨hu.quiet hq, ?_, by rw [he, hue], by rw [he, hue], by rw [he]; exact assocGet_loadSlots _ _ _, fun e m x hm => ?_⟩
  · exact (queuesKept_updEngine (s := u) a (f := fun g => { g with slots := loadSlots g.slots slot tb }) fun _ => rfl).hasEngine hus
  · rw [entryByte_updEngine a _ e hm]
    unfold State.entryByte
    rw [if_pos hm, if_pos hm, hu.eq]
    rfl

end

end Sys2Proof.Machine

namespace Sys2Proof.Machine

/-! # mma and mgth (R302, R303, R308, R309) -/

section
variable {s : State} {i : Nat} {c : MatCmd} {rest : List MatCmd}

/-- The B tile an mma works with stands in its slot. -/
theorem bTile_loaded (hq : Quiet s) {a : Agent} (hs : s.hasEngine a) {e : EngineAt} {tb : OpTile} {k : Nat} (hop : c.op = MatOp.mma.code)
    (htb : tb.Shaped k) (hold : matLdb c.x = false → assocGet (s.engineOf a).slots (matBoff c.x) = some tb)
    (hload : matLdb c.x = true → c.mb.stepK = k ∧
      (c.mb.tile = true → tb.From c.mb c.cb (s.linesAt e c.mb (originLo c.ob) fun r => some (originHi c.ob + r))) ∧
      (c.mb.tile = false → (∀ ps ∈ c.pages, ∀ p ∈ ps, p.1 + p.2 ≤ peerBase) ∧ c.pages.length = (if c.mb.scaled then 128 else 64) ∧
        tb.From c.mb c.cb (s.linesLoaded c))) :
    ∃ t, s.bTile a e c = (t, tb) ∧ Loaded s a (matBoff c.x) tb t ∧ t.agents = s.agents := by
  have huse : (MatOp.ofCode c.op).usesB c.x = matLdb c.x := by rw [hop]; rfl
  cases hl : matLdb c.x with
  | false =>
    refine ⟨s, ?_, loaded_here hq hs (hold hl), rfl⟩
    unfold State.bTile
    simp only [huse, hl, Bool.false_eq_true, if_false, meetSlots_quiet hq.1, hold hl, Option.getD_some]
  | true =>
    obtain ⟨hk, htile, hpages⟩ := hload hl
    have hread : ∃ u, s.readB e c = (u, tb) ∧ s.ReadsOnly u := by
      unfold State.readB
      cases ht : c.mb.tile with
      | true =>
        obtain ⟨ls, h1, h2, h3⟩ := readRows_from hq.1 ht e c.cb (originLo c.ob) (originHi c.ob)
        have heq := (htile ht).unique h2 (fun r _ => ⟨_, rfl⟩) (hk ▸ htb) h3
        exact ⟨s, by simp only [if_true, h1, heq], .refl s⟩
      | false =>
        obtain ⟨hp, hlen, hfrom⟩ := hpages ht
        obtain ⟨u, ls, h1, h2, h3, h4⟩ := loadColumns_from hq c e.ctx hp hlen
        have heq := hfrom.unique h3 (fun r _ => ⟨_, rfl⟩) (hk ▸ htb) h4
        exact ⟨u, by simp only [Bool.false_eq_true, if_false, h1, heq], h2⟩
    obtain ⟨u, hu, hro⟩ := hread
    have hld := loaded_into hq hs hro (matBoff c.x) tb
    refine ⟨_, ?_, hld, hro.agents⟩
    unfold State.bTile
    simp only [huse, hl, if_true, hu, fireSlots_quiet hld.quiet, meetSlots_quiet hld.quiet.1, hld.slot, Option.getD_some]

/-- mma adds its k-step to its accumulator (R308). -/
theorem mma_command (hq : Quiet s) (hs : s.hasEngine (s.agent i)) (hlen : (s.engineOf (s.agent i)).acc.length = 8)
    (hcan : ∀ k < 8, (s.acc i k).canonical) {ta tb : OpTile} {cl : OpClass} (hop : c.op = MatOp.mma.code) (hta : ta.Whole cl) (htb : tb.Whole cl)
    (hlatch : matGth c.x = true → (s.engineOf (s.agent i)).latch = some ta)
    (hrows : matGth c.x = false → c.ma.tile = true ∧ c.ma.stepK = cl.k ∧
      ta.From c.ma c.ca (s.linesAt (s.shareFor (s.agent i) false) c.ma (originLo c.oa) fun r => some (originHi c.oa + r)))
    (hold : matLdb c.x = false → assocGet (s.engineOf (s.agent i)).slots (matBoff c.x) = some tb)
    (hload : matLdb c.x = true → c.mb.stepK = cl.k ∧
      (c.mb.tile = true → tb.From c.mb c.cb (s.linesAt (s.shareFor (s.agent i) false) c.mb (originLo c.ob) fun r => some (originHi c.ob + r))) ∧
      (c.mb.tile = false → (∀ ps ∈ c.pages, ∀ p ∈ ps, p.1 + p.2 ≤ peerBase) ∧ c.pages.length = (if c.mb.scaled then 128 else 64) ∧
        tb.From c.mb c.cb (s.linesLoaded c))) :
    KStep cl ta tb (s.acc i (matAcc c.x)) ((s.afterCommand i c rest).acc i (matAcc c.x)) ∧
      (∀ j < 8, j ≠ matAcc c.x → (s.afterCommand i c rest).acc i j = s.acc i j) ∧
      assocGet ((s.afterCommand i c rest).engineOf ((s.afterCommand i c rest).agent i)).slots (matBoff c.x) = some tb := by
  obtain ⟨u, hu, hld, -⟩ := bTile_loaded (e := s.shareFor (s.agent i) false) hq hs hop htb.shaped hold hload
  have hacc : matAcc c.x < 8 := Nat.mod_lt _ (by decide)
  have hrun : s.runCommand i c = u.updAcc (s.agent i) (matAcc c.x) fun r => r.kStep ta tb := by
    unfold State.runCommand
    rw [hop]
    simp only [MatOp.ofCode, MatOp.code, hu]
    cases hg : matGth c.x with
    | true => simp only [if_true, hld.latch, hlatch hg, Option.getD_some]
    | false =>
      obtain ⟨ht, hk, hfrom⟩ := hrows hg
      obtain ⟨ls, h1, h2, h3⟩ := readRows_from hld.quiet.1 ht (s.shareFor (s.agent i) false) c.ca (originLo c.oa) (originHi c.oa)
      rw [hld.linesAt _ ht] at h2
      have heq := hfrom.unique h2 (fun r _ => ⟨_, rfl⟩) (hk ▸ hta.shaped) h3
      simp only [Bool.false_eq_true, if_false, State.readA, h1, heq]
  have hget (j : Nat) : (s.afterCommand i c rest).acc i j =
      if matAcc c.x = j ∧ j < 8 then (s.acc i j).kStep ta tb else s.acc i j := by
    rw [acc_afterCommand hs, hrun]
    unfold State.updAcc
    rw [engineOf_updEngine hld.engine, getD_updAt, hld.acc, hlen]
    rfl
  refine ⟨?_, fun j hj hne => ?_, ?_⟩
  · rw [hget, if_pos ⟨rfl, hacc⟩]
    exact kStep_kStep hta htb (hcan _ hacc)
  · rw [hget, if_neg fun h => hne h.1.symm]
  · rw [engineOf_afterCommand hs, hrun]
    unfold State.updAcc
    rw [engineOf_updEngine hld.engine]
    exact hld.slot

/-- mgth fills the latch with the rows of its index vector (R309). -/
theorem mgth_command (hq : Quiet s) (hs : s.hasEngine (s.agent i)) (hop : c.op = MatOp.mgth.code) (hidx : c.idx.length = 64) (hm : c.ma.tile = true) :
    ∃ tl, ((s.afterCommand i c rest).engineOf ((s.afterCommand i c rest).agent i)).latch = some tl ∧
      tl.From c.ma c.ca (s.linesAt (s.shareFor (s.agent i) (matP1 c.x)) c.ma (originLo c.oa) fun r =>
        if c.idx.getD r 0 = 0xFFFFFFFF then none else some (c.idx.getD r 0).toNat) ∧
      (∀ r ∈ tl.codes, r.length = c.ma.stepK) ∧ ∀ j < 8, (s.afterCommand i c rest).acc i j = s.acc i j := by
  have hlines := readLines_quiet hq.1 hm (s.shareFor (s.agent i) (matP1 c.x)) (originLo c.oa) c.ma.stepK
    (c.idx.map fun w => if w = 0xFFFFFFFF then none else some w.toNat)
  generalize hls : (c.idx.map fun w : Word => if w = 0xFFFFFFFF then none else some w.toNat).map
    (s.lineOf (s.shareFor (s.agent i) (matP1 c.x)) c.ma (originLo c.oa) c.ma.stepK) = ls at hlines
  have hrun : s.runCommand i c = s.updEngine (s.agent i) fun e => { e with latch := some { tileOf c.ma c.ca ls with
      zeros := c.idx.zipIdx.filterMap fun w => if w.1 = 0xFFFFFFFF then some w.2 else none } } := by
    unfold State.runCommand
    rw [hop]
    simp only [MatOp.ofCode, MatOp.code, hlines]
  have hlen : ls.length = 64 := by rw [← hls]; simp [hidx]
  have hget : ∀ r < 64, ls.getD r [] = s.lineOf (s.shareFor (s.agent i) (matP1 c.x)) c.ma (originLo c.oa) c.ma.stepK
      (if c.idx.getD r 0 = 0xFFFFFFFF then none else some (c.idx.getD r 0).toNat) := fun r hr => by
    rw [List.getD_eq_getElem ls _ (by omega), List.getD_eq_getElem c.idx _ (by omega)]
    simp only [← hls, List.getElem_map]
  refine ⟨_, by rw [engineOf_afterCommand hs, hrun, engineOf_updEngine hs], tileOf_from ?_ fun r hr g hg => ?_, fun r hr => ?_, fun j _ => ?_⟩
  · have hzip : c.idx.zipIdx = (List.range 64).map fun r => (c.idx.getD r 0, r) := List.ext_getElem (by simp [hidx]) fun r hr hr' => by
      have : r < c.idx.length := by simpa using hr
      simp [this]
    rw [hzip, List.filterMap_map, ← List.filterMap_eq_filter]
    refine List.filterMap_congr fun r _ => ?_
    unfold State.linesAt
    simp only [Function.comp_apply, Option.guard]
    split <;> simp
  · rw [hget r hr]
    unfold State.linesAt at hg
    dsimp only at hg
    split at hg
    · cases hg
    · next h => cases hg; rw [if_neg h]; rfl
  · obtain ⟨l, hl, rfl⟩ := List.mem_map.1 hr
    rw [List.length_map]
    rw [← hls] at hl
    obtain ⟨q, -, rfl⟩ := List.mem_map.1 hl
    exact length_lineOf _ _ _ _ _
  · rw [acc_afterCommand hs, hrun, engineOf_updEngine hs]
    rfl

end

end Sys2Proof.Machine

namespace Sys2Proof.Machine

/-! # Widening is exact (R46) -/

/-- A code of a format no wider than FP32, rounded to FP32, keeps its value; nothing is raised. -/
theorem widen_exact {g : FpFmt} (hreg : g.Regular) (hfrac : g.frac ≤ 23) (hq : -149 ≤ g.qmin) (htop : g.top ≤ fp32.top) (c : Nat) :
    exactOf (decodeFp fp32 (rne32 (decodeFp g c))) = exactOf (decodeFp g c) ∧ (roundFp fp32 .rn (decodeFp g c) false).2 = 0 := by
  cases hd : decodeFp g c with
  | nan s => exact ⟨rfl, rfl⟩
  | inf n => cases n <;> exact ⟨rfl, rfl⟩
  | fin n m e =>
    by_cases hm : m = 0
    · subst hm
      refine ⟨?_, rfl⟩
      rw [decode_rne32_zero]
      rfl
    · obtain ⟨mag, hmax, -, hv, hqe, hmlt, -, -⟩ := finite_code hreg hd
      have hle : (m : ℚ) * 2 ^ e ≤ fp32.top := by
        rw [hv]
        exact ((magValue_strictMono g).monotone hmax).trans (hreg.top ▸ htop)
      have hleR : (m : ℝ) * 2 ^ e ≤ fp32.top := by
        have := (Rat.cast_le (K := ℝ)).2 hle
        push_cast at this
        exact this
      have hlt : m < 2 ^ (23 + 1) := lt_of_lt_of_le hmlt (Nat.pow_le_pow_right two_pos (by omega))
      have hval : ((finiteValue (.fin n m e) : ℚ) : ℝ) = (signOf n * (m : ℤ) : ℤ) * 2 ^ e := by rw [cast_finiteValue]; push_cast; ring
      obtain ⟨n', m', e', hd', hv', -, hfl⟩ := rounds_representable (f := fp32) (by decide)
        (roundFp_number .rn false n e (regular_of_mem (f := fp32) (by decide)) hm) hval
        (by rw [abs_mul]; cases n <;> simp [signOf, fp32] <;> exact_mod_cast hlt) (by exact hqe.trans' hq)
        (by rw [cast_finiteValue, signOf_mul_abs n (by positivity)]; exact hleR)
      refine ⟨?_, hfl⟩
      have hvq : finiteValue (.fin n' m' e') = finiteValue (.fin n m e) := by exact_mod_cast hv'
      have hd2 : decodeFp fp32 (rne32 (.fin n m e)) = .fin n' m' e' := hd'
      have hm' : m' ≠ 0 := fun h0 => mt (finiteValue_eq_zero n m e).1 hm (hvq ▸ (finiteValue_eq_zero n' m' e').2 h0)
      rw [hd2]
      simp only [exactOf, hm, hm', if_false, hvq]

theorem exactOf_decode_rne32 (c : Nat) : exactOf (decodeFp fp32 (rne32 (decodeFp fp32 c))) = exactOf (decodeFp fp32 c) :=
  (widen_exact (regular_of_mem (f := fp32) (by decide)) (le_refl _) (by decide) (le_refl _) c).1

/-! # Writes of a plane, one after another -/

theorem updAt_congr {α : Type} (l : List α) (i : Nat) {f g : α → α} (d : α) (h : f (l.getD i d) = g (l.getD i d)) : updAt l i f = updAt l i g := by
  unfold updAt
  refine List.ext_getElem? fun j => ?_
  rw [List.getElem?_modify, List.getElem?_modify]
  by_cases hij : i = j
  · subst hij
    cases hl : l[i]? with
    | none => rfl
    | some x =>
      rw [List.getD_eq_getElem?_getD, hl, Option.getD_some] at h
      simp [h]
  · simp [hij]

/-- Writes, each of bytes from an offset; what lies from `lim` on is not written. -/
def putAll (lim : Nat) (m : Memory) (ws : List (Nat × List Byte)) : Memory :=
  ws.foldl (fun m w => writeBytes m w.1 (w.2.take (lim - w.1))) m

/-- A byte that no write reaches stays. -/
theorem readByte_putAll_outside (lim : Nat) (ws : List (Nat × List Byte)) {x : Nat} (h : ∀ w ∈ ws, x < w.1 ∨ w.1 + w.2.length ≤ x) :
    ∀ m : Memory, readByte (putAll lim m ws) x = readByte m x := by
  induction ws with
  | nil => exact fun _ => rfl
  | cons w ws ih =>
    intro m
    have hw := h w List.mem_cons_self
    refine (ih (fun y hy => h y (List.mem_cons_of_mem _ hy)) _).trans (readByte_writeBytes_outside ?_)
    rw [List.length_take]
    omega

/-- Writes that do not meet. -/
def Apart (ws : List (Nat × List Byte)) : Prop := ws.Pairwise fun v w => v.1 + v.2.length ≤ w.1 ∨ w.1 + w.2.length ≤ v.1

/-- Of writes that do not meet, each leaves its bytes. -/
theorem readByte_putAll {lim : Nat} {ws : List (Nat × List Byte)} (ha : Apart ws) {w : Nat × List Byte} (hw : w ∈ ws) {j : Nat} (hj : j < w.2.length)
    (hlim : w.1 + j < lim) : ∀ m : Memory, readByte (putAll lim m ws) (w.1 + j) = w.2.getD j 0 := by
  induction ws with
  | nil => exact absurd hw (by simp)
  | cons v ws ih =>
    intro m
    obtain ⟨hv, ha⟩ := List.pairwise_cons.1 ha
    rcases List.mem_cons.1 hw with rfl | hw
    · refine (readByte_putAll_outside lim ws (fun y hy => ?_) _).trans ?_
      · have := hv y hy; omega
      · rw [readByte_writeBytes, dif_pos (by rw [List.length_take]; omega), List.getElem_take, List.getD_eq_getElem _ _ hj]
        congr 1
        omega
    · exact ih ha hw _

section

variable {s : State} {e : EngineAt}

theorem updShare_congr {b p : Nat} {f g : Share → Share} (h : f ((s.block b).share p) = g ((s.block b).share p)) : s.updShare b p f = s.updShare b p g := by
  have hin : updAt (s.block b).shares p f = updAt (s.block b).shares p g := updAt_congr _ _ {} h
  have hout : updAt s.blocks b (fun k => { k with shares := updAt k.shares p f }) = updAt s.blocks b fun k => { k with shares := updAt k.shares p g } :=
    updAt_congr _ _ { state := .retired } (congrArg (fun l => ({ s.block b with shares := l } : Block)) hin)
  unfold State.updShare State.updBlock
  rw [hout]

/-- The state with another memory in the share of `e`. -/
def State.withTile (s : State) (e : EngineAt) (m : Memory) : State := s.updShare e.block e.pos fun sh => { sh with tile := m }

/-- The share of `e` exists and is the block's own. -/
def State.ownShare (s : State) (e : EngineAt) : Prop :=
  e.block < s.blocks.length ∧ e.pos < (s.block e.block).shares.length ∧ ((s.block e.block).share e.pos).home = .own

theorem share_withTile (h : s.ownShare e) (m : Memory) (b p : Nat) : ((s.withTile e m).block b).share p =
    if e.block = b ∧ e.pos = p then { (s.block b).share p with tile := m } else (s.block b).share p := by
  unfold State.withTile
  rw [share_updShare]
  by_cases hb : e.block = b ∧ e.pos = p
  · obtain ⟨rfl, rfl⟩ := hb
    rw [if_pos ⟨⟨rfl, h.1⟩, rfl, h.2.1⟩, if_pos ⟨rfl, rfl⟩]
  · rw [if_neg fun k => hb ⟨k.1.1, k.2.1⟩, if_neg hb]

theorem engineOf_withTile (h : s.ownShare e) (m : Memory) (a : Agent) : (s.withTile e m).engineOf a = s.engineOf a := by
  unfold State.engineOf
  rw [share_withTile h]
  split <;> rfl

theorem tileSizeOf_withTile (m : Memory) (b : Nat) : (s.withTile e m).tileSizeOf b = s.tileSizeOf b := by
  unfold State.tileSizeOf State.withTile
  rw [block_updShare]
  split <;> rfl

theorem ownShare_withTile (h : s.ownShare e) (m : Memory) : (s.withTile e m).ownShare e := by
  refine ⟨?_, ?_, ?_⟩
  · exact (updAt_length _ _ _).symm ▸ h.1
  · unfold State.withTile; rw [block_updShare, if_pos ⟨rfl, h.1⟩]; exact (updAt_length _ _ _).symm ▸ h.2.1
  · rw [share_withTile h, if_pos ⟨rfl, rfl⟩]; exact h.2.2

theorem shareMem_own (h : s.ownShare e) : s.shareMem e.block e.pos = ((s.block e.block).share e.pos).tile := by
  unfold State.shareMem
  simp only [h.2.2]

theorem shareMem_withTile (h : s.ownShare e) (m : Memory) : (s.withTile e m).shareMem e.block e.pos = m := by
  rw [shareMem_own (ownShare_withTile h m), share_withTile h, if_pos ⟨rfl, rfl⟩]

theorem withTile_withTile (m m' : Memory) : (s.withTile e m).withTile e m' = s.withTile e m' := by
  unfold State.withTile State.updShare State.updBlock
  simp only [updAt_updAt, Function.comp_def]

theorem withTile_self (h : s.ownShare e) : s.withTile e (s.shareMem e.block e.pos) = s := by
  have hid : s.updShare e.block e.pos (fun sh => sh) = s := updEngine_id (a := { block := e.block, pos := e.pos }) (f := id) fun _ => rfl
  exact (updShare_congr (by rw [shareMem_own h])).trans hid

theorem entryByte_withTile (h : s.ownShare e) {m : Manifest} (hm : m.tile = true) (M : Memory) (x : Nat) :
    (s.withTile e M).entryByte e m x = if x < s.tileSizeOf e.block then readByte M x else 0 := by
  unfold State.entryByte
  rw [if_pos hm, tileSizeOf_withTile, shareMem_withTile h]

theorem planeWrite_quiet (hq : Quiet s) (h : s.ownShare e) (off : Nat) (bs : List Byte) :
    s.planeWrite e off bs = s.withTile e (writeBytes (s.shareMem e.block e.pos) off (bs.take (s.tileSizeOf e.block - off))) := by
  obtain ⟨hl, -, hg⟩ := hq
  have hmeet (n : Nat) : s.meetTileWrite e.block e.pos off n = s := by
    unfold State.meetTileWrite
    rw [hl]; rfl
  unfold State.planeWrite State.writeTile
  simp only [hmeet]
  have hupd (f : Memory → Memory) : s.updShareMem e.block e.pos f = s.withTile e (f (s.shareMem e.block e.pos)) := by
    have hb : s.updShareMem e.block e.pos f = s.updShare e.block e.pos fun sh => { sh with tile := f sh.tile } := by
      unfold State.updShareMem
      simp only [h.2.2]
    rw [hb]
    exact updShare_congr (by rw [shareMem_own h])
  rw [hupd]
  unfold State.fireTile
  rw [if_pos (by show (s.logs).isEmpty = true; rw [hg]; rfl)]

end

end Sys2Proof.Machine

namespace Sys2Proof.Machine

/-! # Codes packed into bytes (R55) -/

/-- A bit of the bytes of a value. -/
theorem getLsbD_leBytes {n v q r : Nat} (hq : q < n) (hr : r < 8) : ((leBytes n v).getD q 0).getLsbD r = v.testBit (8 * q + r) := by
  have h := testBit_leNat (leBytes n v) (8 * q + r)
  rw [show (8 * q + r) / 8 = q by omega, show (8 * q + r) % 8 = r by omega, leNat_leBytes, show (256 : Nat) = 2 ^ 8 from rfl, ← pow_mul,
    Nat.testBit_mod_two_pow] at h
  rw [← h, decide_eq_true (by omega : 8 * q + r < 8 * n), Bool.true_and]

/-- Elements of a row whose bytes are packed codes. -/
theorem entryCode_of_bytes {s : State} {e : EngineAt} {m : Manifest} {i0 i1 len : Nat} {cs : List Nat} (h8 : fmtBits m.fmt * i0 % 8 = 0)
    (hlen : cs.length * fmtBits m.fmt = 8 * len)
    (hb : ∀ q < len, s.entryByte e m (m.ea i0 i1 0 0 + q) = (leBytes len (packElems (fmtBits m.fmt) cs)).getD q 0) {j : Nat} (hj : j < cs.length) :
    s.entryCode e m (i0 + j) i1 = cs[j] % 2 ^ fmtBits m.fmt := by
  rw [← elemAt_packElems _ _ hj]
  refine Nat.eq_of_testBit_eq fun k => ?_
  rw [testBit_entryCode]
  by_cases hk : k < fmtBits m.fmt
  · have h1 : (j + 1) * fmtBits m.fmt ≤ cs.length * fmtBits m.fmt := Nat.mul_le_mul_right _ hj
    rw [Nat.succ_mul, Nat.mul_comm j] at h1
    have h2 := Nat.mul_add (fmtBits m.fmt) i0 j
    have h3 : m.ea 0 i1 0 0 + (fmtBits m.fmt * (i0 + j) + k) / 8 = m.ea i0 i1 0 0 + (fmtBits m.fmt * j + k) / 8 := by
      simp only [Manifest.ea, Manifest.bytesOf, Nat.zero_mul, Nat.zero_div, Nat.mul_comm i0]
      omega
    unfold State.rowBit
    rw [h3, hb _ (by omega), show (fmtBits m.fmt * (i0 + j) + k) % 8 = (fmtBits m.fmt * j + k) % 8 by omega, getLsbD_leBytes (by omega) (by omega),
      testBit_elemAt hk, decide_eq_true hk, Bool.true_and]
    congr 1
    omega
  · rw [decide_eq_false hk, Bool.false_and]
    exact (Nat.testBit_lt_two_pow ((Nat.mod_lt _ (Nat.two_pow_pos _)).trans_le (Nat.pow_le_pow_right two_pos (not_lt.1 hk)))).symm

/-! # The writes of a drain (R312) -/

/-- The writes of the row `i` of a drain. -/
def MatCmd.rowWrites (c : MatCmd) (i : Nat) (vs : List FVal) : List (Nat × List Byte) :=
  let rm := (Rounding.ofCode (c.x.sub.toNat % 4)).getD .rn
  let w := fmtBits c.ma.fmt
  let c0 := originLo c.oa
  let r := originHi c.oa + i
  if fmtIsMx c.ma.fmt then
    [0, 1].flatMap fun b =>
      let k := convBlock c.ma c.ca rm (((vs.drop (32 * b)).take 32).map .fp)
      (if c.ma.scl then [(c.ma.sa (c0 + 32 * b) r 0 0, [BitVec.ofNat 8 k.2])] else []) ++
        [(c.ma.ea (c0 + 32 * b) r 0 0, leBytes (c.ma.bytesOf 32) (packElems w k.1))]
  else [(c.ma.ea c0 r 0 0, leBytes (8 * w) (packElems w (vs.map fun v => convOne c.ma c.ca rm (.fp v))))]

/-- Row `i` of 64 of a list. -/
def rowOf {α : Type} (vs : List α) (i : Nat) : List α := (vs.drop (64 * i)).take 64

def MatCmd.allWrites (c : MatCmd) (vs : List FVal) : List (Nat × List Byte) := (List.range 64).flatMap fun i => c.rowWrites i (rowOf vs i)

section

variable {s : State} {e : EngineAt}

theorem quiet_withTile (hq : Quiet s) (m : Memory) : Quiet (s.withTile e m) := hq

theorem foldl_planeWrite (hq : Quiet s) (h : s.ownShare e) (ws : List (Nat × List Byte)) :
    ws.foldl (fun t w => t.planeWrite e w.1 w.2) s = s.withTile e (putAll (s.tileSizeOf e.block) (s.shareMem e.block e.pos) ws) := by
  have hgo : ∀ (ws : List (Nat × List Byte)) (m : Memory), ws.foldl (fun t w => t.planeWrite e w.1 w.2) (s.withTile e m) =
      s.withTile e (putAll (s.tileSizeOf e.block) m ws) := fun ws => by
    induction ws with
    | nil => exact fun m => rfl
    | cons w ws ih =>
      intro m
      rw [List.foldl_cons, planeWrite_quiet (quiet_withTile hq m) (ownShare_withTile h m), shareMem_withTile h, tileSizeOf_withTile, withTile_withTile, ih]
      rfl
  have := hgo ws (s.shareMem e.block e.pos)
  rwa [withTile_self h] at this

theorem drainRow_eq (c : MatCmd) (i : Nat) (vs : List FVal) : s.drainRow e c i vs = (c.rowWrites i vs).foldl (fun t w => t.planeWrite e w.1 w.2) s := by
  unfold State.drainRow MatCmd.rowWrites
  simp only
  cases fmtIsMx c.ma.fmt with
  | false => rfl
  | true =>
    rw [if_pos rfl, if_pos rfl, List.foldl_flatMap]
    cases c.ma.scl <;>
      simp only [Bool.false_eq_true, if_true, if_false, List.nil_append, List.foldl_append, List.foldl_cons, List.foldl_nil]

/-- A drain leaves the engine and everything but the bytes of its share. -/
theorem drainAll_eq (hq : Quiet s) (h : s.ownShare e) (c : MatCmd) (vs : List FVal) :
    s.drainAll e c vs = s.withTile e (putAll (s.tileSizeOf e.block) (s.shareMem e.block e.pos) (c.allWrites vs)) := by
  have hz : (rowsOf vs).zipIdx = (List.range 64).map fun i => (rowOf vs i, i) := List.ext_getElem (by simp [rowsOf]) fun i hi hi' => by
    simp [rowsOf, rowOf]
  rw [← foldl_planeWrite hq h]
  unfold State.drainAll MatCmd.allWrites
  rw [hz, List.foldl_map, List.foldl_flatMap]
  simp only [drainRow_eq]

end

/-! # Where they lie (R306) -/

section

variable {c : MatCmd} {e : EngineAt} {s : State} (hd : c.Drainable e s)
include hd

/-- A destination's elements fill whole bytes from the origin on. -/
theorem MatCmd.Drainable.aligned : fmtBits c.ma.fmt * originLo c.oa % 8 = 0 ∧ (fmtIsMx c.ma.fmt = false → fmtBits c.ma.fmt % 8 = 0) := by
  obtain ⟨-, hf⟩ := hd.plane
  unfold drainFmt at hf
  cases hmx : fmtIsMx c.ma.fmt with
  | true =>
    obtain ⟨h0, -⟩ := hd.blocks hmx
    refine ⟨?_, nofun⟩
    obtain ⟨k, hk⟩ := Nat.dvd_of_mod_eq_zero h0
    rw [hk, show fmtBits c.ma.fmt * (32 * k) = 8 * (fmtBits c.ma.fmt * (4 * k)) by ring]
    exact Nat.mul_mod_right _ _
  | false =>
    rw [hmx, Bool.or_false, Bool.and_eq_true, decide_eq_true_eq, decide_eq_true_eq] at hf
    have hb : fmtBits c.ma.fmt % 8 = 0 := by
      obtain h | h | h : c.ma.fmt = 6 ∨ c.ma.fmt = 7 ∨ c.ma.fmt = 8 := by omega
      all_goals rw [h]; rfl
    refine ⟨?_, fun _ => hb⟩
    rw [Nat.mul_mod, hb, Nat.zero_mul, Nat.zero_mod]

omit hd in
theorem bytesOf_64 (m : Manifest) : m.bytesOf 64 = 8 * fmtBits m.fmt ∧ m.bytesOf 32 = 4 * fmtBits m.fmt := by
  unfold Manifest.bytesOf; omega

/-- Rows lie one after another inside the plane. -/
theorem MatCmd.Drainable.row_bounds {i : Nat} (hi : i < 64) : c.ma.base ≤ c.rowAt i ∧ c.rowAt i + 8 * fmtBits c.ma.fmt ≤ c.ma.footEnd ∧
    ∀ k, i < k → k < 64 → c.rowAt i + 8 * fmtBits c.ma.fmt ≤ c.rowAt k := by
  obtain ⟨-, hx, hy⟩ := hd.inside
  have hrows := hd.rows
  have h1 : (originLo c.oa + 64) * fmtBits c.ma.fmt ≤ c.ma.ext 0 * fmtBits c.ma.fmt := Nat.mul_le_mul_right _ hx
  rw [Nat.add_mul] at h1
  have h2 : (originHi c.oa + i) * c.ma.stride 1 ≤ (c.ma.ext 1 - 1) * c.ma.stride 1 := Nat.mul_le_mul_right _ (by omega)
  refine ⟨?_, ?_, fun k hik hk => ?_⟩
  · unfold MatCmd.rowAt Manifest.ea; omega
  · unfold MatCmd.rowAt Manifest.ea Manifest.footEnd Manifest.bytesOf; omega
  · have h3 : (originHi c.oa + i + 1) * c.ma.stride 1 ≤ (originHi c.oa + k) * c.ma.stride 1 := Nat.mul_le_mul_right _ (by omega)
    rw [Nat.succ_mul] at h3
    unfold Manifest.bytesOf at hrows
    unfold MatCmd.rowAt Manifest.ea
    omega

/-- The second block of a row follows the first. -/
theorem MatCmd.Drainable.block_at (i b : Nat) :
    c.ma.ea (originLo c.oa + 32 * b) (originHi c.oa + i) 0 0 = c.rowAt i + 4 * fmtBits c.ma.fmt * b := by
  have h := hd.aligned.1
  have h1 : (originLo c.oa + 32 * b) * fmtBits c.ma.fmt = fmtBits c.ma.fmt * originLo c.oa + 8 * (4 * fmtBits c.ma.fmt * b) := by ring
  unfold MatCmd.rowAt Manifest.ea Manifest.bytesOf
  rw [h1, Nat.mul_comm (originLo c.oa)]
  omega

/-- Two scales lie on one byte only if they are the same. -/
theorem MatCmd.Drainable.scale_inj (hmx : fmtIsMx c.ma.fmt = true) {i b i' b' : Nat} (hb : b < 2) (hb' : b' < 2)
    (h : c.ma.sa (originLo c.oa + 32 * b) (originHi c.oa + i) 0 0 = c.ma.sa (originLo c.oa + 32 * b') (originHi c.oa + i') 0 0) : i = i' ∧ b = b' := by
  obtain ⟨h0, h32⟩ := hd.blocks hmx
  obtain ⟨-, hx, -⟩ := hd.inside
  have hk : ∀ b < 2, (originLo c.oa + 32 * b) / 32 < c.ma.ext 0 / 32 := fun b hb => by omega
  have h1 := hk b hb
  have h2 := hk b' hb'
  unfold Manifest.sa at h
  simp only [Nat.mul_zero, Nat.add_zero] at h
  generalize hE : c.ma.ext 0 / 32 = E at h h1 h2
  have hpos : 0 < E := by omega
  have heq : (originLo c.oa + 32 * b) / 32 + E * (originHi c.oa + i) = (originLo c.oa + 32 * b') / 32 + E * (originHi c.oa + i') := by omega
  have hdiv := congrArg (· / E) heq
  have hmod := congrArg (· % E) heq
  simp only [Nat.add_mul_div_left _ _ hpos, Nat.div_eq_of_lt h1, Nat.div_eq_of_lt h2, Nat.add_mul_mod_self_left, Nat.mod_eq_of_lt h1,
    Nat.mod_eq_of_lt h2] at hdiv hmod
  omega

end

end Sys2Proof.Machine

namespace Sys2Proof.Machine

section

variable {c : MatCmd} {e : EngineAt} {s : State} (hd : c.Drainable e s)
include hd

/-- A write of a row lies in the row, or is one scale. -/
theorem MatCmd.Drainable.rowWrites_mem (i : Nat) (vs : List FVal) {w : Nat × List Byte} (hw : w ∈ c.rowWrites i vs) :
    (c.rowAt i ≤ w.1 ∧ w.1 + w.2.length ≤ c.rowAt i + 8 * fmtBits c.ma.fmt) ∨
      (c.ma.scaled = true ∧ ∃ b < 2, w.1 = c.ma.sa (originLo c.oa + 32 * b) (originHi c.oa + i) 0 0 ∧ w.2.length = 1) := by
  unfold MatCmd.rowWrites at hw
  simp only at hw
  cases hmx : fmtIsMx c.ma.fmt with
  | false =>
    rw [hmx, if_neg (by simp), List.mem_singleton] at hw
    rw [hw]
    exact .inl ⟨le_refl _, by rw [leBytes_length]; exact le_refl _⟩
  | true =>
    rw [hmx, if_pos rfl] at hw
    obtain ⟨b, hb, hw⟩ := List.mem_flatMap.1 hw
    have hb2 : b < 2 := by
      simp only [List.mem_cons, List.not_mem_nil, or_false] at hb
      omega
    rcases List.mem_append.1 hw with hw | hw
    · cases hscl : c.ma.scl with
      | false => rw [hscl] at hw; simp at hw
      | true =>
        rw [hscl, if_pos rfl, List.mem_singleton] at hw
        rw [hw]
        exact .inr ⟨by unfold Manifest.scaled; rw [hmx, hscl]; rfl, b, hb2, rfl, rfl⟩
    · rw [List.mem_singleton] at hw
      rw [hw, hd.block_at]
      refine .inl ⟨Nat.le_add_right _ _, ?_⟩
      rw [leBytes_length, (bytesOf_64 c.ma).2]
      have : fmtBits c.ma.fmt * b ≤ fmtBits c.ma.fmt * 1 := Nat.mul_le_mul_left _ (by omega)
      rw [Nat.mul_assoc]
      omega

/-- A scale lies off every row. -/
theorem MatCmd.Drainable.scale_off (hsc : c.ma.scaled = true) {i b : Nat} (hi : i < 64) (hb : b < 2) {k A len : Nat} (hk : k < 64)
    (h1 : c.rowAt k ≤ A) (h2 : A + len ≤ c.rowAt k + 8 * fmtBits c.ma.fmt) :
    c.ma.sa (originLo c.oa + 32 * b) (originHi c.oa + i) 0 0 + 1 ≤ A ∨ A + len ≤ c.ma.sa (originLo c.oa + 32 * b) (originHi c.oa + i) 0 0 := by
  obtain ⟨-, hoff⟩ := hd.apart hsc i hi b hb
  obtain ⟨g1, g2, -⟩ := hd.row_bounds hk
  omega

omit hd in
theorem scaled_mx (h : c.ma.scaled = true) : fmtIsMx c.ma.fmt = true := by
  unfold Manifest.scaled at h
  rw [Bool.and_eq_true] at h
  exact h.1

theorem MatCmd.Drainable.row_apart {i : Nat} (hi : i < 64) (vs : List FVal) : Apart (c.rowWrites i vs) := by
  unfold MatCmd.rowWrites
  simp only
  cases hmx : fmtIsMx c.ma.fmt with
  | false => exact List.pairwise_singleton _ _
  | true =>
    have hdata : ∀ b < 2, c.rowAt i ≤ c.ma.ea (originLo c.oa + 32 * b) (originHi c.oa + i) 0 0 ∧
        c.ma.ea (originLo c.oa + 32 * b) (originHi c.oa + i) 0 0 + c.ma.bytesOf 32 ≤ c.rowAt i + 8 * fmtBits c.ma.fmt := fun b hb => by
      have : fmtBits c.ma.fmt * b ≤ fmtBits c.ma.fmt * 1 := Nat.mul_le_mul_left _ (by omega)
      rw [hd.block_at, (bytesOf_64 c.ma).2, Nat.mul_assoc]
      omega
    have hblocks : c.ma.ea (originLo c.oa + 32 * 0) (originHi c.oa + i) 0 0 + c.ma.bytesOf 32 ≤
        c.ma.ea (originLo c.oa + 32 * 1) (originHi c.oa + i) 0 0 := by
      rw [hd.block_at, hd.block_at, (bytesOf_64 c.ma).2]
      omega
    cases hscl : c.ma.scl with
    | false => simpa [Apart, leBytes_length] using .inl hblocks
    | true =>
      have hsc : c.ma.scaled = true := by unfold Manifest.scaled; rw [hmx, hscl]; rfl
      have hoff : ∀ b < 2, ∀ b' < 2, _ := fun b hb b' hb' => hd.scale_off hsc hi hb hi (hdata b' hb').1 (hdata b' hb').2
      have hne : c.ma.sa (originLo c.oa + 32 * 0) (originHi c.oa + i) 0 0 ≠ c.ma.sa (originLo c.oa + 32 * 1) (originHi c.oa + i) 0 0 := fun h =>
        absurd (hd.scale_inj hmx (by decide) (by decide) h).2 (by decide)
      have h00 := hoff 0 (by decide) 0 (by decide)
      have h01 := hoff 0 (by decide) 1 (by decide)
      have h10 := hoff 1 (by decide) 0 (by decide)
      have h11 := hoff 1 (by decide) 1 (by decide)
      simp only [Apart, if_true, List.flatMap_cons, List.flatMap_nil, List.cons_append, List.nil_append, List.append_nil, List.pairwise_cons,
        List.mem_cons, List.not_mem_nil, or_false, forall_eq_or_imp, forall_eq, leBytes_length, List.length_singleton, IsEmpty.forall_iff,
        implies_true, List.Pairwise.nil, and_true]
      refine ⟨⟨h00, ?_, h01⟩, ⟨h10.symm, .inl hblocks⟩, h11⟩
      omega

theorem MatCmd.Drainable.all_apart (vs : List FVal) : Apart (c.allWrites vs) := by
  refine List.pairwise_flatMap.2 ⟨fun i hi => hd.row_apart (List.mem_range.1 hi) _, ?_⟩
  refine List.pairwise_lt_range.imp_of_mem fun {i k} hi hk hik x hx y hy => ?_
  have hi := List.mem_range.1 hi
  have hk := List.mem_range.1 hk
  have hrows := (hd.row_bounds hi).2.2 k hik hk
  rcases hd.rowWrites_mem i _ hx with ⟨h1, h2⟩ | ⟨hsc, b, hb, h1, h2⟩
  · rcases hd.rowWrites_mem k _ hy with ⟨g1, g2⟩ | ⟨hsc, b, hb, g1, g2⟩
    · omega
    · have := hd.scale_off hsc hk hb hi h1 h2
      omega
  · rcases hd.rowWrites_mem k _ hy with ⟨g1, g2⟩ | ⟨-, b', hb', g1, g2⟩
    · have := hd.scale_off hsc hi hb hk g1 g2
      omega
    · have : x.1 ≠ y.1 := fun h => by
        have := (hd.scale_inj (scaled_mx hsc) hb hb' (by rw [← h1, ← g1, h])).1
        omega
      omega

theorem MatCmd.Drainable.own : s.ownShare e := hd.share

/-- What each write of a drain leaves. -/
theorem MatCmd.Drainable.written (hq : Quiet s) (vs : List FVal) {i : Nat} (hi : i < 64) {w : Nat × List Byte} (hw : w ∈ c.rowWrites i (rowOf vs i))
    {q : Nat} (hlt : q < w.2.length) : (s.drainAll e c vs).entryByte e c.ma (w.1 + q) = w.2.getD q 0 := by
  have hlim : w.1 + q < s.tileSizeOf e.block := by
    have hfoot := hd.inside.1
    rcases hd.rowWrites_mem i _ hw with ⟨h1, h2⟩ | ⟨hsc, b, hb, h1, h2⟩
    · have := (hd.row_bounds hi).2.1
      omega
    · have := (hd.apart hsc i hi b hb).1
      omega
  rw [drainAll_eq hq hd.own, entryByte_withTile hd.own hd.plane.1, if_pos hlim]
  exact readByte_putAll (hd.all_apart vs) (List.mem_flatMap.2 ⟨i, List.mem_range.2 hi, hw⟩) hlt hlim _

/-- What a drain leaves alone. -/
theorem MatCmd.Drainable.unwritten (hq : Quiet s) (vs : List FVal) {x : Nat} (hrows : ∀ i < 64, x < c.rowAt i ∨ c.rowAt i + c.ma.bytesOf 64 ≤ x)
    (hscales : c.ma.scaled = true → ∀ i < 64, ∀ b < 2, x ≠ c.ma.sa (originLo c.oa + 32 * b) (originHi c.oa + i) 0 0) :
    (s.drainAll e c vs).entryByte e c.ma x = s.entryByte e c.ma x := by
  rw [drainAll_eq hq hd.own, entryByte_withTile hd.own hd.plane.1, readByte_putAll_outside]
  · unfold State.entryByte
    rw [if_pos hd.plane.1]
  · intro w hw
    obtain ⟨i, hi, hw⟩ := List.mem_flatMap.1 hw
    have hi := List.mem_range.1 hi
    have h64 := (bytesOf_64 c.ma).1
    rcases hd.rowWrites_mem i _ hw with ⟨h1, h2⟩ | ⟨hsc, b, hb, h1, h2⟩
    · have := hrows i hi
      omega
    · have := hscales hsc i hi b hb
      omega

end

/-! # The values a drain writes (R271, R312) -/

theorem drainRounding (x : BitVec 4) : (Rounding.ofCode (x.toNat % 4)).getD .rn = modeOf (x.setWidth 3) := by revert x; decide

/-- The formats of a drain. -/
theorem drain_formats {m : Manifest} (h : drainFmt m.fmt = true) :
    fmtFloat m.fmt ∈ formats ∧ (fmtFloat m.fmt).width = fmtBits m.fmt ∧ fmtIsInt m.fmt = false ∧
      (fmtIsMx m.fmt = true → (mxFormat (fmtMx m.fmt)).width = fmtBits m.fmt) := by
  have hmem : m.fmt ∈ [6, 7, 8, 0x10, 0x11, 0x12, 0x13, 0x14, 0x15] := by
    unfold drainFmt fmtIsMx at h
    simp only [Bool.or_eq_true, Bool.and_eq_true, decide_eq_true_eq] at h
    simp only [List.mem_cons, List.not_mem_nil, or_false]
    omega
  revert hmem
  generalize m.fmt = f
  revert f
  decide

/-- An element passes the curve of its destination. -/
theorem MatCmd.curved_fwd {c : MatCmd} (hc : ∀ k, c.ca = some k → k.Sound) (v : Word) : c.Curved v (curveFwd c.ca (rne32 (wordVal v))) := by
  obtain ⟨fl, hr⟩ := rne32_rounds (wordVal v)
  exact ⟨_, fl, hr, rne32_lt _, curveFwd_forward hc _⟩

/-- A code of a destination that is not microscaled. -/
theorem convOne_rounds {c : MatCmd} (hf : drainFmt c.ma.fmt = true) (hc : c.ma.curveSlot = 0 → c.ca = none) (rm : Rounding) (v : Word) :
    (∃ fl, Rounds (fmtFloat c.ma.fmt) rm c.ma.sat (exactOf (decodeFp fp32 (curveFwd c.ca (rne32 (wordVal v))).1))
      (convOne c.ma c.ca rm (.fp (wordVal v))) fl) ∧ convOne c.ma c.ca rm (.fp (wordVal v)) < 2 ^ fmtBits c.ma.fmt := by
  obtain ⟨hmem, hw, hint, -⟩ := drain_formats hf
  have hconv : convOne c.ma c.ca rm (.fp (wordVal v)) =
      (roundFp (fmtFloat c.ma.fmt) rm (if c.ma.curveSlot ≠ 0 then decodeFp fp32 (curveFwd c.ca (rne32 (wordVal v))).1 else wordVal v) c.ma.sat).1 := by
    unfold convOne
    simp only [hint, Bool.false_eq_true, if_false]
    rfl
  rw [hconv]
  refine ⟨?_, hw ▸ roundFp_lt hmem ..⟩
  have hx : exactOf (if c.ma.curveSlot ≠ 0 then decodeFp fp32 (curveFwd c.ca (rne32 (wordVal v))).1 else wordVal v) =
      exactOf (decodeFp fp32 (curveFwd c.ca (rne32 (wordVal v))).1) := by
    by_cases h0 : c.ma.curveSlot = 0
    · rw [if_neg (not_not.2 h0), hc h0]
      exact (exactOf_decode_rne32 _).symm
    · rw [if_pos h0]
  rw [← hx]
  exact ⟨_, roundFp_rounds hmem rm _ _⟩

theorem quantOne_lt (m : MxFmt) (rm : Rounding) (sat : Bool) (cv : Option Curve) (a scale : Nat) :
    (quantOne m rm sat cv a scale).val.toNat < 2 ^ (mxFormat m).width := by
  have hlt : ∀ x sat, (roundFp (mxFormat m) rm x sat).1 % 2 ^ 128 < 2 ^ (mxFormat m).width := fun x sat =>
    (Nat.mod_le _ _).trans_lt (roundFp_lt (mxFormat_mem m) rm sat x)
  unfold quantOne
  simp only
  split
  · exact hlt _ _
  · exact hlt _ _

end Sys2Proof.Machine

namespace Sys2Proof.Machine

/-! # Drains (R271, R312, R313) -/

section

variable {c : MatCmd} {e : EngineAt} {s : State} (hd : c.Drainable e s) (hq : Quiet s) {ws : List Word} (hws : ws.length = 4096)

theorem getElem_rowOf {ws : List Word} (hws : ws.length = 4096) {i j : Nat} (hi : i < 64) (hj : j < 64) :
    ∃ h : j < (rowOf (ws.map wordVal) i).length, (rowOf (ws.map wordVal) i)[j] = wordVal (ws.getD (64 * i + j) 0) := by
  have hlt : 64 * i + j < ws.length := by omega
  refine ⟨by simp [rowOf, hws]; omega, ?_⟩
  simp only [rowOf, List.getElem_take, List.getElem_drop, List.getElem_map, List.getD_eq_getElem _ _ hlt]

theorem length_rowOf {ws : List Word} (hws : ws.length = 4096) {i : Nat} (hi : i < 64) : (rowOf (ws.map wordVal) i).length = 64 := by
  simp [rowOf, hws]; omega

include hd hq hws

/-- The codes of a plane that is not microscaled. -/
theorem MatCmd.Drainable.plain_codes (hmx : fmtIsMx c.ma.fmt = false) {i j : Nat} (hi : i < 64) (hj : j < 64) :
    ∃ y fl, c.Curved (ws.getD (64 * i + j) 0) y ∧ Rounds (fmtFloat c.ma.fmt) (modeOf (c.x.sub.setWidth 3)) c.ma.sat (exactOf (decodeFp fp32 y.1))
      ((s.drainAll e c (ws.map wordVal)).entryCode e c.ma (originLo c.oa + j) (originHi c.oa + i)) fl := by
  obtain ⟨⟨fl, hr⟩, hlt⟩ := convOne_rounds (c := c) hd.plane.2 hd.curve.1 (modeOf (c.x.sub.setWidth 3)) (ws.getD (64 * i + j) 0)
  obtain ⟨hjl, hget⟩ := getElem_rowOf hws hi hj
  have hw : (c.rowAt i, leBytes (8 * fmtBits c.ma.fmt) (packElems (fmtBits c.ma.fmt)
      ((rowOf (ws.map wordVal) i).map fun v => convOne c.ma c.ca (modeOf (c.x.sub.setWidth 3)) (.fp v)))) ∈ c.rowWrites i (rowOf (ws.map wordVal) i) := by
    unfold MatCmd.rowWrites
    simp only
    rw [hmx, if_neg (by simp), drainRounding]
    exact List.mem_singleton.2 rfl
  have hcode := entryCode_of_bytes (s := s.drainAll e c (ws.map wordVal)) (e := e) (m := c.ma) (i0 := originLo c.oa) (i1 := originHi c.oa + i)
    (len := 8 * fmtBits c.ma.fmt) (cs := (rowOf (ws.map wordVal) i).map fun v => convOne c.ma c.ca (modeOf (c.x.sub.setWidth 3)) (.fp v))
    hd.aligned.1 (by rw [List.length_map, length_rowOf hws hi]; ring)
    (fun q hql => hd.written hq _ hi hw (by rw [leBytes_length]; exact hql)) (j := j) (by rw [List.length_map]; exact hjl)
  rw [List.getElem_map, hget, Nat.mod_eq_of_lt hlt] at hcode
  rw [hcode]
  exact ⟨_, fl, c.curved_fwd hd.curve.2 _, hr⟩

/-- The codes and the scale of a block of a microscaled plane. -/
theorem MatCmd.Drainable.block_codes (hmx : fmtIsMx c.ma.fmt = true) {i b : Nat} (hi : i < 64) (hb : b < 2) :
    let t := s.drainAll e c (ws.map wordVal)
    ∃ (ys : Nat → Nat × Flags) (sc : Nat), (∀ j < 32, c.Curved (ws.getD (64 * i + (32 * b + j)) 0) (ys j)) ∧
      (c.ma.scl = true → IsScale (fmtMx c.ma.fmt) ((List.range 32).map fun j => (ys j).1) sc) ∧ (c.ma.scl = false → sc = 0x7F) ∧
      t.entryScale e c.ma (originLo c.oa + 32 * b) (originHi c.oa + i) = sc ∧
      ∀ j < 32, ∃ q : LaneRes, Quantises (fmtMx c.ma.fmt) (modeOf (c.x.sub.setWidth 3)) c.ma.sat none (ys j).1 sc q ∧
        t.entryCode e c.ma (originLo c.oa + (32 * b + j)) (originHi c.oa + i) = q.val.toNat := by
  intro t
  set rm := modeOf (c.x.sub.setWidth 3) with hrm
  set ys : Nat → Nat × Flags := fun j => curveFwd c.ca (rne32 (wordVal (ws.getD (64 * i + (32 * b + j)) 0))) with hys
  set sc : Nat := if c.ma.scl then scaleCode (fmtMx c.ma.fmt) ((List.range 32).map fun j => (ys j).1) else 0x7F with hsc
  have hle : sc < 256 := by
    rw [hsc]
    split
    · have := scaleCode_le (fmtMx c.ma.fmt) ((List.range 32).map fun j => (ys j).1); omega
    · decide
  have hpart : (((rowOf (ws.map wordVal) i).drop (32 * b)).take 32).map NumVal.fp = (List.range 32).map fun j => .fp (wordVal (ws.getD (64 * i + (32 * b + j)) 0)) := by
    refine List.ext_getElem (by simp [length_rowOf hws hi]; omega) fun j hj hj' => ?_
    have hj32 : j < 32 := by simpa using hj'
    obtain ⟨_, hget⟩ := getElem_rowOf hws hi (by omega : 32 * b + j < 64)
    simp only [List.getElem_map, List.getElem_take, List.getElem_drop, List.getElem_range, hget]
  have hblock : convBlock c.ma c.ca rm ((((rowOf (ws.map wordVal) i).drop (32 * b)).take 32).map .fp) =
      ((List.range 32).map fun j => (quantOne (fmtMx c.ma.fmt) rm c.ma.sat none (ys j).1 sc).val.toNat, sc) := by
    rw [hpart]
    unfold convBlock
    simp only [List.map_map, Function.comp_def, NumVal.exact]
    rfl
  have hwrites : c.rowWrites i (rowOf (ws.map wordVal) i) = [0, 1].flatMap fun b =>
      let k := convBlock c.ma c.ca rm ((((rowOf (ws.map wordVal) i).drop (32 * b)).take 32).map .fp)
      (if c.ma.scl then [(c.ma.sa (originLo c.oa + 32 * b) (originHi c.oa + i) 0 0, [BitVec.ofNat 8 k.2])] else []) ++
        [(c.ma.ea (originLo c.oa + 32 * b) (originHi c.oa + i) 0 0, leBytes (c.ma.bytesOf 32) (packElems (fmtBits c.ma.fmt) k.1))] := by
    unfold MatCmd.rowWrites
    simp only
    rw [hmx, if_pos rfl, drainRounding]
  have hbmem : b ∈ [0, 1] := by simp only [List.mem_cons, List.not_mem_nil, or_false]; omega
  refine ⟨ys, sc, fun j _ => c.curved_fwd hd.curve.2 _, fun h => ?_, fun h => ?_, ?_, fun j hj => ⟨quantOne (fmtMx c.ma.fmt) rm c.ma.sat none (ys j).1 sc, ?_, ?_⟩⟩
  · rw [hsc, if_pos h]; exact scaleCode_isScale _ _
  · rw [hsc, if_neg (by simp [h])]
  · unfold State.entryScale Manifest.scaled
    rw [hmx, Bool.true_and]
    cases hscl : c.ma.scl with
    | false => rw [if_neg (by simp), hsc, if_neg (by simp [hscl])]
    | true =>
      have hw : (c.ma.sa (originLo c.oa + 32 * b) (originHi c.oa + i) 0 0, [BitVec.ofNat 8 sc]) ∈ c.rowWrites i (rowOf (ws.map wordVal) i) := by
        rw [hwrites]
        refine List.mem_flatMap.2 ⟨b, hbmem, List.mem_append.2 (.inl ?_)⟩
        rw [hscl, if_pos rfl, hblock]
        exact List.mem_singleton.2 rfl
      have := hd.written hq (ws.map wordVal) hi hw (q := 0) (by simp)
      rw [Nat.add_zero] at this
      rw [if_pos rfl, this, List.getD_cons_zero, BitVec.toNat_ofNat, Nat.mod_eq_of_lt hle]
  · have := quantOne_quantises (fmtMx c.ma.fmt) rm c.ma.sat (c := none) (fun _ h => nomatch h) (ys j).1 sc
    rwa [Nat.mod_eq_of_lt hle] at this
  · have hw : (c.ma.ea (originLo c.oa + 32 * b) (originHi c.oa + i) 0 0, leBytes (4 * fmtBits c.ma.fmt) (packElems (fmtBits c.ma.fmt)
        ((List.range 32).map fun j => (quantOne (fmtMx c.ma.fmt) rm c.ma.sat none (ys j).1 sc).val.toNat))) ∈
          c.rowWrites i (rowOf (ws.map wordVal) i) := by
      rw [hwrites]
      refine List.mem_flatMap.2 ⟨b, hbmem, List.mem_append.2 (.inr ?_)⟩
      rw [hblock, (bytesOf_64 c.ma).2]
      exact List.mem_singleton.2 rfl
    have h8 : fmtBits c.ma.fmt * (originLo c.oa + 32 * b) % 8 = 0 := by
      rw [Nat.mul_add, show fmtBits c.ma.fmt * (32 * b) = 8 * (fmtBits c.ma.fmt * (4 * b)) by ring, Nat.add_mul_mod_self_left]
      exact hd.aligned.1
    have hcode := entryCode_of_bytes (s := t) (e := e) (m := c.ma) (i0 := originLo c.oa + 32 * b) (i1 := originHi c.oa + i)
      (len := 4 * fmtBits c.ma.fmt) (cs := (List.range 32).map fun j => (quantOne (fmtMx c.ma.fmt) rm c.ma.sat none (ys j).1 sc).val.toNat) h8
      (by rw [List.length_map, List.length_range]; ring)
      (fun q hql => hd.written hq _ hi hw (by rw [leBytes_length]; exact hql)) (j := j) (by simpa using hj)
    rw [List.getElem_map, List.getElem_range, Nat.mod_eq_of_lt ((drain_formats hd.plane.2).2.2.2 hmx ▸ quantOne_lt ..)] at hcode
    rw [← hcode, Nat.add_assoc]

/-- A drain of words. -/
theorem MatCmd.Drainable.drains {src : Nat → Nat → Word → Prop} (hsrc : ∀ i < 64, ∀ j < 64, src i j (ws.getD (64 * i + j) 0)) :
    c.Drains e src s (s.drainAll e c (ws.map wordVal)) := by
  refine ⟨fun i hi => ⟨fun hmx j hj => ?_, fun hmx b hb => ?_⟩, fun x hrows hscales => hd.unwritten hq _ hrows hscales⟩
  · obtain ⟨y, fl, hy, hr⟩ := hd.plain_codes hq hws hmx hi hj
    exact ⟨_, y, fl, hsrc i hi j hj, hy, hr⟩
  · obtain ⟨ys, sc, h1, h2, h3, h4, h5⟩ := hd.block_codes hq hws hmx hi hb
    exact ⟨ys, sc, fun j hj => ⟨_, hsrc i hi (32 * b + j) (by omega), h1 j hj⟩, h2, h3, h4, h5⟩

end

end Sys2Proof.Machine

namespace Sys2Proof.Machine

section

variable {s : State} {i : Nat} {c : MatCmd} {rest : List MatCmd}

/-- What a drain is does not change with the state after it, while the plane's bytes stay. -/
theorem MatCmd.Drains.congr {e : EngineAt} {src : Nat → Nat → Word → Prop} {t u : State} (h : c.Drains e src s t)
    (hb : ∀ x, u.entryByte e c.ma x = t.entryByte e c.ma x) : c.Drains e src s u := by
  have hcode : u.entryCode e c.ma = t.entryCode e c.ma := by funext i0 i1; unfold State.entryCode; simp only [hb]
  have hscale : u.entryScale e c.ma = t.entryScale e c.ma := by funext i0 i1; unfold State.entryScale; simp only [hb]
  unfold MatCmd.Drains at h ⊢
  simp only [hcode, hscale, hb]
  exact h

theorem getD_foldl_clear (ks : List Nat) (l : List Accum) {k : Nat} (hk : k < l.length) :
    (ks.foldl (fun l k => updAt l k fun r : Accum => { r with elems := [] }) l).getD k {} =
      if k ∈ ks then { l.getD k {} with elems := [] } else l.getD k {} := by
  induction ks generalizing l with
  | nil => simp
  | cons j ks ih =>
    rw [List.foldl_cons, ih _ (by simpa using hk), getD_updAt]
    by_cases hj : j = k
    · subst hj; simp [hk]
    · simp [hj, Ne.symm hj]

/-- The accumulators a drain clears where ZRO asks for it (R312). -/
def State.cleared (s : State) (a : Agent) (c : MatCmd) (ks : List Nat) : State :=
  if matZro c.x then ks.foldl (fun u k => u.updAcc a k fun r => { r with elems := [] }) s else s

/-- A drain of words, then the clearing of accumulators `ks`. -/
theorem drain_command (hq : Quiet s) (hs : s.hasEngine (s.agent i)) (hlen : (s.engineOf (s.agent i)).acc.length = 8) {e : EngineAt}
    (hd : c.Drainable e s) {ws : List Word} (hws : ws.length = 4096) {ks : List Nat}
    (hrun : s.runCommand i c = (s.drainAll e c (ws.map wordVal)).cleared (s.agent i) c ks) {src : Nat → Nat → Word → Prop}
    (hsrc : ∀ i < 64, ∀ j < 64, src i j (ws.getD (64 * i + j) 0)) :
    c.Drains e src s (s.afterCommand i c rest) ∧
      ∀ j < 8, (s.afterCommand i c rest).acc i j = if matZro c.x = true ∧ j ∈ ks then { s.acc i j with elems := [] } else s.acc i j := by
  have hu : (s.drainAll e c (ws.map wordVal)).engineOf (s.agent i) = s.engineOf (s.agent i) := by
    rw [drainAll_eq hq hd.own]; exact engineOf_withTile hd.own _ _
  have hus : (s.drainAll e c (ws.map wordVal)).hasEngine (s.agent i) := (queuesKept_drainAll _ _ _).hasEngine hs
  refine ⟨(hd.drains hq hws hsrc).congr fun x => ?_, fun j hj => ?_⟩
  · unfold State.afterCommand
    rw [entryByte_updEngine _ _ _ hd.plane.1, hrun]
    unfold State.cleared
    split
    · rw [foldl_updAcc, entryByte_updEngine _ _ _ hd.plane.1]
    · rfl
  · rw [acc_afterCommand hs, hrun]
    unfold State.cleared
    cases hz : matZro c.x with
    | false => simp only [Bool.false_eq_true, if_false, false_and]; rw [hu]; rfl
    | true =>
      simp only [if_true, true_and]
      rw [foldl_updAcc, engineOf_updEngine hus, hu]
      exact getD_foldl_clear ks _ (by omega)

/-- mdrn (R312). -/
theorem runCommand_mdrn (hop : c.op = MatOp.mdrn.code) : s.runCommand i c =
    (s.drainAll (s.shareFor (s.agent i) (matP1 c.x)) c ((dense (s.acc i (matAcc c.x)).elems).map wordVal)).cleared (s.agent i) c [matAcc c.x] := by
  unfold State.runCommand
  rw [hop]
  rfl

/-- The guided combination of two elements (R313). -/
def guidedWord (w x y : Word) : Word :=
  BitVec.ofNat 32 (elFma fp32 .rn w.toNat (rne32 (FVal.sum .rn [wordVal x, (wordVal y).neg])) y.toNat).1

theorem guided_rounds (w x y : Word) : wordVal (guidedWord w x y) = guided w x y ∧ ∃ d fl fl',
    Rounds fp32 .rn false ((exactOf (wordVal x)).add .rn (exactOf (wordVal y)).neg) d fl ∧ d < 2 ^ 32 ∧
    Rounds fp32 .rn false (((exactOf (decodeFp fp32 w.toNat)).mul (exactOf (decodeFp fp32 d))).add .rn (exactOf (wordVal y)))
      (guidedWord w x y).toNat fl' := by
  have hlt (a b : Nat) : (elFma fp32 .rn a b y.toNat).1 < 2 ^ 32 := roundFp_lt (f := fp32) (by decide) .rn false _
  obtain ⟨fl, hd⟩ := rne32_rounds (FVal.sum .rn [wordVal x, (wordVal y).neg])
  rw [exactOf_sum_pair, exactOf_neg] at hd
  refine ⟨?_, _, fl, (roundFp fp32 .rn (FVal.sum .rn [(decodeFp fp32 w.toNat).mul (decodeFp fp32 (rne32 (FVal.sum .rn [wordVal x, (wordVal y).neg]))),
    decodeFp fp32 y.toNat]) false).2, hd, rne32_lt _, ?_⟩
  · unfold guidedWord wordVal guided
    rw [toNat_ofNat_lt (hlt _ _)]
    rfl
  · unfold guidedWord
    rw [toNat_ofNat_lt (hlt _ _), ← exactOf_mul, show exactOf (wordVal y) = exactOf (decodeFp fp32 y.toNat) from rfl, ← exactOf_sum_pair]
    exact roundFp_rounds (f := fp32) (by decide) .rn false _

/-- mdrg (R313). -/
theorem runCommand_mdrg (hop : c.op = MatOp.mdrg.code) : s.runCommand i c =
    (s.drainAll (s.shareFor (s.agent i) (matP1 c.x)) c
      ((((dense (s.acc i (matAcc c.x)).elems).zip (dense (s.acc i (matAcc2 c.x)).elems)).map fun z => guidedWord c.w z.1 z.2).map wordVal)).cleared
        (s.agent i) c [matAcc c.x, matAcc2 c.x] := by
  have hv : ∀ l : List (Word × Word), (l.map fun z => guidedWord c.w z.1 z.2).map wordVal = l.map fun z => guided c.w z.1 z.2 := fun l => by
    rw [List.map_map]
    exact List.map_congr_left fun z _ => (guided_rounds c.w z.1 z.2).1
  unfold State.runCommand
  rw [hop, hv]
  rfl

/-- The words a drain converts (R312, R313). -/
def MatCmd.source (c : MatCmd) (s : State) (i r j : Nat) (v : Word) : Prop :=
  (c.op = MatOp.mdrn.code → v = elemOf (s.acc i (matAcc c.x)).elems (64 * r + j)) ∧
  (c.op = MatOp.mdrg.code → ∃ d fl fl',
    let x := exactOf (wordVal (elemOf (s.acc i (matAcc c.x)).elems (64 * r + j)))
    let y := exactOf (wordVal (elemOf (s.acc i (matAcc2 c.x)).elems (64 * r + j)))
    Rounds fp32 .rn false (x.add .rn y.neg) d fl ∧ d < 2 ^ 32 ∧
    Rounds fp32 .rn false (((exactOf (decodeFp fp32 c.w.toNat)).mul (exactOf (decodeFp fp32 d))).add .rn y) v.toNat fl')

/-- mdrn and mdrg are drains of words, and clear what they name (R312, R313). -/
theorem drain_words (hcan : ∀ k < 8, (s.acc i k).canonical) (hop : c.op = MatOp.mdrn.code ∨ c.op = MatOp.mdrg.code) :
    ∃ (ws : List Word) (ks : List Nat), ws.length = 4096 ∧ matAcc c.x ∈ ks ∧ (c.op = MatOp.mdrg.code → matAcc2 c.x ∈ ks) ∧
      (∀ j ∈ ks, j = matAcc c.x ∨ j = matAcc2 c.x ∧ c.op = MatOp.mdrg.code) ∧
      s.runCommand i c = (s.drainAll (s.shareFor (s.agent i) (matP1 c.x)) c (ws.map wordVal)).cleared (s.agent i) c ks ∧
      ∀ r < 64, ∀ j < 64, c.source s i r j (ws.getD (64 * r + j) 0) := by
  have hk : matAcc c.x < 8 := Nat.mod_lt _ (by decide)
  have hu : matAcc2 c.x < 8 := Nat.mod_lt _ (by decide)
  have hne : MatOp.mdrn.code ≠ MatOp.mdrg.code := by decide
  rcases hop with hop | hop
  · refine ⟨_, [matAcc c.x], length_dense _, by simp, fun h => absurd (hop.symm.trans h) hne, by simp +contextual, runCommand_mdrn hop,
      fun r hr j hj => ⟨fun _ => getD_dense (hcan _ hk).1 (by omega), fun h => absurd (hop.symm.trans h) hne⟩⟩
  · refine ⟨_, [matAcc c.x, matAcc2 c.x], by simp, by simp, by simp, by simp +contextual [hop], runCommand_mdrg hop,
      fun r hr j hj => ⟨fun h => absurd (h.symm.trans hop) hne, fun _ => ?_⟩⟩
    have hlt : 64 * r + j < 4096 := by omega
    rw [List.getD_eq_getElem _ _ (by simpa using hlt), List.getElem_map, List.getElem_zip]
    have h1 := getD_dense (hcan _ hk).1 hlt
    have h2 := getD_dense (hcan _ hu).1 hlt
    rw [List.getD_eq_getElem _ _ (by simpa using hlt)] at h1 h2
    rw [h1, h2]
    exact (guided_rounds c.w _ _).2

end

/-- Settles O39: a command leaves its queue and works on the engine and on tile memory alone. The commands of a mask change their
accumulators alike; mma adds the products of a tile's blocks, each the exact sum rounded; the lines of a tile are the elements of its
entry; and a drain is a list of writes that do not meet. -/
theorem matrixCommandsPerformInOrder : Obligations.MatrixCommandsPerformInOrder := by
  refine ⟨fun s i c rest hq hs => ?_, fun s i c rest hq hs hl hr hg hlen hcan => ⟨?_, ?_, ?_⟩⟩
  · refine ⟨_, exec_matrixCommandComplete hq, by rw [engineOf_afterCommand hs], fun hlen hcan hop k hk => ?_⟩
    exact masked_command hs hlen hcan hop hk
  · intro ta tb cl hop hta htb hlatch hrows hold hload
    exact ⟨_, exec_matrixCommandComplete hq, mma_command ⟨hl, hr, hg⟩ hs hlen hcan hop hta htb hlatch hrows hold hload⟩
  · intro hop hidx hm
    obtain ⟨tl, h1, h2, h3, h4⟩ := mgth_command (rest := rest) ⟨hl, hr, hg⟩ hs hop hidx hm
    exact ⟨_, tl, exec_matrixCommandComplete hq, h1, h2, h3, h4⟩
  · intro hop hd
    have hk : matAcc c.x < 8 := Nat.mod_lt _ (by decide)
    have hu : matAcc2 c.x < 8 := Nat.mod_lt _ (by decide)
    obtain ⟨ws, ks, hws, hmem, hmem2, honly, hrun, hsrc⟩ := drain_words hcan hop
    obtain ⟨hdrain, hacc⟩ := drain_command (rest := rest) ⟨hl, hr, hg⟩ hs hlen hd hws hrun hsrc
    refine ⟨_, exec_matrixCommandComplete hq, hdrain, fun j hj => ?_, fun hz e => ⟨?_, fun hop => ?_⟩⟩
    · rw [hacc j hj]
      by_cases h : matZro c.x = true ∧ j ∈ ks
      · exact .inr ⟨h.1, honly j h.2⟩
      · exact .inl (if_neg h)
    · rw [hacc _ hk, if_pos ⟨hz, hmem⟩]; rfl
    · rw [hacc _ hu, if_pos ⟨hz, hmem2 hop⟩]; rfl

end Sys2Proof.Machine

namespace Sys2Proof.Machine

/-! # Special functions, case by case (R63, R135) -/

/-- What is left where Table 9 fixes neither a special value nor an exact result. -/
def openCase (fn : SpecialFn) (neg : Bool) (m : Nat) (e : Int) (code : Nat) : Nat × Flags :=
  let y := trueValue fn neg m e
  let near := roundFp fp32 .rn y false
  let inexact := flagIf (fn = .exp2 ∨ fn = .log2) flagInexact
  if near.1 = fp32.infCode then (fp32.infCode, flagOverflow ||| inexact)
  else
    let r := openResult fn (.fin neg m e) y code near.1
    (r, inexact ||| flagIf (fn = .exp2 ∧ r < 0x00800000) flagUnderflow)

section

variable {fn : SpecialFn} {code : Nat}

theorem special32_nan {s : Bool} (h : decodeFp fp32 code = .nan s) : special32 fn code = (fp32.nanCode, flagIf s flagInvalid) := by
  simp only [special32, h]

/-- The results at the infinities. -/
def SpecialFn.atInf (fn : SpecialFn) (neg : Bool) : Nat × Flags :=
  match fn with
  | .exp2 | .exp => (if neg then 0 else fp32.infCode, 0)
  | .log2 | .log => if neg then (fp32.nanCode, flagInvalid) else (fp32.infCode, 0)
  | .sin | .cos => (fp32.nanCode, flagInvalid)
  | .tanh => (fp32.signed neg 0x3F800000, 0)
  | .sigm => (if neg then 0 else 0x3F800000, 0)

/-- The results at the zeros. -/
def SpecialFn.atZero (fn : SpecialFn) (code : Nat) : Nat × Flags :=
  match fn with
  | .exp2 | .exp | .cos => (0x3F800000, 0)
  | .log2 | .log => (fp32.signed true fp32.infCode, flagDivZero)
  | .sin | .tanh => (code, 0)
  | .sigm => (0x3F000000, 0)

theorem special32_inf {neg : Bool} (h : decodeFp fp32 code = .inf neg) : special32 fn code = fn.atInf neg := by
  simp only [special32, h]
  rfl

variable {neg : Bool} {m : Nat} {e : Int}

theorem special32_zero (h : decodeFp fp32 code = .fin neg 0 e) : special32 fn code = fn.atZero code := by
  simp only [special32, h, if_true]
  rfl

variable (h : decodeFp fp32 code = .fin neg m e) (hm : m ≠ 0)
include h hm

/-- A number other than zero: a logarithm of a negative one, the exact results of Table 9, and the rest. -/
theorem special32_fin : special32 fn code =
    if (fn = .log2 ∨ fn = .log) ∧ neg then (fp32.nanCode, flagInvalid)
    else if fn = .exp2 ∧ (integerIn neg m e (-149) 127).isSome then
      (rne32 (.fin false 1 ((integerIn neg m e (-149) 127).getD 0)), 0)
    else if (fn = .log2 ∨ fn = .log) ∧ m = 2 ^ Nat.log2 m ∧ (fn = .log2 ∨ leadExp m e = 0) then
      (rne32 (fvalOfInt (leadExp m e)), 0)
    else openCase fn neg m e code := by
  simp only [special32, h, hm, if_false]
  rfl

/-- Of the exponentials, only exp2 has exact results. -/
theorem special32_exp : special32 .exp code = openCase .exp neg m e code := by
  rw [special32_fin h hm, if_neg (by simp), if_neg (by simp), if_neg (by simp)]

theorem special32_exp2 : special32 .exp2 code =
    if (integerIn neg m e (-149) 127).isSome then (rne32 (.fin false 1 ((integerIn neg m e (-149) 127).getD 0)), 0)
    else openCase .exp2 neg m e code := by
  rw [special32_fin h hm, if_neg (by simp)]
  simp

theorem special32_log_neg (hl : fn = .log2 ∨ fn = .log) (hn : neg = true) : special32 fn code = (fp32.nanCode, flagInvalid) := by
  rw [special32_fin h hm, if_pos ⟨hl, hn⟩]

end

/-! ## Codes of the results -/

/-- Every number rounds to a magnitude up to infinity's, with its sign. -/
theorem roundFp_signed (rm : Rounding) (sat n : Bool) (m : Nat) (e : Int) :
    ∃ c ≤ fp32.infCode, (roundFp fp32 rm (.fin n m e) sat).1 = fp32.signed n c := by
  have hmax : fp32.maxCode ≤ fp32.infCode := by decide
  simp only [roundFp]
  split
  · exact ⟨0, Nat.zero_le _, rfl⟩
  · split
    · refine ⟨_, ?_, rfl⟩
      split
      · exact le_refl _
      · exact hmax
    · next h => exact ⟨_, (not_lt.1 h).trans hmax, rfl⟩

theorem signed_fp32 (n : Bool) (c : Nat) : fp32.signed n c = (if n then 2 ^ 31 else 0) + c := signed_regular (regular_of_mem (by decide)) n c

theorem fpPlace_signed (n : Bool) {c : Nat} (hc : c < 2 ^ 31) : fpPlace (fp32.signed n c) = if n then -(c : ℤ) else c := by
  rw [signed_fp32, fpPlace]
  cases n
  · simp only [Bool.false_eq_true, if_false, Nat.zero_add]
    exact if_pos hc
  · simp only [if_true]
    rw [if_neg (by omega), Nat.add_sub_cancel_left]

theorem trueValue_fin (fn : SpecialFn) (neg : Bool) (m : Nat) (e : Int) : ∃ n a g, trueValue fn neg m e = .fin n a g := by
  have hf : ∀ x k, ∃ n a g, fixVal x k = .fin n a g := fun _ _ => ⟨_, _, _, rfl⟩
  unfold trueValue
  simp only
  split
  · exact ⟨_, _, _, rfl⟩
  · split
    · exact ⟨_, _, _, rfl⟩
    · cases fn <;> simp only
      case sigm => cases neg <;> exact hf _ _
      all_goals exact hf _ _

/-- Free cuts choose among the admitted outputs. -/
theorem foldl_cut_mem {α : Type} (p : α → Bool) (l : List α) : ∀ a, l.foldl (fun r c => if p c then c else r) a ∈ a :: l := by
  induction l with
  | nil => simp
  | cons x l ih =>
    intro a
    rw [List.foldl_cons]
    rcases List.mem_cons.1 (ih (if p x then x else a)) with h | h
    · rw [h]; split <;> simp
    · exact List.mem_cons_of_mem _ (List.mem_cons_of_mem _ h)

theorem monotonicAt_cases (fn : SpecialFn) (x y : FVal) (i : Int) (near : Nat) :
    monotonicAt fn x y i near = near ∨ ∃ c ∈ admitted fn x y i near, monotonicAt fn x y i near = fpAtPlace y.sign c := by
  unfold monotonicAt
  split
  · exact .inl rfl
  · next c cs h =>
    refine .inr ⟨_, ?_, rfl⟩
    have := foldl_cut_mem (fun c => decide (Config.specialCut fn.number c ≤ i)) cs c
    simp only [decide_eq_true_eq] at this
    rw [h]
    exact this

/-- An admitted output lies at most eight places from the nearest, and may be the result. -/
theorem admitted_mem {fn : SpecialFn} {x y : FVal} {i : Int} {near : Nat} {c : Int} (h : c ∈ admitted fn x y i near) :
    fpPlace near - 8 ≤ c ∧ c ≤ fpPlace near + 8 ∧ mayBe fn x y (fpAtPlace y.sign c) = true := by
  unfold admitted at h
  simp only [List.mem_filter, List.mem_map, List.mem_range] at h
  obtain ⟨⟨⟨⟨j, hj, rfl⟩, hmay⟩, -⟩, -⟩ := h
  exact ⟨by omega, by omega, hmay⟩

/-- What Table 9 leaves open is the rounded true value, or one that the bounds allow. -/
theorem openResult_cases (fn : SpecialFn) (x y : FVal) (code near : Nat) :
    openResult fn x y code near = near ∨
      ((fn = .sin ∨ fn = .cos) ∧ mayBe fn x y (openResult fn x y code near) = true ∧ openResult fn x y code near < 2 ^ 32) ∨
      (fn ≠ .sin ∧ fn ≠ .cos) ∧ ∃ c ∈ admitted fn x y (fpPlace code) near, openResult fn x y code near = fpAtPlace y.sign c := by
  unfold openResult
  split
  · next h =>
    dsimp only
    split
    · next hm => exact .inr (.inl ⟨h, hm, BitVec.isLt _⟩)
    · exact .inl rfl
  · next h =>
    rcases monotonicAt_cases fn x y (fpPlace code) near with k | k
    · exact .inl k
    · exact .inr (.inr ⟨not_or.1 h, k⟩)

theorem fpAtPlace_lt (n : Bool) {c : Int} (h : c.natAbs < 2 ^ 31) : fpAtPlace n c < 2 ^ 32 := by
  rw [fpAtPlace, signed_fp32]
  split <;> split <;> omega

theorem openResult_lt {fn : SpecialFn} {x : FVal} {code : Nat} {n : Bool} {m : Nat} {e : Int} :
    openResult fn x (.fin n m e) code (roundFp fp32 .rn (.fin n m e) false).1 < 2 ^ 32 := by
  rcases openResult_cases fn x (.fin n m e) code (roundFp fp32 .rn (.fin n m e) false).1 with h | ⟨-, -, h⟩ | ⟨-, c, hc, h⟩
  · rw [h]; exact roundFp_lt (f := fp32) (by decide) ..
  · exact h
  · obtain ⟨a, ha, hr⟩ := roundFp_signed .rn false n m e
    have hinf : fp32.infCode = 0x7F800000 := by decide
    obtain ⟨h1, h2, -⟩ := admitted_mem hc
    rw [hr, fpPlace_signed n (by omega)] at h1 h2
    rw [h]
    refine fpAtPlace_lt _ ?_
    split at h1 <;> simp_all <;> omega

theorem special32_lt {fn : SpecialFn} {code : Nat} (hcode : code < 2 ^ 32) : (special32 fn code).1 < 2 ^ 32 := by
  have hnan : fp32.nanCode < 2 ^ 32 := by decide
  have hinf : fp32.infCode < 2 ^ 32 := by decide
  cases hd : decodeFp fp32 code with
  | nan s => rw [special32_nan hd]; exact hnan
  | inf n => rw [special32_inf hd]; cases fn <;> cases n <;> decide
  | fin n m e =>
    by_cases hm : m = 0
    · subst hm
      rw [special32_zero hd]
      cases fn
      case sin => exact hcode
      case tanh => exact hcode
      all_goals simp only [SpecialFn.atZero]; decide
    · rw [special32_fin hd hm]
      split
      · exact hnan
      · split
        · exact rne32_lt _
        · split
          · exact rne32_lt _
          · unfold openCase
            obtain ⟨n', m', e', hy⟩ := trueValue_fin fn n m e
            rw [hy]
            dsimp only
            split
            · exact hinf
            · exact openResult_lt

/-! ## Flags -/

/-- Invalid stands alone, and beside a NaN. -/
theorem special32_flags (fn : SpecialFn) (code : Nat) :
    (special32 fn code).2 &&& flagInvalid = 0 ∨ special32 fn code = (fp32.nanCode, flagInvalid) := by
  have h0 : (0 : Flags) &&& flagInvalid = 0 := by decide
  cases hd : decodeFp fp32 code with
  | nan s =>
    rw [special32_nan hd]
    cases s
    · exact .inl h0
    · exact .inr rfl
  | inf n => rw [special32_inf hd]; cases fn <;> cases n <;> decide
  | fin n m e =>
    by_cases hm : m = 0
    · subst hm
      rw [special32_zero hd]
      exact .inl (by cases fn <;> simp only [SpecialFn.atZero] <;> decide)
    · rw [special32_fin hd hm]
      split
      · exact .inr rfl
      · refine .inl ?_
        split
        · exact h0
        · split
          · exact h0
          · have h1 : ∀ p : Bool, (flagOverflow ||| flagIf p flagInexact) &&& flagInvalid = 0 := by decide
            have h2 : ∀ p q : Bool, (flagIf p flagInexact ||| flagIf q flagUnderflow) &&& flagInvalid = 0 := by decide
            unfold openCase
            dsimp only
            split
            · exact h1 _
            · exact h2 _ _

theorem settleFlags_special32 (fn : SpecialFn) (code : Nat) : settleFlags (special32 fn code).2 = (special32 fn code).2 := by
  rcases special32_flags fn code with h | h
  · exact if_pos h
  · rw [h]; exact settleFlags_flagInvalid

end Sys2Proof.Machine

namespace Sys2Proof.Machine

/-! # Element by element (R135) -/

/-- The formats of R134 widen into FP32 exactly. -/
theorem sf_widens (ty : SfTy) : ty.fp.fmt.Regular ∧ ty.fp.fmt.frac ≤ 23 ∧ -149 ≤ ty.fp.fmt.qmin ∧ ty.fp.fmt.top ≤ fp32.top ∧ ty.fp.fmt ∈ formats := by
  have hmem : ty.fp.fmt ∈ [fp32, fp16, bf16] := by cases ty <;> decide
  refine ⟨regular_of_mem (by cases ty <;> decide), by cases ty <;> decide, by cases ty <;> decide, ?_, by cases ty <;> decide⟩
  simp only [List.mem_cons, List.not_mem_nil, or_false] at hmem
  rcases hmem with h | h | h <;> rw [h] <;> simp only [FpFmt.top, fp32, fp16, bf16] <;> norm_num

theorem sf_width (ty : SfTy) : (ty = .f32 → ty.fp.fmt.width = 32) ∧ (ty ≠ .f32 → ty.fp.fmt.width = 16) := by
  cases ty <;> decide

/-- The element function of R135, its flags settled. -/
theorem settleFlags_elSpecial (fn : SpecialFn) (f : FpFmt) (a : Nat) : settleFlags (elSpecial fn f a).2 = (elSpecial fn f a).2 := by
  unfold elSpecial
  split
  · exact settleFlags_special32 fn a
  · dsimp only
    have hclear : ∀ p q : Flags, p &&& flagInvalid = 0 → settleFlags (p ||| (q &&& flagOverflow) ||| 0) = p ||| (q &&& flagOverflow) ||| 0 := by
      decide
    cases hs : (decodeFp f a).isSnan
    · rcases special32_flags fn (rne32 (decodeFp f a)) with h | h
      · exact hclear _ _ h
      · rw [h]
        exact (by decide : ∀ q : Flags, q = 0 → settleFlags (flagInvalid ||| (q &&& flagOverflow) ||| 0) =
          flagInvalid ||| (q &&& flagOverflow) ||| 0) _ rfl
    · have hd : decodeFp f a = .nan true := by
        cases hd : decodeFp f a <;> simp_all [FVal.isSnan]
      have hr : special32 fn (rne32 (decodeFp f a)) = (fp32.nanCode, 0) := by rw [hd]; exact special32_nan (s := false) (by decide)
      rw [hr]
      exact (by decide : ∀ q : Flags, q = 0 → settleFlags (0 ||| (q &&& flagOverflow) ||| flagInvalid) =
        0 ||| (q &&& flagOverflow) ||| flagInvalid) _ rfl

/-- An FP32 element, or a 16-bit one widened, evaluated and rounded once. -/
def IsSpecial (fn : SpecialFn) (ty : SfTy) (a : Nat) (r : Nat × Flags) : Prop :=
  (ty = .f32 → r = special32 fn a) ∧
  (ty ≠ .f32 → ∃ x fl, x < 2 ^ 32 ∧ ((decodeFp ty.fp.fmt a).isNan = true → x = 0x7FC00000) ∧
    ((decodeFp ty.fp.fmt a).isNan = false → exactOf (decodeFp fp32 x) = exactOf (decodeFp ty.fp.fmt a)) ∧
    r.1 < 2 ^ 16 ∧ Rounds ty.fp.fmt .rn false (exactOf (decodeFp fp32 (special32 fn x).1)) r.1 fl ∧
    r.2 = (special32 fn x).2 ||| (fl &&& flagOverflow) ||| (if decodeFp ty.fp.fmt a = .nan true then flagInvalid else 0))

theorem elSpecial_isSpecial (fn : SpecialFn) (ty : SfTy) (a : Nat) : IsSpecial fn ty a (elSpecial fn ty.fp.fmt a) := by
  obtain ⟨hreg, hfrac, hq, htop, hf⟩ := sf_widens ty
  obtain ⟨h32, h16⟩ := sf_width ty
  refine ⟨fun h => if_pos (h32 h), fun h => ?_⟩
  have hw := h16 h
  have he : elSpecial fn ty.fp.fmt a = ((roundFp ty.fp.fmt .rn (decodeFp fp32 (special32 fn (rne32 (decodeFp ty.fp.fmt a))).1) false).1,
      (special32 fn (rne32 (decodeFp ty.fp.fmt a))).2 |||
        ((roundFp ty.fp.fmt .rn (decodeFp fp32 (special32 fn (rne32 (decodeFp ty.fp.fmt a))).1) false).2 &&& flagOverflow) |||
        flagIf (decodeFp ty.fp.fmt a).isSnan flagInvalid) := by
    unfold elSpecial
    rw [if_neg (by omega)]
  have hsn : flagIf (decodeFp ty.fp.fmt a).isSnan flagInvalid = if decodeFp ty.fp.fmt a = .nan true then flagInvalid else 0 := by
    cases decodeFp ty.fp.fmt a with
    | nan s => cases s <;> simp [FVal.isSnan, flagIf]
    | inf n => simp [FVal.isSnan, flagIf]
    | fin n m e => simp [FVal.isSnan, flagIf]
  rw [he, hsn]
  refine ⟨rne32 (decodeFp ty.fp.fmt a), _, rne32_lt _, fun hn => ?_, fun _ => (widen_exact hreg hfrac hq htop a).1,
    hw ▸ roundFp_lt hf .rn false _, roundFp_rounds hf .rn false _, rfl⟩
  cases hd : decodeFp ty.fp.fmt a with
  | nan s => rfl
  | inf n => rw [hd] at hn; cases hn
  | fin n m e => rw [hd] at hn; cases hn

theorem elSpecial_lt (fn : SpecialFn) (ty : SfTy) {a : Nat} (ha : a < 2 ^ ty.fp.fmt.width) : (elSpecial fn ty.fp.fmt a).1 < 2 ^ ty.fp.fmt.width := by
  unfold elSpecial
  split
  · next h => rw [h] at ha ⊢; exact special32_lt ha
  · exact roundFp_lt (sf_widens ty).2.2.2.2 .rn false _

theorem gives_special {i : Instr} {ty : SfTy} {o : Operands} {fn : SpecialFn} (hi : ∀ s, exec i s = (specialJob fn ty).issue o.fields s) :
    Gives i (fpSig1 ty.fp) o.fields (FpForm ty.fp fun a _ _ r => IsSpecial fn ty a r) := by
  refine gives_form (fn := fun a _ _ => elSpecial fn ty.fp.fmt a) hi fun a b c ha _ => ⟨?_, elSpecial_lt fn ty ha⟩
  rw [settleFlags_elSpecial]
  exact elSpecial_isSpecial fn ty a

/-! # Exact results (R63 Table 9) -/

/-- Every integer that FP32 holds has a code. -/
theorem exists_code_int {n : Int} (hn : |n| < 2 ^ 24) : ∃ code < 2 ^ 32, ∃ neg m e, decodeFp fp32 code = .fin neg m e ∧ finiteValue (.fin neg m e) = n := by
  have hreg : fp32.Regular := regular_of_mem (by decide)
  by_cases h0 : n = 0
  · subst h0
    exact ⟨0, by decide, false, 0, -149, by decide, by simp [finiteValue]⟩
  · have hm : n.natAbs ≠ 0 := Int.natAbs_ne_zero.2 h0
    have hv : finiteValue (fvalOfInt n) = n := by
      have := exactOf_fvalOfInt n
      unfold fvalOfInt at this ⊢
      have hq : (n : ℚ) ≠ 0 := Int.cast_ne_zero.2 h0
      simpa [exactOf, Exact.ofRat, hm, hq] using this
    have hvR : ((finiteValue (fvalOfInt n) : ℚ) : ℝ) = n * 2 ^ (0 : ℤ) := by rw [hv]; simp
    have hnR : |(n : ℝ)| < 2 ^ 24 := by exact_mod_cast hn
    obtain ⟨neg, m, e, hd, hv', -⟩ := rounds_representable (f := fp32) hreg.kind (roundFp_number .rn false (decide (n < 0)) 0 hreg hm)
      (n := n) (g := 0) hvR hn (by decide)
      (show |((finiteValue (fvalOfInt n) : ℚ) : ℝ)| ≤ _ by
        rw [hvR, zpow_zero, mul_one]
        refine hnR.le.trans ?_
        simp only [FpFmt.top, fp32]; norm_num)
    refine ⟨_, roundFp_lt (f := fp32) (by decide) .rn false _, neg, m, e, hd, ?_⟩
    exact (Rat.cast_injective hv').trans hv

/-- An integer within the limits is found. -/
theorem integerIn_of_value {neg : Bool} {m : Nat} {e n lo hi : Int} (h : finiteValue (.fin neg m e) = n) (hlo : lo ≤ n) (hhi : n ≤ hi) :
    integerIn neg m e lo hi = some n := by
  have hvR : ((finiteValue (.fin neg m e) : ℚ) : ℝ) = n := by rw [h]; simp
  have hr := roundsToInt_finite .rz neg m e 0
  rw [hvR, zpow_zero, div_one] at hr
  have hq := roundsToInt_of_int hr
  have hex : (quantise .rz neg m e 0).2 = false := by
    rw [quantise_exact, zpow_zero, mul_one]
    have h1 : (signOf neg : ℝ) * ((quantise .rz neg m e 0).1 : ℝ) = signOf neg * (m * 2 ^ e) := by
      rw [← cast_finiteValue, hvR]; exact_mod_cast hq
    exact mul_left_cancel₀ (by cases neg <;> simp [signOf]) h1
  have hv : (if neg then -((quantise .rz neg m e 0).1 : ℤ) else (quantise .rz neg m e 0).1) = n := by
    rw [← hq]; cases neg <;> simp [signOf]
  simp only [integerIn, hex, Bool.false_eq_true, if_false, hv, hlo, hhi, and_self, if_true]

/-- An integer found is the value, within the limits. -/
theorem value_of_integerIn {neg : Bool} {m : Nat} {e n lo hi : Int} (h : integerIn neg m e lo hi = some n) :
    finiteValue (.fin neg m e) = n ∧ lo ≤ n ∧ n ≤ hi := by
  simp only [integerIn, Option.ite_none_left_eq_some, Option.ite_none_right_eq_some, Option.some.injEq, Bool.not_eq_true] at h
  obtain ⟨hex, hb, hn⟩ := h
  rw [hn] at hb
  refine ⟨?_, hb⟩
  have := (quantise_exact .rz neg m e 0).1 hex
  rw [zpow_zero, mul_one] at this
  have hq : ((quantise .rz neg m e 0).1 : ℚ) = m * 2 ^ e := by
    have : (((quantise .rz neg m e 0).1 : ℚ) : ℝ) = ((m * 2 ^ e : ℚ) : ℝ) := by push_cast; exact this
    exact Rat.cast_injective this
  rw [← hn]
  cases neg <;> simp [finiteValue, hq]

/-- A power of two that FP32 holds rounds to itself. -/
theorem decode_rne32_pow {n : Int} (h1 : -149 ≤ n) (h2 : n ≤ 127) : ∃ m e, decodeFp fp32 (rne32 (.fin false 1 n)) = .fin false m e ∧
    finiteValue (.fin false m e) = 2 ^ n := by
  have hreg : fp32.Regular := regular_of_mem (by decide)
  have hx : ((finiteValue (.fin false 1 n) : ℚ) : ℝ) = 2 ^ n := by rw [cast_finiteValue]; simp [signOf]
  have htop : (2 : ℝ) ^ n ≤ (fp32.top : ℝ) := by
    refine (zpow_le_zpow_right₀ one_le_two h2).trans ?_
    simp only [FpFmt.top, fp32]; norm_num
  obtain ⟨neg, m, e, hd, hv, hneg, -⟩ := rounds_representable hreg.kind (roundFp_number .rn false false n hreg one_ne_zero)
    (n := 1) (g := n) (by rw [hx]; simp) (by norm_num [fp32]) (by simp only [FpFmt.least, fp32]; simpa using h1)
    (by rw [hx, abs_of_pos (by positivity)]; exact htop)
  have hn : neg = false := by
    rw [← Bool.not_eq_true, hneg, hx]; exact not_lt.2 (by positivity)
  subst hn
  rw [rne32_eq]
  exact ⟨m, e, hd, Rat.cast_injective ((hv.trans hx).trans (by push_cast; rfl))⟩

/-- exp2 at the integers. -/
theorem exp2_integer {n : Int} (h1 : -149 ≤ n) (h2 : n ≤ 127) {code : Nat} {neg : Bool} {m : Nat} {e : Int}
    (hd : decodeFp fp32 code = .fin neg m e) (hv : finiteValue (.fin neg m e) = n) :
    ∃ v, special32 .exp2 code = (v, 0) ∧ finiteValue (decodeFp fp32 v) = (2 : ℚ) ^ n := by
  by_cases hm : m = 0
  · subst hm
    have : n = 0 := by simpa [finiteValue] using hv.symm
    subst this
    refine ⟨0x3F800000, special32_zero hd, ?_⟩
    rw [(by decide : decodeFp fp32 0x3F800000 = .fin false 0x800000 (-23))]
    norm_num [finiteValue]
  · rw [special32_exp2 hd hm, integerIn_of_value hv h1 h2]
    obtain ⟨m', e', hd', hv'⟩ := decode_rne32_pow h1 h2
    exact ⟨rne32 (.fin false 1 n), rfl, hd' ▸ hv'⟩

/-- A number that is a power of two shows it in its leading bit. -/
theorem power_of_two {neg : Bool} {m : Nat} {e n : Int} (h : finiteValue (.fin neg m e) = (2 : ℚ) ^ n) :
    neg = false ∧ m ≠ 0 ∧ m = 2 ^ Nat.log2 m ∧ leadExp m e = n := by
  have hpos : (0 : ℚ) < 2 ^ n := by positivity
  have hm : m ≠ 0 := fun h0 => by rw [(finiteValue_eq_zero neg m e).2 h0] at h; exact hpos.ne h
  have hneg : neg = false := by
    rw [← Bool.not_eq_true]
    intro hn
    have := (finiteValue_lt_zero neg m e).2 ⟨hn, hm⟩
    rw [h] at this
    exact absurd this (not_lt.2 hpos.le)
  subst hneg
  have hv : (m : ℚ) = 2 ^ (n - e) := by
    rw [zpow_sub₀ two_ne_zero, eq_div_iff (by positivity), ← h]
    simp [finiteValue]
  have h0 : 0 ≤ n - e := by
    by_contra hlt
    have h1 : (2 : ℚ) ^ (n - e) < 1 := zpow_lt_one_of_neg₀ one_lt_two (by omega)
    have h2 : (1 : ℚ) ≤ m := by exact_mod_cast Nat.pos_of_ne_zero hm
    linarith [hv]
  have hmk : m = 2 ^ (n - e).toNat := by
    have : (m : ℚ) = ((2 ^ (n - e).toNat : ℕ) : ℚ) := by
      rw [hv]; push_cast; rw [← zpow_natCast, Int.toNat_of_nonneg h0]
    exact_mod_cast this
  refine ⟨rfl, hm, ?_, ?_⟩
  · rw [hmk, Nat.log2_two_pow]
  · rw [leadExp, hmk, Nat.log2_two_pow]; omega

/-- An integer of at most 24 bits rounds to itself; zero is +0. -/
theorem decode_rne32_int {n : Int} (hn : |n| < 2 ^ 24) : exactOf (decodeFp fp32 (rne32 (fvalOfInt n))) = .ofRat n false := by
  have hreg : fp32.Regular := regular_of_mem (by decide)
  by_cases h0 : n = 0
  · subst h0; rfl
  · have hm : n.natAbs ≠ 0 := Int.natAbs_ne_zero.2 h0
    have hq : (n : ℚ) ≠ 0 := Int.cast_ne_zero.2 h0
    have hv : finiteValue (.fin (decide (n < 0)) n.natAbs 0) = n := by
      have := exactOf_fvalOfInt n
      unfold fvalOfInt at this
      simpa [exactOf, Exact.ofRat, hm, hq] using this
    have hvR : ((finiteValue (.fin (decide (n < 0)) n.natAbs 0) : ℚ) : ℝ) = n * 2 ^ (0 : ℤ) := by rw [hv]; simp
    have hnR : |(n : ℝ)| < 2 ^ 24 := by exact_mod_cast hn
    obtain ⟨neg, m, e, hd, hv', -⟩ := rounds_representable (f := fp32) hreg.kind (roundFp_number .rn false (decide (n < 0)) 0 hreg hm)
      (n := n) (g := 0) hvR hn (by decide)
      (by
        rw [hvR, zpow_zero, mul_one]
        refine hnR.le.trans ?_
        simp only [FpFmt.top, fp32]; norm_num)
    have hval : finiteValue (.fin neg m e) = n := (Rat.cast_injective hv').trans hv
    have hd' : decodeFp fp32 (rne32 (fvalOfInt n)) = .fin neg m e := by rw [rne32_eq]; exact hd
    rw [hd', exactOf_fin, hval]
    simp [Exact.ofRat, hq]

/-- log2 at the powers of two. -/
theorem log2_power {n : Int} {code : Nat} (h : finiteValue (decodeFp fp32 code) = (2 : ℚ) ^ n) :
    ∃ v, special32 .log2 code = (v, 0) ∧ exactOf (decodeFp fp32 v) = .ofRat n false := by
  have hpos : (0 : ℚ) < 2 ^ n := by positivity
  cases hd : decodeFp fp32 code with
  | nan s => rw [hd] at h; exact absurd h hpos.ne
  | inf s => rw [hd] at h; exact absurd h hpos.ne
  | fin neg m e =>
    rw [hd] at h
    obtain ⟨rfl, hm, hp, hl⟩ := power_of_two h
    obtain ⟨mag, hmax, -, hmv, hqe, hmlt, -⟩ := finite_code (regular_of_mem (f := fp32) (by decide)) hd
    have hlog : Nat.log2 m < 24 := (Nat.log2_lt hm).2 hmlt
    have hb : |n| < 2 ^ 24 := by
      have hrange : -149 ≤ n ∧ n ≤ 127 := by
        have hle : (2 : ℚ) ^ n < 2 ^ (128 : ℤ) := by
          have h1 := (magValue_strictMono fp32).monotone hmax
          rw [(regular_of_mem (f := fp32) (by decide)).top] at h1
          have h2 : (m : ℚ) * 2 ^ e = 2 ^ n := by rw [← h]; simp [finiteValue]
          have h3 : fp32.top < 2 ^ (128 : ℤ) := by simp only [FpFmt.top, fp32]; norm_num
          linarith [hmv]
        have := (zpow_lt_zpow_iff_right₀ (one_lt_two (α := ℚ))).1 hle
        have hq : fp32.qmin = -149 := by decide
        rw [leadExp] at hl
        omega
      rw [abs_lt]
      constructor <;> omega
    refine ⟨rne32 (fvalOfInt n), ?_, decode_rne32_int hb⟩
    rw [special32_fin hd hm, if_neg (by simp), if_neg (by simp), if_pos ⟨.inl rfl, hp, .inl rfl⟩, hl]

end Sys2Proof.Machine

namespace Sys2Proof.Machine

/-! # Rounding in the order of magnitudes (R46) -/

section

variable {f : FpFmt} (h : f.Regular) (rm : Rounding) (neg : Bool) {m : Nat} (e : Int) (hm : m ≠ 0)
include h hm

/-- The magnitude code a number rounds to, before it is held to the format's largest. -/
def FpFmt.roundMag (f : FpFmt) (rm : Rounding) (neg : Bool) (m : Nat) (e : Int) : Nat :=
  f.magCode (quantise rm neg m e (f.quantum m e)).1 (f.quantum m e)

/-- A magnitude of the format that is at or above a number is a multiple of the number's quantum. -/
theorem magValue_multiple {b : Nat} (hb : (m : ℝ) * 2 ^ e ≤ (f.magValue b : ℚ)) : ∃ j : ℕ, ((f.magValue b : ℚ) : ℝ) = j * 2 ^ f.quantum m e := by
  obtain ⟨d, n, rfl, hn, hd⟩ := code_split f b
  obtain ⟨-, hge, -⟩ := quantum_bounds (f := f) e hm h.kind
  rw [magValue_mid f hn.le hd] at hb ⊢
  have hle : f.quantum m e ≤ f.qmin + d := by
    by_contra hlt
    obtain ⟨h1, -⟩ := hge.resolve_left (by omega)
    rw [le_div_iff₀ (by positivity)] at h1
    have h2 : (n : ℝ) * 2 ^ (f.qmin + d) < 2 ^ (f.frac + 1) * 2 ^ (f.qmin + d) :=
      mul_lt_mul_of_pos_right (by exact_mod_cast hn) (by positivity)
    have h3 : (2 : ℝ) ^ (f.frac + 1) * 2 ^ (f.qmin + d) ≤ 2 ^ f.frac * 2 ^ f.quantum m e := by
      rw [← zpow_natCast, ← zpow_natCast, ← zpow_add₀ two_ne_zero, ← zpow_add₀ two_ne_zero]
      exact zpow_le_zpow_right₀ one_le_two (by push_cast; omega)
    push_cast at hb
    linarith
  refine ⟨n * 2 ^ (f.qmin + d - f.quantum m e).toNat, ?_⟩
  push_cast
  rw [mul_assoc, ← zpow_natCast (2 : ℝ) (f.qmin + d - f.quantum m e).toNat, Int.toNat_of_nonneg (by omega), ← zpow_add₀ two_ne_zero]
  congr 2
  omega

/-- A number at or below a magnitude of the format does not round above it. -/
theorem roundMag_le {b : Nat} (hb : (m : ℝ) * 2 ^ e ≤ (f.magValue b : ℚ)) : f.roundMag rm neg m e ≤ b := by
  rw [← (magValue_strictMono f).le_iff_le, FpFmt.roundMag, magValue_magCode rm neg e hm h.kind, ← Rat.cast_le (K := ℝ)]
  obtain ⟨j, hj⟩ := magValue_multiple h e hm hb
  rw [hj] at hb ⊢
  push_cast
  refine mul_le_mul_of_nonneg_right ?_ (by positivity)
  have := roundsToInt_le (b := j) (roundsToInt_quantise rm neg m e (f.quantum m e)) (by rw [div_le_iff₀ (by positivity)]; exact_mod_cast hb)
    (by positivity)
  exact_mod_cast this

/-- A number at or above a magnitude of the format does not round below it. -/
theorem le_roundMag {b : Nat} (hb : ((f.magValue b : ℚ) : ℝ) ≤ m * 2 ^ e) : b ≤ f.roundMag rm neg m e := by
  rw [← (magValue_strictMono f).le_iff_le, FpFmt.roundMag, magValue_magCode rm neg e hm h.kind, ← Rat.cast_le (K := ℝ)]
  obtain ⟨d, n, rfl, hn, hd⟩ := code_split f b
  obtain ⟨-, hge⟩ := quantise_bounds (f := f) rm neg e hm h.kind
  have hqmin := (quantum_bounds (f := f) e hm h.kind).2.2
  rw [magValue_mid f hn.le hd] at hb ⊢
  push_cast at hb ⊢
  rcases le_or_gt (f.quantum m e) (f.qmin + d) with hle | hlt
  · have hmul : (n : ℝ) * 2 ^ (f.qmin + d) = ((n * 2 ^ (f.qmin + d - f.quantum m e).toNat : ℕ) : ℤ) * 2 ^ f.quantum m e := by
      push_cast
      rw [mul_assoc, ← zpow_natCast (2 : ℝ) (f.qmin + d - f.quantum m e).toNat, Int.toNat_of_nonneg (by omega), ← zpow_add₀ two_ne_zero]
      congr 2
      omega
    rw [hmul] at hb ⊢
    refine mul_le_mul_of_nonneg_right ?_ (by positivity)
    exact_mod_cast le_roundsToInt (roundsToInt_quantise rm neg m e (f.quantum m e)) ((le_div_iff₀ (by positivity)).2 hb) (by positivity)
  · have h1 := hge.resolve_left (by omega)
    have h2 : (n : ℝ) * 2 ^ (f.qmin + d) ≤ 2 ^ (f.frac + 1) * 2 ^ (f.qmin + d) :=
      mul_le_mul_of_nonneg_right (by exact_mod_cast hn.le) (by positivity)
    have h3 : (2 : ℝ) ^ (f.frac + 1) * 2 ^ (f.qmin + d) ≤ 2 ^ f.frac * 2 ^ f.quantum m e := by
      rw [← zpow_natCast, ← zpow_natCast, ← zpow_add₀ two_ne_zero, ← zpow_add₀ two_ne_zero]
      exact zpow_le_zpow_right₀ one_le_two (by push_cast; omega)
    exact (h2.trans h3).trans (mul_le_mul_of_nonneg_right (by exact_mod_cast h1) (by positivity))

end

theorem roundFp_roundMag (rm : Rounding) (n : Bool) {m : Nat} (e : Int) (hm : m ≠ 0) (h : fp32.roundMag rm n m e ≤ fp32.maxCode) :
    (roundFp fp32 rm (.fin n m e) false).1 = fp32.signed n (fp32.roundMag rm n m e) := by
  simp only [roundFp, hm, if_false]
  exact congrArg Prod.fst (if_neg (not_lt.2 h))

theorem regular_fp32 : fp32.Regular := regular_of_mem (by decide)

/-- A magnitude at or below that of place `b` rounds to one of the places up to `b`. -/
theorem roundFp_le (rm : Rounding) (n : Bool) (m : Nat) (e : Int) {b : Nat} (hb : b ≤ fp32.maxCode) (hle : (m : ℝ) * 2 ^ e ≤ (fp32.magValue b : ℚ)) :
    ∃ c ≤ b, (roundFp fp32 rm (.fin n m e) false).1 = fp32.signed n c := by
  by_cases hm : m = 0
  · exact ⟨0, Nat.zero_le _, by simp only [roundFp, hm, if_true]⟩
  · have := roundMag_le regular_fp32 rm n e hm hle
    exact ⟨_, this, roundFp_roundMag rm n e hm (this.trans hb)⟩

theorem maxCode_lt_infCode : fp32.maxCode < fp32.infCode := by decide

theorem magValue_infCode : fp32.magValue fp32.infCode = 2 ^ (128 : ℤ) := by
  simp only [FpFmt.magValue, FpFmt.infCode, FpFmt.qmin, fp32, reduceCtorEq, if_false]
  norm_num

/-- From 2^128 on, a number rounds to infinity. -/
theorem roundFp_overflow (n : Bool) {m : Nat} {e : Int} (h : (2 : ℝ) ^ (128 : ℤ) ≤ m * 2 ^ e) :
    (roundFp fp32 .rn (.fin n m e) false).1 = fp32.signed n fp32.infCode := by
  have hm : m ≠ 0 := by
    rintro rfl
    simp only [Nat.cast_zero, zero_mul] at h
    exact absurd h (not_le.2 (by positivity))
  have hv : ((fp32.magValue fp32.infCode : ℚ) : ℝ) = 2 ^ (128 : ℤ) := by
    rw [magValue_infCode, Rat.cast_zpow, Rat.cast_ofNat]
  have hge := le_roundMag regular_fp32 .rn n e hm (b := fp32.infCode) (hv.le.trans h)
  have hlt : fp32.roundMag .rn n m e > fp32.maxCode := Nat.lt_of_lt_of_le maxCode_lt_infCode hge
  simp only [roundFp, hm, if_false]
  unfold FpFmt.roundMag at hlt
  rw [if_pos hlt]
  simp only [FpFmt.hasInf, show fp32.kind = .ieee from rfl, decide_true, Bool.true_or, Bool.and_self, Bool.not_false, if_true]

/-! # The bound in ulps (R63) -/

/-- What `withinUlps` decides. -/
theorem withinUlps_iff (k : Nat) (rn yn : Bool) (rm ym : Nat) (re ye : Int) :
    withinUlps k (.fin rn rm re) (.fin yn ym ye) = true ↔
      |finiteValue (.fin rn rm re) - finiteValue (.fin yn ym ye)| + fixError * 2 ^ ye ≤
        k * (2 : ℚ) ^ (max (leadExp (ym - fixError) ye) (-126) - 23) := by
  simp only [withinUlps, decide_eq_true_iff]
  generalize max (leadExp (ym - fixError) ye) (-126) - 23 = u
  generalize he0 : min (min re ye) u = e0
  have hr := scaled_value (n := rn) (m := rm) (e := re) (e0 := e0) (fun _ => by omega)
  have hy := scaled_value (n := yn) (m := ym) (e := ye) (e0 := e0) (fun _ => by omega)
  have hpow : ∀ x : Int, e0 ≤ x → (2 : ℚ) ^ x = ((2 ^ (x - e0).toNat : ℕ) : ℚ) * 2 ^ e0 := fun x hx => by
    push_cast
    rw [← zpow_natCast, Int.toNat_of_nonneg (by omega), ← zpow_add₀ two_ne_zero]
    congr 1; omega
  rw [← hr, ← hy, hpow ye (by omega), hpow u (by omega), ← sub_mul, abs_mul, abs_of_pos (by positivity : (0 : ℚ) < 2 ^ e0), ← mul_assoc,
    ← add_mul, ← mul_assoc, mul_le_mul_iff_left₀ (by positivity), ← Int.cast_sub, ← Int.cast_abs, ← Int.natCast_natAbs]
  exact_mod_cast Iff.rfl

/-- A result the bounds allow is a number. -/
theorem mayBe_number {fn : SpecialFn} {x y : FVal} {code : Nat} (h : mayBe fn x y code = true) :
    inRange fn (decodeFp fp32 code) = true ∧ (∃ n m e, decodeFp fp32 code = .fin n m e) ∧
      match ulpBound fn x with
      | none => faithful code y = true
      | some n => withinUlps n (decodeFp fp32 code) y = true := by
  unfold mayBe at h
  simp only [Bool.and_eq_true, Bool.not_eq_true'] at h
  obtain ⟨⟨⟨hr, hn⟩, hi⟩, hb⟩ := h
  refine ⟨hr, ?_, ?_⟩
  · cases hd : decodeFp fp32 code with
    | nan s => rw [hd] at hn; cases hn
    | inf s => rw [hd] at hi; cases hi
    | fin n m e => exact ⟨n, m, e, rfl⟩
  · split at hb <;> simp_all

end Sys2Proof.Machine

namespace Sys2Proof.Machine

/-! # Beyond the range of FP32 (R63) -/

/-! ## The exponential series, from above and below -/

theorem fixOne_pos : 0 < fixOne := by unfold fixOne; positivity

theorem cast_fixOne : ((fixOne : ℤ) : ℚ) = 2 ^ (400 : ℤ) := by
  rw [fixOne, Int.cast_pow, Int.cast_ofNat]
  exact (zpow_natCast (2 : ℚ) 400).symm

/-- A product with a factor up to one is no larger. -/
theorem fixMul_bounds {t r : Int} (ht : 0 ≤ t) (hr : 0 ≤ r) (h1 : r ≤ fixOne) : 0 ≤ fixMul t r ∧ fixMul t r ≤ t := by
  refine ⟨Int.ediv_nonneg (mul_nonneg ht hr) fixOne_pos.le, ?_⟩
  calc t * r / fixOne ≤ t * fixOne / fixOne := Int.ediv_le_ediv fixOne_pos (mul_le_mul_of_nonneg_left h1 ht)
    _ = t := Int.mul_ediv_cancel _ fixOne_pos.ne'

/-- From the second term on, each is at most half the one before. -/
theorem expTerms_bounds {r : Int} (hr : 0 ≤ r) (h1 : r ≤ fixOne) (n : Nat) : ∀ (t : Int) (k : Nat) (acc : Int), 0 ≤ t → 1 ≤ k →
    acc ≤ expTerms n r t k acc ∧ expTerms n r t k acc ≤ acc + 2 * t := by
  induction n with
  | zero => intro t k acc ht _; simp only [expTerms]; omega
  | succ n ih =>
    intro t k acc ht hk
    obtain ⟨h0, hle⟩ := fixMul_bounds ht hr h1
    have hhalf : 2 * (fixMul t r / ((k + 1 : Nat) : Int)) ≤ t := by
      have hmul := Int.mul_ediv_self_le (x := fixMul t r) (k := ((k + 1 : Nat) : Int)) (by omega)
      have hq : 0 ≤ fixMul t r / ((k + 1 : Nat) : Int) := Int.ediv_nonneg h0 (by omega)
      have h2 : (2 : Int) ≤ ((k + 1 : Nat) : Int) := by omega
      have := mul_le_mul_of_nonneg_right h2 hq
      omega
    have := ih (fixMul t r / ((k + 1 : Nat) : Int)) (k + 1) (acc + t) (Int.ediv_nonneg h0 (by omega)) (by omega)
    simp only [expTerms]
    omega

/-- The exponential of 0 to 1 lies from 1 to 3. -/
theorem fixExp_bounds {r : Int} (hr : 0 ≤ r) (h1 : r ≤ fixOne) : fixOne ≤ fixExp r ∧ fixExp r ≤ 3 * fixOne := by
  have hstep : fixExp r = expTerms 99 r (fixMul fixOne r / ((0 + 1 : Nat) : Int)) 1 (0 + fixOne) := by
    rw [fixExp, show 100 = 99 + 1 from rfl, expTerms]
  obtain ⟨h0, hle⟩ := fixMul_bounds fixOne_pos.le hr h1
  have ht : fixMul fixOne r / ((0 + 1 : Nat) : Int) = fixMul fixOne r := by simp
  rw [hstep, ht]
  have := expTerms_bounds hr h1 99 (fixMul fixOne r) 1 (0 + fixOne) h0 (le_refl _)
  omega

/-! ## The argument in fixed point -/

/-- An argument cut at 2^8. -/
def fixArg (neg : Bool) (m : Nat) (e : Int) : Int :=
  if leadExp m e ≥ 8 then (if neg then -256 * fixOne else 256 * fixOne) else fixOf neg m e

theorem trueValue_exp2 (neg : Bool) (m : Nat) (e : Int) :
    trueValue .exp2 neg m e = fixVal (fixPow2 (fixArg neg m e)).1 (fixPow2 (fixArg neg m e)).2 := by
  simp only [trueValue, fixArg, reduceCtorEq, and_false, if_false]

theorem trueValue_exp (neg : Bool) (m : Nat) (e : Int) :
    trueValue .exp neg m e = fixVal (fixPowE (fixArg neg m e)).1 (fixPowE (fixArg neg m e)).2 := by
  simp only [trueValue, fixArg, reduceCtorEq, and_false, if_false]

/-- An FP32 number is a multiple of 2^-400. -/
theorem fixOf_value {neg : Bool} {m : Nat} {e : Int} (he : -400 ≤ e) : ((fixOf neg m e : ℤ) : ℚ) = finiteValue (.fin neg m e) * fixOne := by
  have hz : (2 : ℚ) ^ (e + 400).toNat = 2 ^ e * 2 ^ (400 : ℤ) := by
    rw [← zpow_natCast, Int.toNat_of_nonneg (by omega), zpow_add₀ two_ne_zero]
  rw [cast_fixOne]
  cases neg <;> simp only [fixOf, finiteValue, if_true, Bool.false_eq_true, if_false] <;> push_cast <;> rw [hz] <;> ring

theorem fixOf_not (neg : Bool) (m : Nat) (e : Int) : fixOf (!neg) m e = -fixOf neg m e := by cases neg <;> simp [fixOf]

theorem fixArg_not (neg : Bool) (m : Nat) (e : Int) : fixArg (!neg) m e = -fixArg neg m e := by
  unfold fixArg
  split
  · cases neg <;> simp
  · exact fixOf_not neg m e

/-- The cut does not pass a bound up to 2^8. -/
theorem le_fixArg {neg : Bool} {m : Nat} {e k : Int} (he : -400 ≤ e) (h0 : 0 < k) (hk : k ≤ 256) (h : (k : ℚ) ≤ finiteValue (.fin neg m e)) :
    k * fixOne ≤ fixArg neg m e := by
  have hkq : (0 : ℚ) < k := by exact_mod_cast h0
  unfold fixArg
  split
  · have hn : neg = false := by
      rw [← Bool.not_eq_true]
      intro hn
      have hm : m ≠ 0 := fun h0 => by rw [(finiteValue_eq_zero neg m e).2 h0] at h; linarith
      have := (finiteValue_lt_zero neg m e).2 ⟨hn, hm⟩
      linarith
    rw [hn]
    exact mul_le_mul_of_nonneg_right hk fixOne_pos.le
  · have := mul_le_mul_of_nonneg_right h (by exact_mod_cast fixOne_pos.le : (0 : ℚ) ≤ (fixOne : ℤ))
    rw [← fixOf_value he] at this
    exact_mod_cast this

theorem fixArg_le {neg : Bool} {m : Nat} {e k : Int} (he : -400 ≤ e) (h0 : 0 < k) (hk : k ≤ 256) (h : finiteValue (.fin neg m e) ≤ -k) :
    fixArg neg m e ≤ -(k * fixOne) := by
  have := le_fixArg (neg := !neg) he h0 hk (by rw [finiteValue_not]; linarith)
  rw [fixArg_not] at this
  omega

/-! ## The values computed -/

theorem fixLn2_bounds : 0 < fixLn2 ∧ fixLn2 ≤ fixOne := by
  refine ⟨by unfold fixLn2; norm_num, ?_⟩
  rw [fixLn2, fixOne, show 400 = 200 + 200 from rfl, pow_add]
  norm_num

/-- A power of two with a fraction: from one to three times the power of two. -/
def Scaled (k : Int) (p : Int × Int) : Prop := fixOne ≤ p.1 ∧ p.1 ≤ 3 * fixOne ∧ p.2 = k

theorem fixPow2_scaled (v : Int) : Scaled (v / fixOne) (fixPow2 v) := by
  obtain ⟨h0, h1⟩ := fixMul_bounds (Int.emod_nonneg v fixOne_pos.ne') fixLn2_bounds.1.le fixLn2_bounds.2
  obtain ⟨h2, h3⟩ := fixExp_bounds h0 (h1.trans (Int.emod_lt_of_pos v fixOne_pos).le)
  exact ⟨h2, h3, rfl⟩

theorem fixPowE_scaled (v : Int) : Scaled (v / fixLn2) (fixPowE v) := by
  obtain ⟨h2, h3⟩ := fixExp_bounds (Int.emod_nonneg v fixLn2_bounds.1.ne') ((Int.emod_lt_of_pos v fixLn2_bounds.1).le.trans fixLn2_bounds.2)
  exact ⟨h2, h3, rfl⟩

/-- Such a value as an unsigned number, and its size. -/
theorem Scaled.value {k : Int} {p : Int × Int} (h : Scaled k p) :
    fixVal p.1 p.2 = .fin false p.1.natAbs (k - 400) ∧ (2 : ℝ) ^ k ≤ p.1.natAbs * 2 ^ (k - 400) ∧
      (p.1.natAbs : ℝ) * 2 ^ (k - 400) ≤ 3 * 2 ^ k := by
  obtain ⟨h1, h2, h3⟩ := h
  have h0 : 0 ≤ p.1 := fixOne_pos.le.trans h1
  have hone : ((fixOne : ℤ) : ℝ) = 2 ^ (400 : ℤ) := by
    have := congrArg (Rat.cast (K := ℝ)) cast_fixOne
    push_cast at this
    exact this
  have hp : ((p.1.natAbs : ℕ) : ℝ) = (p.1 : ℤ) := by rw [Nat.cast_natAbs, abs_of_nonneg h0]
  have h1R : (2 : ℝ) ^ (400 : ℤ) ≤ (p.1 : ℤ) := hone ▸ Int.cast_le.2 h1
  have h2R : ((p.1 : ℤ) : ℝ) ≤ 3 * 2 ^ (400 : ℤ) := by
    rw [← hone]; exact_mod_cast h2
  have hk : (2 : ℝ) ^ k = 2 ^ (400 : ℤ) * 2 ^ (k - 400) := by rw [← zpow_add₀ two_ne_zero]; congr 1; omega
  have hpos : (0 : ℝ) < 2 ^ (k - 400) := by positivity
  refine ⟨?_, ?_, ?_⟩
  · rw [fixVal, h3]
    congr 1
    simpa using h0
  · rw [hp, hk]
    exact mul_le_mul_of_nonneg_right h1R hpos.le
  · rw [hp, hk, ← mul_assoc]
    exact mul_le_mul_of_nonneg_right h2R hpos.le

end Sys2Proof.Machine

namespace Sys2Proof.Machine

/-! # What lies beyond the range of FP32 (R63) -/

/-- An open case whose rounded value is infinity. -/
theorem openCase_overflow {fn : SpecialFn} {neg : Bool} {m : Nat} {e : Int} {code : Nat}
    (h : (roundFp fp32 .rn (trueValue fn neg m e) false).1 = fp32.infCode) :
    openCase fn neg m e code = (fp32.infCode, flagOverflow ||| flagIf (fn = .exp2 ∨ fn = .log2) flagInexact) := by
  unfold openCase
  exact if_pos h

/-- An open case whose rounded value is a number. -/
theorem openCase_number {fn : SpecialFn} {neg : Bool} {m : Nat} {e : Int} {code : Nat}
    (h : (roundFp fp32 .rn (trueValue fn neg m e) false).1 ≠ fp32.infCode) :
    openCase fn neg m e code =
      (openResult fn (.fin neg m e) (trueValue fn neg m e) code (roundFp fp32 .rn (trueValue fn neg m e) false).1,
        flagIf (fn = .exp2 ∨ fn = .log2) flagInexact ||| flagIf (fn = .exp2 ∧
          openResult fn (.fin neg m e) (trueValue fn neg m e) code (roundFp fp32 .rn (trueValue fn neg m e) false).1 < 0x00800000) flagUnderflow) := by
  unfold openCase
  exact if_neg h

/-- A small result of an open case: exp2 underflows. -/
theorem openCase_small {fn : SpecialFn} {neg : Bool} {m : Nat} {e : Int} {code b : Nat}
    (h : (roundFp fp32 .rn (trueValue fn neg m e) false).1 ≠ fp32.infCode)
    (hr : openResult fn (.fin neg m e) (trueValue fn neg m e) code (roundFp fp32 .rn (trueValue fn neg m e) false).1 ≤ b) (hb : b < 0x00800000) :
    (openCase fn neg m e code).1 ≤ b ∧
      (openCase fn neg m e code).2 = flagIf (fn = .exp2 ∨ fn = .log2) flagInexact ||| flagIf (fn = .exp2) flagUnderflow := by
  rw [openCase_number h]
  exact ⟨hr, by simp only [hr.trans_lt hb, and_true]⟩

/-- A computed power of 2^128 or more rounds to infinity. -/
theorem Scaled.overflow {k : Int} {p : Int × Int} (h : Scaled k p) (hk : 128 ≤ k) : (roundFp fp32 .rn (fixVal p.1 p.2) false).1 = fp32.infCode := by
  obtain ⟨hy, hlo, -⟩ := h.value
  rw [hy, roundFp_overflow false ((zpow_le_zpow_right₀ one_le_two hk).trans hlo)]
  exact (signed_fp32 false _).trans (Nat.zero_add _)

/-- A number at a magnitude has its sign and value. -/
theorem signed_number {s : Bool} {k : Nat} (hk : k < 2 ^ 31) {n : Bool} {m : Nat} {e : Int} (hd : decodeFp fp32 (fp32.signed s k) = .fin n m e) :
    n = s ∧ k ≤ fp32.maxCode ∧ (m : ℚ) * 2 ^ e = fp32.magValue k := by
  obtain ⟨mag, hmag, -, hv, -, -, -, hcode⟩ := finite_code regular_fp32 hd
  have hmax : fp32.maxCode < 2 ^ 31 := by decide
  have := hcode (signed_lt regular_fp32 s hk)
  rw [signed_fp32, signed_fp32] at this
  have hsame : s = n ∧ k = mag := by
    cases s <;> cases n <;> simp at this ⊢ <;> omega
  obtain ⟨rfl, rfl⟩ := hsame
  exact ⟨rfl, hmag, hv⟩

/-- A number at a place has that place's value; below zero it is negative. -/
theorem fpAtPlace_number {s : Bool} {c : Int} (hc : c.natAbs < 2 ^ 31) {n : Bool} {m : Nat} {e : Int}
    (hd : decodeFp fp32 (fpAtPlace s c) = .fin n m e) :
    n = (if c = 0 then s else decide (c < 0)) ∧ c.natAbs ≤ fp32.maxCode ∧ (m : ℚ) * 2 ^ e = fp32.magValue c.natAbs :=
  signed_number hc hd

/-- The computed value of an exponential that is far below the least subnormal number: what is admitted is at most the place `b`. -/
theorem Scaled.openResult_le {fn : SpecialFn} (hfn : fn = .exp2 ∨ fn = .exp) {k : Int} {p : Int × Int} (h : Scaled k p) (hk : k ≤ -151) {b : Nat}
    (hb : 1 ≤ b) (hb' : b ≤ 2) {x : FVal} {code : Nat}
    (hmay : ∀ c : Int, 0 ≤ c → c.natAbs ≤ fp32.maxCode → mayBe fn x (fixVal p.1 p.2) (fp32.signed false c.natAbs) = true → c ≤ b) :
    (roundFp fp32 .rn (fixVal p.1 p.2) false).1 ≤ b ∧ openResult fn x (fixVal p.1 p.2) code (roundFp fp32 .rn (fixVal p.1 p.2) false).1 ≤ b := by
  obtain ⟨hy, -, hhi⟩ := h.value
  have hone : ((fp32.magValue 1 : ℚ) : ℝ) = 2 ^ (-149 : ℤ) := by
    simp only [FpFmt.magValue, FpFmt.qmin, fp32, reduceCtorEq, if_false]; norm_num
  have hsmall : (p.1.natAbs : ℝ) * 2 ^ (k - 400) ≤ (fp32.magValue 1 : ℚ) := by
    rw [hone]
    refine hhi.trans ?_
    have := zpow_le_zpow_right₀ (one_le_two (α := ℝ)) hk
    calc (3 : ℝ) * 2 ^ k ≤ 3 * 2 ^ (-151 : ℤ) := by linarith
      _ ≤ 2 ^ (-149 : ℤ) := by norm_num
  obtain ⟨c, hc, hnear⟩ := roundFp_le .rn false p.1.natAbs (k - 400) (b := 1) (by decide) hsmall
  rw [signed_fp32] at hnear
  have hnear' : (roundFp fp32 .rn (fixVal p.1 p.2) false).1 = c := by rw [hy]; simpa using hnear
  rw [hnear']
  refine ⟨hc.trans hb, ?_⟩
  rcases openResult_cases fn x (fixVal p.1 p.2) code c with h1 | ⟨h1, -⟩ | ⟨-, d, hd, h1⟩
  · rw [h1]; omega
  · rcases hfn with e | e <;> rw [e] at h1 <;> simp at h1
  · obtain ⟨g1, g2, g3⟩ := admitted_mem hd
    have hpl : fpPlace c = c := if_pos (show c < 2 ^ 31 by omega)
    rw [hpl] at g1 g2
    have hsign : (fixVal p.1 p.2).sign = false := by rw [hy]; rfl
    rw [h1]
    rw [hsign] at g3 ⊢
    obtain ⟨hrange, ⟨n, m, e, hdec⟩, -⟩ := mayBe_number g3
    obtain ⟨hn, hmax, -⟩ := fpAtPlace_number (by omega) hdec
    have hn' : n = false := by
      rw [hdec] at hrange
      rcases hfn with e | e <;> rw [e] at hrange <;> simpa [inRange, FVal.sign] using hrange
    have hd0 : 0 ≤ d := by
      rw [hn'] at hn
      split at hn
      · omega
      · simpa using hn
    have hcode : fpAtPlace false d = fp32.signed false d.natAbs := by
      unfold fpAtPlace
      split
      · rfl
      · rw [decide_eq_false (by omega)]
    rw [hcode] at g3 ⊢
    have := hmay d hd0 hmax g3
    rw [signed_fp32]
    simp only [Bool.false_eq_true, if_false]
    omega

end Sys2Proof.Machine

namespace Sys2Proof.Machine

/-- A faithful code of a small number is at most 1. -/
theorem faithful_le {code : Nat} {m : Nat} {e : Int} (h : faithful code (.fin false m e) = true)
    (hle : ((m + fixError : Nat) : ℝ) * 2 ^ e ≤ (fp32.magValue 1 : ℚ)) : code ≤ 1 := by
  have hb (rm : Rounding) : (roundFp fp32 rm (.fin false (m + fixError) e) false).1 ≤ 1 := by
    obtain ⟨c, hc, hr⟩ := roundFp_le rm false (m + fixError) e (b := 1) (by decide) hle
    rw [hr, signed_fp32]
    simpa using hc
  simp only [faithful, Bool.and_eq_true, Bool.or_eq_true, decide_eq_true_eq, FVal.atMost] at h
  rcases h.2 with h | h
  · exact (of_decide_eq_true h).le.trans (hb .rd)
  · exact (of_decide_eq_true h).le.trans (hb .ru)

/-- Of the computed power, what the tolerance adds is small too. -/
theorem Scaled.atMost_le {k : Int} {p : Int × Int} (h : Scaled k p) (hk : k ≤ -151) :
    ((p.1.natAbs + fixError : Nat) : ℝ) * 2 ^ (k - 400) ≤ (fp32.magValue 1 : ℚ) := by
  obtain ⟨-, -, hhi⟩ := h.value
  have hone : ((fp32.magValue 1 : ℚ) : ℝ) = 2 ^ (-149 : ℤ) := by
    simp only [FpFmt.magValue, FpFmt.qmin, fp32, reduceCtorEq, if_false]; norm_num
  have herr : (fixError : ℝ) * 2 ^ (k - 400) ≤ 2 ^ k := by
    have h15 : (fixError : ℝ) = 2 ^ (15 : ℤ) := by simp only [fixError]; norm_num
    rw [h15, ← zpow_add₀ two_ne_zero]
    exact zpow_le_zpow_right₀ one_le_two (by omega)
  have := zpow_le_zpow_right₀ (one_le_two (α := ℝ)) hk
  rw [hone]
  push_cast
  calc ((p.1.natAbs : ℝ) + fixError) * 2 ^ (k - 400) ≤ 4 * 2 ^ k := by rw [add_mul]; linarith
    _ ≤ 4 * 2 ^ (-151 : ℤ) := by linarith
    _ ≤ 2 ^ (-149 : ℤ) := by norm_num

/-- Two ulps beside a computed power below 2^-151: at most place 2. -/
theorem Scaled.withinUlps_le {k : Int} {p : Int × Int} (h : Scaled k p) (hk : k ≤ -153) {n : Bool} {m : Nat} {e : Int} {c : Nat}
    (hw : withinUlps 2 (.fin n m e) (fixVal p.1 p.2) = true) (hn : n = false) (hv : (m : ℚ) * 2 ^ e = fp32.magValue c) : c ≤ 2 := by
  obtain ⟨hy, -, hhi⟩ := h.value
  rw [hy, withinUlps_iff] at hw
  have hlead : leadExp (p.1.natAbs - fixError) (k - 400) ≤ -126 := by
    by_cases h0 : p.1.natAbs - fixError = 0
    · rw [h0, leadExp, Nat.log2_zero]; omega
    · have h1 := leadExp_le h0 (k - 400)
      have h2 : ((p.1.natAbs - fixError : ℕ) : ℝ) * 2 ^ (k - 400) ≤ 3 * 2 ^ k :=
        le_trans (mul_le_mul_of_nonneg_right (by exact_mod_cast Nat.sub_le _ _) (by positivity)) hhi
      have h3 : (3 : ℝ) * 2 ^ k < 2 ^ (k + 2) := by
        rw [zpow_add₀ two_ne_zero]
        have : (0 : ℝ) < 2 ^ k := by positivity
        norm_num
        linarith
      have := (zpow_lt_zpow_iff_right₀ (one_lt_two (α := ℝ))).1 ((h1.trans h2).trans_lt h3)
      omega
  rw [max_eq_right hlead] at hw
  have hyv : finiteValue (.fin false p.1.natAbs (k - 400)) ≤ 3 * 2 ^ (-153 : ℤ) := by
    have h1 : ((finiteValue (.fin false p.1.natAbs (k - 400)) : ℚ) : ℝ) ≤ 3 * 2 ^ (-153 : ℤ) := by
      rw [cast_finiteValue]
      have := zpow_le_zpow_right₀ (one_le_two (α := ℝ)) hk
      simp only [signOf, Bool.false_eq_true, if_false, Int.cast_one, one_mul]
      linarith
    have h2 : ((finiteValue (.fin false p.1.natAbs (k - 400)) : ℚ) : ℝ) ≤ ((3 * 2 ^ (-153 : ℤ) : ℚ) : ℝ) := by push_cast; exact h1
    exact_mod_cast h2
  have hr : finiteValue (.fin n m e) = fp32.magValue c := by rw [← hv, hn]; simp [finiteValue]
  have herr : (0 : ℚ) ≤ fixError * 2 ^ (k - 400) := by positivity
  have habs := le_abs_self (finiteValue (.fin n m e) - finiteValue (.fin false p.1.natAbs (k - 400)))
  have hlt : fp32.magValue c < fp32.magValue 3 := by
    have h3 : fp32.magValue 3 = 3 * 2 ^ (-149 : ℤ) := by
      simp only [FpFmt.magValue, FpFmt.qmin, fp32, reduceCtorEq, if_false]; norm_num
    rw [← hr, h3]
    have hstep : finiteValue (.fin n m e) ≤ 2 * 2 ^ (-149 : ℤ) + 3 * 2 ^ (-153 : ℤ) := by
      norm_num at hw ⊢
      norm_num at hyv
      linarith
    refine hstep.trans_lt ?_
    norm_num
  have := (magValue_strictMono fp32).lt_iff_lt.1 hlt
  omega

section

variable {code : Nat} {neg : Bool} {m : Nat} {e : Int} (hd : decodeFp fp32 code = .fin neg m e)
include hd

theorem fp32_exponent : -400 ≤ e := by
  obtain ⟨-, -, -, -, hq, -⟩ := finite_code regular_fp32 hd
  exact le_trans (by decide) hq

theorem exp2_above (h : 128 ≤ finiteValue (.fin neg m e)) : special32 .exp2 code = (0x7F800000, flagOverflow ||| flagInexact) := by
  have hm : m ≠ 0 := fun h0 => by rw [(finiteValue_eq_zero neg m e).2 h0] at h; norm_num at h
  have he := fp32_exponent hd
  have hint : integerIn neg m e (-149) 127 = none := by
    cases hi : integerIn neg m e (-149) 127 with
    | none => rfl
    | some n =>
      obtain ⟨hv, -, hn⟩ := value_of_integerIn hi
      rw [hv] at h
      have : (128 : ℤ) ≤ n := by exact_mod_cast h
      omega
  have harg := le_fixArg (k := 128) he (by decide) (by decide) (by exact_mod_cast h)
  have hk : 128 ≤ fixArg neg m e / fixOne := (Int.le_ediv_iff_mul_le fixOne_pos).2 harg
  rw [special32_exp2 hd hm, hint, Option.isSome_none, if_neg (by simp), openCase_overflow]
  · rfl
  · rw [trueValue_exp2]
    exact (fixPow2_scaled _).overflow hk

theorem exp_above (h : 89 ≤ finiteValue (.fin neg m e)) : special32 .exp code = (0x7F800000, flagOverflow) := by
  have hm : m ≠ 0 := fun h0 => by rw [(finiteValue_eq_zero neg m e).2 h0] at h; norm_num at h
  have he := fp32_exponent hd
  have harg := le_fixArg (k := 89) he (by decide) (by decide) (by exact_mod_cast h)
  have hk : 128 ≤ fixArg neg m e / fixLn2 := by
    refine (Int.le_ediv_iff_mul_le fixLn2_bounds.1).2 (le_trans ?_ harg)
    rw [fixLn2, fixOne, show 400 = 200 + 200 from rfl, pow_add]
    norm_num
  rw [special32_exp hd hm, openCase_overflow]
  · rfl
  · rw [trueValue_exp]
    exact (fixPowE_scaled _).overflow hk

theorem exp2_below (h : finiteValue (.fin neg m e) ≤ -151) : (special32 .exp2 code).1 ≤ 1 ∧ (special32 .exp2 code).2 = flagUnderflow ||| flagInexact := by
  have hm : m ≠ 0 := fun h0 => by rw [(finiteValue_eq_zero neg m e).2 h0] at h; norm_num at h
  have he := fp32_exponent hd
  have hint : integerIn neg m e (-149) 127 = none := by
    cases hi : integerIn neg m e (-149) 127 with
    | none => rfl
    | some n =>
      obtain ⟨hv, hn, -⟩ := value_of_integerIn hi
      rw [hv] at h
      have : n ≤ (-151 : ℤ) := by exact_mod_cast h
      omega
  have harg := fixArg_le (k := 151) he (by decide) (by decide) (by exact_mod_cast h)
  have hk : fixArg neg m e / fixOne ≤ -151 := by
    have := Int.ediv_le_ediv fixOne_pos harg
    rwa [← neg_mul, Int.mul_ediv_cancel _ fixOne_pos.ne'] at this
  have hs := fixPow2_scaled (fixArg neg m e)
  obtain ⟨hnear, hres⟩ := hs.openResult_le (.inl rfl) hk (le_refl 1) one_le_two (x := .fin neg m e) (code := code) fun c hc _ hmay => by
    obtain ⟨-, -, hf⟩ := mayBe_number hmay
    simp only [ulpBound, hs.value.1] at hf
    have := faithful_le hf (hs.atMost_le hk)
    rw [signed_fp32] at this
    simp at this
    omega
  have hinf : fp32.infCode = 0x7F800000 := by decide
  rw [special32_exp2 hd hm, hint, Option.isSome_none, if_neg (by simp)]
  obtain ⟨h1, h2⟩ := openCase_small (fn := .exp2) (code := code) (neg := neg) (m := m) (e := e) (b := 1) (by rw [trueValue_exp2]; omega)
    (by rw [trueValue_exp2]; exact hres) (by decide)
  exact ⟨h1, h2.trans (by decide)⟩

theorem exp_below (h : finiteValue (.fin neg m e) ≤ -106) : (special32 .exp code).1 ≤ 2 ∧ (special32 .exp code).2 = 0 := by
  have hm : m ≠ 0 := fun h0 => by rw [(finiteValue_eq_zero neg m e).2 h0] at h; norm_num at h
  have he := fp32_exponent hd
  have harg := fixArg_le (k := 106) he (by decide) (by decide) (by exact_mod_cast h)
  have hk : fixArg neg m e / fixLn2 ≤ -153 := by
    refine Int.lt_add_one_iff.1 ((Int.ediv_lt_iff_lt_mul fixLn2_bounds.1).2 (lt_of_le_of_lt harg ?_))
    rw [fixLn2, fixOne, show 400 = 200 + 200 from rfl, pow_add]
    norm_num
  have hs := fixPowE_scaled (fixArg neg m e)
  obtain ⟨hnear, hres⟩ := hs.openResult_le (.inr rfl) (by omega) one_le_two (le_refl 2) (x := .fin neg m e) (code := code) fun c hc hmax hmay => by
    obtain ⟨-, ⟨n', m', e', hdec⟩, hf⟩ := mayBe_number hmay
    obtain ⟨hn, -, hv⟩ := signed_number (lt_of_le_of_lt hmax (by decide)) hdec
    simp only [ulpBound, hdec] at hf
    have := hs.withinUlps_le hk hf hn hv
    omega
  have hinf : fp32.infCode = 0x7F800000 := by decide
  rw [special32_exp hd hm]
  obtain ⟨h1, h2⟩ := openCase_small (fn := .exp) (code := code) (neg := neg) (m := m) (e := e) (b := 2) (by rw [trueValue_exp]; omega)
    (by rw [trueValue_exp]; exact hres) (by decide)
  exact ⟨h1, h2.trans (by decide)⟩

end

/-- Settles O9: `elSpecial_isSpecial` gives the forms element by element; the zeros and infinities are the model's cases of them
(`special32_zero`, `special32_inf`), the exact results come from `exp2_integer` and `log2_power`, and what lies beyond the range from the size
of the computed powers (`Scaled`). -/
theorem specialFunctionsElementwise : Obligations.SpecialFunctionsElementwise := by
  have hzero (z : Nat) (neg : Bool) (hz : z = if neg then 0x80000000 else 0) : decodeFp fp32 z = .fin neg 0 (-149) := by
    subst hz; cases neg <;> decide
  have hpinf : decodeFp fp32 0x7F800000 = .inf false := by decide
  have hninf : decodeFp fp32 0xFF800000 = .inf true := by decide
  have hone : decodeFp fp32 0x3F800000 = .fin false 0x800000 (-23) := by decide
  refine ⟨fun ty o => ?_, fun neg z hz => ?_, special32_inf hninf, special32_inf hpinf, special32_inf hninf, special32_inf hpinf,
    special32_inf hpinf, special32_inf hpinf, special32_inf hninf, special32_inf hpinf, special32_inf hninf, special32_inf hpinf,
    fun z hz => ?_, ?_, ?_, fun n h1 h2 => ?_, fun n code _ h => log2_power h, fun code _ hn hi => ?_, fun fn x _ s h => ?_, fun x _ hn hs hz => ?_⟩
  · exact ⟨gives_special fun _ => rfl, gives_special fun _ => rfl, gives_special fun _ => rfl, gives_special fun _ => rfl,
      gives_special fun _ => rfl, gives_special fun _ => rfl, gives_special fun _ => rfl, gives_special fun _ => rfl⟩
  · have h := hzero z neg hz
    exact ⟨special32_zero h, special32_zero h, special32_zero h, special32_zero h, special32_zero h, special32_zero h, special32_zero h,
      special32_zero h⟩
  · rcases hz with rfl | rfl
    · exact ⟨special32_inf hpinf, special32_inf hpinf⟩
    · exact ⟨special32_inf hninf, special32_inf hninf⟩
  · rw [special32_fin hone (by decide), if_neg (by decide), if_neg (by decide), if_pos (by decide)]
    decide
  · rw [special32_fin hone (by decide), if_neg (by decide), if_neg (by decide), if_pos (by decide)]
    decide
  · obtain ⟨code, hlt, neg, m, e, hd, hv⟩ := exists_code_int (n := n) (by rw [abs_lt]; constructor <;> omega)
    exact ⟨code, hlt, by rw [hd]; simp, hd ▸ hv, exp2_integer h1 h2 hd hv⟩
  · cases hd : decodeFp fp32 code with
    | nan s => rw [hd] at hn; cases hn
    | inf s => rw [hd] at hi; cases hi
    | fin neg m e => exact ⟨exp2_above hd, exp_above hd, exp2_below hd, exp_below hd⟩
  · rw [special32_nan h]; rfl
  · cases hd : decodeFp fp32 x with
    | nan s => rw [hd] at hn; cases hn
    | inf neg =>
      have : neg = true := by rw [hd] at hs; exact hs
      subst this
      exact ⟨special32_inf hd, special32_inf hd⟩
    | fin neg m e =>
      have hneg : neg = true := by rw [hd] at hs; exact hs
      have hm : m ≠ 0 := by rw [hd] at hz; simpa [FVal.isZero] using hz
      exact ⟨special32_log_neg hd hm (.inl rfl) hneg, special32_log_neg hd hm (.inr rfl) hneg⟩

end Sys2Proof.Machine

namespace Sys2Proof.Machine

/-! # The fixed-point series (R63) -/

/-- A quotient rounded down is less than one below the true one. -/
theorem cast_ediv_bounds (a : ℤ) {b : ℤ} (hb : 0 < b) : ((a / b : ℤ) : ℝ) ≤ (a : ℝ) / b ∧ (a : ℝ) / b < ((a / b : ℤ) : ℝ) + 1 := by
  have hbR : (0 : ℝ) < b := by exact_mod_cast hb
  constructor
  · rw [le_div_iff₀ hbR]; exact_mod_cast Int.ediv_mul_le a hb.ne'
  · rw [div_lt_iff₀ hbR]; exact_mod_cast Int.lt_ediv_add_one_mul_self a hb

theorem fixOne_posR : (0 : ℝ) < fixOne := by exact_mod_cast fixOne_pos

/-- A product of fixed-point numbers is rounded down. -/
theorem fixMul_real (a b : ℤ) : ((fixMul a b : ℤ) : ℝ) ≤ a * b / fixOne ∧ (a : ℝ) * b / fixOne < fixMul a b + 1 := by
  have := cast_ediv_bounds (a * b) fixOne_pos
  push_cast at this
  exact this

/-! ## The exponential -/

/-- Term k of the series of e^ρ, in units of 2^-400. -/
noncomputable def expTerm (ρ : ℝ) (k : Nat) : ℝ := fixOne * (ρ ^ k / k.factorial)

theorem expTerm_succ (ρ : ℝ) (k : Nat) : expTerm ρ (k + 1) = expTerm ρ k * ρ / (k + 1) := by
  unfold expTerm
  rw [Nat.factorial_succ, pow_succ]
  push_cast
  field_simp

/-- A term computed from one that is at most 3 units short is at most 3 units short. -/
theorem expTerm_step {r t : ℤ} (h0 : 0 ≤ r) (h1 : r ≤ fixOne) {k : Nat} {d : ℝ} (hd : d = 0 ∨ d ≤ 3 ∧ 1 ≤ k)
    (ht : (t : ℝ) ≤ expTerm (r / fixOne) k) (hd' : expTerm (r / fixOne) k ≤ t + d) :
    ((fixMul t r / ((k + 1 : Nat) : Int) : ℤ) : ℝ) ≤ expTerm (r / fixOne) (k + 1) ∧
      expTerm (r / fixOne) (k + 1) ≤ ((fixMul t r / ((k + 1 : Nat) : Int) : ℤ) : ℝ) + 3 := by
  have hρ0 : (0 : ℝ) ≤ r / fixOne := div_nonneg (by exact_mod_cast h0) fixOne_posR.le
  have hρ1 : (r : ℝ) / fixOne ≤ 1 := (div_le_one fixOne_posR).2 (by exact_mod_cast h1)
  have hk : (0 : ℝ) < (k : ℝ) + 1 := by positivity
  obtain ⟨m1, m2⟩ := fixMul_real t r
  obtain ⟨q1, q2⟩ := cast_ediv_bounds (fixMul t r) (b := ((k + 1 : Nat) : Int)) (by omega)
  push_cast at q1 q2 ⊢
  rw [expTerm_succ]
  generalize expTerm (r / fixOne) k = T at *
  have hmul : (t : ℝ) * r / fixOne = t * (r / fixOne) := by ring
  rw [hmul] at m1 m2
  generalize (r : ℝ) / fixOne = ρ at *
  have e1 : t * ρ ≤ T * ρ := mul_le_mul_of_nonneg_right ht hρ0
  have e2 : T * ρ ≤ t * ρ + d * ρ := by rw [← add_mul]; exact mul_le_mul_of_nonneg_right hd' hρ0
  constructor
  · exact q1.trans (div_le_div_of_nonneg_right (m1.trans e1) hk.le)
  · have hstep : T * ρ / (k + 1) ≤ (fixMul t r : ℝ) / (k + 1) + (d * ρ + 1) / (k + 1) := by
      rw [← add_div]
      exact div_le_div_of_nonneg_right (by linarith) hk.le
    have hrest : (d * ρ + 1) / ((k : ℝ) + 1) ≤ 2 := by
      rw [div_le_iff₀ hk]
      rcases hd with rfl | ⟨hd, hk1⟩
      · have : (0 : ℝ) ≤ k := Nat.cast_nonneg k
        linarith
      · have : (1 : ℝ) ≤ k := by exact_mod_cast hk1
        nlinarith
    linarith

/-- The terms added from index k on. -/
theorem expTerms_real {r : ℤ} (h0 : 0 ≤ r) (h1 : r ≤ fixOne) (n : Nat) : ∀ (t : ℤ) (k : Nat) (acc : ℤ) (d : ℝ), (d = 0 ∨ d ≤ 3 ∧ 1 ≤ k) →
    (t : ℝ) ≤ expTerm (r / fixOne) k → expTerm (r / fixOne) k ≤ t + d →
    ((expTerms n r t k acc : ℤ) : ℝ) ≤ acc + ∑ j ∈ Finset.range n, expTerm (r / fixOne) (k + j) ∧
      acc + ∑ j ∈ Finset.range n, expTerm (r / fixOne) (k + j) ≤ expTerms n r t k acc + 3 * n := by
  induction n with
  | zero => intro t k acc d _ _ _; simp [expTerms]
  | succ n ih =>
    intro t k acc d hd ht hd'
    obtain ⟨s1, s2⟩ := expTerm_step h0 h1 hd ht hd'
    have hd3 : d ≤ 3 := hd.elim (fun h => h.trans_le (by norm_num)) And.left
    obtain ⟨i1, i2⟩ := ih (fixMul t r / ((k + 1 : Nat) : Int)) (k + 1) (acc + t) 3 (.inr ⟨le_refl _, by omega⟩) s1 s2
    rw [Finset.sum_range_succ', show expTerm ((r : ℝ) / fixOne) (k + 0) = expTerm (r / fixOne) k from rfl]
    have hsum : ∑ j ∈ Finset.range n, expTerm (r / fixOne) (k + (j + 1)) = ∑ j ∈ Finset.range n, expTerm (r / fixOne) (k + 1 + j) :=
      Finset.sum_congr rfl fun j _ => by congr 1; omega
    rw [hsum]
    simp only [expTerms]
    push_cast at i1 i2 ⊢
    constructor <;> linarith

/-- The exponential from 0 to 1 is at most 301 units short. -/
theorem fixExp_real {r : ℤ} (h0 : 0 ≤ r) (h1 : r ≤ fixOne) :
    ((fixExp r : ℤ) : ℝ) ≤ fixOne * Real.exp (r / fixOne) ∧ fixOne * Real.exp (r / fixOne) ≤ fixExp r + 301 := by
  have hρ0 : (0 : ℝ) ≤ r / fixOne := div_nonneg (by exact_mod_cast h0) fixOne_posR.le
  have hρ1 : (r : ℝ) / fixOne ≤ 1 := (div_le_one fixOne_posR).2 (by exact_mod_cast h1)
  have hzero : expTerm (r / fixOne) 0 = (fixOne : ℤ) := by simp [expTerm]
  obtain ⟨s1, s2⟩ := expTerms_real h0 h1 100 fixOne 0 0 0 (.inl rfl) hzero.ge (by rw [hzero]; simp)
  have hsum : ∑ j ∈ Finset.range 100, expTerm (r / fixOne) (0 + j) = fixOne * ∑ j ∈ Finset.range 100, ((r : ℝ) / fixOne) ^ j / j.factorial := by
    rw [Finset.mul_sum]
    exact Finset.sum_congr rfl fun j _ => by rw [Nat.zero_add]; rfl
  have hlow := Real.sum_le_exp_of_nonneg hρ0 100
  have hhigh := Real.exp_bound' hρ0 hρ1 (n := 100) (by decide)
  have htail : (fixOne : ℝ) * (((r : ℝ) / fixOne) ^ 100 * ((100 : ℕ) + 1) / ((Nat.factorial 100 : ℕ) * (100 : ℕ))) ≤ 1 := by
    have hp : ((r : ℝ) / fixOne) ^ 100 ≤ 1 := pow_le_one₀ hρ0 hρ1
    have hf : (fixOne : ℝ) * 101 ≤ (Nat.factorial 100 : ℕ) * (100 : ℕ) := by
      have : fixOne * 101 ≤ ((Nat.factorial 100 * 100 : ℕ) : ℤ) := by decide +kernel
      exact_mod_cast this
    rw [← mul_div_assoc, div_le_one (by positivity)]
    calc (fixOne : ℝ) * (((r : ℝ) / fixOne) ^ 100 * ((100 : ℕ) + 1)) ≤ fixOne * (1 * ((100 : ℕ) + 1)) := by
          refine mul_le_mul_of_nonneg_left (mul_le_mul_of_nonneg_right hp (by positivity)) fixOne_posR.le
      _ = fixOne * 101 := by norm_num
      _ ≤ _ := hf
  rw [hsum] at s1 s2
  have e1 := mul_le_mul_of_nonneg_left hlow fixOne_posR.le
  have e2 := mul_le_mul_of_nonneg_left hhigh fixOne_posR.le
  rw [mul_add] at e2
  unfold fixExp
  push_cast at s1 s2
  constructor <;> linarith

end Sys2Proof.Machine

namespace Sys2Proof.Machine

/-! # Certified constants (R63) -/

/-- Quotients rounded down one by one are short of their sum by at most one each. -/
theorem sum_ediv_bounds (a b : ℕ → ℤ) (hb : ∀ k, 0 < b k) (n : Nat) :
    ((∑ k ∈ Finset.range n, a k / b k : ℤ) : ℝ) ≤ ∑ k ∈ Finset.range n, (a k : ℝ) / b k ∧
      ∑ k ∈ Finset.range n, (a k : ℝ) / b k ≤ ((∑ k ∈ Finset.range n, a k / b k : ℤ) : ℝ) + n := by
  induction n with
  | zero => simp
  | succ n ih =>
    obtain ⟨h1, h2⟩ := ih
    obtain ⟨g1, g2⟩ := cast_ediv_bounds (a n) (hb n)
    rw [Finset.sum_range_succ, Finset.sum_range_succ, Int.cast_add, Nat.cast_succ]
    constructor <;> linarith

/-- A series whose terms fall geometrically is near its partial sums. -/
theorem abs_sub_sum_le {g : ℕ → ℝ} {s C q : ℝ} (h : HasSum g s) (hq : q ≤ 1 / 2) (hg : ∀ k, |g k| ≤ C * q ^ k) (hC : 0 ≤ C * q ^ n) :
    |s - ∑ k ∈ Finset.range n, g k| ≤ 2 * (C * q ^ n) := by
  have := norm_sub_le_of_geometric_bound_of_hasSum (by linarith : q < 1) hg h n
  rw [Real.norm_eq_abs, abs_sub_comm] at this
  refine this.trans ?_
  rw [div_le_iff₀ (by linarith)]
  nlinarith

/-- The series of ln 2 at z = 1/3, in units of 1/P. -/
def ln2Series (P : ℤ) (n : Nat) : ℤ := ∑ k ∈ Finset.range n, 2 * P / ((2 * (k : ℤ) + 1) * 3 ^ (2 * k + 1))

theorem ln2Series_bounds {P : ℤ} (hP : 0 ≤ P) {n : Nat} (hn : 4 * P ≤ 3 * 9 ^ n) :
    (ln2Series P n : ℝ) - 1 ≤ P * Real.log 2 ∧ P * Real.log 2 ≤ ln2Series P n + n + 1 := by
  have hs := Real.hasSum_log_sub_log_of_abs_lt_one (x := 1 / 3) (by norm_num [abs_of_pos])
  have hlog : Real.log (1 + 1 / 3) - Real.log (1 - 1 / 3) = Real.log 2 := by
    rw [← Real.log_div (by norm_num) (by norm_num)]; norm_num
  rw [hlog] at hs
  have hterm : ∀ k : ℕ, |2 * (1 / (2 * (k : ℝ) + 1)) * (1 / 3 : ℝ) ^ (2 * k + 1)| ≤ 2 / 3 * (1 / 9) ^ k := fun k => by
    have h1 : (1 : ℝ) / (2 * k + 1) ≤ 1 := by
      rw [div_le_one (by positivity)]; linarith [(Nat.cast_nonneg k : (0 : ℝ) ≤ k)]
    have h2 : (1 / 3 : ℝ) ^ (2 * k + 1) = (1 / 9) ^ k * (1 / 3) := by rw [pow_succ, pow_mul]; norm_num
    rw [abs_of_nonneg (by positivity), h2]
    calc 2 * (1 / (2 * (k : ℝ) + 1)) * ((1 / 9 : ℝ) ^ k * (1 / 3)) ≤ 2 * 1 * ((1 / 9 : ℝ) ^ k * (1 / 3)) :=
          mul_le_mul_of_nonneg_right (by linarith) (by positivity)
      _ = 2 / 3 * (1 / 9) ^ k := by ring
  have htail := abs_sub_sum_le (n := n) hs (by norm_num) hterm (by positivity)
  obtain ⟨s1, s2⟩ := sum_ediv_bounds (fun _ => 2 * P) (fun k => (2 * (k : ℤ) + 1) * 3 ^ (2 * k + 1)) (fun k => by positivity) n
  have hsum : ∑ k ∈ Finset.range n, ((2 * P : ℤ) : ℝ) / (((2 * (k : ℤ) + 1) * 3 ^ (2 * k + 1) : ℤ) : ℝ) =
      P * ∑ k ∈ Finset.range n, 2 * (1 / (2 * (k : ℝ) + 1)) * (1 / 3) ^ (2 * k + 1) := by
    rw [Finset.mul_sum]
    refine Finset.sum_congr rfl fun k _ => ?_
    push_cast
    rw [one_div_pow]
    field_simp
  rw [hsum] at s1 s2
  have hPR : (0 : ℝ) ≤ P := by exact_mod_cast hP
  have hsmall : (P : ℝ) * (2 * (2 / 3 * (1 / 9) ^ n)) ≤ 1 := by
    have h : (4 : ℝ) * P ≤ 3 * 9 ^ n := by exact_mod_cast hn
    rw [one_div_pow]
    field_simp
    linarith
  rw [abs_le] at htail
  have t1 := mul_le_mul_of_nonneg_left htail.1 hPR
  have t2 := mul_le_mul_of_nonneg_left htail.2 hPR
  rw [mul_sub] at t1 t2
  unfold ln2Series
  constructor <;> linarith

/-- The logarithm of 2, rounded down. -/
theorem fixLn2_real : (fixLn2 : ℝ) ≤ fixOne * Real.log 2 ∧ fixOne * Real.log 2 ≤ fixLn2 + 1 := by
  obtain ⟨s1, s2⟩ := ln2Series_bounds (P := fixOne * 2 ^ 20) (by decide +kernel) (n := 140) (by decide +kernel)
  have hA : fixLn2 * 2 ^ 20 + 1 ≤ ln2Series (fixOne * 2 ^ 20) 140 ∧ ln2Series (fixOne * 2 ^ 20) 140 + 141 ≤ (fixLn2 + 1) * 2 ^ 20 := by
    decide +kernel
  have hA1 := (Int.cast_le (R := ℝ)).2 hA.1
  have hA2 := (Int.cast_le (R := ℝ)).2 hA.2
  generalize ln2Series (fixOne * 2 ^ 20) 140 = A at *
  push_cast at s1 s2 hA1 hA2
  constructor <;> linarith

/-! ## π -/

/-- The series of arctan (1/c), in units of 1/P. -/
def arctanSeries (c P : ℤ) (n : Nat) : ℤ := ∑ k ∈ Finset.range n, (-1) ^ k * P / ((2 * (k : ℤ) + 1) * c ^ (2 * k + 1))

theorem arctanSeries_bounds {c P : ℤ} (hc : 2 ≤ c) (hP : 0 ≤ P) {n : Nat} (hn : 2 * P ≤ (c ^ 2) ^ n) :
    |(P : ℝ) * Real.arctan (c : ℝ)⁻¹ - arctanSeries c P n| ≤ n + 1 := by
  have hcR : (2 : ℝ) ≤ c := by exact_mod_cast hc
  have hinv : ((c : ℝ))⁻¹ ≤ 1 / 2 := by rw [one_div]; exact inv_anti₀ two_pos hcR
  have hpos : (0 : ℝ) < (c : ℝ)⁻¹ := by positivity
  have hs := Real.hasSum_arctan (x := (c : ℝ)⁻¹) (by rw [Real.norm_eq_abs, abs_of_pos hpos]; linarith)
  have hterm : ∀ k : ℕ, |(-1) ^ k * ((c : ℝ)⁻¹) ^ (2 * k + 1) / ((2 * k + 1 : ℕ) : ℝ)| ≤ 1 / 2 * (((c : ℝ)⁻¹) ^ 2) ^ k := fun k => by
    have h1 : (1 : ℝ) ≤ ((2 * k + 1 : ℕ) : ℝ) := by exact_mod_cast (by omega : 1 ≤ 2 * k + 1)
    rw [abs_div, abs_mul, abs_pow, abs_neg, abs_one, one_pow, one_mul, abs_of_pos (pow_pos hpos _), abs_of_pos (by linarith), pow_succ, pow_mul]
    refine (div_le_self (by positivity) h1).trans ?_
    rw [mul_comm]
    exact mul_le_mul_of_nonneg_right hinv (by positivity)
  have hq : ((c : ℝ)⁻¹) ^ 2 ≤ 1 / 2 := by nlinarith
  have htail := abs_sub_sum_le (n := n) hs hq hterm (by positivity)
  obtain ⟨s1, s2⟩ := sum_ediv_bounds (fun k => (-1) ^ k * P) (fun k => (2 * (k : ℤ) + 1) * c ^ (2 * k + 1)) (fun k => by positivity) n
  have hsum : ∑ k ∈ Finset.range n, (((-1) ^ k * P : ℤ) : ℝ) / (((2 * (k : ℤ) + 1) * c ^ (2 * k + 1) : ℤ) : ℝ) =
      P * ∑ k ∈ Finset.range n, (-1) ^ k * ((c : ℝ)⁻¹) ^ (2 * k + 1) / ((2 * k + 1 : ℕ) : ℝ) := by
    rw [Finset.mul_sum]
    refine Finset.sum_congr rfl fun k _ => ?_
    push_cast
    rw [inv_pow]
    field_simp
  rw [hsum] at s1 s2
  have hPR : (0 : ℝ) ≤ P := by exact_mod_cast hP
  have hsmall : (P : ℝ) * (2 * (1 / 2 * (((c : ℝ)⁻¹) ^ 2) ^ n)) ≤ 1 := by
    have h : (2 : ℝ) * P ≤ ((c : ℝ) ^ 2) ^ n := by exact_mod_cast hn
    rw [inv_pow, inv_pow]
    have hp : (0 : ℝ) < ((c : ℝ) ^ 2) ^ n := by positivity
    field_simp
    linarith
  rw [abs_le] at htail
  have t1 := mul_le_mul_of_nonneg_left htail.1 hPR
  have t2 := mul_le_mul_of_nonneg_left htail.2 hPR
  rw [mul_sub] at t1 t2
  unfold arctanSeries
  rw [abs_le]
  constructor <;> linarith

/-- 2^640, the unit of `fixHalfPi`. -/
def fixWide : Int := 2 ^ 640

/-- π/2 to at least 2^-580. -/
theorem fixHalfPi_real : |fixWide * (Real.pi / 2) - fixHalfPi| ≤ 2 ^ 60 := by
  have h5 := arctanSeries_bounds (c := 5) (P := fixWide) (by decide) (by decide +kernel) (n := 150) (by decide +kernel)
  have h239 := arctanSeries_bounds (c := 239) (P := fixWide) (by decide) (by decide +kernel) (n := 50) (by decide +kernel)
  have hA : |2 * (4 * arctanSeries 5 fixWide 150 - arctanSeries 239 fixWide 50) - fixHalfPi| ≤ 2 ^ 50 := by decide +kernel
  have hAR : |2 * (4 * (arctanSeries 5 fixWide 150 : ℝ) - arctanSeries 239 fixWide 50) - fixHalfPi| ≤ 2 ^ 50 := by exact_mod_cast hA
  have hpi := Real.four_mul_arctan_inv_5_sub_arctan_inv_239
  have hhalf : Real.pi / 2 = 2 * (4 * Real.arctan 5⁻¹ - Real.arctan 239⁻¹) := by linarith
  push_cast at h5 h239
  rw [hhalf]
  generalize arctanSeries 5 fixWide 150 = A at *
  generalize arctanSeries 239 fixWide 50 = B at *
  generalize (fixWide : ℝ) = P at *
  generalize (fixHalfPi : ℝ) = H at *
  rw [abs_le] at *
  norm_num at *
  constructor <;> linarith

end Sys2Proof.Machine

namespace Sys2Proof.Machine

/-! # The logarithm in fixed point (R63) -/

/-- Term j of the series of artanh ζ before its division, in units of 2^-400. -/
noncomputable def atanhPower (ζ : ℝ) (j : Nat) : ℝ := fixOne * ζ ^ (2 * j + 1)

theorem atanhPower_succ (ζ : ℝ) (j : Nat) : atanhPower ζ (j + 1) = atanhPower ζ j * ζ ^ 2 := by
  unfold atanhPower
  ring

/-- A power computed from one at most 2 units short is at most 2 units short. -/
theorem atanhPower_step {z t : ℤ} (h0 : 0 ≤ z) (h1 : 3 * z ≤ fixOne) (ht0 : 0 ≤ t) {j : Nat} (ht : (t : ℝ) ≤ atanhPower (z / fixOne) j)
    (ht' : atanhPower (z / fixOne) j ≤ t + 2) :
    0 ≤ fixMul t (fixMul z z) ∧ (fixMul t (fixMul z z) : ℝ) ≤ atanhPower (z / fixOne) (j + 1) ∧
      atanhPower (z / fixOne) (j + 1) ≤ fixMul t (fixMul z z) + 2 := by
  have hS := fixOne_posR
  have hz0 : (0 : ℝ) ≤ z / fixOne := div_nonneg (by exact_mod_cast h0) hS.le
  have hz1 : (z : ℝ) / fixOne ≤ 1 / 3 := by
    have : (3 : ℝ) * z ≤ fixOne := by exact_mod_cast h1
    rw [div_le_iff₀ hS]; linarith
  have hzz : 0 ≤ fixMul z z := Int.ediv_nonneg (mul_nonneg h0 h0) fixOne_pos.le
  obtain ⟨m1, m2⟩ := fixMul_real t (fixMul z z)
  obtain ⟨q1, q2⟩ := fixMul_real z z
  have hT : atanhPower (z / fixOne) j ≤ fixOne * (1 / 3) := by
    unfold atanhPower
    refine mul_le_mul_of_nonneg_left ?_ hS.le
    rw [pow_succ]
    calc ((z : ℝ) / fixOne) ^ (2 * j) * (z / fixOne) ≤ 1 * (1 / 3) :=
          mul_le_mul (pow_le_one₀ hz0 (by linarith)) hz1 hz0 zero_le_one
      _ = 1 / 3 := one_mul _
  have hw0 : (0 : ℝ) ≤ (fixMul z z : ℝ) / fixOne := div_nonneg (by exact_mod_cast hzz) hS.le
  have hw1 : (fixMul z z : ℝ) / fixOne ≤ ((z : ℝ) / fixOne) ^ 2 := by
    rw [div_le_iff₀ hS]
    refine q1.trans (le_of_eq ?_)
    field_simp
  have hw2 : ((z : ℝ) / fixOne) ^ 2 ≤ (fixMul z z : ℝ) / fixOne + 1 / fixOne := by
    rw [← add_div, le_div_iff₀ hS]
    refine le_trans (le_of_eq ?_) q2.le
    field_simp
  have hsq : ((z : ℝ) / fixOne) ^ 2 ≤ 1 / 9 := by nlinarith
  have ht0R : (0 : ℝ) ≤ t := by exact_mod_cast ht0
  have htS : (t : ℝ) * (1 / fixOne) ≤ 1 / 3 := by
    rw [mul_one_div, div_le_iff₀ hS]; linarith
  have hmul : (t : ℝ) * (fixMul z z) / fixOne = t * (fixMul z z / fixOne) := by ring
  rw [hmul] at m1 m2
  rw [atanhPower_succ]
  generalize atanhPower (z / fixOne) j = T at *
  generalize ((z : ℝ) / fixOne) ^ 2 = w at *
  refine ⟨Int.ediv_nonneg (mul_nonneg ht0 hzz) fixOne_pos.le, ?_, ?_⟩
  · refine m1.trans (mul_le_mul ht hw1 hw0 (ht0R.trans ht))
  · have hw : 0 ≤ w := hw0.trans hw1
    have e1 : T * w ≤ (t + 2) * w := mul_le_mul_of_nonneg_right ht' hw
    have e2 : (t : ℝ) * w ≤ t * (fixMul z z / fixOne + 1 / fixOne) := mul_le_mul_of_nonneg_left hw2 ht0R
    nlinarith

/-- The terms added from index j on. -/
theorem atanhTerms_real {z : ℤ} (h0 : 0 ≤ z) (h1 : 3 * z ≤ fixOne) (n : Nat) : ∀ (t : ℤ) (j : Nat) (acc : ℤ), 0 ≤ t →
    (t : ℝ) ≤ atanhPower (z / fixOne) j → atanhPower (z / fixOne) j ≤ t + 2 →
    ((atanhTerms n (fixMul z z) t (2 * j + 1) acc : ℤ) : ℝ) ≤ acc + ∑ i ∈ Finset.range n, atanhPower (z / fixOne) (j + i) / (2 * (j + i : ℕ) + 1) ∧
      acc + ∑ i ∈ Finset.range n, atanhPower (z / fixOne) (j + i) / (2 * (j + i : ℕ) + 1) ≤
        atanhTerms n (fixMul z z) t (2 * j + 1) acc + 3 * n := by
  induction n with
  | zero => intro t j acc _ _ _; simp [atanhTerms]
  | succ n ih =>
    intro t j acc ht0 ht ht'
    obtain ⟨s0, s1, s2⟩ := atanhPower_step h0 h1 ht0 ht ht'
    obtain ⟨i1, i2⟩ := ih (fixMul t (fixMul z z)) (j + 1) (acc + t / ((2 * j + 1 : Nat) : Int)) s0 s1 s2
    obtain ⟨q1, q2⟩ := cast_ediv_bounds t (b := ((2 * j + 1 : Nat) : Int)) (by omega)
    have hb : (1 : ℝ) ≤ 2 * (j : ℝ) + 1 := by linarith [(Nat.cast_nonneg j : (0 : ℝ) ≤ j)]
    have hterm : atanhPower (z / fixOne) j / (2 * (j : ℝ) + 1) ≤ t / (2 * (j : ℝ) + 1) + 2 := by
      calc atanhPower (z / fixOne) j / (2 * (j : ℝ) + 1) ≤ (t + 2) / (2 * (j : ℝ) + 1) := div_le_div_of_nonneg_right ht' (by linarith)
        _ = t / (2 * (j : ℝ) + 1) + 2 / (2 * (j : ℝ) + 1) := add_div ..
        _ ≤ t / (2 * (j : ℝ) + 1) + 2 := by
          have : (2 : ℝ) / (2 * j + 1) ≤ 2 := div_le_self (by norm_num) hb
          linarith
    have hterm' : (t : ℝ) / (2 * (j : ℝ) + 1) ≤ atanhPower (z / fixOne) j / (2 * (j : ℝ) + 1) := div_le_div_of_nonneg_right ht (by linarith)
    rw [Finset.sum_range_succ', show j + 0 = j from rfl]
    have hsum : ∑ i ∈ Finset.range n, atanhPower (z / fixOne) (j + (i + 1)) / (2 * ((j + (i + 1) : ℕ) : ℝ) + 1) =
        ∑ i ∈ Finset.range n, atanhPower (z / fixOne) (j + 1 + i) / (2 * ((j + 1 + i : ℕ) : ℝ) + 1) :=
      Finset.sum_congr rfl fun i _ => by rw [show j + (i + 1) = j + 1 + i by omega]
    rw [hsum]
    have hstep : atanhTerms (n + 1) (fixMul z z) t (2 * j + 1) acc =
        atanhTerms n (fixMul z z) (fixMul t (fixMul z z)) (2 * (j + 1) + 1) (acc + t / ((2 * j + 1 : Nat) : Int)) := by
      simp only [atanhTerms]; rfl
    rw [hstep]
    rw [Int.cast_add] at i1 i2
    rw [show (((2 * j + 1 : Nat) : Int) : ℝ) = 2 * j + 1 by push_cast; ring] at q1 q2
    rw [Nat.cast_succ n]
    constructor <;> linarith

/-- ln ((1 + z)/(1 - z)) for z up to 1/3 is at most 782 units short. -/
theorem fixAtanh_real {z : ℤ} (h0 : 0 ≤ z) (h1 : 3 * z ≤ fixOne) :
    ((2 * atanhTerms 130 (fixMul z z) z 1 0 : ℤ) : ℝ) ≤ fixOne * (Real.log (1 + z / fixOne) - Real.log (1 - z / fixOne)) ∧
      fixOne * (Real.log (1 + z / fixOne) - Real.log (1 - z / fixOne)) ≤ (2 * atanhTerms 130 (fixMul z z) z 1 0 : ℤ) + 782 := by
  have hS := fixOne_posR
  have hz0 : (0 : ℝ) ≤ z / fixOne := div_nonneg (by exact_mod_cast h0) hS.le
  have hz1 : (z : ℝ) / fixOne ≤ 1 / 3 := by
    have : (3 : ℝ) * z ≤ fixOne := by exact_mod_cast h1
    rw [div_le_iff₀ hS]; linarith
  have hfirst : atanhPower (z / fixOne) 0 = z := by
    simp [atanhPower, mul_div_cancel₀ _ hS.ne']
  obtain ⟨s1, s2⟩ := atanhTerms_real h0 h1 130 z 0 0 h0 hfirst.ge (by rw [hfirst]; linarith)
  have hs := Real.hasSum_log_sub_log_of_abs_lt_one (x := (z : ℝ) / fixOne) (by rw [abs_of_nonneg hz0]; linarith)
  have hterm : ∀ k : ℕ, |2 * (1 / (2 * (k : ℝ) + 1)) * ((z : ℝ) / fixOne) ^ (2 * k + 1)| ≤ 2 / 3 * (1 / 9) ^ k := fun k => by
    have g1 : (1 : ℝ) / (2 * k + 1) ≤ 1 := by
      rw [div_le_one (by positivity)]; linarith [(Nat.cast_nonneg k : (0 : ℝ) ≤ k)]
    have g2 : ((z : ℝ) / fixOne) ^ (2 * k + 1) ≤ (1 / 3) ^ (2 * k + 1) := pow_le_pow_left₀ hz0 hz1 _
    have g3 : (1 / 3 : ℝ) ^ (2 * k + 1) = (1 / 9) ^ k * (1 / 3) := by rw [pow_succ, pow_mul]; norm_num
    rw [abs_of_nonneg (by positivity)]
    calc 2 * (1 / (2 * (k : ℝ) + 1)) * ((z : ℝ) / fixOne) ^ (2 * k + 1) ≤ 2 * 1 * ((1 / 9 : ℝ) ^ k * (1 / 3)) :=
          mul_le_mul (by linarith) (g3 ▸ g2) (by positivity) (by norm_num)
      _ = 2 / 3 * (1 / 9) ^ k := by ring
  have htail := abs_sub_sum_le (n := 130) hs (by norm_num) hterm (by positivity)
  have hnonneg : ∑ k ∈ Finset.range 130, 2 * (1 / (2 * (k : ℝ) + 1)) * ((z : ℝ) / fixOne) ^ (2 * k + 1) ≤
      Real.log (1 + z / fixOne) - Real.log (1 - z / fixOne) := sum_le_hasSum _ (fun k _ => by positivity) hs
  have hsum : ∑ i ∈ Finset.range 130, atanhPower (z / fixOne) (0 + i) / (2 * ((0 + i : ℕ) : ℝ) + 1) =
      fixOne / 2 * ∑ k ∈ Finset.range 130, 2 * (1 / (2 * (k : ℝ) + 1)) * ((z : ℝ) / fixOne) ^ (2 * k + 1) := by
    rw [Finset.mul_sum]
    refine Finset.sum_congr rfl fun k _ => ?_
    rw [Nat.zero_add]
    unfold atanhPower
    ring
  rw [hsum] at s1 s2
  have hsmall : (fixOne : ℝ) * (2 * (2 / 3 * (1 / 9) ^ 130)) ≤ 1 := by
    have : 4 * fixOne ≤ 3 * 9 ^ 130 := by decide +kernel
    have h : (4 : ℝ) * fixOne ≤ 3 * 9 ^ 130 := by exact_mod_cast this
    rw [one_div_pow]
    field_simp
    linarith
  generalize (2 / 3 * (1 / 9 : ℝ) ^ 130) = C at *
  rw [abs_le] at htail
  have t1 := mul_le_mul_of_nonneg_left hnonneg hS.le
  have t2 := mul_le_mul_of_nonneg_left htail.2 hS.le
  rw [mul_sub (fixOne : ℝ) (_ - _)] at t2
  rw [Int.cast_mul]
  push_cast at s1 s2 ⊢
  constructor <;> linarith

end Sys2Proof.Machine

namespace Sys2Proof.Machine

/-! # The computed values are near the true ones (R63) -/

/-- A number within `d` of its own last places of a real. -/
def FVal.NearReal (y : FVal) (v d : ℝ) : Prop := ∃ n m e, y = .fin n m e ∧ |((finiteValue y : ℚ) : ℝ) - v| ≤ d * 2 ^ e

theorem FVal.NearReal.mono {y : FVal} {v d d' : ℝ} (h : y.NearReal v d) (hd : d ≤ d') : y.NearReal v d' := by
  obtain ⟨n, m, e, hy, hv⟩ := h
  exact ⟨n, m, e, hy, hv.trans (mul_le_mul_of_nonneg_right hd (by positivity))⟩

theorem cast_fixOneR : (fixOne : ℝ) = 2 ^ (400 : ℤ) := by
  have := congrArg (Rat.cast (K := ℝ)) cast_fixOne
  push_cast at this
  exact this

/-- What a fixed-point number times a power of two is. -/
theorem finiteValue_fixVal (x k : Int) : ((finiteValue (fixVal x k) : ℚ) : ℝ) = x * 2 ^ (k - 400) := by
  rw [fixVal, cast_finiteValue, ← mul_assoc]
  congr 1
  have habs : ((x.natAbs : ℕ) : ℝ) = |(x : ℝ)| := by rw [Nat.cast_natAbs, Int.cast_abs]
  rw [habs]
  by_cases h : x < 0
  · have : (x : ℝ) < 0 := by exact_mod_cast h
    simp [h, signOf, abs_of_neg this]
  · have : (0 : ℝ) ≤ x := by exact_mod_cast not_lt.1 h
    simp [h, signOf, abs_of_nonneg this]

/-- A fixed-point number near a real in units of 2^-400. -/
theorem nearReal_fixVal {x k : Int} {v d : ℝ} (h : |(x : ℝ) - fixOne * (v / 2 ^ k)| ≤ d) : (fixVal x k).NearReal v d := by
  refine ⟨_, _, _, rfl, ?_⟩
  have hval : v = fixOne * (v / 2 ^ k) * 2 ^ (k - 400) := by
    rw [cast_fixOneR, zpow_sub₀ two_ne_zero]
    field_simp
  change |((finiteValue (fixVal x k) : ℚ) : ℝ) - v| ≤ d * 2 ^ (k - 400)
  rw [finiteValue_fixVal]
  nth_rw 1 [hval]
  rw [← sub_mul, abs_mul, abs_of_pos (by positivity : (0 : ℝ) < 2 ^ (k - 400))]
  exact mul_le_mul_of_nonneg_right h (by positivity)

/-! ## The exponentials -/

/-- An exponential moves little where its argument does. -/
theorem abs_exp_sub_exp_le {a b : ℝ} (h : |a - b| ≤ 1) : |Real.exp a - Real.exp b| ≤ 2 * Real.exp b * |a - b| := by
  have : Real.exp a - Real.exp b = Real.exp b * (Real.exp (a - b) - 1) := by rw [mul_sub, ← Real.exp_add]; ring_nf
  rw [this, abs_mul, abs_of_pos (Real.exp_pos b)]
  have := mul_le_mul_of_nonneg_left (Real.abs_exp_sub_one_le h) (Real.exp_pos b).le
  linarith

theorem fixLn2_posR : (0 : ℝ) < fixLn2 := by exact_mod_cast fixLn2_bounds.1

/-- The computed exponential of r, at a real that is some units away. -/
theorem fixExp_near {r : ℤ} (h0 : 0 ≤ r) (h1 : r ≤ fixLn2) {a δ : ℝ} (hδ : |a * fixOne - r| ≤ δ) (hδ1 : δ ≤ fixOne) :
    |(fixExp r : ℝ) - fixOne * Real.exp a| ≤ 301 + 4 * δ := by
  have hS := fixOne_posR
  obtain ⟨e1, e2⟩ := fixExp_real h0 (h1.trans fixLn2_bounds.2)
  have hle : Real.exp (r / fixOne) ≤ 2 := by
    rw [← Real.exp_log two_pos]
    refine Real.exp_le_exp.2 ((div_le_iff₀ hS).2 ?_)
    have : (r : ℝ) ≤ fixLn2 := by exact_mod_cast h1
    linarith [fixLn2_real.1]
  have hdiff : |a - r / fixOne| ≤ δ / fixOne := by
    rw [le_div_iff₀ hS, ← abs_of_pos hS, ← abs_mul, abs_of_pos hS, sub_mul, div_mul_cancel₀ _ hS.ne']
    exact hδ
  have hone : |a - r / fixOne| ≤ 1 := hdiff.trans ((div_le_one hS).2 hδ1)
  have hexp := abs_exp_sub_exp_le hone
  have hbound : |Real.exp a - Real.exp (r / fixOne)| * fixOne ≤ 4 * δ := by
    have h4 : 2 * Real.exp (r / fixOne) * |a - r / fixOne| ≤ 4 * (δ / fixOne) :=
      mul_le_mul (by linarith) hdiff (abs_nonneg _) (by norm_num)
    calc |Real.exp a - Real.exp (r / fixOne)| * fixOne ≤ 4 * (δ / fixOne) * fixOne := mul_le_mul_of_nonneg_right (hexp.trans h4) hS.le
      _ = 4 * δ := by field_simp
  rw [← abs_of_pos hS, ← abs_mul, abs_of_pos hS, sub_mul] at hbound
  rw [abs_le] at hbound ⊢
  constructor <;> linarith

theorem thousand_le_fixOne : (1000 : ℝ) ≤ fixOne := by
  have : (1000 : ℤ) ≤ fixOne := by decide +kernel
  exact_mod_cast this

theorem two_le_fixOne : (2 : ℝ) ≤ fixOne := le_trans (by norm_num) thousand_le_fixOne

/-- e^(v/2^400), up to 301 units and 4 for each power of two. -/
theorem fixPowE_near (v : ℤ) (hv : |v / fixLn2| ≤ 1000) :
    |((fixPowE v).1 : ℝ) - fixOne * (Real.exp (v / fixOne) / 2 ^ (fixPowE v).2)| ≤ 301 + 4 * |((fixPowE v).2 : ℝ)| := by
  have hS := fixOne_posR
  obtain ⟨l1, l2⟩ := fixLn2_real
  have hq : (fixPowE v).2 = v / fixLn2 := rfl
  have hr : (fixPowE v).1 = fixExp (v % fixLn2) := rfl
  have hdm : (v : ℝ) = fixLn2 * ((v / fixLn2 : ℤ) : ℝ) + ((v % fixLn2 : ℤ) : ℝ) := by exact_mod_cast (Int.mul_ediv_add_emod v fixLn2).symm
  have hqR : |((v / fixLn2 : ℤ) : ℝ)| ≤ 1000 := by exact_mod_cast hv
  have hval : Real.exp (v / fixOne) / 2 ^ (v / fixLn2) = Real.exp (v / fixOne - (v / fixLn2 : ℤ) * Real.log 2) := by
    rw [Real.exp_sub, mul_comm, Real.exp_mul, Real.exp_log two_pos, Real.rpow_intCast]
  rw [hq, hr, hval]
  refine fixExp_near (Int.emod_nonneg v fixLn2_bounds.1.ne') (Int.emod_lt_of_pos v fixLn2_bounds.1).le ?_ ?_
  · have : (v / fixOne - ((v / fixLn2 : ℤ) : ℝ) * Real.log 2) * fixOne - ((v % fixLn2 : ℤ) : ℝ) =
        -(((v / fixLn2 : ℤ) : ℝ) * (fixOne * Real.log 2 - fixLn2)) := by
      rw [sub_mul, div_mul_cancel₀ _ hS.ne']
      linarith
    rw [this, abs_neg, abs_mul]
    refine mul_le_of_le_one_right (abs_nonneg _) ?_
    rw [abs_le]; constructor <;> linarith
  · exact hqR.trans thousand_le_fixOne

/-- 2^(v/2^400). -/
theorem fixPow2_near (v : ℤ) : |((fixPow2 v).1 : ℝ) - fixOne * ((2 : ℝ) ^ ((v : ℝ) / fixOne) / 2 ^ (fixPow2 v).2)| ≤ 309 := by
  have hS := fixOne_posR
  obtain ⟨l1, l2⟩ := fixLn2_real
  have hq : (fixPow2 v).2 = v / fixOne := rfl
  have hr : (fixPow2 v).1 = fixExp (fixMul (v % fixOne) fixLn2) := rfl
  have h0 := Int.emod_nonneg v fixOne_pos.ne'
  have hlt := Int.emod_lt_of_pos v fixOne_pos
  have hdm : (v : ℝ) = fixOne * ((v / fixOne : ℤ) : ℝ) + ((v % fixOne : ℤ) : ℝ) := by exact_mod_cast (Int.mul_ediv_add_emod v fixOne).symm
  have hval : (2 : ℝ) ^ ((v : ℝ) / fixOne) / 2 ^ (v / fixOne) = Real.exp (((v % fixOne : ℤ) : ℝ) / fixOne * Real.log 2) := by
    have hfrac : (v : ℝ) / fixOne - ((v / fixOne : ℤ) : ℝ) = ((v % fixOne : ℤ) : ℝ) / fixOne := by
      rw [div_sub' hS.ne', hdm, add_sub_cancel_left]
    rw [← Real.rpow_intCast, ← Real.rpow_sub two_pos, mul_comm, Real.exp_mul, Real.exp_log two_pos, hfrac]
  rw [hq, hr, hval]
  obtain ⟨m1, m2⟩ := fixMul_real (v % fixOne) fixLn2
  have hf0 : (0 : ℝ) ≤ ((v % fixOne : ℤ) : ℝ) / fixOne := div_nonneg (by exact_mod_cast h0) hS.le
  have hf1 : ((v % fixOne : ℤ) : ℝ) / fixOne ≤ 1 := (div_le_one hS).2 (by exact_mod_cast hlt.le)
  have hm : ((v % fixOne : ℤ) : ℝ) * fixLn2 / fixOne = ((v % fixOne : ℤ) : ℝ) / fixOne * fixLn2 := by ring
  rw [hm] at m1 m2
  have hle : fixMul (v % fixOne) fixLn2 ≤ fixLn2 := by
    have : (fixMul (v % fixOne) fixLn2 : ℝ) ≤ fixLn2 := m1.trans (mul_le_of_le_one_left fixLn2_posR.le hf1)
    exact_mod_cast this
  have hr0 : 0 ≤ fixMul (v % fixOne) fixLn2 := Int.ediv_nonneg (mul_nonneg h0 fixLn2_bounds.1.le) fixOne_pos.le
  refine (fixExp_near (δ := 2) hr0 hle ?_ ?_).trans (by norm_num)
  · generalize ((v % fixOne : ℤ) : ℝ) / fixOne = f at *
    generalize (fixMul (v % fixOne) fixLn2 : ℝ) = r at *
    have h1 : f * (fixLn2 : ℝ) ≤ f * (fixOne * Real.log 2) := mul_le_mul_of_nonneg_left l1 hf0
    have h2 : f * (fixOne * Real.log 2) ≤ f * (fixLn2 + 1) := mul_le_mul_of_nonneg_left l2 hf0
    generalize (fixOne : ℝ) = S at *
    generalize (fixLn2 : ℝ) = L at *
    have h3 : f * Real.log 2 * S = f * (S * Real.log 2) := by ring
    rw [h3, abs_le]
    rw [mul_add] at h2
    constructor <;> linarith
  · exact two_le_fixOne

/-- The argument of an exponential, cut at 2^8. -/
noncomputable def cutArg (x : ℝ) : ℝ := max (-256) (min 256 x)

theorem fixArg_real {neg : Bool} {m : Nat} {e : Int} (hm : m ≠ 0) (he : -400 ≤ e) :
    (fixArg neg m e : ℝ) / fixOne = cutArg ((finiteValue (.fin neg m e) : ℚ) : ℝ) := by
  have hS := fixOne_posR
  have hv := cast_finiteValue neg m e
  have hpos : (0 : ℝ) ≤ m * 2 ^ e := by positivity
  unfold fixArg cutArg
  split
  · next hb =>
    have hge : (256 : ℝ) ≤ m * 2 ^ e := by
      refine le_trans ?_ (leadExp_le hm e)
      calc (256 : ℝ) = 2 ^ (8 : ℤ) := by norm_num
        _ ≤ _ := zpow_le_zpow_right₀ one_le_two hb
    rw [hv]
    cases neg
    · simp only [signOf, Bool.false_eq_true, if_false, Int.cast_one, one_mul]
      rw [min_eq_left hge, max_eq_right (by norm_num)]
      push_cast
      field_simp
    · simp only [signOf, if_true]
      push_cast
      rw [neg_one_mul, min_eq_right (by linarith), max_eq_left (by linarith)]
      field_simp
  · next hb =>
    have hlt : (m : ℝ) * 2 ^ e < 256 := by
      refine (lt_leadExp m e).trans_le ?_
      calc (2 : ℝ) ^ (leadExp m e + 1) ≤ 2 ^ (8 : ℤ) := zpow_le_zpow_right₀ one_le_two (by omega)
        _ = 256 := by norm_num
    have hfix : ((fixOf neg m e : ℤ) : ℝ) = ((finiteValue (.fin neg m e) : ℚ) : ℝ) * fixOne := by
      have := congrArg (Rat.cast (K := ℝ)) (fixOf_value (neg := neg) (m := m) he)
      push_cast at this
      exact this
    rw [hfix, mul_div_cancel_right₀ _ hS.ne', hv]
    cases neg
    · simp only [signOf, Bool.false_eq_true, if_false, Int.cast_one, one_mul]
      rw [min_eq_right hlt.le, max_eq_right (by linarith)]
    · simp only [signOf, if_true]
      push_cast
      rw [min_eq_right (by linarith), max_eq_right (by linarith)]

/-- The quotient by ln 2 of an argument up to 2^9. -/
theorem ediv_fixLn2_abs {v : ℤ} (hv : |v| ≤ 512 * fixOne) : |v / fixLn2| ≤ 1000 := by
  have hL := fixLn2_bounds.1
  have h512 : 512 * fixOne ≤ 1000 * fixLn2 := by decide +kernel
  rw [abs_le] at hv ⊢
  constructor
  · rw [Int.le_ediv_iff_mul_le hL]; omega
  · exact Int.lt_add_one_iff.1 ((Int.ediv_lt_iff_lt_mul hL).2 (by omega))

theorem fixArg_abs {neg : Bool} {m : Nat} {e : Int} (hm : m ≠ 0) (he : -400 ≤ e) : |fixArg neg m e| ≤ 256 * fixOne := by
  have hS := fixOne_posR
  have h := fixArg_real (neg := neg) hm he
  have hc : |cutArg ((finiteValue (.fin neg m e) : ℚ) : ℝ)| ≤ 256 := by
    unfold cutArg
    rw [abs_le]
    exact ⟨le_max_left _ _, max_le (by norm_num) (min_le_left _ _)⟩
  rw [← h, abs_div, abs_of_pos hS, div_le_iff₀ hS] at hc
  exact_mod_cast hc

section

variable {neg : Bool} {m : Nat} {e : Int} (hm : m ≠ 0) (he : -400 ≤ e)
include hm he

theorem trueValue_exp2_near : (trueValue .exp2 neg m e).NearReal ((2 : ℝ) ^ cutArg ((finiteValue (.fin neg m e) : ℚ) : ℝ)) 4500 := by
  rw [trueValue_exp2, ← fixArg_real hm he]
  exact nearReal_fixVal ((fixPow2_near _).trans (by norm_num))

theorem trueValue_exp_near : (trueValue .exp neg m e).NearReal (Real.exp (cutArg ((finiteValue (.fin neg m e) : ℚ) : ℝ))) 4500 := by
  rw [trueValue_exp, ← fixArg_real hm he]
  have hq := ediv_fixLn2_abs ((fixArg_abs (neg := neg) hm he).trans (by have := fixOne_pos; omega))
  have hqR : |((fixPowE (fixArg neg m e)).2 : ℝ)| ≤ 1000 := by exact_mod_cast hq
  exact nearReal_fixVal ((fixPowE_near _ hq).trans (by linarith))

end

/-! ## The logarithms -/

/-- (x - 1)/(x + 1) rounded down, for x from 1 to 2. -/
theorem atanhArg_bounds {x : ℤ} (h1 : fixOne ≤ x) (h2 : x ≤ 2 * fixOne) :
    0 ≤ (x - fixOne) * fixOne / (x + fixOne) ∧ 3 * ((x - fixOne) * fixOne / (x + fixOne)) ≤ fixOne ∧
      (((x - fixOne) * fixOne / (x + fixOne) : ℤ) : ℝ) ≤ ((x : ℝ) / fixOne - 1) / (x / fixOne + 1) * fixOne ∧
      ((x : ℝ) / fixOne - 1) / (x / fixOne + 1) * fixOne ≤ ((x - fixOne) * fixOne / (x + fixOne) : ℤ) + 1 := by
  have hp := fixOne_pos
  have hS := fixOne_posR
  have h1R : (fixOne : ℝ) ≤ x := by exact_mod_cast h1
  generalize fixOne = S at *
  have hden : 0 < x + S := by omega
  obtain ⟨q1, q2⟩ := cast_ediv_bounds ((x - S) * S) hden
  have hsame : (((x - S) * S : ℤ) : ℝ) / ((x + S : ℤ) : ℝ) = ((x : ℝ) / S - 1) / (x / S + 1) * S := by
    push_cast
    field_simp
  rw [hsame] at q1 q2
  have hle : (x - S) * S / (x + S) * (x + S) ≤ (x - S) * S := Int.ediv_mul_le _ hden.ne'
  refine ⟨Int.ediv_nonneg (mul_nonneg (by omega) hp.le) hden.le, ?_, q1, q2.le⟩
  nlinarith

/-- ln ((1 + ζ)/(1 - ζ)) moves by at most 5/2 of what ζ does, up to 1/3. -/
theorem artanh_gap {a b : ℝ} (h0 : 0 ≤ a) (h : a ≤ b) (h1 : b ≤ 1 / 3) :
    0 ≤ (Real.log (1 + b) - Real.log (1 - b)) - (Real.log (1 + a) - Real.log (1 - a)) ∧
      (Real.log (1 + b) - Real.log (1 - b)) - (Real.log (1 + a) - Real.log (1 - a)) ≤ 5 / 2 * (b - a) := by
  have hup : Real.log (1 + b) - Real.log (1 + a) ≤ b - a := by
    rw [← Real.log_div (by linarith) (by linarith)]
    refine (Real.log_le_sub_one_of_pos (div_pos (by linarith) (by linarith))).trans ?_
    rw [div_sub_one (by linarith), div_le_iff₀ (by linarith)]
    nlinarith
  have hdown : Real.log (1 - a) - Real.log (1 - b) ≤ 3 / 2 * (b - a) := by
    rw [← Real.log_div (by linarith) (by linarith)]
    refine (Real.log_le_sub_one_of_pos (div_pos (by linarith) (by linarith))).trans ?_
    rw [div_sub_one (by linarith), div_le_iff₀ (by linarith)]
    nlinarith
  have hmono1 : Real.log (1 + a) ≤ Real.log (1 + b) := Real.log_le_log (by linarith) (by linarith)
  have hmono2 : Real.log (1 - b) ≤ Real.log (1 - a) := Real.log_le_log (by linarith) (by linarith)
  constructor <;> linarith

/-- The logarithm of x from 1 to 2, in fixed point. -/
theorem fixLogUnit_near {x : ℤ} (h1 : fixOne ≤ x) (h2 : x ≤ 2 * fixOne) :
    let z := (x - fixOne) * fixOne / (x + fixOne)
    |((2 * atanhTerms 130 (fixMul z z) z 1 0 : ℤ) : ℝ) - fixOne * Real.log (x / fixOne)| ≤ 785 := by
  intro z
  have hS := fixOne_posR
  obtain ⟨hz0, hz1, q1, q2⟩ := atanhArg_bounds h1 h2
  change 0 ≤ z at hz0
  change 3 * z ≤ fixOne at hz1
  change (z : ℝ) ≤ _ at q1
  change _ ≤ (z : ℝ) + 1 at q2
  obtain ⟨a1, a2⟩ := fixAtanh_real hz0 hz1
  have hμ1 : (1 : ℝ) ≤ x / fixOne := (one_le_div hS).2 (by exact_mod_cast h1)
  have hμ2 : (x : ℝ) / fixOne ≤ 2 := (div_le_iff₀ hS).2 (by exact_mod_cast h2)
  have hζ0 : (0 : ℝ) ≤ z / fixOne := div_nonneg (by exact_mod_cast hz0) hS.le
  generalize (((2 * atanhTerms 130 (fixMul z z) z 1 0 : ℤ)) : ℝ) = A at *
  generalize (x : ℝ) / fixOne = μ at *
  have hzζ : (z : ℝ) = z / fixOne * fixOne := (div_mul_cancel₀ _ hS.ne').symm
  rw [hzζ] at q1 q2
  generalize (z : ℝ) / fixOne = ζ at *
  generalize (fixOne : ℝ) = S at *
  have hζ : (μ - 1) / (μ + 1) ≤ 1 / 3 := by rw [div_le_iff₀ (by linarith)]; linarith
  have hlog : Real.log μ = Real.log (1 + (μ - 1) / (μ + 1)) - Real.log (1 - (μ - 1) / (μ + 1)) := by
    have hden : μ + 1 ≠ 0 := by linarith
    rw [← Real.log_div (by linarith [div_nonneg (by linarith : 0 ≤ μ - 1) (by linarith : 0 ≤ μ + 1)]) (by linarith)]
    congr 1
    rw [one_add_div hden, one_sub_div hden, div_div_div_cancel_right₀ hden]
    have : μ + 1 - (μ - 1) = 2 := by ring
    rw [this]; ring
  obtain ⟨g1, g2⟩ := artanh_gap hζ0 (le_of_mul_le_mul_right q1 hS) hζ
  rw [← hlog] at g1 g2
  generalize (μ - 1) / (μ + 1) = b at *
  generalize Real.log (1 + ζ) - Real.log (1 - ζ) = G at *
  have t1 := mul_nonneg hS.le g1
  have t2 := mul_le_mul_of_nonneg_left g2 hS.le
  rw [abs_le]
  constructor <;> nlinarith

theorem abs_add_sub_add_le {a b c d p q : ℝ} (h : |a - b| ≤ p) (g : |c - d| ≤ q) : |a + c - (b + d)| ≤ p + q := by
  rw [add_sub_add_comm]
  exact (abs_add_le _ _).trans (add_le_add h g)

/-- The natural logarithm of m·2^e. -/
theorem fixLog_near {m : Nat} (hm : m ≠ 0) (e : Int) (hl : Nat.log2 m ≤ 400) :
    |(fixLog m e : ℝ) - fixOne * Real.log (m * 2 ^ e)| ≤ 785 + |((e + Nat.log2 m : ℤ) : ℝ)| := by
  have hS := fixOne_posR
  have hself := Nat.log2_self_le hm
  have hlt : m < 2 ^ (Nat.log2 m + 1) := Nat.lt_log2_self
  have hone : fixOne = ((2 ^ Nat.log2 m * 2 ^ (400 - Nat.log2 m) : ℕ) : ℤ) := by
    rw [← pow_add, Nat.add_sub_cancel' hl]; rfl
  have hx1 : fixOne ≤ ((m * 2 ^ (400 - Nat.log2 m) : ℕ) : ℤ) := by
    rw [hone]; exact_mod_cast Nat.mul_le_mul_right _ hself
  have hx2 : ((m * 2 ^ (400 - Nat.log2 m) : ℕ) : ℤ) ≤ 2 * fixOne := by
    have : m * 2 ^ (400 - Nat.log2 m) ≤ 2 * (2 ^ Nat.log2 m * 2 ^ (400 - Nat.log2 m)) := by
      rw [← mul_assoc, ← pow_succ']
      exact Nat.mul_le_mul_right _ hlt.le
    rw [hone]; exact_mod_cast this
  have hunit := fixLogUnit_near hx1 hx2
  have hlogm : Real.log (m * 2 ^ e) = Real.log (((m * 2 ^ (400 - Nat.log2 m) : ℕ) : ℤ) / fixOne) + (e + Nat.log2 m : ℤ) * Real.log 2 := by
    have hmR : (m : ℝ) ≠ 0 := by exact_mod_cast hm
    have hsplit : (((m * 2 ^ (400 - Nat.log2 m) : ℕ) : ℤ) : ℝ) / fixOne = m / 2 ^ (Nat.log2 m : ℤ) := by
      have h400 : (fixOne : ℝ) = 2 ^ Nat.log2 m * 2 ^ (400 - Nat.log2 m) := by rw [hone]; push_cast; rfl
      rw [h400]
      push_cast
      rw [zpow_natCast, mul_div_mul_right _ _ (by positivity)]
    rw [hsplit, Real.log_mul hmR (by positivity), Real.log_div hmR (by positivity), Real.log_zpow, Real.log_zpow]
    push_cast
    ring
  obtain ⟨l1, l2⟩ := fixLn2_real
  have hk : |((e + Nat.log2 m : ℤ) : ℝ) * fixLn2 - fixOne * ((e + Nat.log2 m : ℤ) * Real.log 2)| ≤ |((e + Nat.log2 m : ℤ) : ℝ)| := by
    have : ((e + Nat.log2 m : ℤ) : ℝ) * fixLn2 - fixOne * ((e + Nat.log2 m : ℤ) * Real.log 2) =
        ((e + Nat.log2 m : ℤ) : ℝ) * (fixLn2 - fixOne * Real.log 2) := by ring
    rw [this, abs_mul]
    refine mul_le_of_le_one_right (abs_nonneg _) ?_
    rw [abs_le]; constructor <;> linarith
  have hfix : fixLog m e = 2 * atanhTerms 130 (fixMul _ _) _ 1 0 + (e + Nat.log2 m) * fixLn2 := rfl
  rw [hfix, hlogm, Int.cast_add, Int.cast_mul (e + (Nat.log2 m : ℤ)), mul_add]
  exact abs_add_sub_add_le hunit hk

end Sys2Proof.Machine

namespace Sys2Proof.Machine

/-- A finite FP32 number other than zero, in parts. -/
structure Parts (m : Nat) (e : Int) : Prop where
  ne : m ≠ 0
  exp : -149 ≤ e
  log : Nat.log2 m ≤ 23
  lead : leadExp m e ≤ 127

theorem Parts.of_decode {code : Nat} {neg : Bool} {m : Nat} {e : Int} (hd : decodeFp fp32 code = .fin neg m e) (hm : m ≠ 0) : Parts m e := by
  obtain ⟨mag, hmax, -, hv, hq, hlt, -⟩ := finite_code regular_fp32 hd
  have hlog : Nat.log2 m < 24 := (Nat.log2_lt hm).2 hlt
  refine ⟨hm, hq, by omega, ?_⟩
  have h1 := (magValue_strictMono fp32).monotone hmax
  rw [regular_fp32.top, ← hv] at h1
  have h2 : fp32.top < 2 ^ (128 : ℤ) := by simp only [FpFmt.top, fp32]; norm_num
  have h3 : ((m : ℚ) * 2 ^ e : ℚ) < 2 ^ (128 : ℤ) := h1.trans_lt h2
  have h4 := (Rat.cast_lt (K := ℝ)).2 h3
  rw [Rat.cast_mul, Rat.cast_zpow, Rat.cast_zpow, Rat.cast_natCast, Rat.cast_ofNat] at h4
  have := (zpow_lt_zpow_iff_right₀ (one_lt_two (α := ℝ))).1 ((leadExp_le hm e).trans_lt h4)
  omega

section

variable {neg : Bool} {m : Nat} {e : Int}

theorem trueValue_log : trueValue .log neg m e = fixVal (fixLog m e) 0 := by
  simp only [trueValue, reduceCtorEq, and_false, if_false]

theorem trueValue_log2 : trueValue .log2 neg m e = fixVal (fixLog m e * fixOne / fixLn2) 0 := by
  simp only [trueValue, reduceCtorEq, and_false, if_false]

variable (h : Parts m e)
include h

/-- The logarithm in fixed point, and the size of the true one. -/
theorem fixLog_parts : |(fixLog m e : ℝ) - fixOne * Real.log (m * 2 ^ e)| ≤ 935 ∧ |Real.log (m * 2 ^ e)| ≤ 150 * Real.log 2 := by
  have hk : |((e + Nat.log2 m : ℤ) : ℝ)| ≤ 150 := by
    have : |e + (Nat.log2 m : ℤ)| ≤ 150 := by
      have h1 := h.lead
      have h2 := h.exp
      rw [leadExp] at h1
      rw [abs_le]; omega
    exact_mod_cast this
  refine ⟨(fixLog_near h.ne e (h.log.trans (by decide))).trans (by linarith), ?_⟩
  have h1 := leadExp_le h.ne e
  have h2 := lt_leadExp m e
  have hpos : (0 : ℝ) < m * 2 ^ e := lt_of_lt_of_le (by positivity) h1
  have l1 := Real.log_le_log (by positivity) h1
  have l2 := Real.log_le_log hpos h2.le
  rw [Real.log_zpow] at l1 l2
  have hlog2 := Real.log_pos one_lt_two
  have g1 : (-150 : ℝ) ≤ leadExp m e := by
    have : -150 ≤ leadExp m e := by rw [leadExp]; linarith [h.exp, Int.natCast_nonneg (Nat.log2 m)]
    exact_mod_cast this
  have g2 : ((leadExp m e + 1 : ℤ) : ℝ) ≤ 150 := by
    have : leadExp m e + 1 ≤ 150 := by linarith [h.lead]
    exact_mod_cast this
  have t1 := mul_le_mul_of_nonneg_right g1 hlog2.le
  have t2 := mul_le_mul_of_nonneg_right g2 hlog2.le
  rw [abs_le]
  constructor <;> linarith

theorem trueValue_log_near : (trueValue .log neg m e).NearReal (Real.log (m * 2 ^ e)) 4500 := by
  rw [trueValue_log]
  exact nearReal_fixVal (by rw [zpow_zero, div_one]; exact (fixLog_parts h).1.trans (by norm_num))

theorem trueValue_log2_near : (trueValue .log2 neg m e).NearReal (Real.logb 2 (m * 2 ^ e)) 4500 := by
  rw [trueValue_log2]
  refine nearReal_fixVal ?_
  rw [zpow_zero, div_one]
  obtain ⟨h1, h2⟩ := fixLog_parts h
  obtain ⟨l1, l2⟩ := fixLn2_real
  obtain ⟨q1, q2⟩ := cast_ediv_bounds (fixLog m e * fixOne) fixLn2_bounds.1
  have hL := fixLn2_posR
  have hS := fixOne_posR
  have hSL : (fixOne : ℝ) ≤ 3 / 2 * fixLn2 := by
    have : 2 * fixOne ≤ 3 * fixLn2 := by decide +kernel
    have : (2 : ℝ) * fixOne ≤ 3 * fixLn2 := by exact_mod_cast this
    linarith
  have hlog2 := Real.log_pos one_lt_two
  push_cast at q1 q2
  rw [Real.logb]
  generalize Real.log (m * 2 ^ e) = Λ at *
  generalize (fixLog m e : ℝ) = F at *
  generalize ((fixLog m e * fixOne / fixLn2 : ℤ) : ℝ) = Y at *
  generalize (fixOne : ℝ) = S at *
  generalize (fixLn2 : ℝ) = L at *
  generalize Real.log 2 = c at *
  -- F·S/L - S·Λ/c, where F is near S·Λ and L near S·c.
  have hid : F * S / L - S * (Λ / c) = S / L * ((F - S * Λ) + Λ / c * (S * c - L)) := by
    field_simp
    ring
  have hΛ : |Λ / c| ≤ 150 := by
    rw [abs_div, abs_of_pos hlog2, div_le_iff₀ hlog2]; exact h2
  have hin : |(F - S * Λ) + Λ / c * (S * c - L)| ≤ 1085 := by
    refine (abs_add_le _ _).trans ?_
    rw [abs_mul]
    have : |S * c - L| ≤ 1 := by rw [abs_le]; constructor <;> linarith
    have := mul_le_mul hΛ this (abs_nonneg _) (by norm_num)
    linarith
  have hdiff : |F * S / L - S * (Λ / c)| ≤ 1628 := by
    have hquot : S / L ≤ 3 / 2 := by rw [div_le_iff₀ hL]; exact hSL
    have hq0 : 0 ≤ S / L := (div_pos hS hL).le
    rw [hid, abs_mul, abs_of_nonneg hq0]
    have := mul_le_mul hquot hin (abs_nonneg _) (by norm_num)
    linarith
  rw [abs_le] at hdiff ⊢
  constructor <;> linarith

end

/-! ## The hyperbolic tangent and the sigmoid -/

theorem nat_mul_pow_half_le (n : Nat) : (n : ℝ) * (1 / 2) ^ n ≤ 1 / 2 := by
  induction n with
  | zero => norm_num
  | succ n ih =>
    rcases Nat.eq_zero_or_pos n with rfl | hn
    · norm_num
    · have h1 : (1 : ℝ) ≤ n := by exact_mod_cast hn
      have h2 : (0 : ℝ) < (1 / 2) ^ n := by positivity
      rw [Nat.cast_succ, pow_succ]
      nlinarith

/-- e^-a for a > 0 in fixed point. -/
theorem fixShift_near {v : ℤ} (h0 : v < 0) (hv : |v| ≤ 512 * fixOne) :
    0 ≤ fixShift (fixPowE v) ∧ |(fixShift (fixPowE v) : ℝ) - fixOne * Real.exp (v / fixOne)| ≤ 154 := by
  have hq : v / fixLn2 < 0 := Int.ediv_neg_of_neg_of_pos h0 fixLn2_bounds.1
  obtain ⟨p1, p2, -⟩ := fixPowE_scaled v
  have hnear := fixPowE_near v (ediv_fixLn2_abs hv)
  have hq2 : (fixPowE v).2 = v / fixLn2 := rfl
  obtain ⟨k, hk⟩ : ∃ k : ℕ, v / fixLn2 = -((k : ℤ) + 1) := ⟨(-(v / fixLn2) - 1).toNat, by omega⟩
  have hshift : fixShift (fixPowE v) = (fixPowE v).1 / 2 ^ (k + 1) := by
    unfold fixShift
    rw [if_neg (by omega), hq2, hk, show (- -((k : ℤ) + 1)).toNat = k + 1 by omega]
  rw [hq2, hk] at hnear
  have hpow : (2 : ℝ) ^ (-((k : ℤ) + 1)) = (1 / 2) ^ (k + 1) := by
    rw [zpow_neg, ← Nat.cast_succ, zpow_natCast, one_div, inv_pow]
  have habs : |((-((k : ℤ) + 1) : ℤ) : ℝ)| = (k + 1 : ℕ) := by
    push_cast
    rw [abs_neg, abs_of_nonneg (by positivity)]
  rw [hpow, habs] at hnear
  obtain ⟨d1, d2⟩ := cast_ediv_bounds (fixPowE v).1 (b := 2 ^ (k + 1)) (by positivity)
  have hdiv : ((fixPowE v).1 : ℝ) / ((2 ^ (k + 1) : ℤ) : ℝ) = (fixPowE v).1 * (1 / 2) ^ (k + 1) := by
    push_cast
    rw [one_div, inv_pow, div_eq_mul_inv]
  rw [hdiv] at d1 d2
  have hw : (0 : ℝ) < (1 / 2) ^ (k + 1) := by positivity
  have hw2 : (1 / 2 : ℝ) ^ (k + 1) ≤ 1 / 2 := by
    rw [pow_succ]
    have : (1 / 2 : ℝ) ^ k ≤ 1 := pow_le_one₀ (by norm_num) (by norm_num)
    linarith
  have hkw := nat_mul_pow_half_le (k + 1)
  rw [hshift]
  refine ⟨Int.ediv_nonneg (fixOne_pos.le.trans p1) (by positivity), ?_⟩
  have hcancel : Real.exp (v / fixOne) = Real.exp (v / fixOne) / (1 / 2) ^ (k + 1) * (1 / 2) ^ (k + 1) := by field_simp
  rw [hcancel]
  generalize Real.exp (v / fixOne) / (1 / 2) ^ (k + 1) = E at *
  generalize ((fixPowE v).1 : ℝ) = P at *
  generalize (((fixPowE v).1 / 2 ^ (k + 1) : ℤ) : ℝ) = t at *
  generalize (((k + 1 : ℕ)) : ℝ) = K at *
  generalize (1 / 2 : ℝ) ^ (k + 1) = w at *
  generalize (fixOne : ℝ) = S at *
  have hm := mul_le_mul_of_nonneg_right hnear hw.le
  rw [← abs_of_pos hw, ← abs_mul, abs_of_pos hw, sub_mul, abs_le] at hm
  rw [abs_le]
  constructor <;> linarith [hm.1, hm.2]

/-- (1 - t)/(1 + t) rounded down, for t near u. -/
theorem tanhQuotient_near {t : ℤ} {u : ℝ} (h0 : 0 ≤ t) (hu : 0 ≤ u) (h : |(t : ℝ) - fixOne * u| ≤ 155) :
    |(((fixOne - t) * fixOne / (fixOne + t) : ℤ) : ℝ) - fixOne * ((1 - u) / (1 + u))| ≤ 311 := by
  have hS := fixOne_posR
  obtain ⟨q1, q2⟩ := cast_ediv_bounds ((fixOne - t) * fixOne) (b := fixOne + t) (by have := fixOne_pos; omega)
  have h0R : (0 : ℝ) ≤ t := by exact_mod_cast h0
  push_cast at q1 q2
  generalize (((fixOne - t) * fixOne / (fixOne + t) : ℤ) : ℝ) = Y at *
  generalize (fixOne : ℝ) = S at *
  generalize (t : ℝ) = T at *
  have hid : (S - T) * S / (S + T) - S * ((1 - u) / (1 + u)) = (S * u - T) * (2 * S / ((S + T) * (1 + u))) := by
    have h1 : S + T ≠ 0 := by linarith
    have h2 : 1 + u ≠ 0 := by linarith
    field_simp
    ring
  have hfac : |2 * S / ((S + T) * (1 + u))| ≤ 2 := by
    have hden : 0 < (S + T) * (1 + u) := mul_pos (by linarith) (by linarith)
    rw [abs_of_nonneg (div_nonneg (by linarith) hden.le), div_le_iff₀ hden]
    nlinarith [mul_nonneg h0R hu, mul_nonneg hS.le hu]
  have hb : |(S - T) * S / (S + T) - S * ((1 - u) / (1 + u))| ≤ 310 := by
    rw [hid, abs_mul, abs_sub_comm]
    have := mul_le_mul h hfac (abs_nonneg _) (by norm_num)
    linarith
  rw [abs_le] at hb ⊢
  constructor <;> linarith

/-- 1/(1 + t) rounded down, for t near u. -/
theorem sigmQuotient_near {t : ℤ} {u : ℝ} (h0 : 0 ≤ t) (hu : 0 ≤ u) (h : |(t : ℝ) - fixOne * u| ≤ 155) :
    0 ≤ fixOne * fixOne / (fixOne + t) ∧ |((fixOne * fixOne / (fixOne + t) : ℤ) : ℝ) - fixOne * (1 / (1 + u))| ≤ 156 := by
  have hS := fixOne_posR
  obtain ⟨q1, q2⟩ := cast_ediv_bounds (fixOne * fixOne) (b := fixOne + t) (by have := fixOne_pos; omega)
  have h0R : (0 : ℝ) ≤ t := by exact_mod_cast h0
  refine ⟨Int.ediv_nonneg (mul_nonneg fixOne_pos.le fixOne_pos.le) (by have := fixOne_pos; omega), ?_⟩
  push_cast at q1 q2
  generalize ((fixOne * fixOne / (fixOne + t) : ℤ) : ℝ) = Y at *
  generalize (fixOne : ℝ) = S at *
  generalize (t : ℝ) = T at *
  have hid : S * S / (S + T) - S * (1 / (1 + u)) = (S * u - T) * (S / ((S + T) * (1 + u))) := by
    have h1 : S + T ≠ 0 := by linarith
    have h2 : 1 + u ≠ 0 := by linarith
    field_simp
    ring
  have hfac : |S / ((S + T) * (1 + u))| ≤ 1 := by
    have hden : 0 < (S + T) * (1 + u) := mul_pos (by linarith) (by linarith)
    rw [abs_of_nonneg (div_nonneg hS.le hden.le), div_le_iff₀ hden]
    nlinarith [mul_nonneg h0R hu, mul_nonneg hS.le hu]
  have hb : |S * S / (S + T) - S * (1 / (1 + u))| ≤ 155 := by
    rw [hid, abs_mul, abs_sub_comm]
    have := mul_le_mul h hfac (abs_nonneg _) (by norm_num)
    linarith
  rw [abs_le] at hb ⊢
  constructor <;> linarith

end Sys2Proof.Machine

namespace Sys2Proof.Machine

/-! ## tanh and sigmoid of an argument that is not tiny -/

theorem tanh_eq_exp (a : ℝ) : Real.tanh a = (1 - Real.exp (-2 * a)) / (1 + Real.exp (-2 * a)) := by
  have hx : Real.exp (-2 * a) = Real.exp (-a) * Real.exp (-a) := by rw [← Real.exp_add]; ring_nf
  have hone : Real.exp a * Real.exp (-a) = 1 := by rw [← Real.exp_add]; simp
  rw [Real.tanh_eq, hx, div_eq_div_iff (by positivity) (by positivity)]
  linear_combination (2 * Real.exp (-a)) * hone

/-- The size of an argument, cut at 2^8, in fixed point. -/
def fixMag (m : Nat) (e : Int) : Int := fixArg false m e

theorem fixArg_mag (neg : Bool) (m : Nat) (e : Int) : fixArg neg m e = if neg then -fixMag m e else fixMag m e := by
  cases neg
  · rfl
  · exact fixArg_not false m e

/-- What that is. -/
noncomputable def sizeArg (m : Nat) (e : Int) : ℝ := min 256 ((m : ℝ) * 2 ^ e)

/-- The tangent of a size in fixed point. -/
def tanhMag (m : Nat) (e : Int) : Int :=
  let t := max 1 (fixShift (fixPowE (-2 * fixMag m e)))
  (fixOne - t) * fixOne / (fixOne + t)

/-- The sigmoid of a size in fixed point. -/
def sigmMag (m : Nat) (e : Int) : Int := fixOne * fixOne / (fixOne + fixShift (fixPowE (-fixMag m e)))

theorem trueValue_tanh {neg : Bool} {m : Nat} {e : Int} (h : ¬leadExp m e ≤ -60) :
    trueValue .tanh neg m e = fixVal (if neg then -tanhMag m e else tanhMag m e) 0 := by
  have hx : (if neg then -fixArg neg m e else fixArg neg m e) = fixMag m e := by rw [fixArg_mag]; cases neg <;> simp
  simp only [trueValue, h, reduceCtorEq, false_and, if_false]
  change fixVal (if neg = true then _ else _) 0 = _
  unfold tanhMag
  rw [← hx]
  rfl

theorem trueValue_sigm (neg : Bool) (m : Nat) (e : Int) :
    trueValue .sigm neg m e = if neg then fixVal (fixMul (fixPowE (-fixMag m e)).1 (sigmMag m e)) (fixPowE (-fixMag m e)).2
      else fixVal (sigmMag m e) 0 := by
  have hx : (if neg then fixArg neg m e else -fixArg neg m e) = -fixMag m e := by rw [fixArg_mag]; cases neg <;> simp
  simp only [trueValue, reduceCtorEq, and_false, if_false]
  unfold sigmMag
  rw [← hx]
  rfl

section

variable {m : Nat} {e : Int} (h : Parts m e)
include h

/-- The size cut at 2^8, above zero. -/
theorem fixMag_parts : 0 < fixMag m e ∧ fixMag m e ≤ 256 * fixOne ∧ (fixMag m e : ℝ) / fixOne = sizeArg m e := by
  have he : -400 ≤ e := by linarith [h.exp]
  have hreal := fixArg_real (neg := false) h.ne he
  have habs := fixArg_abs (neg := false) h.ne he
  have hm : 0 < m := Nat.pos_of_ne_zero h.ne
  have hpos : (0 : ℝ) < m * 2 ^ e := by positivity
  have hcut : cutArg ((finiteValue (.fin false m e) : ℚ) : ℝ) = sizeArg m e := by
    rw [cast_finiteValue]
    simp only [signOf, Bool.false_eq_true, if_false, Int.cast_one, one_mul, cutArg]
    exact max_eq_right (le_min (by norm_num) (by linarith : (-256 : ℝ) ≤ m * 2 ^ e))
  rw [hcut] at hreal
  refine ⟨?_, (abs_le.1 habs).2, hreal⟩
  have : (0 : ℝ) < (fixMag m e : ℝ) / fixOne := by
    show (0 : ℝ) < (fixArg false m e : ℝ) / fixOne
    rw [hreal]; exact lt_min (by norm_num) hpos
  exact_mod_cast (div_pos_iff_of_pos_right fixOne_posR).1 this

theorem tanhMag_near : |(tanhMag m e : ℝ) - fixOne * Real.tanh (sizeArg m e)| ≤ 311 := by
  obtain ⟨h0, h1, h2⟩ := fixMag_parts h
  obtain ⟨s0, s1⟩ := fixShift_near (v := -2 * fixMag m e) (by omega) (by rw [abs_le]; constructor <;> omega)
  have hexp : ((-2 * fixMag m e : ℤ) : ℝ) / fixOne = -2 * sizeArg m e := by
    rw [← h2]; push_cast; ring
  rw [hexp] at s1
  have ht : |((max 1 (fixShift (fixPowE (-2 * fixMag m e))) : ℤ) : ℝ) - fixOne * Real.exp (-2 * sizeArg m e)| ≤ 155 := by
    have hs0 : (0 : ℝ) ≤ fixShift (fixPowE (-2 * fixMag m e)) := by exact_mod_cast s0
    have hmax : |((max 1 (fixShift (fixPowE (-2 * fixMag m e))) : ℤ) : ℝ) - fixShift (fixPowE (-2 * fixMag m e))| ≤ 1 := by
      push_cast
      rw [abs_le]
      refine ⟨by linarith [le_max_right (1 : ℝ) (fixShift (fixPowE (-2 * fixMag m e)))], ?_⟩
      rw [sub_le_iff_le_add]
      exact max_le (by linarith) (by linarith)
    refine (abs_sub_le _ ((fixShift (fixPowE (-2 * fixMag m e)) : ℤ) : ℝ) _).trans ?_
    linarith
  have := tanhQuotient_near (le_trans zero_le_one (le_max_left _ _)) (Real.exp_pos _).le ht
  rw [tanh_eq_exp]
  exact this

theorem sigmMag_near : 0 ≤ sigmMag m e ∧ |(sigmMag m e : ℝ) - fixOne * (1 / (1 + Real.exp (-sizeArg m e)))| ≤ 156 := by
  obtain ⟨h0, h1, h2⟩ := fixMag_parts h
  obtain ⟨s0, s1⟩ := fixShift_near (v := -fixMag m e) (by omega) (by rw [abs_le]; constructor <;> omega)
  have hexp : ((-fixMag m e : ℤ) : ℝ) / fixOne = -sizeArg m e := by
    rw [← h2]; push_cast; ring
  rw [hexp] at s1
  exact sigmQuotient_near s0 (Real.exp_pos _).le (by linarith)

/-- The sigmoid of a negative number: e^-a / (1 + e^-a). -/
theorem sigmNeg_near : |(fixMul (fixPowE (-fixMag m e)).1 (sigmMag m e) : ℝ) -
    fixOne * (1 / (1 + Real.exp (sizeArg m e)) / 2 ^ (fixPowE (-fixMag m e)).2)| ≤ 4500 := by
  obtain ⟨h0, h1, h2⟩ := fixMag_parts h
  obtain ⟨d0, d1⟩ := sigmMag_near h
  obtain ⟨p1, p2, -⟩ := fixPowE_scaled (-fixMag m e)
  have hq := ediv_fixLn2_abs (v := -fixMag m e) (by rw [abs_le]; constructor <;> omega)
  have hnear := fixPowE_near _ hq
  have hqR : |((fixPowE (-fixMag m e)).2 : ℝ)| ≤ 512 := by
    have hL := fixLn2_bounds.1
    have h512 : 256 * fixOne ≤ 512 * fixLn2 := by decide +kernel
    have h512' : |(-fixMag m e) / fixLn2| ≤ 512 := by
      rw [abs_le]
      constructor
      · rw [Int.le_ediv_iff_mul_le hL]; omega
      · exact Int.lt_add_one_iff.1 ((Int.ediv_lt_iff_lt_mul hL).2 (by omega))
    exact_mod_cast h512'
  have hexp : ((-fixMag m e : ℤ) : ℝ) / fixOne = -sizeArg m e := by
    rw [← h2]; push_cast; ring
  rw [hexp] at hnear
  obtain ⟨m1, m2⟩ := fixMul_real (fixPowE (-fixMag m e)).1 (sigmMag m e)
  have hS := fixOne_posR
  have hD0 : (0 : ℝ) ≤ sigmMag m e := by exact_mod_cast d0
  have hP0 : (fixOne : ℝ) ≤ (fixPowE (-fixMag m e)).1 := by exact_mod_cast p1
  have hP1 : ((fixPowE (-fixMag m e)).1 : ℝ) ≤ 3 * fixOne := by exact_mod_cast p2
  generalize sizeArg m e = a at *
  have hval : 1 / (1 + Real.exp a) = Real.exp (-a) * (1 / (1 + Real.exp (-a))) := by
    have hone : Real.exp a * Real.exp (-a) = 1 := by rw [← Real.exp_add]; simp
    rw [mul_one_div, div_eq_div_iff (by positivity) (by positivity)]
    linarith
  have hw : (0 : ℝ) < 1 / (1 + Real.exp (-a)) := by positivity
  have hw1 : 1 / (1 + Real.exp (-a)) ≤ 1 := by
    rw [div_le_one (by positivity)]; linarith [Real.exp_pos (-a)]
  rw [hval, mul_div_right_comm]
  generalize 1 / (1 + Real.exp (-a)) = w at *
  generalize Real.exp (-a) / 2 ^ (fixPowE (-fixMag m e)).2 = E at *
  generalize (fixMul (fixPowE (-fixMag m e)).1 (sigmMag m e) : ℝ) = Y at *
  generalize ((fixPowE (-fixMag m e)).1 : ℝ) = P at *
  generalize ((fixPowE (-fixMag m e)).2 : ℝ) = K at *
  generalize (sigmMag m e : ℝ) = D at *
  generalize (fixOne : ℝ) = S at *
  have hid : P * D / S - S * (E * w) = P / S * (D - S * w) + (P - S * E) * w := by
    field_simp
    ring
  have hPS : |P / S| ≤ 3 := by
    rw [abs_of_nonneg (div_nonneg (by linarith) hS.le), div_le_iff₀ hS]; exact hP1
  have hmain : |P * D / S - S * (E * w)| ≤ 4499 := by
    rw [hid]
    refine (abs_add_le _ _).trans ?_
    rw [abs_mul, abs_mul (P - S * E), abs_of_pos hw]
    have t1 := mul_le_mul hPS d1 (abs_nonneg _) (by norm_num)
    have t2 := mul_le_mul hnear hw1 hw.le (by positivity)
    linarith
  rw [abs_le] at hmain ⊢
  constructor <;> linarith

end

end Sys2Proof.Machine

namespace Sys2Proof.Machine

/-! ## tanh, and the sine of a tiny argument -/

/-- tanh below its cubic Taylor polynomial's error. -/
theorem tanh_bound {x : ℝ} (h0 : 0 ≤ x) (h1 : x ≤ 1 / 2) : |Real.tanh x - (x - x ^ 3 / 3)| ≤ x ^ 5 := by
  have hE := Real.exp_bound (x := 2 * x) (n := 5) (by rw [abs_of_nonneg (by linarith)]; linarith) (by decide)
  have hP : ∑ k ∈ Finset.range 5, (2 * x) ^ k / (k.factorial : ℝ) = 1 + 2 * x + 2 * x ^ 2 + 4 / 3 * x ^ 3 + 2 / 3 * x ^ 4 := by
    simp only [Finset.sum_range_succ, Finset.sum_range_zero, Nat.factorial]
    norm_num
    ring
  have hR : |2 * x| ^ 5 * (((Nat.succ 5 : ℕ) : ℝ) / ((Nat.factorial 5 : ℕ) * (5 : ℕ))) = 8 / 25 * x ^ 5 := by
    rw [abs_of_nonneg (by linarith)]
    norm_num [Nat.factorial]
    ring
  rw [hP, hR] at hE
  have hge : 1 ≤ Real.exp (2 * x) := Real.one_le_exp (by linarith)
  have htanh : Real.tanh x = (Real.exp (2 * x) - 1) / (Real.exp (2 * x) + 1) := by
    have hinv : Real.exp (2 * x) * Real.exp (-2 * x) = 1 := by rw [← Real.exp_add]; simp
    rw [tanh_eq_exp, div_eq_div_iff (by positivity) (by positivity)]
    linear_combination -2 * hinv
  rw [htanh]
  generalize Real.exp (2 * x) = E at *
  have hden : 0 < E + 1 := by linarith
  have hid : (E - 1) / (E + 1) - (x - x ^ 3 / 3) = ((E - (1 + 2 * x + 2 * x ^ 2 + 4 / 3 * x ^ 3 + 2 / 3 * x ^ 4)) * (1 - x + x ^ 3 / 3) +
      (4 / 9 * x ^ 6 + 2 / 9 * x ^ 7)) / (E + 1) := by
    field_simp
    ring
  have h5 : 0 ≤ x ^ 5 := by positivity
  have h3 : x ^ 3 ≤ x := by nlinarith [mul_nonneg h0 h0]
  have hfac : |1 - x + x ^ 3 / 3| ≤ 1 := by
    rw [abs_le]
    have : 0 ≤ x ^ 3 := by positivity
    constructor <;> linarith
  have hrest : |4 / 9 * x ^ 6 + 2 / 9 * x ^ 7| ≤ 1 / 2 * x ^ 5 := by
    have e6 : x ^ 6 = x ^ 5 * x := by ring
    have e7 : x ^ 7 = x ^ 5 * x * x := by ring
    rw [abs_of_nonneg (by positivity), e6, e7]
    nlinarith [mul_le_mul_of_nonneg_left h1 h5, mul_nonneg h5 h0]
  rw [hid, abs_div, abs_of_pos hden, div_le_iff₀ hden]
  refine (abs_add_le _ _).trans ?_
  rw [abs_mul]
  have t := mul_le_mul hE hfac (abs_nonneg _) (by positivity)
  nlinarith

/-- x - x³/d in units of 2^(3e - 19). -/
def cubeMag (m : Nat) (e : Int) (d : Nat) : Nat := m * 2 ^ (19 - 2 * e).toNat - m ^ 3 * 2 ^ 19 / d

theorem cubeBelow_eq (neg : Bool) (m : Nat) (e : Int) (d : Nat) : cubeBelow neg m e d = .fin neg (cubeMag m e d) (3 * e - 19) := rfl

section

variable {m : Nat} {e : Int} (h : Parts m e) (hl : leadExp m e ≤ -60)
include h hl

/-- A tiny argument's bits stand far above its cube's. -/
theorem cube_lt (d : Nat) : 2 * (m ^ 3 * 2 ^ 19 / d) ≤ 2 ^ (19 - 2 * e).toNat := by
  have hm : m < 2 ^ (Nat.log2 m + 1) := Nat.lt_log2_self
  have hk : Nat.log2 m ≤ 23 := h.log
  rw [leadExp] at hl
  have h3 : m ^ 3 ≤ 2 ^ (3 * (Nat.log2 m + 1)) := by
    rw [mul_comm, pow_mul]
    exact Nat.pow_le_pow_left hm.le 3
  calc 2 * (m ^ 3 * 2 ^ 19 / d) ≤ 2 * (m ^ 3 * 2 ^ 19) := Nat.mul_le_mul_left _ (Nat.div_le_self _ _)
    _ ≤ 2 * (2 ^ (3 * (Nat.log2 m + 1)) * 2 ^ 19) := Nat.mul_le_mul_left _ (Nat.mul_le_mul_right _ h3)
    _ = 2 ^ (3 * (Nat.log2 m + 1) + 20) := by rw [pow_add, show 20 = 19 + 1 from rfl, pow_succ]; ring
    _ ≤ 2 ^ (19 - 2 * e).toNat := Nat.pow_le_pow_right two_pos (by omega)

theorem cubeMag_real {d : Nat} (hd : 1 ≤ d) :
    |(cubeMag m e d : ℝ) * 2 ^ (3 * e - 19) - ((m * 2 ^ e : ℝ) - (m * 2 ^ e : ℝ) ^ 3 / d)| ≤ 2 ^ (3 * e - 19) := by
  have hm : 1 ≤ m := Nat.pos_of_ne_zero h.ne
  have hle : m ^ 3 * 2 ^ 19 / d ≤ m * 2 ^ (19 - 2 * e).toNat :=
    le_trans (by have := cube_lt h hl d; omega) (Nat.le_mul_of_pos_left _ hm)
  rw [leadExp] at hl
  obtain ⟨q1, q2⟩ := cast_ediv_bounds ((m ^ 3 * 2 ^ 19 : ℕ) : ℤ) (b := (d : ℤ)) (by omega)
  have hcast : ((((m ^ 3 * 2 ^ 19 : ℕ) : ℤ) / (d : ℤ) : ℤ) : ℝ) = ((m ^ 3 * 2 ^ 19 / d : ℕ) : ℝ) := by norm_cast
  have hnum : (((m ^ 3 * 2 ^ 19 : ℕ) : ℤ) : ℝ) = (m : ℝ) ^ 3 * 2 ^ 19 := by
    rw [Int.cast_natCast, Nat.cast_mul, Nat.cast_pow, Nat.cast_pow, Nat.cast_ofNat]
  rw [hcast, hnum, Int.cast_natCast] at q1 q2
  have hmag : (cubeMag m e d : ℝ) = m * 2 ^ (19 - 2 * e) - ((m ^ 3 * 2 ^ 19 / d : ℕ) : ℝ) := by
    unfold cubeMag
    rw [Nat.cast_sub hle]
    congr 1
    push_cast
    rw [← zpow_natCast, Int.toNat_of_nonneg (by have := Int.natCast_nonneg (Nat.log2 m); omega)]
  have hx : (m * 2 ^ e : ℝ) = m * 2 ^ (19 - 2 * e) * 2 ^ (3 * e - 19) := by
    rw [mul_assoc, ← zpow_add₀ two_ne_zero]
    congr 2; ring
  have hx3 : (m * 2 ^ e : ℝ) ^ 3 / d = m ^ 3 * 2 ^ 19 / d * 2 ^ (3 * e - 19) := by
    have : ((2 : ℝ) ^ e) ^ 3 = 2 ^ 19 * 2 ^ (3 * e - 19) := by
      rw [← zpow_natCast, ← zpow_natCast, ← zpow_mul, ← zpow_add₀ two_ne_zero]
      congr 1; push_cast; ring
    rw [mul_pow, this]
    ring
  rw [hmag, hx3]
  rw [hx]
  have hu : (0 : ℝ) < 2 ^ (3 * e - 19) := by positivity
  rw [← sub_mul, ← sub_mul, abs_mul, abs_of_pos hu]
  refine mul_le_of_le_one_left hu.le ?_
  rw [abs_le]
  constructor <;> linarith

/-- The fifth power of a tiny argument is less than a unit. -/
theorem fifth_power_le : (m * 2 ^ e : ℝ) ^ 5 ≤ 2 ^ (3 * e - 19) := by
  have hlt := (lt_leadExp m e).le
  have hm : (m : ℝ) ≤ 2 ^ (24 : ℤ) := by
    have h1 : m < 2 ^ (Nat.log2 m + 1) := Nat.lt_log2_self
    have h2 : m ≤ 2 ^ 24 := h1.le.trans (Nat.pow_le_pow_right two_pos (by have := h.log; omega))
    exact_mod_cast h2
  have hx0 : (0 : ℝ) ≤ m * 2 ^ e := by positivity
  have hx : (m * 2 ^ e : ℝ) ≤ 2 ^ (-59 : ℤ) := hlt.trans (zpow_le_zpow_right₀ one_le_two (by omega))
  have h2 : (m * 2 ^ e : ℝ) ^ 2 ≤ (2 ^ (-59 : ℤ)) ^ 2 := pow_le_pow_left₀ hx0 hx 2
  have h3 : (m * 2 ^ e : ℝ) ^ 3 ≤ (2 ^ (24 : ℤ) * 2 ^ e) ^ 3 := pow_le_pow_left₀ hx0 (mul_le_mul_of_nonneg_right hm (by positivity)) 3
  calc (m * 2 ^ e : ℝ) ^ 5 = (m * 2 ^ e : ℝ) ^ 2 * (m * 2 ^ e : ℝ) ^ 3 := by ring
    _ ≤ (2 ^ (-59 : ℤ)) ^ 2 * (2 ^ (24 : ℤ) * 2 ^ e) ^ 3 := mul_le_mul h2 h3 (by positivity) (by positivity)
    _ = 2 ^ (3 * e - 46) := by
      rw [← zpow_natCast, ← zpow_natCast, ← zpow_add₀ two_ne_zero, ← zpow_mul, ← zpow_mul, ← zpow_add₀ two_ne_zero]
      congr 1; push_cast; ring
    _ ≤ 2 ^ (3 * e - 19) := zpow_le_zpow_right₀ one_le_two (by omega)

end

/-- A value with a sign, near an odd function of a number with that sign. -/
theorem nearReal_odd {neg : Bool} {M : Nat} {g : Int} {f : ℝ → ℝ} {x d : ℝ} (hodd : f (-x) = -f x) (h : |(M : ℝ) * 2 ^ g - f x| ≤ d * 2 ^ g) :
    (FVal.fin neg M g).NearReal (f (signOf neg * x)) d := by
  refine ⟨neg, M, g, rfl, ?_⟩
  rw [cast_finiteValue]
  cases neg
  · simpa [signOf] using h
  · have : |(signOf true : ℝ) * (M * 2 ^ g) - f (signOf true * x)| = |(M : ℝ) * 2 ^ g - f x| := by
      simp only [signOf, if_true]
      push_cast
      rw [neg_one_mul, neg_one_mul, hodd, ← abs_neg]
      congr 1; ring
    rw [this]
    exact h

section

variable {neg : Bool} {m : Nat} {e : Int} (h : Parts m e)
include h

theorem trueValue_sin_tiny (hl : leadExp m e ≤ -60) : (trueValue .sin neg m e).NearReal (Real.sin ((finiteValue (.fin neg m e) : ℚ) : ℝ)) 4500 := by
  have ht : trueValue .sin neg m e = .fin neg (cubeMag m e 6) (3 * e - 19) := by
    simp only [trueValue, hl, and_self, if_true, cubeBelow_eq]
  rw [ht, cast_finiteValue]
  refine nearReal_odd (Real.sin_neg _) ?_
  have hx0 : (0 : ℝ) ≤ m * 2 ^ e := by positivity
  have hx1 : (m * 2 ^ e : ℝ) ≤ 1 := by
    have := (lt_leadExp m e).le.trans (zpow_le_zpow_right₀ one_le_two (by omega : leadExp m e + 1 ≤ 0))
    simpa using this
  have h1 := cubeMag_real h hl (d := 6) (by decide)
  have h2 := Real.sin_bound (x := m * 2 ^ e) (by rw [abs_of_nonneg hx0]; exact hx1)
  rw [abs_of_nonneg hx0] at h2
  have h3 := fifth_power_le h hl
  have hu : (0 : ℝ) < 2 ^ (3 * e - 19) := by positivity
  push_cast at h1
  rw [abs_le] at h1 h2 ⊢
  constructor <;> nlinarith

theorem trueValue_tanh_tiny (hl : leadExp m e ≤ -60) : (trueValue .tanh neg m e).NearReal (Real.tanh ((finiteValue (.fin neg m e) : ℚ) : ℝ)) 4500 := by
  have ht : trueValue .tanh neg m e = .fin neg (cubeMag m e 3) (3 * e - 19) := by
    simp only [trueValue, hl, and_self, if_true, cubeBelow_eq, reduceCtorEq, and_false, if_false]
  rw [ht, cast_finiteValue]
  refine nearReal_odd (Real.tanh_neg _) ?_
  have hx0 : (0 : ℝ) ≤ m * 2 ^ e := by positivity
  have hx1 : (m * 2 ^ e : ℝ) ≤ 1 / 2 := by
    have := (lt_leadExp m e).le.trans (zpow_le_zpow_right₀ one_le_two (by omega : leadExp m e + 1 ≤ -1))
    norm_num at this ⊢
    exact this
  have h1 := cubeMag_real h hl (d := 3) (by decide)
  have h2 := tanh_bound hx0 hx1
  have h3 := fifth_power_le h hl
  have hu : (0 : ℝ) < 2 ^ (3 * e - 19) := by positivity
  push_cast at h1
  rw [abs_le] at h1 h2 ⊢
  constructor <;> nlinarith

end

end Sys2Proof.Machine

namespace Sys2Proof.Machine

/-! ## Sine and cosine -/

/-- Term with index k of the series of sine and cosine, in units of 2^-400; the sign is that of its place j. -/
noncomputable def trigTerm (ρ : ℝ) (j k : Nat) : ℝ := fixOne * ((-1) ^ j * ρ ^ k / k.factorial)

theorem trigTerm_succ (ρ : ℝ) (j k : Nat) : trigTerm ρ (j + 1) (k + 2) = -(trigTerm ρ j k * ρ ^ 2 / ((k + 1) * (k + 2))) := by
  unfold trigTerm
  rw [Nat.factorial_succ, Nat.factorial_succ, pow_succ, pow_succ ρ (k + 1), pow_succ ρ k]
  push_cast
  field_simp
  ring

/-- What a computed term is known to be: the first of the cosine, or one at most 3 units off and at most 2. -/
def TrigGood (t T : ℝ) (k : Nat) : Prop := (k = 0 ∧ t = T ∧ |T| ≤ fixOne) ∨ (1 ≤ k ∧ |t - T| ≤ 3 ∧ |T| ≤ 2 * fixOne)

theorem trig_step {r t : ℤ} (h0 : 0 ≤ r) (h1 : 5 * r ≤ 8 * fixOne) {j k : Nat} (h : TrigGood t (trigTerm (r / fixOne) j k) k) :
    TrigGood ((-(fixMul t (fixMul r r) / ((k + 1) * (k + 2) : Nat)) : ℤ) : ℝ) (trigTerm (r / fixOne) (j + 1) (k + 2)) (k + 2) := by
  have hS := fixOne_posR
  have hS1 := thousand_le_fixOne
  have hρ0 : (0 : ℝ) ≤ r / fixOne := div_nonneg (by exact_mod_cast h0) hS.le
  have hρ1 : (r : ℝ) / fixOne ≤ 8 / 5 := by
    have : (5 : ℝ) * r ≤ 8 * fixOne := by exact_mod_cast h1
    rw [div_le_iff₀ hS]; linarith
  obtain ⟨m1, m2⟩ := fixMul_real t (fixMul r r)
  obtain ⟨q1, q2⟩ := fixMul_real r r
  obtain ⟨d1, d2⟩ := cast_ediv_bounds (fixMul t (fixMul r r)) (b := (((k + 1) * (k + 2) : Nat) : ℤ)) (by positivity)
  have hrr : (r : ℝ) * r / fixOne = fixOne * (r / fixOne) ^ 2 := by field_simp
  rw [hrr] at q1 q2
  rw [trigTerm_succ]
  have hK : (2 : ℝ) ≤ (k + 1) * (k + 2) := by
    have : (0 : ℝ) ≤ k := Nat.cast_nonneg k
    nlinarith
  have hKk : 1 ≤ k → (6 : ℝ) ≤ (k + 1) * (k + 2) := fun hk => by
    have : (1 : ℝ) ≤ k := by exact_mod_cast hk
    nlinarith
  have hcast : ((((k + 1) * (k + 2) : Nat) : ℤ) : ℝ) = (k + 1) * (k + 2) := by push_cast; ring
  rw [hcast] at d1 d2
  rw [Int.cast_neg]
  generalize trigTerm (r / fixOne) j k = T at *
  generalize ((k : ℝ) + 1) * (k + 2) = K at *
  have hw : ((r : ℝ) / fixOne) ^ 2 ≤ 64 / 25 := by nlinarith
  have hw0 : (0 : ℝ) ≤ ((r : ℝ) / fixOne) ^ 2 := by positivity
  generalize ((r : ℝ) / fixOne) ^ 2 = w at *
  generalize ((fixMul t (fixMul r r) / (((k + 1) * (k + 2) : Nat) : ℤ) : ℤ) : ℝ) = Q at *
  generalize (fixMul t (fixMul r r) : ℝ) = M at *
  generalize (fixMul r r : ℝ) = R at *
  generalize (t : ℝ) = τ at *
  unfold TrigGood at h ⊢
  generalize (fixOne : ℝ) = S at *
  have hKpos : 0 < K := by linarith
  -- The product before its division, with |t - T| = d.
  have hprod : |M - T * w| ≤ |τ - T| * w + |τ| / S + 1 := by
    have e1 : |M - τ * R / S| ≤ 1 := by rw [abs_le]; constructor <;> linarith
    have e2 : τ * R / S - T * w = (τ - T) * w + τ / S * (R - S * w) := by field_simp; ring
    have e3 : |τ * R / S - T * w| ≤ |τ - T| * w + |τ| / S := by
      rw [e2]
      refine (abs_add_le _ _).trans ?_
      rw [abs_mul, abs_mul, abs_of_nonneg hw0, abs_div, abs_of_pos hS]
      have : |R - S * w| ≤ 1 := by rw [abs_le]; constructor <;> linarith
      have := mul_le_of_le_one_right (div_nonneg (abs_nonneg τ) hS.le) this
      linarith
    exact (abs_sub_le M (τ * R / S) (T * w)).trans (by linarith)
  have hQ : |Q - M / K| ≤ 1 := by rw [abs_le]; constructor <;> linarith
  have hnew : |-Q - -(T * w / K)| ≤ |M - T * w| / K + 1 := by
    have e : -Q - -(T * w / K) = -(Q - M / K) - (M - T * w) / K := by ring
    rw [e]
    refine (abs_sub _ _).trans ?_
    rw [abs_neg, abs_div, abs_of_pos hKpos]
    linarith
  have hTnew : |-(T * w / K)| = |T| * w / K := by rw [abs_neg, abs_div, abs_mul, abs_of_nonneg hw0, abs_of_pos hKpos]
  refine .inr ⟨by omega, hnew.trans ?_, ?_⟩
  · have hgoal : |M - T * w| ≤ 2 * K := by
      rcases h with ⟨-, rfl, hT⟩ | ⟨hk, hd, hT⟩
      · rw [sub_self, abs_zero, zero_mul] at hprod
        have : |τ| / S ≤ 1 := (div_le_one hS).2 hT
        linarith
      · have h6 := hKk hk
        have hτ : |τ| / S ≤ 3 := by
          rw [div_le_iff₀ hS]
          have := abs_sub_abs_le_abs_sub τ T
          linarith
        have := mul_le_mul hd hw hw0 (by norm_num)
        linarith
    rw [← le_sub_iff_add_le, div_le_iff₀ hKpos]
    linarith
  · rw [hTnew, div_le_iff₀ hKpos]
    rcases h with ⟨-, rfl, hT⟩ | ⟨hk, hd, hT⟩
    · have := mul_le_mul hT hw hw0 hS.le
      nlinarith
    · have h6 := hKk hk
      have := mul_le_mul hT hw hw0 (by linarith)
      nlinarith

theorem TrigGood.le {t T : ℝ} {k : Nat} (h : TrigGood t T k) : |t - T| ≤ 3 := by
  rcases h with ⟨-, rfl, -⟩ | ⟨-, h, -⟩
  · rw [sub_self, abs_zero]; norm_num
  · exact h

/-- The terms added from place j on. -/
theorem trigTerms_real {r : ℤ} (h0 : 0 ≤ r) (h1 : 5 * r ≤ 8 * fixOne) (n : Nat) : ∀ (t : ℤ) (j k : Nat) (acc : ℤ),
    TrigGood t (trigTerm (r / fixOne) j k) k →
    |((trigTerms n (fixMul r r) t k acc : ℤ) : ℝ) - (acc + ∑ i ∈ Finset.range n, trigTerm (r / fixOne) (j + i) (k + 2 * i))| ≤ 3 * n := by
  induction n with
  | zero => intro t j k acc _; simp [trigTerms]
  | succ n ih =>
    intro t j k acc h
    have hi := ih _ (j + 1) (k + 2) (acc + t) (trig_step h0 h1 h)
    have hd := h.le
    rw [Finset.sum_range_succ', show trigTerm ((r : ℝ) / fixOne) (j + 0) (k + 2 * 0) = trigTerm (r / fixOne) j k from rfl]
    have hsum : ∑ i ∈ Finset.range n, trigTerm ((r : ℝ) / fixOne) (j + (i + 1)) (k + 2 * (i + 1)) =
        ∑ i ∈ Finset.range n, trigTerm (r / fixOne) (j + 1 + i) (k + 2 + 2 * i) :=
      Finset.sum_congr rfl fun i _ => by rw [show j + (i + 1) = j + 1 + i by omega, show k + 2 * (i + 1) = k + 2 + 2 * i by omega]
    rw [hsum]
    have hstep : trigTerms (n + 1) (fixMul r r) t k acc =
        trigTerms n (fixMul r r) (-(fixMul t (fixMul r r) / ((k + 1) * (k + 2) : Nat))) (k + 2) (acc + t) := by
      simp only [trigTerms]
    rw [hstep, Nat.cast_succ n]
    rw [Int.cast_add] at hi
    rw [abs_le] at hi hd ⊢
    constructor <;> linarith [hi.1, hi.2, hd.1, hd.2]

/-- The terms of sine and cosine up to 8/5 fall as fast as 2^-8 each. -/
theorem trigTerm_abs_le {ρ : ℝ} (h0 : 0 ≤ ρ) (h1 : ρ ≤ 2) (i c : Nat) :
    |(-1) ^ i * ρ ^ (2 * i + c) / ((2 * i + c).factorial : ℝ)| ≤ Real.exp 32 * (1 / 256) ^ i := by
  rw [abs_div, abs_mul, abs_pow, abs_neg, abs_one, one_pow, one_mul, abs_of_nonneg (by positivity), abs_of_pos (by positivity)]
  have hp := Real.pow_div_factorial_le_exp 32 (by norm_num) (2 * i + c)
  have hle : ρ ^ (2 * i + c) ≤ (1 / 256) ^ i * 32 ^ (2 * i + c) := by
    have h32 : ρ ^ (2 * i + c) = (ρ / 32) ^ (2 * i + c) * 32 ^ (2 * i + c) := by rw [← mul_pow, div_mul_cancel₀ _ (by norm_num)]
    rw [h32]
    refine mul_le_mul_of_nonneg_right ?_ (by positivity)
    have hb : ρ / 32 ≤ 1 / 16 := by linarith
    calc (ρ / 32) ^ (2 * i + c) ≤ (1 / 16) ^ (2 * i + c) := pow_le_pow_left₀ (by positivity) hb _
      _ ≤ (1 / 16) ^ (2 * i) := pow_le_pow_of_le_one (by norm_num) (by norm_num) (by omega)
      _ = (1 / 256) ^ i := by rw [pow_mul]; norm_num
  calc ρ ^ (2 * i + c) / ((2 * i + c).factorial : ℝ) ≤ (1 / 256) ^ i * 32 ^ (2 * i + c) / ((2 * i + c).factorial : ℝ) :=
        div_le_div_of_nonneg_right hle (by positivity)
    _ = (1 / 256) ^ i * (32 ^ (2 * i + c) / ((2 * i + c).factorial : ℝ)) := by ring
    _ ≤ (1 / 256) ^ i * Real.exp 32 := mul_le_mul_of_nonneg_left hp (by positivity)
    _ = _ := mul_comm _ _

/-- Sixty terms are enough. -/
theorem trig_tail {g : ℕ → ℝ} {s : ℝ} (h : HasSum g s) (hg : ∀ i, |g i| ≤ Real.exp 32 * (1 / 256) ^ i) :
    |fixOne * s - fixOne * ∑ i ∈ Finset.range 60, g i| ≤ 1 := by
  have := abs_sub_sum_le (n := 60) h (by norm_num) hg (by positivity)
  have he : Real.exp 32 ≤ 3 ^ 32 := by
    have h1 : Real.exp 1 ≤ 3 := Real.exp_one_lt_d9.le.trans (by norm_num)
    calc Real.exp 32 = Real.exp 1 ^ 32 := by rw [← Real.exp_nat_mul]; norm_num
      _ ≤ 3 ^ 32 := pow_le_pow_left₀ (Real.exp_pos 1).le h1 _
  have hS : (fixOne : ℝ) * 2 * 3 ^ 32 ≤ 256 ^ 60 := by
    have : fixOne * 2 * 3 ^ 32 ≤ 256 ^ 60 := by decide +kernel
    exact_mod_cast this
  have hSp := fixOne_posR
  rw [← mul_sub, abs_mul, abs_of_pos hSp]
  rw [one_div_pow] at this
  have hP : (0 : ℝ) < 256 ^ 60 := by positivity
  generalize (256 : ℝ) ^ 60 = P at *
  generalize (fixOne : ℝ) = S at *
  calc S * |s - ∑ i ∈ Finset.range 60, g i| ≤ S * (2 * (Real.exp 32 * (1 / P))) := mul_le_mul_of_nonneg_left this hSp.le
    _ ≤ S * (2 * (3 ^ 32 * (1 / P))) := by
      refine mul_le_mul_of_nonneg_left (mul_le_mul_of_nonneg_left (mul_le_mul_of_nonneg_right he (by positivity)) (by norm_num)) hSp.le
    _ = S * 2 * 3 ^ 32 / P := by ring
    _ ≤ 1 := (div_le_one hP).2 hS

section

variable {r : ℤ} (h0 : 0 ≤ r) (h1 : 5 * r ≤ 8 * fixOne)
include h0 h1

theorem fix_ratio : (0 : ℝ) ≤ r / fixOne ∧ (r : ℝ) / fixOne ≤ 8 / 5 := by
  have hS := fixOne_posR
  refine ⟨div_nonneg (by exact_mod_cast h0) hS.le, ?_⟩
  have : (5 : ℝ) * r ≤ 8 * fixOne := by exact_mod_cast h1
  rw [div_le_iff₀ hS]; linarith

theorem fixSin_real : |(fixSin r : ℝ) - fixOne * Real.sin (r / fixOne)| ≤ 181 := by
  have hS := fixOne_posR
  obtain ⟨hρ0, hρ1⟩ := fix_ratio h0 h1
  have hfirst : trigTerm (r / fixOne) 0 1 = r := by simp [trigTerm, mul_div_cancel₀ _ hS.ne']
  have h := trigTerms_real h0 h1 60 r 0 1 0 (by
    refine .inr ⟨le_refl _, by rw [hfirst]; simp, ?_⟩
    rw [hfirst, abs_of_nonneg (by exact_mod_cast h0)]
    have := (div_le_iff₀ hS).1 hρ1
    linarith)
  have hs := trig_tail (Real.hasSum_sin ((r : ℝ) / fixOne)) fun i => trigTerm_abs_le hρ0 (by linarith) i 1
  have hsum : ∑ i ∈ Finset.range 60, trigTerm ((r : ℝ) / fixOne) (0 + i) (1 + 2 * i) =
      fixOne * ∑ i ∈ Finset.range 60, (-1) ^ i * ((r : ℝ) / fixOne) ^ (2 * i + 1) / ((2 * i + 1).factorial : ℝ) := by
    rw [Finset.mul_sum]
    exact Finset.sum_congr rfl fun i _ => by rw [trigTerm, Nat.zero_add, Nat.add_comm 1]
  rw [hsum] at h
  unfold fixSin
  push_cast at h
  rw [abs_le] at h hs ⊢
  constructor <;> linarith [h.1, h.2, hs.1, hs.2]

theorem fixCos_real : |(fixCos r : ℝ) - fixOne * Real.cos (r / fixOne)| ≤ 181 := by
  have hS := fixOne_posR
  obtain ⟨hρ0, hρ1⟩ := fix_ratio h0 h1
  have hfirst : trigTerm (r / fixOne) 0 0 = fixOne := by simp [trigTerm]
  have h := trigTerms_real h0 h1 60 fixOne 0 0 0 (.inl ⟨rfl, hfirst.symm, by rw [hfirst, abs_of_pos hS]⟩)
  have hs := trig_tail (Real.hasSum_cos ((r : ℝ) / fixOne)) fun i => trigTerm_abs_le hρ0 (by linarith) i 0
  have hsum : ∑ i ∈ Finset.range 60, trigTerm ((r : ℝ) / fixOne) (0 + i) (0 + 2 * i) =
      fixOne * ∑ i ∈ Finset.range 60, (-1) ^ i * ((r : ℝ) / fixOne) ^ (2 * i) / ((2 * i).factorial : ℝ) := by
    rw [Finset.mul_sum]
    exact Finset.sum_congr rfl fun i _ => by rw [trigTerm, Nat.zero_add, Nat.zero_add]
  rw [hsum] at h
  unfold fixCos
  push_cast at h
  rw [abs_le] at h hs ⊢
  constructor <;> linarith [h.1, h.2, hs.1, hs.2]

end

end Sys2Proof.Machine

namespace Sys2Proof.Machine

/-- The argument in units of 2^-640. -/
def wideArg (neg : Bool) (m : Nat) (e : Int) : Int := if neg then -((m * 2 ^ (e + 640).toNat : Nat) : Int) else (m * 2 ^ (e + 640).toNat : Nat)

theorem quadrant_eq (neg : Bool) (m : Nat) (e : Int) :
    quadrant neg m e = (wideArg neg m e / fixHalfPi % 4, wideArg neg m e % fixHalfPi / 2 ^ 240) := rfl

theorem fixHalfPi_pos : 0 < fixHalfPi := by decide +kernel

theorem fixWide_real : (fixWide : ℝ) = 2 ^ (640 : ℤ) := by
  rw [fixWide, Int.cast_pow, Int.cast_ofNat]
  exact (zpow_natCast (2 : ℝ) 640).symm

/-- The rest below π/2, two units off at most. -/
theorem quadrant_near {neg : Bool} {m : Nat} {e : Int} (h : Parts m e) :
    0 ≤ (quadrant neg m e).2 ∧ 5 * (quadrant neg m e).2 ≤ 8 * fixOne ∧
      |((quadrant neg m e).2 : ℝ) / fixOne - (((finiteValue (.fin neg m e) : ℚ) : ℝ) - (wideArg neg m e / fixHalfPi : ℤ) * (Real.pi / 2))| ≤
        2 / fixOne := by
  have hH := fixHalfPi_pos
  have hS := fixOne_posR
  have hr0 := Int.emod_nonneg (wideArg neg m e) hH.ne'
  have hr1 := Int.emod_lt_of_pos (wideArg neg m e) hH
  have hdm : (wideArg neg m e : ℝ) = fixHalfPi * ((wideArg neg m e / fixHalfPi : ℤ) : ℝ) + ((wideArg neg m e % fixHalfPi : ℤ) : ℝ) := by
    exact_mod_cast (Int.mul_ediv_add_emod (wideArg neg m e) fixHalfPi).symm
  have hval : (wideArg neg m e : ℝ) = ((finiteValue (.fin neg m e) : ℚ) : ℝ) * fixWide := by
    have hz : ((2 ^ (e + 640).toNat : ℕ) : ℝ) = 2 ^ e * 2 ^ (640 : ℤ) := by
      rw [Nat.cast_pow, Nat.cast_ofNat, ← zpow_natCast, Int.toNat_of_nonneg (by linarith [h.exp]), zpow_add₀ two_ne_zero]
    have hnat : (((m * 2 ^ (e + 640).toNat : ℕ) : ℤ) : ℝ) = m * 2 ^ e * 2 ^ (640 : ℤ) := by
      rw [Int.cast_natCast, Nat.cast_mul, hz, mul_assoc]
    rw [cast_finiteValue, fixWide_real]
    unfold wideArg
    cases neg
    · simp only [signOf, Bool.false_eq_true, if_false, hnat, Int.cast_one, one_mul]
    · simp only [signOf, if_true, Int.cast_neg, hnat, Int.cast_one, neg_mul, one_mul]
  have hq : |((wideArg neg m e / fixHalfPi : ℤ) : ℝ)| ≤ 2 ^ 130 := by
    have hx : |((finiteValue (.fin neg m e) : ℚ) : ℝ)| ≤ 2 ^ 128 := by
      rw [cast_finiteValue, signOf_mul_abs neg (by positivity), ← zpow_natCast]
      exact (lt_leadExp m e).le.trans (zpow_le_zpow_right₀ one_le_two (by have := h.lead; push_cast; omega))
    have hWH : fixWide ≤ fixHalfPi := by decide +kernel
    have hv : |wideArg neg m e| ≤ 2 ^ 128 * fixWide := by
      have : |(wideArg neg m e : ℝ)| ≤ 2 ^ 128 * fixWide := by
        rw [hval, abs_mul, abs_of_pos (by rw [fixWide_real]; positivity : (0 : ℝ) < fixWide)]
        exact mul_le_mul_of_nonneg_right hx (by rw [fixWide_real]; positivity)
      exact_mod_cast this
    have hb : |wideArg neg m e / fixHalfPi| ≤ 2 ^ 130 := by
      have hvH : |wideArg neg m e| ≤ 2 ^ 128 * fixHalfPi := hv.trans (mul_le_mul_of_nonneg_left hWH (by norm_num))
      rw [abs_le] at hvH ⊢
      constructor
      · rw [Int.le_ediv_iff_mul_le hH]; linarith [hvH.1]
      · exact Int.lt_add_one_iff.1 ((Int.ediv_lt_iff_lt_mul hH).2 (by linarith [hvH.2]))
    exact_mod_cast hb
  have hpi := fixHalfPi_real
  obtain ⟨d1, d2⟩ := cast_ediv_bounds (wideArg neg m e % fixHalfPi) (b := 2 ^ 240) (by positivity)
  have hWS : (fixWide : ℝ) = fixOne * 2 ^ 240 := by
    rw [fixWide_real, cast_fixOneR, ← zpow_natCast, ← zpow_add₀ two_ne_zero]; rfl
  rw [quadrant_eq]
  dsimp only
  refine ⟨Int.ediv_nonneg hr0 (by positivity), ?_, ?_⟩
  · have h5 : 5 * (fixHalfPi / 2 ^ 240) ≤ 8 * fixOne := by decide +kernel
    have := Int.ediv_le_ediv (c := 2 ^ 240) (by positivity) hr1.le
    omega
  · rw [Int.cast_pow, Int.cast_ofNat] at d1 d2
    rw [hWS] at hval hpi
    generalize ((finiteValue (.fin neg m e) : ℚ) : ℝ) = x at *
    generalize ((wideArg neg m e / fixHalfPi : ℤ) : ℝ) = n at *
    generalize ((wideArg neg m e % fixHalfPi / 2 ^ 240 : ℤ) : ℝ) = ρ at *
    generalize ((wideArg neg m e % fixHalfPi : ℤ) : ℝ) = R at *
    generalize (wideArg neg m e : ℝ) = V at *
    generalize (fixHalfPi : ℝ) = H at *
    generalize (fixOne : ℝ) = S at *
    generalize Real.pi / 2 = p at *
    have hid : R / 2 ^ 240 - S * (x - n * p) = n * (S * 2 ^ 240 * p - H) / 2 ^ 240 := by
      have hR : R = x * (S * 2 ^ 240) - H * n := by linarith
      rw [hR]
      field_simp
      ring
    have herr : |n * (S * 2 ^ 240 * p - H) / 2 ^ 240| ≤ 1 := by
      rw [abs_div, abs_mul, abs_of_pos (by positivity : (0 : ℝ) < 2 ^ 240), div_le_one (by positivity)]
      calc |n| * |S * 2 ^ 240 * p - H| ≤ 2 ^ 130 * 2 ^ 60 := mul_le_mul hq hpi (abs_nonneg _) (by positivity)
        _ ≤ 2 ^ 240 := by norm_num
    have hρ : |ρ - S * (x - n * p)| ≤ 2 := by
      rw [← hid] at herr
      rw [abs_le] at herr ⊢
      constructor <;> linarith [herr.1, herr.2]
    have hfin : ρ / S - (x - n * p) = (ρ - S * (x - n * p)) / S := by field_simp
    rw [hfin, abs_div, abs_of_pos hS]
    exact div_le_div_of_nonneg_right hρ hS.le

/-- Sine and cosine move no faster than their argument. -/
theorem sin_near_of_arg {Y : ℤ} {a b : ℝ} (h : |(Y : ℝ) - fixOne * Real.sin a| ≤ 181) (hab : |a - b| ≤ 2 / fixOne) :
    |(Y : ℝ) - fixOne * Real.sin b| ≤ 183 := by
  have hS := fixOne_posR
  have hl : |Real.sin a - Real.sin b| ≤ 2 / fixOne := (Real.abs_sin_sub_sin_le a b).trans hab
  rw [le_div_iff₀ hS] at hl
  have hl : |fixOne * Real.sin a - fixOne * Real.sin b| ≤ 2 := by
    rw [← mul_sub, abs_mul, abs_of_pos hS, mul_comm]
    exact hl
  rw [abs_le] at h hl ⊢
  constructor <;> linarith [h.1, h.2, hl.1, hl.2]

theorem cos_near_of_arg {Y : ℤ} {a b : ℝ} (h : |(Y : ℝ) - fixOne * Real.cos a| ≤ 181) (hab : |a - b| ≤ 2 / fixOne) :
    |(Y : ℝ) - fixOne * Real.cos b| ≤ 183 := by
  have hs : ∀ x : ℝ, Real.cos x = Real.sin (x + Real.pi / 2) := fun x => (Real.sin_add_pi_div_two x).symm
  rw [hs] at h ⊢
  exact sin_near_of_arg h (by rwa [add_sub_add_right_eq_sub])

theorem near_neg {Y : ℤ} {v : ℝ} (h : |(Y : ℝ) - fixOne * v| ≤ 183) : |((-Y : ℤ) : ℝ) - fixOne * -v| ≤ 183 := by
  have : ((-Y : ℤ) : ℝ) - fixOne * -v = -((Y : ℝ) - fixOne * v) := by push_cast; ring
  rw [this, abs_neg]
  exact h

/-- By quadrant, from a rest whose sine and cosine are known. -/
theorem trig_quadrant {n : ℤ} {ρ x : ℝ} (hx : x = ρ + n * (Real.pi / 2)) :
    (n % 4 = 0 → Real.sin x = Real.sin ρ ∧ Real.cos x = Real.cos ρ) ∧ (n % 4 = 1 → Real.sin x = Real.cos ρ ∧ Real.cos x = -Real.sin ρ) ∧
      (n % 4 = 2 → Real.sin x = -Real.sin ρ ∧ Real.cos x = -Real.cos ρ) ∧ (n % 4 = 3 → Real.sin x = -Real.cos ρ ∧ Real.cos x = Real.sin ρ) := by
  have hn : (n : ℝ) = 4 * ((n / 4 : ℤ) : ℝ) + ((n % 4 : ℤ) : ℝ) := by exact_mod_cast (Int.mul_ediv_add_emod n 4).symm
  have hx' : x = ρ + ((n % 4 : ℤ) : ℝ) * (Real.pi / 2) + (n / 4 : ℤ) * (2 * Real.pi) := by rw [hx, hn]; ring
  rw [hx', Real.sin_add_int_mul_two_pi, Real.cos_add_int_mul_two_pi]
  refine ⟨fun h => ?_, fun h => ?_, fun h => ?_, fun h => ?_⟩
  · rw [h]; simp
  · rw [h, Int.cast_one, one_mul, Real.sin_add_pi_div_two, Real.cos_add_pi_div_two]; exact ⟨rfl, rfl⟩
  · have : ρ + ((2 : ℤ) : ℝ) * (Real.pi / 2) = ρ + Real.pi := by push_cast; ring
    rw [h, this, Real.sin_add_pi, Real.cos_add_pi]; exact ⟨rfl, rfl⟩
  · have : ρ + ((3 : ℤ) : ℝ) * (Real.pi / 2) = ρ + Real.pi / 2 + Real.pi := by push_cast; ring
    rw [h, this, Real.sin_add_pi, Real.cos_add_pi, Real.sin_add_pi_div_two, Real.cos_add_pi_div_two, neg_neg]; exact ⟨rfl, rfl⟩

section

variable {neg : Bool} {m : Nat} {e : Int} (h : Parts m e)
include h

/-- The four values of a quadrant's rest. -/
theorem trigValues_near :
    let r := (quadrant neg m e).2
    let x := ((finiteValue (.fin neg m e) : ℚ) : ℝ)
    let q := (quadrant neg m e).1
    |((if q = 0 then fixSin r else if q = 1 then fixCos r else if q = 2 then -fixSin r else -fixCos r : ℤ) : ℝ) - fixOne * Real.sin x| ≤ 183 ∧
      |((if q = 0 then fixCos r else if q = 1 then -fixSin r else if q = 2 then -fixCos r else fixSin r : ℤ) : ℝ) - fixOne * Real.cos x| ≤ 183 := by
  intro r x q
  obtain ⟨h0, h1, hab⟩ := quadrant_near (neg := neg) h
  have hs := sin_near_of_arg (fixSin_real h0 h1) hab
  have hc := cos_near_of_arg (fixCos_real h0 h1) hab
  have hq : q = wideArg neg m e / fixHalfPi % 4 := rfl
  obtain ⟨g0, g1, g2, g3⟩ := trig_quadrant (n := wideArg neg m e / fixHalfPi) (x := x)
    (ρ := x - (wideArg neg m e / fixHalfPi : ℤ) * (Real.pi / 2)) (by ring)
  rw [hq]
  have hcases : wideArg neg m e / fixHalfPi % 4 = 0 ∨ wideArg neg m e / fixHalfPi % 4 = 1 ∨ wideArg neg m e / fixHalfPi % 4 = 2 ∨
    wideArg neg m e / fixHalfPi % 4 = 3 := by omega
  rcases hcases with hk | hk | hk | hk <;> rw [hk]
  · obtain ⟨e1, e2⟩ := g0 hk
    rw [e1, e2]; exact ⟨hs, hc⟩
  · obtain ⟨e1, e2⟩ := g1 hk
    rw [e1, e2]; exact ⟨hc, near_neg hs⟩
  · obtain ⟨e1, e2⟩ := g2 hk
    rw [e1, e2]; exact ⟨near_neg hs, near_neg hc⟩
  · obtain ⟨e1, e2⟩ := g3 hk
    rw [e1, e2]; exact ⟨near_neg hc, hs⟩

theorem trueValue_sin_near : (trueValue .sin neg m e).NearReal (Real.sin ((finiteValue (.fin neg m e) : ℚ) : ℝ)) 4500 := by
  by_cases hl : leadExp m e ≤ -60
  · exact trueValue_sin_tiny h hl
  · have ht : trueValue .sin neg m e = fixVal (if (quadrant neg m e).1 = 0 then fixSin (quadrant neg m e).2 else if (quadrant neg m e).1 = 1 then
        fixCos (quadrant neg m e).2 else if (quadrant neg m e).1 = 2 then -fixSin (quadrant neg m e).2 else -fixCos (quadrant neg m e).2) 0 := by
      simp only [trueValue, hl, false_and, if_false]
    rw [ht]
    exact nearReal_fixVal (by rw [zpow_zero, div_one]; exact (trigValues_near h).1.trans (by norm_num))

theorem trueValue_cos_near : (trueValue .cos neg m e).NearReal (Real.cos ((finiteValue (.fin neg m e) : ℚ) : ℝ)) 4500 := by
  have ht : trueValue .cos neg m e = fixVal (if (quadrant neg m e).1 = 0 then fixCos (quadrant neg m e).2 else if (quadrant neg m e).1 = 1 then
      -fixSin (quadrant neg m e).2 else if (quadrant neg m e).1 = 2 then -fixCos (quadrant neg m e).2 else fixSin (quadrant neg m e).2) 0 := by
    simp only [trueValue, reduceCtorEq, and_false, if_false]
  rw [ht]
  exact nearReal_fixVal (by rw [zpow_zero, div_one]; exact (trigValues_near h).2.trans (by norm_num))

end

/-! ## tanh and sigmoid, with their signs -/

theorem exp_neg_512 : (fixOne : ℝ) * (2 * Real.exp (-512)) ≤ 1 := by
  have h2 : (2 : ℝ) ^ 512 ≤ Real.exp 512 := by
    have h1 : (2 : ℝ) ≤ Real.exp 1 := by linarith [Real.add_one_le_exp (1 : ℝ)]
    calc (2 : ℝ) ^ 512 ≤ Real.exp 1 ^ 512 := pow_le_pow_left₀ (by norm_num) h1 _
      _ = Real.exp 512 := by rw [← Real.exp_nat_mul, mul_one, Nat.cast_ofNat]
  have hS : (fixOne : ℝ) * 2 ≤ 2 ^ 512 := by
    have : fixOne * 2 ≤ 2 ^ 512 := by decide +kernel
    exact_mod_cast this
  rw [Real.exp_neg, ← mul_assoc, mul_inv_le_iff₀ (Real.exp_pos _), one_mul]
  exact hS.trans h2

theorem tanh_mono {a b : ℝ} (h : a ≤ b) : Real.tanh a ≤ Real.tanh b := by
  have he : Real.exp (-2 * b) ≤ Real.exp (-2 * a) := Real.exp_le_exp.2 (by linarith)
  rw [tanh_eq_exp, tanh_eq_exp, div_le_div_iff₀ (by positivity) (by positivity)]
  nlinarith [Real.exp_pos (-2 * a), Real.exp_pos (-2 * b)]

/-- Beyond 2^8 the tangent is 1 but for less than a unit. -/
theorem tanh_sizeArg (m : Nat) (e : Int) : |fixOne * Real.tanh (sizeArg m e) - fixOne * Real.tanh (m * 2 ^ e)| ≤ 1 := by
  have hS := fixOne_posR
  rw [← mul_sub, abs_mul, abs_of_pos hS]
  rcases le_or_gt ((m : ℝ) * 2 ^ e) 256 with h | h
  · rw [sizeArg, min_eq_right h, sub_self, abs_zero, mul_zero]; exact zero_le_one
  · rw [sizeArg, min_eq_left h.le]
    have h1 := tanh_mono h.le
    have h2 := Real.tanh_lt_one ((m : ℝ) * 2 ^ e)
    have h3 : 1 - 2 * Real.exp (-512) ≤ Real.tanh 256 := by
      rw [tanh_eq_exp, show (-2 * 256 : ℝ) = -512 by norm_num, le_div_iff₀ (by positivity)]
      nlinarith [Real.exp_pos (-512 : ℝ)]
    have hb : |Real.tanh 256 - Real.tanh (m * 2 ^ e)| ≤ 2 * Real.exp (-512) := by
      rw [abs_le]; constructor <;> linarith [Real.exp_pos (-512 : ℝ)]
    exact (mul_le_mul_of_nonneg_left hb hS.le).trans exp_neg_512

section

variable {neg : Bool} {m : Nat} {e : Int} (h : Parts m e)
include h

theorem trueValue_tanh_near : (trueValue .tanh neg m e).NearReal (Real.tanh ((finiteValue (.fin neg m e) : ℚ) : ℝ)) 4500 := by
  by_cases hl : leadExp m e ≤ -60
  · exact trueValue_tanh_tiny h hl
  · rw [trueValue_tanh hl]
    refine nearReal_fixVal ?_
    rw [zpow_zero, div_one, cast_finiteValue]
    have h1 := tanhMag_near h
    have h2 := tanh_sizeArg m e
    rw [abs_le] at h1 h2
    cases neg
    · simp only [signOf, Bool.false_eq_true, if_false, Int.cast_one, one_mul]
      rw [abs_le]
      constructor <;> linarith [h1.1, h1.2, h2.1, h2.2]
    · simp only [signOf, if_true, Int.cast_neg, Int.cast_one, neg_one_mul, Real.tanh_neg]
      rw [abs_le]
      constructor <;> linarith [h1.1, h1.2, h2.1, h2.2]

theorem trueValue_sigm_near :
    (trueValue .sigm neg m e).NearReal (1 / (1 + Real.exp (-cutArg ((finiteValue (.fin neg m e) : ℚ) : ℝ)))) 4500 := by
  have hpos : (0 : ℝ) ≤ m * 2 ^ e := by positivity
  rw [trueValue_sigm, cast_finiteValue]
  cases neg
  · have hcut : cutArg (signOf false * (m * 2 ^ e)) = sizeArg m e := by
      simp only [signOf, Bool.false_eq_true, if_false, Int.cast_one, one_mul, cutArg]
      exact max_eq_right (le_min (by norm_num) (by linarith : (-256 : ℝ) ≤ m * 2 ^ e))
    rw [hcut]
    refine nearReal_fixVal ?_
    rw [zpow_zero, div_one]
    exact (sigmMag_near h).2.trans (by norm_num)
  · have hcut : -cutArg (signOf true * (m * 2 ^ e)) = sizeArg m e := by
      simp only [signOf, if_true, Int.cast_neg, Int.cast_one, neg_one_mul, cutArg, sizeArg]
      rw [min_eq_right (by linarith), max_neg_neg, neg_neg]
    rw [hcut]
    exact nearReal_fixVal (sigmNeg_near h)

end

end Sys2Proof.Machine

namespace Sys2Proof.Machine

/-! # Places of FP32 and their values -/

/-- The value at a place in the order of FP32. -/
def placeValue (c : Int) : ℚ := if c < 0 then -fp32.magValue c.natAbs else fp32.magValue c.natAbs

theorem placeValue_natCast (k : Nat) : placeValue k = fp32.magValue k := by simp [placeValue]

theorem placeValue_neg (c : Int) : placeValue (-c) = -placeValue c := by
  unfold placeValue
  rcases lt_trichotomy c 0 with h | rfl | h
  · rw [if_neg (by omega), if_pos h, Int.natAbs_neg, neg_neg]
  · simp [magValue_zero]
  · rw [if_pos (by omega), if_neg (by omega), Int.natAbs_neg]

theorem placeValue_strictMono : StrictMono placeValue := by
  intro a b h
  have hmono := magValue_strictMono fp32
  unfold placeValue
  split
  · next ha =>
    split
    · next hb => exact neg_lt_neg (hmono (by omega))
    · have h1 : 0 < fp32.magValue a.natAbs := magValue_zero fp32 ▸ hmono (by omega : 0 < a.natAbs)
      have h2 := magValue_nonneg fp32 b.natAbs
      linarith
  · rw [if_neg (by omega)]
    exact hmono (by omega)

theorem placeValue_mono : Monotone placeValue := placeValue_strictMono.monotone

/-- The sign of the code at a place. -/
def placeSign (n : Bool) (c : Int) : Bool := if c = 0 then n else decide (c < 0)

theorem placeSign_of_ne {n : Bool} {c : Int} (h : c ≠ 0) : placeSign n c = decide (c < 0) := if_neg h

theorem fpAtPlace_eq (n : Bool) (c : Int) : fpAtPlace n c = fp32.signed (placeSign n c) c.natAbs := rfl

/-- A magnitude with a sign, as a place. -/
theorem finiteValue_of_mag {n : Bool} {m : Nat} {e : Int} {c : Int} (hv : (m : ℚ) * 2 ^ e = fp32.magValue c.natAbs) (hn : n = placeSign n c) :
    finiteValue (.fin n m e) = placeValue c := by
  unfold placeSign at hn
  unfold placeValue
  rcases lt_trichotomy c 0 with h | rfl | h
  · rw [if_neg (by omega), decide_eq_true h] at hn
    rw [if_pos h, ← hv, hn]; simp [finiteValue]
  · have h0 : (m : ℚ) * 2 ^ e = 0 := by rw [hv]; exact magValue_zero fp32
    have hm : m = 0 := by
      rcases mul_eq_zero.1 h0 with h | h
      · exact_mod_cast h
      · exact absurd h (by positivity)
    subst hm
    simp [finiteValue, magValue_zero]
  · rw [if_neg (by omega), decide_eq_false (by omega)] at hn
    rw [if_neg (by omega), ← hv, hn]; simp [finiteValue]

/-- The number at a place. -/
theorem decode_fpAtPlace (n : Bool) {c : Int} (hc : c.natAbs ≤ fp32.maxCode) :
    ∃ m e, decodeFp fp32 (fpAtPlace n c) = .fin (placeSign n c) m e ∧ finiteValue (.fin (placeSign n c) m e) = placeValue c := by
  obtain ⟨m, e, hd, hv⟩ := decodeFp_finite regular_fp32 (placeSign n c) hc
  refine ⟨m, e, hd, finiteValue_of_mag hv ?_⟩
  unfold placeSign
  split <;> rfl

/-- A number at a place has its value. -/
theorem place_of_number {s : Bool} {c : Int} (hc : c.natAbs < 2 ^ 31) {n : Bool} {m : Nat} {e : Int} (hd : decodeFp fp32 (fpAtPlace s c) = .fin n m e) :
    n = placeSign s c ∧ c.natAbs ≤ fp32.maxCode ∧ finiteValue (.fin n m e) = placeValue c := by
  obtain ⟨hn, hmax, hv⟩ := fpAtPlace_number hc hd
  refine ⟨hn, hmax, finiteValue_of_mag hv ?_⟩
  rw [hn]
  show _ = placeSign (placeSign s c) c
  unfold placeSign
  split <;> rfl

/-- The place of a code with a sign and a magnitude. -/
def signedPlace (n : Bool) (k : Nat) : Int := if n then -(k : Int) else k

theorem fpAtPlace_signedPlace (n : Bool) (k : Nat) : fpAtPlace n (signedPlace n k) = fp32.signed n k := by
  rw [fpAtPlace_eq]
  have h1 : placeSign n (signedPlace n k) = n := by
    unfold placeSign signedPlace
    cases n
    · simp
    · rcases Nat.eq_zero_or_pos k with rfl | h
      · simp
      · simp; omega
  have h2 : (signedPlace n k).natAbs = k := by unfold signedPlace; split <;> simp
  rw [h1, h2]

theorem fpPlace_fpAtPlace (n : Bool) {c : Int} (hc : c.natAbs < 2 ^ 31) : fpPlace (fpAtPlace n c) = c := by
  rw [fpAtPlace_eq, fpPlace_signed _ hc]
  rcases lt_trichotomy c 0 with h | rfl | h
  · rw [placeSign_of_ne h.ne, decide_eq_true h, if_pos rfl]; omega
  · simp
  · rw [placeSign_of_ne h.ne', decide_eq_false (by omega)]; simp; omega

/-- A finite code is the code at its place. -/
theorem code_place {code : Nat} {neg : Bool} {m : Nat} {e : Int} (hcode : code < 2 ^ 32) (hd : decodeFp fp32 code = .fin neg m e) :
    code = fpAtPlace neg (fpPlace code) ∧ (fpPlace code).natAbs ≤ fp32.maxCode ∧ finiteValue (.fin neg m e) = placeValue (fpPlace code) ∧
      (m ≠ 0 → (neg = true ↔ fpPlace code < 0) ∧ fpPlace code ≠ 0) := by
  obtain ⟨mag, hmax, -, hv, -, -, -, hc⟩ := finite_code regular_fp32 hd
  have hk : fp32.maxCode < 2 ^ 31 := by decide
  have hs := hc hcode
  have hp : fpPlace code = signedPlace neg mag := by
    rw [hs, fpPlace_signed neg (by omega)]; rfl
  have habs : (signedPlace neg mag).natAbs = mag := by unfold signedPlace; split <;> simp
  rw [hp, fpAtPlace_signedPlace, habs]
  refine ⟨hs, hmax, ?_, fun hm => ?_⟩
  · refine finiteValue_of_mag (by rw [habs]; exact hv) ?_
    unfold placeSign signedPlace
    cases neg
    · simp
    · rcases Nat.eq_zero_or_pos mag with rfl | h
      · simp
      · simp; omega
  · have hmag : 0 < mag := by
      rcases Nat.eq_zero_or_pos mag with rfl | h
      · rw [magValue_zero] at hv
        rcases mul_eq_zero.1 hv with h | h
        · exact absurd (by exact_mod_cast h) hm
        · exact absurd h (by positivity)
      · exact h
    unfold signedPlace
    cases neg <;> simp <;> omega

/-! ## Rounding to the places around a number -/

section

variable {m : Nat} {e : Int} (hlt : (m : ℝ) * 2 ^ e < 2 ^ (128 : ℤ))
include hlt

theorem roundMag_le_infCode (rm : Rounding) (n : Bool) (hm : m ≠ 0) : fp32.roundMag rm n m e ≤ fp32.infCode :=
  roundMag_le regular_fp32 rm n e hm (by rw [magValue_infCode, Rat.cast_zpow, Rat.cast_ofNat]; exact hlt.le)

/-- Rounding down in magnitude. -/
theorem floorMag (hm : m ≠ 0) {rm : Rounding} {n : Bool} (hrm : magnitudeMode n rm = .rd) : ∃ k ≤ fp32.maxCode,
    (roundFp fp32 rm (.fin n m e) false).1 = fp32.signed n k ∧ ((fp32.magValue k : ℚ) : ℝ) ≤ m * 2 ^ e ∧ (m : ℝ) * 2 ^ e < (fp32.magValue (k + 1) : ℚ) := by
  have hr := roundsToInt_quantise rm n m e (fp32.quantum m e)
  rw [hrm] at hr
  have hv := magValue_magCode (f := fp32) rm n e hm regular_fp32.kind
  have hle : ((fp32.magValue (fp32.roundMag rm n m e) : ℚ) : ℝ) ≤ m * 2 ^ e := by
    rw [FpFmt.roundMag, hv]
    have h1 : (((quantise rm n m e (fp32.quantum m e)).1 : ℤ) : ℝ) ≤ m * 2 ^ e / 2 ^ fp32.quantum m e := hr.1
    rw [le_div_iff₀ (by positivity)] at h1
    push_cast at h1 ⊢
    exact h1
  have hmax : fp32.roundMag rm n m e ≤ fp32.maxCode := by
    by_contra hgt
    have hinf : fp32.infCode ≤ fp32.roundMag rm n m e := by
      have : fp32.infCode = fp32.maxCode + 1 := by decide
      omega
    have := (magValue_strictMono fp32).monotone hinf
    rw [magValue_infCode] at this
    have := (Rat.cast_le (K := ℝ)).2 this
    rw [Rat.cast_zpow, Rat.cast_ofNat] at this
    linarith
  refine ⟨_, hmax, roundFp_roundMag rm n e hm hmax, hle, ?_⟩
  by_contra hge
  have := le_roundMag regular_fp32 rm n e hm (not_lt.1 hge)
  omega

/-- Rounding up in magnitude. -/
theorem ceilMag (hm : m ≠ 0) {rm : Rounding} {n : Bool} (hrm : magnitudeMode n rm = .ru) : ∃ k,
    ((roundFp fp32 rm (.fin n m e) false).1 = fp32.signed n k) ∧ 1 ≤ k ∧ (m : ℝ) * 2 ^ e ≤ (fp32.magValue k : ℚ) ∧
      ((fp32.magValue (k - 1) : ℚ) : ℝ) < m * 2 ^ e := by
  have hr := roundsToInt_quantise rm n m e (fp32.quantum m e)
  rw [hrm] at hr
  have hv := magValue_magCode (f := fp32) rm n e hm regular_fp32.kind
  have hle : (m : ℝ) * 2 ^ e ≤ (fp32.magValue (fp32.roundMag rm n m e) : ℚ) := by
    rw [FpFmt.roundMag, hv]
    have h1 : (m : ℝ) * 2 ^ e / 2 ^ fp32.quantum m e ≤ (((quantise rm n m e (fp32.quantum m e)).1 : ℤ) : ℝ) := hr.1
    rw [div_le_iff₀ (by positivity)] at h1
    push_cast at h1 ⊢
    exact h1
  have hpos : (0 : ℝ) < m * 2 ^ e := by
    have := Nat.pos_of_ne_zero hm
    positivity
  have h1 : 1 ≤ fp32.roundMag rm n m e := by
    by_contra h0
    rw [show fp32.roundMag rm n m e = 0 by omega, magValue_zero] at hle
    simp only [Rat.cast_zero] at hle
    linarith
  refine ⟨fp32.roundMag rm n m e, ?_, h1, hle, ?_⟩
  · have hinf := roundMag_le_infCode hlt rm n hm
    rcases Nat.lt_or_ge fp32.maxCode (fp32.roundMag rm n m e) with hgt | hle'
    · have heq : fp32.roundMag rm n m e = fp32.infCode := by
        have : fp32.infCode = fp32.maxCode + 1 := by decide
        omega
      rw [heq]
      have hmode : (decide (rm = .rn) || (decide (rm = .ru) && !n || decide (rm = .rd) && n)) = true := by
        cases rm <;> cases n <;> simp_all [magnitudeMode]
      unfold FpFmt.roundMag at hgt
      simp only [roundFp, hm, if_false]
      rw [if_pos hgt]
      have hinfc : (fp32.hasInf && !false && (decide (rm = .rn) || decide (rm = .ru) && !n || decide (rm = .rd) && n)) = true := by
        rw [Bool.or_assoc, hmode]; rfl
      simp only [hinfc, if_true]
    · exact roundFp_roundMag rm n e hm hle'
  · by_contra hge
    have := roundMag_le regular_fp32 rm n e hm (not_lt.1 hge)
    omega

/-- A code is a rounding down or up of a number exactly where the number lies between its neighbours. -/
theorem brackets_iff (n : Bool) (k : Nat) :
    (fp32.signed n k = (roundFp fp32 .rd (.fin n m e) false).1 ∨ fp32.signed n k = (roundFp fp32 .ru (.fin n m e) false).1) ↔
      (k = 0 ∨ ((fp32.magValue (k - 1) : ℚ) : ℝ) < m * 2 ^ e) ∧ (m : ℝ) * 2 ^ e < (fp32.magValue (k + 1) : ℚ) := by
  have hinj : ∀ a b, fp32.signed n a = fp32.signed n b ↔ a = b := fun a b => by rw [signed_fp32, signed_fp32]; omega
  have hmono := magValue_strictMono fp32
  have lt_iff : ∀ a b, ((fp32.magValue a : ℚ) : ℝ) < (fp32.magValue b : ℚ) ↔ a < b := fun a b => by rw [Rat.cast_lt, hmono.lt_iff_lt]
  by_cases hm : m = 0
  · subst hm
    have h1 : (0 : ℝ) < (fp32.magValue (k + 1) : ℚ) := by
      have := (lt_iff 0 (k + 1)).2 (by omega)
      rwa [magValue_zero, Rat.cast_zero] at this
    have h0 : (0 : ℝ) ≤ (fp32.magValue (k - 1) : ℚ) := by exact_mod_cast magValue_nonneg fp32 _
    have hr : ∀ rm, (roundFp fp32 rm (.fin n 0 e) false).1 = fp32.signed n 0 := fun rm => by simp [roundFp]
    rw [hr, hr, or_self, hinj]
    simp only [Nat.cast_zero, zero_mul, h1, and_true, not_lt.2 h0, or_false]
  · have key : ∀ down up, magnitudeMode n down = .rd → magnitudeMode n up = .ru →
        (fp32.signed n k = (roundFp fp32 down (.fin n m e) false).1 ∨ fp32.signed n k = (roundFp fp32 up (.fin n m e) false).1 ↔
          (k = 0 ∨ ((fp32.magValue (k - 1) : ℚ) : ℝ) < m * 2 ^ e) ∧ (m : ℝ) * 2 ^ e < (fp32.magValue (k + 1) : ℚ)) := by
      intro down up hrd hru
      obtain ⟨a, -, ha, ha1, ha2⟩ := floorMag hlt hm hrd
      obtain ⟨b, hb, hb0, hb1, hb2⟩ := ceilMag hlt hm hru
      rw [ha, hb, hinj, hinj]
      constructor
      · rintro (rfl | rfl)
        · refine ⟨?_, ha2⟩
          rcases Nat.eq_zero_or_pos k with h | h
          · exact .inl h
          · exact .inr (((lt_iff _ _).2 (by omega : k - 1 < k)).trans_le ha1)
        · exact ⟨.inr hb2, hb1.trans_lt ((lt_iff _ _).2 (Nat.lt_succ_self _))⟩
      · rintro ⟨h1, h2⟩
        have h3 := (lt_iff _ _).1 (ha1.trans_lt h2)
        have h4 := (lt_iff _ _).1 (hb2.trans h2)
        have h5 : k ≤ a ∨ b ≤ k := by
          rcases le_or_gt ((fp32.magValue k : ℚ) : ℝ) (m * 2 ^ e) with h | h
          · have := (lt_iff _ _).1 (h.trans_lt ha2); omega
          · have := (lt_iff _ _).1 (hb2.trans h); omega
        have h6 : k = 0 ∨ k - 1 < b := h1.imp id fun h => (lt_iff _ _).1 (h.trans_le hb1)
        have h7 : k = 0 ∨ k - 1 < a + 1 := h1.imp id fun h => (lt_iff _ _).1 (h.trans ha2)
        have h8 : a < b + 1 := by
          have := (lt_iff a (b + 1)).1 ((ha1.trans hb1).trans_lt ((lt_iff _ _).2 (Nat.lt_succ_self _)))
          exact this
        have h9 : b - 1 < a + 1 := (lt_iff _ _).1 (hb2.trans ha2)
        omega
    cases n
    · exact key .rd .ru rfl rfl
    · rw [or_comm]; exact key .ru .rd rfl rfl

end

end Sys2Proof.Machine

namespace Sys2Proof.Machine

/-! # The rounded true value (R63) -/

/-- A computed number whose tolerance lies far below its last FP32 place. -/
def Fine (m : Nat) (e : Int) : Prop := e + 60 ≤ max (leadExp m e) (-126)

/-- A finite number near a real, and fine. -/
def FVal.Computed (y : FVal) (v : ℝ) : Prop :=
  ∃ n m e, y = .fin n m e ∧ |((finiteValue y : ℚ) : ℝ) - v| ≤ 4500 * 2 ^ e ∧ Fine m e

theorem fp32_quantum (m : Nat) (e : Int) : fp32.quantum m e = max (leadExp m e) (-126) - 23 := by
  have hq : fp32.quantum m e = max (leadExp m e - 23) (-149) := if_neg (by decide)
  rw [hq]; omega

section

variable {m : Nat} {e : Int}

variable (hm : m ≠ 0)
include hm

/-- The nearest magnitude is within half a quantum. -/
theorem nearMag (n : Bool) : |((fp32.magValue (fp32.roundMag .rn n m e) : ℚ) : ℝ) - m * 2 ^ e| ≤ 2 ^ (fp32.quantum m e - 1) := by
  have hr := roundsToInt_quantise .rn n m e (fp32.quantum m e)
  have hmode : magnitudeMode n .rn = .rn := by cases n <;> rfl
  rw [hmode] at hr
  have hhalf : |(m : ℝ) * 2 ^ e / 2 ^ fp32.quantum m e - (((quantise .rn n m e (fp32.quantum m e)).1 : ℤ) : ℝ)| ≤ 1 / 2 := hr.1
  rw [FpFmt.roundMag, magValue_magCode .rn n e hm regular_fp32.kind]
  push_cast at hhalf ⊢
  generalize ((quantise .rn n m e (fp32.quantum m e)).1 : ℝ) = Q at *
  have hu : (0 : ℝ) < 2 ^ fp32.quantum m e := by positivity
  rw [zpow_sub_one₀ two_ne_zero]
  generalize (2 : ℝ) ^ fp32.quantum m e = u at *
  have hx : (m : ℝ) * 2 ^ e = m * 2 ^ e / u * u := by rw [div_mul_cancel₀ _ hu.ne']
  rw [hx, ← sub_mul, abs_mul, abs_of_pos hu, abs_sub_comm]
  have := mul_le_mul_of_nonneg_right hhalf hu.le
  linarith

/-- The places beside the nearest magnitude: a quantum above, and below at least half of one, a whole one where it lies above the number. -/
theorem nearMag_gaps (n : Bool) :
    ((fp32.magValue (fp32.roundMag .rn n m e) : ℚ) : ℝ) + 2 ^ fp32.quantum m e ≤ (fp32.magValue (fp32.roundMag .rn n m e + 1) : ℚ) ∧
      (1 ≤ fp32.roundMag .rn n m e →
        ((fp32.magValue (fp32.roundMag .rn n m e - 1) : ℚ) : ℝ) ≤ (fp32.magValue (fp32.roundMag .rn n m e) : ℚ) - 2 ^ (fp32.quantum m e - 1) ∧
        ((m : ℝ) * 2 ^ e < (fp32.magValue (fp32.roundMag .rn n m e) : ℚ) →
          ((fp32.magValue (fp32.roundMag .rn n m e - 1) : ℚ) : ℝ) ≤ (fp32.magValue (fp32.roundMag .rn n m e) : ℚ) - 2 ^ fp32.quantum m e)) := by
  obtain ⟨hle, hge⟩ := quantise_bounds (f := fp32) .rn n e hm regular_fp32.kind
  have hq0 : -149 ≤ fp32.quantum m e := by rw [fp32_quantum]; omega
  have hv := magValue_magCode (f := fp32) .rn n e hm regular_fp32.kind
  have hcode : fp32.roundMag .rn n m e = (fp32.quantum m e + 149).toNat * 2 ^ fp32.frac + (quantise .rn n m e (fp32.quantum m e)).1 := by
    have hqmin : fp32.qmin = -149 := by decide
    rw [FpFmt.roundMag, FpFmt.magCode, if_neg regular_fp32.kind, hqmin, sub_neg_eq_add]
  have hmag : fp32.magValue (fp32.roundMag .rn n m e) = _ := hv
  have hlead : fp32.quantum m e = -149 ∨ fp32.quantum m e = leadExp m e - 23 := by rw [fp32_quantum]; omega
  have hle2 := leadExp_le hm e
  rw [hmag, hcode]
  change fp32.quantum m e = -149 ∨ _ at hge
  generalize (quantise .rn n m e (fp32.quantum m e)).1 = Q at *
  generalize hd : (fp32.quantum m e + 149).toNat = d at *
  have hqd : fp32.quantum m e = fp32.qmin + d := by
    have : fp32.qmin = -149 := by decide
    omega
  rw [hqd] at hge hlead ⊢
  have hd0 : d = 0 ∨ 2 ^ fp32.frac ≤ Q := hge.imp_left fun h => by
    have : fp32.qmin = -149 := by decide
    omega
  have hfrac : fp32.frac = 23 := by decide
  constructor
  · rcases Nat.lt_or_ge Q (2 ^ (fp32.frac + 1)) with hQ | hQ
    · rw [add_assoc, magValue_mid fp32 hQ (hd0.imp_right fun h => by omega)]
      push_cast
      linarith
    · have hQe : Q = 2 ^ (fp32.frac + 1) := le_antisymm hle hQ
      have hnext : d * 2 ^ fp32.frac + Q + 1 = (d + 1) * 2 ^ fp32.frac + (2 ^ fp32.frac + 1) := by rw [hQe, pow_succ]; ring
      rw [hnext, magValue_mid fp32 (by rw [hfrac]; decide) (.inr (by omega)), hQe, hfrac]
      push_cast
      rw [← add_assoc (fp32.qmin : ℤ), zpow_add_one₀ two_ne_zero]
      have : (0 : ℝ) < 2 ^ (fp32.qmin + (d : ℤ)) := by positivity
      linarith
  · intro h1
    have hhalf : (2 : ℝ) ^ (fp32.qmin + (d : ℤ) - 1) ≤ 2 ^ (fp32.qmin + (d : ℤ)) := zpow_le_zpow_right₀ one_le_two (by omega)
    rcases Nat.lt_or_ge (2 ^ fp32.frac) Q with hQ | hQ
    · -- The magnitude below is a whole quantum away.
      have hprev : d * 2 ^ fp32.frac + Q - 1 = d * 2 ^ fp32.frac + (Q - 1) := by omega
      rw [hprev, magValue_mid fp32 (by omega) (.inr (by omega))]
      have hc : ((Q - 1 : ℕ) : ℚ) = Q - 1 := by rw [Nat.cast_sub (by omega), Nat.cast_one]
      rw [hc]
      push_cast
      constructor
      · linarith
      · intro _; linarith
    · rcases Nat.eq_zero_or_pos d with h0 | h0
      · subst h0
        have hprev : 0 * 2 ^ fp32.frac + Q - 1 = 0 * 2 ^ fp32.frac + (Q - 1) := by omega
        rw [hprev, magValue_mid fp32 (by omega) (.inl rfl)]
        have hc : ((Q - 1 : ℕ) : ℚ) = Q - 1 := by rw [Nat.cast_sub (by omega), Nat.cast_one]
        rw [hc]
        push_cast at hhalf ⊢
        constructor
        · linarith
        · intro _; linarith
      · -- The number's own power of two: the magnitude below is half a quantum away, and the number is not below.
        have hQe : Q = 2 ^ fp32.frac := le_antisymm hQ (hd0.resolve_left (by omega))
        have hprev : d * 2 ^ fp32.frac + Q - 1 = (d - 1) * 2 ^ fp32.frac + (2 ^ (fp32.frac + 1) - 1) := by
          obtain ⟨k, rfl⟩ : ∃ k, d = k + 1 := ⟨d - 1, by omega⟩
          rw [hQe, pow_succ, hfrac, Nat.add_sub_cancel]; omega
        rw [hprev, magValue_mid fp32 (by omega) (.inr (by rw [hfrac]; decide)), hQe, hfrac]
        have hexp : (fp32.qmin + ((d - 1 : ℕ) : ℤ) : ℤ) = fp32.qmin + d - 1 := by omega
        rw [hexp]
        have hval : ((((2 ^ 23 : ℕ) : ℚ) * 2 ^ (fp32.qmin + (d : ℤ)) : ℚ) : ℝ) = 2 ^ 24 * 2 ^ (fp32.qmin + (d : ℤ) - 1) := by
          rw [zpow_sub_one₀ two_ne_zero]
          push_cast
          ring
        have hp : (((((2 ^ (23 + 1) - 1 : ℕ) : ℚ)) * 2 ^ (fp32.qmin + (d : ℤ) - 1) : ℚ) : ℝ) = (2 ^ 24 - 1) * 2 ^ (fp32.qmin + (d : ℤ) - 1) := by
          push_cast
          norm_num
        rw [hval, hp]
        constructor
        · linarith
        · intro hlt
          exfalso
          have hlow : (2 : ℝ) ^ 24 * 2 ^ (fp32.qmin + (d : ℤ) - 1) ≤ m * 2 ^ e := by
            have hL : leadExp m e = fp32.qmin + d + 23 := by
              have : fp32.qmin = -149 := by decide
              omega
            rw [hL] at hle2
            refine le_trans (le_of_eq ?_) hle2
            rw [← zpow_natCast, ← zpow_add₀ two_ne_zero]
            congr 1; push_cast; ring
          linarith

end

end Sys2Proof.Machine

namespace Sys2Proof.Machine

theorem fixError_zpow (e : Int) : (fixError : ℝ) * 2 ^ e = 2 ^ (e + 15) := by
  have h15 : (fixError : ℝ) = 2 ^ (15 : ℤ) := by simp only [fixError]; norm_num
  rw [h15, ← zpow_add₀ two_ne_zero, add_comm]

/-- What `withinUlps` decides, over the reals. -/
theorem withinUlps_real (k : Nat) (rn yn : Bool) (rm ym : Nat) (re ye : Int) :
    withinUlps k (.fin rn rm re) (.fin yn ym ye) = true ↔
      |((finiteValue (.fin rn rm re) : ℚ) : ℝ) - ((finiteValue (.fin yn ym ye) : ℚ) : ℝ)| + fixError * 2 ^ ye ≤
        k * (2 : ℝ) ^ (max (leadExp (ym - fixError) ye) (-126) - 23) := by
  rw [withinUlps_iff, ← Rat.cast_le (K := ℝ)]
  push_cast
  exact Iff.rfl

section

variable {m : Nat} {e : Int} (hf : Fine m e)
include hf

/-- The tolerance is far below a quantum. -/
theorem Fine.error_le : (fixError : ℝ) * 2 ^ e ≤ 2 ^ (fp32.quantum m e - 22) := by
  unfold Fine at hf
  rw [fixError_zpow, fp32_quantum]
  exact zpow_le_zpow_right₀ one_le_two (by omega)

/-- A fine number keeps its leading place, but for one, when the tolerance is taken off. -/
theorem Fine.lead_sub : max (leadExp m e) (-126) - 1 ≤ max (leadExp (m - fixError) e) (-126) := by
  by_cases hL : leadExp m e ≤ -126
  · omega
  · unfold Fine at hf
    rw [max_eq_left (by omega)] at hf ⊢
    have hlog : 60 ≤ Nat.log2 m := by rw [leadExp] at hf; omega
    have hm0 : m ≠ 0 := by
      rintro rfl
      rw [Nat.log2_zero] at hlog; omega
    have hself := Nat.log2_self_le hm0
    have herr : fixError = 2 ^ 15 := rfl
    have h60 : 2 ^ 60 ≤ 2 ^ Nat.log2 m := Nat.pow_le_pow_right two_pos hlog
    have hhalf : 2 ^ (Nat.log2 m - 1) ≤ m - fixError := by
      have : 2 ^ Nat.log2 m = 2 * 2 ^ (Nat.log2 m - 1) := by rw [← pow_succ']; congr 1; omega
      omega
    have : Nat.log2 m - 1 ≤ Nat.log2 (m - fixError) := by
      have hne : m - fixError ≠ 0 := by
        have : 0 < 2 ^ (Nat.log2 m - 1) := Nat.two_pow_pos _
        omega
      exact (Nat.le_log2 hne).2 hhalf
    rw [leadExp, leadExp]
    omega

variable (hm : m ≠ 0)
include hm

/-- The places beside the nearest stand away from the number, tolerance and all. -/
theorem nearMag_brackets (n : Bool) :
    (fp32.roundMag .rn n m e = 0 ∨ ((fp32.magValue (fp32.roundMag .rn n m e - 1) : ℚ) : ℝ) < m * 2 ^ e - fixError * 2 ^ e) ∧
      (m : ℝ) * 2 ^ e + fixError * 2 ^ e < (fp32.magValue (fp32.roundMag .rn n m e + 1) : ℚ) := by
  have hE := hf.error_le
  have hnear := nearMag (e := e) hm n
  obtain ⟨hup, hdown⟩ := nearMag_gaps (e := e) hm n
  have h22 : (2 : ℝ) ^ (fp32.quantum m e - 22) < 2 ^ (fp32.quantum m e - 1) := zpow_lt_zpow_right₀ one_lt_two (by omega)
  have hq : (2 : ℝ) ^ fp32.quantum m e = 2 * 2 ^ (fp32.quantum m e - 1) := by
    rw [← zpow_one_add₀ two_ne_zero]; congr 1; omega
  rw [abs_le] at hnear
  refine ⟨?_, by linarith [hnear.1]⟩
  rcases Nat.eq_zero_or_pos (fp32.roundMag .rn n m e) with h0 | h0
  · exact .inl h0
  · obtain ⟨d1, d2⟩ := hdown h0
    refine .inr ?_
    rcases le_or_gt ((fp32.magValue (fp32.roundMag .rn n m e) : ℚ) : ℝ) (m * 2 ^ e) with h | h
    · linarith
    · have := d2 h
      linarith [hnear.2]

end

section

variable {n : Bool} {m : Nat} {e : Int} (hf : Fine m e)
include hf

/-- The rounded true value is within two ulps. -/
theorem near_withinUlps {r : Nat} (hr : (roundFp fp32 .rn (.fin n m e) false).1 = r) {n' : Bool} {m' : Nat} {e' : Int}
    (hd : decodeFp fp32 r = .fin n' m' e') : withinUlps 2 (decodeFp fp32 r) (.fin n m e) = true := by
  have hE := hf.error_le
  have hlead := hf.lead_sub
  have hu : (2 : ℝ) ^ (fp32.quantum m e - 1) + 2 ^ (fp32.quantum m e - 22) ≤ 2 * 2 ^ (max (leadExp (m - fixError) e) (-126) - 23) := by
    have h1 : (2 : ℝ) ^ (fp32.quantum m e - 22) ≤ 2 ^ (fp32.quantum m e - 1) := zpow_le_zpow_right₀ one_le_two (by omega)
    have h2 : (2 : ℝ) ^ (fp32.quantum m e - 1) ≤ 2 ^ (max (leadExp (m - fixError) e) (-126) - 23) :=
      zpow_le_zpow_right₀ one_le_two (by rw [fp32_quantum]; omega)
    linarith
  rw [hd, withinUlps_real]
  have hdist : |((finiteValue (.fin n' m' e') : ℚ) : ℝ) - ((finiteValue (.fin n m e) : ℚ) : ℝ)| ≤ 2 ^ (fp32.quantum m e - 1) := by
    by_cases hm : m = 0
    · subst hm
      have hz : (roundFp fp32 .rn (.fin n 0 e) false).1 = fp32.signed n 0 := by simp [roundFp]
      rw [← hr, hz] at hd
      obtain ⟨-, -, hv⟩ := signed_number (by decide) hd
      rw [magValue_zero] at hv
      have h0 : finiteValue (.fin n' m' e') = 0 := by
        rcases mul_eq_zero.1 hv with h | h
        · have : m' = 0 := by exact_mod_cast h
          subst this; simp [finiteValue]
        · exact absurd h (by positivity)
      rw [h0, (finiteValue_eq_zero n 0 e).2 rfl, sub_self, abs_zero]
      positivity
    · have hle : fp32.roundMag .rn n m e ≤ fp32.maxCode := by
        by_contra hgt
        have hinf : (roundFp fp32 .rn (.fin n m e) false).1 = fp32.signed n fp32.infCode := by
          have hgt' := not_le.1 hgt
          unfold FpFmt.roundMag at hgt'
          simp only [roundFp, hm, if_false]
          rw [if_pos hgt']
          simp only [FpFmt.hasInf, show fp32.kind = .ieee from rfl, decide_true, Bool.true_or, Bool.and_self, Bool.not_false, if_true]
        rw [← hr, hinf, decodeFp_infCode regular_fp32 n rfl] at hd
        cases hd
      have hcode := roundFp_roundMag .rn n e hm hle
      rw [← hr, hcode] at hd
      obtain ⟨rfl, -, hv⟩ := signed_number (hle.trans_lt (by decide)) hd
      have hnear := nearMag (e := e) hm n'
      have hvR : ((fp32.magValue (fp32.roundMag .rn n' m e) : ℚ) : ℝ) = m' * 2 ^ e' := by
        rw [← hv]; push_cast; rfl
      rw [hvR] at hnear
      rw [cast_finiteValue, cast_finiteValue, ← mul_sub, abs_mul]
      have : |(signOf n' : ℝ)| = 1 := by cases n' <;> simp [signOf]
      rw [this, one_mul]
      exact hnear
  push_cast
  linarith

end

/-! ## Accuracy -/

/-- A result within the computed bound is within as many ulps of the true value. -/
theorem nearUlps_of_withinUlps {k : Nat} {y : FVal} {v : ℝ} (hy : y.Computed v) (hv : v ≠ 0) {rn : Bool} {rm : Nat} {re : Int}
    (h : withinUlps k (.fin rn rm re) y = true) : NearUlps k ((finiteValue (.fin rn rm re) : ℚ) : ℝ) v := by
  obtain ⟨n, m, e, rfl, hnear, hf⟩ := hy
  rw [withinUlps_real] at h
  have hu : (0 : ℝ) < 2 ^ e := by positivity
  have herr : (4500 : ℝ) * 2 ^ e ≤ fixError * 2 ^ e := mul_le_mul_of_nonneg_right (by simp only [fixError]; norm_num) hu.le
  have hvpos : 0 < |v| := abs_pos.2 hv
  refine ⟨fun h0 => absurd h0 hv, fun _ => ⟨Int.log 2 |v|, ?_, ?_, ?_⟩⟩
  · exact Int.zpow_log_le_self one_lt_two hvpos
  · exact Int.lt_zpow_succ_log_self one_lt_two _
  · have hdist : |((finiteValue (.fin rn rm re) : ℚ) : ℝ) - v| ≤ k * 2 ^ (max (leadExp (m - fixError) e) (-126) - 23) := by
      refine (abs_sub_le _ ((finiteValue (.fin n m e) : ℚ) : ℝ) _).trans ?_
      linarith
    refine hdist.trans (mul_le_mul_of_nonneg_left (zpow_le_zpow_right₀ one_le_two ?_) (Nat.cast_nonneg k))
    -- The leading place below the tolerance is not above the true value's.
    have hlead : leadExp (m - fixError) e ≤ max (Int.log 2 |v|) (-126) := by
      rcases Nat.eq_zero_or_pos (m - fixError) with h0 | h0
      · rw [h0, leadExp, Nat.log2_zero]
        have hm : Nat.log2 m ≤ 15 := by
          rcases Nat.eq_zero_or_pos m with rfl | hm
          · simp
          · have h15 : m < 2 ^ 16 := by
              have : fixError = 2 ^ 15 := rfl
              omega
            have := (Nat.log2_lt hm.ne').2 h15
            omega
        unfold Fine at hf
        rw [leadExp] at hf
        omega
      · have h1 := leadExp_le h0.ne' e
        have hsub : ((m - fixError : ℕ) : ℝ) = m - fixError := Nat.cast_sub (Nat.le_of_lt (Nat.sub_pos_iff_lt.1 h0))
        have hm0 : (0 : ℝ) ≤ m * 2 ^ e := mul_nonneg (Nat.cast_nonneg m) hu.le
        have habs : |((finiteValue (.fin n m e) : ℚ) : ℝ)| = m * 2 ^ e := by rw [cast_finiteValue, signOf_mul_abs n hm0]
        have h2 : (m : ℝ) * 2 ^ e - fixError * 2 ^ e ≤ |v| := by
          have := abs_sub_abs_le_abs_sub ((finiteValue (.fin n m e) : ℚ) : ℝ) v
          rw [habs] at this
          linarith
        rw [hsub, sub_mul] at h1
        have h3 := Int.lt_zpow_succ_log_self one_lt_two (|v|)
        have := (zpow_lt_zpow_iff_right₀ (one_lt_two (α := ℝ))).1 (h1.trans_lt (h2.trans_lt h3))
        omega
    omega

/-- A number between the neighbours of a place has that place's value as a faithful result. -/
theorem faithful_of_between {c : Int} {v : ℝ} (h1 : ((placeValue (c - 1) : ℚ) : ℝ) < v) (h2 : v < (placeValue (c + 1) : ℚ)) :
    Faithful ((placeValue c : ℚ) : ℝ) v := by
  intro code hcode n m e hd
  obtain ⟨-, -, hv, -⟩ := code_place hcode hd
  simp only
  rw [hv]
  have lt_iff : ∀ a b : Int, ((placeValue a : ℚ) : ℝ) < (placeValue b : ℚ) ↔ a < b := fun a b => by
    rw [Rat.cast_lt, placeValue_strictMono.lt_iff_lt]
  have le_iff : ∀ a b : Int, ((placeValue a : ℚ) : ℝ) ≤ (placeValue b : ℚ) ↔ a ≤ b := fun a b => by
    rw [Rat.cast_le, placeValue_strictMono.le_iff_le]
  refine ⟨fun _ hle => ?_, fun _ hle => ?_⟩
  · have := (lt_iff _ _).1 (hle.trans_lt h2)
    rw [le_iff]; omega
  · have := (lt_iff _ _).1 (h1.trans_le hle)
    rw [le_iff]; omega

end Sys2Proof.Machine

namespace Sys2Proof.Machine

/-! # What the bounds allow, and its accuracy (R63) -/

theorem faithful_eq (code : Nat) (n : Bool) (m : Nat) (e : Int) : faithful code (.fin n m e) = true ↔
    (code = (roundFp fp32 .rd (.fin n (m - fixError) e) false).1 ∨ code = (roundFp fp32 .ru (.fin n (m - fixError) e) false).1) ∧
      (code = (roundFp fp32 .rd (.fin n (m + fixError) e) false).1 ∨ code = (roundFp fp32 .ru (.fin n (m + fixError) e) false).1) := by
  have h : faithful code (.fin n m e) =
      ((decide (code = (roundFp fp32 .rd (.fin n (m - fixError) e) false).1) || decide (code = (roundFp fp32 .ru (.fin n (m - fixError) e) false).1)) &&
        (decide (code = (roundFp fp32 .rd (.fin n (m + fixError) e) false).1) ||
          decide (code = (roundFp fp32 .ru (.fin n (m + fixError) e) false).1))) := rfl
  rw [h]
  simp only [Bool.and_eq_true, Bool.or_eq_true, decide_eq_true_iff]

/-- A faithful code, in magnitudes. -/
theorem faithful_iff (n : Bool) {m : Nat} {e : Int} (hlt : ((m + fixError : ℕ) : ℝ) * 2 ^ e < 2 ^ (128 : ℤ)) (k : Nat) :
    faithful (fp32.signed n k) (.fin n m e) = true ↔
      (k = 0 ∨ ((fp32.magValue (k - 1) : ℚ) : ℝ) < ((m - fixError : ℕ) : ℝ) * 2 ^ e) ∧
        ((m + fixError : ℕ) : ℝ) * 2 ^ e < (fp32.magValue (k + 1) : ℚ) := by
  have hu : (0 : ℝ) < 2 ^ e := by positivity
  have hle : ((m - fixError : ℕ) : ℝ) * 2 ^ e ≤ ((m + fixError : ℕ) : ℝ) * 2 ^ e :=
    mul_le_mul_of_nonneg_right (Nat.cast_le.2 ((Nat.sub_le _ _).trans (Nat.le_add_right _ _))) hu.le
  have h1 := brackets_iff (hle.trans_lt hlt) n k
  have h2 := brackets_iff hlt n k
  rw [faithful_eq, h1, h2]
  constructor
  · rintro ⟨⟨a, -⟩, -, b⟩; exact ⟨a, b⟩
  · rintro ⟨a, b⟩; exact ⟨⟨a, hle.trans_lt b⟩, a.imp_right fun h => h.trans_le hle, b⟩

/-- A faithful code has the number's sign. -/
theorem faithful_signed {code : Nat} {n : Bool} {m : Nat} {e : Int} (h : faithful code (.fin n m e) = true) :
    ∃ k ≤ fp32.infCode, code = fp32.signed n k := by
  rcases ((faithful_eq ..).1 h).2 with h | h
  · obtain ⟨k, hk, hs⟩ := roundFp_signed .rd false n (m + fixError) e
    exact ⟨k, hk, h.trans hs⟩
  · obtain ⟨k, hk, hs⟩ := roundFp_signed .ru false n (m + fixError) e
    exact ⟨k, hk, h.trans hs⟩

theorem signOf_mul_self (n : Bool) (x : ℝ) : (signOf n : ℝ) * (signOf n * x) = x := by cases n <;> simp [signOf]

theorem placeValue_signedPlace (n : Bool) (k : Nat) : ((placeValue (signedPlace n k) : ℚ) : ℝ) = signOf n * (fp32.magValue k : ℚ) := by
  unfold signedPlace
  cases n
  · simp [signOf, placeValue_natCast]
  · rw [if_pos rfl, placeValue_neg, placeValue_natCast]; simp [signOf]

/-- A number with its sign, near a real, in magnitude. -/
theorem computed_mag {n : Bool} {m : Nat} {e : Int} {v d : ℝ} (h : |((finiteValue (.fin n m e) : ℚ) : ℝ) - v| ≤ d) :
    |(m : ℝ) * 2 ^ e - signOf n * v| ≤ d := by
  rw [cast_finiteValue] at h
  have : (m : ℝ) * 2 ^ e - signOf n * v = signOf n * (signOf n * (m * 2 ^ e) - v) := by rw [mul_sub, signOf_mul_self]
  rw [this, abs_mul]
  have h1 : |(signOf n : ℝ)| = 1 := by cases n <;> simp [signOf]
  rw [h1, one_mul]
  exact h

/-- A faithful code, in the order of places: the true value lies between its neighbours. -/
theorem between_of_faithful {n : Bool} {m : Nat} {e : Int} {v : ℝ} (hnear : |((finiteValue (.fin n m e) : ℚ) : ℝ) - v| ≤ 4500 * 2 ^ e)
    (hlt : ((m + fixError : ℕ) : ℝ) * 2 ^ e < 2 ^ (128 : ℤ)) {k : Nat} (h : faithful (fp32.signed n k) (.fin n m e) = true) :
    ((placeValue (signedPlace n k - 1) : ℚ) : ℝ) < v ∧ v < (placeValue (signedPlace n k + 1) : ℚ) := by
  obtain ⟨h1, h2⟩ := (faithful_iff n hlt k).1 h
  have hu : (0 : ℝ) < 2 ^ e := by positivity
  have herr : (4500 : ℝ) * 2 ^ e ≤ fixError * 2 ^ e := mul_le_mul_of_nonneg_right (by simp only [fixError]; norm_num) hu.le
  have hmag := abs_le.1 (computed_mag hnear)
  rw [Nat.cast_add, add_mul] at h2
  have hhi : signOf n * v < (fp32.magValue (k + 1) : ℚ) := by linarith [hmag.1]
  have hlo : ((placeValue ((k : ℤ) - 1) : ℚ) : ℝ) < signOf n * v := by
    rcases Nat.eq_zero_or_pos k with rfl | hk
    · rw [show ((0 : ℕ) : ℤ) - 1 = -((1 : ℕ) : ℤ) by simp, placeValue_neg, placeValue_natCast]
      push_cast
      have hm0 : (0 : ℝ) ≤ m * 2 ^ e := mul_nonneg (Nat.cast_nonneg m) hu.le
      rw [Nat.zero_add] at h2
      linarith [hmag.2]
    · rcases h1 with h1 | h1
      · omega
      · have hle : fixError ≤ m := by
          by_contra hlt'
          rw [Nat.sub_eq_zero_of_le (not_le.1 hlt').le, Nat.cast_zero, zero_mul] at h1
          have : (0 : ℝ) ≤ (fp32.magValue (k - 1) : ℚ) := by exact_mod_cast magValue_nonneg fp32 _
          linarith
        rw [Nat.cast_sub hle, sub_mul] at h1
        rw [show (k : ℤ) - 1 = ((k - 1 : ℕ) : ℤ) by omega, placeValue_natCast]
        linarith [hmag.2]
  have hhi' : signOf n * v < (placeValue ((k : ℤ) + 1) : ℚ) := by
    rw [show (k : ℤ) + 1 = ((k + 1 : ℕ) : ℤ) by simp, placeValue_natCast]; exact hhi
  cases n
  · simp only [signOf, Bool.false_eq_true, if_false, Int.cast_one, one_mul, signedPlace] at hlo hhi' ⊢
    exact ⟨hlo, hhi'⟩
  · simp only [signOf, if_true, Int.cast_neg, Int.cast_one, neg_one_mul, signedPlace] at hlo hhi' ⊢
    rw [show (-(k : ℤ) - 1) = -((k : ℤ) + 1) by ring, show (-(k : ℤ) + 1) = -((k : ℤ) - 1) by ring, placeValue_neg, placeValue_neg]
    push_cast
    constructor <;> linarith

/-! ## From the bounds to the accuracy of Table 9 -/

theorem fpLe_pi (m : Nat) (e : Int) : fpLe (.fin false m e) (decodeFp fp32 0x40490FDB) = true ↔
    finiteValue (.fin false m e) ≤ finiteValue (decodeFp fp32 0x40490FDB) := by
  rw [(by decide : decodeFp fp32 0x40490FDB = .fin false 0xC90FDB (-22))]
  exact fpLe_fin ..

/-- An admitted result is as accurate as Table 9 says. -/
theorem accurate_of_mayBe {fn : SpecialFn} {neg : Bool} {m : Nat} {e : Int} {y : FVal} {v : ℝ} (hy : y.Computed v) (hv : v ≠ 0)
    (hlt : ulpBound fn (.fin neg m e) = none → ∀ n a g, y = .fin n a g → ((a + fixError : ℕ) : ℝ) * 2 ^ g < 2 ^ (128 : ℤ)) {code : Nat} (hcode : code < 2 ^ 32)
    (h : mayBe fn (.fin neg m e) y code = true) :
    fn.Accurate ((finiteValue (.fin neg m e) : ℚ) : ℝ) v ((finiteValue (decodeFp fp32 code) : ℚ) : ℝ) := by
  obtain ⟨-, ⟨rn, rm, re, hd⟩, hb⟩ := mayBe_number h
  have hfaithful : ulpBound fn (.fin neg m e) = none → faithful code y = true → Faithful ((finiteValue (decodeFp fp32 code) : ℚ) : ℝ) v := fun hn hf => by
    obtain ⟨n, a, g, rfl, hnear, -⟩ := hy
    obtain ⟨k, hk, rfl⟩ := faithful_signed hf
    have hb := between_of_faithful hnear (hlt hn _ _ _ rfl) hf
    obtain ⟨-, hmax, hval⟩ := place_of_number (c := signedPlace n k) (s := n)
      (by unfold signedPlace; have : fp32.infCode < 2 ^ 31 := by decide
          split <;> omega) (by rw [fpAtPlace_signedPlace]; exact hd)
    rw [hd, hval]
    exact faithful_of_between hb.1 hb.2
  have hulps : ∀ k, withinUlps k (decodeFp fp32 code) y = true → NearUlps k ((finiteValue (decodeFp fp32 code) : ℚ) : ℝ) v := fun k hw => by
    rw [hd] at hw ⊢
    exact nearUlps_of_withinUlps hy hv hw
  have habs : |((finiteValue (.fin neg m e) : ℚ) : ℝ)| = ((finiteValue (.fin false m e) : ℚ) : ℝ) := by
    rw [cast_finiteValue, cast_finiteValue, signOf_mul_abs neg (mul_nonneg (Nat.cast_nonneg m) (by positivity))]
    simp [signOf]
  have htrig : ∀ p : Bool, (fpLe (.fin false m e) (decodeFp fp32 0x40490FDB) = p) →
      withinUlps (if p then 2 else 4) (decodeFp fp32 code) y = true →
      NearUlps 4 ((finiteValue (decodeFp fp32 code) : ℚ) : ℝ) v ∧
        (|((finiteValue (.fin neg m e) : ℚ) : ℝ)| ≤ ((finiteValue (decodeFp fp32 0x40490FDB) : ℚ) : ℝ) →
          NearUlps 2 ((finiteValue (decodeFp fp32 code) : ℚ) : ℝ) v) := by
    intro p hp hw
    have hn := hulps _ hw
    cases p
    · refine ⟨hn, fun hle => ?_⟩
      rw [habs, Rat.cast_le] at hle
      rw [(fpLe_pi m e).2 hle] at hp
      cases hp
    · refine ⟨⟨hn.1, fun h0 => ?_⟩, fun _ => hn⟩
      obtain ⟨k, k1, k2, k3⟩ := hn.2 h0
      exact ⟨k, k1, k2, k3.trans (mul_le_mul_of_nonneg_right (by norm_num) (by positivity))⟩
  cases fn
  case exp2 => exact hfaithful rfl hb
  case log2 => exact hfaithful rfl hb
  case sin => exact htrig _ rfl hb
  case cos => exact htrig _ rfl hb
  all_goals exact hulps 2 hb

end Sys2Proof.Machine

namespace Sys2Proof.Machine

/-! # The rounded true value is admitted -/

/-- What a function's computed value keeps to: its sign, its size, and the real it stands for. -/
structure Stands (fn : SpecialFn) (y : FVal) (v : ℝ) : Prop where
  computed : y.Computed v
  ne : v ≠ 0
  sign : fn = .exp2 ∨ fn = .exp ∨ fn = .sigm → y.sign = false
  unit : fn = .sin ∨ fn = .cos ∨ fn = .tanh ∨ fn = .sigm → |v| ≤ 1
  bounded : fn ≠ .exp2 → fn ≠ .exp → |v| ≤ 2 ^ 100

/-- FP32's one, as a magnitude. -/
theorem magValue_one : fp32.magValue 0x3F800000 = 1 ∧ fp32.magValue 0x3F800001 = 1 + 2 ^ (-23 : ℤ) := by
  constructor <;> simp only [FpFmt.magValue, FpFmt.qmin, fp32, reduceCtorEq, if_false] <;> norm_num

section

variable {n : Bool} {m : Nat} {e : Int} (hf : Fine m e)
include hf

/-- Below 2^128 the rounded value is a number, and the tolerance stays below too. -/
theorem near_number (h : (n = false ∧ (roundFp fp32 .rn (.fin n m e) false).1 ≠ fp32.infCode) ∨ (m : ℝ) * 2 ^ e ≤ 2 ^ (101 : ℤ)) :
    ∃ k ≤ fp32.maxCode, (roundFp fp32 .rn (.fin n m e) false).1 = fp32.signed n k ∧ (m ≠ 0 → k = fp32.roundMag .rn n m e) ∧
      ((m + fixError : ℕ) : ℝ) * 2 ^ e < 2 ^ (128 : ℤ) := by
  have herr := hf.error_le
  rw [fp32_quantum] at herr
  have hcast : ((m + fixError : ℕ) : ℝ) * 2 ^ e = m * 2 ^ e + fixError * 2 ^ e := by rw [Nat.cast_add, add_mul]
  by_cases hm : m = 0
  · subst hm
    refine ⟨0, Nat.zero_le _, by simp [roundFp], fun h => absurd rfl h, ?_⟩
    have hE : (fixError : ℝ) * 2 ^ e ≤ 2 ^ (100 : ℤ) := by
      refine herr.trans (zpow_le_zpow_right₀ one_le_two ?_)
      unfold Fine at hf
      rw [leadExp, Nat.log2_zero] at *
      omega
    rw [hcast, Nat.cast_zero, zero_mul, zero_add]
    exact hE.trans_lt (zpow_lt_zpow_right₀ one_lt_two (by decide))
  · have hmax : fp32.roundMag .rn n m e ≤ fp32.maxCode := by
      rcases h with ⟨rfl, h⟩ | h
      · by_contra hgt
        refine h ?_
        have hgt' := not_le.1 hgt
        unfold FpFmt.roundMag at hgt'
        simp only [roundFp, hm, if_false]
        rw [if_pos hgt']
        simp only [FpFmt.hasInf, show fp32.kind = .ieee from rfl, decide_true, Bool.true_or, Bool.and_self, Bool.not_false, if_true]
        decide
      · refine roundMag_le regular_fp32 .rn n e hm (h.trans ?_)
        rw [regular_fp32.top]
        simp only [FpFmt.top, fp32]
        norm_num
    refine ⟨_, hmax, roundFp_roundMag .rn n e hm hmax, fun _ => rfl, ?_⟩
    have hb := (nearMag_brackets hf hm n).2
    rw [hcast]
    refine hb.trans_le ?_
    have hinf : fp32.roundMag .rn n m e + 1 ≤ fp32.infCode := by
      have : fp32.infCode = fp32.maxCode + 1 := by decide
      omega
    have := (magValue_strictMono fp32).monotone hinf
    rw [magValue_infCode] at this
    have := (Rat.cast_le (K := ℝ)).2 this
    rwa [Rat.cast_zpow, Rat.cast_ofNat] at this

/-- Where the rounded value is infinity, the number exceeds the largest finite one, tolerance and all. -/
theorem near_inf (h : (roundFp fp32 .rn (.fin n m e) false).1 = fp32.infCode) : (fp32.top : ℝ) < m * 2 ^ e - fixError * 2 ^ e := by
  have hm : m ≠ 0 := by
    rintro rfl
    have : (roundFp fp32 .rn (.fin n 0 e) false).1 = fp32.signed n 0 := by simp [roundFp]
    rw [this] at h
    cases n <;> exact absurd h (by decide)
  have hgt : fp32.maxCode < fp32.roundMag .rn n m e := by
    by_contra hle
    have hle := not_lt.1 hle
    rw [roundFp_roundMag .rn n e hm hle, signed_fp32] at h
    have h1 : fp32.maxCode < fp32.infCode := by decide
    have h2 : fp32.infCode < 2 ^ 31 := by decide
    split at h <;> omega
  have hnear := (abs_le.1 (nearMag (e := e) hm n)).2
  have hE := hf.error_le
  have hinf : fp32.infCode ≤ fp32.roundMag .rn n m e := by
    have : fp32.infCode = fp32.maxCode + 1 := by decide
    omega
  have hmono := (magValue_strictMono fp32).monotone hinf
  rw [magValue_infCode] at hmono
  have hmono := (Rat.cast_le (K := ℝ)).2 hmono
  rw [Rat.cast_zpow, Rat.cast_ofNat] at hmono
  have htop : (fp32.top : ℝ) = 2 ^ (128 : ℤ) - 2 ^ (104 : ℤ) := by
    simp only [FpFmt.top, fp32]; norm_num
  rw [htop]
  have hlow := leadExp_le hm e
  rw [fp32_quantum] at hnear hE
  rcases le_or_gt (leadExp m e) 127 with hL | hL
  · have q1 : (2 : ℝ) ^ (max (leadExp m e) (-126) - 23 - 1) ≤ 2 ^ (103 : ℤ) := zpow_le_zpow_right₀ one_le_two (by omega)
    have q2 : (2 : ℝ) ^ (max (leadExp m e) (-126) - 23 - 22) ≤ 2 ^ (82 : ℤ) := zpow_le_zpow_right₀ one_le_two (by omega)
    have q3 : (2 : ℝ) ^ (103 : ℤ) + 2 ^ (82 : ℤ) < 2 ^ (104 : ℤ) := by norm_num
    linarith
  · have q2 : (2 : ℝ) ^ (max (leadExp m e) (-126) - 23 - 22) = 2 ^ leadExp m e * 2 ^ (-45 : ℤ) := by
      rw [← zpow_add₀ two_ne_zero]; congr 1; omega
    have q3 : (2 : ℝ) ^ (128 : ℤ) ≤ 2 ^ leadExp m e := zpow_le_zpow_right₀ one_le_two (by omega)
    have q4 : (2 : ℝ) ^ (-45 : ℤ) ≤ 2 ^ (-25 : ℤ) := zpow_le_zpow_right₀ one_le_two (by decide)
    have q5 : (2 : ℝ) ^ (128 : ℤ) * 2 ^ (-25 : ℤ) < 2 ^ (104 : ℤ) := by norm_num
    have q6 : (0 : ℝ) < 2 ^ (-45 : ℤ) := by positivity
    have q7 : (2 : ℝ) ^ (-45 : ℤ) ≤ 1 := zpow_le_one_of_nonpos₀ one_le_two (by decide)
    have q8 : (2 : ℝ) ^ (128 : ℤ) * (1 - 2 ^ (-45 : ℤ)) ≤ 2 ^ leadExp m e * (1 - 2 ^ (-45 : ℤ)) :=
      mul_le_mul_of_nonneg_right q3 (by linarith)
    have q9 : (2 : ℝ) ^ (128 : ℤ) * 2 ^ (-45 : ℤ) ≤ 2 ^ (128 : ℤ) * 2 ^ (-25 : ℤ) := mul_le_mul_of_nonneg_left q4 (by positivity)
    rw [q2] at hE
    linarith

omit hf in
/-- A number up to 1, but for the tolerance, rounds to at most 1. -/
theorem near_unit (hm : m ≠ 0) (h : (m : ℝ) * 2 ^ e ≤ 1 + 2 ^ (-30 : ℤ)) : fp32.roundMag .rn n m e ≤ 0x3F800000 := by
  by_contra hgt
  have hmono := (magValue_strictMono fp32).monotone (show 0x3F800001 ≤ fp32.roundMag .rn n m e by omega)
  rw [magValue_one.2] at hmono
  have hmono := (Rat.cast_le (K := ℝ)).2 hmono
  push_cast at hmono
  have hnear := (abs_le.1 (nearMag (e := e) hm n)).2
  have hL : leadExp m e ≤ 0 := by
    have h1 := (leadExp_le hm e).trans h
    have h2 : (1 : ℝ) + 2 ^ (-30 : ℤ) < 2 ^ (1 : ℤ) := by norm_num
    have := (zpow_lt_zpow_iff_right₀ (one_lt_two (α := ℝ))).1 (h1.trans_lt h2)
    omega
  have hq : (2 : ℝ) ^ (fp32.quantum m e - 1) ≤ 2 ^ (-24 : ℤ) := zpow_le_zpow_right₀ one_le_two (by rw [fp32_quantum]; omega)
  norm_num at hmono h hq
  linarith

end

theorem withinUlps_mono {r y : FVal} {j k : Nat} (hjk : j ≤ k) (h : withinUlps j r y = true) : withinUlps k r y = true := by
  cases r with
  | nan s => simp [withinUlps] at h
  | inf s => simp [withinUlps] at h
  | fin rn rm re =>
    cases y with
    | nan s => simp [withinUlps] at h
    | inf s => simp [withinUlps] at h
    | fin n m e =>
      rw [withinUlps_iff] at h ⊢
      exact h.trans (mul_le_mul_of_nonneg_right (by exact_mod_cast hjk) (by positivity))

/-- A computed value is hardly larger than what the real keeps below. -/
theorem computed_size {n : Bool} {m : Nat} {e : Int} {v : ℝ} (hf : Fine m e) (hm : m ≠ 0)
    (h : |((finiteValue (.fin n m e) : ℚ) : ℝ) - v| ≤ 4500 * 2 ^ e) {j : Int} (hj : -100 ≤ j) (hv : |v| ≤ 2 ^ j) :
    (m : ℝ) * 2 ^ e ≤ 2 ^ j + 2 ^ (j - 30) := by
  have hmag := (abs_le.1 (computed_mag h)).2
  have hsv : signOf n * v ≤ |v| := by
    refine (le_abs_self _).trans (le_of_eq ?_)
    rw [abs_mul]
    cases n <;> simp [signOf]
  have herr : (4500 : ℝ) * 2 ^ e ≤ 2 ^ (e + 15) := by
    rw [← fixError_zpow]
    exact mul_le_mul_of_nonneg_right (by simp only [fixError]; norm_num) (by positivity)
  have hlow := leadExp_le hm e
  have hj30 : (2 : ℝ) ^ (j - 30) = 2 ^ j * 2 ^ (-30 : ℤ) := by rw [← zpow_add₀ two_ne_zero]; rfl
  have hpos : (0 : ℝ) < 2 ^ j := by positivity
  unfold Fine at hf
  rcases le_or_gt (leadExp m e) j with hL | hL
  · have : (2 : ℝ) ^ (e + 15) ≤ 2 ^ (j - 30) := zpow_le_zpow_right₀ one_le_two (by omega)
    linarith
  · have h1 : (2 : ℝ) ^ (e + 15) ≤ 2 ^ (leadExp m e - 2) := zpow_le_zpow_right₀ one_le_two (by omega)
    have h2 : (2 : ℝ) ^ j * 2 ≤ 2 ^ leadExp m e := by
      rw [← zpow_add_one₀ two_ne_zero]; exact zpow_le_zpow_right₀ one_le_two (by omega)
    have h3 : (2 : ℝ) ^ (leadExp m e - 2) = 2 ^ leadExp m e / 4 := by
      rw [zpow_sub₀ two_ne_zero]; norm_num
    linarith

/-- A number of magnitude up to 1 lies in the range of the bounded functions. -/
theorem fpLe_one {n : Bool} {m : Nat} {e : Int} (h : (m : ℚ) * 2 ^ e ≤ 1) :
    (fpLe (.fin n m e) (.fin false 1 0) && fpLe (FVal.fin false 1 0).neg (.fin n m e)) = true := by
  have h0 : (0 : ℚ) ≤ m * 2 ^ e := by positivity
  rw [Bool.and_eq_true, FVal.neg, fpLe_fin, fpLe_fin]
  cases n <;> simp only [finiteValue, if_true, if_false, Bool.false_eq_true, Bool.not_false] <;> constructor <;> norm_num <;> linarith

/-- The rounded value of what a function stands for is a number, unless it is infinite. -/
theorem Stands.near_number {fn : SpecialFn} {n : Bool} {m : Nat} {e : Int} {v : ℝ} (h : Stands fn (.fin n m e) v)
    (hfin : (roundFp fp32 .rn (.fin n m e) false).1 ≠ fp32.infCode) :
    ∃ k ≤ fp32.maxCode, (roundFp fp32 .rn (.fin n m e) false).1 = fp32.signed n k ∧ (m ≠ 0 → k = fp32.roundMag .rn n m e) ∧
      ((m + fixError : ℕ) : ℝ) * 2 ^ e < 2 ^ (128 : ℤ) := by
  obtain ⟨⟨n', m', e', hy, hnear, hf⟩, -, hsign, -, hbound⟩ := h
  cases hy
  refine Machine.near_number hf ?_
  by_cases hexp : fn = .exp2 ∨ fn = .exp
  · exact .inl ⟨hsign (hexp.imp_right .inl), hfin⟩
  · right
    by_cases hm : m = 0
    · rw [hm, Nat.cast_zero, zero_mul]; positivity
    · refine (computed_size hf hm hnear (j := 100) (by decide) ?_).trans (by norm_num)
      exact_mod_cast hbound (fun h => hexp (.inl h)) fun h => hexp (.inr h)

theorem two_le_trig (p : Bool) : 2 ≤ if p then 2 else 4 := by cases p <;> decide

/-- The rounded true value may be the result. -/
theorem near_mayBe {fn : SpecialFn} {x y : FVal} {v : ℝ} (h : Stands fn y v) (hfin : (roundFp fp32 .rn y false).1 ≠ fp32.infCode) :
    mayBe fn x y (roundFp fp32 .rn y false).1 = true := by
  obtain ⟨n, m, e, rfl, -⟩ := h.computed
  have hnumber := h.near_number hfin
  obtain ⟨⟨n', m', e', hy, hnear, hf⟩, -, hsign, hunit, -⟩ := h
  cases hy
  have hn : fn = .exp2 ∨ fn = .exp ∨ fn = .sigm → n = false := hsign
  obtain ⟨k, hk, hr, hkm, hlt⟩ := hnumber
  obtain ⟨a, g, hd, hval⟩ := decodeFp_finite regular_fp32 n hk
  have hone : fn = .sin ∨ fn = .cos ∨ fn = .tanh ∨ fn = .sigm → (a : ℚ) * 2 ^ g ≤ 1 := fun h => by
    rw [hval, ← magValue_one.1]
    refine (magValue_strictMono fp32).monotone ?_
    by_cases hm : m = 0
    · subst hm
      have : fp32.signed n 0 = fp32.signed n k := by rw [← hr]; simp [roundFp]
      rw [signed_fp32, signed_fp32] at this
      omega
    · rw [hkm hm]
      refine near_unit hm ((computed_size hf hm hnear (j := 0) (by decide) ?_).trans (by norm_num))
      rw [zpow_zero]
      exact hunit h
  have hrange : inRange fn (decodeFp fp32 (roundFp fp32 .rn (.fin n m e) false).1) = true := by
    rw [hr, hd]
    have hpos : fn = .exp2 ∨ fn = .exp ∨ fn = .sigm → (!(FVal.fin n a g).sign) = true := fun h => by rw [hn h]; rfl
    cases fn
    case exp2 => exact hpos (.inl rfl)
    case exp => exact hpos (.inr (.inl rfl))
    case log2 => rfl
    case log => rfl
    case sin => exact fpLe_one (hone (.inl rfl))
    case cos => exact fpLe_one (hone (.inr (.inl rfl)))
    case tanh => exact fpLe_one (hone (.inr (.inr (.inl rfl))))
    case sigm => exact Bool.and_eq_true_iff.2 ⟨hpos (.inr (.inr rfl)), (Bool.and_eq_true_iff.1 (fpLe_one (hone (.inr (.inr (.inr rfl)))))).1⟩
  have hulps : ∀ j, 2 ≤ j → withinUlps j (decodeFp fp32 (roundFp fp32 .rn (.fin n m e) false).1) (.fin n m e) = true := fun j hj =>
    withinUlps_mono hj (near_withinUlps hf rfl (hr ▸ hd))
  have hfaith : faithful (roundFp fp32 .rn (.fin n m e) false).1 (.fin n m e) = true := by
    rw [hr, faithful_iff n hlt]
    have hu : (0 : ℝ) < 2 ^ e := by positivity
    by_cases hm : m = 0
    · have : fp32.signed n 0 = fp32.signed n k := by rw [← hr, hm]; simp [roundFp]
      rw [signed_fp32, signed_fp32] at this
      obtain rfl : k = 0 := by omega
      refine ⟨.inl rfl, ?_⟩
      subst hm
      have hE := hf.error_le
      rw [fp32_quantum] at hE
      have hL : max (leadExp 0 e) (-126) - 23 - 22 < -149 := by
        unfold Fine at hf
        rw [leadExp, Nat.log2_zero] at *
        omega
      have hv1 : ((fp32.magValue (0 + 1) : ℚ) : ℝ) = 2 ^ (-149 : ℤ) := by
        simp only [FpFmt.magValue, FpFmt.qmin, fp32, reduceCtorEq, if_false]; norm_num
      rw [hv1, Nat.zero_add]
      exact hE.trans_lt (zpow_lt_zpow_right₀ one_lt_two hL)
    · obtain ⟨b1, b2⟩ := nearMag_brackets hf hm n
      rw [← hkm hm] at b1 b2
      rw [Nat.cast_add, add_mul]
      refine ⟨b1.imp_right fun h => h.trans_le ?_, b2⟩
      · rw [← sub_mul]
        refine mul_le_mul_of_nonneg_right ?_ hu.le
        have : (m : ℝ) ≤ ((m - fixError : ℕ) : ℝ) + fixError := by exact_mod_cast (by omega : m ≤ m - fixError + fixError)
        linarith
  unfold mayBe
  rw [hr, hd] at *
  simp only [Bool.and_eq_true]
  refine ⟨⟨⟨hrange, rfl⟩, rfl⟩, ?_⟩
  cases fn
  case exp2 => exact hfaith
  case log2 => exact hfaith
  case sin => exact hulps _ (two_le_trig _)
  case cos => exact hulps _ (two_le_trig _)
  all_goals exact hulps 2 le_rfl

end Sys2Proof.Machine

namespace Sys2Proof.Machine

/-! # What the computed values stand for -/

/-- A function of R63, its argument cut where the computed one is. -/
noncomputable def SpecialFn.cutValue (fn : SpecialFn) (x : ℝ) : ℝ :=
  match fn with
  | .exp2 => (2 : ℝ) ^ cutArg x
  | .log2 => Real.logb 2 x
  | .exp => Real.exp (cutArg x)
  | .log => Real.log x
  | .sin => Real.sin x
  | .cos => Real.cos x
  | .tanh => Real.tanh x
  | .sigm => 1 / (1 + Real.exp (-cutArg x))

theorem cutArg_of_small {x : ℝ} (h : |x| ≤ 256) : cutArg x = x := by
  obtain ⟨h1, h2⟩ := abs_le.1 h
  rw [cutArg, min_eq_right h2, max_eq_right h1]

theorem cutArg_abs (x : ℝ) : |cutArg x| ≤ 256 :=
  abs_le.2 ⟨le_max_left _ _, max_le (by norm_num) (min_le_left _ _)⟩

/-- The cut changes nothing but large arguments of the exponentials. -/
theorem SpecialFn.Is.eq_cutValue {fn : SpecialFn} {x y : ℝ} (h : fn.Is x y) (hx : fn = .exp2 ∨ fn = .exp ∨ fn = .sigm → |x| ≤ 256) :
    y = fn.cutValue x := by
  cases fn
  case exp2 => rw [SpecialFn.cutValue, cutArg_of_small (hx (.inl rfl))]; exact h
  case exp => rw [SpecialFn.cutValue, cutArg_of_small (hx (.inr (.inl rfl)))]; exact h
  case sigm => rw [SpecialFn.cutValue, cutArg_of_small (hx (.inr (.inr rfl)))]; exact h
  all_goals exact h

/-- A computed number, and a fine one. -/
def FVal.IsFine (y : FVal) : Prop := ∃ n m e, y = .fin n m e ∧ Fine m e

theorem FVal.IsFine.computed {y : FVal} {v : ℝ} (hf : y.IsFine) (h : y.NearReal v 4500) : y.Computed v := by
  obtain ⟨n, m, e, rfl, hf⟩ := hf
  obtain ⟨n', m', e', hy, hd⟩ := h
  cases hy
  exact ⟨n, m, e, rfl, hd, hf⟩

theorem fixVal_sign {x k : Int} (h : 0 ≤ x) : (fixVal x k).sign = false := decide_eq_false (not_lt.2 h)

theorem fixVal_isFine {x k : Int} (hk : k ≤ 214) : (fixVal x k).IsFine :=
  ⟨_, _, _, rfl, by unfold Fine; omega⟩

theorem Scaled.fine {k : Int} {p : Int × Int} (h : Scaled k p) : Fine p.1.natAbs (k - 400) := by
  obtain ⟨-, hlow, -⟩ := h.value
  have : (2 : ℝ) ^ k < 2 ^ (leadExp p.1.natAbs (k - 400) + 1) := hlow.trans_lt (lt_leadExp _ _)
  have := (zpow_lt_zpow_iff_right₀ (one_lt_two (α := ℝ))).1 this
  unfold Fine
  omega

theorem Scaled.isFine {k : Int} {p : Int × Int} (h : Scaled k p) : (fixVal p.1 p.2).IsFine :=
  ⟨_, _, _, h.value.1, h.fine⟩

section

variable {fn : SpecialFn} {neg : Bool} {m : Nat} {e : Int} (h : Parts m e)
include h

theorem fixPowE_quotient_neg : (fixPowE (-fixMag m e)).2 < 0 := by
  obtain ⟨h0, -, -⟩ := fixMag_parts h
  exact Int.ediv_neg_of_neg_of_pos (by omega) fixLn2_bounds.1

theorem trueValue_isFine : (trueValue fn neg m e).IsFine := by
  have hl60 : leadExp m e ≤ -60 → ∀ d, (cubeBelow neg m e d).IsFine := fun hl d => by
    refine ⟨_, _, _, cubeBelow_eq .., ?_⟩
    have : e ≤ leadExp m e := by rw [leadExp]; omega
    unfold Fine
    omega
  have h0 : (0 : Int) ≤ 214 := by decide
  cases fn
  case exp2 => rw [trueValue_exp2]; exact (fixPow2_scaled _).isFine
  case exp => rw [trueValue_exp]; exact (fixPowE_scaled _).isFine
  case log2 => rw [trueValue_log2]; exact fixVal_isFine h0
  case log => rw [trueValue_log]; exact fixVal_isFine h0
  case sin =>
    by_cases hl : leadExp m e ≤ -60
    · unfold trueValue
      rw [if_pos ⟨hl, rfl⟩]
      exact hl60 hl _
    · unfold trueValue
      rw [if_neg (by simp [hl]), if_neg (by simp)]
      exact fixVal_isFine h0
  case cos =>
    unfold trueValue
    rw [if_neg (by simp), if_neg (by simp)]
    exact fixVal_isFine h0
  case tanh =>
    by_cases hl : leadExp m e ≤ -60
    · unfold trueValue
      rw [if_neg (by simp), if_pos ⟨hl, rfl⟩]
      exact hl60 hl _
    · rw [trueValue_tanh hl]; exact fixVal_isFine h0
  case sigm =>
    rw [trueValue_sigm]
    split
    · exact fixVal_isFine (by have := fixPowE_quotient_neg h; omega)
    · exact fixVal_isFine h0

theorem trueValue_computed (hl : fn = .log2 ∨ fn = .log → neg = false) :
    (trueValue fn neg m e).Computed (fn.cutValue ((finiteValue (.fin neg m e) : ℚ) : ℝ)) := by
  refine (trueValue_isFine h).computed ?_
  have he : -400 ≤ e := by have := h.exp; omega
  have hval : neg = false → ((finiteValue (.fin neg m e) : ℚ) : ℝ) = m * 2 ^ e := by
    rintro rfl
    rw [cast_finiteValue]; simp [signOf]
  cases fn
  case exp2 => exact trueValue_exp2_near h.ne he
  case exp => exact trueValue_exp_near h.ne he
  case log2 => rw [hval (hl (.inl rfl))]; exact trueValue_log2_near h
  case log => rw [hval (hl (.inr rfl))]; exact trueValue_log_near h
  case sin => exact trueValue_sin_near h
  case cos => exact trueValue_cos_near h
  case tanh => exact trueValue_tanh_near h
  case sigm => exact trueValue_sigm_near h

end

/-! ## Values that are not zero -/

theorem sin_rat_ne_zero {q : ℚ} (hq : q ≠ 0) : Real.sin q ≠ 0 := fun h => by
  obtain ⟨n, hn⟩ := Real.sin_eq_zero_iff.1 h
  have hn0 : n ≠ 0 := by
    rintro rfl
    rw [Int.cast_zero, zero_mul] at hn
    exact hq (by exact_mod_cast hn.symm)
  exact (irrational_pi.intCast_mul hn0).ne_rat q hn

theorem cos_rat_ne_zero (q : ℚ) : Real.cos q ≠ 0 := fun h => by
  obtain ⟨n, hn⟩ := Real.cos_eq_zero_iff.1 h
  have hn0 : 2 * n + 1 ≠ 0 := by omega
  refine (irrational_pi.intCast_mul hn0).ne_rat (q * 2) ?_
  push_cast
  rw [hn]
  ring

section

variable {neg : Bool} {m : Nat} {e : Int} (h : Parts m e)
include h

theorem finiteValue_ne_zero : finiteValue (.fin neg m e) ≠ 0 := by
  have : (0 : ℚ) < m * 2 ^ e := by
    have := Nat.pos_of_ne_zero h.ne
    positivity
  cases neg <;> simp only [finiteValue, if_true, if_false, Bool.false_eq_true] <;> linarith

theorem log_bounds (hx : finiteValue (.fin neg m e) ≠ 1) (hn : neg = false) : Real.log (((finiteValue (.fin neg m e) : ℚ) : ℝ)) ≠ 0 ∧
    |Real.log (((finiteValue (.fin neg m e) : ℚ) : ℝ))| ≤ 150 * Real.log 2 := by
  have hval : ((finiteValue (.fin neg m e) : ℚ) : ℝ) = m * 2 ^ e := by
    rw [cast_finiteValue, hn]; simp [signOf]
  have hpos : (0 : ℝ) < m * 2 ^ e := by
    have := Nat.pos_of_ne_zero h.ne
    positivity
  refine ⟨Real.log_ne_zero_of_pos_of_ne_one (hval ▸ hpos) (by exact_mod_cast hx), ?_⟩
  rw [hval]
  exact (fixLog_parts h).2

theorem trueValue_stands {fn : SpecialFn} (hl : fn = .log2 ∨ fn = .log → neg = false ∧ finiteValue (.fin neg m e) ≠ 1) :
    Stands fn (trueValue fn neg m e) (fn.cutValue ((finiteValue (.fin neg m e) : ℚ) : ℝ)) where
  computed := trueValue_computed h fun hfn => (hl hfn).1
  ne := by
    have hx := finiteValue_ne_zero h (neg := neg)
    cases fn
    case exp2 => exact (Real.rpow_pos_of_pos two_pos _).ne'
    case exp => exact (Real.exp_pos _).ne'
    case log2 =>
      have := (log_bounds h (hl (.inl rfl)).2 (hl (.inl rfl)).1).1
      exact div_ne_zero this (Real.log_pos one_lt_two).ne'
    case log => exact (log_bounds h (hl (.inr rfl)).2 (hl (.inr rfl)).1).1
    case sin => exact sin_rat_ne_zero hx
    case cos => exact cos_rat_ne_zero _
    case tanh =>
      intro h0
      rw [SpecialFn.cutValue, Real.tanh_eq_sinh_div_cosh, div_eq_zero_iff, Real.sinh_eq_zero] at h0
      exact hx (by exact_mod_cast h0.resolve_right (Real.cosh_pos _).ne')
    case sigm => exact (one_div_pos.2 (by have := Real.exp_pos (-cutArg ((finiteValue (.fin neg m e) : ℚ) : ℝ)); linarith)).ne'
  sign := by
    rintro (rfl | rfl | rfl)
    · rw [trueValue_exp2, (fixPow2_scaled _).value.1]; rfl
    · rw [trueValue_exp, (fixPowE_scaled _).value.1]; rfl
    · have h0 := (sigmMag_near h).1
      rw [trueValue_sigm]
      split
      · have hs := (fixPowE_scaled (-fixMag m e)).1
        have := fixOne_pos
        have hS := fixOne_pos
        have hp : 0 ≤ (fixPowE (-fixMag m e)).1 := by linarith
        exact fixVal_sign (Int.ediv_nonneg (mul_nonneg hp h0) hS.le)
      · exact fixVal_sign h0
  unit := by
    rintro (rfl | rfl | rfl | rfl)
    · exact Real.abs_sin_le_one _
    · exact Real.abs_cos_le_one _
    · exact (Real.abs_tanh_lt_one _).le
    · have := Real.exp_pos (-cutArg ((finiteValue (.fin neg m e) : ℚ) : ℝ))
      rw [SpecialFn.cutValue, abs_of_pos (one_div_pos.2 (by linarith)), div_le_one (by linarith)]
      linarith
  bounded := by
    intro h2 he
    have hlog : fn = .log2 ∨ fn = .log → |Real.log (((finiteValue (.fin neg m e) : ℚ) : ℝ))| ≤ 150 * Real.log 2 := fun hfn =>
      (log_bounds h (hl hfn).2 (hl hfn).1).2
    have hln : 0 < Real.log 2 := Real.log_pos one_lt_two
    have hln1 := Real.log_two_lt_d9
    have hone : ∀ w : ℝ, |w| ≤ 1 → |w| ≤ 2 ^ 100 := fun w hw => hw.trans (by norm_num)
    cases fn
    case exp2 => exact absurd rfl h2
    case exp => exact absurd rfl he
    case log2 =>
      have := hlog (.inl rfl)
      rw [SpecialFn.cutValue, Real.logb, abs_div, abs_of_pos hln, div_le_iff₀ hln]
      norm_num
      linarith
    case log =>
      refine (hlog (.inr rfl)).trans ?_
      norm_num
      linarith
    case sin => exact hone _ (Real.abs_sin_le_one _)
    case cos => exact hone _ (Real.abs_cos_le_one _)
    case tanh => exact hone _ (Real.abs_tanh_lt_one _).le
    case sigm =>
      have := Real.exp_pos (-cutArg ((finiteValue (.fin neg m e) : ℚ) : ℝ))
      refine hone _ ?_
      rw [SpecialFn.cutValue, abs_of_pos (one_div_pos.2 (by linarith)), div_le_one (by linarith)]
      linarith

end

end Sys2Proof.Machine

namespace Sys2Proof.Machine

/-! # The results of Table 9 (R63) -/

/-- What Table 9 says of a finite argument's result. -/
def Meets (fn : SpecialFn) (x y : ℝ) (r : FVal) : Prop :=
  (r = .inf false ∧ (fn = .exp2 ∨ fn = .exp) ∧ (fp32.top : ℝ) < y) ∨
    ∃ n m e, r = .fin n m e ∧ fn.Accurate x y ((finiteValue r : ℚ) : ℝ) ∧ (fn = .exp2 ∨ fn = .exp ∨ fn = .sigm → n = false) ∧
      (fn = .sin ∨ fn = .cos ∨ fn = .tanh ∨ fn = .sigm → |finiteValue r| ≤ 1)

/-- A finite argument whose result Table 9 fixes. -/
def ExactPoint (fn : SpecialFn) (neg : Bool) (m : Nat) (e : Int) : Prop :=
  (fn = .exp2 ∧ (integerIn neg m e (-149) 127).isSome) ∨
    ((fn = .log2 ∨ fn = .log) ∧ m = 2 ^ Nat.log2 m ∧ (fn = .log2 ∨ leadExp m e = 0))

/-- What the range of a function says of a number in it. -/
theorem inRange_number {fn : SpecialFn} {n : Bool} {m : Nat} {e : Int} (h : inRange fn (.fin n m e) = true) :
    (fn = .exp2 ∨ fn = .exp ∨ fn = .sigm → n = false) ∧ (fn = .sin ∨ fn = .cos ∨ fn = .tanh ∨ fn = .sigm → |finiteValue (.fin n m e)| ≤ 1) := by
  have hneg : ((!(FVal.fin n m e).sign) = true) → n = false := fun h => by simpa [FVal.sign] using h
  have hone : finiteValue (.fin false 1 0) = 1 := by simp [finiteValue]
  have hbelow : fpLe (.fin n m e) (.fin false 1 0) = true → finiteValue (.fin n m e) ≤ 1 := fun h => by
    rw [fpLe_fin, hone] at h; exact h
  have hunit : (fpLe (.fin n m e) (.fin false 1 0) && fpLe (FVal.fin false 1 0).neg (.fin n m e)) = true → |finiteValue (.fin n m e)| ≤ 1 := fun h => by
    rw [Bool.and_eq_true, FVal.neg, fpLe_fin, fpLe_fin] at h
    refine abs_le.2 ⟨le_trans (le_of_eq ?_) h.2, hone ▸ h.1⟩
    simp [finiteValue]
  cases fn
  case exp2 => exact ⟨fun _ => hneg h, by simp⟩
  case exp => exact ⟨fun _ => hneg h, by simp⟩
  case log2 => exact ⟨by simp, by simp⟩
  case log => exact ⟨by simp, by simp⟩
  case sin => exact ⟨by simp, fun _ => hunit h⟩
  case cos => exact ⟨by simp, fun _ => hunit h⟩
  case tanh => exact ⟨by simp, fun _ => hunit h⟩
  case sigm =>
    obtain ⟨h1, h2⟩ := Bool.and_eq_true_iff.1 h
    have hn := hneg h1
    refine ⟨fun _ => hn, fun _ => ?_⟩
    subst hn
    rw [abs_of_nonneg (by simp only [finiteValue, Bool.false_eq_true, if_false]; positivity)]
    exact hbelow h2

/-- An admitted code meets the table. -/
theorem meets_of_mayBe {fn : SpecialFn} {neg : Bool} {m : Nat} {e : Int} {y : FVal} {v : ℝ} (hy : Stands fn y v)
    (hfin : (roundFp fp32 .rn y false).1 ≠ fp32.infCode) {code : Nat} (hcode : code < 2 ^ 32)
    (h : mayBe fn (.fin neg m e) y code = true) : Meets fn ((finiteValue (.fin neg m e) : ℚ) : ℝ) v (decodeFp fp32 code) := by
  have hlt : ulpBound fn (.fin neg m e) = none → ∀ n a g, y = .fin n a g → ((a + fixError : ℕ) : ℝ) * 2 ^ g < 2 ^ (128 : ℤ) := by
    rintro hb n a g rfl
    obtain ⟨-, -, -, -, hlt⟩ := hy.near_number hfin
    exact hlt
  obtain ⟨hrange, ⟨rn, rm, re, hd⟩, -⟩ := mayBe_number h
  obtain ⟨hsign, hunit⟩ := inRange_number (hd ▸ hrange)
  exact .inr ⟨rn, rm, re, hd, accurate_of_mayBe hy.computed hy.ne hlt hcode h, hsign, fun hfn => by rw [hd]; exact hunit hfn⟩

section

variable {fn : SpecialFn} {neg : Bool} {m : Nat} {e : Int} (h : Parts m e)
include h

theorem trueValue_size (hl : fn = .log2 ∨ fn = .log → neg = false ∧ finiteValue (.fin neg m e) ≠ 1) (h2 : fn ≠ .exp2) (he : fn ≠ .exp) :
    (roundFp fp32 .rn (trueValue fn neg m e) false).1 ≠ fp32.infCode := by
  obtain ⟨⟨n, a, g, hy, hnear, hf⟩, -, -, -, hbound⟩ := trueValue_stands h hl
  rw [hy] at hnear ⊢
  have hsize : (a : ℝ) * 2 ^ g ≤ 2 ^ (101 : ℤ) := by
    by_cases hm : a = 0
    · rw [hm, Nat.cast_zero, zero_mul]; positivity
    · refine (computed_size hf hm hnear (j := 100) (by decide) ?_).trans (by norm_num)
      exact_mod_cast hbound h2 he
  obtain ⟨k, hk, hr, -⟩ := near_number (n := n) hf (.inr hsize)
  rw [hr, signed_fp32]
  have h1 := maxCode_lt_infCode
  have h2 : fp32.infCode < 2 ^ 31 := by decide
  split <;> omega

/-- An open result meets the table for the value it stands for. -/
theorem openCase_meets {code : Nat} (hl : fn = .log2 ∨ fn = .log → neg = false ∧ finiteValue (.fin neg m e) ≠ 1) :
    Meets fn ((finiteValue (.fin neg m e) : ℚ) : ℝ) (fn.cutValue ((finiteValue (.fin neg m e) : ℚ) : ℝ))
      (decodeFp fp32 (openCase fn neg m e code).1) := by
  have hstands := trueValue_stands h hl
  by_cases hinf : (roundFp fp32 .rn (trueValue fn neg m e) false).1 = fp32.infCode
  · have hexp : fn = .exp2 ∨ fn = .exp := by
      by_contra hn
      obtain ⟨h2, he⟩ := not_or.1 hn
      exact trueValue_size h hl h2 he hinf
    rw [openCase_overflow hinf]
    refine .inl ⟨(by decide : decodeFp fp32 fp32.infCode = .inf false), hexp, ?_⟩
    obtain ⟨n, a, g, hy, hnear, hf⟩ := hstands.computed
    have hn : n = false := by
      have := hstands.sign (hexp.imp_right .inl)
      rw [hy] at this; exact this
    subst hn
    rw [hy] at hinf hnear
    have htop := near_inf hf hinf
    have hmag := (abs_le.1 (computed_mag hnear)).2
    simp only [signOf, Bool.false_eq_true, if_false, Int.cast_one, one_mul] at hmag
    have herr : (4500 : ℝ) * 2 ^ g ≤ fixError * 2 ^ g := mul_le_mul_of_nonneg_right (by simp only [fixError]; norm_num) (by positivity)
    linarith
  · rw [openCase_number hinf]
    obtain ⟨n, a, g, hy⟩ := trueValue_fin fn neg m e
    have hlt : openResult fn (.fin neg m e) (trueValue fn neg m e) code (roundFp fp32 .rn (trueValue fn neg m e) false).1 < 2 ^ 32 := by
      rw [hy]; exact openResult_lt
    refine meets_of_mayBe hstands hinf hlt ?_
    rcases openResult_cases fn (.fin neg m e) (trueValue fn neg m e) code (roundFp fp32 .rn (trueValue fn neg m e) false).1 with
      hr | ⟨-, hr, -⟩ | ⟨-, c, hc, hr⟩
    · rw [hr]; exact near_mayBe hstands hinf
    · exact hr
    · rw [hr]; exact (admitted_mem hc).2.2

end

section

variable {fn : SpecialFn} {code : Nat} {neg : Bool} {m : Nat} {e : Int} (hd : decodeFp fp32 code = .fin neg m e) (hm : m ≠ 0)
include hd hm

theorem special32_open (hl : fn = .log2 ∨ fn = .log → neg = false) (hx : ¬ExactPoint fn neg m e) : special32 fn code = openCase fn neg m e code := by
  obtain ⟨h1, h2⟩ := not_or.1 hx
  rw [special32_fin hd hm, if_neg (fun h => by simp [hl h.1] at h), if_neg h1, if_neg h2]

omit hd hm in
theorem value_ne_one (hl : fn = .log2 ∨ fn = .log) (hx : ¬ExactPoint fn neg m e) : finiteValue (.fin neg m e) ≠ 1 := fun h => by
  obtain ⟨-, -, hp, hlead⟩ := power_of_two (n := 0) (by rw [h, zpow_zero])
  exact hx (.inr ⟨hl, hp, .inr hlead⟩)

end

/-! ## Exact points -/

theorem faithful_self (r : ℝ) : Faithful r r := fun _ _ _ _ _ _ => ⟨fun _ h => h, fun _ h => h⟩

theorem nearUlps_self {n : ℕ} (r : ℝ) : NearUlps n r r := by
  refine ⟨id, fun h => ?_⟩
  obtain ⟨k, h1, h2⟩ := exists_mem_Ico_zpow (abs_pos.2 h) (one_lt_two (α := ℝ))
  exact ⟨k, h1, h2, by rw [sub_self, abs_zero]; positivity⟩

theorem power_value {m : Nat} {e : Int} (h : m = 2 ^ Nat.log2 m) : finiteValue (.fin false m e) = (2 : ℚ) ^ leadExp m e := by
  simp only [finiteValue, Bool.false_eq_true, if_false]
  rw [leadExp, add_comm, zpow_add₀ two_ne_zero, zpow_natCast]
  rw [one_mul]
  congr 1
  exact_mod_cast h

/-- A code of an integer value is a number. -/
theorem number_of_exactOf {x : FVal} {n : ℚ} (h : exactOf x = .ofRat n false) : ∃ s m e, x = .fin s m e ∧ finiteValue x = n := by
  cases x with
  | nan s => exact absurd h (by rw [exactOf, Exact.ofRat]; split <;> simp)
  | inf s => exact absurd h (by rw [exactOf, Exact.ofRat]; split <;> simp)
  | fin s m e =>
    refine ⟨s, m, e, rfl, ?_⟩
    rw [exactOf_fin] at h
    unfold Exact.ofRat at h
    split at h <;> split at h <;> simp_all

section

variable {fn : SpecialFn} {code : Nat} {neg : Bool} {m : Nat} {e : Int} (hd : decodeFp fp32 code = .fin neg m e) (hm : m ≠ 0)
include hd hm

theorem exactPoint_exp2 (hi : (integerIn neg m e (-149) 127).isSome) : ∃ a g,
    decodeFp fp32 (special32 .exp2 code).1 = .fin false a g ∧
      ((finiteValue (.fin false a g) : ℚ) : ℝ) = (2 : ℝ) ^ ((finiteValue (.fin neg m e) : ℚ) : ℝ) := by
  obtain ⟨n, hn⟩ := Option.isSome_iff_exists.1 hi
  obtain ⟨hv, h1, h2⟩ := value_of_integerIn hn
  obtain ⟨a, g, hda, hva⟩ := decode_rne32_pow h1 h2
  refine ⟨a, g, ?_, ?_⟩
  · rw [special32_exp2 hd hm, if_pos hi, hn]; exact hda
  · rw [hva, hv, Rat.cast_intCast, Real.rpow_intCast]; push_cast; rfl

theorem exactPoint_log (hl : fn = .log2 ∨ fn = .log) (hneg : neg = false) (hp : m = 2 ^ Nat.log2 m) (h1 : fn = .log2 ∨ leadExp m e = 0) :
    ∃ s a g, decodeFp fp32 (special32 fn code).1 = .fin s a g ∧ finiteValue (.fin s a g) = leadExp m e := by
  have hs : special32 fn code = (rne32 (fvalOfInt (leadExp m e)), 0) := by
    rw [special32_fin hd hm, if_neg (fun h => by simp [hneg] at h), if_neg, if_pos ⟨hl, hp, h1⟩]
    rintro ⟨rfl, -⟩
    simp at hl
  have hparts := Parts.of_decode hd hm
  have hlead : |leadExp m e| < 2 ^ 24 := by
    have h1 := hparts.lead
    have h2 := hparts.exp
    have h3 : e ≤ leadExp m e := by rw [leadExp]; omega
    rw [abs_lt]; constructor <;> omega
  obtain ⟨s, a, g, hx, hv⟩ := number_of_exactOf (decode_rne32_int hlead)
  refine ⟨s, a, g, by rw [hs]; exact hx, ?_⟩
  rw [← hx]; exact hv

theorem exactPoint_meets (hl : fn = .log2 ∨ fn = .log → neg = false) (hx : ExactPoint fn neg m e) {y : ℝ}
    (hy : fn.Is ((finiteValue (.fin neg m e) : ℚ) : ℝ) y) :
    Meets fn ((finiteValue (.fin neg m e) : ℚ) : ℝ) y (decodeFp fp32 (special32 fn code).1) := by
  rcases hx with ⟨rfl, hi⟩ | ⟨hfn, hp, h1⟩
  · obtain ⟨a, g, hda, hva⟩ := exactPoint_exp2 hd hm hi
    rw [hda]
    refine .inr ⟨false, a, g, rfl, ?_, fun _ => rfl, by simp⟩
    rw [hva, (hy : y = _)]
    exact faithful_self _
  · have hneg := hl hfn
    obtain ⟨s, a, g, hda, hva⟩ := exactPoint_log hd hm hfn hneg hp h1
    have hx2 : ((finiteValue (.fin neg m e) : ℚ) : ℝ) = (2 : ℝ) ^ leadExp m e := by
      rw [hneg, power_value hp, Rat.cast_zpow, Rat.cast_ofNat]
    rw [hda]
    refine .inr ⟨s, a, g, rfl, ?_, by rcases hfn with rfl | rfl <;> simp, by rcases hfn with rfl | rfl <;> simp⟩
    rw [hva]
    rcases hfn with rfl | rfl
    · have : y = leadExp m e := by
        rw [(hy : y = _), hx2, ← Real.rpow_intCast, Real.logb_rpow_eq_mul_logb_of_pos two_pos, Real.logb_self_eq_one one_lt_two, mul_one]
      rw [this]
      exact_mod_cast faithful_self ((leadExp m e : ℤ) : ℝ)
    · have h0 : leadExp m e = 0 := by simpa using h1
      have : y = 0 := by
        rw [(hy : y = _), hx2, h0, zpow_zero, Real.log_one]
      rw [this, h0]
      exact_mod_cast nearUlps_self (n := 2) (0 : ℝ)

end

end Sys2Proof.Machine

namespace Sys2Proof.Machine

/-! # Arguments beyond the cut, and the first clause of Table 9 (R63) -/

theorem magValue_small {k : Nat} (hk : k < 2 ^ 23) : ((fp32.magValue k : ℚ) : ℝ) = k * 2 ^ (-149 : ℤ) := by
  have h0 : k / 2 ^ fp32.frac = 0 := Nat.div_eq_of_lt hk
  rw [FpFmt.magValue, if_pos h0, (by decide : fp32.qmin = -149), Rat.cast_mul, Rat.cast_natCast, Rat.cast_zpow, Rat.cast_ofNat]

/-- A number below the normal range has the smallest ulp. -/
theorem nearUlps_small {n : ℕ} {r y : ℝ} (h0 : 0 < y) (h1 : y < 2 ^ (-126 : ℤ)) (h : |r - y| ≤ n * 2 ^ (-149 : ℤ)) : NearUlps n r y := by
  refine ⟨fun h => absurd h h0.ne', fun _ => ?_⟩
  obtain ⟨k, hk1, hk2⟩ := exists_mem_Ico_zpow (abs_pos.2 h0.ne') (one_lt_two (α := ℝ))
  have hk : k < -126 := by
    rw [abs_of_pos h0] at hk1
    exact (zpow_lt_zpow_iff_right₀ (one_lt_two (α := ℝ))).1 (hk1.trans_lt h1)
  refine ⟨k, hk1, hk2, ?_⟩
  rw [max_eq_right hk.le]
  exact h

/-- The smallest codes. -/
theorem decode_small {k : Nat} (hk : k < 2 ^ 23) :
    ∃ a g, decodeFp fp32 k = .fin false a g ∧ ((finiteValue (.fin false a g) : ℚ) : ℝ) = k * 2 ^ (-149 : ℤ) := by
  have hmax : k ≤ fp32.maxCode := hk.le.trans (by decide)
  obtain ⟨a, g, hd, hv⟩ := decodeFp_finite regular_fp32 false hmax
  rw [signed_fp32, if_neg (by decide), Nat.zero_add] at hd
  refine ⟨a, g, hd, ?_⟩
  rw [cast_finiteValue, ← magValue_small hk, ← hv]
  simp [signOf]

section

variable {code : Nat} {neg : Bool} {m : Nat} {e : Int} (hd : decodeFp fp32 code = .fin neg m e)
include hd

theorem exp2_beyond (h : 256 < |finiteValue (.fin neg m e)|) :
    Meets .exp2 ((finiteValue (.fin neg m e) : ℚ) : ℝ) (2 ^ ((finiteValue (.fin neg m e) : ℚ) : ℝ)) (decodeFp fp32 (special32 .exp2 code).1) := by
  rcases lt_abs.1 h with hx | hx
  · rw [exp2_above hd (by linarith)]
    refine .inl ⟨by decide, .inl rfl, ?_⟩
    have : (128 : ℝ) ≤ ((finiteValue (.fin neg m e) : ℚ) : ℝ) := by exact_mod_cast (by linarith : (128 : ℚ) ≤ finiteValue (.fin neg m e))
    calc (fp32.top : ℝ) < 2 ^ (128 : ℝ) := by simp only [FpFmt.top, fp32]; norm_num
      _ ≤ _ := Real.rpow_le_rpow_of_exponent_le one_le_two this
  · obtain ⟨hle, -⟩ := exp2_below hd (by linarith)
    obtain ⟨a, g, ha, hv⟩ := decode_small (k := (special32 .exp2 code).1) (by omega)
    rw [ha]
    refine .inr ⟨false, a, g, rfl, ?_, fun _ => rfl, by simp⟩
    have hy : (2 : ℝ) ^ ((finiteValue (.fin neg m e) : ℚ) : ℝ) < 2 ^ (-149 : ℤ) := by
      rw [← Real.rpow_intCast]
      refine Real.rpow_lt_rpow_of_exponent_lt one_lt_two ?_
      exact_mod_cast (by push_cast; linarith : finiteValue (.fin neg m e) < ((-149 : ℤ) : ℚ))
    have hy0 : (0 : ℝ) < 2 ^ ((finiteValue (.fin neg m e) : ℚ) : ℝ) := Real.rpow_pos_of_pos two_pos _
    have hc : ((finiteValue (.fin false a g) : ℚ) : ℝ) = (placeValue ((special32 .exp2 code).1 : ℤ) : ℚ) := by
      rw [hv, placeValue_natCast, magValue_small (by omega)]
    have h1 : ((placeValue 1 : ℚ) : ℝ) = 2 ^ (-149 : ℤ) := by
      rw [show (1 : ℤ) = ((1 : ℕ) : ℤ) from rfl, placeValue_natCast, magValue_small (by decide), Nat.cast_one, one_mul]
    have h0 : ((placeValue 0 : ℚ) : ℝ) = 0 := by
      rw [show (0 : ℤ) = ((0 : ℕ) : ℤ) from rfl, placeValue_natCast, magValue_zero, Rat.cast_zero]
    rw [hc]
    refine faithful_of_between (lt_of_le_of_lt ?_ hy0) (hy.trans_le ?_)
    · rw [← h0, Rat.cast_le]; exact placeValue_mono (by omega)
    · rw [← h1, Rat.cast_le]; exact placeValue_mono (by omega)

theorem exp_beyond (h : 256 < |finiteValue (.fin neg m e)|) :
    Meets .exp ((finiteValue (.fin neg m e) : ℚ) : ℝ) (Real.exp ((finiteValue (.fin neg m e) : ℚ) : ℝ)) (decodeFp fp32 (special32 .exp code).1) := by
  have hexp1 : (2 : ℝ) ≤ Real.exp 1 := by linarith [Real.add_one_le_exp (1 : ℝ)]
  have hexp : ∀ n : ℕ, (2 : ℝ) ^ n ≤ Real.exp n := fun n => by
    rw [← mul_one (n : ℝ), Real.exp_nat_mul]; exact pow_le_pow_left₀ (by norm_num) hexp1 n
  rcases lt_abs.1 h with hx | hx
  · rw [exp_above hd (by linarith)]
    refine .inl ⟨by decide, .inr rfl, ?_⟩
    have : ((256 : ℕ) : ℝ) ≤ ((finiteValue (.fin neg m e) : ℚ) : ℝ) := by exact_mod_cast hx.le
    calc (fp32.top : ℝ) < 2 ^ 256 := by simp only [FpFmt.top, fp32]; norm_num
      _ ≤ Real.exp (256 : ℕ) := hexp 256
      _ ≤ _ := Real.exp_le_exp.2 this
  · obtain ⟨hle, -⟩ := exp_below hd (by linarith)
    obtain ⟨a, g, ha, hv⟩ := decode_small (k := (special32 .exp code).1) (by omega)
    rw [ha]
    refine .inr ⟨false, a, g, rfl, ?_, fun _ => rfl, by simp⟩
    have hy0 := Real.exp_pos ((finiteValue (.fin neg m e) : ℚ) : ℝ)
    have hy : Real.exp ((finiteValue (.fin neg m e) : ℚ) : ℝ) ≤ 2 ^ (-149 : ℤ) := by
      have h1 : ((149 : ℕ) : ℝ) ≤ -((finiteValue (.fin neg m e) : ℚ) : ℝ) := by
        exact_mod_cast (by linarith : (149 : ℚ) ≤ -finiteValue (.fin neg m e))
      have h2 := (hexp 149).trans (Real.exp_le_exp.2 h1)
      rw [Real.exp_neg] at h2
      have h3 := inv_anti₀ (by positivity) h2
      rw [inv_inv] at h3
      exact h3.trans (by norm_num)
    refine nearUlps_small hy0 (hy.trans_lt (zpow_lt_zpow_right₀ one_lt_two (by decide))) ?_
    have hk : (((special32 .exp code).1 : ℕ) : ℝ) ≤ 2 := by exact_mod_cast hle
    have hu : (0 : ℝ) < 2 ^ (-149 : ℤ) := by positivity
    have hr0 : (0 : ℝ) ≤ ((special32 .exp code).1 : ℕ) * 2 ^ (-149 : ℤ) := by positivity
    have hr1 := mul_le_mul_of_nonneg_right hk hu.le
    rw [hv, abs_le]
    push_cast
    constructor <;> linarith

end

/-- The places from a little below 1 up to it. -/
theorem magValue_below_one : fp32.magValue 0x3F7FFFFD = 1 - 3 * 2 ^ (-24 : ℤ) ∧ fp32.magValue 0x3F7FFFFE = 1 - 2 * 2 ^ (-24 : ℤ) := by
  constructor <;> simp only [FpFmt.magValue, FpFmt.qmin, fp32, reduceCtorEq, if_false] <;> norm_num

theorem exp_neg_small {v : ℝ} (h : 256 ≤ v) : Real.exp (-v) ≤ 2 ^ (-200 : ℤ) := by
  have h1 : (2 : ℝ) ≤ Real.exp 1 := by linarith [Real.add_one_le_exp (1 : ℝ)]
  have h2 : (2 : ℝ) ^ 256 ≤ Real.exp v := by
    refine (pow_le_pow_left₀ (by norm_num) h1 256).trans ?_
    rw [← Real.exp_nat_mul, mul_one]
    exact Real.exp_le_exp.2 (by exact_mod_cast h)
  rw [Real.exp_neg]
  exact (inv_anti₀ (by positivity) h2).trans (by norm_num)

/-- Far above 0 the sigmoid is 1, but for little. -/
theorem sigm_large {v : ℝ} (h : 256 ≤ v) : 1 - (2 : ℝ) ^ (-200 : ℤ) ≤ 1 / (1 + Real.exp (-v)) ∧ 1 / (1 + Real.exp (-v)) < 1 := by
  have h0 := Real.exp_pos (-v)
  have h1 := exp_neg_small h
  constructor
  · rw [le_div_iff₀ (by linarith)]
    nlinarith
  · rw [div_lt_one (by linarith)]; linarith

/-- Far below 0 it is 0, but for little. -/
theorem sigm_small {v : ℝ} (h : v ≤ -256) : 0 < 1 / (1 + Real.exp (-v)) ∧ 1 / (1 + Real.exp (-v)) ≤ 2 ^ (-200 : ℤ) := by
  have h0 := Real.exp_pos (-v)
  have h1 := exp_neg_small (v := -v) (by linarith)
  rw [neg_neg] at h1
  refine ⟨one_div_pos.2 (by linarith), le_trans ?_ h1⟩
  rw [div_le_iff₀ (by linarith), mul_add, mul_one, ← Real.exp_add, add_neg_cancel, Real.exp_zero]
  linarith [Real.exp_pos v]

/-- An ulp of a number from 1/2 to 1. -/
theorem nearUlps_below_one {r y : ℝ} (h1 : 1 / 2 ≤ y) (h2 : y < 1) : NearUlps 2 r y ↔ |r - y| ≤ 2 * 2 ^ (-24 : ℤ) := by
  have h0 : y ≠ 0 := by linarith
  have hy : |y| = y := abs_of_pos (by linarith)
  have hlow : (2 : ℝ) ^ (-1 : ℤ) ≤ |y| := by rw [hy]; norm_num; linarith
  have hhigh : |y| < (2 : ℝ) ^ ((-1 : ℤ) + 1) := by rw [hy]; simpa using h2
  constructor
  · rintro ⟨-, h⟩
    obtain ⟨k, hk1, hk2, hk3⟩ := h h0
    have a1 := (zpow_lt_zpow_iff_right₀ (one_lt_two (α := ℝ))).1 (hk1.trans_lt hhigh)
    have a2 := (zpow_lt_zpow_iff_right₀ (one_lt_two (α := ℝ))).1 (hlow.trans_lt hk2)
    obtain rfl : k = -1 := by omega
    exact hk3
  · exact fun h => ⟨fun h => absurd h h0, fun _ => ⟨-1, hlow, hhigh, h⟩⟩

theorem nearUlps_tiny {n : ℕ} {r y : ℝ} (h0 : 0 < y) (h1 : y ≤ 2 ^ (-200 : ℤ)) (h : NearUlps n r y) : |r - y| ≤ n * 2 ^ (-149 : ℤ) := by
  obtain ⟨k, hk1, hk2, hk3⟩ := h.2 h0.ne'
  rw [abs_of_pos h0] at hk1
  have := (zpow_le_zpow_iff_right₀ (one_lt_two (α := ℝ))).1 (hk1.trans h1)
  rwa [max_eq_right (by omega)] at hk3

/-- Moving the true value a little, at the top of the range, keeps a place within its ulps. -/
theorem nearUlps_top {c : Int} {v y : ℝ} (hone : placeValue c ≤ 1) (hv1 : 1 - (2 : ℝ) ^ (-200 : ℤ) ≤ v) (hv2 : v < 1)
    (hy1 : 1 - (2 : ℝ) ^ (-200 : ℤ) ≤ y) (hy2 : y < 1) (h : NearUlps 2 ((placeValue c : ℚ) : ℝ) v) :
    NearUlps 2 ((placeValue c : ℚ) : ℝ) y := by
  have hsmall : (2 : ℝ) ^ (-200 : ℤ) < 2 ^ (-24 : ℤ) := zpow_lt_zpow_right₀ one_lt_two (by decide)
  have h24 : (2 : ℝ) ^ (-24 : ℤ) < 1 / 2 := by norm_num
  have hb1 : ((fp32.magValue 0x3F7FFFFD : ℚ) : ℝ) = 1 - 3 * 2 ^ (-24 : ℤ) := by rw [magValue_below_one.1]; push_cast; rfl
  have hb2 : ((fp32.magValue 0x3F7FFFFE : ℚ) : ℝ) = 1 - 2 * 2 ^ (-24 : ℤ) := by rw [magValue_below_one.2]; push_cast; rfl
  generalize (2 : ℝ) ^ (-200 : ℤ) = d at *
  have hd := hsmall.trans h24
  rw [nearUlps_below_one (by linarith only [hv1, hd]) hv2] at h
  rw [nearUlps_below_one (by linarith only [hy1, hd]) hy2]
  generalize (2 : ℝ) ^ (-24 : ℤ) = u at *
  have hlow : fp32.magValue 0x3F7FFFFD < placeValue c := by
    rw [← Rat.cast_lt (K := ℝ), hb1]
    linarith [(abs_le.1 h).1]
  rw [← placeValue_natCast, placeValue_strictMono.lt_iff_lt] at hlow
  have hge : fp32.magValue 0x3F7FFFFE ≤ placeValue c := by rw [← placeValue_natCast]; exact placeValue_mono (by omega)
  rw [← Rat.cast_le (K := ℝ), hb2] at hge
  have hle : ((placeValue c : ℚ) : ℝ) ≤ 1 := by exact_mod_cast hone
  rw [abs_le]
  constructor <;> linarith

/-- The same at the bottom of it. -/
theorem nearUlps_bottom {c : Int} {v y : ℝ} (h0 : 0 ≤ placeValue c) (hv1 : 0 < v) (hv2 : v ≤ 2 ^ (-200 : ℤ))
    (hy1 : 0 < y) (hy2 : y ≤ 2 ^ (-200 : ℤ)) (h : NearUlps 2 ((placeValue c : ℚ) : ℝ) v) : NearUlps 2 ((placeValue c : ℚ) : ℝ) y := by
  have hsmall : (2 : ℝ) ^ (-200 : ℤ) < 2 ^ (-149 : ℤ) := zpow_lt_zpow_right₀ one_lt_two (by decide)
  have h := nearUlps_tiny hv1 hv2 h
  refine nearUlps_small hy1 (hy2.trans_lt (zpow_lt_zpow_right₀ one_lt_two (by decide))) ?_
  have hb2 := magValue_small (k := 2) (by decide)
  have hb3 := magValue_small (k := 3) (by decide)
  generalize (2 : ℝ) ^ (-200 : ℤ) = d at *
  generalize (2 : ℝ) ^ (-149 : ℤ) = u at *
  push_cast at h hb2 hb3 ⊢
  have hlow : placeValue c < fp32.magValue 3 := by
    rw [← Rat.cast_lt (K := ℝ), hb3]
    linarith [(abs_le.1 h).2]
  rw [← placeValue_natCast, placeValue_strictMono.lt_iff_lt] at hlow
  have hle : placeValue c ≤ fp32.magValue 2 := by rw [← placeValue_natCast]; exact placeValue_mono (by push_cast at hlow ⊢; omega)
  rw [← Rat.cast_le (K := ℝ), hb2] at hle
  have h0 : (0 : ℝ) ≤ (placeValue c : ℚ) := by exact_mod_cast h0
  rw [abs_le]
  constructor <;> linarith

theorem sigm_beyond {code : Nat} {neg : Bool} {m : Nat} {e : Int} (hd : decodeFp fp32 code = .fin neg m e) (hm : m ≠ 0) (hcode : code < 2 ^ 32)
    (h : 256 < |finiteValue (.fin neg m e)|) :
    Meets .sigm ((finiteValue (.fin neg m e) : ℚ) : ℝ) (1 / (1 + Real.exp (-((finiteValue (.fin neg m e) : ℚ) : ℝ))))
      (decodeFp fp32 (special32 .sigm code).1) := by
  have hopen := openCase_meets (fn := .sigm) (neg := neg) (Parts.of_decode hd hm) (code := code) (by simp)
  rw [← special32_open hd hm (by simp) (by simp [ExactPoint])] at hopen
  rcases hopen with ⟨-, h2, -⟩ | ⟨n, a, g, hr, hacc, hn, hone⟩
  · simp at h2
  refine .inr ⟨n, a, g, hr, ?_, hn, hone⟩
  obtain ⟨-, -, hplace, -⟩ := code_place (special32_lt hcode) hr
  have hr0 : 0 ≤ finiteValue (.fin n a g) := by
    rw [hn (.inr (.inr rfl))]; simp only [finiteValue, Bool.false_eq_true, if_false]; positivity
  have hle : finiteValue (.fin n a g) ≤ 1 := by
    have := hone (.inr (.inr (.inr rfl)))
    rw [hr] at this
    exact (abs_le.1 this).2
  have hacc : NearUlps 2 _ (1 / (1 + Real.exp (-cutArg ((finiteValue (.fin neg m e) : ℚ) : ℝ)))) := hacc
  show NearUlps 2 _ _
  rw [hr] at hacc ⊢
  rw [hplace] at hacc hr0 hle ⊢
  rcases lt_abs.1 h with hx | hx
  · have hxR : (256 : ℝ) < ((finiteValue (.fin neg m e) : ℚ) : ℝ) := by exact_mod_cast hx
    rw [cutArg, min_eq_left hxR.le, max_eq_right (by norm_num)] at hacc
    obtain ⟨c1, c2⟩ := sigm_large (le_refl (256 : ℝ))
    obtain ⟨y1, y2⟩ := sigm_large hxR.le
    exact nearUlps_top hle c1 c2 y1 y2 hacc
  · have hxR : ((finiteValue (.fin neg m e) : ℚ) : ℝ) < -256 := by
      have : (256 : ℝ) < -((finiteValue (.fin neg m e) : ℚ) : ℝ) := by exact_mod_cast hx
      linarith
    rw [cutArg, min_eq_right (by linarith), max_eq_left hxR.le] at hacc
    obtain ⟨c1, c2⟩ := sigm_small (le_refl (-256 : ℝ))
    obtain ⟨y1, y2⟩ := sigm_small hxR.le
    exact nearUlps_bottom hr0 c1 c2 y1 y2 hacc

/-- Each finite argument's result meets Table 9. -/
theorem special32_meets {fn : SpecialFn} {code : Nat} {neg : Bool} {m : Nat} {e : Int} (hcode : code < 2 ^ 32)
    (hd : decodeFp fp32 code = .fin neg m e) (hm : m ≠ 0) (hl : fn = .log2 ∨ fn = .log → neg = false) {y : ℝ}
    (hy : fn.Is ((finiteValue (.fin neg m e) : ℚ) : ℝ) y) :
    Meets fn ((finiteValue (.fin neg m e) : ℚ) : ℝ) y (decodeFp fp32 (special32 fn code).1) := by
  by_cases hx : ExactPoint fn neg m e
  · exact exactPoint_meets hd hm hl hx hy
  · by_cases hcut : fn = .exp2 ∨ fn = .exp ∨ fn = .sigm → |finiteValue (.fin neg m e)| ≤ 256
    · rw [hy.eq_cutValue (by exact_mod_cast hcut), special32_open hd hm hl hx]
      exact openCase_meets (Parts.of_decode hd hm) fun hfn => ⟨hl hfn, value_ne_one hfn hx⟩
    · obtain ⟨hfn, hbig⟩ := Classical.not_imp.1 hcut
      have hbig := not_le.1 hbig
      rcases hfn with rfl | rfl | rfl
      · rw [(hy : y = _)]; exact exp2_beyond hd hbig
      · rw [(hy : y = _)]; exact exp_beyond hd hbig
      · rw [(hy : y = _)]; exact sigm_beyond hd hm hcode hbig

end Sys2Proof.Machine

namespace Sys2Proof.Machine

/-! # The cuts choose monotonically (R63) -/

/-- What the cuts choose from a rising list: the greatest whose cut has been reached, or the least. -/
theorem foldl_cut {p : Int → Bool} {l : List Int} : ∀ {a : Int}, (a :: l).Pairwise (· < ·) →
    let r := l.foldl (fun r c => if p c then c else r) a
    (r = a ∨ p r = true) ∧ a ≤ r ∧ ∀ d ∈ l, r < d → p d = false := by
  induction l with
  | nil => exact fun _ => ⟨.inl rfl, le_rfl, by simp⟩
  | cons b l ih =>
    intro a h
    obtain ⟨ha, hbl⟩ := List.pairwise_cons.1 h
    obtain ⟨hb, hl⟩ := List.pairwise_cons.1 hbl
    have hab := ha b (List.mem_cons_self ..)
    simp only [List.foldl_cons]
    cases hp : p b
    · obtain ⟨h1, h2, h3⟩ := ih (a := a) (List.pairwise_cons.2 ⟨fun c hc => ha c (List.mem_cons_of_mem _ hc), hl⟩)
      refine ⟨h1, h2, fun d hd hlt => ?_⟩
      rcases List.mem_cons.1 hd with rfl | hd
      · exact hp
      · exact h3 d hd hlt
    · obtain ⟨h1, h2, h3⟩ := ih (a := b) hbl
      refine ⟨h1.elim (fun h => .inr ?_) .inr, hab.le.trans h2, fun d hd hlt => ?_⟩
      · simp only [if_true]; rw [h]; exact hp
      · rcases List.mem_cons.1 hd with rfl | hd
        · exact absurd hlt (not_lt.2 h2)
        · exact h3 d hd hlt

/-- The outputs admitted at two inputs: where one of the lower lies above one of the higher, each is admitted at both. -/
def Crosses {α : Type} [LT α] (P Q : α → Prop) : Prop := ∀ c c', P c → Q c' → c' < c → Q c ∧ P c'

theorem Crosses.and {α : Type} [LT α] {P Q P' Q' : α → Prop} (h : Crosses P Q) (h' : Crosses P' Q') :
    Crosses (fun c => P c ∧ P' c) fun c => Q c ∧ Q' c := by
  rintro c c' ⟨h1, h2⟩ ⟨h3, h4⟩ hlt
  obtain ⟨a, b⟩ := h c c' h1 h3 hlt
  obtain ⟨a', b'⟩ := h' c c' h2 h4 hlt
  exact ⟨⟨a, a'⟩, b, b'⟩

theorem Crosses.same {α : Type} [LT α] (P : α → Prop) : Crosses P P := fun _ _ h h' _ => ⟨h, h'⟩

theorem Crosses.of_below {P Q : Int → Prop} {v : Int} (hP : ∀ c, P c → c ≤ v) (hQ : ∀ c, Q c → v ≤ c) : Crosses P Q :=
  fun c c' h h' hlt => by have := hP c h; have := hQ c' h'; omega

/-- Outputs chosen at a later input are not below. -/
theorem chosen_le {cut : Int → Int} {i i' : Int} (hi : i ≤ i') {a b : Int} {l l' : List Int} (hl : (a :: l).Pairwise (· < ·))
    (hl' : (b :: l').Pairwise (· < ·)) (hx : Crosses (· ∈ a :: l) (· ∈ b :: l')) :
    l.foldl (fun r c => if cut c ≤ i then c else r) a ≤ l'.foldl (fun r c => if cut c ≤ i' then c else r) b := by
  have hmem := foldl_cut_mem (fun c => decide (cut c ≤ i)) l a
  have hmem' := foldl_cut_mem (fun c => decide (cut c ≤ i')) l' b
  obtain ⟨h1, -, -⟩ := foldl_cut (p := fun c => decide (cut c ≤ i)) hl
  obtain ⟨-, h2', h3'⟩ := foldl_cut (p := fun c => decide (cut c ≤ i')) hl'
  simp only [decide_eq_true_eq, decide_eq_false_iff_not] at hmem hmem' h1 h2' h3'
  generalize l.foldl (fun r c => if cut c ≤ i then c else r) a = r at *
  generalize l'.foldl (fun r c => if cut c ≤ i' then c else r) b = r' at *
  by_contra hlt
  have hlt := not_le.1 hlt
  obtain ⟨hr, hr'⟩ := hx r r' hmem hmem' hlt
  have hne : r ≠ a := by
    rintro rfl
    rcases List.mem_cons.1 hr' with h | h
    · omega
    · have := (List.pairwise_cons.1 hl).1 r' h; omega
  have hcut := h1.resolve_left hne
  have hrl : r ∈ l' := by
    rcases List.mem_cons.1 hr with h | h
    · omega
    · exact h
  exact h3' r hrl hlt (hcut.trans hi)

/-- The admitted outputs rise. -/
theorem admitted_pairwise (fn : SpecialFn) (x y : FVal) (i : Int) (near : Nat) : (admitted fn x y i near).Pairwise (· < ·) := by
  unfold admitted
  refine ((List.Pairwise.filter _ ?_).filter _).filter _
  refine List.Pairwise.map _ (fun a b h => ?_) List.pairwise_lt_range
  omega

/-- What is admitted at a place. -/
def Admits (fn : SpecialFn) (x y : FVal) (i near : Int) (c : Int) : Prop :=
  (near - 8 ≤ c ∧ c ≤ near + 8) ∧ mayBe fn x y (fpAtPlace y.sign c) = true ∧
    (if (ulpBound fn x).isSome then leastMagnitude fn i y else 0) ≤ c.natAbs ∧
    ∀ i0 v0, fn.pin = some (i0, v0) → if i > i0 then v0 ≤ c else c ≤ v0

theorem mem_admitted {fn : SpecialFn} {x y : FVal} {i : Int} {near : Nat} {c : Int} :
    c ∈ admitted fn x y i near ↔ Admits fn x y i (fpPlace near) c := by
  unfold admitted Admits
  simp only [List.mem_filter, List.mem_map, List.mem_range, decide_eq_true_eq]
  have hpin : (match fn.pin with | some (i0, v0) => if i > i0 then decide (v0 ≤ c) else decide (c ≤ v0) | none => true) = true ↔
      ∀ i0 v0, fn.pin = some (i0, v0) → if i > i0 then v0 ≤ c else c ≤ v0 := by
    cases fn.pin with
    | none => simp
    | some p =>
      obtain ⟨i0, v0⟩ := p
      have hsplit : ((if i > i0 then decide (v0 ≤ c) else decide (c ≤ v0)) = true) ↔ if i > i0 then v0 ≤ c else c ≤ v0 := by
        split <;> exact decide_eq_true_iff
      refine hsplit.trans ⟨fun h a b hab => ?_, fun h => h i0 v0 rfl⟩
      cases hab
      exact h
  have hwin : (∃ a : ℕ, a < 17 ∧ fpPlace near - 8 + (a : ℤ) = c) ↔ fpPlace near - 8 ≤ c ∧ c ≤ fpPlace near + 8 :=
    ⟨by rintro ⟨a, h, rfl⟩; omega, fun h => ⟨(c - (fpPlace near - 8)).toNat, by omega, by omega⟩⟩
  rw [hwin]
  constructor
  · rintro ⟨⟨⟨h1, h2⟩, h3⟩, h4⟩
    exact ⟨h1, h2, h3, hpin.1 h4⟩
  · rintro ⟨h1, h2, h3, h4⟩
    exact ⟨⟨⟨h1, h2⟩, h3⟩, hpin.2 h4⟩

/-- A monotonic result is admitted, where anything is. -/
theorem monotonicAt_admits {fn : SpecialFn} {x y : FVal} {i : Int} {near : Nat} {c : Int} (h : Admits fn x y i (fpPlace near) c) :
    ∃ d, Admits fn x y i (fpPlace near) d ∧ monotonicAt fn x y i near = fpAtPlace y.sign d ∧
      ∃ a l, admitted fn x y i near = a :: l ∧ d = l.foldl (fun r c => if Config.specialCut fn.number c ≤ i then c else r) a := by
  cases hl : admitted fn x y i near with
  | nil => rw [← mem_admitted, hl] at h; cases h
  | cons a l =>
    refine ⟨_, ?_, ?_, a, l, rfl, rfl⟩
    · rw [← mem_admitted, hl]
      have := foldl_cut_mem (fun c => decide (Config.specialCut fn.number c ≤ i)) l a
      simp only [decide_eq_true_eq] at this
      exact this
    · unfold monotonicAt
      rw [hl]

/-- Two monotonic results, by place. -/
theorem monotonicAt_le {fn : SpecialFn} {x x' y y' : FVal} {i i' : Int} {near near' : Nat} (hi : i ≤ i') {c c' : Int}
    (h : Admits fn x y i (fpPlace near) c) (h' : Admits fn x' y' i' (fpPlace near') c')
    (hx : Crosses (Admits fn x y i (fpPlace near)) (Admits fn x' y' i' (fpPlace near'))) :
    ∃ d d', Admits fn x y i (fpPlace near) d ∧ Admits fn x' y' i' (fpPlace near') d' ∧ d ≤ d' ∧
      monotonicAt fn x y i near = fpAtPlace y.sign d ∧ monotonicAt fn x' y' i' near' = fpAtPlace y'.sign d' := by
  obtain ⟨d, hd, hr, a, l, hl, rfl⟩ := monotonicAt_admits h
  obtain ⟨d', hd', hr', b, l', hl', rfl⟩ := monotonicAt_admits h'
  refine ⟨_, _, hd, hd', ?_, hr, hr'⟩
  have hmem : ∀ c, c ∈ a :: l ↔ Admits fn x y i (fpPlace near) c := fun c => by rw [← hl]; exact mem_admitted
  have hmem' : ∀ c, c ∈ b :: l' ↔ Admits fn x' y' i' (fpPlace near') c := fun c => by rw [← hl']; exact mem_admitted
  refine chosen_le hi (hl ▸ admitted_pairwise ..) (hl' ▸ admitted_pairwise ..) fun c c' hc hc' hlt => ?_
  show c ∈ b :: l' ∧ c' ∈ a :: l
  rw [hmem', hmem]
  exact hx c c' ((hmem c).1 hc) ((hmem' c').1 hc') hlt

end Sys2Proof.Machine

namespace Sys2Proof.Machine

/-! # Rounding to nearest rises -/

theorem roundsToInt_rn_mono {x x' : ℝ} {n n' : ℤ} (h : RoundsToInt .rn x n) (h' : RoundsToInt .rn x' n') (hx : x ≤ x') : n ≤ n' := by
  obtain ⟨h1, h2⟩ := h
  obtain ⟨h1', h2'⟩ := h'
  by_contra hlt
  have hlt : n' + 1 ≤ n := by omega
  have hltR : (n' : ℝ) + 1 ≤ n := by exact_mod_cast hlt
  have a1 := abs_le.1 h1
  have a2 := abs_le.1 h1'
  have e1 : (n : ℝ) = n' + 1 := by linarith [a1.1, a2.2]
  have t1 : |x - n| = 1 / 2 := by rw [abs_of_nonpos (by linarith [a1.1, a2.2])]; linarith [a1.1, a2.2]
  have t2 : |x' - n'| = 1 / 2 := by rw [abs_of_nonneg (by linarith [a1.1, a2.2])]; linarith [a1.1, a2.2]
  have hn : n = n' + 1 := by exact_mod_cast e1
  have p1 := h2 t1
  have p2 := h2' t2
  rw [hn] at p1
  exact absurd p1 (Int.not_even_iff_odd.2 p2.add_one)

/-- The places of the powers of two. -/
theorem magValue_power {k : Int} (hk : -126 ≤ k) : ((fp32.magValue ((k + 127).toNat * 0x800000) : ℚ) : ℝ) = 2 ^ k := by
  obtain ⟨d, hd⟩ : ∃ d : ℕ, k = d - 126 := ⟨(k + 126).toNat, by omega⟩
  have hc : (k + 127).toNat * 0x800000 = d * 2 ^ fp32.frac + 2 ^ fp32.frac := by
    have : fp32.frac = 23 := by decide
    rw [this, show (k + 127).toNat = d + 1 by omega, Nat.add_mul, Nat.one_mul]; rfl
  rw [hc, magValue_mid fp32 (by decide) (.inr le_rfl)]
  push_cast
  have h1 : (2 : ℝ) ^ fp32.frac = 2 ^ (23 : ℤ) := by
    rw [(by decide : fp32.frac = 23)]; norm_num
  rw [h1, ← zpow_add₀ two_ne_zero]
  congr 1
  have : fp32.qmin = -149 := by decide
  omega

/-- Rounding to nearest rises with the number. -/
theorem roundMag_mono {m m' : Nat} {e e' : Int} (hm : m ≠ 0) (hm' : m' ≠ 0) (n n' : Bool) (h : (m : ℝ) * 2 ^ e ≤ m' * 2 ^ e') :
    fp32.roundMag .rn n m e ≤ fp32.roundMag .rn n' m' e' := by
  have hmode : ∀ b : Bool, magnitudeMode b .rn = .rn := fun b => by cases b <;> rfl
  have hlead := leadExp_mono hm e e' h
  by_cases hq : fp32.quantum m e = fp32.quantum m' e'
  · have h1 := roundsToInt_quantise .rn n m e (fp32.quantum m e)
    have h2 := roundsToInt_quantise .rn n' m' e' (fp32.quantum m' e')
    rw [hmode] at h1 h2
    rw [← hq] at h2
    have hle := roundsToInt_rn_mono h1 h2 ((div_le_div_iff_of_pos_right (by positivity)).2 h)
    have hle : (quantise .rn n m e (fp32.quantum m e)).1 ≤ (quantise .rn n' m' e' (fp32.quantum m e)).1 := by exact_mod_cast hle
    rw [← (magValue_strictMono fp32).le_iff_le, FpFmt.roundMag, FpFmt.roundMag, magValue_magCode .rn n e hm regular_fp32.kind,
      magValue_magCode .rn n' e' hm' regular_fp32.kind, ← hq]
    exact mul_le_mul_of_nonneg_right (by exact_mod_cast hle) (by positivity)
  · rw [fp32_quantum, fp32_quantum] at hq
    have hk : -126 ≤ leadExp m' e' := by omega
    have hb := magValue_power hk
    refine (roundMag_le regular_fp32 .rn n e hm (b := (leadExp m' e' + 127).toNat * 0x800000) ?_).trans
      (le_roundMag regular_fp32 .rn n' e' hm' ?_)
    · rw [hb]
      refine (lt_leadExp m e).le.trans (zpow_le_zpow_right₀ one_le_two ?_)
      omega
    · rw [hb]; exact leadExp_le hm' e'

/-- Rounding to nearest gives infinity where the magnitude passes the largest finite one. -/
theorem near_eq_inf_iff {m : Nat} (hm : m ≠ 0) (n : Bool) (e : Int) :
    (roundFp fp32 .rn (.fin n m e) false).1 = fp32.signed n fp32.infCode ↔ fp32.maxCode < fp32.roundMag .rn n m e := by
  constructor
  · intro h
    by_contra hle
    rw [roundFp_roundMag .rn n e hm (not_lt.1 hle), signed_fp32, signed_fp32] at h
    have := maxCode_lt_infCode
    omega
  · intro hgt
    unfold FpFmt.roundMag at hgt
    simp only [roundFp, hm, if_false]
    rw [if_pos hgt]
    simp only [FpFmt.hasInf, show fp32.kind = .ieee from rfl, decide_true, Bool.true_or, Bool.and_self, Bool.not_false, if_true]

/-- The rounded number as a place, where it is finite. -/
theorem near_place {m : Nat} (hm : m ≠ 0) (n : Bool) (e : Int) (h : (roundFp fp32 .rn (.fin n m e) false).1 ≠ fp32.signed n fp32.infCode) :
    fp32.roundMag .rn n m e ≤ fp32.maxCode ∧ fpPlace (roundFp fp32 .rn (.fin n m e) false).1 = signedPlace n (fp32.roundMag .rn n m e) := by
  have hle := not_lt.1 fun hgt => h ((near_eq_inf_iff hm n e).2 hgt)
  refine ⟨hle, ?_⟩
  have : fp32.maxCode < 2 ^ 31 := by decide
  rw [roundFp_roundMag .rn n e hm hle, fpPlace_signed n (by omega)]
  rfl

/-! # Numbers with their tolerance -/

def FVal.mant : FVal → Nat
  | .fin _ m _ => m
  | _ => 0

def FVal.expo : FVal → Int
  | .fin _ _ e => e
  | _ => 0

/-- The magnitude of a number, and the ends of its tolerance. -/
noncomputable def FVal.mid (y : FVal) : ℝ := y.mant * 2 ^ y.expo
noncomputable def FVal.low (y : FVal) : ℝ := y.mid - fixError * 2 ^ y.expo
noncomputable def FVal.high (y : FVal) : ℝ := y.mid + fixError * 2 ^ y.expo

/-- The ulp of FP32 at a number. -/
noncomputable def FVal.ulp (y : FVal) : ℝ := 2 ^ (max (leadExp y.mant y.expo) (-126) - 23)

/-- A number is nowhere below another. -/
structure Ordered (y y' : FVal) : Prop where
  mid : y.mid ≤ y'.mid
  low : y.low ≤ y'.low
  high : y.high ≤ y'.high

theorem Ordered.refl (y : FVal) : Ordered y y := ⟨le_rfl, le_rfl, le_rfl⟩

/-- A number lies on one side of 2^k, tolerance and all. -/
def FVal.Apart (k : Int) (y : FVal) : Prop := (y.mid < 2 ^ k → y.high ≤ 2 ^ k) ∧ (2 ^ k ≤ y.mid → 2 ^ k ≤ y.low)

/-- A magnitude within 2 ulps of a number, of every one that it may stand for. -/
def Band (y : FVal) (k : Nat) : Prop :=
  y.high - 2 * y.ulp ≤ (fp32.magValue k : ℚ) ∧ ((fp32.magValue k : ℚ) : ℝ) ≤ y.low + 2 * y.ulp

/-- A fine number of sign `n`, where it is not zero. -/
def FVal.IsMag (n : Bool) (y : FVal) : Prop := ∃ s m e, y = .fin s m e ∧ (m ≠ 0 → s = n) ∧ Fine m e

section

variable {n : Bool} {y y' : FVal}

theorem FVal.ulp_pos (y : FVal) : 0 < y.ulp := by unfold FVal.ulp; positivity

theorem FVal.mid_nonneg (y : FVal) : 0 ≤ y.mid := by unfold FVal.mid; positivity

theorem FVal.low_le (y : FVal) : y.low ≤ y.mid := by
  have : (0 : ℝ) ≤ fixError * 2 ^ y.expo := by positivity
  unfold FVal.low; linarith

theorem FVal.le_high (y : FVal) : y.mid ≤ y.high := by
  have : (0 : ℝ) ≤ fixError * 2 ^ y.expo := by positivity
  unfold FVal.high; linarith

theorem FVal.low_eq (y : FVal) : y.low = y.mid - (y.high - y.mid) := by unfold FVal.low FVal.high; ring

/-- The tolerance is far below an ulp. -/
theorem FVal.IsMag.high_le (h : y.IsMag n) : y.high - y.mid ≤ y.ulp * 2 ^ (-22 : ℤ) := by
  obtain ⟨s, m, e, rfl, -, hf⟩ := h
  have := hf.error_le
  rw [fp32_quantum, sub_eq_add_neg _ (22 : ℤ), zpow_add₀ two_ne_zero] at this
  unfold FVal.high FVal.ulp
  simp only [FVal.mant, FVal.expo]
  linarith

theorem FVal.IsMag.finiteValue (h : y.IsMag n) : ((finiteValue y : ℚ) : ℝ) = signOf n * y.mid := by
  obtain ⟨s, m, e, rfl, hs, -⟩ := h
  rw [cast_finiteValue]
  by_cases hm : m = 0
  · subst hm
    simp [FVal.mid, FVal.mant]
  · rw [hs hm]; rfl

theorem lt_pow_iff {m : Nat} (hm : m ≠ 0) (e k : Int) : (m : ℝ) * 2 ^ e < 2 ^ k ↔ leadExp m e < k := by
  constructor
  · intro h
    exact (zpow_lt_zpow_iff_right₀ (one_lt_two (α := ℝ))).1 ((leadExp_le hm e).trans_lt h)
  · intro h
    exact (lt_leadExp m e).trans_le (zpow_le_zpow_right₀ one_le_two (by omega))

theorem belowPow_iff (h : y.IsMag n) (k : Int) : belowPow k y = true ↔ y.mid < 2 ^ k := by
  obtain ⟨s, m, e, rfl, -, -⟩ := h
  simp only [belowPow, FVal.mid, FVal.mant, FVal.expo, Bool.or_eq_true, decide_eq_true_iff]
  by_cases hm : m = 0
  · subst hm
    simp only [true_or, Nat.cast_zero, zero_mul, true_iff]
    positivity
  · rw [lt_pow_iff hm]
    simp [hm]

/-- An ulp by the number's power of two. -/
theorem FVal.IsMag.ulp_eq (h : y.IsMag n) {k : Int} (hk : -126 ≤ k) (h1 : (2 : ℝ) ^ k ≤ y.mid) (h2 : y.mid < 2 ^ (k + 1)) : y.ulp = 2 ^ (k - 23) := by
  obtain ⟨s, m, e, rfl, -, -⟩ := h
  simp only [FVal.mid, FVal.mant, FVal.expo] at h1 h2
  have hm : m ≠ 0 := by
    rintro rfl
    rw [Nat.cast_zero, zero_mul] at h1
    exact absurd h1 (not_le.2 (by positivity))
  have a2 := (lt_pow_iff hm e (k + 1)).1 h2
  have a1 : ¬leadExp m e < k := fun hlt => absurd ((lt_pow_iff hm e k).2 hlt) (not_lt.2 h1)
  unfold FVal.ulp
  simp only [FVal.mant, FVal.expo]
  rw [max_eq_left (by omega)]
  congr 1; omega

theorem FVal.IsMag.ulp_small (h : y.IsMag n) (h1 : y.mid < 2 ^ (-125 : ℤ)) : y.ulp = 2 ^ (-149 : ℤ) := by
  obtain ⟨s, m, e, rfl, -, hf⟩ := h
  simp only [FVal.mid, FVal.mant, FVal.expo] at h1
  unfold FVal.ulp
  simp only [FVal.mant, FVal.expo]
  have : leadExp m e ≤ -126 := by
    by_cases hm : m = 0
    · subst hm
      unfold Fine at hf
      rw [leadExp, Nat.log2_zero] at *
      omega
    · have := (lt_pow_iff hm e (-125)).1 h1; omega
  rw [max_eq_right this]
  rfl

/-- A number below 2^k has at most the ulp of what lies below 2^k. -/
theorem FVal.IsMag.ulp_le (h : y.IsMag n) {k : Int} (hk : -125 ≤ k) (h1 : y.mid < 2 ^ k) : y.ulp ≤ 2 ^ (k - 24) := by
  obtain ⟨s, m, e, rfl, -, hf⟩ := h
  simp only [FVal.mid, FVal.mant, FVal.expo] at h1
  unfold FVal.ulp
  simp only [FVal.mant, FVal.expo]
  refine zpow_le_zpow_right₀ one_le_two ?_
  by_cases hm : m = 0
  · subst hm
    unfold Fine at hf
    rw [leadExp, Nat.log2_zero] at *
    omega
  · have := (lt_pow_iff hm e k).1 h1; omega

theorem ulp_mono (h : y.IsMag n) (hle : y.mid ≤ y'.mid) : y.ulp ≤ y'.ulp := by
  obtain ⟨s, m, e, rfl, -, hf⟩ := h
  have hle : (m : ℝ) * 2 ^ e ≤ y'.mant * 2 ^ y'.expo := hle
  show (2 : ℝ) ^ (max (leadExp m e) (-126) - 23) ≤ 2 ^ (max (leadExp y'.mant y'.expo) (-126) - 23)
  refine zpow_le_zpow_right₀ one_le_two ?_
  by_cases hm : m = 0
  · subst hm
    unfold Fine at hf
    rw [leadExp, Nat.log2_zero] at *
    omega
  · have := leadExp_mono hm e y'.expo hle
    omega

/-- The bound of 2 ulps, on magnitudes: at a number apart from its own power of two. -/
theorem withinUlps_band (h : y.IsMag n) (hap : ∀ k, -126 < k → (2 : ℝ) ^ k ≤ y.mid → y.Apart k) {k : Nat} (hk : k ≤ fp32.maxCode) :
    withinUlps 2 (decodeFp fp32 (fp32.signed n k)) y = true ↔ Band y k := by
  have hval := h.finiteValue
  obtain ⟨s, m, e, rfl, hs, hf⟩ := h
  obtain ⟨a, g, hd, hv⟩ := decodeFp_finite regular_fp32 n hk
  have hulp : (2 : ℝ) ^ (max (leadExp (m - fixError) e) (-126) - 23) = (FVal.fin s m e).ulp := by
    unfold FVal.ulp
    simp only [FVal.mant, FVal.expo]
    by_cases hL : leadExp m e ≤ -126
    · have := hf.lead_sub
      have hle : leadExp (m - fixError) e ≤ max (leadExp m e) (-126) := by
        by_cases hm : m - fixError = 0
        · unfold Fine at hf
          rw [hm, leadExp, Nat.log2_zero]; omega
        · refine (leadExp_mono hm e e (mul_le_mul_of_nonneg_right (by exact_mod_cast Nat.sub_le _ _) (by positivity))).trans (le_max_left _ _)
      exact congrArg (fun z : ℤ => (2 : ℝ) ^ (z - 23)) (by omega)
    · have hm : m ≠ 0 := by
        rintro rfl
        unfold Fine at hf
        rw [leadExp, Nat.log2_zero] at *
        omega
      have hlow := (hap (leadExp m e) (by omega) (leadExp_le hm e)).2 (leadExp_le hm e)
      simp only [FVal.low, FVal.mid, FVal.mant, FVal.expo, ← sub_mul] at hlow
      have hge : fixError ≤ m := by
        by_contra hlt
        have : (m : ℝ) - fixError ≤ 0 := by
          have : (m : ℝ) ≤ fixError := by exact_mod_cast (not_le.1 hlt).le
          linarith
        have h1 := mul_nonpos_of_nonpos_of_nonneg this (by positivity : (0 : ℝ) ≤ 2 ^ e)
        exact absurd (hlow.trans h1) (not_le.2 (by positivity))
      rw [← Nat.cast_sub hge] at hlow
      have h1 : leadExp m e ≤ leadExp (m - fixError) e := by
        have := (zpow_lt_zpow_iff_right₀ (one_lt_two (α := ℝ))).1 (hlow.trans_lt (lt_leadExp (m - fixError) e))
        omega
      have hm' : m - fixError ≠ 0 := by
        intro h0
        rw [h0, Nat.cast_zero, zero_mul] at hlow
        exact absurd hlow (not_le.2 (by positivity))
      have h2 : leadExp (m - fixError) e ≤ leadExp m e :=
        leadExp_mono hm' e e (mul_le_mul_of_nonneg_right (by exact_mod_cast Nat.sub_le _ _) (by positivity))
      exact congrArg (fun z : ℤ => (2 : ℝ) ^ (z - 23)) (by omega)
  rw [hd, withinUlps_real, hulp, hval, cast_finiteValue]
  have hv' : (a : ℝ) * 2 ^ g = (fp32.magValue k : ℚ) := by rw [← hv]; push_cast; rfl
  have habs : |(signOf n : ℝ) * (a * 2 ^ g) - signOf n * (FVal.fin s m e).mid| = |((fp32.magValue k : ℚ) : ℝ) - (FVal.fin s m e).mid| := by
    rw [← mul_sub, abs_mul, hv']
    cases n <;> simp [signOf]
  rw [habs]
  unfold Band FVal.low FVal.high
  rw [← le_sub_iff_add_le, abs_le]
  simp only [FVal.expo]
  push_cast
  constructor
  · rintro ⟨h1, h2⟩; constructor <;> linarith
  · rintro ⟨h1, h2⟩; constructor <;> linarith

end

end Sys2Proof.Machine

namespace Sys2Proof.Machine

/-! # The least magnitude that monotonicity leaves -/

/-- The place at a rank: magnitudes of sign `n` rise with it. -/
def along (n : Bool) (t : Int) : Int := if n then -t else t

/-- The computed value at a rank. -/
def valueAlong (fn : SpecialFn) (n : Bool) (t : Int) : FVal := trueAt fn (along n t)

/-- A function's values on one side, their magnitudes rising from below every normal number; the last below a power
of two is apart from it. -/
structure Rising (fn : SpecialFn) (n : Bool) (lo hi : Int) : Prop where
  number : ∀ t, lo ≤ t → t ≤ hi → (valueAlong fn n t).IsMag n
  ordered : ∀ s t, lo ≤ s → s ≤ t → t ≤ hi → Ordered (valueAlong fn n s) (valueAlong fn n t)
  apart : ∀ p k, lo ≤ p → p < hi → -126 < k → (valueAlong fn n p).mid < 2 ^ k → (∀ s, p < s → s ≤ hi → (2 : ℝ) ^ k ≤ (valueAlong fn n s).mid) →
    (valueAlong fn n p).Apart k ∧ ∀ j, -126 < j → (2 : ℝ) ^ j ≤ (valueAlong fn n p).mid → (valueAlong fn n p).Apart j
  start : (valueAlong fn n lo).mid < 2 ^ (-125 : ℤ)

/-- The place of 2^k. -/
def powerPlace (k : Int) : Int := (k + 127) * 0x800000

/-- The first of the places just below 2^k that lies within 2 ulps of a number. -/
def leastNear (n : Bool) (k : Int) (y : FVal) : Int :=
  (([4, 3, 2, 1].map fun (d : Nat) => powerPlace k - d).find? fun p => withinUlps 2 (decodeFp fp32 (fp32.signed n p.natAbs)) y).getD 0

theorem leastMagnitude_small (fn : SpecialFn) (i : Int) {n : Bool} {m : Nat} {e : Int} (h : leadExp m e ≤ -126) :
    leastMagnitude fn i (.fin n m e) = 0 := if_pos h

section

variable {fn : SpecialFn} {n : Bool} {t : Int} {m : Nat} {e : Int} (h : -126 < leadExp m e)
include h

theorem leastMagnitude_find : leastMagnitude fn (along n t) (.fin n m e) =
    match (List.range' 1 8).find? fun j : Nat => belowPow (leadExp m e) (valueAlong fn n (t - j)) with
    | none => powerPlace (leadExp m e) - 2
    | some j => leastNear n (leadExp m e) (valueAlong fn n (t - j)) := by
  have hbeside : ∀ j : Nat, trueAt fn (if n then along n t + j else along n t - j) = valueAlong fn n (t - j) := fun j => by
    unfold valueAlong along
    cases n
    · rfl
    · simp only [if_true]; congr 1; ring
  simp only [← hbeside]
  exact if_neg (not_le.2 h)

variable {p : Int} (hp : p < t) (hbelow : belowPow (leadExp m e) (valueAlong fn n p) = true)
  (hnext : ∀ s, p < s → s < t → belowPow (leadExp m e) (valueAlong fn n s) = false)
include hnext

theorem leastMagnitude_far (hfar : 8 < t - p) : leastMagnitude fn (along n t) (.fin n m e) = powerPlace (leadExp m e) - 2 := by
  rw [leastMagnitude_find h]
  have : ((List.range' 1 8).find? fun j : Nat => belowPow (leadExp m e) (valueAlong fn n (t - j))) = none := by
    rw [List.find?_range'_eq_none]
    intro j h1 h2
    rw [hnext _ (by omega) (by omega)]
    rfl
  rw [this]

include hp hbelow in
theorem leastMagnitude_close (hclose : t - p ≤ 8) : leastMagnitude fn (along n t) (.fin n m e) = leastNear n (leadExp m e) (valueAlong fn n p) := by
  rw [leastMagnitude_find h]
  have hj : t - ((t - p).toNat : ℤ) = p := by omega
  have : ((List.range' 1 8).find? fun j : Nat => belowPow (leadExp m e) (valueAlong fn n (t - j))) = some (t - p).toNat := by
    rw [List.find?_range'_eq_some]
    refine ⟨by rw [hj]; exact hbelow, List.mem_range'_1.2 (by omega), fun j h1 h2 => ?_⟩
    rw [hnext _ (by omega) (by omega)]
    rfl
  rw [this]
  simp only [hj]

end

/-! ## The places just below a power of two -/

theorem magValue_below_power {k : Int} (hk : -125 ≤ k) {d : Nat} (hd : d ≤ 4) :
    ((fp32.magValue (powerPlace k - d).natAbs : ℚ) : ℝ) = 2 ^ k - d * 2 ^ (k - 24) := by
  obtain ⟨b, hb⟩ : ∃ b : ℕ, k = b - 125 := ⟨(k + 125).toNat, by omega⟩
  have hfrac : fp32.frac = 23 := by decide
  have hqmin : fp32.qmin = -149 := by decide
  have hc : (powerPlace k - d).natAbs = b * 2 ^ 23 + (2 ^ 24 - d) := by
    rw [powerPlace, show k + 127 = (b : ℤ) + 2 by omega]
    omega
  have hmid := magValue_mid fp32 (n := 2 ^ 24 - d) (d := b) (by rw [hfrac]; omega) (.inr (by rw [hfrac]; omega))
  rw [hfrac, hqmin] at hmid
  rw [hc, hmid, show (-149 : ℤ) + b = k - 24 by omega, Nat.cast_sub (by omega)]
  have h24 : (2 : ℝ) ^ k = 2 ^ 24 * 2 ^ (k - 24) := by
    rw [← zpow_natCast, ← zpow_add₀ two_ne_zero]; congr 1; push_cast; ring
  rw [h24]
  push_cast
  ring

/-- The least near place is one of three, within 2 ulps, unless none is. -/
theorem leastNear_cases {n : Bool} {k : Int} (hk : -125 ≤ k) (hk' : k ≤ 127) {y : FVal} (hy : y.IsMag n)
    (hap : ∀ j, -126 < j → (2 : ℝ) ^ j ≤ y.mid → y.Apart j) (hbelow : y.mid < 2 ^ k) (hhigh : y.high ≤ 2 ^ k) :
    (∃ d : ℕ, 2 ≤ d ∧ d ≤ 4 ∧ leastNear n k y = powerPlace k - d ∧ Band y (powerPlace k - d).natAbs) ∨
      (leastNear n k y = 0 ∧ ¬Band y (powerPlace k - 2).natAbs) := by
  have hmax : ∀ d : ℕ, 1 ≤ d → d ≤ 4 → (powerPlace k - d).natAbs ≤ fp32.maxCode := fun d h1 h4 => by
    have : fp32.maxCode = 255 * 0x800000 - 1 := by decide
    unfold powerPlace
    omega
  have hband : ∀ d : ℕ, 1 ≤ d → d ≤ 4 →
      (withinUlps 2 (decodeFp fp32 (fp32.signed n (powerPlace k - d).natAbs)) y = true ↔ Band y (powerPlace k - d).natAbs) :=
    fun d h1 h4 => withinUlps_band hy hap (hmax d h1 h4)
  have hlast : Band y (powerPlace k - (1 : ℕ)).natAbs → Band y (powerPlace k - (2 : ℕ)).natAbs := by
    unfold Band
    rw [magValue_below_power hk (by decide), magValue_below_power hk (by decide)]
    rintro ⟨h1, h2⟩
    have hu := hy.ulp_le hk hbelow
    have hu0 := y.ulp_pos
    push_cast at h1 h2 ⊢
    rcases lt_or_ge y.mid (2 ^ (k - 1)) with hm | hm
    · exfalso
      have h3 : (2 : ℝ) ^ k = 2 ^ (k - 1) * 2 := by rw [zpow_sub_one₀ two_ne_zero]; ring
      have h4 : (2 : ℝ) ^ (k - 1) = 2 ^ (k - 24) * 2 ^ 23 := by
        rw [← zpow_natCast, ← zpow_add₀ two_ne_zero]; congr 1; push_cast; ring
      have h5 := y.low_le
      norm_num at h4
      have : (0 : ℝ) < 2 ^ (k - 24) := by positivity
      linarith
    · have hulp : y.ulp = 2 ^ (k - 24) := by
        rcases le_or_gt (-126) (k - 1) with hk1 | hk1
        · rw [hy.ulp_eq hk1 hm (by rw [sub_add_cancel]; exact hbelow)]; congr 1; ring
        · omega
      rw [hulp] at h1 h2 ⊢
      constructor <;> linarith
  unfold leastNear
  simp only [List.map_cons, List.map_nil, List.find?_cons, List.find?_nil]
  by_cases h4 : Band y (powerPlace k - (4 : ℕ)).natAbs
  · rw [(hband 4 (by decide) (by decide)).2 h4]
    exact .inl ⟨4, by decide, by decide, rfl, h4⟩
  rw [Bool.eq_false_iff.2 (mt (hband 4 (by decide) (by decide)).1 h4)]
  by_cases h3 : Band y (powerPlace k - (3 : ℕ)).natAbs
  · rw [(hband 3 (by decide) (by decide)).2 h3]
    exact .inl ⟨3, by decide, by decide, rfl, h3⟩
  rw [Bool.eq_false_iff.2 (mt (hband 3 (by decide) (by decide)).1 h3)]
  by_cases h2 : Band y (powerPlace k - (2 : ℕ)).natAbs
  · rw [(hband 2 (by decide) (by decide)).2 h2]
    exact .inl ⟨2, by decide, by decide, rfl, h2⟩
  rw [Bool.eq_false_iff.2 (mt (hband 2 (by decide) (by decide)).1 h2),
    Bool.eq_false_iff.2 (mt (hband 1 (by decide) (by decide)).1 (mt hlast h2))]
  exact .inr ⟨rfl, h2⟩

end Sys2Proof.Machine

namespace Sys2Proof.Machine

/-! # Outputs within 2 ulps cross (R63) -/

/-- The least magnitude at a rank. -/
def leastAlong (fn : SpecialFn) (n : Bool) (t : Int) : Int := leastMagnitude fn (along n t) (valueAlong fn n t)

theorem FVal.exists_pow (y : FVal) (h : (2 : ℝ) ^ (-125 : ℤ) ≤ y.mid) : ∃ k : ℤ, -125 ≤ k ∧ (2 : ℝ) ^ k ≤ y.mid ∧ y.mid < 2 ^ (k + 1) := by
  obtain ⟨k, h1, h2⟩ := exists_mem_Ico_zpow ((by positivity : (0 : ℝ) < 2 ^ (-125 : ℤ)).trans_le h) (one_lt_two (α := ℝ))
  have := (zpow_lt_zpow_iff_right₀ (one_lt_two (α := ℝ))).1 (h.trans_lt h2)
  exact ⟨k, by omega, h1, h2⟩

/-- A number's sign and leading place, from its power of two. -/
theorem FVal.IsMag.shape {n : Bool} {y : FVal} (h : y.IsMag n) {k : Int} (h1 : (2 : ℝ) ^ k ≤ y.mid) (h2 : y.mid < 2 ^ (k + 1)) :
    ∃ m e, y = .fin n m e ∧ leadExp m e = k := by
  obtain ⟨s, m, e, rfl, hs, -⟩ := h
  simp only [FVal.mid, FVal.mant, FVal.expo] at h1 h2
  have hm : m ≠ 0 := by
    rintro rfl
    rw [Nat.cast_zero, zero_mul] at h1
    exact absurd h1 (not_le.2 (by positivity))
  refine ⟨m, e, by rw [hs hm], ?_⟩
  have a2 := (lt_pow_iff hm e (k + 1)).1 h2
  have a1 : ¬leadExp m e < k := fun hlt => absurd ((lt_pow_iff hm e k).2 hlt) (not_lt.2 h1)
  omega

theorem leastMagnitude_of_small {fn : SpecialFn} {i : Int} {n : Bool} {y : FVal} (h : y.IsMag n) (h1 : y.mid < 2 ^ (-125 : ℤ)) :
    leastMagnitude fn i y = 0 := by
  obtain ⟨s, m, e, rfl, -, hf⟩ := h
  refine leastMagnitude_small fn i ?_
  by_cases hm : m = 0
  · subst hm
    unfold Fine at hf
    rw [leadExp, Nat.log2_zero] at *
    omega
  · have := (lt_pow_iff hm e (-125)).1 h1; omega

section

variable {fn : SpecialFn} {n : Bool} {lo hi : Int} (hR : Rising fn n lo hi)
include hR

/-- The last rank whose value lies below 2^k, and what it leaves at the ranks above it. -/
theorem Rising.exists_below {t k : Int} (ht : lo ≤ t) (ht' : t ≤ hi) (hk : -125 ≤ k) (h1 : (2 : ℝ) ^ k ≤ (valueAlong fn n t).mid)
    (h2 : (valueAlong fn n t).mid < 2 ^ (k + 1)) :
    ∃ p, lo ≤ p ∧ p < t ∧ (valueAlong fn n p).mid < 2 ^ k ∧ (∀ s, p < s → s ≤ hi → (2 : ℝ) ^ k ≤ (valueAlong fn n s).mid) ∧
      leastAlong fn n t = if t - p ≤ 8 then leastNear n k (valueAlong fn n p) else powerPlace k - 2 := by
  have hstart : lo < t := by
    rcases ht.lt_or_eq with h | rfl
    · exact h
    · exact absurd (h1.trans_lt hR.start) (not_lt.2 (zpow_le_zpow_right₀ one_le_two hk))
  obtain ⟨p, ⟨p1, p2, p3⟩, hmax⟩ := Int.exists_greatest_of_bdd
    (P := fun z => lo ≤ z ∧ z < t ∧ (valueAlong fn n z).mid < 2 ^ k) ⟨t, fun z hz => hz.2.1.le⟩
    ⟨lo, le_rfl, hstart, hR.start.trans_le (zpow_le_zpow_right₀ one_le_two hk)⟩
  have hnext : ∀ s, p < s → s < t → (2 : ℝ) ^ k ≤ (valueAlong fn n s).mid := fun s hs hst => by
    by_contra hlt
    have := hmax s ⟨by omega, hst, not_le.1 hlt⟩
    omega
  refine ⟨p, p1, p2, p3, fun s hs hsh => ?_, ?_⟩
  · rcases lt_or_ge s t with hst | hst
    · exact hnext s hs hst
    · exact h1.trans (hR.ordered t s ht hst hsh).mid
  · obtain ⟨m, e, hy, hlead⟩ := (hR.number t ht ht').shape h1 h2
    have hk' : -126 < leadExp m e := by omega
    have hbelow : belowPow (leadExp m e) (valueAlong fn n p) = true := by
      rw [hlead, belowPow_iff (hR.number p p1 (by omega))]; exact p3
    have hnot : ∀ s, p < s → s < t → belowPow (leadExp m e) (valueAlong fn n s) = false := fun s hs hst => by
      rw [Bool.eq_false_iff, hlead, Ne, belowPow_iff (hR.number s (by omega) (by omega))]
      exact not_lt.2 (hnext s hs hst)
    unfold leastAlong
    rw [hy]
    split
    · next hc => rw [leastMagnitude_close hk' p2 hbelow hnot hc, hlead]
    · next hc => rw [leastMagnitude_far hk' hnot (by omega), hlead]

/-- What is left at a rank lies at most two places below its power of two. -/
theorem Rising.least_le {t k : Int} (ht : lo ≤ t) (ht' : t ≤ hi) (hk : -125 ≤ k) (hk' : k ≤ 127) (h1 : (2 : ℝ) ^ k ≤ (valueAlong fn n t).mid)
    (h2 : (valueAlong fn n t).mid < 2 ^ (k + 1)) : leastAlong fn n t ≤ powerPlace k - 2 := by
  obtain ⟨p, p1, p2, p3, p4, hl⟩ := hR.exists_below ht ht' hk h1 h2
  have hpos : 2 ≤ powerPlace k := by unfold powerPlace; omega
  rw [hl]
  split
  · obtain ⟨hap, hap'⟩ := hR.apart p k p1 (by omega) (by omega) p3 p4
    rcases leastNear_cases hk hk' (hR.number p p1 (by omega)) hap' p3 (hap.1 p3) with ⟨d, h2, -, hd, -⟩ | ⟨h0, -⟩
    · omega
    · omega
  · exact le_rfl

/-- A magnitude left at a rank is within the bound of every lower one, from below. -/
theorem Rising.band_below {s t : Int} (hs : lo ≤ s) (hst : s < t) (ht : t ≤ hi) (hmax : (valueAlong fn n t).mid < 2 ^ (128 : ℤ)) {k : Nat}
    (h1 : (valueAlong fn n t).high - 2 * (valueAlong fn n t).ulp ≤ (fp32.magValue k : ℚ)) (h2 : leastAlong fn n t ≤ k) :
    (valueAlong fn n s).high - 2 * (valueAlong fn n s).ulp ≤ (fp32.magValue k : ℚ) ∧ leastAlong fn n s ≤ k := by
  have ns := hR.number s hs (by omega)
  have nt := hR.number t (by omega) ht
  have hord := hR.ordered s t hs hst.le ht
  rcases lt_or_ge (valueAlong fn n t).mid (2 ^ (-125 : ℤ)) with hsmall | hbig
  · -- Both lie where an ulp is the least.
    have hsmall' := hord.mid.trans_lt hsmall
    rw [nt.ulp_small hsmall] at h1
    rw [ns.ulp_small hsmall']
    refine ⟨by linarith [hord.high], ?_⟩
    unfold leastAlong
    rw [leastMagnitude_of_small ns hsmall']
    exact Int.natCast_nonneg k
  · obtain ⟨q, hq, q1, q2⟩ := FVal.exists_pow _ hbig
    have hq127 : q ≤ 127 := by
      have := (zpow_lt_zpow_iff_right₀ (one_lt_two (α := ℝ))).1 (q1.trans_lt hmax); omega
    obtain ⟨p, p1, p2, p3, p4, hl⟩ := hR.exists_below (by omega) ht hq q1 q2
    have np := hR.number p p1 (by omega)
    obtain ⟨hap, hap'⟩ := hR.apart p q p1 (by omega) (by omega) p3 p4
    have hap := hap.1 p3
    have hcases := leastNear_cases hq hq127 np hap' p3 hap
    rcases le_or_gt ((2 : ℝ) ^ q) (valueAlong fn n s).mid with hsame | hless
    · -- The same power of two: the same rank below it.
      have sq2 := hord.mid.trans_lt q2
      rw [nt.ulp_eq (by omega) q1 q2] at h1
      rw [ns.ulp_eq (by omega) hsame sq2]
      refine ⟨by linarith [hord.high], ?_⟩
      have hps : p < s := by
        by_contra hle
        have := (hR.ordered s p hs (by omega) (by omega)).mid
        linarith
      obtain ⟨p', p1', p2', p3', p4', hl'⟩ := hR.exists_below hs (by omega) hq hsame sq2
      have hpp : p' = p := by
        rcases lt_trichotomy p' p with h | h | h
        · exact absurd (p4' p h (by omega)) (not_le.2 p3)
        · exact h
        · exact absurd (p4 p' h (by omega)) (not_le.2 p3')
      subst hpp
      have hle := hR.least_le hs (by omega) hq hq127 hsame sq2
      by_cases hc : t - p' ≤ 8
      · rw [if_pos hc] at hl
        rw [if_pos (by omega)] at hl'
        omega
      · rw [if_neg hc] at hl
        omega
    · -- A lower one.
      have hsp : s ≤ p := by
        by_contra hgt
        exact absurd (p4 s (by omega) (by omega)) (not_le.2 hless)
      have hw : (0 : ℝ) < 2 ^ (q - 24) := by positivity
      have hqw : (2 : ℝ) ^ q = 2 ^ (q - 24) * 2 ^ 24 := by
        rw [← zpow_natCast, ← zpow_add₀ two_ne_zero]; congr 1; push_cast; ring
      have hut : (valueAlong fn n t).ulp = 2 * 2 ^ (q - 24) := by
        rw [nt.ulp_eq (by omega) q1 q2, ← zpow_one_add₀ two_ne_zero]; congr 1; ring
      have hvk : (2 : ℝ) ^ q - 4 * 2 ^ (q - 24) ≤ (fp32.magValue k : ℚ) := by
        have := (valueAlong fn n t).le_high
        rw [hut] at h1
        linarith
      have hplace : powerPlace q - 4 ≤ k := by
        have h4 := magValue_below_power hq (d := 4) (by decide)
        push_cast at h4
        rw [← h4, Rat.cast_le, (magValue_strictMono fp32).le_iff_le] at hvk
        omega
      have hplaces : ∀ d : ℕ, d ≤ 4 → powerPlace q - d ≤ k → (2 : ℝ) ^ q - d * 2 ^ (q - 24) ≤ (fp32.magValue k : ℚ) := fun d hd h => by
        rw [← magValue_below_power hq hd, Rat.cast_le]
        refine (magValue_strictMono fp32).monotone ?_
        have : 4 ≤ powerPlace q := by unfold powerPlace; omega
        omega
      constructor
      · have hus := ns.ulp_le hq hless
        have hhs := ns.high_le
        have hup := np.ulp_le hq p3
        have hhp := np.high_le
        have hs0 := (valueAlong fn n s).ulp_pos
        have hlowp := (valueAlong fn n p).low_eq
        rcases lt_or_ge (valueAlong fn n s).mid (2 ^ (q - 1)) with hh | hh
        · have h3 : (2 : ℝ) ^ q = 2 ^ (q - 1) * 2 := by rw [zpow_sub_one₀ two_ne_zero]; ring
          norm_num at hhs hqw
          linarith
        · have hus : (valueAlong fn n s).ulp = 2 ^ (q - 24) := by
            rw [ns.ulp_eq (by omega) hh (by rw [sub_add_cancel]; exact hless)]; congr 1; ring
          have hup : (valueAlong fn n p).ulp = 2 ^ (q - 24) := by
            rw [np.ulp_eq (by omega) (hh.trans (hR.ordered s p hs hsp (by omega)).mid) (by rw [sub_add_cancel]; exact p3)]; congr 1; ring
          have hhigh := (hR.ordered s p hs hsp (by omega)).high
          rw [hus]
          by_cases hc : t - p ≤ 8
          · rw [if_pos hc] at hl
            rcases hcases with ⟨d, d1, d2, hd, hband⟩ | ⟨h0, hband⟩
            · have hv := hband.1
              rw [magValue_below_power hq d2, hup] at hv
              have := hplaces d d2 (by omega)
              linarith
            · unfold Band at hband
              have hb2 := magValue_below_power hq (d := 2) (by decide)
              push_cast at hb2
              rw [hb2, hup, not_and, not_le] at hband
              have := hband (by linarith)
              rw [hup] at hhp
              norm_num at hhp
              linarith
          · rw [if_neg hc] at hl
            have := hplaces 2 (by decide) (by push_cast; omega)
            push_cast at this
            linarith
      · rcases lt_or_ge (valueAlong fn n s).mid (2 ^ (-125 : ℤ)) with hsmall | hbig'
        · unfold leastAlong
          rw [leastMagnitude_of_small ns hsmall]
          exact Int.natCast_nonneg k
        · obtain ⟨r, hr, r1, r2⟩ := FVal.exists_pow _ hbig'
          have hrq : r < q := (zpow_lt_zpow_iff_right₀ (one_lt_two (α := ℝ))).1 (r1.trans_lt hless)
          have := hR.least_le hs (by omega) hr (by omega) r1 r2
          unfold powerPlace at this hplace
          omega

/-- Outputs within 2 ulps that monotonicity leaves cross. -/
theorem Rising.bands_cross {s t : Int} (hs : lo ≤ s) (hst : s < t) (ht : t ≤ hi) (hmax : (valueAlong fn n t).mid < 2 ^ (128 : ℤ)) :
    Crosses (fun k : ℕ => Band (valueAlong fn n s) k ∧ leastAlong fn n s ≤ k) (fun k : ℕ => Band (valueAlong fn n t) k ∧ leastAlong fn n t ≤ k) := by
  rintro c c' ⟨⟨-, a2⟩, -⟩ ⟨⟨b1, b2⟩, b3⟩ hlt
  have hord := hR.ordered s t hs hst.le ht
  have hv : ((fp32.magValue c' : ℚ) : ℝ) ≤ (fp32.magValue c : ℚ) := by
    rw [Rat.cast_le]; exact (magValue_strictMono fp32).monotone hlt.le
  have hulp := ulp_mono (hR.number s hs (by omega)) hord.mid
  obtain ⟨d1, d2⟩ := hR.band_below hs hst ht hmax b1 b3
  exact ⟨⟨⟨b1.trans hv, a2.trans (by linarith [hord.low])⟩, by omega⟩, ⟨d1, hv.trans a2⟩, d2⟩

end

end Sys2Proof.Machine

namespace Sys2Proof.Machine

/-! # Results by place (R63) -/

/-- The place of the result at a place. -/
def resultPlace (fn : SpecialFn) (i : Int) : Int := fpPlace (special32 fn (fpAtPlace false i)).1

/-- The rounded true value at a place. -/
def nearCode (fn : SpecialFn) (i : Int) : Nat := (roundFp fp32 .rn (trueAt fn i) false).1

/-- What a function admits at a place. -/
def AdmitsAt (fn : SpecialFn) (i : Int) : Int → Prop :=
  Admits fn (decodeFp fp32 (fpAtPlace false i)) (trueAt fn i) i (fpPlace (nearCode fn i))

/-- A place whose result is open. -/
structure OpenAt (fn : SpecialFn) (i : Int) (neg : Bool) (m : Nat) (e : Int) : Prop where
  size : i.natAbs ≤ fp32.maxCode
  decode : decodeFp fp32 (fpAtPlace false i) = .fin neg m e
  ne : m ≠ 0
  log : fn = .log2 ∨ fn = .log → neg = false
  notExact : ¬ExactPoint fn neg m e

theorem mayBe_iff {fn : SpecialFn} {x y : FVal} {code : Nat} : mayBe fn x y code = true ↔
    (inRange fn (decodeFp fp32 code) = true ∧ ∃ n m e, decodeFp fp32 code = .fin n m e) ∧
      (match ulpBound fn x with | none => faithful code y = true | some n => withinUlps n (decodeFp fp32 code) y = true) := by
  refine ⟨fun h => ?_, fun ⟨⟨h1, n, m, e, hd⟩, h2⟩ => ?_⟩
  · obtain ⟨h1, h2, h3⟩ := mayBe_number h
    exact ⟨⟨h1, h2⟩, h3⟩
  · unfold mayBe
    rw [hd] at h1 h2 ⊢
    simp only [h1, FVal.isNan, FVal.isInf, Bool.not_false, Bool.and_true, Bool.true_and]
    split <;> simp_all

theorem maxCode_lt : fp32.maxCode < 2 ^ 31 - 1 := by decide

section

variable {fn : SpecialFn} {i : Int} {neg : Bool} {m : Nat} {e : Int} (h : OpenAt fn i neg m e)
include h

theorem OpenAt.place : fpPlace (fpAtPlace false i) = i := by
  have := h.size
  have := maxCode_lt
  exact fpPlace_fpAtPlace false (by omega)

theorem OpenAt.parts : Parts m e := Parts.of_decode h.decode h.ne

theorem OpenAt.value : finiteValue (.fin neg m e) = placeValue i := by
  have := h.size
  have := maxCode_lt
  exact (place_of_number (by omega) h.decode).2.2

theorem OpenAt.lt : fpAtPlace false i < 2 ^ 32 := by
  have := h.size
  have := maxCode_lt
  exact fpAtPlace_lt _ (by omega)

theorem OpenAt.trueAt : trueAt fn i = trueValue fn neg m e := by
  unfold Machine.trueAt
  rw [h.decode]
  exact if_neg h.ne

theorem OpenAt.stands : Stands fn (Machine.trueAt fn i) (fn.cutValue ((placeValue i : ℚ) : ℝ)) := by
  rw [h.trueAt, ← h.value]
  exact trueValue_stands h.parts fun hfn => ⟨h.log hfn, value_ne_one hfn h.notExact⟩

theorem OpenAt.result : special32 fn (fpAtPlace false i) = openCase fn neg m e (fpAtPlace false i) :=
  special32_open h.decode h.ne h.log h.notExact

theorem OpenAt.resultPlace_overflow (hinf : nearCode fn i = fp32.infCode) : resultPlace fn i = fp32.infCode := by
  rw [nearCode, h.trueAt] at hinf
  rw [resultPlace, h.result, openCase_overflow hinf]
  exact (by decide : fpPlace fp32.infCode = fp32.infCode)

theorem OpenAt.result_monotonic (hs : fn ≠ .sin) (hc : fn ≠ .cos) (hinf : nearCode fn i ≠ fp32.infCode) :
    (special32 fn (fpAtPlace false i)).1 =
      monotonicAt fn (.fin neg m e) (Machine.trueAt fn i) i (nearCode fn i) := by
  rw [nearCode, h.trueAt] at hinf
  rw [nearCode, h.trueAt, h.result, openCase_number hinf]
  show openResult fn _ _ _ _ = _
  unfold openResult
  rw [if_neg (by simp [hs, hc]), h.place]

/-- The rounded true value at an open place, in places. -/
theorem OpenAt.near_place (hinf : nearCode fn i ≠ fp32.infCode) :
    ∃ n k, (Machine.trueAt fn i).sign = n ∧ k ≤ fp32.maxCode ∧ nearCode fn i = fp32.signed n k ∧
      fpPlace (nearCode fn i) = signedPlace n k ∧
      ((Machine.trueAt fn i).mant ≠ 0 → k = fp32.roundMag .rn n (Machine.trueAt fn i).mant (Machine.trueAt fn i).expo) ∧
      (Machine.trueAt fn i).high < 2 ^ (128 : ℤ) := by
  have hst := h.stands
  obtain ⟨n, a, g, hy, -⟩ := hst.computed
  rw [nearCode, hy] at hinf
  rw [nearCode]
  rw [hy] at hst ⊢
  obtain ⟨k, hk, hr, hkm, hlt⟩ := hst.near_number hinf
  have := maxCode_lt
  refine ⟨n, k, rfl, hk, hr, ?_, hkm, ?_⟩
  · rw [hr, fpPlace_signed n (by omega)]; rfl
  · unfold FVal.high FVal.mid
    simp only [FVal.mant, FVal.expo]
    rwa [Nat.cast_add, add_mul] at hlt

/-- The rounded true value is admitted, where the least magnitude and the pin leave it. -/
theorem OpenAt.near_admits (hinf : nearCode fn i ≠ fp32.infCode)
    (hleast : (ulpBound fn (.fin neg m e)).isSome →
      leastMagnitude fn i (Machine.trueAt fn i) ≤ (fpPlace (nearCode fn i)).natAbs)
    (hpin : ∀ i0 v0, fn.pin = some (i0, v0) → if i > i0 then v0 ≤ fpPlace (nearCode fn i) else
      fpPlace (nearCode fn i) ≤ v0) :
    AdmitsAt fn i (fpPlace (nearCode fn i)) := by
  unfold AdmitsAt
  rw [h.decode]
  obtain ⟨n, k, hn, hk, hr, hp, -⟩ := h.near_place hinf
  refine ⟨⟨by omega, by omega⟩, ?_, ?_, hpin⟩
  · rw [hn, hp, fpAtPlace_signedPlace, ← hr]
    exact near_mayBe h.stands hinf
  · split
    · next hb => exact hleast hb
    · exact Int.natCast_nonneg _

end

/-- An admitted place is that of its code. -/
theorem Admits.place {fn : SpecialFn} {x y : FVal} {i near c : Int} (h : Admits fn x y i near c) (hnear : near.natAbs ≤ fp32.maxCode) :
    fpPlace (fpAtPlace y.sign c) = c ∧ c.natAbs ≤ fp32.maxCode := by
  obtain ⟨⟨h1, h2⟩, hmay, -⟩ := h
  have : fp32.maxCode = 255 * 0x800000 - 1 := by decide
  have hc : c.natAbs < 2 ^ 31 := by omega
  obtain ⟨-, ⟨n, m, e, hd⟩, -⟩ := mayBe_number hmay
  exact ⟨fpPlace_fpAtPlace _ hc, (place_of_number hc hd).2.1⟩

/-- The sign, not zero, of a computed value at a place. -/
structure SignedAt (fn : SpecialFn) (n : Bool) (i : Int) : Prop where
  mag : (trueAt fn i).IsMag n
  ne : (trueAt fn i).mant ≠ 0

theorem SignedAt.sign {fn : SpecialFn} {n : Bool} {i : Int} (h : SignedAt fn n i) : (trueAt fn i).sign = n := by
  obtain ⟨⟨s, m, e, hy, hs, -⟩, hm⟩ := h
  rw [hy] at hm ⊢
  exact hs hm

section

variable {fn : SpecialFn} (hs : fn ≠ .sin) (hc : fn ≠ .cos)
include hs hc

/-- An open result that is not infinite is admitted, where anything is. -/
theorem OpenAt.resultPlace_admits {i : Int} {neg : Bool} {m : Nat} {e : Int} (h : OpenAt fn i neg m e)
    (hinf : nearCode fn i ≠ fp32.infCode) {c : Int} (ha : AdmitsAt fn i c) :
    AdmitsAt fn i (resultPlace fn i) ∧ (resultPlace fn i).natAbs ≤ fp32.maxCode := by
  unfold AdmitsAt at ha ⊢
  rw [h.decode] at ha ⊢
  obtain ⟨n, k, -, hk, -, hp, -⟩ := h.near_place hinf
  have hnear : (fpPlace (nearCode fn i)).natAbs ≤ fp32.maxCode := by
    rw [hp]; unfold signedPlace; split <;> simpa using hk
  obtain ⟨d, hd, hr, -⟩ := monotonicAt_admits ha
  obtain ⟨hp, hmax⟩ := hd.place hnear
  rw [resultPlace, h.result_monotonic hs hc hinf, hr, hp]
  exact ⟨hd, hmax⟩

variable {i j : Int} {neg neg' : Bool} {m m' : Nat} {e e' : Int} (h : OpenAt fn i neg m e) (h' : OpenAt fn j neg' m' e')
include h h'

/-- Open results rise where what is admitted crosses. -/
theorem resultPlace_le (hij : i ≤ j) (hinf : nearCode fn i ≠ fp32.infCode) (hinf' : nearCode fn j ≠ fp32.infCode) {c c' : Int}
    (ha : AdmitsAt fn i c) (ha' : AdmitsAt fn j c') (hx : Crosses (AdmitsAt fn i) (AdmitsAt fn j)) : resultPlace fn i ≤ resultPlace fn j := by
  unfold AdmitsAt at ha ha' hx
  rw [h.decode] at ha hx
  rw [h'.decode] at ha' hx
  obtain ⟨n, k, -, hk, -, hp, -⟩ := h.near_place hinf
  obtain ⟨n', k', -, hk', -, hp', -⟩ := h'.near_place hinf'
  have hn : (fpPlace (nearCode fn i)).natAbs ≤ fp32.maxCode := by
    rw [hp]; unfold signedPlace; split <;> simpa using hk
  have hn' : (fpPlace (nearCode fn j)).natAbs ≤ fp32.maxCode := by
    rw [hp']; unfold signedPlace; split <;> simpa using hk'
  obtain ⟨d, d', hd, hd', hle, hr, hr'⟩ := monotonicAt_le hij ha ha' hx
  rw [resultPlace, resultPlace, h.result_monotonic hs hc hinf, h'.result_monotonic hs hc hinf', hr, hr', (hd.place hn).1, (hd'.place hn').1]
  exact hle

omit hs hc in
/-- The rounded values of two open places on one side rise. -/
theorem near_rises {n : Bool} (hi : SignedAt fn n i) (hj : SignedAt fn n j)
    (hmid : if n then (trueAt fn j).mid ≤ (trueAt fn i).mid else (trueAt fn i).mid ≤ (trueAt fn j).mid)
    (hinf : nearCode fn i ≠ fp32.infCode) (hinf' : nearCode fn j ≠ fp32.infCode) : fpPlace (nearCode fn i) ≤ fpPlace (nearCode fn j) := by
  obtain ⟨a, k, ha, -, -, hp, hk, -⟩ := h.near_place hinf
  obtain ⟨b, k', hb, -, -, hp', hk', -⟩ := h'.near_place hinf'
  obtain rfl : n = a := hi.sign.symm.trans ha
  obtain rfl : n = b := hj.sign.symm.trans hb
  rw [hp, hp', hk hi.ne, hk' hj.ne]
  cases n
  · have := roundMag_mono hi.ne hj.ne false false (by simpa [FVal.mid] using hmid)
    simpa [signedPlace] using this
  · have := roundMag_mono hj.ne hi.ne true true (by simpa [FVal.mid] using hmid)
    simpa [signedPlace] using this

/-- Open results on one side rise: what is admitted crosses, and infinity is above it. -/
theorem open_le (hij : i ≤ j) {n : Bool} (hi : SignedAt fn n i) (hj : SignedAt fn n j)
    (hmid : if n then (trueAt fn j).mid ≤ (trueAt fn i).mid else (trueAt fn i).mid ≤ (trueAt fn j).mid)
    (ha : nearCode fn i ≠ fp32.infCode → ∃ c, AdmitsAt fn i c) (ha' : nearCode fn j ≠ fp32.infCode → ∃ c, AdmitsAt fn j c)
    (hx : nearCode fn i ≠ fp32.infCode → nearCode fn j ≠ fp32.infCode → Crosses (AdmitsAt fn i) (AdmitsAt fn j)) :
    resultPlace fn i ≤ resultPlace fn j := by
  have hinfCode : fp32.infCode = 0x7F800000 := by decide
  by_cases hinf : nearCode fn i = fp32.infCode
  · have hn : n = false := by
      obtain ⟨s, a, g, hy, hsn, -⟩ := hi.mag
      have hm := hi.ne
      rw [nearCode, hy] at hinf
      rw [hy] at hm
      obtain ⟨k, -, hk⟩ := roundFp_signed .rn false s a g
      rw [hk, signed_fp32] at hinf
      rw [← hsn hm]
      cases s
      · rfl
      · simp at hinf; omega
    subst hn
    have hover : ∀ p : Int, SignedAt fn false p → (nearCode fn p = fp32.infCode ↔
        fp32.maxCode < fp32.roundMag .rn false (trueAt fn p).mant (trueAt fn p).expo) := fun p hp => by
      obtain ⟨⟨s, a, g, hy, hsn, -⟩, hm⟩ := hp
      rw [hy] at hm
      rw [nearCode, hy, hsn hm]
      exact near_eq_inf_iff hm false g
    have h1 := (hover i hi).1 hinf
    have h2 := roundMag_mono hi.ne hj.ne false false (by simpa [FVal.mid] using hmid)
    have hinf' := (hover j hj).2 (by omega)
    rw [h.resultPlace_overflow hinf, h'.resultPlace_overflow hinf']
  · obtain ⟨c, hc'⟩ := ha hinf
    by_cases hinf' : nearCode fn j = fp32.infCode
    · have := (h.resultPlace_admits hs hc hinf hc').2
      have := maxCode_lt_infCode
      rw [h'.resultPlace_overflow hinf']
      omega
    · obtain ⟨d, hd⟩ := ha' hinf'
      exact resultPlace_le hs hc h h' hij hinf hinf' hc' hd (hx hinf hinf')

end

end Sys2Proof.Machine

namespace Sys2Proof.Machine

/-! # What is admitted crosses (R63) -/

/-- Places of sign `n`. -/
def SideOf (n : Bool) (c : Int) : Prop := c = signedPlace n c.natAbs

theorem sideOf_iff (n : Bool) (c : Int) : SideOf n c ↔ if n then c ≤ 0 else 0 ≤ c := by
  unfold SideOf signedPlace
  cases n <;> simp only [Bool.false_eq_true, if_false, if_true] <;> omega

/-- Magnitudes that cross do so with their sign, which turns the order about. -/
theorem Crosses.signed {n : Bool} {P Q : ℕ → Prop} (h : if n then Crosses Q P else Crosses P Q) :
    Crosses (fun c : Int => SideOf n c ∧ P c.natAbs) fun c : Int => SideOf n c ∧ Q c.natAbs := by
  rintro c c' ⟨h1, h2⟩ ⟨h3, h4⟩ hlt
  have s1 := (sideOf_iff n c).1 h1
  have s3 := (sideOf_iff n c').1 h3
  cases n
  · obtain ⟨a, b⟩ := h _ _ h2 h4 (by simp at s1 s3; omega)
    exact ⟨⟨h1, a⟩, h3, b⟩
  · obtain ⟨a, b⟩ := h _ _ h4 h2 (by simp at s1 s3; omega)
    exact ⟨⟨h1, b⟩, h3, a⟩

/-- The window around the rounded value crosses where that rises. -/
theorem window_crosses {a b : Int} (h : a ≤ b) : Crosses (fun c : Int => a - 8 ≤ c ∧ c ≤ a + 8) fun c => b - 8 ≤ c ∧ c ≤ b + 8 := by
  rintro c c' ⟨h1, h2⟩ ⟨h3, h4⟩ hlt
  constructor <;> constructor <;> omega

/-- A number in a function's range, by place. -/
def InRangeAt (fn : SpecialFn) (n : Bool) (c : Int) : Prop :=
  inRange fn (decodeFp fp32 (fpAtPlace n c)) = true ∧ ∃ n' m e, decodeFp fp32 (fpAtPlace n c) = .fin n' m e

/-- The side of the pin. -/
def PinSide (fn : SpecialFn) (i c : Int) : Prop := ∀ i0 v0, fn.pin = some (i0, v0) → if i > i0 then v0 ≤ c else c ≤ v0

theorem PinSide.same {fn : SpecialFn} {i j : Int} (h : ∀ i0 v0, fn.pin = some (i0, v0) → (i > i0 ↔ j > i0)) : PinSide fn i = PinSide fn j := by
  funext c
  unfold PinSide
  refine propext ⟨fun hp i0 v0 hpin => ?_, fun hp i0 v0 hpin => ?_⟩
  · have := hp i0 v0 hpin
    rwa [if_congr (h i0 v0 hpin) rfl rfl] at this
  · have := hp i0 v0 hpin
    rwa [← if_congr (h i0 v0 hpin) rfl rfl] at this

theorem Crosses.of_iff {P Q P' Q' : Int → Prop} (h : Crosses P Q) (hp : ∀ c, P' c ↔ P c) (hq : ∀ c, Q' c ↔ Q c) : Crosses P' Q' := by
  rintro c c' h1 h2 hlt
  rw [hq, hp]
  exact h c c' ((hp c).1 h1) ((hq c').1 h2) hlt

/-- Whether what is admitted at an input lies on the value's side. -/
def KeepsSide (fn : SpecialFn) (n : Bool) (i : Int) : Prop := ∀ c : Int, c.natAbs ≤ fp32.maxCode → InRangeAt fn n c → PinSide fn i c → SideOf n c

section

variable {fn : SpecialFn} {x y : FVal} {n : Bool} {i near : Int} (hy : y.IsMag n) (hsign : y.sign = n) (hnear : near.natAbs ≤ fp32.maxCode)
include hnear hsign

/-- What is admitted within 2 ulps, in magnitudes. -/
theorem admits_band (hb : ulpBound fn x = some 2) (hy : y.IsMag n) (hap : ∀ k, -126 < k → (2 : ℝ) ^ k ≤ y.mid → y.Apart k)
    (hside : KeepsSide fn n i) (c : Int) : Admits fn x y i near c ↔ (near - 8 ≤ c ∧ c ≤ near + 8) ∧ InRangeAt fn n c ∧ PinSide fn i c ∧
      SideOf n c ∧ Band y c.natAbs ∧ leastMagnitude fn i y ≤ c.natAbs := by
  unfold Admits
  rw [hsign, mayBe_iff, hb]
  have hmax : near - 8 ≤ c → c ≤ near + 8 → (∃ n' m e, decodeFp fp32 (fpAtPlace n c) = .fin n' m e) → c.natAbs ≤ fp32.maxCode := by
    rintro h1 h2 ⟨n', m, e, hd⟩
    have : fp32.maxCode = 255 * 0x800000 - 1 := by decide
    exact (place_of_number (by omega) hd).2.1
  have hband : SideOf n c → c.natAbs ≤ fp32.maxCode →
      (withinUlps 2 (decodeFp fp32 (fpAtPlace n c)) y = true ↔ Band y c.natAbs) := fun hs hc => by
    rw [show c = signedPlace n c.natAbs from hs, fpAtPlace_signedPlace]
    rw [← show c = signedPlace n c.natAbs from hs]
    exact withinUlps_band hy hap hc
  simp only [Option.isSome_some, if_true]
  constructor
  · rintro ⟨⟨h1, h2⟩, ⟨⟨h3, hd⟩, h4⟩, h5, h6⟩
    have hm := hmax h1 h2 hd
    have hs := hside c hm ⟨h3, hd⟩ h6
    exact ⟨⟨h1, h2⟩, ⟨h3, hd⟩, h6, hs, (hband hs hm).1 h4, h5⟩
  · rintro ⟨⟨h1, h2⟩, ⟨h3, hd⟩, h6, hs, h4, h5⟩
    exact ⟨⟨h1, h2⟩, ⟨⟨h3, hd⟩, (hband hs (hmax h1 h2 hd)).2 h4⟩, h5, h6⟩

/-- What is admitted of a faithful function, in magnitudes. -/
theorem admits_faithful (hb : ulpBound fn x = none) (hy : y.IsMag n) (hlt : y.high < 2 ^ (128 : ℤ)) (hpin : fn.pin = none) (c : Int) :
    Admits fn x y i near c ↔ (near - 8 ≤ c ∧ c ≤ near + 8) ∧ InRangeAt fn n c ∧ SideOf n c ∧
      (c.natAbs = 0 ∨ ((fp32.magValue (c.natAbs - 1) : ℚ) : ℝ) < y.low) ∧ y.high < (fp32.magValue (c.natAbs + 1) : ℚ) := by
  unfold Admits
  rw [hsign, mayBe_iff, hb]
  have hfaith : ∀ k : ℕ, faithful (fp32.signed n k) y = true ↔
      (k = 0 ∨ ((fp32.magValue (k - 1) : ℚ) : ℝ) < y.low) ∧ y.high < (fp32.magValue (k + 1) : ℚ) := fun k => by
    have h2 : y.sign = n := hsign
    obtain ⟨s, m, e, rfl, hs, hf⟩ := hy
    obtain rfl : s = n := h2
    have hlt' : ((m + fixError : ℕ) : ℝ) * 2 ^ e < 2 ^ (128 : ℤ) := by
      rw [Nat.cast_add, add_mul]; exact hlt
    rw [faithful_iff s hlt']
    have hhigh : ((m + fixError : ℕ) : ℝ) * 2 ^ e = (FVal.fin s m e).high := by rw [Nat.cast_add, add_mul]; rfl
    rw [hhigh]
    refine and_congr_left' (or_congr_right ?_)
    have h0 : (0 : ℝ) ≤ (fp32.magValue (k - 1) : ℚ) := by exact_mod_cast magValue_nonneg fp32 _
    have hlow : (FVal.fin s m e).low = ((m : ℝ) - fixError) * 2 ^ e := by
      unfold FVal.low FVal.mid; simp only [FVal.mant, FVal.expo]; ring
    rw [hlow]
    rcases le_or_gt fixError m with hle | hgt
    · rw [Nat.cast_sub hle]
    · rw [Nat.sub_eq_zero_of_le hgt.le, Nat.cast_zero, zero_mul]
      have : ((m : ℝ) - fixError) * 2 ^ e ≤ 0 :=
        mul_nonpos_of_nonpos_of_nonneg (sub_nonpos.2 (by exact_mod_cast hgt.le)) (by positivity)
      constructor <;> intro h <;> linarith
  have hsided : c.natAbs < 2 ^ 31 → faithful (fpAtPlace n c) y = true → SideOf n c := fun hc h => by
    obtain ⟨s, m, e, rfl, -, -⟩ := hy
    obtain rfl : s = n := hsign
    obtain ⟨k, hk, hcode⟩ := faithful_signed h
    have hinf : fp32.infCode < 2 ^ 31 := by decide
    have := congrArg fpPlace hcode
    rw [fpPlace_fpAtPlace s hc, fpPlace_signed s (by omega)] at this
    rw [sideOf_iff, this]
    cases s <;> simp
  have hcode : SideOf n c → fpAtPlace n c = fp32.signed n c.natAbs := fun hs => by
    rw [← fpAtPlace_signedPlace, ← show c = signedPlace n c.natAbs from hs]
  have hc31 : near - 8 ≤ c → c ≤ near + 8 → c.natAbs < 2 ^ 31 := fun h1 h2 => by
    have : fp32.maxCode = 255 * 0x800000 - 1 := by decide
    omega
  simp only [Option.isSome_none, Bool.false_eq_true, if_false]
  constructor
  · rintro ⟨⟨h1, h2⟩, ⟨hr, h4⟩, -, -⟩
    have hs := hsided (hc31 h1 h2) h4
    rw [hcode hs, hfaith] at h4
    exact ⟨⟨h1, h2⟩, hr, hs, h4⟩
  · rintro ⟨⟨h1, h2⟩, hr, hs, h4⟩
    refine ⟨⟨h1, h2⟩, ⟨hr, ?_⟩, Int.natCast_nonneg _, by simp [hpin]⟩
    rw [hcode hs, hfaith]
    exact h4

end

/-- Faithful outputs cross. -/
theorem faithful_crosses {y y' : FVal} (h : Ordered y y') :
    Crosses (fun k : ℕ => (k = 0 ∨ ((fp32.magValue (k - 1) : ℚ) : ℝ) < y.low) ∧ y.high < (fp32.magValue (k + 1) : ℚ))
      (fun k : ℕ => (k = 0 ∨ ((fp32.magValue (k - 1) : ℚ) : ℝ) < y'.low) ∧ y'.high < (fp32.magValue (k + 1) : ℚ)) := by
  rintro c c' ⟨h1, -⟩ ⟨-, h4⟩ hlt
  have hmono : ∀ a b : ℕ, a ≤ b → ((fp32.magValue a : ℚ) : ℝ) ≤ (fp32.magValue b : ℚ) := fun a b hab => by
    rw [Rat.cast_le]; exact (magValue_strictMono fp32).monotone hab
  refine ⟨⟨h1.imp_right fun h' => h'.trans_le h.low, h4.trans_le (hmono _ _ (by omega))⟩, ?_, h.high.trans_lt h4⟩
  rcases h1 with h1 | h1
  · omega
  · exact .inr ((hmono _ _ (by omega)).trans_lt h1)

end Sys2Proof.Machine

namespace Sys2Proof.Machine

/-! # Open results on one side rise (R63) -/

theorem along_along (n : Bool) (i : Int) : along n (along n i) = i := by cases n <;> simp [along]

theorem valueAlong_along (fn : SpecialFn) (n : Bool) (i : Int) : valueAlong fn n (along n i) = trueAt fn i := by
  rw [valueAlong, along_along]

theorem leastAlong_along (fn : SpecialFn) (n : Bool) (i : Int) : leastAlong fn n (along n i) = leastMagnitude fn i (trueAt fn i) := by
  rw [leastAlong, along_along, valueAlong_along]

section

variable {fn : SpecialFn} {n : Bool} {i : Int} {neg : Bool} {m : Nat} {e : Int} (h : OpenAt fn i neg m e) (hi : SignedAt fn n i)
include h hi

theorem near_natAbs (hinf : nearCode fn i ≠ fp32.infCode) : (fpPlace (nearCode fn i)).natAbs ≤ fp32.maxCode ∧
    (fpPlace (nearCode fn i)).natAbs = fp32.roundMag .rn n (trueAt fn i).mant (trueAt fn i).expo ∧
    fpPlace (nearCode fn i) = signedPlace n (fp32.roundMag .rn n (trueAt fn i).mant (trueAt fn i).expo) ∧ (trueAt fn i).high < 2 ^ (128 : ℤ) := by
  obtain ⟨a, k, ha, hk, -, hp, hkm, hlt⟩ := h.near_place hinf
  obtain rfl : n = a := hi.sign.symm.trans ha
  rw [hp, ← hkm hi.ne]
  have : (signedPlace n k).natAbs = k := by unfold signedPlace; split <;> simp
  exact ⟨by rw [this]; exact hk, this, rfl, hlt⟩

omit h hi in
/-- The rounded value is at least the power of two at or below the number. -/
theorem power_le_near {k : Int} (hk : -126 ≤ k) (h1 : (2 : ℝ) ^ k ≤ (trueAt fn i).mid) :
    powerPlace k ≤ fp32.roundMag .rn n (trueAt fn i).mant (trueAt fn i).expo := by
  have hm : (trueAt fn i).mant ≠ 0 := fun h0 => by
    rw [FVal.mid, h0, Nat.cast_zero, zero_mul] at h1
    exact absurd h1 (not_le.2 (by positivity))
  have := le_roundMag regular_fp32 .rn n (trueAt fn i).expo hm (b := (k + 127).toNat * 0x800000) (by rw [magValue_power hk]; exact h1)
  unfold powerPlace
  omega

/-- The rounded value is admitted on a rising side. -/
theorem Rising.near_admits {lo hi' : Int} (hR : Rising fn n lo hi') (hl : lo ≤ along n i) (hh : along n i ≤ hi') (hinf : nearCode fn i ≠ fp32.infCode)
    (hpin : PinSide fn i (fpPlace (nearCode fn i))) : AdmitsAt fn i (fpPlace (nearCode fn i)) := by
  refine h.near_admits hinf (fun _ => ?_) hpin
  obtain ⟨-, habs, -, hlt⟩ := near_natAbs h hi hinf
  rw [habs]
  have hnum := hR.number _ hl hh
  rw [valueAlong_along] at hnum
  rcases lt_or_ge (trueAt fn i).mid (2 ^ (-125 : ℤ)) with hsmall | hbig
  · rw [leastMagnitude_of_small hnum hsmall]; exact Int.natCast_nonneg _
  · obtain ⟨q, hq, q1, q2⟩ := FVal.exists_pow _ hbig
    have hq127 : q ≤ 127 := by
      have := (trueAt fn i).le_high
      have := (zpow_lt_zpow_iff_right₀ (one_lt_two (α := ℝ))).1 (q1.trans_lt (this.trans_lt hlt)); omega
    have hle := hR.least_le hl hh hq hq127 (by rw [valueAlong_along]; exact q1) (by rw [valueAlong_along]; exact q2)
    rw [leastAlong_along] at hle
    have := power_le_near (fn := fn) (i := i) (n := n) (by omega) q1
    omega

end

section

variable {fn : SpecialFn} (hs : fn ≠ .sin) (hc : fn ≠ .cos) {n : Bool} {i j : Int} {neg neg' : Bool} {m m' : Nat} {e e' : Int}
  (h : OpenAt fn i neg m e) (h' : OpenAt fn j neg' m' e') (hij : i < j) (hi : SignedAt fn n i) (hj : SignedAt fn n j)
include hs hc h h' hij hi hj

/-- Two open results on one rising side are in order. -/
theorem Rising.open_le (hb : ∀ x, ulpBound fn x = some 2) {lo hi' : Int} (hR : Rising fn n lo hi') (hl : lo ≤ along n i ∧ along n i ≤ hi')
    (hl' : lo ≤ along n j ∧ along n j ≤ hi')
    (hap : ∀ k, -126 < k → (2 : ℝ) ^ k ≤ (trueAt fn i).mid → (trueAt fn i).Apart k)
    (hap' : ∀ k, -126 < k → (2 : ℝ) ^ k ≤ (trueAt fn j).mid → (trueAt fn j).Apart k) (hside : KeepsSide fn n i) (hside' : KeepsSide fn n j) (hsame : PinSide fn i = PinSide fn j)
    (hpin : nearCode fn i ≠ fp32.infCode → PinSide fn i (fpPlace (nearCode fn i)))
    (hpin' : nearCode fn j ≠ fp32.infCode → PinSide fn j (fpPlace (nearCode fn j))) : resultPlace fn i ≤ resultPlace fn j := by
  have hmid : if n then (trueAt fn j).mid ≤ (trueAt fn i).mid else (trueAt fn i).mid ≤ (trueAt fn j).mid := by
    have hord := fun s t hs hst ht => (hR.ordered s t hs hst ht).mid
    cases n
    · simpa [valueAlong, along] using hord i j hl.1 hij.le hl'.2
    · simpa [valueAlong, along] using hord (-j) (-i) hl'.1 (by omega) hl.2
  refine Machine.open_le hs hc h h' hij.le hi hj hmid (fun hinf => ⟨_, hR.near_admits h hi hl.1 hl.2 hinf (hpin hinf)⟩)
    (fun hinf => ⟨_, hR.near_admits h' hj hl'.1 hl'.2 hinf (hpin' hinf)⟩) fun hinf hinf' => ?_
  obtain ⟨hm, -, -, hlt⟩ := near_natAbs h hi hinf
  obtain ⟨hm', -, -, hlt'⟩ := near_natAbs h' hj hinf'
  have hband := admits_band (x := .fin neg m e) hi.sign hm (hb _) hi.mag hap hside
  have hband' := admits_band (x := .fin neg' m' e') hj.sign hm' (hb _) hj.mag hap' hside'
  unfold AdmitsAt
  rw [h.decode, h'.decode]
  refine Crosses.of_iff ?_ hband hband'
  refine (window_crosses (near_rises h h' hi hj hmid hinf hinf')).and ((Crosses.same _).and ?_)
  rw [hsame]
  refine (Crosses.same _).and (Crosses.signed (P := fun k => Band (trueAt fn i) k ∧ leastMagnitude fn i (trueAt fn i) ≤ k)
    (Q := fun k => Band (trueAt fn j) k ∧ leastMagnitude fn j (trueAt fn j) ≤ k) ?_)
  simp only [← leastAlong_along fn n]
  simp only [← valueAlong_along fn n]
  rw [← valueAlong_along fn n] at hlt hlt'
  cases n
  · exact hR.bands_cross hl.1 hij hl'.2 ((valueAlong fn false (along false j)).le_high.trans_lt hlt')
  · exact hR.bands_cross hl'.1 (by unfold along; simp only [if_true]; omega) hl.2 ((valueAlong fn true (along true i)).le_high.trans_lt hlt)

/-- Two faithful open results on one side are in order. -/
theorem faithful_open_le (hb : ∀ x, ulpBound fn x = none) (hpin : fn.pin = none)
    (hord : if n then Ordered (trueAt fn j) (trueAt fn i) else Ordered (trueAt fn i) (trueAt fn j)) : resultPlace fn i ≤ resultPlace fn j := by
  have hmid : if n then (trueAt fn j).mid ≤ (trueAt fn i).mid else (trueAt fn i).mid ≤ (trueAt fn j).mid := by
    cases n
    · exact hord.mid
    · exact hord.mid
  refine Machine.open_le hs hc h h' hij.le hi hj hmid (fun hinf => ⟨_, h.near_admits hinf (by simp [hb]) (by simp [hpin])⟩)
    (fun hinf => ⟨_, h'.near_admits hinf (by simp [hb]) (by simp [hpin])⟩) fun hinf hinf' => ?_
  obtain ⟨hm, -, -, hlt⟩ := near_natAbs h hi hinf
  obtain ⟨hm', -, -, hlt'⟩ := near_natAbs h' hj hinf'
  unfold AdmitsAt
  rw [h.decode, h'.decode]
  refine Crosses.of_iff ?_ (admits_faithful hi.sign hm (hb _) hi.mag hlt hpin) (admits_faithful hj.sign hm' (hb _) hj.mag hlt' hpin)
  refine (window_crosses (near_rises h h' hi hj hmid hinf hinf')).and ((Crosses.same _).and (Crosses.signed
    (P := fun k => (k = 0 ∨ ((fp32.magValue (k - 1) : ℚ) : ℝ) < (trueAt fn i).low) ∧ (trueAt fn i).high < (fp32.magValue (k + 1) : ℚ))
    (Q := fun k => (k = 0 ∨ ((fp32.magValue (k - 1) : ℚ) : ℝ) < (trueAt fn j).low) ∧ (trueAt fn j).high < (fp32.magValue (k + 1) : ℚ)) ?_))
  cases n
  · exact faithful_crosses hord
  · exact faithful_crosses hord

end

end Sys2Proof.Machine

namespace Sys2Proof.Machine

/-! # Inputs by place -/

theorem place_parts {i : Int} (hi : i.natAbs ≤ fp32.maxCode) (h0 : i ≠ 0) :
    ∃ m e, decodeFp fp32 (fpAtPlace false i) = .fin (decide (i < 0)) m e ∧ Parts m e ∧ finiteValue (.fin (decide (i < 0)) m e) = placeValue i := by
  obtain ⟨m, e, hd, hv⟩ := decode_fpAtPlace false hi
  rw [placeSign_of_ne h0] at hd hv
  refine ⟨m, e, hd, Parts.of_decode hd ?_, hv⟩
  rintro rfl
  have hz : placeValue 0 = 0 := by simp [placeValue, magValue_zero]
  have : placeValue i = placeValue 0 := by rw [← hv, hz]; simp [finiteValue]
  exact h0 (placeValue_strictMono.injective this)

theorem trueAt_place {i : Int} {n : Bool} {m : Nat} {e : Int} (fn : SpecialFn) (hd : decodeFp fp32 (fpAtPlace false i) = .fin n m e) (hm : m ≠ 0) :
    trueAt fn i = trueValue fn n m e := by
  unfold trueAt
  rw [hd]
  exact if_neg hm

theorem placeValue_zero : placeValue 0 = 0 := by simp [placeValue, magValue_zero]

/-- Every place is a multiple of the least magnitude. -/
theorem placeValue_grid (i : Int) : ∃ z : ℤ, ((placeValue i : ℚ) : ℝ) = z * 2 ^ (-149 : ℤ) := by
  have hmag : ∀ k : ℕ, ∃ z : ℤ, ((fp32.magValue k : ℚ) : ℝ) = z * 2 ^ (-149 : ℤ) := fun k => by
    have hqmin : fp32.qmin = -149 := by decide
    unfold FpFmt.magValue
    rw [hqmin]
    split
    · exact ⟨k, by push_cast; rfl⟩
    · refine ⟨((2 ^ fp32.frac + k % 2 ^ fp32.frac : ℕ) : ℤ) * 2 ^ (k / 2 ^ fp32.frac - 1), ?_⟩
      rw [zpow_add₀ two_ne_zero, zpow_natCast, Int.cast_mul, Int.cast_natCast, Rat.cast_mul, Rat.cast_natCast, Rat.cast_mul]
      push_cast
      ring
  unfold placeValue
  obtain ⟨z, hz⟩ := hmag i.natAbs
  split
  · exact ⟨-z, by push_cast; rw [hz]; ring⟩
  · exact ⟨z, hz⟩

/-- The argument of an exponential at a place. -/
noncomputable def cutAt (i : Int) : ℝ := cutArg ((placeValue i : ℚ) : ℝ)

theorem cutArg_mono {x y : ℝ} (h : x ≤ y) : cutArg x ≤ cutArg y := max_le_max le_rfl (min_le_min le_rfl h)

theorem cutAt_mono {i j : Int} (h : i ≤ j) : cutAt i ≤ cutAt j := cutArg_mono (by rw [Rat.cast_le]; exact placeValue_mono h)

theorem cutAt_abs (i : Int) : |cutAt i| ≤ 256 := cutArg_abs _

theorem cutAt_grid (i : Int) : ∃ z : ℤ, cutAt i = z * 2 ^ (-149 : ℤ) := by
  have h256 : (256 : ℝ) = ((2 ^ 157 : ℤ) : ℝ) * 2 ^ (-149 : ℤ) := by norm_num
  obtain ⟨z, hz⟩ := placeValue_grid i
  unfold cutAt cutArg
  rcases le_total (256 : ℝ) ((placeValue i : ℚ) : ℝ) with h | h
  · rw [min_eq_left h, max_eq_right (by norm_num)]
    exact ⟨_, h256⟩
  · rw [min_eq_right h]
    rcases le_total (-256 : ℝ) ((placeValue i : ℚ) : ℝ) with h' | h'
    · rw [max_eq_right h']; exact ⟨z, hz⟩
    · rw [max_eq_left h']
      exact ⟨-2 ^ 157, by rw [h256]; push_cast; ring⟩

theorem grid_gap {a b : ℝ} {z w : ℤ} (ha : a = z * 2 ^ (-149 : ℤ)) (hb : b = w * 2 ^ (-149 : ℤ)) (h : a < b) : 2 ^ (-149 : ℤ) ≤ b - a := by
  have hu : (0 : ℝ) < 2 ^ (-149 : ℤ) := by positivity
  rw [ha, hb] at h ⊢
  have hzw : z < w := by exact_mod_cast lt_of_mul_lt_mul_right h hu.le
  have : (z : ℝ) + 1 ≤ w := by exact_mod_cast hzw
  nlinarith

theorem cutAt_gap {i j : Int} (h : i ≤ j) : cutAt i = cutAt j ∨ 2 ^ (-149 : ℤ) ≤ cutAt j - cutAt i := by
  obtain ⟨z, hz⟩ := cutAt_grid i
  obtain ⟨w, hw⟩ := cutAt_grid j
  exact (cutAt_mono h).eq_or_lt.imp_right (grid_gap hz hw)

theorem placeValue_gap {i j : Int} (h : i < j) : (2 : ℝ) ^ (-149 : ℤ) ≤ ((placeValue j : ℚ) : ℝ) - (placeValue i : ℚ) := by
  obtain ⟨z, hz⟩ := placeValue_grid i
  obtain ⟨w, hw⟩ := placeValue_grid j
  exact grid_gap hz hw (by rw [Rat.cast_lt]; exact placeValue_strictMono h)

/-! # Estimates -/

/-- A computed magnitude near a real one. -/
def Estimate (y : FVal) (v : ℝ) : Prop := |y.mid - v| ≤ 4500 * 2 ^ y.expo

theorem FVal.Computed.estimate {y : FVal} {v : ℝ} (h : y.Computed v) : ∃ s, y.IsMag s ∧ y.sign = s ∧ Estimate y (signOf s * v) := by
  obtain ⟨s, m, e, rfl, hd, hf⟩ := h
  exact ⟨s, ⟨s, m, e, rfl, fun _ => rfl, hf⟩, rfl, computed_mag hd⟩

theorem mul_zpow_le {c : ℝ} {a b : ℤ} (h : c ≤ 2 ^ (b - a)) : c * 2 ^ a ≤ (2 : ℝ) ^ b := by
  have := mul_le_mul_of_nonneg_right h (by positivity : (0 : ℝ) ≤ 2 ^ a)
  rwa [← zpow_add₀ two_ne_zero, sub_add_cancel] at this

theorem error_le_expo (y : FVal) : (fixError : ℝ) * 2 ^ y.expo = 32768 * 2 ^ y.expo := by simp only [fixError]; norm_num

section

variable {y y' : FVal} {v v' : ℝ} (h : Estimate y v) (h' : Estimate y' v')
include h

include h' in
/-- Computed magnitudes are in order where the real ones stand apart. -/
theorem ordered_of_gap (hgap : 40000 * (2 : ℝ) ^ y.expo + 40000 * 2 ^ y'.expo ≤ v' - v) : Ordered y y' := by
  have h1 := (abs_le.1 h).2
  have h2 := (abs_le.1 h').1
  have p1 : (0 : ℝ) < 2 ^ y.expo := by positivity
  have p2 : (0 : ℝ) < 2 ^ y'.expo := by positivity
  refine ⟨?_, ?_, ?_⟩
  · linarith
  · unfold FVal.low
    rw [error_le_expo, error_le_expo]
    linarith
  · unfold FVal.high
    rw [error_le_expo, error_le_expo]
    linarith

/-- A computed magnitude lies on one side of a power of two where the real one stands apart from it. -/
theorem apart_of_gap {k : Int} (hgap : 40000 * (2 : ℝ) ^ y.expo ≤ |v - 2 ^ k|) : y.Apart k := by
  obtain ⟨h1, h2⟩ := abs_le.1 h
  have p1 : (0 : ℝ) < 2 ^ y.expo := by positivity
  unfold FVal.Apart FVal.low FVal.high
  rw [error_le_expo]
  rcases le_abs.1 hgap with hg | hg
  · exact ⟨fun hlt => by linarith, fun _ => by linarith⟩
  · exact ⟨fun _ => by linarith, fun hge => by linarith⟩

theorem mant_ne_zero_of_gap (hgap : 40000 * (2 : ℝ) ^ y.expo ≤ v) : y.mant ≠ 0 := fun h0 => by
  have h1 := (abs_le.1 h).1
  have p1 : (0 : ℝ) < 2 ^ y.expo := by positivity
  rw [FVal.mid, h0, Nat.cast_zero, zero_mul] at h1
  linarith

end

/-- A computed magnitude with a relative precision. -/
def Fit (y : FVal) (v : ℝ) : Prop := Estimate y v ∧ 0 < v ∧ (2 : ℝ) ^ y.expo ≤ v * 2 ^ (-390 : ℤ)

section

variable {y y' : FVal} {v v' : ℝ} (h : Fit y v) (h' : Fit y' v')
include h

include h' in
theorem Fit.ordered {k : ℤ} (hk : -350 ≤ k) (hle : v ≤ v') (hgap : v' * 2 ^ k ≤ v' - v) : Ordered y y' := by
  obtain ⟨h1, h0, h2⟩ := h
  obtain ⟨h1', h0', h2'⟩ := h'
  refine ordered_of_gap h1 h1' (le_trans ?_ hgap)
  have h3 : (80000 : ℝ) * 2 ^ (-390 : ℤ) ≤ 2 ^ k :=
    mul_zpow_le ((by norm_num : (80000 : ℝ) ≤ 2 ^ (17 : ℤ)).trans (zpow_le_zpow_right₀ one_le_two (by omega)))
  have h4 : v * (2 : ℝ) ^ (-390 : ℤ) ≤ v' * 2 ^ (-390 : ℤ) := mul_le_mul_of_nonneg_right hle (by positivity)
  have h5 := mul_le_mul_of_nonneg_left h3 h0'.le
  linarith

theorem Fit.apart {j k : ℤ} (hj : -350 ≤ j) (hgap : v * 2 ^ j ≤ |v - 2 ^ k|) : y.Apart k := by
  obtain ⟨h1, h0, h2⟩ := h
  refine apart_of_gap h1 (le_trans ?_ hgap)
  have h3 : (40000 : ℝ) * 2 ^ (-390 : ℤ) ≤ 2 ^ j :=
    mul_zpow_le ((by norm_num : (40000 : ℝ) ≤ 2 ^ (17 : ℤ)).trans (zpow_le_zpow_right₀ one_le_two (by omega)))
  have h5 := mul_le_mul_of_nonneg_left h3 h0.le
  linarith

theorem Fit.ne : y.mant ≠ 0 := by
  obtain ⟨h1, h0, h2⟩ := h
  refine mant_ne_zero_of_gap h1 ?_
  have h3 : (40000 : ℝ) * 2 ^ (-390 : ℤ) ≤ 2 ^ (0 : ℤ) :=
    mul_zpow_le ((by norm_num : (40000 : ℝ) ≤ 2 ^ (16 : ℤ)).trans (zpow_le_zpow_right₀ one_le_two (by decide)))
  rw [zpow_zero] at h3
  have h5 := mul_le_mul_of_nonneg_left h3 h0.le
  linarith

theorem Fit.le_two_mul : y.mid ≤ 2 * v ∧ v ≤ 2 * y.mid := by
  obtain ⟨h1, h0, h2⟩ := h
  obtain ⟨a, b⟩ := abs_le.1 h1
  have h3 : (4500 : ℝ) * 2 ^ (-390 : ℤ) ≤ 2 ^ (-1 : ℤ) :=
    mul_zpow_le ((by norm_num : (4500 : ℝ) ≤ 2 ^ (16 : ℤ)).trans (zpow_le_zpow_right₀ one_le_two (by decide)))
  rw [zpow_neg_one] at h3
  have h5 := mul_le_mul_of_nonneg_left h3 h0.le
  constructor <;> linarith

end

end Sys2Proof.Machine

namespace Sys2Proof.Machine

/-! # The exponentials by place -/

theorem FVal.NearReal.estimate {y : FVal} {v : ℝ} (h : y.NearReal v 4500) (hf : y.IsFine) (hs : y.sign = false) : y.IsMag false ∧ Estimate y v := by
  obtain ⟨s, hm, hsign, he⟩ := (hf.computed h).estimate
  obtain rfl : s = false := hsign.symm.trans hs
  simp only [signOf, Bool.false_eq_true, if_false, Int.cast_one, one_mul] at he
  exact ⟨hm, he⟩

/-- A scaled pair near a real fits it. -/
theorem Scaled.fit {k : Int} {p : Int × Int} (h : Scaled k p) {v : ℝ} (hn : (fixVal p.1 p.2).NearReal v 4500) :
    (fixVal p.1 p.2).IsMag false ∧ Fit (fixVal p.1 p.2) v ∧ (2 : ℝ) ^ k ≤ (fixVal p.1 p.2).mid := by
  obtain ⟨hv, hlow, -⟩ := h.value
  have hmag := hn.estimate h.isFine (by rw [hv]; rfl)
  have hexpo : (fixVal p.1 p.2).expo = k - 400 := by rw [hv]; rfl
  have hmid : (2 : ℝ) ^ k ≤ (fixVal p.1 p.2).mid := by rw [hv]; exact hlow
  obtain ⟨hm, he⟩ := hmag
  have hle := (abs_le.1 he).2
  rw [hexpo] at hle
  have hk : (2 : ℝ) ^ (k - 400) = 2 ^ k * 2 ^ (-400 : ℤ) := by rw [← zpow_add₀ two_ne_zero]; rfl
  have hk0 : (0 : ℝ) < 2 ^ k := by positivity
  have h1 : (4500 : ℝ) * 2 ^ (-400 : ℤ) ≤ 2 ^ (-1 : ℤ) :=
    mul_zpow_le ((by norm_num : (4500 : ℝ) ≤ 2 ^ (16 : ℤ)).trans (zpow_le_zpow_right₀ one_le_two (by decide)))
  rw [zpow_neg_one] at h1
  have h2 := mul_le_mul_of_nonneg_left h1 hk0.le
  rw [hk] at hle
  have hv2 : (2 : ℝ) ^ k ≤ 2 * v := by linarith
  refine ⟨hm, ⟨he, by linarith, ?_⟩, hmid⟩
  rw [hexpo, hk]
  have h3 : (2 : ℝ) * 2 ^ (-400 : ℤ) ≤ 2 ^ (-390 : ℤ) := mul_zpow_le (by norm_num)
  have h4 : (0 : ℝ) < 2 ^ (-400 : ℤ) := by positivity
  have h5 := mul_le_mul_of_nonneg_right hv2 h4.le
  have h6 : (0 : ℝ) < v := by linarith
  have h7 := mul_le_mul_of_nonneg_left h3 h6.le
  linarith

/-- The computed exponential at a place, by its argument in fixed point. -/
theorem exp_at {i : Int} (hi : i.natAbs ≤ fp32.maxCode) :
    ∃ w : ℤ, trueAt .exp i = fixVal (fixPowE w).1 (fixPowE w).2 ∧ (w : ℝ) / fixOne = cutAt i ∧ |w| ≤ 256 * fixOne := by
  by_cases h0 : i = 0
  · subst h0
    refine ⟨0, by decide +kernel, ?_, by rw [abs_zero]; have := fixOne_pos; omega⟩
    rw [cutAt, placeValue_zero, cutArg_of_small (by norm_num)]
    simp
  · obtain ⟨m, e, hd, hp, hv⟩ := place_parts hi h0
    have he : -400 ≤ e := by have := hp.exp; omega
    refine ⟨fixArg (decide (i < 0)) m e, ?_, ?_, fixArg_abs hp.ne he⟩
    · rw [trueAt_place .exp hd hp.ne, trueValue_exp]
    · rw [cutAt, ← hv]; exact fixArg_real hp.ne he

theorem fixPowE_fit {w : ℤ} (hw : |w| ≤ 256 * fixOne) :
    (fixVal (fixPowE w).1 (fixPowE w).2).IsMag false ∧ Fit (fixVal (fixPowE w).1 (fixPowE w).2) (Real.exp (w / fixOne)) ∧
      (2 : ℝ) ^ (w / fixLn2) ≤ (fixVal (fixPowE w).1 (fixPowE w).2).mid := by
  have hq := ediv_fixLn2_abs (hw.trans (by have := fixOne_pos; omega))
  have hqR : |((fixPowE w).2 : ℝ)| ≤ 1000 := by exact_mod_cast hq
  exact (fixPowE_scaled w).fit (nearReal_fixVal ((fixPowE_near w hq).trans (by linarith)))

theorem one_le_shrunk {d c E : ℝ} (hd : 0 < d) (hd1 : d ≤ 1) (hc : 0 < c) (hc1 : c ≤ 1 / 2) (hE : d + 1 ≤ E) : 1 ≤ (1 - d * c) * E := by
  have h1 : d * c ≤ c := mul_le_of_le_one_left hc.le hd1
  have h2 : (1 - d * c) * (d + 1) ≤ (1 - d * c) * E := mul_le_mul_of_nonneg_left hE (by linarith)
  have h3 : 0 ≤ d * (1 - c - d * c) := mul_nonneg hd.le (by linarith)
  linarith

/-- Exponentials of arguments a step apart. -/
theorem exp_gap {a b : ℝ} (h : 2 ^ (-220 : ℤ) ≤ b - a) : Real.exp b * 2 ^ (-300 : ℤ) ≤ Real.exp b - Real.exp a := by
  have hd : (0 : ℝ) < 2 ^ (-220 : ℤ) := by positivity
  have h1 : Real.exp a ≤ Real.exp b * Real.exp (-2 ^ (-220 : ℤ)) := by
    rw [← Real.exp_add]; exact Real.exp_le_exp.2 (by linarith)
  have h2 : Real.exp (-2 ^ (-220 : ℤ)) ≤ 1 - 2 ^ (-300 : ℤ) := by
    have h3 := Real.add_one_le_exp ((2 : ℝ) ^ (-220 : ℤ))
    rw [Real.exp_neg, inv_le_iff_one_le_mul₀ (Real.exp_pos _)]
    have h4 : (2 : ℝ) ^ (-300 : ℤ) = 2 ^ (-220 : ℤ) * 2 ^ (-80 : ℤ) := by rw [← zpow_add₀ two_ne_zero]; rfl
    have h5 : (2 : ℝ) ^ (-220 : ℤ) ≤ 1 := zpow_le_one_of_nonpos₀ one_le_two (by decide)
    have h6 : (2 : ℝ) ^ (-80 : ℤ) ≤ 1 / 2 := by norm_num
    have h7 : (0 : ℝ) < 2 ^ (-80 : ℤ) := by positivity
    rw [h4]
    exact one_le_shrunk hd h5 h7 h6 h3
  have h3 := mul_le_mul_of_nonneg_left h2 (Real.exp_pos b).le
  linarith

theorem exp_gap_le {a b : ℝ} (h : 2 ^ (-220 : ℤ) ≤ b - a) : Real.exp a ≤ Real.exp b :=
  Real.exp_le_exp.2 (by have : (0 : ℝ) < 2 ^ (-220 : ℤ) := by positivity
                        linarith)

theorem exp_apart {a b : ℝ} (h : 2 ^ (-220 : ℤ) ≤ |a - b|) : Real.exp a * 2 ^ (-300 : ℤ) ≤ |Real.exp a - Real.exp b| := by
  rcases le_abs.1 h with h | h
  · exact (exp_gap h).trans (le_abs_self _)
  · rw [neg_sub] at h
    rw [abs_sub_comm]
    refine le_trans (le_trans ?_ (exp_gap h)) (le_abs_self _)
    exact mul_le_mul_of_nonneg_right (exp_gap_le h) (by positivity)

theorem step_large : (2 : ℝ) ^ (-220 : ℤ) ≤ 2 ^ (-149 : ℤ) := zpow_le_zpow_right₀ one_le_two (by decide)

theorem exp_ordered {i j : Int} (hi : i.natAbs ≤ fp32.maxCode) (hj : j.natAbs ≤ fp32.maxCode) (hij : i ≤ j) : Ordered (trueAt .exp i) (trueAt .exp j) := by
  obtain ⟨w, hw, hc, hb⟩ := exp_at hi
  obtain ⟨w', hw', hc', hb'⟩ := exp_at hj
  rw [hw, hw']
  rcases cutAt_gap hij with h | h
  · have : w = w' := by
      rw [← hc, ← hc', div_left_inj' fixOne_posR.ne'] at h
      exact_mod_cast h
    rw [this]
    exact Ordered.refl _
  · obtain ⟨-, f1, -⟩ := fixPowE_fit hb
    obtain ⟨-, f2, -⟩ := fixPowE_fit hb'
    rw [hc] at f1
    rw [hc'] at f2
    have h := step_large.trans h
    exact f1.ordered f2 (by decide) (exp_gap_le h) (exp_gap h)

/-! ## No exponential lies beside a power of two -/

/-- Integers whose remainder is far from 0 are far from every multiple. -/
theorem far_from_multiples {N P D : ℤ} (hP : 0 < P) (h1 : D ≤ N % P) (h2 : N % P ≤ P - D) (z : ℤ) : D ≤ |z * P - N| := by
  have hN := Int.emod_add_mul_ediv N P
  rcases le_or_gt z (N / P) with h | h
  · rw [abs_sub_comm]
    have h3 : z * P ≤ P * (N / P) := by rw [mul_comm]; exact mul_le_mul_of_nonneg_left h hP.le
    exact le_trans (by linarith) (le_abs_self _)
  · have h3 : P * (N / P + 1) ≤ z * P := by rw [mul_comm z]; exact mul_le_mul_of_nonneg_left (by omega) hP.le
    exact le_trans (by linarith) (le_abs_self _)

/-- The multiples of ln 2 in fixed point, off the multiples of 2^-149. -/
theorem fixLn2_multiples : ∀ k : Fin 450, (2 : ℤ) ^ 210 ≤ ((k : ℤ) + 1) * fixLn2 % 2 ^ 251 ∧ ((k : ℤ) + 1) * fixLn2 % 2 ^ 251 ≤ 2 ^ 251 - 2 ^ 210 := by
  decide +kernel

theorem grid_far {N : ℤ} (h1 : (2 : ℤ) ^ 210 ≤ N % 2 ^ 251) (h2 : N % 2 ^ 251 ≤ 2 ^ 251 - 2 ^ 210) (z : ℤ) :
    (2 : ℝ) ^ (-190 : ℤ) ≤ |(z : ℝ) * (2 : ℝ) ^ (-149 : ℤ) - N / fixOne| := by
  have h := far_from_multiples (by positivity) h1 h2 z
  have hR : (2 : ℝ) ^ 210 ≤ |(z : ℝ) * 2 ^ 251 - N| := by exact_mod_cast h
  have hS : (0 : ℝ) < fixOne := fixOne_posR
  have he : (z : ℝ) * 2 ^ (-149 : ℤ) - N / fixOne = (z * 2 ^ 251 - N) / fixOne := by
    rw [sub_div]
    congr 1
    rw [cast_fixOneR, ← zpow_natCast, mul_div_assoc, ← zpow_sub₀ two_ne_zero]
    rfl
  rw [he, abs_div, abs_of_pos hS, le_div_iff₀ hS, cast_fixOneR, ← zpow_add₀ two_ne_zero]
  refine le_trans (le_of_eq ?_) hR
  norm_num

/-- So are the reals that such integers come near. -/
theorem grid_far_of_close {N : ℤ} (h1 : (2 : ℤ) ^ 210 ≤ N % 2 ^ 251) (h2 : N % 2 ^ 251 ≤ 2 ^ 251 - 2 ^ 210) {x : ℝ} (hx : |fixOne * x - N| ≤ 2 ^ (150 : ℤ))
    (z : ℤ) : (2 : ℝ) ^ (-200 : ℤ) ≤ |(z : ℝ) * (2 : ℝ) ^ (-149 : ℤ) - x| := by
  have h := grid_far h1 h2 z
  have hS := fixOne_posR
  have hdiff : |x - N / fixOne| ≤ 2 ^ (-200 : ℤ) := by
    have e1 : x - N / fixOne = (fixOne * x - N) / fixOne := by field_simp
    have e2 : (2 : ℝ) ^ (-200 : ℤ) * fixOne = 2 ^ (200 : ℤ) := by rw [cast_fixOneR, ← zpow_add₀ two_ne_zero]; rfl
    rw [e1, abs_div, abs_of_pos hS, div_le_iff₀ hS, e2]
    exact hx.trans (zpow_le_zpow_right₀ one_le_two (by decide : (150 : ℤ) ≤ 200))
  have hbig : (2 : ℝ) * 2 ^ (-200 : ℤ) ≤ 2 ^ (-190 : ℤ) := mul_zpow_le (by norm_num)
  have htri := abs_sub_abs_le_abs_sub ((z : ℝ) * (2 : ℝ) ^ (-149 : ℤ) - N / fixOne) (x - N / fixOne)
  rw [sub_sub_sub_cancel_right] at htri
  generalize |(z : ℝ) * (2 : ℝ) ^ (-149 : ℤ) - N / fixOne| = A at *
  generalize |x - N / fixOne| = B at *
  linarith only [h, htri, hdiff, hbig]

theorem grid_far_of_near {N : ℤ} (h1 : (2 : ℤ) ^ 210 ≤ N % 2 ^ 251) (h2 : N % 2 ^ 251 ≤ 2 ^ 251 - 2 ^ 210) {x : ℝ} (hx : |fixOne * x - N| ≤ 60000)
    (z : ℤ) : (2 : ℝ) ^ (-200 : ℤ) ≤ |(z : ℝ) * (2 : ℝ) ^ (-149 : ℤ) - x| :=
  grid_far_of_close h1 h2 (hx.trans ((by norm_num : (60000 : ℝ) ≤ 2 ^ (16 : ℤ)).trans (zpow_le_zpow_right₀ one_le_two (by decide)))) z

/-- A multiple of 2^-149 lies off the multiples of ln 2. -/
theorem ln2_far {k : ℤ} (h0 : k ≠ 0) (hk : |k| ≤ 450) (z : ℤ) : (2 : ℝ) ^ (-200 : ℤ) ≤ |(z : ℝ) * (2 : ℝ) ^ (-149 : ℤ) - k * Real.log 2| := by
  have pos : ∀ j : ℤ, 1 ≤ j → j ≤ 450 → ∀ z : ℤ, (2 : ℝ) ^ (-200 : ℤ) ≤ |(z : ℝ) * (2 : ℝ) ^ (-149 : ℤ) - j * Real.log 2| := by
    intro j h1 h2 z
    obtain ⟨a, b⟩ := fixLn2_multiples ⟨(j - 1).toNat, by omega⟩
    have hj : (((⟨(j - 1).toNat, by omega⟩ : Fin 450) : ℕ) : ℤ) + 1 = j := by
      show (((j - 1).toNat : ℕ) : ℤ) + 1 = j
      omega
    rw [hj] at a b
    obtain ⟨c, d⟩ := fixLn2_real
    have e1 : fixOne * (j * Real.log 2) - ((j * fixLn2 : ℤ) : ℝ) = j * (fixOne * Real.log 2 - fixLn2) := by
      push_cast; ring
    have hj0 : (0 : ℝ) ≤ j := by exact_mod_cast (by omega : (0 : ℤ) ≤ j)
    have hj1 : (j : ℝ) ≤ 450 := by exact_mod_cast h2
    refine grid_far_of_near a b ?_ z
    rw [e1, abs_mul, abs_of_nonneg hj0, abs_of_nonneg (by linarith)]
    nlinarith
  rcases lt_or_gt_of_ne h0 with h | h
  · have := pos (-k) (by omega) (by rw [abs_of_neg h] at hk; exact hk) (-z)
    rw [← abs_neg]
    push_cast at this ⊢
    convert this using 2
    ring
  · exact pos k (by omega) (by rw [abs_of_pos h] at hk; exact hk) z

/-- The exponential of a multiple of 2^-149, not 0, stands apart from the powers of two. -/
theorem exp_power_apart {x : ℝ} {z : ℤ} (hx : x = z * 2 ^ (-149 : ℤ)) (h0 : x ≠ 0) {k : ℤ} (hk : |k| ≤ 450) :
    Real.exp x * 2 ^ (-300 : ℤ) ≤ |Real.exp x - 2 ^ k| := by
  have hp : (2 : ℝ) ^ k = Real.exp (k * Real.log 2) := by
    rw [mul_comm, ← Real.rpow_def_of_pos two_pos, Real.rpow_intCast]
  rw [hp]
  refine exp_apart ?_
  by_cases hk0 : k = 0
  · rw [hk0, Int.cast_zero, zero_mul, sub_zero]
    refine step_large.trans ?_
    have hz : z ≠ 0 := by
      rintro rfl
      exact h0 (by rw [hx]; simp)
    have : (1 : ℝ) ≤ |(z : ℝ)| := by exact_mod_cast Int.one_le_abs hz
    rw [hx, abs_mul, abs_of_pos (by positivity : (0 : ℝ) < 2 ^ (-149 : ℤ))]
    nlinarith [(by positivity : (0 : ℝ) < 2 ^ (-149 : ℤ))]
  · rw [hx]
    exact (zpow_le_zpow_right₀ one_le_two (by decide)).trans (ln2_far hk0 hk z)

end Sys2Proof.Machine

namespace Sys2Proof.Machine

/-! # exp rises (R63) -/

theorem exp_256_le : Real.exp 256 ≤ 2 ^ (420 : ℤ) := by
  have h1 : Real.exp 1 ≤ 3 := by linarith [Real.exp_one_lt_d9]
  have h2 : Real.exp 256 = (Real.exp 1 ^ 16) ^ 16 := by rw [← pow_mul, ← Real.exp_nat_mul]; norm_num
  have h3 : Real.exp 1 ^ 16 ≤ 2 ^ 26 := (pow_le_pow_left₀ (Real.exp_pos 1).le h1 16).trans (by norm_num)
  calc Real.exp 256 = (Real.exp 1 ^ 16) ^ 16 := h2
    _ ≤ (2 ^ 26) ^ 16 := pow_le_pow_left₀ (by positivity) h3 16
    _ = 2 ^ (416 : ℤ) := by rw [← pow_mul, ← zpow_natCast]; rfl
    _ ≤ 2 ^ (420 : ℤ) := zpow_le_zpow_right₀ one_le_two (by decide)

theorem cutAt_ne_zero {i : Int} (h : i ≠ 0) : cutAt i ≠ 0 := by
  have hx : ((placeValue i : ℚ) : ℝ) ≠ 0 := by
    rw [Ne, Rat.cast_eq_zero, ← placeValue_zero]
    exact fun h' => h (placeValue_strictMono.injective h')
  unfold cutAt cutArg
  rcases lt_or_gt_of_ne hx with h | h
  · exact ne_of_lt (max_lt (by norm_num) (min_lt_of_right_lt h))
  · exact ne_of_gt (lt_max_of_lt_right (lt_min (by norm_num) h))

section

variable {i : Int} (hi : i.natAbs ≤ fp32.maxCode)
include hi

theorem exp_fit : (trueAt .exp i).IsMag false ∧ Fit (trueAt .exp i) (Real.exp (cutAt i)) := by
  obtain ⟨w, hw, hc, hb⟩ := exp_at hi
  obtain ⟨h1, h2, -⟩ := fixPowE_fit hb
  rw [hw, ← hc]
  exact ⟨h1, h2⟩

theorem exp_signed : SignedAt .exp false i := ⟨(exp_fit hi).1, (exp_fit hi).2.ne⟩

theorem exp_mid_le : (trueAt .exp i).mid ≤ 2 ^ (421 : ℤ) := by
  have h1 := (exp_fit hi).2.le_two_mul.1
  have h2 : Real.exp (cutAt i) ≤ Real.exp 256 := Real.exp_le_exp.2 (abs_le.1 (cutAt_abs i)).2
  have h3 : (2 : ℝ) ^ (421 : ℤ) = 2 * 2 ^ (420 : ℤ) := by rw [← zpow_one_add₀ two_ne_zero]; rfl
  rw [h3]
  linarith [exp_256_le]

/-- An exponential but that of 0 is apart from every power of two it may meet. -/
theorem exp_at_apart (h0 : i ≠ 0) {k : ℤ} (hk : -126 < k) (hk' : k ≤ 421) : (trueAt .exp i).Apart k := by
  obtain ⟨z, hz⟩ := cutAt_grid i
  exact (exp_fit hi).2.apart (by decide) (exp_power_apart hz (cutAt_ne_zero h0) (abs_le.2 ⟨by omega, by omega⟩))

end

theorem exp_at_zero : (trueAt .exp 0).mid = 1 := by
  have h : trueAt .exp 0 = fixVal fixOne 0 := by decide +kernel
  rw [h]
  have hm : (fixOne.natAbs : ℝ) = 2 ^ (400 : ℤ) := by
    rw [← cast_fixOneR, Nat.cast_natAbs, abs_of_pos fixOne_pos]
  show (fixOne.natAbs : ℝ) * 2 ^ ((0 : ℤ) - 400) = 1
  rw [hm, ← zpow_add₀ two_ne_zero]
  rfl

theorem cutAt_lowest : cutAt (-fp32.maxCode) ≤ -256 := by
  have hx : ((placeValue (-fp32.maxCode) : ℚ) : ℝ) ≤ -256 := by
    rw [placeValue_neg, placeValue_natCast, regular_fp32.top]
    simp only [FpFmt.top, fp32]
    norm_num
  unfold cutAt cutArg
  exact max_le le_rfl ((min_le_right _ _).trans hx)

theorem power_lt_421 {k : ℤ} {x : ℝ} (h : (2 : ℝ) ^ k ≤ x) (hx : x ≤ 2 ^ (421 : ℤ)) : k ≤ 421 :=
  (zpow_le_zpow_iff_right₀ (one_lt_two (α := ℝ))).1 (h.trans hx)

theorem rising_exp : Rising .exp false (-fp32.maxCode) fp32.maxCode where
  number t h1 h2 := (exp_fit (by unfold along; simp only [Bool.false_eq_true, if_false]; omega)).1
  ordered s t h1 h2 h3 := exp_ordered (i := s) (j := t) (by omega) (by omega) h2
  apart p k h1 h2 hk hbelow habove := by
    have hp : p.natAbs ≤ fp32.maxCode := by omega
    have hp1 : (p + 1).natAbs ≤ fp32.maxCode := by omega
    have hnext : (2 : ℝ) ^ k ≤ (trueAt .exp (p + 1)).mid := habove (p + 1) (by omega) (by omega)
    by_cases h0 : p = 0
    · -- The one exact point: its power of two is not the one below which it lies last.
      exfalso
      subst h0
      have hlow : (1 : ℝ) < 2 ^ k := by
        have : (trueAt .exp 0).mid < 2 ^ k := hbelow
        rwa [exp_at_zero] at this
      have hk1 : 0 < k := by
        rw [← zpow_zero (2 : ℝ)] at hlow
        exact (zpow_lt_zpow_iff_right₀ (one_lt_two (α := ℝ))).1 hlow
      have h2k : (2 : ℝ) ≤ 2 ^ k := by
        have := zpow_le_zpow_right₀ (one_le_two (α := ℝ)) (by omega : 1 ≤ k)
        rwa [zpow_one] at this
      have hfit := (exp_fit hp1).2
      obtain ⟨he, -, hu⟩ := hfit
      have hsmall : cutAt (0 + 1) ≤ 1 / 4 := by
        have hx : ((placeValue (0 + 1) : ℚ) : ℝ) = 2 ^ (-149 : ℤ) := by
          rw [zero_add, show (1 : ℤ) = ((1 : ℕ) : ℤ) from rfl, placeValue_natCast, magValue_small (by decide), Nat.cast_one, one_mul]
        have hq : (2 : ℝ) ^ (-149 : ℤ) ≤ 1 / 4 := by
          have := zpow_le_zpow_right₀ (one_le_two (α := ℝ)) (by decide : (-149 : ℤ) ≤ -2)
          norm_num at this ⊢
        unfold cutAt
        rw [hx, cutArg_of_small (by rw [abs_of_pos (by positivity)]; exact hq.trans (by norm_num))]
        exact hq
      have hv : Real.exp (cutAt (0 + 1)) ≤ 4 / 3 := by
        refine (Real.exp_le_exp.2 hsmall).trans ?_
        have := Real.one_sub_le_exp_neg (1 / 4)
        rw [Real.exp_neg, le_inv_comm₀ (by norm_num) (Real.exp_pos _)] at this
        norm_num at this ⊢
        exact this
      have h390 : (4500 : ℝ) * 2 ^ (-390 : ℤ) ≤ 2 ^ (-2 : ℤ) :=
        mul_zpow_le ((by norm_num : (4500 : ℝ) ≤ 2 ^ (16 : ℤ)).trans (zpow_le_zpow_right₀ one_le_two (by decide)))
      have h4 : (2 : ℝ) ^ (-2 : ℤ) = 1 / 4 := by norm_num
      rw [h4] at h390
      have hup := (abs_le.1 he).2
      have hprod := mul_le_mul_of_nonneg_left h390 (Real.exp_pos (cutAt (0 + 1))).le
      generalize Real.exp (cutAt (0 + 1)) = v at *
      generalize (2 : ℝ) ^ (-390 : ℤ) = u at *
      linarith
    · have ha : ∀ j : ℤ, -126 < j → j ≤ 421 → (trueAt .exp p).Apart j := fun j h1 h2 => exp_at_apart hp h0 h1 h2
      exact ⟨ha k hk (power_lt_421 hnext (exp_mid_le hp1)), fun j hj hle => ha j hj (power_lt_421 hle (exp_mid_le hp))⟩
  start := by
    have hlo : (-(fp32.maxCode : ℤ)).natAbs ≤ fp32.maxCode := by omega
    have h1 := (exp_fit hlo).2.le_two_mul.1
    have hcut := cutAt_lowest
    have h2 := exp_neg_small (v := -cutAt (-fp32.maxCode)) (by linarith)
    rw [neg_neg] at h2
    have h3 : (2 : ℝ) * 2 ^ (-200 : ℤ) ≤ 2 ^ (-126 : ℤ) := mul_zpow_le (by norm_num)
    have h4 : (2 : ℝ) ^ (-126 : ℤ) < 2 ^ (-125 : ℤ) := zpow_lt_zpow_right₀ one_lt_two (by decide)
    show (trueAt .exp (-fp32.maxCode)).mid < _
    linarith

end Sys2Proof.Machine

namespace Sys2Proof.Machine

/-! # Results over all inputs, from both sides of a fixed one -/

/-- The results from one place to another rise. -/
def Climbs (fn : SpecialFn) (lo hi : Int) : Prop := ∀ i j, lo ≤ i → i ≤ j → j ≤ hi → resultPlace fn i ≤ resultPlace fn j

/-- Results rise over two open sides and the three places that bound them. -/
theorem climbs_of_sides {fn : SpecialFn} {lo mid hi vlo v vhi : Int} (h1 : lo < mid) (h2 : mid < hi) (hlo : resultPlace fn lo = vlo)
    (hmid : resultPlace fn mid = v) (hhi : resultPlace fn hi = vhi)
    (hleft : ∀ i, lo < i → i < mid → vlo ≤ resultPlace fn i ∧ resultPlace fn i ≤ v)
    (hright : ∀ i, mid < i → i < hi → v ≤ resultPlace fn i ∧ resultPlace fn i ≤ vhi) (hle : vlo ≤ v) (hle' : v ≤ vhi)
    (hl : ∀ i j, lo < i → i < j → j < mid → resultPlace fn i ≤ resultPlace fn j)
    (hr : ∀ i j, mid < i → i < j → j < hi → resultPlace fn i ≤ resultPlace fn j) : Climbs fn lo hi := by
  intro i j hi1 hij hj1
  rcases hij.eq_or_lt with rfl | hij
  · exact le_rfl
  have upto : ∀ i, lo ≤ i → i ≤ mid → resultPlace fn i ≤ v := fun i a b => by
    rcases b.eq_or_lt with rfl | b
    · exact hmid.le
    · rcases a.eq_or_lt with rfl | a
      · rw [hlo]; exact hle
      · exact (hleft i a b).2
  have from_mid : ∀ j, mid ≤ j → j ≤ hi → v ≤ resultPlace fn j := fun j a b => by
    rcases a.eq_or_lt with rfl | a
    · exact hmid.ge
    · rcases b.eq_or_lt with rfl | b
      · rw [hhi]; exact hle'
      · exact (hright j a b).1
  rcases lt_or_ge j mid with hj | hj
  · rcases hi1.eq_or_lt with rfl | hi1
    · rw [hlo]; exact (hleft j (by omega) hj).1
    · exact hl i j hi1 hij hj
  · rcases le_or_gt i mid with hi' | hi'
    · exact (upto i hi1 hi').trans (from_mid j hj hj1)
    · rcases hj1.eq_or_lt with rfl | hj1
      · rw [hhi]; exact (hright i hi' hij).2
      · exact hr i j hi' hij hj1

theorem decode_infinite (neg : Bool) : decodeFp fp32 (fp32.signed neg fp32.infCode) = .inf neg := by cases neg <;> decide

theorem infCode_eq : fp32.infCode = 0x7F800000 ∧ fp32.maxCode = 0x7F7FFFFF := by decide

/-- The result of an infinity. -/
theorem resultPlace_inf (fn : SpecialFn) (neg : Bool) : resultPlace fn (signedPlace neg fp32.infCode) = fpPlace (fn.atInf neg).1 := by
  have : fpAtPlace false (signedPlace neg fp32.infCode) = fp32.signed neg fp32.infCode := by cases neg <;> decide
  rw [resultPlace, this, special32_inf (decode_infinite neg)]

/-- The result of zero. -/
theorem resultPlace_zero (fn : SpecialFn) : resultPlace fn 0 = fpPlace (fn.atZero 0).1 := by
  have h0 : fpAtPlace false 0 = 0 := by decide
  have hd : decodeFp fp32 0 = .fin false 0 (-149) := by decide
  rw [resultPlace, h0, special32_zero hd]

/-- What an admitted place keeps to. -/
theorem AdmitsAt.facts {fn : SpecialFn} {n : Bool} {i : Int} {neg : Bool} {m : Nat} {e : Int} (h : OpenAt fn i neg m e) (hi : SignedAt fn n i)
    (hinf : nearCode fn i ≠ fp32.infCode) {c : Int} (ha : AdmitsAt fn i c) : InRangeAt fn n c ∧ PinSide fn i c ∧ c.natAbs ≤ fp32.maxCode := by
  have hm := (near_natAbs h hi hinf).1
  have hmax := (Admits.place ha hm).2
  obtain ⟨-, hmay, -, hpin⟩ := ha
  rw [hi.sign, mayBe_iff] at hmay
  exact ⟨hmay.1, hpin, hmax⟩

/-- The places of the numbers in a range. -/
theorem InRangeAt.place {fn : SpecialFn} {n : Bool} {c : Int} (h : InRangeAt fn n c) (hc : c.natAbs ≤ fp32.maxCode) :
    (fn = .exp2 ∨ fn = .exp ∨ fn = .sigm → 0 ≤ c) ∧ (fn = .tanh ∨ fn = .sigm → c.natAbs ≤ 0x3F800000) := by
  obtain ⟨hr, n', m, e, hd⟩ := h
  have hmax := maxCode_lt
  obtain ⟨hn, -, hv⟩ := place_of_number (by omega) hd
  rw [hd] at hr
  obtain ⟨h1, h2⟩ := inRange_number hr
  constructor
  · intro hfn
    have := h1 hfn
    by_contra hlt
    rw [this, placeSign_of_ne (by omega), decide_eq_true (by omega)] at hn
    cases hn
  · intro hfn
    have habs := h2 (by rcases hfn with rfl | rfl <;> simp)
    rw [hv] at habs
    have hmag : fp32.magValue c.natAbs ≤ fp32.magValue 0x3F800000 := by
      rw [magValue_one.1]
      refine le_trans (le_of_eq ?_) habs
      unfold placeValue
      have := magValue_nonneg fp32 c.natAbs
      split
      · rw [abs_neg, abs_of_nonneg this]
      · rw [abs_of_nonneg this]
    exact (magValue_strictMono fp32).le_iff_le.1 hmag

/-- A finite input that is not 0 has an open result, of the functions that Table 9 fixes nowhere else. -/
theorem open_at {fn : SpecialFn} (hfn : fn = .exp ∨ fn = .tanh ∨ fn = .sigm) {i : Int} (hi : i.natAbs ≤ fp32.maxCode) (h0 : i ≠ 0) :
    ∃ m e, OpenAt fn i (decide (i < 0)) m e ∧ Parts m e := by
  obtain ⟨m, e, hd, hp, -⟩ := place_parts hi h0
  refine ⟨m, e, ⟨hi, hd, hp.ne, ?_, ?_⟩, hp⟩
  · rcases hfn with rfl | rfl | rfl <;> simp
  · rcases hfn with rfl | rfl | rfl <;> simp [ExactPoint]

theorem keepsSide_of_range {fn : SpecialFn} (hfn : fn = .exp2 ∨ fn = .exp ∨ fn = .sigm) (i : Int) : KeepsSide fn false i := fun c hc hr _ => by
  have := (hr.place hc).1 hfn
  rw [sideOf_iff]
  simpa using this

/-! ## exp -/

theorem pinSide_exp {i c : Int} : PinSide .exp i c ↔ if i > 0 then 0x3F800000 ≤ c else c ≤ 0x3F800000 :=
  ⟨fun h => h 0 _ rfl, fun h i0 v0 hp => by cases hp; exact h⟩

theorem powerPlace_zero : powerPlace 0 = 0x3F800000 := by decide

theorem exp_near_pin {i : Int} (hi : i.natAbs ≤ fp32.maxCode) (h0 : i ≠ 0) (hinf : nearCode .exp i ≠ fp32.infCode) :
    PinSide .exp i (fpPlace (nearCode .exp i)) := by
  obtain ⟨m, e, ho, -⟩ := open_at (fn := .exp) (.inl rfl) hi h0
  obtain ⟨-, -, hp, -⟩ := near_natAbs ho (exp_signed hi) hinf
  rw [pinSide_exp, hp]
  have hone := exp_at_zero
  split
  · next hpos =>
    have hle := (exp_ordered (i := 0) (j := i) (by simp) hi (by omega)).mid
    rw [hone] at hle
    have := power_le_near (fn := .exp) (i := i) (n := false) (k := 0) (by decide) (by rw [zpow_zero]; exact hle)
    rw [powerPlace_zero] at this
    exact this
  · have hle := (exp_ordered (i := i) (j := 0) hi (by simp) (by omega)).mid
    rw [hone] at hle
    have := roundMag_le regular_fp32 .rn false (trueAt .exp i).expo (exp_signed hi).ne (b := 0x3F800000)
      (by rw [magValue_one.1, Rat.cast_one]; exact hle)
    simp only [signedPlace, Bool.false_eq_true, if_false]
    omega

theorem exp_admitted {i : Int} (hi : i.natAbs ≤ fp32.maxCode) (h0 : i ≠ 0) (hinf : nearCode .exp i ≠ fp32.infCode) :
    AdmitsAt .exp i (fpPlace (nearCode .exp i)) := by
  obtain ⟨m, e, ho, -⟩ := open_at (fn := .exp) (.inl rfl) hi h0
  exact rising_exp.near_admits ho (exp_signed hi) (by unfold along; simp only [Bool.false_eq_true, if_false]; omega)
    (by unfold along; simp only [Bool.false_eq_true, if_false]; omega) hinf (exp_near_pin hi h0 hinf)

theorem exp_near_finite {i : Int} (hi : i.natAbs ≤ fp32.maxCode) (h0 : i < 0) : nearCode .exp i ≠ fp32.infCode := fun hinf => by
  have hs := exp_signed hi
  have hle := (exp_ordered (i := i) (j := 0) hi (by simp) (by omega)).mid
  rw [exp_at_zero] at hle
  have := roundMag_le regular_fp32 .rn false (trueAt .exp i).expo hs.ne (b := 0x3F800000)
    (by rw [magValue_one.1, Rat.cast_one]; exact hle)
  obtain ⟨⟨s, a, g, hy, hsn, -⟩, hm⟩ := hs
  rw [hy] at hm this
  rw [nearCode, hy, hsn hm] at hinf
  have h2 := (near_eq_inf_iff hm false g).1 hinf
  have : fp32.maxCode = 0x7F7FFFFF := by decide
  simp only [FVal.mant, FVal.expo] at *
  omega

theorem exp_bounds {i : Int} (hi : i.natAbs ≤ fp32.maxCode) (h0 : i ≠ 0) : 0 ≤ resultPlace .exp i ∧ resultPlace .exp i ≤ fp32.infCode ∧
    PinSide .exp i (resultPlace .exp i) := by
  obtain ⟨m, e, ho, -⟩ := open_at (fn := .exp) (.inl rfl) hi h0
  have hcodes := infCode_eq
  by_cases hinf : nearCode .exp i = fp32.infCode
  · rw [ho.resultPlace_overflow hinf, pinSide_exp, if_pos]
    · omega
    · by_contra hle
      exact exp_near_finite hi (by omega) hinf
  · obtain ⟨ha, hmax⟩ := ho.resultPlace_admits (by simp) (by simp) hinf (exp_admitted hi h0 hinf)
    obtain ⟨hr, hp, -⟩ := AdmitsAt.facts ho (exp_signed hi) hinf ha
    exact ⟨(hr.place hmax).1 (.inr (.inl rfl)), by omega, hp⟩

theorem exp_open_le {i j : Int} (hi : i.natAbs ≤ fp32.maxCode) (hj : j.natAbs ≤ fp32.maxCode) (hi0 : i ≠ 0) (hj0 : j ≠ 0) (hij : i < j)
    (hside : i > 0 ↔ j > 0) : resultPlace .exp i ≤ resultPlace .exp j := by
  obtain ⟨m, e, ho, -⟩ := open_at (fn := .exp) (.inl rfl) hi hi0
  obtain ⟨m', e', ho', -⟩ := open_at (fn := .exp) (.inl rfl) hj hj0
  have hrank : ∀ p : Int, p.natAbs ≤ fp32.maxCode → -(fp32.maxCode : ℤ) ≤ along false p ∧ along false p ≤ fp32.maxCode := fun p hp => by
    unfold along; simp only [Bool.false_eq_true, if_false]; omega
  have hap : ∀ p : Int, p.natAbs ≤ fp32.maxCode → p ≠ 0 → ∀ k, -126 < k → (2 : ℝ) ^ k ≤ (trueAt .exp p).mid → (trueAt .exp p).Apart k :=
    fun p hp h0 k hk h => exp_at_apart hp h0 hk (power_lt_421 h (exp_mid_le hp))
  exact rising_exp.open_le (by simp) (by simp) ho ho' hij (exp_signed hi) (exp_signed hj) (fun _ => rfl) (hrank i hi) (hrank j hj)
    (hap i hi hi0) (hap j hj hj0) (keepsSide_of_range (.inr (.inl rfl)) i) (keepsSide_of_range (.inr (.inl rfl)) j)
    (PinSide.same fun i0 v0 hp => by cases hp; exact hside) (exp_near_pin hi hi0) (exp_near_pin hj hj0)

theorem climbs_exp : Climbs .exp (signedPlace true fp32.infCode) (signedPlace false fp32.infCode) := by
  obtain ⟨c1, c2⟩ := infCode_eq
  have hl : signedPlace true fp32.infCode = -0x7F800000 := by rw [c1]; rfl
  have hh : signedPlace false fp32.infCode = 0x7F800000 := by rw [c1]; rfl
  have hb := fun i (h1 : i.natAbs ≤ fp32.maxCode) (h0 : i ≠ 0) => exp_bounds h1 h0
  simp only [pinSide_exp] at hb
  refine climbs_of_sides (mid := 0) (vlo := 0) (v := 0x3F800000) (vhi := 0x7F800000) (by omega) (by omega) ?_ ?_ ?_ ?_ ?_
    (by decide) (by decide) ?_ ?_
  · rw [resultPlace_inf]; decide
  · rw [resultPlace_zero]; decide
  · rw [resultPlace_inf]; decide
  · intro i h1 h2
    have := hb i (by omega) (by omega)
    rw [if_neg (by omega)] at this
    omega
  · intro i h1 h2
    have := hb i (by omega) (by omega)
    rw [if_pos (by omega)] at this
    omega
  · exact fun i j h1 h2 h3 => exp_open_le (by omega) (by omega) (by omega) (by omega) h2 (by omega)
  · exact fun i j h1 h2 h3 => exp_open_le (by omega) (by omega) (by omega) (by omega) h2 (by omega)

end Sys2Proof.Machine

namespace Sys2Proof.Machine

/-! # Faithful functions with their exact points (R63) -/

/-- A place whose neighbours enclose a number, or infinity for a number beyond the largest finite one. -/
def BracketAt (r : Int) (v : ℝ) : Prop :=
  (r.natAbs ≤ fp32.maxCode ∧ ((placeValue (r - 1) : ℚ) : ℝ) < v ∧ v < (placeValue (r + 1) : ℚ)) ∨ (r = fp32.infCode ∧ (fp32.top : ℝ) < v)

/-- A place with a number's very value. -/
def ExactAt (r : Int) (v : ℝ) : Prop := r.natAbs ≤ fp32.maxCode ∧ ((placeValue r : ℚ) : ℝ) = v

theorem placeValue_lt {a b : Int} : ((placeValue a : ℚ) : ℝ) < (placeValue b : ℚ) ↔ a < b := by
  rw [Rat.cast_lt, placeValue_strictMono.lt_iff_lt]

theorem placeValue_le_top {r : Int} (h : r.natAbs ≤ fp32.maxCode) : ((placeValue r : ℚ) : ℝ) ≤ fp32.top := by
  have h1 : placeValue r ≤ placeValue (fp32.maxCode : ℤ) := placeValue_mono (by omega)
  rw [placeValue_natCast, regular_fp32.top] at h1
  exact_mod_cast h1

theorem ExactAt.le_bracket {r s : Int} {v w : ℝ} (h : ExactAt r v) (h' : BracketAt s w) (hvw : v ≤ w) : r ≤ s := by
  obtain ⟨h1, rfl⟩ := h
  rcases h' with ⟨-, -, h2⟩ | ⟨rfl, -⟩
  · have := placeValue_lt.1 (hvw.trans_lt h2); omega
  · have := maxCode_lt_infCode; omega

theorem BracketAt.le_exact {r s : Int} {v w : ℝ} (h : BracketAt r v) (h' : ExactAt s w) (hvw : v ≤ w) : r ≤ s := by
  obtain ⟨h1, rfl⟩ := h'
  rcases h with ⟨-, h2, -⟩ | ⟨rfl, h2⟩
  · have := placeValue_lt.1 (h2.trans_le hvw); omega
  · exact absurd (h2.trans_le hvw) (not_lt.2 (placeValue_le_top h1))

section

variable {fn : SpecialFn} (hs : fn ≠ .sin) (hc : fn ≠ .cos) (hb : ∀ x, ulpBound fn x = none) (hpin : fn.pin = none)
include hs hc hb hpin

/-- An open result of a faithful function, by its value and its side. -/
theorem OpenAt.bracket {n : Bool} {i : Int} {neg : Bool} {m : Nat} {e : Int} (h : OpenAt fn i neg m e) (hi : SignedAt fn n i) :
    BracketAt (resultPlace fn i) (fn.cutValue ((placeValue i : ℚ) : ℝ)) ∧ (nearCode fn i ≠ fp32.infCode → SideOf n (resultPlace fn i)) := by
  have hst := h.stands
  have hsign := hi.sign
  by_cases hinf : nearCode fn i = fp32.infCode
  · refine ⟨.inr ⟨h.resultPlace_overflow hinf, ?_⟩, fun h => absurd hinf h⟩
    obtain ⟨s, a, g, hy, hnear, hf⟩ := hst.computed
    rw [nearCode, hy] at hinf
    rw [hy] at hnear
    have htop := near_inf hf hinf
    have hs0 : s = false := by
      obtain ⟨k, -, hk⟩ := roundFp_signed .rn false s a g
      rw [hk, signed_fp32] at hinf
      have := infCode_eq.1
      cases s
      · rfl
      · simp at hinf; omega
    subst hs0
    have hmag := (abs_le.1 (computed_mag hnear)).2
    simp only [signOf, Bool.false_eq_true, if_false, Int.cast_one, one_mul] at hmag
    have herr : (4500 : ℝ) * 2 ^ g ≤ fixError * 2 ^ g := mul_le_mul_of_nonneg_right (by simp only [fixError]; norm_num) (by positivity)
    linarith
  · obtain ⟨ha, hmax⟩ := h.resultPlace_admits hs hc hinf (h.near_admits hinf (by simp [hb]) (by simp [hpin]))
    obtain ⟨hm, -, -, hlt⟩ := near_natAbs h hi hinf
    have hside := ((admits_faithful hsign hm (hb _) hi.mag hlt hpin _).1 ha).2.2.1
    obtain ⟨-, hmay, -⟩ := ha
    rw [hsign, mayBe_iff, hb, show resultPlace fn i = signedPlace n (resultPlace fn i).natAbs from hside, fpAtPlace_signedPlace] at hmay
    refine ⟨.inl ⟨hmax, ?_⟩, fun _ => hside⟩
    rw [show resultPlace fn i = signedPlace n (resultPlace fn i).natAbs from hside]
    obtain ⟨s, a, g, hy, hnear, hf⟩ := hst.computed
    rw [hy] at hnear hsign hmay hlt
    obtain rfl : s = n := hsign
    refine between_of_faithful hnear ?_ hmay.2
    rw [Nat.cast_add, add_mul]
    exact hlt

end

/-! ## exp2 -/

/-- The computed power at a place, by its argument in fixed point. -/
theorem exp2_at {i : Int} (hi : i.natAbs ≤ fp32.maxCode) (h0 : i ≠ 0) :
    ∃ w : ℤ, trueAt .exp2 i = fixVal (fixPow2 w).1 (fixPow2 w).2 ∧ (w : ℝ) / fixOne = cutAt i := by
  obtain ⟨m, e, hd, hp, hv⟩ := place_parts hi h0
  have he : -400 ≤ e := by have := hp.exp; omega
  refine ⟨fixArg (decide (i < 0)) m e, ?_, ?_⟩
  · rw [trueAt_place .exp2 hd hp.ne, trueValue_exp2]
  · rw [cutAt, ← hv]; exact fixArg_real hp.ne he

theorem two_rpow (x : ℝ) : (2 : ℝ) ^ x = Real.exp (x * Real.log 2) := by rw [mul_comm, Real.rpow_def_of_pos two_pos]

theorem fixPow2_fit (w : ℤ) : (fixVal (fixPow2 w).1 (fixPow2 w).2).IsMag false ∧ Fit (fixVal (fixPow2 w).1 (fixPow2 w).2) ((2 : ℝ) ^ ((w : ℝ) / fixOne)) := by
  obtain ⟨h1, h2, -⟩ := (fixPow2_scaled w).fit (nearReal_fixVal ((fixPow2_near w).trans (by norm_num)))
  exact ⟨h1, h2⟩

theorem exp2_fit {i : Int} (hi : i.natAbs ≤ fp32.maxCode) (h0 : i ≠ 0) : (trueAt .exp2 i).IsMag false ∧ Fit (trueAt .exp2 i) ((2 : ℝ) ^ cutAt i) := by
  obtain ⟨w, hw, hc⟩ := exp2_at hi h0
  rw [hw, ← hc]
  exact fixPow2_fit w

theorem exp2_signed {i : Int} (hi : i.natAbs ≤ fp32.maxCode) (h0 : i ≠ 0) : SignedAt .exp2 false i := ⟨(exp2_fit hi h0).1, (exp2_fit hi h0).2.ne⟩

theorem exp2_ordered {i j : Int} (hi : i.natAbs ≤ fp32.maxCode) (hj : j.natAbs ≤ fp32.maxCode) (hi0 : i ≠ 0) (hj0 : j ≠ 0) (hij : i ≤ j) :
    Ordered (trueAt .exp2 i) (trueAt .exp2 j) := by
  obtain ⟨w, hw, hc⟩ := exp2_at hi hi0
  obtain ⟨w', hw', hc'⟩ := exp2_at hj hj0
  rcases cutAt_gap hij with h | h
  · have : w = w' := by
      rw [← hc, ← hc', div_left_inj' fixOne_posR.ne'] at h
      exact_mod_cast h
    rw [hw, hw', this]
    exact Ordered.refl _
  · have f1 := (exp2_fit hi hi0).2
    have f2 := (exp2_fit hj hj0).2
    rw [two_rpow] at f1 f2
    have hln : (1 : ℝ) / 2 ≤ Real.log 2 := by linarith [Real.log_two_gt_d9]
    have hstep : (2 : ℝ) ^ (-220 : ℤ) ≤ cutAt j * Real.log 2 - cutAt i * Real.log 2 := by
      have h1 : (2 : ℝ) ^ (-149 : ℤ) * (1 / 2) ≤ (cutAt j - cutAt i) * Real.log 2 := mul_le_mul h hln (by norm_num) (by
        have : (0 : ℝ) < 2 ^ (-149 : ℤ) := by positivity
        linarith)
      have h2 : (2 : ℝ) ^ (-220 : ℤ) ≤ 2 ^ (-149 : ℤ) * (1 / 2) := by
        rw [show (1 / 2 : ℝ) = 2 ^ (-1 : ℤ) by norm_num, ← zpow_add₀ two_ne_zero]
        exact zpow_le_zpow_right₀ one_le_two (by decide)
      rw [← sub_mul]
      exact h2.trans h1
    exact f1.ordered f2 (by decide) (exp_gap_le hstep) (exp_gap hstep)

/-- The result at each finite place: exact, or open and bracketing its value. -/
theorem exp2_cases {i : Int} (hi : i.natAbs ≤ fp32.maxCode) :
    ExactAt (resultPlace .exp2 i) ((2 : ℝ) ^ cutAt i) ∨
      (i ≠ 0 ∧ ∃ neg m e, OpenAt .exp2 i neg m e ∧ BracketAt (resultPlace .exp2 i) ((2 : ℝ) ^ cutAt i)) := by
  by_cases h0 : i = 0
  · subst h0
    left
    have hr : resultPlace .exp2 0 = 0x3F800000 := by rw [resultPlace_zero]; decide
    rw [hr, cutAt, placeValue_zero, cutArg_of_small (by norm_num)]
    refine ⟨by decide, ?_⟩
    rw [show (0x3F800000 : ℤ) = ((0x3F800000 : ℕ) : ℤ) from rfl, placeValue_natCast, magValue_one.1]
    simp
  · obtain ⟨m, e, hd, hp, hv⟩ := place_parts hi h0
    by_cases hint : (integerIn (decide (i < 0)) m e (-149) 127).isSome
    · left
      obtain ⟨n, hn⟩ := Option.isSome_iff_exists.1 hint
      obtain ⟨hvn, h1, h2⟩ := value_of_integerIn hn
      obtain ⟨a, g, hda, hva⟩ := exactPoint_exp2 hd hp.ne hint
      have hcode : (special32 .exp2 (fpAtPlace false i)).1 < 2 ^ 32 := by
        have := maxCode_lt
        exact special32_lt (fpAtPlace_lt _ (by omega))
      obtain ⟨-, hmax, hplace, -⟩ := code_place hcode hda
      refine ⟨hmax, ?_⟩
      rw [resultPlace, ← hplace, hva, cutAt, ← hv, cutArg_of_small]
      rw [hvn, Rat.cast_intCast, abs_le]
      have h1R : (-149 : ℝ) ≤ n := by exact_mod_cast h1
      have h2R : (n : ℝ) ≤ 127 := by exact_mod_cast h2
      constructor <;> linarith
    · right
      have ho : OpenAt .exp2 i (decide (i < 0)) m e := ⟨hi, hd, hp.ne, by simp, by simpa [ExactPoint] using hint⟩
      exact ⟨h0, _, m, e, ho, (ho.bracket (by simp) (by simp) (fun _ => rfl) rfl (exp2_signed hi h0)).1⟩

theorem exp2_le {i j : Int} (hi : i.natAbs ≤ fp32.maxCode) (hj : j.natAbs ≤ fp32.maxCode) (hij : i < j) :
    resultPlace .exp2 i ≤ resultPlace .exp2 j := by
  have hv : (2 : ℝ) ^ cutAt i ≤ 2 ^ cutAt j := Real.rpow_le_rpow_of_exponent_le one_le_two (cutAt_mono hij.le)
  rcases exp2_cases hi with he | ⟨hi0, n, m, e, ho, hb⟩
  · rcases exp2_cases hj with he' | ⟨-, -, -, -, -, hb'⟩
    · obtain ⟨h1, h2⟩ := he
      obtain ⟨h1', h2'⟩ := he'
      rw [← h2, ← h2', Rat.cast_le, placeValue_strictMono.le_iff_le] at hv
      exact hv
    · exact he.le_bracket hb' hv
  · rcases exp2_cases hj with he' | ⟨hj0, n', m', e', ho', hb'⟩
    · exact hb.le_exact he' hv
    · exact faithful_open_le (by simp) (by simp) ho ho' hij (exp2_signed hi hi0) (exp2_signed hj hj0) (fun _ => rfl) rfl
        (exp2_ordered hi hj hi0 hj0 hij.le)

/-- The finite results lie between 0 and infinity. -/
theorem exp2_bounds {i : Int} (hi : i.natAbs ≤ fp32.maxCode) : 0 ≤ resultPlace .exp2 i ∧ resultPlace .exp2 i ≤ fp32.infCode := by
  have hpos : (0 : ℝ) < 2 ^ cutAt i := Real.rpow_pos_of_pos two_pos _
  have hz : ((placeValue 0 : ℚ) : ℝ) = 0 := by rw [placeValue_zero, Rat.cast_zero]
  have hm := maxCode_lt_infCode
  rcases exp2_cases hi with ⟨h1, h2⟩ | ⟨-, -, -, -, -, ⟨h1, -, h2⟩ | ⟨h1, -⟩⟩
  · rw [← h2, ← hz, placeValue_lt] at hpos
    omega
  · have := hpos.trans h2
    rw [← hz, placeValue_lt] at this
    omega
  · omega

theorem climbs_exp2 : Climbs .exp2 (signedPlace true fp32.infCode) (signedPlace false fp32.infCode) := by
  obtain ⟨c1, c2⟩ := infCode_eq
  have hl : signedPlace true fp32.infCode = -0x7F800000 := by rw [c1]; rfl
  have hh : signedPlace false fp32.infCode = 0x7F800000 := by rw [c1]; rfl
  have hb := fun (i : Int) (h1 : i.natAbs ≤ fp32.maxCode) => exp2_bounds h1
  refine climbs_of_sides (mid := 0) (vlo := 0) (v := resultPlace .exp2 0) (vhi := 0x7F800000) (by omega) (by omega) ?_ rfl ?_ ?_ ?_
    ?_ ?_ ?_ ?_
  · rw [resultPlace_inf]; decide
  · rw [resultPlace_inf]; decide
  · intro i h1 h2
    exact ⟨(hb i (by omega)).1, exp2_le (by omega) (by omega) h2⟩
  · intro i h1 h2
    exact ⟨exp2_le (by omega) (by omega) h1, by have := (hb i (by omega)).2; omega⟩
  · exact (hb 0 (by simp)).1
  · have := (hb 0 (by simp)).2; omega
  · exact fun i j h1 h2 h3 => exp2_le (by omega) (by omega) h2
  · exact fun i j h1 h2 h3 => exp2_le (by omega) (by omega) h2

end Sys2Proof.Machine

namespace Sys2Proof.Machine

/-! # Fixed-point exponentials rise -/

theorem fixMul_mono {a b c d : ℤ} (ha : 0 ≤ a) (hac : a ≤ c) (hb : 0 ≤ b) (hbd : b ≤ d) : fixMul a b ≤ fixMul c d :=
  Int.ediv_le_ediv fixOne_pos (mul_le_mul hac hbd hb (ha.trans hac))

theorem fixMul_nonneg {a b : ℤ} (ha : 0 ≤ a) (hb : 0 ≤ b) : 0 ≤ fixMul a b := Int.ediv_nonneg (mul_nonneg ha hb) fixOne_pos.le

theorem expTerms_mono {r r' : ℤ} (hr : 0 ≤ r) (hrr : r ≤ r') (n : Nat) : ∀ (t t' : ℤ) (k : Nat) (acc acc' : ℤ), 0 ≤ t → t ≤ t' → acc ≤ acc' →
    expTerms n r t k acc ≤ expTerms n r' t' k acc' := by
  induction n with
  | zero => exact fun _ _ _ _ _ _ _ h => h
  | succ n ih =>
    intro t t' k acc acc' ht htt hacc
    have hk : (0 : ℤ) < ((k + 1 : Nat) : ℤ) := by positivity
    exact ih _ _ _ _ _ (Int.ediv_nonneg (fixMul_nonneg ht hr) hk.le) (Int.ediv_le_ediv hk (fixMul_mono ht htt hr hrr)) (by omega)

theorem fixExp_mono {r r' : ℤ} (hr : 0 ≤ r) (hrr : r ≤ r') : fixExp r ≤ fixExp r' :=
  expTerms_mono hr hrr 100 _ _ _ _ _ fixOne_pos.le le_rfl le_rfl

/-- Below ln 2 an exponential is at most 2. -/
theorem fixExp_le_two {r : ℤ} (h0 : 0 ≤ r) (h1 : r ≤ fixLn2) : fixExp r ≤ 2 * fixOne := by
  have hS := fixOne_posR
  have h := (fixExp_real h0 (h1.trans fixLn2_bounds.2)).1
  have hr : (r : ℝ) / fixOne ≤ Real.log 2 := by
    rw [div_le_iff₀ hS, mul_comm]
    exact (Int.cast_le.2 h1).trans fixLn2_real.1
  have he : Real.exp (r / fixOne) ≤ 2 := (Real.exp_le_exp.2 hr).trans (le_of_eq (Real.exp_log two_pos))
  have : (fixExp r : ℝ) ≤ 2 * fixOne := by
    have := mul_le_mul_of_nonneg_left he hS.le
    linarith
  exact_mod_cast this

theorem fixPowE_parts (w : ℤ) : fixOne ≤ (fixPowE w).1 ∧ (fixPowE w).1 ≤ 2 * fixOne :=
  ⟨(fixPowE_scaled w).1, fixExp_le_two (Int.emod_nonneg _ fixLn2_bounds.1.ne') (Int.emod_lt_of_pos _ fixLn2_bounds.1).le⟩

theorem ediv_pow_succ_le {a b : ℤ} (hab : a ≤ 2 * b) (hb : 0 ≤ b) {d c : Nat} (hdc : d < c) : a / 2 ^ c ≤ b / 2 ^ d := by
  obtain ⟨k, rfl⟩ : ∃ k, c = d + 1 + k := ⟨c - (d + 1), by omega⟩
  rw [pow_add, pow_succ]
  have h1 : a / (2 ^ d * 2 * 2 ^ k) ≤ 2 * b / (2 ^ d * 2 * 2 ^ k) := Int.ediv_le_ediv (by positivity) hab
  have h2 : 2 * b / (2 ^ d * 2 * 2 ^ k) = b / (2 ^ d * 2 ^ k) := by
    rw [show (2 : ℤ) ^ d * 2 * 2 ^ k = 2 * (2 ^ d * 2 ^ k) by ring, Int.mul_ediv_mul_of_pos _ _ two_pos]
  have h3 : b / (2 ^ d * 2 ^ k) ≤ b / 2 ^ d := by
    rw [← Int.ediv_ediv_of_nonneg (by positivity)]
    exact Int.ediv_le_self _ (Int.ediv_nonneg hb (by positivity))
  omega

/-- Exponentials of arguments below 0, in fixed point, rise. -/
theorem fixShift_mono {w w' : ℤ} (h : w ≤ w') (h' : w' < 0) : fixShift (fixPowE w) ≤ fixShift (fixPowE w') := by
  obtain ⟨a1, a2⟩ := fixPowE_parts w
  obtain ⟨b1, b2⟩ := fixPowE_parts w'
  have hq : (fixPowE w).2 ≤ (fixPowE w').2 := Int.ediv_le_ediv fixLn2_bounds.1 h
  have hq' : (fixPowE w').2 < 0 := Int.ediv_neg_of_neg_of_pos h' fixLn2_bounds.1
  have hS := fixOne_pos
  unfold fixShift
  rw [if_neg (by omega), if_neg (by omega)]
  rcases hq.eq_or_lt with he | hlt
  · have hle : (fixPowE w).1 ≤ (fixPowE w').1 := by
      refine fixExp_mono (Int.emod_nonneg _ fixLn2_bounds.1.ne') ?_
      have e1 := Int.emod_add_mul_ediv w fixLn2
      have e2 := Int.emod_add_mul_ediv w' fixLn2
      have he : w / fixLn2 = w' / fixLn2 := he
      rw [he] at e1
      linarith
    rw [he]
    exact Int.ediv_le_ediv (by positivity) hle
  · exact ediv_pow_succ_le (by linarith) (by linarith) (by omega)

/-- Down to -256 they do not vanish. -/
theorem fixShift_pos {w : ℤ} (h : -(256 * fixOne) ≤ w) (h' : w < 0) : 0 < fixShift (fixPowE w) := by
  obtain ⟨a1, -⟩ := fixPowE_parts w
  have hq : -370 ≤ (fixPowE w).2 := by
    show -370 ≤ w / fixLn2
    rw [Int.le_ediv_iff_mul_le fixLn2_bounds.1]
    have : -370 * fixLn2 ≤ -(256 * fixOne) := by decide +kernel
    omega
  have hq' : (fixPowE w).2 < 0 := Int.ediv_neg_of_neg_of_pos h' fixLn2_bounds.1
  unfold fixShift
  rw [if_neg (by omega)]
  have h1 : (2 : ℤ) ^ (-(fixPowE w).2).toNat ≤ 2 ^ 370 := pow_le_pow_right₀ (by decide) (by omega)
  have h2 : (2 : ℤ) ^ 370 ≤ fixOne := by decide +kernel
  have h3 : 1 ≤ (fixPowE w).1 / 2 ^ (-(fixPowE w).2).toNat := by
    rw [Int.le_ediv_iff_mul_le (by positivity), one_mul]
    exact h1.trans (h2.trans a1)
  omega

/-! # Sizes of arguments by place -/

/-- A size in fixed point rises with it. -/
theorem fixMag_mono {m m' : Nat} {e e' : Int} (h : Parts m e) (h' : Parts m' e') (hle : (m : ℝ) * 2 ^ e ≤ m' * 2 ^ e') : fixMag m e ≤ fixMag m' e' := by
  have h1 := (fixMag_parts h).2.2
  have h2 := (fixMag_parts h').2.2
  have hs : sizeArg m e ≤ sizeArg m' e' := min_le_min le_rfl hle
  rw [← h1, ← h2, div_le_div_iff_of_pos_right fixOne_posR] at hs
  exact_mod_cast hs

end Sys2Proof.Machine

namespace Sys2Proof.Machine

/-! # The sigmoid below 0 -/

noncomputable def sigmoid (c : ℝ) : ℝ := 1 / (1 + Real.exp (-c))

theorem sigmoid_eq (c : ℝ) : sigmoid c = Real.exp c / (1 + Real.exp c) := by
  have := Real.exp_pos c
  rw [sigmoid, Real.exp_neg]
  field_simp
  ring

theorem sigmoid_sub (a b : ℝ) : sigmoid b - sigmoid a = (Real.exp b - Real.exp a) / ((1 + Real.exp a) * (1 + Real.exp b)) := by
  have := Real.exp_pos a
  have := Real.exp_pos b
  rw [sigmoid_eq, sigmoid_eq, div_sub_div _ _ (by positivity) (by positivity)]
  congr 1 <;> ring

section

variable {a b : ℝ} (ha : a ≤ 0)
include ha

theorem exp_le_one_of_neg : Real.exp a ≤ 1 := Real.exp_le_one_iff.2 ha

theorem sigmoid_bounds : Real.exp a / 2 ≤ sigmoid a ∧ sigmoid a ≤ Real.exp a := by
  have h0 := Real.exp_pos a
  have h1 := exp_le_one_of_neg ha
  rw [sigmoid_eq]
  constructor
  · exact div_le_div_of_nonneg_left h0.le (by positivity) (by linarith)
  · exact div_le_self h0.le (by linarith)

variable (hb : b ≤ 0)
include hb

theorem sigmoid_spread : |Real.exp b - Real.exp a| / 4 ≤ |sigmoid b - sigmoid a| := by
  have h0 := Real.exp_pos a
  have h1 := exp_le_one_of_neg ha
  have h0' := Real.exp_pos b
  have h1' := exp_le_one_of_neg hb
  rw [sigmoid_sub, abs_div, abs_of_pos (by positivity : (0 : ℝ) < (1 + Real.exp a) * (1 + Real.exp b))]
  refine div_le_div_of_nonneg_left (abs_nonneg _) (by positivity) ?_
  nlinarith

end

theorem zpow_quarter (k : ℤ) : (2 : ℝ) ^ k / 4 = 2 ^ (k - 2) := by
  rw [zpow_sub₀ two_ne_zero]; norm_num

/-- Sigmoids of arguments a step apart. -/
theorem sigmoid_gap {a b : ℝ} (hb : b ≤ 0) (h : 2 ^ (-220 : ℤ) ≤ b - a) : sigmoid a ≤ sigmoid b ∧ sigmoid b * 2 ^ (-302 : ℤ) ≤ sigmoid b - sigmoid a := by
  have hstep : (0 : ℝ) < 2 ^ (-220 : ℤ) := by positivity
  have ha : a ≤ 0 := by linarith
  have hle := exp_gap_le h
  have hgap := exp_gap h
  have hspread := sigmoid_spread ha hb
  have hnn : 0 ≤ sigmoid b - sigmoid a := by
    have := Real.exp_pos a
    have := Real.exp_pos b
    rw [sigmoid_sub]
    exact div_nonneg (by linarith) (by positivity)
  rw [abs_of_nonneg (by linarith), abs_of_nonneg hnn] at hspread
  refine ⟨by linarith, le_trans ?_ hspread⟩
  have h1 := mul_le_mul_of_nonneg_right (sigmoid_bounds hb).2 (by positivity : (0 : ℝ) ≤ 2 ^ (-302 : ℤ))
  have h2 : (2 : ℝ) ^ (-302 : ℤ) = 2 ^ (-300 : ℤ) / 4 := by rw [zpow_quarter]; rfl
  refine h1.trans ?_
  rw [h2, ← mul_div_assoc]
  exact div_le_div_of_nonneg_right hgap (by norm_num)

theorem sigmoid_apart {a b : ℝ} (ha : a ≤ 0) (hb : b ≤ 0) (h : 2 ^ (-220 : ℤ) ≤ |a - b|) :
    sigmoid a * 2 ^ (-302 : ℤ) ≤ |sigmoid a - sigmoid b| := by
  have h1 := exp_apart h
  have h2 := sigmoid_spread hb ha
  have h3 := mul_le_mul_of_nonneg_right (sigmoid_bounds ha).2 (by positivity : (0 : ℝ) ≤ 2 ^ (-302 : ℤ))
  have h4 : (2 : ℝ) ^ (-302 : ℤ) = 2 ^ (-300 : ℤ) / 4 := by rw [zpow_quarter]; rfl
  refine h3.trans (le_trans ?_ h2)
  rw [h4, ← mul_div_assoc]
  exact div_le_div_of_nonneg_right h1 (by norm_num)

/-- The computed sigmoid below 0, by its argument in fixed point. -/
def sigmBelow (w : ℤ) : FVal :=
  fixVal (fixMul (fixPowE w).1 (fixOne * fixOne / (fixOne + fixShift (fixPowE w)))) (fixPowE w).2

section

variable {i : Int} (hi : i.natAbs ≤ fp32.maxCode) (h0 : i < 0)
include hi h0

theorem sigm_below_at : ∃ w : ℤ, trueAt .sigm i = sigmBelow w ∧ (w : ℝ) / fixOne = cutAt i ∧ |w| ≤ 256 * fixOne ∧ w < 0 := by
  obtain ⟨m, e, hd, hp, hv⟩ := place_parts hi h0.ne
  rw [decide_eq_true h0] at hd hv
  have he : -400 ≤ e := by have := hp.exp; omega
  obtain ⟨m1, m2, m3⟩ := fixMag_parts hp
  have harg : fixArg true m e = -fixMag m e := fixArg_mag true m e
  refine ⟨-fixMag m e, ?_, ?_, ?_, by omega⟩
  · rw [trueAt_place .sigm hd hp.ne, trueValue_sigm]
    rfl
  · rw [cutAt, ← hv, ← harg]; exact fixArg_real hp.ne he
  · rw [abs_neg, abs_of_pos m1]; exact m2

omit hi in
theorem cutAt_neg : cutAt i < 0 := by
  have hx : ((placeValue i : ℚ) : ℝ) < 0 := by
    have := placeValue_lt.2 h0
    rwa [placeValue_zero, Rat.cast_zero] at this
  exact max_lt (by norm_num) (min_lt_of_right_lt hx)

theorem sigm_below_fit : (trueAt .sigm i).IsMag false ∧ Fit (trueAt .sigm i) (sigmoid (cutAt i)) := by
  obtain ⟨w, hw, hc, hb, hneg⟩ := sigm_below_at hi h0
  obtain ⟨m, e, hd, hp, hv⟩ := place_parts hi h0.ne
  have ht := trueAt_place .sigm hd hp.ne
  have hnear : (trueAt .sigm i).NearReal (sigmoid (cutAt i)) 4500 := by
    rw [ht, cutAt, ← hv]; exact trueValue_sigm_near hp
  have hfine : (trueAt .sigm i).IsFine := by rw [ht]; exact trueValue_isFine hp
  have hsign : (trueAt .sigm i).sign = false := by
    rw [ht]; exact (trueValue_stands (fn := .sigm) hp (by simp)).sign (.inr (.inr rfl))
  obtain ⟨hm, hest⟩ := hnear.estimate hfine hsign
  refine ⟨hm, hest, ?_, ?_⟩
  · have := (sigmoid_bounds (cutAt_neg h0).le).1
    have := Real.exp_pos (cutAt i)
    linarith
  · have hexpo : (trueAt .sigm i).expo = w / fixLn2 - 400 := by rw [hw]; rfl
    obtain ⟨-, hfit, hlow⟩ := fixPowE_fit hb
    rw [hc] at hfit
    have h1 := hlow.trans hfit.le_two_mul.1
    have h2 := (sigmoid_bounds (cutAt_neg h0).le).1
    have h3 : (4 : ℝ) * 2 ^ (-400 : ℤ) ≤ 2 ^ (-390 : ℤ) := mul_zpow_le (by norm_num)
    have hk : (2 : ℝ) ^ (w / fixLn2 - 400) = 2 ^ (w / fixLn2) * 2 ^ (-400 : ℤ) := by rw [← zpow_add₀ two_ne_zero]; rfl
    have h4 : (0 : ℝ) < 2 ^ (-400 : ℤ) := by positivity
    have h5 := mul_le_mul_of_nonneg_right h1 h4.le
    have h6 : 0 ≤ sigmoid (cutAt i) := by
      have := Real.exp_pos (cutAt i)
      linarith
    have h7 := mul_le_mul_of_nonneg_left h3 h6
    have h8 := mul_le_mul_of_nonneg_right h2 h4.le
    rw [hexpo, hk]
    generalize (2 : ℝ) ^ (-400 : ℤ) = u at *
    generalize (2 : ℝ) ^ (-390 : ℤ) = v at *
    linarith

end

theorem sigm_below_ordered {i j : Int} (hi : i.natAbs ≤ fp32.maxCode) (hj : j.natAbs ≤ fp32.maxCode) (hij : i ≤ j) (hj0 : j < 0) :
    Ordered (trueAt .sigm i) (trueAt .sigm j) := by
  have hi0 : i < 0 := by omega
  rcases cutAt_gap hij with h | h
  · obtain ⟨w, hw, hc, -, -⟩ := sigm_below_at hi hi0
    obtain ⟨w', hw', hc', -, -⟩ := sigm_below_at hj hj0
    have : w = w' := by
      rw [← hc, ← hc', div_left_inj' fixOne_posR.ne'] at h
      exact_mod_cast h
    rw [hw, hw', this]
    exact Ordered.refl _
  · obtain ⟨h1, h2⟩ := sigmoid_gap (cutAt_neg hj0).le (step_large.trans h)
    exact (sigm_below_fit hi hi0).2.ordered (sigm_below_fit hj hj0).2 (by decide) h1 h2

/-- Where a sigmoid is 2^-j, in fixed point, off the multiples of 2^-149. -/
theorem fixLog_pred : ∀ j : Fin 125, (2 : ℤ) ^ 210 ≤ fixLog (2 ^ ((j : ℕ) + 2) - 1) 0 % 2 ^ 251 ∧
    fixLog (2 ^ ((j : ℕ) + 2) - 1) 0 % 2 ^ 251 ≤ 2 ^ 251 - 2 ^ 210 := by
  decide +kernel

end Sys2Proof.Machine

namespace Sys2Proof.Machine

/-! # The sigmoid below 0 rises (R63) -/

theorem sigmoid_zero : sigmoid 0 = 1 / 2 := by rw [sigmoid]; norm_num

theorem sigmoid_power {j : ℕ} (hj : 1 ≤ j) : sigmoid (-Real.log (2 ^ j - 1)) = (2 : ℝ) ^ (-(j : ℤ)) := by
  have h1 : (1 : ℝ) < 2 ^ j := one_lt_pow₀ one_lt_two (by omega)
  rw [sigmoid, neg_neg, Real.exp_log (by linarith), zpow_neg, zpow_natCast]
  rw [add_sub_cancel, one_div]

/-- No sigmoid of a multiple of 2^-149 lies beside a power of two below 1/2. -/
theorem sigmoid_power_apart {x : ℝ} {z : ℤ} (hx : x = z * 2 ^ (-149 : ℤ)) (h0 : x ≤ 0) {k : ℤ} (hk : -126 < k) (hk' : k ≤ -2) :
    sigmoid x * 2 ^ (-302 : ℤ) ≤ |sigmoid x - 2 ^ k| := by
  obtain ⟨j, rfl⟩ : ∃ j : ℕ, k = -((j + 2 : ℕ) : ℤ) := ⟨(-k - 2).toNat, by omega⟩
  have hone : (1 : ℝ) < 2 ^ (j + 2) := one_lt_pow₀ one_lt_two (by omega)
  have hfour : (4 : ℝ) ≤ 2 ^ (j + 2) := by
    have := pow_le_pow_right₀ (one_le_two (α := ℝ)) (by omega : 2 ≤ j + 2)
    norm_num at this ⊢
    exact this
  rw [← sigmoid_power (by omega : 1 ≤ j + 2)]
  refine sigmoid_apart h0 (neg_nonpos.2 (Real.log_nonneg (by linarith))) ?_
  obtain ⟨a, b⟩ := fixLog_pred ⟨j, by omega⟩
  have hm0 : 2 ^ (j + 2) - 1 ≠ 0 := by
    have : 2 ^ 2 ≤ 2 ^ (j + 2) := Nat.pow_le_pow_right two_pos (by omega)
    omega
  have hlog : Nat.log2 (2 ^ (j + 2) - 1) ≤ 126 := by
    have h1 : 2 ^ (j + 2) - 1 < 2 ^ 127 := lt_of_lt_of_le (Nat.sub_lt (Nat.two_pow_pos _) one_pos) (Nat.pow_le_pow_right two_pos (by omega))
    have := (Nat.log2_lt hm0).2 h1
    omega
  have hnear := fixLog_near hm0 0 (by omega)
  have hcast : ((2 ^ (j + 2) - 1 : ℕ) : ℝ) * 2 ^ (0 : ℤ) = 2 ^ (j + 2) - 1 := by
    rw [zpow_zero, mul_one, Nat.cast_sub (Nat.one_le_two_pow)]
    push_cast
    rfl
  rw [hcast] at hnear
  have hbound : |fixOne * Real.log (2 ^ (j + 2) - 1) - fixLog (2 ^ (j + 2) - 1) 0| ≤ 60000 := by
    rw [abs_sub_comm]
    refine hnear.trans ?_
    have : |((0 + Nat.log2 (2 ^ (j + 2) - 1) : ℤ) : ℝ)| ≤ 126 := by
      rw [zero_add, Int.cast_natCast, abs_of_nonneg (Nat.cast_nonneg _)]
      exact_mod_cast hlog
    linarith
  have hfar := grid_far_of_near a b hbound (-z)
  have e1 : |((-z : ℤ) : ℝ) * 2 ^ (-149 : ℤ) - Real.log (2 ^ (j + 2) - 1)| = |x - -Real.log (2 ^ (j + 2) - 1)| := by
    rw [hx, ← abs_neg]
    congr 1
    push_cast
    ring
  rw [e1] at hfar
  exact (zpow_le_zpow_right₀ one_le_two (by decide)).trans hfar

section

variable {i : Int} (hi : i.natAbs ≤ fp32.maxCode) (h0 : i < 0)
include hi h0

theorem sigm_below_half : (trueAt .sigm i).mid < 2 ^ (-1 : ℤ) := by
  obtain ⟨hest, hpos, hexpo⟩ := (sigm_below_fit hi h0).2
  have hstep : (2 : ℝ) ^ (-149 : ℤ) ≤ 0 - cutAt i := by
    have := (cutAt_gap (i := i) (j := 0) h0.le).resolve_left (by
      have := cutAt_neg h0
      rw [show cutAt 0 = 0 by rw [cutAt, placeValue_zero, cutArg_of_small (by norm_num)]; simp]
      exact this.ne)
    rwa [show cutAt 0 = 0 by rw [cutAt, placeValue_zero, cutArg_of_small (by norm_num)]; simp] at this
  obtain ⟨-, hgap⟩ := sigmoid_gap le_rfl (step_large.trans hstep)
  rw [sigmoid_zero] at hgap
  have hle := (abs_le.1 hest).2
  have h1 : (4500 : ℝ) * 2 ^ (-390 : ℤ) ≤ 2 ^ (-303 : ℤ) :=
    mul_zpow_le ((by norm_num : (4500 : ℝ) ≤ 2 ^ (16 : ℤ)).trans (zpow_le_zpow_right₀ one_le_two (by decide)))
  have h2 : (1 : ℝ) / 2 * 2 ^ (-302 : ℤ) = 2 ^ (-303 : ℤ) := by
    rw [show (1 / 2 : ℝ) = 2 ^ (-1 : ℤ) by norm_num, ← zpow_add₀ two_ne_zero]; rfl
  have h3 := mul_le_mul_of_nonneg_left h1 hpos.le
  have h4 : (0 : ℝ) < 2 ^ (-303 : ℤ) := by positivity
  rw [h2] at hgap
  rw [show (2 : ℝ) ^ (-1 : ℤ) = 1 / 2 by norm_num]
  generalize (2 : ℝ) ^ (-303 : ℤ) = u at *
  generalize (2 : ℝ) ^ (-390 : ℤ) = w at *
  nlinarith

theorem sigm_below_apart {k : ℤ} (hk : -126 < k) (hk' : k ≤ -2) : (trueAt .sigm i).Apart k := by
  obtain ⟨z, hz⟩ := cutAt_grid i
  exact (sigm_below_fit hi h0).2.apart (by decide) (sigmoid_power_apart hz (cutAt_neg h0).le hk hk')

theorem sigm_below_signed : SignedAt .sigm false i := ⟨(sigm_below_fit hi h0).1, (sigm_below_fit hi h0).2.ne⟩

theorem sigm_power_le {k : ℤ} (h : (2 : ℝ) ^ k ≤ (trueAt .sigm i).mid) : k ≤ -2 := by
  have := (zpow_lt_zpow_iff_right₀ (one_lt_two (α := ℝ))).1 (h.trans_lt (sigm_below_half hi h0))
  omega

end

theorem rising_sigm_below : Rising .sigm false (-fp32.maxCode) (-1) where
  number t h1 h2 := (sigm_below_fit (i := t) (by omega) (by omega)).1
  ordered s t h1 h2 h3 := sigm_below_ordered (i := s) (j := t) (by omega) (by omega) h2 (by omega)
  apart p k h1 h2 hk hbelow habove := by
    have hp : p.natAbs ≤ fp32.maxCode := by omega
    have hnext : (2 : ℝ) ^ k ≤ (trueAt .sigm (p + 1)).mid := habove (p + 1) (by omega) (by omega)
    have ha : ∀ j : ℤ, -126 < j → j ≤ -2 → (trueAt .sigm p).Apart j := fun j h1 h2 => sigm_below_apart hp (by omega) h1 h2
    exact ⟨ha k hk (sigm_power_le (by omega) (by omega) hnext), fun j hj hle => ha j hj (sigm_power_le hp (by omega) hle)⟩
  start := by
    have hm : 0 < fp32.maxCode := by decide
    have hlo : (-(fp32.maxCode : ℤ)).natAbs ≤ fp32.maxCode := by omega
    have h1 := (sigm_below_fit hlo (by omega)).2.le_two_mul.1
    have hb := (sigmoid_bounds (cutAt_neg (i := -fp32.maxCode) (by omega)).le).2
    have hcut := cutAt_lowest
    have h2 := exp_neg_small (v := -cutAt (-fp32.maxCode)) (by linarith)
    rw [neg_neg] at h2
    have h3 : (2 : ℝ) * 2 ^ (-200 : ℤ) ≤ 2 ^ (-126 : ℤ) := mul_zpow_le (by norm_num)
    have h4 : (2 : ℝ) ^ (-126 : ℤ) < 2 ^ (-125 : ℤ) := zpow_lt_zpow_right₀ one_lt_two (by decide)
    show (trueAt .sigm (-fp32.maxCode)).mid < _
    linarith

end Sys2Proof.Machine

namespace Sys2Proof.Machine

/-! # The sigmoid above 0, and everywhere (R63) -/

theorem fixVal_mid {x k : ℤ} (h : 0 ≤ x) : (fixVal x k).mid = x * 2 ^ (k - 400) := by
  show (x.natAbs : ℝ) * 2 ^ (k - 400) = _
  rw [Nat.cast_natAbs, abs_of_nonneg h]

/-- Fixed-point values with one power of two are in order with their integers. -/
theorem fixVal_ordered {x x' k : ℤ} (h0 : 0 ≤ x) (h : x ≤ x') : Ordered (fixVal x k) (fixVal x' k) := by
  have hu : (0 : ℝ) < 2 ^ (k - 400) := by positivity
  have hle : (fixVal x k).mid ≤ (fixVal x' k).mid := by
    rw [fixVal_mid h0, fixVal_mid (h0.trans h)]
    exact mul_le_mul_of_nonneg_right (by exact_mod_cast h) hu.le
  exact ⟨hle, sub_le_sub_right hle _, add_le_add_left hle _⟩

theorem ediv_antitone {a b c : ℤ} (ha : 0 ≤ a) (hb : 0 < b) (h : b ≤ c) : a / c ≤ a / b := by
  rw [Int.le_ediv_iff_mul_le hb]
  have hq : 0 ≤ a / c := Int.ediv_nonneg ha (hb.le.trans h)
  exact (mul_le_mul_of_nonneg_left h hq).trans (Int.ediv_mul_le a (by omega))

theorem leastNear_le {n : Bool} {k : Int} (hk : -127 ≤ k) (y : FVal) : leastNear n k y ≤ powerPlace k := by
  have hpos : 0 ≤ powerPlace k := by unfold powerPlace; omega
  unfold leastNear
  cases hf : (([4, 3, 2, 1].map fun (d : Nat) => powerPlace k - d).find? fun p => withinUlps 2 (decodeFp fp32 (fp32.signed n p.natAbs)) y) with
  | none => exact hpos
  | some p =>
    obtain ⟨d, -, rfl⟩ := List.mem_map.1 (List.mem_of_find?_eq_some hf)
    simp

/-- What is left of a number is at most its power of two. -/
theorem leastMagnitude_le {fn : SpecialFn} {n : Bool} {t : Int} {m : Nat} {e : Int} (h : -126 < leadExp m e) :
    leastMagnitude fn (along n t) (.fin n m e) ≤ powerPlace (leadExp m e) := by
  rw [leastMagnitude_find h]
  split
  · exact Int.sub_le_self _ (by decide)
  · exact leastNear_le (by omega) _

section

variable {m m' : Nat} {e e' : Int} (h : Parts m e) (h' : Parts m' e')
include h

theorem sigmMag_lt : sigmMag m e < fixOne := by
  obtain ⟨m1, m2, -⟩ := fixMag_parts h
  have hS := fixOne_pos
  have ht := fixShift_pos (w := -fixMag m e) (by omega) (by omega)
  unfold sigmMag
  rw [Int.ediv_lt_iff_lt_mul (by omega)]
  exact mul_lt_mul_of_pos_left (by omega) hS

include h' in
theorem sigmMag_mono (hle : (m : ℝ) * 2 ^ e ≤ m' * 2 ^ e') : sigmMag m e ≤ sigmMag m' e' := by
  obtain ⟨m1, m2, -⟩ := fixMag_parts h
  obtain ⟨m1', m2', -⟩ := fixMag_parts h'
  have hmag := fixMag_mono h h' hle
  have hS := fixOne_pos
  have ht := fixShift_pos (w := -fixMag m' e') (by omega) (by omega)
  have hmono := fixShift_mono (w := -fixMag m' e') (w' := -fixMag m e) (by omega) (by omega)
  exact ediv_antitone (mul_nonneg hS.le hS.le) (by omega) (by omega)

end

section

variable {i : Int} (hi : i.natAbs ≤ fp32.maxCode) (h0 : 0 < i)
include h0

theorem cutAt_pos : 0 < cutAt i := by
  have hx : (0 : ℝ) < ((placeValue i : ℚ) : ℝ) := by
    have := placeValue_lt.2 h0
    rwa [placeValue_zero, Rat.cast_zero] at this
  exact lt_max_of_lt_right (lt_min (by norm_num) hx)

include hi

/-- The computed value above 0, by its size. -/
theorem above_parts (fn : SpecialFn) : ∃ m e, trueAt fn i = trueValue fn false m e ∧ Parts m e ∧ ((placeValue i : ℚ) : ℝ) = m * 2 ^ e := by
  obtain ⟨m, e, hd, hp, hv⟩ := place_parts hi h0.ne'
  rw [decide_eq_false (by omega)] at hd hv
  refine ⟨m, e, trueAt_place fn hd hp.ne, hp, ?_⟩
  rw [← hv, cast_finiteValue]
  simp [signOf]

theorem sigm_above_at : ∃ x : ℤ, trueAt .sigm i = fixVal x 0 ∧ 0 ≤ x ∧ x < fixOne ∧ Estimate (fixVal x 0) (sigmoid (cutAt i)) := by
  obtain ⟨m, e, ht, hp, hv⟩ := above_parts hi h0 .sigm
  have hfix : trueAt .sigm i = fixVal (sigmMag m e) 0 := by rw [ht, trueValue_sigm]; rfl
  have hx0 := (sigmMag_near hp).1
  refine ⟨sigmMag m e, hfix, hx0, sigmMag_lt hp, ?_⟩
  have hnear := trueValue_sigm_near (neg := false) hp
  rw [← ht, hfix, cast_finiteValue] at hnear
  have hfin : (FVal.NearReal (fixVal (sigmMag m e) 0) (sigmoid (cutAt i)) 4500) := by
    rw [cutAt, hv]
    simpa [signOf, sigmoid] using hnear
  exact (hfin.estimate (fixVal_isFine (by decide)) (fixVal_sign hx0)).2

theorem sigm_above_bounds : (trueAt .sigm i).IsMag false ∧ 2 ^ (-1 : ℤ) ≤ (trueAt .sigm i).low ∧ (trueAt .sigm i).mid < 1 := by
  obtain ⟨x, hx, x0, x1, hest⟩ := sigm_above_at hi h0
  rw [hx]
  refine ⟨⟨_, _, _, rfl, fun _ => fixVal_sign (k := 0) x0, by unfold Fine; omega⟩, ?_, ?_⟩
  · have hstep : (2 : ℝ) ^ (-149 : ℤ) ≤ 0 - -cutAt i := by
      have hc0 : cutAt 0 = 0 := by rw [cutAt, placeValue_zero, cutArg_of_small (by norm_num)]; simp
      have := (cutAt_gap (i := 0) (j := i) h0.le).resolve_left (by rw [hc0]; exact (cutAt_pos h0).ne)
      rw [hc0] at this
      linarith
    obtain ⟨-, hgap⟩ := sigmoid_gap le_rfl (step_large.trans hstep)
    have hsym : sigmoid (cutAt i) = 1 - sigmoid (-cutAt i) := by
      have := Real.exp_pos (cutAt i)
      rw [sigmoid_eq (cutAt i), sigmoid, neg_neg]
      field_simp
      ring
    rw [sigmoid_zero] at hgap
    have h2 : (1 : ℝ) / 2 * 2 ^ (-302 : ℤ) = 2 ^ (-303 : ℤ) := by
      rw [show (1 / 2 : ℝ) = 2 ^ (-1 : ℤ) by norm_num, ← zpow_add₀ two_ne_zero]; rfl
    have h3 : (40000 : ℝ) * 2 ^ (-400 : ℤ) ≤ 2 ^ (-303 : ℤ) :=
      mul_zpow_le ((by norm_num : (40000 : ℝ) ≤ 2 ^ (16 : ℤ)).trans (zpow_le_zpow_right₀ one_le_two (by decide)))
    have hexpo : (fixVal x 0).expo = -400 := rfl
    have hlow := (abs_le.1 hest).1
    unfold FVal.low
    rw [error_le_expo, hexpo]
    rw [hexpo, hsym] at hlow
    rw [h2] at hgap
    rw [show (2 : ℝ) ^ (-1 : ℤ) = 1 / 2 by norm_num]
    have h4 : (0 : ℝ) < 2 ^ (-400 : ℤ) := by positivity
    generalize (2 : ℝ) ^ (-303 : ℤ) = u at *
    generalize (2 : ℝ) ^ (-400 : ℤ) = w at *
    linarith
  · rw [fixVal_mid x0]
    have hxR : (x : ℝ) < fixOne := by exact_mod_cast x1
    rw [cast_fixOneR] at hxR
    have := mul_lt_mul_of_pos_right hxR (by positivity : (0 : ℝ) < 2 ^ ((0 : ℤ) - 400))
    rwa [← zpow_add₀ two_ne_zero, show (400 : ℤ) + (0 - 400) = 0 by norm_num, zpow_zero] at this

theorem sigm_above_half : (2 : ℝ) ^ (-1 : ℤ) ≤ (trueAt .sigm i).mid := (sigm_above_bounds hi h0).2.1.trans (FVal.low_le _)

theorem sigm_above_signed : SignedAt .sigm false i := by
  refine ⟨(sigm_above_bounds hi h0).1, fun hm => ?_⟩
  have := sigm_above_half hi h0
  rw [FVal.mid, hm, Nat.cast_zero, zero_mul] at this
  exact absurd this (not_le.2 (by positivity))

theorem sigm_above_apart : ∀ k, -126 < k → (2 : ℝ) ^ k ≤ (trueAt .sigm i).mid → (trueAt .sigm i).Apart k := fun k _ hk => by
  obtain ⟨-, hlow, hlt⟩ := sigm_above_bounds hi h0
  refine ⟨fun h => absurd h (not_lt.2 hk), fun _ => le_trans ?_ hlow⟩
  have := (zpow_lt_zpow_iff_right₀ (one_lt_two (α := ℝ))).1 (hk.trans_lt (hlt.trans_eq (zpow_zero (2 : ℝ)).symm))
  exact zpow_le_zpow_right₀ one_le_two (by omega)

theorem sigm_above_ulp : (trueAt .sigm i).ulp = 2 ^ (-24 : ℤ) := by
  obtain ⟨hm, -, hlt⟩ := sigm_above_bounds hi h0
  exact hm.ulp_eq (k := -1) (by decide) (sigm_above_half hi h0) (by simpa using hlt)

/-- Above 0 the pin leaves no less than the least magnitude. -/
theorem sigm_above_least : leastMagnitude .sigm i (trueAt .sigm i) ≤ 0x3F000000 := by
  obtain ⟨hm, -, hlt⟩ := sigm_above_bounds hi h0
  obtain ⟨m, e, hy, hlead⟩ := hm.shape (k := -1) (sigm_above_half hi h0) (by simpa using hlt)
  have := leastMagnitude_le (fn := .sigm) (n := false) (t := i) (m := m) (e := e) (by omega)
  rw [hlead] at this
  rw [hy]
  exact this

end

theorem sigm_above_ordered {i j : Int} (hi : i.natAbs ≤ fp32.maxCode) (hj : j.natAbs ≤ fp32.maxCode) (hi0 : 0 < i) (hij : i ≤ j) :
    Ordered (trueAt .sigm i) (trueAt .sigm j) := by
  obtain ⟨m, e, ht, hp, hv⟩ := above_parts hi hi0 .sigm
  obtain ⟨m', e', ht', hp', hv'⟩ := above_parts hj (hi0.trans_le hij) .sigm
  have hle : (m : ℝ) * 2 ^ e ≤ m' * 2 ^ e' := by
    rw [← hv, ← hv', Rat.cast_le]; exact placeValue_mono hij
  rw [ht, ht', trueValue_sigm, trueValue_sigm]
  exact fixVal_ordered (sigmMag_near hp).1 (sigmMag_mono hp hp' hle)

theorem pinSide_sigm {i c : Int} : PinSide .sigm i c ↔ if i > 0 then 0x3F000000 ≤ c else c ≤ 0x3F000000 :=
  ⟨fun h => h 0 _ rfl, fun h i0 v0 hp => by cases hp; exact h⟩

theorem powerPlace_neg_one : powerPlace (-1) = 0x3F000000 := by decide

theorem sigm_signed {i : Int} (hi : i.natAbs ≤ fp32.maxCode) (h0 : i ≠ 0) : SignedAt .sigm false i := by
  rcases lt_or_gt_of_ne h0 with h | h
  · exact sigm_below_signed hi h
  · exact sigm_above_signed hi h

theorem sigm_finite {i : Int} (hi : i.natAbs ≤ fp32.maxCode) (h0 : i ≠ 0) : nearCode .sigm i ≠ fp32.infCode := by
  obtain ⟨m, e, hd, hp, -⟩ := place_parts hi h0
  rw [nearCode, trueAt_place .sigm hd hp.ne]
  exact trueValue_size hp (by simp) (by simp) (by simp)

theorem sigm_near_pin {i : Int} (hi : i.natAbs ≤ fp32.maxCode) (h0 : i ≠ 0) : PinSide .sigm i (fpPlace (nearCode .sigm i)) := by
  obtain ⟨m, e, ho, -⟩ := open_at (fn := .sigm) (by simp) hi h0
  obtain ⟨-, -, hp, -⟩ := near_natAbs ho (sigm_signed hi h0) (sigm_finite hi h0)
  rw [pinSide_sigm, hp]
  split
  · next hpos =>
    have := power_le_near (fn := .sigm) (i := i) (n := false) (k := -1) (by decide) (sigm_above_half hi hpos)
    rw [powerPlace_neg_one] at this
    exact this
  · next hneg =>
    have hv := magValue_power (k := -1) (by decide)
    have := roundMag_le regular_fp32 .rn false (trueAt .sigm i).expo (sigm_signed hi h0).ne (b := ((-1 : ℤ) + 127).toNat * 0x800000)
      (by rw [hv]; exact (sigm_below_half hi (by omega)).le)
    simp only [signedPlace, Bool.false_eq_true, if_false]
    have hb : ((-1 : ℤ) + 127).toNat * 0x800000 = 0x3F000000 := by decide
    omega

theorem sigm_admitted {i : Int} (hi : i.natAbs ≤ fp32.maxCode) (h0 : i ≠ 0) : AdmitsAt .sigm i (fpPlace (nearCode .sigm i)) := by
  obtain ⟨m, e, ho, -⟩ := open_at (fn := .sigm) (by simp) hi h0
  have hmax : 0 < fp32.maxCode := by decide
  rcases lt_or_gt_of_ne h0 with h | h
  · exact rising_sigm_below.near_admits ho (sigm_below_signed hi h) (by unfold along; simp only [Bool.false_eq_true, if_false]; omega)
      (by unfold along; simp only [Bool.false_eq_true, if_false]; omega) (sigm_finite hi h0) (sigm_near_pin hi h0)
  · refine ho.near_admits (sigm_finite hi h0) (fun _ => ?_) (sigm_near_pin hi h0)
    have hp := sigm_near_pin hi h0
    rw [pinSide_sigm, if_pos h] at hp
    have := sigm_above_least hi h
    omega

theorem sigm_bounds {i : Int} (hi : i.natAbs ≤ fp32.maxCode) (h0 : i ≠ 0) : 0 ≤ resultPlace .sigm i ∧ resultPlace .sigm i ≤ 0x3F800000 ∧
    PinSide .sigm i (resultPlace .sigm i) := by
  obtain ⟨m, e, ho, -⟩ := open_at (fn := .sigm) (by simp) hi h0
  obtain ⟨ha, hmax⟩ := ho.resultPlace_admits (by simp) (by simp) (sigm_finite hi h0) (sigm_admitted hi h0)
  obtain ⟨hr, hp, -⟩ := AdmitsAt.facts ho (sigm_signed hi h0) (sigm_finite hi h0) ha
  have h1 := (hr.place hmax).1 (.inr (.inr rfl))
  have h2 := (hr.place hmax).2 (.inr rfl)
  exact ⟨h1, by omega, hp⟩

/-- Bounds of 2 ulps of one size cross. -/
theorem band_crosses {y y' : FVal} (h : Ordered y y') (hu : y.ulp = y'.ulp) : Crosses (Band y) (Band y') := by
  rintro c c' ⟨-, a2⟩ ⟨b1, -⟩ hlt
  have hv : ((fp32.magValue c' : ℚ) : ℝ) ≤ (fp32.magValue c : ℚ) := by
    rw [Rat.cast_le]; exact (magValue_strictMono fp32).monotone hlt.le
  have h1 := h.low
  have h2 := h.high
  rw [hu] at a2
  unfold Band
  rw [hu]
  refine ⟨⟨b1.trans hv, by linarith⟩, by linarith, by linarith⟩

theorem sigm_above_le {i j : Int} (hi : i.natAbs ≤ fp32.maxCode) (hj : j.natAbs ≤ fp32.maxCode) (hi0 : 0 < i) (hij : i < j) :
    resultPlace .sigm i ≤ resultPlace .sigm j := by
  have hj0 : 0 < j := by omega
  obtain ⟨m, e, ho, -⟩ := open_at (fn := .sigm) (by simp) hi hi0.ne'
  obtain ⟨m', e', ho', -⟩ := open_at (fn := .sigm) (by simp) hj hj0.ne'
  have si := sigm_above_signed hi hi0
  have sj := sigm_above_signed hj hj0
  have hord := sigm_above_ordered hi hj hi0 hij.le
  refine open_le (by simp) (by simp) ho ho' hij.le si sj hord.mid (fun _ => ⟨_, sigm_admitted hi hi0.ne'⟩)
    (fun _ => ⟨_, sigm_admitted hj hj0.ne'⟩) fun hinf hinf' => ?_
  have key : ∀ p : Int, p.natAbs ≤ fp32.maxCode → 0 < p → ∀ c, AdmitsAt .sigm p c ↔
      (fpPlace (nearCode .sigm p) - 8 ≤ c ∧ c ≤ fpPlace (nearCode .sigm p) + 8) ∧ InRangeAt .sigm false c ∧ 0x3F000000 ≤ c ∧
        SideOf false c ∧ Band (trueAt .sigm p) c.natAbs := by
    intro p hp hp0 c
    obtain ⟨a, g, hop, -⟩ := open_at (fn := .sigm) (by simp) hp hp0.ne'
    have sp := sigm_above_signed hp hp0
    unfold AdmitsAt
    rw [hop.decode, admits_band sp.sign (near_natAbs hop sp (sigm_finite hp hp0.ne')).1 rfl sp.mag (sigm_above_apart hp hp0)
      (keepsSide_of_range (.inr (.inr rfl)) p), pinSide_sigm, if_pos hp0]
    have hl := sigm_above_least hp hp0
    constructor
    · rintro ⟨h1, h2, h3, h4, h5, -⟩
      exact ⟨h1, h2, h3, h4, h5⟩
    · rintro ⟨h1, h2, h3, h4, h5⟩
      exact ⟨h1, h2, h3, h4, h5, by omega⟩
  refine Crosses.of_iff ?_ (key i hi hi0) (key j hj hj0)
  refine (window_crosses (near_rises ho ho' si sj hord.mid hinf hinf')).and ((Crosses.same _).and ((Crosses.same _).and
    (Crosses.signed (n := false) (P := Band (trueAt .sigm i)) (Q := Band (trueAt .sigm j)) ?_)))
  exact band_crosses hord ((sigm_above_ulp hi hi0).trans (sigm_above_ulp hj hj0).symm)

theorem sigm_below_le {i j : Int} (hi : i.natAbs ≤ fp32.maxCode) (hj : j.natAbs ≤ fp32.maxCode) (hij : i < j) (hj0 : j < 0) :
    resultPlace .sigm i ≤ resultPlace .sigm j := by
  have hi0 : i < 0 := by omega
  obtain ⟨m, e, ho, -⟩ := open_at (fn := .sigm) (by simp) hi hi0.ne
  obtain ⟨m', e', ho', -⟩ := open_at (fn := .sigm) (by simp) hj hj0.ne
  have hrank : ∀ p : Int, p.natAbs ≤ fp32.maxCode → p < 0 → -(fp32.maxCode : ℤ) ≤ along false p ∧ along false p ≤ -1 := fun p hp h0 => by
    unfold along; simp only [Bool.false_eq_true, if_false]; omega
  have hap : ∀ p : Int, p.natAbs ≤ fp32.maxCode → p < 0 → ∀ k, -126 < k → (2 : ℝ) ^ k ≤ (trueAt .sigm p).mid → (trueAt .sigm p).Apart k :=
    fun p hp h0 k hk h => sigm_below_apart hp h0 hk (sigm_power_le hp h0 h)
  exact rising_sigm_below.open_le (by simp) (by simp) ho ho' hij (sigm_below_signed hi hi0) (sigm_below_signed hj hj0) (fun _ => rfl)
    (hrank i hi hi0) (hrank j hj hj0) (hap i hi hi0) (hap j hj hj0) (keepsSide_of_range (.inr (.inr rfl)) i)
    (keepsSide_of_range (.inr (.inr rfl)) j) (PinSide.same fun i0 v0 hp => by cases hp; omega) (fun _ => sigm_near_pin hi hi0.ne)
    (fun _ => sigm_near_pin hj hj0.ne)

theorem climbs_sigm : Climbs .sigm (signedPlace true fp32.infCode) (signedPlace false fp32.infCode) := by
  obtain ⟨c1, c2⟩ := infCode_eq
  have hl : signedPlace true fp32.infCode = -0x7F800000 := by rw [c1]; rfl
  have hh : signedPlace false fp32.infCode = 0x7F800000 := by rw [c1]; rfl
  have hb := fun (i : Int) (h1 : i.natAbs ≤ fp32.maxCode) (h0 : i ≠ 0) => sigm_bounds h1 h0
  simp only [pinSide_sigm] at hb
  refine climbs_of_sides (mid := 0) (vlo := 0) (v := 0x3F000000) (vhi := 0x3F800000) (by omega) (by omega) ?_ ?_ ?_ ?_ ?_
    (by decide) (by decide) ?_ ?_
  · rw [resultPlace_inf]; decide
  · rw [resultPlace_zero]; decide
  · rw [resultPlace_inf]; decide
  · intro i h1 h2
    have := hb i (by omega) (by omega)
    rw [if_neg (by omega)] at this
    omega
  · intro i h1 h2
    have := hb i (by omega) (by omega)
    rw [if_pos (by omega)] at this
    omega
  · exact fun i j h1 h2 h3 => sigm_below_le (by omega) (by omega) h2 h3
  · exact fun i j h1 h2 h3 => sigm_above_le (by omega) (by omega) h1 h2

end Sys2Proof.Machine

namespace Sys2Proof.Machine

/-! # The hyperbolic tangent by place -/

/-! ## Over the reals -/

theorem tanh_sub (a b : ℝ) : Real.tanh b - Real.tanh a =
    2 * (Real.exp (-2 * a) - Real.exp (-2 * b)) / ((1 + Real.exp (-2 * a)) * (1 + Real.exp (-2 * b))) := by
  have := Real.exp_pos (-2 * a)
  have := Real.exp_pos (-2 * b)
  rw [tanh_eq_exp, tanh_eq_exp, div_sub_div _ _ (by positivity) (by positivity), div_eq_div_iff (by positivity) (by positivity)]
  ring

theorem tanh_spread {a b : ℝ} (ha : 0 ≤ a) (hb : 0 ≤ b) :
    |Real.exp (-2 * a) - Real.exp (-2 * b)| / 2 ≤ |Real.tanh b - Real.tanh a| := by
  have h0 := Real.exp_pos (-2 * a)
  have h1 : Real.exp (-2 * a) ≤ 1 := Real.exp_le_one_iff.2 (by linarith)
  have h0' := Real.exp_pos (-2 * b)
  have h1' : Real.exp (-2 * b) ≤ 1 := Real.exp_le_one_iff.2 (by linarith)
  have hden : (1 + Real.exp (-2 * a)) * (1 + Real.exp (-2 * b)) ≤ 4 := by nlinarith
  rw [tanh_sub, abs_div, abs_mul, abs_of_pos (by norm_num : (0 : ℝ) < 2),
    abs_of_pos (by positivity : (0 : ℝ) < (1 + Real.exp (-2 * a)) * (1 + Real.exp (-2 * b))), div_le_div_iff₀ (by norm_num) (by positivity)]
  have := abs_nonneg (Real.exp (-2 * a) - Real.exp (-2 * b))
  nlinarith

/-- Up to 1 the tangent rises by an eighth at least. -/
theorem tanh_slope {a b : ℝ} (ha : 0 ≤ a) (hab : a ≤ b) (hb : b ≤ 1) : (b - a) / 8 ≤ Real.tanh b - Real.tanh a := by
  have h1 := tanh_spread ha (ha.trans hab)
  rw [abs_of_nonneg (by have := tanh_mono hab; linarith : (0 : ℝ) ≤ Real.tanh b - Real.tanh a)] at h1
  have h2 : Real.exp (-2 * b) * (2 * (b - a)) ≤ Real.exp (-2 * a) - Real.exp (-2 * b) := by
    have h3 : Real.exp (-2 * a) = Real.exp (-2 * b) * Real.exp (2 * (b - a)) := by rw [← Real.exp_add]; congr 1; ring
    have h4 := mul_le_mul_of_nonneg_left (Real.add_one_le_exp (2 * (b - a))) (Real.exp_pos (-2 * b)).le
    rw [h3]
    linarith
  have h5 : (1 : ℝ) / 8 ≤ Real.exp (-2 * b) := by
    have h6 : Real.exp (-2) ≤ Real.exp (-2 * b) := Real.exp_le_exp.2 (by linarith)
    have h7 : Real.exp 2 ≤ 8 := by
      have h8 : Real.exp 2 = Real.exp 1 * Real.exp 1 := by rw [← Real.exp_add]; norm_num
      have h9 := Real.exp_one_lt_d9
      have := Real.exp_pos 1
      rw [h8]; nlinarith
    have h10 : (1 : ℝ) / 8 ≤ Real.exp (-2) := by
      rw [Real.exp_neg, one_div]
      exact inv_anti₀ (Real.exp_pos 2) h7
    linarith
  have h6 := mul_le_mul_of_nonneg_right h5 (by linarith : 0 ≤ 2 * (b - a))
  have h7 := le_abs_self (Real.exp (-2 * a) - Real.exp (-2 * b))
  linarith

/-- Of a small argument it lies below, by a third of the cube, nearly. -/
theorem tanh_small {x : ℝ} (h : 0 ≤ x) (h1 : x ≤ 1 / 8) : Real.tanh x ≤ x - x ^ 3 / 4 ∧ x - x ^ 3 ≤ Real.tanh x := by
  obtain ⟨h2, h3⟩ := abs_le.1 (tanh_bound h (by linarith))
  have h4 : x ^ 5 ≤ x ^ 3 * (1 / 64) := by
    have h5 : x ^ 2 ≤ 1 / 64 := by nlinarith
    have h6 : x ^ 5 = x ^ 3 * x ^ 2 := by ring
    rw [h6]
    exact mul_le_mul_of_nonneg_left h5 (by positivity)
  have h7 : 0 ≤ x ^ 3 := by positivity
  constructor <;> linarith

theorem tanh_power {j : ℕ} (hj : 1 ≤ j) : Real.tanh ((Real.log (2 ^ j + 1) - Real.log (2 ^ j - 1)) / 2) = (2 : ℝ) ^ (-(j : ℤ)) := by
  have h1 : (1 : ℝ) < 2 ^ j := one_lt_pow₀ one_lt_two (by omega)
  have he : Real.exp (-2 * ((Real.log (2 ^ j + 1) - Real.log (2 ^ j - 1)) / 2)) = (2 ^ j - 1) / (2 ^ j + 1) := by
    rw [show -2 * ((Real.log (2 ^ j + 1) - Real.log (2 ^ j - 1)) / 2) = Real.log (2 ^ j - 1) - Real.log (2 ^ j + 1) by ring, Real.exp_sub,
      Real.exp_log (by linarith), Real.exp_log (by linarith)]
  rw [tanh_eq_exp, he, zpow_neg, zpow_natCast]
  field_simp
  ring

/-! ## By place -/

/-- A computed number far from zero, with its sign. -/
theorem estimate_signed {y : FVal} {n : Bool} {v : ℝ} (h : y.Computed (signOf n * v)) (hv : 40000 * (2 : ℝ) ^ y.expo ≤ v) :
    y.IsMag n ∧ y.mant ≠ 0 ∧ Estimate y v := by
  obtain ⟨s, hm, hs, he⟩ := h.estimate
  have hu : (0 : ℝ) < 2 ^ y.expo := by positivity
  have hsn : s = n := by
    by_contra hne
    have hneg : (signOf s : ℝ) * (signOf n * v) = -v := by
      cases s <;> cases n <;> simp_all [signOf]
    have h1 := (abs_le.1 he).2
    have := y.mid_nonneg
    rw [hneg] at h1
    linarith
  subst hsn
  rw [signOf_mul_self] at he
  exact ⟨hm, mant_ne_zero_of_gap he hv, he⟩

/-- The magnitude of the place at a positive rank. -/
theorem along_parts {n : Bool} {t : Int} (h0 : 0 < t) (ht : t ≤ fp32.maxCode) (fn : SpecialFn) :
    ∃ m e, valueAlong fn n t = trueValue fn n m e ∧ Parts m e ∧ ((placeValue t : ℚ) : ℝ) = m * 2 ^ e ∧
      ((finiteValue (.fin n m e) : ℚ) : ℝ) = signOf n * (m * 2 ^ e) := by
  have hi : (along n t).natAbs ≤ fp32.maxCode := by unfold along; split <;> omega
  have hne : along n t ≠ 0 := by unfold along; split <;> omega
  have hdec : decide (along n t < 0) = n := by
    unfold along
    cases n
    · simp; omega
    · simp; omega
  obtain ⟨m, e, hd, hp, hv⟩ := place_parts hi hne
  rw [hdec] at hd hv
  have hval := cast_finiteValue n m e
  refine ⟨m, e, trueAt_place fn hd hp.ne, hp, ?_, hval⟩
  have hplace : ((placeValue (along n t) : ℚ) : ℝ) = signOf n * (placeValue t : ℚ) := by
    unfold along
    cases n
    · simp [signOf]
    · rw [if_pos rfl, placeValue_neg]; simp [signOf]
  rw [hv, hplace] at hval
  have := congrArg (fun z => (signOf n : ℝ) * z) hval
  simpa only [signOf_mul_self] using this

theorem fixShift_le {w : ℤ} (h : w < 0) : fixShift (fixPowE w) ≤ fixOne := by
  obtain ⟨a1, a2⟩ := fixPowE_parts w
  have hq : (fixPowE w).2 < 0 := Int.ediv_neg_of_neg_of_pos h fixLn2_bounds.1
  have hS := fixOne_pos
  unfold fixShift
  rw [if_neg (by omega)]
  have h1 := ediv_pow_succ_le (a := (fixPowE w).1) (b := fixOne) (d := 0) (c := (-(fixPowE w).2).toNat) a2 hS.le (by omega)
  rwa [pow_zero, Int.ediv_one] at h1

theorem tanhMag_bounds {m : Nat} {e : Int} (h : Parts m e) : 0 ≤ tanhMag m e ∧ tanhMag m e < fixOne := by
  obtain ⟨m1, m2, -⟩ := fixMag_parts h
  have hS := fixOne_pos
  have ht := fixShift_le (w := -2 * fixMag m e) (by omega)
  unfold tanhMag
  simp only
  have h1 := le_max_left 1 (fixShift (fixPowE (-2 * fixMag m e)))
  have h2 : max 1 (fixShift (fixPowE (-2 * fixMag m e))) ≤ fixOne := max_le (by omega) ht
  refine ⟨Int.ediv_nonneg (mul_nonneg (by omega) hS.le) (by omega), ?_⟩
  rw [Int.ediv_lt_iff_lt_mul (by omega), mul_comm]
  exact mul_lt_mul_of_pos_left (by omega) hS

theorem tanhMag_mono {m m' : Nat} {e e' : Int} (h : Parts m e) (h' : Parts m' e') (hle : (m : ℝ) * 2 ^ e ≤ m' * 2 ^ e') :
    tanhMag m e ≤ tanhMag m' e' := by
  obtain ⟨m1, m2, -⟩ := fixMag_parts h
  obtain ⟨m1', m2', -⟩ := fixMag_parts h'
  have hmag := fixMag_mono h h' hle
  have hS := fixOne_pos
  have ht := fixShift_le (w := -2 * fixMag m e) (by omega)
  have hmono := max_le_max (le_refl (1 : ℤ)) (fixShift_mono (w := -2 * fixMag m' e') (w' := -2 * fixMag m e) (by omega) (by omega))
  unfold tanhMag
  simp only
  have h1 := le_max_left 1 (fixShift (fixPowE (-2 * fixMag m' e')))
  have h2 : max 1 (fixShift (fixPowE (-2 * fixMag m e))) ≤ fixOne := max_le (by omega) ht
  generalize max 1 (fixShift (fixPowE (-2 * fixMag m e))) = t at *
  generalize max 1 (fixShift (fixPowE (-2 * fixMag m' e'))) = t' at *
  calc (fixOne - t) * fixOne / (fixOne + t) ≤ (fixOne - t') * fixOne / (fixOne + t) :=
        Int.ediv_le_ediv (by omega) (mul_le_mul_of_nonneg_right (by omega) hS.le)
    _ ≤ (fixOne - t') * fixOne / (fixOne + t') := ediv_antitone (mul_nonneg (by omega) hS.le) (by omega) (by omega)

end Sys2Proof.Machine

namespace Sys2Proof.Machine

/-! # tanh rises (R63) -/

/-- A tiny argument's computed tangent. -/
theorem tanh_tiny_eq {n : Bool} {m : Nat} {e : Int} (hl : leadExp m e ≤ -60) : trueValue .tanh n m e = .fin n (cubeMag m e 3) (3 * e - 19) := by
  simp only [trueValue, hl, and_self, if_true, cubeBelow_eq, reduceCtorEq, and_false, if_false]

theorem le_leadExp (m : Nat) (e : Int) : e ≤ leadExp m e := by rw [leadExp]; omega

/-- The computed tangent at a positive rank: of a tiny argument, or in fixed point. -/
theorem tanh_at {n : Bool} {t : Int} (h0 : 0 < t) (ht : t ≤ fp32.maxCode) : ∃ m e, Parts m e ∧ ((placeValue t : ℚ) : ℝ) = m * 2 ^ e ∧
    (valueAlong .tanh n t).Computed (signOf n * Real.tanh (placeValue t : ℚ)) ∧
    ((leadExp m e ≤ -60 ∧ (valueAlong .tanh n t).expo = 3 * e - 19) ∨
      (-60 < leadExp m e ∧ valueAlong .tanh n t = fixVal (if n then -tanhMag m e else tanhMag m e) 0)) := by
  obtain ⟨m, e, hy, hp, hv, hval⟩ := along_parts (n := n) h0 ht .tanh
  have hc := trueValue_computed (fn := .tanh) (neg := n) hp (by simp)
  rw [← hy, hval, SpecialFn.cutValue, ← hv] at hc
  have hodd : Real.tanh (signOf n * ((placeValue t : ℚ) : ℝ)) = signOf n * Real.tanh (placeValue t : ℚ) := by
    cases n
    · simp [signOf]
    · simp [signOf, Real.tanh_neg]
  rw [hodd] at hc
  refine ⟨m, e, hp, hv, hc, ?_⟩
  by_cases hl : leadExp m e ≤ -60
  · exact .inl ⟨hl, by rw [hy, tanh_tiny_eq hl]; rfl⟩
  · exact .inr ⟨by omega, by rw [hy, trueValue_tanh hl]⟩

theorem placeValue_pos {t : Int} (h0 : 0 < t) : (0 : ℝ) < (placeValue t : ℚ) := by
  have := placeValue_lt.2 h0
  rwa [placeValue_zero, Rat.cast_zero] at this

section

variable {n : Bool} {t : Int} (h0 : 0 < t) (ht : t ≤ fp32.maxCode)
include h0 ht

/-- A computed tangent is far finer than its size. -/
theorem tanh_fine : 40000 * (2 : ℝ) ^ (valueAlong .tanh n t).expo ≤ Real.tanh (placeValue t : ℚ) ∧ (valueAlong .tanh n t).expo ≤ -199 := by
  obtain ⟨m, e, hp, hv, -, hcase⟩ := tanh_at (n := n) h0 ht
  have hle := le_leadExp m e
  have hlow := leadExp_le hp.ne e
  rcases hcase with ⟨hl, hexpo⟩ | ⟨hl, hy⟩
  · rw [hexpo, hv]
    have hhigh := lt_leadExp m e
    have h59 : (m : ℝ) * 2 ^ e ≤ 1 / 8 := by
      refine hhigh.le.trans ((zpow_le_zpow_right₀ one_le_two (by omega : leadExp m e + 1 ≤ -3)).trans ?_)
      norm_num
    have hx : (0 : ℝ) ≤ m * 2 ^ e := by positivity
    have h1 := (tanh_small hx h59).2
    have h2 : (2 : ℝ) ^ e ≤ m * 2 ^ e := (zpow_le_zpow_right₀ one_le_two hle).trans hlow
    have h3 : (40000 : ℝ) * 2 ^ (3 * e - 19) ≤ 2 ^ (e - 1) := mul_zpow_le (le_trans (by norm_num : (40000 : ℝ) ≤ 2 ^ (16 : ℤ)) (zpow_le_zpow_right₀ one_le_two (by omega)))
    have h4 : (2 : ℝ) ^ (e - 1) = 2 ^ e / 2 := by rw [zpow_sub_one₀ two_ne_zero]; ring
    have h5 : (m * 2 ^ e : ℝ) ^ 3 ≤ m * 2 ^ e * (1 / 2) := by
      have : (m * 2 ^ e : ℝ) ^ 2 ≤ 1 / 2 := by nlinarith
      calc (m * 2 ^ e : ℝ) ^ 3 = m * 2 ^ e * (m * 2 ^ e) ^ 2 := by ring
        _ ≤ _ := mul_le_mul_of_nonneg_left this hx
    exact ⟨by linarith, by omega⟩
  · have hexpo : (valueAlong .tanh n t).expo = -400 := by rw [hy]; rfl
    rw [hexpo, hv]
    refine ⟨?_, by decide⟩
    have h59 : (2 : ℝ) ^ (-59 : ℤ) ≤ m * 2 ^ e := (zpow_le_zpow_right₀ one_le_two (by omega)).trans hlow
    have hsmall : (2 : ℝ) ^ (-59 : ℤ) ≤ 1 / 8 := by norm_num
    have h1 := (tanh_small (by positivity : (0 : ℝ) ≤ 2 ^ (-59 : ℤ)) hsmall).2
    have h2 := tanh_mono h59
    have h3 : (40000 : ℝ) * 2 ^ (-400 : ℤ) ≤ 2 ^ (-60 : ℤ) :=
      mul_zpow_le ((by norm_num : (40000 : ℝ) ≤ 2 ^ (16 : ℤ)).trans (zpow_le_zpow_right₀ one_le_two (by decide)))
    have h4 : (2 : ℝ) ^ (-60 : ℤ) ≤ 2 ^ (-59 : ℤ) - (2 ^ (-59 : ℤ)) ^ 3 := by norm_num
    exact h3.trans (h4.trans (h1.trans h2))

theorem tanh_along : (valueAlong .tanh n t).IsMag n ∧ (valueAlong .tanh n t).mant ≠ 0 ∧ Estimate (valueAlong .tanh n t) (Real.tanh (placeValue t : ℚ)) := by
  obtain ⟨m, e, -, -, hc, -⟩ := tanh_at (n := n) h0 ht
  exact estimate_signed hc (tanh_fine h0 ht).1

end

theorem tanh_along_zero (n : Bool) : valueAlong .tanh n 0 = .fin false 0 (-400) := by cases n <;> decide +kernel

theorem tanh_along_number {n : Bool} {t : Int} (h0 : 0 ≤ t) (ht : t ≤ fp32.maxCode) :
    (valueAlong .tanh n t).IsMag n ∧ Estimate (valueAlong .tanh n t) (Real.tanh (placeValue t : ℚ)) ∧ (valueAlong .tanh n t).expo ≤ -199 := by
  rcases h0.eq_or_lt with rfl | h0
  · rw [tanh_along_zero, placeValue_zero, Rat.cast_zero, Real.tanh_zero]
    refine ⟨⟨_, _, _, rfl, fun h => absurd rfl h, by unfold Fine; omega⟩, ?_, by decide⟩
    unfold Estimate FVal.mid
    simp only [FVal.mant, FVal.expo, Nat.cast_zero, zero_mul, sub_zero, abs_zero]
    positivity
  · obtain ⟨h1, -, h2⟩ := tanh_along (n := n) h0 ht
    exact ⟨h1, h2, (tanh_fine h0 ht).2⟩

theorem fixVal_signed_ordered {n : Bool} {a b : ℤ} (h0 : 0 ≤ a) (h : a ≤ b) :
    Ordered (fixVal (if n then -a else a) 0) (fixVal (if n then -b else b) 0) := by
  cases n
  · exact fixVal_ordered h0 h
  · have hmid : ∀ x : ℤ, (fixVal (-x) 0).mid = (fixVal x 0).mid := fun x => by
      show ((-x).natAbs : ℝ) * _ = (x.natAbs : ℝ) * _
      rw [Int.natAbs_neg]
      rfl
    have hord := fixVal_ordered (k := 0) h0 h
    have hle : (fixVal (-a) 0).mid ≤ (fixVal (-b) 0).mid := by rw [hmid, hmid]; exact hord.mid
    exact ⟨hle, sub_le_sub_right hle _, add_le_add_left hle _⟩

theorem tanh_ordered {n : Bool} {s t : Int} (h0 : 0 ≤ s) (hst : s ≤ t) (ht : t ≤ fp32.maxCode) :
    Ordered (valueAlong .tanh n s) (valueAlong .tanh n t) := by
  rcases hst.eq_or_lt with rfl | hst
  · exact Ordered.refl _
  obtain ⟨-, es, xs⟩ := tanh_along_number (n := n) h0 (by omega)
  obtain ⟨-, et, xt⟩ := tanh_along_number (n := n) (h0.trans hst.le) ht
  -- Below 1 the tangents stand apart.
  have apart : ((placeValue s : ℚ) : ℝ) ≤ 1 / 2 → Ordered (valueAlong .tanh n s) (valueAlong .tanh n t) := fun hs => by
    refine ordered_of_gap es et ?_
    have hs0 : (0 : ℝ) ≤ (placeValue s : ℚ) := by
      have : placeValue 0 ≤ placeValue s := placeValue_mono h0
      rw [placeValue_zero] at this
      exact_mod_cast this
    have hgap := placeValue_gap hst
    have hpos : (0 : ℝ) < 2 ^ (-149 : ℤ) := by positivity
    have hhalf : (2 : ℝ) ^ (-149 : ℤ) ≤ 2 ^ (-1 : ℤ) := zpow_le_zpow_right₀ one_le_two (by decide)
    rw [zpow_neg_one] at hhalf
    have hmin : ((placeValue s : ℚ) : ℝ) + 2 ^ (-149 : ℤ) ≤ min (1 : ℝ) ((placeValue t : ℚ) : ℝ) := by
      generalize (2 : ℝ) ^ (-149 : ℤ) = w at *
      exact le_min (by linarith) (by linarith)
    have h1 := tanh_slope hs0 (le_trans (le_add_of_nonneg_right hpos.le) hmin) (min_le_left 1 ((placeValue t : ℚ) : ℝ))
    have h2 := tanh_mono (min_le_right 1 ((placeValue t : ℚ) : ℝ))
    have b1 : (2 : ℝ) ^ (valueAlong .tanh n s).expo ≤ 2 ^ (-199 : ℤ) := zpow_le_zpow_right₀ one_le_two xs
    have b2 : (2 : ℝ) ^ (valueAlong .tanh n t).expo ≤ 2 ^ (-199 : ℤ) := zpow_le_zpow_right₀ one_le_two xt
    have b3 : (1000000 : ℝ) * 2 ^ (-199 : ℤ) ≤ 2 ^ (-149 : ℤ) := mul_zpow_le (by norm_num)
    have hu : (0 : ℝ) < 2 ^ (-199 : ℤ) := by positivity
    generalize (2 : ℝ) ^ (-199 : ℤ) = u at *
    generalize (2 : ℝ) ^ (-149 : ℤ) = w at *
    linarith
  rcases h0.eq_or_lt with rfl | h0
  · exact apart (by rw [placeValue_zero, Rat.cast_zero]; norm_num)
  · obtain ⟨m, e, hp, hv, -, hcase⟩ := tanh_at (n := n) h0 (by omega)
    obtain ⟨m', e', hp', hv', -, hcase'⟩ := tanh_at (n := n) (h0.trans hst) ht
    rcases hcase with ⟨hl, -⟩ | ⟨hl, hy⟩
    · refine apart ?_
      rw [hv]
      refine (lt_leadExp m e).le.trans ((zpow_le_zpow_right₀ one_le_two (by omega : leadExp m e + 1 ≤ -1)).trans ?_)
      norm_num
    · have hle : (m : ℝ) * 2 ^ e ≤ m' * 2 ^ e' := by
        rw [← hv, ← hv', Rat.cast_le]; exact placeValue_mono hst.le
      have hlead := leadExp_mono hp.ne e e' hle
      rcases hcase' with ⟨hl', -⟩ | ⟨hl', hy'⟩
      · omega
      · rw [hy, hy']
        exact fixVal_signed_ordered (tanhMag_bounds hp).1 (tanhMag_mono hp hp' hle)

/-- Computed tangents stay below 1. -/
theorem tanh_lt_one_mid {n : Bool} {t : Int} (h0 : 0 ≤ t) (ht : t ≤ fp32.maxCode) : (valueAlong .tanh n t).mid < 1 := by
  rcases h0.eq_or_lt with rfl | h0
  · rw [tanh_along_zero]
    unfold FVal.mid
    simp [FVal.mant]
  · obtain ⟨m, e, hp, hv, -, hcase⟩ := tanh_at (n := n) h0 ht
    rcases hcase with ⟨hl, hexpo⟩ | ⟨hl, hy⟩
    · obtain ⟨-, -, hest⟩ := tanh_along (n := n) h0 ht
      have h1 := (abs_le.1 hest).2
      have h2 := (tanh_fine (n := n) h0 ht).1
      have hx0 := placeValue_pos h0
      have hx1 : ((placeValue t : ℚ) : ℝ) ≤ 1 / 8 := by
        rw [hv]
        refine (lt_leadExp m e).le.trans ((zpow_le_zpow_right₀ one_le_two (by omega : leadExp m e + 1 ≤ -3)).trans ?_)
        norm_num
      have h3 := (tanh_small hx0.le hx1).1
      have h4 : (0 : ℝ) ≤ ((placeValue t : ℚ) : ℝ) ^ 3 := by positivity
      linarith
    · obtain ⟨b0, b1⟩ := tanhMag_bounds hp
      have hxR : (tanhMag m e : ℝ) < fixOne := by exact_mod_cast b1
      rw [cast_fixOneR] at hxR
      have hlt := mul_lt_mul_of_pos_right hxR (by positivity : (0 : ℝ) < 2 ^ ((0 : ℤ) - 400))
      rw [← zpow_add₀ two_ne_zero, show (400 : ℤ) + (0 - 400) = 0 by norm_num, zpow_zero, ← fixVal_mid b0] at hlt
      rw [hy]
      cases n
      · exact hlt
      · have : (fixVal (-tanhMag m e) 0).mid = (fixVal (tanhMag m e) 0).mid := by
          show ((-tanhMag m e).natAbs : ℝ) * _ = ((tanhMag m e).natAbs : ℝ) * _
          rw [Int.natAbs_neg]
          rfl
        simp only [if_true]
        rw [this]
        exact hlt

end Sys2Proof.Machine

namespace Sys2Proof.Machine

/-! # No tangent lies beside a power of two (R63) -/

/-- Twice where a tangent is 2^-j, in fixed point, off the multiples of 2^-149. -/
theorem fixLog_ratio : ∀ j : Fin 59, (2 : ℤ) ^ 210 ≤ (fixLog (2 ^ ((j : ℕ) + 1) + 1) 0 - fixLog (2 ^ ((j : ℕ) + 1) - 1) 0) % 2 ^ 251 ∧
    (fixLog (2 ^ ((j : ℕ) + 1) + 1) 0 - fixLog (2 ^ ((j : ℕ) + 1) - 1) 0) % 2 ^ 251 ≤ 2 ^ 251 - 2 ^ 210 := by
  decide +kernel

/-- A logarithm in fixed point, of a number up to 2^60. -/
theorem fixLog_error {m : Nat} (hm : m ≠ 0) (h : m < 2 ^ 100) : |fixOne * Real.log m - fixLog m 0| ≤ 1000 := by
  have hlog : Nat.log2 m < 100 := (Nat.log2_lt hm).2 h
  have hnear := fixLog_near hm 0 (by omega)
  rw [zpow_zero, mul_one, abs_sub_comm] at hnear
  refine hnear.trans ?_
  have : |((0 + Nat.log2 m : ℤ) : ℝ)| ≤ 100 := by
    rw [zero_add, Int.cast_natCast, abs_of_nonneg (Nat.cast_nonneg _)]
    exact_mod_cast hlog.le
  linarith

/-- An argument that is not tiny has a tangent apart from the powers of two down to 2^-59. -/
theorem tanh_power_apart {x : ℝ} {z : ℤ} (hx : x = z * 2 ^ (-149 : ℤ)) (h0 : 0 ≤ x) {j : ℕ} (hj : 1 ≤ j) (hj' : j ≤ 59) :
    (2 : ℝ) ^ (-303 : ℤ) ≤ |Real.tanh x - 2 ^ (-(j : ℤ))| := by
  obtain ⟨i, rfl⟩ : ∃ i, j = i + 1 := ⟨j - 1, by omega⟩
  have hone : (2 : ℝ) ≤ 2 ^ (i + 1) := le_self_pow₀ one_le_two (by omega)
  rw [← tanh_power hj]
  set b := (Real.log (2 ^ (i + 1) + 1) - Real.log (2 ^ (i + 1) - 1)) / 2 with hb
  have hb0 : 0 ≤ b := by
    have := Real.log_le_log (by linarith : (0 : ℝ) < 2 ^ (i + 1) - 1) (by linarith : (2 : ℝ) ^ (i + 1) - 1 ≤ 2 ^ (i + 1) + 1)
    linarith
  obtain ⟨n1, n2⟩ := fixLog_ratio ⟨i, by omega⟩
  have h2i : 2 ^ (i + 1) ≤ 2 ^ 59 := Nat.pow_le_pow_right two_pos (by omega)
  have h2i' : 2 ≤ 2 ^ (i + 1) := Nat.le_self_pow (by omega) 2
  have e1 := fixLog_error (m := 2 ^ (i + 1) + 1) (by omega) (by omega)
  have e2 := fixLog_error (m := 2 ^ (i + 1) - 1) (by omega) (by omega)
  have hbound : |fixOne * (2 * b) - ((fixLog (2 ^ (i + 1) + 1) 0 - fixLog (2 ^ (i + 1) - 1) 0 : ℤ) : ℝ)| ≤ 60000 := by
    rw [Nat.cast_sub (by omega)] at e2
    push_cast at e1 e2 ⊢
    have h2b : 2 * b = Real.log (2 ^ (i + 1) + 1) - Real.log (2 ^ (i + 1) - 1) := by rw [hb]; ring
    rw [h2b, mul_sub, abs_le]
    obtain ⟨a1, a2⟩ := abs_le.1 e1
    obtain ⟨a3, a4⟩ := abs_le.1 e2
    constructor <;> linarith
  have hfar := grid_far_of_near n1 n2 hbound (2 * z)
  have harg : |((2 * z : ℤ) : ℝ) * 2 ^ (-149 : ℤ) - 2 * b| = |-2 * b - -2 * x| := by
    rw [hx]
    congr 1
    push_cast
    ring
  rw [harg] at hfar
  have hexp := exp_apart ((zpow_le_zpow_right₀ one_le_two (by decide : (-220 : ℤ) ≤ -200)).trans hfar)
  have hspread := tanh_spread hb0 h0
  have hu : (1 : ℝ) / 3 ≤ Real.exp (-2 * b) := by
    have : -2 * b = Real.log (2 ^ (i + 1) - 1) - Real.log (2 ^ (i + 1) + 1) := by rw [hb]; ring
    rw [this, Real.exp_sub, Real.exp_log (by linarith), Real.exp_log (by linarith), div_le_div_iff₀ (by norm_num) (by linarith)]
    linarith
  have h300 : (2 : ℝ) ^ (-303 : ℤ) = 2 ^ (-300 : ℤ) / 8 := by
    rw [show (-303 : ℤ) = -300 - 3 by norm_num, zpow_sub₀ two_ne_zero]
    norm_num
  have hp : (0 : ℝ) < 2 ^ (-300 : ℤ) := by positivity
  have h3 := mul_le_mul_of_nonneg_right hu hp.le
  rw [h300]
  generalize (2 : ℝ) ^ (-300 : ℤ) = w at *
  linarith

section

variable {m : Nat} {e : Int} (h : Parts m e) (hl : leadExp m e ≤ -60)
include h hl

/-- A tiny argument's tangent is apart from every power of two. -/
theorem tanh_tiny_apart {k : ℤ} : 40000 * (2 : ℝ) ^ (3 * e - 19) ≤ |Real.tanh (m * 2 ^ e) - 2 ^ k| := by
  have hle := le_leadExp m e
  have hlow := leadExp_le h.ne e
  have hhigh := lt_leadExp m e
  have hx8 : (m : ℝ) * 2 ^ e ≤ 1 / 8 := by
    refine hhigh.le.trans ((zpow_le_zpow_right₀ one_le_two (by omega : leadExp m e + 1 ≤ -3)).trans ?_)
    norm_num
  have hx0 : (0 : ℝ) ≤ m * 2 ^ e := by positivity
  obtain ⟨t1, t2⟩ := tanh_small hx0 hx8
  have hcube : (0 : ℝ) ≤ (m * 2 ^ e : ℝ) ^ 3 := by positivity
  have hstep : (40000 : ℝ) * 2 ^ (3 * e - 19) ≤ 2 ^ (e - 2) :=
    mul_zpow_le ((by norm_num : (40000 : ℝ) ≤ 2 ^ (16 : ℤ)).trans (zpow_le_zpow_right₀ one_le_two (by omega)))
  have hu : (0 : ℝ) < 2 ^ e := by positivity
  have hq : (2 : ℝ) ^ (e - 2) = 2 ^ e / 4 := (zpow_quarter e).symm
  rcases lt_trichotomy ((m : ℝ) * 2 ^ e) (2 ^ k) with hlt | heq | hgt
  · -- Below: at least a step of the argument away.
    have hk : leadExp m e < k := (lt_pow_iff h.ne e k).1 hlt
    obtain ⟨d, hd⟩ : ∃ d : ℕ, k = e + d := ⟨(k - e).toNat, by omega⟩
    have hpk : (2 : ℝ) ^ k = 2 ^ d * 2 ^ e := by rw [hd, zpow_add₀ two_ne_zero, zpow_natCast, mul_comm]
    rw [hpk] at hlt ⊢
    have hmd : m < 2 ^ d := by exact_mod_cast lt_of_mul_lt_mul_right hlt hu.le
    have hmd' : (m : ℝ) + 1 ≤ 2 ^ d := by exact_mod_cast hmd
    have hgap := mul_le_mul_of_nonneg_right hmd' hu.le
    rw [abs_sub_comm]
    refine hstep.trans (le_trans ?_ (le_abs_self _))
    linarith
  · -- At the power: the cube is missing.
    rw [← heq, abs_sub_comm]
    refine le_trans ?_ (le_abs_self _)
    have h1 : (2 : ℝ) ^ (3 * e) ≤ (m * 2 ^ e : ℝ) ^ 3 := by
      rw [mul_comm, zpow_mul]
      norm_cast
      have : (2 : ℝ) ^ e ≤ m * 2 ^ e := (zpow_le_zpow_right₀ one_le_two hle).trans hlow
      exact pow_le_pow_left₀ hu.le this 3
    have h2 : (40000 : ℝ) * 2 ^ (3 * e - 19) ≤ 2 ^ (3 * e) / 4 := by
      rw [zpow_quarter]
      exact mul_zpow_le (by rw [show 3 * e - 2 - (3 * e - 19) = 17 by ring]; norm_num)
    linarith
  · -- Above: the cube is less than a step.
    have h1 : (m * 2 ^ e : ℝ) ^ 3 ≤ 2 ^ e / 4 := by
      have hlog := h.log
      have hx : (m : ℝ) * 2 ^ e ≤ 2 ^ (e + 24) := hhigh.le.trans (zpow_le_zpow_right₀ one_le_two (by rw [leadExp]; omega))
      have h3 : (m * 2 ^ e : ℝ) ^ 3 ≤ (2 ^ (e + 24)) ^ 3 := pow_le_pow_left₀ hx0 hx 3
      refine h3.trans ?_
      rw [zpow_quarter, ← zpow_natCast, ← zpow_mul]
      refine zpow_le_zpow_right₀ one_le_two ?_
      push_cast
      omega
    have h2 : (2 : ℝ) ^ k + 2 ^ e / 2 ≤ m * 2 ^ e := by
      rcases le_or_gt e k with hek | hek
      · obtain ⟨d, hd⟩ : ∃ d : ℕ, k = e + d := ⟨(k - e).toNat, by omega⟩
        have hpk : (2 : ℝ) ^ k = 2 ^ d * 2 ^ e := by rw [hd, zpow_add₀ two_ne_zero, zpow_natCast, mul_comm]
        rw [hpk] at hgt ⊢
        have hmd : 2 ^ d < m := by exact_mod_cast lt_of_mul_lt_mul_right hgt hu.le
        have hmd' : (2 : ℝ) ^ d + 1 ≤ m := by exact_mod_cast hmd
        have := mul_le_mul_of_nonneg_right hmd' hu.le
        linarith
      · have hk1 : (2 : ℝ) ^ k ≤ 2 ^ (e - 1) := zpow_le_zpow_right₀ one_le_two (by omega)
        have h4 : (2 : ℝ) ^ (e - 1) = 2 ^ e / 2 := by rw [zpow_sub_one₀ two_ne_zero]; ring
        have h5 : (2 : ℝ) ^ e ≤ m * 2 ^ e := (zpow_le_zpow_right₀ one_le_two hle).trans hlow
        linarith
    refine hstep.trans (le_trans ?_ (le_abs_self _))
    linarith

end

theorem tanh_along_apart {n : Bool} {t : Int} (h0 : 0 < t) (ht : t ≤ fp32.maxCode) {k : ℤ} (hk : k ≤ -1) : (valueAlong .tanh n t).Apart k := by
  obtain ⟨m, e, hp, hv, -, hcase⟩ := tanh_at (n := n) h0 ht
  obtain ⟨-, -, hest⟩ := tanh_along (n := n) h0 ht
  refine apart_of_gap hest ?_
  rcases hcase with ⟨hl, hexpo⟩ | ⟨hl, hy⟩
  · rw [hexpo, hv]; exact tanh_tiny_apart hp hl
  · have hexpo : (valueAlong .tanh n t).expo = -400 := by rw [hy]; rfl
    rw [hexpo]
    have hsmall : (40000 : ℝ) * 2 ^ (-400 : ℤ) ≤ 2 ^ (-303 : ℤ) :=
      mul_zpow_le ((by norm_num : (40000 : ℝ) ≤ 2 ^ (16 : ℤ)).trans (zpow_le_zpow_right₀ one_le_two (by decide)))
    refine hsmall.trans ?_
    rcases le_or_gt k (-60) with hk60 | hk60
    · -- The tangent is larger than the power by half as much again.
      have hx : (2 : ℝ) ^ (-59 : ℤ) ≤ (placeValue t : ℚ) := by
        rw [hv]; exact (zpow_le_zpow_right₀ one_le_two (by omega)).trans (leadExp_le hp.ne e)
      have h1 := (tanh_small (by positivity : (0 : ℝ) ≤ 2 ^ (-59 : ℤ)) (by norm_num)).2
      have h2 := tanh_mono hx
      have h3 : (2 : ℝ) ^ k ≤ 2 ^ (-60 : ℤ) := zpow_le_zpow_right₀ one_le_two hk60
      have h4 : (2 : ℝ) ^ (-60 : ℤ) + 2 ^ (-61 : ℤ) ≤ 2 ^ (-59 : ℤ) - (2 ^ (-59 : ℤ)) ^ 3 := by norm_num
      have h5 : (2 : ℝ) ^ (-303 : ℤ) ≤ 2 ^ (-61 : ℤ) := zpow_le_zpow_right₀ one_le_two (by decide)
      refine h5.trans (le_trans ?_ (le_abs_self _))
      have h6 := h4.trans (h1.trans h2)
      generalize (2 : ℝ) ^ (-60 : ℤ) = u at *
      generalize (2 : ℝ) ^ (-61 : ℤ) = w at *
      linarith
    · obtain ⟨j, rfl⟩ : ∃ j : ℕ, k = -(j : ℤ) := ⟨(-k).toNat, by omega⟩
      obtain ⟨z, hz⟩ := placeValue_grid t
      exact tanh_power_apart hz (placeValue_pos h0).le (by omega) (by omega)

theorem tanh_power_le {n : Bool} {t : Int} (h0 : 0 ≤ t) (ht : t ≤ fp32.maxCode) {k : ℤ} (h : (2 : ℝ) ^ k ≤ (valueAlong .tanh n t).mid) : k ≤ -1 := by
  have h1 := h.trans_lt (tanh_lt_one_mid h0 ht)
  rw [← zpow_zero (2 : ℝ)] at h1
  have := (zpow_lt_zpow_iff_right₀ (one_lt_two (α := ℝ))).1 h1
  omega

theorem rising_tanh (n : Bool) : Rising .tanh n 0 fp32.maxCode where
  number t h1 h2 := (tanh_along_number h1 h2).1
  ordered s t h1 h2 h3 := tanh_ordered h1 h2 h3
  apart p k h1 h2 hk hbelow habove := by
    have hnext := habove (p + 1) (by omega) (by omega)
    have hk1 := tanh_power_le (by omega) (by omega) hnext
    rcases h1.eq_or_lt with rfl | h1
    · rw [tanh_along_zero]
      have hmid : (FVal.fin false 0 (-400)).mid = 0 := by simp [FVal.mid, FVal.mant]
      have hhigh : (FVal.fin false 0 (-400)).high ≤ 2 ^ (-126 : ℤ) := by
        have : (FVal.fin false 0 (-400)).high = 32768 * 2 ^ (-400 : ℤ) := by
          unfold FVal.high
          rw [hmid, zero_add, error_le_expo]
          rfl
        rw [this]
        exact mul_zpow_le ((by norm_num : (32768 : ℝ) ≤ 2 ^ (16 : ℤ)).trans (zpow_le_zpow_right₀ one_le_two (by decide)))
      have hall : ∀ j : ℤ, -126 < j → (FVal.fin false 0 (-400)).Apart j := fun j hj =>
        ⟨fun _ => hhigh.trans (zpow_le_zpow_right₀ one_le_two hj.le), fun h => absurd h (by rw [hmid]; exact not_le.2 (by positivity))⟩
      exact ⟨hall k hk, fun j hj _ => hall j hj⟩
    · exact ⟨tanh_along_apart h1 (by omega) hk1, fun j hj hle => tanh_along_apart h1 (by omega) (tanh_power_le h1.le (by omega) hle)⟩
  start := by
    rw [tanh_along_zero]
    unfold FVal.mid
    simp only [FVal.mant, Nat.cast_zero, zero_mul]
    positivity

/-! ## tanh everywhere -/

theorem pinSide_tanh {i c : Int} : PinSide .tanh i c ↔ if i > 0 then 0 ≤ c else c ≤ 0 :=
  ⟨fun h => h 0 _ rfl, fun h i0 v0 hp => by cases hp; exact h⟩

section

variable {i : Int} (hi : i.natAbs ≤ fp32.maxCode) (h0 : i ≠ 0)
include hi h0

theorem tanh_rank : 0 < along (decide (i < 0)) i ∧ along (decide (i < 0)) i ≤ fp32.maxCode := by
  unfold along
  by_cases h : i < 0
  · simp only [h, decide_true, if_true]; omega
  · simp only [h, decide_false, Bool.false_eq_true, if_false]; omega

theorem tanh_signed : SignedAt .tanh (decide (i < 0)) i := by
  obtain ⟨h1, h2⟩ := tanh_rank hi h0
  obtain ⟨a, b, -⟩ := tanh_along (n := decide (i < 0)) h1 h2
  rw [valueAlong_along] at a b
  exact ⟨a, b⟩

theorem tanh_finite : nearCode .tanh i ≠ fp32.infCode := by
  obtain ⟨m, e, hd, hp, -⟩ := place_parts hi h0
  rw [nearCode, trueAt_place .tanh hd hp.ne]
  exact trueValue_size hp (by simp) (by simp) (by simp)

omit hi in
theorem tanh_side {c : Int} : SideOf (decide (i < 0)) c ↔ PinSide .tanh i c := by
  rw [sideOf_iff, pinSide_tanh]
  by_cases h : i < 0
  · rw [if_pos (by simpa using h), if_neg (by omega)]
  · rw [if_neg (by simpa using h), if_pos (by omega)]

theorem tanh_near_pin : PinSide .tanh i (fpPlace (nearCode .tanh i)) := by
  obtain ⟨m, e, ho, -⟩ := open_at (fn := .tanh) (by simp) hi h0
  obtain ⟨-, -, hp, -⟩ := near_natAbs ho (tanh_signed hi h0) (tanh_finite hi h0)
  rw [← tanh_side h0, hp]
  unfold SideOf signedPlace
  split <;> simp

theorem tanh_admitted : AdmitsAt .tanh i (fpPlace (nearCode .tanh i)) := by
  obtain ⟨m, e, ho, -⟩ := open_at (fn := .tanh) (by simp) hi h0
  obtain ⟨h1, h2⟩ := tanh_rank hi h0
  exact (rising_tanh (decide (i < 0))).near_admits ho (tanh_signed hi h0) h1.le h2 (tanh_finite hi h0) (tanh_near_pin hi h0)

theorem tanh_bounds : (resultPlace .tanh i).natAbs ≤ 0x3F800000 ∧ PinSide .tanh i (resultPlace .tanh i) := by
  obtain ⟨m, e, ho, -⟩ := open_at (fn := .tanh) (by simp) hi h0
  obtain ⟨ha, hmax⟩ := ho.resultPlace_admits (by simp) (by simp) (tanh_finite hi h0) (tanh_admitted hi h0)
  obtain ⟨hr, hp, -⟩ := AdmitsAt.facts ho (tanh_signed hi h0) (tanh_finite hi h0) ha
  exact ⟨(hr.place hmax).2 (.inl rfl), hp⟩

omit hi in
theorem tanh_keeps : KeepsSide .tanh (decide (i < 0)) i := fun _ _ _ hp => (tanh_side h0).2 hp

theorem tanh_apart_self : ∀ k, -126 < k → (2 : ℝ) ^ k ≤ (trueAt .tanh i).mid → (trueAt .tanh i).Apart k := fun k _ h => by
  obtain ⟨h1, h2⟩ := tanh_rank hi h0
  rw [← valueAlong_along .tanh (decide (i < 0))] at h ⊢
  exact tanh_along_apart h1 h2 (tanh_power_le h1.le h2 h)

end

theorem tanh_open_le {i j : Int} (hi : i.natAbs ≤ fp32.maxCode) (hj : j.natAbs ≤ fp32.maxCode) (hi0 : i ≠ 0) (hj0 : j ≠ 0) (hij : i < j)
    (hside : i < 0 ↔ j < 0) : resultPlace .tanh i ≤ resultPlace .tanh j := by
  obtain ⟨m, e, ho, -⟩ := open_at (fn := .tanh) (by simp) hi hi0
  obtain ⟨m', e', ho', -⟩ := open_at (fn := .tanh) (by simp) hj hj0
  have hn : decide (j < 0) = decide (i < 0) := by simp [hside]
  obtain ⟨r1, r2⟩ := tanh_rank hi hi0
  obtain ⟨r1', r2'⟩ := tanh_rank hj hj0
  have sj := tanh_signed hj hj0
  have kj := tanh_keeps hj0
  rw [hn] at r1' r2' sj kj
  exact (rising_tanh (decide (i < 0))).open_le (by simp) (by simp) ho ho' hij (tanh_signed hi hi0) sj (fun _ => rfl) ⟨r1.le, r2⟩ ⟨r1'.le, r2'⟩
    (tanh_apart_self hi hi0) (tanh_apart_self hj hj0) (tanh_keeps hi0) kj (PinSide.same fun i0 v0 hp => by cases hp; omega)
    (fun _ => tanh_near_pin hi hi0) (fun _ => tanh_near_pin hj hj0)

theorem climbs_tanh : Climbs .tanh (signedPlace true fp32.infCode) (signedPlace false fp32.infCode) := by
  obtain ⟨c1, c2⟩ := infCode_eq
  have hl : signedPlace true fp32.infCode = -0x7F800000 := by rw [c1]; rfl
  have hh : signedPlace false fp32.infCode = 0x7F800000 := by rw [c1]; rfl
  have hb := fun (i : Int) (h1 : i.natAbs ≤ fp32.maxCode) (h0 : i ≠ 0) => tanh_bounds h1 h0
  simp only [pinSide_tanh] at hb
  refine climbs_of_sides (mid := 0) (vlo := -0x3F800000) (v := 0) (vhi := 0x3F800000) (by omega) (by omega) ?_ ?_ ?_ ?_ ?_
    (by decide) (by decide) ?_ ?_
  · rw [resultPlace_inf]; decide
  · rw [resultPlace_zero]; decide
  · rw [resultPlace_inf]; decide
  · intro i h1 h2
    have := hb i (by omega) (by omega)
    rw [if_neg (by omega)] at this
    omega
  · intro i h1 h2
    have := hb i (by omega) (by omega)
    rw [if_pos (by omega)] at this
    omega
  · exact fun i j h1 h2 h3 => tanh_open_le (by omega) (by omega) (by omega) (by omega) h2 (by omega)
  · exact fun i j h1 h2 h3 => tanh_open_le (by omega) (by omega) (by omega) (by omega) h2 (by omega)

end Sys2Proof.Machine

namespace Sys2Proof.Machine

/-! # The logarithms by place (R63) -/

/-- The place of 1, whose logarithm is 0. -/
abbrev onePlace : Int := 0x3F800000

theorem placeValue_one : placeValue onePlace = 1 := by decide +kernel

/-- Logarithms of two places stand apart. -/
theorem log_gap {i j : Int} (h0 : 0 < i) (hij : i < j) (hj : j ≤ fp32.maxCode) :
    (2 : ℝ) ^ (-277 : ℤ) ≤ Real.log (placeValue j : ℚ) - Real.log (placeValue i : ℚ) := by
  have hx := placeValue_pos h0
  have hy := placeValue_pos (h0.trans hij)
  have hgap := placeValue_gap hij
  obtain ⟨m, e, -, hp, hv⟩ := place_parts (i := j) (by omega) (by omega)
  have htop : ((placeValue j : ℚ) : ℝ) ≤ 2 ^ (128 : ℤ) := by
    rw [← hv, cast_finiteValue, decide_eq_false (by omega)]
    simp only [signOf, Bool.false_eq_true, if_false, Int.cast_one, one_mul]
    exact (lt_leadExp m e).le.trans (zpow_le_zpow_right₀ one_le_two (by have := hp.lead; omega))
  have hlog := Real.one_sub_inv_le_log_of_pos (div_pos hy hx)
  rw [Real.log_div hy.ne' hx.ne', inv_div, one_sub_div hy.ne'] at hlog
  refine le_trans ?_ hlog
  rw [le_div_iff₀ hy]
  calc (2 : ℝ) ^ (-277 : ℤ) * (placeValue j : ℚ) ≤ 2 ^ (-277 : ℤ) * 2 ^ (128 : ℤ) := by gcongr
    _ = 2 ^ (-149 : ℤ) := by rw [← zpow_add₀ two_ne_zero]; rfl
    _ ≤ _ := hgap

section

variable {fn : SpecialFn} (hfn : fn = .log2 ∨ fn = .log)
include hfn

theorem logValue_one : fn.cutValue ((placeValue onePlace : ℚ) : ℝ) = 0 := by
  rw [placeValue_one, Rat.cast_one]
  rcases hfn with rfl | rfl <;> simp [SpecialFn.cutValue]

theorem logValue_gap {i j : Int} (h0 : 0 < i) (hij : i < j) (hj : j ≤ fp32.maxCode) :
    (2 : ℝ) ^ (-277 : ℤ) ≤ fn.cutValue ((placeValue j : ℚ) : ℝ) - fn.cutValue ((placeValue i : ℚ) : ℝ) := by
  have h := log_gap h0 hij hj
  rcases hfn with rfl | rfl
  · have hl : 0 < Real.log 2 := Real.log_pos one_lt_two
    have hl1 : Real.log 2 ≤ 1 := by have := Real.log_two_lt_d9; linarith
    simp only [SpecialFn.cutValue, Real.logb]
    rw [← sub_div, le_div_iff₀ hl]
    exact (mul_le_of_le_one_right (by positivity) hl1).trans h
  · exact h

/-- The magnitude of a logarithm, and its sign. -/
theorem logValue_signed {i : Int} (h0 : 0 < i) (hi : i ≤ fp32.maxCode) (hne : i ≠ onePlace) :
    fn.cutValue ((placeValue i : ℚ) : ℝ) = signOf (decide (i < onePlace)) * |fn.cutValue ((placeValue i : ℚ) : ℝ)| ∧
      (2 : ℝ) ^ (-277 : ℤ) ≤ |fn.cutValue ((placeValue i : ℚ) : ℝ)| := by
  have hz := logValue_one hfn
  have hp : (0 : ℝ) < 2 ^ (-277 : ℤ) := by positivity
  rcases lt_or_gt_of_ne hne with h | h
  · have hg := logValue_gap hfn h0 h (by decide)
    rw [hz, zero_sub] at hg
    rw [abs_of_neg (by linarith), decide_eq_true h]
    exact ⟨by simp [signOf], hg⟩
  · have hg := logValue_gap hfn (by decide) h hi
    rw [hz, sub_zero] at hg
    rw [abs_of_pos (by linarith), decide_eq_false (by omega)]
    exact ⟨by simp [signOf], hg⟩

theorem log_computed {i : Int} (h0 : 0 < i) (hi : i ≤ fp32.maxCode) :
    (trueAt fn i).Computed (fn.cutValue ((placeValue i : ℚ) : ℝ)) ∧ (trueAt fn i).expo = -400 := by
  obtain ⟨m, e, hd, hp, hv⟩ := place_parts (i := i) (by omega) (by omega)
  rw [trueAt_place fn hd hp.ne, ← hv]
  refine ⟨trueValue_computed hp fun _ => decide_eq_false (by omega), ?_⟩
  rcases hfn with rfl | rfl
  · rw [trueValue_log2]; rfl
  · rw [trueValue_log]; rfl

theorem log_at_one : trueAt fn onePlace = .fin false 0 (-400) := by
  rcases hfn with rfl | rfl <;> decide +kernel

theorem log_signed {i : Int} (h0 : 0 < i) (hi : i ≤ fp32.maxCode) (hne : i ≠ onePlace) :
    SignedAt fn (decide (i < onePlace)) i ∧ Estimate (trueAt fn i) |fn.cutValue ((placeValue i : ℚ) : ℝ)| := by
  obtain ⟨hc, hx⟩ := log_computed hfn h0 hi
  obtain ⟨hs, hbig⟩ := logValue_signed hfn h0 hi hne
  have hsmall : (40000 : ℝ) * 2 ^ (-400 : ℤ) ≤ 2 ^ (-277 : ℤ) :=
    mul_zpow_le ((by norm_num : (40000 : ℝ) ≤ 2 ^ (16 : ℤ)).trans (zpow_le_zpow_right₀ one_le_two (by decide)))
  rw [hs] at hc
  obtain ⟨a, b, c⟩ := estimate_signed hc (by rw [hx]; exact hsmall.trans hbig)
  exact ⟨⟨a, b⟩, c⟩

theorem log_number {i : Int} (h0 : 0 < i) (hi : i ≤ fp32.maxCode) :
    Estimate (trueAt fn i) |fn.cutValue ((placeValue i : ℚ) : ℝ)| ∧ ∀ n, (if n then i ≤ onePlace else onePlace ≤ i) → (trueAt fn i).IsMag n := by
  by_cases hne : i = onePlace
  · subst hne
    rw [logValue_one hfn, log_at_one hfn]
    refine ⟨?_, fun n _ => ⟨_, _, _, rfl, fun h => absurd rfl h, by unfold Fine; omega⟩⟩
    unfold Estimate FVal.mid
    simp only [FVal.mant, FVal.expo, Nat.cast_zero, zero_mul, sub_zero, abs_zero]
    positivity
  · obtain ⟨hs, he⟩ := log_signed hfn h0 hi hne
    refine ⟨he, fun n hn => ?_⟩
    have : decide (i < onePlace) = n := by
      cases n
      · exact decide_eq_false (by simp at hn; omega)
      · exact decide_eq_true (by simp at hn; omega)
    rw [← this]
    exact hs.mag

/-- Logarithms on one side of 0 rise, or fall. -/
theorem log_ordered {i j : Int} (h0 : 0 < i) (hij : i ≤ j) (hj : j ≤ fp32.maxCode) :
    (onePlace ≤ i → Ordered (trueAt fn i) (trueAt fn j)) ∧ (j ≤ onePlace → Ordered (trueAt fn j) (trueAt fn i)) := by
  rcases hij.eq_or_lt with rfl | hij
  · exact ⟨fun _ => Ordered.refl _, fun _ => Ordered.refl _⟩
  obtain ⟨ei, -⟩ := log_number hfn h0 (by omega)
  obtain ⟨ej, -⟩ := log_number hfn (h0.trans hij) hj
  have hxi := (log_computed hfn h0 (by omega)).2
  have hxj := (log_computed hfn (h0.trans hij) hj).2
  have hgap := logValue_gap hfn h0 hij hj
  have hsmall : (40000 : ℝ) * 2 ^ (-400 : ℤ) + 40000 * 2 ^ (-400 : ℤ) ≤ 2 ^ (-277 : ℤ) := by
    rw [← add_mul]
    exact mul_zpow_le ((by norm_num : (40000 + 40000 : ℝ) ≤ 2 ^ (17 : ℤ)).trans (zpow_le_zpow_right₀ one_le_two (by decide)))
  have hside : ∀ p : Int, 0 < p → p ≤ fp32.maxCode → (onePlace ≤ p → 0 ≤ fn.cutValue ((placeValue p : ℚ) : ℝ)) ∧
      (p ≤ onePlace → fn.cutValue ((placeValue p : ℚ) : ℝ) ≤ 0) := fun p hp0 hp => by
    have hpos : (0 : ℝ) < 2 ^ (-277 : ℤ) := by positivity
    refine ⟨fun h => ?_, fun h => ?_⟩
    · rcases h.eq_or_lt with rfl | h
      · exact (logValue_one hfn).ge
      · have := logValue_gap hfn (by decide) h hp
        rw [logValue_one hfn, sub_zero] at this
        exact hpos.le.trans this
    · rcases h.eq_or_lt with rfl | h
      · exact (logValue_one hfn).le
      · have := logValue_gap hfn hp0 h (by decide)
        rw [logValue_one hfn, zero_sub] at this
        linarith
  refine ⟨fun h => ordered_of_gap ei ej ?_, fun h => ordered_of_gap ej ei ?_⟩
  · rw [hxi, hxj, abs_of_nonneg ((hside i h0 (by omega)).1 h), abs_of_nonneg ((hside j (by omega) hj).1 (by omega))]
    exact hsmall.trans hgap
  · rw [hxi, hxj, abs_of_nonpos ((hside i h0 (by omega)).2 (by omega)), abs_of_nonpos ((hside j (by omega) hj).2 h), neg_sub_neg]
    exact hsmall.trans hgap

omit hfn in
/-- A logarithm of a place is open off its exact points. -/
theorem log_open {i : Int} (h0 : 0 < i) (hi : i ≤ fp32.maxCode) :
    ∃ m e, Parts m e ∧ decodeFp fp32 (fpAtPlace false i) = .fin false m e ∧ ((placeValue i : ℚ) : ℝ) = m * 2 ^ e ∧
      (¬ExactPoint fn false m e → OpenAt fn i false m e) := by
  obtain ⟨m, e, hd, hp, hv⟩ := place_parts (i := i) (by omega) (by omega)
  rw [decide_eq_false (by omega : ¬i < 0)] at hd hv
  refine ⟨m, e, hp, hd, ?_, fun h => ⟨by omega, hd, hp.ne, fun _ => rfl, h⟩⟩
  rw [← hv, cast_finiteValue]
  simp [signOf]

end

end Sys2Proof.Machine

namespace Sys2Proof.Machine

/-! # No logarithm lies beside a power of two (R63) -/

/-- A signed power of two in fixed point, from 2^-25 to 2^6. -/
def fixSignedPower (n : Bool) (j : ℕ) : ℤ := if n then -2 ^ (375 + j) else 2 ^ (375 + j)

/-- The exponentials of the powers of two, in fixed point, off the multiples of 2^-149. -/
theorem fixPowE_powers : ∀ (n : Bool) (j : Fin 32), (2 : ℤ) ^ 210 ≤ fixShift (fixPowE (fixSignedPower n j)) % 2 ^ 251 ∧
    fixShift (fixPowE (fixSignedPower n j)) % 2 ^ 251 ≤ 2 ^ 251 - 2 ^ 210 := by
  decide +kernel

theorem fixSignedPower_real (n : Bool) (j : ℕ) : ((fixSignedPower n j : ℤ) : ℝ) / fixOne = signOf n * 2 ^ ((j : ℤ) - 25) := by
  have h : ((2 : ℝ) ^ (375 + j)) / 2 ^ (400 : ℤ) = 2 ^ ((j : ℤ) - 25) := by
    rw [← zpow_natCast, ← zpow_sub₀ two_ne_zero]
    congr 1
    push_cast
    ring
  rw [cast_fixOneR, ← h]
  cases n <;> simp [fixSignedPower, signOf, neg_div]

/-- An exponential in fixed point, of an argument up to 64. -/
theorem fixShift_close {v : ℤ} (hv : |v| ≤ 64 * fixOne) : |fixOne * Real.exp (v / fixOne) - fixShift (fixPowE v)| ≤ 2 ^ (150 : ℤ) := by
  have hone := fixOne_pos
  rw [abs_sub_comm]
  rcases lt_or_ge v 0 with h | h
  · have := (fixShift_near h (hv.trans (by linarith))).2
    exact this.trans ((by norm_num : (154 : ℝ) ≤ 2 ^ (8 : ℤ)).trans (zpow_le_zpow_right₀ one_le_two (by decide)))
  · have hq0 : 0 ≤ v / fixLn2 := Int.ediv_nonneg h fixLn2_bounds.1.le
    have hq1 : v / fixLn2 ≤ 128 := by
      rw [abs_of_nonneg h] at hv
      have : 64 * fixOne < 129 * fixLn2 := by decide +kernel
      have := Int.ediv_lt_of_lt_mul fixLn2_bounds.1 (hv.trans_lt this)
      omega
    obtain ⟨q, hq⟩ : ∃ q : ℕ, v / fixLn2 = q := ⟨(v / fixLn2).toNat, by omega⟩
    have hnear := fixPowE_near v (by rw [abs_of_nonneg hq0]; omega)
    have hq2 : (fixPowE v).2 = q := hq
    have hshift : fixShift (fixPowE v) = (fixPowE v).1 * 2 ^ q := by
      unfold fixShift
      rw [hq2, if_pos (by omega), Int.toNat_natCast]
    have hqR : ((q : ℕ) : ℝ) ≤ 128 := by exact_mod_cast (by omega : q ≤ 128)
    rw [hq2, Int.cast_natCast, zpow_natCast, Nat.abs_cast] at hnear
    have hpow : (0 : ℝ) < 2 ^ q := by positivity
    have h1 : ((fixShift (fixPowE v) : ℤ) : ℝ) - fixOne * Real.exp (v / fixOne) =
        (((fixPowE v).1 : ℝ) - fixOne * (Real.exp (v / fixOne) / 2 ^ q)) * 2 ^ q := by
      rw [hshift, sub_mul, mul_assoc, div_mul_cancel₀ _ hpow.ne']
      push_cast
      ring
    rw [h1, abs_mul, abs_of_pos hpow]
    calc _ ≤ (1024 : ℝ) * 2 ^ q := mul_le_mul_of_nonneg_right (by linarith) hpow.le
      _ ≤ 2 ^ (10 : ℤ) * 2 ^ (128 : ℤ) := by
        refine mul_le_mul (by norm_num) ?_ hpow.le (by positivity)
        rw [← zpow_natCast]
        exact zpow_le_zpow_right₀ one_le_two (by omega)
      _ = 2 ^ (138 : ℤ) := by rw [← zpow_add₀ two_ne_zero]; rfl
      _ ≤ _ := zpow_le_zpow_right₀ one_le_two (by decide)

theorem exp_64_le : Real.exp 64 ≤ 2 ^ (128 : ℤ) := by
  have h : Real.exp 64 = Real.exp 1 ^ 64 := by rw [← Real.exp_nat_mul]; norm_num
  have h4 : Real.exp 1 ≤ 4 := by have := Real.exp_one_lt_d9; linarith
  rw [h]
  exact (pow_le_pow_left₀ (Real.exp_pos 1).le h4 64).trans (by norm_num)

/-- A real near whose exponential there is no multiple of 2^-149 is no logarithm of one. -/
theorem log_far {x w : ℝ} {z : ℤ} (hx : x = z * 2 ^ (-149 : ℤ)) (h0 : 0 < x) (hw : w ≤ 64)
    (hfar : ∀ z : ℤ, (2 : ℝ) ^ (-200 : ℤ) ≤ |(z : ℝ) * (2 : ℝ) ^ (-149 : ℤ) - Real.exp w|) : (2 : ℝ) ^ (-350 : ℤ) ≤ |Real.log x - w| := by
  by_contra hlt
  have hd : |Real.log x - w| ≤ 2 ^ (-350 : ℤ) := (not_le.1 hlt).le
  have hd1 : |Real.log x - w| ≤ 1 := hd.trans (zpow_le_one_of_nonpos₀ one_le_two (by decide))
  have h1 := abs_exp_sub_exp_le hd1
  rw [Real.exp_log h0, hx] at h1
  rw [hx] at hd
  have h2 := hfar z
  have h3 : Real.exp w ≤ 2 ^ (128 : ℤ) := (Real.exp_le_exp.2 hw).trans exp_64_le
  have h4 : 2 * Real.exp w * |Real.log (z * 2 ^ (-149 : ℤ)) - w| ≤ 2 * 2 ^ (128 : ℤ) * 2 ^ (-350 : ℤ) := by gcongr
  have h5 : (2 : ℝ) * 2 ^ (128 : ℤ) * 2 ^ (-350 : ℤ) = 2 ^ (-221 : ℤ) := by
    rw [← zpow_one_add₀ two_ne_zero, ← zpow_add₀ two_ne_zero]; rfl
  have h6 : (2 : ℝ) ^ (-221 : ℤ) < 2 ^ (-200 : ℤ) := zpow_lt_zpow_right₀ one_lt_two (by decide)
  rw [h5] at h4
  exact absurd (h2.trans (h1.trans h4)) (not_le.2 h6)

/-- Off 1, a logarithm is at least 2^-25. -/
theorem log_away {i : Int} (h0 : 0 < i) (hne : i ≠ onePlace) : (2 : ℝ) ^ (-25 : ℤ) ≤ |Real.log (placeValue i : ℚ)| := by
  have hx := placeValue_pos h0
  rcases lt_or_gt_of_ne hne with h | h
  · have hle : ((placeValue i : ℚ) : ℝ) ≤ 1 - 1 / 16777216 := by
      have h1 : placeValue i ≤ placeValue (onePlace - 1) := placeValue_mono (by omega)
      have h2 : placeValue (onePlace - 1) = 1 - 1 / 16777216 := by decide +kernel
      rw [h2, ← Rat.cast_le (K := ℝ)] at h1
      push_cast at h1
      exact h1
    have h1 := Real.log_le_sub_one_of_pos hx
    have h2 : (2 : ℝ) ^ (-25 : ℤ) ≤ 1 / 16777216 := by norm_num
    exact h2.trans (le_trans (by linarith only [hle, h1]) (neg_le_abs _))
  · have hle : 1 + 1 / 8388608 ≤ ((placeValue i : ℚ) : ℝ) := by
      have h1 : placeValue (onePlace + 1) ≤ placeValue i := placeValue_mono (by omega)
      have h2 : placeValue (onePlace + 1) = 1 + 1 / 8388608 := by decide +kernel
      rw [h2, ← Rat.cast_le (K := ℝ)] at h1
      push_cast at h1
      exact h1
    have h1 := Real.log_le_log (by positivity) hle
    have h2 := Real.one_sub_inv_le_log_of_pos (by positivity : (0 : ℝ) < 1 + 1 / 8388608)
    have h3 : (2 : ℝ) ^ (-25 : ℤ) ≤ 1 - (1 + 1 / 8388608)⁻¹ := by norm_num
    exact le_trans (h3.trans (h2.trans h1)) (le_abs_self _)

/-- A logarithm of a place is apart from the powers of two up to 2^6. -/
theorem log_apart {i : Int} (h0 : 0 < i) (hi : i ≤ fp32.maxCode) (hne : i ≠ onePlace) {k : ℤ} (hk : k ≤ 6) :
    (trueAt .log i).Apart k := by
  obtain ⟨-, hest⟩ := log_signed (fn := .log) (.inr rfl) h0 hi hne
  refine apart_of_gap hest ?_
  rw [(log_computed (fn := .log) (.inr rfl) h0 hi).2]
  have hsmall : (40000 : ℝ) * 2 ^ (-400 : ℤ) ≤ 2 ^ (-350 : ℤ) :=
    mul_zpow_le ((by norm_num : (40000 : ℝ) ≤ 2 ^ (16 : ℤ)).trans (zpow_le_zpow_right₀ one_le_two (by decide)))
  refine hsmall.trans ?_
  show (2 : ℝ) ^ (-350 : ℤ) ≤ |(|Real.log (placeValue i : ℚ)|) - 2 ^ k|
  rcases lt_or_ge k (-25) with hk' | hk'
  · have h1 := log_away h0 hne
    have h2 : (2 : ℝ) ^ k ≤ 2 ^ (-26 : ℤ) := zpow_le_zpow_right₀ one_le_two (by omega)
    have h3 : (2 : ℝ) ^ (-25 : ℤ) = 2 * 2 ^ (-26 : ℤ) := by rw [← zpow_one_add₀ two_ne_zero]; rfl
    have h4 : (2 : ℝ) ^ (-350 : ℤ) ≤ 2 ^ (-26 : ℤ) := zpow_le_zpow_right₀ one_le_two (by decide)
    refine h4.trans (le_trans ?_ (le_abs_self _))
    linarith
  · obtain ⟨j, hj⟩ : ∃ j : ℕ, k = (j : ℤ) - 25 := ⟨(k + 25).toNat, by omega⟩
    have hval := (logValue_signed (fn := .log) (.inr rfl) h0 hi hne).1
    have hlog : Real.log (placeValue i : ℚ) = signOf (decide (i < onePlace)) * |Real.log (placeValue i : ℚ)| := hval
    generalize hn : decide (i < onePlace) = n at hlog
    obtain ⟨n1, n2⟩ := fixPowE_powers n ⟨j, by omega⟩
    obtain ⟨z, hz⟩ := placeValue_grid i
    have hpow : (2 : ℤ) ^ (375 + j) ≤ 64 * fixOne :=
      (pow_le_pow_right₀ (by norm_num) (by omega : 375 + j ≤ 406)).trans (by decide +kernel)
    have hv : |fixSignedPower n j| ≤ 64 * fixOne := by
      have : |fixSignedPower n j| = 2 ^ (375 + j) := by
        cases n <;> simp [fixSignedPower]
      rw [this]; exact hpow
    have hw : (signOf n : ℝ) * 2 ^ k ≤ 64 := by
      have h1 : (2 : ℝ) ^ k ≤ 2 ^ (6 : ℤ) := zpow_le_zpow_right₀ one_le_two hk
      have h2 : (0 : ℝ) < 2 ^ k := by positivity
      have h3 : (2 : ℝ) ^ (6 : ℤ) = 64 := by norm_num
      cases n
      · simp only [signOf, Bool.false_eq_true, if_false, Int.cast_one, one_mul]; linarith
      · simp only [signOf, if_true, Int.cast_neg, Int.cast_one, neg_mul, one_mul]; linarith
    have hfar := grid_far_of_close n1 n2 (fixShift_close hv)
    rw [fixSignedPower_real, ← hj] at hfar
    have h := log_far hz (placeValue_pos h0) hw hfar
    rw [hlog, ← mul_sub, abs_mul] at h
    have hone : |((signOf n : ℤ) : ℝ)| = 1 := by cases n <;> simp [signOf]
    rwa [hone, one_mul] at h

end Sys2Proof.Machine

namespace Sys2Proof.Machine

/-! # The natural logarithm rises (R63) -/

theorem log_power_le {i : Int} (h0 : 0 < i) (hi : i ≤ fp32.maxCode) {k : ℤ} (h : (2 : ℝ) ^ k ≤ (trueAt .log i).mid) : k ≤ 6 := by
  obtain ⟨hest, -⟩ := log_number (fn := .log) (.inr rfl) h0 hi
  obtain ⟨m, e, hp, -, hv, -⟩ := log_open (fn := .log) h0 hi
  have hle := (abs_le.1 hest).2
  rw [(log_computed (fn := .log) (.inr rfl) h0 hi).2] at hle
  have hmax : |Real.log (placeValue i : ℚ)| ≤ 150 * Real.log 2 := by rw [hv]; exact (fixLog_parts hp).2
  have hl2 := Real.log_two_lt_d9
  have hsmall : (4500 : ℝ) * 2 ^ (-400 : ℤ) ≤ 2 ^ (0 : ℤ) :=
    mul_zpow_le ((by norm_num : (4500 : ℝ) ≤ 2 ^ (16 : ℤ)).trans (zpow_le_zpow_right₀ one_le_two (by decide)))
  rw [zpow_zero] at hsmall
  have hlt : (2 : ℝ) ^ k < 2 ^ (7 : ℤ) := by
    have h7 : (2 : ℝ) ^ (7 : ℤ) = 128 := by norm_num
    have hcut : SpecialFn.log.cutValue ((placeValue i : ℚ) : ℝ) = Real.log (placeValue i : ℚ) := rfl
    rw [hcut] at hle
    rw [h7]
    generalize |Real.log (placeValue i : ℚ)| = a at *
    linarith
  have := (zpow_lt_zpow_iff_right₀ (one_lt_two (α := ℝ))).1 hlt
  omega

theorem log_one_apart {j : ℤ} (hj : -126 < j) : (trueAt .log onePlace).Apart j := by
  rw [log_at_one (.inr rfl)]
  have hmid : (FVal.fin false 0 (-400)).mid = 0 := by simp [FVal.mid, FVal.mant]
  have hhigh : (FVal.fin false 0 (-400)).high = 32768 * 2 ^ (-400 : ℤ) := by
    unfold FVal.high
    rw [hmid, zero_add, error_le_expo]
    rfl
  refine ⟨fun _ => ?_, fun h => absurd h (by rw [hmid]; exact not_le.2 (by positivity))⟩
  rw [hhigh]
  exact mul_zpow_le ((by norm_num : (32768 : ℝ) ≤ 2 ^ (16 : ℤ)).trans (zpow_le_zpow_right₀ one_le_two (by omega)))

theorem log_apart_at {i : Int} (h0 : 0 < i) (hi : i ≤ fp32.maxCode) {k : ℤ} (hk : -126 < k) (hk6 : k ≤ 6) : (trueAt .log i).Apart k := by
  by_cases hne : i = onePlace
  · rw [hne]; exact log_one_apart hk
  · exact log_apart h0 hi hne hk6

theorem log_start : (trueAt .log onePlace).mid < 2 ^ (-125 : ℤ) := by
  rw [log_at_one (.inr rfl)]
  unfold FVal.mid
  simp only [FVal.mant, Nat.cast_zero, zero_mul]
  positivity

/-- The ranks of the places with a logarithm of one sign. -/
def LogRank (n : Bool) (t : Int) : Prop := 0 < along n t ∧ along n t ≤ fp32.maxCode ∧ if n then along n t ≤ onePlace else onePlace ≤ along n t

theorem logRank_iff {n : Bool} {t : Int} : LogRank n t ↔ along n onePlace ≤ t ∧ t ≤ if n then -1 else (fp32.maxCode : ℤ) := by
  have : onePlace ≤ (fp32.maxCode : ℤ) := by decide
  have : 0 < onePlace := by decide
  unfold LogRank along
  cases n <;> simp only [if_true, if_false, Bool.false_eq_true] <;> omega

theorem rising_log (n : Bool) : Rising .log n (along n onePlace) (if n then -1 else (fp32.maxCode : ℤ)) where
  number t h1 h2 := by
    obtain ⟨a, b, c⟩ := logRank_iff.2 ⟨h1, h2⟩
    exact (log_number (.inr rfl) a b).2 n c
  ordered s t h1 h2 h3 := by
    obtain ⟨a, b, c⟩ := logRank_iff.2 ⟨h1, h2.trans h3⟩
    obtain ⟨a', b', c'⟩ := logRank_iff.2 ⟨h1.trans h2, h3⟩
    cases n
    · exact (log_ordered (.inr rfl) a h2 b').1 c
    · exact (log_ordered (.inr rfl) a' (by simp only [along, if_true]; omega) b).2 c
  apart p k h1 h2 hk hbelow habove := by
    obtain ⟨a, b, c⟩ := logRank_iff.2 ⟨h1, h2.le⟩
    obtain ⟨a', b', c'⟩ := logRank_iff.2 ⟨h1.trans (by omega : p ≤ p + 1), by omega⟩
    have hk1 := log_power_le a' b' (habove (p + 1) (by omega) (by omega))
    exact ⟨log_apart_at a b hk hk1, fun j hj hle => log_apart_at a b hj (log_power_le a b hle)⟩
  start := by
    unfold valueAlong
    rw [along_along]
    exact log_start

theorem pinSide_log {i c : Int} : PinSide .log i c ↔ if i > onePlace then 0 ≤ c else c ≤ 0 :=
  ⟨fun h => h onePlace _ rfl, fun h i0 v0 hp => by cases hp; exact h⟩

section

variable {i : Int} (h0 : 0 < i) (hi : i ≤ fp32.maxCode) (hne : i ≠ onePlace)
include h0 hi hne

omit hne in
theorem log_rank : along (decide (i < onePlace)) onePlace ≤ along (decide (i < onePlace)) i ∧
    along (decide (i < onePlace)) i ≤ if decide (i < onePlace) then -1 else (fp32.maxCode : ℤ) := by
  rw [← logRank_iff]
  unfold LogRank
  rw [along_along]
  refine ⟨h0, hi, ?_⟩
  by_cases h : i < onePlace
  · rw [if_pos (by simpa using h)]; omega
  · rw [if_neg (by simpa using h)]; omega

theorem log_is_open : ∃ m e, OpenAt .log i false m e ∧ finiteValue (.fin false m e) ≠ 1 := by
  obtain ⟨m, e, -, hd, hv, ho⟩ := log_open h0 hi
  have hne1 : finiteValue (.fin false m e) ≠ 1 := fun hval => by
    have hone : placeValue i = 1 := by
      rw [← hval]
      have : ((placeValue i : ℚ) : ℝ) = ((finiteValue (.fin false m e) : ℚ) : ℝ) := by rw [hv, cast_finiteValue]; simp [signOf]
      exact_mod_cast this
    exact hne (placeValue_strictMono.injective (hone.trans placeValue_one.symm))
  refine ⟨m, e, ho ?_, hne1⟩
  rintro (⟨h, -⟩ | ⟨-, hp, h | h⟩)
  · cases h
  · cases h
  · have hval := power_value (e := e) hp
    rw [h, zpow_zero] at hval
    exact hne1 hval

theorem log_finite : nearCode .log i ≠ fp32.infCode := by
  obtain ⟨m, e, ho, hne1⟩ := log_is_open h0 hi hne
  rw [nearCode, ho.trueAt]
  exact trueValue_size ho.parts (fun _ => ⟨rfl, hne1⟩) (by simp) (by simp)

omit h0 hi in
theorem log_side {c : Int} : SideOf (decide (i < onePlace)) c ↔ PinSide .log i c := by
  rw [sideOf_iff, pinSide_log]
  by_cases h : i < onePlace
  · rw [if_pos (by simpa using h), if_neg (by omega)]
  · rw [if_neg (by simpa using h), if_pos (by omega)]

theorem log_near_pin : PinSide .log i (fpPlace (nearCode .log i)) := by
  obtain ⟨m, e, ho, -⟩ := log_is_open h0 hi hne
  obtain ⟨-, -, hp, -⟩ := near_natAbs ho (log_signed (.inr rfl) h0 hi hne).1 (log_finite h0 hi hne)
  rw [← log_side hne, hp]
  unfold SideOf signedPlace
  split <;> simp

theorem logPlace_bounds : (resultPlace .log i).natAbs ≤ fp32.maxCode ∧ PinSide .log i (resultPlace .log i) := by
  obtain ⟨m, e, ho, -⟩ := log_is_open h0 hi hne
  obtain ⟨h1, h2⟩ := log_rank h0 hi
  have hs := (log_signed (.inr rfl) h0 hi hne).1
  have hf := log_finite h0 hi hne
  have hadm := (rising_log (decide (i < onePlace))).near_admits ho hs h1 h2 hf (log_near_pin h0 hi hne)
  obtain ⟨ha, hmax⟩ := ho.resultPlace_admits (by simp) (by simp) hf hadm
  exact ⟨hmax, (AdmitsAt.facts ho hs hf ha).2.1⟩

omit h0 hi in
theorem log_keeps : KeepsSide .log (decide (i < onePlace)) i := fun _ _ _ hp => (log_side hne).2 hp

end

theorem log_open_le {i j : Int} (h0 : 0 < i) (hj : j ≤ fp32.maxCode) (hi1 : i ≠ onePlace) (hj1 : j ≠ onePlace) (hij : i < j)
    (hside : i < onePlace ↔ j < onePlace) : resultPlace .log i ≤ resultPlace .log j := by
  have hi : i ≤ fp32.maxCode := hij.le.trans hj
  have h0j := h0.trans hij
  obtain ⟨m, e, ho, -⟩ := log_is_open h0 hi hi1
  obtain ⟨m', e', ho', -⟩ := log_is_open h0j hj hj1
  have hn : decide (j < onePlace) = decide (i < onePlace) := by simp [hside]
  have rj := log_rank h0j hj
  have sj := (log_signed (fn := .log) (.inr rfl) h0j hj hj1).1
  have kj := log_keeps hj1
  rw [hn] at rj sj kj
  exact (rising_log (decide (i < onePlace))).open_le (by simp) (by simp) ho ho' hij (log_signed (.inr rfl) h0 hi hi1).1 sj (fun _ => rfl)
    (log_rank h0 hi) rj (fun k _ h => log_apart h0 hi hi1 (log_power_le h0 hi h)) (fun k _ h => log_apart h0j hj hj1 (log_power_le h0j hj h))
    (log_keeps hi1) kj (PinSide.same fun i0 v0 hp => by cases hp; show i > onePlace ↔ j > onePlace; omega) (fun _ => log_near_pin h0 hi hi1) (fun _ => log_near_pin h0j hj hj1)

theorem climbs_log : Climbs .log 0 (signedPlace false fp32.infCode) := by
  obtain ⟨c1, c2⟩ := infCode_eq
  have hh : signedPlace false fp32.infCode = 0x7F800000 := by rw [c1]; rfl
  have hb := fun (i : Int) (h1 : 0 < i) (h2 : i ≤ fp32.maxCode) (h3 : i ≠ onePlace) => logPlace_bounds h1 h2 h3
  simp only [pinSide_log] at hb
  refine climbs_of_sides (mid := onePlace) (vlo := -0x7F800000) (v := 0) (vhi := 0x7F800000) (by decide) (by rw [hh]; decide) ?_ ?_ ?_ ?_ ?_
    (by decide) (by decide) ?_ ?_
  · rw [resultPlace_zero]; decide
  · decide +kernel
  · rw [resultPlace_inf]; decide
  · intro i h1 h2
    have h3 : onePlace ≤ (fp32.maxCode : ℤ) := by decide
    have := hb i h1 (by omega) (by omega)
    rw [if_neg (by omega)] at this
    omega
  · intro i h1 h2
    have h3 : 0 < onePlace := by decide
    have := hb i (by omega) (by omega) (by omega)
    rw [if_pos (by omega)] at this
    omega
  · intro i j h1 h2 h3
    have h4 : onePlace ≤ (fp32.maxCode : ℤ) := by decide
    exact log_open_le h1 (by omega) (by omega) (by omega) h2 (by omega)
  · intro i j h1 h2 h3
    have h4 : 0 < onePlace := by decide
    exact log_open_le (by omega) (by omega) (by omega) (by omega) h2 (by omega)

end Sys2Proof.Machine

namespace Sys2Proof.Machine

/-! # The logarithm to base 2 rises (R63) -/

theorem log2_one : resultPlace .log2 onePlace = 0 := by decide +kernel

theorem log2_one_exact : ExactAt (resultPlace .log2 onePlace) 0 := by
  rw [log2_one]
  exact ⟨by decide, by rw [placeValue_zero, Rat.cast_zero]⟩

theorem log2_cases {i : Int} (h0 : 0 < i) (hi : i ≤ fp32.maxCode) :
    ExactAt (resultPlace .log2 i) (Real.logb 2 (placeValue i : ℚ)) ∨
      (i ≠ onePlace ∧ ∃ m e, OpenAt .log2 i false m e ∧ BracketAt (resultPlace .log2 i) (Real.logb 2 (placeValue i : ℚ))) := by
  by_cases hone : i = onePlace
  · left
    rw [hone, placeValue_one, Rat.cast_one, Real.logb_one]
    exact log2_one_exact
  obtain ⟨m, e, hp, hd, hv, ho⟩ := log_open (fn := .log2) h0 hi
  by_cases hx : ExactPoint .log2 false m e
  · left
    obtain ⟨-, hpow, -⟩ : (SpecialFn.log2 = .log2 ∨ SpecialFn.log2 = .log) ∧ m = 2 ^ Nat.log2 m ∧ (SpecialFn.log2 = .log2 ∨ leadExp m e = 0) :=
      hx.resolve_left (by simp)
    obtain ⟨s, a, g, hda, hva⟩ := exactPoint_log hd hp.ne (.inl rfl) rfl hpow (.inl rfl)
    have hcode : (special32 .log2 (fpAtPlace false i)).1 < 2 ^ 32 := by
      have := maxCode_lt
      exact special32_lt (fpAtPlace_lt _ (by omega))
    obtain ⟨-, hmax, hplace, -⟩ := code_place hcode hda
    have hval : ((placeValue i : ℚ) : ℝ) = (2 : ℝ) ^ ((leadExp m e : ℤ) : ℝ) := by
      have h1 : ((finiteValue (.fin false m e) : ℚ) : ℝ) = m * 2 ^ e := by rw [cast_finiteValue]; simp [signOf]
      rw [hv, ← h1, power_value hpow, Real.rpow_intCast]
      push_cast
      rfl
    refine ⟨hmax, ?_⟩
    rw [resultPlace, ← hplace, hva, hval, Real.logb_rpow two_pos (by norm_num), Rat.cast_intCast]
  · right
    exact ⟨hone, m, e, ho hx,
      ((ho hx).bracket (by simp) (by simp) (fun _ => rfl) rfl (log_signed (.inl rfl) h0 hi hone).1).1⟩

theorem logb_mono {i j : Int} (h0 : 0 < i) (hij : i ≤ j) : Real.logb 2 (placeValue i : ℚ) ≤ Real.logb 2 (placeValue j : ℚ) :=
  Real.logb_le_logb_of_le one_lt_two (placeValue_pos h0) (by rw [Rat.cast_le]; exact placeValue_mono hij)

theorem logb_one_place : Real.logb 2 (placeValue onePlace : ℚ) = 0 := by rw [placeValue_one, Rat.cast_one, Real.logb_one]

theorem log2_le {i j : Int} (h0 : 0 < i) (hj : j ≤ fp32.maxCode) (hij : i < j) : resultPlace .log2 i ≤ resultPlace .log2 j := by
  have hi : i ≤ fp32.maxCode := hij.le.trans hj
  have h0j := h0.trans hij
  have hv := logb_mono h0 hij.le
  rcases log2_cases h0 hi with he | ⟨hi1, m, e, ho, hb⟩
  · rcases log2_cases h0j hj with he' | ⟨-, -, -, -, hb'⟩
    · obtain ⟨h1, h2⟩ := he
      obtain ⟨h1', h2'⟩ := he'
      rw [← h2, ← h2', Rat.cast_le, placeValue_strictMono.le_iff_le] at hv
      exact hv
    · exact he.le_bracket hb' hv
  · rcases log2_cases h0j hj with he' | ⟨hj1, m', e', ho', hb'⟩
    · exact hb.le_exact he' hv
    · have si := (log_signed (fn := .log2) (.inl rfl) h0 hi hi1).1
      have sj := (log_signed (fn := .log2) (.inl rfl) h0j hj hj1).1
      by_cases hside : i < onePlace ↔ j < onePlace
      · -- On one side of 1 the brackets cross.
        have hn : decide (j < onePlace) = decide (i < onePlace) := by simp [hside]
        rw [hn] at sj
        refine faithful_open_le (by simp) (by simp) ho ho' hij si sj (fun _ => rfl) rfl ?_
        obtain ⟨hup, hdown⟩ := log_ordered (fn := .log2) (.inl rfl) h0 hij.le hj
        by_cases h : i < onePlace
        · rw [if_pos (by simpa using h)]; exact hdown (hside.1 h).le
        · rw [if_neg (by simpa using h)]; exact hup (not_lt.1 h)
      · -- On its two sides 0 lies between them.
        have h1 := logb_mono h0 (by omega : i ≤ onePlace)
        have h2 := logb_mono (by decide) (by omega : onePlace ≤ j)
        rw [logb_one_place] at h1 h2
        exact (hb.le_exact log2_one_exact h1).trans (log2_one_exact.le_bracket hb' h2)

theorem log2_size {i : Int} (h0 : 0 < i) (hi : i ≤ fp32.maxCode) : (resultPlace .log2 i).natAbs ≤ fp32.infCode := by
  have hm := maxCode_lt_infCode
  rcases log2_cases h0 hi with ⟨h1, -⟩ | ⟨-, -, -, -, ⟨h1, -⟩ | ⟨h1, -⟩⟩
  · omega
  · omega
  · rw [h1]; simp

theorem climbs_log2 : Climbs .log2 0 (signedPlace false fp32.infCode) := by
  obtain ⟨c1, c2⟩ := infCode_eq
  have hh : signedPlace false fp32.infCode = 0x7F800000 := by rw [c1]; rfl
  have hone : 0 < onePlace ∧ onePlace ≤ (fp32.maxCode : ℤ) := by decide
  obtain ⟨o1, o2⟩ := hone
  have hb := fun (i : Int) (h1 : 0 < i) (h2 : i ≤ fp32.maxCode) => log2_size h1 h2
  refine climbs_of_sides (mid := onePlace) (vlo := -0x7F800000) (v := 0) (vhi := 0x7F800000) o1 (by rw [hh]; decide) ?_ log2_one ?_ ?_ ?_
    (by decide) (by decide) ?_ ?_
  · rw [resultPlace_zero]; decide
  · rw [resultPlace_inf]; decide
  · intro i h1 h2
    have := hb i h1 (by omega)
    have := log2_le h1 o2 h2
    rw [log2_one] at this
    omega
  · intro i h1 h2
    have := hb i (by omega) (by omega)
    have := log2_le o1 (by omega) h1
    rw [log2_one] at this
    omega
  · exact fun i j h1 h2 h3 => log2_le h1 (by omega) h2
  · exact fun i j h1 h2 h3 => log2_le (by omega) (by omega) h2

end Sys2Proof.Machine

namespace Sys2Proof.Machine

/-! # The order of numbers is the order of places (R63) -/

/-- A number of FP32, infinities included, at its place. -/
def StandsAt (x : FVal) (c : Int) : Prop :=
  (∃ n, x = .inf n ∧ c = signedPlace n fp32.infCode) ∨ (∃ n m e, x = .fin n m e ∧ c.natAbs ≤ fp32.maxCode ∧ finiteValue x = placeValue c)

theorem signedPlace_infCode (n : Bool) : signedPlace n fp32.infCode = if n then -(fp32.maxCode + 1 : Int) else fp32.maxCode + 1 := by
  cases n <;> decide

theorem StandsAt.abs_le {x : FVal} {c : Int} (h : StandsAt x c) : signedPlace true fp32.infCode ≤ c ∧ c ≤ signedPlace false fp32.infCode := by
  rw [signedPlace_infCode, signedPlace_infCode]
  simp only [if_true, Bool.false_eq_true, if_false]
  rcases h with ⟨n, -, hc⟩ | ⟨-, -, -, -, hc, -⟩
  · rw [signedPlace_infCode] at hc
    split at hc <;> omega
  · omega

theorem notAbove_iff {x y : FVal} {c d : Int} (hx : StandsAt x c) (hy : StandsAt y d) : notAbove x y ↔ c ≤ d := by
  rcases hx with ⟨n, rfl, hc⟩ | ⟨n, m, e, rfl, hc, hv⟩ <;> rcases hy with ⟨n', rfl, hd⟩ | ⟨n', m', e', rfl, hd, hv'⟩
  · rw [hc, hd]
    cases n <;> cases n' <;> simp [notAbove, numberLt, numberEq] <;> decide
  · rw [hc, signedPlace_infCode]
    cases n
    · simp only [notAbove, numberLt, numberEq, Bool.false_eq_true, false_or, if_false, false_iff]; omega
    · simp only [notAbove, numberLt, true_or, if_true, true_iff]; omega
  · rw [hd, signedPlace_infCode]
    cases n'
    · simp only [notAbove, numberLt, true_or, Bool.false_eq_true, if_false, true_iff]; omega
    · simp only [notAbove, numberLt, numberEq, Bool.true_eq_false, false_or, if_true, false_iff]; omega
  · rw [← placeValue_strictMono.le_iff_le, ← hv, ← hv']
    exact le_iff_lt_or_eq.symm

theorem notAbove_numbers {x y : FVal} (h : notAbove x y) : x.isNan = false ∧ y.isNan = false := by
  cases x with
  | nan s => rcases h with h | h <;> cases h
  | inf n => cases y with
    | nan s => rcases h with h | h <;> cases h
    | inf n' => exact ⟨rfl, rfl⟩
    | fin n' m' e' => exact ⟨rfl, rfl⟩
  | fin n m e => cases y with
    | nan s => rcases h with h | h <;> cases h
    | inf n' => exact ⟨rfl, rfl⟩
    | fin n' m' e' => exact ⟨rfl, rfl⟩

theorem infinite_code {code : Nat} {n : Bool} (hcode : code < 2 ^ 32) (hd : decodeFp fp32 code = .inf n) : code = fp32.signed n fp32.infCode := by
  obtain ⟨n', mag, hmag, he, hc⟩ := code_signed regular_fp32 code
  rw [he, decodeFp_signed regular_fp32 n' hmag] at hd
  split at hd
  · split at hd
    · next hinf => cases hd; rw [hc hcode, hinf]
    · cases hd
  · split at hd
    · cases hd
    · split at hd <;> cases hd

/-- A code that is no NaN stands at its place. -/
theorem standsAt_code {code : Nat} (hcode : code < 2 ^ 32) (hn : (decodeFp fp32 code).isNan = false) :
    StandsAt (decodeFp fp32 code) (fpPlace code) := by
  cases hd : decodeFp fp32 code with
  | nan s => rw [hd] at hn; cases hn
  | inf n =>
    refine .inl ⟨n, rfl, ?_⟩
    rw [infinite_code hcode hd]
    cases n <;> decide
  | fin n m e =>
    obtain ⟨-, h1, h2, -⟩ := code_place hcode hd
    exact .inr ⟨n, m, e, rfl, h1, h2⟩

/-- A number that is not negative stands at 0 or above. -/
theorem StandsAt.nonneg {x : FVal} {c : Int} (h : StandsAt x c) (hs : x.sign = false) : 0 ≤ c := by
  rcases h with ⟨n, rfl, hc⟩ | ⟨n, m, e, rfl, -, hv⟩
  · obtain rfl : n = false := hs
    rw [hc]
    decide
  · obtain rfl : n = false := hs
    rw [← placeValue_strictMono.le_iff_le, ← hv, placeValue_zero]
    simp only [finiteValue, Bool.false_eq_true, if_false]
    positivity

/-- The place of a result is that of the result at the input's place. -/
theorem resultPlace_code (fn : SpecialFn) {code : Nat} (hcode : code < 2 ^ 32) (hn : (decodeFp fp32 code).isNan = false) :
    resultPlace fn (fpPlace code) = fpPlace (special32 fn code).1 := by
  cases hd : decodeFp fp32 code with
  | nan s => rw [hd] at hn; cases hn
  | inf n =>
    obtain ⟨n', h, hp⟩ | ⟨_, _, _, h, -⟩ := standsAt_code hcode hn
    · obtain rfl : n = n' := by rw [hd] at h; cases h; rfl
      rw [hp, resultPlace_inf, special32_inf hd]
    · rw [hd] at h; cases h
  | fin n m e =>
    obtain ⟨hc, -, hv, hne⟩ := code_place hcode hd
    by_cases hm : m = 0
    · subst hm
      have h0 : fpPlace code = 0 := by
        have : finiteValue (.fin n 0 e) = placeValue 0 := by rw [placeValue_zero]; simp [finiteValue]
        exact placeValue_strictMono.injective (hv.symm.trans this)
      rw [h0, resultPlace_zero, special32_zero hd]
      cases fn <;> simp only [SpecialFn.atZero, h0] <;> rfl
    · obtain ⟨-, h0⟩ := hne hm
      have hsame : fpAtPlace false (fpPlace code) = fpAtPlace n (fpPlace code) := by
        rw [fpAtPlace_eq, fpAtPlace_eq, placeSign_of_ne h0, placeSign_of_ne h0]
      rw [resultPlace, hsame, ← hc]

/-- The result of a number in a function's domain is a number. -/
theorem special32_number {fn : SpecialFn} (hs : fn ≠ .sin) (hc : fn ≠ .cos) {code : Nat} (hcode : code < 2 ^ 32)
    (hl : fn = .log2 ∨ fn = .log → (decodeFp fp32 code).sign = false) (hn : (decodeFp fp32 code).isNan = false) :
    (decodeFp fp32 (special32 fn code).1).isNan = false := by
  cases hd : decodeFp fp32 code with
  | nan s => rw [hd] at hn; cases hn
  | inf n =>
    rw [hd] at hl
    rw [special32_inf hd]
    cases fn
    case sin => exact absurd rfl hs
    case cos => exact absurd rfl hc
    case log2 => obtain rfl : n = false := hl (.inl rfl)
                 decide
    case log => obtain rfl : n = false := hl (.inr rfl)
                decide
    all_goals cases n <;> decide
  | fin n m e =>
    rw [hd] at hl
    by_cases hm : m = 0
    · subst hm
      rw [special32_zero hd]
      cases fn
      case sin => exact absurd rfl hs
      case cos => exact absurd rfl hc
      case tanh => exact hn
      all_goals simp only [SpecialFn.atZero]; decide
    · obtain ⟨y, hy⟩ : ∃ y, fn.Is ((finiteValue (.fin n m e) : ℚ) : ℝ) y := by cases fn <;> exact ⟨_, rfl⟩
      rcases special32_meets hcode hd hm hl hy with ⟨hr, -⟩ | ⟨_, _, _, hr, -⟩ <;> rw [hr] <;> rfl

theorem resultPlace_climbs {fn : SpecialFn} (hs : fn ≠ .sin) (hc : fn ≠ .cos) {i j : Int} (hl : fn = .log2 ∨ fn = .log → 0 ≤ i)
    (hi : signedPlace true fp32.infCode ≤ i) (hij : i ≤ j) (hj : j ≤ signedPlace false fp32.infCode) : resultPlace fn i ≤ resultPlace fn j := by
  cases fn
  case exp2 => exact climbs_exp2 i j hi hij hj
  case log2 => exact climbs_log2 i j (hl (.inl rfl)) hij hj
  case exp => exact climbs_exp i j hi hij hj
  case log => exact climbs_log i j (hl (.inr rfl)) hij hj
  case sin => exact absurd rfl hs
  case cos => exact absurd rfl hc
  case tanh => exact climbs_tanh i j hi hij hj
  case sigm => exact climbs_sigm i j hi hij hj

/-- The results never fall as the input rises. -/
theorem special32_mono {fn : SpecialFn} {a b : Nat} (hs : fn ≠ .sin) (hc : fn ≠ .cos) (ha : a < 2 ^ 32) (hb : b < 2 ^ 32)
    (hl : fn = .log2 ∨ fn = .log → (decodeFp fp32 a).sign = false ∧ (decodeFp fp32 b).sign = false)
    (hab : notAbove (decodeFp fp32 a) (decodeFp fp32 b)) : notAbove (decodeFp fp32 (special32 fn a).1) (decodeFp fp32 (special32 fn b).1) := by
  obtain ⟨na, nb⟩ := notAbove_numbers hab
  have sa := standsAt_code ha na
  have sb := standsAt_code hb nb
  have ra := standsAt_code (special32_lt ha) (special32_number hs hc ha (fun h => (hl h).1) na)
  have rb := standsAt_code (special32_lt hb) (special32_number hs hc hb (fun h => (hl h).2) nb)
  rw [notAbove_iff ra rb, ← resultPlace_code fn ha na, ← resultPlace_code fn hb nb]
  exact resultPlace_climbs hs hc (fun h => sa.nonneg (hl h).1) sa.abs_le.1 ((notAbove_iff sa sb).1 hab) sb.abs_le.2

/-- Settles O10: the true value is computed to 250 bits and more, so what may be is within the table; and what may be crosses from
input to input, so that one place chosen for each cut never falls. -/
theorem specialFunctionsMeetTable9 : Obligations.SpecialFunctionsMeetTable9 :=
  ⟨fun _ _ _ _ _ hcode hd hm hl _ hy => special32_meets hcode hd hm hl hy,
    fun _ _ _ hs hc ha hb hl hab => special32_mono hs hc ha hb hl hab⟩

end Sys2Proof.Machine
